-- ==== Sys2Proof/Word.lean ====
section
/-! DEFINITION. The word types of the model and their plainest abbreviations. -/

namespace Sys2Proof

/-- One byte (R8: the unit of every packet, buffer and image). -/
abbrev Byte := BitVec 8

/-- A 32-bit register or field. -/
abbrev Word32 := BitVec 32

/-- A 64-bit register or field. -/
abbrev Word64 := BitVec 64

/-- A string of bytes, lowest address first (R8: little-endian values lie in it). -/
abbrev Bytes := List Byte

/-- A function of the endpoint (R46): the PF is function 0, and VF p+1 serves partition p (R5). -/
inductive Fn where
  | pf
  | vf (p : Fin 16)
  deriving DecidableEq, Repr, Inhabited

/-- A partition number (R5). -/
abbrev PartNo := Fin 16

end Sys2Proof
end

