-- ==== Sys2Proof/Machine/Bytes.lean ====
section
/-! DEFINITION. Byte strings, little-endian fields and bit fields of packets, blocks and registers (R8, R9). -/

namespace Sys2Proof.Machine

/-- The unsigned value of a byte string, lowest address least significant (R8). -/
def le : Bytes → Nat
  | [] => 0
  | b :: bs => b.toNat + 256 * le bs

/-- The `n` bytes of a value, least significant first (R8). -/
def toLe : Nat → Nat → Bytes
  | 0, _ => []
  | n + 1, v => BitVec.ofNat 8 v :: toLe n (v / 256)

/-- The bytes from an offset. -/
def slice (bs : Bytes) (off len : Nat) : Bytes := (bs.drop off).take len

/-- The field of `len` bytes at an offset. -/
def rd (bs : Bytes) (off len : Nat) : Nat := le (slice bs off len)

/-- A byte string of zeros. -/
def zeros (n : Nat) : Bytes := List.replicate n 0

/-- The string cut or padded with zeros to a length. -/
def fit (n : Nat) (bs : Bytes) : Bytes := bs.take n ++ zeros (n - bs.length)

/-- A string with new bytes laid over it at an offset. -/
def overlay (bs : Bytes) (off : Nat) (new : Bytes) : Bytes :=
  bs.take off ++ zeros (off - bs.length) ++ new ++ bs.drop (off + new.length)

/-- Whether every byte of a range is 0: the reserved-byte rule (R9). -/
def isZero (bs : Bytes) (off len : Nat) : Bool := (slice bs off len).all (· == 0)

/-- `n` bits of a value from a bit position. -/
def bits (v lo n : Nat) : Nat := v / 2 ^ lo % 2 ^ n

/-- The two's-complement reading of a `w`-bit field. -/
def signed (w v : Nat) : Int := if v % 2 ^ w < 2 ^ (w - 1) then (v % 2 ^ w : Nat) else (v % 2 ^ w : Nat) - (2 ^ w : Nat)

/-- The `w`-bit two's-complement code of a number. -/
def unsign (w : Nat) (i : Int) : Nat := (i % (2 ^ w : Nat)).toNat

/-- A saturating increment. -/
def satInc (top v : Nat) (by_ : Nat := 1) : Nat := min top (v + by_)

def isPow2 (n : Nat) : Bool := n != 0 && 2 ^ n.log2 == n

def ceilDiv (a b : Nat) : Nat := (a + b - 1) / b

def roundUp (a b : Nat) : Nat := ceilDiv a b * b

/-- The number of 1 bits among the low `n` bits. -/
def popcount (n v : Nat) : Nat := ((List.range n).filter fun i => v.testBit i).length

/-- The positions of the 1 bits among the low `n` bits. -/
def bitsSet (n v : Nat) : List Nat := (List.range n).filter fun i => v.testBit i

/-- A mask with a 1 at each listed position. -/
def maskOf (l : List Nat) : Nat := l.foldl (fun m i => m ||| 2 ^ i) 0

/-- A ring or set without repeats: the value is added at the end once. -/
def addOnce {α : Type} [BEq α] (l : List α) (a : α) : List α := if l.contains a then l else l ++ [a]

/-- Insertion into a list ordered by a relation, after equals. -/
def insertBy {α : Type} (lt : α → α → Bool) (a : α) : List α → List α
  | [] => [a]
  | b :: l => if lt a b then a :: b :: l else b :: insertBy lt a l

/-- Stable insertion sort by a strict order. -/
def sortBy {α : Type} (lt : α → α → Bool) (l : List α) : List α := l.foldl (fun acc a => insertBy lt a acc) []

/-- The first element that is least by a strict order. -/
def bestBy {α : Type} (lt : α → α → Bool) : List α → Option α
  | [] => none
  | a :: l => some (l.foldl (fun b c => if lt c b then c else b) a)

/-- An association list with the value of a key replaced or added. -/
def setKey {κ ν : Type} [BEq κ] (l : List (κ × ν)) (k : κ) (v : ν) : List (κ × ν) :=
  if l.any (fun x => x.1 == k) then l.map (fun x => if x.1 == k then (k, v) else x) else l ++ [(k, v)]

/-- The value of a key, or a default. -/
def getKey {κ ν : Type} [BEq κ] (l : List (κ × ν)) (k : κ) (d : ν) : ν := (l.lookup k).getD d

/-- A list cut into pieces of `n` from a fuel bound (the list's length is enough). -/
def chunks {α : Type} (n : Nat) : Nat → List α → List (List α)
  | 0, _ => []
  | f + 1, l => if l.isEmpty then [] else l.take n :: chunks n f (l.drop n)

/-- splitmix64 (R149). -/
def splitmix64 (x : Word64) : Word64 :=
  let x := x + 0x9E3779B97F4A7C15#64
  let x := (x ^^^ (x >>> 30)) * 0xBF58476D1CE4E5B9#64
  let x := (x ^^^ (x >>> 27)) * 0x94D049BB133111EB#64
  x ^^^ (x >>> 31)

/-- The generated projection element, in BF16 bits: −1.0 where bit 63 is set, else 1.0 (R149). -/
def projElem (pseed : Word64) (i j : Nat) : Nat :=
  if (splitmix64 (pseed ^^^ (BitVec.ofNat 64 i <<< 32) ^^^ BitVec.ofNat 64 j)).getLsbD 63 then 0xBF80 else 0x3F80

/-- Byte k of the generated matrix, row-major over DIM columns. -/
def projByte (pseed : Word64) (dim k : Nat) : Byte :=
  BitVec.ofNat 8 (projElem pseed (k / 2 / dim) (k / 2 % dim) / (if k % 2 = 0 then 1 else 256))

end Sys2Proof.Machine
end

