-- ==== Sys2Proof/Syntax.lean ====
section
/-! DEFINITION. The commands of the block: one constructor of `Instr` per row of spec/opcode_table.json, with its operands. -/

namespace Sys2Proof

/-- What the device's reads of host memory return for one queue entry: the parameter block, the two scatter lists and
the input bytes they describe (R92, R93). The host's memory is outside the device, so its content comes with the command. -/
structure HostData where
  param   : Bytes := []
  inList  : Bytes := []
  input   : Bytes := []
  outList : Bytes := []
  deriving DecidableEq, Repr, Inhabited

/-- The header of a routed transport frame (R472). -/
structure FrameHdr where
  src    : Nat := 0
  dest   : Nat := 0
  domain : Nat := 0
  seq    : Nat := 0
  epoch  : Nat := 0
  ttl    : Nat := 0
  vc     : Nat := 0
  cls    : Nat := 0
  last   : Bool := true
  tag    : Nat := 0
  aux    : Nat := 0
  len    : Nat := 0
  deriving DecidableEq, Repr, Inhabited

/-- A completion that is to be posted: its command, and whether the write's translation, under a PASID, says not present (R86). -/
structure PostedWrite where
  cid   : Nat
  fault : Bool
  deriving DecidableEq, Repr, Inhabited

/-- A place in a function's registers: an offset in its BAR0, or in its BAR4, the MSI-X table (R54). -/
inductive BarPlace where
  | bar0 (off : Nat)
  | bar4 (off : Nat)
  deriving DecidableEq, Repr, Inhabited

/-- One entry of a member list (R474). -/
structure ListEntry where
  gid     : Nat
  key     : Nat
  slot    : Nat
  member  : Nat
  payload : Bytes := []
  deriving DecidableEq, Repr, Inhabited

/-- What a CMD frame carries (R473): fan-out and member steps. -/
inductive CmdBody where
  /-- a search, scan or fetch of another device's command, with its read stamp and absolute deadline (R199, R275) -/
  | fanout (coll : Bytes) (packet : Bytes) (data : HostData) (readStamp : Nat) (deadline : Option Nat)
  /-- prepare of a mesh mutation: this member's share, in input order (R288) -/
  | prepare (coll : Bytes) (packet : Bytes) (data : HostData)
  /-- apply after every member prepared (R288) -/
  | apply
  /-- abort after some member failed to prepare (R288) -/
  | abort
  /-- a share of a mesh lookup for the device `requester`: (bag, index, weight as FP32 bits) in stream order, and POOL (R358) -/
  | lookup (coll : Bytes) (requester : Nat) (shares : List (Nat × Nat × Nat)) (pool : Nat)
  /-- a participant's pairs for a step: per row its elements' (hi, lo), or in ASSIGN mode its value (R349, R359, R360) -/
  | pairs (coll : Bytes) (step incarnation member : Nat) (rows : List (Nat × List (Nat × Nat))) (values : List (Nat × Bytes))
  /-- the payloads of surviving entries are asked for, by global id and slot (R267) -/
  | payloadAsk (handle : Nat) (slots : List (Nat × Nat))
  /-- the target of a handoff is asked for a block slot (R366 phase 1) -/
  | handoffAsk (coll : Bytes) (block : Nat)
  /-- the target answers the ask -/
  | handoffSlot (coll : Bytes) (block : Nat) (granted : Bool)
  /-- lines of a block, copied or dirty (R366) -/
  | handoffLines (coll : Bytes) (block : Nat) (lines : List (Nat × Bytes))
  /-- COMMIT of a handoff (R366) -/
  | handoffCommit (coll : Bytes) (block : Nat)
  /-- SHARD_MIGRATE asks a current owner to hand a block to a target (R365) -/
  | shardAsk (coll : Bytes) (block target : Nat)
  /-- SHARD_MIGRATE asks its owners and its target what room they have, before any handoff begins (R365) -/
  | shardCheck (coll : Bytes)
  /-- the new owner has installed a block: the handoff commit (R366) -/
  | handoffInstalled (coll : Bytes) (block : Nat)
  /-- a change of the ownership directory, and its acknowledgement (R366 phase 2) -/
  | directory (coll : Bytes) (block owner epoch : Nat)
  | directoryAck (coll : Bytes) (block : Nat)
  /-- no forwarding END of the old owner is awaited any more (R366 phase 2) -/
  | forwardDone (coll : Bytes) (block : Nat)
  /-- END of a participant with its parameter block, or a forwarding END of a block's old owner (R359, R366) -/
  | endStep (coll : Bytes) (member step participants incarnation : Nat) (forwarded : Option Nat) (param : Bytes)
  /-- a member's report of a step to a participant (R361) -/
  | stepReport (coll : Bytes) (step member : Nat) (applied : Bool) (stamp rows skipped : Nat)
  deriving DecidableEq, Repr, Inhabited

/-- What a RESULT frame carries (R473). -/
inductive ResultBody where
  /-- part of a member's list, in ascending sort code (R487); notes and work of the member's run ride on the last frame -/
  | entries (query : Nat) (l : List ListEntry) (notes work : Nat)
  /-- the fetch entries of a member, by id (R275) -/
  | fetched (l : List (Nat × Bytes))
  /-- prepare's answer: status, 0 when reserved (R288) -/
  | prepared (status : Nat)
  /-- an owner's partial sums by bag, how many indices they cover, and directory hints (R358, R366) -/
  | partials (member : Nat) (l : List (Nat × List Nat)) (covered : Nat) (hints : List (Nat × Nat × Nat))
  /-- payload replies, by global id (R267) -/
  | payloads (l : List (Nat × Bytes))
  /-- a member step that failed with a status -/
  | failed (status : Nat)
  /-- a member's commit of its share: stamp, outcomes, records first, and expansions (R281, R288) -/
  | committed (stamp : Nat) (outcomes : List Nat) (work : Nat)
  /-- a block that SHARD_MIGRATE asked for has been handed off, or not (R365) -/
  | handedOff (block : Nat) (done : Bool)
  /-- a member's free block slots (R365) -/
  | room (member free : Nat)
  deriving DecidableEq, Repr, Inhabited

/-- The firmware image as the checks of R529 and R530 see it. -/
structure Image where
  version   : Word32 := 0
  svn       : Nat := 0
  length    : Nat := 0
  /-- digests of the Sage, recipes, HBM PHY, Coastuo PHY and PCIe PHY components (R529) -/
  digests   : List Bytes := []
  pcieLen   : Nat := 0
  ownerKey  : Bytes := []
  deriving DecidableEq, Repr, Inhabited

/-- The commands. Each docstring names the row of the table. -/
inductive Instr where
  -- admin commands: `cid` names a fetched admin command
  /-- IDENTIFY -/ | identify (cid : Nat)
  /-- CREATE_QUEUE_PAIR -/ | createQueuePair (cid : Nat)
  /-- DELETE_QUEUE_PAIR -/ | deleteQueuePair (cid : Nat)
  /-- DELETE_QUEUE_PAIR_DONE -/ | deleteQueuePairDone (fn : Fn) (qid : Nat)
  /-- GET_LOG -/ | getLog (cid : Nat)
  /-- SET_FEATURE -/ | setFeature (cid : Nat)
  /-- GET_FEATURE -/ | getFeature (cid : Nat)
  /-- MODE_SELECT -/ | modeSelect (cid : Nat)
  /-- MODE_LOCK -/ | modeLock (cid : Nat)
  /-- JOURNAL_FORMAT -/ | journalFormat (cid : Nat)
  /-- JOURNAL_REPLAY; `region`: the bytes the journal region reads, from its start -/ | journalReplay (cid : Nat) (region : Bytes)
  /-- JOURNAL_DISABLE -/ | journalDisable (cid : Nat)
  /-- SEARCH_REPORT_CLEAR -/ | searchReportClear (cid : Nat)
  /-- SCRATCH_HOST_MIB -/ | scratchHostMib (cid : Nat)
  /-- MESH_DOMAIN -/ | meshDomain (cid : Nat)
  /-- SELF_TEST_START -/ | selfTestStart (cid : Nat)
  /-- SELF_TEST_STOP -/ | selfTestStop (cid : Nat)
  /-- SELF_TEST_COMPLETE; `failed`: the (item, unit) pairs that failed; `notRun`: those that could not run -/
  | selfTestComplete (cid : Nat) (failed notRun : List (Nat × Nat))
  /-- TEST_STEP_RESUME -/ | testStepResume (cid : Nat)
  /-- TEST_NOT_COMPLETED -/ | testNotCompleted (cid : Nat)
  /-- SET_POWER_STATE -/ | setPowerState (cid : Nat)
  /-- POWER_STATE_ENTRY -/ | powerStateEntry
  /-- POWER_ENTRY_DEFERRED -/ | powerEntryDeferred
  /-- PS2_REENTRY -/ | ps2Reentry
  /-- CLUSTER_GATE -/ | clusterGate (cluster : Nat)
  /-- RESTART_QUEUE_RESUME -/ | restartQueueResume (cid : Nat)
  /-- RESTART_QUEUE_FLUSH -/ | restartQueueFlush (cid : Nat)
  /-- RESTART_WAIT; `ctags`: what the read of each unfetched entry gives: its CTAG, or none where the read fails -/
  | restartWait (fn : Fn) (qid : Nat) (ctags : List (Option (BitVec 16)))
  /-- AUTOMATIC_RESTART -/ | automaticRestart (fn : Fn) (qid : Nat)
  /-- PARTITION_CONFIGURE_SET -/ | partitionConfigureSet (cid : Nat)
  /-- PARTITION_CONFIGURE_CLEAR -/ | partitionConfigureClear (cid : Nat)
  /-- PARTITION_CONFIGURE_ADJUST -/ | partitionConfigureAdjust (cid : Nat)
  /-- FIRMWARE_LOAD; `flashOk`: whether the flash write and read-back succeed -/ | firmwareLoad (cid : Nat) (flashOk : Bool)
  /-- FIRMWARE_ACTIVATE_LIVE -/ | firmwareActivateLive (cid : Nat)
  /-- FIRMWARE_ACTIVATE_RESTART -/ | firmwareActivateRestart (cid : Nat)
  /-- SECURITY_SEND -/ | securitySend (cid : Nat)
  /-- SECURITY_RECEIVE -/ | securityReceive (cid : Nat)
  /-- BINDING_CERT -/ | bindingCert (cid : Nat)
  /-- DECLARE_SET -/ | declareSet (cid : Nat)
  /-- DEVICE_SET -/ | deviceSet (cid : Nat)
  /-- PEER_POLICY -/ | peerPolicy (cid : Nat)
  /-- FUSE_OWNER_KEY -/ | fuseOwnerKey (cid : Nat)
  /-- FUSE_DEBUG_CLOSE -/ | fuseDebugClose (cid : Nat)
  /-- COMMIT_SVN -/ | commitSvn (cid : Nat)
  /-- TIME_CONFIGURE_STEP -/ | timeConfigureStep (cid : Nat)
  /-- TIME_CONFIGURE_PPS -/ | timeConfigurePps (cid : Nat)
  -- I/O commands: `cid` names a fetched and admitted I/O command
  /-- COLLECTION_CREATE -/ | collectionCreate (cid : Nat)
  /-- COLLECTION_DROP -/ | collectionDrop (cid : Nat)
  /-- COLLECTION_IMPORT -/ | collectionImport (cid : Nat)
  /-- COLLECTION_EXPORT -/ | collectionExport (cid : Nat)
  /-- COLLECTION_CONSOLIDATE -/ | collectionConsolidate (cid : Nat)
  /-- SEARCH -/ | search (cid : Nat)
  /-- SEARCH_COMPOUND -/ | searchCompound (cid : Nat)
  /-- SCAN -/ | scan (cid : Nat)
  /-- FETCH -/ | fetch (cid : Nat)
  /-- INSERT; `commit`: whether this step goes on through the commit phase -/ | insert (cid : Nat) (commit : Bool)
  /-- DELETE -/ | delete (cid : Nat) (commit : Bool)
  /-- UPSERT -/ | upsert (cid : Nat) (commit : Bool)
  /-- SET_ATTRIBUTES -/ | setAttributes (cid : Nat) (commit : Bool)
  /-- EMB_LOOKUP -/ | embLookup (cid : Nat)
  /-- EMB_UPDATE; `commit`: whether this step goes on through every commit step -/ | embUpdate (cid : Nat) (commit : Bool)
  /-- HOTSET_LOAD -/ | hotsetLoad (cid : Nat)
  /-- SHARD_MIGRATE -/ | shardMigrate (cid : Nat)
  /-- DENSE_LOAD -/ | denseLoad (cid : Nat)
  /-- REGION_WRITE -/ | regionWrite (cid : Nat)
  /-- REGION_READ -/ | regionRead (cid : Nat)
  /-- FENCE -/ | fence (cid : Nat)
  /-- FENCE_RELEASE -/ | fenceRelease (cid : Nat)
  -- queues
  /-- SQ_TAIL_DOORBELL -/ | sqTailDoorbell (fn : Fn) (qid : Nat) (value : Word32)
  /-- CQ_HEAD_DOORBELL -/ | cqHeadDoorbell (fn : Fn) (qid : Nat) (value : Word32)
  /-- SQ_ENTRY_FETCH; `entry`: the 64 B the read returns; `data`: what the addresses in it hold -/
  | sqEntryFetch (entry : Bytes) (data : HostData)
  /-- SQ_ENTRY_FETCH_FAILED -/ | sqEntryFetchFailed
  /-- COMPLETION_POSTED -/ | completionPosted (post : PostedWrite)
  /-- COMPLETION_WRITE_FAILED -/ | completionWriteFailed (cid : Nat)
  /-- AGG_TIME -/ | aggTime (fn : Fn) (qid : Nat)
  /-- HELD_TOO_LONG -/ | heldTooLong (cid : Nat)
  /-- QM_ENABLE -/ | qmEnable (fn : Fn)
  /-- QM_DISABLE -/ | qmDisable (fn : Fn)
  -- contexts and streams
  /-- SCHEDULING_STEP -/ | schedulingStep (part : PartNo)
  /-- NO_CONTEXT_BY_DEADLINE -/ | noContextByDeadline (cid : Nat)
  /-- LOCK_NOT_BY_DEADLINE -/ | lockNotByDeadline (cid : Nat)
  /-- PREEMPTION -/ | preemption (part : PartNo)
  /-- CONTEXT_SWITCH; `cause`: 0 stalled, 1 finished, 2 ran 4,096 cycles while a higher class waits -/
  | contextSwitch (core : Nat) (cause : Nat)
  /-- TRANSFER_ISSUE; `fault`: the page the transfer meets is not resident or not writable -/ | transferIssue (core : Nat) (fault : Bool)
  /-- TRANSFER_LANDED; elements of the stream that have landed or been accepted, by element number -/
  | transferLanded (core stream : Nat) (elems : List Nat)
  /-- PAGE_REQUEST_RESPONSE; `code`: 0 Success, 1 Invalid Request, 15 Response Failure -/ | pageRequestResponse (core stream : Nat) (code : Nat)
  /-- CARAFE_SWAP -/ | carafeSwap (core : Nat)
  /-- PERSISTENT_STREAM_TIMEOUT -/ | persistentStreamTimeout (core stream : Nat)
  /-- ATS_INVALIDATION -/ | atsInvalidation (fn : Fn) (page : Nat) (pages : Nat)
  -- search steps
  /-- EXPANSION_STEP -/ | expansionStep (cid : Nat)
  /-- RERANK_BATCH -/ | rerankBatch (cid : Nat)
  /-- JOIN -/ | join (cid : Nat)
  /-- SHADOW_SCAN -/ | shadowScan (part : PartNo) (handle : Nat)
  -- mutation, journal, consolidation
  /-- COMMIT_PHASE -/ | commitPhase (cid : Nat)
  /-- FLUSHING_READ_RETURN -/ | flushingReadReturn (part : PartNo)
  /-- FLUSHING_READ_FAILED -/ | flushingReadFailed (part : PartNo)
  /-- COMMIT_STEP -/ | commitStep (cid : Nat)
  /-- MEMBER_COMMIT_REPORT; the outcomes of the member's share and its expansions -/ | memberCommitReport (cid : Nat) (member : Nat) (stamp : Nat) (outcomes : List Nat) (work : Nat)
  /-- CONSOLIDATION_TRIGGER -/ | consolidationTrigger (part : PartNo) (handle : Nat)
  /-- CONSOLIDATION_STEP -/ | consolidationStep (part : PartNo) (handle : Nat)
  /-- RECLAIM_CHECK -/ | reclaimCheck (part : PartNo)
  /-- HOTSET_REFRESH -/ | hotsetRefresh (part : PartNo)
  -- mesh tables
  /-- END -/ | endMsg (part : PartNo) (handle member step participants incarnation : Nat) (forwardedBlock : Option Nat) (param : Bytes)
  /-- STEP_REPORT -/ | stepReport (cid : Nat) (member : Nat) (applied : Bool) (stamp rows skipped : Nat)
  /-- STEP_TIMEOUT -/ | stepTimeout (part : PartNo) (handle : Nat) (step : Nat)
  /-- MIGRATION_TEST -/ | migrationTest (part : PartNo) (handle : Nat)
  /-- HANDOFF_COMMIT -/ | handoffCommit (part : PartNo) (handle block : Nat)
  /-- DIRECTORY_CHANGE; the member that sent it -/ | directoryChange (part : PartNo) (handle block owner epoch sender : Nat)
  /-- FORWARD_DONE -/ | forwardDone (part : PartNo) (handle block : Nat)
  /-- LOAD_WINDOW -/ | loadWindow (part : PartNo) (handle : Nat)
  -- partitions
  /-- REGULATOR_ADJUST; `waited`: per group, whether requests waited in more than 10 % of the window's cycles; `used`: per group, tokens used in the window -/
  | regulatorAdjust (part : PartNo) (waited : List Bool) (used : List Nat)
  /-- PART_REG_RATE -/ | partRegRate (part : PartNo) (group : Nat) (value : Word32)
  /-- PART_ACCT_CLEAR -/ | partAcctClear (value : Word32)
  /-- SLOWDOWN_WINDOW; cycles of the window: useful, HBM, SLM, MESH, PCIE, REG -/
  | slowdownWindow (part : PartNo) (useful hbm slm mesh pcie reg : Nat)
  -- memory
  /-- UNCORRECTABLE_BURST -/ | uncorrectableBurst (channel line burst : Nat)
  /-- SLM_ECC_ERROR; `scratch`: in scratchpad (the line of scratchpad space) or in a cache line (an HBM line) -/
  | slmEccError (slice : Nat) (scratch : Bool) (line : Nat)
  /-- PATROL_SCRUB; of the channels read in this row: corrected bursts as (channel, lanes of the corrected symbols), uncorrectable ones as
  (channel, burst) -/
  | patrolScrub (corrected : List (Nat × List Nat)) (uncorrectable : List (Nat × Nat))
  /-- STACK_TEMPERATURE_READ -/ | stackTemperatureRead (temps : List Nat)
  /-- THROTTLE_LEVEL_FALL -/ | throttleLevelFall (stack : Nat)
  /-- MAPOUT_MARK -/ | mapoutMark (value : Word32)
  /-- MAPOUT_WITHDRAW -/ | mapoutWithdraw (value : Word32)
  /-- MAPOUT_RESTART -/ | mapoutRestart (value : Word32)
  /-- TG_START -/ | tgStart (channel : Nat) (value : Word32)
  /-- TG_STOP -/ | tgStop (channel : Nat) (value : Word32)
  /-- TG_DONE; what the generator found -/ | tgDone (channel : Nat) (errors firstErr : Nat) (lanes : List Nat) (corrected : Nat)
  -- host interface
  /-- DP_RESTART -/ | dpRestart (value : Word32)
  /-- DP_DONE; lanes that failed training, channels with an uncorrectable burst in the initialisation's test, clusters and cores failing the start-up items -/
  | dpDone (deadLanes : List (Nat × Nat)) (badChannels : List Nat) (badClusters : List Nat) (badCores : List Nat)
  /-- HIF_EVENT_MASK -/ | hifEventMask (value : Word32)
  /-- VF_EVENT_MASK -/ | vfEventMask (part : PartNo) (value : Word32)
  /-- REGISTER_WRITE; access size in bytes; `tbit` as in BAR2_READ -/ | registerWrite (fn : Fn) (place : BarPlace) (size : Nat) (value : Word64) (tbit : Bool)
  /-- BAR2_READ; `tbit`: the request carries the T bit on the bound stream -/ | bar2Read (fn : Fn) (addr len : Nat) (tbit : Bool)
  /-- BAR2_WRITE -/ | bar2Write (fn : Fn) (addr : Nat) (bytes : Bytes) (tbit : Bool)
  /-- MSIX_UNMASK; a vector, or none for the Function Mask -/ | msixUnmask (fn : Fn) (vector : Option Nat)
  /-- VF_ENABLE -/ | vfEnable (numVfs : Nat) (enable : Bool)
  /-- CONFIGURATION_WRITE -/ | configurationWrite (fn : Fn) (offset : Nat) (value : Word32)
  /-- PERST_ASSERT -/ | perstAssert
  /-- PERST_DEASSERT -/ | perstDeassert
  /-- HOT_RESET -/ | hotReset
  /-- LINK_DOWN -/ | linkDown
  /-- PF_FLR -/ | pfFlr
  /-- VF_FLR -/ | vfFlr (part : PartNo)
  /-- D3HOT_ENTRY -/ | d3hotEntry
  /-- D0_TRANSITION -/ | d0Transition
  -- reliability
  /-- CSQ_HEARTBEAT_LOST -/ | csqHeartbeatLost (core : Nat)
  /-- SPARE_ACTIVATED; `passed`: the spare's check -/ | spareActivated (cluster : Nat) (passed : Bool)
  /-- ACTIVATE -/ | activate (value : Word32)
  /-- RETIRE -/ | retire (value : Word32)
  /-- REINSTATE -/ | reinstate (value : Word32)
  /-- CSV_HEARTBEAT_LOST -/ | csvHeartbeatLost (cluster : Nat)
  /-- BYPASS_TIMEOUT -/ | bypassTimeout (cluster : Nat)
  /-- WATCHDOG -/ | watchdog
  /-- ENGINE_FAULT; the commands with an entry in progress in the engine -/ | engineFault (core engine : Nat) (cids : List Nat)
  /-- ILLEGAL_WORK_ENTRY -/ | illegalWorkEntry (core : Nat)
  /-- CARAFE_ECC_ERROR; in a context store area (its slot), or in a staging window (the commands with data there) -/
  | carafeEccError (core : Nat) (slot : Option Nat) (cids : List Nat)
  /-- UNCORRECTABLE_FLIT; the command whose transfer lost the flit -/ | uncorrectableFlit (cluster : Nat) (cid : Option Nat)
  -- mesh
  /-- MESH_ENABLE -/ | meshEnable
  /-- MESH_DISABLE -/ | meshDisable
  /-- PORT_ENABLE -/ | portEnable (port : Nat) (value : Word32)
  /-- RETRAIN -/ | retrain (port : Nat) (value : Word32)
  /-- ROUTE_COMMIT -/ | routeCommit (value : Word32)
  /-- KEY; outcome of the exchange: the peer's id, port, identity tag, debug state, and whether its chain and signature verify -/
  | key (port peerId peerPort : Nat) (tag : Bytes) (debugState : Nat) (chainOk sigOk : Bool)
  /-- FLIT_RECEIVED; codewords corrected by the FEC, sequence number, CRC good, tag good, NAK, newest flit the peer has received, credits returned (LINK class, VC, count) -/
  | flitReceived (port fec seq : Nat) (crcOk tagOk nak : Bool) (ack : Nat) (creditLink : Bool) (creditVc credits : Nat)
  /-- DATA -/ | data (port : Nat) (hdr : FrameHdr) (payload : Bytes)
  /-- READ_REQ -/ | readReq (port : Nat) (hdr : FrameHdr) (length : Nat)
  /-- CMD -/ | cmd (port : Nat) (hdr : FrameHdr) (body : CmdBody)
  /-- RESULT -/ | result (port : Nat) (hdr : FrameHdr) (body : ResultBody)
  /-- CHAIN; partial totals as FP32 bits -/ | chain (port : Nat) (hdr : FrameHdr) (partials : List Nat)
  /-- ARRIVE -/ | arrive (port : Nat) (hdr : FrameHdr)
  /-- RELEASE -/ | release (port : Nat) (hdr : FrameHdr)
  /-- BARRIER_TIMEOUT -/ | barrierTimeout (tag : Nat)
  /-- LOAD; (handle, member, total, served blocks free) window totals -/ | loadFrame (port : Nat) (hdr : FrameHdr) (handle member total freeSlots : Nat)
  /-- PROBE -/ | probe (port : Nat) (hdr : FrameHdr) (answer : Bool)
  /-- ACK -/ | ack (port : Nat) (hdr : FrameHdr)
  /-- NACK; reason 1 UNKNOWN_DOMAIN, 2 NO_ROUTE, 3 TTL_EXPIRED -/ | nack (port : Nat) (hdr : FrameHdr) (reason : Nat)
  /-- TIME; the peer's t1, t2, t3, the receive time t4, the link's asymmetry A, its reference description and error estimate -/
  | time (port : Nat) (t1 t2 t3 t4 a : Int) (refId : Nat) (locked : Bool) (hops est : Nat)
  /-- PORT; the agreed lanes (2: degrade) -/ | portFrame (port : Nat) (upperPair : Bool)
  /-- TIME_EXCHANGE_TICK -/ | timeExchangeTick
  /-- RESEND_TIMEOUT -/ | resendTimeout (dest : Nat)
  /-- UNREACHABLE_PROBE -/ | unreachableProbe (dest : Nat)
  /-- REKEY -/ | rekey (port : Nat)
  /-- REKEY_TIMEOUT -/ | rekeyTimeout (port : Nat)
  /-- LOSS_OF_LOCK; lost lanes as a mask -/ | lossOfLock (port : Nat) (lanes : BitVec 4)
  /-- FEC_ERROR_THRESHOLD -/ | fecErrorThreshold (port : Nat) (lanes : BitVec 4)
  /-- REPLAY_THRESHOLD; which pair has fewer corrected codewords -/ | replayThreshold (port : Nat) (keepUpper : Bool)
  /-- FLIT_TIMEOUT -/ | flitTimeout (port : Nat)
  /-- PORT_RETRY -/ | portRetry (port : Nat)
  /-- ROUTE_RETURN -/ | routeReturn (port : Nat)
  -- debug, TDISP, IDE, SPDM
  /-- DEBUG_CHALLENGE -/ | debugChallenge
  /-- DEBUG_TOKEN -/ | debugToken (serial : Word64) (nonce : Bytes) (level : Nat) (sig ownerSig : Bytes)
  /-- DEBUG_LOCK -/ | debugLock
  /-- LOCK_INTERFACE_REQUEST -/ | lockInterfaceRequest (part : PartNo) (stream : Nat)
  /-- START_INTERFACE_REQUEST -/ | startInterfaceRequest (part : PartNo)
  /-- STOP_INTERFACE_REQUEST -/ | stopInterfaceRequest (part : PartNo)
  /-- GET_DEVICE_INTERFACE_REPORT -/ | getDeviceInterfaceReport (part : PartNo)
  /-- GET_DEVICE_INTERFACE_STATE -/ | getDeviceInterfaceState (part : PartNo)
  /-- GET_TDISP_VERSION -/ | getTdispVersion (part : PartNo)
  /-- GET_TDISP_CAPABILITIES -/ | getTdispCapabilities (part : PartNo)
  /-- K_SET_STOP -/ | kSetStop (stream : Nat)
  /-- IDE_KM -/ | ideKm (stream : Nat) (program go : Bool)
  /-- GET_MEASUREMENTS; block index, 0xFF for all; path: none DOE or MCTP, some p the SECP path of that VF -/
  | getMeasurements (index : Nat) (path : Option PartNo)
  /-- SPDM_REQUEST -/ | spdmRequest (msg : Bytes)
  -- management
  /-- MCTP_MESSAGE; the KEY and GO word -/ | mctpMessage (value : Word32)
  /-- RECOVERY_WRITE -/ | recoveryWrite (value : Word32)
  /-- RECOVERY_FINISH -/ | recoveryFinish (value : Word32) (flashOk : Bool)
  /-- SET_ENDPOINT_ID -/ | setEndpointId (eid : BitVec 8)
  /-- PLDM_REQUEST; type 0 base, 2 monitoring, 4 FRU, 5 update; a sensor id, or none for an event poll -/
  | pldmRequest (type : Nat) (sensor : Option Nat)
  /-- REQUEST_UPDATE -/ | requestUpdate
  /-- ACTIVATE_FIRMWARE -/ | activateFirmware (selfContained : Bool)
  /-- APPLY_COMPLETE -/ | applyComplete (image : Bytes) (flashOk : Bool)
  -- Thyme
  /-- THYME_RATE -/ | thymeRate (value : Word32)
  /-- THYME_OFFSET_ADJ -/ | thymeOffsetAdj (value : Word32)
  /-- THYME_SNAP_TRIG -/ | thymeSnapTrig
  /-- PPS_EDGE; whether the level held for 50 ns -/ | ppsEdge (held : Bool)
  /-- PPS_ABSENT -/ | ppsAbsent
  /-- HOST_TIME_TIMEOUT -/ | hostTimeTimeout
  -- clocks, supplies, thermals
  /-- REFCLK_AON_LOSS -/ | refclkAonLoss
  /-- REFCLK_AON_RETURN -/ | refclkAonReturn
  /-- REFCLK_PCIE_LOSS -/ | refclkPcieLoss
  /-- REFCLK_CL_LOSS -/ | refclkClLoss
  /-- VAON_SWITCH_TO_B -/ | vaonSwitchToB
  /-- VAON_RETURN_TO_A -/ | vaonReturnToA
  /-- VAON_LOSS -/ | vaonLoss
  /-- VAON_POWER_ON; which feed is good; whether the image can be read from flash, and whether its digests check -/
  | vaonPowerOn (feedA feedB readable digestsOk : Bool)
  /-- PG_ASSERT; group 1..5 -/ | pgAssert (group : Nat)
  /-- PG_LOSS -/ | pgLoss (group : Nat)
  /-- SEQUENCE_FAILURE -/ | sequenceFailure (group : Nat)
  /-- RAIL_RESEQUENCE -/ | railResequence
  /-- HOTSPOT_THROTTLE -/ | hotspotThrottle (quadrant : Nat) (temp : Nat)
  /-- HOTSPOT_THROTTLE_END -/ | hotspotThrottleEnd (quadrant : Nat) (temp : Nat)
  /-- THERMAL_TRIP -/ | thermalTrip (quadrant : Nat) (temp : Nat)
  /-- THERM_TRIP_RELEASE -/ | thermTripRelease (temps : List Nat)
  -- rows added at the table's end
  /-- MEMBER_NOT_RETURNED_BY_D -/ | memberNotReturnedByD (cid : Nat)
  /-- LINK_UP; width code, speed code, FLIT mode -/ | linkUp (width speed : Nat) (flit : Bool)
  /-- PORT_TRAINING_COMPLETE; whether every lane trained -/ | portTrainingComplete (port : Nat) (fourLanes : Bool)
  /-- HOST_ACCESS_FAILURE; the command whose stream met it, and the host address -/ | hostAccessFailure (cid : Nat) (addr : Nat)
  /-- IDE_INTEGRITY_FAILURE -/ | ideIntegrityFailure (part : PartNo)
  /-- ADDRESS_PARITY_ERROR; `cleared`: the retrain cleared it -/ | addressParityError (channel : Nat) (cleared : Bool)
  /-- SAGE_ECC_ERROR -/ | sageEccError
  /-- CSV_ERROR -/ | csvError (cluster : Nat)
  /-- SENSOR_UPDATE; package power in W, hotspots in degrees, VAON feeds in mV -/
  | sensorUpdate (power : Nat) (hotspots : List Nat) (vaonA vaonB : Nat)
  /-- STAND_IN_DRAIN_TIMEOUT -/ | standInDrainTimeout (cluster : Nat)
  /-- ACTIVATION_KILL -/ | activationKill
  /-- PCIE_PHY_DIGEST_PASSED -/ | pciePhyDigestPassed
  /-- STAGE_RUNNING -/ | stageRunning
  deriving DecidableEq, Repr, Inhabited

end Sys2Proof
end

