-- ==== Sys2Proof/WellFormed.lean ====
section
/-! DEFINITION. Well-formed commands: each operand within the range the manual gives its unit, register or frame
(R5, R16, R57, R90, R367, R453, R459, R472). -/

namespace Sys2Proof

open Machine (rd)

/-- Every operand of a command lies in its range. -/
def Instr.wf (i : Instr) : Bool :=
  match i with
  | .identify _ => true
  | .createQueuePair _ => true
  | .deleteQueuePair _ => true
  | .deleteQueuePairDone _ qid => qid < 4096
  | .getLog _ => true
  | .setFeature _ => true
  | .getFeature _ => true
  | .modeSelect _ => true
  | .modeLock _ => true
  | .journalFormat _ => true
  | .journalReplay _ _ => true
  | .journalDisable _ => true
  | .searchReportClear _ => true
  | .scratchHostMib _ => true
  | .meshDomain _ => true
  | .selfTestStart _ => true
  | .selfTestStop _ => true
  | .selfTestComplete _ failed notRun => (failed ++ notRun).all (fun x => 1 <= x.1 && x.1 <= 8)
  | .testStepResume _ => true
  | .testNotCompleted _ => true
  | .setPowerState _ => true
  | .powerStateEntry => true
  | .powerEntryDeferred => true
  | .ps2Reentry => true
  | .clusterGate cluster => cluster < 16
  | .restartQueueResume _ => true
  | .restartQueueFlush _ => true
  | .restartWait _ qid _ => qid < 4096
  | .automaticRestart _ qid => qid < 4096
  | .partitionConfigureSet _ => true
  | .partitionConfigureClear _ => true
  | .partitionConfigureAdjust _ => true
  | .firmwareLoad _ _ => true
  | .firmwareActivateLive _ => true
  | .firmwareActivateRestart _ => true
  | .securitySend _ => true
  | .securityReceive _ => true
  | .bindingCert _ => true
  | .declareSet _ => true
  | .deviceSet _ => true
  | .peerPolicy _ => true
  | .fuseOwnerKey _ => true
  | .fuseDebugClose _ => true
  | .commitSvn _ => true
  | .timeConfigureStep _ => true
  | .timeConfigurePps _ => true
  | .collectionCreate _ => true
  | .collectionDrop _ => true
  | .collectionImport _ => true
  | .collectionExport _ => true
  | .collectionConsolidate _ => true
  | .search _ => true
  | .searchCompound _ => true
  | .scan _ => true
  | .fetch _ => true
  | .insert _ _ => true
  | .delete _ _ => true
  | .upsert _ _ => true
  | .setAttributes _ _ => true
  | .embLookup _ => true
  | .embUpdate _ _ => true
  | .hotsetLoad _ => true
  | .shardMigrate _ => true
  | .denseLoad _ => true
  | .regionWrite _ => true
  | .regionRead _ => true
  | .fence _ => true
  | .fenceRelease _ => true
  | .sqTailDoorbell _ qid _ => qid < 4096
  | .cqHeadDoorbell _ qid _ => qid < 4096
  | .sqEntryFetch entry d => entry.length == 64 && (rd entry 0 1 < 0x20 || (d.param.length == rd entry 40 4 && d.inList.length == 16 * rd entry 44 2 && d.outList.length == 16 * rd entry 46 2))
  | .sqEntryFetchFailed => true
  | .completionPosted _ => true
  | .completionWriteFailed _ => true
  | .aggTime _ qid => qid < 4096
  | .heldTooLong _ => true
  | .qmEnable _ => true
  | .qmDisable _ => true
  | .schedulingStep _ => true
  | .noContextByDeadline _ => true
  | .lockNotByDeadline _ => true
  | .preemption _ => true
  | .contextSwitch core cause => core < 144 && cause < 3
  | .transferIssue core _ => core < 144
  | .transferLanded core stream _ => core < 144 && stream < 64
  | .pageRequestResponse core stream code => core < 144 && stream < 64 && (code == 0 || code == 1 || code == 15)
  | .carafeSwap core => core < 144
  | .persistentStreamTimeout core stream => core < 144 && stream < 64
  | .atsInvalidation _ _ pages => 0 < pages
  | .expansionStep _ => true
  | .rerankBatch _ => true
  | .join _ => true
  | .shadowScan _ handle => handle < 65536
  | .commitPhase _ => true
  | .flushingReadReturn _ => true
  | .flushingReadFailed _ => true
  | .commitStep _ => true
  | .memberCommitReport _ member _ _ _ => member < 1024
  | .consolidationTrigger _ handle => handle < 65536
  | .consolidationStep _ handle => handle < 65536
  | .reclaimCheck _ => true
  | .hotsetRefresh _ => true
  | .endMsg _ handle member _ _ _ _ _ => handle < 65536 && member < 1024
  | .stepReport _ member _ _ _ _ => member < 1024
  | .stepTimeout _ handle _ => handle < 65536
  | .migrationTest _ handle => handle < 65536
  | .handoffCommit _ handle _ => handle < 65536
  | .directoryChange _ handle _ owner _ _ => handle < 65536 && owner < 1024
  | .forwardDone _ handle _ => handle < 65536
  | .loadWindow _ handle => handle < 65536
  | .regulatorAdjust _ waited used => waited.length == 32 && used.length == 32
  | .partRegRate _ group _ => group < 32
  | .partAcctClear _ => true
  | .slowdownWindow _ _ _ _ _ _ _ => true
  | .uncorrectableBurst channel line burst => channel < 256 && line < 2 ^ 23 && burst < 4
  | .slmEccError slice _ _ => slice < 16
  | .patrolScrub corrected uncorrectable => corrected.all (fun x => x.1 < 256 && x.2.length ≤ 4 && x.2.all (· < 74)) && uncorrectable.all (fun x => x.1 < 256 && x.2 < 4)
  | .stackTemperatureRead temps => temps.length == 8 && temps.all (· < 256)
  | .throttleLevelFall stack => stack < 8
  | .mapoutMark _ => true
  | .mapoutWithdraw _ => true
  | .mapoutRestart _ => true
  | .tgStart channel _ => channel < 256
  | .tgStop channel _ => channel < 256
  | .tgDone channel _ _ lanes _ => channel < 256 && lanes.all (· < 74)
  | .dpRestart _ => true
  | .dpDone deadLanes badChannels badClusters badCores => deadLanes.all (fun x => x.1 < 256 && x.2 < 74) && badChannels.all (· < 256) && badClusters.all (· < 16) && badCores.all (· < 144)
  | .hifEventMask _ => true
  | .vfEventMask _ _ => true
  | .registerWrite _ _ size _ _ => 0 < size
  | .bar2Read _ _ len _ => 0 < len
  | .bar2Write _ _ _ _ => true
  | .msixUnmask _ vector => vector.getD 0 < 2048
  | .vfEnable numVfs _ => numVfs < 65536
  | .configurationWrite _ _ _ => true
  | .perstAssert => true
  | .perstDeassert => true
  | .hotReset => true
  | .linkDown => true
  | .pfFlr => true
  | .vfFlr _ => true
  | .d3hotEntry => true
  | .d0Transition => true
  | .csqHeartbeatLost core => core < 144
  | .spareActivated cluster _ => cluster < 16
  | .activate _ => true
  | .retire _ => true
  | .reinstate _ => true
  | .csvHeartbeatLost cluster => cluster < 16
  | .bypassTimeout cluster => cluster < 16
  | .watchdog => true
  | .engineFault core engine _ => core < 144 && engine < 8
  | .illegalWorkEntry core => core < 144
  | .carafeEccError core slot _ => core < 144 && (slot.getD 0 < 128)
  | .uncorrectableFlit cluster _ => cluster < 16
  | .meshEnable => true
  | .meshDisable => true
  | .portEnable port _ => port < 8
  | .retrain port _ => port < 8
  | .routeCommit _ => true
  | .key port peerId peerPort tag debugState _ _ => port < 8 && peerId < 1024 && peerPort < 8 && tag.length == 16 && debugState < 4
  | .flitReceived port _ seq _ _ _ _ _ creditVc _ => port < 8 && seq < 4096 && creditVc < 2
  | .data port hdr payload => port < 8 && payload.length == hdr.len && payload.length <= 1024
  | .readReq port _ _ => port < 8
  | .cmd port _ _ => port < 8
  | .result port _ _ => port < 8
  | .chain port _ _ => port < 8
  | .arrive port _ => port < 8
  | .release port _ => port < 8
  | .barrierTimeout _ => true
  | .loadFrame port _ handle member _ _ => port < 8 && handle < 65536 && member < 1024
  | .probe port _ _ => port < 8
  | .ack port _ => port < 8
  | .nack port _ reason => port < 8 && 1 <= reason && reason <= 3
  | .time port _ _ _ _ _ refId _ _ _ => port < 8 && refId < 1024
  | .portFrame port _ => port < 8
  | .timeExchangeTick => true
  | .resendTimeout dest => dest < 1024
  | .unreachableProbe dest => dest < 1024
  | .rekey port => port < 8
  | .rekeyTimeout port => port < 8
  | .lossOfLock port _ => port < 8
  | .fecErrorThreshold port _ => port < 8
  | .replayThreshold port _ => port < 8
  | .flitTimeout port => port < 8
  | .portRetry port => port < 8
  | .routeReturn port => port < 8
  | .debugChallenge => true
  | .debugToken _ _ _ _ _ => true
  | .debugLock => true
  | .lockInterfaceRequest _ stream => stream < 20
  | .startInterfaceRequest _ => true
  | .stopInterfaceRequest _ => true
  | .getDeviceInterfaceReport _ => true
  | .getDeviceInterfaceState _ => true
  | .getTdispVersion _ => true
  | .getTdispCapabilities _ => true
  | .kSetStop stream => stream < 21
  | .ideKm stream _ _ => stream < 21
  | .getMeasurements index _ => index < 256
  | .spdmRequest _ => true
  | .mctpMessage _ => true
  | .recoveryWrite _ => true
  | .recoveryFinish _ _ => true
  | .setEndpointId _ => true
  | .pldmRequest _ _ => true
  | .requestUpdate => true
  | .activateFirmware _ => true
  | .applyComplete _ _ => true
  | .thymeRate _ => true
  | .thymeOffsetAdj _ => true
  | .thymeSnapTrig => true
  | .ppsEdge _ => true
  | .ppsAbsent => true
  | .hostTimeTimeout => true
  | .refclkAonLoss => true
  | .refclkAonReturn => true
  | .refclkPcieLoss => true
  | .refclkClLoss => true
  | .vaonSwitchToB => true
  | .vaonReturnToA => true
  | .vaonLoss => true
  | .vaonPowerOn _ _ _ _ => true
  | .pgAssert group => 1 <= group && group <= 5
  | .pgLoss group => 1 <= group && group <= 5
  | .sequenceFailure group => 1 <= group && group <= 5
  | .railResequence => true
  | .hotspotThrottle quadrant _ => quadrant < 4
  | .hotspotThrottleEnd quadrant _ => quadrant < 4
  | .thermalTrip quadrant _ => quadrant < 4
  | .thermTripRelease temps => temps.length == 4
  | .memberNotReturnedByD _ => true
  | .linkUp width speed _ => width < 5 && 1 <= speed && speed <= 6
  | .portTrainingComplete port _ => port < 8
  | .hostAccessFailure _ _ => true
  | .ideIntegrityFailure _ => true
  | .addressParityError channel _ => channel < 256
  | .sageEccError => true
  | .csvError cluster => cluster < 16
  | .sensorUpdate _ hotspots _ _ => hotspots.length == 4
  | .standInDrainTimeout cluster => cluster < 16
  | .activationKill => true
  | .pciePhyDigestPassed => true
  | .stageRunning => true

end Sys2Proof
end

