-- ==== Sys2Proof/Decode.lean ====
section
/-! DEFINITION. The commands that a word spells. The table gives no row any bits: the block is driven by register accesses,
queue entries in host memory, frames and events, whose operands are those of `Instr`. -/

namespace Sys2Proof

/-- The command a table word spells: none, for no row of spec/opcode_table.json has bits. -/
def decodeTableWord (_nbits _w : Nat) : Option Instr := none

end Sys2Proof
end

