-- ==== Sys2Proof/Machine/Flags.lean ====
section
/-! DEFINITION. Status codes (R109, R110), event bits (R65), scopes (R555), log kinds (R560), notes, and the reset values
of the features (R100 and the features' chapters). -/

namespace Sys2Proof.Machine

/-! ### Status codes (R110) -/

abbrev stSuccess := 0x0000
abbrev stInvalidOpcode := 0x2001
abbrev stInvalidField := 0x2002
abbrev stReserved := 0x2003
abbrev stInvalidHandle := 0x2004
abbrev stScatter := 0x2005
abbrev stLimit := 0x2006
abbrev stMissingData := 0x2007
abbrev stTypeMismatch := 0x2008
abbrev stFilter := 0x2009
abbrev stEdge := 0x200A
abbrev stNoContext := 0x3001
abbrev stCapacity := 0x3002
abbrev stNoLock := 0x3003
abbrev stQueueLimit := 0x3004
abbrev stCollLimit := 0x3005
abbrev stJournalFull := 0x3006
abbrev stPowerPending := 0x3007
abbrev stPowerDeferred := 0x3008
abbrev stDataPathOff := 0x3009
abbrev stTestInProgress := 0x300A
abbrev stTestNotCompleted := 0x300B
abbrev stPoison := 0x4001
abbrev stHostAccess := 0x4002
abbrev stPageRequest := 0x4003
abbrev stJournalWrite := 0x4004
abbrev stImageCheck := 0x4005
abbrev stPeerLost := 0x4006
abbrev stNotPermitted := 0x5001
abbrev stPolicy := 0x5002
abbrev stSignature := 0x5003
abbrev stTdiState := 0x5004
abbrev stFlushed := 0x6001
abbrev stInternal := 0x7001
abbrev stHeldTooLong := 0x7002
abbrev stNoCluster := 0x7003
abbrev stActivation := 0x7004
abbrev stTestFailed := 0x7005

/-- The class of a status (R94). -/
def statusClass (st : Nat) : Nat := st / 0x1000 % 16

/-- Whether a class freezes an I/O SQ (R109). -/
def freezing (c : Nat) : Bool := c == 2 || c == 4 || c == 5 || c == 7

/-- The note bits of class 1 (R110). -/
abbrev noteShort := 1
abbrev notePartial := 2
abbrev noteSpilled := 4

/-- The status of a query with its notes: success where there is none. -/
def noteStatus (notes : Nat) : Nat := if notes = 0 then stSuccess else 0x1000 + notes

/-! ### Event bits (R65) -/

abbrev evDpBegin := 0
abbrev evDpDone := 1
abbrev evErrorLogged := 2
abbrev evThermal := 3
abbrev evCapacity := 4
abbrev evTime := 5
abbrev evMesh := 6
abbrev evFwActivated := 7
abbrev evTdiError := 8

/-- The bits of HIF_EVENT_CAUSE, and those of VF_EVENT_CAUSE (R67). -/
abbrev pfEvents : Word32 := 0x1FF#32
abbrev vfEvents : Word32 := 0x137#32

/-! ### Scopes (R555) and kinds (R560) -/

abbrev scCommand := 0
abbrev scQueue := 1
abbrev scPartition := 2
abbrev scCore := 3
abbrev scCluster := 4
abbrev scDevice := 5
abbrev scSage := 6

abbrev kCommand := 0x01
abbrev kStream := 0x02
abbrev kHbm := 0x03
abbrev kSlm := 0x04
abbrev kCore := 0x05
abbrev kCluster := 0x06
abbrev kMesh := 0x07
abbrev kTime := 0x08
abbrev kSupply := 0x09
abbrev kRestart := 0x0A
abbrev kHost := 0x0B
abbrev kSecurity := 0x0C
abbrev kTest := 0x0D
abbrev kFirmware := 0x0E

/-! ### Features -/

/-- The reset value of a partition-scope feature, or none for a FID that is no such feature
(R100, R201, R305, R306, R355, R418, R426, R471, R522). MODE_SELECT and MODE_LOCK are the mode word and its mask. -/
def featReset (fid : Nat) : Option Word32 :=
  match fid with
  | 0x12 => some 0xFFFFFFFF#32
  | 0x13 => some 1000000#32
  | 0x14 => some 10000#32
  | 0x15 => some 2000#32
  | 0x16 => some 0x90#32
  | 0x20 => some 5000#32
  | 0x21 => some 0#32
  | 0x22 => some 64#32
  | 0x30 => some 20000#32
  | 0x31 => some 600#32
  | 0x32 => some 0x3F99999A#32
  | 0x40 => some 0#32
  | 0x41 => some 0#32
  | 0x42 => some 0#32
  | 0x43 => some 0#32
  | 0x50 => some 100#32
  | 0x51 => some 256#32
  | 0x52 => some 262144#32
  | 0x53 => some 100000#32
  | 0x54 => some 25#32
  | 0x55 => some 16#32
  | 0x60 => some 2#32
  | 0x70 => some 0#32
  | 0x80 => some 0#32
  | 0x90 => some 1#32
  | 0x91 => some 0#32
  | _ => none

/-- Bits of the mode word (R32; its layout is the one taken where R31 orders bits 1 and 2 the other way). -/
abbrev mSketch := 0
abbrev mConsol := 1
abbrev mNeighbour := 2
abbrev mFilter := 3
abbrev mHotset := 4
abbrev mMigrate := 5
abbrev mTime := 6
abbrev mBwTherm := 7
abbrev mQRestart := 8
abbrev mSpare := 9
abbrev mMapout := 10

/-- The device-scope bits of the mode word, and the partition-scope bits (R32). -/
abbrev modeDevice : Word32 := 0x6C0#32
abbrev modePart : Word32 := 0x13F#32

end Sys2Proof.Machine
end

