-- ==== Sys2Proof/Config.lean ====
section
/-! DEFINITION. What one part fixes at manufacture, the free values the manual leaves open, and the cryptographic
functions it names without defining. None has a body, so no proof can see a value of it. -/

namespace Sys2Proof.Config

/-- The serial number laser-marked on the package (R14, R47). -/
opaque serial : Word64

/-- The firmware image in the flash of a part as shipped (R529, R540). -/
opaque shippedImage : Image

/-- SHA-512 of the boot ROM (R512 block 1). -/
opaque bootRomDigest : Bytes

/-- The identity tag and the binding tag of this device (R505). -/
opaque identityTag : Bytes
opaque bindingTag : Bytes

/-- The 4 KiB board configuration block in the boot flash, as the board's maker wrote it (R592, R593). -/
opaque boardBlock : Bytes

/-- The number by which the log names a fuse: 0 the owner key hash, 1 debug close, 2 the SVN floor (R560 leaves the numbers open). -/
opaque fuseNumber : Nat → Byte

/-- The certificate bundle of a part, by its serial number and stepping, which the identity certificate carries (R14, R508): three
certificates, each with its length. -/
opaque certsOf : Word64 → Nat → Bytes

/-- The bundle that BINDING_CERT returns after its 16 B header: of this serial number, stepping A1. -/
def certBundle : Bytes := certsOf serial 0xA1

/-- Free value: what HBM not written since its key was made reads (R504), by key generation and byte offset. -/
opaque freeByte : Nat → Nat → Byte

/-- Free value: a fresh choice, by the counter `State.fresh` (random ids, nonces, draws of R343, unspecified picks of R145). -/
opaque freeNat : Nat → Nat

/-- Free value: FP32 bits the device may deliver where R225, R226, R230 or R144 give only a bound, by fresh counter. -/
opaque freeBits : Nat → Word32

/-- Free value: bytes the standards or the manual leave open, by fresh counter and length. -/
opaque freeBytes : Nat → Nat → Bytes

/-- SHA-512 (R505, R310, R312): named by the manual, defined elsewhere. -/
opaque sha512 : Bytes → Bytes

/-- AES-256-GCM sealing under a key generation: nonce, additional data, plaintext, giving ciphertext and 16 B tag (R520, R523). -/
opaque gcmSeal : Nat → Bytes → Bytes → Bytes → Bytes

/-- AES-256-GCM opening: none where the tag does not verify (R521, R524). -/
opaque gcmOpen : Nat → Bytes → Bytes → Bytes → Option Bytes

/-- RSA-OAEP of a key block under the binding key with a tag, and its decoding by this device (R518, R519). -/
opaque oaepWrap : Bytes → Nat → Bytes → Bytes → Bytes
opaque oaepUnwrap : Bytes → Bytes → Option (Nat × Bytes)

/-- Whether a certificate bundle verifies to the Mumbion root, and the identity tag and binding tag it certifies (R505, R509). -/
opaque bundleTag : Bytes → Option (Bytes × Bytes)

/-- The fields of a firmware image, or none where its header is not consistent or a digest or vendor signature fails (R529, R530). -/
opaque imageCheck : Bytes → Option Image

/-- Whether the owner's signature of an image or token verifies under the key whose SHA-512 is given (R527, R530). -/
opaque ownerSigOk : Bytes → Bytes → Bool

/-- Whether a debug token's signature verifies under the Mumbion debug authority key (R527). -/
opaque debugSigOk : Word64 → Bytes → Nat → Bytes → Bool

/-- The SPDM responder's answer to a request message (R511), by fresh counter. -/
opaque spdmAnswer : Nat → Bytes → Bytes

/-- The body of an answer to a management message that the device answers by a standard of its own (R532, R533): by fresh counter. -/
opaque mctpAnswer : Nat → Bytes → Bytes

end Sys2Proof.Config
end

