-- ==== Sys2Proof/Machine/State.lean ====
section
/-! DEFINITION. The state of the block as plain data: every register, queue, buffer, counter, mode and pin of the manual,
the queue of waiting commands, and State.reset. -/

namespace Sys2Proof.Machine

/-- No step of this block stops with a fault: every error of the manual is state (a status, a log entry, a frozen queue). Nobody raises it. -/
inductive Fault where
  deriving DecidableEq, Repr

/-- Why a command has no meaning. -/
inductive Refusal where
  /-- Raised by `exec` for a row that is not modelled yet, by its mnemonic. Safe: nothing is claimed of the row. -/
  | notModelled (mnemonic : String)
  deriving DecidableEq, Repr

/-! ### What the device sends to the outside -/

/-- The content of a frame the device sends (R473). -/
inductive FrameBody where
  | empty
  | bytes (b : Bytes)
  | cmd (b : CmdBody)
  | result (b : ResultBody)
  | totals (l : List Nat)
  deriving DecidableEq, Repr, Inhabited

/-- One thing the device has sent: the model's record of its pins and links. -/
inductive Out where
  /-- a posted write to host memory of a function -/
  | hostWrite (fn : Fn) (addr : Nat) (bytes : Bytes)
  /-- a read issued to host memory whose return matters: the zero-length read of R95, or a flushing read (R314) -/
  | hostRead (fn : Fn) (addr len : Nat)
  /-- an MSI-X message of a vector (R68) -/
  | msix (fn : Fn) (vector : Nat)
  /-- an ATS translation request for a page, under a PASID (R49, R79) -/
  | translation (fn : Fn) (pasid : Option Nat) (page : Nat)
  /-- a page request group for a page, under a PASID (R381) -/
  | pageRequest (fn : Fn) (pasid page : Nat)
  /-- an ATS invalidation completed (R49) -/
  | invalidated (fn : Fn) (page : Nat)
  /-- the completion of a read of a window: data, or none for Unsupported Request; and the EP bit (R58, R59) -/
  | readData (fn : Fn) (data : Option Bytes) (ep : Bool)
  /-- a configuration request answered with Request Retry Status (R73) -/
  | configRetry (fn : Fn)
  /-- an AER report on a function: true for Uncorrectable Internal Error, false for a completion timeout (R76) -/
  | aer (fn : Fn) (internal : Bool)
  /-- a frame on a port: type code of R473 -/
  | frame (port type : Nat) (hdr : FrameHdr) (body : FrameBody)
  /-- a LINK_CTRL exchange begun on a port: session set-up or rekey (R466, R468) -/
  | keyStart (port : Nat)
  /-- a NAK with the last good sequence number (R465) -/
  | nak (port seq : Nat)
  /-- flits resent from the one after a sequence number (R465) -/
  | replay (port seq : Nat)
  /-- a TDISP response: the partition, the message name, and its content -/
  | tdisp (part : PartNo) (name : String) (content : Bytes)
  /-- an SPDM, MCTP or PLDM response or event -/
  | message (kind : String) (content : Bytes)
  /-- a sensor threshold event (R534): sensor, reading, critical or only warning -/
  | sensorEvent (sensor reading : Nat) (critical : Bool)
  /-- the debug challenge's answer (R527) -/
  | challenge (nonce : Bytes) (serial : Word64)
  /-- an enable output EN_Gi changes level (R583) -/
  | enable (group : Nat) (level : Bool)
  deriving DecidableEq, Repr, Inhabited

/-! ### Thyme (R544 to R550) -/

inductive Source where
  | freeRun | pps | mesh | host | holdover
  deriving DecidableEq, Repr, Inhabited

inductive PpsState where
  | disabled | acquiring | locked | noisy | absent
  deriving DecidableEq, Repr, Inhabited

/-- Thyme, the stamp clock, PPS_IN and the servo. -/
structure TimeSt where
  /-- 25 MHz ticks since VAON power-on (R544): the model's physical time, 40 ns each -/
  clk : Nat := 0
  thyme : Nat := 0
  /-- fraction of a nanosecond, in units of 2^-32 (R544) -/
  thymeFrac : Nat := 0
  stampClock : Nat := 0
  /-- fraction of the stamp clock, in units of 2^-32 ns (R159) -/
  stampFrac : Nat := 0
  largestStamp : Nat := 0
  rate : Int := 0
  /-- the part of a slew not yet applied, in units of 2^-32 ns (R550) -/
  slewLeft : Int := 0
  servoSum : Int := 0
  source : Source := .freeRun
  ppsState : PpsState := .disabled
  ppsEnable : Bool := false
  ppsFalling : Bool := false
  islandOsc : Bool := false
  holdBase : Nat := 0
  holdSince : Nat := 0
  hostErr : Word32 := 0xFFFFFFFF#32
  ppsOffset : Int := 0
  snap : Nat := 0
  ppsLast : Nat := 0
  ppsPhase : Int := 0
  ppsAccepted : Nat := 0
  ppsRejected : Nat := 0
  ppsGood : Nat := 0
  ppsRejRun : Nat := 0
  /-- the interval between expected instants in which ppsRejRun counts (R549) -/
  ppsRejSec : Int := 0
  /-- Thyme of the last accepted edge, or of the setting that began the watch for 1.5 s (R549) -/
  ppsWatch : Nat := 0
  ppsPrevEdge : Option Nat := none
  lastHostTimeWrite : Nat := 0
  /-- the parent's error estimate, from its last TIME frame (R546) -/
  parentEst : Nat := 0xFFFFFFFF
  deriving DecidableEq, Repr, Inhabited

/-! ### Package, supplies, clocks (R551, R552, R583 to R597) -/

structure PkgSt where
  vaonAGood : Bool := false
  vaonBGood : Bool := false
  onB : Bool := false
  switchCount : Nat := 0
  /-- EN_G1 to EN_G5 and PG_G1 to PG_G5 -/
  en : List Bool := [false, false, false, false, false]
  pg : List Bool := [false, false, false, false, false]
  seqFails : Nat := 0
  lostGroup : Option Nat := none
  lostAt : Nat := 0
  refAonGood : Bool := true
  refPcieGood : Bool := true
  refClGood : Bool := true
  thermTrip : Bool := false
  hotspot : List Nat := [0, 0, 0, 0]
  halfClock : List Bool := [false, false, false, false]
  packagePower : Nat := 0
  vaonAmV : Nat := 0
  vaonBmV : Nat := 0
  /-- PERST# asserted, as qualified (R590) -/
  perst : Bool := true
  /-- an assertion, and a deassertion, qualified before the boot ROM could act on it (R590) -/
  perstSeen : Bool := false
  perstPending : Bool := false
  /-- the straps as sampled at the island's power-on reset (R591) -/
  addrSel : Nat := 0
  mgmtVsel : Bool := false
  deriving DecidableEq, Repr, Inhabited

/-! ### Boot and firmware (R535 to R543) -/

inductive Stage where
  | bootRom | recovery | running
  deriving DecidableEq, Repr, Inhabited

inductive Transfer where
  | none | load (cid : Nat) | pldm
  deriving DecidableEq, Repr, Inhabited

structure FwSt where
  stage : Stage := .bootRom
  bootError : Nat := 0
  /-- tick counts of restarts of Sage by the watchdog (R539) -/
  watchdogAt : List Nat := []
  startedAt : Nat := 0
  pciePhyPassed : Bool := false
  /-- the image stored in flash; none: invalid (R540) -/
  stored : Option Image := some Config.shippedImage
  active : Image := Config.shippedImage
  /-- the board configuration block in flash, which the device never writes (R592, R593) -/
  boardBlock : Bytes := Config.boardBlock
  /-- digest of the PCIe PHY component in use: a new one takes effect at the next PERST# (R512, R542) -/
  pciePhy : Bytes := Config.shippedImage.digests.getD 4 []
  transfer : Transfer := .none
  /-- a LIVE activation in progress: its command and admission time (R543) -/
  live : Option (Nat × Nat) := none
  liveKilled : Bool := false
  /-- the model answers a request within its step, so a later GO always finds it 0 -/
  mbBusy : Bool := false
  mbRespReady : Bool := false
  mbReq : Word32 := 0
  mbResp : Word32 := 0
  mbArg : Word32 := 0
  mbReqBuf : List (Nat × Word32) := []
  mbRespBuf : Bytes := []
  /-- image bytes received in recovery: offset and bytes, oldest first (R535) -/
  received : List (Nat × Bytes) := []
  endpointId : BitVec 8 := 0
  /-- SPDM sessions, oldest first (R511, R533): over MCTP rather than the DOE mailbox, and completed by FINISH -/
  sessions : List (Bool × Bool) := []
  /-- sensor events not yet polled (R533): sensor and reading, oldest first -/
  pldmEvents : List (Nat × Nat) := []
  deriving DecidableEq, Repr, Inhabited

/-! ### Fuses, keys, security (R502 to R531) -/

inductive DebugState where
  | locked | openObserve | openFull | closed
  deriving DecidableEq, Repr, Inhabited

structure Nonce where
  value : Bytes
  issuedAt : Nat
  deriving DecidableEq, Repr, Inhabited

/-- Fuses: nothing clears one (R70, R510). -/
structure Fuses where
  ownerKey : Option Bytes := none
  debugClosed : Bool := false
  svnFloor : Nat := 0
  /-- channels mapped out by the field-repair fuse bank (R451), at most 32 -/
  repair : List Nat := []
  deriving DecidableEq, Repr, Inhabited

structure SecSt where
  fuses : Fuses := {}
  debugState : DebugState := .locked
  nonce : Option Nonce := none
  /-- a debug opening granted that waits for imports to end or for a restart (R527): its level -/
  debugPending : Option Nat := none
  peerFlags : Word32 := 0
  peerTags : List Bytes := []
  reserveKey : Nat := 0
  /-- counter of keys made by the DRBG (R502): each key is named by its number -/
  keyCount : Nat := 0
  /-- IDE streams with keys programmed, and those in the secure state (R52) -/
  ideProgrammed : List Nat := []
  ideSecure : List Nat := []
  deriving DecidableEq, Repr, Inhabited

/-! ### Error log and repair record (R558 to R577) -/

/-- One entry of the error log (R559, R560). `detail` holds bytes 24 to 63. -/
structure LogEntry where
  seq : Nat
  status : Nat := 0
  kind : Nat
  nested : Bool := false
  escalated : Bool := false
  repair : Bool := false
  part : Option PartNo := none
  stamp : Nat := 0
  related : Nat := 0
  scope : Nat
  fn : Option Fn := none
  unit : Nat := 0
  detail : Bytes := []
  deriving DecidableEq, Repr, Inhabited

inductive CoreState where
  | active | spare | failed | retired | standIn | underTest | bypassed
  deriving DecidableEq, Repr, Inhabited

inductive ClusterState where
  | active | bypassed | reinstatePending
  deriving DecidableEq, Repr, Inhabited

/-! ### Memory (R58, R134, R504) -/

/-- What the unlisted bytes of an initialised extent read (R134). -/
inductive Fill where
  | zero
  /-- empty id-table entries: slot 0xFFFF_FFFF in bytes 8 to 11 of each 16 B -/
  | idTable
  /-- layout not specified (posting lists once changed, R158): unlisted bytes read a free value -/
  | open
  /-- a generated projection matrix of ±1.0 in BF16, row-major, from its seed and DIM (R149) -/
  | proj (seed : Word64) (dim : Nat)
  deriving DecidableEq, Repr, Inhabited

structure Extent where
  lo : Nat
  hi : Nat
  fill : Fill := .zero
  deriving DecidableEq, Repr, Inhabited

/-- A byte space: the listed bytes (addresses strictly rising, none equal to what its address reads unlisted), over extents. -/
structure Mem where
  cells : List Host.Cell := []
  extents : List Extent := []
  deriving DecidableEq, Repr, Inhabited

/-- Scratchpad space as PARTITION_CONFIGURE leaves it: every byte 0 (R403), up to 16 slices of 256 MiB (R425). -/
def Mem.scratch : Mem := { extents := [{ lo := 0, hi := 4294967296 }] }

/-! ### What a core's engines hold (R19, R214, R215, R218, R253, R376) -/

/-- One distance array: its feed buffer of 32 KiB, the newest bytes last; its two sets of stationary registers, each up to 16 columns of one
pass, and which of them is in use; the foot row's live and shadow sets, entry (j, v) at place j of list v, FP32 bits; and the chunk registers
A and B of the live entries, FP16 bits, 0 where not listed. -/
structure DistArray where
  feed : Bytes := []
  sets : List Bytes × List Bytes := ([], [])
  second : Bool := false
  live : List (List Nat) := []
  shadow : List (List Nat) := []
  chunks : List (List (Nat × Nat)) := []
  deriving DecidableEq, Repr, Inhabited

/-- The arrays DA0 and DA1; SEL's registers V0 to V15, lane by lane (sort code, local id); the walker's fetch buffers of 8 KiB by context
slot. `losses` counts how often they and Carafe were lost (R553): the model's own, the key of the free values Carafe reads then. -/
structure Engines where
  da0 : DistArray := {}
  da1 : DistArray := {}
  sel : List (Nat × Nat) := []
  fetch : List (Nat × Bytes) := []
  losses : Nat := 0
  deriving DecidableEq, Repr, Inhabited

/-- A core: RAS_CORE_STATE(n) and the handling in progress. -/
structure Core where
  state : CoreState := .active
  /-- contexts killed by its loss or retirement, saturating at 16 bits (R575) -/
  kills : Nat := 0
  /-- tick counts of engine faults (R565) -/
  faultsAt : List Nat := []
  /-- admits nothing (R567 step 1, R572) -/
  stopped : Bool := false
  /-- the staging window with the compute role (R376) -/
  computeWindow : Bool := false
  /-- Ristretto entries served in turn (R380) -/
  ristrettoRun : Nat := 0
  /-- Carafe, 4 MiB: half h from h × 2 MiB, its context store, then its staging window (R19, R376) -/
  carafe : Mem := {}
  eng : Engines := {}
  deriving DecidableEq, Repr, Inhabited

/-- A cluster: its state, gating, slice and the handling in progress. -/
structure Cluster where
  state : ClusterState := .active
  gated : Bool := false
  sliceCorrected : Nat := 0
  sliceUncorrAt : List Nat := []
  flitErrorsAt : List Nat := []
  underTest : Bool := false
  /-- SEQ of the entry that opened a core failure's handling, and the failed core (R564, R566) -/
  sparing : Option (Nat × Nat) := none
  /-- the states of its nine cores as they were when it was bypassed (R563, R569) -/
  savedCores : List CoreState := []
  /-- when a bypass in progress began (R565) -/
  bypassAt : Option Nat := none
  /-- the core under test with the spare as stand-in, and since when (R572) -/
  standIn : Option (Nat × Nat) := none
  /-- 0 the core drains, 1 the stand-in has joined and the items run, 2 the stand-in drains (R572) -/
  standInPhase : Nat := 0
  /-- local number of the next core a running extended test takes -/
  testNext : Nat := 9
  idleSince : Nat := 0
  deriving DecidableEq, Repr, Inhabited

structure RasSt where
  log : List LogEntry := []
  nextSeq : Nat := 1
  written : Nat := 0
  /-- entries of each partition's view overwritten (R562) -/
  overwrittenOf : List Nat := List.replicate 16 0
  cores : List Core
  clusters : List Cluster := List.replicate 16 {}
  bypasses : Nat := 0
  escalations : Nat := 0
  /-- unavailable time of each partition, and since when one is running (R577) -/
  unavail : List Nat := List.replicate 16 0
  unavailSince : List (Option Nat) := List.replicate 16 none
  /-- SEQ of the DEVICE entry whose handling is open (R564) -/
  deviceOpen : Option Nat := none
  deriving DecidableEq, Repr, Inhabited

/-! ### Host interface (R61 to R69) -/

inductive RestartCause where
  | request | escalation | watchdog | rails
  deriving DecidableEq, Repr, Inhabited

structure HifSt where
  fatal : Bool := false
  reduced : Bool := false
  dpRestarting : Bool := false
  dpReady : Bool := false
  sageReady : Bool := true
  resetCause : Word32 := 0x40#32
  dpRestartCount : Nat := 0
  scratch0 : Word32 := 0
  scratch1 : Word32 := 0
  linkTraining : Bool := false
  linkUp : Bool := false
  linkWidth : Nat := 0
  linkSpeed : Nat := 0
  linkFlit : Bool := false
  /-- cause and start of the data-path restart or start-up in progress (R74) -/
  restartCause : Option RestartCause := none
  restartAt : Nat := 0
  /-- set FW_ACTIVATED at step 4 (R542) -/
  fwRestart : Bool := false
  deriving DecidableEq, Repr, Inhabited

inductive TdiState where
  | unlocked | locked | run | error
  deriving DecidableEq, Repr, Inhabited

/-- One function: QM view, HIF view, MSI-X, configuration space, TDI. -/
structure FnSt where
  qmEnable : Bool := false
  qmReady : Bool := false
  asqLo : Word32 := 0
  asqHi : Word32 := 0
  acqLo : Word32 := 0
  acqHi : Word32 := 0
  aqSize : Word32 := 0
  evCause : Word32 := 0
  evMask : Word32 := 0x137#32
  bar2Ctrl : Word32 := 0
  bar2Base : Word32 := 0
  /-- vectors unmasked: every vector is masked at reset -/
  msixOpen : List Nat := []
  msixFnMask : Bool := false
  msixPending : List Nat := []
  memSpace : Bool := false
  numVfs : Nat := 0
  vfEnable : Bool := false
  d3hot : Bool := false
  /-- the writable bits of configuration space, by dword offset, where they have left their reset values -/
  cfg : List (Nat × Word32) := []
  /-- the AER uncorrectable-error status bits: sticky (R70, R76) -/
  aer : Word32 := 0
  /-- the MSI-X table: address and data of the vectors written (R54, R68) -/
  msixTable : List (Nat × Word64 × Word32) := []
  pageReqs : Nat := 0
  spdmResp : Option Bytes := none
  tdi : TdiState := .unlocked
  tdiStream : Option Nat := none
  deriving DecidableEq, Repr, Inhabited

/-! ### Queue pairs and commands (R77 to R117) -/

/-- A restart accepted and waiting for INFLIGHT 0 (R113). -/
structure RestartReq where
  cid : Nat
  flush : Bool
  /-- the tail as a FLUSH found it when INFLIGHT was 0 -/
  upTo : Option Nat := none
  deriving DecidableEq, Repr, Inhabited

structure Pair where
  fn : Fn
  qid : Nat
  part : Option PartNo := none
  sqBase : Nat := 0
  cqBase : Nat := 0
  sqSize : Nat
  cqSize : Nat
  vector : Nat := 0
  pasid : Option Nat := none
  weight : Nat := 1
  aggCount : Nat := 0
  aggTime : Nat := 0
  head : Nat := 0
  tail : Nat := 0
  cqTail : Nat := 0
  cqHead : Nat := 0
  phase : Bool := true
  frozen : Bool := false
  deleting : Bool := false
  /-- the DELETE_QUEUE_PAIR commands that wait for the deletion, in order (R117) -/
  deleters : List Nat := []
  restart : Option RestartReq := none
  /-- further RESTART_QUEUE commands that wait for the same freeze to end (R113, R114) -/
  restartMore : List Nat := []
  freezeCount : Nat := 0
  freezeSeq : Nat := 0
  freezeClasses : List Nat := []
  unsignalled : Nat := 0
  unsignalledSince : Nat := 0
  /-- the QM stopped fetching: a FENCE waits (R103) or an entry's read failed (R602) -/
  fence : Option Nat := none
  fetchFailed : Bool := false
  deriving DecidableEq, Repr, Inhabited

inductive Phase where
  /-- an admin command that Sage or the QM may run -/
  | ready
  /-- an admin command held for DP_READY or for its partition's reconfiguration (R75, R403) -/
  | held
  /-- an I/O command held outside the admission queue: range lock, DEP or FENCE (R387) -/
  | waiting
  /-- in the admission queue (R387) -/
  | queued
  /-- admitted: it holds contexts (R388) -/
  | running
  /-- in its commit phase or a commit step (R384) -/
  | committing
  /-- stamped and applied; waits for the journal or for members (R314, R288) -/
  | flushing
  /-- finished: its completion waits to be written -/
  | done
  deriving DecidableEq, Repr, Inhabited

/-- A stage set of dense layers: its identifier, header and descriptors, and its weights (R240 to R245). -/
structure StageSet where
  id : Nat
  /-- the command that loaded it: names its place in scratchpad (R245) -/
  tag : Nat := 0
  param : Bytes
  input : Bytes
  deriving DecidableEq, Repr, Inhabited

/-- A candidate with its exact key (R251): FP32 bits of the key, slot, global id, member, attribute word. -/
structure Cand where
  key : Nat
  slot : Nat
  gid : Nat
  member : Nat := 0
  attr : Nat := 0
  payload : Bytes := []
  deriving DecidableEq, Repr, Inhabited

structure BeamEntry where
  slot : Nat
  dist : Nat
  expanded : Bool := false
  deriving DecidableEq, Repr, Inhabited

/-- A block of a visited filter (R182): the bits set and the slots it holds. -/
structure VisitBlock where
  bits : List Nat := []
  count : Nat := 0
  deriving DecidableEq, Repr, Inhabited

/-- A walk in progress (R178, R184): beam, pool, visited filter, exact list. -/
structure Walk where
  /-- the queries with ‖q‖² and 1/‖q‖: one, or NQ of a SCAN -/
  qs : List (Bytes × Nat × Nat) := []
  qtype : Nat := 0
  sketch : Nat := 0
  k : Nat := 1
  beamMax : Nat := 64
  poolMax : Nat := 10
  width : Nat := 4
  budget : Nat := 1024
  stall : Nat := 0
  beam : List BeamEntry := []
  pool : List BeamEntry := []
  visited : List VisitBlock := [{}]
  expansions : Nat := 0
  idle : Nat := 0
  ended : Bool := false
  /-- its own lists are final (R259) -/
  joined : Bool := false
  cut : Bool := false
  spilled : Bool := false
  walkEnd : Nat := 0
  /-- pool entries not yet compared, best first, once the walk has ended -/
  toRank : List Nat := []
  batches : Nat := 0
  /-- contexts that share its comparisons, and how many passing records each has compared: batches go to them in turn (R189, R263) -/
  shares : Nat := 1
  passed : List Nat := []
  /-- its pool has been dealt to helper contexts (R258) -/
  dealt : Bool := false
  /-- filter blocks taken outside the walker (R182, R264) -/
  outside : Nat := 0
  /-- records examined (R176, R198) -/
  examined : Nat := 0
  /-- per query, its best entries so far, truncated by R255 -/
  lists : List (List Cand) := []
  deriving DecidableEq, Repr, Inhabited

/-- One record of a mutation in progress (R280, R283). -/
structure MutRec where
  gid : Nat
  outcome : Nat := 0
  /-- the new version's slot, for INSERT and UPSERT -/
  slot : Option Nat := none
  /-- the version the id table named before -/
  old : Option Nat := none
  oldLive : Bool := false
  attr : Nat := 0
  /-- neighbours whose edge blocks received a back-link -/
  backlinks : List Nat := []
  deriving DecidableEq, Repr, Inhabited

structure MutSt where
  recs : List MutRec := []
  /-- slots reserved and not yet used (R282) -/
  reserved : List Nat := []
  work : Nat := 0
  /-- id-table entries reserved: an id, and its entry's address or none for one of the stash (R282) -/
  claims : List (Nat × Option Nat) := []
  /-- journal space reserved: the lengths of its records (R282, R313) -/
  space : List Nat := []
  /-- phases 3 to 5 are done -/
  written : Bool := false
  deriving DecidableEq, Repr, Inhabited

/-- The running sum of one row's gradient: per element (hi, lo) as FP32 bits (R340). -/
structure RowSum where
  row : Nat
  sums : List (Nat × Nat) := []
  /-- ASSIGN: the row part to write (R349) -/
  assign : Option Bytes := none
  deriving DecidableEq, Repr, Inhabited

/-- An EMB_UPDATE whose contributions are summed (R345 to R347). -/
structure UpdSt where
  rows : List RowSum := []
  applied : Nat := 0
  skipped : Nat := 0
  stamp : Nat := 0
  spilled : Bool := false
  deriving DecidableEq, Repr, Inhabited

/-- A mesh command that waits for members (R199, R288, R358, R361). -/
structure MeshWait where
  tag : Nat := 0
  /-- members asked, and those still to answer, by member index -/
  members : List Nat := []
  waiting : List Nat := []
  applying : Bool := false
  /-- END sent: a re-run sends nothing (R360) -/
  endSent : Bool := false
  incarnation : Nat := 0
  /-- (query, entries) of the members that have returned; with `asking`, payloads are on their way (R267) -/
  lists : List (Nat × List Cand) := []
  /-- member, query and entries of frames whose member's last frame has not come (R200) -/
  early : List (Nat × Nat × List Cand) := []
  asking : Bool := false
  partials : List (Nat × Nat × List Nat) := []
  fetched : List (Nat × Bytes) := []
  notes : Nat := 0
  work : Nat := 0
  count : Nat := 0
  stamp : Nat := 0
  failed : List (Nat × Nat) := []
  applied : List Nat := []
  abandoned : List Nat := []
  /-- an EMB_UPDATE's step (R359) -/
  step : Nat := 0
  outcomes : List (Nat × List Nat) := []
  deriving DecidableEq, Repr, Inhabited

/-- What an admitted command has done so far. -/
inductive Run where
  | idle
  | walk (w : Walk)
  | mutation (m : MutSt)
  | update (u : UpdSt)
  deriving DecidableEq, Repr, Inhabited

/-- A command in flight (R88): from its fetch until its completion has been written. -/
structure Cmd where
  id : Nat
  fn : Fn
  qid : Nat
  part : Option PartNo := none
  packet : Bytes
  data : HostData := {}
  fetchTime : Nat := 0
  heldSince : Nat := 0
  phase : Phase
  admitTime : Nat := 0
  readStamp : Nat := 0
  deadline : Option Nat := none
  /-- the walk cut point, fixed at its first admission (R183, R186) -/
  tWalk : Option Nat := none
  preempts : Nat := 0
  /-- a killed command to be re-run stands at the head of its class (R396) -/
  rerun : Bool := false
  spill : Nat := 0
  /-- bytes of its selection state that have moved to the HBM spill pool (R264) -/
  spilled : Nat := 0
  run : Run := .idle
  mode : Word32 := 0
  status : Nat := 0
  core : Nat := 0xFFFF
  count : Nat := 0
  logSeq : Nat := 0
  stamp : Nat := 0
  work : Nat := 0
  commitStamp : Nat := 0
  /-- its place in the order of admission (R246) -/
  admitSeq : Nat := 0
  /-- where its last output write went; its completion write waits for a zero-length read there (R95) -/
  outAt : Option Nat := none
  readBack : Bool := false
  /-- its completion write met a page not present: whether the page request has been sent (R86) -/
  pageWait : Option Bool := none
  /-- DETAIL bytes 32 to 63 of the entry that logs its error (R560) -/
  cause : Bytes := []
  /-- INVALID_FIELD because its pair was deleted: written after that deletion's completion (R113) -/
  after : Option Nat := none
  /-- a member step of another device's command: its device id and tag (R473) -/
  origin : Option (Nat × Nat) := none
  /-- its pair was deleted during its commit phase: it finishes its apply and stamp, and no completion is written (R117) -/
  orphan : Bool := false
  /-- a reset ended it during its commit phase: its journal record is abandoned (R71) -/
  unjournaled : Bool := false
  /-- chosen for shadow sampling at admission (R202) -/
  sampled : Bool := false
  /-- a SEARCH that runs as a filtered flat scan (R188) -/
  flat : Bool := false
  /-- when its walk ended (R183), and the ids it returned (R204) -/
  walkEnd : Nat := 0
  resultIds : List Nat := []
  /-- what it waits for from the members of a mesh collection -/
  mesh : Option MeshWait := none
  /-- the lists a member step sends to its origin, per query (R487) -/
  lists : List (List Cand) := []
  /-- a shadow scan run over a mesh: no queue pair awaits its completion (R202) -/
  shadow : Bool := false
  /-- the collection its handle named at its admission (R136) -/
  coll : Option Nat := none
  /-- the stage set it uses, as it stood at its admission (R246) -/
  stage : Option StageSet := none
  /-- SNAP_SEQ of a DURABLE export that waits for its flushing read (R324) -/
  snapSeq : Nat := 0
  /-- an export's LIVE slots and its partition's device set at its admission (R321, R522) -/
  bound : Nat := 0
  devs : List (Bytes × Bytes) := []
  deriving DecidableEq, Repr, Inhabited

/-- A range-lock entry (R105). -/
structure LockEntry where
  cid : Nat
  part : PartNo
  handle : Nat
  lo : Nat
  hi : Nat
  deriving DecidableEq, Repr, Inhabited

inductive CtxState where
  | ready | running | waiting | halted | committing | leaving
  deriving DecidableEq, Repr, Inhabited

/-- A context slot that holds a command (R384); a slot not listed is FREE. -/
structure Ctx where
  core : Nat
  slot : Nat
  cid : Nat
  state : CtxState := .ready
  deriving DecidableEq, Repr, Inhabited

/-- A stream descriptor in use (R369) with its run-time state. -/
structure Stream where
  core : Nat
  num : Nat
  engine : Nat := 7
  cid : Nat
  ctxSlot : Nat := 0
  write : Bool := false
  kind : Nat := 0
  space : Nat := 0
  persist : Bool := false
  armedSince : Option Nat := none
  elem : Nat := 4
  base : Nat := 0
  stride : Int := 0
  count : Nat := 0
  bufBytes : Nat := 0
  /-- CARAFE_OFF: the start of its buffer in Carafe; of a walker stream, in the slot's fetch buffer (R376) -/
  carafeOff : Nat := 0
  /-- INDEX_SRC, INDEX_W, INDEX_OFF (R369) -/
  indexSrc : Nat := 0
  index64 : Bool := false
  indexOff : Nat := 0
  /-- where a stream of a command's input begins in that input (the model's own) -/
  dataOff : Option Nat := none
  /-- the intermediate quadrant of its last request (R18) -/
  via : Option Nat := none
  depAt : Option Nat := none
  pos : Nat := 0
  /-- first element not yet issued -/
  issued : Nat := 0
  /-- elements landed out of order, beyond pos -/
  landed : List Nat := []
  /-- bytes landed and not yet consumed; outstanding transfers -/
  unread : Nat := 0
  outstanding : Nat := 0
  outBytes : Nat := 0
  rate : Nat := 0
  halted : Bool := false
  eligibleSince : Nat := 0
  member : Nat := 0
  fn : Fn := .pf
  /-- the stream of a killed command, halted on a page request: it waits for the response (R382, R386) -/
  dead : Bool := false
  /-- its page request has been sent (R381) -/
  asked : Bool := false
  deriving DecidableEq, Repr, Inhabited

/-- An entry of a core's Ristretto queue (R380). -/
structure Ristretto where
  core : Nat
  cid : Nat
  space : Nat
  addr : Nat
  len : Nat
  write : Bool := false
  /-- its place in Carafe, and its context slot (R380) -/
  carafeOff : Nat := 0
  ctxSlot : Nat := 0
  /-- where it begins in its command's input (the model's own) -/
  dataOff : Option Nat := none
  deriving DecidableEq, Repr, Inhabited

/-- A semaphore taken by a context (R394). -/
structure Semaphore where
  word : Nat
  cid : Nat
  core : Nat
  deriving DecidableEq, Repr, Inhabited

/-! ### Scratchpad uses (R426) -/

/-- What the device keeps in scratchpad (R426). -/
inductive ScratchKind where
  | stage | hot | directory | overflow | spill
  deriving DecidableEq, Repr, Inhabited

/-- One use of scratchpad by the device: of a collection's or a command's, with the ranges it holds in the order of its bytes. -/
structure ScratchUse where
  kind : ScratchKind
  owner : Nat
  item : Nat
  exts : List (Nat × Nat) := []
  deriving DecidableEq, Repr, Inhabited

/-! ### Collections (R126 to R205, R240 to R246, R297 to R304, R328 to R366) -/

/-- The search report (R205). -/
structure Report where
  lastK : Nat := 0
  searches : Nat := 0
  flatScans : Nat := 0
  partials : Nat := 0
  staleEdges : Nat := 0
  samples : Nat := 0
  hits : Nat := 0
  expected : Nat := 0
  dropped : Nat := 0
  ewma : Nat := 0
  lastStamp : Nat := 0
  deriving DecidableEq, Repr, Inhabited

/-- A pass in progress (R297): its stamp, next slot, rewiring, ALPHA bits, the command that asked, entries removed. -/
structure Pass where
  /-- P -/
  stamp : Nat
  next : Nat := 0
  rewire : Bool := true
  alpha : Nat := 0
  cid : Option Nat := none
  removed : Nat := 0
  deriving DecidableEq, Repr, Inhabited

/-- A posting-list member (R153, R191): field, value, slot, and the stamp of the commit that removed it. -/
structure Posting where
  field : Nat
  value : Nat
  slot : Nat
  removedAt : Option Nat := none
  deriving DecidableEq, Repr, Inhabited

/-- A mesh step at its owner (R359 to R361). -/
structure MeshStep where
  step : Nat
  firstAt : Nat
  /-- ENDs held: member, PARTICIPANTS, incarnation -/
  ends : List (Nat × Nat × Nat) := []
  /-- blocks whose old owner has sent its forwarding END -/
  forwardEnds : List Nat := []
  /-- the parameter block of the first END (R337) -/
  param : Bytes := []
  /-- pairs by (member, incarnation) -/
  sums : List (Nat × Nat × List RowSum) := []
  /-- its apply has begun: the commit steps still to come, the rows in all, the rows applied and the last stamp (R160, R347) -/
  begun : Bool := false
  left : List (List RowSum) := []
  total : Nat := 0
  applied : Nat := 0
  stamp : Nat := 0
  deriving DecidableEq, Repr, Inhabited

inductive BlockState where
  | owned | moving | forwarding
  deriving DecidableEq, Repr, Inhabited

/-- A handoff (R366). -/
structure Handoff where
  block : Nat
  peer : Nat
  out : Bool
  state : BlockState := .moving
  copied : Bool := false
  /-- COMMIT has been sent -/
  sent : Bool := false
  /-- lines changed since they were copied -/
  dirty : List Nat := []
  /-- at the target: the lines received and not yet installed -/
  lines : List (Nat × Bytes) := []
  /-- pairs held at the old owner since the copy: step, incarnation, member, rows -/
  held : List (Nat × Nat × Nat × List RowSum) := []
  /-- members that have acknowledged the directory change -/
  acked : List Nat := []
  /-- FORWARD_DONE has been sent -/
  fwdDone : Bool := false
  /-- the SHARD_MIGRATE that asked for it: device and tag -/
  asker : Option (Nat × Nat) := none
  deriving DecidableEq, Repr, Inhabited

/-- Ownership and load of a mesh table (R356, R357, R362). -/
structure TableMesh where
  /-- directory: block, owner, epoch -/
  dir : List (Nat × Nat × Nat) := []
  /-- block slots in use: block, slot -/
  slots : List (Nat × Nat) := []
  slotCount : Nat := 0
  handoffs : List Handoff := []
  steps : List MeshStep := []
  /-- rows served in the present window, and ever (R362) -/
  served : Nat := 0
  accesses : Nat := 0
  /-- sampled accesses of the present window, by block -/
  blockServed : List (Nat × Nat) := []
  /-- own load and the sum over the members of the last windows, newest first -/
  windows : List (Nat × Nat) := []
  /-- samples of the last 16 windows, newest first, by block -/
  blockLoads : List (Nat × List Nat) := []
  /-- the last window totals heard of the other members, and their free block slots -/
  memberLoads : List (Nat × Nat) := []
  memberFree : List (Nat × Nat) := []
  windowEnd : Nat := 0
  movedIn : Nat := 0
  movedOut : Nat := 0
  recentMoves : List (Nat × Nat) := []
  deriving DecidableEq, Repr, Inhabited

/-- A collection (R126). -/
structure Coll where
  handle : Nat
  /-- names the collection where its handle may be in use again (R136) -/
  uid : Nat := 0
  /-- the COLLECTION_CREATE parameter block (R131), member list and report offsets -/
  param : Bytes
  members : List Nat := []
  base : Nat := 0
  size : Nat := 0
  projOff : Nat := 0
  sketchOff : Nat := 0
  edgeOff : Nat := 0
  metaOff : Nat := 0
  vectorOff : Nat := 0
  payloadOff : Nat := 0
  idOff : Nat := 0
  postOff : Nat := 0
  stash : List (Nat × Nat) := []
  postings : List Posting := []
  entrySet : List Nat := []
  expansionCount : Nat := 0
  samples : List (Nat × Nat) := []
  stages : List StageSet := []
  report : Report := {}
  shadowCount : Nat := 0
  /-- finishing time F in 1/256 ns (R183) -/
  finish : Nat := 25000 * 256
  pass : Option Pass := none
  /-- when the last pass began, or the creation (R302) -/
  lastPass : Nat := 0
  eligible : List Nat := []
  /-- slots whose reclaim met poison: out of use until the drop (R300) -/
  stuck : List Nat := []
  dropping : Bool := false
  /-- replay: the SEQ from which records apply, and the image's policy (R318, R521) -/
  replayStart : Nat := 0
  imageId : Nat := 0
  snapJournal : Nat := 0
  durableSeq : Option Nat := none
  createSeq : Nat := 0
  debugReq : Nat := 0
  minFw : Word32 := 0
  imported : Bool := false
  hotRows : List Nat := []
  tm : TableMesh := {}
  deriving DecidableEq, Repr, Inhabited

/-! ### Journal (R306 to R320) -/

inductive JState where
  | off | active | replaying | failed
  deriving DecidableEq, Repr, Inhabited

/-- A record the ring holds: SEQ, offset, length, type, collection and commit stamp (R311, R320, R322). -/
structure JRec where
  seq : Nat
  off : Nat
  len : Nat
  rtype : Nat
  handle : Nat
  stamp : Nat := 0
  deriving DecidableEq, Repr, Inhabited

structure Journal where
  state : JState := .off
  /-- JOURNAL_CTRL as the last SET left it (R306) -/
  ctrl : Word32 := 0#32
  id : Nat := 0
  generation : Nat := 0
  key : Nat := 0
  /-- KEY_BLOB of the header (R310) -/
  blob : Bytes := []
  nextSeq : Nat := 1
  nextOff : Nat := 0x1000
  trimSeq : Nat := 1
  trimOff : Nat := 0x1000
  /-- records from TRIM_SEQ on, oldest first -/
  recs : List JRec := []
  /-- flushing reads outstanding: the SEQ of the trailer each reads, oldest first (R314) -/
  reads : List Nat := []
  /-- the newest SEQ that a flushing read has confirmed (R314) -/
  confirmed : Nat := 0
  /-- commands and the SEQ of their last record, waiting to be confirmed -/
  waiting : List (Nat × Nat) := []
  /-- commands applied but not durable, held until the journal is disabled (R315) -/
  held : List Nat := []
  /-- the command whose replay is in progress (R317) -/
  replayCid : Nat := 0
  deriving DecidableEq, Repr, Inhabited

/-! ### Partitions (R400 to R418) -/

/-- Accounting counters (R412). -/
structure Acct where
  resetStamp : Nat := 0
  engineBusy : Nat := 0
  hbmRead : Nat := 0
  hbmWrite : Nat := 0
  slmBytes : Nat := 0
  meshTx : Nat := 0
  meshRx : Nat := 0
  hostBytes : Nat := 0
  completed : Nat := 0
  misses : Nat := 0
  kills : Nat := 0
  deriving DecidableEq, Repr, Inhabited

/-- A slow-down window (R415). -/
structure Window where
  stamp : Nat
  useful : Nat
  hbm : Nat
  slm : Nat
  mesh : Nat
  pcie : Nat
  reg : Nat
  slowdown : Nat
  deriving DecidableEq, Repr, Inhabited

/-- A queued shadow scan (R202, R203). -/
structure Shadow where
  handle : Nat
  stamp : Nat
  query : Bytes
  qtype : Nat
  filter : Bytes
  k : Nat
  result : List Nat
  deriving DecidableEq, Repr, Inhabited

/-- A member's hold on the records of a list it has sent, until its origin has asked for their payloads (R267): collection, read stamp,
origin and tag, and when the list was sent. -/
structure PayHold where
  uid : Nat
  stamp : Nat
  dev : Nat
  tag : Nat
  at_ : Nat
  deriving DecidableEq, Repr, Inhabited

/-- A regulator group (R406, R417). -/
structure RegGroup where
  rate : Nat := 0
  depth : Nat := 64
  deriving DecidableEq, Repr, Inhabited

structure PartSt where
  present : Bool := false
  clusters : BitVec 16 := 0
  scratch : Nat := 0
  borrow : Bool := false
  hbmShare : Nat := 0
  meshShare : Nat := 0
  granules : List Nat := []
  qpQuota : Nat := 0
  modeWord : Word32 := 0
  modeLock : Word32 := 0
  /-- features set away from their reset values, by identifier (R100) -/
  feats : List (Nat × Word32) := []
  mem : Mem := {}
  scratchMem : Mem := Mem.scratch
  /-- poisoned scratchpad lines (R424) -/
  scratchPoison : List Nat := []
  /-- the device's own uses of scratchpad, above the host region (R426) -/
  scratchUses : List ScratchUse := []
  /-- key generation of the partition's HBM key; none when destroyed (R503) -/
  hbmKey : Option Nat := none
  colls : List Coll := []
  journal : Journal := {}
  declared : List (Bytes × Bytes) := []
  shadows : List Shadow := []
  /-- lists sent whose payloads an origin may still ask for (R267) -/
  payHolds : List PayHold := []
  acct : Acct := {}
  windows : List Window := []
  regs : List RegGroup := List.replicate 32 {}
  /-- admission and fetching stopped by a reconfiguration (R403) -/
  stopped : Bool := false
  /-- since when the head of the admission queue has waited (R392) -/
  headSince : Nat := 0
  headCid : Nat := 0
  /-- when the hot set was last refreshed (R353) -/
  hotAt : Nat := 0
  /-- sampled accesses of table rows, by home slice: slice, handle, row, count (R353) -/
  hotCounts : List (Nat × Nat × Nat × Nat) := []
  /-- accesses that have reached each home slice -/
  accesses : List (Nat × Nat) := []
  deriving DecidableEq, Repr, Inhabited

/-! ### HBM (R437 to R458) -/

inductive ChState where
  | active | fenced | mapoutPending | mappedOut
  deriving DecidableEq, Repr, Inhabited

/-- A traffic generator (R456). -/
structure TrafficGen where
  ctrl : Word32 := 0
  state : Nat := 0
  passesDone : Nat := 0
  lineFirst : Word32 := 0
  lineCount : Word32 := 0
  seed : Word32 := 0
  passes : Word32 := 1
  errors : Nat := 0
  firstErr : Option Nat := none
  lanes : List Nat := []
  corrected : Nat := 0
  deriving DecidableEq, Repr, Inhabited

structure Channel where
  state : ChState := .active
  /-- lanes marked for repair at the next initialisation (R439) -/
  marked : List Nat := []
  /-- recent corrected symbols: tick, and the lane (R439) -/
  symbolAt : List (Nat × Nat) := []
  /-- dead lanes (R439) -/
  dead : List Nat := []
  spares : Nat := 2
  corrected : Nat := 0
  uncorrected : Nat := 0
  /-- recent uncorrectable bursts: tick and line (R447) -/
  badAt : List (Nat × Nat) := []
  parityAt : List Nat := []
  tg : TrafficGen := {}
  deriving DecidableEq, Repr, Inhabited

structure Stack where
  temp : Nat := 0
  level : Nat := 0
  /-- since when the temperature has stayed below the level's exit point -/
  belowSince : Option Nat := none
  deriving DecidableEq, Repr, Inhabited

structure HbmSt where
  channels : List Channel := List.replicate 256 {}
  stackSt : List Stack := List.replicate 8 {}
  /-- poisoned bursts by HBM burst number, address ÷ 64 (R441) -/
  poison : List Nat := []
  corrTotal : Nat := 0
  uncorrTotal : Nat := 0
  thermThreshold : Word32 := 0x5F#32
  scrubPeriod : Word32 := 0x18#32
  scrubRow : Nat := 0
  scrubActive : Bool := false
  initDone : Bool := false
  selfRefresh : Bool := false
  deriving DecidableEq, Repr, Inhabited

/-! ### Mesh (R459 to R501) -/

inductive PortState where
  | disabled | training | keying | up | degraded | down | test | idConflict
  deriving DecidableEq, Repr, Inhabited

structure Port where
  enable : Bool := false
  twoLanes : Bool := false
  state : PortState := .disabled
  upperPair : Bool := false
  /-- training left it two lanes -/
  two : Bool := false
  epoch : Nat := 0
  keyIdx : Bool := false
  keyFails : Nat := 0
  frames : Nat := 0
  sessionAt : Nat := 0
  rekeyAt : Option Nat := none
  peerId : Option Nat := none
  peerPort : Nat := 0
  peerTag : Bytes := []
  peerDebug : Nat := 0
  delay : Int := 0
  offset : Int := 0
  refId : Option Nat := none
  refLocked : Bool := false
  refHops : Nat := 0
  replays : Nat := 0
  fecCorrected : Nat := 0
  fecUncorrected : Nat := 0
  /-- next flit to accept; newest flit sent; flits kept for replay (R465) -/
  rxSeq : Nat := 0
  txSeq : Nat := 0
  replayFrom : Nat := 0
  /-- frames whose credits have not come back, oldest first, per VC: who holds the credits (0 to 15 a partition's units,
  16 the common pool, 17 the transit reserve) and how many (R481, R482) -/
  heldVc0 : List (Nat × Nat) := []
  heldVc1 : List (Nat × Nat) := []
  creditLink : Nat := 256
  /-- link-class frames that wait for LINK credits, oldest first: type and content (R473, R481) -/
  linkWait : List (Nat × FrameBody) := []
  /-- by deadline class, who sent last: 0 to 15 a partition, 16 transit (R483) -/
  served : List (Nat × Nat) := []
  /-- frames whose tag failed (R467) -/
  tagFails : Nat := 0
  /-- this device's receive time and the peer's send time of the peer's last TIME frame (R489) -/
  timeSeen : Nat × Nat := (0, 0)
  /-- routes have moved away from it and have not yet returned (R495) -/
  away : Bool := false
  lastRx : Nat := 0
  lastAck : Nat := 0
  since : Nat := 0
  deriving DecidableEq, Repr, Inhabited

/-- A frame sent and not yet acknowledged (R475). -/
structure Sent where
  type : Nat
  hdr : FrameHdr
  body : FrameBody
  at_ : Nat
  resends : Nat := 0
  /-- waits at the sender for credits (R481) -/
  waits : Bool := false
  /-- the partition it originates in, or none for ACK, NACK and PROBE -/
  part : Option PartNo := none
  deriving DecidableEq, Repr, Inhabited

/-- What this device keeps for one peer device (R475, R476, R492). -/
structure Peer where
  dev : Nat
  txSeq : Nat := 0
  rxSeq : Nat := 0
  epoch : Nat := 0
  unacked : List Sent := []
  /-- frames that arrived early, with their port (R475) -/
  early : List (Nat × Sent) := []
  rxEpoch : Nat := 0
  unreachable : Bool := false
  givenUp : List Nat := []
  probeAt : Nat := 0
  probeSent : Option Nat := none
  rtts : List Nat := []
  lastCmd : Option Nat := none
  deriving DecidableEq, Repr, Inhabited

/-- A mesh barrier at this device (R488). -/
structure Barrier where
  tag : Nat
  root : Bool
  participants : Nat
  arrived : List Nat := []
  since : Nat := 0
  cid : Nat := 0
  released : Bool := false
  deriving DecidableEq, Repr, Inhabited

/-- A chained reduction gathered at this device (R486): the running totals and the partials that arrived early. -/
structure ChainSt where
  tag : Nat
  next : Nat := 0
  links : Nat := 0
  totals : List Nat := []
  early : List (Nat × List Nat) := []
  deriving DecidableEq, Repr, Inhabited

structure MeshSt where
  deviceId : Nat := 0
  enable : Bool := false
  resendUs : Word32 := 0x64#32
  ttlDrops : Nat := 0
  ports : List Port := List.replicate 8 {}
  /-- shadow and active route entries, by destination (R498) -/
  shadowRoutes : List (Nat × Word32) := []
  routes : List (Nat × Word32) := []
  peers : List Peer := []
  refId : Nat := 0
  refHops : Nat := 0
  refLocked : Bool := false
  isRef : Bool := false
  parent : Nat := 0xF
  barriers : List Barrier := []
  chains : List ChainSt := []
  /-- frames of other devices that wait here for credits (R481) -/
  transit : List Sent := []
  /-- the next operation identifier; 0 names no command (R472) -/
  nextTag : Nat := 1
  deriving DecidableEq, Repr, Inhabited

/-! ### Power and self-test -/

structure Entry where
  cid : Nat
  target : Nat
  limitMs : Nat
  reentry : Nat
  startedAt : Nat
  previous : Nat
  /-- steps done: 0 waiting for commands, 1 clusters gated -/
  step : Nat := 0
  /-- a return to PS3 after a deferral, for which no command waits (R119) -/
  quiet : Bool := false
  deriving DecidableEq, Repr, Inhabited

structure PowerSt where
  ps : Nat := 1
  entry : Option Entry := none
  /-- the data path comes up from PS3: for a command, to a state (R120) -/
  wake : Option (Nat × Nat) := none
  awake : Bool := false
  reentryIdle : Nat := 10000
  idleSince : Nat := 0
  idleGateUs : Word32 := 100
  deriving DecidableEq, Repr, Inhabited

/-- A running self-test (R122 to R125, R571). -/
structure Test where
  cid : Nat
  fn : Fn
  extended : Bool
  clusters : BitVec 16
  ports : BitVec 8
  device : Bool
  startedAt : Nat
  paused : Bool := false
  idleSince : Nat := 0
  /-- when an I/O command was last seen admitted during its item 5 (R571) -/
  netSince : Option Nat := none
  /-- its mesh barrier was not released in time (R488) -/
  barrierFailed : Bool := false
  deriving DecidableEq, Repr, Inhabited

/-! ### The SLM slices (R419 to R424) -/

/-- The state of a cache line (R422): a line that is not listed is INVALID, and a VALID one held for a running command is STAGED. -/
inductive LineState where
  | filling
  | valid
  | poisoned
  deriving DecidableEq, Repr, Inhabited

/-- A line of a slice's cache (R420): its content is that of memory, which a write reaches through it (R421). -/
structure CacheLine where
  /-- HBM address ÷ 256 -/
  line : Nat
  state : LineState := .valid
  /-- the commands whose AMU operations it is held for (R345, R350) -/
  stagedFor : List Nat := []
  /-- POISONED: its 64 B bursts not rewritten since -/
  bad : List Nat := []
  /-- the quadrant its fill crossed between diagonal quadrants (R18) -/
  via : Option Nat := none
  deriving DecidableEq, Repr, Inhabited

/-- A BAR2 read that waits for a stopped stack (R446). -/
structure BarRead where
  fn : Fn
  part : PartNo
  off : Nat
  len : Nat
  deriving DecidableEq, Repr, Inhabited

structure SlmSt where
  /-- each slice's cached lines, the least recently used first (R423) -/
  slices : List (List CacheLine) := List.replicate 16 []
  /-- a read of the step in progress waits for a stopped stack: false between steps (the model's own) -/
  stalled : Bool := false
  waits : List BarRead := []
  deriving DecidableEq, Repr, Inhabited

/-! ### The state -/

structure State where
  time : TimeSt := {}
  pkg : PkgSt := {}
  fw : FwSt := {}
  sec : SecSt := {}
  ras : RasSt
  hif : HifSt := {}
  fns : List FnSt
  pairs : List Pair := []
  /-- round robin of R89: partition whose turn it is, pair within it, entries left in the turn -/
  rrPart : Nat := 0
  /-- per partition (16: the PF's admin pair), the key of the pair served last -/
  rrLast : List (Nat × Nat) := []
  turnLeft : Nat := 0
  cmds : List Cmd := []
  nextCid : Nat := 0
  /-- commands admitted so far (R246) -/
  nextAdmit : Nat := 0
  locks : List LockEntry := []
  parts : List PartSt := List.replicate 16 {}
  ctxs : List Ctx := []
  /-- incarnations of context slots that have been freed, by core × 128 + slot (R386) -/
  incarnations : List (Nat × BitVec 8) := []
  streams : List Stream := []
  ristretto : List Ristretto := []
  semaphores : List Semaphore := []
  /-- pages whose translation is cached: function, PASID and page (R49, R79, R381) -/
  atc : List (Fn × Option Nat × Nat) := []
  /-- the device-scope bits of the mode word (R32, R34) -/
  devMode : Word32 := 0
  hbm : HbmSt := {}
  slm : SlmSt := {}
  mesh : MeshSt := {}
  power : PowerSt := {}
  tests : List Test := []
  /-- what the device has sent, oldest first (the model's own) -/
  out : List Out := []
  /-- counter of fresh free values (the model's own) -/
  fresh : Nat := 0
  /-- commands waiting, oldest first (the model's own) -/
  pending : List Instr := []
  deriving DecidableEq, Repr, Inhabited

/-- The cores at shipment: local number 8 of each cluster is the spare (R20). -/
def resetCores : List Core :=
  (List.range 144).map fun n => { state := if n % 9 = 8 then .spare else .active }

/-- The functions at reset: the PF's event mask is 0x1FF (R61), a VF's 0x137 (R67). -/
def resetFns : List FnSt :=
  { evMask := 0x1FF#32 } :: List.replicate 16 {}

/-- The block right after reset, every register at the value of its table's Reset column. -/
def State.reset : State :=
  { ras := { cores := resetCores }
    fns := resetFns }

end Sys2Proof.Machine
end

