-- ==== Sys2Proof/Machine/Mem.lean ====
section
/-! DEFINITION. The operations over a byte space: what an unlisted byte reads as, reads, writes, initialisation, and the
canonical form (R58, R134, R425, R504). -/

namespace Sys2Proof.Machine

/-- What an unlisted byte of an initialised extent reads as (R134); none where the manual leaves it open. -/
def Fill.byte (f : Fill) (lo a : Nat) : Option Byte :=
  match f with
  | .zero => some 0
  | .idTable => if 8 ≤ (a - lo) % 16 ∧ (a - lo) % 16 < 12 then some 0xFF else some 0
  | .open => none
  | .proj seed dim => some (projByte seed dim (a - lo))

/-- What an unlisted byte reads as: by the newest extent that covers it; none for a byte never written (R504). -/
def Mem.default (m : Mem) (a : Nat) : Option Byte :=
  match m.extents.find? (fun e => decide (e.lo ≤ a ∧ a < e.hi)) with
  | some e => e.fill.byte e.lo a
  | none => none

/-- The byte at an address, or none where its value is open (R504). -/
def Mem.get (m : Mem) (a : Nat) : Option Byte :=
  match m.cells.lookup a with
  | some b => some b
  | none => m.default a

def eraseCell (a : Nat) (l : List Host.Cell) : List Host.Cell := l.filter fun c => c.1 != a

def insertCell (a : Nat) (b : Byte) : List Host.Cell → List Host.Cell
  | [] => [(a, b)]
  | c :: l => if a < c.1 then (a, b) :: c :: l else if a = c.1 then (a, b) :: l else c :: insertCell a b l

/-- One byte written: an entry equal to what the unlisted address reads as is not kept. -/
def Mem.put (m : Mem) (a : Nat) (b : Byte) : Mem :=
  if m.default a = some b then { m with cells := eraseCell a m.cells }
  else { m with cells := insertCell a b m.cells }

/-- Bytes written from an address upwards. -/
def Mem.write (m : Mem) (a : Nat) : Bytes → Mem
  | [] => m
  | b :: bs => Mem.write (m.put a b) (a + 1) bs

/-- A range initialised (R134, R403): every byte of it reads its fill until a later write. -/
def Mem.init (m : Mem) (lo hi : Nat) (f : Fill) : Mem :=
  { cells := m.cells.filter fun c => !(decide (lo ≤ c.1 ∧ c.1 < hi))
    extents := ⟨lo, hi, f⟩ :: m.extents }

/-- The canonical form: addresses strictly rising, and no entry equal to what its address reads unlisted. -/
abbrev Mem.wf (m : Mem) : Prop :=
  m.cells.Pairwise (fun c d => c.1 < d.1) ∧ ∀ c ∈ m.cells, m.default c.1 ≠ some c.2

/-! ### Partition memory and scratchpad space -/

/-- A byte of partition memory; a byte never written since the key was made reads a free value (R504). -/
def PartSt.byte (p : PartSt) (a : Nat) : Byte :=
  (p.mem.get a).getD (Config.freeByte (p.hbmKey.getD 0) a)

/-- Bytes of partition memory from an offset. -/
def PartSt.bytes (p : PartSt) (a n : Nat) : Bytes := (List.range n).map fun i => p.byte (a + i)

/-- A little-endian field of partition memory. -/
def PartSt.rd (p : PartSt) (a n : Nat) : Nat := le (p.bytes a n)

/-- Bytes written into partition memory. -/
def PartSt.wr (p : PartSt) (a : Nat) (bs : Bytes) : PartSt := { p with mem := p.mem.write a bs }

/-- A byte of scratchpad space: zeroed by PARTITION_CONFIGURE (R403); once a bypass has lost the contents (R425, R568), a byte not
written since reads a free value. -/
def PartSt.sByte (p : PartSt) (a : Nat) : Byte := (p.scratchMem.get a).getD (Config.freeByte 0 (2 ^ 64 + a))

def PartSt.sBytes (p : PartSt) (a n : Nat) : Bytes := (List.range n).map fun i => p.sByte (a + i)

def PartSt.sWr (p : PartSt) (a : Nat) (bs : Bytes) : PartSt := { p with scratchMem := p.scratchMem.write a bs }

/-- The size of partition memory: its 1 GiB granules (R58, R400). -/
def PartSt.memBytes (p : PartSt) : Nat := p.granules.length * 2 ^ 30

end Sys2Proof.Machine
end

