-- ==== Sys2Proof/Machine/Ops.lean ====
section
/-! DEFINITION. The named operations over the state that every family shares: lookups and updates of its parts, sending,
events and MSI-X (R65, R69), the error log (R558 to R562), the end of a command (R393, R399), memory with poison
(R424, R441, R448). -/

namespace Sys2Proof

/-- The index of a function in State.fns (R46). -/
def Fn.idx : Fn → Nat
  | .pf => 0
  | .vf p => p.val + 1

/-- The partition a VF serves (R5). -/
def Fn.part? : Fn → Option PartNo
  | .pf => none
  | .vf p => some p

end Sys2Proof

namespace Sys2Proof.Machine

/-- What a step of the block answers. -/
abbrev Res := Host.Outcome State Fault Refusal

/-- The state a row's answer leaves. -/
def after (s : State) : Res → State
  | .next t => t
  | _ => s

/-- Every partition number. -/
def allParts : List PartNo := (List.range 16).map fun i => Fin.ofNat 16 i

/-- Every function. -/
def allFns : List Fn := .pf :: allParts.map .vf

/-! ### Where things lie (R16, R18) -/

/-- The quadrant of a cluster and its slice, of a core, of an HBM stack, of a channel, of a Coastuo port (R16). -/
def quadOfCluster (n : Nat) : Nat := n / 4
def quadOfCore (n : Nat) : Nat := n / 36
def quadOfStack (n : Nat) : Nat := n / 2
def quadOfChannel (n : Nat) : Nat := n / 64
def quadOfPort (n : Nat) : Nat := n / 2

/-- The quadrant that traffic between two quadrants crosses (R17, R18): none where they are one or share an edge; for diagonal ones the
lower-numbered of the other two where bit 8 of the destination line's address is 0, the higher-numbered where it is 1. The line address is
HBM address ÷ 256 (R420), as the worked example of R432 takes it. -/
def crossing (a b line : Nat) : Option Nat :=
  if a + b != 3 then none
  else
    let lo := if a == 0 || a == 3 then 1 else 0
    some (if line.testBit 8 then 3 - lo else lo)

/-! ### Lookups and updates -/

def State.fnAt (s : State) (fn : Fn) : FnSt := s.fns.getD fn.idx {}

def State.modFn (s : State) (fn : Fn) (f : FnSt → FnSt) : State := { s with fns := s.fns.modify fn.idx f }

def State.part (s : State) (p : PartNo) : PartSt := s.parts.getD p.val {}

def State.modPart (s : State) (p : PartNo) (f : PartSt → PartSt) : State := { s with parts := s.parts.modify p.val f }

def State.cmd? (s : State) (cid : Nat) : Option Cmd := s.cmds.find? fun c => c.id == cid

def State.modCmd (s : State) (cid : Nat) (f : Cmd → Cmd) : State :=
  { s with cmds := s.cmds.map fun c => if c.id == cid then f c else c }

/-- A new command, under the next name. -/
def State.addCmd (s : State) (c : Cmd) : State := { s with nextCid := s.nextCid + 1, cmds := s.cmds ++ [{ c with id := s.nextCid }] }

def State.pair? (s : State) (fn : Fn) (qid : Nat) : Option Pair := s.pairs.find? fun q => q.fn == fn && q.qid == qid

def State.modPair (s : State) (fn : Fn) (qid : Nat) (f : Pair → Pair) : State :=
  { s with pairs := s.pairs.map fun q => if q.fn == fn && q.qid == qid then f q else q }

def PartSt.coll? (p : PartSt) (h : Nat) : Option Coll := p.colls.find? fun c => c.handle == h && !c.dropping

def PartSt.modColl (p : PartSt) (h : Nat) (f : Coll → Coll) : PartSt :=
  { p with colls := p.colls.map fun c => if c.handle == h && !c.dropping then f c else c }

def State.coll? (s : State) (p : PartNo) (h : Nat) : Option Coll := (s.part p).coll? h

def State.modColl (s : State) (p : PartNo) (h : Nat) (f : Coll → Coll) : State := s.modPart p fun x => x.modColl h f

/-- The collection of a unique name, dropped or not (R136). -/
def PartSt.collU? (p : PartSt) (uid : Nat) : Option Coll := p.colls.find? fun c => c.uid == uid

def PartSt.modCollU (p : PartSt) (uid : Nat) (f : Coll → Coll) : PartSt :=
  { p with colls := p.colls.map fun c => if c.uid == uid then f c else c }

def State.modCollU (s : State) (p : PartNo) (uid : Nat) (f : Coll → Coll) : State := s.modPart p fun x => x.modCollU uid f

def State.coreAt (s : State) (n : Nat) : Core := s.ras.cores.getD n {}

def State.modCore (s : State) (n : Nat) (f : Core → Core) : State := { s with ras := { s.ras with cores := s.ras.cores.modify n f } }

/-- The cores of gated clusters lose Carafe and what their engines hold (R553). -/
def State.coresLose (s : State) (f : Nat → Bool) : State :=
  let lose : Nat → Core → Core := fun n c => if f (n / 9) then { c with carafe := {}, eng := { losses := c.eng.losses + 1 } } else c
  { s with ras := { s.ras with cores := s.ras.cores.mapIdx lose } }

def State.clusterAt (s : State) (n : Nat) : Cluster := s.ras.clusters.getD n {}

def State.modCluster (s : State) (n : Nat) (f : Cluster → Cluster) : State :=
  { s with ras := { s.ras with clusters := s.ras.clusters.modify n f } }

def State.chan (s : State) (c : Nat) : Channel := s.hbm.channels.getD c {}

def State.modChan (s : State) (c : Nat) (f : Channel → Channel) : State :=
  { s with hbm := { s.hbm with channels := s.hbm.channels.modify c f } }

def State.portAt (s : State) (n : Nat) : Port := s.mesh.ports.getD n {}

def State.modPort (s : State) (n : Nat) (f : Port → Port) : State :=
  { s with mesh := { s.mesh with ports := s.mesh.ports.modify n f } }

/-- Thyme now (R10). -/
def State.now (s : State) : Nat := s.time.thyme

/-- The model's physical time in ns since VAON power-on: 40 ns a tick (R544). -/
def State.phys (s : State) : Nat := s.time.clk * 40

/-- The next fresh number of a free value is taken. -/
def State.bump (s : State) (n : Nat := 1) : State := { s with fresh := s.fresh + n }

/-- A feature of a partition: as set, or its reset value (R100). -/
def PartSt.feat (p : PartSt) (fid : Nat) : Nat := (getKey p.feats fid ((featReset fid).getD 0)).toNat

def PartSt.setFeat (p : PartSt) (fid : Nat) (v : Word32) : PartSt :=
  { p with feats := if featReset fid = some v then p.feats.filter (fun x => x.1 != fid) else setKey p.feats fid v }

/-- The mode word of a partition with the device-scope bits in force (R32, R33). -/
def State.modeOf (s : State) (p : PartNo) : Word32 := ((s.part p).modeWord &&& modePart) ||| (s.devMode &&& modeDevice)

/-- Whether a device-scope function is in host-assisted mode (R31). -/
def State.devHost (s : State) (bit : Nat) : Bool := s.devMode.getLsbD bit

/-! ### Sending, MSI-X and events -/

def State.emit (s : State) (o : Out) : State := { s with out := s.out ++ [o] }

def State.emits (s : State) (l : List Out) : State := { s with out := s.out ++ l }

/-- An MSI-X message, or its pending bit where the vector or the function is masked (R69). -/
def State.msix (s : State) (fn : Fn) (v : Nat) : State :=
  if (s.fnAt fn).msixFnMask || !(s.fnAt fn).msixOpen.contains v then
    s.modFn fn fun f => { f with msixPending := addOnce f.msixPending v }
  else s.emit (.msix fn v)

/-- An event bit of a function set: one message on vector 1 for each bit that rises unmasked (R65, R67). -/
def State.raise (s : State) (fn : Fn) (b : Nat) : State :=
  if (s.fnAt fn).evCause.getLsbD b then s
  else
    let t := s.modFn fn fun f => { f with evCause := f.evCause ||| BitVec.ofNat 32 (2 ^ b) }
    if (s.fnAt fn).evMask.getLsbD b then t else t.msix fn 1

/-- An event bit set in the PF's register and in the register of each listed partition. -/
def State.raiseAll (s : State) (b : Nat) (ps : List PartNo) : State :=
  ps.foldl (fun s p => s.raise (.vf p) b) (s.raise .pf b)

/-- The partitions that exist (R400). -/
def State.present (s : State) : List PartNo := allParts.filter fun p => (s.part p).present

/-- The partition that holds a cluster. -/
def State.owner (s : State) (cluster : Nat) : Option PartNo := s.present.find? fun p => (s.part p).clusters.getLsbD cluster

/-! ### The error log -/

/-- The sequence number after one: 0xFFFF_FFFF passes to 1 (R558). -/
def seqAfter (n : Nat) : Nat := if n ≥ 0xFFFFFFFF then 1 else n + 1

/-- Whether a partition's view holds an entry (R562). -/
def LogEntry.inView (e : LogEntry) (p : PartNo) : Bool := e.part == some p || e.scope == scDevice || e.scope == scSage

/-- A new entry: SEQ and STAMP taken now, the oldest of 257 overwritten, ERROR_LOGGED raised (R558, R559, R562). -/
def State.log (s : State) (e : LogEntry) : State :=
  let e := { e with seq := s.ras.nextSeq, stamp := s.now }
  let l := s.ras.log ++ [e]
  let gone := l.take (l.length - 256)
  let s1 := { s with ras := { s.ras with
    log := l.drop (l.length - 256)
    overwrittenOf := s.ras.overwrittenOf.zipIdx.map fun (x : Nat × Nat) =>
      satInc 0xFFFFFFFF x.1 (gone.filter fun (g : LogEntry) => g.inView (Fin.ofNat 16 x.2)).length
    nextSeq := seqAfter s.ras.nextSeq
    written := s.ras.written + 1 } }
  s1.raiseAll evErrorLogged (s.present.filter fun p => e.inView p)

/-- DETAIL of an entry, from byte 24, padded to 40 bytes (R559). -/
def detail (fields : List (Nat × Bytes)) : Bytes := fields.foldl (fun d f => overlay d (f.1 - 24) f.2) (zeros 40)

/-- A HOST entry (R560, kind 0x0B). -/
def State.logHost (s : State) (event : Nat) (fn : Fn) (unit : Nat) (scope : Nat) (status : Nat := 0)
    (rest : List (Nat × Bytes) := []) : State :=
  s.log { seq := 0, kind := kHost, scope := scope, fn := some fn, part := fn.part?, unit := unit, status := status,
          detail := detail ((24, toLe 1 event) :: rest) }

/-! ### Capacity (R2, R62, R65) -/

/-- Whether capacity is below the shipment configuration (R2): a core or cluster not as shipped, a channel mapped out, a port
degraded. -/
def State.below (s : State) : Bool :=
  s.ras.cores.any (fun c => c.state == .failed || c.state == .retired) || s.ras.clusters.any (fun c => c.state != .active) ||
  s.hbm.channels.any (fun c => c.state == .mappedOut) || s.mesh.ports.any (fun p => p.state == .degraded)

/-- REDUCED follows the capacity; a change of it sets CAPACITY (R62, R65). -/
def State.recap (s : State) : State :=
  if s.hif.reduced == s.below then s else ({ s with hif := { s.hif with reduced := s.below } }).raise .pf evCapacity

/-- A further resource is lost: CAPACITY is set for the device and the partitions concerned (R65). -/
def State.capacity (s : State) (ps : List PartNo) : State :=
  ({ s with hif := { s.hif with reduced := s.below } }).raiseAll evCapacity ps

/-! ### Address of a burst (R430, R431) -/

/-- The present channels in the order of R431. -/
def State.channelList (s : State) : List Nat :=
  ((List.range 256).map fun i => i % 8 * 32 + i / 8).filter fun c => (s.chan c).state != .mappedOut

/-- Usable HBM in GiB: 2 for each present channel (R61, R430). -/
def State.hbmGib (s : State) : Nat := 2 * s.channelList.length

/-- The granules a partition may hold (R157, R430). -/
def State.assignable (s : State) : Nat := s.hbmGib - 32

/-- The channel of an HBM address and the in-channel line (R431). -/
def channelOf (addr : Nat) (list : List Nat) : Nat × Nat :=
  let n := list.length
  let l := addr / 256
  let r := l / n
  let rot := ((r &&& 0xFF) ^^^ (r / 256 &&& 0xFF)) ^^^ (r / 65536 &&& 0x7F)
  (list.getD ((l % n + rot) % n) 0, r)

/-- The HBM address of a byte of partition memory (R430). -/
def PartSt.hbmAddr (p : PartSt) (w : Nat) : Nat := p.granules.getD (w / 2 ^ 30) 0 * 2 ^ 30 + w % 2 ^ 30

/-- The byte offset in partition memory of an HBM address, where the partition holds it (R562). -/
def PartSt.offsetOf (p : PartSt) (addr : Nat) : Option Nat :=
  (p.granules.findIdx? (· == addr / 2 ^ 30)).map fun i => i * 2 ^ 30 + addr % 2 ^ 30

def Channel.fenced (c : Channel) : Bool := c.state == .fenced || c.state == .mapoutPending

/-- A running traffic generator stops: how far it came and what it met are free, as the model sees no burst of it (R458). -/
def TrafficGen.halt (t : TrafficGen) (fresh : Nat) : TrafficGen :=
  let b := fit 26 (Config.freeBytes fresh 26)
  let errors := rd b 0 4
  if t.state != 1 then t
  else { t with
    state := 4
    passesDone := rd b 4 4 % t.passes.toNat % 65536
    errors := errors
    firstErr := if errors = 0 then none else some (rd b 8 4 % 2 ^ 23)
    lanes := if errors = 0 then [] else (List.range 74).filter fun l => (rd b 12 10).testBit l
    corrected := rd b 22 4 }

/-- Every traffic generator stops: a data-path restart, PERST# (R458). -/
def State.haltTgs (s : State) : State :=
  if s.hbm.channels.any fun c => c.tg.state == 1 then
    { s.bump s.hbm.channels.length with hbm := { s.hbm with channels := s.hbm.channels.mapIdx fun i c =>
        { c with tg := c.tg.halt (s.fresh + i) } } }
  else s

/-- Whether any channel is fenced: most states have none. -/
def State.anyFenced (s : State) : Bool := s.hbm.channels.any Channel.fenced

/-- Whether HBM itself returns poison for a burst: held poison (R441) or a fenced channel (R448). -/
def State.rawPoison (s : State) (addr : Nat) : Bool :=
  s.hbm.poison.contains (addr / 64) || (s.anyFenced && (s.chan (channelOf addr s.channelList).1).fenced)

/-- The starts of the bursts a range of bytes touches. -/
def burstsOf (off len : Nat) : List Nat :=
  if len = 0 then [] else (List.range ((off + len - 1) / 64 - off / 64 + 1)).map fun i => (off / 64 + i) * 64

/-! ### Writes to partition memory and scratchpad -/

/-- A COMMAND entry for a fault after the commit point (R557): no freeze; the completion's LOG_SEQ names the first. -/
def State.logLate (s : State) (cid : Nat) (status : Nat) (cause : Bytes) : State :=
  match s.cmd? cid with
  | none => s
  | some c =>
    let seq := s.ras.nextSeq
    let s := s.log { seq := 0, status := status, kind := kCommand, scope := scCommand, part := c.part, fn := some c.fn, unit := c.qid
                     detail := detail [(24, c.packet.drop 2 |>.take 2), (26, toLe 2 c.core), (28, c.packet.take 1), (32, cause.take 32)] }
    s.modCmd cid fun c => { c with logSeq := if c.logSeq = 0 then seq else c.logSeq }

/-- The entry for a partial write to a poisoned burst (R441, R560 HBM event 7), and for a command the COMMAND entry of
R557 as well. -/
def State.logDiscard (s : State) (p : PartNo) (addr : Nat) (cid : Option Nat) : State :=
  let s := s.log { seq := 0, kind := kHbm, scope := scPartition, part := some p, unit := (channelOf addr s.channelList).1,
                   detail := detail [(24, toLe 8 addr), (32, toLe 1 7), (33, [0xFF])] }
  match cid with
  | none => s
  | some c => s.logLate c stPoison (toLe 8 addr)

/-- The pieces of a byte string, cut where a unit of `u` bytes ends; the fuel is the length. -/
def piecesOf (u : Nat) : Nat → Nat → Bytes → List (Nat × Bytes)
  | 0, _, _ => []
  | f + 1, off, bs =>
    if bs.isEmpty then []
    else
      let n := u - off % u
      (off, bs.take n) :: piecesOf u f (off + n) (bs.drop n)

/-- The first poisoned 256 B line of scratchpad that a range touches (R424). -/
def PartSt.sPoison (p : PartSt) (off len : Nat) : Option Nat :=
  if len = 0 then none else p.scratchPoison.find? fun l => off / 256 ≤ l && l ≤ (off + len - 1) / 256

/-- A write into scratchpad: a whole line clears its poison; a partial write to a poisoned line is discarded and logged as
SLM event 3 (R424). -/
def State.wrScratch (s : State) (p : PartNo) (slice : Nat → Nat) (off : Nat) (bs : Bytes) : State :=
  (piecesOf 256 bs.length off bs).foldl (fun s w =>
    let l := w.1 / 256
    if (s.part p).scratchPoison.contains l then
      if w.2.length = 256 then
        s.modPart p fun x => { x.sWr w.1 w.2 with scratchPoison := x.scratchPoison.filter (· != l) }
      else s.log { seq := 0, kind := kSlm, scope := scPartition, part := some p, unit := slice l,
                   detail := detail [(24, toLe 8 l), (32, toLe 1 3)] }
    else s.modPart p fun x => x.sWr w.1 w.2) s

/-! ### Cores, clusters and slots -/

/-- The clusters of a partition that are active. -/
def State.clustersOf (s : State) (p : PartNo) : List Nat :=
  (List.range 16).filter fun n => (s.part p).clusters.getLsbD n && (s.clusterAt n).state == .active

/-- The cores in a cluster's active set (R6, R572). -/
def State.coresOf (s : State) (cluster : Nat) : List Nat :=
  ((List.range 9).map fun i => cluster * 9 + i).filter fun n =>
    (s.coreAt n).state == .active || (s.coreAt n).state == .standIn || (s.coreAt n).state == .underTest

/-- The cores of a partition that admit: in the active set and not stopped (R388, R566, R572). -/
def State.admitCores (s : State) (p : PartNo) : List Nat :=
  (s.clustersOf p).flatMap fun c =>
    (s.coresOf c).filter fun n => !(s.coreAt n).stopped

/-- The active set of a cluster: a stand-in is in it once it has joined, the core under test is not (R6, R572 step 2). -/
def State.activeSet (s : State) (cluster : Nat) : List Nat :=
  (s.coresOf cluster).filter fun n =>
    (s.coreAt n).state == .active || ((s.coreAt n).state == .standIn && 1 ≤ (s.clusterAt cluster).standInPhase)

/-- The active cores of a partition. -/
def State.partCores (s : State) (p : PartNo) : List Nat := (s.clustersOf p).flatMap s.activeSet

/-- The slice that holds a line of scratchpad space (R425). -/
def State.sliceOf (s : State) (p : PartNo) (line : Nat) : Nat :=
  let l := s.clustersOf p
  l.getD (line % l.length) 0

/-- The length of a partition's scratchpad space in bytes (R425). -/
def State.scratchBytes (s : State) (p : PartNo) : Nat := (s.clustersOf p).length * (s.part p).scratch * 2 ^ 25

/-- The in-flight limit of a partition (R88). -/
def State.inflightLimit (s : State) (p : PartNo) : Nat := 1024 * (s.clustersOf p).length

/-! ### Sensor events (R534) -/

/-- The highest threshold a reading has reached: 0 none, 1 warning, 2 critical. -/
def overLevel (warn crit v : Nat) : Nat := if crit ≤ v then 2 else if warn ≤ v then 1 else 0

/-- A PLDM event where a reading has crossed a threshold. -/
def State.sensorEvent (s : State) (sensor old new reading : Nat) : State :=
  if old = new then s
  else ({ s with fw := { s.fw with pldmEvents := s.fw.pldmEvents ++ [(sensor, reading)] } }).emit (.sensorEvent sensor reading (2 ≤ new))

/-! ### What decodes (R516, R537, R539) -/

/-- BAR0 blocks beyond HIF and SAGE decode only while Sage runs (R537, R539). -/
def State.barLive (s : State) : Bool := s.fw.stage == .running

/-- Whether a register write of a function reaches a block beyond HIF and SAGE: those to a VF whose TDI is in ERROR are dropped
(R516). -/
def State.barOpen (s : State) (fn : Fn) : Bool := s.barLive && (s.fnAt fn).tdi != .error

/-! ### The commit phase -/

/-- A command enters its commit phase: its contexts are COMMITTING (R384). -/
def State.beginCommit (s : State) (cid : Nat) : State :=
  { (s.modCmd cid fun c => { c with phase := .committing }) with
    ctxs := s.ctxs.map fun x => if x.cid == cid && x.state != .leaving then { x with state := .committing } else x }

/-- A commit step ends and leaves others to come: the command runs on (R347). -/
def State.endCommit (s : State) (cid : Nat) : State :=
  { (s.modCmd cid fun c => { c with phase := .running }) with
    ctxs := s.ctxs.map fun x => if x.cid == cid && x.state == .committing then { x with state := .ready } else x }

/-! ### The end of a command -/

/-- The contexts of a command become LEAVING, its streams and Ristretto entries are cancelled, its semaphores released
(R393): the slots are free at the next scheduling step. An ARMED persistent stream stays (R379), and one that waits for a page
response stays until the response comes (R382). -/
def State.leave (s : State) (cid : Nat) : State :=
  { s with
    ctxs := s.ctxs.map fun c => if c.cid == cid then { c with state := .leaving } else c
    streams := s.streams.filterMap fun x =>
      if x.cid != cid || x.armedSince.isSome then some x
      else if x.halted && x.asked then some { x with dead := true } else none
    ristretto := s.ristretto.filter fun x => x.cid != cid
    semaphores := s.semaphores.filter fun x => x.cid != cid }

/-- A command's range-lock entry is released (R107). -/
def State.unlock (s : State) (cid : Nat) : State := { s with locks := s.locks.filter fun l => l.cid != cid }

/-- Whether two range-lock entries overlap (R105). -/
def LockEntry.overlaps (a b : LockEntry) : Bool := a.part == b.part && a.handle == b.handle && a.lo ≤ b.hi && b.lo ≤ a.hi

/-- Whether a command's range lock is granted: its entry is among the 4,096 and no earlier entry overlaps it (R105, R106). -/
def State.lockGranted (s : State) (cid : Nat) : Bool :=
  match s.locks.findIdx? fun l => l.cid == cid with
  | none => true
  | some i => i < 4096 && match s.locks[i]? with
    | some e => !(s.locks.take i).any e.overlaps
    | none => true

/-- What a completion carries (R94). -/
structure Compl where
  status : Nat := 0
  count : Nat := 0
  stamp : Nat := 0
  work : Nat := 0
  cause : Bytes := []
  deriving DecidableEq, Repr, Inhabited

/-- A command ends with a completion that COMPLETION_POSTED will write: it leaves its contexts and its range lock. -/
def State.finish (s : State) (cid : Nat) (r : Compl) : State :=
  ((s.leave cid).unlock cid).modCmd cid fun c =>
    { c with phase := .done, status := r.status, count := r.count, stamp := if 2 ≤ statusClass r.status then 0 else r.stamp,
             work := min r.work 0xFFFF, cause := r.cause, run := .idle, spill := 0 }

/-- A command ends with a status and nothing else. -/
def State.fail (s : State) (cid : Nat) (status : Nat) (cause : Bytes := []) : State :=
  s.finish cid { status := status, cause := cause }

/-- The posting-list members that stay: those not removed, and those a running command or a queued shadow scan may still read (R191,
R203). -/
def Coll.delist (k : Coll) (cmds : List Cmd) (shadows : List Shadow) : Coll :=
  { k with postings := k.postings.filter fun e =>
      match e.removedAt with
      | some d => (cmds.any fun c => c.coll == some k.uid && c.readStamp != 0 && decide (c.readStamp < d)) ||
          shadows.any fun q => q.handle == k.handle && !k.dropping && decide (q.stamp < d)
      | none => true }

/-- The storage of dropped collections is freed once no command uses them (R136). -/
def State.reap (s : State) : State :=
  { s with parts := s.parts.map fun x =>
      { x with colls := (x.colls.filter fun k => !k.dropping || s.cmds.any fun c => c.coll == some k.uid).map fun k =>
        k.delist s.cmds x.shadows } }

/-- A command ends without a completion (R116): it is gone. -/
def State.drop (s : State) (cid : Nat) : State :=
  let t := (s.leave cid).unlock cid
  { t with cmds := t.cmds.filter fun c => c.id != cid }.reap

/-- An effect on a command that is ready for it; where the state has no such command, nothing happens. -/
def State.onCmd (s : State) (cid : Nat) (ok : Cmd → Bool) (f : Cmd → State) : State :=
  match s.cmd? cid with
  | some c => if ok c then f c else s
  | none => s

/-- The output scatter list of a command as (address, length). -/
def scatter (list : Bytes) : List (Nat × Nat) :=
  (chunks 16 list.length list).map fun e => (rd e 0 8, rd e 8 4)

/-- The host writes that lay bytes over a scatter list from a logical offset (R93). -/
def scatterOut (fn : Fn) : List (Nat × Nat) → Nat → Bytes → List Out
  | [], _, _ => []
  | (a, n) :: l, off, bs =>
    if bs.isEmpty then []
    else if n ≤ off then scatterOut fn l (off - n) bs
    else .hostWrite fn (a + off) (bs.take (n - off)) :: scatterOut fn l 0 (bs.drop (n - off))

/-- Where the last of some host writes goes. -/
def lastWrite (l : List Out) : Option Nat := l.foldl (fun a o => match o with | .hostWrite _ x _ => some x | _ => a) none

/-- Writes of a command's output, and where the last of them goes (R95). -/
def State.writeOut (s : State) (c : Cmd) (l : List Out) : State :=
  (s.emits l).modCmd c.id fun c => { c with outAt := match lastWrite l with | some a => some a | none => c.outAt }

/-- Bytes of a command's output buffer are written (R93, R95). -/
def State.output (s : State) (c : Cmd) (off : Nat) (bs : Bytes) : State :=
  let t := s.writeOut c (scatterOut c.fn (scatter c.data.outList) off bs)
  match c.part with
  | some p => t.modPart p fun x => { x with acct := { x.acct with hostBytes := (x.acct.hostBytes + bs.length) % 2 ^ 64 } }
  | none => t

end Sys2Proof.Machine
end

