-- ==== Sys2Proof/Machine/CfgSpace.lean ====
section
/-! DEFINITION. Configuration space (R44, R46 to R52): identity (R47, R593), the capability lists (R48), the bits software may write,
and what a dword reads. What R48 does not lay out inside a structure follows PCI Express (PRESUMED, log 23). -/

namespace Sys2Proof.Machine

/-! ### The board configuration block (R593) -/

/-- Subsystem vendor and subsystem ID of a board configuration block; none for one whose magic or check fails. -/
def boardIdsOf (b : Bytes) : Option (Nat × Nat) :=
  if b.length = 4096 ∧ slice b 0 4 = [0x53, 0x50, 0x5A, 0x44] ∧ slice b 4064 32 = (Config.sha512 (b.take 4064)).take 32 then
    some (rd b 4 2, rd b 6 2)
  else none

/-- The subsystem identity: 0x1F5A and 0x0000 where the block is absent (R47). -/
def State.subsystem (s : State) : Nat × Nat := (boardIdsOf s.fw.boardBlock).getD (0x1F5A, 0)

/-! ### The capability lists (R48) -/

/-- The structures of a function's standard list: offset and ID, in order. -/
def stdCaps : Fn → List (Nat × Nat)
  | .pf => [(0x40, 0x01), (0x50, 0x10), (0xB0, 0x11)]
  | .vf _ => [(0x40, 0x10), (0x80, 0x11)]

/-- The structures of a function's extended list: offset and ID, in order. -/
def extCaps : Fn → List (Nat × Nat)
  | .pf => [(0x100, 0x0001), (0x148, 0x0003), (0x158, 0x000E), (0x160, 0x0019), (0x190, 0x0025), (0x1A0, 0x0026), (0x1D0, 0x0027),
      (0x220, 0x002A), (0x270, 0x0031), (0x2A0, 0x002F), (0x2B0, 0x0032), (0x2D0, 0x0018), (0x2E0, 0x000F), (0x2F0, 0x0013),
      (0x300, 0x001B), (0x310, 0x0010), (0x350, 0x002E), (0x370, 0x0030), (0x700, 0x0023)]
  | .vf _ => [(0x100, 0x0001), (0x148, 0x000E), (0x150, 0x000F), (0x160, 0x0013)]

/-- The offset of the structure after one in a list; 0 after the last. -/
def nextCap : List (Nat × Nat) → Nat → Nat
  | a :: b :: l, off => if a.1 = off then b.1 else nextCap (b :: l) off
  | _, _ => 0

/-- The header dword of a structure, where one starts at an offset: ID and next pointer, and in the extended list version 1. -/
def capHeader (fn : Fn) (off : Nat) : Option Nat :=
  match (stdCaps fn).lookup off with
  | some id => some (id + nextCap (stdCaps fn) off * 2 ^ 8)
  | none =>
    match (extCaps fn).lookup off with
    | some id => some (id + 2 ^ 16 + nextCap (extCaps fn) off * 2 ^ 20)
    | none => none

/-- The place of a selective stream's register block in the PF's IDE capability: after the header, the capability, the control and
the link stream's two registers, 44 B a stream. -/
def ideBlock (stream : Nat) : Nat := 0x370 + 0x14 + 0x2C * stream

/-- The selective stream block, and the dword in it, at an offset. -/
def ideAt (off : Nat) : Option (Nat × Nat) :=
  if ideBlock 0 ≤ off ∧ off < ideBlock 20 then some ((off - ideBlock 0) / 0x2C, (off - ideBlock 0) % 0x2C) else none

/-! ### What is fixed or live -/

/-- The read-only content of a dword of the PF: hardwired fields and live status. Message control and other high halves are added to the
header's dword. An ATS queue depth field of 0 means 32 (R49). -/
def State.cfgFixedPf (s : State) (off : Nat) : Nat :=
  let f := s.fnAt .pf
  match off with
  | 0x00 => 0x48161F5A
  | 0x04 => 0x00100000
  | 0x08 => 0x120000A1
  | 0x10 => 0x4
  | 0x18 => 0xC
  | 0x2C => s.subsystem.1 + s.subsystem.2 * 2 ^ 16
  | 0x34 => 0x40
  | 0x40 => 0x00030000
  | 0x44 => if f.d3hot then 3 else 0
  | 0x50 => 0x00020000
  | 0x54 => 0x10008022
  | 0x5C => 0x00420906
  | 0x60 => if s.hif.linkUp then (s.hif.linkSpeed + 2 ^ s.hif.linkWidth * 16) * 2 ^ 16 else 0
  | 0x74 => 0x00030800
  | 0x7C => 0x7E
  | 0xB0 => 0x07FF0000
  | 0xB4 => 0x4
  | 0xB8 => 0x8004
  | 0x104 => f.aer.toNat
  | 0x14C => Config.serial.toNat % 2 ^ 32
  | 0x150 => Config.serial.toNat / 2 ^ 32
  | 0x2E4 => 0x20
  | 0x2F8 => 512
  | 0x304 => 20 * 2 ^ 8
  | 0x318 => f.vfEnable.toNat
  | 0x31C => 16 + 16 * 2 ^ 16
  | 0x320 => f.numVfs
  | 0x324 => 1 + 2 ^ 16
  | 0x328 => 0x48170000
  | 0x32C => 0x11
  | 0x334 => 0x4
  | 0x33C => 0xC
  | 0x374 => 0x00130063
  | 0x704 => 0x01410000 + 0x1F5A
  | 0x708 => 0x0001
  | 0x70C => s.fw.active.version.toNat
  | 0x710 => 0
  | _ => match ideAt off with
    | some (_, 0) => 2
    | some (i, 8) => if s.sec.ideSecure.contains i then 2 else 0
    | _ => 0

/-- The same for a VF. -/
def State.cfgFixedVf (s : State) (p : PartNo) (off : Nat) : Nat :=
  let f := s.fnAt (.vf p)
  match off with
  | 0x00 => 0x48171F5A
  | 0x04 => 0x00100000
  | 0x08 => 0x120000A1
  | 0x2C => s.subsystem.1 + s.subsystem.2 * 2 ^ 16
  | 0x34 => 0x40
  | 0x40 => 0x00020000
  | 0x44 => 0x10008022
  | 0x4C => 0x00420906
  | 0x6C => 0x7E
  | 0x80 => 0x003F0000
  | 0x84 => 0x4
  | 0x88 => 0x804
  | 0x104 => f.aer.toNat
  | 0x154 => 0x20
  | 0x168 => 512
  | _ => 0

/-! ### What software may write -/

/-- The writable bits of a dword of the PF. What R44 calls absent stays 0: L0s, AtomicOps, PASID execute and privileged, IDE aggregation,
phantom functions. The bits that a row of its own writes (power state, FLR, VF Enable, NumVFs) are not among them. -/
def cfgMaskPf (off : Nat) : Nat :=
  match off with
  | 0x04 => 0x0546
  | 0x0C => 0xFF
  | 0x10 => 0xFC000000
  | 0x14 => 0xFFFFFFFF
  | 0x1C => 0xFFFFFFF0
  | 0x20 => 0xFFFF0000
  | 0x3C => 0xFF
  | 0x58 => 0x79FF
  | 0x60 => 0x01CA
  | 0x78 => 0x171F
  | 0x80 => 0x0FFF
  | 0xB0 => 0xC0000000
  | 0x108 | 0x10C | 0x114 => 0xFFFFFFFF
  | 0x118 => 0x140
  | 0x2D4 => 0x1FFF1FFF
  | 0x2E4 => 0x801F0000
  | 0x2F4 => 0x3
  | 0x2FC => 0xFFFFFFFF
  | 0x304 => 0x00010000
  | 0x318 => 0x18
  | 0x330 => 0x11
  | 0x334 => 0xFFF00000
  | 0x338 | 0x340 => 0xFFFFFFFF
  | 0x344 => 0xFFFFF000
  | 0x37C => 0xFF380101
  | _ => match ideAt off with
    | some (_, 0) | some (_, 8) => 0
    | some (_, 4) => 0xFF780301
    | some _ => 0xFFFFFFFF
    | none => 0

def cfgMaskVf (off : Nat) : Nat :=
  match off with
  | 0x04 => 0x4
  | 0x80 => 0xC0000000
  | 0x154 => 0x80000000
  | 0x164 => 0x3
  | 0x16C => 0xFFFFFFFF
  | _ => 0

def cfgMask (fn : Fn) (off : Nat) : Word32 := BitVec.ofNat 32 (match fn with | .pf => cfgMaskPf off | .vf _ => cfgMaskVf off)

/-- What the writable bits hold at reset, where not 0: in the PF's Device Control relaxed ordering, no snoop and reads of 512 B; every
error severity of AER as PCI Express has it; a System Page Size of 4 KiB (PRESUMED, log 23). -/
def cfgInit (fn : Fn) (off : Nat) : Word32 :=
  match fn, off with
  | .pf, 0x58 => 0x2810#32
  | .pf, 0x80 => 0x6#32
  | .pf, 0x10C => 0x00462030#32
  | .pf, 0x114 => 0x6000#32
  | .pf, 0x330 => 0x1#32
  | _, _ => 0

/-- The writable bits of a dword as they stand. -/
def State.cfgBits (s : State) (fn : Fn) (off : Nat) : Word32 := getKey (s.fnAt fn).cfg off (cfgInit fn off)

/-- The writable bits of a dword after a write. -/
def FnSt.setCfg (f : FnSt) (fn : Fn) (off : Nat) (v : Word32) : FnSt :=
  let b := v &&& cfgMask fn off
  { f with cfg := if b = cfgInit fn off then f.cfg.filter (fun x => x.1 != off) else setKey f.cfg off b }

/-- What a configuration read returns: a header, what is fixed or live, and the writable bits. -/
def State.readCfg (s : State) (fn : Fn) (off : Nat) : Word32 :=
  BitVec.ofNat 32 ((capHeader fn off).getD 0 + match fn with | .pf => s.cfgFixedPf off | .vf p => s.cfgFixedVf p off) ||| s.cfgBits fn off

/-- Whether the configuration space of a function is ready; until then a request gets Request Retry Status (R73, R538). A VF has none
while VF Enable is 0 (R46). -/
def State.cfgReady (s : State) : Bool := !s.pkg.perst && s.fw.stage != .bootRom

/-! ### Address translation (R49 to R51, R79) -/

/-- A translation is cached under a PASID: a page not cached is asked for first; of 8,192 entries the oldest leaves (R49). -/
def State.translate (s : State) (fn : Fn) (pasid : Option Nat) (page : Nat) : State :=
  if s.atc.contains (fn, pasid, page) then s
  else { s with atc := (s.atc ++ [(fn, pasid, page)]).drop (s.atc.length + 1 - 8192) }.emit (.translation fn pasid page)

/-- The function's Outstanding Page Request Allocation: at most 512 (R51). -/
def State.pageAllocation (s : State) (fn : Fn) : Nat :=
  min 512 (s.cfgBits fn (match fn with | .pf => 0x2FC | .vf _ => 0x16C)).toNat

/-- Whether a function may send one more page request (R381). -/
def State.mayAsk (s : State) (fn : Fn) : Bool := (s.fnAt fn).pageReqs < s.pageAllocation fn

/-- A page request group under a PASID, counted against the allocation (R381). -/
def State.sendPageRequest (s : State) (fn : Fn) (pasid : Option Nat) (page : Nat) : State :=
  (s.modFn fn fun f => { f with pageReqs := f.pageReqs + 1 }).emit (.pageRequest fn (pasid.getD 0) page)

/-- A page request has been answered. -/
def State.pageAnswered (s : State) (fn : Fn) : State := s.modFn fn fun f => { f with pageReqs := f.pageReqs - 1 }

/-- The memory of a pair bound to a PASID is reached through a translation under it (R79). -/
def State.queueAccess (s : State) (q : Pair) (addr : Nat) : State :=
  if q.pasid.isSome then s.translate q.fn q.pasid (addr / 4096) else s

/-- AER records an error on a function: its sticky status bit and the report (R70, R76). -/
def State.aerError (s : State) (fn : Fn) (internal : Bool) : State :=
  (s.modFn fn fun f => { f with aer := f.aer ||| (if internal then 0x00400000#32 else 0x00004000#32) }).emit (.aer fn internal)

end Sys2Proof.Machine
end

