-- ==== Sys2Proof/Machine/Operands.lean ====
section
/-! DEFINITION. The operand forms: fields of the command packet (R90, R92, R98), of parameter blocks and scatter lists
(R93, R601), and the checks shared by many commands (R9, R92, R97). -/

namespace Sys2Proof.Machine

/-- Why a command completes with an error: its status and the cause data of its log entry (R560). -/
structure Err where
  st : Nat
  cause : Bytes := []
  deriving DecidableEq, Repr, Inhabited

/-- An error with the byte offset of the offending field: in the packet, or 64 plus its offset in the block (R560). -/
def errAt (st off : Nat) : Err := { st := st, cause := toLe 4 off }

/-- A check: an error where its condition holds. -/
def failIf (b : Bool) (e : Err) : Option Err := if b then some e else none

/-- The first of a list of checks that fails. -/
def firstErr (l : List (Option Err)) : Option Err := l.findSome? id

/-- 0x2003 at the first non-zero byte of the listed ranges (R9); `base` is 0 for the packet and 64 for a block. -/
def reservedErr (bs : Bytes) (base : Nat) (ranges : List (Nat × Nat)) : Option Err :=
  (ranges.find? fun r => !isZero bs r.1 r.2).map fun r =>
    errAt stReserved (base + r.1 + ((slice bs r.1 r.2).findIdx? (· != 0)).getD 0)

/-- 0x2003 where bits of a byte selected by a mask are not 0 (R9). -/
def reservedBits (bs : Bytes) (base off mask : Nat) : Option Err :=
  failIf (rd bs off 1 &&& mask != 0) (errAt stReserved (base + off))

/-- 0x2003 at the first byte of a 4-byte field that holds bits which must be 0 (R9). -/
def reservedWord (bs : Bytes) (base off mask : Nat) : Option Err :=
  ([0, 1, 2, 3].find? fun i => rd bs (off + i) 1 &&& bits mask (8 * i) 8 != 0).map fun i => errAt stReserved (base + off + i)

/-! ### The packet (R90, R92) -/

def Cmd.op (c : Cmd) : Nat := rd c.packet 0 1
/-- Opcodes whose commit point is the writing of the completion (R397); FENCE has none. -/
def lateCommitOps : List Nat := [0x30, 0x31, 0x32, 0x33, 0x50, 0x71, 0x23, 0x7F]

def Cmd.irqSuppress (c : Cmd) : Bool := (rd c.packet 1 1).testBit 3
def Cmd.dep (c : Cmd) : Bool := (rd c.packet 1 1).testBit 2
def Cmd.ctag (c : Cmd) : Nat := rd c.packet 2 2
def Cmd.handle (c : Cmd) : Nat := rd c.packet 4 2
def Cmd.cls (c : Cmd) : Nat := rd c.packet 6 1 % 4
def Cmd.prio (c : Cmd) : Nat := rd c.packet 7 1
/-- The class of a command's contexts: a consolidation pass runs in class 0 contexts whatever its command's CLASS (R298). -/
def Cmd.ctxCls (c : Cmd) : Nat := if c.op = 0x24 then 0 else c.cls
def Cmd.deadlineUs (c : Cmd) : Nat := rd c.packet 8 4
def Cmd.paramAddr (c : Cmd) : Nat := rd c.packet 16 8
def Cmd.inListAddr (c : Cmd) : Nat := rd c.packet 24 8
def Cmd.outListAddr (c : Cmd) : Nat := rd c.packet 32 8
def Cmd.paramLen (c : Cmd) : Nat := rd c.packet 40 4
def Cmd.inEntries (c : Cmd) : Nat := rd c.packet 44 2
def Cmd.outEntries (c : Cmd) : Nat := rd c.packet 46 2

/-- A field of the packet. -/
def Cmd.f (c : Cmd) (off len : Nat) : Nat := rd c.packet off len

/-- A field of the parameter block. -/
def Cmd.p (c : Cmd) (off len : Nat) : Nat := rd c.data.param off len

/-- The admin pair's commands carry qid 0 (R77). -/
def Cmd.isAdmin (c : Cmd) : Bool := c.qid == 0

/-! ### Opcodes (R96) -/

def adminOps : List Nat := [0x01, 0x02, 0x03, 0x04, 0x05, 0x06, 0x07, 0x08, 0x09, 0x0A, 0x0B, 0x0C, 0x0D, 0x0E, 0x0F]

def ioOps : List Nat :=
  [0x20, 0x21, 0x22, 0x23, 0x24, 0x30, 0x31, 0x32, 0x33, 0x40, 0x41, 0x42, 0x43, 0x50, 0x51, 0x53, 0x54, 0x60, 0x70, 0x71, 0x7F]

/-- Admin opcodes marked PF only (R96). -/
def pfOnlyOps : List Nat := [0x08, 0x0A, 0x0B, 0x0C, 0x0F]

/-- Opcodes whose range lock names records, and those that lock the whole collection (R96). -/
def recordLockOps : List Nat := [0x40, 0x41, 0x42, 0x43]
def wholeLockOps : List Nat := [0x21, 0x22]

/-- Commands that receive a read stamp at admission (R162); COLLECTION_EXPORT takes its snapshot stamp so as well (R321). -/
def readOps : List Nat := [0x30, 0x31, 0x32, 0x33, 0x50, 0x23]

/-- Queries, whose DEADLINE bounds their run (R91). -/
def queryOps : List Nat := [0x30, 0x31, 0x32, 0x33]

/-- Spread commands (R388); a SEARCH or SEARCH_COMPOUND spreads when it runs as a filtered flat scan. -/
def spreadOps : List Nat := [0x32, 0x50, 0x51, 0x23, 0x22]

/-- Admin commands that run at once before DP_READY and during a reconfiguration (R75, R403). -/
def earlyOps : List Nat := [0x01, 0x04, 0x06]

/-! ### Scatter lists (R93) -/

/-- The length of the buffer a list describes. -/
def scatterLen (list : Bytes) : Nat := ((scatter list).map (·.2)).foldl (· + ·) 0

/-- The checks of a scatter list at an address, against the bytes its opcode needs (R93, R601). -/
def scatterErr (addr entries : Nat) (list : Bytes) (need : Nat) : Option Err :=
  let l := list.take (16 * entries)
  firstErr
    [ failIf (addr % 16 != 0) { st := stScatter },
      (chunks 16 l.length l).findSome? fun e =>
        firstErr [ failIf (!isZero e 12 4) { st := stReserved },
                   failIf (rd e 0 8 % 4 != 0 || rd e 8 4 % 4 != 0 || rd e 8 4 == 0) { st := stScatter } ],
      failIf (scatterLen l < need) { st := stScatter } ]

def Cmd.inErr (c : Cmd) (need : Nat) : Option Err := scatterErr c.inListAddr c.inEntries c.data.inList need

def Cmd.outErr (c : Cmd) (need : Nat) : Option Err := scatterErr c.outListAddr c.outEntries c.data.outList need

/-- The bytes of the input buffer. -/
def Cmd.input (c : Cmd) : Bytes := c.data.input

/-! ### Header and body checks -/

/-- The header checks of any command (R9, R90): reserved FLAGS bits, and for an I/O command CLASS bits and bytes 12 to 15. -/
def headerErr (c : Cmd) : Option Err :=
  if c.isAdmin then
    firstErr [ reservedBits c.packet 0 1 0xF3, reservedErr c.packet 0 [(4, 12)] ]
  else
    firstErr [ reservedBits c.packet 0 1 0xF3, reservedBits c.packet 0 6 0xFC, reservedErr c.packet 0 [(12, 4)] ]

/-- The opcode checks: unknown or of the other kind of queue, and PF only (R97). -/
def opcodeErr (c : Cmd) : Option Err :=
  let known := if c.isAdmin then adminOps.contains c.op else ioOps.contains c.op
  firstErr [ failIf (!known) { st := stInvalidOpcode },
             failIf (c.isAdmin && c.fn != .pf && pfOnlyOps.contains c.op) { st := stNotPermitted } ]

/-- The common body of an I/O command (R92): whether the opcode has a parameter block, of which lengths, an input buffer,
an output buffer, and inline bytes. A field an absent part needs 0 gives 0x2002, a reserved inline byte 0x2003, a bad address
0x2002 (R601); a list's own address gives 0x2005 with its other checks. -/
def bodyErr (c : Cmd) (lens : List Nat) (hasIn hasOut inlineUsed : Bool) : Option Err :=
  firstErr
    [ if inlineUsed then none else reservedErr c.packet 0 [(48, 16)],
      if lens.isEmpty then
        firstErr [ failIf (c.paramAddr != 0) (errAt stInvalidField 16), failIf (c.paramLen != 0) (errAt stInvalidField 40) ]
      else
        firstErr [ failIf (c.paramAddr % 16 != 0) (errAt stInvalidField 16),
                   failIf (!lens.contains c.paramLen) (errAt stInvalidField 40) ],
      if hasIn then none
      else firstErr [ failIf (c.inListAddr != 0) (errAt stInvalidField 24), failIf (c.inEntries != 0) (errAt stInvalidField 44) ],
      if hasOut then none
      else firstErr [ failIf (c.outListAddr != 0) (errAt stInvalidField 32), failIf (c.outEntries != 0) (errAt stInvalidField 46) ] ]

/-- The lengths a parameter block of 64 B with a filter block of 0 to 15 terms may have (R154, R172). -/
def filterLens : List Nat := (List.range 16).map fun t => 80 + 16 * t

/-- The deadline in force in µs: DEADLINE, or the partition's default for the class; none without limit (R90, R100). -/
def State.deadlineOf (s : State) (c : Cmd) : Option Nat :=
  let d := if c.deadlineUs = 0 then
      match c.part with
      | some p => (s.part p).feat (0x12 + c.cls)
      | none => 0xFFFFFFFF
    else c.deadlineUs
  if d = 0xFFFFFFFF then none else some d

/-! ### Dependence (R102) -/

/-- Whether a command has committed: past the commit point of its opcode (R102, R397). -/
def Cmd.committed (c : Cmd) : Bool :=
  !lateCommitOps.contains c.op && (c.phase == .flushing || (c.phase == .done && statusClass c.status ≤ 1))

/-- DEP: every earlier command of the SQ has committed or is gone (R102); an admin command commits with its completion (R397). -/
def State.depMet (s : State) (c : Cmd) : Bool :=
  !c.dep || s.cmds.all fun d => !(d.fn == c.fn && d.qid == c.qid && d.origin.isNone && d.id < c.id) || (!d.isAdmin && d.committed)

/-! ### Admin commands -/

/-- An admin command that its executor may run now: fetched, not held, with the opcode of the row. -/
def Cmd.adminReady (c : Cmd) (op : Nat) : Bool := c.isAdmin && c.op == op && c.phase == .ready

/-- An I/O command that holds contexts and has the opcode of the row. -/
def Cmd.ioRunning (c : Cmd) (op : Nat) : Bool := !c.isAdmin && c.op == op && c.phase == .running

/-- Whether a stream of a command is halted by a page fault (R381). -/
def State.haltedOn (s : State) (cid : Nat) : Bool := s.streams.any fun x => x.cid == cid && x.halted && !x.dead

/-- An admin row: the command, ready, with this opcode and its dependence met, is run; its checks first. -/
def State.admin (s : State) (cid op : Nat) (pick : Cmd → Bool) (chk : Cmd → Option Err) (f : Cmd → State) : State :=
  s.onCmd cid (fun c => c.adminReady op && pick c && s.depMet c) fun c =>
    match chk c with
    | some e => s.fail cid e.st e.cause
    | none => f c

/-- The partition a TARGET selects: a VF's 0 is its own, the PF names 0 to 15, 0xFF the device (R98, R561).
The outer none: no such target. -/
def targetOf (fn : Fn) (t : Nat) : Option (Option PartNo) :=
  match fn with
  | .vf p => if t = 0 then some (some p) else none
  | .pf => if t < 16 then some (some (Fin.ofNat 16 t)) else if t = 0xFF then some none else none

end Sys2Proof.Machine
end

