-- ==== Sys2Proof/Machine/MeshOps.lean ====
section
/-! DEFINITION. Routing, credits and sending on the Coastuo mesh (R472, R473, R475, R476, R478, R479, R481, R482). -/

namespace Sys2Proof.Machine

/-! ### Frame types (R473) -/

abbrev tData := 0x01
abbrev tReadReq := 0x02
abbrev tCmd := 0x03
abbrev tResult := 0x04
abbrev tChain := 0x05
abbrev tBarrier := 0x06
abbrev tLoad := 0x07
abbrev tProbe := 0x08
abbrev tAck := 0x10
abbrev tNack := 0x11
abbrev tTime := 0x20
abbrev tKey := 0x21
abbrev tPort := 0x22

/-- Types that use the LINK credits (R473, R481). -/
def linkCredit (t : Nat) : Bool := t == tProbe || t == tAck || t == tNack || t == tTime || t == tKey || t == tPort

def State.peer (s : State) (d : Nat) : Peer := (s.mesh.peers.find? fun p => p.dev == d).getD { dev := d }

def State.modPeer (s : State) (d : Nat) (f : Peer → Peer) : State :=
  let ps := if s.mesh.peers.any (fun p => p.dev == d) then s.mesh.peers else s.mesh.peers ++ [{ dev := d }]
  { s with mesh := { s.mesh with peers := ps.map fun p => if p.dev == d then f p else p } }

def Port.usable (p : Port) : Bool := p.state == .up || p.state == .degraded

def PortState.code : PortState → Nat
  | .disabled => 0 | .training => 1 | .keying => 2 | .up => 3 | .degraded => 4 | .down => 5 | .test => 6 | .idConflict => 7

/-- A port that carries or seeks a link: enabled, and not held by an id conflict. -/
def Port.linked (p : Port) : Bool := p.enable && p.state != .disabled && p.state != .idConflict

/-- A port's new state: unless it carries frames, the credits of its frames come back (R484); routes leave it (R495) until 1 s after
it is UP again. -/
def Port.turn (p : Port) (st : PortState) (now : Nat) : Port :=
  if st == .up || st == .degraded then { p with state := st, since := now }
  else
    { p with
      state := st
      since := now
      heldVc0 := []
      heldVc1 := []
      creditLink := 256
      linkWait := []
      rekeyAt := none
      refId := none
      away := p.away || p.state == .up || p.state == .degraded }

/-- A change of a port's state, logged with MESH raised (R493, R560 kind 0x07); DEGRADED lowers the capacity (R2). -/
def State.setPort (s : State) (n : Nat) (st : PortState) : State :=
  let p := s.portAt n
  if p.state == st then s
  else
    let s := s.modPort n fun p => p.turn st s.time.clk
    let s := s.log { seq := 0, kind := kMesh, scope := scDevice, unit := n
                     detail := detail [(24, toLe 1 p.state.code), (25, toLe 1 st.code), (26, toLe 2 (p.peerId.getD 0))] }
    (s.raise .pf evMesh).recap

/-! ### Route entries (R478, R500) -/

def State.routeOf (s : State) (d : Nat) : Word32 := getKey s.mesh.routes d 0

def routeValid (e : Word32) : Bool := e.getLsbD 31

/-- The ports of an entry in order of preference: PORT0, then up to ALTS alternates. -/
def routePorts (e : Word32) : List Nat :=
  [bits e.toNat 28 3, bits e.toNat 25 3, bits e.toNat 22 3, bits e.toNat 19 3].take (bits e.toNat 17 2 + 1)

def routeHops (e : Word32) : Nat := bits e.toNat 8 4

def routeDateline (e : Word32) (pos : Nat) : Bool := e.getLsbD (12 + pos)

/-- Whether an entry breaks a rule of R500 and is installed as not VALID. -/
def routeBad (e : Word32) : Bool :=
  routeValid e && (routeHops e == 0 || (routePorts e).eraseDups.length != (routePorts e).length)

/-- The first listed port, with its position, that is usable and not given up for the destination (R476, R478). Routes have
not yet returned to a recovered port for 1 s (R495): it is taken only where no other port is left. -/
def State.routePort (s : State) (d : Nat) : Option (Nat × Nat) :=
  let e := s.routeOf d
  if !routeValid e || d == s.mesh.deviceId then none
  else
    let l := ((routePorts e).zipIdx).filter fun x => (s.portAt x.1).usable && !(s.peer d).givenUp.contains x.1
    match l.find? fun x => !(s.portAt x.1).away with
    | some x => some x
    | none => l.head?

/-- Whether a destination is unreachable now (R476); with MESH_CTRL.ENABLE clear every destination is (R499). -/
def State.unreachable (s : State) (d : Nat) : Bool :=
  !s.mesh.enable || (s.peer d).unreachable || (s.routePort d).isNone

/-! ### Credits (R481, R482) -/

/-- The credits a frame takes. -/
def frameCredits (len : Nat) : Nat := ceilDiv (32 + len + 16) 256

def heldBy (l : List (Nat × Nat)) (who : Nat) : Nat := ((l.filter fun x => x.1 == who).map (·.2)).foldl (· + ·) 0

def State.poolCredits (s : State) : Nat := 14 * (64 - ((s.parts.map (·.meshShare)).foldl (· + ·) 0))

/-- Whether an own frame of a partition has waited for a port since before a time: the common pool serves it first (R482). -/
def State.poolWaits (s : State) (port since : Nat) : Bool :=
  s.mesh.peers.any fun p => p.unacked.any fun x => x.waits && x.at_ < since && x.part.isSome &&
    match s.routePort x.hdr.dest with | some r => r.1 == port | none => false

/-- Who pays for a frame on a VC whose outstanding frames are listed: the transit reserve for a frame of another device; the partition's
own units or the common pool, in the order in which frames became ready, for one of this device; none where the frame must wait. -/
def State.payer (s : State) (held : List (Nat × Nat)) (transit : Bool) (part : Option PartNo) (port n since : Nat) : Option Nat :=
  if transit then (if heldBy held 17 + n ≤ 128 then some 17 else none)
  else
    let own := match part with | some p => if heldBy held p.val + n ≤ 14 * (s.part p).meshShare then some p.val else none | none => none
    match own with
    | some w => some w
    | none => if heldBy held 16 + n ≤ s.poolCredits && !s.poolWaits port since then some 16 else none

/-- The credits of a frame that has been ready since a time are taken on a port; none where it must wait at the sender. -/
def State.takeCredits (s : State) (port type : Nat) (vc len : Nat) (transit : Bool) (part : Option PartNo) (since : Nat) : Option State :=
  let n := frameCredits len
  let p := s.portAt port
  if linkCredit type then
    if n ≤ p.creditLink then some (s.modPort port fun p => { p with creditLink := p.creditLink - n }) else none
  else if vc = 0 then
    (s.payer p.heldVc0 transit part port n since).map fun w => s.modPort port fun p => { p with heldVc0 := p.heldVc0 ++ [(w, n)] }
  else
    (s.payer p.heldVc1 transit part port n since).map fun w => s.modPort port fun p => { p with heldVc1 := p.heldVc1 ++ [(w, n)] }

/-- Credits returned, oldest frames first; the last may be returned in part. -/
def returnCredits : Nat → List (Nat × Nat) → List (Nat × Nat)
  | _, [] => []
  | n, (w, c) :: l => if c ≤ n then returnCredits (n - c) l else (w, c - n) :: l

/-! ### Sending -/

/-- The flits a frame takes (R464). -/
def frameFlits (len : Nat) : Nat := ceilDiv (48 + len) 240

/-- Whether a port's replay buffer of 1,024 flits has room for a frame (R465). -/
def Port.replayRoom (p : Port) (len : Nat) : Bool := (p.txSeq + 4096 - p.replayFrom) % 4096 + frameFlits len ≤ 1024

/-- A frame that has been ready since a time leaves by a port, with the VC of the position it leaves through, and its session's frame
count rises (R467, R479); none where it must wait for credits or for room in the replay buffer (R465, R481). -/
def State.leaveBy (s : State) (port pos : Nat) (e : Word32) (type : Nat) (hdr : FrameHdr) (body : FrameBody)
    (part : Option PartNo) (since : Nat) : Option State :=
  let vc := if hdr.vc = 1 ∨ routeDateline e pos then 1 else 0
  let transit := hdr.src != s.mesh.deviceId
  if !(s.portAt port).replayRoom hdr.len then none
  else (s.takeCredits port type vc hdr.len transit part since).map fun s =>
    let s := s.modPort port fun p => { p with
      frames := p.frames + 1
      txSeq := (p.txSeq + frameFlits hdr.len) % 4096
      served := if linkCredit type then p.served
        else setKey p.served hdr.cls (if transit then 16 else match part with | some q => q.val | none => 16) }
    let s := match part with
      | some p => s.modPart p fun x => { x with acct := { x.acct with meshTx := (x.acct.meshTx + hdr.len) % 2 ^ 64 } }
      | none => s
    s.emit (.frame port type { hdr with vc := vc } body)

/-- A routed frame of this device to another (R472, R475, R478): numbered, kept until acknowledged, sent when it has
credits. ACK, NACK and PROBE are routed alike; they carry no SEQ of the series here and are kept only while they wait for LINK credits, and they
alone go to an unreachable destination (R476). -/
def State.sendRouted (s : State) (type d domain tag aux len cls : Nat) (last : Bool) (body : FrameBody)
    (part : Option PartNo) : State :=
  match s.routePort d with
  | none => s
  | some (port, pos) =>
    let e := s.routeOf d
    let peer := s.peer d
    if !linkCredit type && peer.unreachable then s else
    let hdr : FrameHdr :=
      { src := s.mesh.deviceId, dest := d, domain := domain, seq := if linkCredit type then 0 else peer.txSeq, epoch := peer.epoch,
        ttl := routeHops e + 2, vc := 0, cls := cls, last := last, tag := tag, aux := aux, len := len }
    let item : Sent := { type := type, hdr := hdr, body := body, at_ := s.time.clk, part := if linkCredit type then none else part }
    let sent := s.leaveBy port pos e type hdr body item.part (s.time.clk + 1)
    if linkCredit type then
      sent.getD { s with mesh := { s.mesh with transit := s.mesh.transit ++ [{ item with waits := true }] } }
    else
      match sent with
      | some t => t.modPeer d fun p => { p with txSeq := (p.txSeq + 1) % 65536, unacked := p.unacked ++ [item],
                                                lastCmd := if type = tCmd then some s.time.clk else p.lastCmd }
      | none => s.modPeer d fun p => { p with txSeq := (p.txSeq + 1) % 65536, unacked := p.unacked ++ [{ item with waits := true }] }

/-- A frame of another device is refused: its source is answered with a NACK (R478); a NACK is not. -/
def State.refuse (s : State) (type : Nat) (hdr : FrameHdr) (reason : Nat) : State :=
  if type = tNack then s else s.sendRouted tNack hdr.src hdr.domain reason hdr.seq 0 0 true (.totals [hdr.dest]) none

/-- A link-class frame leaves by a port, or waits for a LINK credit (R473, R481). -/
def State.sendLink (s : State) (port type : Nat) (body : FrameBody) : State :=
  let p := s.portAt port
  if p.linkWait.isEmpty && 1 ≤ p.creditLink then
    (s.modPort port fun p => { p with creditLink := p.creditLink - 1 }).emit (.frame port type {} body)
  else s.modPort port fun p => { p with linkWait := p.linkWait ++ [(type, body)] }

/-- The link-class frames of a port that have LINK credits now. -/
def State.pumpLink (s : State) (port : Nat) : State :=
  let p := s.portAt port
  let go := p.linkWait.take p.creditLink
  go.foldl (fun (s : State) x => s.emit (.frame port x.1 {} x.2))
    (s.modPort port fun p => { p with linkWait := p.linkWait.drop go.length, creditLink := p.creditLink - go.length })

/-- Destinations in the order of an all-to-all exchange: ascending device id from the first above its own, wrapping past 1,023 (R485). -/
def exchangeOrder (own : Nat) (l : List Nat) : List Nat :=
  sortBy (fun a b => decide ((a + 1023 - own) % 1024 < (b + 1023 - own) % 1024)) l

/-- A fresh operation identifier (R472 TAG). -/
def State.newTag (s : State) : State := { s with mesh := { s.mesh with nextTag := s.mesh.nextTag + 1 } }

/-- The members of a mesh collection other than this device: (member index, device id). -/
def Coll.others (c : Coll) (own : Nat) : List (Nat × Nat) :=
  (c.members.zipIdx.map fun x => (x.2, x.1)).filter fun x => x.2 != own

end Sys2Proof.Machine
end

