-- ==== Sys2Proof/Machine/Float.lean ====
section
/-! DEFINITION. Element types and exact binary arithmetic with the roundings of the manual (R137, R138, R210, R211,
R219, R224, R229 to R233, R252). -/

namespace Sys2Proof.Machine

/-- A value on the floating path: NaN, an infinity, or a finite ±m × 2^e (a zero keeps its sign). -/
inductive Flt where
  | nan
  | inf (neg : Bool)
  | fin (neg : Bool) (m : Nat) (e : Int)
  deriving DecidableEq, Repr, Inhabited

namespace Flt

def zero : Flt := .fin false 0 0
def one : Flt := .fin false 1 0

def isFinite : Flt → Bool
  | .fin _ _ _ => true
  | _ => false

def isZero : Flt → Bool
  | .fin _ 0 _ => true
  | _ => false

def negative : Flt → Bool
  | .fin n _ _ => n
  | .inf n => n
  | .nan => false

def neg : Flt → Flt
  | .nan => .nan
  | .inf n => .inf !n
  | .fin n m e => .fin (!n) m e

/-- m × 2^e as a multiple of 2^q, for q ≤ e. -/
def atExp (m : Nat) (e q : Int) : Nat := m * 2 ^ (e - q).toNat

/-- The signed multiple of 2^q that a finite value is, for q no greater than its exponent. -/
def sint (x : Flt) (q : Int) : Int :=
  match x with
  | .fin n m e => if n then -(atExp m e q : Int) else atExp m e q
  | _ => 0

def exp : Flt → Int
  | .fin _ _ e => e
  | _ => 0

/-- The finite value i × 2^q. -/
def ofInt (i : Int) (q : Int) : Flt := .fin (decide (i < 0)) i.natAbs q

/-- Exact sum: infinities and NaN propagate (R224); an exact zero is +0 unless both terms are −0. -/
def add : Flt → Flt → Flt
  | .nan, _ => .nan
  | _, .nan => .nan
  | .inf a, .inf b => if a = b then .inf a else .nan
  | .inf a, _ => .inf a
  | _, .inf b => .inf b
  | .fin a m e, .fin b n f =>
    if m = 0 ∧ n = 0 then .fin (a && b) 0 0
    else
      let q := min e f
      ofInt (sint (.fin a m e) q + sint (.fin b n f) q) q

/-- Exact product (R219). -/
def mul : Flt → Flt → Flt
  | .nan, _ => .nan
  | _, .nan => .nan
  | .inf a, .inf b => .inf (a != b)
  | .inf a, .fin b n _ => if n = 0 then .nan else .inf (a != b)
  | .fin a m _, .inf b => if m = 0 then .nan else .inf (a != b)
  | .fin a m e, .fin b n f => .fin (a != b) (m * n) (e + f)

/-- Division by 2^s to nearest, ties to even. -/
def rne (m s : Nat) : Nat :=
  let q := m / 2 ^ s
  let r := m % 2 ^ s
  if 2 * r > 2 ^ s ∨ (2 * r = 2 ^ s ∧ q % 2 = 1) then q + 1 else q

/-- ⌊log₂⌋ of a non-zero finite magnitude. -/
def flog (m : Nat) (e : Int) : Int := m.log2 + e

/-- Rounding to a format of `mb` mantissa bits and a bias, ties to even; subnormals kept, ±∞ on overflow. -/
def round (mb : Nat) (bias : Int) (x : Flt) : Flt :=
  match x with
  | .fin n m e =>
    if m = 0 then .fin n 0 0
    else
      let q := max (flog m e - mb) (1 - bias - mb)
      let k := if q ≤ e then atExp m e q else rne m (q - e).toNat
      if (bias + 1 : Int) ≤ flog k q ∧ k ≠ 0 then .inf n else .fin n k q
  | y => y

/-- Rounding to FP32 and to FP16. -/
def round32 (x : Flt) : Flt := x.round 23 127
def round16 (x : Flt) : Flt := x.round 10 15

/-- The bits of a value in an IEEE format of `eb` exponent and `mb` mantissa bits: rounded first; NaN as given. -/
def toBits (eb mb : Nat) (nanBits : Nat) (x : Flt) : Nat :=
  let bias : Int := 2 ^ (eb - 1) - 1
  let sign := fun (n : Bool) => if n then 2 ^ (eb + mb) else 0
  match x.round mb bias with
  | .nan => nanBits
  | .inf n => sign n + (2 ^ eb - 1) * 2 ^ mb
  | .fin n m e =>
    if m = 0 then sign n
    else
      let q := max (flog m e - mb) (1 - bias - mb)
      sign n + (q - (1 - bias - mb)).toNat * 2 ^ mb + (if q ≤ e then atExp m e q else rne m (q - e).toNat)

/-- The value of `eb`/`mb` bits. `special`: 0 no infinity or NaN (E2M1); 1 IEEE; 2 NaN at all ones only (E4M3). -/
def ofBits (eb mb : Nat) (special : Nat) (v : Nat) : Flt :=
  let bias : Int := 2 ^ (eb - 1) - 1
  let n := v.testBit (eb + mb)
  let e := bits v mb eb
  let f := v % 2 ^ mb
  if special = 1 ∧ e = 2 ^ eb - 1 then (if f = 0 then .inf n else .nan)
  else if special = 2 ∧ e = 2 ^ eb - 1 ∧ f = 2 ^ mb - 1 then .nan
  else if e = 0 then .fin n f (1 - bias - mb)
  else .fin n (2 ^ mb + f) (e - bias - mb)

def ofBits32 (v : Nat) : Flt := ofBits 8 23 1 v

/-- FP32 bits; every NaN is 0x7FC0_0000 (R233). -/
def bits32 (x : Flt) : Nat := toBits 8 23 0x7FC00000 x

/-- x ≤ y and x < y of two finite values. -/
def leFin (x y : Flt) : Bool :=
  let q := min x.exp y.exp
  decide (x.sint q ≤ y.sint q)

def ltFin (x y : Flt) : Bool := !leFin y x

end Flt

/-! ### Element types (R137, R210, R211) -/

/-- Bits per element of a type code. -/
def typeBits (t : Nat) : Nat :=
  match t with
  | 0x04 | 0x05 | 0x09 => 4
  | 0x06 | 0x07 => 16
  | 0x0B => 32
  | _ => 8

/-- Whether a type carries one E8M0 scale per 32 elements. -/
def isMx (t : Nat) : Bool := t == 0x08 || t == 0x09 || t == 0x0A

/-- One element of a type. -/
def elemVal (t v : Nat) : Flt :=
  match t with
  | 0x01 | 0x08 => .ofBits 4 3 2 v
  | 0x02 => .ofBits 5 2 1 v
  | 0x03 => .ofInt (signed 8 v) 0
  | 0x04 => .ofInt (signed 4 v) 0
  | 0x05 | 0x09 => .ofBits 2 1 0 v
  | 0x06 => .ofBits 8 7 1 v
  | 0x07 => .ofBits 5 10 1 v
  | 0x0A => .ofInt (signed 8 v) (-6)
  | _ => .ofBits32 v

/-- The E8M0 scale of a byte. -/
def scaleVal (b : Nat) : Flt := if b = 0xFF then .nan else .fin false 1 ((b : Int) - 127)

/-- The bytes of a vector (R138). -/
def vecBytes (t dim : Nat) : Nat := dim * typeBits t / 8 + if isMx t then dim / 32 else 0

/-- The slot of a vector in its region (R138). -/
def vecSlot (t dim : Nat) : Nat := roundUp (vecBytes t dim) 16

/-- The code of element j among packed elements. -/
def elemCode (t : Nat) (bs : Bytes) (j : Nat) : Nat :=
  match typeBits t with
  | 4 => (rd bs (j / 2) 1) / (if j % 2 = 0 then 1 else 16) % 16
  | w => rd bs (j * (w / 8)) (w / 8)

/-- The elements of a vector as the arrays decode them, MX scales applied (R211). -/
def decodeVec (t dim : Nat) (bs : Bytes) : List Flt :=
  if isMx t then
    let es := bs.drop (dim / 32)
    (List.range dim).map fun j => (elemVal t (elemCode t es j)).mul (scaleVal (rd bs (j / 32) 1))
  else (List.range dim).map fun j => elemVal t (elemCode t bs j)

/-- Whether every element of a vector is finite: the check of R139 and R213. -/
def vecFinite (t dim : Nat) (bs : Bytes) : Bool := (decodeVec t dim bs).all Flt.isFinite

def vecZero (t dim : Nat) (bs : Bytes) : Bool := (decodeVec t dim bs).all Flt.isZero

/-- Whether a searchable type, and whether DIM suits it (R132, R173). -/
def dimSuits (t dim : Nat) : Bool := if isMx t then dim % 32 == 0 else if typeBits t = 4 then dim % 2 == 0 else true

/-! ### Operand classes (R207, R212) -/

/-- The class of a type: bits of the multiplier it uses. -/
def typeClass (t : Nat) : Nat :=
  match t with
  | 0x04 | 0x05 | 0x09 => 4
  | 0x06 | 0x07 => 16
  | _ => 8

/-- G of the wider class (R207). -/
def groupSize (t u : Nat) : Nat := 64 / max (typeClass t) (typeClass u)

/-- I, F or H of R212. -/
def isI (t : Nat) : Bool := t == 0x03 || t == 0x04 || t == 0x0A
def isH (t : Nat) : Bool := t == 0x06 || t == 0x07

/-- Whether the arrays accept a pair (R212). -/
def pairOk (t u : Nat) : Bool := isH t || isH u || (isI t == isI u)

/-! ### Conversions of the output path (R231, R232) -/

/-- E4M3, saturating to ±448. -/
def toE4m3 (x : Flt) : Nat :=
  match x with
  | .nan => 0x7F
  | .inf _ => 0x7F
  | .fin n m e =>
    let sign := if n then 0x80 else 0
    if m = 0 then sign
    else
      let q := max (Flt.flog m e - 3) (-9)
      let k := (q + 9).toNat * 8 + (if q ≤ e then Flt.atExp m e q else Flt.rne m (q - e).toNat)
      sign + min k 0x7E

/-- INT8: rounded to an integer, saturating. -/
def toInt8 (x : Flt) : Nat :=
  match x with
  | .nan => 0
  | .inf n => if n then 0x80 else 0x7F
  | .fin n m e =>
    let k := if 0 ≤ e then Flt.atExp m e 0 else Flt.rne m (-e).toNat
    if n then 256 - min k 128 else min k 127

/-- One value converted by a code other than MXFP8, as bytes. -/
def convert (code : Nat) (x : Flt) : Bytes :=
  match code with
  | 1 => toLe 2 (x.toBits 5 10 0x7E00)
  | 2 => toLe 2 (x.toBits 8 7 0x7FC0)
  | 3 => toLe 1 (toE4m3 x)
  | 4 => toLe 1 (x.toBits 5 2 0x7E)
  | 5 => toLe 1 (toInt8 x % 256)
  | _ => toLe 4 x.bits32

/-- x as a fraction of its MX block's scale: scale byte and element codes (R232). -/
def mxBlock (l : List Flt) : Nat × List Nat :=
  if l.any (fun x => !x.isFinite) then (0xFF, l.map fun _ => 0x7F)
  else
    let top := (l.filterMap fun x => match x with
      | .fin _ m e => if m = 0 then none else some (Flt.flog m e)
      | _ => none).foldl max (-10000)
    if top = -10000 then (0, l.map fun _ => 0)
    else
      let e := max (-127) (min 127 (top - 8))
      ((e + 127).toNat, l.map fun x => toE4m3 (x.mul (.fin false 1 (-e))))

/-- The row of outputs in a layer's output format, and the type code it is (R231, R242). -/
def convertRow (code : Nat) (l : List Flt) : Bytes :=
  if code = 6 then
    let bl := (chunks 32 l.length l).map mxBlock
    (bl.flatMap fun b => toLe 1 b.1) ++ bl.flatMap fun b => b.2.flatMap (toLe 1)
  else l.flatMap (convert code)

/-- The element type that a conversion code produces (R231). -/
def outType (code : Nat) : Nat :=
  match code with
  | 1 => 0x07 | 2 => 0x06 | 3 => 0x01 | 4 => 0x02 | 5 => 0x03 | 6 => 0x08 | _ => 0x0B

/-- OUT's last stage for keys: −0 becomes +0, every NaN 0x7FC0_0000 (R233). -/
def keyBits (x : Flt) : Nat := let b := x.bits32; if b = 0x80000000 then 0 else b

/-- The sort code of a key's bits (R252). -/
def sortCode (x : Nat) : Nat := if x < 0x80000000 then x + 0x80000000 else 0xFFFFFFFF - x

/-- Key order on FP32 bits (R252). -/
def keyLt (a b : Nat) : Bool := sortCode a < sortCode b

/-! ### Roots and exponentials, for norms and activations (R144, R230) -/

/-- ⌊√n⌋ by bits, from a bit bound. -/
def isqrt : Nat → Nat → Nat
  | 0, _ => 0
  | f + 1, n =>
    let r := isqrt f (n / 4) * 2
    if (r + 1) * (r + 1) ≤ n then r + 1 else r

/-- 1/√x truncated to an FP32 value, and whether that is exact: for x > 0 finite. -/
def invSqrt (m : Nat) (e : Int) : Flt × Bool :=
  let m' := if e % 2 = 0 then m else 2 * m
  let e' := if e % 2 = 0 then e else e - 1
  let k := m'.log2 + 64
  let r := isqrt (k + 2) (2 ^ (2 * k) / m')
  let x := Flt.fin false r (-(k : Int) - e' / 2)
  let q := max (Flt.flog r (-(k : Int) - e' / 2) - 23) (-149)
  let t := r / 2 ^ (q - (-(k : Int) - e' / 2)).toNat
  (.fin false t q, r * r * m' = 2 ^ (2 * k) && (x.add (Flt.fin true t q)).isZero)

/-- 1/√NORM_SQ with an error of at most 1 unit in the last place (R144): which of the two values beside it is a free
value. -/
def normInv (sq : Nat) (seed : Nat) : Nat :=
  match Flt.ofBits32 sq with
  | .fin _ m e =>
    if m = 0 then 0x7F800000
    else
      let (t, exact) := invSqrt m e
      let b := t.bits32
      let f := (Config.freeBits seed).toNat
      if f = b + 1 ∨ (exact ∧ f + 1 = b) then f else b
  | .inf _ => 0
  | .nan => 0x7FC00000

/-- Fixed point of 320 fraction bits. -/
abbrev fixBits : Nat := 320

/-- Σ (−r)^i / i! over the first terms, r in fixed point below 2^-8. -/
def expSeries (r : Nat) : Nat :=
  (((List.range 40).foldl (fun (acc : Int × Int) i =>
    let term := acc.2
    (acc.1 + term, -(term * r) / ((i + 1 : Nat) * 2 ^ fixBits : Nat)))
    ((0 : Int), (2 ^ fixBits : Nat))).1).toNat

/-- e^(−t) for t ≥ 0, both in fixed point; 0 from 256 on. -/
def expNeg (t : Nat) : Nat :=
  if 256 * 2 ^ fixBits ≤ t then 0
  else (List.range 16).foldl (fun x _ => x * x / 2 ^ fixBits) (expSeries (t / 65536))

/-- |x| in fixed point, cut at 2^20. -/
def fixAbs (x : Flt) : Nat :=
  match x with
  | .fin _ m e =>
    let s := e + (fixBits : Int)
    if 21 < Flt.flog m e ∧ m ≠ 0 then 2 ^ (20 + fixBits) else if 0 ≤ s then m * 2 ^ s.toNat else m / 2 ^ (-s).toNat
  | _ => 2 ^ (20 + fixBits)

/-- The logistic function of ±t, in fixed point. -/
def logistic (neg : Bool) (t : Nat) : Nat :=
  let u := expNeg t
  (if neg then u else 2 ^ fixBits) * 2 ^ fixBits / (2 ^ fixBits + u)

/-- The real value of an activation at a finite x, to the precision of the fixed point: codes 2 to 5 (R230). -/
def actReal (code : Nat) (x : Flt) : Flt :=
  let t := fixAbs x
  let n := x.negative
  let fx := fun (v : Nat) => Flt.fin false v (-(fixBits : Int))
  match code with
  | 2 =>
    -- 2 × 0.79788456 × (x + 0.044715 x³), in fixed point
    let cube := t * t / 2 ^ fixBits * t / 2 ^ fixBits
    let u := min (2 * 79788456 * (t + cube * 44715 / 1000000) / 100000000) (2 ^ (20 + fixBits))
    x.mul (fx (logistic n u))
  | 3 => x.mul (fx (logistic n t))
  | 4 => fx (logistic n t)
  | _ =>
    let u := expNeg (2 * t)
    .fin n ((2 ^ fixBits - u) * 2 ^ fixBits / (2 ^ fixBits + u)) (-(fixBits : Int))

/-- One unit in the last place of the FP32 result. -/
def ulp32 (x : Flt) : Flt :=
  match x with
  | .fin _ m e => .fin false 1 (if m = 0 then -149 else max (Flt.flog m e - 23) (-149))
  | _ => .zero

def Flt.abs : Flt → Flt
  | .fin _ m e => .fin false m e
  | .inf _ => .inf false
  | .nan => .nan

/-- The activation (R230): codes 2 to 5 deliver any value within 2 units in the last place, or 2^-126, of the real one: a free
value where it lies there, else the rounded real value. -/
def activate (code : Nat) (seed : Nat) (x : Flt) : Flt :=
  match code, x with
  | 0, x => x
  | _, .nan => .nan
  | 1, x => if x.isZero || x.negative then .zero else x
  | 2, .inf n => if n then .zero else .inf false
  | 3, .inf n => if n then .zero else .inf false
  | 4, .inf n => if n then .zero else .one
  | _, .inf n => .fin n 1 0
  | code, x =>
    let y := actReal code x
    let f := Flt.ofBits32 (Config.freeBits seed).toNat
    let tol := (ulp32 y).mul (.fin false 2 0)
    let tol := if tol.ltFin (.fin false 1 (-126)) then Flt.fin false 1 (-126) else tol
    if f.isFinite && ((f.add y.neg).abs).leFin tol then f else y.round32

end Sys2Proof.Machine
end

