-- ==== Sys2Proof/Machine/Arrays.lean ====
section
/-! DEFINITION. The distance arrays and the output path: group sums, passes and chunks (R206 to R209, R219 to R226), keys and
norms (R144, R227, R228), sketches (R147, R148), dense layers (R229 to R232, R239 to R248). -/

namespace Sys2Proof.Machine

/-- A seed of free values within a step: part `a` of what `seed` names. -/
def sub (seed a : Nat) : Nat := seed * 2 ^ 64 + a + 1

/-! ### Sums (R220 to R223) -/

/-- The exponent below which the products of a mixed group are truncated (R220). -/
def truncExp (ps : List Flt) : Int :=
  (ps.filterMap fun p => match p with
    | .fin _ m e => if m = 0 then none else some (Flt.flog m e)
    | _ => none).foldl max (-100000) - 30

/-- A product's magnitude truncated to a multiple of 2^q. -/
def truncTo (q : Int) (p : Flt) : Flt :=
  match p with
  | .fin n m e => if q ≤ e then p else .fin n (m / 2 ^ (q - e).toNat) q
  | y => y

/-- The sum of one group before its rounding to the column format (R220). -/
def groupSum (exact : Bool) (ps : List Flt) : Flt :=
  if ps.any (fun p => !p.isFinite) then ps.foldl Flt.add .zero
  else
    let q := truncExp ps
    let s := (if exact then ps else ps.map (truncTo q)).foldl Flt.add (.fin true 0 0)
    if s.isZero then (if ps.all (fun p => p.isZero && p.negative) then .fin true 0 0 else .zero) else s

/-- A list padded with zero products to a multiple of `n` (R208). -/
def padTo (n : Nat) (l : List Flt) : List Flt := l ++ List.replicate (roundUp l.length n - l.length) .zero

/-- A column sum of one pass with FP32 accumulation (R221). -/
def passSum (exact : Bool) (g : Nat) (ps : List Flt) : Flt :=
  ((chunks g ps.length ps).map fun x => (groupSum exact x).round32).foldl (fun acc x => (acc.add x).round32) .zero

/-- The FP32 total over every pass (R222), from products padded to the pass width. -/
def total32 (exact : Bool) (g : Nat) (ps : List Flt) : Flt :=
  match (chunks (16 * g) ps.length (padTo (16 * g) ps)).map (passSum exact g) with
  | [] => .zero
  | x :: l => l.foldl (fun acc x => (acc.add x).round32) x

/-- The column sum of one lane in FP16 (R221): the cells' slices, `k` 0 for lane A and 1 for lane B (R216). -/
def laneSum (exact : Bool) (g : Nat) (ps : List Flt) (k : Nat) : Flt :=
  ((chunks (2 * g) ps.length ps).map fun x => (groupSum exact ((x.drop (k * g)).take g)).round16).foldl
    (fun acc x => (acc.add x).round16) .zero

/-- Promotion of the chunk registers into the total (R223). -/
def promote (t a b : Flt) : Flt := (((t.add a).round32).add b).round32

/-- The FP32 total with FP16 accumulation: chunks of `c` dimensions per lane (R223). -/
def total16 (exact : Bool) (g c : Nat) (ps : List Flt) : Flt :=
  let w := 16 * g
  let passes := chunks (2 * w) ps.length (padTo (2 * w) ps)
  (chunks (c / w) passes.length passes).foldl (fun t ch =>
    let a := ch.foldl (fun a p => (a.add (laneSum exact g p 0)).round16) .zero
    let b := ch.foldl (fun b p => (b.add (laneSum exact g p 1)).round16) .zero
    promote t a b) .zero

/-! ### The bounds (R225, R226) -/

/-- k × 2^q as a value. -/
def scaled (k : Nat) (q : Int) : Flt := .fin false k q

/-- The bound of R225, times 100, from the sum of magnitudes. -/
def bound32 (n g l : Nat) (a : Flt) : Flt :=
  let k := ceilDiv n g + ceilDiv n (16 * g) + l
  ((scaled (101 * (k + 2)) (-24)).mul a).add (scaled (100 * k) (-150))

/-- The bound of R226, times 100. -/
def bound16 (n g c l : Nat) (a : Flt) : Flt :=
  let k1 := (scaled 1 (-11)).mul (scaled (16 * c / g + c / g + 16) (-4))
  let k2 := scaled (2 * ceilDiv n (2 * c) + l + 2) (-24)
  (((k1.add k2).mul a).mul (scaled 101 0)).add (scaled (100 * ceilDiv n g) (-24))

/-- A delivered sum: a free value that lies within the bound of the exact sum, else what the stated path gives (R225, R226,
R250). Where the path overflowed no bound is stated and its value stands; where `isExact`, the sum itself is delivered, rounded once where
it is no FP32 value (DESIGN CHOICE, log 48). -/
def delivered (seed : Nat) (path s bound100 : Flt) (isExact : Bool) : Flt :=
  let f := Flt.ofBits32 (Config.freeBits seed).toNat
  if isExact && s.isFinite then s.round32
  else if path.isFinite && s.isFinite && f.isFinite && ((((f.add s.neg).abs).mul (scaled 100 0)).leFin bound100) then f
  else path

/-- A dot product with FP32 accumulation, of operands of two types, over `l` chained links (R225, R238). -/
def dot32 (seed t u : Nat) (l : Nat) (xs ys : List Flt) : Flt :=
  let g := groupSize t u
  let exact := isI t && isI u
  let ps := List.zipWith Flt.mul xs ys
  let path :=
    if l = 0 then total32 exact g ps
    else
      let half := roundUp (ceilDiv ps.length 2) (16 * g)
      ((total32 exact g (ps.take half)).add (total32 exact g (ps.drop half))).round32
  let s := ps.foldl Flt.add .zero
  let a := ps.foldl (fun acc p => acc.add p.abs) .zero
  delivered seed path s (bound32 ps.length g l a) (exact && a.leFin (scaled (2 ^ 24) 0))

/-- A dot product with FP16 accumulation (R226). -/
def dot16 (seed t u c : Nat) (l : Nat) (xs ys : List Flt) : Flt :=
  let g := groupSize t u
  let exact := isI t && isI u
  let ps := List.zipWith Flt.mul xs ys
  let path :=
    if l = 0 then total16 exact g c ps
    else
      let half := roundUp (ceilDiv ps.length 2) (32 * g)
      ((total16 exact g c (ps.take half)).add (total16 exact g c (ps.drop half))).round32
  let s := ps.foldl Flt.add .zero
  let a := ps.foldl (fun acc p => acc.add p.abs) .zero
  delivered seed path s (bound16 ps.length g c l a) false

/-! ### Norms, keys, sketches -/

/-- ‖x‖² in FP32 bits (R144). -/
def normSq (seed t : Nat) (xs : List Flt) : Nat := (dot32 seed t t 0 xs xs).bits32

/-- A query ready for comparison: its type, elements, ‖q‖² and 1/‖q‖ as FP32 bits (R228). -/
structure Query where
  t : Nat
  xs : List Flt
  sq : Nat
  inv : Nat
  deriving DecidableEq, Repr, Inhabited

def Query.make (seed t dim : Nat) (bs : Bytes) : Query :=
  let xs := decodeVec t dim bs
  let sq := normSq (sub seed 0) t xs
  { t := t, xs := xs, sq := sq, inv := normInv sq (sub seed 1) }

/-- The output path's scale and bias (R229). -/
def scaleBias (v sStat sStream bStat bStream : Flt) : Flt :=
  let v := ((v.mul sStat).round32.mul sStream).round32
  ((v.add bStat).round32.add bStream).round32

/-- The key of a record for a metric (R227): FP32 bits after R233. -/
def Query.key (q : Query) (seed metric vtype dim : Nat) (vec : Bytes) (nsq ninv : Nat) : Nat :=
  let d := dot32 seed q.t vtype 0 q.xs (decodeVec vtype dim vec)
  keyBits <|
    match metric with
    | 1 => scaleBias d (Flt.ofBits32 q.inv).neg (.ofBits32 ninv) .one .zero
    | 2 =>
      let v := scaleBias d (.fin true 2 0) .one (.ofBits32 q.sq) (.ofBits32 nsq)
      activate 1 0 v
    | _ => scaleBias d (.fin true 1 0) .one .zero .zero

/-- A sketch of a vector under a projection given by its rows, as a number whose bit i is sketch bit i (R147, R148). -/
def sketchOf (seed t : Nat) (xs : List Flt) (rows : List (List Flt)) : Nat :=
  maskOf ((rows.zipIdx.filter fun r =>
    match dot32 (sub seed r.2) 0x06 t 0 r.1 xs with
    | .fin n m _ => !n && m != 0
    | .inf n => !n
    | .nan => false).map (·.2))

/-- The sketch distance (R147). -/
def hamming (w a b : Nat) : Nat := popcount w (a ^^^ b)

/-! ### Dense stages (R240 to R248) -/

/-- A layer descriptor (R241). -/
structure Layer where
  inW : Nat
  outW : Nat
  wtype : Nat
  fp16 : Bool
  chunk : Nat
  act : Nat
  fmt : Nat
  hasBias : Bool
  hasScale : Bool
  rowScale : Nat
  deriving DecidableEq, Repr, Inhabited

def Layer.parse (d : Bytes) : Layer :=
  { inW := rd d 0 2, outW := rd d 2 2, wtype := rd d 4 1, fp16 := rd d 5 1 == 1, chunk := rd d 6 2, act := rd d 8 1,
    fmt := rd d 9 1, hasBias := (rd d 10 1).testBit 1, hasScale := (rd d 10 1).testBit 0, rowScale := rd d 12 4 }

/-- The bytes of one row of weights (R244). -/
def Layer.rowBytes (l : Layer) : Nat := roundUp (vecBytes l.wtype l.inW) 16

/-- The padded parts of a layer in the input buffer: weights, scales, biases (R244). -/
def Layer.weightBytes (l : Layer) : Nat := roundUp (l.outW * l.rowBytes) 64
def Layer.scaleBytes (l : Layer) : Nat := if l.hasScale then roundUp (4 * l.outW) 64 else 0
def Layer.biasBytes (l : Layer) : Nat := if l.hasBias then roundUp (4 * l.outW) 64 else 0
def Layer.bytes (l : Layer) : Nat := l.weightBytes + l.scaleBytes + l.biasBytes

/-- CHUNK in force (R223). -/
def Layer.chunkDims (l : Layer) (inType : Nat) : Nat :=
  if l.chunk != 0 then l.chunk else if groupSize inType l.wtype = 16 then 256 else 128

/-- One layer over one row: each output through the output path, before conversion (R229, R230, R241). `rows` is the number of
rows of the stage: fewer than 32 and an input wider than 2,048 split the sum across DA0 and DA1 (R239). -/
def Layer.run (l : Layer) (seed inType rows : Nat) (part : Bytes) (xs : List Flt) : List Flt :=
  let links := if rows < 32 && 2048 < l.inW then 1 else 0
  (List.range l.outW).map fun o =>
    let w := decodeVec l.wtype l.inW (slice part (o * l.rowBytes) l.rowBytes)
    let d :=
      if l.fp16 then dot16 (sub seed (2 * o)) inType l.wtype (l.chunkDims inType) links w xs
      else dot32 (sub seed (2 * o)) inType l.wtype links w xs
    let v := if l.hasScale then (d.mul (.ofBits32 (rd part (l.weightBytes + 4 * o) 4))).round32 else d
    let v := if l.rowScale = 0 then v else (v.mul (.ofBits32 l.rowScale)).round32
    let v := if l.hasBias then (v.add (.ofBits32 (rd part (l.weightBytes + l.scaleBytes + 4 * o) 4))).round32 else v
    activate l.act (sub seed (2 * o + 1)) v

/-- A stage: layers in order over a row, from an input type; answers the last layer's row, its conversion code and its bytes. -/
def runStage (seed rows : Nat) : List Layer → Nat → Bytes → List Flt → List Flt × Bytes
  | [], _, _, xs => (xs, [])
  | l :: ls, inType, input, xs =>
    let ys := l.run (sub seed ls.length) inType rows input xs
    let bs := convertRow l.fmt ys
    if ls.isEmpty then (ys, bs)
    else runStage seed rows ls (outType l.fmt) (input.drop l.bytes) (decodeVec (outType l.fmt) l.outW bs)

/-- The header fields and layers of a stage set's parameter block (R240). -/
def headLayers (param : Bytes) : List Layer :=
  (List.range (rd param 4 1)).map fun i => Layer.parse (slice param (64 * (i + 1)) 64)

def scorerLayers (param : Bytes) : List Layer :=
  (List.range (rd param 5 1)).map fun i => Layer.parse (slice param (64 * (1 + rd param 4 1 + i)) 64)

/-- The width of the scorer's input row (R243). -/
def scorerWidth (param : Bytes) (dim : Nat) : Nat :=
  let s := rd param 10 1
  (if s.testBit 0 then dim else 0) + (if s.testBit 1 then dim else 0) + (if s.testBit 2 then 1 else 0) +
    (if s.testBit 3 then rd param 11 1 else 0)

/-- A value converted to BF16. -/
def Flt.bf16 (x : Flt) : Flt := .ofBits 8 7 1 (x.toBits 8 7 0x7FC0)

/-- The scorer's input row for a candidate (R243). -/
def scorerRow (param : Bytes) (q vec : List Flt) (key attr : Nat) : List Flt :=
  let s := rd param 10 1
  let fields := (List.range (rd param 11 1)).map fun k =>
    Flt.fin false (attr / 2 ^ rd param (12 + 4 * k) 1 % 2 ^ rd param (13 + 4 * k) 1) 0
  ((if s.testBit 0 then q else []) ++ (if s.testBit 1 then vec else []) ++
    (if s.testBit 2 then [Flt.ofBits32 key] else []) ++ (if s.testBit 3 then fields else [])).map Flt.bf16

/-- The query a head makes of its input: the type of its last layer's output, and its bytes (R193, R242). -/
def runHead (seed : Nat) (param input hin : Bytes) : Nat × Bytes :=
  let ls := headLayers param
  let xs := decodeVec (rd param 7 1) (rd param 8 2) hin
  ((outType ((ls.getLast?.map (·.fmt)).getD 0)), (runStage seed 1 ls (rd param 7 1) input xs).2)

/-- The score of a candidate (R248). -/
def runScorer (seed rows : Nat) (param input : Bytes) (row : List Flt) : Flt :=
  let skip := ((headLayers param).map Layer.bytes).foldl (· + ·) 0
  ((runStage seed rows (scorerLayers param) 0x06 (input.drop skip) row).1).headD .zero

end Sys2Proof.Machine
end

