-- ==== Sys2Proof/Machine/Filter.lean ====
section
/-! DEFINITION. Filter blocks (R154 to R156) and the collection parameter block they read (R131, R152, R187). -/

namespace Sys2Proof.Machine

/-! ### The parameter block of a collection (R131) -/

def Coll.f (c : Coll) (off len : Nat) : Nat := rd c.param off len

def Coll.isTable (c : Coll) : Bool := c.f 0 1 == 1
def Coll.vtype (c : Coll) : Nat := c.f 1 1
def Coll.metric (c : Coll) : Nat := c.f 2 1

/-- Sketch bits of a SKETCH code. -/
def sketchBits (k : Nat) : Nat := match k with | 1 => 128 | 2 => 256 | 3 => 512 | 4 => 1024 | _ => 0

def Coll.sketchW (c : Coll) : Nat := sketchBits (c.f 3 1)
def Coll.degree (c : Coll) : Nat := c.f 4 1
def Coll.proj (c : Coll) : Nat := c.f 5 1
def Coll.dim (c : Coll) : Nat := c.f 6 2
def Coll.payload (c : Coll) : Nat := c.f 8 2
def Coll.optimiser (c : Coll) : Nat := c.f 10 1
def Coll.stateType (c : Coll) : Nat := c.f 11 1
def Coll.capacity (c : Coll) : Nat := c.f 16 8
def Coll.meshId (c : Coll) : Nat := c.f 32 4
def Coll.memberIndex (c : Coll) : Nat := c.f 38 2
def Coll.isMesh (c : Coll) : Bool := !c.members.isEmpty

/-- A flat collection (R127). -/
def Coll.isFlat (c : Coll) : Bool := !c.isTable && c.degree == 0
def Coll.isGraph (c : Coll) : Bool := !c.isTable && c.degree != 0

/-- The payload's slot in its region, and Q of R269. -/
def Coll.payloadSlot (c : Coll) : Nat := roundUp c.payload 16
def Coll.vecSlot (c : Coll) : Nat := Sys2Proof.Machine.vecSlot c.vtype c.dim

/-- The indexed fields as (shift, width) (R131). -/
def indexedOf (param : Bytes) : List (Nat × Nat) :=
  ((if rd param 13 1 = 0 then [] else [(rd param 12 1, rd param 13 1)]) ++
   (if rd param 15 1 = 0 then [] else [(rd param 14 1, rd param 15 1)]))

def Coll.indexed (c : Coll) : List (Nat × Nat) := indexedOf c.param

/-- A field of an attribute word (R155). -/
def attrField (attr shift width : Nat) : Nat := bits attr shift width

/-! ### Filters -/

structure Term where
  op : Nat
  group : Nat
  negate : Bool
  shift : Nat
  width : Nat
  operand : Nat
  deriving DecidableEq, Repr, Inhabited

/-- The terms of a filter block (R154). -/
def termsOf (block : Bytes) : List Term :=
  (List.range (rd block 0 1)).map fun i =>
    let t := slice block (16 + 16 * i) 16
    { op := rd t 0 1, group := rd t 1 1 % 4, negate := (rd t 1 1).testBit 7, shift := rd t 2 1, width := rd t 3 1, operand := rd t 8 8 }

/-- The conditions of a term (R155, R156). -/
def Term.ok (t : Term) : Bool :=
  1 ≤ t.width && t.width ≤ 64 && t.shift + t.width ≤ 64 &&
  match t.op with
  | 1 | 4 | 5 => decide (t.operand < 2 ^ t.width)
  | 2 => t.width ≤ 6
  | 3 => t.width ≤ 32 && t.operand % 2 ^ 32 ≤ t.operand / 2 ^ 32 && t.operand / 2 ^ 32 < 2 ^ t.width
  | _ => false

/-- The first fault of a filter block decides the status (R156); `base` is its place in the parameter block. -/
def filterErr (block : Bytes) (base : Nat) : Option Err :=
  firstErr
    [ reservedErr block (64 + base) [(1, 15)], failIf (rd block 0 1 > 15) { st := stFilter },
      (List.range (rd block 0 1)).findSome? fun i =>
        let t := slice block (16 + 16 * i) 16
        firstErr [ reservedErr t (64 + base + 16 + 16 * i) [(4, 4)], reservedBits t (64 + base + 16 + 16 * i) 1 0x7C,
                   ((termsOf block)[i]?).bind fun t => failIf (!t.ok) { st := stFilter } ] ]

/-- Whether a term is true of an attribute word (R155). -/
def Term.holds (t : Term) (attr : Nat) : Bool :=
  let f := attrField attr t.shift t.width
  let b := match t.op with
    | 1 => f == t.operand
    | 2 => t.operand.testBit f
    | 3 => t.operand % 2 ^ 32 ≤ f && f ≤ t.operand / 2 ^ 32
    | 4 => f &&& t.operand != 0
    | _ => f &&& t.operand == t.operand
  b != t.negate

/-- The groups that hold a term. -/
def groupsOf (ts : List Term) : List (List Term) :=
  ((List.range 4).map fun g => ts.filter fun t => t.group == g).filter fun l => !l.isEmpty

/-- Whether a word passes a block (R155). -/
def passes (ts : List Term) (attr : Nat) : Bool := ts.isEmpty || (groupsOf ts).any fun g => g.all fun t => t.holds attr

/-- The indexed field a countable term reads (R156). -/
def Term.countField (t : Term) (idx : List (Nat × Nat)) : Option Nat :=
  if t.op = 1 ∨ t.op = 2 then idx.findIdx? fun x => x == (t.shift, t.width) else none

/-- The values a countable term admits (R187). -/
def Term.values (t : Term) : List Nat := if t.op = 1 then [t.operand] else bitsSet 64 t.operand

/-! ### Operands by type -/

/-- The mode bits in force for a command (R31, R38). -/
def Cmd.host (c : Cmd) (bit : Nat) : Bool := c.mode.getLsbD bit

end Sys2Proof.Machine
end

