-- ==== Sys2Proof/Machine/Slm.lean ====
section
/-! DEFINITION. Partition memory as commands reach it: the cache lines of the SLM slices (R419 to R423, R428, R429, R432), poison (R441,
R448), the wait for a stopped stack (R41, R446), writes (R421). -/

namespace Sys2Proof.Machine

/-- Ranges of partition memory that a step reads. -/
abbrev Reads := List (Nat × Nat)

/-- The line size of a table (R328, R329). -/
def elemBytes (t : Nat) : Nat := typeBits t / 8
def stateBytes (st : Nat) : Nat := if st = 1 then 2 else 4

/-- The parts of a table line: row, A, B, each padded to 16 B (R328). -/
def lineParts (param : Bytes) : Nat × Nat × Nat :=
  let dim := rd param 6 2
  let row := roundUp (dim * elemBytes (rd param 1 1)) 16
  let sp := roundUp (dim * stateBytes (rd param 11 1)) 16
  match rd param 10 1 with
  | 2 | 3 => (row, sp, 0)
  | 4 => (row, 16, 0)
  | 5 => (row, sp, sp)
  | _ => (row, 0, 0)

def lineSize (param : Bytes) : Nat :=
  let (a, b, c) := lineParts param
  let u := a + b + c
  if u ≤ 64 then 64 else if u ≤ 128 then 128 else if u ≤ 256 then 256 else roundUp u 256

def Coll.lineSize (c : Coll) : Nat := Sys2Proof.Machine.lineSize c.param

/-! ### Home slices (R330, R432) -/

/-- The home slice of an HBM address (R432). -/
def homeSlice (slices : List Nat) (addr : Nat) : Nat :=
  let l := addr / 256
  let x := (l ^^^ (l / 2 ^ 13) ^^^ (l / 2 ^ 26)) &&& 0x1FFF
  slices.getD (x % slices.length) 0

/-- The byte of partition memory whose home hash gives a line's home slice: in a table's row lines that of the first byte of its table line
(R330, R432). -/
def PartSt.homeByte (x : PartSt) (off : Nat) : Nat :=
  match x.colls.find? fun k => k.isTable && k.metaOff ≤ off && off < k.base + k.size with
  | none => off
  | some k =>
    let rows := if k.members.isEmpty then k.f 16 8 else 64 * k.tm.slotCount
    let i := (off - k.metaOff) / k.lineSize
    if i < rows then k.metaOff + i * k.lineSize else off

/-- The home slice of a byte's line. -/
def State.homeOf (s : State) (p : PartNo) (off : Nat) : Nat :=
  homeSlice (s.clustersOf p) ((s.part p).hbmAddr ((s.part p).homeByte (off / 256 * 256)))

/-! ### Cache lines (R420, R422, R423) -/

/-- The cached line that holds a byte, in its home slice. -/
def State.cached (s : State) (p : PartNo) (off : Nat) : Option CacheLine :=
  (s.slm.slices.getD (s.homeOf p off) []).find? fun c => c.line == (s.part p).hbmAddr off / 256

/-- Whether a line is STAGED (R422): VALID, and held for a command that has not committed. -/
def State.holdsLine (s : State) (c : CacheLine) : Bool :=
  c.state == .valid && c.stagedFor.any fun a =>
    match s.cmd? a with
    | some d => d.phase == .queued || d.phase == .running || d.phase == .committing
    | none => false

/-- Whether a slice's cache is under an extended test, one way at a time: where its partition's SCRATCH is 0 (R573). -/
def State.cacheTested (s : State) (slice : Nat) : Bool :=
  s.tests.any (fun t => t.extended && !t.paused && t.clusters.getLsbD slice) &&
    match s.owner slice with | some p => (s.part p).scratch == 0 | none => false

/-- The ways of a set that may hold lines, and how many of them may be STAGED (R420, R423, R573: the way under test holds none). -/
def State.setWays (s : State) (slice : Nat) : Nat := if s.cacheTested slice then 15 else 16
def State.stageWays (s : State) (slice : Nat) : Nat := if s.cacheTested slice then 14 else 15

/-- The sets of each slice's cache part (R420). -/
def PartSt.sets (x : PartSt) : Nat := (8 - x.scratch) * 8192

/-- A new line in its set: in a free way, or in place of the least recently used line that is neither FILLING nor STAGED; where there is
none it is not cached (R423). -/
def State.intoSet (s : State) (sets ways : Nat) (l : List CacheLine) (new : CacheLine) : List CacheLine :=
  let mine := l.filter fun c => c.line % sets == new.line % sets
  let out := (mine.filter fun c => c.state != .filling && !s.holdsLine c).take (mine.length + 1 - ways)
  if mine.length < ways + out.length then (l.filter fun c => !out.contains c) ++ [new] else l

/-- Whether HBM returns poison for any burst of a line: a fill of it then returns poison (R422). -/
def State.fillPoison (s : State) (line : Nat) : Bool := (List.range 4).any fun i => s.rawPoison (256 * line + 64 * i)

/-- Whether a line's stack is stopped (R443). -/
def State.stoppedLine (s : State) (line : Nat) : Bool :=
  (s.hbm.stackSt.getD ((channelOf (256 * line) s.channelList).1 / 32) {}).level == 4

def State.anyStopped (s : State) : Bool := s.hbm.stackSt.any fun x => x.level == 4

/-- A line as its fill leaves it (R18, R422). -/
def State.filled (s : State) (slice line : Nat) : CacheLine :=
  { line := line
    state := if s.stoppedLine line then .filling else if s.fillPoison line then .poisoned else .valid
    bad := if s.fillPoison line then [0, 1, 2, 3] else []
    via := crossing (quadOfChannel (channelOf (256 * line) s.channelList).1) (quadOfCluster slice) line }

/-- A read reaches its line's home slice (R422, R423): a hit is the most recently used line of its set; a miss fills it. A read of a line
that is FILLING, or of one on a stopped stack, waits: the step that makes it is stalled (R41, R446). -/
def State.touchLine (s : State) (p : PartNo) (off : Nat) : State :=
  let x := s.part p
  let line := x.hbmAddr off / 256
  let slice := s.homeOf p off
  let l := s.slm.slices.getD slice []
  let put := fun (l : List CacheLine) (wait : Bool) =>
    { s with slm := { s.slm with slices := s.slm.slices.set slice l, stalled := s.slm.stalled || wait } }
  match l.find? fun c => c.line == line with
  | some c => put (l.filter (fun d => d.line != line) ++ [c]) (c.state == .filling)
  | none =>
    let l := if x.sets = 0 then l else s.intoSet x.sets (s.setWays slice) l (s.filled slice line)
    put l (s.stoppedLine line)

/-- The lines that ranges of partition memory touch, by their first bytes. -/
def linesOf (r : Reads) : List Nat :=
  r.flatMap fun x => if x.2 = 0 then [] else (List.range ((x.1 + x.2 - 1) / 256 - x.1 / 256 + 1)).map fun i => (x.1 / 256 + i) * 256

/-- Ranges of partition memory are read, in order (the order among a step's reads is a DESIGN CHOICE, log 49). -/
def State.touch (s : State) (p : PartNo) (r : Reads) : State :=
  if (s.part p).sets = 0 && !s.anyStopped then s else (linesOf r).foldl (fun s off => s.touchLine p off) s

/-- A row whose reads had to wait does nothing yet but start its fills; it runs again (R446). -/
def State.settled (s t : State) : State :=
  if t.slm.stalled then { s with slm := { t.slm with stalled := false } } else t

/-- The lines a command will update are staged into their home slices, as far as R423 allows (R345, R429). -/
def State.stageLines (s : State) (p : PartNo) (cid : Nat) (r : Reads) : State :=
  if (s.part p).sets = 0 then s
  else
    (linesOf r).foldl (fun s off =>
      let s := s.touchLine p off
      let slice := s.homeOf p off
      let l := s.slm.slices.getD slice []
      let line := (s.part p).hbmAddr off / 256
      let held := (l.filter fun c => c.line % (s.part p).sets == line % (s.part p).sets && s.holdsLine c && c.line != line).length
      if s.stageWays slice ≤ held then s
      else { s with slm := { s.slm with slices := s.slm.slices.set slice (l.map fun c =>
        if c.line == line && c.state == .valid then { c with stagedFor := addOnce c.stagedFor cid } else c) } }) s

/-- The lines of some slices are gone (R419, R424, R438, R568). -/
def State.dropLines (s : State) (f : Nat → CacheLine → Bool) : State :=
  { s with slm := { s.slm with slices := s.slm.slices.mapIdx fun n l => l.filter fun c => !f n c } }

/-- The fills from a stack end: it serves requests again (R446). -/
def State.fillsEnd (s : State) : State :=
  { s with slm := { s.slm with slices := s.slm.slices.mapIdx fun n l => l.map fun c =>
      if c.state == .filling && !s.stoppedLine c.line then { s.filled n c.line with stagedFor := c.stagedFor } else c } }

/-! ### Poison (R422, R428, R441, R448) -/

/-- Whether nothing anywhere reads poison: so it is in most states. -/
def State.clean (s : State) : Bool :=
  s.hbm.poison.isEmpty && !s.anyFenced && s.slm.slices.all fun l => l.all fun c => c.state != .poisoned

/-- Whether a read of a burst of partition memory returns poison: as its cached line does; of a line that is not cached, as its fill does,
or where the slice caches nothing as the burst does. -/
def State.poisoned (s : State) (p : PartNo) (off : Nat) : Bool :=
  let addr := (s.part p).hbmAddr off
  match s.cached p off with
  | some c => c.state == .poisoned || (c.state == .filling && s.fillPoison c.line)
  | none => if (s.part p).sets = 0 then s.rawPoison addr else s.fillPoison (addr / 256)

/-- The first poisoned burst that a range of partition memory touches, by its offset in partition memory. -/
def State.poisonIn (s : State) (p : PartNo) (off len : Nat) : Option Nat :=
  if s.clean then none else (burstsOf off len).find? fun b => s.poisoned p b

/-- A row's reads of partition memory, with the first poisoned burst they meet. -/
def State.reads (s : State) (p : PartNo) (r : Reads) : State × Option Nat :=
  let t := s.touch p r
  (t, r.findSome? fun x => t.poisonIn p x.1 x.2)

/-! ### BAR2 reads of partition memory (R58, R59, R446) -/

/-- The bytes, or EP where they meet poison (what poisoned bytes read is free). -/
def State.memAnswer (s : State) (r : BarRead) : State :=
  if (s.poisonIn r.part r.off r.len).isSome then (s.emit (.readData r.fn (some (fit r.len (Config.freeBytes s.fresh r.len))) true)).bump
  else s.emit (.readData r.fn (some ((s.part r.part).bytes r.off r.len)) false)

/-- A read is answered, or waits for a stopped stack. -/
def State.memRead (s : State) (r : BarRead) : State :=
  let t := s.touch r.part [(r.off, r.len)]
  if t.slm.stalled then { t with slm := { t.slm with stalled := false, waits := t.slm.waits ++ [r] } } else t.memAnswer r

/-- A stack serves requests again: its fills end, and the reads that waited go on. -/
def State.stackServes (s : State) : State := s.slm.waits.foldl State.memRead { s.fillsEnd with slm := { s.fillsEnd.slm with waits := [] } }

/-! ### Writes (R421, R428, R441, R448) -/

/-- A cached line after a write of one of its bursts: a POISONED line is VALID once each of its bursts has been rewritten whole (R422). -/
def CacheLine.wrote (c : CacheLine) (burst : Nat) (whole : Bool) : CacheLine :=
  if c.state == .poisoned && whole then
    let bad := c.bad.filter (· != burst)
    { c with bad := bad, state := if bad.isEmpty then .valid else .poisoned }
  else c

def State.wroteLine (s : State) (p : PartNo) (off : Nat) (whole : Bool) : State :=
  let line := (s.part p).hbmAddr off / 256
  { s with slm := { s.slm with slices := s.slm.slices.modify (s.homeOf p off) fun l => l.map fun c =>
      if c.line == line then c.wrote (off % 256 / 64) whole else c } }

/-- One piece of a write that lies in one burst: the cached line takes it, and HBM, which discards it on a fenced channel (R448) and,
where it covers part of a poisoned burst, with a log entry (R441). -/
def State.wrBurst (s : State) (p : PartNo) (cid : Option Nat) (off : Nat) (bs : Bytes) : State :=
  let addr := (s.part p).hbmAddr off
  let whole := bs.length == 64
  let keep : Bool := match s.cached p off with | some c => c.state == .valid || whole | none => false
  let t := s.wroteLine p off whole
  let store := fun (t : State) => t.modPart p fun x => x.wr off bs
  if s.anyFenced && (s.chan (channelOf addr s.channelList).1).fenced then (if keep then store t else s)
  else if s.hbm.poison.contains (addr / 64) then
    if whole then { store t with hbm := { s.hbm with poison := s.hbm.poison.filter (· != addr / 64) } }
    else (if keep then store s else s).logDiscard p (addr / 64 * 64) cid
  else store t

/-- A write of the device or of a command into partition memory, accepted by the controllers even of a stopped stack (R421, R445). -/
def State.wrMem (s : State) (p : PartNo) (cid : Option Nat) (off : Nat) (bs : Bytes) : State :=
  if s.clean then s.modPart p fun x => x.wr off bs
  else (piecesOf 64 bs.length off bs).foldl (fun s w => s.wrBurst p cid w.1 w.2) s

end Sys2Proof.Machine
end

