-- ==== Sys2Proof/Machine/Records.lean ====
section
/-! DEFINITION. Storage of a collection and its layout (R134, R135, R140, R157, R158, R328, R329, R357), its records (R140 to
R143), the id table (R145, R146), posting lists and counts (R153, R158, R191). -/

namespace Sys2Proof.Machine

abbrev MiB2 : Nat := 2097152

/-! ### Layout -/

/-- The default owner of a row block among n members (R356), and the home member of a global id (R129). -/
def ownerOf (b n : Nat) : Nat := (splitmix64 (BitVec.ofNat 64 b) >>> 32).toNat % n

/-- The blocks whose default owner is a member (R357). -/
def defaultBlocks (rows n member : Nat) : Nat :=
  ((List.range (ceilDiv rows 64)).filter fun b => ownerOf b n == member).length

/-- The block slots of a member of a mesh table (R357). -/
def blockSlots (rows n member : Nat) : Nat := defaultBlocks rows n member + ceilDiv (ceilDiv rows 64) (4 * n) + 64

/-- The buckets of an id table (R145). -/
def idBuckets (cap : Nat) : Nat := ceilDiv (105 * cap) 400

/-- The counts of the posting-list region, rounded up (R158). -/
def countBytes (param : Bytes) : Nat := roundUp (((indexedOf param).map fun x => 8 * 2 ^ x.2).foldl (· + ·) 0) MiB2

/-- The whole posting-list region (R158). -/
def postBytes (param : Bytes) : Nat :=
  if (indexedOf param).isEmpty then 0
  else countBytes param + (indexedOf param).length * roundUp (4 * rd param 16 8) MiB2

/-- A collection with its storage laid out from a base (R135, R140, R158): the regions on 2 MiB boundaries, and after them the projection
matrix, whose W × DIM × 2 B are not rounded (its place is a DESIGN CHOICE, log 16). -/
def Coll.laid (handle uid : Nat) (param : Bytes) (members : List Nat) (base : Nat) : Coll :=
  let cap := rd param 16 8
  if rd param 0 1 = 1 then
    let ls := Sys2Proof.Machine.lineSize param
    let slots := if members.isEmpty then 0 else blockSlots cap members.length (rd param 38 2)
    let bytes := if members.isEmpty then cap * ls else slots * 64 * ls + 16 * slots
    { handle := handle, uid := uid, param := param, members := members, base := base, metaOff := base + MiB2
      size := MiB2 + roundUp bytes MiB2
      tm := { slotCount := slots, slots := if members.isEmpty then [] else
        (((List.range (ceilDiv cap 64)).filter fun b => ownerOf b members.length == rd param 38 2).zipIdx) } }
  else
    let w := sketchBits (rd param 3 1)
    let dim := rd param 6 2
    let projB := if rd param 5 1 = 0 then 0 else w / 8 * 8 * dim * 2
    let graph := rd param 4 1 != 0
    let o1 := base + MiB2
    let o2 := o1 + if graph then roundUp (cap * (w / 8)) MiB2 else 0
    let o3 := o2 + if graph then roundUp (cap * 4 * rd param 4 1) MiB2 else 0
    let o4 := o3 + roundUp (cap * 48) MiB2
    let o5 := o4 + roundUp (cap * Sys2Proof.Machine.vecSlot (rd param 1 1) dim) MiB2
    let o6 := o5 + roundUp (cap * roundUp (rd param 8 2) 16) MiB2
    let o7 := o6 + roundUp (64 * idBuckets cap) MiB2
    let o8 := o7 + postBytes param
    { handle := handle, uid := uid, param := param, members := members, base := base
      projOff := if projB = 0 then 0 else o8
      sketchOff := if graph then o1 else 0
      edgeOff := if graph then o2 else 0
      metaOff := o3
      vectorOff := o4
      payloadOff := if rd param 8 2 = 0 then 0 else o5
      idOff := o6
      postOff := if (indexedOf param).isEmpty then 0 else o7
      size := o8 + projB - base }

/-- The lowest 2 MiB boundary of partition memory with room for a size between the collections held (DESIGN CHOICE, log 16). -/
def PartSt.place (x : PartSt) (size : Nat) : Option Nat :=
  let starts := 0 :: x.colls.map fun c => roundUp (c.base + c.size) MiB2
  bestBy (fun a b => decide (a < b)) (starts.filter fun b =>
    b + size ≤ x.memBytes && x.colls.all fun c => c.base + c.size ≤ b || b + size ≤ c.base)

/-- A range of partition memory written by the device: initialised, its poison cleared, and no line of it cached any more (R134, R421, R441). -/
def State.initMem (s : State) (p : PartNo) (lo hi : Nat) (f : Fill) : State :=
  let x := s.part p
  let inside := fun b => match x.offsetOf (b * 64) with | some o => decide (lo ≤ o ∧ o < hi) | none => false
  { (s.modPart p fun x => { x with mem := x.mem.init lo hi f }) with
    hbm := { s.hbm with poison := s.hbm.poison.filter fun b => !inside b }
    slm := { s.slm with slices := s.slm.slices.map fun l => l.filter fun c => !inside (4 * c.line) } }

/-- The storage of a new collection as R134 leaves it; a generated matrix is written as well, a supplied one from `matrix`. The layout of a
mesh table's block map is not specified (R357). -/
def State.fillColl (s : State) (p : PartNo) (k : Coll) (matrix : Bytes) : State :=
  let s := s.initMem p k.base (k.base + k.size) .zero
  if k.isTable then
    if k.isMesh then s.initMem p (k.metaOff + 64 * k.tm.slotCount * k.lineSize) (k.base + k.size) .open else s
  else
    let s := s.initMem p k.idOff (k.idOff + 64 * idBuckets k.capacity) .idTable
    if k.proj = 1 then s.initMem p k.projOff (k.projOff + 2 * k.sketchW * k.dim) (.proj (BitVec.ofNat 64 (k.f 24 8)) k.dim)
    else if k.proj = 2 then s.modPart p fun x => x.wr k.projOff matrix
    else s

/-! ### Records (R140, R141) -/

structure Meta where
  gid : Nat := 0
  ins : Nat := 0
  del : Nat := 0
  attr : Nat := 0
  nsq : Nat := 0
  ninv : Nat := 0
  state : Nat := 0
  hostEdges : Bool := false
  prev : Nat := 0
  deriving DecidableEq, Repr, Inhabited

abbrev slFree := 0
abbrev slPending := 1
abbrev slLive := 2
abbrev noSlot := 0xFFFFFFFF

def Meta.parse (b : Bytes) : Meta :=
  { gid := rd b 0 8, ins := rd b 8 8, del := rd b 16 8, attr := rd b 24 8, nsq := rd b 32 4, ninv := rd b 36 4,
    state := rd b 40 1 % 4, hostEdges := (rd b 41 1).testBit 0, prev := rd b 44 4 }

def Meta.bytes (m : Meta) : Bytes :=
  toLe 8 m.gid ++ toLe 8 m.ins ++ toLe 8 m.del ++ toLe 8 m.attr ++ toLe 4 m.nsq ++ toLe 4 m.ninv ++ toLe 1 m.state ++
    toLe 1 (if m.hostEdges then 1 else 0) ++ toLe 2 0 ++ toLe 4 m.prev

/-- LIVE with DELETE_STAMP 0. -/
def Meta.current (m : Meta) : Bool := m.state == slLive && m.del == 0

/-- Visibility at a read stamp (R162). -/
def Meta.visible (m : Meta) (r : Nat) : Bool := m.state == slLive && m.ins ≤ r && (m.del == 0 || r < m.del)

def Coll.metaAt (c : Coll) (s : Nat) : Nat := c.metaOff + 48 * s
def Coll.sketchAt (c : Coll) (s : Nat) : Nat := c.sketchOff + c.sketchW / 8 * s
def Coll.edgeAt (c : Coll) (s : Nat) : Nat := c.edgeOff + 4 * c.degree * s
def Coll.vecAt (c : Coll) (s : Nat) : Nat := c.vectorOff + c.vecSlot * s
def Coll.payAt (c : Coll) (s : Nat) : Nat := c.payloadOff + c.payloadSlot * s

def PartSt.meta (x : PartSt) (c : Coll) (s : Nat) : Meta := Meta.parse (x.bytes (c.metaAt s) 48)
def PartSt.sketch (x : PartSt) (c : Coll) (s : Nat) : Nat := x.rd (c.sketchAt s) (c.sketchW / 8)
def PartSt.vec (x : PartSt) (c : Coll) (s : Nat) : Bytes := x.bytes (c.vecAt s) c.vecSlot
def PartSt.pay (x : PartSt) (c : Coll) (s : Nat) : Bytes := x.bytes (c.payAt s) c.payloadSlot

/-- The valid entries of an edge block (R143). -/
def PartSt.edges (x : PartSt) (c : Coll) (s : Nat) : List Nat :=
  ((List.range c.degree).map fun j => x.rd (c.edgeAt s + 4 * j) 4).takeWhile (· != noSlot)

/-- A slot's bytes of a vector or a payload: the rounding bytes past it are 0 (R138; supplied ones are not kept: DESIGN CHOICE, log 48). -/
def slotBytes (size bytes : Nat) (b : Bytes) : Bytes := fit size (b.take bytes)

/-- An edge block's bytes. -/
def edgeBytes (degree : Nat) (l : List Nat) : Bytes :=
  ((l.take degree ++ List.replicate (degree - l.length) noSlot)).flatMap (toLe 4)

/-- The slots whose meta entry has been written since the collection was created, in ascending order: every other slot is FREE
(R134). -/
def PartSt.usedSlots (x : PartSt) (c : Coll) : List Nat :=
  (((x.mem.cells.filter fun k => c.metaOff ≤ k.1 && k.1 < c.metaOff + 48 * c.capacity).map fun k =>
    (k.1 - c.metaOff) / 48)).eraseDups

/-- The LIVE slots, ascending. -/
def PartSt.liveSlots (x : PartSt) (c : Coll) : List Nat := (x.usedSlots c).filter fun s => (x.meta c s).state == slLive

/-- The lowest FREE slots that are not reserved (DESIGN CHOICE among FREE slots, log 16). -/
def PartSt.freeSlots (x : PartSt) (c : Coll) (taken : List Nat) (n : Nat) : List Nat :=
  let used := (x.usedSlots c).filter fun s => (x.meta c s).state != slFree
  ((List.range (min c.capacity (used.length + taken.length + n))).filter fun s => !used.contains s && !taken.contains s).take n

/-! ### The id table (R145, R146) -/

/-- The two buckets of an id. -/
def Coll.buckets (c : Coll) (g : Nat) : Nat × Nat :=
  let b := idBuckets c.capacity
  let g := BitVec.ofNat 64 g
  ((splitmix64 g).toNat % b, (splitmix64 (~~~g)).toNat % b)

/-- The addresses of a bucket's entries. -/
def Coll.bucketEntries (c : Coll) (b : Nat) : List Nat := (List.range 4).map fun i => c.idOff + 64 * b + 16 * i

def Coll.idEntries (c : Coll) (g : Nat) : List Nat :=
  c.bucketEntries (c.buckets g).1 ++ if (c.buckets g).1 = (c.buckets g).2 then [] else c.bucketEntries (c.buckets g).2

/-- Where an id lies: the address of its entry. -/
def PartSt.idFind (x : PartSt) (c : Coll) (g : Nat) : Option Nat :=
  (c.idEntries g).find? fun a => x.rd a 8 == g && x.rd (a + 8) 4 != noSlot

/-- The slot an id names: its entry in one of its two buckets, or in the stash. -/
def PartSt.idSlot (x : PartSt) (c : Coll) (g : Nat) : Option Nat :=
  match x.idFind c g with
  | some a => some (x.rd (a + 8) 4)
  | none => c.stash.lookup g

def idEntry (g slot : Nat) : Bytes := toLe 8 g ++ toLe 4 slot ++ toLe 4 0

/-- The id-table entries of a collection that mutations have reserved (R282). -/
def State.idClaims (s : State) (p : PartNo) (uid : Nat) : List (Nat × Option Nat) :=
  s.cmds.flatMap fun c => if c.part == some p && c.coll == some uid then (match c.run with | .mutation m => m.claims | _ => []) else []

/-- The addresses among them: no other id takes or displaces these entries. -/
def claimed (claims : List (Nat × Option Nat)) : List Nat := claims.filterMap (·.2)

/-- The stash has 256 entries; those reserved for ids that it does not hold yet are taken (R145, R282). -/
def Coll.stashRoom (k : Coll) (claims : List (Nat × Option Nat)) : Nat :=
  256 - k.stash.length - (((claims.filter fun a => a.2.isNone && (k.stash.lookup a.1).isNone).map (·.1)).eraseDups).length

/-- The most entries an insertion displaces (R145). -/
def displaceMax : Nat := 64

/-- Insertion by displacement (R145): an empty entry among the two buckets, else one entry is displaced, at most `fuel` times;
which one is a free value. The entries `taken` are reserved. Answers the entry left over, for the stash. -/
def State.idPlace (s : State) (p : PartNo) (cid : Option Nat) (c : Coll) (taken : List Nat) : Nat → Nat → Nat → State × Option (Nat × Nat)
  | 0, g, slot => (s, some (g, slot))
  | fuel + 1, g, slot =>
    let x := s.part p
    let es := (c.idEntries g).filter fun a => !taken.contains a
    let free := es.filter fun a => x.rd (a + 8) 4 == noSlot
    let pick := Config.freeNat s.fresh
    let s := s.bump
    if es.isEmpty then (s, some (g, slot))
    else if free.isEmpty then
      let a := es.getD (pick % es.length) 0
      let g' := x.rd a 8
      let slot' := x.rd (a + 8) 4
      State.idPlace (s.wrMem p cid a (idEntry g slot)) p cid c taken fuel g' slot'
    else (s.wrMem p cid (free.getD (pick % free.length) 0) (idEntry g slot), none)

/-- The entry left over after an insertion goes to the stash; false, and the state as it was, where the stash is full (R145). -/
def State.idStash (s : State) (p : PartNo) (uid room : Nat) (r : State × Option (Nat × Nat)) : State × Bool :=
  match r.2 with
  | none => (r.1, true)
  | some e => if 0 < room then (r.1.modCollU p uid fun k => { k with stash := k.stash ++ [e] }, true) else (s, false)

/-- An id-table entry is reserved for an id (R282): the entry that already names it, a free one of its two buckets, one that
displacement frees, or one of the stash. -/
def State.idClaim (s : State) (p : PartNo) (k : Coll) (claims : List (Nat × Option Nat)) (g : Nat) : State × Option (Option Nat) :=
  let x := s.part p
  let taken := claimed claims
  let es := (k.idEntries g).filter fun a => !taken.contains a
  let free := es.filter fun a => x.rd (a + 8) 4 == noSlot
  let pick := Config.freeNat s.fresh
  let room := ((x.collU? k.uid).getD k).stashRoom claims
  if (claims.lookup g).isSome then (s, claims.lookup g)
  else if (x.idFind k g).isSome then (s, some (x.idFind k g))
  else if (((x.collU? k.uid).getD k).stash.lookup g).isSome then (s, some none)
  else if !free.isEmpty then (s.bump, some (some (free.getD (pick % free.length) 0)))
  else if es.isEmpty then (s, if 0 < room then some none else none)
  else
    let a := es.getD (pick % es.length) 0
    let t := s.bump.wrMem p none a (idEntry 0 noSlot)
    match s.idStash p k.uid room (t.idPlace p none k (a :: taken) (displaceMax - 1) (x.rd a 8) (x.rd (a + 8) 4)) with
    | (s, true) => (s, some (some a))
    | (s, false) => (s, none)

/-- The entries for the ids of a mutation's new versions are reserved in turn; none where one cannot be. -/
def State.idClaimAll (s : State) (p : PartNo) (k : Coll) (ids : List Nat) : State × Option (List (Nat × Option Nat)) :=
  let others := s.idClaims p k.uid
  ids.foldl (fun a g =>
    match a.2 with
    | none => a
    | some own =>
      let r := a.1.idClaim p k (own ++ others) g
      (r.1, r.2.map fun e => own ++ [(g, e)])) (s, some [])

/-- An id is made to name a slot, in the entry reserved for it where there is one (R282); false where the stash is full and the table
cannot take it (R145). -/
def State.idSet (s : State) (p : PartNo) (cid : Option Nat) (c : Coll) (g slot : Nat) : State × Bool :=
  match (s.part p).idFind c g with
  | some a => (s.wrMem p cid (a + 8) (toLe 4 slot), true)
  | none =>
    match (s.part p).collU? c.uid with
    | none => (s, false)
    | some k =>
      let claims := s.idClaims p c.uid
      if (k.stash.lookup g).isSome then (s.modCollU p c.uid fun k => { k with stash := setKey k.stash g slot }, true)
      else
        match claims.lookup g with
        | some (some a) => (s.wrMem p cid a (idEntry g slot), true)
        | some none => (s.modCollU p c.uid fun k => { k with stash := k.stash ++ [(g, slot)] }, true)
        | none => s.idStash p c.uid (k.stashRoom claims) (s.idPlace p cid c (claimed claims) displaceMax g slot)

/-- An id's entry is removed. -/
def State.idClear (s : State) (p : PartNo) (cid : Option Nat) (c : Coll) (g : Nat) : State :=
  match (s.part p).idFind c g with
  | some a => s.wrMem p cid a (idEntry 0 noSlot)
  | none => s.modCollU p c.uid fun k => { k with stash := k.stash.filter fun e => e.1 != g }

/-! ### Posting lists and counts (R153, R158, R191) -/

/-- Where the count of a value of an indexed field lies (R158). -/
def Coll.countAt (c : Coll) (field value : Nat) : Nat :=
  c.postOff + 8 * value + if field = 1 then 8 * 2 ^ ((c.indexed.getD 0 (0, 0)).2) else 0

/-- A count changes by one ADD64 of its home slice's AMU (R158, R427); on a poisoned line it is not performed, which a command's mutation
logs (R428, R557). -/
def State.countAdd (s : State) (p : PartNo) (cid : Option Nat) (c : Coll) (field value : Nat) (d : Int) : State :=
  let a := c.countAt field value
  let (s, bad) := s.reads p [(a, 8)]
  match bad with
  | none => s.wrMem p cid a (toLe 8 (unsign 64 ((s.part p).rd a 8 + d)))
  | some b =>
    match cid with
    | some n => s.logLate n stPoison (toLe 8 ((s.part p).hbmAddr b))
    | none => s

/-- The values of the indexed fields of an attribute word: (field, value). -/
def Coll.fieldValues (c : Coll) (attr : Nat) : List (Nat × Nat) :=
  c.indexed.zipIdx.map fun x => (x.2, attrField attr x.1.1 x.1.2)

/-- The posting lists' bytes, once a list changes: their layout is not specified (R158). -/
def State.openLists (s : State) (p : PartNo) (c : Coll) : State :=
  if c.indexed.isEmpty then s
  else
    let lo := c.postOff + countBytes c.param
    if ((s.part p).mem.default lo).isNone then s else s.modPart p fun x => { x with mem := x.mem.init lo (c.postOff + postBytes c.param) .open }

/-- A slot joins the lists and counts of its word's values (R153, R191). -/
def State.postAdd (s : State) (p : PartNo) (cid : Option Nat) (c : Coll) (attr slot : Nat) : State :=
  let fv := c.fieldValues attr
  let s := fv.foldl (fun s x => s.countAdd p cid c x.1 x.2 1) s
  let s := s.modCollU p c.uid fun k => { k with postings := k.postings ++ fv.map fun x => { field := x.1, value := x.2, slot := slot } }
  s.openLists p c

/-- A slot leaves the counts of its word's values at a stamp; its list membership ends once no command reads below it (R191). -/
def State.postDrop (s : State) (p : PartNo) (cid : Option Nat) (c : Coll) (attr slot stamp : Nat) : State :=
  let fv := c.fieldValues attr
  let s := fv.foldl (fun s x => s.countAdd p cid c x.1 x.2 (-1)) s
  s.modCollU p c.uid fun k => { k with postings := k.postings.map fun e =>
    if e.slot == slot && e.removedAt.isNone && fv.contains (e.field, e.value) then { e with removedAt := some stamp } else e }

/-- A slot's word is replaced by another: it changes lists and counts of the fields whose value changes (R153, R191). -/
def State.postMove (s : State) (p : PartNo) (cid : Option Nat) (c : Coll) (old new slot stamp : Nat) : State :=
  let out := (c.fieldValues old).filter fun x => !(c.fieldValues new).contains x
  let inn := (c.fieldValues new).filter fun x => !(c.fieldValues old).contains x
  let s := out.foldl (fun s x => s.countAdd p cid c x.1 x.2 (-1)) s
  let s := inn.foldl (fun s x => s.countAdd p cid c x.1 x.2 1) s
  let s := s.modCollU p c.uid fun k => { k with postings :=
    (k.postings.map fun e =>
      if e.slot == slot && e.removedAt.isNone && out.contains (e.field, e.value) then { e with removedAt := some stamp } else e) ++
    (inn.map fun x => { field := x.1, value := x.2, slot := slot : Posting }) }
  if inn.isEmpty then s else s.openLists p c

end Sys2Proof.Machine
end

