-- ==== Sys2Proof/Machine/Undo.lean ====
section
/-! DEFINITION. What a mutation that ends before its commit leaves behind is undone (R287, R288). -/

namespace Sys2Proof.Machine

/-- A slot is taken out of a neighbour's edge block (R287). -/
def State.edgeDrop (s : State) (p : PartNo) (k : Coll) (n x : Nat) : State :=
  let es := (s.part p).edges k n
  if es.contains x then s.wrMem p none (k.edgeAt n) (edgeBytes k.degree (es.filter (· != x))) else s

/-- One PENDING version is undone: its back-links, its id-table entry, which names the older version again where there was
one, and its slot (R287). -/
def State.undoRec (s : State) (p : PartNo) (k : Coll) (r : MutRec) : State :=
  match r.slot with
  | none => s
  | some x =>
    if ((s.part p).meta k x).state != slPending then s
    else
      let s := r.backlinks.foldl (fun s n => s.edgeDrop p k n x) s
      let o := ((s.part p).meta k x).prev
      let s := if o = noSlot then s.idClear p none k r.gid else (s.idSet p none k r.gid o).1
      s.wrMem p none (k.metaAt x) (zeros 48)

/-- A message of an origin to the members of its command, in a CMD frame with its tag (R473). -/
def State.tellMembers (s : State) (p : PartNo) (k : Coll) (tag : Nat) (members : List Nat) (body : CmdBody) : State :=
  members.foldl (fun s m =>
    s.sendRouted tCmd (k.members.getD m 0) ((s.part p).feat 0x80) tag 0 16 2 true (.cmd body) (some p)) s

/-- A mesh mutation that ends before apply: every member asked releases its reservations (R288). -/
def State.abortMesh (s : State) (p : PartNo) (k : Coll) (c : Cmd) : State :=
  match c.mesh with
  | some m =>
    if recordLockOps.contains c.op && c.origin.isNone && !m.applying then s.tellMembers p k m.tag m.members .abort else s
  | none => s

/-- What a command that ends before its commit leaves behind is undone. -/
def State.undo (s : State) (c : Cmd) : State :=
  match c.part with
  | none => s
  | some p =>
    match c.coll.bind (s.part p).collU? with
    | none => s
    | some k =>
      let s := s.abortMesh p k c
      match c.run with
      | .mutation m => m.recs.foldl (fun s r => s.undoRec p k r) s
      | _ => s

end Sys2Proof.Machine
end

