-- ==== Sys2Proof/Machine/Kill.lean ====
section
/-! DEFINITION. Killing a command, with or without a re-run (R393, R396, R116), freezing an SQ (R111, R112), and deleting a
queue pair (R117). -/

namespace Sys2Proof.Machine

/-- What a killed command keeps for its re-run (R397): a mutation its reservations and slots, to resume at phase 4 (R286); an
EMB_UPDATE its sums once a commit step is done; a query starts again. -/
def Run.kept : Run → Run
  | .walk _ => .idle
  | .mutation m => .mutation { m with written := false }
  | .update u => if u.stamp = 0 then .idle else .update u
  | .idle => .idle

/-- Whether what a mesh command has sent binds its re-run: apply of a mutation, END of an EMB_UPDATE (R360, R397). -/
def Cmd.meshBound (c : Cmd) : Bool :=
  c.origin.isSome || match c.mesh with | some m => m.applying || m.endSent | none => false

/-- The partition's count of contexts killed by pre-emption or the loss of a core takes those of a command (R412). -/
def State.countKills (s : State) (cid : Nat) : State :=
  let n := (s.ctxs.filter fun x => x.cid == cid && x.state != .leaving).length
  match (s.cmd? cid).bind (·.part) with
  | some p => s.modPart p fun x => { x with acct := { x.acct with kills := (x.acct.kills + n) % 2 ^ 64 } }
  | none => s

/-- A command killed for re-run returns to the head of its class in the admission queue, with its read stamp, admission time,
deadline and range lock (R396). A commit phase that has begun runs in the AMUs and finishes without the contexts (R285, R346). A command
past its commit point is left to finish (R397, R398). -/
def State.killRerun (s : State) (cid : Nat) (preempted : Bool) : State :=
  match s.cmd? cid with
  | none => s
  | some c =>
    let s := if preempted then s.countKills cid else s
    if c.phase = .committing then s.leave cid else
    let s := if c.meshBound then s else match c.part with
      | some p => match c.coll.bind (s.part p).collU? with | some k => s.abortMesh p k c | none => s
      | none => s
    (s.leave cid).modCmd cid fun c =>
      { c with phase := if c.phase = .running then .queued else c.phase, rerun := true, spill := 0,
               run := if c.mesh.isSome && !c.meshBound && recordLockOps.contains c.op then .idle else c.run.kept
               mesh := if c.meshBound then c.mesh else c.mesh.bind fun m =>
                 if c.op = 0x51 then some { m with incarnation := m.incarnation + 1, partials := [] }
                 else if c.op = 0x54 then some { m with asking := false, waiting := [] } else none
               preempts := if preempted then c.preempts + 1 else c.preempts }

/-- A command ends without a completion: what it holds is undone and released (R116, R287). A mutation or EMB_UPDATE whose
commit phase has begun finishes its apply and stamp first: it stays, as an orphan, until its commit step (R71, R117). The origin's own share
of a mesh mutation that has not begun its commit is undone though the members apply theirs (DESIGN CHOICE, log 48). -/
def State.endCmd (s : State) (cid : Nat) : State :=
  match s.cmd? cid with
  | none => s
  | some c =>
    if c.phase = .committing then s.modCmd cid fun c => { c with orphan := true }
    else (s.undo c).drop cid

/-- A shadow scan is discarded, its sample with it (R203). -/
def State.dropShadow (s : State) (c : Cmd) : State :=
  match c.part with
  | some p => ((s.undo c).drop c.id).modPart p fun x => { x with shadows := x.shadows.filter fun q => q.stamp != c.readStamp }
  | none => s.drop c.id

/-- Every command that satisfies a test ends without a completion. -/
def State.endWhere (s : State) (f : Cmd → Bool) : State :=
  ((s.cmds.filter f).map (·.id)).foldl State.endCmd s

/-- A command is applied and stamped: it leaves its contexts and lock, and its completion is settled but not yet due. -/
def State.settle (s : State) (cid : Nat) (r : Compl) : State :=
  (s.finish cid r).modCmd cid fun c => { c with phase := .flushing }

/-- In place of a member index: the share of the origin itself (R288). -/
abbrev selfMember : Nat := 0xFFFF

/-- The completion of a mesh command whose shares have all reported (R288, R361): the totals, or where a share failed after apply the status
of the failing member of lowest index (DESIGN CHOICE, log 27). -/
def Cmd.totalled (c : Cmd) (m : MeshWait) : Cmd :=
  match bestBy (fun a b => decide (a.1 < b.1)) m.failed with
  | some f => { c with phase := .done, status := f.2, count := 0, stamp := 0, work := 0 }
  | none => { c with phase := .done, count := c.count + m.count, stamp := max c.stamp m.stamp, work := min 0xFFFF (c.work + m.work) }

/-- A share of a mesh command has reported; once none is awaited the command completes. -/
def State.reported (s : State) (cid member : Nat) : State :=
  s.modCmd cid fun c =>
    match c.mesh with
    | none => c
    | some m =>
      let m := { m with waiting := m.waiting.filter (· != member) }
      let c := { c with mesh := some m }
      if m.waiting.isEmpty && c.phase == .flushing then c.totalled m else c

/-- A share of a mesh mutation fails after apply: the command waits for the other shares, which are commands of their own (R288). -/
def State.shareFailed (s : State) (cid member waits status : Nat) : State :=
  (s.modCmd cid fun c => { c with mesh := c.mesh.map fun m => { m with failed := m.failed ++ [(member, status)] } }).reported cid waits

/-- The member index of this device in a command's collection. -/
def State.ownIndex (s : State) (c : Cmd) : Nat :=
  match c.part.bind fun p => c.coll.bind (s.part p).collU? with
  | some k => k.memberIndex
  | none => selfMember

/-- Whether a command is the origin of a mesh mutation whose apply has been sent (R288). -/
def Cmd.appliesAtOrigin (c : Cmd) : Bool :=
  recordLockOps.contains c.op && c.origin.isNone && match c.mesh with | some m => m.applying | none => false

/-- A command is torn down and completes with a status (R399): PENDING versions are undone. The origin of a mesh mutation loses its own
share only once apply has been sent. -/
def State.tearDown (s : State) (cid : Nat) (status : Nat) (cause : Bytes := []) : State :=
  match s.cmd? cid with
  | none => s
  | some c =>
    if c.phase = .done then s
    else if c.appliesAtOrigin && c.phase == .running then
      ((s.undo c).settle cid {}).shareFailed cid (s.ownIndex c) selfMember status
    else (s.undo c).fail cid status cause

/-- An I/O SQ freezes on a freezing error of a class, logged as an entry (R111); an SQ already frozen stays so, and the class
joins those of the freeze (R112, R115). A late fault that freezes nothing (R557) is no error of the freeze (DESIGN CHOICE, log 48). -/
def State.freeze (s : State) (fn : Fn) (qid seq cls : Nat) : State :=
  s.modPair fn qid fun q =>
    if q.frozen then { q with freezeClasses := addOnce q.freezeClasses cls }
    else { q with frozen := true, freezeSeq := seq, freezeClasses := [cls], freezeCount := satInc 0xFFFF q.freezeCount }

/-- A RESTART_QUEUE of a frozen pair that is deleted fails, after the DELETE_QUEUE_PAIR's completion (R113). -/
def State.failRestart (s : State) (deleter : Option Nat) (cid : Nat) : State :=
  (s.fail cid stInvalidField (toLe 4 16)).modCmd cid fun c => { c with after := deleter }

/-- The deletion of a pair begins (R117): DELETING is set, the waiting restarts of it fail after the deletion (R113), its
commands are killed. -/
def State.startDelete (s : State) (fn : Fn) (qid : Nat) (deleter : Option Nat) : State :=
  match s.pair? fn qid with
  | none => s
  | some q =>
    let t := s.modPair fn qid fun q => { q with deleting := true, restart := none, restartMore := [], deleters := q.deleters ++ deleter.toList }
    let t := ((q.restart.map (·.cid)).toList ++ q.restartMore).foldl (fun t cid => t.failRestart deleter cid) t
    t.endWhere fun c => c.fn == fn && c.qid == qid

/-- Whether a deletion can end: no commit phase of the pair's commands is still to finish. -/
def State.deleteReady (s : State) (fn : Fn) (qid : Nat) : Bool := !s.cmds.any fun c => c.fn == fn && c.qid == qid

/-- The pair is gone: its DELETE_QUEUE_PAIR commands complete in order (R117); READY falls with the admin pair (R83). -/
def State.endDelete (s : State) (fn : Fn) (qid : Nat) : State :=
  match s.pair? fn qid with
  | none => s
  | some q =>
    let t := { s with pairs := s.pairs.filter fun x => !(x.fn == fn && x.qid == qid) }
    let t := (q.deleters.foldl (fun x cid => ((x.1.finish cid {}).modCmd cid fun c => { c with after := x.2 }, some cid)) (t, none)).1
    if t.pairs.any (fun x => x.fn == fn) || (t.fnAt fn).qmEnable then t
    else t.modFn fn fun f => { f with qmReady := false }

/-- Every pair that satisfies a test is deleted at once, its orphans left to finish (R70, R74, R403). -/
def State.deletePairs (s : State) (f : Pair → Bool) : State :=
  (s.pairs.filter f).foldl (fun s q =>
    let t := s.startDelete q.fn q.qid none
    t.endDelete q.fn q.qid) s

end Sys2Proof.Machine
end

