-- ==== Sys2Proof/Machine/Queue.lean ====
section
/-! DEFINITION. Queue pairs (R77 to R117, R602): doorbells, fetching, completions, freezing, enabling and disabling a function's
queues. -/

namespace Sys2Proof.Machine

/-- The pairs a function may hold, the admin pair included (R78, R81). -/
def State.maxPairs (s : State) (fn : Fn) : Nat :=
  match fn with
  | .pf => 256
  | .vf p => if (s.part p).present then (s.part p).qpQuota else 0

/-! ### Doorbells (R84, R85) -/

/-- A doorbell write that the device ignores is logged with its function, qid and value (R85, R560 HOST event 1). -/
def State.ignoreDoorbell (s : State) (fn : Fn) (qid : Nat) (v : Word32) : State :=
  s.logHost 1 fn qid scQueue 0 [(28, toLe 4 v.toNat)]

/-- SQ_TAIL_DOORBELL (R84, R85, R111, R602): the tail moves; an admin entry whose read failed is fetched again. A data-path restart
has deleted the I/O pairs, so a doorbell write to one is ignored and logged as to any pair that is not VALID (R74, R85). -/
def execSqTailDoorbell (fn : Fn) (qid : Nat) (value : Word32) (s : State) : Res :=
  .next <|
    if !s.barOpen fn then s
    else
      let v := value.toNat % 65536
      match s.pair? fn qid with
      | some q =>
        if q.deleting || q.sqSize ≤ v then s.ignoreDoorbell fn qid value
        else s.modPair fn qid fun q => { q with tail := v, fetchFailed := false }
      | none => s.ignoreDoorbell fn qid value

/-- CQ_HEAD_DOORBELL (R84, R85): entries are released, never more than the device has written. -/
def execCqHeadDoorbell (fn : Fn) (qid : Nat) (value : Word32) (s : State) : Res :=
  .next <|
    if !s.barOpen fn then s
    else
      let v := value.toNat % 65536
      match s.pair? fn qid with
      | some q =>
        if q.deleting || q.cqSize ≤ v ||
            (q.cqTail + q.cqSize - q.cqHead) % q.cqSize < (v + q.cqSize - q.cqHead) % q.cqSize then s.ignoreDoorbell fn qid value
        else s.modPair fn qid fun q => { q with cqHead := v }
      | none => s.ignoreDoorbell fn qid value

/-! ### Fetching (R88, R89, R101, R103, R111) -/

/-- The round-robin index of a pair: its partition's SQs in turn, the PF's admin pair in a turn of its own (R89). -/
def Pair.turn (q : Pair) : Nat :=
  if q.qid = 0 then (match q.fn with | .pf => 16 | .vf p => p.val)
  else match q.part with | some p => p.val | none => 16

/-- A pair's place among its partition's SQs. -/
def Pair.key (q : Pair) : Nat := q.fn.idx * 65536 + q.qid

/-- I/O commands of host queues in flight: on the device, or of a partition (R88). -/
def State.ioInflight (s : State) (p : Option PartNo) : Nat :=
  (s.cmds.filter fun c => !c.isAdmin && c.origin.isNone && !c.shadow && (p.isNone || c.part == p)).length

/-- Commands of one SQ in flight (R82). -/
def State.inflight (s : State) (fn : Fn) (qid : Nat) : Nat := (s.cmds.filter fun c => c.fn == fn && c.qid == qid && c.origin.isNone).length

/-- Whether the QM may fetch from a pair now: from a VF only while its TDI is CONFIG_UNLOCKED or RUN (R515). A PF in D3hot does not
stop it: R45 names only the commands that are there when the PF enters D3hot (DESIGN CHOICE, log 48). -/
def State.canFetch (s : State) (q : Pair) : Bool :=
  (match q.fn with | .pf => true | .vf _ => (s.fnAt q.fn).tdi == .unlocked || (s.fnAt q.fn).tdi == .run) &&
  q.head != q.tail && !q.frozen && !q.deleting && q.fence.isNone && !q.fetchFailed && q.restart.isNone && s.barLive &&
  (if q.qid = 0 then s.inflight q.fn 0 < 16
   else s.hif.dpReady && s.ioInflight none < 16384 &&
     match q.part with
     | some p => !(s.part p).stopped && s.ioInflight (some p) < s.inflightLimit p
     | none => false)

/-- The pair the QM fetches from next: up to WEIGHT entries from one SQ, then the next partition's turn (R89). -/
def State.nextFetch (s : State) : Option Pair :=
  let ok := s.pairs.filter s.canFetch
  match ok.find? fun q => 0 < s.turnLeft && q.turn == s.rrPart && q.key == getKey s.rrLast s.rrPart 0 with
  | some q => some q
  | none =>
    ((List.range 17).map fun i => (s.rrPart + 1 + i) % 17).findSome? fun t =>
      let l := ok.filter fun q => q.turn == t
      let last := getKey s.rrLast t 0
      match bestBy (fun a b => a.key < b.key) (l.filter fun q => last < q.key) with
      | some q => some q
      | none => bestBy (fun a b => a.key < b.key) l

/-- The round robin moves on with one fetch from a pair. -/
def State.tookFetch (s : State) (q : Pair) : State :=
  let same := 0 < s.turnLeft && q.turn == s.rrPart && q.key == getKey s.rrLast s.rrPart 0
  { s with rrPart := q.turn, rrLast := setKey s.rrLast q.turn q.key, turnLeft := (if same then s.turnLeft else q.weight) - 1 }

/-- A partition's clusters ungate: a command, a frame or a background task of it is due (R553). -/
def State.ungate (s : State) (p : PartNo) : State :=
  let f : Nat → Cluster → Cluster := fun n c =>
    if (s.part p).clusters.getLsbD n then { c with gated := false, idleSince := s.time.clk } else c
  { s with ras := { s.ras with clusters := s.ras.clusters.mapIdx f } }

/-- A fetched command wakes the device (R118, R553, R554): entry starts again, the partition's clusters ungate, self-refresh ends. -/
def State.wake (s : State) (p : Option PartNo) : State :=
  let s := match p with | some p => s.ungate p | none => s
  { s with
    power := { s.power with
      awake := s.power.awake || s.power.ps == 2
      idleSince := s.time.clk
      entry := s.power.entry.map fun e => { e with step := 0 } }
    hbm := { s.hbm with selfRefresh := false } }

/-- Whether a partition's background work runs now. -/
def State.worksNow (s : State) (p : PartNo) : Bool := (s.part p).present && s.hif.dpReady && !(s.part p).stopped

/-- Whether the device's own tasks run: in PS2 they pause until it wakes (R554). -/
def State.tasksRun (s : State) (p : PartNo) : Bool := s.worksNow p && (s.power.ps != 2 || s.power.awake)

/-- Whether a VF's TDI is in CONFIG_LOCKED or RUN (R53, R80). -/
def State.tdiLocked (s : State) (p : PartNo) : Bool := (s.fnAt (.vf p)).tdi == .locked || (s.fnAt (.vf p)).tdi == .run

/-- The record ids a mutation's input names: the first 8 bytes of each record, whose size its parameters give (R105, R278);
`size` is that size. -/
def recordIds (count size : Nat) (input : Bytes) : List Nat := (List.range count).map fun i => rd input (i * size) 8

/-- What the QM finds wrong with an entry as it fetches it (R80, R90, R97). -/
def State.fetchErr (s : State) (c : Cmd) : Option Err :=
  firstErr
    [ opcodeErr c, headerErr c,
      if c.isAdmin then none
      else match c.part with
        | some p => failIf (c.fn == .pf && s.tdiLocked p) { st := stTdiState }
        | none => none ]

/-- Whether an admin command must be held as it is fetched: before DP_READY, or while its partition is reconfigured
(R75, R403). -/
def State.mustHold (s : State) (c : Cmd) : Bool :=
  !earlyOps.contains c.op &&
  (!s.hif.dpReady && s.power.ps != 3 || (match c.fn with | .vf p => (s.part p).stopped | .pf => false))

/-- The interval a locking command locks: its records' ids, or the whole id space (R105). -/
def lockRange (c : Cmd) (ids : List Nat) : Option (Nat × Nat) :=
  if wholeLockOps.contains c.op then some (0, 2 ^ 64 - 1)
  else if recordLockOps.contains c.op then
    match bestBy (· < ·) ids, bestBy (fun a b => decide (b < a)) ids with
    | some lo, some hi => some (lo, hi)
    | _, _ => none
  else none

/-- Where a new I/O command stands: held outside the admission queue for its lock, DEP or as a FENCE, or in the queue (R387). -/
def Cmd.startPhase (c : Cmd) (locks : Bool) : Phase := if locks || c.dep || c.op == 0x7F then .waiting else .queued

/-- An I/O command takes its place in its partition (R105, R387, R412): its range lock, the bytes of its fetch, a fence. -/
def State.acceptIo (s : State) (q : Pair) (c : Cmd) (ids : Cmd → List Nat) : State :=
  let lock := lockRange c (ids c)
  let s := s.addCmd { c with phase := c.startPhase lock.isSome }
  let s := match lock, c.part with
    | some (lo, hi), some p => { s with locks := s.locks ++ [{ cid := c.id, part := p, handle := c.handle, lo := lo, hi := hi }] }
    | _, _ => s
  let s := match c.part with
    | some p => s.modPart p fun x => { x with acct := { x.acct with hostBytes :=
        (x.acct.hostBytes + 64 + c.data.param.length + c.data.inList.length + c.data.outList.length + c.data.input.length) % 2 ^ 64 } }
    | none => s
  if c.op = 0x7F then s.modPair q.fn q.qid fun q => { q with fence := some c.id } else s

/-- The entry is a command of its pair: header and opcode are checked, a locking command takes its entry in fetch order (R106),
a FENCE stops fetching behind it (R103). -/
def State.accept (s : State) (q : Pair) (entry : Bytes) (data : HostData) (ids : Cmd → List Nat) : State :=
  let part := if q.qid = 0 then q.fn.part? else q.part
  let c : Cmd := { id := s.nextCid, fn := q.fn, qid := q.qid, part := part, packet := fit 64 entry, data := data,
                   fetchTime := s.now, heldSince := s.now, phase := .ready,
                   mode := match part with | some p => s.modeOf p | none => s.devMode }
  match s.fetchErr c with
  | some e =>
    let s := s.addCmd { c with phase := .done, status := e.st, cause := e.cause }
    if !c.isAdmin && c.op = 0x7F then s.modPair q.fn q.qid fun q => { q with fence := some c.id } else s
  | none =>
    let s := if earlyOps.contains c.op && c.isAdmin then s else s.wake part
    if c.isAdmin then s.addCmd { c with phase := if s.mustHold c then .held else .ready }
    else s.acceptIo q c ids

/-- SQ_ENTRY_FETCH_FAILED (R602): no completion; HOST event 6; an I/O SQ freezes with class 4, an admin SQ waits for the next
doorbell. -/
def execSqEntryFetchFailed (s : State) : Res :=
  .next <|
    match s.nextFetch with
    | none => s
    | some q =>
      let s := s.tookFetch q
      let seq := s.ras.nextSeq
      let s := s.logHost 6 q.fn q.qid (if q.qid = 0 then scCommand else scQueue) stHostAccess [(28, toLe 4 q.head)]
      if q.qid = 0 then s.modPair q.fn 0 fun q => { q with fetchFailed := true }
      else s.freeze q.fn q.qid seq 4

/-! ### Completions (R86, R87, R94, R111) -/

/-- The 32 B completion (R94). -/
def Cmd.cqe (c : Cmd) (head now : Nat) (phase : Bool) : Bytes :=
  toLe 2 c.ctag ++ toLe 2 head ++ toLe 2 c.status ++ toLe 2 c.core ++ toLe 4 c.count ++ toLe 4 c.logSeq ++ toLe 8 c.stamp ++
  toLe 4 (min 0xFFFFFFFF (now - c.fetchTime)) ++ toLe 2 c.work ++ toLe 2 (if phase then 0x8000 else 0)

/-- The COMMAND entry of an error completion, which its LOG_SEQ names, and the freeze it brings on an I/O pair (R94, R111, R112, R556);
SELF_TEST_FAILED names the first entry of a failed item (R125). A class that is not logged names none. -/
def State.logError (s : State) (c : Cmd) : State :=
  let cls := statusClass c.status
  if !freezing cls then if 2 ≤ cls then s.modCmd c.id fun c => { c with logSeq := 0 } else s
  else
    let q := s.pair? c.fn c.qid
    let frozen := (q.map (·.frozen)).getD false
    let seq := s.ras.nextSeq
    let s := s.log { seq := 0, status := c.status, kind := kCommand, fn := some c.fn, part := c.part, unit := c.qid,
                     scope := if c.isAdmin then scCommand else scQueue,
                     nested := !c.isAdmin && frozen, related := if !c.isAdmin && frozen then (q.map (·.freezeSeq)).getD 0 else 0,
                     detail := detail [(24, toLe 2 c.ctag), (26, toLe 2 c.core), (28, toLe 1 c.op), (32, c.cause.take 32)] }
    let s := s.modCmd c.id fun c => { c with logSeq := if c.status = stTestFailed then c.logSeq else seq }
    if c.isAdmin then s else s.freeze c.fn c.qid seq cls

/-- The CQ's MSI-X vector is signalled. -/
def State.signal (s : State) (q : Pair) : State :=
  (s.modPair q.fn q.qid fun q => { q with unsignalled := 0 }).msix q.fn q.vector

/-- The signalling rule for one completion (R87). -/
def State.signalRule (s : State) (q : Pair) (c : Cmd) : State :=
  if q.qid = 0 || 2 ≤ statusClass c.status then s.signal q
  else if c.irqSuppress then s
  else if q.unsignalled + 1 ≥ q.aggCount then s.signal q
  else s.modPair q.fn q.qid fun q =>
    { q with unsignalled := q.unsignalled + 1, unsignalledSince := if q.unsignalled = 0 then s.now else q.unsignalledSince }

/-- The place after the CQ tail; the phase inverts when it wraps (R86). -/
def Pair.advanceCq (q : Pair) : Pair :=
  if q.cqTail + 1 = q.cqSize then { q with cqTail := 0, phase := !q.phase } else { q with cqTail := q.cqTail + 1 }

/-- A CQ is full when (tail + 1) mod entries equals head (R84, R86). -/
def Pair.cqFull (q : Pair) : Bool := (q.cqTail + 1) % q.cqSize == q.cqHead

/-- Relaxed Ordering is enabled: in the PF's Device Control, which governs every function (R44, R95; PRESUMED, log 23). -/
def State.relaxed (s : State) : Bool := (s.cfgBits .pf 0x58).getLsbD 4

/-- Where a command's completion must first wait for a zero-length read after its last output write (R95). -/
def State.readFirst (s : State) (c : Cmd) : Option Nat := if s.relaxed && !c.readBack then c.outAt else none

/-- A completion write that met a page not present asks for it, where the allocation has room (R86, R381). -/
def State.askCompletion (s : State) (q : Pair) (c : Cmd) : State :=
  if c.pageWait == some true then s
  else if !s.mayAsk q.fn then s.modCmd c.id fun c => { c with pageWait := some false }
  else (s.modCmd c.id fun c => { c with pageWait := some true }).sendPageRequest q.fn q.pasid ((q.cqBase + 32 * q.cqTail) / 4096)

/-- Completion writes whose page requests waited for the allocation. -/
def State.askCompletions (s : State) (fn : Fn) : State :=
  (s.cmds.filter fun c => c.fn == fn && c.pageWait == some false).foldl (fun s c =>
    match s.pair? c.fn c.qid with | some q => s.askCompletion q c | none => s) s

/-- The page request of a completion write has been answered (R86). -/
def State.completionAnswered (s : State) (c : Cmd) : State :=
  if c.pageWait == some true then (s.pageAnswered c.fn).askCompletions c.fn else s

/-- One completion written into a pair's CQ and signalled. -/
def State.post (s : State) (q : Pair) (c : Cmd) : State :=
  let s := s.queueAccess q (q.cqBase + 32 * q.cqTail)
  let s := s.emit (.hostWrite q.fn (q.cqBase + 32 * q.cqTail) (c.cqe q.head s.now q.phase))
  (s.modPair q.fn q.qid Pair.advanceCq).signalRule q c

/-- What a SEARCH's completion brings to its collection's report, finishing time and shadow queue (R183, R202, R203, R205). -/
def State.searchDone (s : State) (c : Cmd) : State :=
  match c.part with
  | none => s
  | some p =>
    if (c.op == 0x30 || c.op == 0x31) && statusClass c.status ≤ 1 then
      let s := s.modCollU p (c.coll.getD 0) fun k =>
        { k with
          finish := k.finish + (s.now - c.walkEnd) - k.finish / 256
          report := { k.report with
            searches := (k.report.searches + 1) % 2 ^ 64
            flatScans := if c.flat then (k.report.flatScans + 1) % 2 ^ 64 else k.report.flatScans
            partials := if c.status.testBit 1 && statusClass c.status = 1 then (k.report.partials + 1) % 2 ^ 64 else k.report.partials } }
      if c.sampled then
        if (s.part p).shadows.length ≥ 256 then
          s.modCollU p (c.coll.getD 0) fun k => { k with report := { k.report with dropped := (k.report.dropped + 1) % 2 ^ 64 } }
        else s.modPart p fun x => { x with shadows := x.shadows ++
          [{ handle := c.handle, stamp := c.readStamp, query := c.input, qtype := c.p 10 1, filter := c.data.param.drop 64,
             k := c.p 0 2, result := c.resultIds }] }
      else s
    else s

/-- The partition's counters of completions and deadline misses (R412). -/
def State.countDone (s : State) (c : Cmd) : State :=
  match c.part with
  | some p =>
    if c.isAdmin then s
    else
      let miss := c.status = stNoContext || c.status = stNoLock || (statusClass c.status = 1 && c.status.testBit 1)
      s.modPart p fun x => { x with acct := { x.acct with
        completed := (x.acct.completed + 1) % 2 ^ 64
        misses := if miss then (x.acct.misses + 1) % 2 ^ 64 else x.acct.misses } }
  | none => s

/-- Whether a finished command's completion may be written now: room in the CQ (R86), 100 ns past the commit stamp (R168),
and after the completion it must follow (R113, R117). -/
def State.mayPost (s : State) (q : Pair) (c : Cmd) : Bool :=
  !q.cqFull && !q.deleting && (c.commitStamp == 0 || c.commitStamp + 100 ≤ s.time.stampClock) &&
  (match c.after with | some a => (s.cmd? a).isNone | none => true)

/-- A completed command leaves the device; idleness counts from the last one (R98). -/
def State.forget (s : State) (cid : Nat) : State :=
  { s with cmds := s.cmds.filter fun c => c.id != cid, power := { s.power with idleSince := s.time.clk } }.reap

/-- AGG_TIME: AGG_TIME µs after the first unsignalled completion the vector is signalled (R87). -/
def execAggTime (fn : Fn) (qid : Nat) (s : State) : Res :=
  .next <|
    match s.pair? fn qid with
    | some q => if 0 < q.unsignalled && q.unsignalledSince + 1000 * q.aggTime ≤ s.now then s.signal q else s
    | none => s

/-- HELD_TOO_LONG: a command held for DP_READY for more than 3 s completes with class 7 (R75). -/
def execHeldTooLong (cid : Nat) (s : State) : Res :=
  .next <|
    s.onCmd cid (fun c => c.phase == .held && !s.hif.dpReady && c.heldSince + 3000000000 < s.now) fun _ => s.fail cid stHeldTooLong

/-! ### Enabling and disabling (R83) -/

/-- The admin pair of a function, armed from its registers with every index at 0 (R81, R83). -/
def State.armAdmin (s : State) (fn : Fn) : State :=
  let f := s.fnAt fn
  let q : Pair := {
    fn := fn, qid := 0, part := fn.part?
    sqBase := f.asqLo.toNat + 2 ^ 32 * f.asqHi.toNat, cqBase := f.acqLo.toNat + 2 ^ 32 * f.acqHi.toNat
    sqSize := bits f.aqSize.toNat 0 12 + 1, cqSize := bits f.aqSize.toNat 16 12 + 1 }
  { s with pairs := s.pairs ++ [q] }.modFn fn fun f => { f with qmReady := true }

/-- QM_ENABLE: ENABLE from 0 to 1 arms the admin pair; an ineligible write is ignored and logged as HOST event 2 (R83). -/
def execQmEnable (fn : Fn) (s : State) : Res :=
  .next <|
    let f := s.fnAt fn
    if !s.barOpen fn || f.qmEnable then s
    else if bits f.aqSize.toNat 0 12 = 0 || bits f.aqSize.toNat 16 12 = 0 || s.maxPairs fn = 0 || f.qmReady then
      s.logHost 2 fn 0 scCommand 0 [(28, toLe 4 1)]
    else (s.modFn fn fun f => { f with qmEnable := true }).armAdmin fn

/-- QM_DISABLE: every pair of the function is deleted as DELETE_QUEUE_PAIR does (R83). What a killed admin command has begun outside the
queues (a power-state entry, a self-test, a partition's stop) goes on: R121 names only resets (DESIGN CHOICE, log 48). -/
def execQmDisable (fn : Fn) (s : State) : Res :=
  .next <|
    if !s.barOpen fn || !(s.fnAt fn).qmEnable then s
    else
      let t := s.modFn fn fun f => { f with qmEnable := false }
      let t := (t.pairs.filter fun q => q.fn == fn).foldl (fun s q => s.startDelete q.fn q.qid none) t
      if t.pairs.any (fun q => q.fn == fn) then t else t.modFn fn fun f => { f with qmReady := false }

/-- DELETE_QUEUE_PAIR_DONE: the device has stopped reading and writing the pair's memory (R117). -/
def execDeleteQueuePairDone (fn : Fn) (qid : Nat) (s : State) : Res :=
  .next <|
    match s.pair? fn qid with
    | some q => if q.deleting && s.deleteReady fn qid then s.endDelete fn qid else s
    | none => s

/-! ### Creation, deletion, restart -/

/-- CREATE_QUEUE_PAIR's conditions (R79, R98, R120). -/
def State.createPairErr (s : State) (c : Cmd) : Option Err :=
  let f := fun off len => c.f off len
  firstErr
    [ reservedWord c.packet 0 40 0x7FF00000, reservedErr c.packet 0 [(47, 1), (50, 14)],
      failIf (s.power.ps == 3) { st := stDataPathOff },
      failIf (f 16 8 % 4096 != 0) (errAt stInvalidField 16),
      failIf (f 24 8 % 4096 != 0) (errAt stInvalidField 24),
      failIf (f 32 2 == 0 || (s.pair? c.fn (f 32 2)).isSome) (errAt stInvalidField 32),
      failIf (f 34 2 == 0) (errAt stInvalidField 34),
      failIf (f 36 2 < f 34 2) (errAt stInvalidField 36),
      failIf (f 38 2 == 1 || (match c.fn with | .pf => 2048 | .vf _ => 64) ≤ f 38 2) (errAt stInvalidField 38),
      failIf (f 44 1 == 0 || 16 < f 44 1) (errAt stInvalidField 44),
      failIf (match c.fn with | .pf => 16 ≤ f 45 1 || !(s.part (Fin.ofNat 16 (f 45 1))).present | .vf _ => f 45 1 != 0) (errAt stInvalidField 45),
      failIf (s.maxPairs c.fn ≤ (s.pairs.filter fun q => q.fn == c.fn).length || 4096 ≤ s.pairs.length) { st := stQueueLimit },
      failIf (s.maxPairs c.fn ≤ f 32 2) (errAt stInvalidField 32) ]

/-- CREATE_QUEUE_PAIR (R77 to R79, R98): the pair is VALID with every index at 0. -/
def execCreateQueuePair (cid : Nat) (s : State) : Res :=
  .next <| s.admin cid 0x02 (fun _ => true) s.createPairErr fun c =>
    let f := fun off len => c.f off len
    let q : Pair := {
      fn := c.fn, qid := f 32 2
      part := match c.fn with | .pf => some (Fin.ofNat 16 (f 45 1)) | .vf p => some p
      sqBase := f 16 8, cqBase := f 24 8, sqSize := f 34 2 + 1, cqSize := f 36 2 + 1, vector := f 38 2
      pasid := if (f 40 4).testBit 31 then some (f 40 4 % 2 ^ 20) else none
      weight := f 44 1, aggCount := f 46 1, aggTime := f 48 2 }
    { s with pairs := s.pairs ++ [q] }.finish cid {}

/-- DELETE_QUEUE_PAIR (R98, R117): DELETING is set and the pair's commands are killed; the completion follows the deletion. -/
def execDeleteQueuePair (cid : Nat) (s : State) : Res :=
  .next <| s.admin cid 0x03 (fun _ => true)
    (fun c => firstErr [reservedErr c.packet 0 [(18, 46)],
      failIf (c.f 16 2 == 0 || (s.pair? c.fn (c.f 16 2)).isNone) (errAt stInvalidField 16)])
    fun c =>
      let t := s.modCmd cid fun c => { c with phase := .flushing }
      match t.pair? c.fn (c.f 16 2) with
      | some q =>
        if q.deleting then t.modPair c.fn (c.f 16 2) fun q => { q with deleters := q.deleters ++ [cid] }
        else t.startDelete c.fn (c.f 16 2) (some cid)
      | none => t

/-- The checks of RESTART_QUEUE (R98, R114). -/
def State.restartErr (s : State) (c : Cmd) : Option Err :=
  firstErr [reservedErr c.packet 0 [(19, 45)], failIf (c.f 18 1 > 1) (errAt stInvalidField 18),
    failIf (c.f 16 2 == 0 || (s.pair? c.fn (c.f 16 2)).isNone) (errAt stInvalidField 16)]

/-- RESTART_QUEUE on a VALID pair (R113, R114): a frozen SQ waits for INFLIGHT 0, and a further command waits with it; a frozen pair that is
being deleted gives 0x2002 after the deletion; any other is left alone. -/
def State.askRestart (s : State) (cid : Nat) (c : Cmd) (flush : Bool) : State :=
  match s.pair? c.fn (c.f 16 2) with
  | some q =>
    if !q.frozen then s.finish cid {}
    else if q.deleting then s.failRestart q.deleters.getLast? cid
    else
      let wait : Pair → Pair := fun q =>
        if q.restart.isNone then { q with restart := some { cid := cid, flush := flush } } else { q with restartMore := q.restartMore ++ [cid] }
      (s.modPair c.fn (c.f 16 2) wait).modCmd cid fun c => { c with phase := .flushing }
  | none => s

/-- RESTART_QUEUE_RESUME (R113, R114). -/
def execRestartQueueResume (cid : Nat) (s : State) : Res :=
  .next <| s.admin cid 0x09 (fun c => c.f 18 1 != 1) s.restartErr fun c => s.askRestart cid c false

/-- RESTART_QUEUE_FLUSH (R113, R114). -/
def execRestartQueueFlush (cid : Nat) (s : State) : Res :=
  .next <| s.admin cid 0x09 (fun c => c.f 18 1 == 1) s.restartErr fun c => s.askRestart cid c true

/-- FLUSHED completions for the entries from SQ_HEAD up to an index, as far as the CQ has room; an entry whose read fails gets
CTAG 0 and HOST event 6 (R113). The list gives each entry's CTAG. -/
def State.flushEntries (s : State) (fn : Fn) (qid upTo : Nat) : List (Option (BitVec 16)) → State
  | [] => s
  | ctag :: l =>
    match s.pair? fn qid with
    | none => s
    | some q =>
      if q.head = upTo || q.cqFull then s
      else
        let s := match ctag with
          | some _ => s
          | none => s.logHost 6 fn qid scQueue stHostAccess [(28, toLe 4 q.head)]
        let s := s.modPair fn qid fun q => { q with head := (q.head + 1) % q.sqSize }
        let q := { q with head := (q.head + 1) % q.sqSize }
        let c : Cmd := { id := s.nextCid, fn := fn, qid := qid, part := q.part, phase := .done, status := stFlushed, fetchTime := s.now,
                         packet := fit 64 ([0, 0] ++ toLe 2 ((ctag.map (·.toNat)).getD 0)) }
        ((s.post q c).countDone c).flushEntries fn qid upTo l

/-- The freeze of a pair ends. -/
def State.unfreeze (s : State) (fn : Fn) (qid : Nat) : State :=
  s.modPair fn qid fun q => { q with frozen := false, freezeSeq := 0, freezeClasses := [], restart := none, restartMore := [], fetchFailed := false }

/-- RESTART_WAIT: with INFLIGHT 0, a RESUME clears FROZEN; a FLUSH first consumes every entry up to the tail as it stands at that
moment (R113). The commands that waited for the same freeze find the SQ not frozen (R114). -/
def execRestartWait (fn : Fn) (qid : Nat) (ctags : List (Option (BitVec 16))) (s : State) : Res :=
  .next <|
    match s.pair? fn qid with
    | none => s
    | some q =>
      match q.restart with
      | none => s
      | some r =>
        if s.inflight fn qid != 0 then s
        else
          let upTo := r.upTo.getD q.tail
          let s := if r.flush then s.modPair fn qid fun q => { q with restart := some { r with upTo := some upTo } } else s
          let t := if r.flush then s.flushEntries fn qid upTo ctags else s
          match t.pair? fn qid with
          | some q' =>
            if r.flush && q'.head != upTo then t
            else q.restartMore.foldl (fun t cid => t.finish cid {}) ((t.unfreeze fn qid).finish r.cid {})
          | none => t

/-- AUTOMATIC_RESTART: with QRESTART in hardware mode, once INFLIGHT is 0 and every class of the freeze is designated; logged
as HOST event 3 naming the freeze (R115). It acts at once when INFLIGHT is 0, so RESTART_WAIT, which tells of an accepted RESTART_QUEUE,
does not read 1 for it before (DESIGN CHOICE, log 48). -/
def execAutomaticRestart (fn : Fn) (qid : Nat) (s : State) : Res :=
  .next <|
    match s.pair? fn qid with
    | none => s
    | some q =>
      match q.part with
      | none => s
      | some p =>
        if q.frozen && q.restart.isNone && !q.deleting && s.inflight fn qid == 0 && !(s.modeOf p).getLsbD mQRestart &&
            q.freezeClasses.all (fun c => ((s.part p).feat 0x16).testBit c) then
          (s.unfreeze fn qid).log
            { seq := 0, kind := kHost, scope := scQueue, repair := true, fn := some fn, part := some p, unit := qid
              related := q.freezeSeq, detail := detail [(24, toLe 1 3)] }
        else s

end Sys2Proof.Machine
end

