-- ==== Sys2Proof/Machine/Scratch.lean ====
section
/-! DEFINITION. The device's own uses of a partition's scratchpad (R245, R264, R350, R352, R356, R426): where each lies, what is free, and
their bytes. -/

namespace Sys2Proof.Machine

/-- Whether a use of scratchpad still holds its place: a stage set until the last command that uses it (R246), a hot row while it is hot, a
directory while its table exists, an overflow store or a spill while its command runs. -/
def State.useLive (s : State) (p : PartNo) (u : ScratchUse) : Bool :=
  match u.kind with
  | .stage => (s.part p).colls.any (fun k => k.uid == u.owner && k.stages.any fun g => g.tag == u.item) ||
      s.cmds.any fun c => c.part == some p && match c.stage with | some g => g.tag == u.item | none => false
  | .hot => (s.part p).colls.any fun k => k.uid == u.owner && k.hotRows.contains u.item
  | .directory => (s.part p).colls.any fun k => k.uid == u.owner
  | .overflow | .spill => s.cmds.any fun c => c.id == u.owner && c.phase != .done

/-- The uses that hold their places. -/
def State.scratchUses (s : State) (p : PartNo) : List ScratchUse := (s.part p).scratchUses.filter (s.useLive p)

/-- The bytes of a use. -/
def ScratchUse.bytes (u : ScratchUse) : Nat := (u.exts.map (·.2)).foldl (· + ·) 0

/-- Free scratchpad in bytes above the host region (R245, R426). -/
def State.scratchFree (s : State) (p : PartNo) : Nat :=
  s.scratchBytes p - ((s.scratchUses p).map ScratchUse.bytes).foldl (· + ·) 0 - (s.part p).feat 0x70 * 2 ^ 20

/-- The lowest byte that a use of the device takes: how far the host region may reach (R426). -/
def State.scratchFloor (s : State) (p : PartNo) : Nat :=
  (((s.scratchUses p).flatMap (·.exts)).map (·.1)).foldl min (s.scratchBytes p)

/-- The free ranges between some ranges in ascending order, up to `hi`. -/
def freeRanges (hi : Nat) : List (Nat × Nat) → Nat → List (Nat × Nat)
  | [], lo => if lo < hi then [(lo, hi - lo)] else []
  | (o, n) :: l, lo => (if lo < o then [(lo, o - lo)] else []) ++ freeRanges hi l (max lo (o + n))

/-- So many bytes taken from the tops of ranges, in turn. -/
def carve : Nat → List (Nat × Nat) → List (Nat × Nat)
  | _, [] => []
  | n, (o, m) :: l => if n = 0 then [] else (o + m - min n m, min n m) :: carve (n - min n m) l

/-- Scratchpad taken for a use, in whole lines from the top of the free space (DESIGN CHOICE, log 16); its earlier place is given up. -/
def State.useScratch (s : State) (p : PartNo) (kind : ScratchKind) (owner item len : Nat) : State :=
  let l := (s.scratchUses p).filter fun u => !(u.kind == kind && u.owner == owner && u.item == item)
  let used := sortBy (fun (a b : Nat × Nat) => decide (a.1 < b.1)) (l.flatMap (·.exts))
  let free := (freeRanges (s.scratchBytes p) used ((s.part p).feat 0x70 * 2 ^ 20)).reverse
  s.modPart p fun x => { x with scratchUses := l ++ [{ kind := kind, owner := owner, item := item, exts := carve (roundUp len 256) free }] }

/-- A use of scratchpad. -/
def PartSt.scratchUse? (x : PartSt) (kind : ScratchKind) (owner item : Nat) : Option ScratchUse :=
  x.scratchUses.find? fun u => u.kind == kind && u.owner == owner && u.item == item

/-- Bytes laid over the ranges of a use: what goes to each. -/
def layOver : List (Nat × Nat) → Bytes → List (Nat × Bytes)
  | [], _ => []
  | (o, n) :: l, bs => (o, bs.take n) :: layOver l (bs.drop n)

/-- A use is written, whole lines at a time. -/
def State.writeUse (s : State) (p : PartNo) (u : ScratchUse) (bs : Bytes) : State :=
  (layOver u.exts (fit (roundUp bs.length 256) bs)).foldl (fun s w => s.wrScratch p (s.sliceOf p) w.1 w.2) s

/-- Scratchpad taken for a use and filled. -/
def State.fillUse (s : State) (p : PartNo) (kind : ScratchKind) (owner item : Nat) (bs : Bytes) : State :=
  let s := s.useScratch p kind owner item bs.length
  match (s.part p).scratchUse? kind owner item with
  | some u => s.writeUse p u bs
  | none => s

/-- The first bytes of a use. -/
def PartSt.useBytes (x : PartSt) (u : ScratchUse) (len : Nat) : Bytes := (u.exts.flatMap fun e => x.sBytes e.1 e.2).take len

/-- Where bytes `lo` to `hi` of a use lie, from the place `at_` its ranges have reached. -/
def usePieces (lo hi : Nat) : List (Nat × Nat) → Nat → List (Nat × Nat)
  | [], _ => []
  | (o, n) :: l, at_ =>
    let a := max lo at_
    let b := min hi (at_ + n)
    (if a < b then [(o + (a - at_), b - a)] else []) ++ usePieces lo hi l (at_ + n)

/-- The first poisoned line among bytes `lo` to `hi` of a use (R424). -/
def PartSt.usePoison (x : PartSt) (u : ScratchUse) (lo hi : Nat) : Option Nat :=
  (usePieces lo hi u.exts 0).findSome? fun e => x.sPoison e.1 e.2

/-- The ownership directories of a partition's mesh tables, each where it has no place yet (R356, R568). -/
def State.placeDirectories (s : State) (p : PartNo) : State :=
  ((s.part p).colls.filter fun k => k.isTable && k.isMesh && ((s.part p).scratchUse? .directory k.uid 0).isNone).foldl
    (fun s k => s.useScratch p .directory k.uid 0 4194304) s

/-- Selection state that has outgrown its area is placed (R264): in scratchpad while more than 1 MiB of it is free, otherwise in the spill
pool of the HBM reserve. -/
def State.placeSpill (s : State) (p : PartNo) (cid bytes : Nat) : State :=
  if bytes = 0 then s
  else if 2 ^ 20 < s.scratchFree p then s.useScratch p .spill cid 0 (min bytes (s.scratchFree p))
  else s.modCmd cid fun c => { c with spilled := bytes }

/-- An overflow store of the coalescing tables is placed, as spilled state is (R350). -/
def State.placeOverflow (s : State) (p : PartNo) (cid bytes : Nat) : State :=
  if bytes = 0 then s
  else if 2 ^ 20 < s.scratchFree p then s.useScratch p .overflow cid 0 (min bytes (s.scratchFree p))
  else s.modCmd cid fun c => { c with spilled := bytes }

end Sys2Proof.Machine
end

