-- ==== Sys2Proof/Machine/Thyme.lean ====
section
/-! DEFINITION. Thyme, the stamp clock and PPS_IN (R159, R160, R544 to R550): the tick of the 25 MHz reference, stamps,
the servo, and the commands of the THYME block. -/

namespace Sys2Proof.Machine

/-- One nanosecond in the unit of the carried fraction (R544). -/
abbrev nsUnit : Nat := 2 ^ 32

/-! ### The tick -/

/-- What one tick adds to Thyme, in 2^-32 ns: 40 ns × (1 + rate), rate in units of 1/256 ppb (R544, R547). -/
def TimeSt.tickUnits (t : TimeSt) : Int := 40 * 2 ^ 32 + t.rate * (40 * 2 ^ 32) / 256000000000

/-- The part of the slew one tick applies: at most 100 ppm of 40 ns (R550). -/
def TimeSt.slewUnits (t : TimeSt) : Int :=
  let top : Int := 40 * 2 ^ 32 / 10000
  max (-top) (min top t.slewLeft)

/-- The stamp clock after Thyme has moved by some units to `total`: equal to Thyme, or, while ahead of it, counting at
0.999 of Thyme's rate (R159). -/
def TimeSt.stampAfter (t : TimeSt) (delta : Nat) (total : Nat) : Nat :=
  let st := t.stampClock * nsUnit + t.stampFrac
  if t.thyme * nsUnit + t.thymeFrac < st then max total (st + delta * 999 / 1000) else max st total

/-- One tick of the 25 MHz reference (R544). -/
def TimeSt.tick (t : TimeSt) : TimeSt :=
  let delta := (t.tickUnits + t.slewUnits).toNat
  let total := t.thyme * nsUnit + t.thymeFrac + delta
  let st := t.stampAfter delta total
  { t with
    clk := t.clk + 1
    thyme := total / nsUnit % 2 ^ 64
    thymeFrac := total % nsUnit
    slewLeft := t.slewLeft - t.slewUnits
    stampClock := st / nsUnit
    stampFrac := st % nsUnit }

def State.tick (s : State) : State := { s with time := s.time.tick }

/-- A signed value is added to Thyme between two ticks; the stamp clock never moves backwards (R159, R544, R548). A negative value larger
than Thyme's leaves Thyme at 0: the manual does not say whether the count then wraps modulo 2^64 (DESIGN CHOICE, log 36). -/
def TimeSt.step (t : TimeSt) (d : Int) : TimeSt :=
  let th := ((t.thyme : Int) + d).toNat % 2 ^ 64
  if t.stampClock * nsUnit + t.stampFrac < th * nsUnit + t.thymeFrac then
    { t with thyme := th, stampClock := th, stampFrac := t.thymeFrac }
  else { t with thyme := th }

/-! ### Stamps (R159, R160) -/

/-- The read stamp issued now; no stamp is 0. -/
def State.readStamp (s : State) : Nat := max 1 s.time.stampClock

/-- The commit stamp that would be issued now: above every stamp issued. -/
def State.commitStamp (s : State) : Nat := max (max 1 s.time.stampClock) (s.time.largestStamp + 1)

/-- Whether a commit must wait: its stamp would exceed the stamp clock by more than 20 ns. -/
def State.commitWaits (s : State) : Bool := s.time.stampClock + 20 < s.commitStamp

/-- A stamp counts among the issued ones (R160, R167). -/
def State.issued (s : State) (st : Nat) : State :=
  { s with time := { s.time with largestStamp := max s.time.largestStamp st } }

/-! ### Source and estimates (R545, R546) -/

def Source.code : Source → Nat
  | .freeRun => 0 | .pps => 1 | .mesh => 2 | .host => 3 | .holdover => 4

def PpsState.code : PpsState → Nat
  | .disabled => 0 | .acquiring => 1 | .locked => 2 | .noisy => 3 | .absent => 4

/-- THYME_ERROR_EST: the bound on the distance to reference time, saturating (R546); 2 × 10⁷ per second on the island's
oscillator (R550). -/
def TimeSt.errorEst (t : TimeSt) : Nat :=
  min 0xFFFFFFFF <|
    match t.source with
    | .freeRun => 0xFFFFFFFF
    | .pps => t.ppsPhase.natAbs + 20
    | .mesh => t.parentEst + 8
    | .host => t.hostErr.toNat
    | .holdover => t.holdBase + ceilDiv ((t.clk - t.holdSince) * 40 * (if t.islandOsc then 20000000 else 10)) 1000000000

/-- A TIME entry (R560, kind 0x08), of scope SAGE: the unit it concerns is the island's counter. -/
def State.logTime (s : State) (event : Nat) : State :=
  s.log { seq := 0, kind := kTime, scope := scSage, detail := detail [(24, toLe 1 event), (25, toLe 1 s.time.source.code)] }

def State.raiseTime (s : State) : State := s.raiseAll evTime s.present

/-- The source changes; entering or leaving HOLDOVER is logged and sets TIME (R545). -/
def State.setSource (s : State) (src : Source) : State :=
  if s.time.source = src then s
  else
    let was := s.time.source
    let t := { s with time := { s.time with
      source := src
      holdBase := if src = .holdover then s.time.errorEst else s.time.holdBase
      holdSince := if src = .holdover then s.time.clk else s.time.holdSince } }
    if src = .holdover then (t.logTime 1).raiseTime
    else if was = .holdover then (t.logTime 2).raiseTime
    else t

/-! ### The servo (R550) -/

def clampInt (top v : Int) : Int := max (-top) (min top v)

/-- Rates are limited to ±500 ppm (R544, R547). -/
def clampRate (r : Int) : Int := clampInt 128000000 r

/-- The servo's change of rate for a phase error e in ns: −(e ÷ 8 + one 64th of the running sum) in ppb, limited to 10 ppm
(R550); `per` scales the limit for an interval of 1/per seconds. -/
def TimeSt.servo (t : TimeSt) (e : Int) (per : Int) : TimeSt :=
  let sum := t.servoSum + e
  { t with servoSum := sum, rate := clampRate (t.rate - clampInt (2560000 / per) (e * 32 + sum * 4)) }

/-- Correction on entering LOCKED or taking a new parent: a step above 10 µs, else a slew (R550). -/
def TimeSt.correct (t : TimeSt) (e : Int) : TimeSt :=
  if e.natAbs > 10000 then { t.step (-e) with slewLeft := 0 } else { t with slewLeft := -e * 2 ^ 32 }

/-! ### PPS_IN (R549) -/

/-- The phase error of an edge at Thyme, folded into [−5 × 10⁸, 5 × 10⁸). -/
def TimeSt.phase (t : TimeSt) : Int :=
  let m := ((t.thyme : Int) - t.ppsOffset) % 1000000000
  if m < 500000000 then m else m - 1000000000

/-- The number of the interval between two expected instants that Thyme lies in. -/
def TimeSt.interval (t : TimeSt) : Int := ((t.thyme : Int) - t.ppsOffset) / 1000000000

/-- An accepted edge is time-stamped (R547). -/
def TimeSt.accept (t : TimeSt) : TimeSt :=
  { t with ppsLast := t.thyme, ppsPhase := t.phase, ppsAccepted := satInc 0xFFFF t.ppsAccepted, ppsWatch := t.thyme,
           ppsPrevEdge := some t.thyme }

def TimeSt.reject (t : TimeSt) : TimeSt := { t with ppsRejected := satInc 0xFFFF t.ppsRejected }

/-- Whether an edge follows the previous filtered edge by 10⁹ ± 10⁵ ns. -/
def TimeSt.good (t : TimeSt) : Bool :=
  match t.ppsPrevEdge with
  | some p => p + 1000000000 ≤ t.thyme + 100000 && t.thyme ≤ p + 1000100000
  | none => false

/-- Whether the device disciplines itself from PPS_IN: hardware mode, and its own reference (R490, R545). -/
def State.ownReference (s : State) : Bool := !s.devHost mTime && (s.mesh.parent == 0xF)

/-- The servo's part of an accepted edge in LOCKED. -/
def State.ppsServo (s : State) (entering : Bool) : State :=
  if s.ownReference && !s.time.islandOsc then
    let e := s.time.ppsPhase
    let s := s.setSource .pps
    if entering then { s with time := ({ s.time with servoSum := 0 }).correct e }
    else { s with time := s.time.servo e 1 }
  else s

/-- An edge on PPS_IN whose level held for 50 ns. -/
def State.ppsEdge (s : State) : State :=
  let t := s.time
  match t.ppsState with
  | .disabled => s
  | .absent =>
    { s with time := { t with ppsState := .acquiring, ppsGood := 0, ppsPrevEdge := some t.thyme, ppsWatch := t.thyme } }
  | .locked =>
    if t.phase.natAbs ≤ 1000 then { s with time := t.accept }.ppsServo false
    else
      let run := if t.ppsRejSec = t.interval then t.ppsRejRun + 1 else 1
      let s := { s with time := { t.reject with ppsRejRun := run, ppsRejSec := t.interval, ppsPrevEdge := some t.thyme } }
      if run > 4 then
        let s := { s with time := { s.time with ppsState := .noisy, ppsGood := 0 } }
        let s := if s.time.source = .pps then s.setSource .holdover else s
        (s.logTime 3).raiseTime
      else s
  | _ =>
    if t.good then
      let t := { t.accept with ppsGood := t.ppsGood + 1 }
      if t.ppsGood ≥ 3 then { s with time := { t with ppsState := .locked, ppsGood := 0, ppsRejRun := 0 } }.ppsServo true
      else { s with time := t }
    else { s with time := { t.reject with ppsGood := 0, ppsPrevEdge := some t.thyme } }

/-! ### The commands -/

/-- THYME_RATE: honoured only in host-assisted time mode (R545, R547). -/
def execThymeRate (value : Word32) (s : State) : Res :=
  .next <|
    if s.barLive && s.devHost mTime then
      { s with time := { s.time with rate := clampRate value.toInt, lastHostTimeWrite := s.time.clk } }.setSource .host
    else s

/-- THYME_OFFSET_ADJ: slewed up to 100 µs, stepped above; ignored in hardware mode (R547, R550). -/
def execThymeOffsetAdj (value : Word32) (s : State) : Res :=
  .next <|
    if s.barLive && s.devHost mTime then
      let v := value.toInt
      let t := if v.natAbs ≤ 100000 then { s.time with slewLeft := v * 2 ^ 32 } else { s.time.step v with slewLeft := 0 }
      { s with time := { t with lastHostTimeWrite := s.time.clk } }.setSource .host
    else s

/-- THYME_SNAP_TRIG: any write latches Thyme (R547). -/
def execThymeSnapTrig (s : State) : Res :=
  .next <| if s.barLive then { s with time := { s.time with snap := s.time.thyme } } else s

/-- HOST_TIME_TIMEOUT: 4 s without a host time write in host-assisted mode lead to HOLDOVER (R545). -/
def execHostTimeTimeout (s : State) : Res :=
  .next <|
    if s.devHost mTime ∧ s.time.source = .host ∧ s.time.lastHostTimeWrite * 40 + 4000000000 ≤ s.phys then
      s.setSource .holdover
    else s

/-- REFCLK_AON_LOSS: the island runs from its own oscillator and Thyme is in HOLDOVER (R550, R552). -/
def execRefclkAonLoss (s : State) : Res :=
  .next ({ s with time := { s.time with islandOsc := true, holdBase := s.time.errorEst, holdSince := s.time.clk }
                  pkg := { s.pkg with refAonGood := false } }.setSource .holdover)

/-- REFCLK_AON_RETURN: stable for 100 ms, the reference clocks the island again (R550). -/
def execRefclkAonReturn (s : State) : Res :=
  .next { s with time := { s.time with islandOsc := false, holdBase := s.time.errorEst, holdSince := s.time.clk },
                 pkg := { s.pkg with refAonGood := true } }

/-- The body of TIME_CONFIGURE: every byte but ACTION and its value is reserved (R548). -/
def timeConfigureErr (c : Cmd) : Option Err := reservedErr c.packet 0 [(17, 7), (32, 32)]

/-- TIME_CONFIGURE_STEP: the signed value of bytes 24 to 31 is added to Thyme (R548). -/
def execTimeConfigureStep (cid : Nat) (s : State) : Res :=
  .next <| s.admin cid 0x0F (fun c => c.f 16 1 == 0)
    (fun c => firstErr [timeConfigureErr c,
      failIf (!s.devHost mTime && s.time.source == .mesh) (errAt stInvalidField 24),
      failIf (s.time.ppsState == .locked && signed 64 (c.f 24 8) % 1000000000 != 0) (errAt stInvalidField 24)])
    fun c => { s with time := s.time.step (signed 64 (c.f 24 8)) }.finish cid {}

end Sys2Proof.Machine
end

