-- ==== Sys2Proof/Machine/Admin.lean ====
section
/-! DEFINITION. IDENTIFY (R99, R405), features and modes (R32 to R40, R100, R201, R426, R471, R553), power states
(R118 to R121, R553, R554). -/

namespace Sys2Proof.Machine

/-! ### IDENTIFY -/

/-- Fields laid into a buffer of zeros. -/
def layout (n : Nat) (fields : List (Nat × Bytes)) : Bytes := fields.foldl (fun b f => overlay b f.1 f.2) (zeros n)

/-- The active core mask of a cluster (R6). -/
def State.coreMask (s : State) (cluster : Nat) : Nat :=
  if (s.clusterAt cluster).state == .active then maskOf ((s.activeSet cluster).map (· % 9)) else 0

/-- The active lanes of a port: 4, 2 or 0 (R99). -/
def Port.laneCount (p : Port) : Nat := match p.state with | .up => 4 | .degraded => 2 | _ => 0

/-- The device data of IDENTIFY CNS 0 (R99). -/
def State.identifyDevice (s : State) (fn : Fn) : Bytes :=
  layout 4096
    [ (0x000, toLe 2 0x1F5A), (0x002, toLe 2 0x4816), (0x004, toLe 1 0xA1), (0x008, toLe 8 Config.serial.toNat),
      (0x010, toLe 4 s.fw.active.version.toNat),
      (0x014, toLe 2 (maskOf ((List.range 16).filter fun n => (s.clusterAt n).state == .active))),
      (0x018, (List.range 16).flatMap fun n => toLe 2 (s.coreMask n)),
      (0x038, toLe 2 s.hbmGib), (0x040, toLe 32 (maskOf s.channelList)),
      (0x060, toLe 1 (maskOf ((List.range 8).filter fun n => (s.portAt n).usable))),
      (0x068, (List.range 8).flatMap fun n => toLe 1 (s.portAt n).laneCount),
      (0x070, toLe 2 (s.maxPairs fn)),
      (0x072, toLe 2 (match fn with | .pf => 16384 | .vf p => s.inflightLimit p)),
      (0x074, toLe 2 4096), (0x076, toLe 2 8192), (0x078, toLe 2 4096), (0x07A, toLe 2 8192), (0x07C, toLe 2 256), (0x07E, toLe 2 65535) ]

/-- The 256 B entry of a partition in IDENTIFY CNS 1 (R405). -/
def State.identifyPart (s : State) (p : PartNo) : Bytes :=
  let x := s.part p
  if !x.present then zeros 256
  else
    let n := (s.clustersOf p).length
    let cores := (s.partCores p).length
    layout 256
      [ (0x00, toLe 1 p.val), (0x01, toLe 1 (if x.borrow then 3 else 1)), (0x02, toLe 2 x.clusters.toNat), (0x04, toLe 2 cores),
        (0x06, toLe 2 (128 * cores)), (0x08, toLe 4 (n * x.scratch * 32)), (0x0C, toLe 4 (n * (8 - x.scratch) * 32)),
        (0x10, toLe 2 x.granules.length), (0x12, toLe 2 x.hbmShare), (0x14, toLe 1 x.meshShare), (0x16, toLe 2 x.qpQuota),
        (0x18, toLe 2 (s.inflightLimit p)), (0x1C, toLe 4 (s.modeOf p).toNat), (0x20, toLe 4 x.modeLock.toNat) ]

/-- The list of VALID qids of IDENTIFY CNS 2 (R98). -/
def State.identifyQids (s : State) (fn : Fn) : Bytes :=
  let l := sortBy (fun a b => decide (a < b)) ((s.pairs.filter fun q => q.fn == fn).map (·.qid))
  (l ++ List.replicate (4096 - l.length) 0xFFFF).flatMap (toLe 2)

/-- IDENTIFY (R98, R99, R405): the block is written to BUF. -/
def execIdentify (cid : Nat) (s : State) : Res :=
  .next <| s.admin cid 0x01 (fun _ => true)
    (fun c => firstErr [reservedErr c.packet 0 [(17, 7), (32, 32)], failIf (c.f 16 1 > 2) (errAt stInvalidField 16),
      failIf (c.f 24 8 % 4096 != 0) (errAt stInvalidField 24)])
    fun c =>
      let bytes := match c.f 16 1 with
        | 0 => s.identifyDevice c.fn
        | 1 => match c.fn with
          | .pf => allParts.flatMap s.identifyPart
          | .vf p => fit 4096 (s.identifyPart p)
        | _ => s.identifyQids c.fn
      (s.writeOut c [.hostWrite c.fn (c.f 24 8) bytes]).finish cid {}

/-! ### Features -/

/-- The body of SET_FEATURE and GET_FEATURE: bytes not listed are reserved, VALUE too in GET (R98). -/
def featureReserved (c : Cmd) (get : Bool) : Option Err :=
  reservedErr c.packet 0 ([(19, 1), (24, 40)] ++ if get then [(20, 4)] else [])

def Cmd.fid (c : Cmd) : Nat := c.f 16 2

/-- Features with a row of their own. -/
def ownRowFids : List Nat := [0x10, 0x11, 0x23, 0x43, 0x70, 0x80]

/-- Whether a value lies in a partition feature's range (R100, R201, R305, R306, R355, R418, R522). -/
def featOk (fid v : Nat) : Bool :=
  match fid with
  | 0x12 | 0x13 | 0x14 | 0x15 => v != 0
  | 0x16 => v &&& 0xFFFFFF4B == 0
  | 0x20 => v ≤ 1000000
  | 0x21 => v == 0 || 1000 ≤ v
  | 0x22 => 16 ≤ v && v ≤ 256
  | 0x30 => 1 ≤ v && v ≤ 1000000
  | 0x31 => 1 ≤ v
  | 0x32 => 0x3F800000 ≤ v && v ≤ 0x40000000
  | 0x40 => v % 2 ^ 21 == 0
  | 0x41 => true
  | 0x42 => 64 ≤ v && v ≤ 1048576 && v % 2 == 0
  | 0x50 => 1 ≤ v && v ≤ 60000
  | 0x51 => v ≤ 4096
  | 0x52 => true
  | 0x53 => 1000 ≤ v
  | 0x54 => 5 ≤ v && v ≤ 1000
  | 0x55 => 1 ≤ v && v ≤ 1000
  | 0x60 => v ≤ 65535
  | 0x90 => v ≤ 2
  | 0x91 => true
  | _ => false

/-- The partition of a partition-scope feature command, or its error: the TARGET must name a partition that exists. -/
def State.featPart (s : State) (c : Cmd) : Option PartNo :=
  match targetOf c.fn (c.f 18 1) with
  | some (some p) => if (s.part p).present then some p else none
  | _ => none

/-- A SET_FEATURE of the PF that names a partition whose TDI is in CONFIG_LOCKED or RUN (R53, R517). -/
def State.featLocked (s : State) (c : Cmd) : Option Err :=
  match s.featPart c with
  | some p => failIf (c.fn == .pf && s.tdiLocked p) { st := stTdiState }
  | none => none

/-- A partition-scope feature is set by a row of its own or by the common one. -/
def State.setPartFeature (s : State) (cid : Nat) (pick : Cmd → Bool) (chk : PartNo → Cmd → Option Err)
    (f : PartNo → Cmd → State) : State :=
  s.admin cid 0x05 pick
    (fun c => match featureReserved c false, s.featPart c with
      | some e, _ => some e
      | none, none => some (errAt stInvalidField 18)
      | none, some p => firstErr [chk p c, s.featLocked c])
    fun c => match s.featPart c with
      | some p => f p c
      | none => s

/-- The journal features may be set only as their chapter allows: while the journal is OFF (R306). -/
def journalFids : List Nat := [0x40, 0x41, 0x42]

/-- SET_FEATURE of every feature without a row of its own (R100): IDLE_GATE_US is device scope (R553). -/
def execSetFeature (cid : Nat) (s : State) : Res :=
  .next <|
    s.admin cid 0x05 (fun c => !ownRowFids.contains c.fid)
      (fun c => firstErr [featureReserved c false,
        if c.fid = 0xA0 then
          firstErr [failIf (c.fn != .pf) { st := stNotPermitted }, failIf (c.f 18 1 != 0xFF) (errAt stInvalidField 18),
            failIf (c.f 20 4 < 10 || 1000000 < c.f 20 4) (errAt stInvalidField 20)]
        else firstErr [failIf (featReset c.fid).isNone (errAt stInvalidField 16),
          failIf (s.featPart c).isNone (errAt stInvalidField 18),
          failIf (!featOk c.fid (c.f 20 4)) (errAt stInvalidField 20),
          failIf (journalFids.contains c.fid && ((s.featPart c).map fun p => (s.part p).journal.state != .off).getD false)
            (errAt stInvalidField 16),
          s.featLocked c]])
      fun c =>
        if c.fid = 0xA0 then { s with power := { s.power with idleGateUs := BitVec.ofNat 32 (c.f 20 4) } }.finish cid {}
        else match s.featPart c with
          | some p => (s.modPart p fun x => x.setFeat c.fid (BitVec.ofNat 32 (c.f 20 4))).finish cid {}
          | none => s

/-- The bytes of the ring in use, from TRIM_OFF to the next offset round the ring's end (R306, R310). -/
def PartSt.jUsed (x : PartSt) : Nat :=
  let ring := x.feat 0x42 * 2 ^ 20 - 0x1000
  if x.journal.recs.isEmpty then 0 else (x.journal.nextOff + ring - x.journal.trimOff - 1) % ring + 1

/-- JOURNAL_STATUS: MiB in use, rounded up, and the state (R306). -/
def PartSt.jStatus (x : PartSt) : Nat :=
  ceilDiv x.jUsed (2 ^ 20) * 256 + (match x.journal.state with | .off => 0 | .active => 1 | .replaying => 2 | .failed => 3)

/-- The value GET_FEATURE returns, or none for an unknown FID or target (R33, R35, R100). A partition that does not exist answers with the
reset values, which its fields hold: the manual gives no error for it (DESIGN CHOICE, log 48). -/
def State.getFeatureValue (s : State) (c : Cmd) : Option Nat :=
  match targetOf c.fn (c.f 18 1) with
  | none => none
  | some none =>
    if c.fid = 0x10 then some (s.devMode &&& modeDevice).toNat
    else if c.fid = 0xA0 then some s.power.idleGateUs.toNat
    else none
  | some (some p) =>
    match c.fid with
    | 0x10 => some (s.modeOf p).toNat
    | 0x11 => some (s.part p).modeLock.toNat
    | 0x23 => some 0
    | 0x43 => some (s.part p).journal.ctrl.toNat
    | 0x44 => some (s.part p).jStatus
    | 0xA0 => if c.fn == .pf then none else some s.power.idleGateUs.toNat
    | fid => if (featReset fid).isSome then some ((s.part p).feat fid) else none

/-- GET_FEATURE returns the value in RESULT_COUNT (R98, R100). -/
def execGetFeature (cid : Nat) (s : State) : Res :=
  .next <| s.admin cid 0x06 (fun _ => true)
    (fun c => firstErr [featureReserved c true, failIf (s.getFeatureValue c).isNone (errAt stInvalidField 16)])
    fun c => s.finish cid { count := (s.getFeatureValue c).getD 0 }

/-! ### Modes (R32 to R39) -/

/-- The checks of MODE_SELECT: reserved bits, the target, a VF's device-scope bits, locked bits (R33, R34, R36). -/
def State.modeSelectErr (s : State) (c : Cmd) : Option Err :=
  let v := BitVec.ofNat 32 (c.f 20 4)
  firstErr
    [ featureReserved c false, failIf (c.f 20 4 &&& 0xFFFFF800 != 0) (errAt stReserved 20),
      match targetOf c.fn (c.f 18 1) with
      | none => some (errAt stInvalidField 18)
      | some none => none
      | some (some p) =>
        firstErr
          [ failIf (!(s.part p).present) (errAt stInvalidField 18),
            failIf (c.fn != .pf && v &&& modeDevice != s.devMode &&& modeDevice) { st := stNotPermitted },
            failIf ((v ^^^ (s.part p).modeWord) &&& modePart &&& (s.part p).modeLock != 0) { st := stNotPermitted },
            s.featLocked c ] ]

/-- A background function leaves hardware mode: background consolidation passes are abandoned (R39). -/
def PartSt.leaveHardware (x : PartSt) (old new : Word32) : PartSt :=
  if !old.getLsbD mConsol && new.getLsbD mConsol then
    { x with colls := x.colls.map fun c => { c with pass := match c.pass with
      | some q => if q.cid.isNone then none else some q
      | none => none } }
  else x

/-- Whether a shard migration that the device began is in progress in a partition (R39). -/
def PartSt.migrating (x : PartSt) : Bool := x.colls.any fun c => c.tm.handoffs.any fun h => h.out && h.asker.isNone && h.state != .owned

/-- A change of the device-scope bits: Thyme's source follows its mode (R545), and map-out timing in hardware mode makes every
FENCED channel MAPOUT_PENDING (R449). -/
def State.setDevMode (s : State) (v : Word32) : State :=
  let old := s.devMode
  let t := { s with devMode := v &&& modeDevice }
  let t := if old.getLsbD mMapout && !v.getLsbD mMapout then
      { t with hbm := { t.hbm with channels := t.hbm.channels.map fun c =>
        if c.state == .fenced then { c with state := .mapoutPending } else c } }
    else t
  if !old.getLsbD mTime && v.getLsbD mTime then
    { t with time := { t.time with lastHostTimeWrite := t.time.clk } }.setSource .host
  else if old.getLsbD mTime && !v.getLsbD mTime then
    if t.time.ppsState == .locked && t.mesh.parent == 0xF then t.setSource .pps else t.setSource .holdover
  else t

/-- Whether a MODE_SELECT of a partition waits for a handoff: the next command of its modes is then applied after it (R37, R39;
DESIGN CHOICE, log 48). -/
def State.modeWaits (s : State) (c : Cmd) : Bool :=
  s.cmds.any fun d => d.isAdmin && d.op == 0x05 && d.fid == 0x10 && d.phase == .flushing && d.id != c.id && s.featPart d == s.featPart c

/-- The contexts of a partition's background passes that are no more (R298). -/
def State.dropPasses (s : State) (p : PartNo) : State :=
  (s.cmds.filter fun c => c.shadow && c.op == 0x24 && c.part == some p && match c.coll.bind (s.part p).collU? with
    | some k => k.pass.isNone
    | none => true).foldl (fun s c => s.drop c.id) s

/-- A partition's mode word takes its new value as its command completes (R38). -/
def State.applyMode (s : State) (p : PartNo) (cid : Nat) (v : Word32) : State :=
  ((s.modPart p fun x => ({ x with modeWord := v &&& modePart }).leaveHardware x.modeWord v).dropPasses p).finish cid {}

/-- MODE_SELECT (R32 to R39). With a shard migration in progress whose mode leaves hardware mode, the completion waits for its
handoff, at most 2 ms: the row then runs a second time, and the new mode word holds from the completion on. -/
def execModeSelect (cid : Nat) (s : State) : Res :=
  .next <|
    match s.cmd? cid with
    | some c =>
      let v := BitVec.ofNat 32 (c.f 20 4)
      if c.isAdmin && c.op == 0x05 && c.fid == 0x10 && c.phase == .flushing then
        match s.featPart c with
        | some p => if !(s.part p).migrating || c.heldSince + 2000000 ≤ s.now then s.applyMode p cid v else s
        | none => s.finish cid {}
      else
        s.admin cid 0x05 (fun c => c.fid == 0x10 && !s.modeWaits c) s.modeSelectErr fun c =>
          match targetOf c.fn (c.f 18 1) with
          | some (some p) =>
            if !(s.part p).modeWord.getLsbD mMigrate && v.getLsbD mMigrate && (s.part p).migrating then
              s.modCmd cid fun c => { c with phase := .flushing, heldSince := s.now }
            else s.applyMode p cid v
          | _ => (s.setDevMode v).finish cid {}
    | none => s

/-- MODE_LOCK (R35): the PF replaces a partition's whole lock mask. -/
def execModeLock (cid : Nat) (s : State) : Res :=
  .next <| s.admin cid 0x05 (fun c => c.fid == 0x11 && !s.modeWaits c)
    (fun c => firstErr [featureReserved c false, failIf (c.fn != .pf) { st := stNotPermitted },
      failIf (c.f 20 4 &&& (~~~modePart).toNat != 0) (errAt stReserved 20),
      failIf (s.featPart c).isNone (errAt stInvalidField 18), s.featLocked c])
    fun c => match s.featPart c with
      | some p => (s.modPart p fun x => { x with modeLock := BitVec.ofNat 32 (c.f 20 4) }).finish cid {}
      | none => s

/-- SEARCH_REPORT_CLEAR: one report, or with bit 16 every report of the partition (R201, R205). -/
def execSearchReportClear (cid : Nat) (s : State) : Res :=
  .next <| s.setPartFeature cid (fun c => c.fid == 0x23)
    (fun p c => firstErr [failIf (c.f 20 4 &&& 0xFFFE0000 != 0) (errAt stReserved 20),
      failIf (!(c.f 20 4).testBit 16 && ((s.part p).coll? (c.f 20 2)).isNone) (errAt stInvalidField 20)])
    fun p c =>
      let every := (c.f 20 4).testBit 16
      let clear : Coll → Coll := fun k => if every || k.handle == c.f 20 2 then { k with report := {} } else k
      (s.modPart p fun x => { x with colls := x.colls.map clear }).finish cid {}

/-- SCRATCH_HOST_MIB (R426): the host region's size; an overlap with a device allocation gives 0x3002, one with a set that commands still
use among them (R246). -/
def execScratchHostMib (cid : Nat) (s : State) : Res :=
  .next <| s.setPartFeature cid (fun c => c.fid == 0x70)
    (fun p c => firstErr [failIf (s.scratchBytes p / 2 ^ 20 < c.f 20 4) (errAt stInvalidField 20),
      failIf (s.scratchFloor p < c.f 20 4 * 2 ^ 20) { st := stCapacity }])
    fun p c => (s.modPart p fun x => x.setFeat 0x70 (BitVec.ofNat 32 (c.f 20 4))).finish cid {}

/-- MESH_DOMAIN (R471): by the PF only, unique on the device, never while the partition holds a mesh collection. -/
def execMeshDomain (cid : Nat) (s : State) : Res :=
  .next <| s.admin cid 0x05 (fun c => c.fid == 0x80)
    (fun c => firstErr [featureReserved c false, failIf (c.fn != .pf) { st := stNotPermitted },
      match s.featPart c with
      | none => some (errAt stInvalidField 18)
      | some p => firstErr
        [ failIf (c.f 20 4 != 0 && allParts.any fun q => q != p && (s.part q).feat 0x80 == c.f 20 4) (errAt stInvalidField 20),
          failIf ((s.part p).colls.any fun k => !k.members.isEmpty) (errAt stInvalidField 16), s.featLocked c ] ])
    fun c => match s.featPart c with
      | some p => (s.modPart p fun x => x.setFeat 0x80 (BitVec.ofNat 32 (c.f 20 4))).finish cid {}
      | none => s

/-! ### Rail enables (R583, R584) -/

/-- An enable output of a group (1 to 5) takes a level; a group whose enable falls loses its PG (R583, R584). -/
def State.enGroup (s : State) (g : Nat) (level : Bool) : State :=
  if s.pkg.en.getD (g - 1) false == level then s
  else
    let s := s.emit (.enable g level)
    { s with pkg := { s.pkg with
      en := s.pkg.en.set (g - 1) level
      pg := if level then s.pkg.pg else s.pkg.pg.set (g - 1) false } }

/-- The enables from EN_G5 down to a group fall, in that order (R584, R585). -/
def State.dropGroups (s : State) (low : Nat) : State :=
  ((List.range 5).filter fun i => low ≤ 5 - i).foldl (fun s i => s.enGroup (5 - i) false) s

def State.enOf (s : State) (g : Nat) : Bool := s.pkg.en.getD (g - 1) false
def State.pgOf (s : State) (g : Nat) : Bool := s.pkg.pg.getD (g - 1) false

/-- The island has power: a feed is good (R551). -/
def State.powered (s : State) : Bool := s.pkg.vaonAGood || s.pkg.vaonBGood

/-- Whether a data path is to come up: not in PS3, leaving it, or restarting (R74). -/
def State.wantsPath (s : State) : Bool := s.power.ps != 3 || s.power.wake.isSome || s.hif.dpRestarting

/-- Whether a data path is coming up now (R73, R74, R120): DP_DONE ends it. -/
def State.starting (s : State) : Bool :=
  !s.hif.dpReady && !s.hif.fatal && !s.pkg.perst && s.fw.stage == .running && s.wantsPath

/-- The data-path start t₀ (R583 step 4): EN_G3 rises once Sage runs, PERST# is deasserted and G1 and G2 are good. -/
def State.tryStart (s : State) : State :=
  if s.starting && s.pgOf 1 && s.pgOf 2 && !s.pkg.thermTrip && s.pkg.lostGroup.isNone then s.enGroup 3 true else s

/-! ### Power states -/

/-- The commands that keep an entry from finishing: any I/O command, and any admin command but the early ones and the
SET_POWER_STATE itself (R118). -/
def State.entryBusy (s : State) (cid : Nat) : Bool :=
  s.cmds.any (fun c => if c.isAdmin then !earlyOps.contains c.op && c.id != cid else true) || !s.tests.isEmpty

/-- Every cluster is gated, or every cluster of a partition ungated: one of no partition is gated in every state (R553). -/
def State.gateAll (s : State) (g : Bool) : State :=
  let f : Nat → Cluster → Cluster := fun n c => { c with gated := g || (s.owner n).isNone, idleSince := s.time.clk }
  ({ s with ras := { s.ras with clusters := s.ras.clusters.mapIdx f } }).coresLose fun n => g || (s.owner n).isNone

/-- Whether a SET_POWER_STATE is pending: an entry for which a command waits, or the way up from PS3 (R121). -/
def State.powerPending (s : State) : Bool :=
  s.power.wake.isSome || match s.power.entry with | some e => !e.quiet | none => false

/-- The entry of a SET_POWER_STATE to PS2 or PS3, from its admission (R98, R119). -/
def State.entryOf (s : State) (c : Cmd) : Entry :=
  let limit := c.f 20 4
  let idle := c.f 24 4
  { cid := c.id, target := c.f 16 1, limitMs := if limit = 0 then 1000 else limit, reentry := if idle = 0 then 10000 else idle
    startedAt := s.time.clk, previous := s.power.ps }

/-- The checks of SET_POWER_STATE: REENTRY_IDLE is a field of PS2 only (R9, R98, R121). -/
def State.powerErr (s : State) (c : Cmd) : Option Err :=
  firstErr [reservedErr c.packet 0 ([(17, 3)] ++ (if c.f 16 1 = 2 then [] else [(24, 4)]) ++ [(28, 36)]),
    failIf (c.f 16 1 > 3) (errAt stInvalidField 16), failIf s.powerPending { st := stPowerPending }]

/-- SET_POWER_STATE (R98, R119 to R121, R553): PS0 and PS1 at once, or with the data path brought up from PS3; PS2 and PS3 by an
entry, which from PS3 to PS2 counts from admission while the path comes up. -/
def execSetPowerState (cid : Nat) (s : State) : Res :=
  .next <| s.admin cid 0x08 (fun _ => true) s.powerErr fun c =>
    let target := c.f 16 1
    let waiting := s.modCmd cid fun c => { c with phase := .flushing }
    let entry := if target < 2 then none else some (s.entryOf c)
    if s.power.ps = 3 ∧ target ≠ 3 then
      ({ waiting with
        power := { waiting.power with wake := some (cid, target), entry := entry }
        hif := { waiting.hif with restartAt := s.time.clk, restartCause := none } }).tryStart
    else if target < 2 then
      ({ s with power := { s.power with ps := target, awake := false, entry := none }
                hbm := { s.hbm with selfRefresh := false } }.gateAll false).finish cid {}
    else { waiting with power := { waiting.power with entry := entry } }

/-- What a partition loses with its HBM and SLM: collections, scratchpad, shadow scans; its journal is OFF (R70, R309). -/
def PartSt.lost (x : PartSt) : PartSt :=
  { x with
    mem := {}
    scratchMem := Mem.scratch
    scratchPoison := []
    scratchUses := []
    colls := []
    shadows := []
    hotCounts := []
    journal := { x.journal with state := .off, ctrl := 0#32, reads := [], waiting := [], held := [] } }

/-- POWER_STATE_ENTRY (R118, R120, R553): with no command in flight, every cluster is gated and the HBM put in self-refresh, or
in PS3 every I/O pair deleted and the data path switched off, its contents lost. -/
def execPowerStateEntry (s : State) : Res :=
  .next <|
    match s.power.entry with
    | none => s
    | some e =>
      if s.entryBusy e.cid || s.power.wake.isSome then s
      else
        let t := s.gateAll true
        let t := { t with power := { t.power with ps := e.target, entry := none, awake := false, reentryIdle := e.reentry } }
        if e.target = 2 then
          { t with hbm := { t.hbm with selfRefresh := true } }.finish e.cid {}
        else
          let t := (t.deletePairs fun q => q.qid != 0).dropGroups 3
          let t := ((List.range 8).filter fun n => (t.portAt n).linked).foldl (fun t n => t.setPort n .down) t
          { t with
            hif := { t.hif with dpReady := false }
            hbm := { t.hbm with initDone := false, scrubActive := false }
            parts := t.parts.map PartSt.lost
            ctxs := []
            streams := []
            ristretto := []
            semaphores := [] }.finish e.cid {}

/-- The device goes back to the state it held before a deferred entry (R119). Where that was PS3: while the path still comes up it is
switched off again; a path that is up goes back as R120 says, once the commands in flight have completed, which no command delays
(DESIGN CHOICE, log 47). -/
def State.deferBack (s : State) (e : Entry) : State :=
  if e.previous != 3 then { s with power := { s.power with entry := none, ps := e.previous } }
  else if s.hif.dpReady then { s with power := { s.power with entry := some { e with target := 3, quiet := true } } }
  else { s with power := { s.power with entry := none, wake := none } }.dropGroups 3

/-- POWER_ENTRY_DEFERRED: entry not finished ENTRY_LIMIT ms after admission; the device keeps the state it held (R119). -/
def execPowerEntryDeferred (s : State) : Res :=
  .next <|
    match s.power.entry with
    | none => s
    | some e =>
      if !e.quiet && e.startedAt * 40 + e.limitMs * 1000000 ≤ s.phys then (s.deferBack e).fail e.cid stPowerDeferred else s

/-- PS2_REENTRY: REENTRY_IDLE µs with no command in flight after a wake (R98, R554). -/
def execPs2Reentry (s : State) : Res :=
  .next <|
    let w := s.power
    if w.ps = 2 && w.awake && s.cmds.isEmpty && w.reentryIdle != 0xFFFFFFFF && w.idleSince * 40 + w.reentryIdle * 1000 ≤ s.phys then
      { s with power := { w with awake := false }, hbm := { s.hbm with selfRefresh := true } }.gateAll true
    else s

/-- CLUSTER_GATE: in PS1 a cluster is gated after IDLE_GATE_US with no context in use (R553). -/
def execClusterGate (cluster : Nat) (s : State) : Res :=
  .next <|
    let c := s.clusterAt cluster
    if s.power.ps = 1 && !s.ctxs.any (fun x => x.core / 9 == cluster) &&
        c.idleSince * 40 + s.power.idleGateUs.toNat * 1000 ≤ s.phys then
      (s.modCluster cluster fun c => { c with gated := true }).coresLose (· == cluster)
    else s

end Sys2Proof.Machine
end

