-- ==== Sys2Proof/Machine/Seal.lean ====
section
/-! DEFINITION. Keys and sealing: HBM key generations (R503), binding blobs and their unwrapping (R518, R519), and the policy of
blobs the device makes (R522). -/

namespace Sys2Proof.Machine

/-- A new key of the DRBG, named by its number (R502). -/
def State.newKey (s : State) : State := { s with sec := { s.sec with keyCount := s.sec.keyCount + 1 } }

/-- A partition gets a new HBM key: nothing it held can be read again (R503, R504). -/
def State.rekeyPart (s : State) (p : PartNo) : State :=
  let s := s.newKey
  s.modPart p fun x => { x with hbmKey := some s.sec.keyCount, mem := {} }

/-- The partition's key is destroyed (R503). -/
def State.dropKey (s : State) (p : PartNo) : State := s.modPart p fun x => { x with hbmKey := none, mem := {} }

/-- OWNER_TAG: the first 16 B of the owner key hash, 0 when not fused (R513). -/
def State.ownerTag (s : State) : Bytes := match s.sec.fuses.ownerKey with | some k => fit 16 k | none => zeros 16

/-- Whether DEBUG_STATE meets a DEBUG_REQ (R518, R519). -/
def DebugState.meets (d : DebugState) (req : Nat) : Bool :=
  match req with
  | 0 => true
  | 1 => d == .locked || d == .closed
  | _ => d == .closed

/-- The declared device set: this device first (R509). -/
def State.declaredSet (s : State) (p : PartNo) : List (Bytes × Bytes) :=
  (Config.identityTag, Config.bindingTag) :: (s.part p).declared

/-- Byte strings in order, as big-endian numbers. -/
def bytesLt (a b : Bytes) : Bool := le a.reverse < le b.reverse

def ascii (l : List Nat) : Bytes := l.map fun n => BitVec.ofNat 8 n

/-- The header and policy of a binding blob (R518). -/
def blobHead (entries keyUse : Nat) (cid : Bytes) (minFw req : Nat) (owner : Option Bytes) : Bytes :=
  overlay (overlay (overlay (overlay (overlay (overlay (overlay (zeros 128) 0 (ascii [0x53, 0x50, 0x5A, 0x42])) 4
    (toLe 2 1 ++ toLe 2 entries ++ toLe 4 (128 + 528 * entries) ++ toLe 1 keyUse)) 16 (fit 16 cid)) 64 (toLe 4 minFw)) 68
    (toLe 1 req)) 69 (toLe 1 (if owner.isSome then 1 else 0))) 72 (fit 16 (owner.getD []))

/-- The OAEP label: SHA-512 over the header, the policy and every DEVICE_TAG in order (R518). -/
def blobLabel (head : Bytes) (tags : List Bytes) : Bytes := Config.sha512 (head ++ tags.flatten)

/-- A binding blob of a content key for a set of devices (R518, R522). -/
def State.makeBlob (s : State) (p : PartNo) (devs : List (Bytes × Bytes)) (keyUse key : Nat) (cid : Bytes) : Bytes :=
  let x := s.part p
  let minFw := if x.feat 0x91 = 0 then s.fw.active.version.toNat else x.feat 0x91
  let owner := s.sec.fuses.ownerKey.map fun k => fit 16 k
  let devs := sortBy (fun a b => bytesLt a.1 b.1) devs
  let head := blobHead devs.length keyUse cid minFw (x.feat 0x90) owner
  let label := blobLabel head (devs.map fun d => fit 16 d.1)
  head ++ devs.flatMap fun d => fit 16 d.1 ++ fit 512 (Config.oaepWrap d.2 key label cid)

/-- Whether the DEVICE_TAGs rise strictly. -/
def risingTags : List Bytes → Bool
  | a :: b :: l => bytesLt a b && risingTags (b :: l)
  | _ => true

/-- Unwrapping by R519: the content key's number, its CONTENT_ID and the policy (DEBUG_REQ, MIN_FW), or the status of the first
check that fails. -/
def State.unwrap (s : State) (blob : Bytes) : Nat ⊕ (Nat × Bytes × Nat × Nat) :=
  let n := rd blob 6 2
  let entry := fun i => slice blob (128 + 528 * i) 528
  let tags := (List.range n).map fun i => (entry i).take 16
  let wellMade := slice blob 0 4 == ascii [0x53, 0x50, 0x5A, 0x42] && rd blob 4 2 == 1 && 1 ≤ n && n ≤ 64 &&
    rd blob 8 4 == 128 + 528 * n && blob.length == 128 + 528 * n && risingTags tags &&
    isZero blob 13 3 && isZero blob 32 32 && isZero blob 70 2 && isZero blob 88 40 && rd blob 69 1 ≤ 1 && rd blob 68 1 ≤ 2
  let own := fit 16 Config.identityTag
  match tags.findIdx? (· == own) with
  | none => .inl (if wellMade then stPolicy else stImageCheck)
  | some i =>
    if !wellMade then .inl stImageCheck
    else if s.fw.active.version.toNat < rd blob 64 4 || !s.sec.debugState.meets (rd blob 68 1) ||
        (rd blob 69 1 == 1 && slice blob 72 16 != s.ownerTag) then .inl stPolicy
    else
      match Config.oaepUnwrap (blobLabel (blob.take 128) tags) ((entry i).drop 16) with
      | some (key, cid) => if cid == slice blob 16 16 then .inr (key, cid, rd blob 68 1, rd blob 64 4) else .inl stImageCheck
      | none => .inl stImageCheck

end Sys2Proof.Machine
end

