-- ==== Sys2Proof/Machine/JournalOps.lean ====
section
/-! DEFINITION. The journal writer (R310 to R315, R320, R523): headers, records, flushing reads, and how a journaled command
comes to its completion. -/

namespace Sys2Proof.Machine

/-- The region's bus address and size in bytes (R306). -/
def PartSt.jAddr (x : PartSt) : Nat := x.feat 0x40 + 2 ^ 32 * x.feat 0x41
def PartSt.jSize (x : PartSt) : Nat := x.feat 0x42 * 2 ^ 20

/-- The first offset of the ring (R310). -/
abbrev ringBase : Nat := 0x1000

def digest32 (bs : Bytes) : Bytes := fit 32 (Config.sha512 bs)

/-- A journal header copy (R310). -/
def headerBytes (gen id size trimSeq trimOff : Nat) (blob : Bytes) : Bytes :=
  let b := fit 1984 (fit 256 (ascii [0x53, 0x50, 0x5A, 0x4A] ++ toLe 4 1 ++ toLe 8 gen ++ toLe 8 id ++ toLe 8 size ++ toLe 8 trimSeq ++
    toLe 8 trimOff) ++ blob)
  fit 2048 (b ++ digest32 b)

/-- Where the copy of a generation is written: each change writes the older copy (R310). -/
def headerOff (gen : Nat) : Nat := if gen % 2 = 1 then 0 else 0x800

/-- Bytes written to the journal region through the partition's VF, without Relaxed Ordering (R307, R313). -/
def State.jWrite (s : State) (p : PartNo) (off : Nat) (bs : Bytes) : State :=
  s.emit (.hostWrite (.vf p) ((s.part p).jAddr + off) bs)

/-- BODY_LEN for meaningful bytes (R523). -/
def bodyLen (dataLen : Nat) : Nat := roundUp (dataLen + 16) 128

/-- The length of a record (R311). -/
def recordLen (dataLen : Nat) : Nat := 128 + bodyLen dataLen

/-- A record's header (R311). -/
def recordHeader (rtype part : Nat) (last : Bool) (seq jid bodyL handle opcode stamp dataLen : Nat) : Bytes :=
  ascii [0x53, 0x50, 0x5A, 0x52] ++ toLe 1 rtype ++ toLe 1 (if last then 1 else 0) ++ toLe 2 part ++ toLe 8 seq ++ toLe 8 jid ++
    toLe 4 bodyL ++ toLe 2 handle ++ toLe 1 opcode ++ toLe 1 0 ++ toLe 8 stamp ++ toLe 4 dataLen ++ zeros 20

/-- A record: header, encrypted body with its tag, trailer (R311, R312, R523). -/
def recordBytes (key : Nat) (hdr : Bytes) (seq bodyL : Nat) (data : Bytes) : Bytes :=
  let body := fit bodyL (fit (data.length + 16) (Config.gcmSeal key (toLe 8 seq ++ zeros 4) hdr data))
  hdr ++ body ++ fit 64 (ascii [0x53, 0x50, 0x5A, 0x43] ++ zeros 4 ++ toLe 8 seq ++ digest32 (hdr ++ body))

/-- Where a record of a length goes: at an offset, with the PAD that fills the ring before it (R313). -/
def placeRecord (size off len : Nat) : Nat × Nat :=
  if off + len ≤ size then (off, 0) else (ringBase, size - off)

/-- The bytes of the ring that records consume from an offset on, pads included, and the offset they end at. -/
def consume (size : Nat) : Nat → List Nat → Nat
  | _, [] => 0
  | off, l :: ls => let (o, pad) := placeRecord size off l; pad + l + consume size (o + l) ls

/-- The space from the next offset to TRIM_OFF: the whole ring where it holds no record. -/
def Journal.room (j : Journal) (size : Nat) : Nat :=
  if j.recs.isEmpty then size - ringBase + 1
  else (j.trimOff + (size - ringBase) - j.nextOff) % (size - ringBase)

/-- What other commands of the partition have reserved (R282). -/
def State.jReserved (s : State) (p : PartNo) (cid : Nat) : List Nat :=
  s.cmds.flatMap fun c => if c.part == some p && c.id != cid then
    (match c.run with | .mutation m => m.space | _ => []) else []

/-- Whether records of these lengths would reach TRIM_OFF (R313). -/
def State.jFull (s : State) (p : PartNo) (cid : Nat) (lens : List Nat) : Bool :=
  let x := s.part p
  x.journal.state == .active &&
    x.journal.room x.jSize ≤ consume x.jSize x.journal.nextOff (s.jReserved p cid ++ lens)

/-- The PAD record that fills the ring's end before a record (R313). -/
def Journal.padded (j : Journal) (pad : Nat) : Journal :=
  if pad = 0 then j
  else { j with nextSeq := j.nextSeq + 1, recs := j.recs ++ [{ seq := j.nextSeq, off := j.nextOff, len := pad, rtype := 5, handle := 0 }] }

/-- Its bytes. -/
def Journal.padBytes (j : Journal) (pad : Nat) : Bytes :=
  recordBytes j.key (recordHeader 5 0 false j.nextSeq j.id (pad - 128) 0 0 0 0) j.nextSeq (pad - 128) []

/-- One record, with a PAD before it where the ring ends (R313). -/
def State.jRecord (s : State) (p : PartNo) (rtype part : Nat) (last : Bool) (handle opcode stamp : Nat) (data : Bytes) : State :=
  let x := s.part p
  let len := recordLen data.length
  let place := placeRecord x.jSize x.journal.nextOff len
  let s := if place.2 = 0 then s else s.jWrite p x.journal.nextOff (x.journal.padBytes place.2)
  let j := x.journal.padded place.2
  let hdr := recordHeader rtype part last j.nextSeq j.id (bodyLen data.length) handle opcode stamp data.length
  let s := s.jWrite p place.1 (recordBytes j.key hdr j.nextSeq (bodyLen data.length) data)
  let j := { j with
    nextSeq := j.nextSeq + 1
    nextOff := place.1 + len
    recs := j.recs ++ [{ seq := j.nextSeq, off := place.1, len := len, rtype := rtype, handle := handle, stamp := stamp }]
    trimSeq := if j.recs.isEmpty then j.nextSeq else j.trimSeq
    trimOff := if j.recs.isEmpty then place.1 else j.trimOff }
  s.modPart p fun x => { x with journal := j }

/-- A flushing read of the newest record's trailer, where fewer than four are outstanding (R314). -/
def State.jFlush (s : State) (p : PartNo) : State :=
  let x := s.part p
  let j := x.journal
  match j.recs.getLast? with
  | none => s
  | some r =>
    if 4 ≤ j.reads.length || j.reads.getLast? == some r.seq then s
    else
      (s.emit (.hostRead (.vf p) (x.jAddr + r.off + r.len - 64) 64)).modPart p fun x =>
        { x with journal := { x.journal with reads := x.journal.reads ++ [r.seq] } }

/-- A header is written, and a flushing read of it issued: read 0 confirms no record (R308, R320). -/
def State.jHeader (s : State) (p : PartNo) (blob : Bytes) : State :=
  let x := s.part p
  let gen := x.journal.generation + 1
  let s := s.jWrite p (headerOff gen) (headerBytes gen x.journal.id x.jSize x.journal.trimSeq x.journal.trimOff blob)
  (s.emit (.hostRead (.vf p) (x.jAddr + headerOff gen + 1984) 64)).modPart p fun x =>
    { x with journal := { x.journal with generation := gen, blob := blob, reads := x.journal.reads ++ [0] } }

/-- The oldest SEQ that names a collection: that of the first record of its handle after the last that dropped the handle (R320). -/
def Journal.oldest (j : Journal) (handle : Nat) : Nat :=
  let named := j.recs.filter fun r => r.handle == handle && r.rtype != 5
  let drops := (named.filter fun r => r.rtype == 3).map (·.seq)
  ((named.find? fun r => r.rtype != 3 && drops.foldl max 0 < r.seq).map (·.seq)).getD j.nextSeq

/-- The smallest SEQ an existing journaled collection still needs (R320). -/
def PartSt.jNeeded (x : PartSt) : Nat :=
  let j := x.journal
  let need : Coll → Nat := fun c =>
    match c.durableSeq with
    | some q => q + 1
    | none =>
      if c.createSeq != 0 then c.createSeq
      else j.oldest c.handle
  ((x.colls.filter fun c => Sys2Proof.Machine.rd c.param 0 1 != 1 && !c.dropping).map need).foldl min j.nextSeq

/-- TRIM_SEQ moves, with a header write, once it would pass at least 1 MiB of records (R320). -/
def State.jTrim (s : State) (p : PartNo) : State :=
  let x := s.part p
  let j := x.journal
  let need := x.jNeeded
  let gone := j.recs.filter fun r => r.seq < need
  if j.state == .active && 2 ^ 20 ≤ (gone.map (·.len)).foldl (· + ·) 0 then
    let kept := j.recs.filter fun r => need ≤ r.seq
    let s := s.modPart p fun x => { x with journal := { x.journal with
      recs := kept
      trimSeq := need
      trimOff := (kept.head?.map (·.off)).getD x.journal.nextOff } }
    s.jHeader p j.blob
  else s

/-! ### The end of a journaled command -/

/-- The completion of a settled command falls due; an orphan is gone instead (R117), and the origin of a mesh command waits
for its members (R288). -/
def State.due (s : State) (cid : Nat) : State :=
  match s.cmd? cid with
  | some c =>
    if c.phase != .flushing then s
    else if c.orphan then s.drop cid
    else if c.mesh.isSome && c.origin.isNone then s.reported cid selfMember
    else s.modCmd cid fun c => { c with phase := .done }
  | none => s

/-- The journal writer takes a committed command whose records, as (data, last), are in order (R313, R314): without a journal it
completes at once; with one it waits for a flushing read after its last record. -/
def State.journal (s : State) (p : PartNo) (cid rtype handle opcode stamp : Nat) (parts : List Bytes) : State :=
  let x := s.part p
  match x.journal.state with
  | .active =>
    if (s.cmd? cid).any (·.unjournaled) then s.due cid else
    let s := (parts.zipIdx.foldl (fun s d => s.jRecord p rtype d.2 (d.2 + 1 == parts.length) handle opcode stamp d.1) s)
    let seq := (s.part p).journal.nextSeq - 1
    let s := s.modPart p fun x => { x with journal := { x.journal with waiting := x.journal.waiting ++ [(cid, seq)] } }
    s.jFlush p
  | .failed => s.modPart p fun x => { x with journal := { x.journal with held := x.journal.held ++ [cid] } }
  | _ => s.due cid

/-- Journal writes that a reset finds not yet returned are abandoned (R71): the records of commands that are gone, past the newest that a
flushing read has confirmed or another command waits for, lose their places, which the next records take. -/
def State.jAbandon (s : State) (p : PartNo) : State :=
  let j := (s.part p).journal
  let wait := j.waiting.filter fun w => (s.cmd? w.1).isSome
  let keep := (wait.map (·.2)).foldl max j.confirmed
  let gone := j.recs.filter fun r => keep < r.seq
  if wait.length = j.waiting.length || j.state != .active then s
  else s.modPart p fun x => { x with journal := { j with
    waiting := wait
    recs := j.recs.filter fun r => r.seq ≤ keep
    reads := j.reads.map fun r => if keep < r && r < 2 ^ 64 then 0 else r
    nextSeq := ((gone.head?).map (·.seq)).getD j.nextSeq
    nextOff := ((gone.head?).map (·.off)).getD j.nextOff } }

/-- A command whose effect is a collection's creation, drop or import commits with a stamp of its own in the journal. -/
def State.journalOne (s : State) (p : PartNo) (cid rtype handle opcode stamp : Nat) (data : Bytes) : State :=
  s.journal p cid rtype handle opcode stamp [data]

end Sys2Proof.Machine
end

