-- ==== Sys2Proof/Machine/Collection.lean ====
section
/-! DEFINITION. What the rows of collections share: reads that may meet poison (R399, R441), the checks of COLLECTION_CREATE
(R131 to R135), scratchpad use (R245, R426), the collection a row names (R136). -/

namespace Sys2Proof.Machine

/-! ### Reads that may meet poison -/

/-- The first poisoned burst among the ranges (R441), as an HBM address. -/
def State.poisonHit (s : State) (p : PartNo) (r : Reads) : Option Nat :=
  (r.findSome? fun x => s.poisonIn p x.1 x.2).map fun b => (s.part p).hbmAddr b

/-- A command that read the ranges goes on, or is torn down with 0x4001 where one reads poison (R399); it waits where a stopped stack holds
one (R446). -/
def State.unpoisoned (s : State) (cid : Nat) (p : PartNo) (r : Reads) (next : State) : State :=
  let t := s.touch p r
  if t.slm.stalled then t
  else
    match t.poisonHit p r with
    | some a => t.tearDown cid stPoison (toLe 8 a)
    | none => next.touch p r

/-! ### COLLECTION_CREATE (R131 to R135) -/

/-- The element types permitted (R137). -/
def typeOk (table : Bool) (t : Nat) : Bool :=
  if table then t == 1 || t == 2 || t == 6 || t == 7 || t == 0x0B else 1 ≤ t && t ≤ 0x0A

/-- The bytes of the projection matrix that an image holds: of any with PROJ ≠ 0 (R149, R158, R323). -/
def imageMatrix (param : Bytes) : Nat := if rd param 5 1 = 0 then 0 else sketchBits (rd param 3 1) * rd param 6 2 * 2

/-- The bytes of the projection matrix the input buffer carries (R131). -/
def matrixBytes (param : Bytes) : Nat := if rd param 5 1 = 2 then sketchBits (rd param 3 1) * rd param 6 2 * 2 else 0

/-- The rules of R131 and R132 but for the three limits, each with the offset of the field that breaks it in the block. A
rule that joins two fields names the first of them. -/
def createRules (param : Bytes) : List (Bool × Nat) :=
  let f := rd param
  let table := f 0 1 == 1
  let local_ := f 36 2 == 0
  [ (f 0 1 ≤ 1, 0), (typeOk table (f 1 1), 1), (f 2 1 ≤ if table then 0 else 2, 2),
    (if table then f 3 1 == 0 else f 3 1 ≤ 4 && (f 3 1 == 0) == (f 4 1 == 0), 3),
    (f 4 1 == 0 || (!table && 8 ≤ f 4 1 && f 4 1 ≤ 64 && f 4 1 % 4 == 0), 4),
    (if table then f 5 1 == 0 else f 5 1 ≤ 2 && (f 5 1 == 0 || f 3 1 != 0), 5),
    (f 6 2 != 0 && (!typeOk table (f 1 1) || dimSuits (f 1 1) (f 6 2)), 6),
    (!table || f 8 2 == 0, 8),
    (if table then f 10 1 ≤ 5 && (f 10 1 == 0 || f 1 1 == 0x0B || f 1 1 == 6 || f 1 1 == 7) else f 10 1 == 0, 10),
    (f 11 1 ≤ 1 && (f 10 1 != 0 || f 11 1 == 0) && (!(f 10 1 == 1 || f 10 1 == 4) || f 11 1 == 0), 11),
    (if table then f 12 1 == 0 else f 12 1 ≤ 63 && f 12 1 + f 13 1 ≤ 64 || 16 < f 13 1 && f 12 1 ≤ 63, 12),
    (f 13 1 ≤ if table then 0 else 16, 13),
    (if table then f 14 1 == 0 else f 14 1 ≤ 63 && f 14 1 + f 15 1 ≤ 64 || 16 < f 15 1 && f 14 1 ≤ 63, 14),
    (if table then f 15 1 == 0 else f 15 1 ≤ 16 && (f 15 1 == 0 || f 13 1 != 0), 15),
    (f 16 8 != 0, 16), (f 24 8 == 0 || (!table && f 5 1 == 1), 24),
    ((f 32 4 == 0) == local_, 32), (f 36 2 ≤ 1024, 36), (if local_ then f 38 2 == 0 else f 38 2 < f 36 2, 38) ]

/-- 0x2002 at the first field of a block that breaks a rule (R560). -/
def brokenRule (rules : List (Bool × Nat)) : Option Err := (rules.find? fun r => !r.1).map fun r => errAt stInvalidField (64 + r.2)

/-- The limits of R132. -/
def createLimits (param : Bytes) : Bool :=
  let f := rd param
  if f 0 1 = 1 then f 6 2 ≤ 8192 && f 16 8 ≤ 2 ^ 36 else f 6 2 ≤ 4096 && f 8 2 ≤ 256 && f 16 8 ≤ 0xFFFFFFFF

/-- The checks that COLLECTION_CREATE and COLLECTION_IMPORT share (R132, R471). -/
def State.paramErr (s : State) (p : PartNo) (param matrix : Bytes) (members : List Nat) : Option Err :=
  let own := s.mesh.deviceId
  firstErr
    [ brokenRule (createRules param),
      failIf (!members.isEmpty && (members.getD (rd param 38 2) 0 != own || (s.part p).feat 0x80 == 0)) (errAt stInvalidField 96),
      failIf (!vecFinite 0x06 (matrix.length / 2) matrix) (errAt stInvalidField 69),
      failIf (!createLimits param) { st := stLimit } ]

/-- The lowest free handle. -/
def PartSt.freeHandle (x : PartSt) : Option Nat :=
  (((List.range (x.colls.length + 1)).map (· + 1)).find? fun h => (x.coll? h).isNone).filter (· ≤ 65535)

/-- The collection report (R135); STORAGE_MIB is rounded up to whole MiB (DESIGN CHOICE, log 48). -/
def Coll.reportBytes (c : Coll) : Bytes :=
  toLe 2 c.handle ++ toLe 2 0 ++ toLe 4 (ceilDiv c.size (2 ^ 20)) ++ toLe 8 c.sketchOff ++ toLe 8 c.edgeOff ++ toLe 8 c.metaOff ++
    toLe 8 c.vectorOff ++ toLe 8 c.payloadOff ++ toLe 8 c.idOff ++ toLe 8 c.postOff

/-- The checks of an I/O row that names a collection: the handle's collection at admission (R136), then `chk`. -/
def State.onColl (s : State) (cid op : Nat) (chk : PartNo → Coll → Cmd → Option Err) (f : PartNo → Coll → Cmd → State) : State :=
  s.settled <| s.onCmd cid (fun c => c.ioRunning op && !s.haltedOn cid) fun c =>
    match c.part with
    | none => s
    | some p =>
      match c.coll.bind (s.part p).collU? with
      | none => s.tearDown cid stInvalidHandle
      | some k =>
        match chk p k c with
        | some e => s.tearDown cid e.st e.cause
        | none => f p k c

/-- An I/O row that names no existing collection. -/
def State.onPart (s : State) (cid op : Nat) (chk : PartNo → Cmd → Option Err) (f : PartNo → Cmd → State) : State :=
  s.settled <| s.onCmd cid (fun c => c.ioRunning op && !s.haltedOn cid) fun c =>
    match c.part with
    | none => s
    | some p =>
      match chk p c with
      | some e => s.tearDown cid e.st e.cause
      | none => f p c

/-- A list of 16-bit ids. -/
def u16s (n : Nat) (bs : Bytes) : List Nat := (List.range n).map fun i => rd bs (2 * i) 2

/-- A journaled command is refused at admission while the journal is FAILED (R315). -/
def State.journalErr (s : State) (p : PartNo) (table : Bool) : Option Err :=
  failIf (!table && (s.part p).journal.state == .failed) { st := stJournalWrite }

/-- The record of a COLLECTION_CREATE, COLLECTION_DROP or COLLECTION_IMPORT would reach TRIM_OFF (R313). -/
def State.ringErr (s : State) (p : PartNo) (cid : Nat) (table : Bool) (dataLen : Nat) : Option Err :=
  failIf (!table && s.jFull p cid [recordLen dataLen]) { st := stJournalFull }

def State.createErr (s : State) (p : PartNo) (c : Cmd) : Option Err :=
  let need := matrixBytes c.data.param + 2 * c.p 36 2
  let x := s.part p
  firstErr
    [ bodyErr c [64] (need != 0) true false,
      failIf (c.handle != 0 && (x.coll? c.handle).isSome) (errAt stInvalidField 4),
      reservedErr c.data.param 64 [(40, 24)],
      s.paramErr p c.data.param (c.input.take (matrixBytes c.data.param)) (u16s (c.p 36 2) (c.input.drop (matrixBytes c.data.param))),
      if need = 0 then none else c.inErr need, c.outErr 64,
      s.journalErr p (c.p 0 1 == 1),
      failIf (c.handle == 0 && x.freeHandle.isNone) { st := stCollLimit },
      failIf (c.p 0 1 == 1 && c.p 36 2 != 0 && s.scratchFree p < 4194304) { st := stCapacity },
      failIf (x.place (Coll.laid 0 0 c.data.param (u16s (c.p 36 2) []) 0).size).isNone { st := stCapacity },
      s.ringErr p c.id (c.p 0 1 == 1) (64 + need) ]

end Sys2Proof.Machine
end

