-- ==== Sys2Proof/Machine/Select.lean ====
section
/-! DEFINITION. Selection and results: the candidate order and truncation (R251 to R262), spill and its reservation (R263 to
R266), result entries (R267 to R270). -/

namespace Sys2Proof.Machine

/-- Result order: key order, then ascending global id (R251 step 3). -/
def Cand.before (a b : Cand) : Bool :=
  sortCode a.key < sortCode b.key || (sortCode a.key == sortCode b.key && a.gid < b.gid)

/-- Which of two entries of one global id is kept: the smaller key, then the lower member, then the lower slot (R251 step 2). -/
def Cand.better (a b : Cand) : Bool :=
  sortCode a.key < sortCode b.key ||
    (sortCode a.key == sortCode b.key && (a.member < b.member || (a.member == b.member && a.slot < b.slot)))

/-- A candidate joins a list that holds each global id once (R251 step 2, R260). -/
def joinOne (l : List Cand) (c : Cand) : List Cand :=
  match l.find? fun x => x.gid == c.gid with
  | none => insertBy Cand.before c l
  | some x => if c.better x then insertBy Cand.before c (l.filter fun y => y.gid != c.gid) else l

/-- The first K of a candidate set, duplicates dropped, in result order (R251, R255, R259). -/
def selectK (k : Nat) (cs : List Cand) : List Cand := (cs.foldl joinOne []).take k

/-- A list joined into a running one and truncated to K (R255, R259). -/
def joinK (k : Nat) (l cs : List Cand) : List Cand := (cs.foldl joinOne l).take k

/-- Top-few reduction (R237): the F smallest keys, equal ones by ascending tag (the slot), and whether a value equal to the last one kept
was dropped. -/
def topFew (f : Nat) (l : List Cand) : List Cand × Bool :=
  let l := sortBy (fun (a b : Cand) => sortCode a.key < sortCode b.key || (sortCode a.key == sortCode b.key && a.slot < b.slot)) l
  (l.take f, match (l.take f).getLast?, (l.drop f).head? with | some a, some b => sortCode a.key == sortCode b.key | _, _ => false)

/-- What an operation passes to the select engine: with F ≠ 0 the reduced values, or every value where the reduction dropped one equal to
its F-th and the operation ran again without it (R256). -/
def reduced (f : Nat) (l : List Cand) : List Cand :=
  if f = 0 then l
  else
    let (kept, again) := topFew f l
    if again then l else kept

/-! ### Result entries (R262, R269) -/

/-- Q of R269: the payload part of an entry. -/
def Coll.resultPay (c : Coll) (noPay : Bool) : Nat := if noPay then 0 else c.payloadSlot

def entryBytes (q : Nat) (c : Cand) : Bytes :=
  toLe 8 c.gid ++ toLe 4 c.key ++ toLe 2 c.member ++ toLe 2 0 ++ fit q c.payload

/-- The sentinel entry (R262). -/
def sentinel (q : Nat) : Bytes := toLe 8 0xFFFFFFFFFFFFFFFF ++ toLe 4 0x7F800000 ++ toLe 2 0xFFFF ++ toLe 2 0 ++ zeros q

/-- A result list of K entries (R251 step 5, R269). -/
def resultBytes (q k : Nat) (l : List Cand) : Bytes :=
  (l.take k).flatMap (entryBytes q) ++ (List.replicate (k - l.length) (sentinel q)).flatten

/-! ### Spill (R263 to R266) -/

/-- The selection area of a context: 256 KiB for a SCAN, else 16 KiB (R263). -/
def areaBytes (scan : Bool) : Nat := if scan then 262144 else 16384

/-- S and J of an own context of a graph walk (R265). -/
def walkState (beam rerank k : Nat) : Nat := 8 * beam + 24 * rerank + 8 * k
def joinState (nq k pay : Nat) : Nat := 2 * nq * k * (24 + pay) + 8 * nq * k
def scanState (nq k : Nat) : Nat := 56 * nq * k
def helperState (k : Nat) : Nat := 24 * 2048 + 8 * k

/-- What one context reserves (R265). -/
def reserve (area s j : Nat) : Nat := max s j - area

/-- The spill space of the HBM reserve, the part of it kept for visited-filter blocks, and the rest, for selection state (R264). -/
abbrev spillSpace : Nat := 16 * 2 ^ 30
abbrev filterPool : Nat := 2 * 2 ^ 30
abbrev spillPool : Nat := spillSpace - filterPool

/-- One round of joins over the lengths of the lists, and the largest state a join of it holds: both lists and the set of R260. -/
def joinRound (k pay : Nat) : List Nat → List Nat × Nat
  | a :: b :: l =>
    let (r, m) := joinRound k pay l
    (min k (a + b) :: r, max m ((a + b) * (24 + pay) + 8 * min k (a + b)))
  | l => (l, 0)

/-- The largest state of the joins of R259 over the lengths of the contexts' lists; the fuel bounds the rounds. -/
def joinPeak (k pay : Nat) : Nat → List Nat → Nat
  | 0, _ => 0
  | fuel + 1, l =>
    if l.length ≤ 1 then 0
    else
      let (r, m) := joinRound k pay l
      max m (joinPeak k pay fuel r)

/-- The largest state of an origin's merges as its members' lists arrive (R261): (query, length) of each, onto running lengths. -/
def mergePeak (k pay : Nat) (arriving : List (Nat × Nat)) (own : List Nat) : Nat :=
  (arriving.foldl (fun (a : List Nat × Nat) x =>
    let r := a.1.getD x.1 0
    (a.1.set x.1 (min k (r + x.2)), max a.2 ((a.1.foldl (· + ·) 0 + x.2) * (24 + pay) + 8 * min k (r + x.2)))) (own, 0)).2

/-- What admitted commands hold of the pool. -/
def State.spillUsed (s : State) : Nat := (s.cmds.map (·.spill)).foldl (· + ·) 0

/-! ### Fields of the query commands -/

def dflt (v d : Nat) : Nat := if v = 0 then d else v

/-- K, BEAM, RERANK, WIDTH and BUDGET in force (R172). -/
def Cmd.k (c : Cmd) : Nat := c.p 0 2
def Cmd.beam (c : Cmd) : Nat := dflt (c.p 2 2) (max 64 c.k)
def Cmd.rerank (c : Cmd) : Nat := dflt (c.p 4 2) (min 8192 (10 * c.k))
def Cmd.width (c : Cmd) : Nat := dflt (c.p 6 1) 4
def Cmd.budget (c : Cmd) : Nat := dflt (c.p 12 4) (16 * c.beam)

/-- OMIT_PAYLOAD of a SEARCH or a SCAN (R172, R195). -/
def Cmd.omitPay (c : Cmd) : Bool := if c.op = 0x32 then (c.p 4 1).testBit 0 else (c.p 9 1).testBit 1

/-- QTYPE in force (R172, R195). -/
def Cmd.qtype (c : Cmd) (k : Coll) : Nat := dflt (c.p (if c.op = 0x32 then 5 else 10) 1) k.vtype

/-- NQ: 1 but for a SCAN (R195, R265). -/
def Cmd.nq (c : Cmd) : Nat := if c.op = 0x32 then c.p 2 2 else 1

/-- Whether it runs over every member of a mesh collection (R172, R195, R199, R272). -/
def Cmd.overMesh (c : Cmd) (k : Coll) : Bool :=
  k.isMesh && c.origin.isNone && c.p (match c.op with | 0x32 => 6 | 0x33 => 5 | _ => 11) 1 == 0

/-- Whether member lists carry payloads inline (R267). -/
def Cmd.inlinePay (c : Cmd) (k : Coll) : Bool := !c.omitPay && c.k * k.payloadSlot ≤ 16384

/-- P of R265: at the origin and at a member alike, where the command's mesh lists carry payloads inline. -/
def Cmd.payInline (c : Cmd) (k : Coll) : Nat := if (c.overMesh k || c.origin.isSome) && c.inlinePay k then k.payloadSlot else 0

def Cmd.terms (c : Cmd) : List Term := termsOf (c.data.param.drop 64)

/-! ### Selectivity and the choice of strategy (R187, R188) -/

/-- Σ of the counts of the values a countable term admits, and the ranges read. -/
def PartSt.termCount (x : PartSt) (k : Coll) (t : Term) (field : Nat) : Nat :=
  ((t.values.filter fun v => v < 2 ^ ((k.indexed.getD field (0, 0)).2)).map fun v => x.rd (k.countAt field v) 8).foldl (· + ·) 0

/-- The countable terms of a group with NEGATE 0, in block order, with their fields and counts. -/
def PartSt.countable (x : PartSt) (k : Coll) (g : List Term) : List (Term × Nat × Nat) :=
  g.filterMap fun t => if t.negate then none else (t.countField k.indexed).map fun f => (t, f, x.termCount k t f)

/-- L of R187: the records with DELETE_STAMP 0. -/
def PartSt.liveCount (x : PartSt) (k : Coll) : Nat :=
  if k.indexed.isEmpty then ((x.liveSlots k).filter fun s => (x.meta k s).del == 0).length
  else ((List.range (2 ^ ((k.indexed.getD 0 (0, 0)).2))).map fun v => x.rd (k.countAt 0 v) 8).foldl (· + ·) 0

/-- Whether s × 10⁶ < THRESHOLD_PPM (R187, R188). -/
def PartSt.belowThreshold (x : PartSt) (k : Coll) (ts : List Term) (ppm : Nat) : Bool :=
  let l := x.liveCount k
  let groups := groupsOf ts
  if l = 0 || groups.isEmpty then 1000000 < ppm
  else
    let est := fun g => match (x.countable k g).map (fun y => y.2.2) with
      | [] => l
      | c :: cs => cs.foldl min c
    min ((groups.map est).foldl (· + ·) 0) l * 1000000 < ppm * l

/-- Whether a SEARCH runs as a filtered flat scan, as chosen at its admission (R188). -/
def State.choosesFlat (s : State) (p : PartNo) (k : Coll) (c : Cmd) : Bool :=
  match c.p 8 1 with
  | 0 => !c.host mFilter && !(k.indexed.isEmpty) &&
      (s.part p).belowThreshold k c.terms (dflt (c.p 20 4) ((s.part p).feat 0x20))
  | 2 => true
  | _ => false

/-- The candidates of a flat scan or a SCAN (R189, R197): where every group holds a countable term with NEGATE 0, the listed
slots of the group's smallest; else every slot of the collection. A slot of several groups' lists stands once for each. With them, the slots read in passing that are not LIVE. -/
def PartSt.flatSlots (x : PartSt) (k : Coll) (ts : List Term) (lo hi : Nat) : List Nat × Nat :=
  let groups := groupsOf ts
  let best := groups.map fun g => bestBy (fun a b => decide (a.2.2 < b.2.2)) (x.countable k g)
  if groups.isEmpty || best.any Option.isNone then
    let l := (x.liveSlots k).filter fun s => lo ≤ s && s < hi
    (l, hi - lo - l.length)
  else
    (best.flatMap fun b => match b with
      | some (t, f, _) =>
        ((k.postings.filter fun e => e.field == f && t.values.contains e.value && lo ≤ e.slot && e.slot < hi).map (·.slot)).eraseDups
      | none => [], 0)

end Sys2Proof.Machine
end

