-- ==== Sys2Proof/Machine/SearchOps.lean ====
section
/-! DEFINITION. The graph walk (R171 to R186), batches of exact comparison (R184, R189, R190, R197), scoring (R248), and the
delivery of results, alone or over a mesh (R199, R200, R261, R267, R487). -/

namespace Sys2Proof.Machine

/-! ### The visited filter (R182) -/

def vfBits (salt slot : Nat) : List Nat :=
  let h := (splitmix64 (BitVec.ofNat 64 salt ^^^ BitVec.ofNat 64 slot)).toNat
  [bits h 0 16, bits h 16 16, bits h 32 16]

def vfSeen (v : List VisitBlock) (salt slot : Nat) : Bool := v.any fun b => (vfBits salt slot).all fun i => b.bits.contains i

/-- A slot is inserted into the newest block; a full block is followed by a new one, up to 16. -/
def vfInsert (v : List VisitBlock) (salt slot : Nat) : List VisitBlock :=
  let v := match v.getLast? with
    | some b => if b.count ≥ 4096 && v.length < 16 then v ++ [({} : VisitBlock)] else v
    | none => [({} : VisitBlock)]
  v.modify (v.length - 1) fun b => { bits := (vfBits salt slot).foldl addOnce b.bits, count := b.count + 1 }

/-! ### Beam and pool (R171) -/

def beamLt (a b : BeamEntry) : Bool := a.dist < b.dist || (a.dist == b.dist && a.slot < b.slot)

def listTakes (l : List BeamEntry) (lim : Nat) (e : BeamEntry) : Bool :=
  !(l.any fun x => x.slot == e.slot) && (l.length < lim || match l.getLast? with | some z => beamLt e z | none => false)

def listInsert (l : List BeamEntry) (lim : Nat) (e : BeamEntry) : List BeamEntry :=
  if listTakes l lim e then (insertBy beamLt e l).take lim else l

/-- A walk as a step runs it: with the ranges read, the stale edges met, and the slots expanded. -/
structure WS where
  w : Walk
  reads : Reads := []
  stale : Nat := 0
  expanded : List Nat := []
  deriving DecidableEq, Repr, Inhabited

/-- A candidate is considered (R178, R180): whether it improves the pool's first K. `ok` says which slots may be returned. -/
def WS.consider (st : WS) (x : PartSt) (k : Coll) (ok : Meta → Bool) (slot d : Nat) : WS × Bool :=
  let e : BeamEntry := { slot := slot, dist := d }
  if !listTakes st.w.beam st.w.beamMax e && !listTakes st.w.pool st.w.poolMax e then (st, false)
  else
    let m := if slot < k.capacity then x.meta k slot else {}
    let st := { st with reads := (k.metaAt slot, 48) :: st.reads }
    if m.state = slFree then ({ st with stale := st.stale + 1 }, false)
    else
      let w := { st.w with beam := listInsert st.w.beam st.w.beamMax e }
      if ok m then
        let pool := listInsert w.pool w.poolMax e
        ({ st with w := { w with pool := pool } }, (pool.take w.k).any fun z => z.slot == slot)
      else ({ st with w := w }, false)

/-- The sketch distance of a slot to the query, and its read (R147). -/
def WS.dist (st : WS) (x : PartSt) (k : Coll) (slot : Nat) : WS × Nat :=
  ({ st with reads := (k.sketchAt slot, k.sketchW / 8) :: st.reads }, hamming k.sketchW st.w.sketch (x.sketch k slot))

/-- Seeding from the entry set (R177, R178). -/
def WS.seed (st : WS) (x : PartSt) (k : Coll) (salt : Nat) (ok : Meta → Bool) (entries : List Nat) : WS :=
  entries.foldl (fun st e =>
    let st := { st with w := { st.w with visited := vfInsert st.w.visited salt e } }
    let (st, d) := st.dist x k e
    (st.consider x k ok e d).1) st

/-- One neighbour of an expanded slot (R178). -/
def WS.visit (salt : Nat) (x : PartSt) (k : Coll) (ok : Meta → Bool) (a : WS × Bool) (t : Nat) : WS × Bool :=
  if vfSeen a.1.w.visited salt t then a
  else
    let st := { a.1 with w := { a.1.w with visited := vfInsert a.1.w.visited salt t } }
    let (st, d) := st.dist x k t
    let (st, imp) := st.consider x k ok t d
    (st, a.2 || imp)

/-- One expansion step: up to WIDTH of the best unexpanded beam entries (R178). -/
def WS.step (st : WS) (x : PartSt) (k : Coll) (salt : Nat) (ok : Meta → Bool) : WS :=
  let picks := ((st.w.beam.filter fun e => !e.expanded).take st.w.width).map (·.slot)
  let st := { st with
    w := { st.w with
      beam := st.w.beam.map fun e => if picks.contains e.slot then { e with expanded := true } else e
      expansions := st.w.expansions + picks.length }
    expanded := st.expanded ++ picks
    reads := (picks.map fun s => (k.edgeAt s, 4 * k.degree)) ++ st.reads }
  let (st, imp) := picks.foldl (fun a s => (x.edges k s).foldl (WS.visit salt x k ok) a) (st, false)
  { st with w := { st.w with idle := if imp then 0 else st.w.idle + 1 } }

/-- The walk's end: what is left to compare is the pool, best first (R184). -/
def Walk.finish (w : Walk) (now : Nat) (cut : Bool) : Walk :=
  { w with ended := true, cut := w.cut || cut, walkEnd := now, toRank := w.pool.map (·.slot) }

/-- One turn of the walk's loop (R178, R179): it ends, or one step runs. `cut`: the cut point has arrived. -/
def WS.turn (st : WS) (x : PartSt) (k : Coll) (salt : Nat) (ok : Meta → Bool) (now : Nat) (cut : Bool) : WS :=
  if st.w.ended then st
  else if st.w.budget ≤ st.w.expansions then { st with w := st.w.finish now false }
  else if cut then { st with w := st.w.finish now true }
  else if st.w.beam.all (·.expanded) then { st with w := st.w.finish now false }
  else
    let st := st.step x k salt ok
    if st.w.stall != 0 && st.w.stall ≤ st.w.idle then { st with w := st.w.finish now false } else st

/-- The walk to its end; each turn that does not end it expands a slot, so BUDGET + 1 turns suffice. -/
def WS.run (x : PartSt) (k : Coll) (salt : Nat) (ok : Meta → Bool) (now : Nat) (cut : Bool) : Nat → WS → WS
  | 0, st => { st with w := st.w.finish now false }
  | fuel + 1, st => if st.w.ended then st else WS.run x k salt ok now cut fuel (st.turn x k salt ok now cut)

/-- The slots a walk seeds from: the entry set, or the first 64 LIVE slots where it is empty (R177). -/
def PartSt.entries (x : PartSt) (k : Coll) : List Nat := if k.entrySet.isEmpty then (x.liveSlots k).take 64 else k.entrySet

/-- What a walk leaves on its collection: stale edges (R180), and the running count of expansions with its samples (R603). -/
def State.walked (s : State) (p : PartNo) (uid : Nat) (st : WS) : State :=
  s.modCollU p uid fun k =>
    let k := { k with report := { k.report with staleEdges := (k.report.staleEdges + st.stale) % 2 ^ 64 } }
    st.expanded.foldl (fun k e =>
      let n := k.expansionCount + 1
      { k with expansionCount := n, samples := if n % 64 = 0 then setKey k.samples e (getKey k.samples e 0 + 1) else k.samples }) k

/-! ### Exact comparison -/

/-- The ranges that comparing a slot reads. -/
def Coll.compareReads (k : Coll) (slot : Nat) : Reads := [(k.metaAt slot, 48), (k.vecAt slot, k.vecSlot)]

/-- The exact candidate of a slot for one query (R227). -/
def PartSt.cand (x : PartSt) (k : Coll) (seed qtype : Nat) (q : Bytes × Nat × Nat) (slot : Nat) : Cand :=
  let m := x.meta k slot
  let qq : Query := { t := qtype, xs := decodeVec qtype k.dim q.1, sq := q.2.1, inv := q.2.2 }
  { key := qq.key seed k.metric k.vtype k.dim (x.vec k slot) m.nsq m.ninv, slot := slot, gid := m.gid, member := k.memberIndex, attr := m.attr }

/-- A query vector with its norm and inverse norm (R228). -/
def makeQuery (seed qtype dim : Nat) (bs : Bytes) : Bytes × Nat × Nat :=
  let q := Query.make seed qtype dim bs
  (bs, q.sq, q.inv)

/-- One batch of up to 16 slots, compared for every query, reduced to the `few` smallest where that is not 0, and merged into its list
(R184, R189, R255, R256). `keep`: how many entries a list keeps; `ok`: which slots count. The batches of a scan go to its contexts in turn
(DESIGN CHOICE, log 10). -/
def Walk.batch (w : Walk) (x : PartSt) (k : Coll) (seed keep few : Nat) (ok : Meta → Bool) : Walk × Reads :=
  let slots := w.toRank.take 16
  let good := (slots.filter fun s => ok (x.meta k s)).eraseDups
  let lists := w.qs.zipIdx.map fun q =>
    joinK keep (w.lists.getD q.2 [])
      (reduced few (good.zipIdx.map fun z => x.cand k (sub (sub seed (w.batches * 16 + z.2)) q.2) w.qtype q.1 z.1))
  let i := w.batches % w.shares
  ({ w with toRank := w.toRank.drop 16, batches := w.batches + 1, examined := w.examined + slots.length, lists := lists
            passed := (List.range w.shares).map fun j => w.passed.getD j 0 + if j = i then good.length else 0 },
   good.flatMap k.compareReads ++ slots.map fun s => (k.metaAt s, 48))

/-- Every batch to the end. -/
def Walk.batches_ (x : PartSt) (k : Coll) (seed keep few : Nat) (ok : Meta → Bool) : Nat → Walk × Reads → Walk × Reads
  | 0, a => a
  | fuel + 1, a =>
    if a.1.toRank.isEmpty then a
    else
      let (w, r) := a.1.batch x k seed keep few ok
      Walk.batches_ x k seed keep few ok fuel (w, r ++ a.2)

/-! ### Deadlines (R183, R199) -/

/-- The hop allowance of a member step (R199). -/
def State.hop (s : State) (c : Cmd) : Nat :=
  match c.origin with
  | none => 0
  | some (d, _) => match (s.peer d).rtts with
    | [] => 2000
    | r :: l => max 2000 (2 * l.foldl min r)

/-- T_walk of a deadline: less twice the finishing time, at least 5 µs, and the hop allowance (R183, R199). -/
def State.walkCut (s : State) (k : Coll) (c : Cmd) (deadline : Option Nat) : Option Nat :=
  deadline.map fun d => d - max 5000 (2 * k.finish / 256) - s.hop c

def State.past (s : State) (t : Option Nat) : Bool := match t with | some d => d ≤ s.now | none => false

/-! ### What a query may return -/

/-- Visible at the command's read stamp and passing its filter (R162, R155). -/
def Cmd.returns (c : Cmd) (m : Meta) : Bool := m.visible c.readStamp && passes c.terms m.attr

/-- Whether the scorer runs (R193). -/
def Cmd.scorer (c : Cmd) : Bool := c.op == 0x31 && c.p 29 1 == 1

/-- How many entries a running list keeps: with a scorer, every compared entry (R248). -/
def Cmd.keep (c : Cmd) : Nat := if c.scorer then 8192 else c.k

/-- F of a top-few reduction: SCAN and the filtered flat scan use it, but not where a scorer takes every compared entry (R248, R256). -/
def Cmd.few (c : Cmd) : Nat := if (c.op == 0x32 || c.flat) && !c.scorer then min c.k 16 else 0

/-- The filter memory taken on a core by the walks whose first context is there; more than 256 blocks spill (R182, R263). -/
def State.filterBlocks (s : State) (core : Nat) : Nat :=
  (s.cmds.map fun c => if c.core == core then (match c.run with | .walk w => if w.ended then 0 else w.visited.length - w.outside | _ => 0) else 0).foldl (· + ·) 0

/-- What a walk's selection state takes beyond its area, with its filter blocks outside the walker (R182, R263). -/
def Walk.excess (w : Walk) : Nat :=
  8 * w.beam.length + 24 * w.pool.length + 8 * (w.lists.headD []).length - areaBytes false + 8192 * w.outside

/-- A walk after a step that has added filter blocks: those that found no walker block free lie outside (R182). -/
def State.blocksOut (s : State) (core : Nat) (old w : Walk) : Walk :=
  let new := w.visited.length - old.visited.length
  let w := { w with outside := w.outside + min new (s.filterBlocks core + new - 256) }
  { w with spilled := w.spilled || w.excess != 0 }

/-- What the contexts of a scan hold beyond their areas (R263, R265): their lists of passing records, and the joins of R259. -/
def scanExcess (area nq k pay : Nat) (passed : List Nat) : Nat :=
  let l := passed.map (min k)
  (l.map fun n => 56 * nq * n - area).foldl (· + ·) 0 + (nq * joinPeak k pay l.length l - area)

/-- A query's walk or scan after a step. -/
def State.setWalk (s : State) (cid : Nat) (w : Walk) : State := s.modCmd cid fun c => { c with run := .walk w }

/-! ### Context slots (R378, R388, R258) -/

/-- Free slots of a core, for a command of an opcode: a core with 4 SCAN contexts has none for a SCAN (R378). -/
def State.freeSlotsOn (s : State) (core op : Nat) : Nat :=
  let l := s.ctxs.filter fun x => x.core == core
  if op = 0x32 && 4 ≤ (l.filter fun x => (s.cmd? x.cid).any fun c => c.op == 0x32).length then 0 else 128 - l.length

/-- The lowest free slot of a core. -/
def State.freeSlot (s : State) (core : Nat) : Nat :=
  ((List.range 128).find? fun i => !s.ctxs.any fun x => x.core == core && x.slot == i).getD 0

/-- A context for a command on a core. -/
def State.takeSlot (s : State) (cid core : Nat) : State :=
  { s with ctxs := s.ctxs ++ [{ core := core, slot := s.freeSlot core, cid := cid }] }

/-- A pool of more than 2,048 entries is dealt, once, as its walk ends (R258): part i goes to the i-th next core, where that has a free
slot and the spill pool can supply the helper's reservation (R265); a part that is not dealt stays with the own context. -/
def State.takeHelpers (s : State) (p : PartNo) (cid : Nat) : State :=
  match s.cmd? cid with
  | none => s
  | some c =>
    match c.run with
    | .walk w =>
      if !w.ended || w.dealt || c.flat || c.op = 0x32 || w.toRank.length ≤ 2048 then s
      else
        let cores := s.admitCores p
        let next := (cores.filter fun n => c.core < n) ++ (cores.filter fun n => n < c.core)
        let parts := ceilDiv w.toRank.length 2048 - 1
        let need := reserve (areaBytes false) (helperState c.k) (joinState 1 c.k 0)
        (next.take parts).foldl (fun s n =>
          if s.freeSlotsOn n c.op = 0 || spillPool < s.spillUsed + need then s
          else (s.takeSlot cid n).modCmd cid fun c => { c with spill := c.spill + need }) (s.setWalk cid { w with dealt := true })
    | _ => s

/-! ### Stage sets in scratchpad (R245, R247, R424) -/

/-- The weights of a stage set: from its place in scratchpad, or as they were loaded once that is gone. -/
def PartSt.stageInput (x : PartSt) (k : Coll) (g : StageSet) : Bytes :=
  match x.scratchUse? .stage k.uid g.tag with
  | some u => x.useBytes u g.input.length
  | none => g.input

/-- The length of a stage set's head in its weights. -/
def headBytes (g : StageSet) : Nat := ((headLayers g.param).map Layer.bytes).foldl (· + ·) 0

/-- Whether the weights that a command's head, or its scorer, streams hold a poisoned line (R424). -/
def PartSt.stagePoison (x : PartSt) (k : Coll) (c : Cmd) (head : Bool) : Bool :=
  match c.stage with
  | none => false
  | some g =>
    match x.scratchUse? .stage k.uid g.tag with
    | some u =>
      let n := headBytes g
      (if head then x.usePoison u 0 n else x.usePoison u n g.input.length).isSome
    | none => false

/-! ### Starting (R174, R178, R189, R197) -/

/-- The projection matrix's rows (R149). -/
def PartSt.projRows (x : PartSt) (k : Coll) : List (List Flt) :=
  (List.range k.sketchW).map fun i => decodeVec 0x06 k.dim (x.bytes (k.projOff + 2 * k.dim * i) (2 * k.dim))

/-- Bytes of one query vector in the input, padded to 16 B (R173). -/
def Cmd.queryBytes (c : Cmd) (k : Coll) : Nat := vecSlot (c.qtype k) k.dim

/-- The head's input type and width take the place of the query's where a head runs (R193). -/
def Cmd.head (c : Cmd) : Bool := c.op == 0x31 && c.p 28 1 == 1

/-- The query vectors and their type: after the head where one runs (R193). -/
def Cmd.queries (c : Cmd) (x : PartSt) (k : Coll) (seed : Nat) : Nat × List Bytes :=
  if c.head then
    match c.stage with
    | some g =>
      let (t, bs) := runHead (sub seed 9) g.param (x.stageInput k g) c.input
      (t, [bs])
    | none => (0x06, [])
  else (c.qtype k, (List.range c.nq).map fun i => slice c.input (i * c.queryBytes k) (vecBytes (c.qtype k) k.dim))

/-- A query begins: its norms, its sketch, and seeding or the list of slots to compare. -/
def State.startQuery (s : State) (p : PartNo) (k : Coll) (c : Cmd) : State :=
  let x := s.part p
  let seed := s.fresh
  let s := s.bump
  if c.head && x.stagePoison k c true then s.tearDown c.id stPoison else
  let (qt, qs) := c.queries x k seed
  let w : Walk := {
    qs := qs.zipIdx.map fun q => makeQuery (sub (sub seed 0) q.2) qt k.dim q.1
    qtype := qt, k := c.k
    shares := max 1 (s.ctxs.filter fun y => y.cid == c.id).length
    lists := qs.map fun _ => [] }
  if c.op = 0x32 || c.flat then
    let (lo, hi) := if c.op = 0x32 then (c.p 8 4, if c.p 12 4 = 0 then k.capacity else c.p 8 4 + c.p 12 4) else (0, k.capacity)
    let (slots, passed) := x.flatSlots k c.terms lo hi
    s.setWalk c.id { w with ended := true, walkEnd := s.now, toRank := slots, examined := passed }
  else
    let hw := !c.host mSketch && k.proj != 0
    let sk :=
      if hw then sketchOf (sub seed 1) qt (decodeVec qt k.dim (qs.headD [])) (x.projRows k)
      else le (slice c.input (c.queryBytes k) (k.sketchW / 8))
    let w := { w with
      sketch := sk, beamMax := c.beam, poolMax := c.rerank, width := c.width, budget := c.budget, stall := c.p 16 4 }
    let st := WS.seed { w := w } x k c.readStamp c.returns (x.entries k)
    let reads := (if hw then [(k.projOff, 2 * k.dim * k.sketchW)] else []) ++ st.reads
    s.unpoisoned c.id p reads ((s.walked p k.uid st).setWalk c.id (s.blocksOut c.core { w with visited := [] } st.w))

/-! ### Delivery -/

/-- The scorer over the compared entries, best first, in tiles of 16: at or after D only the first tile (R248). -/
def State.score (s : State) (k : Coll) (c : Cmd) (w : Walk) (l : List Cand) : List Cand × Bool :=
  match c.stage with
  | none => (l, false)
  | some g =>
    let late := s.past c.deadline
    let l' := if late then l.take 16 else l
    let q := w.qs.headD ([], 0, 0)
    let x := s.part (c.part.getD 0)
    (l'.zipIdx.map fun e =>
      let row := scorerRow g.param (decodeVec w.qtype k.dim q.1) (decodeVec k.vtype k.dim (x.vec k e.1.slot)) e.1.key e.1.attr
      let sc := runScorer (sub (sub s.fresh 2) e.2) l'.length g.param (x.stageInput k g) row
      let v := if c.p 30 1 = 1 then ((Flt.ofBits32 e.1.key).add sc).round32 else sc
      { e.1 with key := keyBits v }, late && l'.length < l.length)

/-- The payloads of a local list (R267). -/
def PartSt.gather (x : PartSt) (k : Coll) (l : List Cand) : List Cand :=
  l.map fun e => { e with payload := fit k.payloadSlot ((x.pay k e.slot).take k.payload) }

/-- RESULT frames of one list: 42 entries a frame without payloads (R474, R487). The member's notes and work travel with its last frame. -/
def State.sendList (s : State) (d domain tag query payB : Nat) (last : Bool) (l : List Cand) (notes work : Nat) (part : Option PartNo) : State :=
  let per := 1024 / (24 + payB)
  let frames := if l.isEmpty then [[]] else chunks per l.length l
  (frames.zipIdx.foldl (fun s f =>
    let es := f.1.map fun e => { gid := e.gid, key := e.key, slot := e.slot, member := e.member, payload := e.payload : ListEntry }
    let end_ := last && f.2 + 1 == frames.length
    s.sendRouted tResult d domain tag (f.2 * per) (roundUp (es.length * (24 + payB)) 16) 0 end_
      (.result (.entries query es (if end_ then notes else 0) (if end_ then work else 0))) part) s)

/-- Notes of a finished query but for SHORT. -/
def Walk.notes (w : Walk) : Nat := (if w.cut then notePartial else 0) + (if w.spilled then noteSpilled else 0)

/-- WORK of a query (R176, R198). -/
def Cmd.workOf (c : Cmd) (n : Nat) : Nat :=
  if c.op = 0x32 then min 0xFFFF n else min 0x7FFF n + if c.flat then 0x8000 else 0

/-- The count that WORK is made of: expansions, or records examined ÷ 256 or ÷ 65,536. -/
def Cmd.workCount (c : Cmd) (w : Walk) : Nat :=
  if c.op = 0x32 then w.examined / 65536 else if c.flat then w.examined / 256 else w.expansions

/-- The completion of a query, with its results written (R176, R198, R251, R262, R269). -/
def State.deliver (s : State) (k : Coll) (c : Cmd) (w : Walk) (lists : List (List Cand)) (notes work : Nat) : State :=
  let q := k.resultPay c.omitPay
  let short := lists.any fun l => l.length < c.k
  let notes := notes + if short then noteShort else 0
  let s := s.output c 0 (lists.flatMap fun l => resultBytes q c.k l)
  let s := s.modCmd c.id fun c => { c with walkEnd := w.walkEnd, resultIds := (lists.headD []).map (·.gid) }
  s.finish c.id { status := noteStatus notes, count := (lists.map List.length).foldl (· + ·) 0, stamp := c.readStamp, work := c.workOf work }

/-- The members' devices of a mesh collection, by member index. -/
def Coll.deviceOf (k : Coll) (m : Nat) : Nat := k.members.getD m 0

/-- The origin's lists with its own entries and those the members returned (R261). -/
def Cmd.joined (c : Cmd) (w : Walk) (m : MeshWait) : List (List Cand) :=
  w.lists.zipIdx.map fun l => joinK c.k l.1 ((m.lists.filter fun x => x.1 == l.2).flatMap (·.2))

/-- The origin's last step once every member has returned: the join, then the payloads that did not travel inline are asked for
(R261, R267). -/
def State.meshDone (s : State) (p : PartNo) (k : Coll) (c : Cmd) (w : Walk) (m : MeshWait) : State :=
  let lists := if m.asking then w.lists else c.joined w m
  let far := (lists.flatten.filter fun e => e.member != k.memberIndex)
  let need := !c.omitPay && k.payload != 0 && !c.inlinePay k && !m.asking && !far.isEmpty
  if need then
    let asks := (far.map (·.member)).eraseDups
    if asks.any fun i => s.unreachable (k.deviceOf i) then s.tearDown c.id stPeerLost
    else
      let s := asks.foldl (fun s i =>
        let slots := (far.filter fun e => e.member == i).map fun e => (e.gid, e.slot)
        s.sendRouted tCmd (k.deviceOf i) ((s.part p).feat 0x80) m.tag c.readStamp (min 1024 (16 * slots.length)) c.cls true
          (.cmd (.payloadAsk k.handle slots)) (some p)) s
      let grown := areaBytes (c.op == 0x32) < mergePeak c.k 0 (m.lists.map fun x => (x.1, x.2.length)) (w.lists.map List.length)
      (s.setWalk c.id { w with lists := lists, spilled := w.spilled || grown }).modCmd c.id fun c =>
        { c with mesh := some { m with asking := true, waiting := asks } }
  else
    let mine := if c.omitPay || k.payload = 0 then [] else lists.flatten.filter fun e => e.member == k.memberIndex
    let own := lists.map fun l => l.map fun e =>
      if e.member = k.memberIndex && e.payload.isEmpty && !c.omitPay then ((s.part p).gather k [e]).headD e else e
    let area := areaBytes (c.op == 0x32)
    let grown := area < mergePeak c.k (c.payInline k) (m.lists.map fun x => (x.1, x.2.length)) (w.lists.map List.length)
    let w := { w with spilled := w.spilled || (grown && !m.asking) }
    s.unpoisoned c.id p (mine.map fun e => (k.payAt e.slot, k.payload)) <|
      s.deliver k c w own (w.notes ||| m.notes) (c.workCount w + m.work)

/-- A query whose comparisons are done is joined and delivered: locally, to its origin, or after the members (R251, R259). -/
def State.joinQuery (s : State) (p : PartNo) (k : Coll) (c : Cmd) (w : Walk) : State :=
  let x := s.part p
  if c.scorer && x.stagePoison k c false then s.tearDown c.id stPoison else
  let (lists, dropped) :=
    if c.scorer then
      let r := s.score k c w (w.lists.headD [])
      ([selectK c.k r.1], r.2)
    else (w.lists, false)
  let s := if c.scorer then s.bump else s
  let out := if c.op = 0x32 || c.flat then scanExcess (areaBytes (c.op == 0x32)) w.qs.length c.k 0 w.passed else w.excess
  let w := { w with lists := lists, cut := w.cut || dropped, spilled := w.spilled || out != 0 }
  let s := s.placeSpill p c.id out
  let gathers := !c.omitPay && k.payload != 0 && c.mesh.isNone && (c.origin.isNone || c.inlinePay k)
  s.unpoisoned c.id p (if gathers then lists.flatten.map fun e => (k.payAt e.slot, k.payload) else []) <|
    match c.mesh, c.origin with
    | some m, _ =>
      let w := { w with joined := true }
      let s := s.setWalk c.id w
      if m.waiting.isEmpty then s.meshDone p k c w m else s
    | none, some _ =>
      let l := if c.inlinePay k then lists.map (x.gather k) else lists
      (s.modCmd c.id fun c => { c with lists := l, walkEnd := w.walkEnd }).finish c.id
        { status := noteStatus w.notes, count := (lists.map List.length).foldl (· + ·) 0, stamp := c.readStamp, work := c.workCount w }
    | none, none =>
      let l := if c.omitPay then lists else lists.map (x.gather k)
      s.deliver k c w l w.notes (c.workCount w)

/-- The fan-out of a query over a mesh collection (R199, R200, R485): every member must be reachable. -/
def State.fanOut (s : State) (p : PartNo) (k : Coll) (c : Cmd) : State :=
  let others := k.others s.mesh.deviceId
  if others.any fun o => s.unreachable o.2 then s.tearDown c.id stPeerLost
  else
    let tag := s.mesh.nextTag
    let s := others.foldl (fun s o =>
      s.sendRouted tCmd o.2 ((s.part p).feat 0x80) tag c.readStamp (min 1024 (64 + c.data.param.length + c.data.input.length)) c.cls true
        (.cmd (.fanout k.param c.packet c.data c.readStamp c.deadline)) (some p)) s.newTag
    s.modCmd c.id fun c => { c with mesh := some { tag := tag, waiting := others.map (·.1) } }

end Sys2Proof.Machine
end

