-- ==== Sys2Proof/Machine/Engines.lean ====
section
/-! DEFINITION. What a core's engines hold: Carafe (R19, R376), the feed buffers, stationary registers and foot rows of DA0 and DA1 (R214,
R215, R218, R234), the registers and the network of SEL (R253, R254), the walker's fetch buffers (R376). -/

namespace Sys2Proof.Machine

/-! ### Carafe (R19, R376, R377) -/

/-- The 16 KiB area of a context slot, in its half's context store. -/
def areaAt (slot : Nat) : Nat := slot / 64 * 2 ^ 21 + slot % 64 * 2 ^ 14

/-- The staging window of a half. -/
def windowAt (half : Bool) : Nat := (if half then 2 ^ 21 else 0) + 2 ^ 20

/-- Bytes of a core's Carafe; those not written since power-up or since its cluster was gated are free (R553). -/
def State.carafeBytes (s : State) (core a n : Nat) : Bytes :=
  (List.range n).map fun i =>
    ((s.coreAt core).carafe.get (a + i)).getD (Config.freeByte (s.coreAt core).eng.losses (2 ^ 65 + core * 2 ^ 22 + a + i))

def State.loadCarafe (s : State) (core a : Nat) (bs : Bytes) : State := s.modCore core fun c => { c with carafe := c.carafe.write a bs }

/-- The window with the transfer role, which the STU fills and drains (R376). -/
def State.transferWindow (s : State) (core : Nat) : Nat := windowAt !(s.coreAt core).computeWindow

/-- The last bytes of a buffer of a size. -/
def lastBytes (n : Nat) (bs : Bytes) : Bytes := bs.drop (bs.length - n)

/-- What the walker has fetched for a slot, in its buffer of 8 KiB (R376). -/
def State.walkerFetch (s : State) (core slot : Nat) (bs : Bytes) : State :=
  s.modCore core fun c => { c with eng := { c.eng with
    fetch := setKey c.eng.fetch slot (lastBytes 8192 (getKey c.eng.fetch slot [] ++ bs)) } }

/-! ### The distance arrays -/

/-- The bytes of a vector that pass `i` of width `w` reads: its elements, after the MX scales of their blocks (R138, R208). -/
def passBytes (t dim w i : Nat) (bs : Bytes) : Bytes :=
  let scales := if isMx t then dim / 32 else 0
  (if isMx t then slice bs (i * w / 32) (min (w / 32) (scales - i * w / 32)) else []) ++
    slice bs (scales + i * w * typeBits t / 8) (min w (dim - i * w) * typeBits t / 8)

/-- Operands fed to an array: its feed buffer keeps the last 32 KiB (R214). -/
def DistArray.fed (a : DistArray) (bs : Bytes) : DistArray := { a with feed := lastBytes 32768 (a.feed ++ bs) }

/-- The set of stationary registers in use, and the other. -/
def DistArray.held (a : DistArray) : List Bytes := if a.second then a.sets.2 else a.sets.1
def DistArray.other (a : DistArray) : List Bytes := if a.second then a.sets.1 else a.sets.2

/-- One pass (R215, R218): the set that holds its stationary slices is in use, loaded from the feed buffer beside the running one where
neither holds them; then the streaming slices enter. -/
def DistArray.pass (a : DistArray) (cols stream : List Bytes) : DistArray :=
  if a.held == cols then a.fed stream.flatten
  else if a.other == cols then { a with second := !a.second }.fed stream.flatten
  else
    let a := a.fed cols.flatten
    { a with sets := if a.second then (cols, a.sets.2) else (a.sets.1, cols), second := !a.second }.fed stream.flatten

/-- A tile of so many passes (R215, R234): its totals, list v of columns j, are the live set; then the sets swap, and OUT drains the
shadow set while the next tile accumulates. The chunk registers have been promoted (R223). -/
def DistArray.tile (a : DistArray) (passes : Nat) (cols stream : Nat → List Bytes) (totals : List (List Nat)) : DistArray :=
  let a := (List.range passes).foldl (fun a i => a.pass (cols i) (stream i)) a
  { a with live := a.shadow, shadow := totals, chunks := [] }

/-- The FP32 total of a candidate's dot product, as its key takes it. -/
def PartSt.totalOf (x : PartSt) (k : Coll) (seed qtype : Nat) (q : Bytes × Nat × Nat) (slot : Nat) : Nat :=
  (dot32 seed qtype k.vtype 0 (decodeVec qtype k.dim q.1) (decodeVec k.vtype k.dim (x.vec k slot))).bits32

/-! ### The select engine -/

/-- A lane: sort code, local id (R253). Entry e of a block lies in register e ÷ 16, lane e mod 16. -/
abbrev Lane := Nat × Nat

def laneLt (a b : Lane) : Bool := a.1 < b.1 || (a.1 == b.1 && a.2 < b.2)

/-- One compare-exchange step (R254): lane i with lane i + d, in rising order where i lies in an even block of size `b`. -/
def laneStep (b d : Nat) (l : List Lane) : List Lane :=
  l.zipIdx.map fun x =>
    let i := x.2
    let low := i / d % 2 == 0
    let y := l.getD (if low then i + d else i - d) x.1
    let small := if laneLt y x.1 then y else x.1
    let large := if laneLt y x.1 then x.1 else y
    if low == (i / b % 2 == 0) then small else large

/-- The steps of partner distances 2^(n-1) to 1. -/
def laneSteps (b : Nat) : Nat → List Lane → List Lane
  | 0, l => l
  | n + 1, l => laneSteps b n (laneStep b (2 ^ n) l)

/-- A sort of 2^n lanes by the bitonic network: n(n + 1)/2 steps, 10 for 16 lanes and 36 for 256. -/
def laneSort : Nat → List Lane → List Lane
  | 0, l => l
  | n + 1, l => laneSteps (2 ^ (n + 1)) (n + 1) (laneSort n l)

/-- An empty lane sorts behind every entry. -/
def noLane : Lane := (0xFFFFFFFF, 0xFFFFFFFF)

/-- So many lanes of a list. -/
def lanes (n : Nat) (l : List Lane) : List Lane := (l ++ List.replicate n noLane).take n

/-- A merge of two sorted runs of up to 128 lanes, in V0–V7 and V8–V15, the second entering in falling order: 8 steps. -/
def laneMerge (a b : List Lane) : List Lane := laneSteps 256 8 (lanes 128 a ++ (lanes 128 b).reverse)

/-- A streaming merge of two sorted lists, with 128 entries kept in registers: the next 128 come from the input of smaller next code, the
lower half of the merge is emitted and the upper half kept. -/
def streamMerge : Nat → List Lane → List Lane → List Lane → List Lane
  | 0, kept, _, _ => kept
  | fuel + 1, kept, a, b =>
    if a.isEmpty && b.isEmpty then kept
    else
      let fromA := b.isEmpty || (!a.isEmpty && !laneLt (b.headD noLane) (a.headD noLane))
      let m := laneMerge kept ((if fromA then a else b).take 128)
      m.take 128 ++ streamMerge fuel (m.drop 128) (if fromA then a.drop 128 else a) (if fromA then b else b.drop 128)

/-- Two sorted lists merged: the one of smaller first code gives the first 128 entries kept. -/
def mergeLists (a b : List Lane) : List Lane :=
  let (a, b) := if laneLt (b.headD noLane) (a.headD noLane) then (b, a) else (a, b)
  (streamMerge (a.length + b.length) (a.take 128) (a.drop 128) b).take (a.length + b.length)

/-! ### What a step leaves in a core's engines -/

/-- The first context of a command, where it runs on a core. -/
def State.ctxOf (s : State) (cid i : Nat) : Option Ctx :=
  let l := s.ctxs.filter fun x => x.cid == cid && x.state != .leaving
  l[i % l.length]?

/-- The lanes of a list in Carafe, 8 B each: local id, sort code. -/
def laneBytes (l : List Lane) : Bytes := l.flatMap fun x => toLe 4 x.2 ++ toLe 4 x.1

/-- A walk's step has run (R182, R253, R376): what it fetched is in its slot's buffer, its first 256 beam entries in V0 to V15, beam and
pool in its selection area (their order there is a DESIGN CHOICE, log 49). -/
def State.ranWalk (s : State) (p : PartNo) (c : Cmd) (w : Walk) (r : Reads) : State :=
  match s.ctxOf c.id 0 with
  | none => s
  | some x =>
    let l := w.beam.map fun e => (e.dist, e.slot)
    let s := s.walkerFetch x.core x.slot (r.reverse.flatMap fun y => (s.part p).bytes y.1 y.2)
    let s := s.loadCarafe x.core (areaAt x.slot) ((laneBytes (l ++ w.pool.map fun e => (e.dist, e.slot))).take 16384)
    s.modCore x.core fun d => { d with eng := { d.eng with sel := laneSort 8 (lanes 256 l) } }

/-- One batch of comparisons has run on a core (R214 to R218, R234): the records' bytes lie in the staging window with the compute role, and
pass through the arrays in tiles of 16 queries, DA0 and DA1 in turn (DESIGN CHOICE, log 49). -/
def State.ranBatch (s : State) (p : PartNo) (k : Coll) (w : Walk) (seed n core : Nat) (slots : List Nat) : State :=
  let x := s.part p
  let vs := slots.map (x.vec k)
  let width := 16 * groupSize w.qtype k.vtype
  let s := s.loadCarafe core (windowAt (s.coreAt core).computeWindow) (vs.flatten.take (2 ^ 20))
  (chunks 16 w.qs.length w.qs).zipIdx.foldl (fun s t =>
    let totals := slots.zipIdx.map fun z => t.1.zipIdx.map fun q =>
      x.totalOf k (sub (sub seed (n * 16 + z.2)) (16 * t.2 + q.2)) w.qtype q.1 z.1
    let run := fun a : DistArray => a.tile (ceilDiv k.dim width) (fun i => t.1.map fun q => passBytes w.qtype k.dim width i q.1)
      (fun i => vs.map fun v => passBytes k.vtype k.dim width i v) totals
    s.modCore core fun d => { d with eng :=
      if (n * ceilDiv w.qs.length 16 + t.2) % 2 = 0 then { d.eng with da0 := run d.eng.da0 } else { d.eng with da1 := run d.eng.da1 } }) s

/-- The lanes of a list of candidates: the local id is the place among the candidate records. -/
def candLanes (first : Nat) (l : List Cand) : List Lane := l.zipIdx.map fun e => (sortCode e.1.key, first + e.2)

/-- The batches of a turn have run: each on the context whose turn it is. SEL merges the batch of the first query into its running list, which
lies in the context's selection area. -/
def State.ranBatches (s : State) (p : PartNo) (k : Coll) (seed : Nat) (cid : Nat) (ok : Meta → Bool) (before after : Walk) : State :=
  (List.range (after.batches - before.batches)).foldl (fun s i =>
    match s.ctxOf cid ((before.batches + i) % before.shares) with
    | none => s
    | some x =>
      let n := before.batches + i
      let slots := (((before.toRank.drop (16 * i)).take 16).filter fun t => ok ((s.part p).meta k t)).eraseDups
      let old := candLanes 0 (before.lists.headD [])
      let new := laneSort 4 (lanes 16 (candLanes old.length (slots.zipIdx.map fun z =>
        (s.part p).cand k (sub (sub seed (n * 16 + z.2)) 0) before.qtype (before.qs.headD default) z.1)))
      let s := s.ranBatch p k before seed n x.core slots
      let s := s.loadCarafe x.core (areaAt x.slot) ((laneBytes (mergeLists old (new.take slots.length))).take 16384)
      s.modCore x.core fun d => { d with eng := { d.eng with sel := laneMerge (old.take 128) new } }) s

end Sys2Proof.Machine
end

