-- ==== Sys2Proof/Machine/Search.lean ====
section
/-! DEFINITION. SEARCH, SEARCH_COMPOUND, SCAN and their finer steps (R172 to R200), FETCH (R272 to R276), shadow scans (R202 to
R204). -/

namespace Sys2Proof.Machine

/-! ### Checks (R175, R194, R196, R213) -/

/-- PARAM_LEN is 64 and the filter block's length (R172, R195). -/
def filterLenErr (c : Cmd) : Option Err :=
  failIf (c.p 64 1 ≤ 15 && c.paramLen != 80 + 16 * c.p 64 1) (errAt stInvalidField 40)

/-- A legal QTYPE for a DIM (R173). -/
def Cmd.qtypeOk (c : Cmd) (k : Coll) : Bool :=
  let t := c.p (if c.op = 0x32 then 5 else 10) 1
  t ≤ 0x0A && (t == 0 || dimSuits t k.dim)

/-- The bytes of the input buffer a query needs; a QTYPE or an NQ outside its range names no length, and its own check
follows (R175). -/
def Cmd.queryNeed (c : Cmd) (k : Coll) : Nat :=
  if !c.qtypeOk k || (c.op == 0x32 && 256 < c.nq) then 0
  else if c.head then (match c.stage with | some g => vecBytes (rd g.param 7 1) (rd g.param 8 2) | none => 0)
  else c.nq * c.queryBytes k + if c.op != 0x32 && (c.p 9 1).testBit 0 then k.sketchW / 8 else 0

/-- The bytes of the output buffer a query needs (R270), where K and NQ lie in their ranges. -/
def Cmd.resultNeed (c : Cmd) (k : Coll) : Nat :=
  if 4096 < c.k || (c.op == 0x32 && 256 < c.nq) then 0
  else (if c.op = 0x32 then c.nq else 1) * c.k * (16 + k.resultPay c.omitPay)

/-- The elements of a query or of a head's input (R213). -/
def Cmd.elemErr (c : Cmd) (k : Coll) : Option Err :=
  if c.head then
    match c.stage with
    | some g => failIf (!vecFinite (rd g.param 7 1) (rd g.param 8 2) c.input) (errAt stInvalidField 24)
    | none => none
  else
    let qs := (List.range c.nq).map fun i => slice c.input (i * c.queryBytes k) (vecBytes (c.qtype k) k.dim)
    failIf (qs.any fun q => !vecFinite (c.qtype k) k.dim q || (k.metric == 1 && vecZero (c.qtype k) k.dim q)) (errAt stInvalidField 24)

/-- SEARCH_COMPOUND's own conditions, which follow the ranges of its fields (R175, R194). -/
def Cmd.compoundErr (c : Cmd) (k : Coll) : Option Err :=
  if c.op != 0x31 then none
  else
    firstErr
      [ failIf c.stage.isNone { st := stInvalidHandle },
        failIf (c.p 28 1 == 1 && (c.host mSketch || k.proj == 0)) (errAt stInvalidField 92),
        failIf (c.p 28 1 == 0 && c.p 29 1 == 0) (errAt stInvalidField 92),
        match c.stage with
        | some g => failIf ((c.p 28 1 == 1 && rd g.param 4 1 == 0) || (c.p 29 1 == 1 && rd g.param 5 1 == 0)) (errAt stInvalidField 88)
        | none => none ]

/-- The checks of SEARCH and SEARCH_COMPOUND, in the order of R175. -/
def searchErr (k : Coll) (c : Cmd) : Option Err :=
  let f := c.p
  firstErr
    [ bodyErr c filterLens true true false, filterLenErr c, c.inErr (c.queryNeed k), c.outErr (c.resultNeed k),
      failIf (!k.isGraph || (!k.isMesh && f 11 1 != 0)) { st := stTypeMismatch },
      reservedBits c.data.param 64 9 0xF8, reservedErr c.data.param 64 (if c.op = 0x31 then [(31, 33)] else [(24, 40)]),
      failIf (f 0 2 > 4096 || f 2 2 > 8192 || f 4 2 > 8192) { st := stLimit },
      failIf (f 0 2 == 0) (errAt stInvalidField 64),
      failIf (f 2 2 != 0 && f 2 2 < 16) (errAt stInvalidField 66),
      failIf (f 4 2 != 0 && f 4 2 < f 0 2) (errAt stInvalidField 68),
      failIf (f 6 1 > 4) (errAt stInvalidField 70), failIf (f 7 1 > 16) (errAt stInvalidField 71),
      failIf (f 8 1 > 2) (errAt stInvalidField 72), failIf (!c.qtypeOk k) (errAt stInvalidField 74),
      failIf (f 11 1 > 1) (errAt stInvalidField 75), failIf (f 12 4 > 2 ^ 24) (errAt stInvalidField 76),
      failIf (f 20 4 > 1000000) (errAt stInvalidField 84),
      failIf (c.op == 0x31 && f 28 1 > 1) (errAt stInvalidField 92), failIf (c.op == 0x31 && f 29 1 > 1) (errAt stInvalidField 93),
      failIf (c.op == 0x31 && f 30 1 > 1) (errAt stInvalidField 94),
      c.compoundErr k,
      filterErr (c.data.param.drop 64) 64,
      failIf (!c.head && !pairOk (c.qtype k) k.vtype) { st := stTypeMismatch },
      failIf ((c.host mSketch || k.proj == 0) && !(f 9 1).testBit 0) { st := stMissingData },
      c.elemErr k ]

/-- The checks of SCAN (R195, R196). -/
def scanErr (k : Coll) (c : Cmd) : Option Err :=
  let f := c.p
  let whole := k.isMesh && f 6 1 == 0
  firstErr
    [ bodyErr c filterLens true true false, filterLenErr c, c.inErr (c.queryNeed k), c.outErr (c.resultNeed k),
      failIf (k.isTable || (!k.isMesh && f 6 1 != 0)) { st := stTypeMismatch },
      reservedBits c.data.param 64 4 0xFE, reservedErr c.data.param 64 [(7, 1), (16, 48)],
      failIf (f 0 2 > 4096) { st := stLimit },
      failIf (f 0 2 == 0) (errAt stInvalidField 64), failIf (f 2 2 == 0 || f 2 2 > 256) (errAt stInvalidField 66),
      failIf (!c.qtypeOk k) (errAt stInvalidField 69), failIf (f 6 1 > 1) (errAt stInvalidField 70),
      failIf (whole && (f 8 4 != 0 || f 12 4 != 0)) (errAt stInvalidField 72),
      failIf (k.capacity < f 8 4 + f 12 4) (errAt stInvalidField 72),
      filterErr (c.data.param.drop 64) 64,
      failIf (!pairOk (c.qtype k) k.vtype) { st := stTypeMismatch },
      c.elemErr k ]

/-! ### Running a query -/

/-- The checks of a query; a shadow scan repeats a SEARCH that has passed them (R202). -/
def Cmd.queryErr (c : Cmd) (k : Coll) : Option Err := if c.shadow then none else if c.op = 0x32 then scanErr k c else searchErr k c

/-- A query begins where it has not: its fan-out over a mesh, then its own part. -/
def State.beginQuery (s : State) (p : PartNo) (k : Coll) (c : Cmd) : State :=
  if c.run != .idle then s
  else
    let t := if c.overMesh k && c.mesh.isNone then s.fanOut p k c else s
    match t.cmd? c.id with
    | some c => if c.phase == .running then t.startQuery p k c else t
    | none => t

/-- A walk after a step: its state beyond its area is placed (R264), and once it has ended its pool is dealt (R258). -/
def State.walkTo (s : State) (p : PartNo) (c : Cmd) (w : Walk) : State :=
  let s := (s.setWalk c.id w).placeSpill p c.id w.excess
  if w.ended then s.takeHelpers p c.id else s

/-- One turn of a query's walk (R178). -/
def State.walkTurn (s : State) (p : PartNo) (k : Coll) (c : Cmd) (w : Walk) : State :=
  let st := WS.turn { w := w } (s.part p) k c.readStamp c.returns s.now (s.past c.tWalk)
  s.unpoisoned c.id p st.reads (((s.walked p k.uid st).ranWalk p c st.w st.reads).walkTo p c (s.blocksOut c.core w st.w))

/-- The whole walk (R179). -/
def State.walkAll (s : State) (p : PartNo) (k : Coll) (c : Cmd) (w : Walk) : State :=
  let st := WS.run (s.part p) k c.readStamp c.returns s.now (s.past c.tWalk) (w.budget + 1) { w := w }
  s.unpoisoned c.id p st.reads (((s.walked p k.uid st).ranWalk p c st.w st.reads).walkTo p c (s.blocksOut c.core w st.w))

/-- Whether no further batch may start: past D for a re-rank that has compared one, past T_walk for a flat scan or a SCAN
(R184, R190, R197). -/
def State.stopBatches (s : State) (c : Cmd) (w : Walk) : Bool :=
  if c.op = 0x32 || c.flat then s.past c.tWalk else 0 < w.batches && s.past c.deadline

/-- Which compared slots count: a walk's pool holds only slots that may be returned; a flat scan tests each (R189). -/
def Cmd.counts (c : Cmd) (m : Meta) : Bool := if c.op = 0x32 || c.flat then c.returns m else true

/-- One batch, or the end of the comparisons at a cut point. -/
def State.rankTurn (s : State) (p : PartNo) (k : Coll) (c : Cmd) (w : Walk) : State :=
  if s.stopBatches c w then s.setWalk c.id { w with toRank := [], cut := true }
  else
    let (w', r) := w.batch (s.part p) k s.fresh c.keep c.few c.counts
    s.unpoisoned c.id p r ((s.bump.ranBatches p k s.fresh c.id c.counts w w').setWalk c.id w')

/-- Every batch that may start at this instant: after the first of a late re-rank the rest are dropped (R184). -/
def State.rankAll (s : State) (p : PartNo) (k : Coll) (c : Cmd) (w : Walk) : State :=
  let late := if c.op = 0x32 || c.flat then s.past c.tWalk else s.past c.deadline
  if w.toRank.isEmpty then s
  else if late then
    if c.op = 0x32 || c.flat || 0 < w.batches then s.setWalk c.id { w with toRank := [], cut := true }
    else
      let (w', r) := w.batch (s.part p) k s.fresh c.keep c.few c.counts
      s.unpoisoned c.id p r ((s.bump.ranBatches p k s.fresh c.id c.counts w w').setWalk c.id { w' with toRank := [], cut := w'.cut || !w'.toRank.isEmpty })
  else
    let (w', r) := Walk.batches_ (s.part p) k s.fresh c.keep c.few c.counts w.toRank.length (w, [])
    s.unpoisoned c.id p r ((s.bump.ranBatches p k s.fresh c.id c.counts w w').setWalk c.id w')

/-- A running command with its walk. -/
def State.withWalk (s : State) (cid : Nat) (f : Cmd → Walk → State) : State :=
  match s.cmd? cid with
  | some c => if c.phase == .running then (match c.run with | .walk w => f c w | _ => s) else s
  | none => s

/-- The join of a query whose comparisons are done (R259, R261). -/
def State.joinTurn (s : State) (p : PartNo) (k : Coll) (cid : Nat) : State :=
  s.withWalk cid fun c w =>
    if !w.ended || !w.toRank.isEmpty then s
    else if w.joined then
      match c.mesh with
      | some m => if m.waiting.isEmpty then s.meshDone p k c w m else s
      | none => s
    else s.joinQuery p k c w

/-- A query from where it stands to its end, or to its wait for members. -/
def State.runQuery (s : State) (p : PartNo) (k : Coll) (cid : Nat) : State :=
  let s := s.withWalk cid fun c w => if w.ended then s else s.walkAll p k c w
  let s := s.withWalk cid fun c w => s.rankAll p k c w
  s.joinTurn p k cid

/-- A query row: checks at its start, then the whole run. -/
def State.queryRow (s : State) (cid op : Nat) : State :=
  s.onColl cid op (fun _ k c => if c.run == .idle then c.queryErr k else none) fun p k c => (s.beginQuery p k c).runQuery p k cid

/-- SEARCH: the walk or the filtered flat scan, the re-rank, the selection and the results (R172 to R191). -/
def execSearch (cid : Nat) (s : State) : Res := .next (s.queryRow cid 0x30)

/-- SEARCH_COMPOUND: a SEARCH with a query head, a scorer or both (R192 to R194, R247, R248). -/
def execSearchCompound (cid : Nat) (s : State) : Res := .next (s.queryRow cid 0x31)

/-- SCAN: every visible, passing slot of its range compared with each query (R195 to R198). -/
def execScan (cid : Nat) (s : State) : Res := .next (s.queryRow cid 0x32)

/-- A finer step of whichever query command the id names. -/
def State.queryStep (s : State) (cid : Nat) (f : PartNo → Coll → Cmd → State) : State :=
  match s.cmd? cid with
  | some c =>
    if c.op = 0x30 || c.op = 0x31 || c.op = 0x32 then
      s.onColl cid c.op (fun _ k c => if c.run == .idle then c.queryErr k else none) f
    else s
  | none => s

/-- EXPANSION_STEP: the query's start where it has not begun, else one step of its walk (R178, R184). -/
def execExpansionStep (cid : Nat) (s : State) : Res :=
  .next <| s.queryStep cid fun p k c =>
    match c.run with
    | .walk w => if w.ended then s else s.walkTurn p k c w
    | _ => s.beginQuery p k c

/-- RERANK_BATCH: one batch of 16 of a query whose walk has ended (R184, R189). -/
def execRerankBatch (cid : Nat) (s : State) : Res :=
  .next <| s.queryStep cid fun p k c =>
    match c.run with
    | .walk w => if !w.ended || w.toRank.isEmpty then s else s.rankTurn p k c w
    | _ => s

/-- JOIN: the lists of a query whose comparisons are done are joined and its result delivered (R259 to R262). -/
def execJoin (cid : Nat) (s : State) : Res := .next <| s.queryStep cid fun p k _ => s.joinTurn p k cid

/-- MEMBER_NOT_RETURNED_BY_D: a reachable member that has not returned by D counts as an empty list: the frames that came before its last
one count for nothing (R200, R261, R487). -/
def execMemberNotReturnedByD (cid : Nat) (s : State) : Res :=
  .next <| s.queryStep cid fun p k c =>
    match c.mesh with
    | some m =>
      if m.asking || m.waiting.isEmpty || !s.past c.deadline then s
      else (s.modCmd cid fun c => { c with mesh := some { m with waiting := [], early := [], notes := m.notes ||| notePartial } }).joinTurn p k cid
    | none => s

/-! ### FETCH -/

/-- The parts' sizes of a fetch entry, in order (R273). -/
def fetchParts (k : Coll) (parts : Nat) : Nat :=
  (if parts.testBit 0 then k.vecSlot else 0) + (if parts.testBit 1 then k.payloadSlot else 0) +
  (if parts.testBit 2 then k.sketchW / 8 else 0) + (if parts.testBit 3 then 4 * k.degree else 0)

def Cmd.ids (c : Cmd) : List Nat := (List.range (c.p 0 4)).map fun i => rd c.input (8 * i) 8

def fetchCheck (k : Coll) (c : Cmd) : Option Err :=
  firstErr
    [ bodyErr c [64] true true false,
      failIf (k.isTable || (!k.isMesh && c.p 5 1 != 0)) { st := stTypeMismatch },
      reservedBits c.data.param 64 4 0xF0, reservedErr c.data.param 64 [(6, 58)],
      failIf (c.p 0 4 == 0 || c.p 0 4 > 65536) (errAt stInvalidField 64),
      failIf (c.p 5 1 > 1) (errAt stInvalidField 69),
      failIf (k.isFlat && (c.p 4 1 &&& 0xC != 0)) (errAt stInvalidField 68),
      c.inErr (8 * c.p 0 4), c.outErr (c.p 0 4 * (64 + fetchParts k (c.p 4 1))),
      failIf (c.ids.contains 0xFFFFFFFFFFFFFFFF) (errAt stInvalidField 24) ]

/-- The version of an id visible at a read stamp: from the id table's slot along PREV_SLOT (R163, R274). With the slots read. -/
def PartSt.version (x : PartSt) (k : Coll) (r : Nat) : Nat → Nat → Option Nat × List Nat
  | 0, _ => (none, [])
  | fuel + 1, slot =>
    if k.capacity ≤ slot then (none, [])
    else
      let m := x.meta k slot
      if m.visible r then (some slot, [slot])
      else let (v, l) := PartSt.version x k r fuel m.prev; (v, slot :: l)

/-- The home member of a global id (R129). -/
def Coll.home (k : Coll) (g : Nat) : Nat := if k.isMesh then ownerOf g k.members.length else 0

/-- A fetch entry that is not FOUND (R273). -/
def emptyEntry (k : Coll) (parts g result member : Nat) : Bytes :=
  toLe 8 g ++ toLe 1 result ++ toLe 1 0 ++ toLe 2 member ++ toLe 4 noSlot ++ zeros (48 + fetchParts k parts)

/-- The fetch entry of an id, and the ranges read (R273, R274). -/
def PartSt.fetchEntry (x : PartSt) (k : Coll) (parts r g : Nat) : Bytes × Reads :=
  let idr : Reads := [((k.bucketEntries (k.buckets g).1).headD 0, 64), ((k.bucketEntries (k.buckets g).2).headD 0, 64)]
  match x.idSlot k g with
  | none => (emptyEntry k parts g 1 k.memberIndex, idr)
  | some slot =>
    let (v, seen) := x.version k r ((x.usedSlots k).length + 1) slot
    let reads := idr ++ seen.map fun s => (k.metaAt s, 48)
    match v with
    | none => (emptyEntry k parts g 1 k.memberIndex, reads)
    | some s =>
      let m := x.meta k s
      let edges := if parts.testBit 3 then (x.edges k s).length else 0
      (toLe 8 g ++ toLe 1 0 ++ toLe 1 (if m.hostEdges then 1 else 0) ++ toLe 2 k.memberIndex ++ toLe 4 s ++ toLe 8 m.ins ++
        toLe 8 m.del ++ toLe 8 m.attr ++ toLe 4 m.nsq ++ toLe 2 edges ++ zeros 18 ++
        (if parts.testBit 0 then x.vec k s else []) ++ (if parts.testBit 1 then x.pay k s else []) ++
        (if parts.testBit 2 then x.bytes (k.sketchAt s) (k.sketchW / 8) else []) ++
        (if parts.testBit 3 then x.bytes (k.edgeAt s) (4 * k.degree) else []),
       reads ++ (if parts.testBit 0 then [(k.vecAt s, k.vecSlot)] else []) ++ (if parts.testBit 1 then [(k.payAt s, k.payloadSlot)] else []) ++
        (if parts.testBit 2 then [(k.sketchAt s, k.sketchW / 8)] else []) ++ (if parts.testBit 3 then [(k.edgeAt s, 4 * k.degree)] else []))

/-- No id lookup starts at or after D − 5 µs (R275). -/
def State.fetchLate (s : State) (c : Cmd) : Bool := s.past (c.deadline.map fun d => d - 5000)

/-- The entries this device looks up: its own ids, once each. -/
def State.lookups (s : State) (p : PartNo) (k : Coll) (c : Cmd) : List (Nat × Bytes) × Reads :=
  let mine := (c.ids.filter fun g => !(c.overMesh k || c.origin.isSome) || k.home g == k.memberIndex).eraseDups
  if s.fetchLate c then (mine.map fun g => (g, emptyEntry k (c.p 4 1) g 2 k.memberIndex), [])
  else
    let es := mine.map fun g => (g, (s.part p).fetchEntry k (c.p 4 1) c.readStamp g)
    (es.map fun e => (e.1, e.2.1), es.flatMap (·.2.2))

/-- The completion of a FETCH once every entry is in (R274 to R276). -/
def State.fetchDone (s : State) (k : Coll) (c : Cmd) (got : List (Nat × Bytes)) : State :=
  let es := c.ids.map fun g => getKey got g (emptyEntry k (c.p 4 1) g 2 (k.home g))
  let late := es.any fun e => rd e 8 1 == 2
  (s.output c 0 es.flatten).finish c.id
    { status := noteStatus (if late then notePartial else 0), count := (es.filter fun e => rd e 8 1 == 0).length, stamp := c.readStamp }

/-- FETCH (R272 to R276): each id's version at the read stamp; over a mesh, ids go to their home members. -/
def execFetch (cid : Nat) (s : State) : Res :=
  .next <| s.onColl cid 0x33 (fun _ k c => fetchCheck k c) fun p k c =>
    match c.mesh with
    | some m => if m.waiting.isEmpty then s.fetchDone k c m.fetched else s
    | none =>
      let (own, reads) := s.lookups p k c
      let homes := if c.overMesh k then ((c.ids.map k.home).eraseDups).filter fun h => h != k.memberIndex else []
      if homes.any fun h => s.unreachable (k.deviceOf h) then s.tearDown cid stPeerLost
      else
        s.unpoisoned cid p reads <|
          if c.origin.isSome then
            (s.modCmd cid fun c => { c with mesh := some { fetched := own } }).finish cid { stamp := c.readStamp, count := own.length }
          else if homes.isEmpty then s.fetchDone k c own
          else
            let tag := s.mesh.nextTag
            let s := homes.foldl (fun s h =>
              s.sendRouted tCmd (k.deviceOf h) ((s.part p).feat 0x80) tag c.readStamp (min 1024 (8 * c.p 0 4)) c.cls true
                (.cmd (.fanout k.param c.packet c.data c.readStamp c.deadline)) (some p)) s.newTag
            s.modCmd cid fun c => { c with mesh := some { tag := tag, waiting := homes, fetched := own } }

/-! ### Shadow scans (R202 to R204) -/

/-- n ÷ d as an FP32 value, rounded once. -/
def Flt.ofRat (n d : Nat) : Flt :=
  let q := n * 2 ^ 64 / d
  .fin false (2 * q + if n * 2 ^ 64 % d = 0 then 0 else 1) (-65)

/-- The comparison of a sample with its exact result (R204). -/
def Report.sample (r : Report) (q : Shadow) (exact : List Nat) : Report :=
  let hits := (q.result.filter fun g => exact.contains g).length
  if exact.isEmpty then { r with samples := (r.samples + 1) % 2 ^ 64 }
  else
    let v := (Flt.ofRat hits exact.length).round32
    let old := Flt.ofBits32 r.ewma
    let e := if r.expected = 0 then v else (old.add (((v.add old.neg).round32).mul (.fin false 1 (-6)))).round32
    { r with
      samples := (r.samples + 1) % 2 ^ 64
      hits := (r.hits + hits) % 2 ^ 64
      expected := (r.expected + exact.length) % 2 ^ 64
      ewma := e.bits32
      lastK := q.k
      lastStamp := q.stamp }

/-- The SCAN that repeats a sampled SEARCH (R202): its own command of class 0, priority 0 and no deadline, awaited by no queue pair. -/
def shadowCmd (id : Nat) (p : PartNo) (k : Coll) (q : Shadow) (now : Nat) (mode : Word32) (phase : Phase) : Cmd :=
  let param := fit 64 (toLe 2 q.k ++ toLe 2 1 ++ toLe 1 1 ++ toLe 1 q.qtype) ++ q.filter
  let input := fit (vecSlot (dflt q.qtype k.vtype) k.dim) q.query
  let list := fun n => toLe 8 0 ++ toLe 4 n ++ toLe 4 0
  { id := id, fn := .vf p, qid := 0xFFFF, part := some p, fetchTime := now, mode := mode
    packet := fit 64 (overlay (overlay (zeros 64) 0 ([0x32, 0, 0, 0] ++ toLe 2 q.handle ++ [0, 0] ++ toLe 4 0xFFFFFFFF)) 40
      (toLe 4 param.length ++ toLe 2 1 ++ toLe 2 1))
    phase := phase, admitTime := now, readStamp := q.stamp, shadow := true, coll := some k.uid
    data := { param := param, input := input, inList := list input.length, outList := list 0xFFFFFFFC } }

/-- A finished shadow scan is compared and is gone; one that failed counts nowhere (R203, R204). -/
def State.shadowEnd (s : State) (p : PartNo) (k : Coll) (c : Cmd) : State :=
  match (s.part p).shadows.find? fun q => q.handle == k.handle && q.stamp == c.readStamp with
  | none => s.drop c.id
  | some q =>
    let s := (s.drop c.id).modPart p fun x => { x with shadows := x.shadows.erase q }
    if statusClass c.status ≤ 1 then s.modCollU p k.uid fun k => { k with report := k.report.sample q c.resultIds } else s

/-- The command of a queued sample. -/
def State.shadowOf (s : State) (p : PartNo) (k : Coll) (q : Shadow) : Option Cmd :=
  s.cmds.find? fun c => c.shadow && c.part == some p && c.coll == some k.uid && c.readStamp == q.stamp

/-- A sample's command is made where it has none. -/
def State.shadowMake (s : State) (p : PartNo) (k : Coll) (q : Shadow) (phase : Phase) : State :=
  if (s.shadowOf p k q).isSome then s
  else s.addCmd (shadowCmd s.nextCid p k q s.now (s.modeOf p) phase)

/-- One sample of a pass: its scan is run; over a mesh it waits for the members. -/
def State.shadowOne (s : State) (p : PartNo) (k : Coll) (q : Shadow) : State :=
  match s.shadowOf p k q with
  | none => s
  | some c =>
    let s := s.queryRow c.id 0x32
    match s.cmd? c.id with
    | some c => if c.phase == .done then s.shadowEnd p k c else s
    | none => s

/-- SHADOW_SCAN (R203, R388): the samples of a collection that are queued together run as one pass. Its first sample's command joins the
admission queue at class 0 and takes the pass's contexts and reservation; once it runs, the others run in its contexts. -/
def execShadowScan (part : PartNo) (handle : Nat) (s : State) : Res :=
  .next <| s.settled <|
    match s.coll? part handle with
    | none => s
    | some k =>
      let qs := (s.part part).shadows.filter fun q => q.handle == handle
      match qs.head? with
      | none => s
      | some q =>
        match s.shadowOf part k q with
        | none => if s.tasksRun part then (s.ungate part).shadowMake part k q .queued else s
        | some c =>
          if c.phase == .queued || !s.tasksRun part then s
          else
            let s := if c.run == .idle && c.phase == .running then qs.foldl (fun s q => s.shadowMake part k q .running) s else s
            qs.foldl (fun s q => s.shadowOne part k q) s

end Sys2Proof.Machine
end

