-- ==== Sys2Proof/Machine/MutationOps.lean ====
section
/-! DEFINITION. What the mutation commands share: records and edge sets (R277 to R279), reservation (R282), writing PENDING versions
(R283), neighbour selection and back-links (R290 to R296), the commit phase (R284), the journaled form (R311, R313). -/

namespace Sys2Proof.Machine

/-! ### The parameter block and the records -/

def Cmd.mCount (c : Cmd) : Nat := c.p 0 4
def Cmd.mParts (c : Cmd) : Nat := c.p 4 1
def Cmd.noBacklink (c : Cmd) : Bool := (c.p 5 1).testBit 0
def Cmd.wantsResults (c : Cmd) : Bool := (c.p 5 1).testBit 1
def Cmd.insertBeam (c : Cmd) : Nat := dflt (c.p 6 2) 64
def Cmd.edgeSetCount (c : Cmd) : Nat := c.p 8 4
def Cmd.mAlpha (c : Cmd) : Nat := dflt (c.p 12 4) 0x3F99999A
def Cmd.insertBudget (c : Cmd) : Nat := dflt (c.p 16 4) (16 * c.insertBeam)

/-- The size of part i of a record: ATTR, VECTOR, PAYLOAD, SKETCH, NEIGHBOURS (R278). -/
def Coll.partSize (k : Coll) (i : Nat) : Nat :=
  match i with
  | 0 => 8
  | 1 => k.vecSlot
  | 2 => k.payloadSlot
  | 3 => k.sketchW / 8
  | _ => 4 * k.degree

/-- Where part i of a record begins; i = 5 gives the record's size (R278). -/
def Coll.partOff (k : Coll) (parts i : Nat) : Nat :=
  8 + (((List.range i).filter fun j => parts.testBit j).map k.partSize).foldl (· + ·) 0

def Coll.recSize (k : Coll) (parts : Nat) : Nat := k.partOff parts 5

/-- The size of an edge set (R278). -/
def Coll.setSize (k : Coll) : Nat := 16 + 4 * k.degree

/-- The part i of a record, where it is present. -/
def Coll.recPart (k : Coll) (parts i : Nat) (r : Bytes) : Bytes :=
  if parts.testBit i then slice r (k.partOff parts i) (k.partSize i) else []

/-- A list of 32-bit slot ids. -/
def u32s (n : Nat) (bs : Bytes) : List Nat := (List.range n).map fun i => rd bs (4 * i) 4

/-- The records and the edge sets of a mutation's input, in input order. -/
def Cmd.mRecords (c : Cmd) (k : Coll) : List Bytes :=
  (List.range c.mCount).map fun i => slice c.input (i * k.recSize c.mParts) (k.recSize c.mParts)

def Cmd.mSets (c : Cmd) (k : Coll) : List Bytes :=
  (List.range c.edgeSetCount).map fun i => slice c.input (c.mCount * k.recSize c.mParts + i * k.setSize) k.setSize

def Coll.setEdges (k : Coll) (e : Bytes) : List Nat := u32s k.degree (e.drop 16)

/-- The ids a mutation locks, as its input names them when it is fetched (R105): where its collection does not exist yet, the
record size is not known and the whole id space stands for them. -/
def State.mutationIds (s : State) (c : Cmd) : List Nat :=
  match c.part.bind fun p => s.coll? p c.handle with
  | some k => (List.range (min 4096 c.mCount)).map fun i => rd c.input (i * k.recSize c.mParts) 8
  | none => [0, 2 ^ 64 - 1]

/-- Host-assisted neighbour mode, and sketches that come from the host (R31, R150, R151). -/
def Cmd.hostNeighbours (c : Cmd) : Bool := c.host mNeighbour
def Cmd.hostSketch (c : Cmd) (k : Coll) : Bool := c.host mSketch || k.proj == 0

/-- Whether a mutation takes its edges and its sketches from its own parts: a replayed record of the other mode carries none, and the device
makes them (R319). -/
def Cmd.takesEdges (c : Cmd) : Bool := c.hostNeighbours && c.mParts.testBit 4
def Cmd.takesSketch (c : Cmd) (k : Coll) : Bool := c.hostSketch k && c.mParts.testBit 3

/-- Whether an edge list of the host is laid out by R293: valid entries first, each below MAX_RECORDS. -/
def edgeListOk (cap : Nat) (l : List Nat) : Bool :=
  l.all (fun e => e == noSlot || e < cap) && (l.dropWhile (· != noSlot)).all (· == noSlot)

/-- A valid list as it is written: repeats kept once, the block's own slot dropped (R293, R295). -/
def cleanEdges (own : Nat) (l : List Nat) : List Nat := ((l.takeWhile (· != noSlot)).eraseDups).filter (· != own)

/-! ### Checks (R277 to R279, R293) -/

/-- The parts an opcode may and must carry (R279, R42). -/
def partsErr (k : Coll) (c : Cmd) : Option Err :=
  let has := fun i => c.mParts.testBit i
  let bad := errAt stInvalidField 68
  let add := c.op == 0x40 || c.op == 0x42
  firstErr
    [ if add then
        firstErr
          [ failIf (!has 1 || has 2 != (k.payload != 0)) bad,
            failIf (k.isFlat && (has 3 || has 4)) bad,
            failIf (!k.isFlat && !c.hostNeighbours && has 4) bad,
            failIf (!k.isFlat && ((c.hostSketch k && !has 3) || (c.hostNeighbours && !has 4))) { st := stMissingData } ]
      else failIf (c.mParts != if c.op == 0x43 then 1 else 0) bad,
      failIf (c.edgeSetCount != 0 && (k.isFlat || !c.hostNeighbours)) (errAt stInvalidField 72) ]

/-- The record data of a mutation (R278). -/
def Cmd.recordData (c : Cmd) (k : Coll) : Nat := c.mCount * k.recSize c.mParts + c.edgeSetCount * k.setSize

/-- The conditions on each record (R139, R146, R293) and edge set (R9, R146, R293). -/
def contentErr (k : Coll) (c : Cmd) : Option Err :=
  let rs := c.mRecords k
  let es := c.mSets k
  let ids := rs.map fun r => rd r 0 8
  let targets := es.map fun e => rd e 0 8
  let off := errAt stInvalidField 24
  firstErr
    [ failIf (ids.eraseDups.length != ids.length || targets.eraseDups.length != targets.length) off,
      failIf ((ids ++ targets).contains 0xFFFFFFFFFFFFFFFF) off,
      failIf (es.any fun e => !isZero e 8 8) { st := stReserved },
      failIf (c.mParts.testBit 1 && rs.any fun r =>
        let v := k.recPart c.mParts 1 r
        !vecFinite k.vtype k.dim v || (k.metric == 1 && vecZero k.vtype k.dim v)) off,
      failIf ((c.mParts.testBit 4 && rs.any fun r => !edgeListOk k.capacity (u32s k.degree (k.recPart c.mParts 4 r))) ||
        es.any fun e => !edgeListOk k.capacity (k.setEdges e)) { st := stEdge } ]

/-- The checks of a mutation command, before it changes anything. A member's share may consist of edge sets alone. -/
def State.mutErr (s : State) (p : PartNo) (k : Coll) (c : Cmd) : Option Err :=
  firstErr
    [ bodyErr c [64] true c.wantsResults false,
      failIf k.isTable { st := stTypeMismatch },
      reservedBits c.data.param 64 4 0xE0, reservedBits c.data.param 64 5 0xFC, reservedErr c.data.param 64 [(20, 44)],
      failIf (c.mCount > 4096 || (c.mCount == 0 && (c.origin.isNone || c.edgeSetCount == 0))) (errAt stInvalidField 64),
      failIf (c.p 6 2 != 0 && (c.p 6 2 < 16 || 8192 < c.p 6 2)) (errAt stInvalidField 70),
      failIf (c.edgeSetCount > 4096) (errAt stInvalidField 72),
      failIf (c.p 12 4 != 0 && (c.p 12 4 < 0x3F800000 || 0x40000000 < c.p 12 4)) (errAt stInvalidField 76),
      failIf (2 ^ 24 < c.p 16 4) (errAt stInvalidField 80),
      partsErr k c,
      failIf (2 ^ 24 < c.recordData k) { st := stLimit },
      if c.origin.isSome then none else firstErr
        [ c.inErr (c.recordData k),
          if c.wantsResults then c.outErr (roundUp (c.mCount + c.edgeSetCount) 4) else none ],
      contentErr k c,
      s.journalErr p false ]

/-! ### The journaled form (R311, R313) -/

/-- The sizes of a record and an edge set in journaled form: each slot id becomes an 8 B global id. -/
def Coll.jRecSize (k : Coll) (parts : Nat) : Nat := k.recSize parts + if parts.testBit 4 then 4 * k.degree else 0
def Coll.jSetSize (k : Coll) : Nat := 16 + 8 * k.degree

/-- Items of given sizes split in order into runs of at most 1 MiB: how many items each run holds. -/
def splitRuns (cap : Nat) : List Nat → Nat → Nat → List Nat
  | [], _, 0 => []
  | [], _, n => [n]
  | a :: l, used, n => if n ≠ 0 ∧ cap < used + a then n :: splitRuns cap l a 1 else splitRuns cap l (used + a) (n + 1)

/-- The sizes of a command's items: its records, then its edge sets. -/
def Cmd.itemSizes (c : Cmd) (k : Coll) : List Nat :=
  List.replicate c.mCount (k.jRecSize c.mParts) ++ List.replicate c.edgeSetCount k.jSetSize

/-- The lengths of the records a command's journal entry takes (R313). -/
def Cmd.recordLens (c : Cmd) (k : Coll) : List Nat :=
  let runs := splitRuns (2 ^ 20) (c.itemSizes k) 0 0
  (runs.foldl (fun (a : List Nat × List Nat) n =>
    (a.1 ++ [recordLen (64 + (a.2.take n).foldl (· + ·) 0)], a.2.drop n)) ([], c.itemSizes k)).1

/-- A slot id in journaled form: the global id of the version there, or all ones where the slot is not LIVE. -/
def PartSt.slotGid (x : PartSt) (k : Coll) (e : Nat) : Bytes :=
  if e ≥ k.capacity then toLe 8 0xFFFFFFFFFFFFFFFF
  else let m := x.meta k e; toLe 8 (if m.state = slLive then m.gid else 0xFFFFFFFFFFFFFFFF)

/-- The bodies of a command's MUTATION records: the parameter block with the part's COUNT, then its items (R311). -/
def State.journalParts (s : State) (p : PartNo) (k : Coll) (c : Cmd) : List Bytes :=
  let x := s.part p
  let recs := (c.mRecords k).map fun r =>
    r.take (k.partOff c.mParts 4) ++ if c.mParts.testBit 4 then (u32s k.degree (k.recPart c.mParts 4 r)).flatMap (x.slotGid k) else []
  let sets := (c.mSets k).map fun e => e.take 16 ++ (k.setEdges e).flatMap (x.slotGid k)
  let items := recs.map (fun b => (true, b)) ++ sets.map fun b => (false, b)
  let runs := splitRuns (2 ^ 20) (c.itemSizes k) 0 0
  (runs.foldl (fun (a : List Bytes × List (Bool × Bytes)) n =>
    let now := a.2.take n
    (a.1 ++ [overlay c.data.param 0 (toLe 4 (now.filter (·.1)).length) ++ now.flatMap (·.2)], a.2.drop n)) ([], items)).1

/-! ### Outcomes and reservation (R279, R280, R282) -/

abbrev ocApplied := 0
abbrev ocAbsent := 1
abbrev ocExists := 2

/-- The slots of a collection that commands have reserved and not yet written (R282). -/
def State.reservedSlots (s : State) (p : PartNo) (uid cid : Nat) : List Nat :=
  s.cmds.flatMap fun c => if c.part == some p && c.coll == some uid && c.id != cid then
    (match c.run with | .mutation m => m.reserved | _ => []) else []

/-- What a mutation reserves: a FREE slot and an id-table entry for each record of an INSERT or UPSERT, and its journal space (R282). Entries
displaced to make room stay displaced where it fails: each id lies where R145 lets it. -/
def State.reserveMut (s : State) (p : PartNo) (k : Coll) (c : Cmd) : State × (Err ⊕ MutSt) :=
  let adds := c.op == 0x40 || c.op == 0x42
  let need := if adds then c.mCount else 0
  let slots := (s.part p).freeSlots k (s.reservedSlots p k.uid c.id) need
  let lens := if (s.part p).journal.state == .active then c.recordLens k else []
  let (t, claims) := s.idClaimAll p k (if adds then (c.mRecords k).map fun r => rd r 0 8 else [])
  match claims with
  | none => (t, .inl { st := stCapacity })
  | some claims =>
    if slots.length < need then (t, .inl { st := stCapacity })
    else if s.jFull p c.id lens then (t, .inl { st := stJournalFull })
    else (t, .inr { reserved := slots, space := lens, claims := claims })

/-- Whether the slot the id table names, if any, holds a current version. -/
def PartSt.liveAt (x : PartSt) (k : Coll) (old : Option Nat) : Bool :=
  match old with | some o => (x.meta k o).current | none => false

/-- The outcome code of one record (R280): an INSERT finds the id taken, a DELETE or update of an absent id does nothing. -/
def outcomeCode (op : Nat) (live : Bool) : Nat :=
  if op = 0x40 then (if live then ocExists else ocApplied)
  else if op = 0x42 || live then ocApplied
  else ocAbsent

/-- The outcome of one record (R279, R280): against the version the id table names. -/
def PartSt.outcome (x : PartSt) (k : Coll) (op : Nat) (r : Bytes) (parts : Nat) : MutRec :=
  let old := x.idSlot k (Sys2Proof.Machine.rd r 0 8)
  { gid := Sys2Proof.Machine.rd r 0 8, old := old, oldLive := x.liveAt k old, attr := le (k.recPart parts 0 r)
    outcome := outcomeCode op (x.liveAt k old) }

/-- What deciding an outcome reads: the id's two buckets and the version's meta entry. -/
def PartSt.outcomeReads (x : PartSt) (k : Coll) (g : Nat) : Reads :=
  [((k.bucketEntries (k.buckets g).1).headD 0, 64), ((k.bucketEntries (k.buckets g).2).headD 0, 64)] ++
    match x.idSlot k g with | some o => [(k.metaAt o, 48)] | none => []

/-- The records with their outcomes; each new version takes one of the reserved slots (R282). -/
def PartSt.outcomes (x : PartSt) (k : Coll) (c : Cmd) (m : MutSt) : MutSt :=
  (c.mRecords k).foldl (fun m r =>
    let o := x.outcome k c.op r c.mParts
    let new := (c.op == 0x40 || c.op == 0x42) && o.outcome == ocApplied
    { m with
      recs := m.recs ++ [if new then { o with slot := m.reserved.head? } else o]
      reserved := if new then m.reserved.drop 1 else m.reserved }) m

/-! ### Phase 3: PENDING versions (R283, R144, R150) -/

/-- A new version written into its slot, and its id-table entry, which was reserved (R282). -/
def State.writeVersion (s : State) (p : PartNo) (k : Coll) (c : Cmd) (seed : Nat) (r : Bytes) (o : MutRec) : State × Bool :=
  match o.slot with
  | none => (s, true)
  | some x =>
    let vec := slotBytes k.vecSlot (vecBytes k.vtype k.dim) (k.recPart c.mParts 1 r)
    let xs := decodeVec k.vtype k.dim vec
    let sq := normSq (sub seed 0) k.vtype xs
    let m : Meta := { gid := o.gid, attr := o.attr, nsq := sq, ninv := if k.metric = 1 then normInv sq (sub seed 1) else 0
                      state := slPending, prev := o.old.getD noSlot }
    let s := s.wrMem p (some c.id) (k.vecAt x) vec
    let s := if k.payload = 0 then s else s.wrMem p (some c.id) (k.payAt x) (slotBytes k.payloadSlot k.payload (k.recPart c.mParts 2 r))
    let sk := if c.takesSketch k then le (k.recPart c.mParts 3 r)
      else sketchOf (sub seed 2) k.vtype xs ((s.part p).projRows k)
    let s := if k.isFlat then s else s.wrMem p (some c.id) (k.sketchAt x) (toLe (k.sketchW / 8) sk)
    let s := s.wrMem p (some c.id) (k.metaAt x) m.bytes
    s.idSet p (some c.id) k o.gid x

/-- Phase 3 over every record. -/
def State.writeVersions (s : State) (p : PartNo) (k : Coll) (c : Cmd) (m : MutSt) : State × Bool :=
  let seed := s.fresh
  (((c.mRecords k).zip m.recs).zipIdx.foldl (fun a x =>
    if a.2 then a.1.writeVersion p k c (sub seed x.2) x.1.1 x.1.2 else a) (s.bump, true))

/-! ### Phase 4: neighbour selection (R290, R291, R293) -/

/-- A record of a collection as the first operand of a pruning distance. -/
def PartSt.asQuery (x : PartSt) (k : Coll) (slot : Nat) : Query :=
  let m := x.meta k slot
  { t := k.vtype, xs := decodeVec k.vtype k.dim (x.vec k slot), sq := m.nsq, inv := m.ninv }

/-- The pruning distance dp (R291): the cosine or squared-Euclidean key, negative values clamped to +0; `seed` names the step. -/
def PartSt.dp (x : PartSt) (k : Coll) (seed a b : Nat) : Nat :=
  let m := x.meta k b
  let v := (x.asQuery k a).key (sub (sub seed a) b) (if k.metric = 1 then 1 else 2) k.vtype k.dim (x.vec k b) m.nsq m.ninv
  if 0x80000000 ≤ v then 0 else v

/-- alpha × dp, rounded once to FP32 (R291). -/
def alphaTimes (alpha d : Nat) : Nat := (((Flt.ofBits32 alpha).mul (Flt.ofBits32 d)).round32).bits32

/-- The pruning rule of R291 over candidates in ascending order, as (slot, dp(x, slot)). -/
def pruneGo (dp : Nat → Nat → Nat) (alpha degree : Nat) : List (Nat × Nat) → List Nat → List Nat
  | [], kept => kept
  | (c, d) :: l, kept =>
    if degree ≤ kept.length then kept
    else if kept.any (fun j => sortCode (alphaTimes alpha (dp j c)) ≤ sortCode d) then pruneGo dp alpha degree l kept
    else pruneGo dp alpha degree l (kept ++ [c])

/-- Candidates ordered by dp from a slot, ties by ascending slot, and pruned (R291). -/
def PartSt.prune (x : PartSt) (k : Coll) (seed alpha own : Nat) (cand : List Nat) : List Nat :=
  let l := cand.map fun c => (c, x.dp k seed own c)
  let l := sortBy (fun a b => sortCode a.2 < sortCode b.2 || (sortCode a.2 == sortCode b.2 && a.1 < b.1)) l
  pruneGo (x.dp k seed) alpha k.degree l []

/-- What pruning reads: the vectors and metas of the slot and its candidates. -/
def Coll.pruneReads (k : Coll) (own : Nat) (cand : List Nat) : Reads := (own :: cand).flatMap k.compareReads

/-- The insert walk from a new version's sketch (R290): the candidates, the walk's leavings, the ranges read. -/
def PartSt.insertWalk (x : PartSt) (k : Coll) (c : Cmd) (slot r now : Nat) : WS :=
  let ok := fun m : Meta => m.state == slLive && m.del == 0 && m.visible r
  let w : Walk := { sketch := x.sketch k slot, k := 1, beamMax := c.insertBeam, poolMax := c.insertBeam, width := 4
                    budget := c.insertBudget, visited := [({} : VisitBlock)] }
  WS.run x k r ok now false (c.insertBudget + 1) (WS.seed { w := w, reads := [(k.sketchAt slot, k.sketchW / 8)] } x k r ok (x.entries k))

/-- Phase 4 of one new version: its edge block, with HOST_EDGES where the host gave it (R290, R291, R293, R296). Answers the
neighbours kept, and the walk's expansions. -/
def State.chooseEdges (s : State) (p : PartNo) (k : Coll) (c : Cmd) (slot : Nat) (r : Bytes) : State × List Nat × Nat × Reads :=
  let x := s.part p
  if c.takesEdges then
    let l := cleanEdges slot (u32s k.degree (k.recPart c.mParts 4 r))
    let s := s.wrMem p (some c.id) (k.edgeAt slot) (edgeBytes k.degree l)
    (s.wrMem p (some c.id) (k.metaAt slot + 41) (toLe 1 1), l, 0, [])
  else
    let st := x.insertWalk k c slot c.readStamp s.now
    let cand := st.w.pool.map (·.slot)
    let l := x.prune k s.fresh c.mAlpha slot cand
    ((s.bump.walked p k.uid st).wrMem p (some c.id) (k.edgeAt slot) (edgeBytes k.degree l), l, st.w.expansions,
     k.pruneReads slot cand ++ st.reads)

/-! ### Phase 5: back-links (R292, R296) -/

/-- Where a back-link to x goes in n's edge block: the entry index, or none where there is none to write (R292). -/
def PartSt.linkPlace (x : PartSt) (k : Coll) (n t : Nat) : Option Nat :=
  let e := x.edges k n
  if e.contains t then none
  else if e.length < k.degree then some e.length
  else
    match e.findIdx? fun d => d ≥ k.capacity || (let m := x.meta k d; m.state == slFree || m.del != 0) with
    | some i => some i
    | none =>
      let far := fun d => hamming k.sketchW (x.sketch k n) (x.sketch k d)
      (e.zipIdx.foldl (fun (a : Option (Nat × Nat) × Nat) d =>
        let dist := far d.1
        let top := match a.1 with | none => t | some (_, w) => w
        if a.2 < dist || (dist == a.2 && top < d.1) then (some (d.2, d.1), dist) else a) (none, far t)).1.map (·.1)

/-- What choosing the place reads. -/
def PartSt.linkReads (x : PartSt) (k : Coll) (n t : Nat) : Reads :=
  let e := (x.edges k n).filter (· < k.capacity)
  [(k.metaAt n, 48), (k.edgeAt n, 4 * k.degree), (k.sketchAt n, k.sketchW / 8), (k.sketchAt t, k.sketchW / 8)] ++
    e.flatMap fun d => [(k.metaAt d, 48), (k.sketchAt d, k.sketchW / 8)]

/-- A back-link from n to t; it clears n's HOST_EDGES where it changes the block (R292, R296). -/
def State.backlink (s : State) (p : PartNo) (k : Coll) (cid n t : Nat) : State :=
  match (s.part p).linkPlace k n t with
  | none => s
  | some i => (s.wrMem p (some cid) (k.edgeAt n + 4 * i) (toLe 4 t)).wrMem p (some cid) (k.metaAt n + 41) (toLe 1 0)

/-- The neighbours that receive back-links: those kept, or the host's that are LIVE with DELETE_STAMP 0 (R292, R293). -/
def PartSt.linkTargets (x : PartSt) (k : Coll) (c : Cmd) (l : List Nat) : List Nat :=
  if c.noBacklink then [] else if c.takesEdges then l.filter fun n => (x.meta k n).current else l

/-! ### The commit phase (R284) -/

/-- Step 2 of R284 for one record. -/
def State.commitRec (s : State) (p : PartNo) (k : Coll) (c : Cmd) (st : Nat) (r : MutRec) : State :=
  let x := s.part p
  let cid := some c.id
  if r.outcome != ocApplied then s
  else
    match r.slot, r.old with
    | some n, old =>
      let s := s.wrMem p cid (k.metaAt n) { x.meta k n with state := slLive, ins := st }.bytes
      let s := match old with
        | some o => if r.oldLive then (s.wrMem p cid (k.metaAt o + 16) (toLe 8 st)).postDrop p cid k (x.meta k o).attr o st else s
        | none => s
      let s := s.postAdd p cid k r.attr n
      s.modCollU p k.uid fun k =>
        if k.isGraph && k.entrySet.length < x.feat 0x22 then { k with entrySet := addOnce k.entrySet n } else k
    | none, some o =>
      let m := x.meta k o
      if c.op = 0x41 then (s.wrMem p cid (k.metaAt o + 16) (toLe 8 st)).postDrop p cid k m.attr o st
      else (s.wrMem p cid (k.metaAt o + 24) (toLe 8 r.attr)).postMove p cid k m.attr r.attr o st
    | none, none => s

/-- Step 3 of R284: edges of a new version to deleted or poisoned targets are dropped. -/
def State.checkEdges (s : State) (p : PartNo) (k : Coll) (c : Cmd) (n : Nat) : State :=
  let x := s.part p
  let es := x.edges k n
  let s := s.touch p ((k.edgeAt n, 4 * k.degree) :: (es.filter (· < k.capacity)).map fun t => (k.metaAt t, 48))
  let bad := es.filter fun t => t < k.capacity && (s.poisonIn p (k.metaAt t) 48).isSome
  let s' := bad.foldl (fun s t => s.logLate c.id stPoison (toLe 8 (((s.poisonIn p (k.metaAt t) 48).map (x.hbmAddr ·)).getD 0))) s
  let keep := es.filter fun t => !bad.contains t && (t ≥ k.capacity || (x.meta k t).del == 0)
  if keep.length = es.length then s' else s'.wrMem p (some c.id) (k.edgeAt n) (edgeBytes k.degree keep)

/-- Step 4 of R284: one edge set replaces its target's edge block (R295); answers its outcome. -/
def State.applySet (s : State) (p : PartNo) (k : Coll) (c : Cmd) (e : Bytes) : State × Nat :=
  let x := s.part p
  match x.idSlot k (rd e 0 8) with
  | none => (s, ocAbsent)
  | some t =>
    match s.reads p [(k.metaAt t, 48), (k.edgeAt t, 4 * k.degree)] with
    | (s, some b) => (s.logLate c.id stPoison (toLe 8 (x.hbmAddr b)), ocAbsent)
    | (s, none) =>
      if !(x.meta k t).current then (s, ocAbsent)
      else
        ((s.wrMem p (some c.id) (k.edgeAt t) (edgeBytes k.degree (cleanEdges t (k.setEdges e)))).wrMem p (some c.id) (k.metaAt t + 41)
          (toLe 1 1), ocApplied)

/-- Steps 2 to 4 of R284 at a commit stamp; answers the outcomes, records first. -/
def State.commitWrites (s : State) (p : PartNo) (k : Coll) (c : Cmd) (m : MutSt) (st : Nat) : State × List Nat :=
  let s := s.issued st
  let s := m.recs.foldl (fun s r => s.commitRec p k c st r) s
  let s := if k.isFlat then s else (m.recs.filterMap (·.slot)).foldl (fun s n => s.checkEdges p k c n) s
  let r := (c.mSets k).foldl (fun (a : State × List Nat) e =>
    let (t, o) := a.1.applySet p k c e
    (t, a.2 ++ [o])) (s, [])
  (r.1, m.recs.map (·.outcome) ++ r.2)

/-! ### The run of a share -/

/-- A member's share of a mutation: the records and edge sets whose home it is, in input order (R129, R288). -/
def Cmd.share (c : Cmd) (k : Coll) (member : Nat) : Cmd :=
  let mine := fun b : Bytes => k.home (rd b 0 8) == member
  let rs := (c.mRecords k).filter mine
  let es := (c.mSets k).filter mine
  { c with data := { c.data with
      param := overlay (overlay c.data.param 0 (toLe 4 rs.length)) 8 (toLe 4 es.length)
      input := rs.flatten ++ es.flatten } }

/-- The members that have a share of a mutation. -/
def Cmd.shareHomes (c : Cmd) (k : Coll) : List Nat := ((c.mRecords k ++ c.mSets k).map fun b => k.home (rd b 0 8)).eraseDups

/-- Where a share's outcomes lie among the command's outcome bytes: the indices of its records and edge sets (R281, R288). -/
def Cmd.sharePlaces (c : Cmd) (k : Coll) (member : Nat) : List Nat :=
  ((c.mRecords k ++ c.mSets k).zipIdx.filter fun x => k.home (rd x.1 0 8) == member).map (·.2)

/-- The outcome bytes of a share are written (R281). -/
def State.writeOutcomes (s : State) (k : Coll) (c : Cmd) (member : Nat) (os : List Nat) : State :=
  if !c.wantsResults || c.origin.isSome then s
  else if k.isMesh then ((c.sharePlaces k member).zip os).foldl (fun s x => s.output c x.1 (toLe 1 x.2)) s
  else s.output c 0 (os.map fun o => BitVec.ofNat 8 o)

def State.stillRuns (s : State) (cid : Nat) : Bool := (s.cmd? cid).any fun c => c.phase == .running

/-- A running command with its mutation. -/
def State.withMut (s : State) (cid : Nat) (f : MutSt → State) : State :=
  match s.cmd? cid with
  | some c => if c.phase == .running || c.phase == .committing then (match c.run with | .mutation m => f m | _ => s) else s
  | none => s

def State.setMut (s : State) (cid : Nat) (m : MutSt) : State := s.modCmd cid fun c => { c with run := .mutation m }

/-- Phase 2 (R282). -/
def State.mutReserve (s : State) (p : PartNo) (k : Coll) (c : Cmd) : State :=
  match s.reserveMut p k c with
  | (s, .inl e) => s.tearDown c.id e.st e.cause
  | (s, .inr m) => s.setMut c.id m

/-- Phase 3: outcomes and PENDING versions. -/
def State.mutWrite (s : State) (p : PartNo) (k : Coll) (c : Cmd) (m : MutSt) : State :=
  let x := s.part p
  let m := x.outcomes k c m
  s.unpoisoned c.id p ((c.mRecords k).flatMap fun r => x.outcomeReads k (rd r 0 8)) <|
    let (t, ok) := s.writeVersions p k c m
    if ok then t.setMut c.id m else s.tearDown c.id stCapacity

/-- Phase 4 of one record, in the order of the records. -/
def State.mutChoose (s : State) (p : PartNo) (k : Coll) (c : Cmd) (a : List (Nat × List Nat)) (slot : Nat) (r : Bytes) :
    State × List (Nat × List Nat) :=
  if !s.stillRuns c.id then (s, a)
  else
    let (t, l, w, reads) := s.chooseEdges p k c slot r
    (s.unpoisoned c.id p reads (t.withMut c.id fun m => t.setMut c.id { m with work := m.work + w }), a ++ [(slot, l)])

/-- Phase 5 of one back-link. -/
def State.mutLink (s : State) (p : PartNo) (k : Coll) (c : Cmd) (slot n : Nat) : State :=
  if !s.stillRuns c.id then s
  else
    s.unpoisoned c.id p ((s.part p).linkReads k n slot) <|
      let t := s.backlink p k c.id n slot
      t.withMut c.id fun m => t.setMut c.id { m with
        recs := m.recs.map fun r => if r.slot = some slot then { r with backlinks := addOnce r.backlinks n } else r }

/-- Phases 4 and 5 over every new version (R283); its walks take the read stamp r (R290). -/
def State.mutConnect (s : State) (p : PartNo) (k : Coll) (c : Cmd) (m : MutSt) (r : Nat) : State :=
  let news := ((c.mRecords k).zip m.recs).filterMap fun x => x.2.slot.map fun n => (n, x.1)
  if k.isFlat || news.isEmpty then s.setMut c.id { m with written := true }
  else
    let s := if c.takesEdges then s else (s.issued r).modCmd c.id fun c => { c with readStamp := r }
    let c := if c.takesEdges then c else { c with readStamp := r }
    let (s, kept) := news.foldl (fun a x => a.1.mutChoose p k c a.2 x.1 x.2) (s, [])
    let s := kept.foldl (fun s x => ((s.part p).linkTargets k c x.2).foldl (fun s n => s.mutLink p k c x.1 n) s) s
    if s.stillRuns c.id then s.withMut c.id fun m => s.setMut c.id { m with written := true } else s

/-- The commit phase at a stamp: writes, outcome bytes, lock, journal (R284, R281, R313). -/
def State.mutCommit (s : State) (p : PartNo) (k : Coll) (whole c : Cmd) (m : MutSt) (st : Nat) : State :=
  let (s, os) := s.commitWrites p k c m st
  let s := (s.unlock c.id).writeOutcomes k whole k.memberIndex os
  let parts := if (s.part p).journal.state == .active then s.journalParts p k c else []
  let n := ((os.take c.mCount).filter (· == ocApplied)).length
  let s := (s.settle c.id { count := n, stamp := st, work := m.work }).modCmd c.id fun c =>
    { c with commitStamp := st, mesh := c.mesh.map fun w => { w with
        outcomes := w.outcomes ++ [(k.memberIndex, os)], applied := w.applied ++ [k.memberIndex] } }
  let s := s.journal p c.id 1 k.handle c.op st parts
  if c.orphan then s.drop c.id else s

/-- The commit phase begins: it waits while its stamp would run ahead of the stamp clock (R160), its contexts COMMITTING. -/
def State.mutCommitTurn (s : State) (p : PartNo) (k : Coll) (whole c : Cmd) : State :=
  s.withMut c.id fun m =>
    if !m.written then s
    else if s.commitWaits then s.beginCommit c.id
    else s.mutCommit p k whole c m s.commitStamp

/-- A share from where it stands to its commit phase, and through it where `commit` says so. -/
def State.mutGo (s : State) (p : PartNo) (k : Coll) (whole c : Cmd) (commit : Bool) : State :=
  let s := if c.run == .idle then s.mutReserve p k c else s
  let s := s.withMut c.id fun m => if m.recs.isEmpty then s.mutWrite p k c m else s
  let s := s.withMut c.id fun m => if m.written || m.recs.isEmpty && c.mCount != 0 then s else s.mutConnect p k c m s.readStamp
  if commit then s.mutCommitTurn p k whole c else s

end Sys2Proof.Machine
end

