-- ==== Sys2Proof/Machine/Mutation.lean ====
section
/-! DEFINITION. INSERT, DELETE, UPSERT and SET_ATTRIBUTES (R277 to R296), alone or over a mesh (R288), the commit phase (R284) and a
member's commit report (R288). -/

namespace Sys2Proof.Machine

/-! ### Mesh mutations (R288) -/

/-- Prepare: every member with a share is asked to check and reserve; the origin reserves its own (R288, R289). -/
def State.meshPrepare (s : State) (p : PartNo) (k : Coll) (c : Cmd) : State :=
  let homes := c.shareHomes k
  let others := homes.filter (· != k.memberIndex)
  if others.any fun h => s.unreachable (k.deviceOf h) then s.tearDown c.id stPeerLost
  else
    let tag := s.mesh.nextTag
    let own := c.share k k.memberIndex
    let (s, res) := s.reserveMut p k own
    let (run, failed) := match res with
      | .inl e => (Run.idle, [(k.memberIndex, e.st)])
      | .inr m => (Run.mutation m, [])
    let s := others.foldl (fun s h =>
      let d := (c.share k h).data
      s.sendRouted tCmd (k.deviceOf h) ((s.part p).feat 0x80) tag 0 (min 1024 (64 + d.param.length + d.input.length)) c.cls true
        (.cmd (.prepare k.param c.packet d)) (some p)) s.newTag
    s.modCmd c.id fun c => { c with run := run, mesh := some { tag := tag, members := others, waiting := others, failed := failed } }

/-- Every member has answered prepare: abort with the status of the failing member of lowest index, or apply (R288). -/
def State.meshDecide (s : State) (p : PartNo) (k : Coll) (c : Cmd) (m : MeshWait) : State :=
  if !m.waiting.isEmpty || m.applying then s
  else
    match bestBy (fun a b => decide (a.1 < b.1)) m.failed with
    | some f => s.tearDown c.id f.2
    | none =>
      let own := (c.shareHomes k).contains k.memberIndex
      let s := s.tellMembers p k m.tag m.members .apply
      let s := s.modCmd c.id fun c => { c with mesh := some { m with
        applying := true, waiting := m.members ++ if own then [selfMember] else [] } }
      if own then s else s.settle c.id {}

/-- A member's step of another device's mutation: prepare, and once apply has come and its lock is granted, its share as a command
of its own (R288). -/
def State.memberMut (s : State) (p : PartNo) (k : Coll) (c : Cmd) (commit : Bool) : State :=
  match c.mesh with
  | none =>
    let s := s.mutReserve p k c
    if s.stillRuns c.id then
      let s := s.modCmd c.id fun c => { c with mesh := some {} }
      match c.origin with
      | some (d, tag) => s.sendRouted tResult d ((s.part p).feat 0x80) tag 0 16 c.cls true (.result (.prepared 0)) (some p)
      | none => s
    else s
  | some m => if m.applying && s.lockGranted c.id then s.mutGo p k c c commit else s

/-- The origin's step of a mutation on a mesh collection. -/
def State.originMut (s : State) (p : PartNo) (k : Coll) (c : Cmd) (commit : Bool) : State :=
  let s := if c.mesh.isNone then s.meshPrepare p k c else s
  let s := match s.cmd? c.id with
    | some c => if c.phase == Phase.running then (match c.mesh with | some m => s.meshDecide p k c m | none => s) else s
    | none => s
  match s.cmd? c.id with
  | some c =>
    match c.mesh with
    | some m => if m.applying && c.phase == Phase.running then s.mutGo p k c (c.share k k.memberIndex) commit else s
    | none => s
  | none => s

/-- One of the four mutation rows. -/
def State.mutRow (s : State) (cid op : Nat) (commit : Bool) : State :=
  s.onColl cid op (fun p k c => if c.run == .idle && c.mesh.isNone then s.mutErr p k c else none) fun p k c =>
    if c.origin.isSome then s.memberMut p k c commit
    else if k.isMesh then s.originMut p k c commit
    else s.mutGo p k c c commit

/-- INSERT (R280, R283): a new version of each absent record. -/
def execInsert (cid : Nat) (commit : Bool) (s : State) : Res := .next (s.mutRow cid 0x40 commit)

/-- DELETE (R280): DELETE_STAMP of each live record becomes the commit stamp. -/
def execDelete (cid : Nat) (commit : Bool) (s : State) : Res := .next (s.mutRow cid 0x41 commit)

/-- UPSERT (R163, R280): a new version of each record, the live old one stamped at the same commit. -/
def execUpsert (cid : Nat) (commit : Bool) (s : State) : Res := .next (s.mutRow cid 0x42 commit)

/-- SET_ATTRIBUTES (R164, R280): the attribute word of each live record in place. -/
def execSetAttributes (cid : Nat) (commit : Bool) (s : State) : Res := .next (s.mutRow cid 0x43 commit)

/-- COMMIT_PHASE (R284, R285): a mutation whose versions are written, or whose commit waited for its stamp, an orphan too. -/
def execCommitPhase (cid : Nat) (s : State) : Res :=
  .next <|
    s.settled <| s.onCmd cid (fun c => recordLockOps.contains c.op && (c.phase == .running || c.phase == .committing)) fun c =>
      match c.part with
      | none => s
      | some p =>
        match c.coll.bind (s.part p).collU? with
        | none => if c.orphan then s.drop cid else s
        | some k =>
          let own := if k.isMesh && c.origin.isNone then c.share k k.memberIndex else c
          match c.mesh with
          | some m => if m.applying then s.mutCommitTurn p k c own else s
          | none => s.mutCommitTurn p k c own

/-- A member's commit report joins the totals of the origin's command, its outcome bytes are written (R281, R288), and the completion
waits for the largest commit stamp (R168). -/
def State.takeReport (s : State) (cid member stamp : Nat) (outcomes : List Nat) (work : Nat) : State :=
  match s.cmd? cid with
  | none => s
  | some c =>
    match c.part, c.mesh with
    | some p, some m =>
      match c.coll.bind (s.part p).collU? with
      | none => s
      | some k =>
        if !m.applying || !m.waiting.contains member || m.outcomes.any (fun o => o.1 == member) then s
        else
          let n := (c.share k member).mCount
          let applied := ((outcomes.take n).filter (· == ocApplied)).length
          let s := s.writeOutcomes k c member outcomes
          let s := s.modCmd cid fun c => { c with commitStamp := max c.commitStamp stamp, mesh := some { m with
            count := m.count + applied, stamp := max m.stamp stamp, work := m.work + work, applied := m.applied ++ [member]
            outcomes := m.outcomes ++ [(member, outcomes)] } }
          s.reported cid member
    | _, _ => s

/-- MEMBER_COMMIT_REPORT (R288). -/
def execMemberCommitReport (cid : Nat) (member : Nat) (stamp : Nat) (outcomes : List Nat) (work : Nat) (s : State) : Res :=
  .next <| s.onCmd cid (fun c => recordLockOps.contains c.op && c.origin.isNone) fun _ => s.takeReport cid member stamp outcomes work

end Sys2Proof.Machine
end

