-- ==== Sys2Proof/Machine/Consolidation.lean ====
section
/-! DEFINITION. Consolidation passes and slot reclaim (R297 to R305), COLLECTION_CONSOLIDATE (R304). -/

namespace Sys2Proof.Machine

/-- The slots one step of a pass visits (R298). -/
abbrev passStep : Nat := 4096

/-- A poisoned meta entry or edge block met by a pass or a reclaim is logged as HBM event 10 (R297, R300, R560). -/
def State.logPoisonMet (s : State) (p : PartNo) (k : Coll) (off slot : Nat) : State :=
  let addr := (s.part p).hbmAddr off
  s.log { seq := 0, status := stPoison, kind := kHbm, scope := scPartition, part := some p, unit := (channelOf addr s.channelList).1
          detail := detail [(24, toLe 8 addr), (32, toLe 1 10), (33, [0xFF]), (36, toLe 4 slot), (40, toLe 2 k.handle)] }

/-- The first poisoned burst of a slot's meta entry. -/
def State.metaPoison (s : State) (p : PartNo) (k : Coll) (slot : Nat) : Option Nat := s.poisonIn p (k.metaAt slot) 48

/-- Whether a slot whose meta entry reads without poison is dead to a pass with stamp P (R297). -/
def Meta.dead (m : Meta) (stamp : Nat) : Bool := m.state == slFree || (m.del != 0 && m.del < stamp)

/-- The slots a pass visits from one slot up to another: the slots ever written, and any whose entry poison has reached. -/
def State.passSlots (s : State) (p : PartNo) (k : Coll) (lo hi : Nat) : List Nat :=
  if s.clean then ((s.part p).usedSlots k).filter fun x => lo ≤ x && x < hi
  else (List.range (hi - lo)).map (· + lo)

/-- What an edge target is to a pass: dead and poisoned, dead, or not dead. -/
structure Target where
  slot : Nat
  dead : Bool
  /-- its own edge block may give replacements: not FREE, read without poison -/
  gives : Bool
  deriving DecidableEq, Repr, Inhabited

/-- The targets of an edge block as the pass reads them; poisoned meta entries are logged. -/
def State.passTargets (s : State) (p : PartNo) (k : Coll) (stamp : Nat) (es : List Nat) : State × List Target :=
  es.foldl (fun a t =>
    if k.capacity ≤ t then (a.1, a.2 ++ [{ slot := t, dead := true, gives := false }])
    else
      match a.1.reads p [(k.metaAt t, 48)] with
      | (s, some o) => (s.logPoisonMet p k o t, a.2 ++ [{ slot := t, dead := true, gives := false }])
      | (s, none) =>
        let m := (s.part p).meta k t
        (s, a.2 ++ [{ slot := t, dead := m.dead stamp, gives := m.state != slFree }])) (s, [])

/-- The replacements that a dead target's edge block gives: LIVE targets with DELETE_STAMP 0, but the slot itself. -/
def State.passGives (s : State) (p : PartNo) (k : Coll) (own : Nat) (t : Target) : State × List Nat :=
  if !t.gives then (s, [])
  else
    match s.reads p [(k.edgeAt t.slot, 4 * k.degree)] with
    | (s, some o) => (s.logPoisonMet p k o t.slot, [])
    | (s, none) =>
      (((s.part p).edges k t.slot).filter fun u => u != own && u < k.capacity).foldl (fun a u =>
        match a.1.reads p [(k.metaAt u, 48)] with
        | (s, some o) => (s.logPoisonMet p k o u, a.2)
        | (s, none) => (s, if ((s.part p).meta k u).current then addOnce a.2 u else a.2)) (s, [])

/-- One slot visited (R297): its edge block is rewritten where it has a dead target, so that no edge is left to a slot that the pass makes
eligible (R301); where a vector that pruning would read is poisoned, its dead edges go and none is added (DESIGN CHOICE, log 48). Answers
the edge entries removed. -/
def State.passVisit (s : State) (p : PartNo) (k : Coll) (q : Pass) (x : Nat) : State × Nat :=
  match s.reads p [(k.metaAt x, 48)] with
  | (s, some o) => (s.logPoisonMet p k o x, 0)
  | (s, none) =>
    let m := (s.part p).meta k x
    if m.state != slLive || m.dead q.stamp || k.isFlat then (s, 0)
    else
      match s.reads p [(k.edgeAt x, 4 * k.degree)] with
      | (s, some o) => (s.logPoisonMet p k o x, 0)
      | (s, none) =>
        let (s, ts) := s.passTargets p k q.stamp ((s.part p).edges k x)
        let dead := ts.filter (·.dead)
        if dead.isEmpty then (s, 0)
        else
          let keep := (ts.filter fun t => !t.dead).map (·.slot)
          let (s, cand) := if q.rewire then dead.foldl (fun a t =>
              let (s, l) := a.1.passGives p k x t
              (s, l.foldl addOnce a.2)) (s, keep)
            else (s, keep)
          let (s, bad) := if q.rewire then s.reads p (k.pruneReads x cand) else (s, none)
          let rewire := q.rewire && bad.isNone
          let l := if rewire then (s.part p).prune k s.fresh q.alpha x cand else keep
          ((s.bump.wrMem p none (k.edgeAt x) (edgeBytes k.degree l)).wrMem p none (k.metaAt x + 41) (toLe 1 0), dead.length)

/-! ### Reclaim (R299, R300) -/

/-- Whether R165 still keeps a slot whose DELETE_STAMP is d: a running command, a queued shadow scan or a list whose payloads an origin
may still ask for (R267) reads below d. Such a list is held for a second at most, and not for an origin that is unreachable (DESIGN CHOICE,
log 48). -/
def State.keptByReads (s : State) (p : PartNo) (k : Coll) (d : Nat) : Bool :=
  ((s.part p).payHolds.any fun h => h.uid == k.uid && h.stamp < d && s.now < h.at_ + 1000000000 && !(s.peer h.dev).unreachable) ||
  (s.cmds.any fun c => c.coll == some k.uid && c.readStamp != 0 && c.readStamp < d) ||
  (s.part p).shadows.any fun q => q.handle == k.handle && !k.dropping && q.stamp < d

/-- The version whose PREV_SLOT names a slot. -/
def PartSt.newer (x : PartSt) (k : Coll) (slot : Nat) (gid : Nat) : Option Nat :=
  (x.usedSlots k).find? fun n => let m := x.meta k n; m.state != slFree && m.prev == slot && m.gid == gid

/-- One slot reclaimed (R300); where a read that this needs returns poison, none of it happens and the slot stays out of use. -/
def State.reclaimSlot (s : State) (p : PartNo) (k : Coll) (x : Nat) : State :=
  let m := (s.part p).meta k x
  let new := (s.part p).newer k x m.gid
  let reads := [(k.metaAt x, 48)] ++ (new.toList.map fun n => (k.metaAt n, 48)) ++
    [((k.bucketEntries (k.buckets m.gid).1).headD 0, 64), ((k.bucketEntries (k.buckets m.gid).2).headD 0, 64)]
  match s.reads p reads with
  | (s, some o) =>
    (s.logPoisonMet p k o x).modCollU p k.uid fun k => { k with eligible := k.eligible.filter (· != x), stuck := addOnce k.stuck x }
  | (s, none) =>
    let s := s.modCollU p k.uid fun k => { k with
      entrySet := k.entrySet.filter (· != x)
      eligible := k.eligible.filter (· != x)
      postings := k.postings.filter fun e => e.slot != x }
    let s := match new with | some n => s.wrMem p none (k.metaAt n + 44) (toLe 4 noSlot) | none => s
    let s := if (s.part p).idSlot k m.gid = some x then s.idClear p none k m.gid else s
    s.wrMem p none (k.metaAt x) (zeros 48)

/-- Every eligible slot that R165 allows is reclaimed. -/
def State.reclaimEligible (s : State) (p : PartNo) (k : Coll) : State :=
  (k.eligible.filter fun x => !s.keptByReads p k ((s.part p).meta k x).del).foldl (fun s x =>
    match (s.part p).collU? k.uid with
    | some k => s.reclaimSlot p k x
    | none => s) s

/-- RECLAIM_CHECK (R299): every 1 ms, over the collections of a partition. -/
def execReclaimCheck (part : PartNo) (s : State) : Res :=
  .next <| s.settled <| (s.part part).colls.foldl (fun s k => s.reclaimEligible part k) s

/-! ### Passes (R298, R302 to R304) -/

/-- The tombstones of a collection that are neither eligible nor out of use. -/
def PartSt.tombstones (x : PartSt) (k : Coll) : List Nat :=
  (x.liveSlots k).filter fun n => (x.meta k n).del != 0 && !k.eligible.contains n && !k.stuck.contains n

/-- The pass in progress; a pass ends with the command that runs it. -/
def State.passOf (s : State) (k : Coll) : Option Pass :=
  k.pass.filter fun q => match q.cid with | some a => (s.cmd? a).isSome | none => true

/-- A pass begins: P is issued as a read stamp (R297). -/
def State.beginPass (s : State) (p : PartNo) (k : Coll) (rewire : Bool) (alpha : Nat) (cid : Option Nat) : State :=
  let st := s.readStamp
  (s.issued st).modCollU p k.uid fun k => { k with
    pass := some { stamp := st, rewire := rewire, alpha := alpha, cid := cid }
    lastPass := s.now }

/-- The command whose contexts run the device's own pass over a collection (R298). -/
def State.passCmd (s : State) (p : PartNo) (k : Coll) : Option Cmd :=
  s.cmds.find? fun c => c.shadow && c.op == 0x24 && c.part == some p && c.coll == some k.uid

/-- It joins the admission queue at class 0. -/
def State.passMake (s : State) (p : PartNo) (k : Coll) : State :=
  let c : Cmd := {
    id := s.nextCid, fn := .vf p, qid := 0xFFFF, part := some p, phase := .queued, fetchTime := s.now, mode := s.modeOf p
    packet := fit 64 ([0x24, 0, 0, 0] ++ toLe 2 k.handle), shadow := true, coll := some k.uid }
  let s := s.ungate p
  if (s.passCmd p k).isSome then s else s.addCmd c

/-- The device's own pass gives up its contexts. -/
def State.passDrop (s : State) (p : PartNo) (k : Coll) : State :=
  match s.passCmd p k with
  | some c => s.drop c.id
  | none => s

/-- A pass that has visited every slot is complete: slots become eligible, and are reclaimed where R165 allows (R299). -/
def State.endPass (s : State) (p : PartNo) (k : Coll) (q : Pass) : State :=
  let x := s.part p
  let new := (x.tombstones k).filter fun n => (x.meta k n).del < q.stamp && (s.metaPoison p k n).isNone
  let s := s.modCollU p k.uid fun k => { k with pass := none, eligible := k.eligible ++ new }
  let s := match q.cid with
    | some a => s.finish a { count := new.length, work := q.removed / 1024 }
    | none => s.passDrop p k
  match (s.part p).collU? k.uid with
  | some k => s.reclaimEligible p k
  | none => s

/-- One step of a pass: 4,096 slots in ascending order (R298). -/
def State.runStep (s : State) (p : PartNo) (k : Coll) (q : Pass) : State :=
  let hi := min k.capacity (q.next + passStep)
  let (s, n) := (s.passSlots p k q.next hi).foldl (fun (a : State × Nat) x =>
    let (t, m) := a.1.passVisit p k q x
    (t, a.2 + m)) (s, 0)
  let q := { q with next := hi, removed := q.removed + n }
  let s := s.modCollU p k.uid fun k => { k with pass := some q }
  if k.capacity ≤ hi then
    match (s.part p).collU? k.uid with
    | some k => s.endPass p k q
    | none => s
  else s

/-- CONSOLIDATION_TRIGGER (R302): in hardware mode a rewiring pass begins where the tombstones or the interval call for one. -/
def execConsolidationTrigger (part : PartNo) (handle : Nat) (s : State) : Res :=
  .next <|
    match s.coll? part handle with
    | none => s
    | some k =>
      let x := s.part part
      let t := (x.tombstones k).length
      if k.isTable || !s.tasksRun part || (s.modeOf part).getLsbD mConsol || (s.passOf k).isSome || t = 0 then s
      else if x.feat 0x30 * (x.liveSlots k).length < t * 1000000 || k.lastPass + x.feat 0x31 * 1000000000 ≤ s.now then
        (s.beginPass part k true (x.feat 0x32) none).passMake part k
      else s

/-- CONSOLIDATION_STEP (R298): one step of the pass in progress, which steps only while it holds contexts: those of its command, or of the
device's own, which joins the admission queue again where a restart has taken it. -/
def execConsolidationStep (part : PartNo) (handle : Nat) (s : State) : Res :=
  .next <| s.settled <|
    match s.coll? part handle with
    | none => s
    | some k =>
      match s.passOf k with
      | none => s
      | some q =>
        match match q.cid with | some a => s.cmd? a | none => s.passCmd part k with
        | none => if s.tasksRun part then s.passMake part k else s
        | some c =>
          if c.shadow && c.phase == .done then s.drop c.id
          else if s.tasksRun part && c.ioRunning 0x24 then s.runStep part k q else s

/-- The checks of COLLECTION_CONSOLIDATE (R304). -/
def consolidateErr (k : Coll) (c : Cmd) : Option Err :=
  firstErr
    [ bodyErr c [64] false false false, failIf k.isTable { st := stTypeMismatch },
      reservedErr c.data.param 64 [(1, 3), (8, 56)],
      failIf (c.p 0 1 > 1) (errAt stInvalidField 64),
      failIf (c.p 4 4 != 0 && (c.p 4 4 < 0x3F800000 || 0x40000000 < c.p 4 4)) (errAt stInvalidField 68) ]

/-- COLLECTION_CONSOLIDATE (R304): it waits for a pass in progress to end, then begins its own and runs its first step; the further
steps are CONSOLIDATION_STEP, and the last completes the command. -/
def execCollectionConsolidate (cid : Nat) (s : State) : Res :=
  .next <|
    s.onColl cid 0x24 (fun _ k c => if c.shadow || (k.pass.bind (·.cid)) == some cid then none else consolidateErr k c) fun p k c =>
      if c.shadow then s
      else if k.dropping then s.finish cid {}
      else
        match s.passOf k with
        | some q => if q.cid == some cid then s.runStep p k q else s
        | none =>
          let alpha := if c.p 4 4 = 0 then (s.part p).feat 0x32 else c.p 4 4
          let s := s.beginPass p k (c.p 0 1 == 1) alpha (some cid)
          match (s.part p).collU? k.uid with
          | some k => match k.pass with | some q => s.runStep p k q | none => s
          | none => s

end Sys2Proof.Machine
end

