-- ==== Sys2Proof/Machine/CollectionCmd.lean ====
section
/-! DEFINITION. COLLECTION_CREATE (R131 to R135), COLLECTION_DROP (R136) and DENSE_LOAD (R240 to R246). -/

namespace Sys2Proof.Machine

/-- Whether a commit must wait because its stamp would run ahead of the stamp clock (R160). -/
def State.stampWaits (s : State) (p : PartNo) : Bool := (s.part p).journal.state == .active && s.commitWaits

/-- A collection's creation commits when its handle appears; a searchable one is journaled (R133, R309). -/
def State.created (s : State) (p : PartNo) (c : Cmd) (k : Coll) (rtype : Nat) (data : Bytes) (r : Compl) : State :=
  let s := s.modPart p fun x => { x with colls := x.colls ++ [{ k with lastPass := s.now }] }
  let s := (s.modCmd c.id fun c => { c with coll := some k.uid }).placeDirectories p
  if k.isTable then s.finish c.id r
  else
    let st := s.commitStamp
    let s := if (s.part p).journal.state == .active then s.issued st else s
    let s := (s.settle c.id r).journalOne p c.id rtype k.handle c.op st data
    s.modCollU p k.uid fun k =>
      { k with createSeq := if (s.part p).journal.state == .active then (s.part p).journal.nextSeq - 1 else 0 }

/-- COLLECTION_CREATE. -/
def execCollectionCreate (cid : Nat) (s : State) : Res :=
  .next <|
    s.onPart cid 0x20 s.createErr fun p c =>
      let param := c.data.param
      let members := u16s (c.p 36 2) (c.input.drop (matrixBytes param))
      let handle := if c.handle = 0 then ((s.part p).freeHandle).getD 0 else c.handle
      match (s.part p).place (Coll.laid 0 0 param members 0).size with
      | none => s
      | some base =>
        if s.stampWaits p && c.p 0 1 = 0 then s
        else
          let k := Coll.laid handle cid param members base
          let s := (s.fillColl p k (c.input.take (matrixBytes param))).output c 0 k.reportBytes
          s.created p c k 2 (param ++ c.input.take (matrixBytes param + 2 * members.length)) { count := handle }

/-- COLLECTION_DROP: at its commit the handle is gone; its stage sets are unloaded, its pass and its queued shadow
scans end (R136, R203, R246, R298). -/
def execCollectionDrop (cid : Nat) (s : State) : Res :=
  .next <|
    s.onColl cid 0x21 (fun p k c => firstErr [bodyErr c [] false false false, s.journalErr p k.isTable, s.ringErr p c.id k.isTable 0]) fun p k c =>
      if s.stampWaits p && !k.isTable then s
      else
        let st := s.commitStamp
        let s := s.modPart p fun x => { x with shadows := x.shadows.filter fun q => q.handle != k.handle }
        let s := match k.pass.bind fun q => q.cid.map fun a => (a, q.removed) with
          | some (a, n) => s.finish a { work := n / 1024 }
          | none => (s.cmds.filter fun (c : Cmd) => c.shadow && c.op == 0x24 && c.coll == some k.uid).foldl (fun (s : State) (c : Cmd) => s.drop c.id) s
        let s := s.modCollU p k.uid fun k => { k with dropping := true, stages := [], pass := none }
        if k.isTable then s.finish c.id {}
        else
          let s := if (s.part p).journal.state == .active then s.issued st else s
          (s.settle c.id {}).journalOne p c.id 3 k.handle c.op st []

/-! ### DENSE_LOAD -/

/-- The input type of each layer of a stage, from the first's (R242). -/
def inTypes (first : Nat) (ls : List Layer) : List Nat := first :: (ls.map fun l => outType l.fmt)

/-- Whether a CHUNK suits the accumulation and the class of the pair (R223, R241). -/
def Layer.chunkOk (l : Layer) (inType : Nat) : Bool :=
  if l.fp16 then
    l.chunk == 0 ||
      (match groupSize inType l.wtype with
        | 4 => l.chunk % 64 == 0 && l.chunk ≤ 512
        | 8 => l.chunk % 128 == 0 && l.chunk ≤ 512
        | _ => l.chunk % 256 == 0 && l.chunk ≤ 512)
  else l.chunk == 0

/-- The rules of a layer (R241, R242) with the offsets of their fields: `at_` is its descriptor's place, `acc` its ACC byte,
`need` the IN_WIDTH that what comes before it asks for, `outOk` and `fmtOk` what its place in the stage asks of its output. -/
def Layer.rules (l : Layer) (at_ acc inType need : Nat) (outOk fmtOk : Bool) : List (Bool × Nat) :=
  [ (1 ≤ l.inW && l.inW == need && dimSuits l.wtype l.inW, at_), (1 ≤ l.outW && outOk && (l.fmt != 6 || l.outW % 32 == 0), at_ + 2),
    (1 ≤ l.wtype && l.wtype ≤ 0x0A && pairOk inType l.wtype, at_ + 4), (acc ≤ 1, at_ + 5), (l.chunkOk inType, at_ + 6),
    (l.act ≤ 5, at_ + 8), (l.fmt ≤ 6 && fmtOk, at_ + 9), ((Flt.ofBits32 l.rowScale).isFinite, at_ + 12) ]

/-- The rules of a stage's layers in order: each takes what the one before gives, and `last` says what the last one gives. -/
def stageRules (b : Bytes) (first need base : Nat) (ls : List Layer) (last : Layer → Bool × Bool) : List (Bool × Nat) :=
  (ls.zipIdx.zip (inTypes first ls)).flatMap fun x =>
    let i := x.1.2
    let l := x.1.1
    let isLast := i + 1 == ls.length
    let at_ := 64 * (base + i + 1)
    l.rules at_ (rd b (at_ + 5) 1) x.2 (if i = 0 then need else ((ls[i - 1]?).map (·.outW)).getD 0)
      (if isLast then (last l).1 else true) (if isLast then (last l).2 else l.fmt != 0)

/-- The rules of R240 and R242 that give 0x2002, with the offset of each one's field in the block. -/
def denseRules (k : Coll) (b : Bytes) : List (Bool × Nat) :=
  let f := rd b
  let hs := headLayers b
  let ss := scorerLayers b
  let load := f 6 1 != 1
  let ids : List (Bool × Nat) :=
    [ (1 ≤ f 0 4, 0), (f 4 1 ≤ 2 && (if load then 1 ≤ f 4 1 + f 5 1 else f 4 1 == 0), 4), (f 5 1 ≤ 3 && (load || f 5 1 == 0), 5),
      (f 6 1 ≤ 1, 6) ]
  ids ++
  if !load then (List.range 37).map fun i => (f (7 + i) 1 == 0, 7 + i)
  else
    let inputs : List (Bool × Nat) :=
      [ (if hs.isEmpty then f 7 1 == 0 else 1 ≤ f 7 1 && f 7 1 ≤ 0x0A, 7),
        (if hs.isEmpty then f 8 2 == 0 else 1 ≤ f 8 2 && dimSuits (f 7 1) (f 8 2), 8),
        ((f 10 1 != 0) == !ss.isEmpty, 10), (f 11 1 ≤ 8 && ((f 11 1 != 0) == (f 10 1).testBit 3), 11) ]
    inputs ++
    (List.range 8).flatMap (fun i =>
      let o := 12 + 4 * i
      if i < f 11 1 then
        ([ (f o 1 ≤ 63 && (8 < f (o + 1) 1 || f o 1 + f (o + 1) 1 ≤ 64), o), (1 ≤ f (o + 1) 1 && f (o + 1) 1 ≤ 8, o + 1) ] : List (Bool × Nat))
      else (List.range 4).map fun j => (f (o + j) 1 == 0, o + j)) ++
    stageRules b (f 7 1) (f 8 2) 0 hs (fun l => (l.outW == k.dim, l.fmt != 0 && pairOk (outType l.fmt) k.vtype)) ++
    stageRules b 0x06 (scorerWidth b k.dim) hs.length ss fun l => (l.outW == 1, l.fmt == 0)

/-- The reserved bytes of the header and the descriptors. -/
def denseReserved (b : Bytes) : Option Err :=
  let n := rd b 4 1 + rd b 5 1
  firstErr ([reservedBits b 64 10 0xF0, reservedErr b 64 [(44, 20)]] ++
    (if rd b 6 1 = 1 then [] else (List.range (min 8 (rd b 11 1))).map fun i => reservedErr b 64 [(14 + 4 * i, 2)]) ++
    (List.range n).flatMap fun i => [reservedBits b 64 (64 * (i + 1) + 10) 0xFC,
      reservedErr b 64 [(64 * (i + 1) + 11, 1), (64 * (i + 1) + 16, 48)]])

/-- Whether a width exceeds 8,192 (R245). -/
def denseWide (b : Bytes) : Bool := rd b 8 2 > 8192 || (headLayers b ++ scorerLayers b).any fun l => 8192 < l.inW || 8192 < l.outW

/-- Whether each value of a layer's parts is finite (R242). -/
def Layer.finite (l : Layer) (part : Bytes) : Bool :=
  (List.range l.outW).all fun o =>
    vecFinite l.wtype l.inW (slice part (o * l.rowBytes) l.rowBytes) &&
    (!l.hasScale || (Flt.ofBits32 (rd part (l.weightBytes + 4 * o) 4)).isFinite) &&
    (!l.hasBias || (Flt.ofBits32 (rd part (l.weightBytes + l.scaleBytes + 4 * o) 4)).isFinite)

def layersFinite : List Layer → Bytes → Bool
  | [], _ => true
  | l :: ls, input => l.finite input && layersFinite ls (input.drop l.bytes)

def State.denseErr (s : State) (p : PartNo) (k : Coll) (c : Cmd) : Option Err :=
  let b := c.data.param
  let ls := headLayers b ++ scorerLayers b
  let need := (ls.map Layer.bytes).foldl (· + ·) 0
  let load := c.p 6 1 == 0
  let others := k.stages.filter fun g => g.id != c.p 0 4
  firstErr
    [ bodyErr c [64 * (1 + c.p 4 1 + c.p 5 1)] load false false,
      failIf (!k.isGraph) { st := stTypeMismatch },
      denseReserved b,
      if denseWide b then none else brokenRule (denseRules k b),
      failIf (denseWide b) { st := stLimit },
      if load then firstErr [c.inErr 0, failIf (scatterLen c.data.inList != need) (errAt stInvalidField 24),
        failIf (!layersFinite ls c.input) (errAt stInvalidField 24),
        failIf (others.length ≥ 16 || 2 ^ 28 < ((others.map fun g => roundUp g.input.length 256).foldl (· + ·) 0) + roundUp need 256)
          { st := stLimit },
        failIf (s.scratchFree p < roundUp need 256) { st := stCapacity }]
      else none ]

/-- Whether an earlier DENSE_LOAD of the collection is still to commit: they commit in order of admission (R246). -/
def State.denseWaits (s : State) (c : Cmd) : Bool :=
  s.cmds.any fun d => d.op == 0x60 && d.phase == .running && d.coll == c.coll && d.id != c.id && d.admitSeq < c.admitSeq

/-- DENSE_LOAD: its commit installs or removes the stage set in the collection's descriptor (R246); an installed set lies in scratchpad
(R245). -/
def execDenseLoad (cid : Nat) (s : State) : Res :=
  .next <|
    s.onCmd cid (fun c => !s.denseWaits c) fun _ =>
      s.onColl cid 0x60 s.denseErr fun p k c =>
        let others := k.stages.filter fun g => g.id != c.p 0 4
        if c.p 6 1 = 0 then
          let g : StageSet := { id := c.p 0 4, tag := cid, param := c.data.param, input := c.input }
          ((s.modCollU p k.uid fun k => { k with stages := others ++ [g] }).fillUse p .stage k.uid cid c.input).finish cid {}
        else (s.modCollU p k.uid fun k => { k with stages := others }).finish cid {}

end Sys2Proof.Machine
end

