-- ==== Sys2Proof/Machine/Image.lean ====
section
/-! DEFINITION. COLLECTION_EXPORT (R321 to R324, R522) and COLLECTION_IMPORT (R325, R326, R521): the inner image (R323) and its
envelope (R520). -/

namespace Sys2Proof.Machine

abbrev chunkSize : Nat := 1048576

/-! ### The inner image (R323) -/

/-- The size of a record in an image. -/
def Coll.imageRec (k : Coll) : Nat := 24 + k.vecSlot + k.payloadSlot + k.sketchW / 8 * (if k.isFlat then 0 else 1) + 4 * k.degree

/-- The rows whose lines a table's image holds, in ascending order: every row, or those of the blocks this member owns. -/
def Coll.imageRows (k : Coll) : List Nat :=
  if k.isMesh then
    (sortBy (· < ·) (k.tm.slots.map (·.1))).flatMap fun b => ((List.range 64).map (64 * b + ·)).filter (· < k.capacity)
  else List.range k.capacity

/-- Where the line of a row lies: in its block's slot on a mesh table (R328, R357). -/
def Coll.lineAt (k : Coll) (row : Nat) : Nat :=
  if k.isMesh then k.metaOff + (64 * getKey k.tm.slots (row / 64) 0 + row % 64) * k.lineSize else k.metaOff + row * k.lineSize

/-- The size of an inner image of n records. -/
def Coll.innerLen (k : Coll) (n : Nat) : Nat :=
  192 + imageMatrix k.param + 2 * k.members.length + n * if k.isTable then k.lineSize else k.imageRec

/-- The image header (R323). -/
def imageHeader (id snap seq jid records : Nat) : Bytes :=
  fit 128 (ascii [0x53, 0x50, 0x5A, 0x49] ++ toLe 4 1 ++ toLe 8 id ++ toLe 8 snap ++ toLe 8 seq ++ toLe 8 jid ++ toLe 8 records)

/-- The slots an image holds: the records visible at its stamp, ascending. -/
def PartSt.imageSlots (x : PartSt) (k : Coll) (st : Nat) : List Nat := (x.liveSlots k).filter fun s => (x.meta k s).visible st

/-- One record of an image; an edge is the image index of its target (R323). -/
def PartSt.imageRecord (x : PartSt) (k : Coll) (slots : List Nat) (s : Nat) : Bytes :=
  let m := x.meta k s
  toLe 8 m.gid ++ toLe 8 m.ins ++ toLe 8 m.attr ++ x.vec k s ++ x.pay k s ++
    (if k.isFlat then [] else toLe (k.sketchW / 8) (x.sketch k s)) ++
    (List.range k.degree).flatMap fun j =>
      toLe 4 (((slots.findIdx? (· == x.rd (k.edgeAt s + 4 * j) 4))).getD noSlot)

/-- The inner image. -/
def PartSt.innerImage (x : PartSt) (k : Coll) (id snap seq jid : Nat) : Bytes :=
  let slots := x.imageSlots k snap
  let rows := k.imageRows
  imageHeader id snap seq jid (if k.isTable then rows.length else slots.length) ++ k.param ++
    x.bytes k.projOff (imageMatrix k.param) ++ k.members.flatMap (toLe 2) ++
    if k.isTable then rows.flatMap fun r => x.bytes (k.lineAt r) k.lineSize else slots.flatMap fun s => x.imageRecord k slots s

/-- What an export reads. -/
def PartSt.imageReads (x : PartSt) (k : Coll) (snap : Nat) : Reads :=
  (if imageMatrix k.param = 0 then [] else [(k.projOff, imageMatrix k.param)]) ++
  if k.isTable then k.imageRows.map fun r => (k.lineAt r, k.lineSize)
  else (x.usedSlots k).flatMap fun s => (k.metaAt s, 48) ::
    if (x.meta k s).visible snap then
      [(k.vecAt s, k.vecSlot)] ++ (if k.payload = 0 then [] else [(k.payAt s, k.payloadSlot)]) ++
        if k.isFlat then [] else [(k.sketchAt s, k.sketchW / 8), (k.edgeAt s, 4 * k.degree)]
    else []

/-! ### The envelope (R520) -/

/-- The image's size: envelope header, blob, sealed chunks, padded to 4 KiB. -/
def imageSize (blob inner : Nat) : Nat := roundUp (64 + blob + inner + 16 * ceilDiv inner chunkSize) 4096

def envelopeHeader (blob inner : Nat) (cid : Bytes) : Bytes :=
  fit 64 (ascii [0x53, 0x50, 0x5A, 0x45] ++ toLe 4 1 ++ toLe 4 blob ++ toLe 4 chunkSize ++ toLe 8 inner ++
    toLe 4 (ceilDiv inner chunkSize) ++ zeros 4 ++ fit 16 cid)

/-- Chunk i's nonce and additional data. -/
def chunkNonce (i : Nat) : Bytes := toLe 8 i ++ zeros 4
def chunkAad (header : Bytes) (i : Nat) : Bytes := header ++ toLe 8 i

/-- An image: the inner image sealed under a content key, behind its header and blob. -/
def envelope (key : Nat) (cid blob inner : Bytes) : Bytes :=
  let header := envelopeHeader blob.length inner.length cid
  let body := (chunks chunkSize inner.length inner).zipIdx.flatMap fun c =>
    fit (c.1.length + 16) (Config.gcmSeal key (chunkNonce c.2) (chunkAad header c.2) c.1)
  fit (imageSize blob.length inner.length) (header ++ blob ++ body)

/-- The chunks of an image opened in order; none where a tag fails or bytes are missing. -/
def openChunks (key : Nat) (header : Bytes) : Nat → Nat → Nat → Bytes → Option Bytes
  | 0, _, _, _ => some []
  | n + 1, i, left, bs =>
    let len := min chunkSize left
    if bs.length < len + 16 then none
    else
      match Config.gcmOpen key (chunkNonce i) (chunkAad header i) (bs.take (len + 16)) with
      | none => none
      | some d =>
        match openChunks key header n (i + 1) (left - len) (bs.drop (len + 16)) with
        | none => none
        | some r => if d.length = len then some (d ++ r) else none

/-! ### COLLECTION_EXPORT -/

def Cmd.durable (c : Cmd) : Bool := (c.p 0 1).testBit 0
def Cmd.sizeOnly (c : Cmd) : Bool := (c.p 0 1).testBit 1

/-- B: the size of an image holding every slot that was LIVE at admission (R321). -/
def Cmd.imageBound (c : Cmd) (k : Coll) : Nat :=
  imageSize (128 + 528 * c.devs.length) (k.innerLen (if k.isTable then k.imageRows.length else c.bound))

def exportErr (k : Coll) (c : Cmd) : Option Err :=
  firstErr
    [ bodyErr c [64] false true false, reservedBits c.data.param 64 0 0xFC, reservedErr c.data.param 64 [(1, 63)],
      c.outErr (if c.sizeOnly then 0 else c.imageBound k) ]

/-- SNAP_SEQ: the largest SEQ whose commit stamp is no greater than s (R322). -/
def Journal.snapSeq (j : Journal) (st : Nat) : Nat :=
  if j.state == .off then 0
  else (((j.recs.filter fun r => r.rtype != 5 && r.stamp ≤ st).getLast?).map (·.seq)).getD (j.trimSeq - 1)

/-- COLLECTION_EXPORT: the sealed image at the read stamp, or its bound; a DURABLE one completes after a flushing read. -/
def execCollectionExport (cid : Nat) (s : State) : Res :=
  .next <|
    s.onColl cid 0x23 (fun _ k c => exportErr k c) fun p k c =>
      let x := s.part p
      if c.sizeOnly then s.finish cid { count := c.imageBound k / 4096, stamp := c.readStamp }
      else
        s.unpoisoned cid p (x.imageReads k c.readStamp) <|
          let content := Config.freeBytes (s.fresh + 1) 16
          let seq := x.journal.snapSeq c.readStamp
          let inner := x.innerImage k (Config.freeNat s.fresh % 2 ^ 64) c.readStamp seq
            (if x.journal.state == .off then 0 else x.journal.id)
          let s := (s.bump 2).newKey
          let blob := s.makeBlob p c.devs 1 s.sec.keyCount content
          let img := envelope s.sec.keyCount content blob inner
          let s := s.output c 0 img
          let r : Compl := { count := img.length / 4096, stamp := c.readStamp }
          if c.durable then
            let s := (s.settle cid r).modCmd cid fun c => { c with snapSeq := seq }
            (s.emit (.hostRead c.fn (((scatter c.data.outList).head?.map (·.1)).getD 0) 64)).modPart p fun x =>
              { x with journal := { x.journal with reads := x.journal.reads ++ [2 ^ 64 + cid] } }
          else s.finish cid r

/-! ### COLLECTION_IMPORT -/

/-- What an image gives once it has been opened. -/
structure Opened where
  inner : Bytes
  debugReq : Nat
  minFw : Nat
  deriving DecidableEq, Repr, Inhabited

/-- The envelope is unwrapped, checked and opened (R519, R521). -/
def State.openImage (s : State) (img : Bytes) : Nat ⊕ Opened :=
  let bl := rd img 8 4
  let blob := slice img 64 bl
  let inner := rd img 16 8
  match s.unwrap blob with
  | .inl st => .inl st
  | .inr (key, content, req, fw) =>
    if slice img 0 4 == ascii [0x53, 0x50, 0x5A, 0x45] && rd img 4 4 == 1 && rd img 12 4 == chunkSize &&
        rd img 24 4 == ceilDiv inner chunkSize && isZero img 28 4 && isZero img 48 16 && slice img 32 16 == content &&
        rd blob 12 1 == 1 then
      match openChunks key (img.take 64) (ceilDiv inner chunkSize) 0 inner (img.drop (64 + bl)) with
      | some bs => if bs.length = inner then .inr { inner := bs, debugReq := req, minFw := fw } else .inl stImageCheck
      | none => .inl stImageCheck
    else .inl stImageCheck

/-- The parts of an inner image. -/
structure Inner where
  id : Nat
  snap : Nat
  seq : Nat
  jid : Nat
  records : Nat
  param : Bytes
  matrix : Bytes
  members : List Nat
  body : Bytes
  deriving DecidableEq, Repr, Inhabited

def Inner.parse (b : Bytes) : Inner :=
  let param := slice b 128 64
  let m := imageMatrix param
  let n := rd param 36 2
  { id := rd b 8 8, snap := rd b 16 8, seq := rd b 24 8, jid := rd b 32 8, records := rd b 40 8, param := param
    matrix := slice b 192 m, members := u16s n (b.drop (192 + m)), body := b.drop (192 + m + 2 * n) }

/-- The parameter block with the chosen capacity. -/
def Inner.withCapacity (i : Inner) (cap : Nat) : Bytes := if cap = 0 then i.param else overlay i.param 16 (toLe 8 cap)

/-- The edges of record n of an image. -/
def Inner.edges (i : Inner) (k : Coll) (n : Nat) : List Nat := u32s k.degree (i.body.drop (n * k.imageRec + (k.imageRec - 4 * k.degree)))

/-- Whether an inner image is one this device can place (R323, R325): its magic, version and length, rows for a table's lines, edges
that name records of the image. -/
def Inner.ok (i : Inner) (b : Bytes) (k : Coll) : Bool :=
  slice b 0 4 == ascii [0x53, 0x50, 0x5A, 0x49] && rd b 4 4 == 1 && isZero b 48 80 && b.length == k.innerLen i.records &&
  (if k.isTable then i.records == k.imageRows.length
   else i.records ≤ k.capacity && (List.range i.records).all fun n => (i.edges k n).all fun e => e == noSlot || e < i.records)

/-- One record placed in the slot of its index: norms recomputed, id table and posting lists built (R325); false where the id table
is full. -/
def State.placeRecord (s : State) (p : PartNo) (k : Coll) (seed : Nat) (i : Inner) (n : Nat) : State × Bool :=
  let r := slice i.body (n * k.imageRec) k.imageRec
  let vec := slotBytes k.vecSlot (vecBytes k.vtype k.dim) (slice r 24 k.vecSlot)
  let sq := normSq (sub seed 0) k.vtype (decodeVec k.vtype k.dim vec)
  let m : Meta := { gid := rd r 0 8, ins := rd r 8 8, attr := rd r 16 8, nsq := sq
                    ninv := if k.metric = 1 then normInv sq (sub seed 1) else 0, state := slLive, prev := noSlot }
  let s := s.wrMem p none (k.vecAt n) vec
  let s := if k.payload = 0 then s else s.wrMem p none (k.payAt n) (slotBytes k.payloadSlot k.payload (slice r (24 + k.vecSlot) k.payloadSlot))
  let s := if k.isFlat then s else s.wrMem p none (k.sketchAt n) (slice r (24 + k.vecSlot + k.payloadSlot) (k.sketchW / 8))
  let s := if k.isFlat then s else s.wrMem p none (k.edgeAt n) (edgeBytes k.degree ((i.edges k n).filter (· != noSlot)))
  let s := s.wrMem p none (k.metaAt n) m.bytes
  let (s, ok) := s.idSet p none k m.gid n
  (s.postAdd p none k m.attr n, ok)

/-- The storage of an imported collection filled from its image; false where the id table and its stash cannot hold it. -/
def State.fillImage (s : State) (p : PartNo) (k : Coll) (i : Inner) : State × Bool :=
  let s := s.fillColl p k i.matrix
  let s := if i.matrix.isEmpty then s else s.wrMem p none k.projOff i.matrix
  if k.isTable then
    (k.imageRows.zipIdx.foldl (fun s r => s.wrMem p none (k.lineAt r.1) (slice i.body (r.2 * k.lineSize) k.lineSize)) s, true)
  else
    let s := s.modPart p fun x => { x with colls := x.colls ++ [k] }
    let seed := s.fresh
    (List.range i.records).foldl (fun (a : State × Bool) n =>
      if a.2 then a.1.placeRecord p k (sub seed n) i n else a) (s.bump, true)

/-- The checks of COLLECTION_IMPORT before its envelope is opened. -/
def State.importErr (s : State) (p : PartNo) (c : Cmd) : Option Err :=
  firstErr
    [ bodyErr c [64] true false false, reservedErr c.data.param 64 [(8, 56)], c.inErr 64,
      failIf (c.handle != 0 && ((s.part p).coll? c.handle).isSome) (errAt stInvalidField 4),
      failIf (c.handle == 0 && (s.part p).freeHandle.isNone) { st := stCollLimit } ]

/-- COLLECTION_IMPORT: the image is unwrapped, authenticated and placed; its handle appears at the commit (R325, R326, R521). -/
def execCollectionImport (cid : Nat) (s : State) : Res :=
  .next <|
    s.onPart cid 0x22 s.importErr fun p c =>
      match s.openImage c.input with
      | .inl st => s.tearDown cid st
      | .inr o =>
        let i := Inner.parse o.inner
        let cap := c.p 0 8
        let param := i.withCapacity cap
        let handle := if c.handle = 0 then ((s.part p).freeHandle).getD 0 else c.handle
        match firstErr [s.paramErr p param i.matrix i.members, failIf (cap != 0 && cap < i.records) (errAt stInvalidField 64),
            s.journalErr p (rd param 0 1 == 1), s.ringErr p c.id (rd param 0 1 == 1) 8] with
        | some e => s.tearDown cid e.st e.cause
        | none =>
          match (s.part p).place (Coll.laid 0 0 param i.members 0).size with
          | none => s.tearDown cid stCapacity
          | some base =>
            let k := { Coll.laid handle cid param i.members base with
              imported := true, imageId := i.id, snapJournal := i.jid, replayStart := i.seq, debugReq := o.debugReq
              minFw := BitVec.ofNat 32 o.minFw }
            if !i.ok o.inner k then s.tearDown cid stImageCheck
            else if k.isTable && k.isMesh && s.scratchFree p < 4194304 then s.tearDown cid stCapacity
            else if s.stampWaits p && !k.isTable then s
            else
              let (t, ok) := s.fillImage p k i
              if !ok then s.tearDown cid stCapacity
              else
                let k := ((t.part p).collU? cid).getD k
                let t := t.modPart p fun x => { x with colls := x.colls.filter fun d => d.uid != cid }
                let t := (t.issued i.snap).created p c k 4 (toLe 8 i.id) { count := handle }
                t.modCollU p cid fun k => { k with createSeq := 0 }

end Sys2Proof.Machine
end

