-- ==== Sys2Proof/Machine/Train.lean ====
section
/-! DEFINITION. The arithmetic of table rows: pooling (R334), the two-level sum of a row's gradient (R340), the optimisers (R341) and
the writing of a line (R328, R342 to R344, R349). -/

namespace Sys2Proof.Machine

/-! ### Correctly rounded FP32 operators (R341) -/

namespace Flt

def add32 (a b : Flt) : Flt := (a.add b).round32
def sub32 (a b : Flt) : Flt := (a.add b.neg).round32
def mul32 (a b : Flt) : Flt := (a.mul b).round32

/-- Division, rounded once. -/
def div32 : Flt → Flt → Flt
  | .nan, _ => .nan
  | _, .nan => .nan
  | .inf _, .inf _ => .nan
  | .inf a, .fin b _ _ => .inf (a != b)
  | .fin a _ _, .inf b => .fin (a != b) 0 0
  | .fin a m e, .fin b n f =>
    if n = 0 then (if m = 0 then .nan else .inf (a != b))
    else
      let s := n.log2 + 32
      let q := m * 2 ^ s / n
      let r := m * 2 ^ s % n
      (Flt.fin (a != b) (2 * q + if r = 0 then 0 else 1) (e - f - s - 1)).round32

/-- Square root, rounded once. -/
def sqrt32 : Flt → Flt
  | .nan => .nan
  | .inf n => if n then .nan else .inf false
  | .fin n m e =>
    if m = 0 then .fin n 0 0
    else if n then .nan
    else
      let m' := if e % 2 = 0 then m else 2 * m
      let e' := if e % 2 = 0 then e else e - 1
      let v := m' * 2 ^ 64
      let r := isqrt (v.log2 + 1) v
      (Flt.fin false (2 * r + if r * r = v then 0 else 1) (e' / 2 - 33)).round32

end Flt

/-! ### Pooling (R334) -/

/-- acc ← round₃₂(acc + w × x), element by element. -/
def poolAdd (acc : List Flt) (w : Flt) (x : List Flt) : List Flt := List.zipWith (fun a y => (a.add (w.mul y)).round32) acc x

/-- The pooled elements of a bag before conversion: POOL 0 SUM, 1 MEAN, 2 NONE, from its sum and its n. -/
def poolEnd (pool n : Nat) (acc : List Flt) : List Flt :=
  if pool = 1 then
    if n = 0 then acc.map fun _ => Flt.zero
    else
      let inv := Flt.div32 .one (.fin false n 0)
      acc.map fun a => a.mul32 inv
  else acc

/-- The sum of a bag's rows with their weights, in stream order; NONE's single product is rounded alone. -/
def poolBag (pool dim : Nat) (l : List (Flt × List Flt)) : List Flt :=
  match pool, l with
  | 2, [(w, x)] => x.map fun y => w.mul32 y
  | _, l => l.foldl (fun acc e => poolAdd acc e.1 e.2) (List.replicate dim .zero)

/-! ### The gradient of a row (R340) -/

/-- One element's running sum: c, hi, lo. -/
abbrev Part := Flt × Flt × Flt

def Part.start : Part := (.zero, .zero, .zero)

/-- TwoSum of hi and c. -/
def Part.promote (p : Part) : Part :=
  let (c, hi, lo) := p
  let s := hi.add32 c
  let t := s.sub32 hi
  let e := (hi.sub32 (s.sub32 t)).add32 (c.sub32 t)
  (.zero, s, lo.add32 e)

/-- Level 1: a core's contributions to one row, promoted after every 64 and at the end. -/
def coreSum (dim : Nat) (l : List (List Flt)) : List (Flt × Flt) :=
  let r := l.foldl (fun (a : Nat × List Part) c =>
    let ps := List.zipWith (fun p x => (p.1.add32 x, p.2)) a.2 c
    if a.1 + 1 = 64 then (0, ps.map Part.promote) else (a.1 + 1, ps)) (0, List.replicate dim Part.start)
  (r.2.map Part.promote).map (·.2)

/-- Level 2: the pairs of one row combined at its owner. -/
def ownerSum (dim : Nat) (l : List (List (Flt × Flt))) : List (Flt × Flt) :=
  (l.foldl (fun ps pair => List.zipWith (fun (p : Part) (x : Flt × Flt) =>
    let (c, hi, lo) := Part.promote (x.1, p.2)
    (c, hi, lo.add32 x.2)) ps pair) (List.replicate dim Part.start)).map (·.2)

/-- A pair of FP32 values as bits. -/
def pairBits (l : List (Flt × Flt)) : List (Nat × Nat) := l.map fun x => (x.1.bits32, x.2.bits32)
def pairVals (l : List (Nat × Nat)) : List (Flt × Flt) := l.map fun x => (Flt.ofBits32 x.1, Flt.ofBits32 x.2)

/-- Contributions arrive in no fixed order (R340): the order is a free value. -/
def anyOrder {α : Type} (seed : Nat) (l : List α) : List α :=
  (sortBy (fun a b => decide (a.1 < b.1)) (l.zipIdx.map fun x => (Config.freeNat (sub seed x.2), x.1))).map (·.2)

/-! ### The optimisers (R341) -/

/-- The parameters of an EMB_UPDATE (R337). -/
structure Opt where
  kind : Nat
  lr : Flt
  beta1 : Flt
  beta2 : Flt
  eps : Flt
  decay : Flt
  scale : Flt
  c1 : Flt
  c2 : Flt
  stochastic : Bool
  deriving DecidableEq, Repr, Inhabited

/-- A field of 0 stands for 1.0. -/
def oneIfZero (v : Nat) : Flt := if v = 0 then .one else .ofBits32 v

def Opt.parse (kind : Nat) (b : Bytes) : Opt :=
  let f := fun off => Flt.ofBits32 (rd b off 4)
  { kind := kind, lr := f 16, beta1 := f 20, beta2 := f 24, eps := f 28, decay := f 32, scale := oneIfZero (rd b 36 4)
    c1 := oneIfZero (rd b 40 4), c2 := oneIfZero (rd b 44 4), stochastic := (rd b 14 1).testBit 2 }

/-- The elements of a line: row, state A, state B. -/
structure Line where
  w : List Flt
  a : List Flt := []
  b : List Flt := []
  deriving DecidableEq, Repr, Inhabited

/-- g with scale and weight decay. -/
def Opt.grad (o : Opt) (sums : List (Flt × Flt)) (w : List Flt) : List Flt :=
  List.zipWith (fun x w => ((x.1.add32 x.2).mul32 o.scale).add32 (o.decay.mul32 w)) sums w

/-- The lane sums of row-wise Adagrad. -/
def laneFold (g : List Flt) : Flt :=
  let sq := g.map fun x => x.mul32 x
  let lanes := (List.range 64).map fun l =>
    ((sq.zipIdx.filter fun x => x.2 % 64 == l).map (·.1)).foldl Flt.add32 Flt.zero
  let r := [32, 16, 8, 4, 2, 1].foldl (fun ls d =>
    List.zipWith Flt.add32 (ls.take d) ((ls.drop d).take d)) lanes
  r.headD .zero

/-- A line after one step with gradient g. -/
def Opt.step (o : Opt) (g : List Flt) (x : Line) : Line :=
  match o.kind with
  | 1 => { x with w := List.zipWith (fun w g => w.sub32 (o.lr.mul32 g)) x.w g }
  | 2 =>
    let m := List.zipWith (fun m g => (o.beta1.mul32 m).add32 g) x.a g
    { x with w := List.zipWith (fun w m => w.sub32 (o.lr.mul32 m)) x.w m, a := m }
  | 3 =>
    let acc := List.zipWith (fun a g => a.add32 (g.mul32 g)) x.a g
    { x with
      w := List.zipWith (fun w (e : Flt × Flt) => w.sub32 ((o.lr.mul32 e.1).div32 (e.2.sqrt32.add32 o.eps))) x.w (g.zip acc)
      a := acc }
  | 4 =>
    let inv := Flt.div32 .one (.fin false g.length 0)
    let a := (x.a.headD .zero).add32 ((laneFold g).mul32 inv)
    let den := a.sqrt32.add32 o.eps
    { x with w := List.zipWith (fun w g => w.sub32 ((o.lr.mul32 g).div32 den)) x.w g, a := [a] }
  | 5 =>
    let omb1 := Flt.sub32 .one o.beta1
    let omb2 := Flt.sub32 .one o.beta2
    let m := List.zipWith (fun m g => (o.beta1.mul32 m).add32 (omb1.mul32 g)) x.a g
    let v := List.zipWith (fun v g => (o.beta2.mul32 v).add32 (omb2.mul32 (g.mul32 g))) x.b g
    { w := List.zipWith (fun w (e : Flt × Flt) =>
        w.sub32 (o.lr.mul32 ((e.1.mul32 o.c1).div32 ((e.2.mul32 o.c2).sqrt32.add32 o.eps)))) x.w (m.zip v)
      a := m, b := v }
  | _ => x

/-! ### Lines as bytes (R328) -/

/-- The element type of the state parts. -/
def stateType (param : Bytes) : Nat := if rd param 10 1 = 4 then 0x0B else if rd param 11 1 = 1 then 0x06 else 0x0B

/-- The elements of the state parts A and B. -/
def stateLens (param : Bytes) : Nat × Nat :=
  let dim := rd param 6 2
  match rd param 10 1 with
  | 2 | 3 => (dim, 0)
  | 4 => (1, 0)
  | 5 => (dim, dim)
  | _ => (0, 0)

/-- n elements of a type from an offset. -/
def elemsAt (t n : Nat) (bs : Bytes) (off : Nat) : List Flt :=
  (List.range n).map fun j => elemVal t (rd bs (off + j * elemBytes t) (elemBytes t))

def Line.parse (param bs : Bytes) : Line :=
  let (r, a, _) := lineParts param
  let (na, nb) := stateLens param
  { w := elemsAt (rd param 1 1) (rd param 6 2) bs 0, a := elemsAt (stateType param) na bs r
    b := elemsAt (stateType param) nb bs (r + a) }

/-- FP32 x in a format of `eb`/`mb` bits, stochastically: a draw u of 16 bits (R343). -/
def stochBits (eb mb : Nat) (u : Nat) (x : Flt) : Nat :=
  match x with
  | .fin n m e =>
    let bias : Int := 2 ^ (eb - 1) - 1
    let q := max (Flt.flog m e - mb) (1 - bias - mb)
    let near := x.toBits eb mb 0
    if m = 0 || q ≤ e then near
    else
      let s := (q - e).toNat
      let k := m / 2 ^ s
      let frac := m % 2 ^ s * 65536 / 2 ^ s
      let code := fun (k : Nat) => (if n then 2 ^ (eb + mb) else 0) + (q - (1 - bias - mb)).toNat * 2 ^ mb + k
      if bias < Flt.flog m e then near
      else if (bias : Int) = Flt.flog m e && 2 ^ (mb + 1) - 1 = k && m % 2 ^ s != 0 then near
      else code (if u < frac then k + 1 else k)
  | y => y.toBits eb mb (2 ^ (eb + mb) - 2 ^ mb + 2 ^ (mb - 1))

/-- An element stored in a type, rounded to nearest or stochastically (R342, R343); `seed` names the draw. -/
def storeElem (t : Nat) (stochastic : Bool) (seed : Nat) (x : Flt) : Nat :=
  let u := Config.freeNat seed % 65536
  match t with
  | 0x06 => if stochastic then stochBits 8 7 u x else x.toBits 8 7 0x7FC0
  | 0x07 => if stochastic then stochBits 5 10 u x else x.toBits 5 10 0x7E00
  | _ => x.bits32

/-- The bytes of a part, and whether every element is finite before and after conversion. -/
def storePart (t : Nat) (stochastic : Bool) (seed : Nat) (l : List Flt) : Bytes × Bool :=
  let codes := l.zipIdx.map fun x => storeElem t stochastic (sub seed x.2) x.1
  (codes.flatMap (toLe (elemBytes t)), l.all Flt.isFinite && codes.all fun c => (elemVal t c).isFinite)

/-- A line written back; none where R344 leaves it unchanged. -/
def Line.store (param : Bytes) (stochastic : Bool) (seed : Nat) (x : Line) : Option Bytes :=
  let (r, a, b) := lineParts param
  let w := storePart (rd param 1 1) stochastic (sub seed 0) x.w
  let sa := storePart (stateType param) stochastic (sub seed 1) x.a
  let sb := storePart (stateType param) stochastic (sub seed 2) x.b
  if w.2 && sa.2 && sb.2 then some (fit (lineSize param) (fit r w.1 ++ fit a sa.1 ++ fit b sb.1)) else none

/-- One read-modify-write of a line by its row's gradient (R341 to R344): the new line, or none where the row is skipped. -/
def updateLine (param : Bytes) (o : Opt) (seed : Nat) (sums : List (Flt × Flt)) (line : Bytes) : Option Bytes :=
  let x := Line.parse param line
  let g := o.grad sums x.w
  if g.all Flt.isFinite then (o.step g x).store param o.stochastic seed else none

/-- The line that ASSIGN writes: the value, and zeros in every state part (R349). -/
def assignLine (param v : Bytes) : Bytes := fit (lineSize param) (fit (lineParts param).1 v)

end Sys2Proof.Machine
end

