-- ==== Sys2Proof/Machine/EmbOps.lean ====
section
/-! DEFINITION. What the rows of embedding tables share: the input of a lookup or an update (R331, R332, R337, R339), its checks
(R333, R338, R349), owners (R356), counted accesses (R353, R362), and commit steps (R346, R347). -/

namespace Sys2Proof.Machine

/-! ### The parameter block (R331, R337) -/

def Cmd.bags (c : Cmd) : Nat := c.p 0 4
def Cmd.indices (c : Cmd) : Nat := c.p 4 4
def Cmd.bagSize (c : Cmd) : Nat := c.p 8 2
def Cmd.pool (c : Cmd) : Nat := c.p 10 1
def Cmd.assigns (c : Cmd) : Bool := c.op == 0x51 && c.p 10 1 == 1
def Cmd.skipInvalid (c : Cmd) : Bool := (c.p 14 1).testBit 0
def Cmd.deviceInput (c : Cmd) : Bool := (c.p 14 1).testBit 1
def Cmd.perIndex (c : Cmd) : Bool := (c.p 14 1).testBit 3
def Cmd.stepNo (c : Cmd) : Nat := c.p 48 8
def Cmd.participants (c : Cmd) : Nat := c.p 56 2

/-- The element type of the gradients. -/
def Cmd.gradType (c : Cmd) : Nat := match c.p 13 1 with | 1 => 0x06 | 2 => 0x07 | _ => 0x0B

/-! ### The input (R332, R339) -/

/-- The lengths of the parts: offsets, indices, weights, gradients or values. -/
def Cmd.embParts (c : Cmd) (k : Coll) : Nat × Nat × Nat × Nat :=
  ( if c.bagSize = 0 then roundUp (4 * (c.bags + 1)) 16 else 0,
    roundUp (c.indices * (if c.p 11 1 = 1 then 8 else 4)) 16,
    roundUp (c.indices * (match c.p 12 1 with | 1 => 4 | 2 => 2 | _ => 0)) 16,
    if c.op != 0x51 then 0
    else if c.assigns then c.indices * (lineParts k.param).1
    else (if c.perIndex then c.indices else c.bags) * roundUp (k.dim * elemBytes c.gradType) 16 )

def Cmd.embNeed (c : Cmd) (k : Coll) : Nat := let (a, b, d, e) := c.embParts k; a + b + d + e

/-- The input: the buffer, or the host region of scratchpad from the offset that the INLINE bytes name (R332). -/
def State.embInput (s : State) (p : PartNo) (k : Coll) (c : Cmd) : Bytes :=
  if c.deviceInput then (s.part p).sBytes (c.f 48 8) (c.embNeed k) else c.input

/-- offsets[b] to offsets[b + 1]. -/
def Cmd.bagRange (c : Cmd) (input : Bytes) (b : Nat) : Nat × Nat :=
  if c.bagSize = 0 then (rd input (4 * b) 4, rd input (4 * (b + 1)) 4) else (b * c.bagSize, (b + 1) * c.bagSize)

def Cmd.indexAt (c : Cmd) (k : Coll) (input : Bytes) (j : Nat) : Nat :=
  let w := if c.p 11 1 = 1 then 8 else 4
  rd input ((c.embParts k).1 + j * w) w

/-- The weight of index j as FP32 bits: 1.0 without weights. -/
def Cmd.weightAt (c : Cmd) (k : Coll) (input : Bytes) (j : Nat) : Nat :=
  let (a, b, _, _) := c.embParts k
  match c.p 12 1 with
  | 1 => rd input (a + b + 4 * j) 4
  | 2 => rd input (a + b + 2 * j) 2 * 65536
  | _ => 0x3F800000

/-- The gradient that an index of a bag contributes, or the value of an index in ASSIGN mode. -/
def Cmd.gradAt (c : Cmd) (k : Coll) (input : Bytes) (bag j : Nat) : List Flt :=
  let (a, b, d, _) := c.embParts k
  let n := roundUp (k.dim * elemBytes c.gradType) 16
  elemsAt c.gradType k.dim input (a + b + d + n * if c.perIndex then j else bag)

def Cmd.valueAt (c : Cmd) (k : Coll) (input : Bytes) (j : Nat) : Bytes :=
  let (a, b, d, _) := c.embParts k
  slice input (a + b + d + j * (lineParts k.param).1) (lineParts k.param).1

/-- The indices of a bag that count: those below ROWS (R333). -/
def Cmd.validIn (c : Cmd) (k : Coll) (input : Bytes) (b : Nat) : List Nat :=
  let (lo, hi) := c.bagRange input b
  ((List.range (hi - lo)).map (· + lo)).filter fun j => c.indexAt k input j < k.capacity

/-- The core that a bag falls to: runs of 256 bags are dealt to the partition's active cores in turn (R336, R350). -/
def shareCore (cores : List Nat) (b : Nat) : Nat := cores.getD (b / 256 % cores.length) 0

/-! ### Checks -/

/-- What R333 says of the indices, offsets and weights of an input. -/
def Cmd.embDataErr (c : Cmd) (k : Coll) (input : Bytes) : Option Err :=
  let bad := errAt stInvalidField 24
  let js := List.range c.indices
  firstErr
    [ failIf (c.bagSize == 0 && (rd input 0 4 != 0 || rd input (4 * c.bags) 4 != c.indices ||
        (List.range c.bags).any fun b => rd input (4 * b + 4) 4 < rd input (4 * b) 4)) bad,
      failIf (c.p 12 1 != 0 && js.any fun j => !(Flt.ofBits32 (c.weightAt k input j)).isFinite) bad,
      failIf (!c.skipInvalid && js.any fun j => k.capacity ≤ c.indexAt k input j) bad ]

/-- BAGS, INDICES and BAG_SIZE against R331, with their offsets. -/
def Cmd.embRules (c : Cmd) : List (Bool × Nat) :=
  [ (c.bags != 0 && c.bags ≤ 16777216, 0), (c.indices ≤ 67108864, 4), (c.bagSize == 0 || c.indices == c.bags * c.bagSize, 8) ]

/-- POOL or MODE, IDX_TYPE, WGT_TYPE and OUT_TYPE or GRAD_TYPE. -/
def Cmd.embTypeRules (c : Cmd) (first : Bool) : List (Bool × Nat) :=
  [ (first, 10), (c.p 11 1 ≤ 1, 11), (c.p 12 1 ≤ 2, 12), (c.p 13 1 ≤ 2, 13) ]

/-- The common body: INLINE names an offset of the host region with DEVICE_INPUT only (R332, R426). The command's own fields,
which set the input's length, come before that length. -/
def State.embBodyErr (s : State) (p : PartNo) (k : Coll) (c : Cmd) (hasOut : Bool) (fields : Option Err) : Option Err :=
  firstErr
    [ bodyErr c [64] (!c.deviceInput) hasOut c.deviceInput,
      if c.deviceInput then firstErr [reservedErr c.packet 0 [(56, 8)], failIf (c.f 48 8 % 16 != 0) (errAt stInvalidField 48)] else none,
      failIf (!k.isTable) { st := stTypeMismatch },
      fields,
      if c.deviceInput then failIf ((s.part p).feat 0x70 * 2 ^ 20 < c.f 48 8 + c.embNeed k) { st := stScatter }
      else c.inErr (c.embNeed k) ]

/-- The elements and bytes of one output vector (R335). -/
def Cmd.outVec (c : Cmd) (k : Coll) : Nat := roundUp (k.dim * (if c.p 13 1 = 0 then 4 else 2)) 16

/-- A DEVICE_INPUT that reads a poisoned scratchpad line tears its command down (R424), whatever its bytes read. -/
def State.inputPoison (s : State) (p : PartNo) (k : Coll) (c : Cmd) : Option Nat :=
  if c.deviceInput then (s.part p).sPoison (c.f 48 8) (c.embNeed k) else none

def State.lookupErr (s : State) (p : PartNo) (k : Coll) (c : Cmd) : Option Err :=
  firstErr
    [ s.embBodyErr p k c true <| firstErr
        [ reservedBits c.data.param 64 14 0xFC, reservedErr c.data.param 64 [(15, 49)],
          brokenRule (c.embRules ++
            c.embTypeRules (c.pool ≤ 2 && (c.pool != 2 || c.bagSize == 1))) ],
      c.outErr (c.bags * c.outVec k),
      if (s.inputPoison p k c).isSome then none else c.embDataErr k (s.embInput p k c) ]

/-- The offsets of the FP32 fields that an optimiser uses (R338). -/
def optFields (kind : Nat) : List Nat :=
  match kind with
  | 1 => [16, 32, 36]
  | 2 => [16, 20, 32, 36]
  | 3 | 4 => [16, 28, 32, 36]
  | _ => [16, 20, 24, 28, 32, 36, 40, 44]

/-- R338 in GRADIENT mode, field by field. -/
def Cmd.optRules (c : Cmd) (kind : Nat) : List (Bool × Nat) :=
  [16, 20, 24, 28, 32, 36, 40, 44].map fun off =>
    let v := Flt.ofBits32 (c.p off 4)
    let nonneg := v.isZero || !v.negative
    ((if (optFields kind).contains off then v.isFinite else c.p off 4 == 0) &&
      (if off == 20 || off == 24 then nonneg && v.ltFin .one
       else if off == 40 || off == 44 then c.p off 4 == 0 || Flt.one.leFin v
       else off == 36 || nonneg), off)

/-- R338 in ASSIGN mode: no weights, gradient type, options or optimiser fields; one index a bag. -/
def Cmd.assignRules (c : Cmd) : List (Bool × Nat) :=
  [ (c.bagSize == 1, 8), (c.p 12 1 == 0, 12), (c.p 13 1 == 0, 13), (!c.perIndex && !(c.p 14 1).testBit 2, 14) ] ++
    ([16, 20, 24, 28, 32, 36, 40, 44, 48, 52, 56].map fun off => (c.p off 4 == 0, off))

/-- STEP and PARTICIPANTS (R337): a local table takes neither; a mesh step names 2 to all of the table's members. -/
def Cmd.stepRules (c : Cmd) (k : Coll) : List (Bool × Nat) :=
  [ (c.participants != 0 || c.stepNo == 0, 48),
    (c.participants == 0 || (k.isMesh && c.participants != 1 && c.participants ≤ 1024 && c.participants ≤ k.members.length), 56) ]

/-- An EMB_UPDATE of the same STEP and table that was fetched earlier and has not completed (R360). -/
def State.sameStep (s : State) (c : Cmd) : Bool :=
  c.participants != 0 && s.cmds.any fun d => d.op == 0x51 && !d.isAdmin && d.part == c.part && d.handle == c.handle && d.id < c.id &&
    d.stepNo == c.stepNo && d.participants != 0 && d.phase != .done

def State.updateErr (s : State) (p : PartNo) (k : Coll) (c : Cmd) : Option Err :=
  let bad := errAt stInvalidField
  let input := s.embInput p k c
  firstErr
    [ s.embBodyErr p k c false <| firstErr
        [ reservedBits c.data.param 64 14 0xF0, reservedErr c.data.param 64 [(15, 1), (58, 2)],
          brokenRule (c.embRules ++ c.embTypeRules (c.p 10 1 ≤ 1)),
          failIf (!c.assigns && k.f 10 1 == 0) { st := stTypeMismatch },
          brokenRule ((if c.assigns then c.assignRules else c.optRules (k.f 10 1)) ++ c.stepRules k) ],
      failIf (s.sameStep c) (bad 112),
      if (s.inputPoison p k c).isSome then none else c.embDataErr k input,
      if c.assigns && (s.inputPoison p k c).isNone then
        let js := List.range c.indices
        let ids := js.map fun j => c.indexAt k input j
        firstErr
          [ failIf (ids.eraseDups.length != ids.length) (bad 24),
            failIf (js.any fun j => !((elemsAt (k.f 1 1) k.dim (c.valueAt k input j) 0).all Flt.isFinite)) (bad 24) ]
      else none ]

/-! ### Owners (R356) -/

/-- The member that owns a block, by this member's directory. -/
def Coll.owner (k : Coll) (block : Nat) : Nat :=
  match k.tm.dir.lookup block with
  | some (o, _) => o
  | none => ownerOf block k.members.length

def Coll.ownsRow (k : Coll) (row : Nat) : Bool := !k.isMesh || k.owner (row / 64) == k.memberIndex

/-- An owner is recorded in a directory; a block's default owner leaves it (R356). -/
def TableMesh.setOwner (t : TableMesh) (n block owner epoch : Nat) : TableMesh :=
  { t with dir := if owner = ownerOf block n then t.dir.filter fun d => d.1 != block else setKey t.dir block (owner, epoch) }

def TableMesh.epochOf (t : TableMesh) (block : Nat) : Nat := match t.dir.lookup block with | some (_, e) => e | none => 0

/-! ### Counted accesses (R353, R362, R432) -/

/-- The home slice of a row's line: that of its first byte (R330). -/
def State.rowSlice (s : State) (p : PartNo) (k : Coll) (row : Nat) : Nat :=
  homeSlice (s.clustersOf p) ((s.part p).hbmAddr (k.lineAt row))

/-- One more sample in a count table: a full table replaces the row of the smallest count, of the lowest handle, then row. -/
def countSample (l : List (Nat × Nat × Nat × Nat)) (slice handle row : Nat) : List (Nat × Nat × Nat × Nat) :=
  if l.any fun e => e.1 == slice && e.2.1 == handle && e.2.2.1 == row then
    l.map fun e => if e.1 == slice && e.2.1 == handle && e.2.2.1 == row then (slice, handle, row, e.2.2.2 + 1) else e
  else
    let mine := l.filter fun e => e.1 == slice
    if mine.length < 65536 then l ++ [(slice, handle, row, 1)]
    else
      match bestBy (fun a b => a.2.2.2 < b.2.2.2 || (a.2.2.2 == b.2.2.2 && (a.2.1 < b.2.1 || (a.2.1 == b.2.1 && a.2.2.1 < b.2.2.1)))) mine with
      | some e => (l.filter fun f => f != e) ++ [(slice, handle, row, e.2.2.2 + 1)]
      | none => l

/-- One access of a row reaches its home slice: in hardware mode every 64th is counted (R353). -/
def State.accessRow (s : State) (p : PartNo) (k : Coll) (row : Nat) : State :=
  if (s.modeOf p).getLsbD mHotset then s
  else
    let sl := s.rowSlice p k row
    s.modPart p fun x =>
      let n := getKey x.accesses sl 0 + 1
      { x with
        accesses := setKey x.accesses sl n
        hotCounts := if n % 64 = 0 then countSample x.hotCounts sl k.handle row else x.hotCounts }

/-- A row served for a mesh table: its total, and every 64th access by block among 4,096 (R362). -/
def TableMesh.serve (t : TableMesh) (block : Nat) : TableMesh :=
  let n := t.accesses + 1
  let l := t.blockServed
  { t with
    served := t.served + 1
    accesses := n
    blockServed :=
      if n % 64 != 0 then l
      else if (l.lookup block).isSome || l.length < 4096 then setKey l block (getKey l block 0 + 1)
      else
        match bestBy (fun a b => a.2 < b.2 || (a.2 == b.2 && a.1 < b.1)) l with
        | some e => (l.filter fun f => f != e) ++ [(block, e.2 + 1)]
        | none => l }

/-- Rows gathered or written at this device, in order. -/
def State.accessRows (s : State) (p : PartNo) (k : Coll) (rows : List Nat) : State :=
  let s := rows.foldl (fun s r => s.accessRow p k r) s
  if k.isMesh then s.modCollU p k.uid fun k => { k with tm := rows.foldl (fun t r => t.serve (r / 64)) k.tm } else s

/-! ### Reading rows -/

/-- The scratchpad copy of a hot row (R352). -/
def PartSt.hotUse (x : PartSt) (k : Coll) (row : Nat) : Option ScratchUse :=
  if k.hotRows.contains row then x.scratchUse? .hot k.uid row else none

/-- The elements of a row (R328): a gather of a hot row reads its scratchpad copy (R352). -/
def PartSt.rowVec (x : PartSt) (k : Coll) (row : Nat) : List Flt :=
  let n := (lineParts k.param).1
  elemsAt (k.f 1 1) k.dim (match x.hotUse k row with | some u => x.useBytes u n | none => x.bytes (k.lineAt row) n) 0

/-- What a gather reads of HBM: the rows that are not hot. -/
def PartSt.gatherReads (x : PartSt) (k : Coll) (rows : List Nat) : Reads :=
  (rows.filter fun r => (x.hotUse k r).isNone).map fun r => (k.lineAt r, (lineParts k.param).1)

/-- Whether a gather of some rows meets poison: in a hot row's copy (R424), or in HBM (R441). -/
def State.gatherPoison (s : State) (p : PartNo) (k : Coll) (rows : List Nat) : Option (Option Nat) :=
  let x := s.part p
  if rows.any fun r => match x.hotUse k r with | some u => (x.usePoison u 0 (lineParts k.param).1).isSome | none => false then some none
  else (s.poisonHit p (x.gatherReads k rows)).map some

/-- A command whose gather meets no poison goes on; else it is torn down (R399). A stopped stack makes it wait (R446). -/
def State.gathered (s : State) (cid : Nat) (p : PartNo) (k : Coll) (rows : List Nat) (next : State) : State :=
  let t := s.touch p ((s.part p).gatherReads k rows)
  if t.slm.stalled then t
  else
    match t.gatherPoison p k rows with
    | some a => t.tearDown cid stPoison ((a.map (toLe 8)).getD [])
    | none => next.touch p ((s.part p).gatherReads k rows)

/-- The scratchpad copy of a row takes its line's bytes, or its poison (R352). -/
def State.hotCopy (s : State) (p : PartNo) (k : Coll) (row : Nat) : State :=
  match (s.part p).hotUse k row with
  | none => s
  | some u =>
    let (s, bad) := s.reads p [(k.lineAt row, k.lineSize)]
    if bad.isSome then
      s.modPart p fun x => { x with scratchPoison := (u.exts.flatMap fun e => (List.range (e.2 / 256)).map (e.1 / 256 + ·)).foldl addOnce x.scratchPoison }
    else s.writeUse p u ((s.part p).bytes (k.lineAt row) k.lineSize)

/-- Places for the hot rows that have none yet, with their copies. -/
def State.placeHot (s : State) (p : PartNo) (uid : Nat) : State :=
  match (s.part p).collU? uid with
  | none => s
  | some k => (k.hotRows.filter fun r => ((s.part p).scratchUse? .hot uid r).isNone).foldl (fun s r =>
      (s.useScratch p .hot uid r k.lineSize).hotCopy p k r) s

def Coll.rowReads (k : Coll) (rows : List Nat) : Reads := rows.map fun r => (k.lineAt r, (lineParts k.param).1)

/-! ### Sums (R340, R350) -/

/-- The level-1 pairs of a command: for each core and each row of its share, the folded contributions (R340). Every pair keeps its row. -/
def Cmd.corePairs (c : Cmd) (k : Coll) (seed : Nat) (cores : List Nat) (input : Bytes) : List RowSum :=
  let items := (List.range c.bags).flatMap fun b => (c.validIn k input b).map fun j => (shareCore cores b, c.indexAt k input j, b, j)
  let keys := (items.map fun i => (i.1, i.2.1)).eraseDups
  keys.zipIdx.map fun q =>
    let mine := items.filter fun i => (i.1, i.2.1) == q.1
    let cs := mine.map fun i =>
      let w := Flt.ofBits32 (c.weightAt k input i.2.2.2)
      (c.gradAt k input i.2.2.1 i.2.2.2).map fun g => w.mul32 g
    { row := q.1.2, sums := pairBits (coreSum k.dim (anyOrder (sub seed q.2) cs)) }

/-- The values of an ASSIGN. -/
def Cmd.assignRows (c : Cmd) (k : Coll) (input : Bytes) : List RowSum :=
  (List.range c.bags).flatMap fun b => (c.validIn k input b).map fun j =>
    { row := c.indexAt k input j, assign := some (c.valueAt k input j) }

/-- The distinct rows of the cores' shares beyond 16,384 each: those go to an overflow store (R350). -/
def Cmd.overflowRows (c : Cmd) (k : Coll) (cores : List Nat) (input : Bytes) : Nat :=
  (cores.map fun n => (((List.range c.bags).filter fun b => shareCore cores b == n).flatMap fun b =>
    (c.validIn k input b).map fun j => c.indexAt k input j).eraseDups.length - 16384).foldl (· + ·) 0

/-- Pairs combined at their owner, one per row, in ascending row index (R340, R347). -/
def combine (dim seed : Nat) (l : List RowSum) : List RowSum :=
  let rows := sortBy (· < ·) ((l.map (·.row)).eraseDups)
  rows.zipIdx.map fun r =>
    let mine := l.filter fun x => x.row == r.1
    match mine.findSome? (·.assign) with
    | some v => { row := r.1, assign := some v }
    | none => { row := r.1, sums := pairBits (ownerSum dim (anyOrder (sub seed r.2) (mine.map fun x => pairVals x.sums))) }

/-! ### Commit steps (R346, R347) -/

/-- The rows of one commit step: at most 240,000 lines for each active cluster. -/
def State.stepRows (s : State) (p : PartNo) (k : Coll) : Nat :=
  max 1 (240000 * (s.clustersOf p).length / ceilDiv k.lineSize 256)

/-- One row's read-modify-write, of its hot copy too (R352); answers whether it was applied. A GRADIENT row that reads poison is skipped and logged with the
command's CTAG (R344); ASSIGN does not read (R349). -/
def State.applyRow (s : State) (p : PartNo) (k : Coll) (param : Bytes) (cid : Option Nat) (seed : Nat) (r : RowSum) : State × Bool :=
  let at_ := k.lineAt r.row
  let s := s.accessRows p k [r.row]
  let mark := fun (s : State) => s.modCollU p k.uid fun k => { k with tm := { k.tm with
    handoffs := k.tm.handoffs.map fun h =>
      if h.block == r.row / 64 && h.out && h.copied && h.state == .moving then { h with dirty := addOnce h.dirty (r.row % 64) } else h } }
  match r.assign with
  | some v => (mark ((s.wrMem p cid at_ (assignLine k.param v)).hotCopy p k r.row), true)
  | none =>
    match s.reads p [(at_, k.lineSize)] with
    | (s, some b) =>
      let a := (s.part p).hbmAddr b
      (match cid with
        | some c => s.logLate c stPoison (toLe 8 a)
        | none => s.log { seq := 0, status := stPoison, kind := kCommand, scope := scPartition, part := some p
                          detail := detail [(26, [0xFF, 0xFF]), (28, [0x51]), (32, toLe 8 a)] }, false)
    | (s, none) =>
      match updateLine k.param (Opt.parse (k.f 10 1) param) seed (pairVals r.sums) ((s.part p).bytes at_ k.lineSize) with
      | some bs => (mark ((s.wrMem p cid at_ bs).hotCopy p k r.row), true)
      | none => (s, false)

/-- One commit step over rows at a stamp; answers the rows applied. -/
def State.applyRows (s : State) (p : PartNo) (k : Coll) (param : Bytes) (cid : Option Nat) (st : Nat) (rows : List RowSum) : State × Nat :=
  let seed := s.fresh
  (rows.zipIdx.foldl (fun (a : State × Nat) r =>
    let (t, ok) := a.1.applyRow p k param cid (sub seed r.2) r.1
    (t, a.2 + if ok then 1 else 0)) ((s.issued st).bump, 0))

end Sys2Proof.Machine
end

