-- ==== Sys2Proof/Machine/Repair.lean ====
section
/-! DEFINITION. What failures lead to (R30, R564 to R568): capacity lost, the start of a data-path restart (R74), a core's failure
and its spare (R566), the bypass of a cluster (R567, R568), TDI ERROR (R516), unavailability (R577). -/

namespace Sys2Proof.Machine

/-! ### Unavailability (R577) -/

def State.unavailBegin (s : State) (ps : List PartNo) : State :=
  let f : Nat → Option Nat → Option Nat := fun i x => if ps.any (fun p => p.val == i) && x.isNone then some s.phys else x
  { s with ras := { s.ras with unavailSince := s.ras.unavailSince.mapIdx f } }

def State.unavailEnd (s : State) (ps : List PartNo) : State :=
  let ends : Nat → Bool := fun i => ps.any fun p => p.val == i
  { s with ras := { s.ras with
    unavail := s.ras.unavail.mapIdx fun i n =>
      match s.ras.unavailSince.getD i none with
      | some t => if ends i then n + (s.phys - t) else n
      | none => n
    unavailSince := s.ras.unavailSince.mapIdx fun i x => if ends i then none else x } }

/-- FATAL is set (R62, R565): every partition is unavailable while it is (R577). -/
def State.setFatal (s : State) : State := ({ s with hif := { s.hif with fatal := true } }).unavailBegin s.present

/-! ### TDI ERROR (R516) -/

/-- A SECURITY entry (R560, kind 0x0C). -/
def State.logSecurity (s : State) (event level scope : Nat) (part : Option PartNo := none) (fn : Option Fn := none) : State :=
  s.log { seq := 0, kind := kSecurity, scope := scope, part := part, fn := fn, detail := detail [(24, toLe 1 event), (25, toLe 1 level)] }

/-- A TDI in CONFIG_LOCKED or RUN enters ERROR: the VF's commands are killed without completion, the partition's key is destroyed,
TDI_ERROR is set (R516). -/
def State.tdiError (s : State) (p : PartNo) : State :=
  if !s.tdiLocked p then s
  else
    let s := s.endWhere fun c => c.fn == .vf p
    let s := (s.modFn (.vf p) fun f => { f with tdi := .error }).dropKey p
    (s.logSecurity 4 0 scPartition (some p) (some (.vf p))).raiseAll evTdiError [p]

/-! ### Tests that end -/

def State.busyCore (s : State) (n : Nat) : Bool := s.ctxs.any fun x => x.core == n && x.state != .leaving

def State.standInOf (s : State) (cl : Nat) : Option Nat :=
  ((List.range 9).map fun i => cl * 9 + i).find? fun n => (s.coreAt n).state == .standIn

/-- The stand-in of a cluster leaves the active set and is the spare again; the core it stood in for admits again (R572 step 4). -/
def State.standInLeaves (s : State) (cl : Nat) : State :=
  match (s.clusterAt cl).standIn, s.standInOf cl with
  | some (core, _), some sp =>
    let s := s.modCore sp fun x => { x with state := .spare, stopped := false }
    let s := s.modCore core fun x => { x with state := .active, stopped := false }
    s.modCluster cl fun c => { c with standIn := none, standInPhase := 0 }
  | _, _ => s

/-- The test of a cluster ends: a stand-in that has not joined leaves at once; one that has joined stops admitting and leaves when its last
context has, so that no ninth core of the cluster runs (R21, R572 step 4). -/
def State.clusterTestEnds (s : State) (cl : Nat) : State :=
  let s := s.modCluster cl fun c => { c with testNext := 9, underTest := false }
  match s.standInOf cl with
  | some sp =>
    if (s.clusterAt cl).standInPhase = 0 || !s.busyCore sp then s.standInLeaves cl
    else
      let s := s.modCore sp fun x => { x with stopped := true }
      s.modCluster cl fun c => { c with standInPhase := 2, standIn := c.standIn.map fun x => (x.1, s.time.clk) }
  | none => s

/-- A test ends: its cores under test return, stand-ins leave (R572), its ports train again. -/
def State.endTest (s : State) (cid : Nat) : State :=
  match s.tests.find? fun t => t.cid == cid with
  | none => s
  | some t =>
    let s : State := { s with tests := s.tests.filter fun x => x.cid != cid }
    let s := (bitsSet 16 t.clusters.toNat).foldl State.clusterTestEnds s
    ((List.range 8).filter fun n => t.ports.getLsbD n && (s.portAt n).state == .test).foldl (fun s n => s.setPort n .training) s

/-- Every test ends. -/
def State.endTests (s : State) : State := (s.tests.map (·.cid)).foldl State.endTest s

/-- What stands waiting for commands that are gone ends with them: tests, a power-state entry, a firmware transfer, a LIVE
activation, a partition's stop, a journal's replay, whose journal is OFF again (DESIGN CHOICE, log 48). -/
def State.afterKill (s : State) : State :=
  let gone : Nat → Bool := fun cid => !s.cmds.any fun c => c.id == cid
  let s := ((s.tests.map (·.cid)).filter gone).foldl State.endTest s
  let live := match s.fw.live with | some (cid, t) => if gone cid then none else some (cid, t) | none => none
  let lost := match s.power.wake with | some (cid, _) => gone cid | none => false
  let s := if lost then s.dropGroups 3 else s
  let stops : Nat → PartSt → PartSt := fun i x =>
    { x with
      stopped := x.stopped && s.cmds.any fun c => c.isAdmin && c.op == 0x0A && c.phase == .flushing && c.f 16 1 == i
      journal := if x.journal.state == .replaying && !s.cmds.any (fun c => c.id == x.journal.replayCid) then
        { x.journal with state := .off } else x.journal }
  { s with
    power := { s.power with
      wake := if lost then none else s.power.wake
      entry := match s.power.entry with | some e => if gone e.cid && !e.quiet then none else some e | none => none }
    fw := { s.fw with
      live := live
      transfer := match s.fw.transfer with | .load cid => if gone cid then .none else .load cid | t => t }
    parts := s.parts.mapIdx stops }

/-! ### The bypass of a cluster -/

/-- A CLUSTER entry (R560, kind 0x06); a cause makes it an escalation (R565). -/
def State.logCluster (s : State) (cluster event : Nat) (cause : Nat := 0) (nested repair : Bool := false) : State :=
  s.log { seq := 0, kind := kCluster, scope := scCluster, part := s.owner cluster, unit := cluster, related := cause, nested := nested
          escalated := cause != 0 && !repair, repair := repair, detail := detail [(24, toLe 1 event)] }

/-- A bypass whose contexts have left is complete (R567 steps 3 to 5): the cluster leaves its partition. -/
def State.finishBypass (s : State) (cluster : Nat) : State :=
  let own := s.owner cluster
  let s := s.logCluster cluster 5 0 false true
  let s := s.modCluster cluster fun c => { c with bypassAt := none, gated := true }
  let s := s.coresLose (· == cluster)
  let s : State := { s with parts := s.parts.map fun x => { x with clusters := x.clusters &&& ~~~(BitVec.ofNat 16 (2 ^ cluster)) } }
  s.capacity own.toList

/-- Bypasses whose cores hold no context any more are finished. -/
def State.settleBypasses (s : State) : State :=
  ((List.range 16).filter fun n => (s.clusterAt n).bypassAt.isSome && !s.ctxs.any fun x => x.core / 9 == n).foldl State.finishBypass s

/-! ### The start of a data-path restart (R74 steps 1 and 2) -/

def RestartCause.bit : RestartCause → Nat
  | .request => 0 | .escalation => 1 | .watchdog => 7 | .rails => 1

/-- The bits of HIF_RESET_CAUSE a restart sets (R64, R565). -/
def RestartCause.mask : RestartCause → Word32
  | .request => 1 | .escalation => 2 | .watchdog => 0x82 | .rails => 0

/-- Whether a restart is one by escalation (R565, R575). -/
def RestartCause.escalated : RestartCause → Bool
  | .escalation | .watchdog => true
  | _ => false

/-- The RESTART entry (R560, kind 0x0A). -/
def State.logRestart (s : State) (c : RestartCause) (related : Nat) (nested : Bool) : State :=
  let mapped := (s.hbm.channels.filter fun x => x.state == .mappedOut).length
  let byp := (s.ras.clusters.filter fun x => x.state != .active).length
  s.log { seq := 0, kind := kRestart, scope := scDevice, unit := c.bit, related := related, nested := nested, escalated := c.escalated
          detail := detail [(24, toLe 4 s.hif.dpRestartCount), (28, toLe 1 mapped), (29, toLe 1 byp), (30, toLe 1 s.hif.fatal.toNat)] }

/-- What a data-path restart takes from the mesh: sessions, outstanding frames, barriers, chains; the ports train again (R70, R463,
R497). -/
def State.meshDropped (s : State) : State :=
  let s := ((List.range 8).filter fun n => s.mesh.enable && (s.portAt n).linked).foldl (fun s n => s.setPort n .training) s
  { s with mesh := { s.mesh with
    peers := s.mesh.peers.map fun p => { p with unacked := [], early := [], probeSent := none, lastCmd := none }
    barriers := []
    chains := [] } }

/-- What a restart notes as it begins (R64, R74, R565, R575, R577): the data path is not ready, the events, the log. -/
def State.noteRestart (s : State) (cause : RestartCause) (related : Nat) : State :=
  let seq := s.ras.nextSeq
  let s : State := { s with
    hif := { s.hif with
      dpRestarting := true
      dpReady := false
      resetCause := s.hif.resetCause ||| cause.mask
      dpRestartCount := s.hif.dpRestartCount + 1
      restartCause := some cause
      restartAt := s.time.clk }
    ras := { s.ras with escalations := if cause.escalated then satInc 0xFFFF s.ras.escalations else s.ras.escalations } }
  let s := (s.raiseAll evDpBegin allParts).logRestart cause related false
  let s : State := { s with ras := { s.ras with deviceOpen := some seq } }
  let s := if cause.escalated then s.aerError .pf true else s
  if cause == .request then s else s.unavailBegin s.present

/-- What stops with the data path (R74, R119, R456, R543): every context, stream and lock, a power-state entry, a load or a LIVE
activation, the traffic generators. -/
def State.stopPath (s : State) : State :=
  let s := s.haltTgs
  { s with
    ctxs := []
    streams := []
    ristretto := []
    semaphores := []
    locks := []
    power := { s.power with entry := none, wake := none, awake := false }
    fw := { s.fw with
      transfer := match s.fw.transfer with | .load _ => .none | t => t
      live := none
      liveKilled := false }
    parts := s.parts.map fun x => { x with stopped := false }
    hbm := { s.hbm with
      selfRefresh := false
      scrubActive := false } }

/-- Steps 1 and 2 of a data-path restart (R74): the events and the log, every command killed (R71), every I/O pair deleted, TDIs in
ERROR (R516). The admin pairs stay, so that the device runs the early commands and holds the others (R75); DP_DONE arms them again. A
further escalation leaves a running restart as it is (R76); a device with FATAL set cannot restart. -/
def State.startRestart (s : State) (cause : RestartCause) (related : Nat := 0) : State :=
  if s.hif.fatal then s
  else if s.hif.dpRestarting then
    if cause.escalated then s.logRestart cause related true else s
  else
    let s := (s.noteRestart cause related).endWhere fun _ => true
    let s : State := { s with pairs := s.pairs.filter fun q => q.qid == 0 }
    let s := (s.present.foldl State.tdiError s).stopPath
    (((s.endTests).settleBypasses).meshDropped).tryStart

/-! ### A core's failure (R566) -/

/-- A CORE entry (R560, kind 0x05). -/
def State.logCore (s : State) (core event : Nat) (engine : Nat := 0xFF) (spare : Nat := 0) (related : Nat := 0)
    (nested escalated repair : Bool := false) : State :=
  s.log { seq := 0, kind := kCore, scope := scCore, part := s.owner (core / 9), unit := core, related := related, nested := nested
          escalated := escalated, repair := repair
          detail := detail [(24, toLe 1 event), (25, toLe 1 engine), (26, toLe 2 spare)] }

/-- The commands with a context on one of some cores. -/
def State.cmdsOn (s : State) (f : Nat → Bool) : List Nat :=
  ((s.ctxs.filter fun x => f x.core && x.state != .leaving).map (·.cid)).eraseDups

/-- Every context on some cores is killed and its command re-run (R393, R396); what the cores held of streams is gone. -/
def State.rerunOn (s : State) (f : Nat → Bool) : State :=
  let s := (s.cmdsOn f).foldl (fun s cid => s.killRerun cid false) s
  { s with streams := s.streams.filter fun x => !f x.core, ristretto := s.ristretto.filter fun x => !f x.core }

/-- The same for cores that are lost or retired: RAS_CORE_STATE counts the contexts killed (R575). -/
def State.killOn (s : State) (f : Nat → Bool) : State :=
  let n := fun i => (s.ctxs.filter fun x => x.core == i && x.state != .leaving).length
  let g : Nat → Core → Core := fun i c => if f i then { c with kills := min 0xFFFF (c.kills + n i) } else c
  ((s.cmdsOn f).foldl State.countKills { s with ras := { s.ras with cores := s.ras.cores.mapIdx g } }).rerunOn f

/-- A fault takes a command that has not committed: it completes with a status (R399); a shadow scan is discarded (R203). -/
def State.fault (s : State) (cid st : Nat) (cause : Bytes := []) : State :=
  match s.cmd? cid with
  | none => s
  | some c =>
    if c.isAdmin || c.phase != .running then s
    else if c.shadow then s.dropShadow c
    else s.tearDown cid st cause

/-- The cluster's spare, where it is in state SPARE. -/
def State.spareOf (s : State) (cluster : Nat) : Option Nat :=
  ((List.range 9).map fun i => cluster * 9 + i).find? fun n => (s.coreAt n).state == .spare

/-- A partition that has lost its last cluster (R568): its commands complete with 0x7003, a waiting FENCE among them, for which R103 names
only the events of R116 (DESIGN CHOICE, log 48); its TDI enters ERROR; a commit phase with no hardware left to finish it is logged and restarts the data path (R557, R565). -/
def State.lastClusterLost (s : State) (p : PartNo) (cause : Nat) : State :=
  let s := s.unavailBegin [p]
  let mine := s.cmds.filter fun c => c.part == some p && !c.isAdmin
  let cut := mine.filter fun c => c.phase == .committing
  let s := (mine.filter fun c => c.phase != .committing && c.phase != .flushing && c.phase != .done).foldl
    (fun s c => s.tearDown c.id stNoCluster) s
  let s := s.tdiError p
  if cut.isEmpty then s
  else
    let s := cut.foldl (fun s c => s.log
      { seq := 0, status := stNoCluster, kind := kCommand, scope := scCommand, part := some p, fn := some c.fn, unit := c.qid
        detail := detail [(24, toLe 2 c.ctag), (26, toLe 2 c.core), (28, toLe 1 c.op)] }) s
    s.startRestart .escalation cause

/-- A cluster leaves service (R567, R569): its state, and the states of its cores, kept for a reinstatement. -/
def State.leaveService (s : State) (cluster : Nat) : State :=
  let s : State := { s with ras := { s.ras with bypasses := satInc 0xFFFF s.ras.bypasses } }
  s.modCluster cluster fun c => { c with
    state := .bypassed
    bypassAt := some s.time.clk
    sparing := none
    standIn := none
    standInPhase := 0
    testNext := 9
    savedCores := ((s.ras.cores.drop (cluster * 9)).take 9).map fun c => match c.state with
      | .underTest => .active | .standIn => .spare | st => st }

/-- The cores of a bypassed cluster, but those that had failed or were retired (R567). -/
def State.coresOut (s : State) (cluster : Nat) : State :=
  let out : Nat → Core → Core := fun i c =>
    if i / 9 == cluster && c.state != .failed && c.state != .retired then { c with state := .bypassed, stopped := false } else c
  { s with ras := { s.ras with cores := s.ras.cores.mapIdx out } }

/-- A partition loses a cluster's scratchpad: the contents of all of it, what the device kept there, and HOST event 5 (R425, R568). -/
def State.loseScratch (s : State) (p : PartNo) (cluster seq : Nat) : State :=
  let s := (s.dropLines fun n _ => (s.part p).clusters.getLsbD n).modPart p fun x => { x with
    scratchMem := {}
    scratchPoison := []
    scratchUses := []
    hotCounts := x.hotCounts.filter fun h => h.1 != cluster
    colls := x.colls.map fun k => { k with hotRows := [], entrySet := [], stages := [] } }
  let s := s.placeDirectories p
  let s := s.log { seq := 0, kind := kHost, scope := scPartition, part := some p, fn := some (.vf p), related := seq
                   detail := detail [(24, toLe 1 5)] }
  if (s.clustersOf p).isEmpty then s.lastClusterLost p seq else s

/-- A cluster is bypassed (R567, R568) for an event of R560: admission to it stops, its contexts are killed and re-run, the
scratchpad is laid out again and its contents lost. -/
def State.bypass (s : State) (cluster event : Nat) (cause : Nat := 0) : State :=
  let c := s.clusterAt cluster
  if c.bypassAt.isSome then s.logCluster cluster event cause true
  else if c.state != .active then s
  else
    let seq := s.ras.nextSeq
    let own := s.owner cluster
    let mine : Nat → Bool := fun n => n / 9 == cluster
    let s := (((s.logCluster cluster event cause).leaveService cluster).killOn mine).coresOut cluster
    let s := match own with
      | none => s
      | some p => s.loseScratch p cluster seq
    if s.ctxs.any fun x => mine x.core then s else s.settleBypasses

/-- A core fails (R566) for an event of R560: it leaves the active set, its contexts are killed and re-run. In hardware mode the
spare is called; a cluster without an active core is bypassed (R567). A failure while another of its cluster is being handled nests
under it (R564). -/
def State.coreFail (s : State) (n event : Nat) (cause : Nat := 0) (engine : Nat := 0xFF) (into : CoreState := .failed) : State :=
  let cl := n / 9
  let was := (s.coreAt n).state
  if was != .active && was != .standIn && was != .underTest then s
  else
    let opened := match (s.clusterAt cl).sparing with | some x => x.1 | none => 0
    let seq := s.ras.nextSeq
    let s := s.logCore n event engine 0 (if cause != 0 then cause else opened) (opened != 0) (cause != 0)
    let s := s.modCore n fun c => { c with state := into, stopped := false }
    let s := s.killOn (· == n)
    let s := match (s.clusterAt cl).standIn with
      | some (core, _) =>
        let alone := s.modCluster cl fun c => { c with standIn := none, standInPhase := 0 }
        if core = n then
          let s := alone
          match ((List.range 9).map fun i => cl * 9 + i).find? fun m => (s.coreAt m).state == .standIn with
          | some sp => (((s.modCore sp fun c => { c with state := .active, stopped := false }).logCore n 6 0xFF sp seq false false true).capacity
              (s.owner cl).toList)
          | none => s
        else if was = .standIn then alone.modCore core fun c => { c with state := .active, stopped := false }
        else s
      | none => s
    let handled := (s.clusterAt cl).sparing.isSome
    if (s.coresOf cl).isEmpty && (s.spareOf cl).isNone then s.bypass cl 4 seq
    else if handled then s
    else
      match s.spareOf cl with
      | some _ =>
        if s.devHost mSpare then
          if (s.coresOf cl).isEmpty then s.bypass cl 4 seq else s.capacity (s.owner cl).toList
        else s.modCluster cl fun c => { c with sparing := some (seq, n) }
      | none => s.capacity (s.owner cl).toList

/-! ### Channels (R447, R448) -/

/-- An HBM entry for the device, or for a partition (R560, kind 0x03). -/
def State.logHbm (s : State) (c event : Nat) (addr : Nat := 0) (lane : Nat := 0xFF) (part : Option PartNo := none)
    (status : Nat := 0) (repair : Bool := false) : State :=
  s.log { seq := 0, status := status, kind := kHbm, scope := if part.isSome then scPartition else scDevice, part := part, unit := c
          repair := repair, detail := detail [(24, toLe 8 addr), (32, toLe 1 event), (33, toLe 1 lane)] }

/-- A channel is fenced (R447 to R449): logged as a class 4 media loss for the device and each partition that holds granules. -/
def State.fenceChannel (s : State) (c : Nat) : State :=
  if (s.chan c).state != .active then s
  else
    let held := s.present.filter fun p => !(s.part p).granules.isEmpty
    let s := s.modChan c fun x => { x with state := if s.devHost mMapout then .fenced else .mapoutPending }
    let s := s.logHbm c 4 0 0xFF none stPoison
    let s := held.foldl (fun s p => s.logHbm c 4 0 0xFF (some p) stPoison) s
    s.raiseAll evCapacity held

end Sys2Proof.Machine
end

