-- ==== Sys2Proof/Machine/Admission.lean ====
section
/-! DEFINITION. Fetching an entry (R89 to R93), the admission queue and the scheduling step (R387 to R390, R258), range locks and
dependences (R102, R106, R108), pre-emption (R392), FENCE (R103). -/

namespace Sys2Proof.Machine

/-- The rows of a table that a fetched command's indices name and this device stores, PREFETCH_DEPTH of them at most (R351). -/
def State.aheadRows (s : State) (p : PartNo) (k : Coll) (c : Cmd) : List Nat :=
  let input := s.embInput p k c
  (((List.range (min c.indices ((s.part p).feat 0x52))).map fun j => c.indexAt k input j).filter fun r => r < k.capacity && k.ownsRow r).eraseDups

/-- A fetched EMB_LOOKUP or EMB_UPDATE stages its rows ahead while another command naming its table runs (R351); nothing waits for it. -/
def State.prefetch (s : State) (cid : Nat) : State :=
  match s.cmd? cid with
  | none => s
  | some c =>
    match c.part, c.part.bind fun p => s.coll? p c.handle with
    | some p, some k =>
      if (c.op == 0x50 || c.op == 0x51) && !c.isAdmin && c.phase != .done && k.isTable && (s.part p).sets != 0 &&
          s.cmds.any fun d => d.id != cid && !d.isAdmin && d.part == some p && d.handle == c.handle && (d.phase == .running || d.phase == .committing) then
        let t := (s.aheadRows p k c).foldl (fun s r => s.touch p [(k.lineAt r, k.lineSize)]) s
        { t with slm := { t.slm with stalled := s.slm.stalled } }
      else s
    | _, _ => s

/-- SQ_ENTRY_FETCH (R88 to R93): the entry read from the SQ the round robin serves is accepted as a command. -/
def execSqEntryFetch (entry : Bytes) (data : HostData) (s : State) : Res :=
  .next <|
    match s.nextFetch with
    | none => s
    | some q =>
      let s := (s.tookFetch q).queueAccess q (q.sqBase + 64 * q.head)
      let s := s.modPair q.fn q.qid fun q => { q with head := (q.head + 1) % q.sqSize }
      (s.accept q entry data s.mutationIds).prefetch s.nextCid

/-! ### What a held command waits for (R102, R103, R106) -/

/-- FENCE: every command fetched before it, from its SQ or with PARTITION from its partition, has completed (R103). The SQs of a
partition are its I/O SQs: an admin command acts in no partition's stream of work (DESIGN CHOICE, log 48). -/
def State.fenceMet (s : State) (c : Cmd) : Bool :=
  !s.cmds.any fun d => d.id < c.id && d.origin.isNone && !d.isAdmin && !d.shadow &&
    ((d.fn == c.fn && d.qid == c.qid) || (c.f 48 1 % 2 == 1 && d.part == c.part))

/-- Held commands of a partition whose condition now holds join its admission queue (R387). -/
def State.promote (s : State) (p : PartNo) : State :=
  { s with cmds := s.cmds.map fun c =>
      if c.part == some p && c.phase == .waiting && c.op != 0x7F && s.lockGranted c.id && s.depMet c then { c with phase := .queued } else c }

/-! ### The scheduling step (R388, R389) -/

/-- LEAVING slots of a partition's cores are freed, their incarnations increased (R386, R389). -/
def State.freeLeaving (s : State) (p : PartNo) : State :=
  let gone := s.ctxs.filter fun x => x.state == .leaving && (s.part p).clusters.getLsbD (x.core / 9)
  let s := { s with
    ctxs := s.ctxs.filter fun x => !gone.contains x
    incarnations := gone.foldl (fun l x =>
      setKey l (x.core * 128 + x.slot) (getKey l (x.core * 128 + x.slot) (0 : BitVec 8) + 1)) s.incarnations }
  gone.foldl (fun s x => s.modCluster (x.core / 9) fun c => { c with idleSince := s.time.clk }) s

/-- The order of an admission queue (R387, R396). -/
def Cmd.admitsBefore (a b : Cmd) : Bool :=
  b.cls < a.cls || (a.cls == b.cls &&
    ((a.rerun && !b.rerun) || (a.rerun == b.rerun && (b.prio < a.prio || (a.prio == b.prio && a.id < b.id)))))

/-- The head of a partition's admission queue; during a replay only commands that name no collection are admitted (R317). -/
def State.headOf (s : State) (p : PartNo) : Option Cmd :=
  bestBy Cmd.admitsBefore (s.cmds.filter fun c => c.part == some p && c.phase == .queued &&
    ((s.part p).journal.state != .replaying || c.op == 0x70 || c.op == 0x71))

/-- The core with the most free slots, ties to the lowest number, and the other cores with a free slot in ascending order (R388). -/
def State.pickCores (s : State) (p : PartNo) (op : Nat) : Option (Nat × List Nat) :=
  let cores := ((s.admitCores p).map fun n => (n, s.freeSlotsOn n op)).filter fun x => x.2 != 0
  (bestBy (fun a b => b.2 < a.2 || (a.2 == b.2 && a.1 < b.1)) cores).map fun h => (h.1, (cores.map (·.1)).filter (· != h.1))

def Cmd.spreads (c : Cmd) : Bool := spreadOps.contains c.op || c.flat

/-- A command as admission fixes it: its mode word, its collection, its stage set, its strategy (R38, R136, R188, R246). A re-run
keeps what its first admission fixed. -/
def State.fixed (s : State) (p : PartNo) (c : Cmd) : Cmd :=
  if c.rerun || c.shadow then c
  else
    let k := if c.op = 0x20 || c.op = 0x22 then none else s.coll? p c.handle
    let c := { c with
      mode := s.modeOf p
      coll := k.map Coll.uid
      stage := if c.op = 0x31 then k.bind fun k => k.stages.find? fun g => g.id == c.p 24 4 else none
      bound := if c.op = 0x23 then (k.map fun k => ((s.part p).liveSlots k).length).getD 0 else 0
      devs := if c.op = 0x23 then (Config.identityTag, Config.bindingTag) :: (s.part p).declared else [] }
    { c with flat := (c.op == 0x30 || c.op == 0x31) && match k with
      | some k => (c.queryErr k).isNone && s.choosesFlat p k c
      | none => false }

/-- The spill reservation of each context a command takes (R265); a command that its checks will end reserves nothing. -/
def State.spillOf (s : State) (p : PartNo) (c : Cmd) : Nat :=
  match c.coll.bind (s.part p).collU? with
  | none => 0
  | some k =>
    if !(c.op == 0x30 || c.op == 0x31 || c.op == 0x32) || (c.queryErr k).isSome then 0
    else if c.shadow then
      let qs := (s.part p).shadows.filter fun q => q.handle == k.handle
      let k' := (qs.map (·.k)).foldl max c.k
      reserve (areaBytes true) (scanState (max 1 qs.length) k') (joinState (max 1 qs.length) k' (c.payInline k))
    else if c.op = 0x32 then reserve (areaBytes true) (scanState c.nq c.k) (joinState c.nq c.k (c.payInline k))
    else if c.flat then reserve (areaBytes false) (56 * c.k) (joinState 1 c.k (c.payInline k))
    else reserve (areaBytes false) (walkState c.beam c.rerank c.k) (joinState 1 c.k (c.payInline k))

/-- Staging space that running REGION_WRITE commands hold, of 256 MiB (R435). -/
def State.stagingUsed (s : State) : Nat :=
  ((s.cmds.filter fun c => c.op == 0x70 && !c.isAdmin && c.phase == .running).map fun c => c.p 16 4).foldl (· + ·) 0

/-- The stream or Ristretto entry that fetches one piece of a command's input (R367, R369, R380). -/
def State.addInput (s : State) (c : Cmd) (core slot : Nat) (e : Nat × Nat) (off : Nat) : State :=
  if e.2 ≤ 256 && (s.ristretto.filter fun r => r.core == core).length < 32 then
    { s with ristretto := s.ristretto ++ [{ core := core, cid := c.id, space := 0, addr := e.1, len := e.2,
                                             carafeOff := windowAt !(s.coreAt core).computeWindow, ctxSlot := slot, dataOff := some off }] }
  else
    match (List.range 64).find? fun n => !s.streams.any fun x => x.core == core && x.num == n with
    | none => s
    | some n => { s with streams := s.streams ++
        [{ core := core, num := n, engine := 0, cid := c.id, ctxSlot := slot, elem := 4, base := e.1, count := e.2 / 4, bufBytes := 16384
           carafeOff := windowAt !(s.coreAt core).computeWindow, dataOff := some off, fn := c.fn, eligibleSince := s.time.clk }] }

/-- Whether a SEARCH is one the sampling of shadow scans counts (R202). -/
def Cmd.shadowable (c : Cmd) : Bool := c.op == 0x30 && c.origin.isNone && !(c.p 9 1).testBit 2

/-- The command admitted, its contexts taken: home core first (R388). -/
def State.admitOn (s : State) (p : PartNo) (c : Cmd) (home : Nat) (others : List Nat) (spill : Nat) : State :=
  let slot := s.freeSlot home
  let s := (home :: others).foldl (fun s n => s.takeSlot c.id n) s
  let reads := readOps.contains c.op && c.origin.isNone && !c.rerun && !c.shadow
  let r := s.readStamp
  let s := if reads then s.issued r else s
  let n := (s.part p).feat 0x21
  let count := ((c.coll.bind (s.part p).collU?).map fun k => k.shadowCount + 1).getD 0
  let sampled := c.shadowable && !c.rerun && n != 0 && c.coll.isSome && count % n == 0
  let s := if c.shadowable && !c.rerun && n != 0 then s.modCollU p (c.coll.getD 0) fun k => { k with shadowCount := k.shadowCount + 1 } else s
  let deadline := if c.rerun || c.origin.isSome then c.deadline
    else if queryOps.contains c.op then (s.deadlineOf c).map fun d => s.now + 1000 * d else none
  let s : State := { s with nextAdmit := s.nextAdmit + 1 }.modCmd c.id fun _ => { c with
    phase := .running
    rerun := false
    admitTime := if c.rerun then c.admitTime else s.now
    admitSeq := if c.rerun then c.admitSeq else s.nextAdmit + 1
    readStamp := if reads then r else c.readStamp
    deadline := deadline
    tWalk := if c.rerun then c.tWalk else ((c.coll.bind (s.part p).collU?).map fun k => s.walkCut k c deadline).getD none
    sampled := if c.rerun then c.sampled else sampled
    spill := spill * (1 + others.length)
    core := home }
  ((scatter c.data.inList).foldl (fun (a : State × Nat) e => (a.1.addInput c home slot e a.2, a.2 + e.2)) (s, 0)).1

/-- A query whose output buffer is too short for its results completes with 0x2005 before admission (R270). -/
def State.outputShort (s : State) (p : PartNo) (c : Cmd) : Option Err :=
  if !(c.op == 0x30 || c.op == 0x31 || c.op == 0x32) || c.origin.isSome || c.shadow || c.rerun then none
  else
    match s.coll? p c.handle with
    | some k =>
      if (bodyErr c filterLens true true false).isSome || (filterLenErr c).isSome || (c.inErr (c.queryNeed k)).isSome then none
      else c.outErr (c.resultNeed k)
    | none => none

/-- The head of the queue is admitted, or none where it must wait (R389). -/
def State.admitHead (s : State) (p : PartNo) : Option State :=
  match s.headOf p with
  | none => none
  | some c =>
    let c := s.fixed p c
    match s.outputShort p c with
    | some e => some (s.tearDown c.id e.st e.cause)
    | none =>
    match s.pickCores p c.op with
    | none => none
    | some (home, rest) =>
      let others := if c.spreads then rest else []
      let spill := s.spillOf p c
      if spillPool < s.spillUsed + spill * (1 + others.length) then none
      else if c.op = 0x70 && 2 ^ 28 < s.stagingUsed + c.p 16 4 && s.stagingUsed != 0 then none
      else some (s.admitOn p c home others spill)

/-- Commands are admitted from the head until one must wait. -/
def State.admitAll (p : PartNo) : Nat → State → State
  | 0, s => s
  | fuel + 1, s => match s.admitHead p with | some t => State.admitAll p fuel t | none => s

/-- The head of the queue and since when it has been the head (R392). -/
def State.noteHead (s : State) (p : PartNo) : State :=
  match s.headOf p with
  | none => s.modPart p fun x => { x with headCid := 0, headSince := s.now }
  | some c =>
    if (s.part p).headCid = c.id + 1 then s
    else s.modPart p fun x => { x with headCid := c.id + 1, headSince := s.now }

/-- SCHEDULING_STEP (R387 to R389): LEAVING slots are freed, held commands join the queue, commands are admitted from its head. A
partition left without an active cluster ends its commands with 0x7003 (R399). -/
def execSchedulingStep (part : PartNo) (s : State) : Res :=
  .next <|
    let s := (s.freeLeaving part).settleBypasses
    if !(s.part part).present then s
    else if (s.clustersOf part).isEmpty then
      ((s.cmds.filter fun c => c.part == some part && (c.phase == .queued || c.phase == .waiting) && c.op != 0x7F).map (·.id)).foldl
        (fun s cid => s.tearDown cid stNoCluster) s
    else if !s.hif.dpReady || (s.part part).stopped || s.fw.live.isSome then s
    else
      let s := s.promote part
      let s := State.admitAll part s.cmds.length s
      s.noteHead part

/-! ### Waits that end (R108, R390, R392) -/

/-- Whether DEADLINE µs have passed since a command's fetch. -/
def State.fetchLimit (s : State) (c : Cmd) : Bool :=
  match s.deadlineOf c with
  | some d => c.fetchTime + 1000 * d ≤ s.now
  | none => false

/-- NO_CONTEXT_BY_DEADLINE (R390): a command still waiting for admission completes with 0x3001; a killed command that waits for
its re-run does not, and one that R270 refuses before admission has that status. -/
def execNoContextByDeadline (cid : Nat) (s : State) : Res :=
  .next <|
    s.onCmd cid (fun c => (c.phase == .queued || (c.phase == .waiting && c.op != 0x7F && s.lockGranted cid)) && !c.rerun &&
      c.origin.isNone && s.fetchLimit c) fun c =>
      match c.part.bind fun p => s.outputShort p c with
      | some e => s.tearDown cid e.st e.cause
      | none => s.tearDown cid stNoContext

/-- Whether a command is a mutation on a mesh collection, which waits for its locks without deadline (R288). -/
def State.meshMutation (s : State) (c : Cmd) : Bool :=
  recordLockOps.contains c.op && match c.part.bind fun p => s.coll? p c.handle with | some k => k.isMesh | none => false

/-- LOCK_NOT_BY_DEADLINE (R108): a locking command whose entry is not granted in time completes with 0x3003: COLLECTION_DROP and
COLLECTION_IMPORT too, which R108 covers as locking commands though R91 gives their DEADLINE to R390 alone (DESIGN CHOICE, log 48). -/
def execLockNotByDeadline (cid : Nat) (s : State) : Res :=
  .next <|
    s.onCmd cid (fun c => c.phase == .waiting && !s.lockGranted cid && !s.meshMutation c && s.fetchLimit c) fun _ =>
      s.tearDown cid stNoLock

/-- Whether a command may be killed for a head of a class (R392). -/
def State.preemptible (s : State) (c : Cmd) (cls : Nat) : Bool :=
  c.phase == .running && c.ctxCls < cls && c.preempts < 4 &&
  !(s.ctxs.any fun x => x.cid == c.id && x.state == .committing) &&
  s.ctxs.any fun x => x.cid == c.id && x.state != .leaving

/-- PREEMPTION (R392): the head has waited PREEMPT_WAIT_US for a free slot; the victim is the running command of the lowest class below the head's,
then of the smallest PRIORITY, then the latest admitted. -/
def execPreemption (part : PartNo) (s : State) : Res :=
  .next <|
    match s.headOf part with
    | none => s
    | some h =>
      let w := (s.part part).feat 0x60
      if w = 65535 || (s.part part).headCid != h.id + 1 || s.now < (s.part part).headSince + 1000 * w || (s.pickCores part h.op).isSome then s
      else
        let ok := s.cmds.filter fun c => c.part == some part && s.preemptible c h.cls
        match bestBy (fun a b => a.ctxCls < b.ctxCls || (a.ctxCls == b.ctxCls && (a.prio < b.prio || (a.prio == b.prio &&
            (b.admitTime < a.admitTime || (a.admitTime == b.admitTime && b.id < a.id)))))) ok with
        | none => s
        | some v => (s.killRerun v.id true).modPart part fun x => { x with headSince := s.now }

/-! ### FENCE (R103) -/

/-- The checks of a FENCE. -/
def fenceErr (c : Cmd) : Option Err :=
  firstErr [ failIf (c.handle != 0) (errAt stInvalidField 4), reservedErr c.packet 0 [(16, 32), (49, 15)], reservedBits c.packet 0 48 0xFE ]

/-- FENCE: its checks, and its release where its condition holds already (R103). -/
def execFence (cid : Nat) (s : State) : Res :=
  .next <|
    s.onCmd cid (fun c => !c.isAdmin && c.op == 0x7F && c.phase == .waiting) fun c =>
      match fenceErr c with
      | some e => s.fail cid e.st e.cause
      | none => if s.fenceMet c && s.depMet c then s.finish cid {} else s

/-- FENCE_RELEASE: the condition of a FENCE holds: the QM writes its completion (R103). -/
def execFenceRelease (cid : Nat) (s : State) : Res :=
  .next <|
    s.onCmd cid (fun c => !c.isAdmin && c.op == 0x7F && c.phase == .waiting && (fenceErr c).isNone) fun c =>
      if s.fenceMet c && s.depMet c then s.finish cid {} else s

end Sys2Proof.Machine
end

