-- ==== Sys2Proof/Machine/Completion.lean ====
section
/-! DEFINITION. The writing of completions (R86, R94, R111), and the results of member steps (R288, R473, R487). -/

namespace Sys2Proof.Machine

/-- The notes of a status of class 1. -/
def notesOf (st : Nat) : Nat := if statusClass st = 1 then st % 0x1000 else 0

/-- What a finished member step sends to its origin (R199, R275, R288, R487). Where payloads do not travel inline, the listed records are
held until the origin has asked for theirs (R267). -/
def State.answer (s : State) (c : Cmd) (d tag : Nat) : State :=
  let p := c.part.getD 0
  let domain := (s.part p).feat 0x80
  let send := fun (s : State) (b : ResultBody) => s.sendRouted tResult d domain tag 0 16 c.cls true (.result b) c.part
  if recordLockOps.contains c.op then
    match c.mesh with
    | some m =>
      if !m.applying then send s (.prepared c.status)
      else if 2 ≤ statusClass c.status then send s (.failed c.status)
      else send s (.committed c.stamp ((m.outcomes.head?.map (·.2)).getD []) c.work)
    | none => send s (.prepared c.status)
  else if 2 ≤ statusClass c.status then send s (.failed c.status)
  else if c.op = 0x33 then send s (.fetched ((c.mesh.map (·.fetched)).getD []))
  else
    let pay := match c.coll.bind (s.part p).collU? with
      | some k => if c.inlinePay k then k.payloadSlot else 0
      | none => 0
    let s := match c.coll.bind (s.part p).collU? with
      | some k =>
        if c.omitPay || k.payload = 0 || c.inlinePay k then s
        else s.modPart p fun x => { x with payHolds := x.payHolds ++ [{ uid := k.uid, stamp := c.readStamp, dev := d, tag := tag, at_ := s.now }] }
      | none => s
    c.lists.zipIdx.foldl (fun s l =>
      s.sendList d domain tag l.2 pay (l.2 + 1 == c.lists.length) l.1 (notesOf c.status) c.work c.part) s

/-- COMPLETION_POSTED (R86, R94, R95, R111): the error is logged and the SQ frozen first, then the completion is written. With Relaxed
Ordering a command with output first issues a zero-length read; the row then runs again when the read has returned. Where the
translation of the completion write says not present, under a PASID, a page request goes out, and the row runs again once it is
answered. A member's step of another device's command sends its result instead (R473, R487). -/
def execCompletionPosted (post : PostedWrite) (s : State) : Res :=
  .next <|
    s.onCmd post.cid (fun c => c.phase == .done && !c.shadow) fun c =>
      match c.origin with
      | some o => (s.answer c o.1 o.2).forget post.cid
      | none =>
      match s.pair? c.fn c.qid with
      | none => s
      | some q =>
        if !s.mayPost q c then s
        else match s.readFirst c with
        | some a => (s.emit (.hostRead c.fn a 0)).modCmd post.cid fun c => { c with readBack := true }
        | none =>
        if (post.fault && q.pasid.isSome) || c.pageWait == some false then s.askCompletion q c
        else
          let s := (s.completionAnswered c).logError c
          let c := (s.cmd? post.cid).getD c
          let q := (s.pair? c.fn c.qid).getD q
          let s := ((s.post q c).searchDone c).countDone c
          let s := if q.fence = some post.cid then s.modPair q.fn q.qid fun q => { q with fence := none } else s
          s.forget post.cid

/-- COMPLETION_WRITE_FAILED (R86): the page request of a completion write is answered with a failure: the completion is not written; the
tail passes its place; HOST event 7. The failed write freezes nothing; an error of the command itself has been logged and has frozen
its SQ first (R111). -/
def execCompletionWriteFailed (cid : Nat) (s : State) : Res :=
  .next <|
    s.onCmd cid (fun c => c.phase == .done && c.origin.isNone && !c.shadow && c.pageWait == some true) fun c =>
      match s.pair? c.fn c.qid with
      | none => s
      | some q =>
        if !s.mayPost q c then s
        else
          let s := ((s.completionAnswered c).logError c).logHost 7 q.fn q.qid scCommand 0 [(26, toLe 2 c.ctag)]
          let q := (s.pair? c.fn c.qid).getD q
          let s := (s.modPair q.fn q.qid Pair.advanceCq).countDone c
          let s := if q.fence = some cid then s.modPair q.fn q.qid fun q => { q with fence := none } else s
          s.forget cid

end Sys2Proof.Machine
end

