-- ==== Sys2Proof/Machine/Tables.lean ====
section
/-! DEFINITION. Tables over a mesh: the exchange of a lookup (R358), training steps (R359 to R361), handoffs (R366), load windows and
migration (R362, R364), SHARD_MIGRATE (R365). -/

namespace Sys2Proof.Machine

/-! ### Messages between members -/

/-- A message to a device of a mesh collection, in a CMD frame; AUX is the read stamp or STEP of its command (R473). -/
def State.toDevice (s : State) (p : PartNo) (d tag : Nat) (body : CmdBody) (aux : Nat := 0) : State :=
  s.sendRouted tCmd d ((s.part p).feat 0x80) tag aux 16 2 true (.cmd body) (some p)

def State.toMember (s : State) (p : PartNo) (k : Coll) (m : Nat) (body : CmdBody) (tag : Nat := 0) (aux : Nat := 0) : State :=
  s.toDevice p (k.deviceOf m) tag body aux

/-- A message to every other member. -/
def State.toOthers (s : State) (p : PartNo) (k : Coll) (body : CmdBody) (tag : Nat := 0) (aux : Nat := 0) : State :=
  (exchangeOrder s.mesh.deviceId ((k.others s.mesh.deviceId).map (·.2))).foldl (fun s d => s.toDevice p d tag body aux) s

def State.replyTo (s : State) (p : PartNo) (d tag : Nat) (body : ResultBody) : State :=
  s.sendRouted tResult d ((s.part p).feat 0x80) tag 0 16 2 true (.result body) (some p)

def State.modTm (s : State) (p : PartNo) (uid : Nat) (f : TableMesh → TableMesh) : State :=
  s.modCollU p uid fun k => { k with tm := f k.tm }

/-- The member whose device is d. -/
def Coll.memberOf (k : Coll) (d : Nat) : Nat := (k.members.findIdx? (· == d)).getD k.members.length

/-! ### Lookups (R358) -/

/-- One index of a lookup: its bag, row, and weight as FP32 bits. -/
abbrev Share := Nat × Nat × Nat

/-- The partial sums of the bags that shares name, in stream order. -/
def PartSt.partials (x : PartSt) (k : Coll) (pool : Nat) (l : List Share) : List (Nat × List Nat) :=
  ((l.map (·.1)).eraseDups).map fun b =>
    (b, (poolBag pool k.dim ((l.filter fun e => e.1 == b).map fun e => (Flt.ofBits32 e.2.2, x.rowVec k e.2.1))).map Flt.bits32)

/-- An owner serves a share at the origin's read stamp, which counts among its own issued stamps (R167): its own rows pooled, the rest
sent on to their owners (R358, R366). -/
def State.serveLookup (s : State) (p : PartNo) (k : Coll) (src tag requester : Nat) (shares : List Share) (pool : Nat) (stamp : Nat) :
    State :=
  let s := s.issued stamp
  let s := s.touch p ((s.part p).gatherReads k ((shares.filter fun e => k.ownsRow e.2.1).map (·.2.1)))
  let own := shares.filter fun e => k.ownsRow e.2.1
  let rest := shares.filter fun e => !k.ownsRow e.2.1
  let rows := own.map (·.2.1)
  let s :=
    if own.isEmpty then s
    else if (s.gatherPoison p k rows).isSome then s.replyTo p requester tag (.failed stPoison)
    else
      let hints := if src = requester then []
        else ((rows.map (· / 64)).eraseDups).map fun b => (b, k.memberIndex, k.tm.epochOf b)
      (s.accessRows p k rows).replyTo p requester tag (.partials k.memberIndex ((s.part p).partials k pool own) own.length hints)
  ((rest.map fun e => k.owner (e.2.1 / 64)).eraseDups).foldl (fun s o =>
    if s.unreachable (k.deviceOf o) then s.replyTo p requester tag (.failed stPeerLost)
    else s.toDevice p (k.deviceOf o) tag (.lookup k.param requester (rest.filter fun e => k.owner (e.2.1 / 64) == o) pool) stamp) s

/-- The output of a lookup, from the pooled sum of each bag and its n (R334, R335). -/
def Cmd.lookupOut (c : Cmd) (k : Coll) (l : List (List Flt × Nat)) : Bytes :=
  l.flatMap fun b => fit (c.outVec k) (convertRow (c.p 13 1) (poolEnd c.pool b.2 b.1))

/-- A lookup ends: its vectors are written (R336). -/
def State.lookupEnd (s : State) (k : Coll) (c : Cmd) (l : List (List Flt × Nat)) : State :=
  let skipped := c.indices - (l.map (·.2)).foldl (· + ·) 0
  (s.output c 0 (c.lookupOut k l)).finish c.id { count := c.bags, stamp := c.readStamp, work := skipped }

/-- Partials of one bag added in ascending member index, each addition rounded once. -/
def addPartials (dim : Nat) (l : List (Nat × List Nat)) : List Flt :=
  match sortBy (fun a b => decide (a.1 < b.1)) l with
  | [] => List.replicate dim .zero
  | x :: xs => xs.foldl (fun acc y => List.zipWith Flt.add32 acc (y.2.map Flt.ofBits32)) (x.2.map Flt.ofBits32)

/-- Every owner has answered: the bags are completed. -/
def State.lookupJoin (s : State) (p : PartNo) (k : Coll) (c : Cmd) (m : MeshWait) : State :=
  let input := s.embInput p k c
  s.lookupEnd k c <| (List.range c.bags).map fun b =>
    (addPartials k.dim ((m.partials.filter fun x => x.2.1 == b).map fun x => (x.1, x.2.2)), (c.validIn k input b).length)

/-- An EMB_LOOKUP on a mesh table begins: its own share is pooled, the others are sent to their owners (R358). -/
def State.lookupMesh (s : State) (p : PartNo) (k : Coll) (c : Cmd) : State :=
  let input := s.embInput p k c
  let shares : List Share := (List.range c.bags).flatMap fun b =>
    (c.validIn k input b).map fun j => (b, c.indexAt k input j, c.weightAt k input j)
  let own := shares.filter fun e => k.ownsRow e.2.1
  let rest := shares.filter fun e => !k.ownsRow e.2.1
  let owners := (exchangeOrder s.mesh.deviceId (((rest.map fun e => k.owner (e.2.1 / 64)).eraseDups).map k.deviceOf)).map k.memberOf
  if owners.any fun o => s.unreachable (k.deviceOf o) then s.tearDown c.id stPeerLost
  else
    s.gathered c.id p k (own.map (·.2.1)) <|
      let tag := s.mesh.nextTag
      let s := s.accessRows p k (own.map (·.2.1))
      let s := owners.foldl (fun s o =>
        s.toDevice p (k.deviceOf o) tag (.lookup k.param s.mesh.deviceId (rest.filter fun e => k.owner (e.2.1 / 64) == o) c.pool)
          c.readStamp) s.newTag
      let m : MeshWait := { tag := tag, members := owners, waiting := owners, count := rest.length
                            partials := ((s.part p).partials k c.pool own).map fun x => (k.memberIndex, x.1, x.2) }
      let s := s.modCmd c.id fun c => { c with mesh := some m }
      if owners.isEmpty then s.lookupJoin p k c m else s

/-- Partial sums arrive for a lookup; the hints go into the directory replica (R358, R366). -/
def State.takePartials (s : State) (cid member : Nat) (l : List (Nat × List Nat)) (covered : Nat) (hints : List (Nat × Nat × Nat)) :
    State :=
  s.onCmd cid (fun c => c.ioRunning 0x50) fun c =>
    match c.part, c.mesh with
    | some p, some m =>
      match c.coll.bind (s.part p).collU? with
      | none => s
      | some k =>
        let m := { m with
          partials := m.partials ++ l.map fun x => (member, x.1, x.2)
          count := m.count - covered
          waiting := if m.count ≤ covered then [] else m.waiting }
        let s := s.modTm p k.uid fun t => hints.foldl (fun t h => t.setOwner k.members.length h.1 h.2.1 h.2.2) t
        let s := s.modCmd cid fun c => { c with mesh := some m }
        if m.waiting.isEmpty && !s.haltedOn cid then s.lookupJoin p k c m else s
    | _, _ => s

/-- The key of a step in the table of steps: STEP, or for a step of one participant (PARTICIPANTS 0) its member and tag. -/
def stepKey (participants step member tag : Nat) : Nat := if participants = 0 then 2 ^ 64 + member * 2 ^ 32 + tag else step

/-- The STEP of a key, as AUX carries it: 0 for a step of one participant (R337, R473). -/
def stepAux (key : Nat) : Nat := if key < 2 ^ 64 then key else 0

/-- Pairs of a step travel to the member that owns their rows (R359); the tag is the participant's, or 0 where they are sent on. -/
def State.pairsTo (s : State) (p : PartNo) (k : Coll) (o tag step inc member : Nat) (rows : List RowSum) : State :=
  s.toMember p k o (.pairs k.param step inc member (rows.map fun r => (r.row, r.sums))
    (rows.filterMap fun r => r.assign.map fun v => (r.row, v))) tag (stepAux step)

/-! ### Handoffs (R366) -/

/-- The bytes of a line of a block this member stores. -/
def PartSt.blockLine (x : PartSt) (k : Coll) (block i : Nat) : Bytes := x.bytes (k.lineAt (64 * block + i)) k.lineSize

/-- Whether an open step holds pairs for a block. -/
def TableMesh.openFor (t : TableMesh) (block : Nat) : Bool :=
  t.steps.any fun st => st.sums.any fun e => e.2.2.any fun r => r.row / 64 == block

def Coll.outHandoff (k : Coll) (block : Nat) : Option Handoff := k.tm.handoffs.find? fun h => h.block == block && h.out
def Coll.inHandoff (k : Coll) (block : Nat) : Option Handoff := k.tm.handoffs.find? fun h => h.block == block && !h.out

def TableMesh.modHandoff (t : TableMesh) (block : Nat) (out : Bool) (f : Handoff → Handoff) : TableMesh :=
  { t with handoffs := t.handoffs.map fun h => if h.block == block && h.out == out then f h else h }

def TableMesh.endHandoff (t : TableMesh) (block : Nat) (out : Bool) : TableMesh :=
  { t with handoffs := t.handoffs.filter fun h => !(h.block == block && h.out == out) }

/-- A SHARD_MIGRATE whose last block has been answered completes (R365). -/
def State.shardEnd (s : State) (cid : Nat) : State :=
  s.onCmd cid (fun c => c.ioRunning 0x54) fun c =>
    match c.mesh with
    | some m => if m.asking && m.waiting.isEmpty then s.finish cid { count := m.count } else s
    | none => s

/-- An owner has handed a block off for a SHARD_MIGRATE, or not. -/
def State.takeHandedOff (s : State) (cid block : Nat) (done : Bool) : State :=
  (s.modCmd cid fun c =>
    { c with mesh := c.mesh.map fun m =>
        if m.waiting.contains block then { m with waiting := m.waiting.filter (· != block), count := m.count + if done then 1 else 0 }
        else m }).shardEnd cid

/-- The SHARD_MIGRATE that asked for a handoff is told how it went. -/
def State.tellAsker (s : State) (p : PartNo) (h : Handoff) (done : Bool) : State :=
  match h.asker with
  | some (d, tag) =>
    if d = s.mesh.deviceId then
      match s.cmds.find? fun c => c.op == 0x54 && !c.isAdmin && c.part == some p && c.origin.isNone &&
          (match c.mesh with | some m => m.tag == tag | none => false) with
      | some c => s.takeHandedOff c.id h.block done
      | none => s
    else s.replyTo p d tag (.handedOff h.block done)
  | none => s

/-- A handoff that cannot reach its commit is abandoned and logged; the block stays where it was (R365, R366). -/
def State.dropHandoff (s : State) (p : PartNo) (k : Coll) (h : Handoff) : State :=
  let s := s.modTm p k.uid fun t => t.endHandoff h.block true
  let s := s.log { seq := 0, status := stPeerLost, kind := kCommand, scope := scPartition, part := some p
                   detail := detail [(26, [0xFF, 0xFF]), (28, [0x54])] }
  s.tellAsker p h false

/-- Phase 1 begins: the block is MOVING and the target is asked for a slot. What a re-run asks for again, while its own handoff
of the block goes on, is answered at that handoff's end (R397). -/
def State.startHandoff (s : State) (p : PartNo) (k : Coll) (block target : Nat) (asker : Option (Nat × Nat)) : State :=
  let h : Handoff := { block := block, peer := target, out := true, asker := asker }
  if k.tm.handoffs.any fun x => x.out && x.block == block && x.peer == target && x.asker == asker && asker.isSome then s
  else if k.owner block != k.memberIndex || (k.tm.handoffs.any fun h => h.block == block) || target = k.memberIndex then
    s.tellAsker p h (k.owner block == target)
  else if s.unreachable (k.deviceOf target) then s.dropHandoff p k h
  else (s.modTm p k.uid fun t => { t with handoffs := t.handoffs ++ [h] }).toMember p k target (.handoffAsk k.param block)

/-- The copy is done and no open step holds pairs for the block: the dirty lines and COMMIT are sent. -/
def State.tryCommit (s : State) (p : PartNo) (k : Coll) (h : Handoff) : State :=
  if !h.copied || h.sent || !h.out || k.tm.openFor h.block then s
  else
    let s := (s.touch p (h.dirty.map fun i => (k.lineAt (64 * h.block + i), k.lineSize)))
    let s := h.dirty.foldl (fun s i => s.toMember p k h.peer (.handoffLines k.param h.block [(i, (s.part p).blockLine k h.block i)])) s
    (s.modTm p k.uid fun t => t.modHandoff h.block true fun h => { h with sent := true, dirty := [] }).toMember p k h.peer
      (.handoffCommit k.param h.block)

/-- Every handoff of a table that may now send its COMMIT. -/
def State.tryCommits (s : State) (p : PartNo) (uid : Nat) : State :=
  match (s.part p).collU? uid with
  | none => s
  | some k => k.tm.handoffs.foldl (fun s h => s.tryCommit p k h) s

/-- The target reserves a block slot and answers (phase 1). -/
def State.takeAsk (s : State) (p : PartNo) (k : Coll) (src block : Nat) : State :=
  let used := k.tm.slots.map (·.2)
  match (List.range k.tm.slotCount).find? fun n => !used.contains n with
  | some n =>
    if (k.tm.slots.lookup block).isSome then s.toDevice p src 0 (.handoffSlot k.param block false)
    else
      (s.modTm p k.uid fun t => { t with
        slots := t.slots ++ [(block, n)]
        handoffs := t.handoffs ++ [{ block := block, peer := k.memberOf src, out := false }] }).toDevice p src 0
          (.handoffSlot k.param block true)
  | none => s.toDevice p src 0 (.handoffSlot k.param block false)

/-- The old owner copies the 64 lines once it has a slot; a line that reads poison ends the handoff. -/
def State.takeSlotAnswer (s : State) (p : PartNo) (k : Coll) (block : Nat) (granted : Bool) : State :=
  match k.outHandoff block with
  | none => s
  | some h =>
    if h.copied then s
    else if !granted then s.dropHandoff p k h
    else
      let (s, bad) := s.reads p ((List.range 64).map fun i => (k.lineAt (64 * block + i), k.lineSize))
      if bad.isSome then s.dropHandoff p k h
      else
        let s := (List.range 64).foldl (fun s i =>
          s.toMember p k h.peer (.handoffLines k.param block [(i, (s.part p).blockLine k block i)])) s
        (s.modTm p k.uid fun t => t.modHandoff block true fun h => { h with copied := true }).tryCommits p k.uid

/-- Lines arrive at the target. -/
def State.takeLines (s : State) (p : PartNo) (k : Coll) (block : Nat) (lines : List (Nat × Bytes)) : State :=
  s.modTm p k.uid fun t => t.modHandoff block false fun h => { h with lines := lines.foldl (fun l x => setKey l x.1 x.2) h.lines }

/-- COMMIT at the target: the lines are installed, the block is its own, and the handoff commit is sent. -/
def State.install (s : State) (p : PartNo) (k : Coll) (src block : Nat) : State :=
  match k.inHandoff block with
  | none => s
  | some h =>
    let s := h.lines.foldl (fun s x => s.wrMem p none (k.lineAt (64 * block + x.1)) x.2) s
    (s.modTm p k.uid fun t =>
      let t := t.modHandoff block false fun h => { h with state := .forwarding, lines := [] }
      { t.setOwner k.members.length block k.memberIndex (k.tm.epochOf block + 1) with
        movedIn := t.movedIn + 1, recentMoves := setKey t.recentMoves block s.now }).toDevice p src 0 (.handoffInstalled k.param block)

/-- The handoff commit at the old owner: it starts forwarding, sends on what it held, and tells every member (R366 phase 2). -/
def State.handoffDone (s : State) (p : PartNo) (k : Coll) (block : Nat) : State :=
  match k.outHandoff block with
  | none => s
  | some h =>
    if !h.sent || h.state != .moving then s
    else
      let epoch := k.tm.epochOf block + 1
      let s := s.modCollU p k.uid fun k => { k with
        hotRows := k.hotRows.filter fun r => r / 64 != block
        tm :=
          let t := k.tm.modHandoff block true fun h => { h with state := .forwarding, held := [], acked := [k.memberIndex] }
          { t.setOwner k.members.length block h.peer epoch with
            movedOut := t.movedOut + 1, recentMoves := setKey t.recentMoves block s.now } }
      let s := h.held.foldl (fun s e => s.pairsTo p k h.peer 0 e.1 e.2.1 e.2.2.1 e.2.2.2) s
      (s.toOthers p k (.directory k.param block h.peer epoch)).tellAsker p h true

/-- The members that a directory change still waits for: those that have not acknowledged it. -/
def Coll.unacked (k : Coll) (h : Handoff) : List Nat := (List.range k.members.length).filter fun m => !h.acked.contains m

/-- Every reachable member has acknowledged: FORWARD_DONE goes to the new owner and the slot is freed; the forwarding ends with the
last member's acknowledgement (R366). -/
def State.tryForwardDone (s : State) (p : PartNo) (uid block : Nat) : State :=
  match (s.part p).collU? uid with
  | none => s
  | some k =>
    match k.outHandoff block with
    | none => s
    | some h =>
      if h.state != .forwarding then s
      else
        let left := k.unacked h
        let s :=
          if h.fwdDone || left.any (fun m => !s.unreachable (k.deviceOf m)) then s
          else (s.modTm p uid fun t =>
            { t.modHandoff block true (fun h => { h with fwdDone := true }) with slots := t.slots.filter fun x => x.1 != block }).toMember
              p k h.peer (.forwardDone k.param block)
        if left.isEmpty then s.modTm p uid fun t => t.endHandoff block true else s

def State.takeAck (s : State) (p : PartNo) (k : Coll) (member block : Nat) : State :=
  (s.modTm p k.uid fun t => t.modHandoff block true fun h => { h with acked := addOnce h.acked member }).tryForwardDone p k.uid block

/-- A directory change arrives: the replica takes it where its epoch is newer, and it is acknowledged (R366). -/
def State.takeDirectory (s : State) (p : PartNo) (k : Coll) (sender block owner epoch : Nat) : State :=
  let s := if k.tm.epochOf block < epoch && owner != k.memberIndex then
      s.modTm p k.uid fun t => t.setOwner k.members.length block owner epoch
    else s
  s.toMember p k sender (.directoryAck k.param block)

/-! ### Training steps (R359 to R361) -/

/-- A step's record, made when its first message arrives. -/
def TableMesh.modStep (t : TableMesh) (step now : Nat) (f : MeshStep → MeshStep) : TableMesh :=
  let steps := if t.steps.any (fun x => x.step == step) then t.steps else t.steps ++ [{ step := step, firstAt := now }]
  { t with steps := steps.map fun x => if x.step == step then f x else x }

/-- Pairs of one participant join a step; those of its earlier incarnations are discarded (R360). A step whose apply has begun takes
none. -/
def MeshStep.add (x : MeshStep) (member inc : Nat) (rows : List RowSum) : MeshStep :=
  if x.begun then x
  else { x with sums := (x.sums.filter fun e => !(e.1 == member && e.2.1 < inc)) ++
      if x.sums.any fun e => e.1 == member && inc < e.2.1 then [] else [(member, inc, rows)] }

/-- Pairs arrive at an owner: summed, held for a block whose copy is done, or sent on to the block's owner (R366). -/
def State.takePairs (s : State) (p : PartNo) (k : Coll) (step inc member : Nat) (rows : List RowSum) : State :=
  let moving := fun r : RowSum => match k.outHandoff (r.row / 64) with | some h => h.copied && h.state == .moving | none => false
  let own := rows.filter fun r => k.ownsRow r.row && !moving r
  let held := rows.filter fun r => k.ownsRow r.row && moving r
  let away := rows.filter fun r => !k.ownsRow r.row
  let s := s.modTm p k.uid fun t =>
    let t := t.modStep step s.now fun x => x.add member inc own
    { t with handoffs := t.handoffs.map fun h =>
        let mine := held.filter fun r => r.row / 64 == h.block
        if h.out && !mine.isEmpty then { h with held := h.held ++ [(step, inc, member, mine)] } else h }
  ((away.map fun r => k.owner (r.row / 64)).eraseDups).foldl (fun s o =>
    s.pairsTo p k o 0 step inc member (away.filter fun r => k.owner (r.row / 64) == o)) s

/-- The outcome of a mesh step for one participant's command, once every member has reported (R361). -/
def State.stepEnd (s : State) (c : Cmd) (m : MeshWait) : State :=
  if !m.waiting.isEmpty then s
  else if m.abandoned.isEmpty then
    let spilled := match c.run with | .update u => u.spilled | _ => false
    (s.finish c.id { status := noteStatus (if spilled then noteSpilled else 0), count := m.count, stamp := m.stamp, work := m.work }).modCmd
      c.id fun c => { c with commitStamp := m.stamp }
  else if m.applied.isEmpty then s.tearDown c.id stPeerLost
  else
    let l := sortBy (· < ·) m.applied
    (s.logLate c.id stPeerLost (toLe 2 l.length ++ (l.take 15).flatMap (toLe 2))).drop c.id

/-- A report of a member for a command that has sent its END. -/
def State.takeStepReport (s : State) (cid member : Nat) (applied : Bool) (stamp rows skipped : Nat) : State :=
  s.onCmd cid (fun c => !c.isAdmin && c.op == 0x51 && c.origin.isNone && c.phase != .done) fun c =>
    match c.mesh with
    | some m =>
      if !m.endSent || !m.waiting.contains member then s
      else
        let m := { m with
          waiting := m.waiting.filter (· != member)
          applied := if applied then m.applied ++ [member] else m.applied
          abandoned := if applied then m.abandoned else m.abandoned ++ [member]
          stamp := max m.stamp stamp, count := m.count + rows, work := m.work + skipped }
        (s.modCmd cid fun c => { c with mesh := some m }).stepEnd c m
    | none => s

/-- The command of this device that takes part in a step of a table. -/
def State.stepCmd (s : State) (uid step : Nat) : Option Cmd :=
  s.cmds.find? fun c => c.op == 0x51 && !c.isAdmin && c.coll == some uid && c.origin.isNone && c.phase != .done &&
    match c.mesh with | some m => m.endSent && m.step == step | none => false

/-- A member reports a step to its participants (R361). -/
def State.reportStep (s : State) (p : PartNo) (k : Coll) (x : MeshStep) (applied : Bool) (stamp rows skipped : Nat) : State :=
  (x.ends.map (·.1)).foldl (fun s m =>
    if m = k.memberIndex then
      match s.stepCmd k.uid x.step with
      | some c => s.takeStepReport c.id k.memberIndex applied stamp rows skipped
      | none => s
    else s.toMember p k m (.stepReport k.param x.step k.memberIndex applied stamp rows skipped) 0 (stepAux x.step)) s

/-- The commit steps of a step that may run now, each with its own stamp (R346, R347): they stop where a stamp would run ahead (R160). -/
def State.applyRuns (p : PartNo) (k : Coll) (cid : Option Nat) : List (List RowSum) → State → MeshStep → State × MeshStep
  | [], s, x => (s, { x with left := [] })
  | l :: ls, s, x =>
    if s.commitWaits then (s, { x with left := l :: ls })
    else
      let st := s.commitStamp
      let (t, m) := s.applyRows p k x.param cid st l
      State.applyRuns p k cid ls t { x with applied := x.applied + m, stamp := st }

/-- Whether a step is complete at this member (R359): END from PARTICIPANTS distinct members, and the forwarding END of every handoff
into it that is in phase 2. -/
def Coll.stepComplete (k : Coll) (x : MeshStep) : Bool :=
  match x.ends with
  | [] => false
  | e :: _ => (x.ends.map (·.1)).eraseDups.length == max 1 e.2.1 && x.ends.all (fun f => f.2.1 == e.2.1) &&
      k.tm.handoffs.all fun h => h.out || h.state != .forwarding || x.forwardEnds.contains h.block

/-- Whether the ENDs held disagree on PARTICIPANTS (R361). -/
def MeshStep.disagrees (x : MeshStep) : Bool := match x.ends with | [] => false | e :: _ => x.ends.any fun f => f.2.1 != e.2.1

/-- After a step is applied or abandoned: forwarding ENDs go to new owners, and waiting handoffs may commit (R366). -/
def State.afterStep (s : State) (p : PartNo) (k : Coll) (x : MeshStep) : State :=
  let s := (k.tm.handoffs.filter fun h => h.out && h.state == .forwarding && !h.fwdDone).foldl (fun s h =>
    s.toMember p k h.peer (.endStep k.param k.memberIndex x.step 0 0 (some h.block) x.param) 0 (stepAux x.step)) s
  s.tryCommits p k.uid

/-- A member abandons a step and discards its pairs (R361). -/
def State.abandonStep (s : State) (p : PartNo) (k : Coll) (x : MeshStep) : State :=
  let s := s.modTm p k.uid fun t => { t with steps := t.steps.filter fun y => y.step != x.step }
  (s.reportStep p k x false 0 0 0).tryCommits p k.uid

/-- The apply of a complete step begins: its pairs are combined, one read-modify-write for each row, and cut into commit steps (R347,
R359). -/
def State.beginStep (s : State) (p : PartNo) (k : Coll) (x : MeshStep) : MeshStep :=
  if x.begun then x
  else
    let live := x.sums.filter fun e => x.ends.any fun f => f.1 == e.1 && f.2.2 == e.2.1
    let rows := combine k.dim s.fresh (live.flatMap (·.2.2))
    { x with begun := true, total := rows.length, left := if rows.isEmpty then [[]] else chunks (s.stepRows p k) rows.length rows }

/-- A complete step is applied and, once its last commit step is done, reported (R359, R361). Commit steps whose stamp would run ahead
wait (R160): COMMIT_STEP of a participant here, or STEP_TIMEOUT, goes on with them. -/
def State.applyStep (s : State) (p : PartNo) (k : Coll) (x : MeshStep) : State :=
  let cid := (s.stepCmd k.uid x.step).map (·.id)
  let new := !x.begun
  let x := s.beginStep p k x
  let s := match cid with
    | some a => if new then s.stageLines p a (x.left.flatten.map fun (r : RowSum) => (k.lineAt r.row, k.lineSize)) else s
    | none => s
  let (s, x) := State.applyRuns p k cid x.left s.bump x
  if !x.left.isEmpty then
    s.modTm p k.uid fun t => { t with steps := t.steps.map fun y => if y.step == x.step then x else y }
  else
    let s := s.modTm p k.uid fun t => { t with steps := t.steps.filter fun y => y.step != x.step }
    let s := s.reportStep p k x true x.stamp x.applied (x.total - x.applied)
    match (s.part p).collU? k.uid with
    | some k => s.afterStep p k x
    | none => s

/-- A step is tried: abandoned where its ENDs disagree, applied where it is complete and its stamp need not wait (R160). -/
def State.tryStep (s : State) (p : PartNo) (uid step : Nat) : State :=
  match (s.part p).collU? uid with
  | none => s
  | some k =>
    match k.tm.steps.find? fun x => x.step == step with
    | none => s
    | some x =>
      if x.disagrees then s.abandonStep p k x
      else if (x.begun || k.stepComplete x) && !s.commitWaits then s.applyStep p k x
      else s

/-- An END, or a forwarding END, arrives (R359, R366). -/
def State.takeEnd (s : State) (p : PartNo) (k : Coll) (member step participants inc : Nat) (fwd : Option Nat) (param : Bytes) : State :=
  let s := s.modTm p k.uid fun t => t.modStep step s.now fun x =>
    match fwd with
    | some b => { x with forwardEnds := addOnce x.forwardEnds b, param := if x.param.isEmpty then param else x.param }
    | none =>
      if x.begun || (x.ends.any fun e => e.1 == member && inc ≤ e.2.2) then x
      else { x with
        ends := (x.ends.filter fun e => e.1 != member) ++ [(member, participants, inc)]
        param := if x.param.isEmpty then param else x.param }
  s.tryStep p k.uid step

/-- A mesh table of a partition. -/
def State.meshTable (s : State) (p : PartNo) (handle : Nat) : Option Coll :=
  (s.coll? p handle).filter fun k => k.isTable && k.isMesh

/-- A row that acts on a mesh table. -/
def State.onTable (s : State) (p : PartNo) (handle : Nat) (f : Coll → State) : State :=
  s.settled <| match s.meshTable p handle with
  | some k => if s.worksNow p then f k else s
  | none => s

/-- END (R359): a participant's END, or with a block the forwarding END of its old owner. -/
def execEndMsg (part : PartNo) (handle member step participants incarnation : Nat) (forwardedBlock : Option Nat) (param : Bytes)
    (s : State) : Res :=
  .next <| s.onTable part handle fun k => s.takeEnd part k member step participants incarnation forwardedBlock param

/-- STEP_REPORT (R361). -/
def execStepReport (cid : Nat) (member : Nat) (applied : Bool) (stamp rows skipped : Nat) (s : State) : Res :=
  .next (s.takeStepReport cid member applied stamp rows skipped)

/-- STEP_TIMEOUT (R361): a step not complete STEP_WAIT_US after its first message is abandoned. -/
def execStepTimeout (part : PartNo) (handle : Nat) (step : Nat) (s : State) : Res :=
  .next <| s.onTable part handle fun k =>
    match k.tm.steps.find? fun x => x.step == step with
    | none => s
    | some x =>
      if x.begun || k.stepComplete x then s.tryStep part k.uid step
      else if x.firstAt + 1000 * (s.part part).feat 0x53 ≤ s.now then s.abandonStep part k x
      else s

/-! ### Load and migration (R362, R364) -/

/-- LOAD of a block in sixteenths of rows per ms: 64 rows a sample, over the last 16 windows (R363). -/
def TableMesh.load16 (t : TableMesh) (block : Nat) : Nat := 64 * (getKey t.blockLoads block []).foldl (· + ·) 0

/-- LOAD_WINDOW (R362): a 1 ms window aligned to Thyme has ended; the owner totals what it served. -/
def execLoadWindow (part : PartNo) (handle : Nat) (s : State) : Res :=
  .next <| s.onTable part handle fun k =>
    if s.now < k.tm.windowEnd then s
    else
      s.modTm part k.uid fun t =>
        let total := t.served + (t.memberLoads.map (·.2)).foldl (· + ·) 0
        let blocks := (t.blockLoads.map (·.1) ++ t.blockServed.map (·.1)).eraseDups
        { t with
          windows := ((t.served, total) :: t.windows).take 1000
          blockLoads := (blocks.map fun b => (b, (getKey t.blockServed b 0 :: getKey t.blockLoads b []).take 16)).filter fun b =>
            b.2.any (· != 0)
          served := 0
          blockServed := []
          windowEnd := (s.now / 1000000 + 1) * 1000000 }

/-- MIGRATION_TEST (R364): in hardware mode an owner whose load is high hands its busiest block to the idlest member. -/
def execMigrationTest (part : PartNo) (handle : Nat) (s : State) : Res :=
  .next <| s.onTable part handle fun k =>
    let t := k.tm
    let w := t.windows.take ((s.part part).feat 0x55)
    let d := w.length
    let n := k.members.length
    let own := (w.map (·.1)).foldl (· + ·) 0
    let all_ := (w.map (·.2)).foldl (· + ·) 0
    if (s.modeOf part).getLsbD mMigrate || d = 0 || t.handoffs.any (·.out) || own * n * 100 ≤ all_ * (100 + (s.part part).feat 0x54) then s
    else
      let still := fun b => match t.recentMoves.lookup b with | some a => a + 1000000000 ≤ s.now | none => true
      let mine := (t.blockLoads.map (·.1)).filter fun b => k.owner b == k.memberIndex && still b
      let room := (t.memberFree.filter fun m => m.2 != 0 && m.1 != k.memberIndex).map fun m => (m.1, getKey t.memberLoads m.1 0)
      match bestBy (fun a b => t.load16 b < t.load16 a || (t.load16 a == t.load16 b && a < b)) mine,
          bestBy (fun (a b : Nat × Nat) => a.2 < b.2 || (a.2 == b.2 && a.1 < b.1)) room with
      | some b, some (m, load) =>
        let l := t.load16 b
        let listed := (t.dir.lookup b).isSome || t.dir.length < 262144 || ownerOf b n == m
        if l * d * n ≤ 16 * (own * n - all_) && (16 * load + l) * d * n ≤ 16 * all_ && listed then s.startHandoff part k b m none
        else s
      | _, _ => s

/-! ### Rows of the handoff (R366) -/

/-- HANDOFF_COMMIT: the new owner has installed the lines. -/
def execHandoffCommit (part : PartNo) (handle block : Nat) (s : State) : Res :=
  .next <| s.onTable part handle fun k => s.handoffDone part k block

/-- DIRECTORY_CHANGE. -/
def execDirectoryChange (part : PartNo) (handle block owner epoch sender : Nat) (s : State) : Res :=
  .next <| s.onTable part handle fun k => s.takeDirectory part k sender block owner epoch

/-- The new owner waits for no further forwarding END of a block's old owner. -/
def State.takeForwardDone (s : State) (p : PartNo) (k : Coll) (block : Nat) : State :=
  let s := s.modTm p k.uid fun t => t.endHandoff block false
  (k.tm.steps.map (·.step)).foldl (fun s x => s.tryStep p k.uid x) s

/-- FORWARD_DONE. -/
def execForwardDone (part : PartNo) (handle block : Nat) (s : State) : Res :=
  .next <| s.onTable part handle fun k => match k.inHandoff block with
    | some h => if h.state == .forwarding then s.takeForwardDone part k block else s
    | none => s

/-! ### SHARD_MIGRATE (R365) -/

def Cmd.blocks (c : Cmd) : List Nat := (List.range (c.p 8 4)).map (c.p 0 8 + ·)
def Cmd.target (c : Cmd) : Nat := c.p 12 2

def shardErr (k : Coll) (c : Cmd) : Option Err :=
  firstErr
    [ bodyErr c [64] false false false,
      failIf (!k.isTable || !k.isMesh) { st := stTypeMismatch },
      reservedErr c.data.param 64 [(14, 50)],
      failIf (c.p 8 4 == 0 || 64 < c.p 8 4) (errAt stInvalidField 72),
      failIf (ceilDiv k.capacity 64 < c.p 0 8 + c.p 8 4) (errAt stInvalidField 64),
      failIf (k.members.length ≤ c.target) (errAt stInvalidField 76) ]

/-- The blocks of a SHARD_MIGRATE that are not at the target yet. -/
def Cmd.toMove (c : Cmd) (k : Coll) : List Nat := c.blocks.filter fun b => k.owner b != c.target

/-- Whether the directory has room for every block to be moved. -/
def Cmd.dirRoom (c : Cmd) (k : Coll) : Bool :=
  k.tm.dir.length + ((c.toMove k).filter fun b => ownerOf b k.members.length != c.target && (k.tm.dir.lookup b).isNone).length ≤ 262144

/-- The check is done: each owner is asked for its blocks. -/
def State.shardGo (s : State) (p : PartNo) (k : Coll) (c : Cmd) (m : MeshWait) (free : Nat) : State :=
  let moves := c.toMove k
  if free < moves.length || !c.dirRoom k then s.tearDown c.id stCapacity
  else
    let s := s.modCmd c.id fun c => { c with mesh := some { m with waiting := moves, asking := true } }
    moves.foldl (fun s b =>
      let o := k.owner b
      if o = k.memberIndex then s.startHandoff p k b c.target (some (s.mesh.deviceId, m.tag))
      else s.toDevice p (k.deviceOf o) m.tag (.shardAsk k.param b c.target)) s

/-- The target's answer to the check. -/
def State.takeRoom (s : State) (cid free : Nat) : State :=
  s.onCmd cid (fun c => c.ioRunning 0x54) fun c =>
    match c.part, c.mesh with
    | some p, some m =>
      match c.coll.bind (s.part p).collU? with
      | some k => if m.asking then s else (s.shardGo p k c m free).shardEnd cid
      | none => s
    | _, _ => s

/-- Free block slots of a member. -/
def TableMesh.freeSlots (t : TableMesh) : Nat := t.slotCount - t.slots.length

/-- SHARD_MIGRATE: every owner and the target must be reachable and the target have room before any handoff begins; then each owner
is asked (R365). A further run of the row completes it once its own handoffs have ended; a re-run asks again for the blocks that
have not committed (R397). -/
def execShardMigrate (cid : Nat) (s : State) : Res :=
  .next <|
    s.onColl cid 0x54 (fun _ k c => if c.mesh.isNone then shardErr k c else none) fun p k c =>
      if (match c.mesh with | some m => m.asking | none => false) then s.shardEnd cid
      else
        let far := (c.target :: (c.toMove k).map k.owner).filter (· != k.memberIndex)
        if far.any fun m => s.unreachable (k.deviceOf m) then s.tearDown cid stPeerLost
        else
          let m : MeshWait := match c.mesh with
            | some m => { m with members := far.eraseDups }
            | none => { tag := s.mesh.nextTag, members := far.eraseDups }
          let s := (if c.mesh.isNone then s.newTag else s).modCmd cid fun c => { c with mesh := some m }
          if c.target = k.memberIndex then (s.shardGo p k c m k.tm.freeSlots).shardEnd cid
          else s.toDevice p (k.deviceOf c.target) m.tag (.shardCheck k.param)

end Sys2Proof.Machine
end

