-- ==== Sys2Proof/Machine/Embedding.lean ====
section
/-! DEFINITION. EMB_LOOKUP (R331 to R336, R358), EMB_UPDATE and its commit steps (R337 to R349, R359, R360), the hot set (R352 to R355,
R603). -/

namespace Sys2Proof.Machine

/-! ### EMB_LOOKUP -/

/-- A lookup on a table of one device (R334, R350): each core asks once for each distinct row of its share. -/
def State.lookupLocal (s : State) (p : PartNo) (k : Coll) (c : Cmd) : State :=
  let input := s.embInput p k c
  let x := s.part p
  let bags := (List.range c.bags).map fun b => c.validIn k input b
  let rows := bags.flatMap fun js => js.map fun j => c.indexAt k input j
  let cores := s.partCores p
  let asked := ((bags.zipIdx.flatMap fun b => b.1.map fun j => (shareCore cores b.2, c.indexAt k input j)).eraseDups).map (·.2)
  s.gathered c.id p k rows.eraseDups <|
    (s.accessRows p k asked).lookupEnd k c <| bags.map fun js =>
      (poolBag c.pool k.dim (js.map fun j => (Flt.ofBits32 (c.weightAt k input j), x.rowVec k (c.indexAt k input j))), js.length)

/-- EMB_LOOKUP: the rows of each bag gathered and pooled (R334); over a mesh, by their owners (R358). A further run of the row on a
mesh table does nothing: it ends with its last partial sums. -/
def execEmbLookup (cid : Nat) (s : State) : Res :=
  .next <|
    s.onColl cid 0x50 (fun p k c => if c.mesh.isNone then s.lookupErr p k c else none) fun p k c =>
      match s.inputPoison p k c, c.mesh with
      | some _, none => s.tearDown cid stPoison
      | _, some m => if m.waiting.isEmpty then s.lookupJoin p k c m else s
      | none, none => if k.isMesh then s.lookupMesh p k c else s.lookupLocal p k c

/-! ### EMB_UPDATE -/

/-- The sums of a local step: pairs of every core, combined (R340, R345). -/
def State.updateSum (s : State) (p : PartNo) (k : Coll) (c : Cmd) : State :=
  let input := s.embInput p k c
  let cores := s.partCores p
  let rows := if c.assigns then c.assignRows k input else c.corePairs k (sub s.fresh 0) cores input
  let extra := c.overflowRows k cores input
  let u : UpdSt := { rows := combine k.dim (sub s.fresh 1) rows, spilled := extra != 0 }
  ((s.bump.modCmd c.id fun c => { c with run := .update u }).placeOverflow p c.id (8 * k.dim * extra)).stageLines p c.id (u.rows.map fun r =>
    (k.lineAt r.row, k.lineSize))

/-- One commit step of a local update (R346, R347): the lowest rows left; the last one completes the command (R348). It waits in its commit
phase while its stamp would run ahead (R160). An update that a reset or a deletion ended does no further step (R71, R117, R347). -/
def State.updateStep (s : State) (p : PartNo) (k : Coll) (c : Cmd) (u : UpdSt) : State :=
  if s.commitWaits then s.beginCommit c.id
  else
    let n := s.stepRows p k
    let now := u.rows.take n
    let st := s.commitStamp
    let (s, applied) := s.applyRows p k c.data.param (some c.id) st now
    let u := { u with
      rows := u.rows.drop n, applied := u.applied + applied, skipped := u.skipped + (now.length - applied), stamp := st }
    if c.orphan then s.drop c.id
    else if u.rows.isEmpty then
      (s.finish c.id { status := noteStatus (if u.spilled then noteSpilled else 0), count := u.applied, stamp := st
                       work := u.skipped }).modCmd c.id fun c => { c with commitStamp := st }
    else (s.endCommit c.id).modCmd c.id fun c => { c with run := .update u }

/-- The command with its update, while it runs or is in its commit phase. -/
def State.withUpd (s : State) (cid : Nat) (f : Cmd → UpdSt → State) : State :=
  match s.cmd? cid with
  | some c => if c.phase == .running || c.phase == .committing then (match c.run with | .update u => f c u | _ => s) else s
  | none => s

/-- Every commit step that may run now; each takes rows away, so their number bounds the turns. -/
def State.updateAll (p : PartNo) (k : Coll) (cid : Nat) : Nat → State → State
  | 0, s => s
  | fuel + 1, s => State.updateAll p k cid fuel (s.withUpd cid fun c u => s.updateStep p k c u)

/-- A participant sends its pairs to their owners (R359); its own go to its own step. -/
def State.sendPairs (s : State) (p : PartNo) (k : Coll) (c : Cmd) : State :=
  if (k.others s.mesh.deviceId).any fun o => s.unreachable o.2 then s.tearDown c.id stPeerLost
  else
    let input := s.embInput p k c
    let cores := s.partCores p
    let rows := if c.assigns then c.assignRows k input else c.corePairs k (sub s.fresh 0) cores input
    let tag := match c.mesh with | some m => m.tag | none => s.mesh.nextTag
    let inc := match c.mesh with | some m => m.incarnation | none => 0
    let s := if c.mesh.isNone then s.newTag else s
    let step := stepKey c.participants c.stepNo k.memberIndex tag
    let m : MeshWait := { tag := tag, members := (k.others s.mesh.deviceId).map (·.1), waiting := List.range k.members.length
                          incarnation := inc, step := step }
    let s := s.bump.modCmd c.id fun c => { c with
      run := .update { spilled := c.overflowRows k cores input != 0 }
      mesh := some m }
    let s := s.placeOverflow p c.id (8 * k.dim * c.overflowRows k cores input)
    let owners := (exchangeOrder s.mesh.deviceId (((rows.map fun r => k.owner (r.row / 64)).eraseDups).map k.deviceOf)).map k.memberOf
    owners.foldl (fun s o =>
      let mine := rows.filter fun r => k.owner (r.row / 64) == o
      if o = k.memberIndex then s.takePairs p k step inc k.memberIndex mine
      else s.pairsTo p k o tag step inc k.memberIndex mine) s

/-- A participant sends END to every member, its own step included; from then on it only waits for reports (R359, R360), and a further
run of the row goes on with its own step's commit steps that wait for their stamp (R160). -/
def State.sendEnds (s : State) (p : PartNo) (k : Coll) (c : Cmd) : State :=
  match c.mesh with
  | none => s
  | some m =>
    if m.endSent then s.tryStep p k.uid m.step
    else
      let s := s.modCmd c.id fun c => { c with mesh := some { m with endSent := true } }
      let s := s.toOthers p k (.endStep k.param k.memberIndex m.step c.participants m.incarnation none c.data.param) m.tag (stepAux m.step)
      match (s.part p).collU? k.uid with
      | some k => s.takeEnd p k k.memberIndex m.step c.participants m.incarnation none c.data.param
      | none => s

/-- One turn of an update's commit: a commit step, or over a mesh its ENDs. -/
def State.updateTurn (s : State) (p : PartNo) (k : Coll) (cid : Nat) (whole : Bool) : State :=
  s.withUpd cid fun c u =>
    if k.isMesh then s.sendEnds p k c
    else if whole then State.updateAll p k cid (u.rows.length + 1) s
    else s.updateStep p k c u

/-- EMB_UPDATE: contributions are summed and no line changes; with `commit` it goes on through its commit steps, or over a mesh sends
its ENDs (R345 to R347, R359). -/
def execEmbUpdate (cid : Nat) (commit : Bool) (s : State) : Res :=
  .next <|
    s.onColl cid 0x51 (fun p k c => if c.run == .idle then s.updateErr p k c else none) fun p k c =>
      match (if c.run == .idle then s.inputPoison p k c else none) with
      | some _ => s.tearDown cid stPoison
      | none =>
        let t := if c.run != .idle then s else if k.isMesh then s.sendPairs p k c else s.updateSum p k c
        if commit then
          match (t.part p).collU? k.uid with
          | some k => t.updateTurn p k cid true
          | none => t
        else t

/-- COMMIT_STEP: one commit step of an update whose contributions are summed (R347), also of one in its commit phase that has lost its
contexts (R346). -/
def execCommitStep (cid : Nat) (s : State) : Res :=
  .next <|
    match s.cmd? cid with
    | some c =>
      if c.phase = .committing && c.op = 0x51 && !c.isAdmin then
        match c.part, c.part.bind fun p => c.coll.bind (s.part p).collU? with
        | some p, some k => s.settled (s.updateTurn p k cid false)
        | _, _ => s
      else s.onColl cid 0x51 (fun _ _ _ => none) fun p k _ => s.updateTurn p k cid false
    | none => s

/-! ### The hot set (R352 to R355, R603) -/

/-- Bytes of scratchpad that hot rows may take: HOTSET_MIB, or what is free beside them (R352). -/
def State.hotFree (s : State) (p : PartNo) : Nat :=
  let x := s.part p
  let used := (x.colls.map fun c => c.hotRows.length * roundUp c.lineSize 256).foldl (· + ·) 0
  min (x.feat 0x51 * 2 ^ 20) (s.scratchFree p + used) - used

/-- The bytes a hot row of a table takes. -/
def Coll.hotBytes (k : Coll) : Nat := roundUp k.lineSize 256

/-- The entries a HOTSET_LOAD names. -/
def Cmd.hotEntries (c : Cmd) : List Nat :=
  let w := if c.p 0 1 = 0 then 8 else 4
  (List.range (c.p 4 4)).map fun i => rd c.input (w * i) w

def hotErr (k : Coll) (c : Cmd) : Option Err :=
  let n := c.p 4 4
  firstErr
    [ bodyErr c [64] (n != 0) false false,
      reservedErr c.data.param 64 [(2, 2), (8, 56)],
      failIf (c.p 0 1 > 1 || (c.p 0 1 == 0) != k.isTable) (errAt stInvalidField 64),
      failIf (c.p 1 1 > 2) (errAt stInvalidField 65),
      failIf (16777216 < n) (errAt stInvalidField 68),
      if n = 0 then none else c.inErr (roundUp (n * if c.p 0 1 = 0 then 8 else 4) 16),
      failIf (c.hotEntries.any fun e => k.capacity ≤ e) (errAt stInvalidField 24),
      failIf (c.p 0 1 == 1 && k.isFlat) { st := stTypeMismatch } ]

/-- TARGET 0: table rows (R355). -/
def State.hotRows (s : State) (p : PartNo) (k : Coll) (c : Cmd) : State :=
  let valid := c.hotEntries.eraseDups.filter k.ownsRow
  let others := ((s.part p).colls.map fun d => if d.uid == k.uid then 0 else d.hotRows.length * d.hotBytes).foldl (· + ·) 0
  let mib := (s.part p).feat 0x51 * 2 ^ 20
  let set := fun (s : State) l => (s.modCollU p k.uid fun k => { k with hotRows := l }).placeHot p k.uid
  match c.p 1 1 with
  | 2 =>
    let gone := k.hotRows.filter fun r => c.hotEntries.contains r
    (set s (k.hotRows.filter fun r => !gone.contains r)).finish c.id { count := gone.length }
  | a =>
    let base := if a = 0 then [] else k.hotRows
    let new := valid.filter fun r => !base.contains r
    if mib < others + (base.length + new.length) * k.hotBytes then s.fail c.id stCapacity
    else
      let s' := set s base
      let fits := new.take (s'.hotFree p / k.hotBytes)
      (set s (base ++ fits)).finish c.id { count := fits.length }

/-- TARGET 1: the entry set (R355). -/
def State.hotEntrySet (s : State) (p : PartNo) (k : Coll) (c : Cmd) : State :=
  let s := s.touch p ((c.hotEntries.eraseDups.filter (· < k.capacity)).map fun e => (k.metaAt e, 48))
  let ok := fun e => (s.metaPoison p k e).isNone && ((s.part p).meta k e).current
  let valid := c.hotEntries.eraseDups.filter ok
  let set := fun l => s.modCollU p k.uid fun k => { k with entrySet := l }
  match c.p 1 1 with
  | 2 =>
    let gone := k.entrySet.filter fun r => c.hotEntries.contains r
    (set (k.entrySet.filter fun r => !gone.contains r)).finish c.id { count := gone.length }
  | a =>
    let base := if a = 0 then [] else k.entrySet
    let new := valid.filter fun r => !base.contains r
    if (s.part p).feat 0x22 < base.length + new.length then s.fail c.id stCapacity
    else (set (base ++ new)).finish c.id { count := new.length }

/-- HOTSET_LOAD (R354, R355). -/
def execHotsetLoad (cid : Nat) (s : State) : Res :=
  .next <| s.onColl cid 0x53 (fun _ k c => hotErr k c) fun p k c =>
    if k.isTable then s.hotRows p k c else s.hotEntrySet p k c

/-- The hot rows that the counts give: largest first, by ascending handle and row, until the space is full (R353). -/
def State.hotPick (s : State) (p : PartNo) : List (Nat × Nat) :=
  let x := s.part p
  let keys := (x.hotCounts.map fun e => (e.2.1, e.2.2.1)).eraseDups
  let cand := keys.map fun q => (q, ((x.hotCounts.filter fun e => (e.2.1, e.2.2.1) == q).map (·.2.2.2)).foldl (· + ·) 0)
  let cand := sortBy (fun a b => b.2 < a.2 || (a.2 == b.2 && (a.1.1 < b.1.1 || (a.1.1 == b.1.1 && a.1.2 < b.1.2)))) cand
  let clear := s.modPart p fun x => { x with colls := x.colls.map fun c => { c with hotRows := [] } }
  (cand.foldl (fun (a : List (Nat × Nat) × Nat × Bool) q =>
    match (s.coll? p q.1.1) with
    | some k =>
      if !k.isTable || !k.ownsRow q.1.2 then a
      else if a.2.2 || a.2.1 < k.hotBytes then (a.1, a.2.1, true)
      else (a.1 ++ [q.1], a.2.1 - k.hotBytes, false)
    | none => a) ([], clear.hotFree p, false)).1

/-- A graph collection's new entry set (R603). -/
def State.newEntries (s : State) (p : PartNo) (k : Coll) : Coll :=
  let x := s.part p
  let ok := fun e => (s.metaPoison p k e).isNone && (x.meta k e).current
  let cand := sortBy (fun (a b : Nat × Nat) => b.2 < a.2 || (a.2 == b.2 && a.1 < b.1)) (k.samples.filter fun e => ok e.1)
  let top := (cand.map (·.1)).take (x.feat 0x22)
  if k.samples.isEmpty then k
  else { k with samples := [], entrySet := (top ++ (k.entrySet.filter fun e => !top.contains e && ok e)).take (x.feat 0x22) }

/-- HOTSET_REFRESH (R353, R603): in hardware mode, the hot rows and entry sets from the counts of the interval, which return to 0. -/
def execHotsetRefresh (part : PartNo) (s : State) : Res :=
  .next <| s.settled <|
    if !s.tasksRun part || (s.modeOf part).getLsbD mHotset || s.now < (s.part part).hotAt + (s.part part).feat 0x50 * 1000000 then s
    else
      let s := s.ungate part
      let s := (((s.part part).colls.filter (·.isGraph)).foldl (fun s k =>
        s.touch part ((k.samples.map (·.1) ++ if k.samples.isEmpty then [] else k.entrySet).map fun e => (k.metaAt e, 48))) s)
      let hot := s.hotPick part
      let counted := !(s.part part).hotCounts.isEmpty
      let s := s.modPart part fun x => { x with
        hotAt := s.now
        hotCounts := []
        colls := x.colls.map fun k =>
          if k.isTable then (if counted then { k with hotRows := (hot.filter fun h => h.1 == k.handle).map (·.2) } else k)
          else if k.isGraph then s.newEntries part k else k }
      ((s.part part).colls.map Coll.uid).foldl (fun s uid => s.placeHot part uid) s

end Sys2Proof.Machine
end

