-- ==== Sys2Proof/Machine/Links.lean ====
section
/-! DEFINITION. The Coastuo ports and what their failures lead to: peers lost (R200, R289, R361, R476), resending (R475), port control
(R463, R499, R501), sessions (R466 to R469, R506), flits (R465, R481), degrade and route-around (R493 to R496), mesh time (R489 to
R492), route commits (R480, R500). -/

namespace Sys2Proof.Machine

/-! ### A destination becomes unreachable (R476) -/

/-- The member indices a command still waits for; a SHARD_MIGRATE waits for blocks, and names its members apart. -/
def Cmd.waitsFor (c : Cmd) (m : MeshWait) (member : Nat) : Bool :=
  if c.op = 0x54 then m.members.contains member else m.waiting.contains member

/-- A command of this device meets a member as unreachable (R200, R267, R288, R289, R361, R365). Once apply or END is out it ends without a
completion, logged with the members that have committed; its own share is undone where its commit phase has not begun, and finishes where
it has (R287, R289). -/
def State.meetsLost (s : State) (k : Coll) (c : Cmd) (m : MeshWait) (member : Nat) : State :=
  let lost := fun (s : State) =>
    let l := sortBy (· < ·) (m.applied.map fun i => if i = selfMember then k.memberIndex else i)
    (s.logLate c.id stPeerLost (toLe 2 l.length ++ (l.take 15).flatMap (toLe 2))).endCmd c.id
  if c.op = 0x54 then
    if !m.asking then s.tearDown c.id stPeerLost
    else (m.waiting.filter fun b => k.owner b == member).foldl (fun s b => s.takeHandedOff c.id b false) s
  else if c.op = 0x51 then
    if m.endSent then (if m.waiting.contains member then lost s else s) else s.tearDown c.id stPeerLost
  else if recordLockOps.contains c.op then
    if m.applying then (if m.waiting.contains member then lost s else s)
    else if m.members.contains member then s.tearDown c.id stPeerLost
    else s
  else if !m.waiting.contains member then s
  else if c.shadow then s.dropShadow c
  else s.tearDown c.id stPeerLost

/-- A command that waits for members, where a device is one of them. -/
def State.cmdLoses (s : State) (cid d : Nat) : State :=
  match s.cmd? cid with
  | none => s
  | some c =>
    match c.part, c.mesh, c.origin with
    | some p, some m, none =>
      match c.coll.bind (s.part p).collU? with
      | some k => if c.phase == .done || !k.members.contains d then s else s.meetsLost k c m (k.memberOf d)
      | none => s
    | _, _, some (o, _) =>
      if o == d && recordLockOps.contains c.op && c.phase != .done && !(match c.mesh with | some m => m.applying | none => false) then
        s.endCmd cid
      else s
    | _, _, _ => s

/-- Handoffs with a device that is lost (R365, R366): one not committed is abandoned, a reserved slot is free again. -/
def State.handoffsLose (s : State) (p : PartNo) (k : Coll) (d : Nat) : State :=
  if !k.members.contains d then s
  else
    let member := k.memberOf d
    let s := (k.tm.handoffs.filter fun h => h.peer == member && h.state == .moving).foldl (fun s h =>
      if h.out then s.dropHandoff p k h
      else s.modTm p k.uid fun t => { t.endHandoff h.block false with slots := t.slots.filter fun x => x.1 != h.block }) s
    (k.tm.handoffs.filter fun h => h.out && h.state == .forwarding).foldl (fun s h => s.tryForwardDone p k.uid h.block) s

/-- A destination is unreachable from now on: its frames are given up, and everything that needs it meets the loss (R476). -/
def State.peerLost (s : State) (d : Nat) : State :=
  if (s.peer d).unreachable then s
  else
    let s := s.modPeer d fun p => { p with unreachable := true, unacked := [], givenUp := [], probeAt := s.time.clk }
    let s := (s.cmds.map (·.id)).foldl (fun s cid => s.cmdLoses cid d) s
    s.present.foldl (fun s p => ((s.part p).colls.filter fun k => k.isTable && k.isMesh).foldl (fun s k => s.handoffsLose p k d) s) s

/-! ### Resending (R475, R481, R483) -/

/-- A kept frame is sent by the present route; false where it must wait for credits. -/
def State.trySend (s : State) (x : Sent) : State × Bool :=
  match s.routePort x.hdr.dest with
  | none => (s, false)
  | some (port, pos) =>
    match s.leaveBy port pos (s.routeOf x.hdr.dest) x.type x.hdr x.body x.part x.at_ with
    | some t => (t, true)
    | none => (s, false)

/-- The unacknowledged frames to a destination that satisfy a test are sent again; `n` is 1 where the resend counts. -/
def State.resendTo (s : State) (d : Nat) (pick : Sent → Bool) (n : Nat) : State :=
  let (s, l) := (s.peer d).unacked.foldl (fun (a : State × List Sent) x =>
    if pick x then
      let (t, ok) := a.1.trySend x
      (t, a.2 ++ [{ x with at_ := s.time.clk, resends := x.resends + n, waits := !ok }])
    else (a.1, a.2 ++ [x])) (s, [])
  s.modPeer d fun p => { p with unacked := l }

/-- Frames of other devices that can no longer be forwarded go back to their sources as NACK NO_ROUTE (R495). -/
def State.transitLost (s : State) : State :=
  let lost := s.mesh.transit.filter fun x => (s.routePort x.hdr.dest).isNone
  let s : State := { s with mesh := { s.mesh with transit := s.mesh.transit.filter fun x => (s.routePort x.hdr.dest).isSome } }
  (lost.filter fun x => x.hdr.src != s.mesh.deviceId).foldl (fun s x => s.refuse x.type x.hdr 2) s

/-- After a change of routes: frames whose route changed are resent at once; a destination without a usable route is unreachable (R475,
R476, R495). -/
def State.rerouted (s before : State) : State :=
  ((s.mesh.peers.map (·.dev)).foldl (fun s d =>
    if before.routePort d == s.routePort d then s
    else if (s.routePort d).isNone then s.peerLost d
    else s.resendTo d (fun _ => true) 0) s).transitLost

/-- The place of a waiting frame in its class's rounds: how many frames of its partition wait before it, and how far off the partition's
turn is on the port it leaves by; transit frames take part as one more partition (R483;
DESIGN CHOICE, log 27). -/
def State.roundOf (s : State) (l : List Sent) (x : Sent) (i : Nat) : Nat × Nat :=
  let port := (s.routePort x.hdr.dest).map (·.1)
  let same := fun y : Sent => y.hdr.cls == x.hdr.cls && y.part == x.part && (s.routePort y.hdr.dest).map (·.1) == port
  let who := match x.part with | some p => p.val | none => 16
  let last := match port with | some n => getKey (s.portAt n).served x.hdr.cls 16 | none => 16
  (((l.take i).filter same).length, (who + 16 - last) % 17)

/-- Which waiting frame goes first: one that has waited 100 µs, then by deadline class, then round by round (R483). -/
def sendsBefore (now : Nat) (a b : (Nat × Nat) × Sent) : Bool :=
  let old := fun x : (Nat × Nat) × Sent => x.2.at_ + 2500 ≤ now
  if old a != old b then old a
  else if old a then a.2.at_ < b.2.at_
  else if a.2.hdr.cls != b.2.hdr.cls then b.2.hdr.cls < a.2.hdr.cls
  else if a.1.1 != b.1.1 then a.1.1 < b.1.1
  else a.1.2 < b.1.2

/-- The waiting frames in the order in which they are tried. -/
def State.sendOrder (s : State) : List Sent :=
  let l := sortBy (fun (a b : Sent) => decide (a.at_ < b.at_)) ((s.mesh.peers.flatMap fun p => p.unacked.filter (·.waits)) ++ s.mesh.transit)
  (sortBy (sendsBefore s.time.clk) (l.zipIdx.map fun x => (s.roundOf l x.1 x.2, x.1))).map (·.2)

/-- Frames that wait for credits are tried again, link-class frames first (R481, R483). -/
def State.pump (s : State) : State :=
  let s := (List.range 8).foldl State.pumpLink s
  s.sendOrder.foldl (fun (s : State) x =>
    let (t, ok) := s.trySend x
    if !ok then s
    else if s.mesh.transit.contains x then { t with mesh := { t.mesh with transit := t.mesh.transit.erase x } }
    else t.modPeer x.hdr.dest fun p => { p with unacked := p.unacked.map fun y => if y == x then { y with waits := false, at_ := s.time.clk } else y }) s

/-! ### Reference and parent (R490, R491, R545, R550) -/

/-- A reference on offer: whether its PPS_IN is locked, its device id, the hops to it, and the port (none: this device). -/
structure Offer where
  locked : Bool
  ref : Nat
  hops : Nat
  port : Option Nat
  deriving DecidableEq, Repr, Inhabited

def Offer.better (a b : Offer) : Bool :=
  if a.locked != b.locked then a.locked
  else if a.ref != b.ref then a.ref < b.ref
  else if a.hops != b.hops then a.hops < b.hops
  else match a.port, b.port with
    | none, some _ => true
    | some x, some y => x < y
    | _, none => false

/-- The offers: itself, and each usable port's reference one hop further. -/
def State.offers (s : State) : List Offer :=
  { locked := s.time.ppsState == .locked, ref := s.mesh.deviceId, hops := 0, port := none } ::
  ((List.range 8).filterMap fun n =>
    let p := s.portAt n
    match p.refId with
    | some r => if p.usable then some { locked := p.refLocked, ref := r, hops := min 15 (p.refHops + 1), port := some n } else none
    | none => none)

/-- The reference and the parent port are chosen; a change is logged and raises TIME; a lost parent leads to HOLDOVER or PPS. -/
def State.chooseRef (s : State) : State :=
  match bestBy Offer.better s.offers with
  | none => s
  | some o =>
    let was := (s.mesh.refId, s.mesh.parent)
    let s : State := { s with mesh := { s.mesh with
      refId := o.ref, refHops := o.hops, refLocked := o.locked, isRef := s.mesh.enable && o.port.isNone, parent := o.port.getD 0xF } }
    let s := if was == (s.mesh.refId, s.mesh.parent) then s else (s.logTime 4).raiseTime
    if s.devHost mTime || o.port.isSome || s.time.source != .mesh then s
    else if s.time.ppsState == .locked && !s.time.islandOsc then s.setSource .pps
    else s.setSource .holdover

/-- A port changes state and the mesh follows: routes, waiting frames, reference. -/
def State.movePort (s : State) (n : Nat) (st : PortState) : State := (((s.setPort n st).rerouted s).pump).chooseRef

/-! ### PPS_IN, whose lock the choice looks at (R490, R548, R549) -/

/-- The choice again, where PPS_IN has become LOCKED or has left it. -/
def State.relocked (s : State) (was : PpsState) : State :=
  if (s.time.ppsState == .locked) == (was == .locked) then s else s.chooseRef

/-- PPS_EDGE (R549): a level that does not hold for 50 ns counts as no edge. -/
def execPpsEdge (held : Bool) (s : State) : Res := .next (if held then s.ppsEdge.relocked s.time.ppsState else s)

/-- PPS_ABSENT: no accepted edge for 1.5 s (R549); PPS as the source is lost (R545). -/
def execPpsAbsent (s : State) : Res :=
  .next <|
    let t := s.time
    if t.ppsState ≠ .disabled ∧ t.ppsState ≠ .absent ∧ t.ppsWatch + 1500000000 ≤ t.thyme then
      let s := { s with time := { t with ppsState := .absent, ppsGood := 0 } }
      (if t.source = .pps then s.setSource .holdover else s).relocked t.ppsState
    else s

/-- TIME_CONFIGURE_PPS: enable, edge and offset; PPS_STATE returns to ACQUIRING or DISABLED (R548). -/
def execTimeConfigurePps (cid : Nat) (s : State) : Res :=
  .next <| s.admin cid 0x0F (fun c => c.f 16 1 != 0)
    (fun c => firstErr [timeConfigureErr c, failIf (c.f 16 1 > 1) (errAt stInvalidField 16),
      reservedBits c.packet 0 24 0xFC, reservedErr c.packet 0 [(25, 3)],
      failIf ((signed 32 (c.f 28 4)).natAbs > 1000000) (errAt stInvalidField 28)])
    fun c =>
      let en := (c.f 24 1).testBit 0
      let was := s.time.source
      let lock := s.time.ppsState
      let s := { s with time := { s.time with
        ppsEnable := en, ppsFalling := (c.f 24 1).testBit 1, ppsOffset := signed 32 (c.f 28 4)
        ppsState := if en then .acquiring else .disabled
        ppsGood := 0, ppsPrevEdge := none, ppsRejRun := 0, ppsWatch := s.time.thyme } }
      ((if was = .pps then s.setSource .holdover else s).relocked lock).finish cid {}

/-! ### The block's control registers -/

/-- Whether a port may train: the mesh runs, the main rails are up, the 156.25 MHz reference is there (R463, R552). -/
def State.mayTrain (s : State) : Bool := s.mesh.enable && s.pkg.pg.all id && s.pkg.refClGood

/-- A port begins to train, or waits DOWN for its supplies. -/
def State.train (s : State) (n : Nat) : State := s.movePort n (if s.mayTrain then .training else .down)

/-- MESH_ENABLE (R499): ports with ENABLE train. -/
def execMeshEnable (s : State) : Res :=
  .next <|
    if !s.barLive || s.mesh.enable then s
    else
      let s : State := { s with mesh := { s.mesh with enable := true } }
      (((List.range 8).filter fun n => (s.portAt n).enable).foldl State.train s).chooseRef

/-- MESH_DISABLE (R499): every port is DISABLED and every destination unreachable. -/
def execMeshDisable (s : State) : Res :=
  .next <|
    if !s.barLive || !s.mesh.enable then s
    else
      let s : State := { s with mesh := { s.mesh with enable := false } }
      let s := (List.range 8).foldl (fun s n => s.setPort n .disabled) s
      ((s.mesh.peers.map (·.dev)).foldl State.peerLost s).chooseRef

/-- A write of MESH_PORT_CTRL (R501). -/
def State.portCtrl (s : State) (n : Nat) (value : Word32) : State :=
  let p := s.portAt n
  let on_ := value.getLsbD 0
  let s := s.modPort n fun p => { p with enable := on_, twoLanes := value.getLsbD 1 }
  if !on_ then s.movePort n .disabled
  else if !s.mesh.enable then s
  else if !p.enable || p.state == .disabled then s.train n
  else if value.getLsbD 8 && p.state != .test then s.train n
  else s

/-- PORT_ENABLE (R463, R501): a write of MESH_PORT_CTRL without RETRAIN. -/
def execPortEnable (port : Nat) (value : Word32) (s : State) : Res :=
  .next <| if !s.barLive || 8 ≤ port || value.getLsbD 8 then s else s.portCtrl port value

/-- RETRAIN (R501): ignored while the port is TEST. -/
def execRetrain (port : Nat) (value : Word32) (s : State) : Res :=
  .next <| if !s.barLive || 8 ≤ port || !value.getLsbD 8 then s else s.portCtrl port value

/-- The bits of a route entry that a write holds (R500): CURRENT and the reserved bits read 0. -/
abbrev routeKept : Word32 := 0xFFFEFF00#32

/-- ROUTE_COMMIT (R480, R500): the shadow table becomes active; a broken entry is installed as not VALID and logged. -/
def execRouteCommit (value : Word32) (s : State) : Res :=
  .next <|
    if !s.barLive || bits value.toNat 24 8 != 0x3C || !value.getLsbD 0 then s
    else
      let bad := s.mesh.shadowRoutes.filter fun e => routeBad e.2
      let l := s.mesh.shadowRoutes.map fun e => if routeBad e.2 then (e.1, e.2 &&& 0x7FFFFFFF#32) else e
      let t : State := { s with mesh := { s.mesh with routes := l } }
      let t := bad.foldl (fun (t : State) (e : Nat × Word32) => t.logHost 2 .pf 0 scCommand 0 [(28, toLe 4 e.2.toNat)]) t
      (t.rerouted s).pump

/-! ### Training and sessions (R463, R466 to R469, R506) -/

/-- PORT_TRAINING_COMPLETE (R463): the key exchange begins. A port with TWO_LANES, or with fewer than four trained lanes, is DEGRADED
once it carries flits. -/
def execPortTrainingComplete (port : Nat) (fourLanes : Bool) (s : State) : Res :=
  .next <|
    if (s.portAt port).state != .training || !s.mesh.enable then s
    else
      let s : State := { s with pkg := { s.pkg with refClGood := true } }
      let s := s.modPort port fun p => { p with two := p.twoLanes || !fourLanes, upperPair := false }
      (s.setPort port .keying).emit (.keyStart port)

/-- Whether a peer meets the device's policy (R506). -/
def State.peerAllowed (s : State) (tag : Bytes) (debug : Nat) : Bool :=
  let f := s.sec.peerFlags
  (!f.getLsbD 0 || s.sec.peerTags.contains tag) && (!f.getLsbD 1 || debug == 0 || debug == 3) && (!f.getLsbD 2 || debug == 3)

/-- A session or rekey that fails puts the port DOWN (R469). -/
def State.keyFailed (s : State) (port : Nat) : State :=
  (s.modPort port fun p => { p with keyFails := satInc 0xFFFF p.keyFails }).movePort port .down

/-- KEY (R466, R468, R469, R506): the outcome of a session's set-up or of a rekey, which either end may have started. -/
def execKey (port peerId peerPort : Nat) (tag : Bytes) (debugState : Nat) (chainOk sigOk : Bool) (s : State) : Res :=
  .next <|
    let p := s.portAt port
    if p.state == .keying then
      if peerId == s.mesh.deviceId then s.movePort port .idConflict
      else if !chainOk || !sigOk then s.keyFailed port
      else if !s.peerAllowed tag debugState then (s.logSecurity 3 0 scDevice).keyFailed port
      else
        let s := s.modPort port fun p => { p with
          epoch := (p.epoch + 1) % 2 ^ 32
          keyIdx := false
          frames := 0
          sessionAt := s.time.clk
          rekeyAt := none
          peerId := some (peerId % 1024)
          peerPort := peerPort % 8
          peerTag := tag
          peerDebug := debugState
          rxSeq := 0
          txSeq := 0
          replayFrom := 0
          lastRx := s.time.clk
          lastAck := s.time.clk }
        s.movePort port (if p.two then .degraded else .up)
    else if p.usable then
      if !chainOk || !sigOk then s.keyFailed port
      else s.modPort port fun p => { p with keyIdx := !p.keyIdx, frames := 0, sessionAt := s.time.clk, rekeyAt := none }
    else s

/-- REKEY (R468): at 2^48 frames, or 24 h after the session began. -/
def execRekey (port : Nat) (s : State) : Res :=
  .next <|
    let p := s.portAt port
    if p.usable && p.rekeyAt.isNone && (2 ^ 48 ≤ p.frames || p.sessionAt * 40 + 86400000000000 ≤ s.phys) then
      (s.modPort port fun p => { p with rekeyAt := some s.time.clk }).emit (.keyStart port)
    else s

/-- REKEY_TIMEOUT (R469). -/
def execRekeyTimeout (port : Nat) (s : State) : Res :=
  .next <|
    match (s.portAt port).rekeyAt with
    | some t => if t * 40 + 50000000 ≤ s.phys then s.keyFailed port else s
    | none => s

/-! ### Flits (R465, R481) -/

/-- A good flit: the acknowledgement frees the replay buffer, a NAK resends from it, returned credits let waiting frames go. -/
def State.goodFlit (s : State) (port : Nat) (nak : Bool) (ack : Nat) (creditLink : Bool) (creditVc credits : Nat) : State :=
  let s := s.modPort port fun p => { p with
    rxSeq := (p.rxSeq + 1) % 4096
    replayFrom := (ack + 1) % 4096
    lastAck := s.time.clk
    replays := if nak then p.replays + (p.txSeq + 4096 - (ack + 1) % 4096) % 4096 else p.replays
    creditLink := if creditLink then min 256 (p.creditLink + credits) else p.creditLink
    heldVc0 := if !creditLink && creditVc = 0 then returnCredits credits p.heldVc0 else p.heldVc0
    heldVc1 := if !creditLink && creditVc = 1 then returnCredits credits p.heldVc1 else p.heldVc1 }
  (if nak then s.emit (.replay port ack) else s).pump

/-- FLIT_RECEIVED (R465, R467): a flit whose CRC or tag fails, or out of order, is dropped and answered with NAK; the codewords that
the FEC corrected in it are counted (R498). -/
def execFlitReceived (port fec seq : Nat) (crcOk tagOk nak : Bool) (ack : Nat) (creditLink : Bool) (creditVc credits : Nat) (s : State) : Res :=
  .next <|
    let p := s.portAt port
    if !p.usable then s
    else
      let s := s.modPort port fun p => { p with lastRx := s.time.clk, fecCorrected := satInc 0xFFFFFFFF p.fecCorrected fec }
      if crcOk && tagOk && seq == p.rxSeq then s.goodFlit port nak (ack % 4096) creditLink creditVc credits
      else (s.modPort port fun p => { p with tagFails := if crcOk && !tagOk then p.tagFails + 1 else p.tagFails }).emit (.nak port ((p.rxSeq + 4095) % 4096))

/-! ### Link failures (R493 to R496) -/

/-- An UP port keeps one pair of lanes, agreed by PORT frames; its session and replay buffer stay (R494). -/
def State.degrade (s : State) (port : Nat) (upper : Bool) : State :=
  ((s.modPort port fun p => { p with upperPair := upper, two := true }).movePort port .degraded).sendLink port tPort
    (.totals [upper.toNat])

/-- Lanes fail on a port (R493). -/
def State.lanesFail (s : State) (port : Nat) (lanes : BitVec 4) : State :=
  let low := lanes.getLsbD 0 || lanes.getLsbD 1
  let high := lanes.getLsbD 2 || lanes.getLsbD 3
  let p := s.portAt port
  if p.state == .up then
    if low && high then s.movePort port .down
    else if low then s.degrade port true
    else if high then s.degrade port false
    else s
  else if p.state == .degraded && (if p.upperPair then high else low) then s.movePort port .down
  else s

/-- LOSS_OF_LOCK (R493). -/
def execLossOfLock (port : Nat) (lanes : BitVec 4) (s : State) : Res := .next (s.lanesFail port lanes)

/-- FEC_ERROR_THRESHOLD (R493): more than 16 uncorrectable codewords in 1 ms on some lanes, counted as 17 (DESIGN CHOICE, log 48). -/
def execFecErrorThreshold (port : Nat) (lanes : BitVec 4) (s : State) : Res :=
  .next <|
    if !(s.portAt port).usable then s
    else (s.modPort port fun p => { p with fecUncorrected := satInc 0xFFFFFFFF p.fecUncorrected 17 }).lanesFail port lanes

/-- REPLAY_THRESHOLD (R493): more than 64 replays in 1 ms. -/
def execReplayThreshold (port : Nat) (keepUpper : Bool) (s : State) : Res :=
  .next <|
    match (s.portAt port).state with
    | .up => s.degrade port keepUpper
    | .degraded => s.movePort port .down
    | _ => s

/-- FLIT_TIMEOUT (R493): no flit accepted by the peer, or none received, for 100 µs. -/
def execFlitTimeout (port : Nat) (s : State) : Res :=
  .next <|
    let p := s.portAt port
    if p.usable && (p.lastRx + 2500 ≤ s.time.clk || p.lastAck + 2500 ≤ s.time.clk) then s.movePort port .down else s

/-- PORT (R494): the peer agrees the pair of lanes that stays. -/
def execPortFrame (port : Nat) (upperPair : Bool) (s : State) : Res :=
  .next <|
    if (s.portAt port).state != .up then s
    else (s.modPort port fun p => { p with upperPair := upperPair, two := true }).movePort port .degraded

/-- PORT_RETRY (R496): a DOWN port retries training every 1 s. -/
def execPortRetry (port : Nat) (s : State) : Res :=
  .next <|
    let p := s.portAt port
    if p.state == .down && p.enable && s.mayTrain && p.since * 40 + 1000000000 ≤ s.phys then s.setPort port .training else s

/-- ROUTE_RETURN (R495): 1 s after a port is UP again, routes return to it. -/
def execRouteReturn (port : Nat) (s : State) : Res :=
  .next <|
    let p := s.portAt port
    if p.usable && p.away && p.since * 40 + 1000000000 ≤ s.phys then
      (s.modPort port fun p => { p with away := false }).rerouted s
    else s

/-- REFCLK_CL_LOSS (R552): every Coastuo port goes DOWN. -/
def execRefclkClLoss (s : State) : Res :=
  .next <|
    let s : State := { s with pkg := { s.pkg with refClGood := false } }
    ((List.range 8).filter fun n => (s.portAt n).linked).foldl (fun s n => s.movePort n .down) s

/-! ### Probes and resends (R475, R476, R492) -/

/-- RESEND_TIMEOUT (R475, R476): frames not acknowledged within MESH_RESEND_US are resent, at most 3 times. -/
def execResendTimeout (dest : Nat) (s : State) : Res :=
  .next <|
    let p := s.peer dest
    let due := fun x : Sent => !x.waits && x.at_ * 40 + s.mesh.resendUs.toNat * 1000 ≤ s.phys
    if p.unreachable || !p.unacked.any due then s
    else if p.unacked.any fun x => due x && 3 ≤ x.resends then s.peerLost dest
    else s.resendTo dest due 1

/-- A PROBE to a destination, carrying its send time. -/
def State.probe (s : State) (d : Nat) : State :=
  (s.sendRouted tProbe d 0 0 s.now 0 0 true .empty none).modPeer d fun p => { p with probeAt := s.time.clk, probeSent := some s.now }

/-- UNREACHABLE_PROBE (R476): every 10 ms. -/
def execUnreachableProbe (dest : Nat) (s : State) : Res :=
  .next <|
    let p := s.peer dest
    if s.mesh.enable && p.unreachable && p.probeAt * 40 + 10000000 ≤ s.phys then s.probe dest else s

/-! ### The 1 ms exchange (R362, R489, R492) -/

/-- LOAD of the last window to every other member of a mesh table. -/
def State.sendLoad (s : State) (p : PartNo) (k : Coll) : State :=
  match k.tm.windows.head? with
  | none => s
  | some w =>
    (k.others s.mesh.deviceId).foldl (fun s o =>
      s.sendRouted tLoad o.2 ((s.part p).feat 0x80) 0 k.tm.windowEnd 32 2 true (.totals [k.handle, k.memberIndex, w.1, k.tm.freeSlots])
        (some p)) s

/-- TIME_EXCHANGE_TICK: TIME, with its send time, the times of the peer's last one and the reference, on every link that carries frames, PROBE to each destination sent a CMD in the last second, LOAD. -/
def execTimeExchangeTick (s : State) : Res :=
  .next <|
    if !s.mesh.enable then s
    else
      let up := (List.range 8).filter fun n => (s.portAt n).usable
      let s := up.foldl (fun (s : State) n => s.sendLink n tTime
        (.totals [s.now, (s.portAt n).timeSeen.1, (s.portAt n).timeSeen.2, s.mesh.refId, s.mesh.refLocked.toNat, s.mesh.refHops])) s
      let ds := (s.mesh.peers.filter fun p => !p.unreachable && match p.lastCmd with
        | some t => s.time.clk < t + 25000000
        | none => false).map (·.dev)
      let s := ds.foldl State.probe s
      s.present.foldl (fun s p => ((s.part p).colls.filter fun k => k.isTable && k.isMesh).foldl (fun s k => s.sendLoad p k) s) s

/-- The servo's part of a TIME frame on the parent port (R550): one step or slew at a new parent, then the rule at each θ. -/
def State.meshServo (s : State) (theta : Int) (est : Nat) (fresh : Bool) : State :=
  let s := ({ s with time := { s.time with parentEst := est } }).setSource .mesh
  if fresh then { s with time := ({ s.time with servoSum := 0 }).correct (-theta) }
  else { s with time := s.time.servo (-theta) 1000 }

/-- TIME (R489 to R491): the offset and delay of the link, the peer's reference, the choice, and in hardware mode the servo. -/
def execTime (port : Nat) (t1 t2 t3 t4 a : Int) (refId : Nat) (locked : Bool) (hops est : Nat) (s : State) : Res :=
  .next <|
    if !(s.portAt port).usable then s
    else
      let theta := ((t2 - t1) + (t3 - t4)) / 2 - a
      let delta := ((t4 - t1) - (t3 - t2)) / 2
      let was := s.mesh.parent
      let s := s.modPort port fun p => { p with
        offset := theta, delay := delta, timeSeen := (t4.toNat, t3.toNat), refId := some refId, refLocked := locked, refHops := min 15 hops }
      let s := s.chooseRef
      if s.devHost mTime || s.mesh.parent != port || s.time.islandOsc then s
      else s.meshServo theta est (was != port || s.time.source != .mesh)

end Sys2Proof.Machine
end

