-- ==== Sys2Proof/Machine/Supply.lean ====
section
/-! DEFINITION. Rail groups, VAON feeds and hotspots (R551, R552, R583 to R586, R596, R597), and the sensors (R534). -/

namespace Sys2Proof.Machine

/-! ### The sequence -/

/-- PG_ASSERT (R583): the next group of the sequence follows. -/
def execPgAssert (group : Nat) (s : State) : Res :=
  .next <|
    if group = 0 || 5 < group || !s.enOf group || s.pgOf group then s
    else
      let s := { s with pkg := { s.pkg with pg := s.pkg.pg.set (group - 1) true } }
      match group with
      | 1 => s.enGroup 2 true
      | 2 => s.tryStart
      | 3 => s.enGroup 4 true
      | 4 => s.enGroup 5 true
      | _ => { s with pkg := { s.pkg with seqFails := 0 } }

/-- The rails of groups are lost (R552, R585): a data-path restart brings the path back once they return. -/
def State.loseRails (s : State) (low : Nat) : State :=
  let s := s.dropGroups low
  let s := { s with pkg := { s.pkg with lostGroup := some low, lostAt := s.time.clk }, hbm := { s.hbm with initDone := false } }
  if s.power.ps == 3 && s.power.wake.isNone then s else s.startRestart .rails

/-- What a failed sequence leaves (R586): its enables fall in reverse order; the third failure in a row sets FATAL. -/
def execSequenceFailure (group : Nat) (s : State) : Res :=
  .next <|
    if group = 0 || 5 < group || !s.enOf group || s.pgOf group then s
    else
      let low := if group ≤ 2 then 1 else 3
      let s := s.dropGroups low
      let n := s.pkg.seqFails + 1
      let s := { s with pkg := { s.pkg with seqFails := n, lostGroup := some low, lostAt := s.time.clk } }
      if n < 3 then s else ({ s with pkg := { s.pkg with lostGroup := none } }).setFatal

/-- RAIL_RESEQUENCE (R585, R586, R597): 100 ms after a loss, or 1 s after a failed sequence, the groups are sequenced again. -/
def execRailResequence (s : State) : Res :=
  .next <|
    match s.pkg.lostGroup with
    | none => s
    | some low =>
      let wait := if s.pkg.seqFails = 0 then 100000000 else 1000000000
      if !s.powered || s.pkg.thermTrip || s.phys < s.pkg.lostAt * 40 + wait then s
      else
        let s := { s with pkg := { s.pkg with lostGroup := none } }
        if low ≤ 2 then s.enGroup low true else if s.wantsPath && !s.hif.fatal then s.enGroup low true else s

/-! ### Thermals (R596, R597) -/

/-- A SUPPLY entry (R560, kind 0x09): the island's supplies, of scope SAGE, or a quadrant's hotspot, of scope DEVICE. -/
def State.logSupply (s : State) (event quadrant scope : Nat) : State :=
  s.log { seq := 0, kind := kSupply, scope := scope, detail := detail [(24, toLe 1 event), (25, toLe 1 quadrant)] }

def State.setHotspot (s : State) (q temp : Nat) : State := { s with pkg := { s.pkg with hotspot := s.pkg.hotspot.set q temp } }

/-- HOTSPOT_THROTTLE (R596): a hotspot at or above 105 °C for 1 ms halves the clock of its quadrant's clusters. -/
def execHotspotThrottle (quadrant temp : Nat) (s : State) : Res :=
  .next <|
    if 4 ≤ quadrant || temp < 105 || s.pkg.halfClock.getD quadrant false then s
    else
      let s := s.setHotspot quadrant temp
      ({ s with pkg := { s.pkg with halfClock := s.pkg.halfClock.set quadrant true } }).logSupply 3 quadrant scDevice

/-- HOTSPOT_THROTTLE_END (R596): below 100 °C for 10 ms. -/
def execHotspotThrottleEnd (quadrant temp : Nat) (s : State) : Res :=
  .next <|
    if 4 ≤ quadrant || 100 ≤ temp then s
    else
      let s := s.setHotspot quadrant temp
      { s with pkg := { s.pkg with halfClock := s.pkg.halfClock.set quadrant false } }

/-- THERMAL_TRIP (R597): THERM_TRIP_N is asserted and EN_G3 to EN_G5 fall, in hardware; a main-rail loss. -/
def execThermalTrip (quadrant temp : Nat) (s : State) : Res :=
  .next <|
    if 4 ≤ quadrant || temp < 115 || s.pkg.thermTrip then s
    else
      let s := s.setHotspot quadrant temp
      ({ s with pkg := { s.pkg with thermTrip := true } }).loseRails 3

/-- THERM_TRIP_RELEASE (R597): every hotspot is below 95 °C. -/
def execThermTripRelease (temps : List Nat) (s : State) : Res :=
  .next <|
    if !s.pkg.thermTrip || temps.length != 4 || temps.any (95 ≤ ·) then s
    else { s with pkg := { s.pkg with thermTrip := false, hotspot := temps, lostAt := s.time.clk } }

/-! ### Sensors (R534) -/

/-- SENSOR_UPDATE (R534): package power, hotspots and VAON feeds are read; thresholds crossed raise events and act on nothing. -/
def execSensorUpdate (power : Nat) (hotspots : List Nat) (vaonA vaonB : Nat) (s : State) : Res :=
  .next <|
    let old := s.pkg
    let hot := (List.range 4).map fun i => hotspots.getD i (old.hotspot.getD i 0)
    let s := { s with pkg := { old with packagePower := power, hotspot := hot, vaonAmV := vaonA, vaonBmV := vaonB } }
    let s := s.sensorEvent 1 (overLevel 950 1045 old.packagePower) (overLevel 950 1045 power) power
    let s := (List.range 4).foldl (fun s i =>
      s.sensorEvent (2 + i) (overLevel 100 105 (old.hotspot.getD i 0)) (overLevel 100 105 (hot.getD i 0)) (hot.getD i 0)) s
    let low : Nat → Nat := fun v => if v ≤ 3000 then 2 else 0
    let s := s.sensorEvent 14 (low old.vaonAmV) (low vaonA) vaonA
    s.sensorEvent 15 (low old.vaonBmV) (low vaonB) vaonB

/-! ### VAON feeds (R551) -/

/-- VAON_SWITCH_TO_B (R551). -/
def execVaonSwitchToB (s : State) : Res :=
  .next <|
    if s.pkg.onB || !s.pkg.vaonAGood || !s.pkg.vaonBGood then s
    else
      ({ s with pkg := { s.pkg with onB := true, vaonAGood := false, switchCount := satInc 0xFFFF s.pkg.switchCount } }).logSupply 1 0 scSage

/-- VAON_RETURN_TO_A (R551): VAON_A has stayed at or above 3.15 V for 100 ms. -/
def execVaonReturnToA (s : State) : Res :=
  .next <|
    if !s.pkg.onB then s
    else
      ({ s with pkg := { s.pkg with onB := false, vaonAGood := true, switchCount := satInc 0xFFFF s.pkg.switchCount } }).logSupply 2 0 scSage

end Sys2Proof.Machine
end

