-- ==== Sys2Proof/Machine/Hbm.lean ====
section
/-! DEFINITION. HBM and SLM: uncorrectable bursts, scrub, fencing (R424, R438 to R442, R447, R448), temperature (R443 to R446), map-out
(R449 to R452, R455), the traffic generators (R456 to R458), initialisation (R438). -/

namespace Sys2Proof.Machine

/-! ### Bursts -/

/-- The HBM address of a burst of an in-channel line: the inverse of R431. -/
def State.burstAddr (s : State) (c line burst : Nat) : Nat :=
  let l := s.channelList
  let n := l.length
  let rot := ((line &&& 0xFF) ^^^ (line / 256 &&& 0xFF)) ^^^ (line / 65536 &&& 0x7F)
  let i := (l.findIdx? (· == c)).getD 0
  (line * n + (i + n - rot % n) % n) * 256 + burst % 4 * 64

/-- The partition whose granule holds an HBM address. -/
def State.holder (s : State) (addr : Nat) : Option PartNo := s.present.find? fun p => (s.part p).granules.contains (addr / 2 ^ 30)

/-- Uncorrectable bursts of a channel at distinct lines within 60 s (R447). -/
def badLines (now : Nat) (l : List (Nat × Nat)) : List Nat :=
  ((l.filter fun x => now < x.1 + 1500000000).map (·.2)).eraseDups

/-- A burst beyond correction (R441, R447): poisoned, counted, logged; the eighth distinct line within 60 s fences the channel. -/
def State.badBurst (s : State) (c line burst : Nat) : State :=
  if (s.chan c).fenced || (s.chan c).state == .mappedOut || 256 ≤ c then s
  else
    let addr := s.burstAddr c line burst
    let s := { s with hbm := { s.hbm with
      poison := addOnce s.hbm.poison (addr / 64)
      uncorrTotal := (s.hbm.uncorrTotal + 1) % 2 ^ 64 } }
    let s := s.modChan c fun x => { x with
      uncorrected := satInc 0xFFFF x.uncorrected
      badAt := (x.badAt.filter fun b => s.time.clk < b.1 + 1500000000) ++ [(s.time.clk, line)] }
    let s := s.logHbm c 1 addr 0xFF (s.holder addr) stPoison
    if 8 ≤ (badLines s.time.clk (s.chan c).badAt).length then s.fenceChannel c else s

/-- UNCORRECTABLE_BURST (R441). -/
def execUncorrectableBurst (channel line burst : Nat) (s : State) : Res :=
  .next <| if !s.hbm.initDone || 2 ^ 23 ≤ line then s else s.badBurst channel line burst

/-- An uncorrectable error in a cache line invalidates it, and a new fill serves the request (R424). -/
def State.refill (s : State) (slice line : Nat) : State :=
  { s with slm := { s.slm with slices := s.slm.slices.modify slice fun l => l.map fun c => if c.line == line then s.filled slice line else c } }

/-- SLM_ECC_ERROR (R424, R567): a cache line is refilled and counted; a scratchpad line is poisoned and logged; 64 within 1 s bypass the
cluster. -/
def execSlmEccError (slice : Nat) (scratch : Bool) (line : Nat) (s : State) : Res :=
  .next <|
    if 16 ≤ slice || (s.clusterAt slice).state != .active then s
    else
      let own := s.owner slice
      let seq := s.ras.nextSeq
      let s := if scratch then
          let s := match own with
            | some p => s.modPart p fun x => { x with scratchPoison := addOnce x.scratchPoison line }
            | none => s
          s.log { seq := 0, status := stPoison, kind := kSlm, scope := if own.isSome then scPartition else scCluster, part := own
                  unit := slice, detail := detail [(24, toLe 8 line), (32, toLe 1 1)] }
        else s.refill slice line
      let recent := ((s.clusterAt slice).sliceUncorrAt.filter fun t => s.time.clk < t + 25000000) ++ [s.time.clk]
      let s := s.modCluster slice fun c => { c with sliceUncorrAt := recent }
      if recent.length < 64 then s
      else
        let cause := if scratch then seq else s.ras.nextSeq
        let s := if scratch then s
          else s.log { seq := 0, kind := kSlm, scope := if own.isSome then scPartition else scCluster, part := own, unit := slice
                       detail := detail [(24, toLe 8 line), (32, toLe 1 2)] }
        (s.modCluster slice fun c => { c with sliceUncorrAt := [] }).bypass slice 3 cause

/-- Whether the scrub reads a channel: neither fenced nor mapped out, its stack not stopped (R442). -/
def State.scrubs (s : State) (c : Nat) : Bool :=
  c < 256 && !(s.chan c).fenced && (s.chan c).state != .mappedOut && (s.hbm.stackSt.getD (c / 32) {}).level != 4

/-- A burst of a channel is corrected: counted, with the lanes of its corrected symbols (R439, R453). -/
def Channel.correct (c : Channel) (now : Nat) (lanes : List Nat) : Channel :=
  { c with corrected := satInc 0xFFFF c.corrected
           symbolAt := (c.symbolAt.filter fun x => now < x.1 + 25000000) ++ lanes.eraseDups.map fun l => (now, l) }

/-- Lanes with a corrected symbol in 64 or more bursts of the last second: they are marked for repair; a dead lane is past that
(R439). -/
def Channel.weak (c : Channel) : List Nat :=
  ((c.symbolAt.map (·.2)).eraseDups).filter fun l =>
    64 ≤ (c.symbolAt.filter fun x => x.2 == l).length && !c.marked.contains l && !c.dead.contains l

/-- A corrected burst of the scrub: counted, its lanes marked for repair and logged where they fail too often (R439, R560) within
the last second (a window that slides is a DESIGN CHOICE, log 48). -/
def State.correctBurst (s : State) (c : Nat) (lanes : List Nat) : State :=
  let s := ({ s with hbm := { s.hbm with corrTotal := (s.hbm.corrTotal + 1) % 2 ^ 64 } }).modChan c fun x => x.correct s.time.clk lanes
  ((s.chan c).weak).foldl (fun s l => (s.modChan c fun x => { x with marked := x.marked ++ [l] }).logHbm c 2 0 l none 0 true) s

/-- PATROL_SCRUB (R442): one row of every channel; corrected bursts, each a channel and the lanes of its up to four corrected symbols
(R440), are written back, uncorrectable ones poisoned and logged. It pauses in PS2 (R554). -/
def execPatrolScrub (corrected : List (Nat × List Nat)) (uncorrectable : List (Nat × Nat)) (s : State) : Res :=
  .next <|
    if !s.hbm.scrubActive || s.hbm.selfRefresh then s
    else
      let row := s.hbm.scrubRow
      let s := (corrected.filter fun x => s.scrubs x.1).foldl (fun s x => s.correctBurst x.1 x.2) s
      let s := (uncorrectable.filter fun x => s.scrubs x.1).foldl (fun s x => s.badBurst x.1 row x.2) s
      { s with hbm := { s.hbm with scrubRow := (row + 1) % 2 ^ 23 } }

/-- ADDRESS_PARITY_ERROR (R447): two retrains within 100 ms that do not clear it fence the channel. -/
def execAddressParityError (channel : Nat) (cleared : Bool) (s : State) : Res :=
  .next <|
    if 256 ≤ channel || cleared then s
    else
      let recent := ((s.chan channel).parityAt.filter fun t => s.time.clk < t + 2500000) ++ [s.time.clk]
      let s := s.modChan channel fun c => { c with parityAt := recent }
      if 2 ≤ recent.length then s.fenceChannel channel else s

/-! ### Temperature (R443 to R446) -/

/-- T_th (R444, R445). -/
def State.threshold (s : State) : Nat := if s.devHost mBwTherm then bits s.hbm.thermThreshold.toNat 0 8 else 95

/-- The level a temperature enters, and the point below which a level is left (R443). -/
def levelAt (th temp : Nat) : Nat :=
  if 105 ≤ temp then 4 else if th + 6 ≤ temp then 3 else if th + 3 ≤ temp then 2 else if th ≤ temp then 1 else 0

def exitPoint (th level : Nat) : Nat :=
  match level with
  | 1 => th - 3 | 2 => th | 3 => th + 3 | 4 => 100 | _ => 0

def State.modStack (s : State) (n : Nat) (f : Stack → Stack) : State := { s with hbm := { s.hbm with stackSt := s.hbm.stackSt.modify n f } }

/-- Since when a stack at a temperature stays below its level's exit point. -/
def Stack.settle (x : Stack) (th now : Nat) (again : Bool) : Stack :=
  { x with belowSince := if 0 < x.level && x.temp < exitPoint th x.level then
      (if again then some now else some (x.belowSince.getD now)) else none }

/-- One stack's temperature as read: a level rises at once and sets THERMAL; level 4 is logged (R443, R446). -/
def State.readStack (s : State) (n temp : Nat) : State :=
  let th := s.threshold
  let old := s.hbm.stackSt.getD n {}
  let up := max old.level (levelAt th temp)
  let s := s.sensorEvent (6 + n) (overLevel th 105 old.temp) (overLevel th 105 temp) temp
  let s := s.modStack n fun x => ({ x with temp := temp, level := up }).settle th s.time.clk false
  if up = old.level then s
  else
    let s := s.raise .pf evThermal
    if up = 4 then s.logHbm (32 * n) 8 else s

/-- STACK_TEMPERATURE_READ (R443, R446). -/
def execStackTemperatureRead (temps : List Nat) (s : State) : Res :=
  .next <| ((temps.take 8).zipIdx).foldl (fun s x => s.readStack x.2 x.1) s

/-- THROTTLE_LEVEL_FALL (R443): 10 ms below the exit point. -/
def execThrottleLevelFall (stack : Nat) (s : State) : Res :=
  .next <|
    let x := s.hbm.stackSt.getD stack {}
    match x.belowSince with
    | none => s
    | some t =>
      if stack < 8 && 0 < x.level && t + 250000 ≤ s.time.clk then
        let s := s.modStack stack fun x => ({ x with level := x.level - 1 }).settle s.threshold s.time.clk true
        if x.level = 4 then (s.logHbm (32 * stack) 9).stackServes else s
      else s

/-! ### Map-out requests (R450, R452, R455) -/

/-- A write of MEM_MAPOUT_CTRL. -/
def State.mapoutCtrl (s : State) (value : Word32) : State :=
  let v := value.toNat
  if bits v 24 8 != 0xA5 then s
  else
    let c := bits v 0 8
    let s :=
      if !v.testBit 9 then s
      else if v.testBit 8 then
        if !s.devHost mMapout then s
        else if (s.chan c).state == .mapoutPending then s.modChan c fun x => { x with state := .fenced }
        else s.logHost 2 .pf 0 scCommand 0 [(28, toLe 4 v)]
      else if (s.chan c).state == .fenced then s.modChan c fun x => { x with state := .mapoutPending }
      else s.logHost 2 .pf 0 scCommand 0 [(28, toLe 4 v)]
    if v.testBit 16 && !s.hif.dpRestarting then s.startRestart .request else s

/-- MAPOUT_MARK (R450, R455): a write with MARK. -/
def execMapoutMark (value : Word32) (s : State) : Res :=
  .next <| if s.barLive && value.getLsbD 9 && !value.getLsbD 8 then s.mapoutCtrl value else s

/-- MAPOUT_WITHDRAW (R450, R455): a write with MARK and WITHDRAW. -/
def execMapoutWithdraw (value : Word32) (s : State) : Res :=
  .next <| if s.barLive && value.getLsbD 9 && value.getLsbD 8 then s.mapoutCtrl value else s

/-- MAPOUT_RESTART (R450, R455): a write with RESTART and no MARK. -/
def execMapoutRestart (value : Word32) (s : State) : Res :=
  .next <| if s.barLive && value.getLsbD 16 && !value.getLsbD 9 then s.mapoutCtrl value else s

/-! ### Traffic generators (R456 to R458) -/

/-- The fields of TG_CTRL that stay (R457). -/
abbrev tgKept : Word32 := 0xF310#32

def State.modTg (s : State) (c : Nat) (f : TrafficGen → TrafficGen) : State := s.modChan c fun x => { x with tg := f x.tg }

/-- TG_START (R458): it runs on a FENCED or MAPPED_OUT channel; any other START is REFUSED. The error registers clear. -/
def execTgStart (channel : Nat) (value : Word32) (s : State) : Res :=
  .next <|
    if !s.barLive || 256 ≤ channel || !value.getLsbD 0 then s
    else
      let st := (s.chan channel).state
      let ok := (st == .fenced || st == .mappedOut) && (s.chan channel).tg.state != 1
      s.modTg channel fun t => { t with
        ctrl := value &&& tgKept
        state := if ok then 1 else 3
        passesDone := if ok then 0 else t.passesDone
        errors := 0
        firstErr := none
        lanes := []
        corrected := 0 }

/-- TG_STOP (R457, R458): the generator stops after the current burst. -/
def execTgStop (channel : Nat) (value : Word32) (s : State) : Res :=
  .next <|
    if !s.barLive || 256 ≤ channel || !value.getLsbD 1 || value.getLsbD 0 then s
    else s.bump.modTg channel fun t => { t.halt s.fresh with ctrl := value &&& tgKept }

/-- TG_DONE (R458): TG_PASSES passes are done. -/
def execTgDone (channel errors firstErr : Nat) (lanes : List Nat) (corrected : Nat) (s : State) : Res :=
  .next <|
    if (s.chan channel).tg.state != 1 then s
    else
      s.modTg channel fun t => { t with
        state := 2
        passesDone := t.passes.toNat % 65536
        errors := min 0xFFFFFFFF errors
        firstErr := if errors = 0 then none else some (firstErr % 2 ^ 23)
        lanes := lanes.filter (· < 74)
        corrected := min 0xFFFFFFFF corrected }

/-! ### Initialisation (R438, R439, R449 to R451) -/

/-- Lanes of a channel that are marked or fail training are remapped to spares while any remain, the others are dead (R439). -/
def Channel.repairLanes (c : Channel) (failed : List Nat) : Channel :=
  let l := (c.marked ++ failed).eraseDups.filter fun l => !c.dead.contains l
  { c with marked := [], spares := c.spares - l.length, dead := c.dead ++ l.drop c.spares, corrected := 0, uncorrected := 0, badAt := [],
           parityAt := [], symbolAt := [] }

/-- A channel due for map-out is mapped out while the fuse bank has an entry left; else it stays FENCED (R451). -/
def State.mapOut (s : State) (c : Nat) : State :=
  if s.sec.fuses.repair.length < 32 then
    let s := s.modChan c fun x => { x with state := .mappedOut }
    ({ s with sec := { s.sec with fuses := { s.sec.fuses with repair := s.sec.fuses.repair ++ [c] } } }).logHbm c 5 0 0xFF none 0 true
  else (s.modChan c fun x => { x with state := .fenced }).logHbm c 6

/-- Granules that now lie in the reserve or beyond the end leave their partition; the loss is logged (R451). -/
def State.trimGranules (s : State) (p : PartNo) : State :=
  let keep := (s.part p).granules.filter fun g => g < s.assignable
  if keep.length = (s.part p).granules.length then s
  else ((s.modPart p fun x => { x with granules := keep }).logHbm 0 5 0 0xFF (some p) stPoison).capacity [p]

/-- The HBM runs: error counts at 0, the scrub at its first row, no poison (R438, R442). -/
def State.hbmStarted (s : State) : State :=
  { s with hbm := { s.hbm with
    poison := []
    corrTotal := 0
    uncorrTotal := 0
    scrubRow := 0
    scrubActive := true
    initDone := true
    selfRefresh := false } }

/-- HBM initialisation: lanes, fences, map-out, every line written (R438). -/
def State.hbmInit (s : State) (deadLanes : List (Nat × Nat)) (badChannels : List Nat) : State :=
  let chans := (List.range 256).filter fun c => (s.chan c).state != .mappedOut
  let s := chans.foldl (fun (s : State) (c : Nat) =>
    let failed := ((deadLanes.filter fun x => x.1 == c && x.2 < 74).map (·.2)).filter fun l => !(s.chan c).dead.contains l
    let before := (s.chan c).dead
    let s := (failed.filter fun l => !(s.chan c).marked.contains l).foldl (fun s l => s.logHbm c 2 0 l none 0 true) s
    let s := s.modChan c fun x => x.repairLanes failed
    ((s.chan c).dead.filter fun l => !before.contains l).foldl (fun s l => s.logHbm c 3 0 l) s) s
  let hot : Nat → Bool := fun c => 105 < (s.hbm.stackSt.getD (c / 32) {}).temp
  let s := (chans.filter fun c => 3 ≤ (s.chan c).dead.length || badChannels.contains c || hot c).foldl State.fenceChannel s
  let n := s.channelList.length
  let s := ((List.range 256).filter fun c => (s.chan c).state == .mapoutPending).foldl State.mapOut s
  let s := if s.channelList.length = n then s else (s.present.foldl State.trimGranules s).capacity []
  s.hbmStarted

end Sys2Proof.Machine
end

