-- ==== Sys2Proof/Machine/Journal.lean ====
section
/-! DEFINITION. JOURNAL_CTRL (R308), flushing reads (R314, R315) and replay (R312, R317 to R319, R524). -/

namespace Sys2Proof.Machine

/-! ### JOURNAL_CTRL -/

def Cmd.jEnable (c : Cmd) : Bool := (c.f 20 4).testBit 0
def Cmd.jPersistent (c : Cmd) : Bool := (c.f 20 4).testBit 1
def Cmd.jReplay (c : Cmd) : Bool := (c.f 20 4).testBit 2
def Cmd.jFormat (c : Cmd) : Bool := (c.f 20 4).testBit 3

/-- The checks of a write that enables the journal: PERSISTENT, exactly one of FORMAT and REPLAY, a region, and ENABLE 0 before
(R308). -/
def State.journalEnableErr (s : State) (p : PartNo) (c : Cmd) : Option Err :=
  let bad := errAt stInvalidField 20
  firstErr
    [ failIf (c.f 20 4 &&& 0xFFFFFFF0 != 0) (errAt stReserved 20), failIf ((s.part p).journal.state != .off) bad,
      failIf (!c.jPersistent || c.jReplay == c.jFormat) bad, failIf ((s.part p).jSize == 0) bad ]

/-- The devices of a journal's blob: this one and the first two others of the declared set (R523). -/
def State.journalDevices (s : State) (p : PartNo) : List (Bytes × Bytes) := (s.declaredSet p).take 3

/-- JOURNAL_FORMAT: a new header with a random JOURNAL_ID and key blob and an empty ring; it completes after the header's
flushing read (R308, R310, R523). Both header copies are written. -/
def execJournalFormat (cid : Nat) (s : State) : Res :=
  .next <| s.setPartFeature cid (fun c => c.fid == 0x43 && c.jEnable && !(c.jReplay && !c.jFormat)) s.journalEnableErr fun p c =>
    let jid := Config.freeNat s.fresh % 2 ^ 64
    let content := Config.freeBytes (s.fresh + 1) 16
    let s := (s.bump 2).newKey
    let key := s.sec.keyCount
    let blob := s.makeBlob p (s.journalDevices p) 2 key content
    let s := s.modPart p fun x => { x with
      journal := { state := .active, ctrl := BitVec.ofNat 32 (c.f 20 4), id := jid, key := key, generation := 1, blob := blob }
      colls := x.colls.map fun k => { k with createSeq := 0, durableSeq := none } }
    let s := s.jWrite p (headerOff 1) (headerBytes 1 jid (s.part p).jSize 1 ringBase blob)
    let s := (s.settle cid {}).jHeader p blob
    s.modPart p fun x => { x with journal := { x.journal with waiting := x.journal.waiting ++ [(cid, 0)] } }

/-! ### Flushing reads -/

/-- In Journal.reads: the flushing read of a DURABLE export, by its command (R324). -/
abbrev exportRead (cid : Nat) : Nat := 2 ^ 64 + cid

/-- A DURABLE export whose flushing read has returned records its snapshot, by which the journal may be trimmed, and completes (R320, R324). -/
def State.exportFlushed (s : State) (p : PartNo) (cid : Nat) : State :=
  match s.cmd? cid with
  | none => s
  | some c =>
    let s := if (s.part p).journal.state == .off then s
      else (s.modCollU p (c.coll.getD 0) fun k => { k with durableSeq := some c.snapSeq }).jTrim p
    s.due cid

/-- FLUSHING_READ_RETURN (R314): the oldest flushing read returns and confirms every record up to its own; a further read is issued
for the records it did not cover, and the journal may be trimmed (R320). -/
def execFlushingReadReturn (part : PartNo) (s : State) : Res :=
  .next <|
    let j := (s.part part).journal
    match j.reads with
    | [] => s
    | q :: rest =>
      let s := s.modPart part fun x => { x with journal := { x.journal with reads := rest } }
      if 2 ^ 64 ≤ q then s.exportFlushed part (q - 2 ^ 64)
      else
        let (ok, still) := j.waiting.partition fun w => w.2 ≤ q
        let s := s.modPart part fun x => { x with journal := { x.journal with waiting := still, confirmed := max x.journal.confirmed q } }
        let s := ok.foldl (fun s w => s.due w.1) s
        let s := if j.state == .active && still.any (fun w => w.2 != 0) then s.jFlush part else s
        s.jTrim part

/-- FLUSHING_READ_FAILED (R315): the journal is FAILED and the failure logged; the commands the journal should have confirmed are
held until it is disabled. -/
def execFlushingReadFailed (part : PartNo) (s : State) : Res :=
  .next <|
    let j := (s.part part).journal
    match j.reads with
    | [] => s
    | q :: rest =>
      if 2 ^ 64 ≤ q then
        (s.modPart part fun x => { x with journal := { x.journal with reads := rest } }).tearDown (q - 2 ^ 64) stHostAccess
      else
        let admin := fun w : Nat × Nat => (s.cmd? w.1).any (·.isAdmin)
        let s' := s.modPart part fun x => { x with journal := { x.journal with
          state := .failed
          reads := rest.filter fun r => 2 ^ 64 ≤ r
          waiting := []
          held := j.held ++ (j.waiting.filter fun w => !admin w).map (·.1) } }
        let s' := (j.waiting.filter admin).foldl (fun s w => s.fail w.1 stJournalWrite) s'
        s'.log { seq := 0, status := stJournalWrite, kind := kHost, scope := scPartition, part := some part, fn := some (.vf part),
                 detail := detail [(24, toLe 1 4)] }

/-- Whether the writer still has records to confirm. -/
def Journal.busy (j : Journal) : Bool := j.state == .active && (!j.waiting.isEmpty || j.reads.any fun r => r < 2 ^ 64)

/-- The journal turns OFF and the held commands complete (R308, R315). -/
def State.journalOff (s : State) (p : PartNo) : State :=
  let held := (s.part p).journal.held
  let s := s.modPart p fun x => { x with journal := { x.journal with state := .off, held := [], waiting := [] } }
  held.foldl (fun s cid => s.due cid) s

/-- The journal is OFF, JOURNAL_CTRL holds the value set, and the command completes. -/
def State.journalDisabled (s : State) (p : PartNo) (cid v : Nat) : State :=
  ((s.journalOff p).modPart p fun x => { x with journal := { x.journal with ctrl := BitVec.ofNat 32 v } }).finish cid {}

/-- JOURNAL_DISABLE (R308): it waits until every record is flushed or has failed, the row then running a second time. -/
def execJournalDisable (cid : Nat) (s : State) : Res :=
  .next <|
    match s.cmd? cid with
    | some c =>
      if c.isAdmin && c.op == 0x05 && c.fid == 0x43 && !c.jEnable && c.phase == .flushing then
        match s.featPart c with
        | some p => if (s.part p).journal.busy then s else s.journalDisabled p cid (c.f 20 4)
        | none => s.finish cid {}
      else
        s.setPartFeature cid (fun c => c.fid == 0x43 && !c.jEnable) (fun _ c => failIf (c.f 20 4 &&& 0xFFFFFFF0 != 0) (errAt stReserved 20)) fun p c =>
          if (s.part p).journal.busy then s.modCmd cid fun c => { c with phase := .flushing }
          else s.journalDisabled p cid (c.f 20 4)
    | none => s

/-! ### Replay -/

/-- A valid header copy at an offset of the region (R310). -/
def headerAt (region : Bytes) (off : Nat) : Option Bytes :=
  let h := slice region off 2048
  if slice h 0 4 == ascii [0x53, 0x50, 0x5A, 0x4A] && rd h 4 4 == 1 && slice h 1984 32 == digest32 (h.take 1984) then some h else none

/-- The current header: the valid copy of larger GENERATION (R310). -/
def currentHeader (region : Bytes) : Option Bytes :=
  match headerAt region 0, headerAt region 0x800 with
  | some a, some b => some (if rd a 8 8 < rd b 8 8 then b else a)
  | some a, none => some a
  | none, b => b

/-- A record read from the region: its header, its encrypted body and its trailer (R311). -/
structure JRecord where
  hdr : Bytes
  body : Bytes
  trailer : Bytes
  deriving DecidableEq, Repr, Inhabited

def readRecord (region : Bytes) (off : Nat) : JRecord :=
  let hdr := slice region off 64
  let n := rd hdr 24 4
  { hdr := hdr, body := slice region (off + 64) n, trailer := slice region (off + 64 + n) 64 }

/-- Whether a record is committed, with the SEQ expected (R312). -/
def JRecord.committed (r : JRecord) (jid seq : Nat) : Bool :=
  slice r.hdr 0 4 == ascii [0x53, 0x50, 0x5A, 0x52] && slice r.trailer 0 4 == ascii [0x53, 0x50, 0x5A, 0x43] &&
  rd r.hdr 8 8 == seq && rd r.trailer 8 8 == seq && rd r.hdr 16 8 == jid && slice r.trailer 16 32 == digest32 (r.hdr ++ r.body)

/-- A record's data: none where its tag does not verify (R523, R524). -/
def JRecord.open_ (r : JRecord) (key : Nat) : Option Bytes :=
  Config.gcmOpen key (toLe 8 (rd r.hdr 8 8) ++ zeros 4) r.hdr (r.body.take (rd r.hdr 40 4 + 16))

/-- A slot list from journaled global ids: the slots of live versions, ids that are not live dropped (R319). -/
def PartSt.gidSlots (x : PartSt) (k : Coll) (bs : Bytes) : Bytes :=
  let l := ((List.range k.degree).map fun i => Sys2Proof.Machine.rd bs (8 * i) 8).filterMap fun g =>
    match x.idSlot k g with
    | some s => if (x.meta k s).current then some s else none
    | none => none
  edgeBytes k.degree l

/-- The command that a MUTATION record re-runs (R311, R319). -/
def PartSt.replayCmd (x : PartSt) (k : Coll) (p : PartNo) (id op st now : Nat) (mode : Word32) (data : Bytes) : Cmd :=
  let param := data.take 64
  let items := data.drop 64
  let n := Sys2Proof.Machine.rd param 0 4
  let parts := Sys2Proof.Machine.rd param 4 1
  let js := k.jRecSize parts
  let sets := (items.length - n * js) / max 1 k.jSetSize
  let recs := (List.range n).flatMap fun i =>
    let r := slice items (i * js) js
    r.take (k.partOff parts 4) ++ if parts.testBit 4 then x.gidSlots k (r.drop (k.partOff parts 4)) else []
  let es := (List.range sets).flatMap fun i =>
    let e := slice items (n * js + i * k.jSetSize) k.jSetSize
    e.take 16 ++ x.gidSlots k (e.drop 16)
  { id := id, fn := .vf p, qid := 0xFFFF, part := some p, packet := fit 64 ([BitVec.ofNat 8 op, 0, 0, 0] ++ toLe 2 k.handle)
    data := { param := overlay param 8 (toLe 4 sets), input := recs ++ es }, fetchTime := now, phase := .running, admitTime := now
    readStamp := st, mode := mode, shadow := true, coll := some k.uid }

/-- A record's command carried to the end of its phase 3 (R319). -/
def State.replayed (s : State) (p : PartNo) (k : Coll) (c : Cmd) (st : Nat) : State :=
  let t := s.addCmd c
  let t := t.mutReserve p k c
  let t := t.withMut c.id fun m => t.mutWrite p k c m
  t.withMut c.id fun m => t.mutConnect p k c m st

/-- Room made in a replay, which repeats no reclaim (R309, R319): a whole pass over the collection, its deleted slots reclaimed (R297, R300; that
a replay runs one is DEDUCED, log 29). -/
def State.replayReclaim (s : State) (p : PartNo) (k : Coll) : State :=
  let s := s.beginPass p k (!(s.modeOf p).getLsbD mConsol) ((s.part p).feat 0x32) none
  let step := fun (s : State) (_ : Nat) =>
    match (s.part p).collU? k.uid with
    | some k => match k.pass with | some q => s.runStep p k q | none => s
    | none => s
  (List.range (ceilDiv k.capacity passStep)).foldl step s

/-- A MUTATION record is applied at its stamp (R319); false where it could not be. -/
def State.rerunMutation (s : State) (p : PartNo) (k : Coll) (op st : Nat) (data : Bytes) : State × Bool :=
  let c := (s.part p).replayCmd k p s.nextCid op st s.now (s.modeOf p) data
  let t := s.replayed p k c st
  match t.cmd? c.id with
  | some c' =>
    match c'.run with
    | .mutation m => if c'.phase == .running && m.written then (((t.commitWrites p k c m st).1).drop c.id, true) else (t.drop c.id, false)
    | _ => (t.drop c.id, false)
  | none => (t, false)

/-- A CREATE record is executed (R318); false where its storage does not fit. -/
def State.rerunCreate (s : State) (p : PartNo) (handle seq : Nat) (data : Bytes) : State × Bool :=
  let param := data.take 64
  let input := data.drop 64
  let members := u16s (rd param 36 2) (input.drop (matrixBytes param))
  match (s.part p).place (Coll.laid 0 0 param members 0).size with
  | none => (s, false)
  | some base =>
    let k := Coll.laid handle s.nextCid param members base
    let t := { s with nextCid := s.nextCid + 1 }.fillColl p k (input.take (matrixBytes param))
    (t.modPart p fun x => { x with colls := x.colls ++ [{ k with lastPass := s.now, createSeq := seq }] }, true)

/-- What a replay has done so far. -/
structure Replay where
  s : State
  off : Nat
  seq : Nat
  top : Nat := 0
  applied : Nat := 0
  skipped : Nat := 0
  /-- collections whose replay start has been reached, with it (R318) -/
  starts : List (Nat × Nat) := []
  recs : List JRec := []
  bad : Bool := false

/-- One committed record that is no PAD (R317, R318). -/
def Replay.apply (a : Replay) (p : PartNo) (r : JRecord) (data : Bytes) : Replay :=
  let h := rd r.hdr 28 2
  let st := rd r.hdr 32 8
  let coll := a.s.coll? p h
  let past := match a.starts.lookup h with | some q => decide (q < a.seq) | none => false
  let skip := { a with skipped := a.skipped + 1, top := max a.top st }
  let done := fun (s : State) => { a with s := s, applied := a.applied + 1, top := max a.top st }
  match rd r.hdr 4 1, coll with
  | 2, none =>
    let (t, ok) := a.s.rerunCreate p h a.seq data
    if ok then { done t with starts := setKey a.starts h a.seq } else skip
  | 4, some k => if k.imageId == rd data 0 8 && (a.starts.lookup h).isNone then { skip with starts := setKey a.starts h a.seq } else skip
  | 1, some k =>
    if past then
      let first := a.s.rerunMutation p k (rd r.hdr 30 1) st data
      let again := if first.2 then first else (a.s.replayReclaim p k).rerunMutation p k (rd r.hdr 30 1) st data
      if again.2 then done again.1 else { skip with s := again.1 }
    else skip
  | 3, some k =>
    if past then
      { done ((a.s.modCollU p k.uid fun k => { k with dropping := true }).reap) with starts := a.starts.filter fun x => x.1 != h }
    else skip
  | _, _ => skip

/-- The loop of R317 over the region; each turn passes one record, so the fuel is the ring's length in records of 128 B. Where a record ends
with the ring, the writer places no PAD and the next record starts the ring again (R313; for the replay DEDUCED, log 29). -/
def Replay.go (p : PartNo) (region : Bytes) (jid key : Nat) : Nat → Replay → Replay
  | 0, a => a
  | fuel + 1, a =>
    let a := if (a.s.part p).jSize ≤ a.off then { a with off := ringBase } else a
    let r := readRecord region a.off
    if !r.committed jid a.seq then a
    else
      let len := 128 + rd r.hdr 24 4
      if rd r.hdr 4 1 = 5 then
        Replay.go p region jid key fuel { a with off := ringBase, seq := a.seq + 1, recs := a.recs ++ [{ seq := a.seq, off := a.off, len := len, rtype := 5, handle := 0 }] }
      else
        match r.open_ key with
        | none => { a with bad := true }
        | some data =>
          let b := a.apply p r data
          Replay.go p region jid key fuel
            { b with off := a.off + len, seq := a.seq + 1, recs := a.recs ++ [{ seq := a.seq, off := a.off, len := len, rtype := rd r.hdr 4 1, handle := rd r.hdr 28 2, stamp := rd r.hdr 32 8 }] }

/-- The stamp clock starts above a stamp (R170). -/
def State.stampFloor (s : State) (top : Nat) : State :=
  if top = 0 then s
  else { s with time := { s.time with stampClock := max s.time.stampClock (top + 1), largestStamp := max s.time.largestStamp top } }

/-- The current header of a region and its journal content key, or the status that refuses it (R310, R523). -/
def State.journalOpen (s : State) (region : Bytes) : Nat ⊕ (Bytes × Nat) :=
  match currentHeader region with
  | none => .inl stImageCheck
  | some h =>
    let blob := slice h 256 1728
    match s.unwrap (blob.take (rd blob 8 4)) with
    | .inl st => .inl st
    | .inr (key, _, _, _) => if rd blob 12 1 != 2 then .inl stImageCheck else .inr (h, key)

/-- The replay of a region (R317 to R319, R524). The SEQs that a collection of another journal needed there mean nothing here (R320). -/
def State.replayRegion (s : State) (p : PartNo) (cid : Nat) (ctrl : Word32) (region h : Bytes) (key : Nat) : State :=
  let blob := slice h 256 1728
  let jid := rd h 16 8
  let starts := ((s.part p).colls.filter fun k => k.imported && k.snapJournal == jid).map fun k => (k.handle, k.replayStart)
  let t := if (s.part p).journal.id == jid then s
    else s.modPart p fun x => { x with colls := x.colls.map fun k => { k with createSeq := 0, durableSeq := none } }
  let r := Replay.go p region jid key (region.length / 128 + 1) { s := t, off := rd h 40 8, seq := rd h 32 8, starts := starts }
  let t := (r.s.modPart p fun x => { x with journal :=
    { state := if r.bad then .failed else .active, ctrl := ctrl, id := jid, generation := rd h 8 8, key := key
      blob := blob.take (rd blob 8 4), nextSeq := r.seq, nextOff := r.off, trimSeq := rd h 32 8, trimOff := rd h 40 8
      recs := r.recs } }).stampFloor r.top
  if r.bad then t.fail cid stImageCheck
  else t.finish cid { count := r.applied, work := r.skipped, stamp := r.top }

/-- JOURNAL_REPLAY (R317 to R319, R524): with a region that opens, the journal is REPLAYING and the partition admits no command that
names a collection; the row then runs a second time, the committed records are re-run and the journal is ACTIVE behind them. A record
whose tag fails ends the replay with the journal FAILED. -/
def execJournalReplay (cid : Nat) (region : Bytes) (s : State) : Res :=
  .next <|
    match s.cmd? cid with
    | some c =>
      if c.isAdmin && c.op == 0x05 && c.fid == 0x43 && c.jEnable && c.phase == .flushing then
        match s.featPart c with
        | none => s
        | some p =>
          if (s.part p).journal.state != .replaying || (s.part p).journal.replayCid != cid then s
          else
            match s.journalOpen region with
            | .inl st => (s.modPart p fun x => { x with journal := { x.journal with state := .off } }).fail cid st
            | .inr (h, key) => s.settled <| s.replayRegion p cid (BitVec.ofNat 32 (c.f 20 4)) region h key
      else
        s.setPartFeature cid (fun c => c.fid == 0x43 && c.jEnable && c.jReplay && !c.jFormat) s.journalEnableErr fun p _ =>
          match s.journalOpen region with
          | .inl st => s.fail cid st
          | .inr _ => (s.modPart p fun x => { x with journal := { x.journal with state := .replaying, replayCid := cid } }).modCmd cid
              fun c => { c with phase := .flushing }
    | none => s

end Sys2Proof.Machine
end

