-- ==== Sys2Proof/Machine/Partition.lean ====
section
/-! DEFINITION. PARTITION_CONFIGURE (R400 to R404), the bandwidth regulators (R406 to R410, R417), accounting and slow-down windows
(R412 to R415). -/

namespace Sys2Proof.Machine

/-! ### What a partition's contents lose (R403 steps 3 and 4) -/

/-- The journal features (R306). -/
def journalFeats : List Nat := [0x40, 0x41, 0x42, 0x43]

/-- Shadow scans, persistent streams, passes, journal, collections, stage sets, hot set and scratchpad are destroyed, the resources
kept (R403, R515). -/
def State.destroyContents (s : State) (p : PartNo) : State :=
  let cl := (s.part p).clusters
  let s := (s.endWhere fun c => c.part == some p && c.shadow).journalOff p
  let s := s.modPart p fun x => { x.lost with
    journal := {}
    feats := x.feats.filter fun f => !journalFeats.contains f.1 }
  ({ s with streams := s.streams.filter fun x => !(x.armedSince.isSome && cl.getLsbD (x.core / 9)) }).dropLines fun n _ => cl.getLsbD n

/-! ### PARTITION_CONFIGURE -/

def Cmd.pcPart (c : Cmd) : PartNo := Fin.ofNat 16 (c.f 16 1)
def Cmd.pcClusters (c : Cmd) : BitVec 16 := BitVec.ofNat 16 (c.f 18 2)
def Cmd.pcBorrow (c : Cmd) : Bool := (c.f 21 1).testBit 0

/-- The partitions other than one. -/
def State.othersOf (s : State) (p : PartNo) : List PartSt := ((s.present.filter (· != p)).map s.part)

/-- The granules no other partition holds, lowest first (R403). -/
def State.freeGranules (s : State) (p : PartNo) : List Nat :=
  let held := (s.othersOf p).flatMap (·.granules)
  (List.range s.assignable).filter fun g => !held.contains g

def sumBy {α : Type} (f : α → Nat) (l : List α) : Nat := (l.map f).foldl (· + ·) 0

/-- The reserved bytes and bits of the body, and the fields shared by every action (R401). -/
def partBodyErr (c : Cmd) : Option Err :=
  firstErr [reservedBits c.packet 0 21 0xFE, reservedErr c.packet 0 [(29, 35)], failIf (16 ≤ c.f 16 1) (errAt stInvalidField 16)]

/-- The checks of the resources that SET and ADJUST name (R401, R402). -/
def State.partSharesErr (s : State) (c : Cmd) : Option Err :=
  let o := s.othersOf c.pcPart
  firstErr
    [ failIf (8 < c.f 20 1) (errAt stInvalidField 20),
      failIf (1024 < c.f 22 2 || 1024 < c.f 22 2 + sumBy PartSt.hbmShare o) (errAt stInvalidField 22),
      failIf (c.f 24 2 = 0 || 480 < c.f 24 2) (errAt stInvalidField 24),
      failIf (c.f 26 2 < 2 || 3840 < c.f 26 2) (errAt stInvalidField 26),
      failIf (64 < c.f 28 1 || 64 < c.f 28 1 + sumBy PartSt.meshShare o) (errAt stInvalidField 28) ]

/-- The checks that come last (R402): granules, quotas, the TDI. -/
def State.partCapacityErr (s : State) (c : Cmd) : Option Err :=
  firstErr
    [ failIf ((s.freeGranules c.pcPart).length < c.f 24 2) { st := stCapacity },
      failIf (3840 < c.f 26 2 + sumBy PartSt.qpQuota (s.othersOf c.pcPart)) { st := stQueueLimit },
      failIf (s.tdiLocked c.pcPart) { st := stTdiState } ]

/-- Every cluster named is active and belongs to no other partition (R402). -/
def State.clustersFree (s : State) (c : Cmd) : Bool :=
  (bitsSet 16 c.pcClusters.toNat).all fun n =>
    (s.clusterAt n).state == .active && (match s.owner n with | some q => q == c.pcPart | none => true)

def State.partSetErr (s : State) (c : Cmd) : Option Err :=
  firstErr [partBodyErr c, failIf (c.pcClusters == 0 || !s.clustersFree c) (errAt stInvalidField 18), s.partSharesErr c, s.partCapacityErr c]

/-- With CLEAR every other field is 0 (R401); the partition exists (R402). -/
def State.partClearErr (s : State) (c : Cmd) : Option Err :=
  firstErr
    [ partBodyErr c, failIf (!(s.part c.pcPart).present) (errAt stInvalidField 16),
      ([(18, 2), (20, 1), (21, 1), (22, 2), (24, 2), (26, 2), (28, 1)].find? fun x => c.f x.1 x.2 != 0).map fun x => errAt stInvalidField x.1,
      failIf (s.tdiLocked c.pcPart) { st := stTdiState } ]

/-- The highest VALID qid of a VF. -/
def State.topQid (s : State) (fn : Fn) : Nat := ((s.pairs.filter fun q => q.fn == fn).map (·.qid)).foldl max 0

def State.partAdjustErr (s : State) (c : Cmd) : Option Err :=
  let x := s.part c.pcPart
  firstErr
    [ partBodyErr c, failIf (!x.present) (errAt stInvalidField 16), failIf (c.pcClusters != 0) (errAt stInvalidField 18),
      failIf (c.f 20 1 != x.scratch) (errAt stInvalidField 20), s.partSharesErr c,
      failIf (c.f 24 2 < x.granules.length) (errAt stInvalidField 24),
      failIf (c.f 26 2 < s.topQid (.vf c.pcPart) + 1) (errAt stInvalidField 26), s.partCapacityErr c ]

/-- Steps 1 and 2 (R403): fetching stops, the VF's admin commands are held, the pairs are deleted, and what else runs in the
partition ends. -/
def State.stopPart (s : State) (p : PartNo) : State :=
  let s := s.modPart p fun x => { x with stopped := true }
  let s := s.deletePairs fun q => q.qid != 0 && q.part == some p
  let s := s.endWhere fun c => c.part == some p && !c.isAdmin
  { s with cmds := s.cmds.map fun c => if c.fn == .vf p && c.phase == .ready && !earlyOps.contains c.op then { c with phase := .held } else c }

/-- Admin commands that nothing holds any more may run (R75, R403). -/
def State.releaseHeld (s : State) : State :=
  { s with cmds := s.cmds.map fun c => if c.phase == .held && !s.mustHold c then { c with phase := .ready } else c }

/-- Whether step 3 may follow: no commit phase is left to finish, and the journal has flushed or failed (R308, R403). -/
def State.partQuiet (s : State) (p : PartNo) : Bool :=
  !(s.part p).journal.busy && !s.cmds.any fun c => c.part == some p && !c.isAdmin

/-- Clusters of a mask are gated or not. -/
def State.gateMask (s : State) (m : BitVec 16) (g : Bool) : State :=
  let f : Nat → Cluster → Cluster := fun n c => if m.getLsbD n then { c with gated := g, idleSince := s.time.clk } else c
  let s : State := { s with ras := { s.ras with clusters := s.ras.clusters.mapIdx f } }
  if g then s.coresLose fun n => m.getLsbD n else s

/-- The partition's contents and key are destroyed and its resources released (R403 steps 3 and 4). -/
def State.releasePart (s : State) (p : PartNo) : State :=
  let m := (s.part p).clusters
  let s := (s.destroyContents p).gateMask m true
  (s.modPart p fun _ => {}).unavailEnd (if s.hif.fatal then [] else [p])

/-- A SET assigns the new resources: the lowest-numbered free granules, a new key, even regulator rates, modes and features at
their reset values (R40, R403, R408, R503). -/
def State.assignPart (s : State) (c : Cmd) : State :=
  let p := c.pcPart
  let s := s.newKey
  let x : PartSt := {
    present := true
    clusters := c.pcClusters
    scratch := c.f 20 1
    borrow := c.pcBorrow
    hbmShare := c.f 22 2
    meshShare := c.f 28 1
    granules := (s.freeGranules p).take (c.f 24 2)
    qpQuota := c.f 26 2
    hbmKey := some s.sec.keyCount
    acct := { resetStamp := s.now }
    hotAt := s.now
    regs := List.replicate 32 { rate := 4 * c.f 22 2, depth := 64 } }
  (s.modPart p fun _ => x).gateMask c.pcClusters (2 ≤ s.power.ps)

/-- A row that goes on when its partition is quiet: the first run checks and stops the partition, the last one finishes. -/
def State.configure (s : State) (cid : Nat) (pick : Cmd → Bool) (chk : Cmd → Option Err) (f : State → Cmd → State) : State :=
  let go := fun (s : State) (c : Cmd) => if s.partQuiet c.pcPart then (f s c).releaseHeld else s
  match s.cmd? cid with
  | none => s
  | some c =>
    if c.isAdmin && c.op == 0x0A && pick c && c.phase == .flushing then go s c
    else
      s.admin cid 0x0A pick chk fun c =>
        if (s.part c.pcPart).present then go ((s.stopPart c.pcPart).modCmd cid fun c => { c with phase := .flushing }) c
        else (f s c).releaseHeld

/-- PARTITION_CONFIGURE_SET (R402, R403); the other ACTION codes give 0x2002. -/
def execPartitionConfigureSet (cid : Nat) (s : State) : Res :=
  .next <| s.configure cid (fun c => c.f 17 1 == 0 || 3 ≤ c.f 17 1)
    (fun c => firstErr [failIf (3 ≤ c.f 17 1) (errAt stInvalidField 17), s.partSetErr c])
    fun s c => (((if (s.part c.pcPart).present then s.releasePart c.pcPart else s).assignPart c).finish cid {})

/-- PARTITION_CONFIGURE_CLEAR (R403): ENABLE of the VF is cleared, its admin pair deleted as R83 states. -/
def execPartitionConfigureClear (cid : Nat) (s : State) : Res :=
  .next <| s.configure cid (fun c => c.f 17 1 == 1) s.partClearErr
    fun s c =>
      let fn := Fn.vf c.pcPart
      let s := ((s.releasePart c.pcPart).modFn fn fun f => { f with qmEnable := false }).finish cid {}
      if (s.pair? fn 0).isSome then s.startDelete fn 0 none else s

/-- PARTITION_CONFIGURE_ADJUST (R404): shares, BORROW and quota change, granules may be added at the end; nothing is killed. -/
def execPartitionConfigureAdjust (cid : Nat) (s : State) : Res :=
  .next <| s.admin cid 0x0A (fun c => c.f 17 1 == 2) s.partAdjustErr fun c =>
    let p := c.pcPart
    let x := s.part p
    let more := ((s.freeGranules p).filter fun g => !x.granules.contains g).take (c.f 24 2 - x.granules.length)
    (s.modPart p fun x => { x with
      hbmShare := c.f 22 2
      meshShare := c.f 28 1
      borrow := c.pcBorrow
      qpQuota := c.f 26 2
      granules := x.granules ++ more
      regs := if s.devHost mBwTherm then x.regs else List.replicate 32 { rate := 4 * c.f 22 2, depth := 64 } }).finish cid {}

/-! ### Regulators (R406 to R410, R417) -/

/-- The present channels of a group (R406). -/
def State.groupChannels (s : State) (g : Nat) : Nat :=
  ((List.range 8).filter fun i => (s.chan (8 * g + i)).state != .mappedOut).length

/-- The issue rate of a thermal level in quarters (R443). -/
def levelRate (level : Nat) : Nat := 4 - min level 4

/-- The rate in force of a group: in hardware mode scaled by its stack's level (R408, R417, R444). -/
def State.rateOf (s : State) (p : PartNo) (g : Nat) : Nat :=
  let r := ((s.part p).regs.getD g {}).rate
  if s.devHost mBwTherm then r else r * levelRate (s.hbm.stackSt.getD (g / 4) {}).level / 4

/-- Bytes the bucket of a group is filled with in 1 ms (R406). -/
def State.windowTokens (s : State) (p : PartNo) (g : Nat) : Nat := s.rateOf p g * 76800000 * s.groupChannels g / 4096

/-- Rate taken from givers in turn, none below the floor: the rates, and what was taken. -/
def takeRate (low : Nat) : List Nat → Nat → List Nat → List Nat × Nat
  | [], _, rates => (rates, 0)
  | g :: l, want, rates =>
    let n := min want (rates.getD g 0 - low)
    let (r, m) := takeRate low l (want - n) (rates.modify g (· - n))
    (r, m + n)

/-- The rates after one window (R408): each group that waited gains at most a quarter of the even rate, taken from groups that used
less than half of their tokens, none below half the even rate. How much is moved within these bounds, and from which group first, is
free. -/
def moveRates (even fresh : Nat) (gain give : List Nat) (rates : List Nat) : List Nat :=
  gain.zipIdx.foldl (fun rates x =>
    let top := even / 4
    let want := if top = 0 then 0 else 1 + Config.freeNat (fresh + 2 * x.2) % top
    let rot := Config.freeNat (fresh + 2 * x.2 + 1) % 32
    let order := (give.filter fun g => rot ≤ g) ++ give.filter fun g => g < rot
    let (r, n) := takeRate (ceilDiv even 2) order want rates
    r.modify x.1 (· + n)) rates

/-- The rates an adjustment starts from: those in force, or the even rates where the host has left another sum (R408; DESIGN CHOICE, log 48). -/
def PartSt.baseRates (x : PartSt) : List Nat :=
  let l := x.regs.map (·.rate)
  if l.foldl (· + ·) 0 = 32 * (4 * x.hbmShare) then l else List.replicate 32 (4 * x.hbmShare)

/-- REGULATOR_ADJUST (R408): every 1 ms in hardware mode. -/
def execRegulatorAdjust (part : PartNo) (waited : List Bool) (used : List Nat) (s : State) : Res :=
  .next <|
    if !(s.part part).present || s.devHost mBwTherm then s
    else
      let x := s.part part
      let gs := List.range 32
      let gain := gs.filter fun g => waited.getD g false
      let give := gs.filter fun g => !waited.getD g false && 2 * used.getD g 0 < s.windowTokens part g
      let rates := moveRates (4 * x.hbmShare) s.fresh gain give x.baseRates
      (s.bump (2 * gain.length)).modPart part fun x => { x with regs := x.regs.zipIdx.map fun r => { r.1 with rate := rates.getD r.2 0 } }

/-- A register write that does not apply is ignored and logged with its value (R560 HOST event 2). -/
def State.refuseWrite (s : State) (v : Word32) : State := s.logHost 2 .pf 0 scCommand 0 [(28, toLe 4 v.toNat)]

/-- PART_REG_RATE (R409, R410, R417): ignored in hardware mode; a write whose DEPTH is 0 or that breaks the group's sum is ignored and
logged. -/
def execPartRegRate (part : PartNo) (group : Nat) (value : Word32) (s : State) : Res :=
  .next <|
    if !s.barLive || !(s.part part).present || !s.devHost mBwTherm || 32 ≤ group then s
    else
      let rate := bits value.toNat 0 12
      let depth := bits value.toNat 16 12
      if depth = 0 || 4096 < rate + sumBy (fun x : PartSt => (x.regs.getD group {}).rate) (s.othersOf part) then s.refuseWrite value
      else s.modPart part fun x => { x with regs := x.regs.modify group fun _ => { rate := rate, depth := depth } }

/-! ### Accounting and slow-down -/

/-- PART_ACCT_CLEAR (R413). -/
def execPartAcctClear (value : Word32) (s : State) : Res :=
  .next <|
    if !s.barLive then s
    else
      (s.present.filter fun p => value.getLsbD p.val).foldl (fun s p => s.modPart p fun x => { x with acct := { resetStamp := s.now } }) s

/-- SLOWDOWN as 16 integer and 16 fraction bits (R414, R415). -/
def slowdownOf (useful stall : Nat) : Nat := if useful = 0 then 0xFFFFFFFF else min 0xFFFFFFFF (stall * 65536 / useful)

/-- SLOWDOWN_WINDOW (R414, R415): the end of a 10 ms window aligned to Thyme. -/
def execSlowdownWindow (part : PartNo) (useful hbm slm mesh pcie reg : Nat) (s : State) : Res :=
  .next <|
    let stop := s.now / 10000000 * 10000000
    if !(s.part part).present || stop ≤ (((s.part part).windows.head?).map (·.stamp)).getD 0 then s
    else
      let w : Window := { stamp := stop, useful := useful, hbm := hbm, slm := slm, mesh := mesh, pcie := pcie, reg := reg
                          slowdown := slowdownOf useful (hbm + slm + mesh + pcie) }
      s.modPart part fun x => { x with windows := (w :: x.windows).take 64 }

end Sys2Proof.Machine
end

