-- ==== Sys2Proof/Machine/Reset.lean ====
section
/-! DEFINITION. Resets (R45, R70 to R76, R590), the end of a data-path restart or start (R74), boot (R537 to R539), and the losses that
are resets (R551, R552, R585). -/

namespace Sys2Proof.Machine

/-! ### Functions (R70, R71, R83) -/

/-- Queue pairs, in-flight commands and queue registers of functions are cleared; journal writes that have not returned for them are abandoned
(R71). -/
def State.clearQueues (s : State) (f : Fn → Bool) : State :=
  let gone : Cmd → Bool := fun c => f c.fn && c.origin.isNone && !c.shadow
  let s : State := { s with cmds := s.cmds.map fun c => if gone c then { c with unjournaled := true } else c }
  let s := s.present.foldl State.jAbandon (s.endWhere gone)
  let s : State := { s with
    pairs := s.pairs.filter fun q => !f q.fn
    streams := s.streams.filter fun x => !(x.armedSince.isSome && f x.fn)
    atc := s.atc.filter fun x => !f x.1 }
  s.afterKill

/-- A function's registers at reset; the event registers, which the reset table does not name, and the AER sticky bits stay
(R70). -/
def FnSt.cleared (f : FnSt) : FnSt := { evCause := f.evCause, evMask := f.evMask, aer := f.aer }

/-- The VF FLR column (R70): contents and key are destroyed where the TDI was in CONFIG_LOCKED or RUN; unlocked mode bits return to 0
(R40). -/
def State.vfReset (s : State) (p : PartNo) : State :=
  let secure := s.tdiLocked p
  let s := (s.clearQueues (· == .vf p)).modFn (.vf p) FnSt.cleared
  let s := s.modPart p fun x => { x with modeWord := x.modeWord &&& x.modeLock }
  if secure && (s.part p).present then (s.destroyContents p).rekeyPart p else s

/-- The PF FLR column and with it every VF's (R70). -/
def State.pfReset (s : State) : State :=
  let s := (s.clearQueues fun _ => true).modFn .pf FnSt.cleared
  let s : State := { s with
    sec := { s.sec with ideProgrammed := [], ideSecure := [] }
    fw := { s.fw with sessions := s.fw.sessions.filter (·.1) } }
  allParts.foldl State.vfReset s

def State.cause (s : State) (bit : Nat) : State :=
  { s with hif := { s.hif with resetCause := s.hif.resetCause ||| BitVec.ofNat 32 (2 ^ bit) } }

/-- Hot reset and link-down act identically (R70): the link trains again. -/
def State.hotReset (s : State) (bit : Nat) : State :=
  let s := (s.cause bit).pfReset
  { s with hif := { s.hif with linkUp := false, linkTraining := true, linkWidth := 0, linkSpeed := 0, linkFlit := false } }

/-- HOT_RESET (R64, R70). -/
def execHotReset (s : State) : Res := .next <| if s.hif.linkUp then s.hotReset 4 else s

/-- LINK_DOWN (R64, R70). -/
def execLinkDown (s : State) : Res := .next <| if s.hif.linkUp then s.hotReset 3 else s

/-- What a link may train to (R43): x1 to x16 coded 0 to 4, 2.5 to 64.0 GT/s coded 1 to 6, and FLIT mode always at 64.0 GT/s. -/
def linkLegal (width speed : Nat) (flit : Bool) : Bool := width ≤ 4 && 1 ≤ speed && speed ≤ 6 && (speed != 6 || flit)

/-- LINK_UP (R43, R61, R73): the link enters DL_Active; the 100 MHz reference is there, and the PHY's supplies are good (R583, R585). In
recovery it trains at up to 16.0 GT/s (R539). -/
def execLinkUp (width speed : Nat) (flit : Bool) (s : State) : Res :=
  .next <|
    if !s.hif.linkTraining || s.pkg.perst || !s.pgOf 2 || !linkLegal width speed flit || (s.fw.stage == .recovery && 4 < speed) then s
    else
      { s with
        hif := { s.hif with linkUp := true, linkTraining := false, linkWidth := width, linkSpeed := speed, linkFlit := flit }
        pkg := { s.pkg with refPcieGood := true } }

/-- PF_FLR (R64, R70). -/
def execPfFlr (s : State) : Res := .next (s.cause 2).pfReset

/-- VF_FLR (R70). -/
def execVfFlr (part : PartNo) (s : State) : Res := .next (s.vfReset part)

/-- D3HOT_ENTRY (R45): every command of every function is killed without a completion. -/
def execD3hotEntry (s : State) : Res :=
  .next <|
    if (s.fnAt .pf).d3hot then s
    else ((s.endWhere fun c => c.origin.isNone && !c.shadow).afterKill).modFn .pf fun f => { f with d3hot := true }

/-- D0_TRANSITION (R45, R64): a PF function-level reset. -/
def execD0Transition (s : State) : Res := .next <| if (s.fnAt .pf).d3hot then (s.cause 2).pfReset else s

/-! ### PERST# (R70, R76, R590) -/

/-- The mesh block cleared (R470): every port DISABLED, sessions and routes gone. -/
def MeshSt.cleared : MeshSt := {}

/-- Commit phases that a reset finds begun finish their apply and stamp (R71); the contents they change are cleared by the same reset (R70), so
their stamps are what stays. -/
def State.stampCommitting (s : State) : State :=
  (s.cmds.filter fun c => c.phase == .committing).foldl (fun s _ => s.issued s.commitStamp) s

/-- A qualified assertion: it ends any other reset, and clears what R70 names. Fuses, Thyme, the log, the repair record and the
causes stay. -/
def State.perstOn (s : State) : State :=
  let s := ((((s.cause 5).unavailEnd s.present).setDevMode 0).stampCommitting).haltTgs
  let s : State := { s with
    cmds := []
    pairs := []
    locks := []
    ctxs := []
    streams := []
    ristretto := []
    semaphores := []
    atc := [] }
  let s := s.endTests.afterKill
  { s with
    hif := { s.hif with
      fatal := false
      dpReady := false
      dpRestarting := false
      scratch0 := 0
      scratch1 := 0
      linkTraining := false
      linkUp := false
      linkWidth := 0
      linkSpeed := 0
      linkFlit := false
      restartCause := none
      fwRestart := false }
    fns := s.fns.map FnSt.cleared
    parts := List.replicate 16 {}
    mesh := MeshSt.cleared
    pkg := { s.pkg with perst := true, perstSeen := false, perstPending := false, seqFails := 0 }
    power := { s.power with ps := 1, entry := none, wake := none, awake := false }
    fw := { s.fw with live := none, liveKilled := false, sessions := s.fw.sessions.filter (·.1), pciePhy := s.fw.active.digests.getD 4 [] }
    sec := { s.sec with
      debugState := if s.sec.fuses.debugClosed then .closed else .locked
      nonce := none
      debugPending := none
      peerFlags := 0
      peerTags := []
      ideProgrammed := []
      ideSecure := [] }
    hbm := { s.hbm with
      initDone := false
      scrubActive := false
      selfRefresh := false }
    ras := { s.ras with deviceOpen := none } }

/-- PERST_ASSERT (R590): before the boot ROM acts on PERST#, the assertion waits for that moment. -/
def execPerstAssert (s : State) : Res :=
  .next <|
    if !s.powered then { s with pkg := { s.pkg with perst := true } }
    else if s.fw.stage == .bootRom && !s.fw.pciePhyPassed then
      { s with pkg := { s.pkg with perst := true, perstSeen := true, perstPending := false } }
    else s.perstOn

/-- What a deassertion starts: link training and the data path, and the whole sequence where G1 had been given up (R73, R583, R586). -/
def State.perstOff (s : State) : State :=
  let s : State := { s with
    pkg := { s.pkg with perst := false, perstPending := false }
    hif := { s.hif with linkTraining := true, restartAt := s.time.clk } }
  (if s.powered && !s.enOf 1 && s.pkg.lostGroup.isNone then s.enGroup 1 true else s).tryStart

/-- The boot ROM begins to act on PERST#: on an assertion it has seen, and on a deassertion that qualified already (R538, R590). -/
def State.actOnPerst (s : State) : State :=
  let off := s.pkg.perstPending
  let s := if s.pkg.perstSeen then s.perstOn else s
  if off then s.perstOff else s

/-- PERST_DEASSERT (R73, R590): one that qualifies before the PCIe PHY component has passed its digest is acted on at that moment. -/
def execPerstDeassert (s : State) : Res :=
  .next <|
    if !s.pkg.perst then s
    else if !s.powered then { s with pkg := { s.pkg with perst := false } }
    else if s.fw.stage == .bootRom && !s.fw.pciePhyPassed then { s with pkg := { s.pkg with perstPending := true } }
    else s.perstOff

/-! ### Boot (R529, R530, R537 to R539) -/

/-- What identifies an image to the check of its owner's signature. -/
def imageSigned (i : Image) : Bytes := toLe 4 i.version.toNat ++ toLe 4 i.svn ++ toLe 4 i.length ++ i.digests.flatten ++ i.ownerKey

/-- The owner's part of R530: nothing while no owner key is fused. -/
def State.ownerAccepts (s : State) (i : Image) : Bool :=
  match s.sec.fuses.ownerKey with
  | none => true
  | some h => Config.sha512 i.ownerKey == h && Config.ownerSigOk h (imageSigned i)

/-- An image's fields pass R530 beside what Config.imageCheck decides. -/
def State.accepts (s : State) (i : Image) : Bool := i.pcieLen ≤ 2 ^ 20 && s.sec.fuses.svnFloor ≤ i.svn && s.ownerAccepts i

/-- BOOT_ERROR of a boot from the stored image; 0 where it passes (R537). -/
def State.bootErrorOf (s : State) (readable digestsOk : Bool) : Nat :=
  if !readable then 1
  else match s.fw.stored with
    | none => 2
    | some i =>
      if 2 ^ 20 < i.pcieLen then 2
      else if i.svn < s.sec.fuses.svnFloor then 4
      else if !s.ownerAccepts i then 5
      else if !digestsOk then 3
      else 0

/-- A FIRMWARE entry (R560, kind 0x0E). -/
def State.logFirmware (s : State) (event : Nat) (version : Nat) (scope : Nat := scSage) : State :=
  s.log { seq := 0, kind := kFirmware, scope := scope, detail := detail [(24, toLe 1 event), (28, toLe 4 version)] }

/-- The boot ROM runs (R537); a boot that fails enters recovery (R539). -/
def State.enterBoot (s : State) (err : Nat) : State :=
  let s : State := { s with
    hif := { s.hif with sageReady := false }
    fw := { s.fw with stage := .bootRom, pciePhyPassed := false, bootError := err } }
  if err = 0 then s
  else
    let s : State := { s with fw := { s.fw with stage := .recovery, pciePhyPassed := true, received := [] } }
    (s.logFirmware 4 s.fw.active.version.toNat).actOnPerst

/-- PCIE_PHY_DIGEST_PASSED (R538, R590): from now on the boot ROM acts on PERST#; a deassertion already qualified is acted on. -/
def execPciePhyDigestPassed (s : State) : Res :=
  .next <|
    if s.fw.stage != .bootRom || s.fw.bootError != 0 || s.fw.pciePhyPassed || !s.powered || !s.pgOf 1 then s
    else
      let img := s.fw.stored.getD s.fw.active
      let s : State := { s with fw := { s.fw with
        pciePhyPassed := true
        pciePhy := if s.pkg.perst then img.digests.getD 4 [] else s.fw.pciePhy } }
      s.actOnPerst

/-- STAGE_RUNNING (R537): Sage runs the stored image; a data-path start that waits for it begins. -/
def execStageRunning (s : State) : Res :=
  .next <|
    if s.fw.stage != .bootRom || s.fw.bootError != 0 || !s.fw.pciePhyPassed || !s.powered then s
    else
      ({ s with
        fw := { s.fw with stage := .running, active := s.fw.stored.getD s.fw.active, startedAt := s.time.clk }
        hif := { s.hif with sageReady := true } }).tryStart

/-- Restarts of Sage by the watchdog that lie within 10 s of now (R539). -/
def State.recentWatchdogs (s : State) : List Nat := s.fw.watchdogAt.filter fun t => s.time.clk < t + 250000000

/-- WATCHDOG (R30, R64, R539, R565): Sage restarts from the boot ROM and performs a data-path restart, from PS3 too; PERST# stands before
it (R76). The third within 10 s enters recovery. -/
def execWatchdog (s : State) : Res :=
  .next <|
    if s.fw.stage != .running then s
    else
      let l := s.recentWatchdogs ++ [s.time.clk]
      let s := if s.pkg.perst then s.cause 7 else (s.cause 7).startRestart .watchdog
      let s : State := { s with fw := { s.fw with watchdogAt := l } }
      s.enterBoot (if 3 ≤ l.length then 6 else s.bootErrorOf true true)

/-! ### VAON (R537, R551, R563) -/

/-- Both feeds lost: everything restarts but the fuses, the flash and the pins; channels follow the field-repair fuse bank. -/
def State.vaonLost (s : State) : State :=
  let t := s.dropGroups 1
  let channel : Nat → Channel → Channel := fun i c => if s.sec.fuses.repair.contains i then { c with state := .mappedOut } else c
  { State.reset with
    sec := {
      fuses := s.sec.fuses
      keyCount := s.sec.keyCount
      debugState := if s.sec.fuses.debugClosed then .closed else .locked }
    fw := { stored := s.fw.stored, boardBlock := s.fw.boardBlock }
    hbm := { channels := (List.replicate 256 ({} : Channel)).mapIdx channel }
    pkg := { perst := s.pkg.perst, addrSel := s.pkg.addrSel, mgmtVsel := s.pkg.mgmtVsel, refAonGood := s.pkg.refAonGood, refPcieGood := s.pkg.refPcieGood, refClGood := s.pkg.refClGood }
    out := t.out
    fresh := s.fresh
    nextCid := s.nextCid
    nextAdmit := s.nextAdmit
    pending := s.pending }

/-- VAON_LOSS (R551): both feeds are below 2.90 V. -/
def execVaonLoss (s : State) : Res := .next <| if s.powered then s.vaonLost else s

/-- VAON_POWER_ON (R537, R583): a feed is good after both had been lost; the boot ROM checks the image and asserts EN_G1. -/
def execVaonPowerOn (feedA feedB readable digestsOk : Bool) (s : State) : Res :=
  .next <|
    if s.powered || !(feedA || feedB) then s
    else
      let s : State := { s with pkg := { s.pkg with vaonAGood := feedA, vaonBGood := feedB, onB := !feedA }, time := {} }
      (s.enGroup 1 true).enterBoot (s.bootErrorOf readable digestsOk)

/-! ### Losses that are resets -/

/-- PG_LOSS (R585): the lost group and those above it fall; G1 or G2 is a link-down reset as well. -/
def execPgLoss (group : Nat) (s : State) : Res :=
  .next <|
    if group = 0 || 5 < group || !s.enOf group || !s.pgOf group then s
    else
      let low := if group ≤ 2 then 1 else group
      let s := if group ≤ 2 && s.hif.linkUp then s.hotReset 3 else s
      s.loseRails low

/-- REFCLK_PCIE_LOSS (R552): the link goes down, a link-down reset. -/
def execRefclkPcieLoss (s : State) : Res :=
  .next <|
    let s : State := { s with pkg := { s.pkg with refPcieGood := false } }
    if s.hif.linkUp then s.hotReset 3 else s

/-! ### Data-path restart (R63, R74) -/

/-- DP_RESTART (R63): a keyed write of HIF_CONTROL; ignored during a restart. -/
def execDpRestart (value : Word32) (s : State) : Res :=
  .next <|
    if bits value.toNat 8 8 = 0x5A && value.getLsbD 0 && !s.hif.dpRestarting && s.barLive then s.startRestart .request else s

/-- A cluster waiting to be reinstated passes the start-up items or stays bypassed (R569). -/
def State.reinstateAtStart (s : State) (bad : List Nat) (n : Nat) : State :=
  if (s.clusterAt n).state != .reinstatePending then s
  else if bad.contains n then s.modCluster n fun c => { c with state := .bypassed }
  else
    let saved := (s.clusterAt n).savedCores
    let core : Nat → Core → Core := fun i c =>
      if i / 9 == n && c.state == .bypassed then { c with state := saved.getD (i % 9) .active } else c
    let s : State := { s with ras := { s.ras with cores := s.ras.cores.mapIdx core } }
    (s.modCluster n fun c => { c with state := .active, savedCores := [], gated := true }).logCluster n 6 0 false true

/-- A peer's new epoch after a data-path restart (R476). -/
def Peer.renew (p : Peer) : Peer :=
  { p with epoch := (p.epoch + 1) % 256, txSeq := 0, unacked := [], early := [], unreachable := false, givenUp := [], probeSent := none }

/-- A SET_POWER_STATE that waited for the path finishes in its state; to PS2 it goes on with its entry (R120, R553). -/
def State.wakeDone (s : State) (w : Option (Nat × Nat)) : State :=
  match w with
  | some (cid, target) => if target < 2 then ({ s with power := { s.power with ps := target } }).finish cid {} else s
  | none => s

/-- Admin pairs are armed again, empty, from the base and size registers where their function's ENABLE is set (R70, R74 step 4, R83); commands
they hold stay to be run (R75; DEDUCED, log 20). -/
def State.rearm (s : State) : State :=
  let s : State := { s with pairs := s.pairs.filter fun q => q.qid != 0 || !(s.fnAt q.fn).qmEnable }
  allFns.foldl (fun s fn => if (s.fnAt fn).qmEnable then s.armAdmin fn else s) s

/-- A debug opening that waited for the restart (R527). -/
def State.openDebug (s : State) : State :=
  match s.sec.debugPending with
  | none => s
  | some level =>
    if s.sec.debugState == .closed then { s with sec := { s.sec with debugPending := none } }
    else
      ({ s with sec := { s.sec with debugPending := none, debugState := if level = 2 then .openFull else .openObserve } }).logSecurity 2 level scSage

/-- A core that fails its item at the start-up barrier (R383, R563) fails and is spared (R566); a spare that fails it is FAILED. -/
def State.failAtStart (s : State) (n : Nat) : State :=
  if (s.coreAt n).state == .spare then (s.modCore n fun c => { c with state := .failed }).logCore n 4 else s.coreFail n 4

/-- The reserve gets a new key (R502). -/
def State.newReserveKey (s : State) : State :=
  let s := s.newKey
  { s with sec := { s.sec with reserveKey := s.sec.keyCount } }

/-- What start-up initialises: HBM, clusters that wait to be reinstated, every partition's contents and key, the reserve key (R74 step 3). -/
def State.pathInit (s : State) (deadLanes : List (Nat × Nat)) (badChannels badClusters : List Nat) : State :=
  let s := (s.cmds.filter fun c => c.orphan).foldl (fun s c => s.drop c.id) s.stampCommitting
  let s := s.hbmInit deadLanes badChannels
  let s := (List.range 16).foldl (fun s n => s.reinstateAtStart badClusters n) s
  (s.present.foldl (fun (s : State) p => (s.modPart p PartSt.lost).rekeyPart p) { s with slm := {} }).newReserveKey

/-- The data path is ready (R74 step 4): DP_READY is set, the peers' epochs are new. -/
def State.pathReady (s : State) : State :=
  { s with
    hif := { s.hif with dpReady := true, dpRestarting := false, restartCause := none, fwRestart := false }
    power := { s.power with ps := 1, wake := none, awake := false, idleSince := s.time.clk }
    ras := { s.ras with deviceOpen := none }
    mesh := { s.mesh with peers := s.mesh.peers.map Peer.renew } }

/-- Clusters and cores that fail the start-up barrier (R383, R563), and the capacity that is left. -/
def State.pathFail (s : State) (badClusters badCores : List Nat) : State :=
  let s := (badClusters.filter fun n => (s.clusterAt n).state == .active).foldl (fun s n => s.bypass n 2) s
  let s := badCores.foldl State.failAtStart s
  (s.recap.gateAll false).unavailEnd (s.present.filter fun p => !(s.clustersOf p).isEmpty)

/-- DP_DONE (R74 steps 3 and 4, R120): clusters, SLM and HBM are initialised, map-outs and bypasses applied, keys regenerated, admin pairs
armed again, DP_READY set. -/
def execDpDone (deadLanes : List (Nat × Nat)) (badChannels badClusters badCores : List Nat) (s : State) : Res :=
  .next <|
    if !s.starting || !s.pkg.pg.all id then s
    else
      let restart := s.hif.dpRestarting
      let activated := s.hif.fwRestart
      let wake := s.power.wake
      let s := (s.pathInit deadLanes badChannels badClusters).pathReady.pathFail badClusters badCores
      let s := (if restart || wake.isSome then (s.rearm).raiseAll evDpDone allParts else s).openDebug
      let s := if activated then (s.raise .pf evFwActivated).logFirmware 3 s.fw.active.version.toNat else s
      (s.wakeDone wake).releaseHeld

end Sys2Proof.Machine
end

