-- ==== Sys2Proof/Machine/Security.lean ====
section
/-! DEFINITION. SECURITY_SEND and SECURITY_RECEIVE (R506 to R511), measurements (R512 to R514), the debug port (R526 to R528). -/

namespace Sys2Proof.Machine

/-! ### Measurements (R512 to R514) -/

def DebugState.code : DebugState → Nat
  | .locked => 0 | .openObserve => 1 | .openFull => 2 | .closed => 3

def TdiState.code : TdiState → Nat
  | .unlocked => 0 | .locked => 1 | .run => 2 | .error => 3

/-- Measurement block 9 (R513). -/
def State.debugBlock (s : State) : Bytes :=
  fit 64 (toLe 1 s.sec.debugState.code ++ toLe 1 (s.sec.fuses.ownerKey.isSome.toNat + 2 * s.sec.fuses.debugClosed.toNat) ++
    toLe 1 s.sec.fuses.repair.length ++ zeros 5 ++ s.ownerTag ++ fit 16 Config.identityTag ++ fit 16 Config.bindingTag)

/-- GRANULE_TAG (R514). -/
def PartSt.granuleTag (x : PartSt) : Bytes :=
  fit 16 (Config.sha512 ((sortBy (fun a b : Nat => decide (a < b)) x.granules).flatMap (toLe 2)))

/-- A partition's entry of measurement block 10 (R514). -/
def State.layoutEntry (s : State) (p : PartNo) : Bytes :=
  let x := s.part p
  if !x.present then fit 48 (toLe 1 p.val)
  else
    toLe 1 p.val ++ toLe 1 (1 + 2 * x.borrow.toNat + 16 * (s.fnAt (.vf p)).tdi.code) ++ toLe 2 x.clusters.toNat ++ toLe 1 x.scratch ++
    toLe 1 x.meshShare ++ toLe 2 x.hbmShare ++ toLe 2 x.granules.length ++ toLe 2 x.qpQuota ++ toLe 1 (p.val + 1) ++ zeros 3 ++
    toLe 4 (x.feat 0x80) ++ toLe 4 (s.modeOf p).toNat ++ toLe 4 x.modeLock.toNat ++ zeros 4 ++ x.granuleTag

/-- A measurement's DMTF type, whether it is raw, and its content (R512); on a VF's path block 10 is its own entry (R514). -/
def State.measurement (s : State) (path : Option PartNo) (index : Nat) : Option (Nat × Bool × Bytes) :=
  let digest := fun i => fit 64 (s.fw.active.digests.getD i [])
  match index with
  | 1 => some (0, false, fit 64 Config.bootRomDigest)
  | 2 => some (1, false, digest 0)
  | 3 => some (1, false, digest 1)
  | 4 => some (1, false, digest 2)
  | 5 => some (1, false, digest 3)
  | 6 => some (1, false, fit 64 s.fw.pciePhy)
  | 7 => some (6, true, toLe 4 s.fw.active.version.toNat)
  | 8 => some (7, true, toLe 4 s.fw.active.svn ++ toLe 4 s.sec.fuses.svnFloor)
  | 9 => some (2, true, s.debugBlock)
  | 10 => some (3, true, match path with | none => allParts.flatMap s.layoutEntry | some p => s.layoutEntry p)
  | 11 => some (2, true, slice (s.identifyDevice .pf) 0x14 92)
  | _ => none

/-- A block in DMTF measurement form (PRESUMED from SPDM 1.3, log 24): index, specification, size, type, value size, value. -/
def dmtfBlock (index : Nat) (m : Nat × Bool × Bytes) : Bytes :=
  let n := m.2.2.length
  toLe 1 index ++ [1] ++ toLe 2 (n + 3) ++ toLe 1 (m.1 + (if m.2.1 then 0x80 else 0)) ++ toLe 2 n ++ m.2.2

/-- The blocks a request names: one, or all with 0xFF. -/
def State.measurements (s : State) (path : Option PartNo) (index : Nat) : List Bytes :=
  (if index = 0xFF then (List.range 11).map (· + 1) else [index]).filterMap fun i => (s.measurement path i).map (dmtfBlock i)

/-- An SPDM error response: an error code and its data. -/
def spdmError (code data : Nat) : Bytes := toLe 1 0x13 ++ toLe 1 0x7F ++ toLe 1 code ++ toLe 1 data

/-- The MEASUREMENTS response: every block taken at this instant (R512); what follows the blocks is the standard's and open here. -/
def State.measResponse (s : State) (path : Option PartNo) (index : Nat) : Bytes :=
  let l := s.measurements path index
  if index != 0 && l.isEmpty then spdmError 1 0
  else
    toLe 1 0x13 ++ toLe 1 0x60 ++ toLe 1 (if index = 0 then 11 else 0) ++ toLe 1 0 ++ toLe 1 l.length ++
    toLe 3 l.flatten.length ++ l.flatten ++ Config.spdmAnswer s.fresh (toLe 1 index)

/-- GET_MEASUREMENTS (R512). -/
def execGetMeasurements (index : Nat) (path : Option PartNo) (s : State) : Res :=
  .next <| if s.barLive then (s.emit (.message "MEASUREMENTS" (s.measResponse path index))).bump else s

/-! ### Secured sessions (R511, R533) -/

/-- Sessions a path offers: four on the DOE mailbox, one over MCTP (R511, R533). -/
def sessionLimit (mctp : Bool) : Nat := if mctp then 1 else 4

/-- Whether a KEY_EXCHANGE finds its path without a free session. -/
def State.sessionsFull (s : State) (mctp : Bool) : Bool :=
  sessionLimit mctp ≤ (s.fw.sessions.filter fun x => x.1 == mctp).length

/-- The first session that fits a test is changed, or taken out. -/
def editFirst (f : Bool × Bool → Bool) (g : Option (Bool × Bool)) : List (Bool × Bool) → List (Bool × Bool)
  | [] => []
  | x :: l => if f x then g.toList ++ l else x :: editFirst f g l

/-- What a request does to the sessions of its path: KEY_EXCHANGE (0xE4) opens one, FINISH (0xE5) secures the oldest that it has not yet
secured, END_SESSION (0xEC) ends the oldest secured one (codes and order PRESUMED from SPDM 1.3, log 24). -/
def State.sessionStep (s : State) (mctp : Bool) (msg : Bytes) : State :=
  let l := s.fw.sessions
  let l' := match rd msg 1 1 with
    | 0xE4 => if s.sessionsFull mctp then l else l ++ [(mctp, false)]
    | 0xE5 => editFirst (· == (mctp, false)) (some (mctp, true)) l
    | 0xEC => editFirst (· == (mctp, true)) none l
    | _ => l
  { s with fw := { s.fw with sessions := l' } }

/-- The answer to a request on a path that carries sessions: SessionLimitExceeded where none is free (PRESUMED code 0x0A, log 24), else the
standard's. -/
def State.sessionReply (s : State) (mctp : Bool) (msg : Bytes) : Bytes :=
  if rd msg 1 1 = 0xE4 && s.sessionsFull mctp then spdmError 0x0A 0 else Config.spdmAnswer s.fresh msg

/-- Whether the TSM can reach Sage: a secured session stands on the DOE mailbox (R52, R511, R515). -/
def State.tsmLive (s : State) : Bool := s.barLive && s.fw.sessions.contains (false, true)

/-- SPDM_REQUEST (R511): any other request on the DOE mailbox; the answer is the standard's. -/
def execSpdmRequest (msg : Bytes) (s : State) : Res :=
  .next <| if s.barLive then ((s.sessionStep false msg).emit (.message "SPDM" (s.sessionReply false msg))).bump else s

/-! ### The body of SECURITY_SEND and SECURITY_RECEIVE (R507, R508) -/

def Cmd.secp (c : Cmd) : Nat := c.f 16 1
def Cmd.secOp (c : Cmd) : Nat := c.f 17 1
def Cmd.secLen (c : Cmd) : Nat := c.f 20 4

/-- The buffer's bytes. -/
def Cmd.secBuf (c : Cmd) : Bytes := fit c.secLen c.input

/-- An operation of SECP 0xE0. -/
def Cmd.isSeal (c : Cmd) (op : Nat) : Bool := c.secp == 0xE0 && c.secOp == op

/-- The partition an operation of partition scope acts on: the VF's own, or the one the PF names in byte 18 (R508). -/
def State.secPart (s : State) (c : Cmd) : Option PartNo :=
  match c.fn with
  | .vf p => some p
  | .pf => if c.f 18 1 < 16 && (s.part (Fin.ofNat 16 (c.f 18 1))).present then some (Fin.ofNat 16 (c.f 18 1)) else none

/-- CONFIRM of the fuse operations (R507). -/
abbrev fuseConfirm := 0x46555345

/-- The checks of every operation: reserved bytes, the buffer, CONFIRM (R507). `partOp`: byte 18 may name a partition. -/
def Cmd.secErr (c : Cmd) (partOp : Bool) (top : Nat) (confirm : List Nat) : Option Err :=
  firstErr
    [ reservedErr c.packet 0 ((if partOp && c.fn == .pf then [(19, 1)] else [(18, 2)]) ++ [(36, 28)]),
      failIf (c.secLen = 0 || top < c.secLen) (errAt stInvalidField 20), failIf (c.f 24 8 % 4096 != 0) (errAt stInvalidField 24),
      failIf (!confirm.contains (c.f 32 4)) (errAt stInvalidField 32) ]

/-- An operation of partition scope (R508). -/
def State.secPartErr (s : State) (c : Cmd) (top : Nat) : Option Err :=
  firstErr
    [ c.secErr true top [0],
      match s.secPart c with
      | none => some (errAt stInvalidField 18)
      | some p => failIf (c.fn == .pf && s.tdiLocked p) { st := stTdiState } ]

/-- An operation of the PF. -/
def Cmd.secPfErr (c : Cmd) (confirm : List Nat) : Option Err :=
  firstErr [failIf (c.fn != .pf) { st := stNotPermitted }, c.secErr false 65536 confirm]

/-- A response of SECURITY_RECEIVE: the bytes and their number, or 0x2002 where it is longer than LENGTH (R507). -/
def State.secReply (s : State) (c : Cmd) (b : Bytes) : State :=
  if c.secLen < b.length then s.fail c.id stInvalidField (toLe 4 20)
  else (s.writeOut c [.hostWrite c.fn (c.f 24 8) b]).finish c.id { count := b.length }

/-! ### SECP 0x01 (R507, R511) -/

/-- The answer to an SPDM message on a function's SECP 0x01 path: KEY_EXCHANGE (0xE4) is refused, GET_MEASUREMENTS (0xE0) gives the
blocks of R512; every other answer is the standard's. -/
def State.spdmReply (s : State) (fn : Fn) (msg : Bytes) : Bytes :=
  match rd msg 1 1 with
  | 0xE4 => spdmError 7 0xE4
  | 0xE0 => s.measResponse fn.part? (rd msg 3 1)
  | _ => Config.spdmAnswer s.fresh msg

/-- The operations of SECP 0xE0 that are sent, and those that are received. -/
def sendOps : List Nat := [0x02, 0x04, 0x05, 0x06, 0x07]
def receiveOps : List Nat := [0x01, 0x03]

/-- SECURITY_SEND of an SPDM request; every SECP or OP without a row of its own gives 0x2002. -/
def execSecuritySend (cid : Nat) (s : State) : Res :=
  .next <| s.admin cid 0x0D (fun c => !(c.secp == 0xE0 && sendOps.contains c.secOp))
    (fun c => firstErr [failIf (c.secp != 1 && c.secp != 0xE0) (errAt stInvalidField 16),
      failIf (c.secp == 0xE0) (errAt stInvalidField 17), reservedErr c.packet 0 [(17, 1)], c.secErr false 65536 [0]])
    fun c => ((s.modFn c.fn fun f => { f with spdmResp := some (s.spdmReply c.fn c.secBuf) }).bump).finish cid {}

/-- SECURITY_RECEIVE of the pending SPDM response; with none pending it returns no bytes (DESIGN CHOICE, log 24). -/
def execSecurityReceive (cid : Nat) (s : State) : Res :=
  .next <| s.admin cid 0x0E (fun c => !(c.secp == 0xE0 && receiveOps.contains c.secOp))
    (fun c => firstErr [failIf (c.secp != 1 && c.secp != 0xE0) (errAt stInvalidField 16),
      failIf (c.secp == 0xE0) (errAt stInvalidField 17), reservedErr c.packet 0 [(17, 1)], c.secErr false 65536 [0]])
    fun c =>
      let b := ((s.fnAt c.fn).spdmResp).getD []
      let t := if c.secLen < b.length then s else s.modFn c.fn fun f => { f with spdmResp := none }
      t.secReply c b

/-! ### SECP 0xE0 (R508 to R510) -/

/-- BINDING_CERT (R508): the certificate bundle. -/
def execBindingCert (cid : Nat) (s : State) : Res :=
  .next <| s.admin cid 0x0E (·.isSeal 0x01) (·.secErr false 65536 [0])
    fun c => s.secReply c (fit 16 (toLe 4 3) ++ Config.certBundle)

/-- DEVICE_SET (R508): COUNT and the identity tags of the declared set. -/
def execDeviceSet (cid : Nat) (s : State) : Res :=
  .next <| s.admin cid 0x0E (·.isSeal 0x03) (fun c => s.secPartErr c 65536) fun c =>
    match s.secPart c with
    | some p =>
      let l := s.declaredSet p
      s.secReply c (fit 16 (toLe 4 l.length) ++ l.flatMap fun d => fit 16 d.1)
    | none => s

/-- Certificates from a byte string, each after its length: the bytes they take; none where one is longer than 4 KiB or cut short. -/
def certsLen : Nat → Bytes → Option Nat
  | 0, _ => some 0
  | n + 1, b =>
    let len := rd b 0 4
    if b.length < 4 + len || 4096 < len then none else (certsLen n (b.drop (4 + len))).map (4 + len + ·)

/-- Bundles from a byte string, in the form that BINDING_CERT returns (R509): the identity and binding tags they certify; none where
one does not parse or verify. -/
def readBundles : Nat → Bytes → Option (List (Bytes × Bytes))
  | 0, _ => some []
  | n + 1, b =>
    if rd b 0 4 != 3 || !isZero b 4 12 then none
    else
      match certsLen 3 (b.drop 16) with
      | none => none
      | some len =>
        match Config.bundleTag (slice b 16 len), readBundles n (b.drop (16 + len)) with
        | some t, some l => some ((fit 16 t.1, fit 16 t.2) :: l)
        | _, _ => none

/-- Whether a list names no device twice. -/
def distinct : List Bytes → Bool
  | [] => true
  | t :: l => !l.contains t && distinct l

/-- The declared devices that a DECLARE_SET carries, where they may be declared (R509). -/
def Cmd.declared (c : Cmd) : Option (List (Bytes × Bytes)) :=
  (readBundles (rd c.secBuf 0 4) (c.secBuf.drop 16)).filter fun l => distinct (fit 16 Config.identityTag :: l.map (·.1))

/-- DECLARE_SET (R509). -/
def execDeclareSet (cid : Nat) (s : State) : Res :=
  .next <| s.admin cid 0x0D (·.isSeal 0x02)
    (fun c => firstErr [s.secPartErr c 1048576, failIf (c.secLen < 16) (errAt stInvalidField 20),
      failIf (63 < rd c.secBuf 0 4) (errAt stInvalidField 24), failIf (!isZero c.secBuf 4 12) (errAt stReserved 24),
      failIf c.declared.isNone (errAt stInvalidField 24)])
    fun c =>
      match s.secPart c, c.declared with
      | some p, some l => (s.modPart p fun x => { x with declared := l }).finish cid {}
      | _, _ => s

/-- Ports whose peers fail a new policy go DOWN; each is logged (R506). -/
def State.enforcePolicy (s : State) : State :=
  ((List.range 8).filter fun n => (s.portAt n).usable && !s.peerAllowed (s.portAt n).peerTag (s.portAt n).peerDebug).foldl
    (fun s n => (s.logSecurity 3 0 scDevice).movePort n .down) s

/-- PEER_POLICY (R506). -/
def execPeerPolicy (cid : Nat) (s : State) : Res :=
  .next <| s.admin cid 0x0D (·.isSeal 0x04)
    (fun c => firstErr [c.secPfErr [0], failIf (c.secLen < 16) (errAt stInvalidField 20),
      failIf (8 ≤ rd c.secBuf 0 4) (errAt stReserved 24), failIf (1024 < rd c.secBuf 4 4) (errAt stInvalidField 24),
      failIf (!isZero c.secBuf 8 8) (errAt stReserved 24),
      failIf (c.secLen < 16 + 16 * rd c.secBuf 4 4) (errAt stInvalidField 20)])
    fun c =>
      let n := rd c.secBuf 4 4
      let t : State := { s with sec := { s.sec with
        peerFlags := BitVec.ofNat 32 (rd c.secBuf 0 4)
        peerTags := (List.range n).map fun i => slice c.secBuf (16 + 16 * i) 16 } }
      t.enforcePolicy.finish cid {}

/-! ### Fuses (R510, R528, R531) -/

def State.modFuses (s : State) (f : Fuses → Fuses) : State := { s with sec := { s.sec with fuses := f s.sec.fuses } }

/-- A fuse has been blown: logged with its number. -/
def State.blown (s : State) (which : Nat) : State := s.logSecurity 1 (Config.fuseNumber which).toNat scSage

/-- FUSE_OWNER_KEY (R508, R510): SHA-512 of the modulus in the buffer, once. -/
def execFuseOwnerKey (cid : Nat) (s : State) : Res :=
  .next <| s.admin cid 0x0D (·.isSeal 0x05)
    (fun c => firstErr [c.secPfErr [fuseConfirm], failIf (c.secLen != 512) (errAt stInvalidField 20),
      failIf s.sec.fuses.ownerKey.isSome { st := stNotPermitted }])
    fun c => ((s.modFuses fun f => { f with ownerKey := some (Config.sha512 c.secBuf) }).blown 0).finish cid {}

/-- FUSE_DEBUG_CLOSE (R510, R515, R528): the port is CLOSED. -/
def execFuseDebugClose (cid : Nat) (s : State) : Res :=
  .next <| s.admin cid 0x0D (·.isSeal 0x06) (·.secPfErr [fuseConfirm]) fun _ =>
    if s.sec.fuses.debugClosed then s.finish cid {}
    else
      let t := s.modFuses fun f => { f with debugClosed := true }
      (({ t with sec := { t.sec with debugState := .closed, debugPending := none } }).blown 1).finish cid {}

/-- COMMIT_SVN (R531): the floor rises to the active image's SVN, in 63 steps at most. -/
def execCommitSvn (cid : Nat) (s : State) : Res :=
  .next <| s.admin cid 0x0D (·.isSeal 0x07) (·.secPfErr [0, fuseConfirm]) fun _ =>
    let new := min 63 s.fw.active.svn
    if new ≤ s.sec.fuses.svnFloor then s.finish cid {}
    else ((s.modFuses fun f => { f with svnFloor := new }).blown 2).finish cid {}

/-! ### The debug port (R526, R527) -/

/-- Whether an import runs (R525, R527). -/
def State.importing (s : State) : Bool :=
  s.cmds.any fun c => !c.isAdmin && c.op == 0x22 && (c.phase == .running || c.phase == .flushing || c.phase == .committing)

/-- Whether an opening at a level needs a data-path restart first: level 2, or a collection held that was imported with a DEBUG_REQ
(R527). -/
def State.debugRestarts (s : State) (level : Nat) : Bool :=
  level == 2 || s.parts.any fun x => x.colls.any fun k => k.imported && !k.dropping && 1 ≤ k.debugReq

/-- A debug opening granted goes ahead once no import runs: at once, or by a data-path restart (R527). -/
def State.settleDebug (s : State) : State :=
  match s.sec.debugPending with
  | none => s
  | some level =>
    if s.hif.dpRestarting || s.importing then s
    else if s.debugRestarts level then s.startRestart .request
    else s.openDebug

/-- DEBUG_CHALLENGE (R527): a nonce and the serial number. -/
def execDebugChallenge (s : State) : Res :=
  .next <|
    if !s.powered || s.sec.debugState == .closed then s
    else
      let n := fit 32 (Config.freeBytes s.fresh 32)
      (({ s with sec := { s.sec with nonce := some { value := n, issuedAt := s.phys } } }).emit (.challenge n Config.serial)).bump

/-- Whether a token's nonce is the one issued, at most 60 s ago. -/
def State.nonceOk (s : State) (nonce : Bytes) : Bool :=
  match s.sec.nonce with
  | some n => n.value == nonce && s.phys ≤ n.issuedAt + 60000000000
  | none => false

/-- What the owner signs of a token: the serial number, the nonce and the level (R527). -/
def tokenSigned (serial : Word64) (nonce : Bytes) (level : Nat) (sig : Bytes) : Bytes := toLe 8 serial.toNat ++ nonce ++ toLe 1 level ++ sig

/-- Whether a token is valid (R527): Mumbion's signature, and the owner's where a key is fused. -/
def State.tokenOk (s : State) (serial : Word64) (nonce : Bytes) (level : Nat) (sig ownerSig : Bytes) : Bool :=
  serial == Config.serial && s.nonceOk nonce && (level == 1 || level == 2) && Config.debugSigOk serial nonce level sig &&
  match s.sec.fuses.ownerKey with
  | some h => Config.ownerSigOk h (tokenSigned serial nonce level ownerSig)
  | none => true

/-- DEBUG_TOKEN (R527): a valid token opens the port at once or after a restart; its nonce is spent. -/
def execDebugToken (serial : Word64) (nonce : Bytes) (level : Nat) (sig ownerSig : Bytes) (s : State) : Res :=
  .next <|
    if !s.powered || s.sec.debugState == .closed || !s.tokenOk serial nonce level sig ownerSig then s
    else State.settleDebug { s with sec := { s.sec with nonce := none, debugPending := some level } }

/-- DEBUG_LOCK (R526): the port is LOCKED again. -/
def execDebugLock (s : State) : Res :=
  .next <|
    if s.sec.debugState == .closed then s
    else { s with sec := { s.sec with debugState := .locked, debugPending := none } }

end Sys2Proof.Machine
end

