-- ==== Sys2Proof/Machine/Firmware.lean ====
section
/-! DEFINITION. Firmware transfers and activation (R525, R540 to R543), by command and by PLDM. -/

namespace Sys2Proof.Machine

/-! ### Loading (R530, R540, R541) -/

/-- The image a byte string holds, where every check of R530 passes. -/
def State.verified (s : State) (b : Bytes) : Option Image := (Config.imageCheck b).filter s.accepts

/-- The stored image is written: a failed flash write or read-back leaves it invalid (R540). -/
def State.flash (s : State) (i : Image) (ok : Bool) : State :=
  { s with fw := { s.fw with stored := if ok then some i else none } }

/-- A new image is stored, and logged. -/
def State.loaded (s : State) (i : Image) : State := (s.flash i true).logFirmware 1 i.version.toNat

def loadErr (c : Cmd) : Option Err :=
  firstErr
    [ reservedErr c.packet 0 [(26, 2), (32, 32)], failIf (c.f 28 4 < 4096 || 2 ^ 25 < c.f 28 4) (errAt stInvalidField 28),
      scatterErr (c.f 16 8) (c.f 24 2) c.data.inList (c.f 28 4) ]

/-- The load ends: checked, written, read back (R540). -/
def State.endLoad (s : State) (c : Cmd) (flashOk : Bool) : State :=
  let t : State := { s with fw := { s.fw with transfer := .none } }
  match s.verified (fit (c.f 28 4) c.input) with
  | none => t.fail c.id stSignature
  | some i =>
    if flashOk then (t.loaded i).finish c.id { count := i.version.toNat }
    else (t.flash i false).fail c.id stInternal

/-- FIRMWARE_LOAD (R540, R541): the first run takes the one transfer of the device, in admission order and not while a PLDM update holds
update mode; the second ends it. -/
def execFirmwareLoad (cid : Nat) (flashOk : Bool) (s : State) : Res :=
  .next <|
    match s.cmd? cid with
    | none => s
    | some c =>
      if c.isAdmin && c.op == 0x0B && c.phase == .flushing then
        if s.fw.transfer == .load cid then s.endLoad c flashOk else s
      else
        s.admin cid 0x0B (fun _ => true) loadErr fun _ =>
          if s.fw.transfer != .none || s.cmds.any fun d => d.id < cid && d.isAdmin && d.op == 0x0B && d.phase == .ready then s
          else ({ s with fw := { s.fw with transfer := .load cid } }).modCmd cid fun c => { c with phase := .flushing }

/-! ### Activation (R525, R542) -/

/-- Whether a collection held forbids an image: its version lies below the MIN_FW of an import (R525). -/
def State.minFwForbids (s : State) (i : Image) : Bool :=
  s.parts.any fun x => x.colls.any fun k => k.imported && !k.dropping && i.version.toNat < k.minFw.toNat

/-- What forbids the activation of the stored image: its status, or none (R525, R542). -/
def State.activateErr (s : State) : Option Err :=
  match s.fw.stored with
  | none => some { st := stActivation }
  | some i => failIf (s.minFwForbids i) { st := stPolicy }

/-- Whether a LIVE activation may take an image: only its recipes differ from what runs (R542). -/
def State.liveFits (s : State) (i : Image) : Bool :=
  i.digests.length == s.fw.active.digests.length && i.digests.getD 4 [] == s.fw.pciePhy &&
  [0, 2, 3].all fun n => i.digests.getD n [] == s.fw.active.digests.getD n []

def State.liveErr (s : State) (c : Cmd) : Option Err :=
  firstErr
    [ reservedErr c.packet 0 [(17, 47)], failIf (1 < c.f 16 1) (errAt stInvalidField 16), s.activateErr,
      match s.fw.stored with
      | some i => failIf (!s.liveFits i) (errAt stInvalidField 16)
      | none => none,
      failIf (s.power.ps == 3) { st := stDataPathOff } ]

/-- Whether a load runs that an activation waits for (R542). -/
def Transfer.loading : Transfer → Bool
  | .load _ => true
  | _ => false

/-- The last step of a LIVE activation (R543): the new recipes run, admission resumes. -/
def State.endLive (s : State) (cid : Nat) : State :=
  let t : State := { s with fw := { s.fw with live := none, liveKilled := false, active := s.fw.stored.getD s.fw.active } }
  ((t.raise .pf evFwActivated).logFirmware 2 t.fw.active.version.toNat).finish cid {}

/-- FIRMWARE_ACTIVATE_LIVE (R542, R543): the first run stops admission; once the contexts have been killed and are gone, the second ends
the activation. -/
def execFirmwareActivateLive (cid : Nat) (s : State) : Res :=
  .next <|
    match s.cmd? cid with
    | none => s
    | some c =>
      if c.isAdmin && c.op == 0x0C && c.f 16 1 != 1 && c.phase == .flushing then
        if s.fw.liveKilled && !s.ctxs.any (fun x => x.state != .leaving) then s.endLive cid else s
      else
        s.onCmd cid (fun c => c.adminReady 0x0C && c.f 16 1 != 1 && s.depMet c) fun c =>
          if s.fw.transfer.loading || s.fw.live.isSome then s
          else
            match s.liveErr c with
            | some e => s.fail cid e.st e.cause
            | none =>
              ({ s with fw := { s.fw with live := some (cid, s.time.clk), liveKilled := false } }).modCmd cid fun c => { c with phase := .flushing }

/-- ACTIVATION_KILL (R543): 1.0 ms after admission every command with a context not COMMITTING is killed for re-run; these kills count
for nothing. -/
def execActivationKill (s : State) : Res :=
  .next <|
    match s.fw.live with
    | none => s
    | some (_, t) =>
      if s.fw.liveKilled || s.time.clk < t + 25000 then s
      else
        let l := ((s.ctxs.filter fun x => x.state != .leaving && x.state != .committing).map (·.cid)).eraseDups
        let s := l.foldl (fun s cid => s.killRerun cid false) s
        { s with fw := { s.fw with liveKilled := true } }

/-- Sage restarts from the boot ROM, which boots the stored image and restarts the data path (R542). -/
def State.restartFirmware (s : State) : State :=
  let t := s.startRestart .request
  ({ t with hif := { t.hif with fwRestart := true } }).enterBoot (t.bootErrorOf true true)

/-- A completion written at once; none where it cannot be (R86). -/
def State.postNow (s : State) (cid : Nat) : Option State :=
  match execCompletionPosted ⟨cid, false⟩ s with
  | .next t => if (t.cmd? cid).isNone then some t else none
  | _ => none

/-- FIRMWARE_ACTIVATE_RESTART (R542): the completion is written first. -/
def execFirmwareActivateRestart (cid : Nat) (s : State) : Res :=
  .next <|
    s.onCmd cid (fun c => c.adminReady 0x0C && c.f 16 1 == 1 && s.depMet c) fun c =>
      if s.fw.transfer.loading then s
      else
        match firstErr [reservedErr c.packet 0 [(17, 47)], s.activateErr] with
        | some e => s.fail cid e.st e.cause
        | none =>
          match (s.finish cid {}).postNow cid with
          | some t => t.restartFirmware
          | none => s

/-! ### Updates by PLDM (R533, R539, R541) -/

/-- What answers a PLDM request. -/
def State.pldmSay (s : State) (name : String) : State := s.emit (.message name [])

/-- Whether PLDM is served: by Sage, or in recovery (R537, R539). -/
def State.mgmtLive (s : State) : Bool := s.fw.stage == .running || s.fw.stage == .recovery

/-- REQUEST_UPDATE (R541). -/
def execRequestUpdate (s : State) : Res :=
  .next <|
    if !s.mgmtLive then s
    else if s.fw.transfer != .none then s.pldmSay "ALREADY_IN_UPDATE_MODE"
    else ({ s with fw := { s.fw with transfer := .pldm } } : State).pldmSay "UPDATE_MODE"

/-- The stored image is booted from step 5 of R537 (R539). -/
def State.bootStored (s : State) : State := s.enterBoot (s.bootErrorOf true true)

/-- APPLY_COMPLETE (R539, R541): the image of an update is checked and written as FIRMWARE_LOAD does; in recovery it is then booted. A
failure leaves update mode (DESIGN CHOICE, log 26). -/
def execApplyComplete (image : Bytes) (flashOk : Bool) (s : State) : Res :=
  .next <|
    if !s.mgmtLive || s.fw.transfer != .pldm then s
    else
      let idle : State := { s with fw := { s.fw with transfer := .none } }
      match s.verified image with
      | none => idle.pldmSay "VERIFY_FAILED"
      | some i =>
        if !flashOk then (idle.flash i false).pldmSay "FLASH_FAILED"
        else if s.fw.stage == .recovery then (idle.loaded i).bootStored
        else (s.loaded i).pldmSay "APPLY_SUCCESS"

/-- ACTIVATE_FIRMWARE (R541): the update leaves update mode; self-contained activation acts as FIRMWARE_ACTIVATE with ACTION 1. -/
def execActivateFirmware (selfContained : Bool) (s : State) : Res :=
  .next <|
    if !s.barLive || s.fw.transfer != .pldm then s
    else
      let t : State := { s with fw := { s.fw with transfer := .none } }
      if !selfContained then t.pldmSay "ACTIVATION_PENDING"
      else
        match t.activateErr with
        | some _ => t.pldmSay "ACTIVATION_FAILED"
        | none => (t.pldmSay "ACTIVATED").restartFirmware

end Sys2Proof.Machine
end

