-- ==== Sys2Proof/Machine/Frames.lean ====
section
/-! DEFINITION. Transport frames that arrive (R472 to R479): delivery in order, forwarding, and what each type does at its destination
(R199, R261, R267, R275, R288, R358 to R366, R485 to R488, R492). -/

namespace Sys2Proof.Machine

/-! ### Member steps (R130, R199, R275, R288) -/

/-- Whether two parameter blocks agree but for MEMBER_INDEX (R130). -/
def sameShard (a b : Bytes) : Bool := overlay a 38 [0, 0] == overlay b 38 [0, 0]

/-- A member's step of another device's command joins the admission queue of the domain's partition. -/
def State.memberStep (s : State) (p : PartNo) (src tag : Nat) (packet : Bytes) (data : HostData) (readStamp : Nat) (deadline : Option Nat) :
    State :=
  let c : Cmd := {
    id := s.nextCid, fn := .vf p, qid := 0xFFFF, part := some p, packet := fit 64 packet, data := data, fetchTime := s.now, heldSince := s.now
    phase := .queued, readStamp := readStamp, deadline := deadline, mode := s.modeOf p, origin := some (src, tag) }
  let s := s.addCmd c
  (if readStamp = 0 then s else s.issued readStamp).wake (some p)

/-- The shard a step names, or the status that refuses it. -/
def State.shardOf (s : State) (p : PartNo) (packet coll : Bytes) : Nat ⊕ Coll :=
  match s.coll? p (rd packet 4 2) with
  | none => .inl stInvalidHandle
  | some k => if sameShard k.param coll then .inr k else .inl stTypeMismatch

/-- The member step of an origin and a tag. -/
def State.stepOf (s : State) (src tag : Nat) : Option Cmd := s.cmds.find? fun c => c.origin == some (src, tag)

/-- Apply: the member takes a range lock over its share and goes on by itself (R288). -/
def State.applyStepOf (s : State) (p : PartNo) (src tag : Nat) : State :=
  match s.stepOf src tag with
  | none => s
  | some c =>
    let s := s.modCmd c.id fun c => { c with mesh := c.mesh.map fun m => { m with applying := true } }
    match lockRange c (s.mutationIds c) with
    | some (lo, hi) => { s with locks := s.locks ++ [{ cid := c.id, part := p, handle := c.handle, lo := lo, hi := hi }] }
    | none => s

/-- The mesh table whose MESH_ID a message carries. -/
def State.tableOf (s : State) (p : PartNo) (param : Bytes) : Option Coll :=
  (s.part p).colls.find? fun k => k.isTable && k.isMesh && !k.dropping && rd k.param 32 4 == rd param 32 4

/-- What a message does at the table it names. One that carries a command's tag compares the parameter blocks, and a shard that is absent
or differs answers with the status that ends the command (R130); a message with tag 0 belongs to no command. -/
def State.withTable (s : State) (p : PartNo) (src tag : Nat) (param : Bytes) (f : Coll → State) : State :=
  let refuse := fun st => if tag = 0 then s else s.replyTo p src tag (.failed st)
  match s.tableOf p param with
  | none => refuse stInvalidHandle
  | some k => if tag = 0 || sameShard k.param param then f k else refuse stTypeMismatch

/-- Pairs as they travel, joined into the sums of rows. -/
def rowSums (rows : List (Nat × List (Nat × Nat))) (values : List (Nat × Bytes)) : List RowSum :=
  rows.map fun r => { row := r.1, sums := r.2, assign := values.lookup r.1 }

/-- The payloads a member is asked for (R267). -/
def State.sendPayloads (s : State) (p : PartNo) (src tag handle : Nat) (slots : List (Nat × Nat)) : State :=
  match s.coll? p handle with
  | none => s.replyTo p src tag (.failed stInvalidHandle)
  | some k =>
    let s := s.modPart p fun x => { x with payHolds := x.payHolds.filter fun h => !(h.dev == src && h.tag == tag) }
    let (s, bad) := s.reads p (slots.map fun x => (k.payAt x.2, k.payload))
    if bad.isSome then s.replyTo p src tag (.failed stPoison)
    else
      s.replyTo p src tag (.payloads (slots.map fun x => (x.1, fit k.payloadSlot (((s.part p).pay k x.2).take k.payload))))

/-- What a CMD frame does; `aux` is its read stamp or STEP (R473). -/
def State.takeCmd (s : State) (p : PartNo) (src tag aux : Nat) (body : CmdBody) : State :=
  let withTable := s.withTable p src tag
  match body with
  | .fanout coll packet data r d =>
    match s.shardOf p packet coll with
    | .inl st => s.replyTo p src tag (.failed st)
    | .inr _ => s.memberStep p src tag packet data r d
  | .prepare coll packet data =>
    match s.shardOf p packet coll with
    | .inl st => s.replyTo p src tag (.prepared st)
    | .inr _ => s.memberStep p src tag packet data 0 none
  | .apply => s.applyStepOf p src tag
  | .abort => match s.stepOf src tag with | some c => s.endCmd c.id | none => s
  | .lookup coll requester shares pool => s.withTable p requester tag coll fun k => s.serveLookup p k src tag requester shares pool aux
  | .pairs coll step inc member rows values => withTable coll fun k => (s.takePairs p k step inc member (rowSums rows values)).tryStep p k.uid step
  | .payloadAsk handle slots => s.sendPayloads p src tag handle slots
  | .handoffAsk coll block => withTable coll fun k => s.takeAsk p k src block
  | .handoffSlot coll block granted => withTable coll fun k => s.takeSlotAnswer p k block granted
  | .handoffLines coll block lines => withTable coll fun k => s.takeLines p k block lines
  | .handoffCommit coll block => withTable coll fun k => s.install p k src block
  | .shardAsk coll block target => withTable coll fun k => s.startHandoff p k block target (some (src, tag))
  | .shardCheck coll => withTable coll fun k => s.replyTo p src tag (.room k.memberIndex k.tm.freeSlots)
  | .handoffInstalled coll block => withTable coll fun k => s.handoffDone p k block
  | .directory coll block owner epoch => withTable coll fun k => s.takeDirectory p k (k.memberOf src) block owner epoch
  | .directoryAck coll block => withTable coll fun k => s.takeAck p k (k.memberOf src) block
  | .forwardDone coll block => withTable coll fun k => s.takeForwardDone p k block
  | .endStep coll member step participants inc fwd param => withTable coll fun k => s.takeEnd p k member step participants inc fwd param
  | .stepReport coll step member applied stamp rows skipped =>
    withTable coll fun k =>
      match s.stepCmd k.uid step with
      | some c => s.takeStepReport c.id member applied stamp rows skipped
      | none => s

/-! ### Results at the origin -/

/-- The command of this device that a tag names. -/
def State.byTag (s : State) (p : PartNo) (tag : Nat) : Option Cmd :=
  s.cmds.find? fun c => c.origin.isNone && !c.isAdmin && c.part == some p && match c.mesh with | some m => m.tag == tag | none => false

def State.setWait (s : State) (cid : Nat) (m : MeshWait) : State := s.modCmd cid fun c => { c with mesh := some m }

/-- A member has failed its step: the command ends with its status; a shadow scan is discarded (R203). -/
def State.memberFailed (s : State) (c : Cmd) (st : Nat) : State := if c.shadow then s.dropShadow c else s.tearDown c.id st

/-- What a RESULT frame brings to the command that waits for it (R261, R267, R275, R288, R358, R365, R487). -/
def State.takeResult (s : State) (p : PartNo) (k : Coll) (c : Cmd) (m : MeshWait) (member : Nat) (last : Bool) (body : ResultBody) : State :=
  let left := m.waiting.filter (· != member)
  match body with
  | .entries q l notes work =>
    if !m.waiting.contains member || m.asking then s
    else
      let cands : List Cand := l.map fun e => { key := e.key, slot := e.slot, gid := e.gid, member := e.member, payload := e.payload }
      let mine := (m.early.filter fun e => e.1 == member).map (·.2) ++ [(q, cands)]
      let s := s.setWait c.id <|
        if last then { m with
          lists := m.lists ++ mine, early := m.early.filter fun e => e.1 != member, notes := m.notes ||| notes, work := m.work + work
          waiting := left }
        else { m with early := m.early ++ [(member, q, cands)] }
      if last && left.isEmpty then s.joinTurn p k c.id else s
  | .payloads l =>
    if !m.waiting.contains member || !m.asking then s
    else
      let fill : Cand → Cand := fun e => if e.member = member then { e with payload := getKey l e.gid e.payload } else e
      let s := match c.run with
        | .walk w => s.setWalk c.id { w with lists := w.lists.map fun (l : List Cand) => l.map fill }
        | _ => s
      let s := s.setWait c.id { m with waiting := if last then left else m.waiting }
      if last && left.isEmpty then s.joinTurn p k c.id else s
  | .fetched l =>
    if !m.waiting.contains member then s
    else
      let m := { m with fetched := m.fetched ++ l, waiting := if last then left else m.waiting }
      let s := s.setWait c.id m
      if m.waiting.isEmpty then s.fetchDone k c m.fetched else s
  | .prepared st =>
    if !m.waiting.contains member || m.applying then s
    else
      let m := { m with waiting := left, failed := if st = 0 then m.failed else m.failed ++ [(member, st)] }
      (s.setWait c.id m).meshDecide p k c m
  | .committed st outcomes work => s.takeReport c.id member st outcomes work
  | .partials i l covered hints => s.takePartials c.id i l covered hints
  | .handedOff block done => s.takeHandedOff c.id block done
  | .room _ free => s.takeRoom c.id free
  | .failed st =>
    if c.appliesAtOrigin then (if m.waiting.contains member then s.shareFailed c.id member member st else s)
    else if c.waitsFor m member then s.memberFailed c st else s

/-- A RESULT frame at its destination. -/
def State.takeResultFrame (s : State) (p : PartNo) (src tag : Nat) (last : Bool) (body : ResultBody) : State :=
  match s.byTag p tag with
  | none => s
  | some c =>
    match c.mesh, c.coll.bind (s.part p).collU? with
    | some m, some k => if c.phase == .done then s else s.takeResult p k c m (k.memberOf src) last body
    | _, _ => s

/-! ### Streams, chains, barriers, loads -/

/-- DATA (R369, R473): the bytes of a stream write go to the partition's memory at the frame's offset; a read response, which a command of
this device waits for, is consumed as it lands. -/
def State.takeData (s : State) (p : PartNo) (tag off : Nat) (payload : Bytes) : State :=
  if (s.byTag p tag).isSome then s else s.wrMem p none off payload

/-- READ_REQ (R473): the bytes of the partition's memory from an address, in DATA frames of 1,024 B. -/
def State.takeReadReq (s : State) (p : PartNo) (hdr : FrameHdr) (len : Nat) : State :=
  let (s, bad) := s.reads p [(hdr.aux, len)]
  if bad.isSome then s.replyTo p hdr.src hdr.tag (.failed stPoison)
  else
    let pieces := chunks 1024 len ((s.part p).bytes hdr.aux len)
    pieces.zipIdx.foldl (fun s x =>
      s.sendRouted tData hdr.src hdr.domain hdr.tag (1024 * x.2) x.1.length hdr.cls (x.2 + 1 == pieces.length) (.bytes x.1) (some p)) s

/-- Early partials that follow on are added, one rounding each (R486). -/
def ChainSt.drain : Nat → ChainSt → ChainSt
  | 0, c => c
  | fuel + 1, c =>
    match c.early.lookup c.next with
    | none => c
    | some l =>
      let sum := fun a b : Nat => ((Flt.ofBits32 a).add32 (Flt.ofBits32 b)).bits32
      ChainSt.drain fuel { c with
        next := c.next + 1
        totals := if c.next = 0 then l else List.zipWith sum c.totals l
        early := c.early.filter fun e => e.1 != c.next }

/-- The EMB_LOOKUP of this device that a chain's tag names, while it waits for its owners (R358). -/
def State.chainCmd (s : State) (p : PartNo) (tag : Nat) : Option (Cmd × Coll × MeshWait) :=
  match s.byTag p tag with
  | none => none
  | some c =>
    match c.mesh, c.coll.bind (s.part p).collU? with
    | some m, some k => if c.ioRunning 0x50 && !m.waiting.isEmpty then some (c, k, m) else none
    | _, _ => none

/-- A chain as it begins here (R238): where this device holds a share of the lookup it is the link of its own member index among the
owners, and its own partial, BAGS vectors of DIM totals, waits for its turn. -/
def State.chainStart (s : State) (p : PartNo) (tag : Nat) : ChainSt :=
  match s.chainCmd p tag with
  | none => { tag := tag }
  | some (c, k, m) =>
    if m.partials.isEmpty then { tag := tag }
    else
      let own := (List.range c.bags).flatMap fun b => ((m.partials.find? fun x => x.2.1 == b).map (·.2.2)).getD (List.replicate k.dim 0)
      { tag := tag, early := [((m.members.filter (· < k.memberIndex)).length, own)] }

/-- The last link applies the output path to a finished chain's totals (R238): the lookup that its tag names ends with them (R358). -/
def State.chainEnd (s : State) (p : PartNo) (c : ChainSt) : State :=
  match s.chainCmd p c.tag with
  | none => s
  | some (cmd, k, _) =>
    let input := s.embInput p k cmd
    if s.haltedOn cmd.id then s
    else s.lookupEnd k cmd <| (List.range cmd.bags).map fun b =>
      (((c.totals.drop (b * k.dim)).take k.dim).map Flt.ofBits32, (cmd.validIn k input b).length)

/-- CHAIN (R486): partials are added in link order; one that arrives before its predecessors is held. The chain ends once the link that
carries LAST, and every one before it, has been added; the device that applies the output path gathers them. -/
def State.takeChain (s : State) (p : PartNo) (tag link : Nat) (last : Bool) (partials : List Nat) : State :=
  let c := (s.mesh.chains.find? fun c => c.tag == tag).getD (s.chainStart p tag)
  if link < c.next || (c.early.lookup link).isSome then s
  else
    let c := { c with early := c.early ++ [(link, partials)], links := if last then max (link + 1) ((c.early.map fun (e : Nat × List Nat) => e.1 + 1).foldl max 0) else c.links }
    let c := c.drain (c.early.length + 1)
    let rest := s.mesh.chains.filter fun x => x.tag != tag
    if c.links != 0 && c.next == c.links then ({ s with mesh := { s.mesh with chains := rest } }).chainEnd p c
    else { s with mesh := { s.mesh with chains := rest ++ [c] } }

/-- A BARRIER frame (R488): `release` tells RELEASE from ARRIVE. -/
def State.barrierFrame (s : State) (d tag count : Nat) (release : Bool) : State :=
  s.sendRouted tBarrier d 0 tag count 16 2 true (.totals [release.toNat]) none

/-- The root releases a barrier once it holds ARRIVE from every participant, itself among them. -/
def State.tryRelease (s : State) (tag : Nat) : State :=
  match s.mesh.barriers.find? fun b => b.tag == tag with
  | none => s
  | some b =>
    if !b.root || b.released || b.arrived.length < b.participants || b.cid = 0 then s
    else
      let s := (b.arrived.filter (· != s.mesh.deviceId)).foldl (fun s d => s.barrierFrame d tag b.participants true) s
      { s with mesh := { s.mesh with barriers := s.mesh.barriers.map fun x => if x.tag == tag then { x with released := true } else x } }

/-- ARRIVE at the root. -/
def State.takeArrive (s : State) (src tag count : Nat) : State :=
  let bs := if s.mesh.barriers.any fun b => b.tag == tag then s.mesh.barriers
    else s.mesh.barriers ++ [{ tag := tag, root := true, participants := count, since := s.time.clk }]
  ({ s with mesh := { s.mesh with barriers := bs.map fun (b : Barrier) =>
      if b.tag == tag && b.root then { b with arrived := addOnce b.arrived src } else b } }).tryRelease tag

/-- RELEASE at a participant. -/
def State.takeRelease (s : State) (tag : Nat) : State :=
  { s with mesh := { s.mesh with barriers := s.mesh.barriers.map fun b => if b.tag == tag && !b.root then { b with released := true } else b } }

/-- LOAD (R362): a member's window total and its free block slots. -/
def State.takeLoad (s : State) (p : PartNo) (handle member total free : Nat) : State :=
  match s.meshTable p handle with
  | none => s
  | some k => s.modTm p k.uid fun t => { t with
      memberLoads := setKey t.memberLoads member total, memberFree := setKey t.memberFree member free }

/-! ### Delivery (R475 to R478) -/

/-- The partition a frame's domain names, where it works now (R471, R477). -/
def State.domainPart (s : State) (domain : Nat) : Option PartNo :=
  if domain = 0 then none else s.present.find? fun p => (s.part p).feat 0x80 == domain && s.worksNow p

/-- What a delivered frame does. A BARRIER belongs to no partition. -/
def State.deliverFrame (s : State) (type : Nat) (hdr : FrameHdr) (body : FrameBody) : State :=
  match type, body with
  | 0x06, .totals l => if l.headD 0 = 1 then s.takeRelease hdr.tag else s.takeArrive hdr.src hdr.tag hdr.aux
  | _, _ =>
    match s.domainPart hdr.domain with
    | none => s.sendRouted tNack hdr.src hdr.domain 1 hdr.seq 0 0 true .empty none
    | some p =>
      let s := (s.wake (some p)).modPart p fun x => { x with acct := { x.acct with meshRx := (x.acct.meshRx + hdr.len) % 2 ^ 64 } }
      match type, body with
      | 0x01, .bytes b => s.takeData p hdr.tag hdr.aux b
      | 0x02, .totals l => s.takeReadReq p hdr (l.headD 0)
      | 0x03, .cmd b => s.takeCmd p hdr.src hdr.tag hdr.aux b
      | 0x04, .result b => s.takeResultFrame p hdr.src hdr.tag hdr.last b
      | 0x05, .totals l => s.takeChain p hdr.tag hdr.aux hdr.last l
      | 0x07, .totals [h, m, t, f] => s.takeLoad p h m t f
      | _, _ => s

/-- Frames that arrived early and now follow on are delivered. -/
def State.deliverEarly (src : Nat) : Nat → State → State
  | 0, s => s
  | fuel + 1, s =>
    let p := s.peer src
    match p.early.find? fun x => x.2.hdr.seq == p.rxSeq with
    | none => s
    | some x =>
      let s := s.modPeer src fun p => { p with rxSeq := (p.rxSeq + 1) % 65536, early := p.early.erase x }
      State.deliverEarly src fuel (s.deliverFrame x.2.type x.2.hdr x.2.body)

/-- A frame of the pair's series: delivered in order, held within the window of 4,096, or dropped; then acknowledged (R475). -/
def State.inOrder (s : State) (port type : Nat) (hdr : FrameHdr) (body : FrameBody) : State :=
  let p := s.peer hdr.src
  let ahead := (hdr.seq + 65536 - p.rxSeq) % 65536
  if ahead = 0 then
    let s := s.modPeer hdr.src fun p => { p with rxSeq := (p.rxSeq + 1) % 65536 }
    let s := State.deliverEarly hdr.src (p.early.length + 1) (s.deliverFrame type hdr body)
    s.sendRouted tAck hdr.src hdr.domain 0 (((s.peer hdr.src).rxSeq + 65535) % 65536) 0 0 true .empty none
  else if ahead < 4096 && !p.early.any (fun x => x.2.hdr.seq == hdr.seq) then
    s.modPeer hdr.src fun p => { p with early := p.early ++ [(port, { type := type, hdr := hdr, body := body, at_ := s.time.clk })] }
  else s

/-- The frame's epoch: an older one drops it, a newer one begins a new series (R476). -/
def State.inEpoch (s : State) (port type : Nat) (hdr : FrameHdr) (body : FrameBody) : State :=
  let ahead := (hdr.epoch + 256 - (s.peer hdr.src).rxEpoch) % 256
  if ahead = 0 then s.inOrder port type hdr body
  else if ahead < 128 then
    (s.modPeer hdr.src fun p => { p with rxEpoch := hdr.epoch % 256, rxSeq := 0, early := [] }).inOrder port type hdr body
  else s

/-- A frame for another device (R478, R479): it leaves by its route with TTL one less, waits for credits, or is refused. One whose
TTL would be 0 as it leaves is dropped (DEDUCED, log 27). -/
def State.forward (s : State) (type : Nat) (hdr : FrameHdr) (body : FrameBody) : State :=
  if hdr.ttl ≤ 1 then ({ s with mesh := { s.mesh with ttlDrops := satInc 0xFFFFFFFF s.mesh.ttlDrops } }).refuse type hdr 3
  else if (s.routePort hdr.dest).isNone then s.refuse type hdr 2
  else
    let x : Sent := { type := type, hdr := { hdr with ttl := hdr.ttl - 1 }, body := body, at_ := s.time.clk }
    let (t, ok) := s.trySend x
    if ok then t else { s with mesh := { s.mesh with transit := s.mesh.transit ++ [{ x with waits := true }] } }

/-- Whether a port hands frames up now (R463). -/
def State.hears (s : State) (port : Nat) : Bool := s.mesh.enable && (s.portAt port).usable

/-- A routed frame of the series arrives on a port. -/
def State.receive (s : State) (port type : Nat) (hdr : FrameHdr) (body : FrameBody) : State :=
  if !s.hears port then s
  else if hdr.dest != s.mesh.deviceId then s.forward type hdr body
  else s.settled (s.inEpoch port type hdr body)

/-! ### The rows -/

/-- DATA. -/
def execData (port : Nat) (hdr : FrameHdr) (payload : Bytes) (s : State) : Res := .next (s.receive port tData hdr (.bytes payload))

/-- READ_REQ. -/
def execReadReq (port : Nat) (hdr : FrameHdr) (length : Nat) (s : State) : Res := .next (s.receive port tReadReq hdr (.totals [length]))

/-- CMD. -/
def execCmd (port : Nat) (hdr : FrameHdr) (body : CmdBody) (s : State) : Res := .next (s.receive port tCmd hdr (.cmd body))

/-- RESULT. -/
def execResult (port : Nat) (hdr : FrameHdr) (body : ResultBody) (s : State) : Res := .next (s.receive port tResult hdr (.result body))

/-- CHAIN. -/
def execChain (port : Nat) (hdr : FrameHdr) (partials : List Nat) (s : State) : Res := .next (s.receive port tChain hdr (.totals partials))

/-- ARRIVE. -/
def execArrive (port : Nat) (hdr : FrameHdr) (s : State) : Res := .next (s.receive port tBarrier hdr (.totals [0]))

/-- RELEASE. -/
def execRelease (port : Nat) (hdr : FrameHdr) (s : State) : Res := .next (s.receive port tBarrier hdr (.totals [1]))

/-- BARRIER_TIMEOUT (R488): a barrier not released within 100 ms fails. -/
def execBarrierTimeout (tag : Nat) (s : State) : Res :=
  .next <|
    match s.mesh.barriers.find? fun b => b.tag == tag with
    | none => s
    | some b =>
      if b.released || s.phys < b.since * 40 + 100000000 then s
      else
        { s with
          mesh := { s.mesh with barriers := s.mesh.barriers.filter fun x => x.tag != tag }
          tests := s.tests.map fun t => if b.cid = t.cid + 1 then { t with barrierFailed := true } else t }

/-- LOAD. -/
def execLoadFrame (port : Nat) (hdr : FrameHdr) (handle member total freeSlots : Nat) (s : State) : Res :=
  .next (s.receive port tLoad hdr (.totals [handle, member, total, freeSlots]))

/-- PROBE (R476, R492): a probe is answered with its send time; an answer gives a round trip, and makes an unreachable destination
reachable in a new epoch. -/
def execProbe (port : Nat) (hdr : FrameHdr) (answer : Bool) (s : State) : Res :=
  .next <|
    if !s.hears port then s
    else if hdr.dest != s.mesh.deviceId then s.forward tProbe hdr (if answer then .totals [1] else .empty)
    else if !answer then s.sendRouted tProbe hdr.src 0 0 hdr.aux 0 0 true (.totals [1]) none
    else
      s.modPeer hdr.src fun p =>
        let p := { p with rtts := ((s.now - hdr.aux) :: p.rtts).take 16, probeSent := none }
        if p.unreachable then { p with unreachable := false, epoch := (p.epoch + 1) % 256, txSeq := 0, givenUp := [] } else p

/-- Whether a kept frame is acknowledged by a newest SEQ. -/
def Sent.ackedBy (x : Sent) (newest : Nat) : Bool := (newest + 65536 - x.hdr.seq) % 65536 < 32768

/-- ACK (R475): everything up to its SEQ is acknowledged. -/
def execAck (port : Nat) (hdr : FrameHdr) (s : State) : Res :=
  .next <|
    if !s.hears port then s
    else if hdr.dest != s.mesh.deviceId then s.forward tAck hdr .empty
    else s.modPeer hdr.src fun p => { p with unacked := p.unacked.filter fun x => !x.ackedBy hdr.aux }

/-- The destination of this device's frame with a SEQ that a device on the way refused; the refuser's own id where it is the destination. -/
def State.refusedTo (s : State) (src seq : Nat) : Nat :=
  match s.mesh.peers.find? fun p => p.dev != src && p.unacked.any fun x => x.hdr.seq == seq with
  | some p => if (s.peer src).unacked.any fun x => x.hdr.seq == seq then src else p.dev
  | none => src

/-- NACK (R476 to R478, R495): UNKNOWN_DOMAIN fails the command whose frame it was; NO_ROUTE and TTL_EXPIRED give the port up for the
destination, and with no alternate left make it unreachable. -/
def execNack (port : Nat) (hdr : FrameHdr) (reason : Nat) (s : State) : Res :=
  .next <|
    if !s.hears port then s
    else if hdr.dest != s.mesh.deviceId then s.forward tNack hdr (.totals [reason])
    else if reason = 1 then
      match (s.peer hdr.src).unacked.find? fun x => x.hdr.seq == hdr.aux with
      | none => s
      | some x =>
        let s := s.modPeer hdr.src fun p => { p with unacked := p.unacked.erase x }
        let l := (s.cmds.filter fun c => c.part == x.part && c.origin.isNone &&
          match c.mesh with | some m => m.tag == x.hdr.tag | none => false).map (·.id)
        l.foldl (fun s cid => s.cmdLoses cid hdr.src) s
    else
      let d := s.refusedTo hdr.src hdr.aux
      match s.routePort d with
      | none => s.peerLost d
      | some (n, _) =>
        let t := s.modPeer d fun p => { p with givenUp := addOnce p.givenUp n }
        if (t.routePort d).isNone then t.peerLost d else t.resendTo d (fun _ => true) 0

end Sys2Proof.Machine
end

