-- ==== Sys2Proof/Machine/GetLog.lean ====
section
/-! DEFINITION. GET_LOG (R205, R363, R412, R415, R559 to R563). -/

namespace Sys2Proof.Machine

/-! ### The error log (R559, R562) -/

/-- The 64 B of an entry (R559). -/
def LogEntry.bytes (e : LogEntry) : Bytes :=
  toLe 4 e.seq ++ toLe 2 e.status ++ toLe 1 e.kind ++
  toLe 1 (8 * e.part.isSome.toNat + 4 * e.repair.toNat + 2 * e.escalated.toNat + e.nested.toNat) ++
  toLe 8 e.stamp ++ toLe 4 e.related ++ toLe 1 (16 * e.scope + (match e.part with | some p => p.val | none => 0)) ++
  toLe 1 (match e.fn with | some f => f.idx | none => 0xFF) ++ toLe 2 e.unit ++ fit 40 e.detail

/-- Where DETAIL holds the address of a burst, as an offset in DETAIL: a COMMAND entry of status 0x4001, an HBM entry of events 1, 7
and 10 (R560). -/
def LogEntry.addrAt (e : LogEntry) : Option Nat :=
  if e.kind = kCommand && e.status = stPoison then some 8
  else if e.kind = kHbm && [1, 7, 10].contains (rd e.detail 8 1) then some 0
  else none

/-- An address of a burst as a partition's view shows it; 0, where an entry names none, stays unless the partition holds it (R562). -/
def PartSt.viewAddr (x : PartSt) (a : Nat) : Nat := (x.offsetOf a).getD (if a = 0 then 0 else 2 ^ 64 - 1)

/-- An entry as a partition's view shows it (R562). -/
def PartSt.viewEntry (x : PartSt) (p : PartNo) (e : LogEntry) : LogEntry :=
  if e.part = some p then
    match e.addrAt with
    | some o => { e with detail := overlay (fit 40 e.detail) o (toLe 8 (x.viewAddr (le (slice e.detail o 8)))) }
    | none => e
  else { e with detail := [] }

/-- The entries of a view, oldest first; none for the device's. -/
def State.logView (s : State) : Option PartNo → List LogEntry
  | none => s.ras.log
  | some p => (s.ras.log.filter fun e => e.inView p).map ((s.part p).viewEntry p)

/-- Entries of a view overwritten since VAON power-on, saturating. -/
def State.overwritten (s : State) : Option PartNo → Nat
  | none => min 0xFFFFFFFF (s.ras.written - s.ras.log.length)
  | some p => s.ras.overwrittenOf.getD p.val 0

/-- LID 0x01 from the entry whose SEQ is LSP on (R562). -/
def State.errorLog (s : State) (t : Option PartNo) (lsp : Nat) : Bytes :=
  let all := s.logView t
  let l := if all.any fun e => e.seq == lsp then all.dropWhile fun e => e.seq != lsp else all
  fit 64 (toLe 4 ((all.head?.map (·.seq)).getD 0) ++ toLe 4 s.ras.nextSeq ++ toLe 4 l.length ++ toLe 4 (s.overwritten t)) ++
  l.flatMap LogEntry.bytes

/-! ### The repair record (R563) -/

def CoreState.code : CoreState → Nat
  | .active => 0 | .spare => 1 | .failed => 2 | .retired => 3 | .standIn => 4 | .underTest => 5 | .bypassed => 6

def ClusterState.code : ClusterState → Nat
  | .active => 0 | .bypassed => 1 | .reinstatePending => 2

def ChState.code : ChState → Nat
  | .active => 0 | .fenced => 1 | .mapoutPending => 2 | .mappedOut => 3

/-- The active lanes of a port as a mask: all four, a pair, or none. -/
def Port.laneMask (p : Port) : Nat :=
  match p.state with
  | .up => 0xF
  | .degraded => if p.upperPair then 0xC else 0x3
  | _ => 0

def State.repairRecord (s : State) : Bytes :=
  fit 512 (s.ras.cores.flatMap (fun c => toLe 1 c.state.code) ++ s.ras.clusters.flatMap (fun c => toLe 1 c.state.code) ++
    s.hbm.channels.flatMap (fun c => toLe 1 c.state.code) ++ s.mesh.ports.flatMap (fun p => toLe 1 p.laneMask) ++
    toLe 1 s.sec.fuses.repair.length)

/-! ### The logs of other chapters -/

/-- The search report of a collection (R205). -/
def Coll.searchReport (k : Coll) : Bytes :=
  let r := k.report
  fit 96 (toLe 2 k.handle ++ zeros 2 ++ toLe 4 r.lastK ++ toLe 8 r.searches ++ toLe 8 r.flatScans ++ toLe 8 r.partials ++
    toLe 8 r.staleEdges ++ toLe 8 r.samples ++ toLe 8 r.hits ++ toLe 8 r.expected ++ toLe 8 r.dropped ++ toLe 4 r.ewma ++ zeros 4 ++
    toLe 8 r.lastStamp)

/-- LID 0x20: one collection's report, or every one in handle order. -/
def PartSt.searchReports (x : PartSt) (lsp : Nat) : Bytes :=
  let l := x.colls.filter fun k => !k.dropping && (lsp == 0 || k.handle == lsp)
  (sortBy (fun a b : Coll => decide (a.handle < b.handle)) l).flatMap Coll.searchReport

/-- The state of a block at this member (R363). -/
def TableMesh.stateOf (t : TableMesh) (block : Nat) : Nat :=
  match t.handoffs.find? fun h => h.block == block && h.out with
  | some h => match h.state with | .owned => 0 | .moving => 1 | .forwarding => 2
  | none => 0

/-- LID 0x21 (R363): the shard load report of a mesh table, for this device's member index. -/
def Coll.loadReport (k : Coll) (me : Nat) : Bytes :=
  let t := k.tm
  let w := (t.windows.head?).getD (0, 0)
  let l := (sortBy (fun a b : Nat => decide (t.load16 b < t.load16 a)) (t.blockLoads.map (·.1))).take 4096
  fit 64 (toLe 2 k.handle ++ toLe 2 me ++ toLe 4 l.length ++ toLe 8 (t.windowEnd - 1000000) ++ toLe 8 w.1 ++
    toLe 8 (w.2 / max 1 k.members.length) ++ toLe 8 (t.slots.filter fun x => k.owner x.1 == me).length ++ toLe 4 t.movedIn ++
    toLe 4 t.movedOut ++ toLe 4 t.dir.length) ++
  l.flatMap fun b => fit 16 (toLe 8 b ++ toLe 4 (min 0xFFFFFFFF (t.load16 b / 16)) ++ toLe 1 (t.stateOf b))

/-- What the accounting counters of engines and memories read: the model counts no such traffic, so their values are free
(R412; DESIGN CHOICE, log 21). -/
def Acct.bytes (a : Acct) (fresh : Nat) : Bytes :=
  let free := fun i => Config.freeNat (fresh + i) % 2 ^ 64
  fit 128 (toLe 8 a.resetStamp ++ toLe 8 (free 0) ++ toLe 8 (free 1) ++ toLe 8 (free 2) ++ toLe 8 (free 3) ++ toLe 8 a.meshTx ++
    toLe 8 a.meshRx ++ toLe 8 a.hostBytes ++ toLe 8 a.completed ++ toLe 8 a.misses ++ toLe 8 a.kills)

/-- A slow-down window (R415). -/
def Window.bytes (w : Window) : Bytes :=
  fit 64 (toLe 8 w.stamp ++ toLe 8 w.useful ++ toLe 8 w.hbm ++ toLe 8 w.slm ++ toLe 8 w.mesh ++ toLe 8 w.pcie ++ toLe 8 w.reg ++
    toLe 4 w.slowdown)

/-! ### The command (R561) -/

/-- The collection the log-specific parameter names. -/
def State.logColl (s : State) (c : Cmd) : Option Coll :=
  match targetOf c.fn (c.f 18 1) with
  | some (some p) => s.coll? p (c.f 20 4)
  | _ => none

/-- The bytes of the log a command names. -/
def State.logBytes (s : State) (c : Cmd) : Bytes :=
  let t := (targetOf c.fn (c.f 18 1)).getD none
  let x := match t with | some p => s.part p | none => {}
  match c.f 16 1 with
  | 0x01 => s.errorLog t (c.f 20 4)
  | 0x02 => s.repairRecord
  | 0x20 => x.searchReports (c.f 20 4)
  | 0x21 => match s.logColl c with | some k => k.loadReport k.memberIndex | none => []
  | 0x22 => x.acct.bytes s.fresh
  | _ => (x.windows.take (if c.f 20 4 = 0 then 64 else c.f 20 4)).flatMap Window.bytes

/-- The bytes a command receives: LENGTH of them at most, from OFFSET on. -/
def State.logPiece (s : State) (c : Cmd) : Bytes := slice (s.logBytes c) (c.f 40 8) (c.f 36 4)

/-- The checks of GET_LOG: its fields, then the collection its parameter names, then its list. -/
def State.getLogErr (s : State) (c : Cmd) : Option Err :=
  let lid := c.f 16 1
  let t := targetOf c.fn (c.f 18 1)
  firstErr
    [ reservedErr c.packet 0 [(17, 1), (19, 1), (34, 2), (48, 16)],
      failIf (!([0x01, 0x02, 0x20, 0x21, 0x22, 0x23].contains lid)) (errAt stInvalidField 16),
      failIf (t.isNone || (0x20 ≤ lid && t == some none)) (errAt stInvalidField 18),
      failIf (c.f 36 4 % 4 != 0 || 2 ^ 24 < c.f 36 4) (errAt stInvalidField 36),
      failIf (c.f 40 8 % 4 != 0) (errAt stInvalidField 40),
      if (lid = 0x20 && c.f 20 4 != 0) || lid = 0x21 then
        match s.logColl c with
        | none => some { st := stInvalidHandle }
        | some k => failIf (lid = 0x21 && !(k.isTable && k.isMesh)) { st := stTypeMismatch }
      else none,
      scatterErr (c.f 24 8) (c.f 32 2) c.data.outList (s.logPiece c).length ]

/-- GET_LOG (R561): the piece of the log goes to the scatter list, its length to RESULT_COUNT. -/
def execGetLog (cid : Nat) (s : State) : Res :=
  .next <| s.admin cid 0x04 (fun _ => true) s.getLogErr fun c =>
    let b := s.logPiece c
    let t := (s.emits (scatterOut c.fn (scatter c.data.outList) 0 b)).finish cid { count := b.length }
    if c.f 16 1 = 0x22 then t.bump 4 else t

end Sys2Proof.Machine
end

