-- ==== Sys2Proof/Machine/HostIf.lean ====
section
/-! DEFINITION. The host interface but for register writes: event masks (R65, R67), BAR2 windows (R53, R58 to R60), MSI-X (R69), VF
Enable (R46), configuration writes (R515, R516). -/

namespace Sys2Proof.Machine

/-! ### Event masks (R65) -/

/-- The event bits a function's register has (R65, R67). -/
def eventBits : Fn → Word32
  | .pf => pfEvents
  | .vf _ => vfEvents

/-- A write of an event mask: one message where it unmasks bits that are set, however many (R65). -/
def State.setEventMask (s : State) (fn : Fn) (v : Word32) : State :=
  let f := s.fnAt fn
  let t := s.modFn fn fun f => { f with evMask := v &&& eventBits fn }
  if f.evMask &&& ~~~v &&& f.evCause != 0 then t.msix fn 1 else t

/-- HIF_EVENT_MASK (R61, R65). -/
def execHifEventMask (value : Word32) (s : State) : Res := .next (s.setEventMask .pf value)

/-- VF_EVENT_MASK (R67). -/
def execVfEventMask (part : PartNo) (value : Word32) (s : State) : Res :=
  .next <| if s.barOpen (.vf part) then s.setEventMask (.vf part) value else s

/-! ### MSI-X (R69) -/

/-- The vectors a function has (R68). -/
def vectorsOf : Fn → Nat
  | .pf => 2048
  | .vf _ => 64

/-- The pending vectors that nothing masks any more send one message each. -/
def State.sendPending (s : State) (fn : Fn) : State :=
  let f := s.fnAt fn
  let due := if f.msixFnMask then [] else f.msixPending.filter f.msixOpen.contains
  (s.modFn fn fun f => { f with msixPending := f.msixPending.filter fun v => !due.contains v }).emits (due.map (Out.msix fn))

/-- A register of a VF that its TDI freezes has changed: the TDI enters ERROR (R516). -/
def State.frozenChanged (s : State) : Fn → State
  | .pf => s
  | .vf p => s.tdiError p

/-- MSIX_UNMASK (R69): a vector of the table, or the Function Mask of the MSI-X capability, which a TDI freezes (R515). -/
def execMsixUnmask (fn : Fn) (vector : Option Nat) (s : State) : Res :=
  .next <|
    match vector with
    | some v =>
      if vectorsOf fn ≤ v then s
      else (s.modFn fn fun f => { f with msixOpen := addOnce f.msixOpen v }).sendPending fn
    | none =>
      if !(s.fnAt fn).msixFnMask then s
      else ((s.modFn fn fun f => { f with msixFnMask := false }).sendPending fn).frozenChanged fn

/-! ### The BAR2 windows (R58, R59) -/

/-- A window's place: the partition, whether in scratchpad space, and the first byte. -/
structure Place where
  part : PartNo
  scratch : Bool
  off : Nat
  deriving DecidableEq, Repr, Inhabited

/-- The size of a BAR2 range (R54). -/
def bar2Size : Fn → Nat
  | .pf => 2 ^ 36
  | .vf _ => 2 ^ 32

/-- The length of a partition's space. -/
def State.spaceBytes (s : State) (p : PartNo) (scratch : Bool) : Nat :=
  if scratch then s.scratchBytes p else (s.part p).memBytes

/-- Whether a function may reach a partition through BAR2: the PF not while its TDI is CONFIG_LOCKED or RUN, the VF then only with
the T bit, and never in ERROR (R53, R516). -/
def State.bar2Allowed (s : State) (fn : Fn) (p : PartNo) (tbit : Bool) : Bool :=
  match fn with
  | .pf => !s.tdiLocked p
  | .vf _ => (!s.tdiLocked p || tbit) && (s.fnAt fn).tdi != .error

/-- Where `len` bytes at an address in BAR2 lie; none where the access is refused (R58). While DP_READY is 0 the spaces behind the window
are not there, and an access is refused as one beyond their end (DESIGN CHOICE, log 48). -/
def State.bar2Place (s : State) (fn : Fn) (addr len : Nat) (tbit : Bool) : Option Place :=
  let f := s.fnAt fn
  let p := match fn with | .pf => Fin.ofNat 16 (bits f.bar2Ctrl.toNat 0 4) | .vf p => p
  let scratch := f.bar2Ctrl.getLsbD 8
  let off := bits f.bar2Base.toNat 0 10 * 2 ^ 30 + addr
  if f.bar2Ctrl.getLsbD 7 && s.hif.dpReady && s.bar2Allowed fn p tbit && addr + len ≤ bar2Size fn &&
      off + len ≤ s.spaceBytes p scratch then some { part := p, scratch := scratch, off := off }
  else none

/-- BAR2_READ (R58, R59): the bytes, or EP where they meet poison (what poisoned bytes read is free), or Unsupported Request. One that
meets a stopped stack waits (R446). -/
def execBar2Read (fn : Fn) (addr len : Nat) (tbit : Bool) (s : State) : Res :=
  .next <|
    match s.bar2Place fn addr len tbit with
    | none => s.emit (.readData fn none false)
    | some w =>
      if !w.scratch then s.memRead { fn := fn, part := w.part, off := w.off, len := len }
      else if ((s.part w.part).sPoison w.off len).isSome then
        (s.emit (.readData fn (some (fit len (Config.freeBytes s.fresh len))) true)).bump
      else s.emit (.readData fn (some ((s.part w.part).sBytes w.off len)) false)

/-- BAR2_WRITE (R58, R60): written at once, so before any command fetched later; a refused write is dropped. -/
def execBar2Write (fn : Fn) (addr : Nat) (bytes : Bytes) (tbit : Bool) (s : State) : Res :=
  .next <|
    match s.bar2Place fn addr bytes.length tbit with
    | none => s
    | some w =>
      if w.scratch then s.wrScratch w.part (s.sliceOf w.part) w.off bytes else s.wrMem w.part none w.off bytes

/-! ### VF Enable and configuration writes -/

/-- VF_ENABLE (R46): with NumVFs not 16, VF Enable stays 0 and the PF logs a command error; in recovery it stays 0 (R539). -/
def execVfEnable (numVfs : Nat) (enable : Bool) (s : State) : Res :=
  .next <|
    if !enable then s.modFn .pf fun f => { f with vfEnable := false, numVfs := numVfs }
    else if (s.fnAt .pf).vfEnable then s
    else
      let t := s.modFn .pf fun f => { f with numVfs := numVfs }
      if numVfs != 16 then
        t.log { seq := 0, status := stInvalidField, kind := kCommand, scope := scCommand, fn := some .pf,
                detail := detail [(26, [0xFF, 0xFF])] }
      else if s.barLive then t.modFn .pf fun f => { f with vfEnable := true }
      else t

/-- The VFs whose frozen registers a changed configuration register holds (R515, R516): a VF's MSI-X capability; in the PF, the VF
BARs of the SR-IOV capability, and the registers of a bound stream but its status. -/
def State.frozenBy (s : State) (fn : Fn) (off : Nat) : List PartNo :=
  match fn with
  | .vf p => if 0x80 ≤ off && off < 0x8C then [p] else []
  | .pf =>
    if 0x334 ≤ off && off < 0x34C then allParts
    else allParts.filter fun p =>
      match (s.fnAt (.vf p)).tdiStream with
      | some i => ideBlock i ≤ off && off < ideBlock i + 0x2C && off != ideBlock i + 8
      | none => false

/-- What a configuration register's bits do where the model holds them: Memory Space Enable of the PF (offset 0x04 bit 1) and of every VF
(SR-IOV control bit 3), the Function Mask (MSI-X control bit 30), AER status, where a 1 clears a bit (PRESUMED, log 23). -/
def State.cfgEffect (s : State) (fn : Fn) (off : Nat) (v : Word32) : State :=
  if off = 0x104 then s.modFn fn fun f => { f with aer := f.aer &&& ~~~v }
  else if fn = .pf && off = 0x04 then s.modFn fn fun f => { f with memSpace := v.getLsbD 1 }
  else if fn = .pf && off = 0x318 then
    allParts.foldl (fun s p => s.modFn (.vf p) fun f => { f with memSpace := v.getLsbD 3 }) s
  else if off = (match fn with | .pf => 0xB0 | .vf _ => 0x80) then
    (s.modFn fn fun f => { f with msixFnMask := v.getLsbD 30 }).sendPending fn
  else s

/-- CONFIGURATION_WRITE (R44, R516): the writable bits of a dword of configuration space. Bits with rows of their own (VF Enable, NumVFs,
the FLR, the power state) do not act through it. Before the PF configuration space is ready the request is answered with Request
Retry Status (R73, R538); PERST# holds the link down, so no request comes. -/
def execConfigurationWrite (fn : Fn) (offset : Nat) (value : Word32) (s : State) : Res :=
  .next <|
    if s.pkg.perst || offset % 4 != 0 || 4096 ≤ offset then s
    else if !s.cfgReady then s.emit (.configRetry fn)
    else
      let old := s.cfgBits fn offset
      let t := (s.modFn fn fun f => f.setCfg fn offset value).cfgEffect fn offset value
      if t.cfgBits fn offset == old then t else (s.frozenBy fn offset).foldl State.tdiError t

end Sys2Proof.Machine
end

