-- ==== Sys2Proof/Machine/Mgmt.lean ====
section
/-! DEFINITION. Management (R532 to R536, R539): MCTP and PLDM, and the SAGE mailbox. -/

namespace Sys2Proof.Machine

/-! ### PLDM and MCTP (R532 to R534) -/

/-- The reading of a sensor (R534). -/
def State.sensor (s : State) (id : Nat) : Option Nat :=
  if id = 1 then some s.pkg.packagePower
  else if 2 ≤ id && id ≤ 5 then some (s.pkg.hotspot.getD (id - 2) 0)
  else if 6 ≤ id && id ≤ 13 then some (s.hbm.stackSt.getD (id - 6) {}).temp
  else if id = 14 then some s.pkg.vaonAmV
  else if id = 15 then some s.pkg.vaonBmV
  else if id = 16 then some s.power.ps
  else if id = 17 then some s.time.source.code
  else if id = 18 then some s.hbmGib
  else if id = 19 then some s.ras.written
  else none

/-- The ordering code (R14), in ASCII. -/
def orderingCode : Bytes := [0x53, 0x50, 0x5A, 0x34, 0x38, 0x31, 0x36, 0x2D, 0x41, 0x31]

/-- FRU data (R14, R533): ordering code, stepping, serial number. -/
def fruData : Bytes := orderingCode ++ toLe 1 0xA1 ++ toLe 8 Config.serial.toNat

/-- The answer to a PLDM request of a type, and the state after it: a sensor's reading, the oldest event, the FRU data, or what the
standard gives. In recovery only base and firmware update are offered (R539). -/
def State.pldmAnswer (s : State) (type : Nat) (sensor : Option Nat) : State × Bytes :=
  if s.fw.stage == .recovery && type != 0 && type != 5 then (s, [])
  else
    match type, sensor with
    | 2, some id => (s, match s.sensor id with | some r => toLe 4 r | none => [])
    | 2, none =>
      match s.fw.pldmEvents with
      | [] => (s, [])
      | e :: l => ({ s with fw := { s.fw with pldmEvents := l } }, toLe 2 e.1 ++ toLe 4 e.2)
    | 4, _ => (s, fruData)
    | _, _ => (s.bump, Config.mctpAnswer s.fresh (toLe 1 type))

/-- PLDM_REQUEST (R533, R534): readable in every power state. -/
def execPldmRequest (type : Nat) (sensor : Option Nat) (s : State) : Res :=
  .next <|
    if !s.mgmtLive then s
    else (s.pldmAnswer type sensor).1.emit (.message "PLDM" (s.pldmAnswer type sensor).2)

/-- SET_ENDPOINT_ID (R532). -/
def execSetEndpointId (eid : BitVec 8) (s : State) : Res :=
  .next <| if s.mgmtLive then { s with fw := { s.fw with endpointId := eid } } else s

/-! ### The mailbox (R535, R536) -/

abbrev mbOk := 0
abbrev mbBadType := 2
abbrev mbBadLength := 3
abbrev mbVerifyFailed := 4
abbrev mbFlashFailed := 5

def State.mbType (s : State) : Nat := bits s.fw.mbReq.toNat 24 8
def State.mbLength (s : State) : Nat := bits s.fw.mbReq.toNat 0 17

/-- Whether a write of SAGE_MB_CTRL sends the request: the key, GO, not BUSY, and someone to answer it. -/
def State.mbGo (s : State) (value : Word32) : Bool :=
  bits value.toNat 24 8 == 0xC5 && value.getLsbD 0 && !s.fw.mbBusy && s.mgmtLive

/-- The request's bytes: the first LENGTH of the request buffer. -/
def State.mbBytes (s : State) : Bytes :=
  ((List.range (ceilDiv s.mbLength 4)).flatMap fun i => toLe 4 (getKey s.fw.mbReqBuf i 0).toNat).take s.mbLength

/-- A request is answered: SAGE_MB_RESP and the response buffer. -/
def State.mbAnswer (s : State) (status : Nat) (b : Bytes := []) : State :=
  { s with fw := { s.fw with
    mbRespReady := true
    mbResp := BitVec.ofNat 32 (s.mbType * 2 ^ 24 + status * 2 ^ 17 + b.length)
    mbRespBuf := b } }

/-- Whether LENGTH lies in its range (R535). -/
def State.mbLengthOk (s : State) : Bool := 1 ≤ s.mbLength && s.mbLength ≤ 65536

/-- The message types accepted (R532), and in recovery (R539). -/
def State.mctpAccepts (s : State) (t : Nat) : Bool :=
  if s.fw.stage == .recovery then t == 0 || t == 1 else t == 0 || t == 1 || t == 5 || t == 6

/-- The answer to an MCTP message after its type byte: SPDM gives R512's blocks, the rest is the standards'. -/
def State.mctpReply (s : State) (msg : Bytes) : Bytes :=
  let body := msg.drop 1
  if rd msg 0 1 = 5 && rd body 1 1 = 0xE0 then s.measResponse none (rd body 3 1)
  else if rd msg 0 1 = 5 then s.sessionReply true body
  else Config.mctpAnswer s.fresh msg

/-- MCTP_MESSAGE (R535, R536): a GO with TYPE 0x01, or with a TYPE the mailbox lacks. A message type that is not accepted is answered
with BAD_TYPE (DESIGN CHOICE, log 26). -/
def execMctpMessage (value : Word32) (s : State) : Res :=
  .next <|
    if !s.mbGo value || s.mbType = 2 || s.mbType = 3 then s
    else if s.mbType != 1 then s.mbAnswer mbBadType
    else if !s.mbLengthOk then s.mbAnswer mbBadLength
    else if !s.mctpAccepts (rd s.mbBytes 0 1) then s.mbAnswer mbBadType
    else
      let t := s.mbAnswer mbOk ((s.mbBytes.take 1 ++ s.mctpReply s.mbBytes).take 65536)
      (if rd s.mbBytes 0 1 = 5 then t.sessionStep true (s.mbBytes.drop 1) else t).bump

/-- RECOVERY_WRITE (R535, R536, R539): a part of the image, at the offset SAGE_MB_ARG names. -/
def execRecoveryWrite (value : Word32) (s : State) : Res :=
  .next <|
    if !s.mbGo value || s.mbType != 2 then s
    else if s.fw.stage != .recovery then s.mbAnswer mbBadType
    else if !s.mbLengthOk || s.fw.mbArg.toNat % 4 != 0 || 2 ^ 25 < s.fw.mbArg.toNat + s.mbLength then s.mbAnswer mbBadLength
    else ({ s with fw := { s.fw with received := s.fw.received ++ [(s.fw.mbArg.toNat, s.mbBytes)] } } : State).mbAnswer mbOk

/-- The image received so far: bytes that no part covers are free. -/
def State.receivedImage (s : State) (n : Nat) : Bytes :=
  (s.fw.received.foldl (fun b w => overlay b w.1 w.2) (fit n (Config.freeBytes s.fresh n))).take n

/-- RECOVERY_FINISH (R535, R539): the received image is checked, written, read back and booted, or the device stays in recovery. -/
def execRecoveryFinish (value : Word32) (flashOk : Bool) (s : State) : Res :=
  .next <|
    let n := s.fw.mbArg.toNat
    if !s.mbGo value || s.mbType != 3 then s
    else if s.fw.stage != .recovery then s.mbAnswer mbBadType
    else if n < 4096 || 2 ^ 25 < n then s.mbAnswer mbBadLength
    else
      match s.verified (s.receivedImage n) with
      | none => (s.mbAnswer mbVerifyFailed).bump
      | some i =>
        if !flashOk then ((s.flash i false).mbAnswer mbFlashFailed).bump
        else (((s.mbAnswer mbOk).loaded i).bump).bootStored

end Sys2Proof.Machine
end

