-- ==== Sys2Proof/Machine/Ras.lean ====
section
/-! DEFINITION. The events of reliability: lost heartbeats, engine and memory faults (R30, R399), sparing (R566, R576), bypass and
reinstatement (R567, R569), failed host accesses (R76, R557). -/

namespace Sys2Proof.Machine

/-- CSQ_HEARTBEAT_LOST (R30, R565). -/
def execCsqHeartbeatLost (core : Nat) (s : State) : Res := .next (s.coreFail core 1)

/-- ILLEGAL_WORK_ENTRY (R30, R565). -/
def execIllegalWorkEntry (core : Nat) (s : State) : Res := .next (s.coreFail core 2)

/-- SPARE_ACTIVATED (R566): the spare joins the active set after its check, or becomes FAILED. -/
def execSpareActivated (cluster : Nat) (passed : Bool) (s : State) : Res :=
  .next <|
    match (s.clusterAt cluster).sparing, s.spareOf cluster with
    | some (seq, core), some sp =>
      let own := (s.owner cluster).toList
      let s := s.modCluster cluster fun c => { c with sparing := none }
      if passed then
        ((s.modCore sp fun c => { c with state := .active }).logCore core 6 0xFF sp seq false false true).capacity own
      else
        let s := (s.modCore sp fun c => { c with state := .failed }).logCore core 7 0xFF sp seq
        if (s.coresOf cluster).isEmpty then s.bypass cluster 4 seq else s.capacity own
    | _, _ => s

def spareKey (v : Word32) : Bool := bits v.toNat 24 8 == 0x69

/-- Whether an ACTIVATE of a cluster applies (R576). -/
def State.mayActivate (s : State) (cl : Nat) : Bool :=
  cl < 16 && (s.clusterAt cl).state == .active && (s.spareOf cl).isSome && (s.clusterAt cl).sparing.isNone && (s.coresOf cl).length < 8

/-- ACTIVATE (R576): a write of RAS_SPARE_CTRL with ACTION 1, or one that names no action. -/
def execActivate (value : Word32) (s : State) : Res :=
  .next <|
    let cl := bits value.toNat 0 8
    if !s.barLive || (spareKey value && bits value.toNat 8 2 = 2) then s
    else if spareKey value && bits value.toNat 8 2 = 1 && s.mayActivate cl then
      s.modCluster cl fun c => { c with sparing := some (0, (s.spareOf cl).getD 0) }
    else s.refuseWrite value

/-- Whether a core may be retired (R576): in the active set, its partition's TDI not CONFIG_LOCKED or RUN. -/
def State.mayRetire (s : State) (n : Nat) : Bool :=
  n < 144 && (s.clusterAt (n / 9)).state == .active &&
  ((s.coreAt n).state == .active || (s.coreAt n).state == .standIn || (s.coreAt n).state == .underTest) &&
  match s.owner (n / 9) with | some p => !s.tdiLocked p | none => true

/-- RETIRE (R576): a write of RAS_SPARE_CTRL with ACTION 2: the core fails as R566 states, logged as CORE event 5. -/
def execRetire (value : Word32) (s : State) : Res :=
  .next <|
    let n := bits value.toNat 0 8
    if !s.barLive || !spareKey value || bits value.toNat 8 2 != 2 then s
    else if s.mayRetire n then s.coreFail n 5 0 0xFF .retired
    else s.refuseWrite value

/-- REINSTATE (R569, R575). -/
def execReinstate (value : Word32) (s : State) : Res :=
  .next <|
    let cl := bits value.toNat 0 4
    let c := s.clusterAt cl
    if s.barLive && bits value.toNat 24 8 = 0x96 && value.getLsbD 8 && c.state == .bypassed && c.bypassAt.isNone then
      s.modCluster cl fun c => { c with state := .reinstatePending }
    else s

/-- CSV_HEARTBEAT_LOST (R30, R567). -/
def execCsvHeartbeatLost (cluster : Nat) (s : State) : Res := .next <| if cluster < 16 then s.bypass cluster 1 else s

/-- CSV_ERROR (R565): an error in the CSV while it handles a core failure. -/
def execCsvError (cluster : Nat) (s : State) : Res :=
  .next <|
    match (s.clusterAt cluster).sparing with
    | some (seq, _) => s.bypass cluster 1 seq
    | none => s

/-- SEQ of the newest entry of a kind for a unit. -/
def State.lastSeq (s : State) (kind unit : Nat) : Nat :=
  ((s.ras.log.filter fun e => e.kind == kind && e.unit == unit).getLast?.map (·.seq)).getD 0

/-- BYPASS_TIMEOUT (R565): a bypass not complete 10 ms after it began. -/
def execBypassTimeout (cluster : Nat) (s : State) : Res :=
  .next <|
    match (s.clusterAt cluster).bypassAt with
    | some t => if t + 250000 ≤ s.time.clk then s.startRestart .escalation (s.lastSeq kCluster cluster) else s
    | none => s

/-- SAGE_ECC_ERROR (R565). -/
def execSageEccError (s : State) : Res := .next <| if s.fw.stage == .running then s.startRestart .escalation else s

/-- Faults of a core within 1 s, and within 1 ms (R565). -/
def faultLimit (now : Nat) (l : List Nat) : Bool :=
  16 ≤ (l.filter fun t => now < t + 25000000).length || 3 ≤ (l.filter fun t => now < t + 25000).length

/-- ENGINE_FAULT (R399, R565): the commands with an entry in progress complete with 0x7001; 16 faults within 1 s, or 3 within 1 ms, fail
the core. A context that commits carries on (R398, R557). -/
def execEngineFault (core engine : Nat) (cids : List Nat) (s : State) : Res :=
  .next <|
    let st := (s.coreAt core).state
    if st != .active && st != .standIn && st != .underTest then s
    else
      let seq := s.ras.nextSeq
      let s := s.logCore core 8 engine
      let hit := cids.filter fun cid => s.ctxs.any fun x => x.core == core && x.cid == cid && x.state != .committing
      let s := hit.foldl (fun s cid => s.fault cid stInternal) s
      let l := ((s.coreAt core).faultsAt.filter fun t => s.time.clk < t + 25000000) ++ [s.time.clk]
      let s := s.modCore core fun c => { c with faultsAt := l }
      if faultLimit s.time.clk l then s.coreFail core 3 seq engine else s

/-- CARAFE_ECC_ERROR (R399): the command of the context slot, or every command with data in the staging window. -/
def execCarafeEccError (core : Nat) (slot : Option Nat) (cids : List Nat) (s : State) : Res :=
  .next <|
    let here : List Ctx := s.ctxs.filter fun x => x.core == core
    let hit : List Nat := match slot with
      | some n => (here.filter fun (x : Ctx) => x.slot == n).map (·.cid)
      | none => (here.map (·.cid)).filter fun cid => cids.contains cid
    hit.eraseDups.foldl (fun s cid => s.fault cid stPoison) s

/-- UNCORRECTABLE_FLIT (R30, R567): the flit is dropped and the transfer's command faults; 16 within 1 s bypass the cluster. -/
def execUncorrectableFlit (cluster : Nat) (cid : Option Nat) (s : State) : Res :=
  .next <|
    if 16 ≤ cluster || (s.clusterAt cluster).state != .active then s
    else
      let s := match cid with | some i => s.fault i stInternal | none => s
      let l := ((s.clusterAt cluster).flitErrorsAt.filter fun t => s.time.clk < t + 25000000) ++ [s.time.clk]
      let s := s.modCluster cluster fun c => { c with flitErrorsAt := if 16 ≤ l.length then [] else l }
      if 16 ≤ l.length then s.bypass cluster 2 else s

/-- A failed access that comes after a command's commit point leaves its completion as it is: a COMMAND entry is logged, which
LOG_SEQ names where it is the first (R557). -/
def State.lateFailure (s : State) (c : Cmd) (addr : Nat) : State :=
  let seq := s.ras.nextSeq
  let s := s.log { seq := 0, status := stHostAccess, kind := kCommand, scope := scCommand, part := c.part, fn := some c.fn, unit := c.qid
                   detail := detail [(24, toLe 2 c.ctag), (26, toLe 2 c.core), (28, toLe 1 c.op), (32, toLe 8 addr)] }
  s.modCmd c.id fun c => { c with logSeq := if c.logSeq = 0 then seq else c.logSeq }

/-- Whether the commit point of a finished command is the writing of its completion: until then a failed write of its output takes
it (R397); among the admin commands, those that only write to host memory. -/
def Cmd.lateCommit (c : Cmd) : Bool := if c.isAdmin then [0x01, 0x04, 0x0E].contains c.op else lateCommitOps.contains c.op && c.op != 0x7F

/-- HOST_ACCESS_FAILURE (R76, R110, R399, R557): recorded in AER; before its commit point the command completes with 0x4002. -/
def execHostAccessFailure (cid addr : Nat) (s : State) : Res :=
  .next <|
    match s.cmd? cid with
    | none => s
    | some c =>
      if c.origin.isSome || c.shadow || 2 ≤ statusClass c.status then s
      else
        let t := s.aerError c.fn false
        match c.phase with
        | .ready => if c.isAdmin then t.fail cid stHostAccess (toLe 8 addr) else s
        | .running => if c.isAdmin then s else t.fault cid stHostAccess (toLe 8 addr)
        | .committing | .flushing => if c.isAdmin then s else t.lateFailure c addr
        | .done =>
          if c.lateCommit then
            t.modCmd cid fun c => { c with status := stHostAccess, count := 0, stamp := 0, work := 0, cause := toLe 8 addr }
          else if c.isAdmin || c.op = 0x7F then s
          else t.lateFailure c addr
        | _ => s

/-- STAND_IN_DRAIN_TIMEOUT (R572): 1 ms after the core entered UNDER_TEST, or the stand-in stopped admitting, any context left on it is
killed and re-run. -/
def execStandInDrainTimeout (cluster : Nat) (s : State) : Res :=
  .next <|
    let c := s.clusterAt cluster
    match c.standIn with
    | none => s
    | some (core, since) =>
      if s.time.clk < since + 25000 then s
      else if c.standInPhase = 0 then s.rerunOn (· == core)
      else if c.standInPhase = 2 then s.rerunOn fun n => n / 9 == cluster && (s.coreAt n).state == .standIn
      else s

end Sys2Proof.Machine
end

