-- ==== Sys2Proof/Machine/Region.lean ====
section
/-! DEFINITION. REGION_WRITE and REGION_READ (R433 to R436). -/

namespace Sys2Proof.Machine

def Cmd.space (c : Cmd) : Nat := c.p 0 1
def Cmd.regionOff (c : Cmd) : Nat := c.p 8 8
def Cmd.regionLen (c : Cmd) : Nat := c.p 16 4

/-- The length of the space that a region command may address: partition memory, or the host region of scratchpad (R426, R434). -/
def PartSt.regionEnd (x : PartSt) (space : Nat) : Nat := if space = 0 then x.memBytes else x.feat 0x70 * 2 ^ 20

/-- The conditions of R433 and R434. -/
def State.regionErr (s : State) (write : Bool) (p : PartNo) (c : Cmd) : Option Err :=
  let x := s.part p
  let o := c.regionOff
  let n := c.regionLen
  firstErr
    [ bodyErr c [64] write (!write) false,
      failIf (c.handle != 0) (errAt stInvalidField 4),
      reservedErr c.data.param 64 [(1, 7), (20, 44)],
      failIf (c.space > 1) (errAt stInvalidField 64),
      failIf (o % 4 != 0) (errAt stInvalidField 72),
      failIf (n % 4 != 0 || n < 4 || 67108864 < n) (errAt stInvalidField 80),
      failIf (x.regionEnd c.space < o + n) (errAt stInvalidField 72),
      failIf (write && c.space == 0 && x.colls.any fun k => o < k.base + k.size && k.base < o + n) (errAt stInvalidField 72),
      if write then c.inErr n else c.outErr n ]

/-- The bursts of the region whose staging burst reads poison: those staged on a fenced channel. The staging buffer's place in the HBM
reserve is free; its bursts match the region's (R430, R435, R448; DESIGN CHOICE, log 48). -/
def State.stagedBad (s : State) (off len : Nat) : List Nat :=
  let base := s.assignable * 2 ^ 30 + Config.freeNat s.fresh % (2 ^ 29 - 2 ^ 20 - 1) * 64
  if !s.anyFenced then [] else (burstsOf off len).filter fun b => s.rawPoison (base + (b - off / 64 * 64))

/-- Poisoned staging bursts are written as poisoned bursts into the region, and logged (R435). -/
def State.writeStagedBad (s : State) (p : PartNo) (cid space : Nat) (bad : List Nat) : State :=
  let x := s.part p
  let t := bad.foldl (fun (s : State) b =>
    if space = 0 then
      let s := s.wrMem p none b (x.bytes b 64)
      { s with hbm := { s.hbm with poison := addOnce s.hbm.poison (x.hbmAddr b / 64) } }
    else s.modPart p fun x => { x with scratchPoison := addOnce x.scratchPoison (b / 256) }) s
  match bad with
  | [] => t
  | b :: _ => t.logLate cid stPoison (toLe 8 (if space = 0 then x.hbmAddr b else b))

/-- REGION_WRITE: the bytes of the input go by the staging buffer into partition memory or the host region (R435, R436). -/
def execRegionWrite (cid : Nat) (s : State) : Res :=
  .next <|
    s.onPart cid 0x70 (s.regionErr true) fun p c =>
      let bs := c.input.take c.regionLen
      let bad := s.stagedBad c.regionOff c.regionLen
      let s := if bad.isEmpty then s else s.bump
      let t := if c.space = 0 then s.wrMem p (some cid) c.regionOff bs else s.wrScratch p (s.sliceOf p) c.regionOff bs
      (t.writeStagedBad p cid c.space bad).finish cid { count := c.regionLen }

/-- REGION_READ: the bytes of partition memory or of the host region go to the host; poison ends it with 0x4001 (R436). -/
def execRegionRead (cid : Nat) (s : State) : Res :=
  .next <|
    s.onPart cid 0x71 (s.regionErr false) fun p c =>
      let x := s.part p
      if c.space = 0 then
        s.unpoisoned cid p [(c.regionOff, c.regionLen)] <|
          (s.output c 0 (x.bytes c.regionOff c.regionLen)).finish cid { count := c.regionLen }
      else
        match x.sPoison c.regionOff c.regionLen with
        | some _ => s.tearDown cid stPoison
        | none => (s.output c 0 (x.sBytes c.regionOff c.regionLen)).finish cid { count := c.regionLen }

end Sys2Proof.Machine
end

