-- ==== Sys2Proof/Machine/Regs.lean ====
section
/-! DEFINITION. REGISTER_WRITE (R55 to R57): what a 4-byte write stores in each register block, and the access rules. A write of a
register with a row of its own acts as that row. -/

namespace Sys2Proof.Machine

/-- A write of 1s clears bits. -/
def w1c (old v : Word32) : Word32 := old &&& ~~~v

/-! ### QM (R81, R83) -/

/-- Base and size registers accept writes only while ENABLE is 0; reserved bits read 0. -/
def State.writeQm (s : State) (fn : Fn) (off : Nat) (v : Word32) : State :=
  if off = 0x04 then after s (if v.getLsbD 0 then execQmEnable fn s else execQmDisable fn s)
  else if (s.fnAt fn).qmEnable then s
  else
    match off with
    | 0x10 => s.modFn fn fun f => { f with asqLo := v &&& 0xFFFFF000#32 }
    | 0x14 => s.modFn fn fun f => { f with asqHi := v }
    | 0x18 => s.modFn fn fun f => { f with acqLo := v &&& 0xFFFFF000#32 }
    | 0x1C => s.modFn fn fun f => { f with acqHi := v }
    | 0x20 => s.modFn fn fun f => { f with aqSize := v &&& 0x0FFF0FFF#32 }
    | _ => s

/-- A doorbell: the SQ tail, then the CQ head, 8 B a pair (R55, R56). -/
def State.writeDoorbell (s : State) (fn : Fn) (off : Nat) (v : Word32) : State :=
  after s (if off % 8 = 0 then execSqTailDoorbell fn (off / 8) v s else execCqHeadDoorbell fn (off / 8) v s)

/-! ### HIF (R61 to R67) -/

def State.writeHif (s : State) (off : Nat) (v : Word32) : State :=
  match off with
  | 0x14 => after s (execDpRestart v s)
  | 0x18 => { s with hif := { s.hif with resetCause := w1c s.hif.resetCause v } }
  | 0x1C => s.modFn .pf fun f => { f with evCause := w1c f.evCause v }
  | 0x20 => s.setEventMask .pf v
  | 0x2C => s.modFn .pf fun f => { f with bar2Ctrl := v &&& 0x18F#32 }
  | 0x30 => s.modFn .pf fun f => { f with bar2Base := v &&& 0x3FF#32 }
  | 0x40 => { s with hif := { s.hif with scratch0 := v } }
  | 0x44 => { s with hif := { s.hif with scratch1 := v } }
  | _ => s

/-- The VF HIF view, from its offset 0 (R67). -/
def State.writeVfHif (s : State) (p : PartNo) (off : Nat) (v : Word32) : State :=
  let fn := Fn.vf p
  match off with
  | 0x04 => s.modFn fn fun f => { f with evCause := w1c f.evCause v }
  | 0x08 => s.setEventMask fn v
  | 0x0C => s.modFn fn fun f => { f with bar2Ctrl := v &&& 0x180#32 }
  | 0x10 => s.modFn fn fun f => { f with bar2Base := v &&& 0x3FF#32 }
  | _ => s

/-! ### SAGE and THYME (R535, R547) -/

/-- A GO of the mailbox: by the request's TYPE (R535, R536). That a flash write succeeds is what the row RECOVERY_FINISH says; through
this path it is free. -/
def State.writeMbCtrl (s : State) (v : Word32) : State :=
  match s.mbType with
  | 2 => after s (execRecoveryWrite v s)
  | 3 => after s.bump (execRecoveryFinish v (Config.freeNat s.fresh % 2 == 0) s.bump)
  | _ => after s (execMctpMessage v s)

def State.writeSage (s : State) (off : Nat) (v : Word32) : State :=
  if off = 0x04 then s.writeMbCtrl v
  else if off = 0x08 then { s with fw := { s.fw with mbReq := v &&& 0xFF01FFFF#32 } }
  else if off = 0x10 then { s with fw := { s.fw with mbArg := v } }
  else if 0x10000 ≤ off && off < 0x20000 then { s with fw := { s.fw with mbReqBuf := setKey s.fw.mbReqBuf ((off - 0x10000) / 4) v } }
  else s

def State.writeThyme (s : State) (off : Nat) (v : Word32) : State :=
  match off with
  | 0x10 => after s (execThymeRate v s)
  | 0x14 => after s (execThymeOffsetAdj v s)
  | 0x18 => { s with time := { s.time with hostErr := v } }
  | 0x20 => after s (execThymeSnapTrig s)
  | _ => s

/-! ### PART, MEM, TEST (R416, R417, R453, R456) -/

def State.writePart (s : State) (off : Nat) (v : Word32) : State :=
  if off = 0x18 then after s (execPartAcctClear v s)
  else if 0x10000 ≤ off && off < 0x20000 then
    let o := off % 0x1000
    if 0x100 ≤ o && o < 0x180 then after s (execPartRegRate (Fin.ofNat 16 ((off - 0x10000) / 0x1000)) ((o - 0x100) / 4) v s) else s
  else s

/-- MEM_THERM_THRESHOLD, in host-assisted mode only (R444), and MEM_SCRUB_PERIOD keep values in their ranges; others are ignored (R453;
DESIGN CHOICE, log 25). -/
def State.writeMem (s : State) (off : Nat) (v : Word32) : State :=
  let b := bits v.toNat 0 8
  match off with
  | 0x08 => s.mapoutCtrl v
  | 0x0C => if s.devHost mBwTherm && 70 ≤ b && b ≤ 99 then { s with hbm := { s.hbm with thermThreshold := v &&& 0xFF#32 } } else s
  | 0x10 => if 1 ≤ b && b ≤ 168 then { s with hbm := { s.hbm with scrubPeriod := v &&& 0xFF#32 } } else s
  | _ => s

/-- A traffic generator's registers (R456, R457): a write of TG_CTRL without START and STOP keeps its fields. -/
def State.writeTest (s : State) (off : Nat) (v : Word32) : State :=
  let c := off / 0x1000
  if 256 ≤ c then s
  else
    match off % 0x1000 with
    | 0x00 =>
      if v.getLsbD 0 then after s (execTgStart c v s)
      else if v.getLsbD 1 then after s (execTgStop c v s)
      else s.modTg c fun t => { t with ctrl := v &&& tgKept }
    | 0x08 => s.modTg c fun t => { t with lineFirst := v &&& 0x7FFFFF#32 }
    | 0x0C => s.modTg c fun t => { t with lineCount := v &&& 0xFFFFFF#32 }
    | 0x10 => s.modTg c fun t => { t with seed := v }
    | 0x14 => if v = 0 then s else s.modTg c fun t => { t with passes := v }
    | _ => s

/-! ### MESH and RAS (R498 to R501, R575, R576) -/

/-- MESH_CTRL: DEVICE_ID only while ENABLE is 0 (R470, R499). -/
def State.writeMeshCtrl (s : State) (v : Word32) : State :=
  let t : State := if s.mesh.enable then s else { s with mesh := { s.mesh with deviceId := bits v.toNat 16 10 } }
  after t (if v.getLsbD 0 then execMeshEnable t else execMeshDisable t)

def State.writeMesh (s : State) (off : Nat) (v : Word32) : State :=
  if off = 0x04 then s.writeMeshCtrl v
  else if off = 0x10 then
    if 20 ≤ bits v.toNat 0 16 && bits v.toNat 0 16 ≤ 10000 then { s with mesh := { s.mesh with resendUs := v &&& 0xFFFF#32 } } else s
  else if off = 0x14 then after s (execRouteCommit v s)
  else if 0x100 ≤ off && off < 0x300 then if off % 0x40 = 0 then s.portCtrl ((off - 0x100) / 0x40) v else s
  else if 0x10000 ≤ off && off < 0x11000 then
    { s with mesh := { s.mesh with shadowRoutes := setKey s.mesh.shadowRoutes ((off - 0x10000) / 4) (v &&& routeKept) } }
  else s

def State.writeRas (s : State) (off : Nat) (v : Word32) : State :=
  match off with
  | 0x10 => after s (if spareKey v && bits v.toNat 8 2 = 2 then execRetire v s else execActivate v s)
  | 0x14 => after s (execReinstate v s)
  | _ => s

/-! ### The blocks (R55, R56) -/

/-- A 4-byte write in PF BAR0; beyond HIF and SAGE, only while Sage runs (R539). -/
def State.writePf (s : State) (off : Nat) (v : Word32) : State :=
  if off < 0x100000 then s.writeHif off v
  else if 0x1000000 ≤ off && off < 0x1400000 then s.writeSage (off - 0x1000000) v
  else if !s.barLive then s
  else if off < 0x400000 then s.writeQm .pf (off - 0x100000) v
  else if off < 0x1000000 then s.writeDoorbell .pf (off - 0x400000) v
  else if off < 0x1800000 then s.writeThyme (off - 0x1400000) v
  else if off < 0x2000000 then s.writePart (off - 0x1800000) v
  else if off < 0x2800000 then s.writeMem (off - 0x2000000) v
  else if off < 0x3000000 then s.writeMesh (off - 0x2800000) v
  else if off < 0x3800000 then s.writeRas (off - 0x3000000) v
  else if off < 0x4000000 then s.writeTest (off - 0x3800000) v
  else s

/-- A 4-byte write in VF BAR0 (R56). -/
def State.writeVf (s : State) (p : PartNo) (off : Nat) (v : Word32) : State :=
  if off < 0x10000 then s.writeQm (.vf p) off v
  else if off < 0x20000 then s.writeDoorbell (.vf p) (off - 0x10000) v
  else if off < 0x20100 then s.writeVfHif p (off - 0x20000) v
  else s

def State.write32 (s : State) (fn : Fn) (off : Nat) (v : Word32) : State :=
  match fn with
  | .pf => s.writePf off v
  | .vf p => s.writeVf p off v

/-- The size of BAR0 (R54). -/
def bar0Size : Fn → Nat
  | .pf => 2 ^ 26
  | .vf _ => 2 ^ 20

/-- Whether BAR0 accepts a write of a function: a VF's while Sage runs and its TDI allows it (R53, R516, R539). -/
def State.bar0Accepts (s : State) (fn : Fn) (tbit : Bool) : Bool :=
  match fn with
  | .pf => true
  | .vf p => s.barOpen fn && (!s.tdiLocked p || tbit)

/-- A 4-byte write in BAR4: a field of the MSI-X table; the pending bits are read only (R54, R69). -/
def State.writeMsix (s : State) (fn : Fn) (off : Nat) (v : Word32) : State :=
  let i := off / 16
  let e := getKey (s.fnAt fn).msixTable i (0, 0)
  let put : Word64 × Word32 → State := fun e => s.modFn fn fun f => { f with msixTable := setKey f.msixTable i e }
  if vectorsOf fn ≤ i then s
  else
    match off % 16 / 4 with
    | 0 => put ((e.1 &&& 0xFFFFFFFF00000000#64) ||| v.setWidth 64, e.2)
    | 1 => put ((e.1 &&& 0xFFFFFFFF#64) ||| (v.setWidth 64 <<< 32), e.2)
    | 2 => put (e.1, v)
    | _ =>
      if v.getLsbD 0 then s.modFn fn fun f => { f with msixOpen := f.msixOpen.filter (· != i) }
      else after s (execMsixUnmask fn (some i) s)

/-- An access of 4 or of 8 bytes, aligned to its size (R57). -/
def alignedAccess (off size : Nat) : Bool := (size == 4 && off % 4 == 0) || (size == 8 && off % 8 == 0)

/-- An aligned write of 4 or of 8 bytes, the latter as two, the lower first. -/
def write48 (w : Nat → Word32 → State → State) (offset size : Nat) (value : Word64) (s : State) : State :=
  let t := w offset (value.setWidth 32) s
  if size = 8 then w (offset + 4) ((value >>> 32).setWidth 32) t else t

/-- REGISTER_WRITE (R54, R57): aligned 4-byte and 8-byte writes of BAR0, and of the MSI-X table in BAR4; any other write of BAR0 is dropped
and logged, and any other write of BAR4 is dropped. -/
def execRegisterWrite (fn : Fn) (place : BarPlace) (size : Nat) (value : Word64) (tbit : Bool) (s : State) : Res :=
  .next <|
    match place with
    | .bar4 off => if alignedAccess off size then write48 (fun o v s => s.writeMsix fn o v) off size value s else s
    | .bar0 off =>
      if !s.bar0Accepts fn tbit || bar0Size fn ≤ off then s
      else if alignedAccess off size then write48 (fun o v s => s.write32 fn o v) off size value s
      else s.logHost 2 fn 0 scCommand 0 [(28, toLe 4 value.toNat)]

end Sys2Proof.Machine
end

