-- ==== Sys2Proof/Machine/SelfTest.lean ====
section
/-! DEFINITION. SELF_TEST (R122 to R125, R570 to R574): its submission, the stand-in of an extended test, pauses, and the end of a test. -/

namespace Sys2Proof.Machine

/-! ### Submission (R98, R122, R517) -/

/-- The clusters a test names: CLUSTERS, or every cluster in the submitter's scope (R98). -/
def State.testClusters (s : State) (c : Cmd) : BitVec 16 :=
  let m := BitVec.ofNat 16 (c.f 20 2)
  if m != 0 then m else match c.fn with | .pf => 0xFFFF#16 | .vf p => (s.part p).clusters

def Cmd.testPorts (c : Cmd) : BitVec 8 := BitVec.ofNat 8 (c.f 24 1)

/-- The PF gives CLUSTERS = 0: the device's own items run too (R571). -/
def Cmd.testsDevice (c : Cmd) : Bool := c.fn == .pf && c.f 20 2 == 0

/-- Whether a test runs on a resource that another one names. -/
def State.testClash (s : State) (clusters : BitVec 16) (ports : BitVec 8) (device : Bool) : Bool :=
  s.tests.any fun t => t.clusters &&& clusters != 0 || t.ports &&& ports != 0 || (t.device && device)

def testReserved (c : Cmd) : Option Err := reservedErr c.packet 0 [(18, 2), (22, 2), (25, 39)]

def State.testErr (s : State) (c : Cmd) : Option Err :=
  let m := s.testClusters c
  firstErr
    [ testReserved c, failIf (c.f 16 1 > 1) (errAt stInvalidField 16), failIf (c.f 17 1 > 1) (errAt stInvalidField 17),
      match c.fn with
      | .pf => failIf ((bitsSet 16 m.toNat).any fun n => match s.owner n with | some p => s.tdiLocked p | none => false) { st := stTdiState }
      | .vf p => firstErr [failIf (m &&& ~~~(s.part p).clusters != 0) (errAt stInvalidField 20), failIf (c.f 24 1 != 0) (errAt stInvalidField 24)],
      failIf (s.testClash m c.testPorts c.testsDevice) { st := stTestInProgress } ]

/-! ### The stand-in of an extended test (R572) -/

/-- The next core of a cluster to be tested, from a local number on: one in the active set. -/
def State.nextTested (s : State) (cl from_ : Nat) : Option Nat :=
  ((List.range 9).filter (from_ ≤ ·)).find? fun i => (s.coreAt (cl * 9 + i)).state == .active

/-- Step 1: the spare becomes STAND_IN and the next core UNDER_TEST, admitting nothing more; with no core left, the cluster is done. -/
def State.startStandIn (s : State) (cl : Nat) : State :=
  let c := s.clusterAt cl
  if c.standIn.isSome then s
  else match s.spareOf cl, s.nextTested cl c.testNext with
  | some sp, some i =>
    let s := s.modCore sp fun x => { x with state := .standIn, stopped := true }
    let s := s.modCore (cl * 9 + i) fun x => { x with state := .underTest, stopped := true }
    s.modCluster cl fun c => { c with standIn := some (cl * 9 + i, s.time.clk), standInPhase := 0, testNext := i + 1, gated := false }
  | _, _ => s.modCluster cl fun c => { c with testNext := 9 }

/-- One move of a cluster's stand-in: it joins once the core has drained, the items run, it stops, and once it has drained it is the
spare again and the core admits again. -/
def State.settleStandIn (s : State) (cl : Nat) : State :=
  let c := s.clusterAt cl
  match c.standIn, s.standInOf cl with
  | some (core, _), some sp =>
    if c.standInPhase = 0 then
      if s.busyCore core then s
      else (s.modCore sp fun x => { x with stopped := false }).modCluster cl fun c => { c with standInPhase := 1 }
    else if c.standInPhase = 1 then
      (s.modCore sp fun x => { x with stopped := true }).modCluster cl fun c => { c with standInPhase := 2, standIn := some (core, s.time.clk) }
    else if s.busyCore sp then s
    else (s.standInLeaves cl).startStandIn cl
  | _, _ => s

/-- Stand-ins that a test which has ended left to drain (R572 step 4). -/
def State.settleDrains (s : State) : State :=
  ((List.range 16).filter fun n => (s.clusterAt n).standInPhase == 2 && !(s.clusterAt n).underTest).foldl State.settleStandIn s

/-! ### Ports under test (R488, R496, R570) -/

/-- Whether all traffic of a port has an alternate (R496). -/
def State.hasAlternates (s : State) (n : Nat) : Bool :=
  s.mesh.routes.all fun e => !routeValid e.2 || (s.routePort e.1).map (·.1) != some n ||
    (routePorts e.2).any fun q => q != n && (s.portAt q).usable

/-- Ports a running test names take the state TEST once they are idle. -/
def State.settlePorts (s : State) (t : Test) : State :=
  ((List.range 8).filter fun n => t.ports.getLsbD n).foldl (fun s n =>
    let p := s.portAt n
    if p.usable && p.heldVc0.isEmpty && p.heldVc1.isEmpty && p.lastRx + 2500 ≤ s.time.clk && s.hasAlternates n then s.movePort n .test
    else s) s

/-- An extended test that names ports enters a mesh barrier with their peers; its tag is the root's device id. -/
def State.enterBarrier (s : State) (cid : Nat) (ports : BitVec 8) : State :=
  let peers := (((List.range 8).filter fun n => ports.getLsbD n).filterMap fun n => (s.portAt n).peerId).eraseDups
  if peers.isEmpty then s
  else
    let own := s.mesh.deviceId
    let root := peers.foldl min own
    let n := peers.length + 1
    let old := s.mesh.barriers.find? fun b => b.tag == root
    let b : Barrier := { tag := root, root := root == own, participants := n, since := s.time.clk, cid := cid + 1
                         arrived := if root = own then addOnce ((old.map (·.arrived)).getD []) own else [] }
    let s : State := { s with mesh := { s.mesh with barriers := (s.mesh.barriers.filter fun x => x.tag != root) ++ [b] } }
    if root = own then s.tryRelease root else s.barrierFrame root root n false

/-! ### Start, stop, pause, time-out -/

/-- SELF_TEST_START (R122, R571, R572). Any ACTION but STOP is this row's. -/
def execSelfTestStart (cid : Nat) (s : State) : Res :=
  .next <| s.admin cid 0x07 (fun c => c.f 16 1 != 1) s.testErr fun c =>
    let m := s.testClusters c
    let t : Test := { cid := cid, fn := c.fn, extended := c.f 17 1 == 1, clusters := m, ports := c.testPorts, device := c.testsDevice
                      startedAt := s.time.clk }
    let s := ({ s with tests := s.tests ++ [t] }).modCmd cid fun c => { c with phase := .flushing }
    let s := (bitsSet 16 m.toNat).foldl (fun s n => s.modCluster n fun c => { c with underTest := true }) s
    let s := if t.extended then (bitsSet 16 m.toNat).foldl (fun s n => (s.modCluster n fun c => { c with testNext := 0 }).startStandIn n) s else s
    if t.extended && t.ports != 0 then s.enterBarrier cid t.ports else s

/-- A test ends: with its barrier. -/
def State.finishTest (s : State) (cid : Nat) : State :=
  let s := s.endTest cid
  { s with mesh := { s.mesh with barriers := s.mesh.barriers.filter fun b => b.cid != cid + 1 } }

/-- The checks of a STOP: what R122 asks of every SELF_TEST. -/
def State.stopErr (s : State) (c : Cmd) : Option Err :=
  firstErr
    [ testReserved c, failIf (c.f 17 1 > 1) (errAt stInvalidField 17),
      match c.fn with
      | .pf => none
      | .vf p => firstErr [failIf (BitVec.ofNat 16 (c.f 20 2) &&& ~~~(s.part p).clusters != 0) (errAt stInvalidField 20),
          failIf (c.f 24 1 != 0) (errAt stInvalidField 24)] ]

/-- SELF_TEST_STOP (R124): every running test of the function ends with 0x300B, whatever TYPE, CLUSTERS and PORTS the STOP names: R124 asks
only for the same function (DESIGN CHOICE, log 48). -/
def execSelfTestStop (cid : Nat) (s : State) : Res :=
  .next <| s.admin cid 0x07 (fun c => c.f 16 1 == 1)
    s.stopErr fun c =>
    let mine := (s.tests.filter fun t => t.fn == c.fn).map (·.cid)
    (mine.foldl (fun s t => (s.finishTest t).fail t stTestNotCompleted) s).finish cid {}

/-- Whether a host command waits for a slot of a cluster under test: the head of its partition's admission queue has waited 10 µs
(R123, R572). -/
def State.headWaits (s : State) (t : Test) : Bool :=
  s.present.any fun p => (s.part p).clusters &&& t.clusters != 0 && match s.headOf p with
    | some h => (s.part p).headCid == h.id + 1 && (s.part p).headSince + 10000 ≤ s.now
    | none => false

/-- Cores that drain for a stand-in admit again while their test is paused, or stop again (R123, R572). -/
def State.drainAgain (s : State) (t : Test) (stop : Bool) : State :=
  (bitsSet 16 t.clusters.toNat).foldl (fun s n =>
    match (s.clusterAt n).standIn with
    | some (core, _) => if (s.clusterAt n).standInPhase = 0 then s.modCore core fun c => { c with stopped := stop } else s
    | none => s) s

def State.modTest (s : State) (cid : Nat) (f : Test → Test) : State := { s with tests := s.tests.map fun t => if t.cid == cid then f t else t }

/-- The ports of a test that are in TEST while some traffic has no alternate any more (R496). -/
def State.portsNeeded (s : State) (t : Test) : List Nat :=
  (List.range 8).filter fun n => t.ports.getLsbD n && (s.portAt n).state == .test && s.mesh.routes.any fun e =>
    routeValid e.2 && (routePorts e.2).contains n && !(routePorts e.2).any fun q => q != n && (s.portAt q).usable

/-- Whether a test runs item 5, which pauses while any I/O command is admitted and resumes after 100 µs without one (R571). -/
def Test.loads (t : Test) : Bool := t.extended && t.device
def State.ioAdmitted (s : State) : Bool := s.cmds.any fun c => !c.isAdmin && (c.phase == .running || c.phase == .committing)
def State.netBusy (s : State) (t : Test) : Bool := 
  t.loads && (s.ioAdmitted || match t.netSince with | some a => s.time.clk < a + 2500 | none => false)

/-- Whether the host needs a resource of a test now (R123). -/
def State.testNeeded (s : State) (t : Test) : Bool := s.headWaits t || !(s.portsNeeded t).isEmpty

/-- Whether a resource of a test is in use: by the host, by a context on a core that a stand-in is to take the place of, or by frames on a
port that was given back (R123). -/
def State.testBusy (s : State) (t : Test) : Bool :=
  s.testNeeded t ||
  (bitsSet 16 t.clusters.toNat).any (fun n => match (s.clusterAt n).standIn with | some (core, _) => s.busyCore core | none => false) ||
  (List.range 8).any fun n => t.ports.getLsbD n && (!(s.portAt n).heldVc0.isEmpty || !(s.portAt n).heldVc1.isEmpty)

/-- What passing time does to a test: it pauses where the host needs its resource, whose ports and draining cores it gives back; a paused
test notes when its resource was last in use; any other moves its stand-ins and ports on. -/
def State.settleTest (s : State) (t : Test) : State :=
  let s := if t.loads && s.ioAdmitted then s.modTest t.cid fun t => { t with netSince := some s.time.clk } else s
  if s.testNeeded t && !t.paused then
    let s := (s.portsNeeded t).foldl (fun s n => s.movePort n .up) s
    (s.modTest t.cid fun t => { t with paused := true, idleSince := s.time.clk }).drainAgain t false
  else if t.paused then if s.testBusy t then s.modTest t.cid fun t => { t with idleSince := s.time.clk } else s
  else
    let s := (bitsSet 16 t.clusters.toNat).foldl State.settleStandIn s
    if t.extended then s.settlePorts t else s

/-- TEST_STEP_RESUME (R123): the resource has been idle for 100 µs since its last use. -/
def execTestStepResume (cid : Nat) (s : State) : Res :=
  .next <|
    match s.tests.find? fun t => t.cid == cid with
    | none => s
    | some t =>
      if t.paused && !s.testBusy t && t.idleSince + 2500 ≤ s.time.clk then (s.modTest cid fun t => { t with paused := false }).drainAgain t true
      else s

/-- TEST_NOT_COMPLETED (R124): ten times its limit, pauses included: 20 s, or 100 min for an extended test. -/
def execTestNotCompleted (cid : Nat) (s : State) : Res :=
  .next <|
    match s.tests.find? fun t => t.cid == cid with
    | none => s
    | some t =>
      if s.phys < t.startedAt * 40 + (if t.extended then 6000000000000 else 20000000000) then s
      else (s.finishTest cid).fail cid stTestNotCompleted

/-! ### The end of a test (R125, R571 to R574) -/

/-- The items a test runs, with their units: 1 and 2 on cores, 3 and 4 on clusters, 5, 6 and 8 on the device, 7 on ports. -/
def Test.hasItem (t : Test) (x : Nat × Nat) : Bool :=
  match x.1 with
  | 1 => t.clusters.getLsbD (x.2 / 9)
  | 2 => t.extended && t.clusters.getLsbD (x.2 / 9)
  | 3 | 4 => t.clusters.getLsbD x.2
  | 5 => t.extended && t.device && x.2 = 0
  | 6 => t.extended && t.device && x.2 < 256
  | 7 => t.extended && t.ports.getLsbD x.2
  | 8 => t.device && x.2 = 0
  | _ => false

/-- Items that cannot run under their condition: 2 where the spare is not SPARE, 3 where SCRATCH is not 0 (R572, R573). -/
def State.cannotRun (s : State) (t : Test) : List (Nat × Nat) :=
  if !t.extended then []
  else
    (bitsSet 16 t.clusters.toNat).flatMap fun n =>
      let none_ := (s.clusterAt n).state == .active && (s.spareOf n).isNone && (s.clusterAt n).standIn.isNone
      (if none_ then ((s.coresOf n).filter fun i => (s.coreAt i).state == .active).map fun i => (2, i) else []) ++
      (match s.owner n with | some p => if (s.part p).scratch != 0 then [(3, n)] else [] | none => [])

/-- Whether a cluster's part of an extended test is at its end: every core has been through, or the core under test has failed. -/
def State.clusterTested (s : State) (failed : List (Nat × Nat)) (n : Nat) : Bool :=
  match (s.clusterAt n).standIn with
  | none => (s.clusterAt n).testNext == 9
  | some (core, _) => (s.clusterAt n).standInPhase == 1 && (failed.contains (1, core) || failed.contains (2, core))

def itemKind (item : Nat) : Nat := match item with | 1 | 2 => 0 | 3 => 2 | 4 => 1 | 6 => 3 | 7 => 4 | _ => 5

/-- A TEST entry (R560, kind 0x0D). -/
def State.logTest (s : State) (x : Nat × Nat) (result : Nat) : State :=
  let cl := if x.1 ≤ 2 then x.2 / 9 else x.2
  s.log { seq := 0, kind := kTest, unit := x.2, status := if result = 1 then stTestFailed else 0
          scope := match x.1 with | 1 | 2 => scCore | 3 | 4 => scCluster | 8 => scSage | _ => scDevice
          part := if x.1 ≤ 4 then s.owner cl else none
          detail := detail [(24, toLe 1 x.1), (25, toLe 1 result), (26, toLe 1 (itemKind x.1))] }

/-- A failed item: its entry, then its action (R571). -/
def State.itemFailed (s : State) (x : Nat × Nat) : State :=
  let seq := s.ras.nextSeq
  let s := s.logTest x 1
  match x.1 with
  | 1 | 2 => s.coreFail x.2 4 seq
  | 3 => s.bypass x.2 3 seq
  | 4 => s.bypass x.2 2 seq
  | 7 => s.movePort x.2 .down
  | _ => s

/-- SELF_TEST_COMPLETE (R125, R571): each failed item is logged and acted on; RESULT_COUNT counts them and LOG_SEQ names the first. -/
def execSelfTestComplete (cid : Nat) (failed notRun : List (Nat × Nat)) (s : State) : Res :=
  .next <|
    match s.tests.find? fun t => t.cid == cid with
    | none => s
    | some t =>
      let cannot := s.cannotRun t
      let ports := if t.barrierFailed then ((List.range 8).filter fun n => t.ports.getLsbD n).map fun n => (7, n) else []
      let bad := ((failed.filter fun x => t.hasItem x && !cannot.contains x) ++ ports).eraseDups
      let skip := (cannot ++ (notRun.filter fun x => t.hasItem x && !bad.contains x)).eraseDups
      if t.paused || s.netBusy t || (t.extended && !(bitsSet 16 t.clusters.toNat).all fun n => s.clusterTested bad n) then s
      else
        let seq := s.ras.nextSeq
        let s := bad.foldl State.itemFailed s
        let s := skip.foldl (fun s x => s.logTest x 2) s
        let s := s.finishTest cid
        if bad.isEmpty then s.finish cid {}
        else (s.finish cid { status := stTestFailed, count := bad.length }).modCmd cid fun c => { c with logSeq := seq }

end Sys2Proof.Machine
end

