-- ==== Sys2Proof/Machine/Streams.lean ====
section
/-! DEFINITION. Transfers and streams (R367 to R375), Carafe (R377), persistent streams (R379), the Ristretto path (R380), page
faults (R49, R51, R381, R382), context switches (R384, R385). -/

namespace Sys2Proof.Machine

/-! ### Choosing a stream (R372 to R375) -/

/-- The place of element e in a stream's buffer, which it wraps around. -/
def Stream.bufAt (x : Stream) (e : Nat) : Nat := x.carafeOff + e * x.elem % max 1 x.bufBytes

/-- Index e of an INDEXED stream (R369, R370): from the list in Carafe, or from the buffer of the stream that produces it; none where that
stream's element has not landed. -/
def State.indexOf (s : State) (x : Stream) (e : Nat) : Option Nat :=
  let w := if x.index64 then 8 else 4
  if x.indexSrc.testBit 15 then some (le (s.carafeBytes x.core (x.indexOff + w * e) w))
  else
    match s.streams.find? fun y => y.core == x.core && y.num == x.indexSrc % 64 with
    | some y => if w * e + w ≤ y.pos * y.elem then some (le (s.carafeBytes x.core (y.carafeOff + w * e % max 1 y.bufBytes) w)) else none
    | none => none

/-- Whether element e is a hole: an index of ones (R370). -/
def State.isHole (s : State) (x : Stream) (e : Nat) : Bool :=
  x.kind == 2 && s.indexOf x e == some (if x.index64 then 2 ^ 64 - 1 else 2 ^ 32 - 1)

/-- The address of a stream's element (R370). -/
def State.elemAddr (s : State) (x : Stream) (e : Nat) : Nat :=
  match x.kind with
  | 1 => (x.base + x.stride * e).toNat
  | 2 => (x.base + x.stride * (s.indexOf x e).getD 0).toNat
  | _ => x.base + e * x.elem

/-- How many of the next elements of an indexed stream have their index (R370). -/
def State.indexed (s : State) (x : Stream) (n : Nat) : Nat :=
  if x.kind != 2 || x.indexSrc.testBit 15 then n
  else ((List.range n).takeWhile fun i => (s.indexOf x (x.issued + i)).isSome).length

/-- The die-network requests of so many elements: at most 256 B each (R367). -/
def Stream.requests (x : Stream) (n : Nat) : Nat :=
  if x.kind = 0 then ceilDiv (n * x.elem) 256 else n * ceilDiv x.elem 256

/-- The requests a core has outstanding, of 1,024 (R367). -/
def State.requestsOut (s : State) (core : Nat) : Nat :=
  ((s.streams.filter fun x => x.core == core).map fun x => x.requests (ceilDiv x.outBytes (max 1 x.elem))).foldl (· + ·) 0

/-- The elements of a stream's next transfer (R367, R373): at most 4 KiB and no 4 KiB boundary crossed in host space, or 256
elements of an indexed stream, none at or beyond DEP_AT. -/
def State.nextElems (s : State) (x : Stream) : Nat :=
  let room := if x.space = 0 then 4096 - s.elemAddr x x.issued % 4096 else 4096
  let fit_ := if x.kind = 2 then 256 else max 1 (room / max 1 x.elem)
  let left := (match x.depAt with | some d => min d x.count | none => x.count) - x.issued
  s.indexed x (min left fit_)

/-- Transfers an engine of a core has outstanding over all its streams (R19, R367). -/
def State.engineBusy (s : State) (core engine : Nat) : Nat :=
  ((s.streams.filter fun x => x.core == core && x.engine == engine).map (·.outstanding)).foldl (· + ·) 0

/-- Whether a stream is eligible (R374). -/
def State.eligible (s : State) (x : Stream) : Bool :=
  s.nextElems x != 0 && (x.write || x.unread + x.outBytes + s.nextElems x * x.elem ≤ x.bufBytes) && !x.halted && !x.dead && x.armedSince.isNone &&
  s.engineBusy x.core x.engine < 6

/-- F of R374. -/
def Stream.fill (x : Stream) : Nat := if x.write then x.bufBytes - x.outBytes else x.unread + x.outBytes

/-- Whether one drain time F ÷ Rate is smaller than another (R374). -/
def drainLt (a b : Stream) : Bool :=
  if a.fill = 0 then b.fill != 0
  else if b.fill = 0 || a.rate = 0 then false
  else if b.rate = 0 then true
  else a.fill * b.rate < b.fill * a.rate

/-- Whether the drain time is below a number of cycles. -/
def Stream.drainsIn (x : Stream) (cycles : Nat) : Bool := x.fill == 0 || (x.rate != 0 && x.fill < cycles * x.rate)

/-- A stream takes the class of its command; background work is class 0 (R375). -/
def State.streamCls (s : State) (x : Stream) : Nat := match s.cmd? x.cid with | some c => c.cls | none => 0

def State.streamPrio (s : State) (x : Stream) : Nat := match s.cmd? x.cid with | some c => c.prio | none => 0

def State.streamAdmit (s : State) (x : Stream) : Nat := match s.cmd? x.cid with | some c => c.admitTime | none => s.now

/-- The order of service among streams of R375: drain time, class, PRIORITY, admission, number. -/
def State.servedBefore (s : State) (a b : Stream) : Bool :=
  if drainLt a b then true
  else if drainLt b a then false
  else if s.streamCls a != s.streamCls b then s.streamCls b < s.streamCls a
  else if s.streamPrio a != s.streamPrio b then s.streamPrio b < s.streamPrio a
  else if s.streamAdmit a != s.streamAdmit b then s.streamAdmit a < s.streamAdmit b
  else a.num < b.num

/-- Eligible without service for 4,096 cycles of 0.8 ns (R375 rule 2). -/
def State.starved (s : State) (x : Stream) : Bool := 32768 ≤ (s.time.clk - x.eligibleSince) * 400

/-- The stream a core's STU serves next (R375). -/
def State.pickStream (s : State) (core : Nat) : Option Stream :=
  let ok := s.streams.filter fun x => x.core == core && s.eligible x
  match bestBy (fun a b => a.eligibleSince < b.eligibleSince) (ok.filter s.starved) with
  | some x => some x
  | none =>
    let busy := ok.any fun x => s.streamCls x != 0 && x.drainsIn 2500
    bestBy s.servedBefore (ok.filter fun x => s.streamCls x != 0 || !busy)

/-! ### Translation and page requests -/

/-- The PASID of the pair a command came through (R50). -/
def State.pasidOf (s : State) (cid : Nat) : Option Nat := (s.cmd? cid).bind fun c => (s.pair? c.fn c.qid).bind (·.pasid)

def State.modStream (s : State) (core num : Nat) (f : Stream → Stream) : State :=
  { s with streams := s.streams.map fun x => if x.core == core && x.num == num then f x else x }

/-- A halted stream's page request is sent where the allocation has room (R381). -/
def State.askPage (s : State) (x : Stream) : State :=
  if x.asked || !x.halted || !s.mayAsk x.fn then s
  else (s.modStream x.core x.num fun y => { y with asked := true }).sendPageRequest x.fn (s.pasidOf x.cid) (s.elemAddr x x.issued / 4096)

/-- Page requests that waited for the allocation: of streams, then of completion writes. -/
def State.askWaiting (s : State) (fn : Fn) : State :=
  ((s.streams.filter fun x => x.fn == fn && x.halted && !x.asked && !x.dead).foldl State.askPage s).askCompletions fn

/-- The contexts of a command change state: those that can still change. -/
def State.setCtx (s : State) (cid : Nat) (from_ : List CtxState) (into : CtxState) : State :=
  { s with ctxs := s.ctxs.map fun x => if x.cid == cid && from_.contains x.state then { x with state := into } else x }

/-- A stream halts on a page fault: POS stays, its page request goes out, its context is HALTED (R381). -/
def State.haltStream (s : State) (x : Stream) : State :=
  let s := s.modStream x.core x.num fun y => { y with halted := true }
  let s := s.askPage { x with halted := true }
  s.setCtx x.cid [.ready, .running, .waiting] .halted

/-- POS after elements have landed: it advances in element order (R371). -/
def advancePos (landed : List Nat) : Nat → Nat → Nat
  | 0, pos => pos
  | fuel + 1, pos => if landed.contains pos then advancePos landed fuel (pos + 1) else pos

/-- Elements are done: POS advances over them, and a stream at its COUNT leaves the table, or is ARMED where it is persistent (R371, R379). -/
def State.elemsDone (s : State) (y : Stream) (new : List Nat) : State :=
  let landed := y.landed ++ new
  let pos := advancePos landed landed.length y.pos
  let y := { y with pos := pos, landed := landed.filter fun e => pos ≤ e, armedSince := if pos = y.count then some s.time.clk else y.armedSince }
  if pos = y.count && !y.persist then { s with streams := s.streams.filter fun z => !(z.core == y.core && z.num == y.num) }
  else s.modStream y.core y.num fun _ => y

/-- The intermediate quadrant on the way of a stream's request (R18): to the home slice of a line of partition memory, the slice of a
scratchpad line, the core, or the port towards a member. Host memory lies in no quadrant. -/
def State.streamVia (s : State) (x : Stream) (addr : Nat) : Option Nat :=
  let here := quadOfCore x.core
  match (s.cmd? x.cid).bind (·.part), x.space with
  | some p, 1 => crossing here (quadOfCluster (s.homeOf p addr)) ((s.part p).hbmAddr addr / 256)
  | some p, 2 => crossing here (quadOfCluster (s.sliceOf p (addr / 256))) (addr / 256)
  | _, 3 => crossing here (quadOfCore x.member) (addr / 256)
  | _, 4 => (s.routePort x.member).bind fun r => crossing here (quadOfPort r.1) (addr / 256)
  | _, _ => none

/-- A transfer of a stream is issued; it waits where the core's request table has no room (R367). A hole is done at once, its buffer space
unchanged (R370). -/
def State.issueStream (s : State) (x : Stream) : State :=
  let n := s.nextElems x
  if 1024 < s.requestsOut x.core + x.requests n then s
  else
    let addr := s.elemAddr x x.issued
    let holes := (List.range n).map (x.issued + ·) |>.filter (s.isHole x)
    let real := n - holes.length
    let s := if x.space = 0 then s.translate x.fn (s.pasidOf x.cid) (addr / 4096) else s
    s.elemsDone { x with
      issued := x.issued + n
      outstanding := x.outstanding + if real = 0 then 0 else 1
      outBytes := x.outBytes + real * x.elem
      via := s.streamVia x addr
      eligibleSince := s.time.clk } holes

/-- The bytes of a read stream's element: of the command's input, partition memory, scratchpad or another core's Carafe; a member's come in
DATA frames that the state does not hold apart, so they are free. -/
def State.elemBytes (s : State) (x : Stream) (e : Nat) : Bytes :=
  let addr := s.elemAddr x e
  let free := Config.freeBytes (sub s.fresh e) x.elem
  match (s.cmd? x.cid).bind (·.part), x.space with
  | _, 0 => match x.dataOff, s.cmd? x.cid with
    | some o, some c => fit x.elem (slice c.data.input (o + e * x.elem) x.elem)
    | _, _ => fit x.elem free
  | some p, 1 => (s.part p).bytes addr x.elem
  | some p, 2 => (s.part p).sBytes addr x.elem
  | _, 3 => s.carafeBytes x.member addr x.elem
  | _, _ => fit x.elem free

/-- A read stream's element lands in its buffer: of a walker stream in the slot's fetch buffer, of any other in Carafe (R369, R376). -/
def State.landElem (s : State) (x : Stream) (e : Nat) : State :=
  if x.write then s
  else if x.engine = 1 then s.walkerFetch x.core x.ctxSlot (s.elemBytes x e)
  else s.loadCarafe x.core (x.bufAt e) (s.elemBytes x e)

/-- The first Ristretto entry of a core, where it is served now: after 8 in a row a descriptor stream with T below 512 cycles goes
first (R380). -/
def State.pickRistretto (s : State) (core : Nat) : Option Ristretto :=
  if 8 ≤ (s.coreAt core).ristrettoRun && s.streams.any (fun x => x.core == core && s.eligible x && x.drainsIn 512) then none
  else s.ristretto.find? fun r => r.core == core

/-- A Ristretto entry as a stream of one element. -/
def Ristretto.stream (r : Ristretto) : Stream :=
  { core := r.core, num := 64, engine := 0, cid := r.cid, ctxSlot := r.ctxSlot, elem := r.len, base := r.addr, count := 1, bufBytes := 4096
    space := r.space, write := r.write, carafeOff := r.carafeOff, dataOff := r.dataOff }

/-- A Ristretto entry that meets a page fault becomes a one-element stream (R380, R381). -/
def State.ristrettoFault (s : State) (r : Ristretto) : State :=
  match (List.range 64).find? fun n => !s.streams.any fun x => x.core == r.core && x.num == n with
  | none => s
  | some n =>
    let x : Stream := { r.stream with num := n, fn := ((s.cmd? r.cid).map (·.fn)).getD .pf, eligibleSince := s.time.clk }
    { s with streams := s.streams ++ [x], ristretto := s.ristretto.erase r }.haltStream x

/-- TRANSFER_ISSUE (R374, R375, R380, R381): the STU of a core serves its Ristretto queue or the stream of smallest drain time. -/
def execTransferIssue (core : Nat) (fault : Bool) (s : State) : Res :=
  .next <|
    match s.pickRistretto core with
    | some r =>
      if fault && r.space == 0 then s.ristrettoFault r
      else
        let s := if r.space = 0 then s.translate (((s.cmd? r.cid).map (·.fn)).getD .pf) (s.pasidOf r.cid) (r.addr / 4096) else s
        ({ s with ristretto := s.ristretto.erase r }.landElem r.stream 0).bump.modCore core fun c => { c with ristrettoRun := c.ristrettoRun + 1 }
    | none =>
      match s.pickStream core with
      | none => s
      | some x =>
        let s := s.modCore core fun c => { c with ristrettoRun := 0 }
        if fault && x.space == 0 then s.haltStream x else s.issueStream x

/-- TRANSFER_LANDED (R371, R372, R379): elements land or are accepted; POS and credit advance; a complete stream leaves the table, or
is ARMED where it is persistent. Data for a killed command is dropped (R386). -/
def execTransferLanded (core stream : Nat) (elems : List Nat) (s : State) : Res :=
  .next <|
    match s.streams.find? fun x => x.core == core && x.num == stream with
    | none => s
    | some x =>
      let new := (elems.filter fun e => x.pos ≤ e && e < x.issued && !x.landed.contains e).eraseDups
      if x.dead || new.isEmpty then s
      else
        let s := (new.foldl (fun s e => s.landElem x e) s).bump
        let out := x.outBytes - new.length * x.elem
        let rate := ((x.rate : Int) + ((new.length * x.elem / 64 : Int) - x.rate) / 8).toNat
        (s.elemsDone { x with
          outBytes := out
          outstanding := if out = 0 then 0 else min x.outstanding (ceilDiv out (max 1 x.elem))
          rate := rate } new).setCtx x.cid [.waiting] .ready

/-- The first 32 B of a stream's descriptor, which its STREAM entry carries (R368, R369). -/
def Stream.head (x : Stream) : Bytes :=
  toLe 1 ((if x.persist then 128 else 0) + (if x.depAt.isSome then 64 else 0) + (if x.write then 32 else 0) + x.kind) ++ toLe 1 x.space ++
    toLe 1 x.engine ++ toLe 1 x.ctxSlot ++ toLe 4 x.elem ++ toLe 8 x.base ++ toLe 8 (unsign 64 x.stride) ++ toLe 8 x.count

/-- The STREAM entry of a stream fault (R368, R560). -/
def State.logStream (s : State) (x : Stream) (status : Nat) : State :=
  match s.cmd? x.cid with
  | none => s
  | some c =>
    s.log { seq := 0, status := status, kind := kStream, scope := scCommand, part := c.part, fn := some c.fn, unit := c.qid
            detail := detail [(24, toLe 8 x.pos), (32, x.head)] }

/-- PAGE_REQUEST_RESPONSE (R51, R381, R382): Success resumes the stream; any other code ends the command with 0x4003; the response of a
killed command's stream is discarded. -/
def execPageRequestResponse (core stream : Nat) (code : Nat) (s : State) : Res :=
  .next <|
    match s.streams.find? fun x => x.core == core && x.num == stream && x.halted && x.asked with
    | none => s
    | some x =>
      let s := s.pageAnswered x.fn
      let gone := fun s : State => { s with streams := s.streams.filter fun z => !(z.core == core && z.num == stream) }
      let s :=
        if x.dead then gone s
        else if code = 0 then
          ((s.modStream core stream fun y => { y with halted := false, asked := false, eligibleSince := s.time.clk }).translate x.fn
            (s.pasidOf x.cid) (s.elemAddr x x.issued / 4096)).setCtx x.cid [.halted] .ready
        else (gone (s.logStream x stPageRequest)).tearDown x.cid stPageRequest (toLe 8 (s.elemAddr x x.issued))
      s.askWaiting x.fn

/-- CARAFE_SWAP (R377): the staging windows of a core swap roles once every transfer has landed and every write has issued its last
byte. -/
def execCarafeSwap (core : Nat) (s : State) : Res :=
  .next <|
    let mine := s.streams.filter fun x => x.core == core && !x.dead
    if mine.all fun x => if x.write then x.issued == x.count else x.outBytes == 0 then
      s.modCore core fun c => { c with computeWindow := !c.computeWindow }
    else s

/-- PERSISTENT_STREAM_TIMEOUT: ARMED for 100 ms without being re-armed (R379). -/
def execPersistentStreamTimeout (core stream : Nat) (s : State) : Res :=
  .next <|
    { s with streams := s.streams.filter fun x =>
        !(x.core == core && x.num == stream && x.persist &&
          match x.armedSince with | some t => decide (t * 40 + 100000000 ≤ s.phys) | none => false) }

/-- ATS_INVALIDATION (R49): the translations are gone, and the invalidation completes. -/
def execAtsInvalidation (fn : Fn) (page : Nat) (pages : Nat) (s : State) : Res :=
  .next <| { s with atc := s.atc.filter fun t => !(t.1 == fn && page ≤ t.2.2 && t.2.2 < page + pages) }.emit (.invalidated fn page)

/-! ### Context switches (R385) -/

/-- A context's class and deadline, for the choice of the CSQ. -/
def State.ctxBefore (s : State) (a b : Ctx) : Bool :=
  let ca := s.cmd? a.cid
  let cb := s.cmd? b.cid
  let cls := fun c : Option Cmd => (c.map (·.cls)).getD 0
  let due := fun c : Option Cmd => (c.bind (·.deadline)).getD (2 ^ 64)
  if cls ca != cls cb then cls cb < cls ca
  else if due ca != due cb then due ca < due cb
  else a.slot < b.slot

/-- CONTEXT_SWITCH (R385): the running context stalls, finishes or has run 4,096 cycles while a higher class is READY; the READY
context of highest class, then earliest deadline, then lowest slot runs next. -/
def execContextSwitch (core : Nat) (cause : Nat) (s : State) : Res :=
  .next <|
    let here := s.ctxs.filter fun x => x.core == core
    let now := here.find? fun x => x.state == .running
    let ready := here.filter fun x => x.state == .ready
    let higher := match now with
      | some x => ready.any fun y => ((s.cmd? x.cid).map (·.cls)).getD 0 < ((s.cmd? y.cid).map (·.cls)).getD 0
      | none => true
    if (cause = 2 && !higher) || (cause = 1 && now.isSome) then s
    else
      let put : CtxState := if cause = 0 then .waiting else .ready
      match bestBy s.ctxBefore ready with
      | none => { s with ctxs := s.ctxs.map fun x => if now = some x && cause != 2 then { x with state := put } else x }
      | some y => { s with ctxs := s.ctxs.map fun x =>
          if x = y then { x with state := .running } else if now = some x then { x with state := put } else x }

end Sys2Proof.Machine
end

