-- ==== Sys2Proof/Machine/Tdisp.lean ====
section
/-! DEFINITION. TDISP (R515 to R517) and the IDE streams (R52). A TDISP message comes from the TSM over a secured SPDM session, and its
answer names the partition whose VF it concerns. -/

namespace Sys2Proof.Machine

/-! ### Answers -/

/-- A TDISP answer of Sage; none while it does not run. -/
def State.tdispSay (s : State) (p : PartNo) (name : String) (content : Bytes := []) : State := s.emit (.tdisp p name content)

/-- A message not valid in the present state (R515). -/
def State.tdispWrong (s : State) (p : PartNo) : State := s.tdispSay p "INVALID_INTERFACE_STATE"

def State.tdiAt (s : State) (p : PartNo) : TdiState := (s.fnAt (.vf p)).tdi

/-! ### Transitions (R515) -/

/-- The conditions of a LOCK: the partition exists, ENABLE is 0, Memory Space Enable is 1, the stream is secure. -/
def State.mayLock (s : State) (p : PartNo) (stream : Nat) : Bool :=
  (s.part p).present && !(s.fnAt (.vf p)).qmEnable && (s.fnAt (.vf p)).memSpace && stream < 20 && s.sec.ideSecure.contains stream

/-- What runs in a partition when its TDI locks: the PF's commands on it meet the TDI (R80), the steps of other devices and shadow
scans end. -/
def State.clearForLock (s : State) (p : PartNo) : State :=
  let pf := s.cmds.filter fun c => c.part == some p && !c.isAdmin && c.origin.isNone && !c.shadow
  let s := pf.foldl (fun s c => s.tearDown c.id stTdiState) s
  s.endWhere fun c => c.part == some p && !c.isAdmin && (c.origin.isSome || c.shadow)

/-- LOCK_INTERFACE_REQUEST (R509, R515). -/
def execLockInterfaceRequest (part : PartNo) (stream : Nat) (s : State) : Res :=
  .next <|
    if !s.tsmLive then s
    else if s.tdiAt part != .unlocked then s.tdispWrong part
    else if !s.mayLock part stream then s.tdispSay part "INVALID_DEVICE_CONFIGURATION"
    else
      let s := ((s.clearForLock part).destroyContents part).rekeyPart part
      let s := s.modPart part fun x => { x with declared := [] }
      (s.modFn (.vf part) fun f => { f with tdi := .locked, tdiStream := some stream }).tdispSay part "LOCK_INTERFACE_RESPONSE"

/-- START_INTERFACE_REQUEST (R515): the QM may fetch from the VF's pairs. -/
def execStartInterfaceRequest (part : PartNo) (s : State) : Res :=
  .next <|
    if !s.tsmLive then s
    else if s.tdiAt part != .locked then s.tdispWrong part
    else (s.modFn (.vf part) fun f => { f with tdi := .run }).tdispSay part "START_INTERFACE_RESPONSE"

/-- STOP_INTERFACE_REQUEST (R515): the VF's pairs are deleted, the contents destroyed as at LOCK, a new key made. -/
def execStopInterfaceRequest (part : PartNo) (s : State) : Res :=
  .next <|
    if !s.tsmLive then s
    else if s.tdiAt part == .unlocked then s.tdispWrong part
    else
      let s := s.deletePairs fun q => q.fn == .vf part
      let s := ((s.clearForLock part).destroyContents part).rekeyPart part
      (s.modFn (.vf part) fun f => { f with tdi := .unlocked, tdiStream := none, qmReady := false }).tdispSay part "STOP_INTERFACE_RESPONSE"

/-! ### Reports (R515, R517) -/

/-- The base of a VF BAR: the SR-IOV capability's two registers at an offset (PRESUMED, log 23), and the VF's place in it (R54). -/
def State.vfBarBase (s : State) (p : PartNo) (off size : Nat) : Nat :=
  (s.cfgBits .pf off).toNat + 2 ^ 32 * (s.cfgBits .pf (off + 4)).toNat + p.val * size

/-- The System Page Size in force: 64 KiB where its bit is set, else 4 KiB (R54; PRESUMED place, log 23). -/
def State.pageSize (s : State) : Nat := if (s.cfgBits .pf 0x330).getLsbD 4 then 65536 else 4096

/-- One MMIO range of the report: first 4 KiB page, pages, attributes. -/
def mmioRange (base size attr : Nat) : Bytes := toLe 8 (base / 4096) ++ toLe 4 (size / 4096) ++ toLe 4 attr

/-- The report (R517): three MMIO ranges, the last with the MSI-X table attribute, then the device-specific data. -/
def State.tdiReport (s : State) (p : PartNo) : Bytes :=
  let table := max 4096 s.pageSize
  let data := s.layoutEntry p ++ fit 16 Config.identityTag
  toLe 4 3 ++ mmioRange (s.vfBarBase p 0x334 (2 ^ 20)) (2 ^ 20) 0 ++ mmioRange (s.vfBarBase p 0x33C (2 ^ 32)) (2 ^ 32) 0 ++
  mmioRange (s.vfBarBase p 0x344 table) table 1 ++ toLe 4 data.length ++ data

/-- GET_DEVICE_INTERFACE_REPORT: valid in CONFIG_LOCKED and RUN (PRESUMED from TDISP 1.0, log 24). -/
def execGetDeviceInterfaceReport (part : PartNo) (s : State) : Res :=
  .next <|
    if !s.tsmLive then s
    else if !s.tdiLocked part then s.tdispWrong part
    else s.tdispSay part "DEVICE_INTERFACE_REPORT" (s.tdiReport part)

/-- GET_DEVICE_INTERFACE_STATE: the state, coded as in VF_STATUS (R67). -/
def execGetDeviceInterfaceState (part : PartNo) (s : State) : Res :=
  .next <| if s.tsmLive then s.tdispSay part "DEVICE_INTERFACE_STATE" (toLe 1 (s.tdiAt part).code) else s

/-- GET_TDISP_VERSION: 1.0 (R515). -/
def execGetTdispVersion (part : PartNo) (s : State) : Res :=
  .next <| if s.tsmLive then s.tdispSay part "TDISP_VERSION" [1, 0x10] else s

/-- GET_TDISP_CAPABILITIES: the seven requests of R515 by their codes, 0x81 to 0x87 as bits 1 to 7 (PRESUMED from TDISP 1.0, log 24). -/
def execGetTdispCapabilities (part : PartNo) (s : State) : Res :=
  .next <| if s.tsmLive then s.tdispSay part "TDISP_CAPABILITIES" (toLe 4 0 ++ fit 16 [0xFE]) else s

/-! ### IDE (R52, R516) -/

/-- A stream is no longer secure: the TDIs bound to it enter ERROR (R516). -/
def State.streamLost (s : State) (stream : Nat) : State :=
  (allParts.filter fun p => (s.fnAt (.vf p)).tdiStream == some stream).foldl State.tdiError s

/-- K_SET_STOP (R516). -/
def execKSetStop (stream : Nat) (s : State) : Res :=
  .next <|
    let t : State := { s with sec := { s.sec with ideSecure := s.sec.ideSecure.filter (· != stream), ideProgrammed := s.sec.ideProgrammed.filter (· != stream) } }
    if s.tsmLive then t.streamLost stream else s

/-- Any other IDE_KM message: keys are programmed, and K_SET_GO makes a programmed stream secure (R52): 20 selective streams, then the
link stream. -/
def execIdeKm (stream : Nat) (program go : Bool) (s : State) : Res :=
  .next <|
    if !s.tsmLive || 21 ≤ stream then s
    else
      let prog := if program then addOnce s.sec.ideProgrammed stream else s.sec.ideProgrammed
      { s with sec := { s.sec with
        ideProgrammed := prog
        ideSecure := if go && prog.contains stream then addOnce s.sec.ideSecure stream else s.sec.ideSecure } }

/-- IDE_INTEGRITY_FAILURE (R516) of the selective stream bound to a TDI. -/
def execIdeIntegrityFailure (part : PartNo) (s : State) : Res :=
  .next <|
    match (s.fnAt (.vf part)).tdiStream with
    | none => s
    | some i => ({ s with sec := { s.sec with ideSecure := s.sec.ideSecure.filter (· != i) } } : State).streamLost i

end Sys2Proof.Machine
end

