-- ==== Sys2Proof/Machine/Dispatch.lean ====
section
/-! DEFINITION. One arm per command: a direct call of its meaning. -/

namespace Sys2Proof.Machine

def exec (i : Instr) (s : State) : Host.Outcome State Fault Refusal :=
  match i with
  | .identify cid => Sys2Proof.Machine.execIdentify cid s
  | .createQueuePair cid => Sys2Proof.Machine.execCreateQueuePair cid s
  | .deleteQueuePair cid => Sys2Proof.Machine.execDeleteQueuePair cid s
  | .deleteQueuePairDone fn qid => Sys2Proof.Machine.execDeleteQueuePairDone fn qid s
  | .getLog cid => Sys2Proof.Machine.execGetLog cid s
  | .setFeature cid => Sys2Proof.Machine.execSetFeature cid s
  | .getFeature cid => Sys2Proof.Machine.execGetFeature cid s
  | .modeSelect cid => Sys2Proof.Machine.execModeSelect cid s
  | .modeLock cid => Sys2Proof.Machine.execModeLock cid s
  | .journalFormat cid => Sys2Proof.Machine.execJournalFormat cid s
  | .journalReplay cid region => Sys2Proof.Machine.execJournalReplay cid region s
  | .journalDisable cid => Sys2Proof.Machine.execJournalDisable cid s
  | .searchReportClear cid => Sys2Proof.Machine.execSearchReportClear cid s
  | .scratchHostMib cid => Sys2Proof.Machine.execScratchHostMib cid s
  | .meshDomain cid => Sys2Proof.Machine.execMeshDomain cid s
  | .selfTestStart cid => Sys2Proof.Machine.execSelfTestStart cid s
  | .selfTestStop cid => Sys2Proof.Machine.execSelfTestStop cid s
  | .selfTestComplete cid failed notRun => Sys2Proof.Machine.execSelfTestComplete cid failed notRun s
  | .testStepResume cid => Sys2Proof.Machine.execTestStepResume cid s
  | .testNotCompleted cid => Sys2Proof.Machine.execTestNotCompleted cid s
  | .setPowerState cid => Sys2Proof.Machine.execSetPowerState cid s
  | .powerStateEntry => Sys2Proof.Machine.execPowerStateEntry s
  | .powerEntryDeferred => Sys2Proof.Machine.execPowerEntryDeferred s
  | .ps2Reentry => Sys2Proof.Machine.execPs2Reentry s
  | .clusterGate cluster => Sys2Proof.Machine.execClusterGate cluster s
  | .restartQueueResume cid => Sys2Proof.Machine.execRestartQueueResume cid s
  | .restartQueueFlush cid => Sys2Proof.Machine.execRestartQueueFlush cid s
  | .restartWait fn qid ctags => Sys2Proof.Machine.execRestartWait fn qid ctags s
  | .automaticRestart fn qid => Sys2Proof.Machine.execAutomaticRestart fn qid s
  | .partitionConfigureSet cid => Sys2Proof.Machine.execPartitionConfigureSet cid s
  | .partitionConfigureClear cid => Sys2Proof.Machine.execPartitionConfigureClear cid s
  | .partitionConfigureAdjust cid => Sys2Proof.Machine.execPartitionConfigureAdjust cid s
  | .firmwareLoad cid flashOk => Sys2Proof.Machine.execFirmwareLoad cid flashOk s
  | .firmwareActivateLive cid => Sys2Proof.Machine.execFirmwareActivateLive cid s
  | .firmwareActivateRestart cid => Sys2Proof.Machine.execFirmwareActivateRestart cid s
  | .securitySend cid => Sys2Proof.Machine.execSecuritySend cid s
  | .securityReceive cid => Sys2Proof.Machine.execSecurityReceive cid s
  | .bindingCert cid => Sys2Proof.Machine.execBindingCert cid s
  | .declareSet cid => Sys2Proof.Machine.execDeclareSet cid s
  | .deviceSet cid => Sys2Proof.Machine.execDeviceSet cid s
  | .peerPolicy cid => Sys2Proof.Machine.execPeerPolicy cid s
  | .fuseOwnerKey cid => Sys2Proof.Machine.execFuseOwnerKey cid s
  | .fuseDebugClose cid => Sys2Proof.Machine.execFuseDebugClose cid s
  | .commitSvn cid => Sys2Proof.Machine.execCommitSvn cid s
  | .timeConfigureStep cid => Sys2Proof.Machine.execTimeConfigureStep cid s
  | .timeConfigurePps cid => Sys2Proof.Machine.execTimeConfigurePps cid s
  | .collectionCreate cid => Sys2Proof.Machine.execCollectionCreate cid s
  | .collectionDrop cid => Sys2Proof.Machine.execCollectionDrop cid s
  | .collectionImport cid => Sys2Proof.Machine.execCollectionImport cid s
  | .collectionExport cid => Sys2Proof.Machine.execCollectionExport cid s
  | .collectionConsolidate cid => Sys2Proof.Machine.execCollectionConsolidate cid s
  | .search cid => Sys2Proof.Machine.execSearch cid s
  | .searchCompound cid => Sys2Proof.Machine.execSearchCompound cid s
  | .scan cid => Sys2Proof.Machine.execScan cid s
  | .fetch cid => Sys2Proof.Machine.execFetch cid s
  | .insert cid commit => Sys2Proof.Machine.execInsert cid commit s
  | .delete cid commit => Sys2Proof.Machine.execDelete cid commit s
  | .upsert cid commit => Sys2Proof.Machine.execUpsert cid commit s
  | .setAttributes cid commit => Sys2Proof.Machine.execSetAttributes cid commit s
  | .embLookup cid => Sys2Proof.Machine.execEmbLookup cid s
  | .embUpdate cid commit => Sys2Proof.Machine.execEmbUpdate cid commit s
  | .hotsetLoad cid => Sys2Proof.Machine.execHotsetLoad cid s
  | .shardMigrate cid => Sys2Proof.Machine.execShardMigrate cid s
  | .denseLoad cid => Sys2Proof.Machine.execDenseLoad cid s
  | .regionWrite cid => Sys2Proof.Machine.execRegionWrite cid s
  | .regionRead cid => Sys2Proof.Machine.execRegionRead cid s
  | .fence cid => Sys2Proof.Machine.execFence cid s
  | .fenceRelease cid => Sys2Proof.Machine.execFenceRelease cid s
  | .sqTailDoorbell fn qid value => Sys2Proof.Machine.execSqTailDoorbell fn qid value s
  | .cqHeadDoorbell fn qid value => Sys2Proof.Machine.execCqHeadDoorbell fn qid value s
  | .sqEntryFetch entry data => Sys2Proof.Machine.execSqEntryFetch entry data s
  | .sqEntryFetchFailed => Sys2Proof.Machine.execSqEntryFetchFailed s
  | .completionPosted post => Sys2Proof.Machine.execCompletionPosted post s
  | .completionWriteFailed cid => Sys2Proof.Machine.execCompletionWriteFailed cid s
  | .aggTime fn qid => Sys2Proof.Machine.execAggTime fn qid s
  | .heldTooLong cid => Sys2Proof.Machine.execHeldTooLong cid s
  | .qmEnable fn => Sys2Proof.Machine.execQmEnable fn s
  | .qmDisable fn => Sys2Proof.Machine.execQmDisable fn s
  | .schedulingStep part => Sys2Proof.Machine.execSchedulingStep part s
  | .noContextByDeadline cid => Sys2Proof.Machine.execNoContextByDeadline cid s
  | .lockNotByDeadline cid => Sys2Proof.Machine.execLockNotByDeadline cid s
  | .preemption part => Sys2Proof.Machine.execPreemption part s
  | .contextSwitch core cause => Sys2Proof.Machine.execContextSwitch core cause s
  | .transferIssue core fault => Sys2Proof.Machine.execTransferIssue core fault s
  | .transferLanded core stream elems => Sys2Proof.Machine.execTransferLanded core stream elems s
  | .pageRequestResponse core stream code => Sys2Proof.Machine.execPageRequestResponse core stream code s
  | .carafeSwap core => Sys2Proof.Machine.execCarafeSwap core s
  | .persistentStreamTimeout core stream => Sys2Proof.Machine.execPersistentStreamTimeout core stream s
  | .atsInvalidation fn page pages => Sys2Proof.Machine.execAtsInvalidation fn page pages s
  | .expansionStep cid => Sys2Proof.Machine.execExpansionStep cid s
  | .rerankBatch cid => Sys2Proof.Machine.execRerankBatch cid s
  | .join cid => Sys2Proof.Machine.execJoin cid s
  | .shadowScan part handle => Sys2Proof.Machine.execShadowScan part handle s
  | .commitPhase cid => Sys2Proof.Machine.execCommitPhase cid s
  | .flushingReadReturn part => Sys2Proof.Machine.execFlushingReadReturn part s
  | .flushingReadFailed part => Sys2Proof.Machine.execFlushingReadFailed part s
  | .commitStep cid => Sys2Proof.Machine.execCommitStep cid s
  | .memberCommitReport cid member stamp outcomes work => Sys2Proof.Machine.execMemberCommitReport cid member stamp outcomes work s
  | .consolidationTrigger part handle => Sys2Proof.Machine.execConsolidationTrigger part handle s
  | .consolidationStep part handle => Sys2Proof.Machine.execConsolidationStep part handle s
  | .reclaimCheck part => Sys2Proof.Machine.execReclaimCheck part s
  | .hotsetRefresh part => Sys2Proof.Machine.execHotsetRefresh part s
  | .endMsg part handle member step participants incarnation forwardedBlock param => Sys2Proof.Machine.execEndMsg part handle member step participants incarnation forwardedBlock param s
  | .stepReport cid member applied stamp rows skipped => Sys2Proof.Machine.execStepReport cid member applied stamp rows skipped s
  | .stepTimeout part handle step => Sys2Proof.Machine.execStepTimeout part handle step s
  | .migrationTest part handle => Sys2Proof.Machine.execMigrationTest part handle s
  | .handoffCommit part handle block => Sys2Proof.Machine.execHandoffCommit part handle block s
  | .directoryChange part handle block owner epoch sender => Sys2Proof.Machine.execDirectoryChange part handle block owner epoch sender s
  | .forwardDone part handle block => Sys2Proof.Machine.execForwardDone part handle block s
  | .loadWindow part handle => Sys2Proof.Machine.execLoadWindow part handle s
  | .regulatorAdjust part waited used => Sys2Proof.Machine.execRegulatorAdjust part waited used s
  | .partRegRate part group value => Sys2Proof.Machine.execPartRegRate part group value s
  | .partAcctClear value => Sys2Proof.Machine.execPartAcctClear value s
  | .slowdownWindow part useful hbm slm mesh pcie reg => Sys2Proof.Machine.execSlowdownWindow part useful hbm slm mesh pcie reg s
  | .uncorrectableBurst channel line burst => Sys2Proof.Machine.execUncorrectableBurst channel line burst s
  | .slmEccError slice scratch line => Sys2Proof.Machine.execSlmEccError slice scratch line s
  | .patrolScrub corrected uncorrectable => Sys2Proof.Machine.execPatrolScrub corrected uncorrectable s
  | .stackTemperatureRead temps => Sys2Proof.Machine.execStackTemperatureRead temps s
  | .throttleLevelFall stack => Sys2Proof.Machine.execThrottleLevelFall stack s
  | .mapoutMark value => Sys2Proof.Machine.execMapoutMark value s
  | .mapoutWithdraw value => Sys2Proof.Machine.execMapoutWithdraw value s
  | .mapoutRestart value => Sys2Proof.Machine.execMapoutRestart value s
  | .tgStart channel value => Sys2Proof.Machine.execTgStart channel value s
  | .tgStop channel value => Sys2Proof.Machine.execTgStop channel value s
  | .tgDone channel errors firstErr lanes corrected => Sys2Proof.Machine.execTgDone channel errors firstErr lanes corrected s
  | .dpRestart value => Sys2Proof.Machine.execDpRestart value s
  | .dpDone deadLanes badChannels badClusters badCores => Sys2Proof.Machine.execDpDone deadLanes badChannels badClusters badCores s
  | .hifEventMask value => Sys2Proof.Machine.execHifEventMask value s
  | .vfEventMask part value => Sys2Proof.Machine.execVfEventMask part value s
  | .registerWrite fn place size value tbit => Sys2Proof.Machine.execRegisterWrite fn place size value tbit s
  | .bar2Read fn addr len tbit => Sys2Proof.Machine.execBar2Read fn addr len tbit s
  | .bar2Write fn addr bytes tbit => Sys2Proof.Machine.execBar2Write fn addr bytes tbit s
  | .msixUnmask fn vector => Sys2Proof.Machine.execMsixUnmask fn vector s
  | .vfEnable numVfs enable => Sys2Proof.Machine.execVfEnable numVfs enable s
  | .configurationWrite fn offset value => Sys2Proof.Machine.execConfigurationWrite fn offset value s
  | .perstAssert => Sys2Proof.Machine.execPerstAssert s
  | .perstDeassert => Sys2Proof.Machine.execPerstDeassert s
  | .hotReset => Sys2Proof.Machine.execHotReset s
  | .linkDown => Sys2Proof.Machine.execLinkDown s
  | .pfFlr => Sys2Proof.Machine.execPfFlr s
  | .vfFlr part => Sys2Proof.Machine.execVfFlr part s
  | .d3hotEntry => Sys2Proof.Machine.execD3hotEntry s
  | .d0Transition => Sys2Proof.Machine.execD0Transition s
  | .csqHeartbeatLost core => Sys2Proof.Machine.execCsqHeartbeatLost core s
  | .spareActivated cluster passed => Sys2Proof.Machine.execSpareActivated cluster passed s
  | .activate value => Sys2Proof.Machine.execActivate value s
  | .retire value => Sys2Proof.Machine.execRetire value s
  | .reinstate value => Sys2Proof.Machine.execReinstate value s
  | .csvHeartbeatLost cluster => Sys2Proof.Machine.execCsvHeartbeatLost cluster s
  | .bypassTimeout cluster => Sys2Proof.Machine.execBypassTimeout cluster s
  | .watchdog => Sys2Proof.Machine.execWatchdog s
  | .engineFault core engine cids => Sys2Proof.Machine.execEngineFault core engine cids s
  | .illegalWorkEntry core => Sys2Proof.Machine.execIllegalWorkEntry core s
  | .carafeEccError core slot cids => Sys2Proof.Machine.execCarafeEccError core slot cids s
  | .uncorrectableFlit cluster cid => Sys2Proof.Machine.execUncorrectableFlit cluster cid s
  | .meshEnable => Sys2Proof.Machine.execMeshEnable s
  | .meshDisable => Sys2Proof.Machine.execMeshDisable s
  | .portEnable port value => Sys2Proof.Machine.execPortEnable port value s
  | .retrain port value => Sys2Proof.Machine.execRetrain port value s
  | .routeCommit value => Sys2Proof.Machine.execRouteCommit value s
  | .key port peerId peerPort tag debugState chainOk sigOk => Sys2Proof.Machine.execKey port peerId peerPort tag debugState chainOk sigOk s
  | .flitReceived port fec seq crcOk tagOk nak ack creditLink creditVc credits => Sys2Proof.Machine.execFlitReceived port fec seq crcOk tagOk nak ack creditLink creditVc credits s
  | .data port hdr payload => Sys2Proof.Machine.execData port hdr payload s
  | .readReq port hdr length => Sys2Proof.Machine.execReadReq port hdr length s
  | .cmd port hdr body => Sys2Proof.Machine.execCmd port hdr body s
  | .result port hdr body => Sys2Proof.Machine.execResult port hdr body s
  | .chain port hdr partials => Sys2Proof.Machine.execChain port hdr partials s
  | .arrive port hdr => Sys2Proof.Machine.execArrive port hdr s
  | .release port hdr => Sys2Proof.Machine.execRelease port hdr s
  | .barrierTimeout tag => Sys2Proof.Machine.execBarrierTimeout tag s
  | .loadFrame port hdr handle member total freeSlots => Sys2Proof.Machine.execLoadFrame port hdr handle member total freeSlots s
  | .probe port hdr answer => Sys2Proof.Machine.execProbe port hdr answer s
  | .ack port hdr => Sys2Proof.Machine.execAck port hdr s
  | .nack port hdr reason => Sys2Proof.Machine.execNack port hdr reason s
  | .time port t1 t2 t3 t4 a refId locked hops est => Sys2Proof.Machine.execTime port t1 t2 t3 t4 a refId locked hops est s
  | .portFrame port upperPair => Sys2Proof.Machine.execPortFrame port upperPair s
  | .timeExchangeTick => Sys2Proof.Machine.execTimeExchangeTick s
  | .resendTimeout dest => Sys2Proof.Machine.execResendTimeout dest s
  | .unreachableProbe dest => Sys2Proof.Machine.execUnreachableProbe dest s
  | .rekey port => Sys2Proof.Machine.execRekey port s
  | .rekeyTimeout port => Sys2Proof.Machine.execRekeyTimeout port s
  | .lossOfLock port lanes => Sys2Proof.Machine.execLossOfLock port lanes s
  | .fecErrorThreshold port lanes => Sys2Proof.Machine.execFecErrorThreshold port lanes s
  | .replayThreshold port keepUpper => Sys2Proof.Machine.execReplayThreshold port keepUpper s
  | .flitTimeout port => Sys2Proof.Machine.execFlitTimeout port s
  | .portRetry port => Sys2Proof.Machine.execPortRetry port s
  | .routeReturn port => Sys2Proof.Machine.execRouteReturn port s
  | .debugChallenge => Sys2Proof.Machine.execDebugChallenge s
  | .debugToken serial nonce level sig ownerSig => Sys2Proof.Machine.execDebugToken serial nonce level sig ownerSig s
  | .debugLock => Sys2Proof.Machine.execDebugLock s
  | .lockInterfaceRequest part stream => Sys2Proof.Machine.execLockInterfaceRequest part stream s
  | .startInterfaceRequest part => Sys2Proof.Machine.execStartInterfaceRequest part s
  | .stopInterfaceRequest part => Sys2Proof.Machine.execStopInterfaceRequest part s
  | .getDeviceInterfaceReport part => Sys2Proof.Machine.execGetDeviceInterfaceReport part s
  | .getDeviceInterfaceState part => Sys2Proof.Machine.execGetDeviceInterfaceState part s
  | .getTdispVersion part => Sys2Proof.Machine.execGetTdispVersion part s
  | .getTdispCapabilities part => Sys2Proof.Machine.execGetTdispCapabilities part s
  | .kSetStop stream => Sys2Proof.Machine.execKSetStop stream s
  | .ideKm stream program go => Sys2Proof.Machine.execIdeKm stream program go s
  | .getMeasurements index path => Sys2Proof.Machine.execGetMeasurements index path s
  | .spdmRequest msg => Sys2Proof.Machine.execSpdmRequest msg s
  | .mctpMessage value => Sys2Proof.Machine.execMctpMessage value s
  | .recoveryWrite value => Sys2Proof.Machine.execRecoveryWrite value s
  | .recoveryFinish value flashOk => Sys2Proof.Machine.execRecoveryFinish value flashOk s
  | .setEndpointId eid => Sys2Proof.Machine.execSetEndpointId eid s
  | .pldmRequest type sensor => Sys2Proof.Machine.execPldmRequest type sensor s
  | .requestUpdate => Sys2Proof.Machine.execRequestUpdate s
  | .activateFirmware selfContained => Sys2Proof.Machine.execActivateFirmware selfContained s
  | .applyComplete image flashOk => Sys2Proof.Machine.execApplyComplete image flashOk s
  | .thymeRate value => Sys2Proof.Machine.execThymeRate value s
  | .thymeOffsetAdj value => Sys2Proof.Machine.execThymeOffsetAdj value s
  | .thymeSnapTrig => Sys2Proof.Machine.execThymeSnapTrig s
  | .ppsEdge held => Sys2Proof.Machine.execPpsEdge held s
  | .ppsAbsent => Sys2Proof.Machine.execPpsAbsent s
  | .hostTimeTimeout => Sys2Proof.Machine.execHostTimeTimeout s
  | .refclkAonLoss => Sys2Proof.Machine.execRefclkAonLoss s
  | .refclkAonReturn => Sys2Proof.Machine.execRefclkAonReturn s
  | .refclkPcieLoss => Sys2Proof.Machine.execRefclkPcieLoss s
  | .refclkClLoss => Sys2Proof.Machine.execRefclkClLoss s
  | .vaonSwitchToB => Sys2Proof.Machine.execVaonSwitchToB s
  | .vaonReturnToA => Sys2Proof.Machine.execVaonReturnToA s
  | .vaonLoss => Sys2Proof.Machine.execVaonLoss s
  | .vaonPowerOn feedA feedB readable digestsOk => Sys2Proof.Machine.execVaonPowerOn feedA feedB readable digestsOk s
  | .pgAssert group => Sys2Proof.Machine.execPgAssert group s
  | .pgLoss group => Sys2Proof.Machine.execPgLoss group s
  | .sequenceFailure group => Sys2Proof.Machine.execSequenceFailure group s
  | .railResequence => Sys2Proof.Machine.execRailResequence s
  | .hotspotThrottle quadrant temp => Sys2Proof.Machine.execHotspotThrottle quadrant temp s
  | .hotspotThrottleEnd quadrant temp => Sys2Proof.Machine.execHotspotThrottleEnd quadrant temp s
  | .thermalTrip quadrant temp => Sys2Proof.Machine.execThermalTrip quadrant temp s
  | .thermTripRelease temps => Sys2Proof.Machine.execThermTripRelease temps s
  | .memberNotReturnedByD cid => Sys2Proof.Machine.execMemberNotReturnedByD cid s
  | .linkUp width speed flit => Sys2Proof.Machine.execLinkUp width speed flit s
  | .portTrainingComplete port fourLanes => Sys2Proof.Machine.execPortTrainingComplete port fourLanes s
  | .hostAccessFailure cid addr => Sys2Proof.Machine.execHostAccessFailure cid addr s
  | .ideIntegrityFailure part => Sys2Proof.Machine.execIdeIntegrityFailure part s
  | .addressParityError channel cleared => Sys2Proof.Machine.execAddressParityError channel cleared s
  | .sageEccError => Sys2Proof.Machine.execSageEccError s
  | .csvError cluster => Sys2Proof.Machine.execCsvError cluster s
  | .sensorUpdate power hotspots vaonA vaonB => Sys2Proof.Machine.execSensorUpdate power hotspots vaonA vaonB s
  | .standInDrainTimeout cluster => Sys2Proof.Machine.execStandInDrainTimeout cluster s
  | .activationKill => Sys2Proof.Machine.execActivationKill s
  | .pciePhyDigestPassed => Sys2Proof.Machine.execPciePhyDigestPassed s
  | .stageRunning => Sys2Proof.Machine.execStageRunning s

end Sys2Proof.Machine
end

