-- ==== Sys2Proof/Machine/Tick.lean ====
section
/-! DEFINITION. One tick of the 25 MHz reference (R544), with what passing time alone moves on. -/

namespace Sys2Proof.Machine

/-- A tick (DESIGN CHOICE, log 1): Thyme and the stamp clock advance, running tests move on, a debug opening goes ahead. Without
power nothing counts. -/
def State.tickAll (s : State) : State :=
  if s.powered then (s.tests.foldl State.settleTest s.tick).settleDrains.settleDebug else s

end Sys2Proof.Machine
end

