-- ==== Sys2Proof/Safety.lean ====
section
/-! DEFINITION. What counts as a safe run, in the terms of the statements: the machine goes on, memory keeps its canonical
form, the tables of the state keep their sizes, a fuse stays blown, and a command changes only the components its frame
names. -/

namespace Sys2Proof.Safety

open Sys2Proof.Machine

/-- An outcome that goes on: a next state. -/
abbrev goesOn (o : Host.Outcome State Fault Refusal) : Prop := ∃ t, o = .next t

/-- The canonical form of all byte spaces: partition memory and scratchpad of every partition. -/
def memOk (s : State) : Prop := ∀ p ∈ s.parts, p.mem.wf ∧ p.scratchMem.wf

/-- The tables of fixed size: 17 functions (R46), 16 partitions (R5), 144 cores in 16 clusters (R6), 256 HBM channels in 8
stacks (R430), 8 ports (R459), 5 rail groups (R583). -/
def shaped (s : State) : Prop :=
  s.fns.length = 17 ∧ s.parts.length = 16 ∧ s.ras.cores.length = 144 ∧ s.ras.clusters.length = 16 ∧
  s.ras.overwrittenOf.length = 16 ∧ s.ras.unavail.length = 16 ∧ s.ras.unavailSince.length = 16 ∧
  s.hbm.channels.length = 256 ∧ s.hbm.stackSt.length = 8 ∧ s.mesh.ports.length = 8 ∧
  s.pkg.en.length = 5 ∧ s.pkg.pg.length = 5

/-- No fuse of `f` is cleared in `g` (R70, R510): a key hash stays, a closed debug stays closed, the floor does not fall, a
repaired channel stays repaired. -/
def fusesKept (f g : Fuses) : Prop :=
  (∀ k, f.ownerKey = some k → g.ownerKey = some k) ∧ (f.debugClosed = true → g.debugClosed = true) ∧
  f.svnFloor ≤ g.svnFloor ∧ (∀ c ∈ f.repair, c ∈ g.repair)

/-- The fuse bank of field repair holds at most 32 entries (R451), and a device whose debug-close fuse is blown is CLOSED (R526). -/
def secOk (x : SecSt) : Prop :=
  x.fuses.repair.length ≤ 32 ∧ (x.fuses.debugClosed = true → x.debugState = .closed)

/-- Every command in flight has a name of its own, below the next one. -/
def named (s : State) : Prop := (s.cmds.map (·.id)).Nodup ∧ ∀ c ∈ s.cmds, c.id < s.nextCid

/-- The invariant of the block: the tables keep their sizes, memory its canonical form, the error log its 256 entries (R558),
and the fuses' effects hold. -/
def sound (s : State) : Prop := shaped s ∧ memOk s ∧ s.ras.log.length ≤ 256 ∧ secOk s.sec ∧ named s

/-- Every byte of the listed ranges is 0: the reserved bytes of a packet (R9). -/
abbrev zeroAt (bs : Bytes) (l : List (Nat × Nat)) : Prop := ∀ r ∈ l, isZero bs r.1 r.2 = true

/-- An admin command that its executor may run now, with its opcode: it is ready, and with DEP set the earlier commands of its queue
have ended (R102). -/
abbrev adminAt (s : State) (cid op : Nat) (c : Cmd) : Prop :=
  sound s ∧ s.cmd? cid = some c ∧ c.adminReady op = true ∧ s.depMet c = true

/-- An I/O command that holds contexts, with its opcode. -/
abbrev ioAt (s : State) (cid op : Nat) (c : Cmd) : Prop :=
  sound s ∧ s.slm.stalled = false ∧ s.cmd? cid = some c ∧ c.ioRunning op = true

/-- An I/O command that holds contexts, none of whose streams is halted, with the partition and the collection it works on. -/
abbrev collAt (s : State) (cid op : Nat) (c : Cmd) (p : PartNo) (k : Coll) : Prop :=
  ioAt s cid op c ∧ s.haltedOn cid = false ∧ c.part = some p ∧ c.coll.bind (s.part p).collU? = some k

/-- A mesh table of a partition whose background work runs. -/
abbrev tableAt (s : State) (p : PartNo) (handle : Nat) (k : Coll) : Prop :=
  sound s ∧ s.slm.stalled = false ∧ s.meshTable p handle = some k ∧ (s.part p).collU? k.uid = some k ∧ s.worksNow p = true

/-- No stack is stopped and every cached line is VALID: no read of partition memory waits or meets a POISONED line (R41, R422, R446). -/
abbrev served (s : State) : Prop :=
  s.anyStopped = false ∧ s.slm.stalled = false ∧ ∀ l ∈ s.slm.slices, ∀ c ∈ l, c.state = .valid

/-- No HBM burst is poisoned and no channel is fenced, and every stack serves requests: no read waits, and none and no partial write meets
poison (R441, R446, R447). -/
abbrev clean (s : State) : Prop := s.hbm.poison = [] ∧ s.anyFenced = false ∧ served s

/-- A command in which no other device has a part, and whose queue pair was not deleted during its commit phase. -/
abbrev alone (c : Cmd) : Prop := c.origin = none ∧ c.mesh = none ∧ c.orphan = false

/-- A command has ended with a result: its completion is due (R93, R94), its contexts are given back, and it holds no range lock (R107). -/
def ended (t : State) (cid : Nat) (r : Compl) : Prop :=
  (∃ c, t.cmd? cid = some c ∧ c.phase = .done ∧ c.status = r.status ∧ c.count = r.count ∧
    c.stamp = (if 2 ≤ statusClass r.status then 0 else r.stamp) ∧ c.work = min r.work 0xFFFF ∧ c.cause = r.cause) ∧
  (∀ l ∈ t.locks, l.cid ≠ cid) ∧ (∀ x ∈ t.ctxs, x.cid = cid → x.state = .leaving)

/-- A command waits in a phase. -/
def inPhase (t : State) (cid : Nat) (ph : Phase) : Prop := ∃ c, t.cmd? cid = some c ∧ c.phase = ph

/-- The error log has taken a new entry, with the next SEQ and the time (R558, R559). -/
def logs (s t : State) (holds : LogEntry → Prop) : Prop := ∃ e ∈ t.ras.log, e.seq = s.ras.nextSeq ∧ e.stamp = s.now ∧ holds e

/-- A routed frame that a port hands up, for this device, of the pair's present epoch and next in SEQ, with none held (R475, R476). -/
abbrev lands (s : State) (port : Nat) (hdr : FrameHdr) : Prop :=
  s.slm.stalled = false ∧ s.hears port = true ∧ hdr.dest = s.mesh.deviceId ∧ (hdr.epoch + 256 - (s.peer hdr.src).rxEpoch) % 256 = 0 ∧
  (hdr.seq + 65536 - (s.peer hdr.src).rxSeq) % 65536 = 0 ∧ (s.peer hdr.src).early = []

/-- A component of the state, as the frames of the statements name it. -/
inductive Item where
  /-- Thyme, the stamp clock, the servo -/ | time
  /-- supplies, clocks, package pins -/ | pkg
  /-- firmware, mailbox -/ | fw
  /-- the fuses -/ | fuses
  /-- debug state, nonce, pending opening -/ | debug
  /-- peer policy -/ | policy
  /-- the reserve key and the count of keys made -/ | keys
  /-- IDE streams -/ | ide
  /-- the error log -/ | rasLog
  /-- core states -/ | cores
  /-- cluster states -/ | clusters
  /-- bypass and escalation counts, unavailable times -/ | rasCounts
  /-- HIF status -/ | hif
  /-- the registers of every function -/ | fns
  /-- queue pairs -/ | pairs
  /-- round robin of the fetch -/ | turn
  /-- commands in flight -/ | cmds
  /-- names of commands, order of admission -/ | nextCid
  /-- range locks -/ | locks
  /-- partition: configuration -/ | pConfig
  /-- partition: mode word and lock -/ | pMode
  /-- partition: features -/ | pFeats
  /-- partition memory -/ | pMem
  /-- scratchpad -/ | pScratch
  /-- what is placed in the scratchpad -/ | pUses
  /-- payloads held for a mesh read -/ | pHolds
  /-- partition: HBM key -/ | pKey
  /-- collections -/ | pColls
  /-- journal -/ | pJournal
  /-- declared device set -/ | pDeclared
  /-- queued shadow scans -/ | pShadows
  /-- accounting counters -/ | pAcct
  /-- slow-down windows -/ | pWindows
  /-- regulators -/ | pRegs
  /-- stopped admission, head of the admission queue -/ | pSched
  /-- hot-row counts -/ | pHot
  /-- context slots -/ | ctxs
  /-- incarnations of slots -/ | incarnations
  /-- stream descriptors -/ | streams
  /-- Ristretto queues -/ | ristretto
  /-- semaphores -/ | semaphores
  /-- translation cache -/ | atc
  /-- device-scope mode bits -/ | devMode
  /-- HBM channels and traffic generators -/ | channels
  /-- HBM stack temperatures -/ | stacks
  /-- poisoned bursts -/ | poison
  /-- HBM error totals -/ | hbmTotals
  /-- HBM control registers -/ | hbmCtrl
  /-- scrub row, initialisation, self-refresh -/ | hbmRun
  /-- the SLM cache, the test of a slice -/ | slm
  /-- MESH device id, enable, resend time -/ | meshCtrl
  /-- dropped frames, tags -/ | meshCount
  /-- ports -/ | ports
  /-- shadow and active routes -/ | routes
  /-- peers -/ | peers
  /-- the reference of mesh time -/ | meshRef
  /-- barriers and chains -/ | barriers
  /-- frames that wait here -/ | transit
  /-- power states -/ | power
  /-- running tests -/ | tests
  /-- what the device has sent -/ | out
  /-- the count of free values -/ | fresh
  /-- waiting commands -/ | pending
  deriving DecidableEq, Repr

/-- A component is the same in two states. -/
def Item.same (s t : State) : Item → Prop
  | .time => t.time = s.time
  | .pkg => t.pkg = s.pkg
  | .fw => t.fw = s.fw
  | .fuses => t.sec.fuses = s.sec.fuses
  | .debug => t.sec.debugState = s.sec.debugState ∧ t.sec.nonce = s.sec.nonce ∧ t.sec.debugPending = s.sec.debugPending
  | .policy => t.sec.peerFlags = s.sec.peerFlags ∧ t.sec.peerTags = s.sec.peerTags
  | .keys => t.sec.reserveKey = s.sec.reserveKey ∧ t.sec.keyCount = s.sec.keyCount
  | .ide => t.sec.ideProgrammed = s.sec.ideProgrammed ∧ t.sec.ideSecure = s.sec.ideSecure
  | .rasLog =>
    t.ras.log = s.ras.log ∧ t.ras.nextSeq = s.ras.nextSeq ∧
    t.ras.written = s.ras.written ∧ t.ras.overwrittenOf = s.ras.overwrittenOf
  | .cores => t.ras.cores = s.ras.cores
  | .clusters => t.ras.clusters = s.ras.clusters
  | .rasCounts =>
    t.ras.bypasses = s.ras.bypasses ∧ t.ras.escalations = s.ras.escalations ∧
    t.ras.unavail = s.ras.unavail ∧ t.ras.unavailSince = s.ras.unavailSince ∧
    t.ras.deviceOpen = s.ras.deviceOpen
  | .hif => t.hif = s.hif
  | .fns => t.fns = s.fns
  | .pairs => t.pairs = s.pairs
  | .turn => t.rrPart = s.rrPart ∧ t.rrLast = s.rrLast ∧ t.turnLeft = s.turnLeft
  | .cmds => t.cmds = s.cmds
  | .nextCid => t.nextCid = s.nextCid ∧ t.nextAdmit = s.nextAdmit
  | .locks => t.locks = s.locks
  | .pConfig =>
    t.parts.map (·.present) = s.parts.map (·.present) ∧ t.parts.map (·.clusters) = s.parts.map (·.clusters) ∧
    t.parts.map (·.scratch) = s.parts.map (·.scratch) ∧ t.parts.map (·.borrow) = s.parts.map (·.borrow) ∧
    t.parts.map (·.hbmShare) = s.parts.map (·.hbmShare) ∧ t.parts.map (·.meshShare) = s.parts.map (·.meshShare) ∧
    t.parts.map (·.granules) = s.parts.map (·.granules) ∧ t.parts.map (·.qpQuota) = s.parts.map (·.qpQuota)
  | .pMode => t.parts.map (·.modeWord) = s.parts.map (·.modeWord) ∧ t.parts.map (·.modeLock) = s.parts.map (·.modeLock)
  | .pFeats => t.parts.map (·.feats) = s.parts.map (·.feats)
  | .pMem => t.parts.map (·.mem) = s.parts.map (·.mem)
  | .pScratch => t.parts.map (·.scratchMem) = s.parts.map (·.scratchMem) ∧ t.parts.map (·.scratchPoison) = s.parts.map (·.scratchPoison)
  | .pUses => t.parts.map (·.scratchUses) = s.parts.map (·.scratchUses)
  | .pHolds => t.parts.map (·.payHolds) = s.parts.map (·.payHolds)
  | .pKey => t.parts.map (·.hbmKey) = s.parts.map (·.hbmKey)
  | .pColls => t.parts.map (·.colls) = s.parts.map (·.colls)
  | .pJournal => t.parts.map (·.journal) = s.parts.map (·.journal)
  | .pDeclared => t.parts.map (·.declared) = s.parts.map (·.declared)
  | .pShadows => t.parts.map (·.shadows) = s.parts.map (·.shadows)
  | .pAcct => t.parts.map (·.acct) = s.parts.map (·.acct)
  | .pWindows => t.parts.map (·.windows) = s.parts.map (·.windows)
  | .pRegs => t.parts.map (·.regs) = s.parts.map (·.regs)
  | .pSched => t.parts.map (·.stopped) = s.parts.map (·.stopped) ∧ t.parts.map (·.headSince) = s.parts.map (·.headSince) ∧ t.parts.map (·.headCid) = s.parts.map (·.headCid)
  | .pHot => t.parts.map (·.hotAt) = s.parts.map (·.hotAt) ∧ t.parts.map (·.hotCounts) = s.parts.map (·.hotCounts) ∧ t.parts.map (·.accesses) = s.parts.map (·.accesses)
  | .ctxs => t.ctxs = s.ctxs
  | .incarnations => t.incarnations = s.incarnations
  | .streams => t.streams = s.streams
  | .ristretto => t.ristretto = s.ristretto
  | .semaphores => t.semaphores = s.semaphores
  | .atc => t.atc = s.atc
  | .devMode => t.devMode = s.devMode
  | .channels => t.hbm.channels = s.hbm.channels
  | .stacks => t.hbm.stackSt = s.hbm.stackSt
  | .poison => t.hbm.poison = s.hbm.poison
  | .hbmTotals => t.hbm.corrTotal = s.hbm.corrTotal ∧ t.hbm.uncorrTotal = s.hbm.uncorrTotal
  | .hbmCtrl => t.hbm.thermThreshold = s.hbm.thermThreshold ∧ t.hbm.scrubPeriod = s.hbm.scrubPeriod
  | .hbmRun =>
    t.hbm.scrubRow = s.hbm.scrubRow ∧ t.hbm.scrubActive = s.hbm.scrubActive ∧
    t.hbm.initDone = s.hbm.initDone ∧ t.hbm.selfRefresh = s.hbm.selfRefresh
  | .slm => t.slm = s.slm
  | .meshCtrl => t.mesh.deviceId = s.mesh.deviceId ∧ t.mesh.enable = s.mesh.enable ∧ t.mesh.resendUs = s.mesh.resendUs
  | .meshCount => t.mesh.ttlDrops = s.mesh.ttlDrops ∧ t.mesh.nextTag = s.mesh.nextTag
  | .ports => t.mesh.ports = s.mesh.ports
  | .routes => t.mesh.shadowRoutes = s.mesh.shadowRoutes ∧ t.mesh.routes = s.mesh.routes
  | .peers => t.mesh.peers = s.mesh.peers
  | .meshRef =>
    t.mesh.refId = s.mesh.refId ∧ t.mesh.refHops = s.mesh.refHops ∧
    t.mesh.refLocked = s.mesh.refLocked ∧ t.mesh.isRef = s.mesh.isRef ∧
    t.mesh.parent = s.mesh.parent
  | .barriers => t.mesh.barriers = s.mesh.barriers ∧ t.mesh.chains = s.mesh.chains
  | .transit => t.mesh.transit = s.mesh.transit
  | .power => t.power = s.power
  | .tests => t.tests = s.tests
  | .out => t.out = s.out
  | .fresh => t.fresh = s.fresh
  | .pending => t.pending = s.pending

/-- Every component but the listed ones is unchanged: the frame of a command. -/
def changesOnly (l : List Item) (s t : State) : Prop := ∀ i, i ∉ l → i.same s t


/-- The components a command may change, in every form of it: what its own rules write, and what ends, is undone or is sent with it. -/
def mayChange : Instr → List Item
  | .identify _ | .bindingCert _ | .deviceSet _ =>
    [.cmds, .locks, .ctxs, .streams, .ristretto, .semaphores, .out]
  | .createQueuePair _ | .restartQueueResume _ | .restartQueueFlush _ =>
    [.pairs, .cmds, .locks, .ctxs, .streams, .ristretto, .semaphores]
  | .deleteQueuePair _ | .qmDisable _ =>
    [.rasLog, .fns, .pairs, .cmds, .locks, .pMem, .pColls, .pAcct, .ctxs, .streams, .ristretto, .semaphores, .poison, .slm,
     .ports, .peers, .transit, .out, .fresh]
  | .deleteQueuePairDone _ _ =>
    [.fns, .pairs, .cmds, .locks, .ctxs, .streams, .ristretto, .semaphores]
  | .getLog _ =>
    [.cmds, .locks, .ctxs, .streams, .ristretto, .semaphores, .out, .fresh]
  | .setFeature _ =>
    [.cmds, .locks, .pFeats, .ctxs, .streams, .ristretto, .semaphores, .power]
  | .getFeature _ | .fence _ | .fenceRelease _ | .heldTooLong _ =>
    [.cmds, .locks, .ctxs, .streams, .ristretto, .semaphores]
  | .modeSelect _ =>
    [.time, .rasLog, .fns, .cmds, .locks, .pMode, .pColls, .ctxs, .streams, .ristretto, .semaphores, .devMode, .channels,
     .out]
  | .modeLock _ =>
    [.cmds, .locks, .pMode, .ctxs, .streams, .ristretto, .semaphores]
  | .journalFormat _ =>
    [.keys, .cmds, .locks, .pColls, .pJournal, .ctxs, .streams, .ristretto, .semaphores, .out, .fresh]
  | .journalReplay _ _ =>
    [.time, .rasLog, .fns, .cmds, .nextCid, .locks, .pMem, .pColls, .pJournal, .pAcct, .ctxs, .streams, .ristretto,
     .semaphores, .poison, .slm, .ports, .peers, .transit, .out, .fresh]
  | .journalDisable _ =>
    [.cmds, .locks, .pColls, .pJournal, .ctxs, .streams, .ristretto, .semaphores]
  | .searchReportClear _ =>
    [.cmds, .locks, .pColls, .ctxs, .streams, .ristretto, .semaphores]
  | .scratchHostMib _ | .meshDomain _ =>
    [.cmds, .locks, .pFeats, .ctxs, .streams, .ristretto, .semaphores]
  | .selfTestStart _ =>
    [.cores, .clusters, .cmds, .locks, .pAcct, .ctxs, .streams, .ristretto, .semaphores, .ports, .peers, .barriers, .transit,
     .tests, .out]
  | .selfTestStop _ | .testNotCompleted _ =>
    [.rasLog, .cores, .clusters, .hif, .fns, .cmds, .locks, .ctxs, .streams, .ristretto, .semaphores, .ports, .barriers,
     .tests, .out]
  | .selfTestComplete _ _ _ =>
    [.time, .pkg, .fw, .rasLog, .cores, .clusters, .rasCounts, .hif, .fns, .pairs, .cmds, .locks, .pConfig, .pMem, .pScratch,
     .pUses, .pKey, .pColls, .pShadows, .pAcct, .pSched, .pHot, .ctxs, .streams, .ristretto, .semaphores, .channels, .poison,
     .hbmRun, .slm, .ports, .peers, .meshRef, .barriers, .transit, .power, .tests, .out, .fresh]
  | .testStepResume _ =>
    [.cores, .tests]
  | .setPowerState _ =>
    [.pkg, .cores, .clusters, .hif, .cmds, .locks, .ctxs, .streams, .ristretto, .semaphores, .hbmRun, .power, .out]
  | .powerStateEntry =>
    [.pkg, .rasLog, .cores, .clusters, .hif, .fns, .pairs, .cmds, .locks, .pMem, .pScratch, .pUses, .pColls, .pJournal,
     .pShadows, .pAcct, .pHot, .ctxs, .streams, .ristretto, .semaphores, .poison, .hbmRun, .slm, .ports, .peers, .transit,
     .power, .out, .fresh]
  | .powerEntryDeferred =>
    [.pkg, .cmds, .locks, .ctxs, .streams, .ristretto, .semaphores, .power, .out]
  | .ps2Reentry =>
    [.cores, .clusters, .hbmRun, .power]
  | .clusterGate _ =>
    [.cores, .clusters]
  | .restartWait _ _ _ =>
    [.rasLog, .fns, .pairs, .cmds, .locks, .pAcct, .ctxs, .streams, .ristretto, .semaphores, .atc, .out]
  | .automaticRestart _ _ | .sqTailDoorbell _ _ _ | .cqHeadDoorbell _ _ _ | .qmEnable _ =>
    [.rasLog, .fns, .pairs, .out]
  | .partitionConfigureSet _ =>
    [.keys, .rasLog, .cores, .clusters, .rasCounts, .fns, .pairs, .cmds, .locks, .pConfig, .pMode, .pFeats, .pMem, .pScratch,
     .pUses, .pHolds, .pKey, .pColls, .pJournal, .pDeclared, .pShadows, .pAcct, .pWindows, .pRegs, .pSched, .pHot, .ctxs,
     .streams, .ristretto, .semaphores, .poison, .slm, .ports, .peers, .transit, .out, .fresh]
  | .partitionConfigureClear _ =>
    [.rasLog, .cores, .clusters, .rasCounts, .fns, .pairs, .cmds, .locks, .pConfig, .pMode, .pFeats, .pMem, .pScratch, .pUses,
     .pHolds, .pKey, .pColls, .pJournal, .pDeclared, .pShadows, .pAcct, .pWindows, .pRegs, .pSched, .pHot, .ctxs, .streams,
     .ristretto, .semaphores, .poison, .slm, .ports, .peers, .transit, .out, .fresh]
  | .partitionConfigureAdjust _ =>
    [.cmds, .locks, .pConfig, .pRegs, .ctxs, .streams, .ristretto, .semaphores]
  | .firmwareLoad _ _ | .firmwareActivateLive _ =>
    [.fw, .rasLog, .fns, .cmds, .locks, .ctxs, .streams, .ristretto, .semaphores, .out]
  | .firmwareActivateRestart _ | .watchdog | .activateFirmware _ =>
    [.time, .pkg, .fw, .debug, .policy, .ide, .rasLog, .cores, .clusters, .rasCounts, .hif, .fns, .pairs, .cmds, .locks,
     .pConfig, .pMode, .pFeats, .pMem, .pScratch, .pUses, .pHolds, .pKey, .pColls, .pJournal, .pDeclared, .pShadows, .pAcct,
     .pWindows, .pRegs, .pSched, .pHot, .ctxs, .streams, .ristretto, .semaphores, .atc, .devMode, .channels, .poison, .hbmRun,
     .slm, .meshCtrl, .meshCount, .ports, .routes, .peers, .meshRef, .barriers, .transit, .power, .tests, .out, .fresh]
  | .securitySend _ =>
    [.fns, .cmds, .locks, .ctxs, .streams, .ristretto, .semaphores, .fresh]
  | .securityReceive _ =>
    [.fns, .cmds, .locks, .ctxs, .streams, .ristretto, .semaphores, .out]
  | .declareSet _ =>
    [.cmds, .locks, .pDeclared, .ctxs, .streams, .ristretto, .semaphores]
  | .peerPolicy _ =>
    [.time, .policy, .rasLog, .hif, .fns, .cmds, .locks, .pMem, .pColls, .pShadows, .pAcct, .ctxs, .streams, .ristretto,
     .semaphores, .poison, .slm, .ports, .peers, .meshRef, .transit, .out, .fresh]
  | .fuseOwnerKey _ | .commitSvn _ =>
    [.fuses, .rasLog, .fns, .cmds, .locks, .ctxs, .streams, .ristretto, .semaphores, .out]
  | .fuseDebugClose _ =>
    [.fuses, .debug, .rasLog, .fns, .cmds, .locks, .ctxs, .streams, .ristretto, .semaphores, .out]
  | .timeConfigureStep _ =>
    [.time, .cmds, .locks, .ctxs, .streams, .ristretto, .semaphores]
  | .timeConfigurePps _ =>
    [.time, .rasLog, .fns, .cmds, .locks, .ctxs, .streams, .ristretto, .semaphores, .meshRef, .out]
  | .collectionCreate _ | .collectionImport _ =>
    [.time, .rasLog, .fns, .cmds, .locks, .pMem, .pUses, .pColls, .pJournal, .pAcct, .ctxs, .streams, .ristretto, .semaphores,
     .poison, .slm, .ports, .peers, .transit, .out, .fresh]
  | .collectionDrop _ =>
    [.time, .rasLog, .fns, .cmds, .locks, .pMem, .pColls, .pJournal, .pShadows, .pAcct, .ctxs, .streams, .ristretto,
     .semaphores, .poison, .slm, .ports, .peers, .transit, .out, .fresh]
  | .collectionExport _ =>
    [.keys, .rasLog, .fns, .cmds, .locks, .pMem, .pColls, .pJournal, .pAcct, .ctxs, .streams, .ristretto, .semaphores,
     .poison, .slm, .ports, .peers, .transit, .out, .fresh]
  | .collectionConsolidate _ =>
    [.time, .rasLog, .fns, .cmds, .locks, .pMem, .pColls, .pAcct, .ctxs, .streams, .ristretto, .semaphores, .poison, .slm,
     .ports, .peers, .transit, .out, .fresh]
  | .search _ | .searchCompound _ | .scan _ | .expansionStep _ =>
    [.rasLog, .cores, .fns, .cmds, .locks, .pMem, .pUses, .pColls, .pAcct, .ctxs, .streams, .ristretto, .semaphores, .poison,
     .slm, .meshCount, .ports, .peers, .transit, .out, .fresh]
  | .fetch _ | .shardMigrate _ =>
    [.rasLog, .fns, .cmds, .locks, .pMem, .pColls, .pAcct, .ctxs, .streams, .ristretto, .semaphores, .poison, .slm,
     .meshCount, .ports, .peers, .transit, .out, .fresh]
  | .insert _ _ | .delete _ _ | .upsert _ _ | .setAttributes _ _ =>
    [.time, .rasLog, .fns, .cmds, .locks, .pMem, .pColls, .pJournal, .pAcct, .ctxs, .streams, .ristretto, .semaphores,
     .poison, .slm, .meshCount, .ports, .peers, .transit, .out, .fresh]
  | .embLookup _ =>
    [.rasLog, .fns, .cmds, .locks, .pMem, .pColls, .pAcct, .pHot, .ctxs, .streams, .ristretto, .semaphores, .poison, .slm,
     .meshCount, .ports, .peers, .transit, .out, .fresh]
  | .embUpdate _ _ =>
    [.time, .rasLog, .fns, .cmds, .locks, .pMem, .pScratch, .pUses, .pColls, .pAcct, .pHot, .ctxs, .streams, .ristretto,
     .semaphores, .poison, .slm, .meshCount, .ports, .peers, .transit, .out, .fresh]
  | .hotsetLoad _ | .denseLoad _ =>
    [.rasLog, .fns, .cmds, .locks, .pMem, .pScratch, .pUses, .pColls, .pAcct, .ctxs, .streams, .ristretto, .semaphores,
     .poison, .slm, .ports, .peers, .transit, .out, .fresh]
  | .regionWrite _ =>
    [.rasLog, .fns, .cmds, .locks, .pMem, .pScratch, .pColls, .pAcct, .ctxs, .streams, .ristretto, .semaphores, .poison, .slm,
     .ports, .peers, .transit, .out, .fresh]
  | .regionRead _ | .noContextByDeadline _ | .lockNotByDeadline _ | .stepReport _ _ _ _ _ _ =>
    [.rasLog, .fns, .cmds, .locks, .pMem, .pColls, .pAcct, .ctxs, .streams, .ristretto, .semaphores, .poison, .slm, .ports,
     .peers, .transit, .out, .fresh]
  | .sqEntryFetch _ _ =>
    [.clusters, .pairs, .turn, .cmds, .nextCid, .locks, .pAcct, .atc, .hbmRun, .slm, .power, .out]
  | .sqEntryFetchFailed =>
    [.rasLog, .fns, .pairs, .turn, .out]
  | .completionPosted _ =>
    [.rasLog, .fns, .pairs, .cmds, .pHolds, .pColls, .pShadows, .pAcct, .atc, .ports, .peers, .transit, .power, .out]
  | .completionWriteFailed _ =>
    [.rasLog, .fns, .pairs, .cmds, .pColls, .pAcct, .power, .out]
  | .aggTime _ _ =>
    [.fns, .pairs, .out]
  | .schedulingStep _ =>
    [.time, .rasLog, .cores, .clusters, .hif, .fns, .cmds, .nextCid, .locks, .pConfig, .pMem, .pColls, .pAcct, .pSched, .ctxs,
     .incarnations, .streams, .ristretto, .semaphores, .poison, .slm, .ports, .peers, .transit, .out, .fresh]
  | .preemption _ =>
    [.cmds, .pAcct, .pSched, .ctxs, .streams, .ristretto, .semaphores, .ports, .peers, .transit, .out]
  | .contextSwitch _ _ =>
    [.ctxs]
  | .transferIssue _ _ =>
    [.cores, .fns, .ctxs, .streams, .ristretto, .atc, .out, .fresh]
  | .transferLanded _ _ _ =>
    [.cores, .ctxs, .streams, .fresh]
  | .pageRequestResponse _ _ _ =>
    [.rasLog, .fns, .cmds, .locks, .pMem, .pColls, .pAcct, .ctxs, .streams, .ristretto, .semaphores, .atc, .poison, .slm,
     .ports, .peers, .transit, .out, .fresh]
  | .carafeSwap _ =>
    [.cores]
  | .persistentStreamTimeout _ _ =>
    [.streams]
  | .atsInvalidation _ _ _ =>
    [.atc, .out]
  | .rerankBatch _ =>
    [.rasLog, .cores, .fns, .cmds, .locks, .pMem, .pColls, .pAcct, .ctxs, .streams, .ristretto, .semaphores, .poison, .slm,
     .ports, .peers, .transit, .out, .fresh]
  | .join _ | .memberNotReturnedByD _ =>
    [.rasLog, .fns, .cmds, .locks, .pMem, .pUses, .pColls, .pAcct, .ctxs, .streams, .ristretto, .semaphores, .poison, .slm,
     .ports, .peers, .transit, .out, .fresh]
  | .shadowScan _ _ =>
    [.rasLog, .cores, .clusters, .fns, .cmds, .nextCid, .locks, .pMem, .pUses, .pColls, .pShadows, .pAcct, .ctxs, .streams,
     .ristretto, .semaphores, .poison, .slm, .meshCount, .ports, .peers, .transit, .out, .fresh]
  | .commitPhase _ =>
    [.time, .rasLog, .fns, .cmds, .locks, .pMem, .pColls, .pJournal, .pAcct, .ctxs, .streams, .ristretto, .semaphores,
     .poison, .slm, .out]
  | .flushingReadReturn _ =>
    [.cmds, .locks, .pColls, .pJournal, .ctxs, .streams, .ristretto, .semaphores, .out]
  | .flushingReadFailed _ =>
    [.rasLog, .fns, .cmds, .locks, .pMem, .pColls, .pJournal, .pAcct, .ctxs, .streams, .ristretto, .semaphores, .poison, .slm,
     .ports, .peers, .transit, .out, .fresh]
  | .commitStep _ | .endMsg _ _ _ _ _ _ _ _ | .stepTimeout _ _ _ | .forwardDone _ _ _ =>
    [.time, .rasLog, .fns, .cmds, .locks, .pMem, .pScratch, .pColls, .pAcct, .pHot, .ctxs, .streams, .ristretto, .semaphores,
     .poison, .slm, .ports, .peers, .transit, .out, .fresh]
  | .memberCommitReport _ _ _ _ _ =>
    [.cmds, .pAcct, .out]
  | .consolidationTrigger _ _ =>
    [.time, .clusters, .cmds, .nextCid, .pColls]
  | .consolidationStep _ _ =>
    [.rasLog, .clusters, .fns, .cmds, .nextCid, .locks, .pMem, .pColls, .ctxs, .streams, .ristretto, .semaphores, .poison,
     .slm, .out, .fresh]
  | .reclaimCheck _ =>
    [.rasLog, .fns, .cmds, .pMem, .pColls, .poison, .slm, .out]
  | .hotsetRefresh _ =>
    [.rasLog, .clusters, .fns, .pScratch, .pUses, .pColls, .pHot, .slm, .out]
  | .migrationTest _ _ =>
    [.rasLog, .fns, .cmds, .locks, .pColls, .pAcct, .ctxs, .streams, .ristretto, .semaphores, .slm, .ports, .peers, .transit,
     .out]
  | .handoffCommit _ _ _ =>
    [.cmds, .locks, .pColls, .pAcct, .ctxs, .streams, .ristretto, .semaphores, .slm, .ports, .peers, .transit, .out]
  | .directoryChange _ _ _ _ _ _ =>
    [.pColls, .pAcct, .slm, .ports, .peers, .transit, .out]
  | .loadWindow _ _ =>
    [.pColls, .slm]
  | .regulatorAdjust _ _ _ =>
    [.pRegs, .fresh]
  | .partRegRate _ _ _ =>
    [.rasLog, .fns, .pRegs, .out]
  | .partAcctClear _ =>
    [.pAcct]
  | .slowdownWindow _ _ _ _ _ _ _ =>
    [.pWindows]
  | .uncorrectableBurst _ _ _ =>
    [.rasLog, .fns, .channels, .poison, .hbmTotals, .out]
  | .slmEccError _ _ _ | .csqHeartbeatLost _ | .spareActivated _ _ | .retire _ | .csvHeartbeatLost _ | .illegalWorkEntry _
  | .csvError _ =>
    [.pkg, .fw, .rasLog, .cores, .clusters, .rasCounts, .hif, .fns, .pairs, .cmds, .locks, .pConfig, .pMem, .pScratch, .pUses,
     .pKey, .pColls, .pAcct, .pSched, .pHot, .ctxs, .streams, .ristretto, .semaphores, .channels, .poison, .hbmRun, .slm,
     .ports, .peers, .barriers, .transit, .power, .tests, .out, .fresh]
  | .patrolScrub _ _ =>
    [.rasLog, .fns, .channels, .poison, .hbmTotals, .hbmRun, .out]
  | .stackTemperatureRead _ =>
    [.fw, .rasLog, .fns, .stacks, .out]
  | .throttleLevelFall _ =>
    [.rasLog, .fns, .stacks, .slm, .out, .fresh]
  | .mapoutMark _ | .mapoutWithdraw _ | .mapoutRestart _ | .dpRestart _ | .bypassTimeout _ | .thermalTrip _ _
  | .sageEccError =>
    [.pkg, .fw, .rasLog, .cores, .clusters, .rasCounts, .hif, .fns, .pairs, .cmds, .locks, .pConfig, .pMem, .pKey, .pColls,
     .pAcct, .pSched, .ctxs, .streams, .ristretto, .semaphores, .channels, .poison, .hbmRun, .slm, .ports, .peers, .barriers,
     .transit, .power, .tests, .out, .fresh]
  | .tgStart _ _ | .tgDone _ _ _ _ _ =>
    [.channels]
  | .tgStop _ _ =>
    [.channels, .fresh]
  | .dpDone _ _ _ _ =>
    [.time, .pkg, .fw, .fuses, .debug, .keys, .rasLog, .cores, .clusters, .rasCounts, .hif, .fns, .pairs, .cmds, .locks,
     .pConfig, .pMem, .pScratch, .pUses, .pKey, .pColls, .pJournal, .pShadows, .pAcct, .pSched, .pHot, .ctxs, .streams,
     .ristretto, .semaphores, .channels, .poison, .hbmTotals, .hbmRun, .slm, .ports, .peers, .barriers, .transit, .power,
     .tests, .out, .fresh]
  | .hifEventMask _ | .vfEventMask _ _ | .startInterfaceRequest _ =>
    [.fns, .out]
  | .registerWrite _ _ _ _ _ =>
    [.time, .pkg, .fw, .debug, .policy, .ide, .rasLog, .cores, .clusters, .rasCounts, .hif, .fns, .pairs, .cmds, .locks,
     .pConfig, .pMode, .pFeats, .pMem, .pScratch, .pUses, .pHolds, .pKey, .pColls, .pJournal, .pDeclared, .pShadows, .pAcct,
     .pWindows, .pRegs, .pSched, .pHot, .ctxs, .streams, .ristretto, .semaphores, .atc, .devMode, .channels, .poison,
     .hbmCtrl, .hbmRun, .slm, .meshCtrl, .meshCount, .ports, .routes, .peers, .meshRef, .barriers, .transit, .power, .tests,
     .out, .fresh]
  | .bar2Read _ _ _ _ =>
    [.slm, .out, .fresh]
  | .bar2Write _ _ _ _ =>
    [.rasLog, .fns, .cmds, .pMem, .pScratch, .poison, .slm, .out]
  | .msixUnmask _ _ | .configurationWrite _ _ _ =>
    [.rasLog, .fns, .cmds, .locks, .pMem, .pKey, .pColls, .pAcct, .ctxs, .streams, .ristretto, .semaphores, .poison, .slm,
     .ports, .peers, .transit, .out, .fresh]
  | .vfEnable _ _ =>
    [.rasLog, .fns, .out]
  | .perstAssert | .recoveryFinish _ _ | .applyComplete _ _ | .vaonPowerOn _ _ _ _ | .pciePhyDigestPassed =>
    [.time, .pkg, .fw, .debug, .policy, .ide, .rasLog, .cores, .clusters, .rasCounts, .hif, .fns, .pairs, .cmds, .locks,
     .pConfig, .pMode, .pFeats, .pMem, .pScratch, .pUses, .pHolds, .pKey, .pColls, .pJournal, .pDeclared, .pShadows, .pAcct,
     .pWindows, .pRegs, .pSched, .pHot, .ctxs, .streams, .ristretto, .semaphores, .atc, .devMode, .channels, .hbmRun,
     .meshCtrl, .meshCount, .ports, .routes, .peers, .meshRef, .barriers, .transit, .power, .tests, .out, .fresh]
  | .perstDeassert =>
    [.pkg, .hif, .out]
  | .hotReset | .linkDown | .pfFlr | .d0Transition | .refclkPcieLoss =>
    [.pkg, .fw, .keys, .ide, .rasLog, .cores, .clusters, .hif, .fns, .pairs, .cmds, .locks, .pMode, .pFeats, .pMem, .pScratch,
     .pUses, .pKey, .pColls, .pJournal, .pShadows, .pAcct, .pSched, .pHot, .ctxs, .streams, .ristretto, .semaphores, .atc,
     .poison, .slm, .ports, .peers, .transit, .power, .tests, .out, .fresh]
  | .vfFlr _ =>
    [.pkg, .fw, .keys, .rasLog, .cores, .clusters, .hif, .fns, .pairs, .cmds, .locks, .pMode, .pFeats, .pMem, .pScratch,
     .pUses, .pKey, .pColls, .pJournal, .pShadows, .pAcct, .pSched, .pHot, .ctxs, .streams, .ristretto, .semaphores, .atc,
     .poison, .slm, .ports, .peers, .transit, .power, .tests, .out, .fresh]
  | .d3hotEntry =>
    [.pkg, .fw, .rasLog, .cores, .clusters, .hif, .fns, .cmds, .locks, .pMem, .pColls, .pJournal, .pAcct, .pSched, .ctxs,
     .streams, .ristretto, .semaphores, .poison, .slm, .ports, .peers, .transit, .power, .tests, .out, .fresh]
  | .activate _ =>
    [.rasLog, .clusters, .fns, .out]
  | .reinstate _ =>
    [.clusters]
  | .engineFault _ _ _ | .uncorrectableFlit _ _ =>
    [.pkg, .fw, .rasLog, .cores, .clusters, .rasCounts, .hif, .fns, .pairs, .cmds, .locks, .pConfig, .pMem, .pScratch, .pUses,
     .pKey, .pColls, .pShadows, .pAcct, .pSched, .pHot, .ctxs, .streams, .ristretto, .semaphores, .channels, .poison, .hbmRun,
     .slm, .ports, .peers, .barriers, .transit, .power, .tests, .out, .fresh]
  | .carafeEccError _ _ _ | .resendTimeout _ | .routeReturn _ | .hostAccessFailure _ _ =>
    [.rasLog, .fns, .cmds, .locks, .pMem, .pColls, .pShadows, .pAcct, .ctxs, .streams, .ristretto, .semaphores, .poison, .slm,
     .ports, .peers, .transit, .out, .fresh]
  | .meshEnable | .meshDisable =>
    [.time, .rasLog, .hif, .fns, .cmds, .locks, .pMem, .pColls, .pShadows, .pAcct, .ctxs, .streams, .ristretto, .semaphores,
     .poison, .slm, .meshCtrl, .ports, .peers, .meshRef, .transit, .out, .fresh]
  | .portEnable _ _ | .retrain _ _ | .key _ _ _ _ _ _ _ | .portFrame _ _ | .rekeyTimeout _ | .lossOfLock _ _
  | .fecErrorThreshold _ _ | .replayThreshold _ _ | .flitTimeout _ =>
    [.time, .rasLog, .hif, .fns, .cmds, .locks, .pMem, .pColls, .pShadows, .pAcct, .ctxs, .streams, .ristretto, .semaphores,
     .poison, .slm, .ports, .peers, .meshRef, .transit, .out, .fresh]
  | .routeCommit _ =>
    [.rasLog, .fns, .cmds, .locks, .pMem, .pColls, .pShadows, .pAcct, .ctxs, .streams, .ristretto, .semaphores, .poison, .slm,
     .ports, .routes, .peers, .transit, .out, .fresh]
  | .flitReceived _ _ _ _ _ _ _ _ _ _ | .timeExchangeTick | .unreachableProbe _ =>
    [.pAcct, .ports, .peers, .transit, .out]
  | .data _ _ _ | .readReq _ _ _ | .cmd _ _ _ | .result _ _ _ | .chain _ _ _ | .arrive _ _ | .release _ _
  | .loadFrame _ _ _ _ _ _ =>
    [.time, .rasLog, .clusters, .fns, .cmds, .nextCid, .locks, .pMem, .pScratch, .pUses, .pHolds, .pColls, .pShadows, .pAcct,
     .pHot, .ctxs, .streams, .ristretto, .semaphores, .poison, .hbmRun, .slm, .meshCount, .ports, .peers, .barriers, .transit,
     .power, .out, .fresh]
  | .barrierTimeout _ =>
    [.barriers, .tests]
  | .probe _ _ _ | .ack _ _ =>
    [.pAcct, .meshCount, .ports, .peers, .transit, .out]
  | .nack _ _ _ =>
    [.rasLog, .fns, .cmds, .locks, .pMem, .pColls, .pShadows, .pAcct, .ctxs, .streams, .ristretto, .semaphores, .poison, .slm,
     .meshCount, .ports, .peers, .transit, .out, .fresh]
  | .time _ _ _ _ _ _ _ _ _ _ =>
    [.time, .rasLog, .fns, .ports, .meshRef, .out]
  | .rekey _ =>
    [.ports, .out]
  | .portRetry _ =>
    [.rasLog, .hif, .fns, .ports, .out]
  | .debugChallenge =>
    [.debug, .out, .fresh]
  | .debugToken _ _ _ _ _ =>
    [.pkg, .fw, .debug, .rasLog, .cores, .clusters, .rasCounts, .hif, .fns, .pairs, .cmds, .locks, .pConfig, .pMem, .pKey,
     .pColls, .pAcct, .pSched, .ctxs, .streams, .ristretto, .semaphores, .channels, .poison, .hbmRun, .slm, .ports, .peers,
     .barriers, .transit, .power, .tests, .out, .fresh]
  | .debugLock =>
    [.debug]
  | .lockInterfaceRequest _ _ =>
    [.keys, .rasLog, .fns, .cmds, .locks, .pFeats, .pMem, .pScratch, .pUses, .pKey, .pColls, .pJournal, .pDeclared, .pShadows,
     .pAcct, .pHot, .ctxs, .streams, .ristretto, .semaphores, .poison, .slm, .ports, .peers, .transit, .out, .fresh]
  | .stopInterfaceRequest _ =>
    [.keys, .rasLog, .fns, .pairs, .cmds, .locks, .pFeats, .pMem, .pScratch, .pUses, .pKey, .pColls, .pJournal, .pShadows,
     .pAcct, .pHot, .ctxs, .streams, .ristretto, .semaphores, .poison, .slm, .ports, .peers, .transit, .out, .fresh]
  | .getDeviceInterfaceReport _ | .getDeviceInterfaceState _ | .getTdispVersion _ | .getTdispCapabilities _ =>
    [.out]
  | .kSetStop _ | .ideIntegrityFailure _ =>
    [.ide, .rasLog, .fns, .cmds, .locks, .pMem, .pKey, .pColls, .pAcct, .ctxs, .streams, .ristretto, .semaphores, .poison,
     .slm, .ports, .peers, .transit, .out, .fresh]
  | .ideKm _ _ _ =>
    [.ide]
  | .getMeasurements _ _ =>
    [.out, .fresh]
  | .spdmRequest _ | .pldmRequest _ _ =>
    [.fw, .out, .fresh]
  | .mctpMessage _ =>
    [.fw, .fresh]
  | .recoveryWrite _ | .setEndpointId _ =>
    [.fw]
  | .requestUpdate =>
    [.fw, .out]
  | .thymeRate _ | .thymeOffsetAdj _ | .hostTimeTimeout =>
    [.time, .rasLog, .fns, .out]
  | .thymeSnapTrig =>
    [.time]
  | .ppsEdge _ | .ppsAbsent =>
    [.time, .rasLog, .fns, .meshRef, .out]
  | .refclkAonLoss =>
    [.time, .pkg, .rasLog, .fns, .out]
  | .refclkAonReturn =>
    [.time, .pkg]
  | .refclkClLoss =>
    [.time, .pkg, .rasLog, .hif, .fns, .cmds, .locks, .pMem, .pColls, .pShadows, .pAcct, .ctxs, .streams, .ristretto,
     .semaphores, .poison, .slm, .ports, .peers, .meshRef, .transit, .out, .fresh]
  | .vaonSwitchToB | .vaonReturnToA | .hotspotThrottle _ _ =>
    [.pkg, .rasLog, .fns, .out]
  | .vaonLoss =>
    [.time, .pkg, .fw, .fuses, .debug, .policy, .keys, .ide, .rasLog, .cores, .clusters, .rasCounts, .hif, .fns, .pairs,
     .turn, .cmds, .nextCid, .locks, .pConfig, .pMode, .pFeats, .pMem, .pScratch, .pUses, .pHolds, .pKey, .pColls, .pJournal,
     .pDeclared, .pShadows, .pAcct, .pWindows, .pRegs, .pSched, .pHot, .ctxs, .incarnations, .streams, .ristretto,
     .semaphores, .atc, .devMode, .channels, .stacks, .poison, .hbmTotals, .hbmCtrl, .hbmRun, .slm, .meshCtrl, .meshCount,
     .ports, .routes, .peers, .meshRef, .barriers, .transit, .power, .tests, .out, .fresh, .pending]
  | .pgAssert _ | .railResequence =>
    [.pkg, .out]
  | .pgLoss _ =>
    [.pkg, .fw, .keys, .ide, .rasLog, .cores, .clusters, .rasCounts, .hif, .fns, .pairs, .cmds, .locks, .pConfig, .pMode,
     .pFeats, .pMem, .pScratch, .pUses, .pKey, .pColls, .pJournal, .pShadows, .pAcct, .pSched, .pHot, .ctxs, .streams,
     .ristretto, .semaphores, .atc, .channels, .poison, .hbmRun, .slm, .ports, .peers, .barriers, .transit, .power, .tests,
     .out, .fresh]
  | .sequenceFailure _ =>
    [.pkg, .rasCounts, .hif, .out]
  | .hotspotThrottleEnd _ _ | .thermTripRelease _ =>
    [.pkg]
  | .linkUp _ _ _ =>
    [.pkg, .hif]
  | .portTrainingComplete _ _ =>
    [.pkg, .rasLog, .hif, .fns, .ports, .out]
  | .addressParityError _ _ =>
    [.rasLog, .fns, .channels, .out]
  | .sensorUpdate _ _ _ _ =>
    [.pkg, .fw, .out]
  | .standInDrainTimeout _ =>
    [.cmds, .pAcct, .ctxs, .streams, .ristretto, .semaphores, .ports, .peers, .transit, .out]
  | .activationKill =>
    [.fw, .cmds, .pAcct, .ctxs, .streams, .ristretto, .semaphores, .ports, .peers, .transit, .out]
  | .stageRunning =>
    [.pkg, .fw, .hif, .out]

end Sys2Proof.Safety
end

