-- ==== Sys2Proof/Certificates/Slice0/Obligations.lean ====
section
/-! DEFINITION. The statements for the provers: what each family of commands does, what it leaves unchanged, and what every step keeps. -/

open Sys2Proof Sys2Proof.Machine Sys2Proof.Safety

/-- IDENTIFY writes the buffer that R98, R99 and R401 give, GET_FEATURE answers the value in force, and GET_LOG writes its part of the log over the
scatter list (R98, R99, R100, R561). The device data begin with the vendor and device id and the stepping. A feature reads as it was set, or its reset
value; MODE_SELECT, MODE_LOCK, SEARCH_REPORT_CLEAR, JOURNAL_CTRL, JOURNAL_STATUS and IDLE_GATE read as named here. A log is read from OFFSET on, never
more than LENGTH bytes. Completes: identify, getFeature, getLog. Conventions of the model in it: log 21, 39. -/
def Obligations.ReadCommandsAnswer : Prop :=
  (∀ (s : State) (cid : Nat) (c : Cmd), adminAt s cid 0x01 c → zeroAt c.packet [(17, 7), (32, 32)] → c.f 16 1 ≤ 2 →
    c.f 24 8 % 4096 = 0 →
    ∃ (t : State) (bytes : Bytes), exec (.identify cid) s = .next t ∧ ended t cid {} ∧
      t.out = s.out ++ [.hostWrite c.fn (c.f 24 8) bytes] ∧
      (c.f 16 1 = 0 → bytes = s.identifyDevice c.fn ∧ bytes.length = 4096 ∧ rd bytes 0 2 = 0x1F5A ∧ rd bytes 2 2 = 0x4816 ∧ rd bytes 4 1 = 0xA1) ∧
      (c.f 16 1 = 1 → ∀ p, c.fn = .vf p → bytes = fit 4096 (s.identifyPart p)) ∧
      (c.f 16 1 = 1 → c.fn = .pf → bytes = allParts.flatMap s.identifyPart) ∧
      (c.f 16 1 = 2 → bytes = s.identifyQids c.fn)) ∧
  (∀ (s : State) (cid : Nat) (c : Cmd) (v : Nat), adminAt s cid 0x06 c → zeroAt c.packet [(19, 1), (24, 40), (20, 4)] →
    s.getFeatureValue c = some v →
    ∃ t, exec (.getFeature cid) s = .next t ∧ ended t cid { count := v } ∧
      (∀ p, targetOf c.fn (c.f 18 1) = some (some p) →
        (c.fid = 0x10 → v = (s.modeOf p).toNat) ∧ (c.fid = 0x11 → v = (s.part p).modeLock.toNat) ∧ (c.fid = 0x23 → v = 0) ∧
        (c.fid = 0x43 → v = (s.part p).journal.ctrl.toNat) ∧ (c.fid = 0x44 → v = (s.part p).jStatus) ∧
        (c.fid = 0xA0 → v = s.power.idleGateUs.toNat) ∧
        ∀ w, featReset c.fid = some w → c.fid ≠ 0x43 → v = (s.part p).feat c.fid ∧ ((s.part p).feats = [] → v = w.toNat)) ∧
      (targetOf c.fn (c.f 18 1) = some none →
        (c.fid = 0x10 → v = (s.devMode &&& modeDevice).toNat) ∧ (c.fid = 0xA0 → v = s.power.idleGateUs.toNat))) ∧
  (∀ (s : State) (cid : Nat) (c : Cmd), adminAt s cid 0x04 c → s.getLogErr c = none →
    ∃ t, exec (.getLog cid) s = .next t ∧ ended t cid { count := (s.logPiece c).length } ∧
      t.out = s.out ++ scatterOut c.fn (scatter c.data.outList) 0 (s.logPiece c) ∧
      s.logPiece c = ((s.logBytes c).drop (c.f 40 8)).take (c.f 36 4))

/-- CREATE_QUEUE_PAIR makes a pair VALID with its indices at 0 and phase 1; DELETE_QUEUE_PAIR sets DELETING and its completion waits for
DELETE_QUEUE_PAIR_DONE, which removes the pair and ends the commands that asked (R77, R98, R117). Completes: createQueuePair, deleteQueuePair,
deleteQueuePairDone. RESTART_QUEUE (R113, R114, R115): on a queue that is not frozen it completes and changes nothing; on a frozen one it waits for
INFLIGHT 0, then a RESUME clears FROZEN, a FLUSH once every entry is consumed; QRESTART in hardware mode restarts a queue frozen only by designated
classes and logs the repair. Completes: restartQueueResume, restartQueueFlush, restartWait, automaticRestart. -/
def Obligations.QueuePairsAreCreatedDeletedAndRestarted : Prop :=
  (∀ (s : State) (cid : Nat) (c : Cmd), adminAt s cid 0x02 c → s.createPairErr c = none →
    ∃ (t : State) (q : Pair), exec (.createQueuePair cid) s = .next t ∧ ended t cid {} ∧ t.pairs = s.pairs ++ [q] ∧
      q.fn = c.fn ∧ q.qid = c.f 32 2 ∧ q.sqBase = c.f 16 8 ∧ q.cqBase = c.f 24 8 ∧ q.sqSize = c.f 34 2 + 1 ∧
      q.cqSize = c.f 36 2 + 1 ∧ q.vector = c.f 38 2 ∧ q.weight = c.f 44 1 ∧
      q.part = (match c.fn with | .pf => some (Fin.ofNat 16 (c.f 45 1)) | .vf p => some p) ∧
      q.head = 0 ∧ q.tail = 0 ∧ q.cqHead = 0 ∧ q.cqTail = 0 ∧ q.phase = true ∧ q.frozen = false ∧ q.deleting = false) ∧
  (∀ (s : State) (cid : Nat) (c : Cmd) (q : Pair), adminAt s cid 0x03 c → zeroAt c.packet [(18, 46)] → c.f 16 2 ≠ 0 →
    s.pair? c.fn (c.f 16 2) = some q → (∀ r, q.restart = some r → r.cid ≠ cid) → cid ∉ q.restartMore →
    ∃ (t : State) (r : Pair), exec (.deleteQueuePair cid) s = .next t ∧ t.pair? c.fn (c.f 16 2) = some r ∧ r.deleting = true ∧
      r.deleters = q.deleters ++ [cid] ∧ inPhase t cid .flushing) ∧
  (∀ (s : State) (fn : Fn) (qid : Nat) (q : Pair), s.pair? fn qid = some q → q.deleting = true →
    (∀ d ∈ s.cmds, ¬(d.fn = fn ∧ d.qid = qid)) →
    ∃ t, exec (.deleteQueuePairDone fn qid) s = .next t ∧ t.pair? fn qid = none ∧
      ∀ d ∈ q.deleters, (s.cmd? d).isSome → ended t d {}) ∧
  (∀ (s : State) (cid : Nat) (c : Cmd) (q : Pair) (i : Instr), adminAt s cid 0x09 c → s.restartErr c = none →
    s.pair? c.fn (c.f 16 2) = some q →
    (i = .restartQueueResume cid ∧ c.f 18 1 = 0) ∨ (i = .restartQueueFlush cid ∧ c.f 18 1 = 1) →
    ∃ t, exec i s = .next t ∧ (q.frozen = false → ended t cid {} ∧ t.pairs = s.pairs) ∧
      (q.frozen = true → q.deleting = false → q.restart = none → inPhase t cid .flushing ∧
        ∃ r, t.pair? c.fn (c.f 16 2) = some r ∧ r.frozen = true ∧ r.restart = some { cid := cid, flush := c.f 18 1 == 1 })) ∧
  (∀ (s : State) (fn : Fn) (qid : Nat) (q : Pair) (r : RestartReq) (c : Cmd) (ctags : List (Option (BitVec 16))),
    s.pair? fn qid = some q → q.restart = some r → s.inflight fn qid = 0 → s.cmd? r.cid = some c →
    r.flush = false ∨ q.head = r.upTo.getD q.tail →
    ∃ (t : State) (q2 : Pair), exec (.restartWait fn qid ctags) s = .next t ∧ ended t r.cid {} ∧
      t.pair? fn qid = some q2 ∧ q2.frozen = false ∧ q2.restart = none ∧ q2.head = q.head) ∧
  (∀ (s : State) (fn : Fn) (qid : Nat) (q : Pair) (p : PartNo), s.pair? fn qid = some q → q.part = some p → q.frozen = true →
    q.restart = none → q.deleting = false → s.inflight fn qid = 0 → (s.modeOf p).getLsbD mQRestart = false →
    (∀ k ∈ q.freezeClasses, ((s.part p).feat 0x16).testBit k = true) →
    ∃ (t : State) (q2 : Pair), exec (.automaticRestart fn qid) s = .next t ∧ t.pair? fn qid = some q2 ∧ q2.frozen = false ∧
      ∃ e ∈ t.ras.log, e.kind = kHost ∧ e.repair = true ∧ e.related = q.freezeSeq ∧ e.unit = qid)

/-- SET_FEATURE in its forms (R100, R426, R471, R553, R201): the feature reads its new value afterwards, and the other partitions keep theirs;
SEARCH_REPORT_CLEAR clears the one report, or with bit 16 every report of the partition. Completes: setFeature, scratchHostMib, meshDomain,
searchReportClear. -/
def Obligations.FeaturesAreSet : Prop :=
  (∀ (s : State) (cid : Nat) (c : Cmd) (p : PartNo), adminAt s cid 0x05 c → zeroAt c.packet [(19, 1), (24, 40)] →
    c.fid ∉ ownRowFids → c.fid ≠ 0xA0 → (featReset c.fid).isSome → s.featPart c = some p → featOk c.fid (c.f 20 4) = true →
    (c.fid ∈ journalFids → (s.part p).journal.state = .off) → (c.fn = .pf → s.tdiLocked p = false) →
    ∃ t, exec (.setFeature cid) s = .next t ∧ ended t cid {} ∧ (t.part p).feat c.fid = c.f 20 4 ∧
      (∀ k, k ≠ c.fid → (t.part p).feat k = (s.part p).feat k) ∧ ∀ q, q ≠ p → t.part q = s.part q) ∧
  (∀ (s : State) (cid : Nat) (c : Cmd), adminAt s cid 0x05 c → zeroAt c.packet [(19, 1), (24, 40)] → c.fid = 0xA0 → c.fn = .pf →
    c.f 18 1 = 0xFF → 10 ≤ c.f 20 4 → c.f 20 4 ≤ 1000000 →
    ∃ t, exec (.setFeature cid) s = .next t ∧ ended t cid {} ∧ t.power.idleGateUs.toNat = c.f 20 4) ∧
  (∀ (s : State) (cid : Nat) (c : Cmd) (p : PartNo), adminAt s cid 0x05 c → zeroAt c.packet [(19, 1), (24, 40)] →
    c.fid = 0x70 → s.featPart c = some p → c.f 20 4 * 2 ^ 20 ≤ s.scratchFloor p → c.f 20 4 ≤ s.scratchBytes p / 2 ^ 20 →
    (c.fn = .pf → s.tdiLocked p = false) →
    ∃ t, exec (.scratchHostMib cid) s = .next t ∧ ended t cid {} ∧ (t.part p).feat 0x70 = c.f 20 4 ∧ ∀ q, q ≠ p → t.part q = s.part q) ∧
  (∀ (s : State) (cid : Nat) (c : Cmd) (p : PartNo), adminAt s cid 0x05 c → zeroAt c.packet [(19, 1), (24, 40)] →
    c.fid = 0x80 → c.fn = .pf → s.featPart c = some p → (∀ q, q ≠ p → c.f 20 4 ≠ 0 → (s.part q).feat 0x80 ≠ c.f 20 4) →
    (∀ k ∈ (s.part p).colls, k.members = []) → s.tdiLocked p = false →
    ∃ t, exec (.meshDomain cid) s = .next t ∧ ended t cid {} ∧ (t.part p).feat 0x80 = c.f 20 4 ∧ ∀ q, q ≠ p → t.part q = s.part q) ∧
  (∀ (s : State) (cid : Nat) (c : Cmd) (p : PartNo), adminAt s cid 0x05 c → zeroAt c.packet [(19, 1), (24, 40)] →
    c.fid = 0x23 → s.featPart c = some p → c.f 20 4 &&& 0xFFFE0000 = 0 →
    ((c.f 20 4).testBit 16 = false → (s.coll? p (c.f 20 2)).isSome) → (c.fn = .pf → s.tdiLocked p = false) →
    ∃ t, exec (.searchReportClear cid) s = .next t ∧ ended t cid {} ∧
      (∀ k ∈ (t.part p).colls, (c.f 20 4).testBit 16 = true ∨ k.handle = c.f 20 2 → k.report = {}) ∧
      ∀ q, q ≠ p → t.part q = s.part q)

/-- MODE_SELECT writes the partition bits of the mode word, or the device bits for TARGET 0xFF; MODE_LOCK replaces the lock mask (R32 to R36). A
migration in progress whose mode leaves hardware mode makes the completion wait (R39). Completes: modeSelect, modeLock. Conventions of the model in
it: log 48. -/
def Obligations.ModesAreSelectedAndLocked : Prop :=
  (∀ (s : State) (cid : Nat) (c : Cmd) (p : PartNo), adminAt s cid 0x05 c → c.fid = 0x10 → s.modeSelectErr c = none →
    s.featPart c = some p → s.modeWaits c = false →
    ∃ t, exec (.modeSelect cid) s = .next t ∧
      ((s.part p).migrating = false ∨ (s.part p).modeWord.getLsbD mMigrate = true ∨ (BitVec.ofNat 32 (c.f 20 4)).getLsbD mMigrate = false →
        ended t cid {} ∧ (t.part p).modeWord = BitVec.ofNat 32 (c.f 20 4) &&& modePart ∧
        t.devMode = s.devMode ∧ ∀ q, q ≠ p → t.part q = s.part q) ∧
      ((s.part p).migrating = true → (s.part p).modeWord.getLsbD mMigrate = false → (BitVec.ofNat 32 (c.f 20 4)).getLsbD mMigrate = true →
        inPhase t cid .flushing ∧ t.parts = s.parts)) ∧
  (∀ (s : State) (cid : Nat) (c : Cmd), adminAt s cid 0x05 c → c.fid = 0x10 → c.fn = .pf → c.f 18 1 = 0xFF →
    s.modeSelectErr c = none → s.modeWaits c = false →
    ∃ t, exec (.modeSelect cid) s = .next t ∧ ended t cid {} ∧ t.devMode = BitVec.ofNat 32 (c.f 20 4) &&& modeDevice ∧
      t.parts = s.parts) ∧
  (∀ (s : State) (cid : Nat) (c : Cmd) (p : PartNo), adminAt s cid 0x05 c → c.fid = 0x11 →
    zeroAt c.packet [(19, 1), (24, 40)] → c.fn = .pf → c.f 20 4 &&& (~~~modePart).toNat = 0 → s.featPart c = some p →
    s.tdiLocked p = false → s.modeWaits c = false →
    ∃ t, exec (.modeLock cid) s = .next t ∧ ended t cid {} ∧ (t.part p).modeLock = BitVec.ofNat 32 (c.f 20 4) ∧
      (t.part p).modeWord = (s.part p).modeWord)

/-- R36: a MODE_SELECT that would change a locked bit, or a device-scope bit from a VF, completes with status class 5 and changes nothing: no
partition, and no device-scope mode bit (where no earlier MODE_SELECT of the partition still waits for its handoffs, log 48). Conventions of the model
in it: log 48. -/
def Obligations.LockedModeBitsRefuseModeSelect : Prop :=
  ∀ (s : State) (cid : Nat) (c : Cmd) (p : PartNo), adminAt s cid 0x05 c → c.fid = 0x10 → zeroAt c.packet [(19, 1), (24, 40)] →
    c.f 20 4 < 0x800 → targetOf c.fn (c.f 18 1) = some (some p) → (s.part p).present = true → s.modeWaits c = false →
    ((BitVec.ofNat 32 (c.f 20 4) ^^^ (s.part p).modeWord) &&& modePart &&& (s.part p).modeLock ≠ 0) ∨
      (c.fn ≠ .pf ∧ BitVec.ofNat 32 (c.f 20 4) &&& modeDevice ≠ s.devMode &&& modeDevice) →
    ∃ (t : State) (d : Cmd), exec (.modeSelect cid) s = .next t ∧ t.cmd? cid = some d ∧ d.phase = .done ∧ statusClass d.status = 5 ∧
      t.parts = s.parts ∧ t.devMode = s.devMode ∧ t.time = s.time ∧ t.hif = s.hif ∧ t.fns = s.fns ∧ t.out = s.out

/-- JOURNAL_CONTROL (R306, R308, R309, R315): FORMAT starts generation 1 of a new journal and completes once its header is flushed; REPLAY of a region
without a current header, or whose blob does not open, ends with an error, any other makes the journal REPLAYING and leaves it ACTIVE or FAILED; a
disable waits for the records still written, then the journal is OFF. Completes: journalFormat, journalReplay, journalDisable. The flushing reads
(R95, R314, R315, R324): a return confirms the records up to the one it reads and their commands fall due, or the DURABLE export that issued it; a
failed one makes the journal FAILED, keeps the commands until it is disabled, and is logged as HOST event 4. Completes: flushingReadReturn,
flushingReadFailed. Conventions of the model in it: log 29. -/
def Obligations.JournalsFormatReplayFlushAndClose : Prop :=
  (∀ (s : State) (cid : Nat) (c : Cmd) (p : PartNo), adminAt s cid 0x05 c → zeroAt c.packet [(19, 1), (24, 40)] →
    c.fid = 0x43 → c.jEnable = true → c.jFormat = true → s.featPart c = some p → s.journalEnableErr p c = none →
    (c.fn = .pf → s.tdiLocked p = false) →
    ∃ t, exec (.journalFormat cid) s = .next t ∧ inPhase t cid .flushing ∧ (t.part p).journal.state = .active ∧
      (t.part p).journal.recs = [] ∧ (∃ w ∈ (t.part p).journal.waiting, w.1 = cid) ∧
      ∀ k ∈ (t.part p).colls, k.createSeq = 0 ∧ k.durableSeq = none) ∧
  (∀ (s : State) (cid : Nat) (c : Cmd) (p : PartNo) (region : Bytes), adminAt s cid 0x05 c →
    zeroAt c.packet [(19, 1), (24, 40)] → c.fid = 0x43 → c.jEnable = true → c.jReplay = true → c.jFormat = false →
    s.featPart c = some p → s.journalEnableErr p c = none → (c.fn = .pf → s.tdiLocked p = false) → currentHeader region = none →
    ∃ t, exec (.journalReplay cid region) s = .next t ∧ ended t cid { status := 0x4005 } ∧ t.parts = s.parts) ∧
  (∀ (s : State) (cid : Nat) (c : Cmd) (p : PartNo) (region h blob : Bytes), adminAt s cid 0x05 c →
    zeroAt c.packet [(19, 1), (24, 40)] → c.fid = 0x43 → c.jEnable = true → c.jReplay = true → c.jFormat = false →
    s.featPart c = some p → s.journalEnableErr p c = none → (c.fn = .pf → s.tdiLocked p = false) → currentHeader region = some h →
    blob = slice h 256 1728 →
    ∃ t, exec (.journalReplay cid region) s = .next t ∧
      match s.unwrap (blob.take (rd blob 8 4)) with
      | .inl st => ended t cid { status := st } ∧ t.parts = s.parts
      | .inr _ => (rd blob 12 1 ≠ 2 → ended t cid { status := 0x4005 }) ∧
        (rd blob 12 1 = 2 → inPhase t cid .flushing ∧ (t.part p).journal.state = .replaying ∧ (t.part p).journal.replayCid = cid)) ∧
  (∀ (s : State) (cid : Nat) (c : Cmd) (p : PartNo) (region : Bytes), sound s → s.cmd? cid = some c → c.isAdmin = true →
    c.op = 0x05 → c.fid = 0x43 → c.jEnable = true → c.phase = .flushing → s.featPart c = some p →
    (s.part p).journal.state = .replaying → (s.part p).journal.replayCid = cid → clean s →
    ∃ t, exec (.journalReplay cid region) s = .next t ∧ inPhase t cid .done ∧
      match s.journalOpen region with
      | .inl _ => (t.part p).journal.state = .off
      | .inr (h, _) => (t.part p).journal.id = rd h 16 8 ∧ ((t.part p).journal.state = .active ∨ (t.part p).journal.state = .failed)) ∧
  (∀ (s : State) (cid : Nat) (c : Cmd) (p : PartNo), adminAt s cid 0x05 c → zeroAt c.packet [(19, 1), (24, 40)] →
    c.fid = 0x43 → c.jEnable = false → s.featPart c = some p → c.f 20 4 &&& 0xFFFFFFF0 = 0 → (c.fn = .pf → s.tdiLocked p = false) →
    ∃ t, exec (.journalDisable cid) s = .next t ∧
      ((s.part p).journal.busy = false → (t.part p).journal.state = .off ∧ inPhase t cid .done) ∧
      ((s.part p).journal.busy = true → inPhase t cid .flushing)) ∧
  (∀ (s : State) (p : PartNo) (q cid n : Nat) (rest : List Nat) (c : Cmd), sound s → (s.part p).journal.reads = q :: rest → q < 2 ^ 64 →
    (s.part p).journal.state = .active → (s.part p).journal.waiting = [(cid, n)] → s.cmd? cid = some c → c.phase = .flushing →
    c.orphan = false → c.mesh = none →
    ∃ (t : State) (d : Cmd), exec (.flushingReadReturn p) s = .next t ∧ t.cmd? cid = some d ∧
      (n ≤ q → d.phase = .done ∧ (t.part p).journal.waiting = []) ∧
      (q < n → d.phase = .flushing ∧ (t.part p).journal.waiting = [(cid, n)])) ∧
  (∀ (s : State) (p : PartNo) (cid : Nat) (rest : List Nat) (c : Cmd), sound s → (s.part p).journal.reads = (2 ^ 64 + cid) :: rest →
    s.cmd? cid = some c → c.phase = .flushing → c.orphan = false → c.mesh = none →
    ∃ (t : State) (d : Cmd), exec (.flushingReadReturn p) s = .next t ∧ t.cmd? cid = some d ∧ d.phase = .done ∧ d.status = c.status) ∧
  (∀ (s : State) (p : PartNo) (q : Nat) (rest : List Nat), sound s → (s.part p).journal.reads = q :: rest → q < 2 ^ 64 →
    (∀ w ∈ (s.part p).journal.waiting, ∀ c, s.cmd? w.1 = some c → c.isAdmin = false) →
    ∃ t, exec (.flushingReadFailed p) s = .next t ∧ (t.part p).journal.state = .failed ∧ (t.part p).journal.waiting = [] ∧
      (t.part p).journal.held = (s.part p).journal.held ++ (s.part p).journal.waiting.map (·.1) ∧ t.cmds = s.cmds ∧
      logs s t fun e => e.kind = kHost ∧ e.status = stJournalWrite ∧ e.part = some p ∧ rd e.detail 0 1 = 4)

/-- SELF_TEST (R122 to R125, R571, R572): START registers the test and its completion waits; STOP ends the function's tests with 0x300B; a test in
which no item failed completes with success; one that runs past its time ends with 0x300B; a paused test goes on 100 µs after no host command waits
for its cluster. Completes: selfTestStart, selfTestStop, selfTestComplete, testStepResume, testNotCompleted. Conventions of the model in it: log 37. -/
def Obligations.SelfTestsRunAndEnd : Prop :=
  (∀ (s : State) (cid : Nat) (c : Cmd), adminAt s cid 0x07 c → c.f 16 1 ≠ 1 → s.testErr c = none →
    ∃ t, exec (.selfTestStart cid) s = .next t ∧ inPhase t cid .flushing ∧
      ∃ x ∈ t.tests, x.cid = cid ∧ x.fn = c.fn ∧ x.clusters = s.testClusters c ∧ x.extended = (c.f 17 1 == 1) ∧ x.startedAt = s.time.clk) ∧
  (∀ (s : State) (cid : Nat) (c : Cmd), adminAt s cid 0x07 c → c.f 16 1 = 1 → s.stopErr c = none →
    (∀ x ∈ s.tests, x.cid ≠ cid) →
    ∃ t, exec (.selfTestStop cid) s = .next t ∧ ended t cid {} ∧ (∀ x ∈ t.tests, x.fn ≠ c.fn) ∧
      ∀ x ∈ s.tests, x.fn = c.fn → (s.cmd? x.cid).isSome → ended t x.cid { status := 0x300B }) ∧
  (∀ (s : State) (cid : Nat) (c : Cmd) (x : Test) (failed notRun : List (Nat × Nat)), s.cmd? cid = some c →
    s.tests.find? (fun y => y.cid == cid) = some x → x.paused = false → s.netBusy x = false → x.extended = false → x.barrierFailed = false →
    (∀ i ∈ failed, x.hasItem i = false) →
    ∃ t, exec (.selfTestComplete cid failed notRun) s = .next t ∧ ended t cid {} ∧ ∀ y ∈ t.tests, y.cid ≠ cid) ∧
  (∀ (s : State) (cid : Nat) (x : Test), s.tests.find? (fun y => y.cid == cid) = some x → x.paused = true →
    s.testBusy x = false → x.idleSince + 2500 ≤ s.time.clk →
    ∃ t, exec (.testStepResume cid) s = .next t ∧ ∀ y ∈ t.tests, y.cid = cid → y.paused = false) ∧
  (∀ (s : State) (cid : Nat) (c : Cmd) (x : Test), s.cmd? cid = some c → s.tests.find? (fun y => y.cid == cid) = some x →
    x.startedAt * 40 + (if x.extended then 6000000000000 else 20000000000) ≤ s.phys →
    ∃ t, exec (.testNotCompleted cid) s = .next t ∧ ended t cid { status := 0x300B } ∧ ∀ y ∈ t.tests, y.cid ≠ cid)

/-- SET_POWER_STATE (R118 to R121, R553): PS0 and PS1 at once, PS2 and PS3 by an entry with the limits of the command (1,000 ms and 10,000 µs for 0),
PS3 left by a start of the data path. The entry ends in its state, or is deferred with 0x3008 past its limit; PS2 is entered again, and an idle
cluster gated, after their idle times. Completes: setPowerState, powerStateEntry, powerEntryDeferred, ps2Reentry, clusterGate. Conventions of the
model in it: log 47. -/
def Obligations.PowerStatesAreEntered : Prop :=
  (∀ (s : State) (cid : Nat) (c : Cmd), adminAt s cid 0x08 c → s.powerErr c = none → s.power.ps ≠ 3 → c.f 16 1 < 2 →
    ∃ t, exec (.setPowerState cid) s = .next t ∧ ended t cid {} ∧ t.power.ps = c.f 16 1 ∧ t.hbm.selfRefresh = false) ∧
  (∀ (s : State) (cid : Nat) (c : Cmd), adminAt s cid 0x08 c → s.powerErr c = none →
    c.f 16 1 = 3 ∨ (s.power.ps ≠ 3 ∧ c.f 16 1 = 2) →
    ∃ (t : State) (e : Entry), exec (.setPowerState cid) s = .next t ∧ inPhase t cid .flushing ∧ t.power.entry = some e ∧
      e.cid = cid ∧ e.target = c.f 16 1 ∧ e.limitMs = (if c.f 20 4 = 0 then 1000 else c.f 20 4) ∧
      e.reentry = (if c.f 24 4 = 0 then 10000 else c.f 24 4) ∧ t.power.ps = s.power.ps) ∧
  (∀ (s : State) (cid : Nat) (c : Cmd), adminAt s cid 0x08 c → s.powerErr c = none → s.power.ps = 3 → c.f 16 1 < 3 →
    ∃ t, exec (.setPowerState cid) s = .next t ∧ inPhase t cid .flushing ∧ t.hif.restartAt = s.time.clk ∧ t.power.wake = some (cid, c.f 16 1)) ∧
  (∀ (s : State) (c : Cmd) (e : Entry), s.power.entry = some e → s.entryBusy e.cid = false → s.power.wake = none → s.cmd? e.cid = some c →
    ∃ t, exec .powerStateEntry s = .next t ∧ t.power.ps = e.target ∧ t.power.entry = none ∧
      (e.target = 2 → ended t e.cid {} ∧ t.hbm.selfRefresh = true) ∧
      (e.target ≠ 2 → t.hif.dpReady = false ∧ t.hbm.initDone = false ∧ t.ctxs = [])) ∧
  (∀ (s : State) (c : Cmd) (e : Entry), s.power.entry = some e → e.quiet = false → e.startedAt * 40 + e.limitMs * 1000000 ≤ s.phys →
    s.cmd? e.cid = some c →
    ∃ t, exec .powerEntryDeferred s = .next t ∧ ended t e.cid { status := 0x3008 } ∧
      (e.previous ≠ 3 → t.power.ps = e.previous ∧ t.power.entry = none) ∧ (e.previous = 3 → t.power.ps = s.power.ps)) ∧
  (∀ (s : State), s.power.ps = 2 → s.power.awake = true → s.cmds = [] → s.power.reentryIdle ≠ 0xFFFFFFFF →
    s.power.idleSince * 40 + s.power.reentryIdle * 1000 ≤ s.phys →
    ∃ t, exec .ps2Reentry s = .next t ∧ t.power.awake = false ∧ t.hbm.selfRefresh = true ∧ ∀ k ∈ t.ras.clusters, k.gated = true) ∧
  (∀ (s : State) (n : Nat), sound s → n < 16 → s.power.ps = 1 → (∀ x ∈ s.ctxs, x.core / 9 ≠ n) →
    (s.clusterAt n).idleSince * 40 + s.power.idleGateUs.toNat * 1000 ≤ s.phys →
    ∃ t, exec (.clusterGate n) s = .next t ∧ (t.clusterAt n).gated = true ∧ ∀ m, m ≠ n → t.clusterAt m = s.clusterAt m)

/-- PARTITION_CONFIGURE (R401 to R404, R408): SET on a partition that does not exist makes it exist with the fields of the command, empty and at the
reset values; CLEAR of a quiet partition ends its existence; ADJUST changes the shares and keeps what the partition holds. Completes:
partitionConfigureSet, partitionConfigureClear, partitionConfigureAdjust. Conventions of the model in it: log 32. -/
def Obligations.PartitionsAreConfigured : Prop :=
  (∀ (s : State) (cid : Nat) (c : Cmd), adminAt s cid 0x0A c → c.f 17 1 = 0 → s.partSetErr c = none →
    (s.part c.pcPart).present = false →
    ∃ t, exec (.partitionConfigureSet cid) s = .next t ∧ ended t cid {} ∧ (t.part c.pcPart).present = true ∧
      (t.part c.pcPart).clusters = c.pcClusters ∧ (t.part c.pcPart).scratch = c.f 20 1 ∧ (t.part c.pcPart).borrow = c.pcBorrow ∧
      (t.part c.pcPart).hbmShare = c.f 22 2 ∧ (t.part c.pcPart).meshShare = c.f 28 1 ∧ (t.part c.pcPart).qpQuota = c.f 26 2 ∧
      (t.part c.pcPart).modeWord = 0 ∧ (t.part c.pcPart).feats = [] ∧ (t.part c.pcPart).colls = [] ∧
      (t.part c.pcPart).hbmKey = some (s.sec.keyCount + 1) ∧ ∀ q, q ≠ c.pcPart → t.part q = s.part q) ∧
  (∀ (s : State) (cid : Nat) (c : Cmd), adminAt s cid 0x0A c → c.fn = .pf → c.f 17 1 = 0 → s.partSetErr c = none →
    (s.part c.pcPart).present = true → s.partQuiet c.pcPart = true → (∀ q ∈ s.pairs, q.part = some c.pcPart → q.qid = 0) →
    ∃ t, exec (.partitionConfigureSet cid) s = .next t ∧ ended t cid {} ∧ (t.part c.pcPart).present = true ∧
      (t.part c.pcPart).clusters = c.pcClusters ∧ (t.part c.pcPart).colls = [] ∧ (t.part c.pcPart).feats = []) ∧
  (∀ (s : State) (cid : Nat) (c : Cmd), adminAt s cid 0x0A c → c.fn = .pf → c.f 17 1 = 1 → s.partClearErr c = none →
    s.partQuiet c.pcPart = true → (∀ q ∈ s.pairs, q.part ≠ some c.pcPart) → s.pair? (.vf c.pcPart) 0 = none →
    ∃ t, exec (.partitionConfigureClear cid) s = .next t ∧ ended t cid {} ∧ t.part c.pcPart = {} ∧
      (t.fnAt (.vf c.pcPart)).qmEnable = false) ∧
  (∀ (s : State) (cid : Nat) (c : Cmd), adminAt s cid 0x0A c → c.f 17 1 = 2 → s.partAdjustErr c = none →
    ∃ t, exec (.partitionConfigureAdjust cid) s = .next t ∧ ended t cid {} ∧ (t.part c.pcPart).hbmShare = c.f 22 2 ∧
      (t.part c.pcPart).meshShare = c.f 28 1 ∧ (t.part c.pcPart).borrow = c.pcBorrow ∧ (t.part c.pcPart).qpQuota = c.f 26 2 ∧
      (s.part c.pcPart).granules <+: (t.part c.pcPart).granules ∧ (t.part c.pcPart).clusters = (s.part c.pcPart).clusters ∧
      (t.part c.pcPart).colls = (s.part c.pcPart).colls ∧ (t.part c.pcPart).mem = (s.part c.pcPart).mem)

/-- FIRMWARE_LOAD and FIRMWARE_ACTIVATE (R540, R542, R543): a load takes the one transfer; at its end a verified image is stored and its version
returned, an unverified one ends with 0x5003 and a failed flash with 0x7001; a LIVE activation waits, kills the contexts after 1.0 ms and ends once
they are gone with the stored image active; a RESTART activation writes its completion and then restarts Sage. Completes: firmwareLoad,
firmwareActivateLive, activationKill, firmwareActivateRestart. Conventions of the model in it: log 3, 47. -/
def Obligations.FirmwareIsLoadedAndActivated : Prop :=
  (∀ (s : State) (cid : Nat) (c : Cmd) (ok : Bool), adminAt s cid 0x0B c → loadErr c = none → s.fw.transfer = .none →
    (∀ d ∈ s.cmds, d.id < cid → d.isAdmin = true → d.op = 0x0B → d.phase ≠ .ready) →
    ∃ t, exec (.firmwareLoad cid ok) s = .next t ∧ inPhase t cid .flushing ∧ t.fw.transfer = .load cid) ∧
  (∀ (s : State) (cid : Nat) (c : Cmd) (ok : Bool), s.cmd? cid = some c → c.isAdmin = true → c.op = 0x0B → c.phase = .flushing →
    s.fw.transfer = .load cid →
    ∃ t, exec (.firmwareLoad cid ok) s = .next t ∧ t.fw.transfer = .none ∧ t.fw.active = s.fw.active ∧
      (s.verified (fit (c.f 28 4) c.input) = none → ended t cid { status := 0x5003 } ∧ t.fw.stored = s.fw.stored) ∧
      (∀ i, s.verified (fit (c.f 28 4) c.input) = some i →
        (ok = true → ended t cid { count := i.version.toNat } ∧ t.fw.stored = some i) ∧
        (ok = false → ended t cid { status := 0x7001 } ∧ t.fw.stored = none))) ∧
  (∀ (s : State) (cid : Nat) (c : Cmd), adminAt s cid 0x0C c → c.f 16 1 = 0 → s.fw.transfer = .none → s.fw.live = none →
    s.liveErr c = none →
    ∃ t, exec (.firmwareActivateLive cid) s = .next t ∧ inPhase t cid .flushing ∧ t.fw.live = some (cid, s.time.clk)) ∧
  (∀ (s : State) (a b : Nat), s.fw.live = some (a, b) → s.fw.liveKilled = false → b + 25000 ≤ s.time.clk →
    (∀ x ∈ s.ctxs, (s.cmd? x.cid).isSome) →
    ∃ t, exec .activationKill s = .next t ∧ t.fw.liveKilled = true ∧
      ∀ x ∈ t.ctxs, x.state = .leaving ∨ x.state = .committing) ∧
  (∀ (s : State) (cid : Nat) (c : Cmd) (i : Image), s.cmd? cid = some c → c.isAdmin = true → c.op = 0x0C → c.f 16 1 = 0 →
    c.phase = .flushing → sound s → s.fw.liveKilled = true → (∀ x ∈ s.ctxs, x.state = .leaving) → s.fw.stored = some i →
    ∃ t, exec (.firmwareActivateLive cid) s = .next t ∧ ended t cid {} ∧ t.fw.active = i ∧ t.fw.live = none ∧
      (t.fnAt .pf).evCause.getLsbD evFwActivated = true) ∧
  (∀ (s u : State) (cid : Nat) (c : Cmd), adminAt s cid 0x0C c → c.f 16 1 = 1 → s.fw.transfer = .none →
    zeroAt c.packet [(17, 47)] → s.activateErr = none → s.pkg.perstSeen = false → (s.finish cid {}).postNow cid = some u →
    ∃ t, exec (.firmwareActivateRestart cid) s = .next t ∧ t.hif.fwRestart = true ∧ t.hif.sageReady = false ∧ u.out <+: t.out)

/-- A PLDM update (R539, R541): REQUEST_UPDATE takes the transfer or is refused while another holds it; APPLY_COMPLETE stores a verified image;
ACTIVATE_FIRMWARE leaves update mode. SET_ENDPOINT_ID and PLDM_REQUEST answer (R532 to R534). Completes: requestUpdate, applyComplete,
activateFirmware, setEndpointId, pldmRequest. Conventions of the model in it: log 26. -/
def Obligations.PldmUpdatesAndAnswers : Prop :=
  (∀ (s : State), s.mgmtLive = true →
    ∃ t, exec .requestUpdate s = .next t ∧
      (s.fw.transfer = .none → t.fw.transfer = .pldm ∧ t.out = s.out ++ [.message "UPDATE_MODE" []]) ∧
      (s.fw.transfer ≠ .none → t.fw.transfer = s.fw.transfer ∧ t.out = s.out ++ [.message "ALREADY_IN_UPDATE_MODE" []])) ∧
  (∀ (s : State) (b : Bytes) (ok : Bool), s.fw.stage = .running → s.fw.transfer = .pldm →
    ∃ t, exec (.applyComplete b ok) s = .next t ∧ t.fw.active = s.fw.active ∧
      (s.verified b = none → t.fw.stored = s.fw.stored ∧ t.fw.transfer = .none) ∧
      ∀ i, s.verified b = some i → (ok = true → t.fw.stored = some i) ∧ (ok = false → t.fw.stored = none ∧ t.fw.transfer = .none)) ∧
  (∀ (s : State) (self : Bool), s.barLive = true → s.fw.transfer = .pldm →
    ∃ t, exec (.activateFirmware self) s = .next t ∧ t.fw.transfer = .none ∧
      (self = true → s.activateErr = none → t.hif.fwRestart = true) ∧ (self = false → t.fw.stage = .running)) ∧
  (∀ (s : State) (eid : BitVec 8), s.mgmtLive = true →
    ∃ t, exec (.setEndpointId eid) s = .next t ∧ t.fw.endpointId = eid) ∧
  (∀ (s : State), s.fw.stage = .running →
    ∃ t u, exec (.pldmRequest 2 (some 16)) s = .next t ∧ t.out = s.out ++ [.message "PLDM" (toLe 4 s.power.ps)] ∧
      exec (.pldmRequest 4 none) s = .next u ∧ u.out = s.out ++ [.message "PLDM" fruData])

/-- The boot (R537, R538, R590): after the PCIe PHY component has passed, the boot ROM acts on PERST#; stage RUNNING sets SAGE_READY and the stored
image is active. Completes: pciePhyDigestPassed, stageRunning. The SAGE mailbox (R535, R536, R539): a request with the key and GO is answered with its
TYPE and a status; an unknown TYPE, and image data outside recovery, give BAD_TYPE; image data are kept in recovery, and the finished image is
verified and stored. Completes: mctpMessage, recoveryWrite, recoveryFinish. Conventions of the model in it: log 5, 26. -/
def Obligations.SageBootsAndItsMailboxAnswers : Prop :=
  (∀ (s : State), s.fw.stage = .bootRom → s.fw.bootError = 0 → s.fw.pciePhyPassed = false → s.powered = true → s.pgOf 1 = true →
    ∃ t, exec .pciePhyDigestPassed s = .next t ∧ t.fw.pciePhyPassed = true ∧
      (s.pkg.perstPending = true → t.pkg.perst = false ∧ t.hif.linkTraining = true) ∧
      (s.pkg.perstSeen = true → t.pairs = [] ∧ t.cmds = [] ∧ t.pkg.perstSeen = false) ∧
      (s.pkg.perstSeen = false → s.pkg.perstPending = false → t.pkg = s.pkg)) ∧
  (∀ (s : State) (i : Image), s.fw.stage = .bootRom → s.fw.bootError = 0 → s.fw.pciePhyPassed = true → s.powered = true →
    s.fw.stored = some i →
    ∃ t, exec .stageRunning s = .next t ∧ t.fw.stage = .running ∧ t.fw.active = i ∧ t.hif.sageReady = true) ∧
  (∀ (s : State) (v : Word32), s.mbGo v = true → s.mbType ≠ 1 → s.mbType ≠ 2 → s.mbType ≠ 3 →
    ∃ t, exec (.mctpMessage v) s = .next t ∧ t.fw.mbRespReady = true ∧ bits t.fw.mbResp.toNat 24 8 = s.mbType ∧
      bits t.fw.mbResp.toNat 17 7 = mbBadType) ∧
  (∀ (s : State) (v : Word32), s.mbGo v = true → s.mbType = 1 → s.mbLengthOk = true → s.mctpAccepts (rd s.mbBytes 0 1) = true →
    ∃ t, exec (.mctpMessage v) s = .next t ∧ t.fw.mbRespReady = true ∧ bits t.fw.mbResp.toNat 24 8 = 1 ∧
      bits t.fw.mbResp.toNat 17 7 = mbOk) ∧
  (∀ (s : State) (v : Word32), s.mbGo v = true → s.mbType = 2 →
    ∃ t, exec (.recoveryWrite v) s = .next t ∧ t.fw.mbRespReady = true ∧
      (s.fw.stage ≠ .recovery → bits t.fw.mbResp.toNat 17 7 = mbBadType ∧ t.fw.received = s.fw.received) ∧
      (s.fw.stage = .recovery → s.mbLengthOk = true → s.fw.mbArg.toNat % 4 = 0 → s.fw.mbArg.toNat + s.mbLength ≤ 2 ^ 25 →
        bits t.fw.mbResp.toNat 17 7 = mbOk ∧ t.fw.received = s.fw.received ++ [(s.fw.mbArg.toNat, s.mbBytes)])) ∧
  (∀ (s : State) (v : Word32) (ok : Bool), s.mbGo v = true → s.mbType = 3 → s.fw.stage = .recovery → 4096 ≤ s.fw.mbArg.toNat →
    s.fw.mbArg.toNat ≤ 2 ^ 25 →
    ∃ t, exec (.recoveryFinish v ok) s = .next t ∧ t.fw.mbRespReady = true ∧
      (s.verified (s.receivedImage s.fw.mbArg.toNat) = none →
        bits t.fw.mbResp.toNat 17 7 = mbVerifyFailed ∧ t.fw.stored = s.fw.stored ∧ t.fw.stage = .recovery) ∧
      ∀ i, s.verified (s.receivedImage s.fw.mbArg.toNat) = some i →
        (ok = false → bits t.fw.mbResp.toNat 17 7 = mbFlashFailed ∧ t.fw.stored = none) ∧
        (ok = true → bits t.fw.mbResp.toNat 17 7 = mbOk ∧ t.fw.stored = some i))

/-- SECURITY_SEND and SECURITY_RECEIVE (R507 to R509, R506): an SPDM request leaves its response pending for its function, and a receive takes it; the
binding certificate bundle and the tags of the declared set are written to the host where the buffer holds them, and 0x2002 writes nothing where it
does not; DECLARE_SET puts its bundles after the device itself, PEER_POLICY stores its flags and tags. Completes: securitySend, securityReceive,
bindingCert, declareSet, deviceSet, peerPolicy. Conventions of the model in it: log 24. -/
def Obligations.SecurityBuffersAreServed : Prop :=
  (∀ (s : State) (cid : Nat) (c : Cmd), adminAt s cid 0x0D c → c.secp = 1 → zeroAt c.packet [(17, 1)] → c.secErr false 65536 [0] = none →
    ∃ t, exec (.securitySend cid) s = .next t ∧ ended t cid {} ∧ (t.fnAt c.fn).spdmResp = some (s.spdmReply c.fn c.secBuf)) ∧
  (∀ (s : State) (cid : Nat) (c : Cmd) (b : Bytes), adminAt s cid 0x0E c → c.secp = 1 → zeroAt c.packet [(17, 1)] → c.secErr false 65536 [0] = none →
    (s.fnAt c.fn).spdmResp = some b →
    ∃ t, exec (.securityReceive cid) s = .next t ∧
      (b.length ≤ c.secLen → ended t cid { count := b.length } ∧ t.out = s.out ++ [.hostWrite c.fn (c.f 24 8) b] ∧
        (t.fnAt c.fn).spdmResp = none) ∧
      (c.secLen < b.length → ended t cid { status := 0x2002, cause := toLe 4 20 } ∧ t.out = s.out ∧ (t.fnAt c.fn).spdmResp = some b)) ∧
  (∀ (s : State) (cid : Nat) (c : Cmd), adminAt s cid 0x0E c → c.isSeal 0x01 = true → c.secErr false 65536 [0] = none →
    ∃ t, exec (.bindingCert cid) s = .next t ∧
      (16 + Config.certBundle.length ≤ c.secLen → ended t cid { count := 16 + Config.certBundle.length } ∧
        t.out = s.out ++ [.hostWrite c.fn (c.f 24 8) (fit 16 (toLe 4 3) ++ Config.certBundle)]) ∧
      (c.secLen < 16 + Config.certBundle.length → ended t cid { status := 0x2002, cause := toLe 4 20 } ∧ t.out = s.out)) ∧
  (∀ (s : State) (cid : Nat) (c : Cmd) (p : PartNo) (l : List (Bytes × Bytes)), adminAt s cid 0x0D c →
    c.isSeal 0x02 = true → s.secPartErr c 1048576 = none → 16 ≤ c.secLen → rd c.secBuf 0 4 ≤ 63 → zeroAt c.secBuf [(4, 12)] →
    s.secPart c = some p → c.declared = some l →
    ∃ t, exec (.declareSet cid) s = .next t ∧ ended t cid {} ∧ (t.part p).declared = l ∧
      t.declaredSet p = (Config.identityTag, Config.bindingTag) :: l ∧ ∀ q, q ≠ p → t.part q = s.part q) ∧
  (∀ (s : State) (cid : Nat) (c : Cmd) (p : PartNo), adminAt s cid 0x0E c → c.isSeal 0x03 = true → s.secPartErr c 65536 = none →
    s.secPart c = some p →
    ∃ t, exec (.deviceSet cid) s = .next t ∧
      (16 + 16 * (s.declaredSet p).length ≤ c.secLen → ended t cid { count := 16 + 16 * (s.declaredSet p).length } ∧
        t.out = s.out ++ [.hostWrite c.fn (c.f 24 8)
          (fit 16 (toLe 4 (s.declaredSet p).length) ++ (s.declaredSet p).flatMap fun d => fit 16 d.1)]) ∧
      (c.secLen < 16 + 16 * (s.declaredSet p).length → ended t cid { status := 0x2002, cause := toLe 4 20 } ∧ t.out = s.out)) ∧
  (∀ (s : State) (cid : Nat) (c : Cmd), adminAt s cid 0x0D c → c.isSeal 0x04 = true → c.secPfErr [0] = none →
    rd c.secBuf 0 4 < 8 → rd c.secBuf 4 4 ≤ 1024 → zeroAt c.secBuf [(8, 8)] → 16 + 16 * rd c.secBuf 4 4 ≤ c.secLen →
    ∃ t, exec (.peerPolicy cid) s = .next t ∧ ended t cid {} ∧ t.sec.peerFlags = BitVec.ofNat 32 (rd c.secBuf 0 4) ∧
      t.sec.peerTags = (List.range (rd c.secBuf 4 4)).map fun i => slice c.secBuf (16 + 16 * i) 16)

/-- The fuse operations (R508, R510, R528, R531): the owner key's hash is fused once; FUSE_DEBUG_CLOSE closes the port; COMMIT_SVN raises the floor to
the active image's SVN and never lowers it. Completes: fuseOwnerKey, fuseDebugClose, commitSvn. The debug port (R526, R527): a challenge issues a
nonce with the serial number; a valid token opens a LOCKED port at its level at once where no restart is needed, and is spent; DEBUG_LOCK locks;
nothing opens a CLOSED port. Completes: debugChallenge, debugToken, debugLock. Conventions of the model in it: log 38. -/
def Obligations.FusesBlowAndTheDebugPortOpens : Prop :=
  (∀ (s : State) (cid : Nat) (c : Cmd), adminAt s cid 0x0D c → c.isSeal 0x05 = true → c.secPfErr [fuseConfirm] = none → c.secLen = 512 →
    ∃ t, exec (.fuseOwnerKey cid) s = .next t ∧
      (s.sec.fuses.ownerKey = none → ended t cid {} ∧ t.sec.fuses.ownerKey = some (Config.sha512 c.secBuf)) ∧
      (s.sec.fuses.ownerKey ≠ none → ended t cid { status := 0x5001 } ∧ t.sec.fuses = s.sec.fuses)) ∧
  (∀ (s : State) (cid : Nat) (c : Cmd), adminAt s cid 0x0D c → c.isSeal 0x06 = true → c.secPfErr [fuseConfirm] = none →
    ∃ t, exec (.fuseDebugClose cid) s = .next t ∧ ended t cid {} ∧ t.sec.fuses.debugClosed = true ∧ t.sec.debugState = .closed) ∧
  (∀ (s : State) (cid : Nat) (c : Cmd), adminAt s cid 0x0D c → c.isSeal 0x07 = true → c.secPfErr [0, fuseConfirm] = none →
    s.sec.fuses.svnFloor ≤ 63 →
    ∃ t, exec (.commitSvn cid) s = .next t ∧ ended t cid {} ∧ t.sec.fuses.svnFloor = max s.sec.fuses.svnFloor (min 63 s.fw.active.svn) ∧
      t.sec.fuses.repair = s.sec.fuses.repair) ∧
  (∀ (s : State), s.powered = true → s.sec.debugState ≠ .closed →
    ∃ (t : State) (n : Bytes), exec .debugChallenge s = .next t ∧ n.length = 32 ∧ t.sec.nonce = some { value := n, issuedAt := s.phys } ∧
      t.out = s.out ++ [.challenge n Config.serial]) ∧
  (∀ (s : State) (serial : Word64) (nonce sig osig : Bytes) (level : Nat), s.powered = true → s.sec.debugState ≠ .closed →
    s.hif.dpRestarting = false → s.hif.fatal = false → s.importing = false →
    ∃ t, exec (.debugToken serial nonce level sig osig) s = .next t ∧ (s.tokenOk serial nonce level sig osig = false → t = s) ∧
      (s.tokenOk serial nonce level sig osig = true → t.sec.nonce = none ∧
        (level = 1 → s.debugRestarts 1 = false → t.sec.debugState = .openObserve ∧ t.sec.debugPending = none) ∧
        (level = 2 → t.sec.debugPending = some 2 ∧ t.hif.dpRestarting = true))) ∧
  (∀ (s : State), s.sec.debugState ≠ .closed →
    ∃ t, exec .debugLock s = .next t ∧ t.sec.debugState = .locked ∧ t.sec.debugPending = none) ∧
  (∀ (s : State) (serial : Word64) (nonce sig osig : Bytes) (level : Nat), s.sec.debugState = .closed →
    exec (.debugToken serial nonce level sig osig) s = .next s ∧ exec .debugChallenge s = .next s ∧ exec .debugLock s = .next s)

/-- COLLECTION_CREATE and COLLECTION_DROP (R131, R133, R135, R136, R203): with no ACTIVE journal a creation gives the handle of the command, or the
lowest free one, with the parameter block as given, writes its 64-byte report and completes. A drop takes the handle away, unloads the stage sets,
discards the queued shadow scans and completes. With an ACTIVE journal a drop's completion waits for its record (R309). Completes: collectionCreate,
collectionDrop. Conventions of the model in it: log 16. -/
def Obligations.CollectionsAreCreatedAndDropped : Prop :=
  (∀ (s : State) (cid : Nat) (c : Cmd) (p : PartNo), ioAt s cid 0x20 c → s.haltedOn cid = false → c.part = some p → alone c →
    s.createErr p c = none → (s.part p).journal.state = .off → (∀ k ∈ (s.part p).colls, k.uid ≠ cid) →
    ∃ (t : State) (k : Coll), exec (.collectionCreate cid) s = .next t ∧ k ∈ (t.part p).colls ∧ k.uid = cid ∧ k.param = c.data.param ∧
      k.dropping = false ∧ (c.handle ≠ 0 → k.handle = c.handle) ∧ (c.handle = 0 → (s.part p).freeHandle = some k.handle) ∧
      ended t cid { count := k.handle } ∧ t.out = s.out ++ scatterOut c.fn (scatter c.data.outList) 0 k.reportBytes) ∧
  (∀ (s : State) (cid : Nat) (c : Cmd) (p : PartNo) (k : Coll), collAt s cid 0x21 c p k → alone c →
    bodyErr c [] false false false = none → (s.part p).journal.state = .off → (∀ q, k.pass = some q → q.cid ≠ some cid) →
    ∃ t, exec (.collectionDrop cid) s = .next t ∧ ended t cid {} ∧
      (∀ d ∈ (t.part p).colls, d.uid = k.uid → d.dropping = true ∧ d.stages = []) ∧
      ((∀ d ∈ (s.part p).colls, d.handle = k.handle → d.dropping = false → d.uid = k.uid) → t.coll? p k.handle = none) ∧
      ∀ q ∈ (t.part p).shadows, q.handle ≠ k.handle) ∧
  (∀ (s : State) (cid : Nat) (c : Cmd) (p : PartNo) (k : Coll), collAt s cid 0x21 c p k → alone c → k.isTable = false →
    c.unjournaled = false → bodyErr c [] false false false = none → (s.part p).journal.state = .active →
    s.ringErr p cid false 0 = none → s.commitWaits = false → (∀ q, k.pass = some q → q.cid ≠ some cid) →
    ∃ (t : State), exec (.collectionDrop cid) s = .next t ∧ inPhase t cid .flushing ∧
      (∃ w ∈ (t.part p).journal.waiting, w.1 = cid) ∧ ∀ d ∈ (t.part p).colls, d.uid = k.uid → d.dropping = true)

/-- COLLECTION_IMPORT, COLLECTION_EXPORT and COLLECTION_CONSOLIDATE (R304, R321 to R326): an image that does not open, or breaks a rule, ends the
size-only export writes nothing and returns the bound in units of 4,096 bytes; any other seals the image under a new key and writes it, and a DURABLE
one then waits for a flushing read. A consolidation waits for a pass in progress, then begins a pass at a read stamp and runs its first 4,096 slots;
it ends with the pass. Completes: collectionImport, collectionExport, collectionConsolidate. Conventions of the model in it: log 17, 30. -/
def Obligations.CollectionsAreImportedExportedAndConsolidated : Prop :=
  (∀ (s : State) (cid : Nat) (c : Cmd) (p : PartNo), ioAt s cid 0x22 c → s.haltedOn cid = false → c.part = some p → alone c →
    s.importErr p c = none → (s.part p).journal.state = .off → (∀ d ∈ (s.part p).colls, d.uid ≠ cid) →
    ∃ t, exec (.collectionImport cid) s = .next t ∧
      (∀ st, s.openImage c.input = .inl st → inPhase t cid .done ∧ ∃ d, t.cmd? cid = some d ∧ d.status = st ∧ d.count = 0) ∧
      (∀ o i param h, s.openImage c.input = .inr o → i = Inner.parse o.inner → param = i.withCapacity (c.p 0 8) →
        h = (if c.handle = 0 then ((s.part p).freeHandle).getD 0 else c.handle) →
        (∀ e, firstErr [s.paramErr p param i.matrix i.members, failIf (c.p 0 8 != 0 && c.p 0 8 < i.records) (errAt stInvalidField 64)] = some e →
          inPhase t cid .done ∧ ∃ d, t.cmd? cid = some d ∧ d.status = e.st) ∧
        (∀ base k, firstErr [s.paramErr p param i.matrix i.members, failIf (c.p 0 8 != 0 && c.p 0 8 < i.records) (errAt stInvalidField 64)] = none →
          (s.part p).place (Coll.laid 0 0 param i.members 0).size = some base →
          k = { Coll.laid h cid param i.members base with imported := true, imageId := i.id, snapJournal := i.jid
                                                          replayStart := i.seq, debugReq := o.debugReq, minFw := BitVec.ofNat 32 o.minFw } →
          i.ok o.inner k = true → (k.isTable = true → k.isMesh = true → 4194304 ≤ s.scratchFree p) → (s.fillImage p k i).2 = true →
          ended t cid { count := h } ∧ ∃ d ∈ (t.part p).colls, d.uid = cid ∧ d.handle = h ∧ d.param = param ∧ d.imported = true ∧
            d.imageId = i.id ∧ d.replayStart = i.seq))) ∧
  (∀ (s : State) (cid : Nat) (c : Cmd) (p : PartNo) (k : Coll), collAt s cid 0x23 c p k → exportErr k c = none → c.sizeOnly = true →
    ∃ t, exec (.collectionExport cid) s = .next t ∧ ended t cid { count := c.imageBound k / 4096, stamp := c.readStamp } ∧
      t.out = s.out ∧ t.parts = s.parts) ∧
  (∀ (s : State) (cid : Nat) (c : Cmd) (p : PartNo) (k : Coll), collAt s cid 0x23 c p k → exportErr k c = none → c.sizeOnly = false → clean s →
    ∃ (t : State) (img cc : Bytes), exec (.collectionExport cid) s = .next t ∧ t.sec.keyCount = s.sec.keyCount + 1 ∧
      cc = Config.freeBytes (s.fresh + 1) 16 ∧
      img = envelope (s.sec.keyCount + 1) cc (s.makeBlob p c.devs 1 (s.sec.keyCount + 1) cc)
        ((s.part p).innerImage k (Config.freeNat s.fresh % 2 ^ 64) c.readStamp ((s.part p).journal.snapSeq c.readStamp)
          (if (s.part p).journal.state = .off then 0 else (s.part p).journal.id)) ∧
      (c.durable = false → t.out = s.out ++ scatterOut c.fn (scatter c.data.outList) 0 img ∧
        ended t cid { count := img.length / 4096, stamp := c.readStamp }) ∧
      (c.durable = true → inPhase t cid .flushing ∧ (t.part p).journal.reads = (s.part p).journal.reads ++ [2 ^ 64 + cid] ∧
        t.out = s.out ++ scatterOut c.fn (scatter c.data.outList) 0 img ++
          [.hostRead c.fn (((scatter c.data.outList).head?.map (·.1)).getD 0) 64])) ∧
  (∀ (s : State) (cid : Nat) (c : Cmd) (p : PartNo) (k : Coll), collAt s cid 0x24 c p k → c.shadow = false → consolidateErr k c = none → clean s →
    ∃ t, exec (.collectionConsolidate cid) s = .next t ∧ (k.dropping = true → ended t cid {}) ∧
      (∀ q, k.dropping = false → s.passOf k = some q → q.cid ≠ some cid → t = s) ∧
      (k.dropping = false → s.passOf k = none → s.readStamp ≤ t.time.largestStamp ∧
        (k.capacity ≤ 4096 → ∃ n m, ended t cid { count := n, work := m }) ∧
        (4096 < k.capacity → ∃ d ∈ (t.part p).colls, d.uid = k.uid ∧ ∃ q, d.pass = some q ∧ q.stamp = s.readStamp ∧ q.cid = some cid ∧
          q.next = 4096)))

/-- SEARCH, SEARCH_COMPOUND and SCAN on a collection of one device run to their completion where no stack is stopped (R172 to R198, R251): where no
burst and no scratchpad line is poisoned it carries success or notes only, and the read stamp the command was admitted with. Completes: search,
searchCompound, scan. The finer steps of a query (R178, R184, R189, R259, R261, R200): an expansion step expands at most WIDTH entries or ends the
walk; a batch compares at most 16 slots, or drops the rest at a cut point; the join delivers the result; at D the members not yet returned count as
empty lists and PARTIAL is noted. Completes: expansionStep, rerankBatch, join, memberNotReturnedByD. Conventions of the model in it: log 9, 28. -/
def Obligations.QueriesCompleteByTheirSteps : Prop :=
  (∀ (s : State) (cid op : Nat) (c : Cmd) (p : PartNo) (k : Coll) (i : Instr), collAt s cid op c p k → alone c → c.run = .idle →
    c.overMesh k = false → c.queryErr k = none → served s →
    (op = 0x30 ∧ i = .search cid) ∨ (op = 0x31 ∧ i = .searchCompound cid) ∨ (op = 0x32 ∧ i = .scan cid) →
    ∃ (t : State) (d : Cmd), exec i s = .next t ∧ t.cmd? cid = some d ∧ d.phase = .done ∧
      (clean s → (s.part p).scratchPoison = [] → statusClass d.status ≤ 1 ∧ d.stamp = c.readStamp)) ∧
  (∀ (s : State) (cid op : Nat) (c : Cmd) (p : PartNo) (k : Coll) (w : Walk), collAt s cid op c p k → c.run = .walk w →
    op = 0x30 ∨ op = 0x31 ∨ op = 0x32 → w.ended = false → 0 < w.width → clean s →
    ∃ (t : State) (d : Cmd) (w' : Walk), exec (.expansionStep cid) s = .next t ∧ t.cmd? cid = some d ∧ d.run = .walk w' ∧
      w'.expansions ≤ w.expansions + w.width ∧ (w'.ended = true ∨ w.expansions < w'.expansions) ∧
      (w.budget ≤ w.expansions → w'.ended = true)) ∧
  (∀ (s : State) (cid op : Nat) (c : Cmd) (p : PartNo) (k : Coll) (w : Walk), collAt s cid op c p k → c.run = .walk w →
    op = 0x30 ∨ op = 0x31 ∨ op = 0x32 → w.ended = true → w.toRank ≠ [] → clean s →
    ∃ (t : State) (d : Cmd) (w' : Walk), exec (.rerankBatch cid) s = .next t ∧ t.cmd? cid = some d ∧ d.run = .walk w' ∧
      (if s.stopBatches c w then w'.toRank = [] ∧ w'.cut = true else w'.toRank = w.toRank.drop 16 ∧ w'.batches = w.batches + 1)) ∧
  (∀ (s : State) (cid op : Nat) (c : Cmd) (p : PartNo) (k : Coll) (w : Walk), collAt s cid op c p k → alone c → c.run = .walk w →
    op = 0x30 ∨ op = 0x31 ∨ op = 0x32 → w.ended = true → w.toRank = [] → w.joined = false → clean s → (s.part p).scratchPoison = [] →
    ∃ (t : State) (d : Cmd), exec (.join cid) s = .next t ∧ t.cmd? cid = some d ∧ d.phase = .done ∧ d.stamp = c.readStamp ∧
      statusClass d.status ≤ 1 ∧ (w.cut = true → d.status.testBit 1 = true)) ∧
  (∀ (s : State) (cid op : Nat) (c : Cmd) (p : PartNo) (k : Coll) (w : Walk) (m : MeshWait), collAt s cid op c p k →
    op = 0x30 ∨ op = 0x31 ∨ op = 0x32 → c.run = .walk w → c.mesh = some m → w.ended = false → m.asking = false → m.waiting ≠ [] →
    s.past c.deadline = true →
    ∃ (t : State) (d : Cmd) (m' : MeshWait), exec (.memberNotReturnedByD cid) s = .next t ∧ t.cmd? cid = some d ∧ d.mesh = some m' ∧
      m'.waiting = [] ∧ m'.early = [] ∧ m'.lists = m.lists ∧ m'.notes = m.notes ||| notePartial)

/-- A query of one device stores nothing (R251, R276): SEARCH, SEARCH_COMPOUND, SCAN and FETCH leave every byte of every partition's memory and
scratchpad, every queue pair and the mode as they were. -/
def Obligations.QueriesStoreNothing : Prop :=
  ∀ (s t : State) (cid op : Nat) (c : Cmd) (p : PartNo) (k : Coll) (i : Instr), collAt s cid op c p k → alone c → c.run = .idle →
    c.overMesh k = false →
    (op = 0x30 ∧ i = .search cid) ∨ (op = 0x31 ∧ i = .searchCompound cid) ∨ (op = 0x32 ∧ i = .scan cid) ∨ (op = 0x33 ∧ i = .fetch cid) →
    exec i s = .next t →
    ∀ q, (t.part q).mem = (s.part q).mem ∧ (t.part q).scratchMem = (s.part q).scratchMem ∧ (t.part q).modeWord = (s.part q).modeWord ∧
      t.pairs = s.pairs ∧ t.devMode = s.devMode

/-- FETCH on a collection of one device where no burst is poisoned and no stack stopped (R272 to R276): it completes at its read stamp; the output
holds one entry for each id asked, in order: before D less 5 µs that of the version visible at the read stamp; COUNT is the number of the entries
found. Completes: fetch. SHADOW_SCAN (R202, R203, R388): a queued sample gets a command of class 0 in the admission queue, at the sampled read stamp;
once that holds contexts the scan runs, the sample leaves the queue and counts in the report. Completes: shadowScan. Conventions of the model in it:
log 7, 28. -/
def Obligations.FetchesAndShadowScansRun : Prop :=
  (∀ (s : State) (cid : Nat) (c : Cmd) (p : PartNo) (k : Coll), collAt s cid 0x33 c p k → alone c → c.overMesh k = false →
    fetchCheck k c = none → clean s →
    ∃ (t : State) (d : Cmd) (es : List Bytes), exec (.fetch cid) s = .next t ∧ t.cmd? cid = some d ∧ d.phase = .done ∧
      d.stamp = c.readStamp ∧ statusClass d.status ≤ 1 ∧ es.length = c.p 0 4 ∧ d.count = (es.filter fun e => rd e 8 1 == 0).length ∧
      t.out = s.out ++ scatterOut c.fn (scatter c.data.outList) 0 es.flatten ∧
      (s.fetchLate c = false → ∀ i, i < c.p 0 4 →
        es[i]? = some ((s.part p).fetchEntry k (c.p 4 1) c.readStamp (rd c.input (8 * i) 8)).1)) ∧
  (∀ (s : State) (p : PartNo) (h : Nat) (k : Coll) (q : Shadow), sound s → s.slm.stalled = false → s.coll? p h = some k →
    ((s.part p).shadows.filter fun x => x.handle == h) = [q] → s.shadowOf p k q = none → s.tasksRun p = true →
    ∃ (t : State) (c : Cmd), exec (.shadowScan p h) s = .next t ∧ t.cmds = s.cmds ++ [c] ∧ c.id = s.nextCid ∧ c.phase = .queued ∧
      c.shadow = true ∧ c.part = some p ∧ c.coll = some k.uid ∧ c.cls = 0 ∧ c.op = 0x32 ∧ c.readStamp = q.stamp ∧ t.parts = s.parts) ∧
  (∀ (s : State) (p : PartNo) (h : Nat) (k : Coll) (q : Shadow) (c : Cmd), sound s → s.coll? p h = some k →
    (s.part p).collU? k.uid = some k → k.isMesh = false → ((s.part p).shadows.filter fun x => x.handle == h) = [q] →
    s.shadowOf p k q = some c → c.ioRunning 0x32 = true → c.run = .idle → alone c → s.haltedOn c.id = false → s.tasksRun p = true → clean s →
    ∃ (t : State) (d : Coll), exec (.shadowScan p h) s = .next t ∧ t.cmd? c.id = none ∧ (t.part p).shadows = (s.part p).shadows.erase q ∧
      (t.part p).collU? k.uid = some d ∧ d.report.samples = (k.report.samples + 1) % 2 ^ 64)

/-- INSERT, DELETE, UPSERT and SET_ATTRIBUTES on a collection of one device where no burst is poisoned (R277 to R287, R314): one whose reservation
fails ends with that status. Else its versions are written, and with `commit` it completes at a commit stamp larger than every stamp issued before,
unless that stamp would run more than 20 ns ahead of the stamp clock: then it waits in its commit phase (R160). COUNT is at most the number of
records. Completes: insert, delete, upsert, setAttributes. COMMIT_PHASE (R284, R285, R160): a mutation whose versions are written commits at the next
stamp, and waits while that stamp would run more than 20 ns ahead of the stamp clock. MEMBER_COMMIT_REPORT (R281, R288) adds a member's count, work
and stamp to the totals; the last one completes the command. Completes: commitPhase, memberCommitReport. Conventions of the model in it: log 9. -/
def Obligations.MutationsWriteAndCommitInOrder : Prop :=
  (∀ (s : State) (cid op : Nat) (c : Cmd) (p : PartNo) (k : Coll) (f : Bool → Instr), collAt s cid op c p k → alone c → c.run = .idle →
    k.isMesh = false → s.mutErr p k c = none → (s.part p).journal.state = .off → clean s →
    (op = 0x40 ∧ f = .insert cid) ∨ (op = 0x41 ∧ f = .delete cid) ∨ (op = 0x42 ∧ f = .upsert cid) ∨ (op = 0x43 ∧ f = .setAttributes cid) →
    (∀ b e, (s.reserveMut p k c).2 = .inl e →
      ∃ (t : State) (d : Cmd), exec (f b) s = .next t ∧ t.cmd? cid = some d ∧ d.phase = .done ∧ d.status = e.st) ∧
    (∀ r, (s.reserveMut p k c).2 = .inr r →
      (∃ (t : State) (d : Cmd) (m : MutSt), exec (f false) s = .next t ∧ t.cmd? cid = some d ∧ d.phase = .running ∧ d.run = .mutation m ∧
        m.written = true ∧ m.recs.length = c.mCount) ∧
      (s.commitWaits = false → ∃ (t : State) (d : Cmd) (n st w : Nat), exec (f true) s = .next t ∧
        ended t cid { count := n, stamp := st, work := w } ∧ n ≤ c.mCount ∧ s.time.largestStamp < st ∧ st ≤ t.time.largestStamp ∧
        t.cmd? cid = some d ∧ d.commitStamp = st) ∧
      (s.commitWaits = true → ∃ (t : State) (d : Cmd) (m : MutSt), exec (f true) s = .next t ∧ t.cmd? cid = some d ∧ d.phase = .committing ∧
        d.run = .mutation m ∧ m.written = true))) ∧
  (∀ (s : State) (cid : Nat) (c : Cmd) (p : PartNo) (k : Coll) (m : MutSt), sound s → s.cmd? cid = some c → c.op ∈ recordLockOps →
    c.phase = .running ∨ c.phase = .committing → alone c → c.part = some p → c.coll.bind (s.part p).collU? = some k → k.isMesh = false →
    c.run = .mutation m → m.written = true → (s.part p).journal.state = .off → clean s →
    ∃ (t : State) (d : Cmd), exec (.commitPhase cid) s = .next t ∧ t.cmd? cid = some d ∧
      (s.commitWaits = true → d.phase = .committing ∧ t.time = s.time ∧ t.parts = s.parts) ∧
      (s.commitWaits = false → d.phase = .done ∧ d.status = 0 ∧ d.stamp = s.commitStamp ∧ d.commitStamp = s.commitStamp ∧
        s.commitStamp ≤ t.time.largestStamp ∧ ∀ l ∈ t.locks, l.cid ≠ cid)) ∧
  (∀ (s : State) (cid member stamp work : Nat) (outcomes : List Nat) (c : Cmd) (p : PartNo) (k : Coll) (m : MeshWait), sound s →
    s.cmd? cid = some c → c.op ∈ recordLockOps → c.origin = none → c.part = some p → c.mesh = some m →
    c.coll.bind (s.part p).collU? = some k → m.applying = true → member ∈ m.waiting → (∀ o ∈ m.outcomes, o.1 ≠ member) →
    ∃ (t : State) (d : Cmd) (w : MeshWait), exec (.memberCommitReport cid member stamp outcomes work) s = .next t ∧ t.cmd? cid = some d ∧
      d.mesh = some w ∧ w.waiting = m.waiting.filter (· != member) ∧ w.stamp = max m.stamp stamp ∧ w.work = m.work + work ∧
      w.applied = m.applied ++ [member] ∧ d.commitStamp = max c.commitStamp stamp ∧
      w.count = m.count + ((outcomes.take (c.share k member).mCount).filter (· == 0)).length ∧
      (c.phase = .flushing → w.waiting = [] → m.failed = [] → d.phase = .done ∧ d.stamp = max c.stamp w.stamp ∧ d.count = c.count + w.count))

/-- EMB_LOOKUP (R331 to R336) on a table of one device where no burst and no scratchpad line is poisoned: each bag's valid rows are pooled and go to
the host, COUNT is the number of bags, WORK that of the indices skipped, and no byte of memory changes. Completes: embLookup. Conventions of the model
in it: log 15, 49. -/
def Obligations.LookupsPoolAndChangeNothing : Prop :=
  ∀ (s : State) (cid : Nat) (c : Cmd) (p : PartNo) (k : Coll), collAt s cid 0x50 c p k → alone c → k.isMesh = false →
    s.lookupErr p k c = none → (s.part p).scratchPoison = [] → clean s →
    ∃ (t : State) (input : Bytes) (bags : List (List Nat)), exec (.embLookup cid) s = .next t ∧ input = s.embInput p k c ∧
      bags = (List.range c.bags).map (c.validIn k input) ∧
      ended t cid { count := c.bags, stamp := c.readStamp, work := c.indices - (bags.map List.length).foldl (· + ·) 0 } ∧
      t.out = s.out ++ scatterOut c.fn (scatter c.data.outList) 0 (c.lookupOut k (bags.map fun js =>
        (poolBag c.pool k.dim (js.map fun j => (Flt.ofBits32 (c.weightAt k input j), (s.part p).rowVec k (c.indexAt k input j))),
         js.length))) ∧
      ∀ q, (t.part q).mem = (s.part q).mem ∧ (t.part q).scratchMem = (s.part q).scratchMem

/-- EMB_UPDATE and COMMIT_STEP (R337 to R349, R160) on a table of one device where no burst is poisoned: before the first commit step no byte changes;
a commit step takes the lowest rows at one new stamp, and the step that takes the last completes the command at that stamp; a step whose stamp would
run more than 20 ns ahead of the stamp clock waits. Completes: embUpdate, commitStep. Conventions of the model in it: log 9, 18. -/
def Obligations.UpdatesCommitInSteps : Prop :=
  (∀ (s : State) (cid : Nat) (c : Cmd) (p : PartNo) (k : Coll), collAt s cid 0x51 c p k → alone c → c.run = .idle → k.isMesh = false →
    s.updateErr p k c = none → s.inputPoison p k c = none → clean s →
    (∃ (t : State) (d : Cmd) (u : UpdSt), exec (.embUpdate cid false) s = .next t ∧ t.cmd? cid = some d ∧ d.phase = .running ∧
      d.run = .update u ∧ u.applied = 0 ∧ t.time = s.time ∧
      ∀ q, (t.part q).mem = (s.part q).mem ∧ (t.part q).scratchMem = (s.part q).scratchMem) ∧
    (∃ (t : State) (d : Cmd), exec (.embUpdate cid true) s = .next t ∧ t.cmd? cid = some d ∧
      (d.phase = .done ∨ (d.phase = .committing ∧ t.commitWaits = true)) ∧
      (s.commitWaits = false → ((List.range c.bags).flatMap (c.validIn k (s.embInput p k c))).length ≤ s.stepRows p k →
        d.phase = .done ∧ statusClass d.status ≤ 1 ∧ d.stamp = s.commitStamp ∧ d.commitStamp = s.commitStamp))) ∧
  (∀ (s : State) (cid : Nat) (c : Cmd) (p : PartNo) (k : Coll) (u : UpdSt), sound s → s.cmd? cid = some c → c.isAdmin = false → c.op = 0x51 →
    c.phase = .committing ∨ (c.phase = .running ∧ s.haltedOn cid = false) → c.part = some p → c.coll.bind (s.part p).collU? = some k →
    c.orphan = false → k.isMesh = false → c.run = .update u → clean s →
    ∃ (t : State) (d : Cmd), exec (.commitStep cid) s = .next t ∧ t.cmd? cid = some d ∧
      (s.commitWaits = true → d.phase = .committing ∧ d.run = c.run ∧ t.parts = s.parts) ∧
      (s.commitWaits = false → s.commitStamp ≤ t.time.largestStamp ∧
        (u.rows.length ≤ s.stepRows p k → d.phase = .done ∧ d.stamp = s.commitStamp ∧ d.commitStamp = s.commitStamp) ∧
        (s.stepRows p k < u.rows.length → d.phase = .running ∧ ∃ u', d.run = .update u' ∧ u'.rows = u.rows.drop (s.stepRows p k) ∧
          u'.stamp = s.commitStamp)))

/-- HOTSET_LOAD (R352, R354, R355) where no burst is poisoned: removal takes the named rows or slots out of the hot set or the entry set and counts
them; a replacement or an addition appends the valid ones that are not there, of a table as many as fit, and counts them; one that HOTSET_MIB or
ENTRY_SET cannot hold ends with CAPACITY and changes nothing. SHARD_MIGRATE (R365) of blocks that are at this device already completes at once; with
another target it asks that member for room first. DENSE_LOAD (R246) installs the stage set in place of one of the same identifier, or removes it.
Completes: hotsetLoad, shardMigrate, denseLoad. Conventions of the model in it: log 30. -/
def Obligations.HotSetsShardsAndStagesLoad : Prop :=
  (∀ (s : State) (cid : Nat) (c : Cmd) (p : PartNo) (k : Coll), collAt s cid 0x53 c p k → hotErr k c = none → clean s →
    ∃ (t : State), exec (.hotsetLoad cid) s = .next t ∧
      (∀ l, k.isTable = true → c.p 1 1 = 2 → l = k.hotRows.filter (fun r => !c.hotEntries.contains r) →
        ended t cid { count := k.hotRows.length - l.length } ∧ ∀ d ∈ (t.part p).colls, d.uid = k.uid → d.hotRows = l) ∧
      (∀ l, k.isTable = false → c.p 1 1 = 2 → l = k.entrySet.filter (fun r => !c.hotEntries.contains r) →
        ended t cid { count := k.entrySet.length - l.length } ∧ ∀ d ∈ (t.part p).colls, d.uid = k.uid → d.entrySet = l) ∧
      (∀ base new others, k.isTable = true → c.p 1 1 ≠ 2 → base = (if c.p 1 1 = 0 then [] else k.hotRows) →
        new = (c.hotEntries.eraseDups.filter k.ownsRow).filter (fun r => !base.contains r) →
        others = ((s.part p).colls.map fun d => if d.uid == k.uid then 0 else d.hotRows.length * d.hotBytes).foldl (· + ·) 0 →
        ((s.part p).feat 0x51 * 2 ^ 20 < others + (base.length + new.length) * k.hotBytes →
          ended t cid { status := stCapacity } ∧ t.parts = s.parts) ∧
        (others + (base.length + new.length) * k.hotBytes ≤ (s.part p).feat 0x51 * 2 ^ 20 →
          ∃ n, ended t cid { count := n } ∧ n ≤ new.length ∧ ∀ d ∈ (t.part p).colls, d.uid = k.uid → d.hotRows = base ++ new.take n)) ∧
      (∀ base new, k.isTable = false → c.p 1 1 ≠ 2 → base = (if c.p 1 1 = 0 then [] else k.entrySet) →
        new = (c.hotEntries.eraseDups.filter fun e => ((s.part p).meta k e).current).filter (fun r => !base.contains r) →
        ((s.part p).feat 0x22 < base.length + new.length → ended t cid { status := stCapacity } ∧ t.parts = s.parts) ∧
        (base.length + new.length ≤ (s.part p).feat 0x22 →
          ended t cid { count := new.length } ∧ ∀ d ∈ (t.part p).colls, d.uid = k.uid → d.entrySet = base ++ new))) ∧
  (∀ (s : State) (cid : Nat) (c : Cmd) (p : PartNo) (k : Coll), collAt s cid 0x54 c p k → alone c → shardErr k c = none →
    c.target = k.memberIndex → c.toMove k = [] → c.dirRoom k = true →
    ∃ t, exec (.shardMigrate cid) s = .next t ∧ ended t cid {} ∧ t.parts = s.parts) ∧
  (∀ (s : State) (cid : Nat) (c : Cmd) (p : PartNo) (k : Coll), collAt s cid 0x54 c p k → alone c → shardErr k c = none →
    (∀ m ∈ c.target :: (c.toMove k).map k.owner, m ≠ k.memberIndex → s.unreachable (k.deviceOf m) = false) →
    c.target ≠ k.memberIndex →
    ∃ (t : State) (d : Cmd) (m : MeshWait), exec (.shardMigrate cid) s = .next t ∧ t.cmd? cid = some d ∧ d.phase = .running ∧
      d.mesh = some m ∧ m.tag = s.mesh.nextTag ∧ c.target ∈ m.members) ∧
  (∀ (s : State) (cid : Nat) (c : Cmd) (p : PartNo) (k : Coll), collAt s cid 0x60 c p k → s.denseErr p k c = none →
    s.denseWaits c = false →
    ∃ t, exec (.denseLoad cid) s = .next t ∧ ended t cid {} ∧ ∀ d ∈ (t.part p).colls, d.uid = k.uid →
      d.stages = (k.stages.filter fun g => g.id != c.p 0 4) ++
        if c.p 6 1 = 0 then [{ id := c.p 0 4, tag := cid, param := c.data.param, input := c.input }] else [])

/-- REGION_WRITE and REGION_READ (R433 to R436): the bytes of the input stand in partition memory, or in the host region of scratchpad, and every
other byte reads as before; a read writes the bytes of the range to the host and changes no byte. Both where no burst and no scratchpad line is
poisoned. Completes: regionWrite, regionRead. -/
def Obligations.RegionsAreWrittenAndRead : Prop :=
  (∀ (s : State) (cid : Nat) (c : Cmd) (p : PartNo), ioAt s cid 0x70 c → s.haltedOn cid = false → c.part = some p →
    s.regionErr true p c = none → clean s → (s.part p).scratchPoison = [] →
    ∃ t, exec (.regionWrite cid) s = .next t ∧ ended t cid { count := c.regionLen } ∧
      (c.space = 0 → (∀ i b, (c.input.take c.regionLen)[i]? = some b → (t.part p).byte (c.regionOff + i) = b) ∧
        (∀ a, a < c.regionOff ∨ c.regionOff + c.regionLen ≤ a → (t.part p).byte a = (s.part p).byte a) ∧
        (t.part p).scratchMem = (s.part p).scratchMem) ∧
      (c.space ≠ 0 → (∀ i b, (c.input.take c.regionLen)[i]? = some b → (t.part p).sByte (c.regionOff + i) = b) ∧
        (∀ a, a < c.regionOff ∨ c.regionOff + c.regionLen ≤ a → (t.part p).sByte a = (s.part p).sByte a) ∧
        (t.part p).mem = (s.part p).mem) ∧
      ∀ q, q ≠ p → t.part q = s.part q) ∧
  (∀ (s : State) (cid : Nat) (c : Cmd) (p : PartNo), ioAt s cid 0x71 c → s.haltedOn cid = false → c.part = some p →
    s.regionErr false p c = none → clean s → (s.part p).scratchPoison = [] →
    ∃ t, exec (.regionRead cid) s = .next t ∧ ended t cid { count := c.regionLen } ∧
      t.out = s.out ++ scatterOut c.fn (scatter c.data.outList) 0
        (if c.space = 0 then (s.part p).bytes c.regionOff c.regionLen else (s.part p).sBytes c.regionOff c.regionLen) ∧
      (t.part p).mem = (s.part p).mem ∧ (t.part p).scratchMem = (s.part p).scratchMem)

/-- QM_ENABLE and QM_DISABLE (R81, R83): an eligible enable arms the admin pair from its registers with every index 0; a size of 0 is refused and
logged; a disable deletes every pair of the function. HELD_TOO_LONG ends a command held for more than 3 s (R75). Completes: qmEnable, qmDisable,
heldTooLong. The doorbells (R84, R85, R74): a value within the queue moves the tail, or releases completions up to what the device has written; any
other value, and any write to a pair that is not VALID, is ignored and logged as HOST event 1 with the value, and the pairs stay as they are.
Completes: sqTailDoorbell, cqHeadDoorbell. -/
def Obligations.QueuesAreEnabledAndRung : Prop :=
  (∀ (s : State) (fn : Fn), sound s → s.barOpen fn = true → (s.fnAt fn).qmEnable = false → (s.fnAt fn).qmReady = false → s.maxPairs fn ≠ 0 →
    bits (s.fnAt fn).aqSize.toNat 0 12 ≠ 0 → bits (s.fnAt fn).aqSize.toNat 16 12 ≠ 0 →
    ∃ (t : State) (q : Pair), exec (.qmEnable fn) s = .next t ∧ (t.fnAt fn).qmEnable = true ∧ (t.fnAt fn).qmReady = true ∧
      t.pairs = s.pairs ++ [q] ∧ q.fn = fn ∧ q.qid = 0 ∧ q.head = 0 ∧ q.tail = 0 ∧ q.cqHead = 0 ∧ q.cqTail = 0 ∧ q.phase = true ∧
      q.sqBase = (s.fnAt fn).asqLo.toNat + 2 ^ 32 * (s.fnAt fn).asqHi.toNat ∧ q.cqBase = (s.fnAt fn).acqLo.toNat + 2 ^ 32 * (s.fnAt fn).acqHi.toNat ∧
      q.sqSize = bits (s.fnAt fn).aqSize.toNat 0 12 + 1 ∧ q.cqSize = bits (s.fnAt fn).aqSize.toNat 16 12 + 1) ∧
  (∀ (s : State) (fn : Fn), s.barOpen fn = true → (s.fnAt fn).qmEnable = false →
    bits (s.fnAt fn).aqSize.toNat 0 12 = 0 ∨ bits (s.fnAt fn).aqSize.toNat 16 12 = 0 →
    ∃ t, exec (.qmEnable fn) s = .next t ∧ t.pairs = s.pairs ∧ (t.fnAt fn).qmEnable = false ∧
      logs s t fun e => e.kind = kHost ∧ rd e.detail 0 1 = 2) ∧
  (∀ (s : State) (fn : Fn), sound s → s.barOpen fn = true → (s.fnAt fn).qmEnable = true →
    ∃ t, exec (.qmDisable fn) s = .next t ∧ (t.fnAt fn).qmEnable = false ∧ (∀ q ∈ t.pairs, q.fn = fn → q.deleting = true) ∧
      ((∀ q ∈ t.pairs, q.fn ≠ fn) → (t.fnAt fn).qmReady = false)) ∧
  (∀ (s : State) (cid : Nat) (c : Cmd), s.cmd? cid = some c → c.phase = .held → s.hif.dpReady = false → c.heldSince + 3000000000 < s.now →
    ∃ t, exec (.heldTooLong cid) s = .next t ∧ ended t cid { status := stHeldTooLong }) ∧
  (∀ (s : State) (fn : Fn) (qid : Nat) (v : Word32) (q : Pair), s.barOpen fn = true → s.pair? fn qid = some q →
    (q.deleting = false → v.toNat % 65536 < q.sqSize →
      ∃ (t : State) (r : Pair), exec (.sqTailDoorbell fn qid v) s = .next t ∧ t.pair? fn qid = some r ∧
        r = { q with tail := v.toNat % 65536, fetchFailed := false } ∧ t.cmds = s.cmds ∧ t.ras = s.ras) ∧
    (q.deleting = false → v.toNat % 65536 < q.cqSize →
      (v.toNat % 65536 + q.cqSize - q.cqHead) % q.cqSize ≤ (q.cqTail + q.cqSize - q.cqHead) % q.cqSize →
      ∃ (t : State) (r : Pair), exec (.cqHeadDoorbell fn qid v) s = .next t ∧ t.pair? fn qid = some r ∧
        r = { q with cqHead := v.toNat % 65536 } ∧ t.cmds = s.cmds ∧ t.ras = s.ras) ∧
    (q.deleting = true ∨ q.sqSize ≤ v.toNat % 65536 →
      ∃ t, exec (.sqTailDoorbell fn qid v) s = .next t ∧ t.pairs = s.pairs ∧ t.cmds = s.cmds ∧
        logs s t fun e => e.kind = kHost ∧ e.unit = qid ∧ e.fn = some fn ∧ rd e.detail 0 1 = 1 ∧ rd e.detail 4 4 = v.toNat) ∧
    (q.deleting = true ∨ q.cqSize ≤ v.toNat % 65536 ∨
        (q.cqTail + q.cqSize - q.cqHead) % q.cqSize < (v.toNat % 65536 + q.cqSize - q.cqHead) % q.cqSize →
      ∃ t, exec (.cqHeadDoorbell fn qid v) s = .next t ∧ t.pairs = s.pairs ∧ t.cmds = s.cmds ∧
        logs s t fun e => e.kind = kHost ∧ e.unit = qid ∧ e.fn = some fn ∧ rd e.detail 0 1 = 1 ∧ rd e.detail 4 4 = v.toNat)) ∧
  (∀ (s : State) (fn : Fn) (qid : Nat) (v : Word32) (i : Instr), s.barOpen fn = true → s.pair? fn qid = none →
    i = .sqTailDoorbell fn qid v ∨ i = .cqHeadDoorbell fn qid v →
    ∃ t, exec i s = .next t ∧ t.pairs = s.pairs ∧ t.cmds = s.cmds ∧
      logs s t fun e => e.kind = kHost ∧ e.unit = qid ∧ e.fn = some fn ∧ rd e.detail 0 1 = 1 ∧ rd e.detail 4 4 = v.toNat)

/-- SQ_ENTRY_FETCH and SQ_ENTRY_FETCH_FAILED (R88 to R93, R97, R602): the entry of the SQ whose turn it is becomes a command of its pair and the head
passes it; a wrong opcode ends it at once; an entry whose read fails becomes no command, is logged as HOST event 6, and freezes an I/O SQ. Completes:
sqEntryFetch, sqEntryFetchFailed. -/
def Obligations.EntriesAreFetchedInTurn : Prop :=
  (∀ (s : State) (entry : Bytes) (data : HostData) (q : Pair), s.nextFetch = some q →
    ∃ (t : State) (d : Cmd), exec (.sqEntryFetch entry data) s = .next t ∧ t.cmds = s.cmds ++ [d] ∧ d.id = s.nextCid ∧ t.nextCid = s.nextCid + 1 ∧
      d.fn = q.fn ∧ d.qid = q.qid ∧ d.packet = fit 64 entry ∧ d.data = data ∧ d.fetchTime = s.now ∧
      (∀ e, opcodeErr d = some e → d.phase = .done ∧ d.status = e.st) ∧
      (q.qid = 0 → d.phase = .ready ∨ d.phase = .held ∨ d.phase = .done) ∧
      (q.qid ≠ 0 → d.phase = .waiting ∨ d.phase = .queued ∨ d.phase = .done) ∧
      (∀ r, s.pair? q.fn q.qid = some r → ∃ r', t.pair? q.fn q.qid = some r' ∧ r'.head = (r.head + 1) % r.sqSize ∧ r'.tail = r.tail)) ∧
  (∀ (s : State) (q : Pair), s.nextFetch = some q →
    ∃ t, exec .sqEntryFetchFailed s = .next t ∧ t.cmds = s.cmds ∧
      (logs s t fun e => e.kind = kHost ∧ e.status = stHostAccess ∧ e.unit = q.qid ∧ rd e.detail 0 1 = 6) ∧
      (∀ r, t.pair? q.fn q.qid = some r → if q.qid = 0 then r.fetchFailed = true else r.frozen = true)) ∧
  (∀ (s : State) (entry : Bytes) (data : HostData), s.nextFetch = none →
    exec (.sqEntryFetch entry data) s = .next s ∧ exec .sqEntryFetchFailed s = .next s)

/-- COMPLETION_POSTED, COMPLETION_WRITE_FAILED and AGG_TIME (R86, R87, R94, R95, R111, R112): the completion is written at the CQ tail with the
command's tag, status, count and stamp, and the command is gone; an error of a freezing class is logged and freezes its I/O SQ first. With Relaxed
Ordering a zero-length read where its last output went comes first; a page not present is asked for. A failed write is logged as HOST event 7, and the
tail passes its place. AGG_TIME signals the vector. Completes: completionPosted, completionWriteFailed, aggTime. Conventions of the model in it: log
43. -/
def Obligations.CompletionsAreWritten : Prop :=
  (∀ (s : State) (cid : Nat) (fault : Bool) (c : Cmd) (q : Pair), s.cmd? cid = some c → c.phase = .done → c.shadow = false → c.origin = none →
    s.pair? c.fn c.qid = some q → s.mayPost q c = true → s.readFirst c = none → (fault = false ∨ q.pasid = none) → c.pageWait ≠ some false →
    ∃ (t : State) (b : Bytes), exec (.completionPosted ⟨cid, fault⟩) s = .next t ∧ t.cmd? cid = none ∧
      Out.hostWrite q.fn (q.cqBase + 32 * q.cqTail) b ∈ t.out ∧ b.length = 32 ∧ rd b 0 2 = c.ctag % 65536 ∧ rd b 4 2 = c.status % 65536 ∧
      rd b 8 4 = c.count % 2 ^ 32 ∧ rd b 16 8 = c.stamp % 2 ^ 64 ∧
      (∃ r, t.pair? c.fn c.qid = some r ∧ (r.cqTail, r.phase) = (q.advanceCq.cqTail, q.advanceCq.phase) ∧
        (freezing (statusClass c.status) = true → c.qid ≠ 0 → r.frozen = true)) ∧
      (freezing (statusClass c.status) = true → logs s t fun e => e.kind = kCommand ∧ e.status = c.status ∧ e.unit = c.qid)) ∧
  (∀ (s : State) (cid : Nat) (fault : Bool) (c : Cmd) (q : Pair) (a : Nat), s.cmd? cid = some c → c.phase = .done → c.shadow = false →
    c.origin = none → s.pair? c.fn c.qid = some q → s.mayPost q c = true → s.readFirst c = some a →
    ∃ (t : State) (d : Cmd), exec (.completionPosted ⟨cid, fault⟩) s = .next t ∧ t.out = s.out ++ [.hostRead c.fn a 0] ∧ t.cmd? cid = some d ∧
      d.readBack = true ∧ d.phase = .done) ∧
  (∀ (s : State) (cid : Nat) (c : Cmd) (q : Pair) (n : Nat), s.cmd? cid = some c → c.phase = .done → c.shadow = false → c.origin = none →
    s.pair? c.fn c.qid = some q → s.mayPost q c = true → s.readFirst c = none → q.pasid = some n → c.pageWait = none → s.mayAsk q.fn = true →
    ∃ (t : State) (d : Cmd), exec (.completionPosted ⟨cid, true⟩) s = .next t ∧
      t.out = s.out ++ [.pageRequest q.fn n ((q.cqBase + 32 * q.cqTail) / 4096)] ∧ t.cmd? cid = some d ∧ d.pageWait = some true) ∧
  (∀ (s : State) (cid : Nat) (c : Cmd) (q : Pair), s.cmd? cid = some c → c.phase = .done → c.shadow = false → c.origin = none →
    s.pair? c.fn c.qid = some q → s.mayPost q c = true → c.pageWait = some true →
    ∃ t, exec (.completionWriteFailed cid) s = .next t ∧ t.cmd? cid = none ∧
      (∃ e ∈ t.ras.log, e.kind = kHost ∧ e.unit = q.qid ∧ rd e.detail 0 1 = 7) ∧
      ∃ r, t.pair? c.fn c.qid = some r ∧ (r.cqTail, r.phase) = (q.advanceCq.cqTail, q.advanceCq.phase)) ∧
  (∀ (s : State) (cid : Nat) (fault : Bool) (c : Cmd) (q : Pair), s.cmd? cid = some c → c.phase = .done → c.origin = none →
    s.pair? c.fn c.qid = some q → s.mayPost q c = false → exec (.completionPosted ⟨cid, fault⟩) s = .next s) ∧
  (∀ (s : State) (fn : Fn) (qid : Nat) (q : Pair), s.pair? fn qid = some q → 0 < q.unsignalled →
    q.unsignalledSince + 1000 * q.aggTime ≤ s.now →
    ∃ (t : State) (r : Pair), exec (.aggTime fn qid) s = .next t ∧ t.pair? fn qid = some r ∧ r.unsignalled = 0 ∧
      (q.vector ∈ (s.fnAt q.fn).msixOpen → (s.fnAt q.fn).msixFnMask = false → t.out = s.out ++ [.msix q.fn q.vector]))

/-- SCHEDULING_STEP (R387 to R389, R399): the head of an admission queue that has room takes its home context, with its admission time and, where it
reads at one, its read stamp; a partition without an active cluster ends its waiting commands with 0x7003. Completes: schedulingStep. Waits that end
(R108, R390, R392): a command not admitted by its deadline ends with 0x3001, one whose lock is not granted with 0x3003; a head that has waited
PREEMPT_WAIT_US for a free slot kills the one running command of a lower class, which is queued again. Completes: noContextByDeadline,
lockNotByDeadline, preemption. FENCE and FENCE_RELEASE (R103): a fence ends once every earlier command of its scope, and the one it depends on, has
completed; until then it waits and nothing changes. Completes: fence, fenceRelease. Conventions of the model in it: log 8, 10, 48. -/
def Obligations.CommandsAreAdmittedOrEndInTime : Prop :=
  (∀ (s u : State) (p : PartNo) (c : Cmd), sound s → (∀ k ∈ s.ras.clusters, k.bypassAt = none) → (s.part p).present = true →
    s.hif.dpReady = true → (s.part p).stopped = false → s.fw.live = none → (s.clustersOf p).isEmpty = false →
    (s.freeLeaving p).promote p = u → u.headOf p = some c → u.outputShort p (u.fixed p c) = none → (u.admitHead p).isSome →
    ∃ (t : State) (d : Cmd), exec (.schedulingStep p) s = .next t ∧ t.cmd? c.id = some d ∧ d.phase = .running ∧ (∃ x ∈ t.ctxs, x.cid = c.id) ∧
      (c.rerun = false → d.admitTime = s.now) ∧
      (c.op ∈ readOps → c.rerun = false → c.shadow = false → c.origin = none → d.readStamp = s.readStamp)) ∧
  (∀ (s : State) (p : PartNo) (c : Cmd), sound s → (∀ k ∈ s.ras.clusters, k.bypassAt = none) → (s.part p).present = true →
    (s.clustersOf p).isEmpty = true → s.cmd? c.id = some c → c.part = some p → c.phase = .queued → c.op ≠ 0x7F →
    ∃ (t : State) (d : Cmd), exec (.schedulingStep p) s = .next t ∧ t.cmd? c.id = some d ∧ d.phase = .done ∧ d.status = stNoCluster) ∧
  (∀ (s : State) (cid : Nat) (c : Cmd), sound s → s.cmd? cid = some c → c.phase = .queued → c.rerun = false → c.origin = none →
    s.fetchLimit c = true → (∀ p, c.part = some p → s.outputShort p c = none) →
    ∃ (t : State) (d : Cmd), exec (.noContextByDeadline cid) s = .next t ∧ t.cmd? cid = some d ∧ d.phase = .done ∧ d.status = stNoContext) ∧
  (∀ (s : State) (cid : Nat) (c : Cmd), sound s → s.cmd? cid = some c → c.phase = .waiting → s.lockGranted cid = false →
    s.meshMutation c = false → s.fetchLimit c = true →
    ∃ (t : State) (d : Cmd), exec (.lockNotByDeadline cid) s = .next t ∧ t.cmd? cid = some d ∧ d.phase = .done ∧ d.status = stNoLock) ∧
  (∀ (s : State) (p : PartNo) (h v : Cmd), sound s → s.headOf p = some h → (s.part p).feat 0x60 ≠ 65535 → (s.part p).headCid = h.id + 1 →
    (s.part p).headSince + 1000 * (s.part p).feat 0x60 ≤ s.now → s.pickCores p h.op = none →
    (s.cmds.filter fun c => c.part == some p && s.preemptible c h.cls) = [v] → v.mesh = none → v.origin = none →
    ∃ (t : State) (d : Cmd), exec (.preemption p) s = .next t ∧ t.cmd? v.id = some d ∧ d.phase = .queued ∧ d.rerun = true ∧
      d.preempts = v.preempts + 1 ∧ d.readStamp = v.readStamp ∧ (∀ x ∈ t.ctxs, x.cid = v.id → x.state = .leaving) ∧ (t.part p).headSince = s.now) ∧
  (∀ (s : State) (cid : Nat) (c : Cmd) (i : Instr), sound s → s.cmd? cid = some c → c.isAdmin = false → c.op = 0x7F → c.phase = .waiting → fenceErr c = none →
    i = .fence cid ∨ i = .fenceRelease cid →
    ∃ t, exec i s = .next t ∧ (s.fenceMet c = true → s.depMet c = true → ended t cid {}) ∧
      (s.fenceMet c = false ∨ s.depMet c = false → t = s))

/-- TRANSFER_ISSUE, TRANSFER_LANDED and PAGE_REQUEST_RESPONSE (R367, R371, R373, R380 to R382): a served stream issues its next elements, where the
core's request table has room; a Ristretto entry is served, or becomes a halted stream at a page fault; elements that land advance POS in order; a
page fault halts the stream and its context and asks for the page; Success resumes the stream, any other code ends the command with 0x4003, and the
response for a killed command's stream is dropped. Completes: transferIssue, transferLanded, pageRequestResponse. CARAFE_SWAP,
PERSISTENT_STREAM_TIMEOUT, ATS_INVALIDATION and CONTEXT_SWITCH (R49, R377, R379, R385): the windows swap once every transfer has landed; an ARMED
stream leaves after 100 ms; the named translations are gone and the invalidation completes; the READY context of highest class runs. Completes:
carafeSwap, persistentStreamTimeout, atsInvalidation, contextSwitch. Conventions of the model in it: log 12, 13, 41. -/
def Obligations.StreamsTransferAndCoresSwap : Prop :=
  (∀ (s : State) (core : Nat) (x : Stream), s.pickRistretto core = none → s.pickStream core = some x →
    (∀ y ∈ s.streams, y.core = x.core → y.num = x.num → y = x) →
    (s.requestsOut core + x.requests (s.nextElems x) ≤ 1024 → x.pos < x.count → x.pos ∉ x.landed →
      (∀ e, x.issued ≤ e → e < x.issued + s.nextElems x → s.isHole x e = false) →
      ∃ (t : State) (y : Stream), exec (.transferIssue core false) s = .next t ∧ y ∈ t.streams ∧ y.core = core ∧ y.num = x.num ∧
        y.issued = x.issued + s.nextElems x ∧ y.outstanding = x.outstanding + 1 ∧ y.outBytes = x.outBytes + s.nextElems x * x.elem ∧
        y.pos = x.pos ∧ 0 < s.nextElems x) ∧
    (1024 < s.requestsOut core + x.requests (s.nextElems x) →
      ∃ t, exec (.transferIssue core false) s = .next t ∧ t.streams = s.streams ∧ t.out = s.out) ∧
    (x.space = 0 → ∃ (t : State) (y : Stream), exec (.transferIssue core true) s = .next t ∧ y ∈ t.streams ∧ y.num = x.num ∧ y.halted = true ∧
      y.pos = x.pos ∧ (∀ c ∈ t.ctxs, c.cid = x.cid → c.state = .halted ∨ c.state = .committing ∨ c.state = .leaving) ∧
      (x.asked = false → s.mayAsk x.fn = true →
        y.asked = true ∧ Out.pageRequest x.fn ((s.pasidOf x.cid).getD 0) (s.elemAddr x x.issued / 4096) ∈ t.out))) ∧
  (∀ (s : State) (core : Nat) (r : Ristretto), s.pickRistretto core = some r → s.ristretto.count r = 1 →
    (∃ t, exec (.transferIssue core false) s = .next t ∧ r ∉ t.ristretto ∧ t.streams = s.streams) ∧
    (r.space = 0 → (∃ n, n < 64 ∧ ∀ y ∈ s.streams, ¬(y.core = r.core ∧ y.num = n)) →
      ∃ (t : State) (y : Stream), exec (.transferIssue core true) s = .next t ∧ y ∈ t.streams ∧ y.cid = r.cid ∧ y.base = r.addr ∧ y.count = 1 ∧
        y.halted = true ∧ r ∉ t.ristretto)) ∧
  (∀ (s : State) (core num : Nat) (elems : List Nat) (x : Stream), s.streams.find? (fun y => y.core == core && y.num == num) = some x →
    x.dead = false → (∃ e ∈ elems, x.pos ≤ e ∧ e < x.issued ∧ e ∉ x.landed) →
    ∃ (t : State) (pos : Nat), exec (.transferLanded core num elems) s = .next t ∧ x.pos ≤ pos ∧
      (x.pos ∈ elems → x.pos < x.issued → x.pos ∉ x.landed → x.pos < pos) ∧
      (∀ e, x.pos ≤ e → e < pos → e ∈ elems ∨ e ∈ x.landed) ∧
      (pos = x.count → x.persist = false → ∀ y ∈ t.streams, ¬(y.core = core ∧ y.num = num)) ∧
      (pos ≠ x.count ∨ x.persist = true → ∀ y ∈ t.streams, y.core = core → y.num = num → y.pos = pos ∧ y.issued = x.issued) ∧
      ∀ c ∈ t.ctxs, c.cid = x.cid → c.state ≠ .waiting) ∧
  (∀ (s : State) (core num code : Nat) (x : Stream), s.streams = [x] → x.core = core → x.num = num → x.halted = true → x.asked = true →
    ∃ t, exec (.pageRequestResponse core num code) s = .next t ∧
      (x.dead = true → t.streams = [] ∧ ∀ c, s.cmd? x.cid = some c → ∃ d, t.cmd? x.cid = some d ∧ d.phase = c.phase ∧ d.status = c.status) ∧
      (x.dead = false → code = 0 → (∃ y, t.streams = [y] ∧ y.halted = false ∧ y.pos = x.pos) ∧ ∀ c ∈ t.ctxs, c.cid = x.cid → c.state ≠ .halted) ∧
      (x.dead = false → code ≠ 0 → t.streams = [] ∧
        ∀ c, s.cmd? x.cid = some c → c.phase = .running → c.mesh = none →
          ∃ d, t.cmd? x.cid = some d ∧ d.phase = .done ∧ d.status = stPageRequest)) ∧
  (∀ (s : State) (core : Nat), core < s.ras.cores.length →
    (∀ x ∈ s.streams, x.core = core → x.dead = false → if x.write then x.issued = x.count else x.outBytes = 0) →
    ∃ t, exec (.carafeSwap core) s = .next t ∧ (t.coreAt core).computeWindow = !(s.coreAt core).computeWindow ∧ t.streams = s.streams) ∧
  (∀ (s : State) (core : Nat) (x : Stream), x ∈ s.streams → x.core = core → x.dead = false → x.write = false → x.outBytes ≠ 0 →
    exec (.carafeSwap core) s = .next s) ∧
  (∀ (s : State) (core num : Nat),
    ∃ t, exec (.persistentStreamTimeout core num) s = .next t ∧ ∀ x, x ∈ t.streams ↔ x ∈ s.streams ∧
      ¬(x.core = core ∧ x.num = num ∧ x.persist = true ∧ ∃ a, x.armedSince = some a ∧ a * 40 + 100000000 ≤ s.phys)) ∧
  (∀ (s : State) (fn : Fn) (page n : Nat),
    ∃ t, exec (.atsInvalidation fn page n) s = .next t ∧ t.out = s.out ++ [.invalidated fn page] ∧
      ∀ e, e ∈ t.atc ↔ e ∈ s.atc ∧ ¬(e.1 = fn ∧ page ≤ e.2.2 ∧ e.2.2 < page + n)) ∧
  (∀ (s : State) (core cause : Nat) (y : Ctx), bestBy s.ctxBefore (s.ctxs.filter fun x => x.core == core && x.state == .ready) = some y →
    (∀ x ∈ s.ctxs, x.core = core → x.state ≠ .running) →
    ∃ t, exec (.contextSwitch core cause) s = .next t ∧ { y with state := .running } ∈ t.ctxs ∧
      ∀ x ∈ s.ctxs, x ≠ y → x ∈ t.ctxs) ∧
  (∀ (s : State) (core : Nat) (x : Ctx), s.ctxs.find? (fun x => x.core == core && x.state == .running) = some x →
    (∀ y ∈ s.ctxs, y.core = x.core → y.slot = x.slot → y = x) →
    exec (.contextSwitch core 1) s = .next s ∧
    ∃ t, exec (.contextSwitch core 0) s = .next t ∧ x ∉ t.ctxs)

/-- Consolidation (R297 to R302) where no burst is poisoned: in hardware mode a pass begins where the tombstones exceed the ratio, at a read stamp of
its own, and a command of the device joins the admission queue for it; while that command, or the one that asked, holds contexts, a step moves on
through 4,096 slots, and ends the pass after the last; a slot is reclaimed only where no read may still want it. Completes: consolidationTrigger,
consolidationStep, reclaimCheck. HOTSET_REFRESH (R353, R603) where no burst is poisoned: in hardware mode, once HOTSET_REFRESH_MS have passed, the hot
rows become those the counts of the interval give, and the counts return to 0; in host mode, or before, nothing changes. Completes: hotsetRefresh.
Conventions of the model in it: log 30. -/
def Obligations.BackgroundPassesRun : Prop :=
  (∀ (s : State) (p : PartNo) (h : Nat) (k : Coll), sound s → s.coll? p h = some k → (s.part p).collU? k.uid = some k → k.isTable = false →
    s.tasksRun p = true → (s.modeOf p).getLsbD mConsol = false → s.passOf k = none → s.passCmd p k = none →
    (s.part p).feat 0x30 * ((s.part p).liveSlots k).length < ((s.part p).tombstones k).length * 1000000 →
    ∃ (t : State) (d : Coll) (q : Pass) (c : Cmd), exec (.consolidationTrigger p h) s = .next t ∧ (t.part p).collU? k.uid = some d ∧
      d.pass = some q ∧ q.stamp = s.readStamp ∧ q.rewire = true ∧ q.cid = none ∧ q.next = 0 ∧ d.lastPass = s.now ∧
      t.cmds = s.cmds ++ [c] ∧ c.shadow = true ∧ c.op = 0x24 ∧ c.phase = .queued ∧ c.cls = 0 ∧ c.coll = some k.uid) ∧
  (∀ (s : State) (p : PartNo) (h : Nat) (k : Coll), s.coll? p h = some k → (s.modeOf p).getLsbD mConsol = true →
    exec (.consolidationTrigger p h) s = .next s) ∧
  (∀ (s : State) (p : PartNo) (h : Nat) (k : Coll) (q : Pass) (c : Cmd), sound s → clean s → s.coll? p h = some k →
    (s.part p).collU? k.uid = some k → k.pass = some q → s.tasksRun p = true → c.ioRunning 0x24 = true →
    (q.cid = none ∧ s.passCmd p k = some c) ∨ (q.cid = some c.id ∧ s.cmd? c.id = some c) →
    ∃ (t : State) (d : Coll), exec (.consolidationStep p h) s = .next t ∧ (t.part p).collU? k.uid = some d ∧
      (k.capacity ≤ q.next + passStep → d.pass = none ∧ (q.cid = some c.id → inPhase t c.id .done) ∧ (q.cid = none → t.cmd? c.id = none)) ∧
      (q.next + passStep < k.capacity → ∃ q', d.pass = some q' ∧ q'.next = q.next + passStep ∧ q'.stamp = q.stamp ∧ q'.cid = q.cid)) ∧
  (∀ (s : State) (p : PartNo), s.slm.stalled = false →
    (∀ k ∈ (s.part p).colls, ∀ x ∈ k.eligible, s.keptByReads p k ((s.part p).meta k x).del = true) →
    exec (.reclaimCheck p) s = .next s) ∧
  (∀ (s : State) (p : PartNo) (k : Coll) (x : Nat), sound s → clean s → (s.part p).colls = [k] → k.eligible = [x] →
    s.keptByReads p k ((s.part p).meta k x).del = false →
    ∃ (t : State) (d : Coll), exec (.reclaimCheck p) s = .next t ∧ (t.part p).colls = [d] ∧ d.eligible = [] ∧ x ∉ d.entrySet ∧
      ∀ i, i < 48 → (t.part p).byte (k.metaAt x + i) = 0) ∧
  (∀ (s : State) (p : PartNo), sound s → clean s → s.tasksRun p = true → (s.modeOf p).getLsbD mHotset = false →
    (s.part p).hotAt + (s.part p).feat 0x50 * 1000000 ≤ s.now →
    ∃ t, exec (.hotsetRefresh p) s = .next t ∧ (t.part p).hotCounts = [] ∧ (t.part p).hotAt = s.now ∧ (t.part p).mem = (s.part p).mem ∧
      (∀ k ∈ (t.part p).colls, k.isTable = true → (s.part p).hotCounts ≠ [] →
        k.hotRows = ((s.hotPick p).filter fun h => h.1 == k.handle).map (·.2)) ∧
      (∀ k ∈ (t.part p).colls, k.isTable = false → k.entrySet.length ≤ max ((s.part p).feat 0x22)
        (((s.part p).colls.map fun d => d.entrySet.length).foldl max 0)) ∧ ∀ q, q ≠ p → t.part q = s.part q) ∧
  (∀ (s : State) (p : PartNo), s.slm.stalled = false → (s.modeOf p).getLsbD mHotset = true ∨
      s.now < (s.part p).hotAt + (s.part p).feat 0x50 * 1000000 → exec (.hotsetRefresh p) s = .next s)

/-- Training steps of a mesh table (R359, R361): the END of the last participant applies the step at a commit stamp and takes it off the table; a step
that is not complete in time is abandoned, with no byte of memory changed; a participant's command ends once every member has reported. Completes:
endMsg, stepReport, stepTimeout. Blocks change owner (R356, R364, R366): an overloaded owner offers its busiest block to the idlest member and marks
it MOVING; at the handoff commit the new owner has the block, and it leaves the old owner's hot set; a directory change with a newer epoch is taken;
FORWARD_DONE ends the forwarding; a 1 ms window's load is recorded. Completes: migrationTest, handoffCommit, directoryChange, forwardDone, loadWindow. -/
def Obligations.MeshTablesStepAndHandOff : Prop :=
  (∀ (s : State) (p : PartNo) (h member step inc : Nat) (param : Bytes) (k : Coll), tableAt s p h k → clean s → s.commitWaits = false →
    k.tm.handoffs = [] →
    (∀ x ∈ k.tm.steps, x.step = step → x.begun = false ∧ x.ends = [] ∧ (x.sums.flatMap (·.2.2)).length ≤ s.stepRows p k) →
    ∃ (t : State) (d : Coll), exec (.endMsg p h member step 1 inc none param) s = .next t ∧ (t.part p).collU? k.uid = some d ∧
      (∀ x ∈ d.tm.steps, x.step ≠ step) ∧ s.commitStamp ≤ t.time.largestStamp) ∧
  (∀ (s : State) (p : PartNo) (h member step n inc : Nat) (param : Bytes) (k : Coll), tableAt s p h k → 2 ≤ n →
    (∀ x ∈ k.tm.steps, x.step ≠ step) →
    ∃ (t : State) (d : Coll) (x : MeshStep), exec (.endMsg p h member step n inc none param) s = .next t ∧ (t.part p).collU? k.uid = some d ∧
      x ∈ d.tm.steps ∧ x.step = step ∧ x.firstAt = s.now ∧ x.ends = [(member, n, inc)] ∧ t.time = s.time) ∧
  (∀ (s : State) (cid member stamp rows skipped : Nat) (c : Cmd) (m : MeshWait), sound s → s.cmd? cid = some c →
    c.isAdmin = false → c.op = 0x51 → c.origin = none → c.phase ≠ .done → c.mesh = some m → m.endSent = true → m.waiting = [member] → m.abandoned = [] →
    ∃ (t : State) (d : Cmd), exec (.stepReport cid member true stamp rows skipped) s = .next t ∧ t.cmd? cid = some d ∧ d.phase = .done ∧
      statusClass d.status ≤ 1 ∧ d.count = m.count + rows ∧ d.stamp = max m.stamp stamp ∧ d.commitStamp = max m.stamp stamp) ∧
  (∀ (s : State) (p : PartNo) (h step : Nat) (k : Coll) (x : MeshStep), tableAt s p h k → served s →
    k.tm.steps.find? (fun y => y.step == step) = some x → x.begun = false → k.stepComplete x = false →
    x.firstAt + 1000 * (s.part p).feat 0x53 ≤ s.now → (∀ c ∈ s.cmds, c.op = 0x51 → ∀ m, c.run ≠ .mutation m) →
    ∃ (t : State) (d : Coll), exec (.stepTimeout p h step) s = .next t ∧ (t.part p).collU? k.uid = some d ∧
      (∀ y ∈ d.tm.steps, y.step ≠ step) ∧ (t.part p).mem = (s.part p).mem ∧ t.time = s.time) ∧
  (∀ (s : State) (p : PartNo) (h step : Nat) (k : Coll) (x : MeshStep), tableAt s p h k → k.tm.steps.find? (fun y => y.step == step) = some x →
    x.begun = false → k.stepComplete x = false → s.now < x.firstAt + 1000 * (s.part p).feat 0x53 → exec (.stepTimeout p h step) s = .next s) ∧
  (∀ (s : State) (p : PartNo) (h b m f : Nat) (k : Coll) (w : Nat × Nat) (l : List Nat), tableAt s p h k →
    (s.modeOf p).getLsbD mMigrate = false → k.tm.handoffs = [] → k.tm.windows = [w] → 0 < (s.part p).feat 0x55 → k.tm.recentMoves = [] →
    k.tm.blockLoads = [(b, l)] → k.tm.memberFree = [(m, f)] → f ≠ 0 → m ≠ k.memberIndex → k.owner b = k.memberIndex → k.tm.dir.length < 262144 →
    s.unreachable (k.deviceOf m) = false → w.2 * (100 + (s.part p).feat 0x54) < w.1 * k.members.length * 100 →
    k.tm.load16 b * k.members.length ≤ 16 * (w.1 * k.members.length - w.2) →
    (16 * getKey k.tm.memberLoads m 0 + k.tm.load16 b) * k.members.length ≤ 16 * w.2 →
    ∃ (t : State) (d : Coll) (g : Handoff), exec (.migrationTest p h) s = .next t ∧ (t.part p).collU? k.uid = some d ∧ d.tm.handoffs = [g] ∧
      g.block = b ∧ g.peer = m ∧ g.out = true ∧ g.state = .moving ∧ d.owner b = k.memberIndex) ∧
  (∀ (s : State) (p : PartNo) (h : Nat) (k : Coll), tableAt s p h k → (s.modeOf p).getLsbD mMigrate = true →
    exec (.migrationTest p h) s = .next s) ∧
  (∀ (s : State) (p : PartNo) (h b : Nat) (k : Coll) (g : Handoff), tableAt s p h k → k.outHandoff b = some g → g.sent = true →
    g.state = .moving →
    ∃ (t : State) (d : Coll), exec (.handoffCommit p h b) s = .next t ∧ (t.part p).collU? k.uid = some d ∧ d.owner b = g.peer ∧
      (∀ r ∈ d.hotRows, r / 64 ≠ b) ∧ d.tm.movedOut = k.tm.movedOut + 1 ∧
      ∃ g', d.outHandoff b = some g' ∧ g'.state = .forwarding ∧ g'.held = []) ∧
  (∀ (s : State) (p : PartNo) (h b owner epoch sender : Nat) (k : Coll), tableAt s p h k →
    ∃ (t : State) (d : Coll), exec (.directoryChange p h b owner epoch sender) s = .next t ∧ (t.part p).collU? k.uid = some d ∧
      (k.tm.epochOf b < epoch → owner ≠ k.memberIndex → d.owner b = owner) ∧ (epoch ≤ k.tm.epochOf b → d.tm = k.tm)) ∧
  (∀ (s : State) (p : PartNo) (h b : Nat) (k : Coll) (g : Handoff), tableAt s p h k → k.inHandoff b = some g → g.state = .forwarding →
    k.tm.steps = [] →
    ∃ (t : State) (d : Coll), exec (.forwardDone p h b) s = .next t ∧ (t.part p).collU? k.uid = some d ∧ d.inHandoff b = none ∧
      d.tm.dir = k.tm.dir) ∧
  (∀ (s : State) (p : PartNo) (h : Nat) (k : Coll), tableAt s p h k → k.tm.windowEnd ≤ s.now →
    ∃ (t : State) (d : Coll) (total : Nat), exec (.loadWindow p h) s = .next t ∧ (t.part p).collU? k.uid = some d ∧
      d.tm.windows.head? = some (k.tm.served, total) ∧ k.tm.served ≤ total ∧ d.tm.served = 0 ∧ s.now < d.tm.windowEnd ∧
      d.tm.windowEnd % 1000000 = 0)

/-- Regulators, accounting and slow-down windows (R406 to R418): a rate written in host mode within the group's sum takes effect, and one beyond it is
logged and has none; in hardware mode an adjustment with no group waiting leaves the rates as the partition's own, and none changes a depth; a clear
restarts the counters of the named partitions; a window is recorded with SLOWDOWN in units of 1 ÷ 65,536. Completes: partRegRate, regulatorAdjust,
partAcctClear, slowdownWindow. Conventions of the model in it: log 25, 32. -/
def Obligations.PartitionsAreRegulatedAndCounted : Prop :=
  (∀ (s : State) (p : PartNo) (g : Nat) (v : Word32) (r : RegGroup), sound s → s.barLive = true → (s.part p).present = true →
    s.devHost mBwTherm = true → g < 32 → (s.part p).regs[g]? = some r → bits v.toNat 16 12 ≠ 0 →
    bits v.toNat 0 12 + sumBy (fun x : PartSt => (x.regs.getD g {}).rate) (s.othersOf p) ≤ 4096 →
    ∃ t, exec (.partRegRate p g v) s = .next t ∧ (t.part p).regs[g]? = some { rate := bits v.toNat 0 12, depth := bits v.toNat 16 12 } ∧
      (∀ j, j ≠ g → (t.part p).regs[j]? = (s.part p).regs[j]?) ∧ ∀ q, q ≠ p → t.part q = s.part q) ∧
  (∀ (s : State) (p : PartNo) (g : Nat) (v : Word32), s.barLive = true → (s.part p).present = true → s.devHost mBwTherm = true → g < 32 →
    4096 < bits v.toNat 0 12 + sumBy (fun x : PartSt => (x.regs.getD g {}).rate) (s.othersOf p) →
    ∃ t, exec (.partRegRate p g v) s = .next t ∧ t.parts = s.parts ∧ logs s t fun e => e.kind = kHost ∧ rd e.detail 0 1 = 2) ∧
  (∀ (s : State) (p : PartNo) (g : Nat) (v : Word32), s.devHost mBwTherm = false → exec (.partRegRate p g v) s = .next s) ∧
  (∀ (s : State) (p : PartNo) (waited : List Bool) (used : List Nat), sound s → (s.part p).present = true → s.devHost mBwTherm = false →
    ∃ t, exec (.regulatorAdjust p waited used) s = .next t ∧ (t.part p).regs.map (·.depth) = (s.part p).regs.map (·.depth) ∧
      ((∀ g, waited.getD g false = false) → (s.part p).regs.length = 32 → (t.part p).regs.map (·.rate) = (s.part p).baseRates) ∧ ∀ q, q ≠ p → t.part q = s.part q) ∧
  (∀ (s : State) (v : Word32), sound s → s.barLive = true →
    ∃ t, exec (.partAcctClear v) s = .next t ∧ ∀ p, (t.part p).acct =
      if (s.part p).present = true ∧ v.getLsbD p.val = true then { resetStamp := s.now } else (s.part p).acct) ∧
  (∀ (s : State) (p : PartNo) (useful hbm slm mesh pcie reg : Nat), sound s → (s.part p).present = true → (s.part p).windows = [] → 10000000 ≤ s.now →
    ∃ (t : State) (w : Window), exec (.slowdownWindow p useful hbm slm mesh pcie reg) s = .next t ∧ (t.part p).windows = [w] ∧
      w.stamp = s.now / 10000000 * 10000000 ∧ w.useful = useful ∧ w.reg = reg ∧
      (useful ≠ 0 → w.slowdown = min 0xFFFFFFFF ((hbm + slm + mesh + pcie) * 65536 / useful)) ∧ (useful = 0 → w.slowdown = 0xFFFFFFFF))

/-- Memory errors (R424, R441, R442, R447, R448): an uncorrectable burst is poisoned, counted and logged, and the eighth distinct line within 60 s
fences its channel; a scratchpad line is poisoned for its partition; the scrub moves on by one row and counts what it corrects; a second address
parity error within 100 ms fences the channel. Completes: uncorrectableBurst, slmEccError, patrolScrub, addressParityError. Conventions of the model
in it: log 48, 49. -/
def Obligations.MemoryErrorsPoisonAndFence : Prop :=
  (∀ (s : State) (c line burst : Nat), sound s → s.hbm.initDone = true → line < 2 ^ 23 → c < 256 → (s.chan c).state = .active →
    ∃ t, exec (.uncorrectableBurst c line burst) s = .next t ∧ s.burstAddr c line burst / 64 ∈ t.hbm.poison ∧
      (∀ b ∈ s.hbm.poison, b ∈ t.hbm.poison) ∧ t.hbm.uncorrTotal = (s.hbm.uncorrTotal + 1) % 2 ^ 64 ∧ t.parts = s.parts ∧
      (logs s t fun e => e.kind = kHbm ∧ e.unit = c ∧ e.status = stPoison ∧ rd e.detail 8 1 = 1) ∧
      ((badLines s.time.clk ((s.chan c).badAt ++ [(s.time.clk, line)])).length < 8 → (t.chan c).state = .active) ∧
      (8 ≤ (badLines s.time.clk ((s.chan c).badAt ++ [(s.time.clk, line)])).length → (t.chan c).fenced = true)) ∧
  (∀ (s : State) (n line : Nat) (p : PartNo), sound s → n < 16 → (s.clusterAt n).state = .active → s.owner n = some p →
    (s.clusterAt n).sliceUncorrAt.length < 63 →
    ∃ t, exec (.slmEccError n true line) s = .next t ∧ line ∈ (t.part p).scratchPoison ∧ (t.part p).scratchMem = (s.part p).scratchMem ∧
      (logs s t fun e => e.kind = kSlm ∧ e.unit = n ∧ e.status = stPoison ∧ e.part = some p) ∧
      (t.clusterAt n).state = .active ∧ ∀ q, q ≠ p → t.part q = s.part q) ∧
  (∀ (s : State) (c : Nat) (b : List Nat), s.hbm.scrubActive = true → s.hbm.selfRefresh = false → s.scrubs c = true → sound s →
    ∃ t, exec (.patrolScrub [(c, b)] []) s = .next t ∧ t.hbm.scrubRow = (s.hbm.scrubRow + 1) % 2 ^ 23 ∧
      t.hbm.corrTotal = (s.hbm.corrTotal + 1) % 2 ^ 64 ∧ (t.chan c).corrected = satInc 0xFFFF (s.chan c).corrected ∧ t.hbm.poison = s.hbm.poison) ∧
  (∀ (s : State) (c : Nat), sound s → c < 256 → (s.chan c).state = .active →
    (∃ a ∈ (s.chan c).parityAt, s.time.clk < a + 2500000) →
    ∃ t, exec (.addressParityError c false) s = .next t ∧ (t.chan c).fenced = true ∧
      logs s t fun e => e.kind = kHbm ∧ e.unit = c ∧ rd e.detail 8 1 = 4)

/-- HBM temperature (R443 to R446): each stack has the temperature read, and its level rises at once to the level that temperature enters; a level
falls by one after 10 ms below its exit point. Completes: stackTemperatureRead, throttleLevelFall. MEM_MAPOUT_CTRL (R450, R455): with the key, MARK
makes a FENCED channel MAPOUT_PENDING and WITHDRAW in host mode makes it FENCED again; a write that does not suit the channel is logged and changes no
channel; RESTART restarts the data path; without the key nothing happens. Completes: mapoutMark, mapoutWithdraw, mapoutRestart. The traffic generators
(R456 to R458): START runs one on a FENCED or MAPPED_OUT channel and is REFUSED elsewhere; STOP stops a running one; it is DONE with its passes, its
errors and the first bad line. Completes: tgStart, tgStop, tgDone. Conventions of the model in it: log 33. -/
def Obligations.StacksMapOutsAndGeneratorsRun : Prop :=
  (∀ (s : State) (temps : List Nat) (n x : Nat), sound s → n < 8 → temps[n]? = some x →
    ∃ t, exec (.stackTemperatureRead temps) s = .next t ∧ (t.hbm.stackSt.getD n {}).temp = x ∧
      (t.hbm.stackSt.getD n {}).level = max (s.hbm.stackSt.getD n {}).level (levelAt s.threshold x) ∧ t.hbm.channels = s.hbm.channels) ∧
  (∀ (s : State) (n a : Nat), sound s → n < 8 → 0 < (s.hbm.stackSt.getD n {}).level → (s.hbm.stackSt.getD n {}).belowSince = some a →
    a + 250000 ≤ s.time.clk →
    ∃ t, exec (.throttleLevelFall n) s = .next t ∧ (t.hbm.stackSt.getD n {}).level = (s.hbm.stackSt.getD n {}).level - 1 ∧
      (t.hbm.stackSt.getD n {}).temp = (s.hbm.stackSt.getD n {}).temp) ∧
  (levelAt 95 94 = 0 ∧ levelAt 95 95 = 1 ∧ levelAt 95 98 = 2 ∧ levelAt 95 101 = 3 ∧ levelAt 95 105 = 4) ∧
  (∀ (s : State) (v : Word32), sound s → s.barLive = true → bits v.toNat 24 8 = 0xA5 → v.getLsbD 9 = true → v.getLsbD 16 = false →
    (v.getLsbD 8 = false → (s.chan (bits v.toNat 0 8)).state = .fenced →
      ∃ t, exec (.mapoutMark v) s = .next t ∧ (t.chan (bits v.toNat 0 8)).state = .mapoutPending ∧
        ∀ c, c ≠ bits v.toNat 0 8 → t.chan c = s.chan c) ∧
    (v.getLsbD 8 = false → (s.chan (bits v.toNat 0 8)).state ≠ .fenced →
      ∃ t, exec (.mapoutMark v) s = .next t ∧ t.hbm = s.hbm ∧ logs s t fun e => e.kind = kHost ∧ rd e.detail 0 1 = 2) ∧
    (v.getLsbD 8 = true → s.devHost mMapout = true → (s.chan (bits v.toNat 0 8)).state = .mapoutPending →
      ∃ t, exec (.mapoutWithdraw v) s = .next t ∧ (t.chan (bits v.toNat 0 8)).state = .fenced) ∧
    (v.getLsbD 8 = true → s.devHost mMapout = false → exec (.mapoutWithdraw v) s = .next s)) ∧
  (∀ (s : State) (v : Word32), s.barLive = true → bits v.toNat 24 8 = 0xA5 → v.getLsbD 9 = false → v.getLsbD 16 = true →
    s.hif.dpRestarting = false → s.hif.fatal = false →
    ∃ t, exec (.mapoutRestart v) s = .next t ∧ t.hif.dpRestarting = true ∧ t.hif.dpReady = false) ∧
  (∀ (s : State) (v : Word32), bits v.toNat 24 8 ≠ 0xA5 →
    exec (.mapoutMark v) s = .next s ∧ exec (.mapoutWithdraw v) s = .next s ∧ exec (.mapoutRestart v) s = .next s) ∧
  (∀ (s : State) (c : Nat) (v : Word32), sound s → s.barLive = true → c < 256 → v.getLsbD 0 = true →
    ∃ t, exec (.tgStart c v) s = .next t ∧ (t.chan c).tg.errors = 0 ∧ (t.chan c).tg.firstErr = none ∧ (t.chan c).tg.lanes = [] ∧
      (t.chan c).state = (s.chan c).state ∧
      ((s.chan c).state = .fenced ∨ (s.chan c).state = .mappedOut → (s.chan c).tg.state ≠ 1 → (t.chan c).tg.state = 1 ∧ (t.chan c).tg.passesDone = 0) ∧
      ((s.chan c).state = .active ∨ (s.chan c).state = .mapoutPending → (t.chan c).tg.state = 3)) ∧
  (∀ (s : State) (c : Nat) (v : Word32), sound s → s.barLive = true → c < 256 → v.getLsbD 0 = false → v.getLsbD 1 = true →
    (s.chan c).tg.state = 1 →
    ∃ t, exec (.tgStop c v) s = .next t ∧ (t.chan c).tg.state = 4 ∧ (t.chan c).tg.ctrl = v &&& 0xF310#32 ∧ (t.chan c).state = (s.chan c).state) ∧
  (∀ (s : State) (c errors first corrected : Nat) (lanes : List Nat), sound s → c < 256 → (s.chan c).tg.state = 1 →
    ∃ t, exec (.tgDone c errors first lanes corrected) s = .next t ∧ (t.chan c).tg.state = 2 ∧ (t.chan c).tg.errors = min 0xFFFFFFFF errors ∧
      (t.chan c).tg.passesDone = (s.chan c).tg.passes.toNat % 65536 ∧
      ((t.chan c).tg.firstErr = if errors = 0 then none else some (first % 2 ^ 23)))

/-- A data-path restart (R63, R74 to R76): it begins with every command gone and no pair but admin pairs, DP_READY 0 and the restart counted; it ends
with DP_READY 1, no poison, PS1 or the state a SET_FEATURE waits for, every partition empty under a new key and the admin pairs of enabled functions
armed. While one runs another write does nothing. Completes: dpRestart, dpDone. Conventions of the model in it: log 19. -/
def Obligations.DataPathRestarts : Prop :=
  (∀ (s : State) (v : Word32), sound s → bits v.toNat 8 8 = 0x5A → v.getLsbD 0 = true → s.hif.dpRestarting = false → s.barLive = true → s.hif.fatal = false →
    (∀ c ∈ s.cmds, c.phase ≠ .committing) →
    ∃ t, exec (.dpRestart v) s = .next t ∧ t.hif.dpRestarting = true ∧ t.hif.dpReady = false ∧ t.cmds = [] ∧ (∀ q ∈ t.pairs, q.qid = 0) ∧ t.ctxs = [] ∧
      t.streams = [] ∧ t.locks = [] ∧ t.hif.dpRestartCount = s.hif.dpRestartCount + 1 ∧ t.hif.resetCause.getLsbD 0 = true ∧
      t.hif.restartCause = some .request ∧ (t.fnAt .pf).evCause.getLsbD evDpBegin = true) ∧
  (∀ (s : State) (v : Word32), bits v.toNat 8 8 ≠ 0x5A ∨ v.getLsbD 0 = false ∨ s.hif.dpRestarting = true →
    exec (.dpRestart v) s = .next s) ∧
  (∀ (s : State), sound s → s.starting = true → s.pkg.pg.all id = true → s.cmds = [] → s.ctxs = [] →
    ∃ t, exec (.dpDone [] [] [] []) s = .next t ∧ t.hif.dpReady = true ∧ t.hif.dpRestarting = false ∧ t.hif.restartCause = none ∧
      t.power.ps = (match s.power.wake with | some (_, n) => min n 1 | none => 1) ∧
      t.hbm.poison = [] ∧ t.hbm.initDone = true ∧ t.hbm.corrTotal = 0 ∧ s.sec.keyCount < t.sec.keyCount ∧
      t.sec.reserveKey = t.sec.keyCount ∧ (s.hif.dpRestarting = true → (t.fnAt .pf).evCause.getLsbD evDpDone = true) ∧
      (∀ p, (s.part p).present = true → (t.part p).present = true ∧ (t.part p).colls = [] ∧
        ∃ k, (t.part p).hbmKey = some k ∧ s.sec.keyCount < k) ∧
      (s.hif.dpRestarting = true ∨ s.power.wake.isSome = true → ∀ fn, (s.fnAt fn).qmEnable = true → ∃ q ∈ t.pairs, q.fn = fn ∧ q.qid = 0))

/-- Register writes (R54 to R57, R61, R67): a doubleword written to HIF_SCRATCH0 reads back; an access of another size or place than a whole
doubleword or two is ignored and logged as HOST event 2; a write beyond BAR0 does nothing; BAR4 holds the MSI-X table. Completes: registerWrite. VF
Enable and configuration writes (R44, R46, R73, R515, R516): VF Enable is set only with NumVFs 16; a configuration doubleword takes the bits its
register has, a changed frozen register puts the TDI in ERROR, and a request before the configuration space is ready gets Request Retry Status.
Completes: vfEnable, configurationWrite. Event masks and MSI-X (R61, R65, R67, R69): a mask takes the bits its register has; one that unmasks a bit
that is set sends one message on vector 1; a vector unmasked sends what was pending. Completes: hifEventMask, vfEventMask, msixUnmask. Conventions of
the model in it: log 23, 46. -/
def Obligations.RegistersConfigurationAndEvents : Prop :=
  (∀ (s : State) (v : Word64) (t : Bool), s.bar0Accepts .pf t = true →
    (∃ u, exec (.registerWrite .pf (.bar0 0x40) 4 v t) s = .next u ∧ u.hif.scratch0 = v.setWidth 32 ∧ u.hif.scratch1 = s.hif.scratch1 ∧
      u.parts = s.parts ∧ u.cmds = s.cmds) ∧
    (∃ u, exec (.registerWrite .pf (.bar0 0x40) 8 v t) s = .next u ∧ u.hif.scratch0 = v.setWidth 32 ∧ u.hif.scratch1 = (v >>> 32).setWidth 32)) ∧
  (∀ (s : State) (fn : Fn) (off size : Nat) (v : Word64) (t : Bool), s.bar0Accepts fn t = true → off < bar0Size fn → size ≠ 4 → size ≠ 8 →
    ∃ u, exec (.registerWrite fn (.bar0 off) size v t) s = .next u ∧ u.hif = s.hif ∧ u.parts = s.parts ∧
      logs s u fun e => e.kind = kHost ∧ rd e.detail 0 1 = 2) ∧
  (∀ (s : State) (fn : Fn) (off size : Nat) (v : Word64) (t : Bool), bar0Size fn ≤ off → exec (.registerWrite fn (.bar0 off) size v t) s = .next s) ∧
  (∀ (s : State) (fn : Fn) (i : Nat) (v : Word64) (t : Bool), sound s → i < vectorsOf fn →
    ∃ u, exec (.registerWrite fn (.bar4 (16 * i + 8)) 4 v t) s = .next u ∧
      getKey (u.fnAt fn).msixTable i (0, 0) = ((getKey (s.fnAt fn).msixTable i (0, 0)).1, v.setWidth 32) ∧
      (∀ j, j ≠ i → getKey (u.fnAt fn).msixTable j (0, 0) = getKey (s.fnAt fn).msixTable j (0, 0)) ∧ u.hif = s.hif ∧
      ∀ g, g ≠ fn → u.fnAt g = s.fnAt g) ∧
  (∀ (s : State), sound s → (s.fnAt .pf).vfEnable = false → s.barLive = true →
    ∃ t, exec (.vfEnable 16 true) s = .next t ∧ (t.fnAt .pf).vfEnable = true ∧ (t.fnAt .pf).numVfs = 16) ∧
  (∀ (s : State) (n : Nat), sound s → (s.fnAt .pf).vfEnable = false → n ≠ 16 →
    ∃ t, exec (.vfEnable n true) s = .next t ∧ (t.fnAt .pf).vfEnable = false ∧ logs s t fun e => e.kind = kCommand ∧ e.status = stInvalidField) ∧
  (∀ (s : State) (fn : Fn) (off : Nat) (v : Word32), sound s → s.pkg.perst = false → s.fw.stage ≠ .bootRom → off % 4 = 0 → off < 4096 →
    ∃ t, exec (.configurationWrite fn off v) s = .next t ∧ t.cfgBits fn off = v &&& cfgMask fn off ∧
      (∀ p, fn = .vf p → 0x80 ≤ off → off < 0x8C → v &&& cfgMask fn off ≠ s.cfgBits fn off → (s.fnAt fn).tdi = .run →
        (t.fnAt fn).tdi = .error) ∧
      (fn = .pf → off = 0x04 → (t.fnAt fn).memSpace = v.getLsbD 1)) ∧
  (∀ (s : State) (fn : Fn) (off : Nat) (v : Word32), s.pkg.perst = false → s.fw.stage = .bootRom → off % 4 = 0 → off < 4096 →
    ∃ t, exec (.configurationWrite fn off v) s = .next t ∧ t.fns = s.fns ∧ t.out = s.out ++ [.configRetry fn]) ∧
  (∀ (s : State) (v : Word32), sound s →
    ∃ t, exec (.hifEventMask v) s = .next t ∧ (t.fnAt .pf).evMask = v &&& pfEvents ∧ (t.fnAt .pf).evCause = (s.fnAt .pf).evCause ∧
      ((s.fnAt .pf).evMask &&& ~~~v &&& (s.fnAt .pf).evCause = 0 → t.out = s.out) ∧
      ((s.fnAt .pf).evMask &&& ~~~v &&& (s.fnAt .pf).evCause ≠ 0 → (s.fnAt .pf).msixFnMask = false → 1 ∈ (s.fnAt .pf).msixOpen →
        t.out = s.out ++ [.msix .pf 1])) ∧
  (∀ (s : State) (p : PartNo) (v : Word32), sound s → s.barOpen (.vf p) = true →
    ∃ t, exec (.vfEventMask p v) s = .next t ∧ (t.fnAt (.vf p)).evMask = v &&& vfEvents ∧ ∀ fn, fn ≠ .vf p → t.fnAt fn = s.fnAt fn) ∧
  (∀ (s : State) (fn : Fn) (v : Nat), sound s → v < vectorsOf fn → (s.fnAt fn).msixFnMask = false → (s.fnAt fn).msixPending = [v] →
    ∃ t, exec (.msixUnmask fn (some v)) s = .next t ∧ v ∈ (t.fnAt fn).msixOpen ∧ (t.fnAt fn).msixPending = [] ∧
      t.out = s.out ++ [.msix fn v]) ∧
  (∀ (s : State), sound s → (s.fnAt .pf).msixFnMask = true →
    ∃ t, exec (.msixUnmask .pf none) s = .next t ∧ (t.fnAt .pf).msixFnMask = false ∧
      ∀ v ∈ (t.fnAt .pf).msixPending, v ∉ (t.fnAt .pf).msixOpen)

/-- The BAR2 window (R53, R58 to R60) of a device where no HBM burst is poisoned: a read returns the bytes of the window's place, or Unsupported
Request where the window refuses it; poisoned scratchpad lines answer as poison; a write stands there at once and changes no other byte, and a refused
one is dropped. Completes: bar2Read, bar2Write. Conventions of the model in it: log 46, 48. -/
def Obligations.WindowsReachPartitionMemory : Prop :=
  (∀ (s : State) (fn : Fn) (addr n : Nat) (b : Bool) (w : Place), s.bar2Place fn addr n b = some w → w.scratch = false → clean s →
    ∃ t, exec (.bar2Read fn addr n b) s = .next t ∧ t.parts = s.parts ∧ t.out = s.out ++ [.readData fn (some ((s.part w.part).bytes w.off n)) false]) ∧
  (∀ (s : State) (fn : Fn) (addr n : Nat) (b : Bool) (w : Place), s.bar2Place fn addr n b = some w → w.scratch = true →
    ((s.part w.part).sPoison w.off n = none →
      ∃ t, exec (.bar2Read fn addr n b) s = .next t ∧ t.parts = s.parts ∧
        t.out = s.out ++ [.readData fn (some ((s.part w.part).sBytes w.off n)) false]) ∧
    ((s.part w.part).sPoison w.off n ≠ none →
      ∃ (t : State) (d : Bytes), exec (.bar2Read fn addr n b) s = .next t ∧ t.parts = s.parts ∧ d.length = n ∧
        t.out = s.out ++ [.readData fn (some d) true])) ∧
  (∀ (s : State) (fn : Fn) (addr : Nat) (bs : Bytes) (b : Bool), s.bar2Place fn addr bs.length b = none →
    exec (.bar2Write fn addr bs b) s = .next s ∧
    ∃ t, exec (.bar2Read fn addr bs.length b) s = .next t ∧ t.out = s.out ++ [.readData fn none false]) ∧
  (∀ (s : State) (fn : Fn) (addr : Nat) (bs : Bytes) (b : Bool) (w : Place), sound s → s.bar2Place fn addr bs.length b = some w → w.scratch = false →
    clean s →
    ∃ t, exec (.bar2Write fn addr bs b) s = .next t ∧ (∀ i x, bs[i]? = some x → (t.part w.part).byte (w.off + i) = x) ∧
      (∀ a, a < w.off ∨ w.off + bs.length ≤ a → (t.part w.part).byte a = (s.part w.part).byte a) ∧
      (t.part w.part).scratchMem = (s.part w.part).scratchMem ∧ ∀ q, q ≠ w.part → t.part q = s.part q) ∧
  (∀ (s : State) (fn : Fn) (addr : Nat) (bs : Bytes) (b : Bool) (w : Place), sound s → s.bar2Place fn addr bs.length b = some w → w.scratch = true →
    (s.part w.part).sPoison w.off bs.length = none →
    ∃ t, exec (.bar2Write fn addr bs b) s = .next t ∧ (∀ i x, bs[i]? = some x → (t.part w.part).sByte (w.off + i) = x) ∧
      (∀ a, a < w.off ∨ w.off + bs.length ≤ a → (t.part w.part).sByte a = (s.part w.part).sByte a) ∧
      (t.part w.part).mem = (s.part w.part).mem ∧ ∀ q, q ≠ w.part → t.part q = s.part q) ∧
  (∀ (s : State) (p : PartNo) (addr n : Nat), s.tdiLocked p = true → s.bar2Place (.vf p) addr n false = none)

/-- PERST# (R45, R70, R71, R73, R590): a qualified assertion ends every command and pair, returns every partition, mode and port to reset, keeps the
fuses and the time (a mutation in its commit phase takes its stamp first), and locks the debug port unless CLOSED; a deassertion starts link training;
before the PCIe PHY component has passed its digest the level is only taken. Completes: perstAssert, perstDeassert. Conventions of the model in it:
log 20. -/
def Obligations.PerstResetsAllButTheFuses : Prop :=
  (∀ (s : State), s.powered = true → (s.fw.stage = .bootRom → s.fw.pciePhyPassed = true) →
    ∃ t, exec .perstAssert s = .next t ∧ t.pkg.perst = true ∧ t.cmds = [] ∧ t.pairs = [] ∧ t.ctxs = [] ∧ t.locks = [] ∧ t.tests = [] ∧
      t.parts = List.replicate 16 {} ∧ t.devMode = 0 ∧ t.mesh.enable = false ∧ t.mesh.routes = [] ∧ t.mesh.peers = [] ∧
      (∀ p ∈ t.mesh.ports, p.state = .disabled) ∧ t.hif.dpReady = false ∧ t.hif.fatal = false ∧ t.hif.linkUp = false ∧
      t.hif.resetCause.getLsbD 5 = true ∧ t.power.ps = 1 ∧ t.sec.fuses = s.sec.fuses ∧
      t.time.clk = s.time.clk ∧ t.time.thyme = s.time.thyme ∧ t.time.stampClock = s.time.stampClock ∧
      ((∀ c ∈ s.cmds, c.phase ≠ .committing) → s.devHost mTime = false → t.time = s.time) ∧ s.time.largestStamp ≤ t.time.largestStamp ∧
      t.sec.debugState = (if s.sec.fuses.debugClosed then .closed else .locked) ∧
      ∀ fn, (t.fnAt fn).qmEnable = false ∧ (t.fnAt fn).tdi = .unlocked ∧ (t.fnAt fn).evCause.getLsbD evDpBegin = (s.fnAt fn).evCause.getLsbD evDpBegin) ∧
  (∀ (s : State), s.powered = true → s.fw.stage = .bootRom → s.fw.pciePhyPassed = false →
    (∃ t, exec .perstAssert s = .next t ∧ t.pkg.perst = true ∧ t.pkg.perstPending = false ∧ t.cmds = s.cmds ∧ t.parts = s.parts) ∧
    (s.pkg.perst = true → ∃ t, exec .perstDeassert s = .next t ∧ t.pkg.perst = true ∧ t.pkg.perstPending = true ∧ t.hif = s.hif)) ∧
  (∀ (s : State), s.pkg.perst = true → s.powered = true → (s.fw.stage = .bootRom → s.fw.pciePhyPassed = true) →
    ∃ t, exec .perstDeassert s = .next t ∧ t.pkg.perst = false ∧ t.hif.linkTraining = true ∧ t.fns = s.fns ∧ t.parts = s.parts)

/-- Hot reset, link-down, function-level resets, D3hot and the link (R45, R61, R64, R70, R73, R83): the pairs of the reset functions are gone and
their registers cleared; a CONFIG_UNLOCKED partition keeps its contents; one that was in CONFIG_LOCKED or RUN loses them and gets a new key; a legal
link comes up. Completes: hotReset, linkDown, pfFlr, vfFlr, d3hotEntry, d0Transition, linkUp. Conventions of the model in it: log 20. -/
def Obligations.ResetsClearTheirFunctions : Prop :=
  (∀ (s : State), sound s → s.hif.linkUp = true →
    (∃ t, exec .hotReset s = .next t ∧ t.hif.linkUp = false ∧ t.hif.linkTraining = true ∧ t.pairs = [] ∧ t.hif.resetCause.getLsbD 4 = true ∧
      (∀ fn, (t.fnAt fn).qmEnable = false ∧ (t.fnAt fn).tdi = .unlocked) ∧
      (s.cmds = [] → ∀ p, s.tdiLocked p = false → (t.part p).mem = (s.part p).mem ∧ (t.part p).colls = (s.part p).colls)) ∧
    (∃ t, exec .linkDown s = .next t ∧ t.hif.linkUp = false ∧ t.hif.linkTraining = true ∧ t.pairs = [] ∧ t.hif.resetCause.getLsbD 3 = true)) ∧
  (∀ (s : State), sound s →
    ∃ t, exec .pfFlr s = .next t ∧ t.pairs = [] ∧ t.hif.resetCause.getLsbD 2 = true ∧ t.hif.linkUp = s.hif.linkUp ∧
      (∀ fn, (t.fnAt fn).qmEnable = false ∧ (t.fnAt fn).tdi = .unlocked) ∧ t.sec.ideSecure = [] ∧ t.sec.fuses = s.sec.fuses) ∧
  (∀ (s : State) (p : PartNo), sound s → s.cmds = [] → s.tests = [] →
    ∃ t, exec (.vfFlr p) s = .next t ∧ t.pairs = s.pairs.filter (fun q => q.fn ≠ .vf p) ∧ (t.fnAt (.vf p)).qmEnable = false ∧
      (t.fnAt (.vf p)).tdi = .unlocked ∧ (∀ fn, fn ≠ .vf p → t.fnAt fn = s.fnAt fn) ∧ (∀ q, q ≠ p → (t.part q).mem = (s.part q).mem) ∧
      (t.part p).modeWord = (s.part p).modeWord &&& (s.part p).modeLock ∧
      (s.tdiLocked p = false → (t.part p).mem = (s.part p).mem ∧ (t.part p).hbmKey = (s.part p).hbmKey) ∧
      (s.tdiLocked p = true → (s.part p).present = true →
        (t.part p).colls = [] ∧ (t.part p).mem = {} ∧ (t.part p).hbmKey = some (s.sec.keyCount + 1))) ∧
  (∀ (s : State), sound s → (s.fnAt .pf).d3hot = false → (∀ c ∈ s.cmds, c.phase ≠ .committing) →
    ∃ t, exec .d3hotEntry s = .next t ∧ (t.fnAt .pf).d3hot = true ∧ t.pairs = s.pairs ∧
      ∀ c ∈ t.cmds, c.origin.isSome = true ∨ c.shadow = true) ∧
  (∀ (s : State), sound s → (s.fnAt .pf).d3hot = true →
    ∃ t, exec .d0Transition s = .next t ∧ (t.fnAt .pf).d3hot = false ∧ t.pairs = [] ∧ t.hif.resetCause.getLsbD 2 = true ∧ exec .d3hotEntry s = .next s) ∧
  (∀ (s : State) (w v : Nat) (f : Bool), s.hif.linkTraining = true → s.pkg.perst = false → s.pgOf 2 = true →
    (s.fw.stage = .recovery → v ≤ 4) →
    (linkLegal w v f = false → exec (.linkUp w v f) s = .next s) ∧ (linkLegal w v f = true →
    ∃ t, exec (.linkUp w v f) s = .next t ∧ t.hif.linkUp = true ∧ t.hif.linkTraining = false ∧ t.hif.linkWidth = w ∧
      t.hif.linkSpeed = v ∧ t.hif.linkFlit = f ∧ t.fns = s.fns))

/-- Core failures (R30, R399, R564 to R566, R576): a core that stops answering, fetches an illegal entry, faults three times within 1 ms or is retired
leaves the active set; its contexts leave, and in hardware mode the spare is called and joins the set, or fails, at its check; a command whose engine
faults ends with 0x7001 INTERNAL. Completes: csqHeartbeatLost, illegalWorkEntry, spareActivated, activate, retire, engineFault. Conventions of the
model in it: log 31. -/
def Obligations.FailedCoresAreSpared : Prop :=
  (∀ (s : State) (n event : Nat) (o : Host.Outcome State Fault Refusal), sound s → n < 144 → (s.coreAt n).state = .active →
    (event = 1 ∧ o = exec (.csqHeartbeatLost n) s) ∨ (event = 2 ∧ o = exec (.illegalWorkEntry n) s) →
    (∀ x ∈ s.ctxs, (s.cmd? x.cid).isSome) → (s.clusterAt (n / 9)).sparing = none → (s.clusterAt (n / 9)).standIn = none →
    s.devHost mSpare = false → (s.spareOf (n / 9)).isSome = true →
    ∃ t, o = .next t ∧ (t.coreAt n).state = .failed ∧ (t.clusterAt (n / 9)).sparing = some (s.ras.nextSeq, n) ∧
      (∀ x ∈ t.ctxs, x.core = n → x.state = .leaving) ∧
      logs s t fun e => e.kind = kCore ∧ e.unit = n ∧ rd e.detail 0 1 = event) ∧
  (∀ (s : State) (n : Nat), sound s → n < 144 → (s.coreAt n).state ≠ .active → (s.coreAt n).state ≠ .standIn → (s.coreAt n).state ≠ .underTest →
    exec (.csqHeartbeatLost n) s = .next s ∧ exec (.illegalWorkEntry n) s = .next s) ∧
  (∀ (s : State) (cl seq core sp : Nat), sound s → cl < 16 → (s.clusterAt cl).sparing = some (seq, core) → s.spareOf cl = some sp →
    (∃ t, exec (.spareActivated cl true) s = .next t ∧ (t.coreAt sp).state = .active ∧ (t.clusterAt cl).sparing = none ∧
      logs s t fun e => e.kind = kCore ∧ e.related = seq ∧ e.repair = true ∧ rd e.detail 0 1 = 6 ∧ rd e.detail 2 2 = sp) ∧
    ((s.coresOf cl).isEmpty = false → ∃ t, exec (.spareActivated cl false) s = .next t ∧ (t.coreAt sp).state = .failed ∧
      (t.clusterAt cl).state = (s.clusterAt cl).state ∧ (t.clusterAt cl).sparing = none ∧
      logs s t fun e => e.kind = kCore ∧ e.related = seq ∧ rd e.detail 0 1 = 7)) ∧
  (∀ (s : State) (v : Word32), sound s → s.barLive = true → spareKey v = true →
    (bits v.toNat 8 2 = 1 → s.mayActivate (bits v.toNat 0 8) = true →
      ∃ t, exec (.activate v) s = .next t ∧ (t.clusterAt (bits v.toNat 0 8)).sparing.isSome = true ∧ t.ras.log = s.ras.log) ∧
    (bits v.toNat 8 2 = 1 → s.mayActivate (bits v.toNat 0 8) = false →
      ∃ t, exec (.activate v) s = .next t ∧ t.ras.clusters = s.ras.clusters ∧ logs s t fun e => e.kind = kHost ∧ rd e.detail 0 1 = 2) ∧
    (bits v.toNat 8 2 = 2 → s.mayRetire (bits v.toNat 0 8) = true →
      ∃ t, exec (.retire v) s = .next t ∧ (t.coreAt (bits v.toNat 0 8)).state = .retired) ∧
    (bits v.toNat 8 2 = 2 → s.mayRetire (bits v.toNat 0 8) = false →
      ∃ t, exec (.retire v) s = .next t ∧ t.ras.cores = s.ras.cores ∧ logs s t fun e => e.kind = kHost ∧ rd e.detail 0 1 = 2)) ∧
  (∀ (s : State) (n eng cid : Nat) (c : Cmd), sound s → n < 144 → (s.coreAt n).state = .active →
    ((s.coreAt n).faultsAt = [] → s.cmd? cid = some c → c.isAdmin = false → c.phase = .running → c.shadow = false → c.mesh = none →
      (∃ x ∈ s.ctxs, x.core = n ∧ x.cid = cid ∧ x.state ≠ .committing) →
      ∃ t d, exec (.engineFault n eng [cid]) s = .next t ∧ t.cmd? cid = some d ∧ d.phase = .done ∧ d.status = stInternal ∧ (t.coreAt n).state = .active) ∧
    (2 ≤ ((s.coreAt n).faultsAt.filter fun t => s.time.clk < t + 25000).length →
      ∃ t, exec (.engineFault n eng []) s = .next t ∧ (t.coreAt n).state = .failed))

/-- Clusters leave service and come back (R30, R565, R567 to R569): a CSV without a heartbeat, an error in it while it handles a core failure, and a
link with 16 bad flits within 1 s bypass the cluster, which leaves its partition once its contexts are gone; REINSTATE marks it for the next start; a
bypass of over 10 ms restarts the data path. Completes: csvHeartbeatLost, csvError, uncorrectableFlit, reinstate, bypassTimeout. Sage's failures (R30,
R539, R565, R575): its watchdog restarts Sage and the data path, the third within 10 s enters recovery; an uncorrectable error in its memory restarts
the data path; each is counted as an escalation. Completes: watchdog, sageEccError. Conventions of the model in it: log 31, 42. -/
def Obligations.FailedClustersAndSageEscalate : Prop :=
  (∀ (s : State) (cl : Nat) (o : Host.Outcome State Fault Refusal), sound s → cl < 16 → (s.clusterAt cl).state = .active →
    (s.clusterAt cl).bypassAt = none →
    (o = exec (.csvHeartbeatLost cl) s ∨ (o = exec (.csvError cl) s ∧ (s.clusterAt cl).sparing.isSome) ∨
      (o = exec (.uncorrectableFlit cl none) s ∧ 15 ≤ ((s.clusterAt cl).flitErrorsAt.filter fun t => s.time.clk < t + 25000000).length)) →
    ∃ t, o = .next t ∧ (t.clusterAt cl).state = .bypassed ∧ t.ras.bypasses = satInc 0xFFFF s.ras.bypasses ∧
      (∀ n, n / 9 = cl → (t.coreAt n).state = .bypassed ∨ (t.coreAt n).state = .failed ∨ (t.coreAt n).state = .retired) ∧
      (s.cmds = [] → logs s t fun e => e.kind = kCluster ∧ e.unit = cl) ∧
      (s.ctxs = [] → (t.clusterAt cl).bypassAt = none ∧ ∀ p, (t.part p).clusters.getLsbD cl = false)) ∧
  (∀ (s : State) (cl cid : Nat) (c : Cmd), sound s → cl < 16 → (s.clusterAt cl).state = .active → (s.clusterAt cl).flitErrorsAt = [] →
    s.cmd? cid = some c → c.isAdmin = false → c.phase = .running → c.shadow = false → c.mesh = none →
    ∃ t d, exec (.uncorrectableFlit cl (some cid)) s = .next t ∧ t.cmd? cid = some d ∧ d.phase = .done ∧ d.status = stInternal ∧
      (t.clusterAt cl).state = .active ∧ (t.clusterAt cl).flitErrorsAt = [s.time.clk]) ∧
  (∀ (s : State) (v : Word32), sound s → s.barLive = true → bits v.toNat 24 8 = 0x96 → v.getLsbD 8 = true →
    (s.clusterAt (bits v.toNat 0 4)).state = .bypassed → (s.clusterAt (bits v.toNat 0 4)).bypassAt = none →
    ∃ t, exec (.reinstate v) s = .next t ∧ (t.clusterAt (bits v.toNat 0 4)).state = .reinstatePending ∧ t.ras.cores = s.ras.cores ∧ t.parts = s.parts) ∧
  (∀ (s : State) (cl b : Nat), (s.clusterAt cl).bypassAt = some b → s.hif.fatal = false → s.hif.dpRestarting = false →
    (b + 250000 ≤ s.time.clk →
      ∃ t, exec (.bypassTimeout cl) s = .next t ∧ t.hif.dpRestarting = true ∧ t.hif.resetCause.getLsbD 1 = true ∧ t.ctxs = []) ∧
    (s.time.clk < b + 250000 → exec (.bypassTimeout cl) s = .next s)) ∧
  (∀ (s : State), s.fw.stage = .running → s.hif.dpRestarting = false → s.hif.fatal = false → s.pkg.perst = false → s.pkg.perstSeen = false →
    s.pkg.perstPending = false →
    ∃ t, exec .watchdog s = .next t ∧ t.hif.dpRestarting = true ∧ t.hif.dpReady = false ∧ t.hif.sageReady = false ∧
      t.hif.resetCause.getLsbD 7 = true ∧ t.hif.resetCause.getLsbD 1 = true ∧ t.hif.dpRestartCount = s.hif.dpRestartCount + 1 ∧
      t.ras.escalations = satInc 0xFFFF s.ras.escalations ∧
      ((∀ c ∈ s.cmds, c.phase ≠ .committing) → t.cmds = []) ∧
      (2 ≤ s.recentWatchdogs.length → t.fw.stage = .recovery ∧ t.fw.bootError = 6) ∧
      (s.recentWatchdogs.length < 2 → s.bootErrorOf true true = 0 → t.fw.stage = .bootRom ∧ t.fw.bootError = 0)) ∧
  (∀ (s : State), s.fw.stage = .running → s.hif.dpRestarting = false → s.hif.fatal = false →
    ∃ t, exec .sageEccError s = .next t ∧ t.hif.dpRestarting = true ∧ t.hif.resetCause.getLsbD 1 = true ∧ t.fw.stage = .running ∧
      t.ras.escalations = satInc 0xFFFF s.ras.escalations) ∧
  (∀ (s : State), s.fw.stage = .running → s.hif.dpRestarting = true → s.hif.fatal = false →
    ∃ t, exec .sageEccError s = .next t ∧ t.hif = s.hif ∧ t.cmds = s.cmds ∧ logs s t fun e => e.kind = kRestart ∧ e.nested = true)

/-- Faults of single commands (R76, R399, R398, R557, R572): a memory error in a core's staging takes the commands with data there with 0x4001; a
failed host access takes a command that has not committed with 0x4002, and afterwards a finished result that only writes host memory; a stand-in's
core is emptied 1 ms after its drain began. Completes: carafeEccError, hostAccessFailure, standInDrainTimeout. -/
def Obligations.FaultsTakeTheCommandsTheyHit : Prop :=
  (∀ (s : State) (core slot cid : Nat) (c : Cmd) (x : Ctx), (s.ctxs.filter fun x => x.core == core) = [x] → x.slot = slot → x.cid = cid →
    s.cmd? cid = some c → c.isAdmin = false → c.phase = .running → c.shadow = false → c.mesh = none →
    (∃ t d, exec (.carafeEccError core (some slot) []) s = .next t ∧ t.cmd? cid = some d ∧ d.phase = .done ∧ d.status = stPoison) ∧
    (∃ t d, exec (.carafeEccError core none [cid]) s = .next t ∧ t.cmd? cid = some d ∧ d.phase = .done ∧ d.status = stPoison) ∧
    exec (.carafeEccError core none []) s = .next s) ∧
  (∀ (s : State) (cid addr : Nat) (c : Cmd), s.cmd? cid = some c → c.origin = none → c.shadow = false → statusClass c.status < 2 →
    (c.isAdmin = false → c.phase = .running → c.mesh = none →
      ∃ t d, exec (.hostAccessFailure cid addr) s = .next t ∧ t.cmd? cid = some d ∧ d.phase = .done ∧ d.status = stHostAccess ∧
        d.count = 0 ∧ d.cause = toLe 8 addr ∧ Out.aer c.fn false ∈ t.out) ∧
    (c.isAdmin = true → c.phase = .ready →
      ∃ t d, exec (.hostAccessFailure cid addr) s = .next t ∧ t.cmd? cid = some d ∧ d.phase = .done ∧ d.status = stHostAccess ∧ d.cause = toLe 8 addr) ∧
    (c.phase = .done → c.lateCommit = true →
      ∃ t d, exec (.hostAccessFailure cid addr) s = .next t ∧ t.cmd? cid = some d ∧ d.phase = .done ∧ d.status = stHostAccess ∧ d.count = 0 ∧ d.stamp = 0) ∧
    (c.phase = .committing → c.isAdmin = false →
      ∃ t d, exec (.hostAccessFailure cid addr) s = .next t ∧ t.cmd? cid = some d ∧ d.phase = .committing ∧ d.status = c.status ∧
        logs s t fun e => e.kind = kCommand ∧ e.status = stHostAccess ∧ e.unit = c.qid)) ∧
  (∀ (s : State) (cl core since : Nat), (s.clusterAt cl).standIn = some (core, since) → (s.clusterAt cl).standInPhase = 0 →
    (s.time.clk < since + 25000 → exec (.standInDrainTimeout cl) s = .next s) ∧
    (since + 25000 ≤ s.time.clk → (∀ x ∈ s.ctxs, (s.cmd? x.cid).isSome) →
      ∃ t, exec (.standInDrainTimeout cl) s = .next t ∧ (∀ x ∈ t.ctxs, x.core = core → x.state = .leaving) ∧ ∀ x ∈ t.streams, x.core ≠ core))

/-- Coastuo ports (R463, R466 to R469, R493 to R496, R499 to R501): enabling trains, a finished training begins the key exchange, and a key exchange
that meets the policy brings the port UP in a new epoch; failures degrade a port to one pair of lanes or put it DOWN, from where it trains again after
1 s. Completes: meshEnable, meshDisable, portEnable, retrain, portTrainingComplete, key, rekey, rekeyTimeout, lossOfLock, fecErrorThreshold,
replayThreshold, portFrame, flitTimeout, portRetry, routeReturn, refclkClLoss. Conventions of the model in it: log 34. -/
def Obligations.PortsComeUpAndGoDown : Prop :=
  (∀ (s : State), sound s → s.barLive = true →
    (s.mesh.enable = false → ∃ t, exec .meshEnable s = .next t ∧ t.mesh.enable = true ∧
      ∀ n, n < 8 → (t.portAt n).state = (if (s.portAt n).enable then (if s.pkg.pg.all id && s.pkg.refClGood then .training else .down) else (s.portAt n).state)) ∧
    (s.mesh.enable = true → ∃ t, exec .meshDisable s = .next t ∧ t.mesh.enable = false ∧ (∀ n, n < 8 → (t.portAt n).state = .disabled) ∧
      ∀ p ∈ s.mesh.peers, (t.peer p.dev).unreachable = true)) ∧
  (∀ (s : State) (n : Nat) (v : Word32), sound s → s.barLive = true → n < 8 →
    (v.getLsbD 8 = false → v.getLsbD 0 = true → s.mayTrain = true → (s.portAt n).enable = false →
      ∃ t, exec (.portEnable n v) s = .next t ∧ (t.portAt n).state = .training ∧ (t.portAt n).enable = true ∧ (t.portAt n).twoLanes = v.getLsbD 1) ∧
    (v.getLsbD 8 = false → v.getLsbD 0 = false →
      ∃ t, exec (.portEnable n v) s = .next t ∧ (t.portAt n).state = .disabled ∧ (t.portAt n).enable = false) ∧
    (v.getLsbD 8 = true → v.getLsbD 0 = true → s.mayTrain = true → (s.portAt n).enable = true → (s.portAt n).state ≠ .test →
      ∃ t, exec (.retrain n v) s = .next t ∧ (t.portAt n).state = .training) ∧
    (v.getLsbD 8 = true → v.getLsbD 0 = true → (s.portAt n).enable = true → (s.portAt n).state = .test →
      ∃ t, exec (.retrain n v) s = .next t ∧ (t.portAt n).state = .test)) ∧
  (∀ (s : State) (n : Nat) (four : Bool), sound s → (s.portAt n).state = .training → s.mesh.enable = true →
    ∃ t, exec (.portTrainingComplete n four) s = .next t ∧ (t.portAt n).state = .keying ∧ Out.keyStart n ∈ t.out) ∧
  (∀ (s : State) (n id pp dbg : Nat) (tag : Bytes) (chain sig : Bool), sound s → (s.portAt n).state = .keying →
    ∃ t, exec (.key n id pp tag dbg chain sig) s = .next t ∧
      (id = s.mesh.deviceId → (t.portAt n).state = .idConflict) ∧
      (id ≠ s.mesh.deviceId → chain = true → sig = true → s.peerAllowed tag dbg = true →
        (t.portAt n).state = (if (s.portAt n).two then .degraded else .up) ∧ (t.portAt n).epoch = ((s.portAt n).epoch + 1) % 2 ^ 32 ∧
        (t.portAt n).peerId = some (id % 1024) ∧ (t.portAt n).keyIdx = false) ∧
      (id ≠ s.mesh.deviceId → (chain && sig && s.peerAllowed tag dbg) = false →
        (t.portAt n).state = .down ∧ (t.portAt n).keyFails = satInc 0xFFFF (s.portAt n).keyFails)) ∧
  (∀ (s : State) (n : Nat), sound s → (s.portAt n).usable = true → (s.portAt n).rekeyAt = none → 2 ^ 48 ≤ (s.portAt n).frames →
    ∃ t, exec (.rekey n) s = .next t ∧ (t.portAt n).rekeyAt = some s.time.clk ∧ t.out = s.out ++ [.keyStart n]) ∧
  (∀ (s : State) (n b : Nat), sound s → (s.portAt n).rekeyAt = some b → b * 40 + 50000000 ≤ s.phys →
    ∃ t, exec (.rekeyTimeout n) s = .next t ∧ (t.portAt n).state = .down) ∧
  (∀ (s : State) (n : Nat) (lanes : BitVec 4), sound s → (s.portAt n).state = .up → lanes &&& 3 ≠ 0 → lanes &&& 12 = 0 →
    ∃ t u, exec (.lossOfLock n lanes) s = .next t ∧ exec (.fecErrorThreshold n lanes) s = .next u ∧
      (t.portAt n).state = .degraded ∧ (u.portAt n).state = .degraded ∧ (t.portAt n).upperPair = true ∧
      (u.portAt n).fecUncorrected = satInc 0xFFFFFFFF (s.portAt n).fecUncorrected 17) ∧
  (∀ (s : State) (n : Nat), sound s → (s.portAt n).state = .up →
    (∀ lanes : BitVec 4, lanes &&& 3 ≠ 0 → lanes &&& 12 ≠ 0 → ∃ t, exec (.lossOfLock n lanes) s = .next t ∧ (t.portAt n).state = .down) ∧
    (∀ u, ∃ t, exec (.replayThreshold n u) s = .next t ∧ (t.portAt n).state = .degraded ∧ (t.portAt n).upperPair = u) ∧
    (∀ u, ∃ t, exec (.portFrame n u) s = .next t ∧ (t.portAt n).state = .degraded ∧ (t.portAt n).upperPair = u ∧ (t.portAt n).epoch = (s.portAt n).epoch)) ∧
  (∀ (s : State) (n : Nat), sound s → (s.portAt n).usable = true → (s.portAt n).lastRx + 2500 ≤ s.time.clk →
    ∃ t, exec (.flitTimeout n) s = .next t ∧ (t.portAt n).state = .down) ∧
  (∀ (s : State) (n : Nat), sound s → (s.portAt n).state = .down → (s.portAt n).enable = true → s.mayTrain = true →
    ((s.portAt n).since * 40 + 1000000000 ≤ s.phys → ∃ t, exec (.portRetry n) s = .next t ∧ (t.portAt n).state = .training) ∧
    (s.phys < (s.portAt n).since * 40 + 1000000000 → exec (.portRetry n) s = .next s)) ∧
  (∀ (s : State) (n : Nat), sound s → (s.portAt n).usable = true → (s.portAt n).away = true → (s.portAt n).since * 40 + 1000000000 ≤ s.phys →
    ∃ t, exec (.routeReturn n) s = .next t ∧ (t.portAt n).away = false ∧ (t.portAt n).state = (s.portAt n).state) ∧
  (∀ (s : State), sound s →
    ∃ t, exec .refclkClLoss s = .next t ∧ t.pkg.refClGood = false ∧ ∀ n, n < 8 → (s.portAt n).linked = true → (t.portAt n).state = .down)

/-- R469: a session whose peer fails authentication, and a rekey not complete within 50 ms, put the port DOWN, and each is logged as a change of the
port's state. -/
def Obligations.FailedSessionsPutThePortDown : Prop :=
  (∀ (s : State) (n id pp dbg : Nat) (tag : Bytes) (chain sig : Bool), sound s → (s.portAt n).state = .keying → id ≠ s.mesh.deviceId →
    (chain && sig) = false →
    ∃ t, exec (.key n id pp tag dbg chain sig) s = .next t ∧ (t.portAt n).state = .down ∧
      logs s t fun e => e.kind = kMesh ∧ e.unit = n ∧ rd e.detail 0 1 = 2 ∧ rd e.detail 1 1 = 5) ∧
  (∀ (s : State) (n b : Nat), sound s → (s.portAt n).rekeyAt = some b → (s.portAt n).state ≠ .down → b * 40 + 50000000 ≤ s.phys →
    ∃ t, exec (.rekeyTimeout n) s = .next t ∧ (t.portAt n).state = .down ∧ s.ras.written < t.ras.written)

/-- Frames (R473 to R479, R486, R488): a frame of the series is delivered once and in order, held while it is early, and dropped when it repeats; what
each type does; a frame for another device goes on with TTL one less. Completes: data, readReq, cmd, result, chain, arrive, release, barrierTimeout,
loadFrame. Conventions of the model in it: log 27, 35. -/
def Obligations.FramesAreDeliveredInOrder : Prop :=
  (∀ (s : State) (n : Nat) (h : FrameHdr) (bs : Bytes) (p : PartNo), sound s → lands s n h → s.domainPart h.domain = some p →
    s.byTag p h.tag = none → clean s →
    ∃ t, exec (.data n h bs) s = .next t ∧ (∀ i x, bs[i]? = some x → (t.part p).byte (h.aux + i) = x) ∧
      (∀ a, a < h.aux ∨ h.aux + bs.length ≤ a → (t.part p).byte a = (s.part p).byte a) ∧
      (t.peer h.src).rxSeq = ((s.peer h.src).rxSeq + 1) % 65536) ∧
  (∀ (s : State) (n : Nat) (h : FrameHdr) (bs : Bytes), s.slm.stalled = false → s.hears n = true → h.dest = s.mesh.deviceId →
    (h.epoch + 256 - (s.peer h.src).rxEpoch) % 256 = 0 →
    (4096 ≤ (h.seq + 65536 - (s.peer h.src).rxSeq) % 65536 → exec (.data n h bs) s = .next s) ∧
    (0 < (h.seq + 65536 - (s.peer h.src).rxSeq) % 65536 → (h.seq + 65536 - (s.peer h.src).rxSeq) % 65536 < 4096 → (s.peer h.src).early = [] →
      ∃ t x, exec (.data n h bs) s = .next t ∧ (t.peer h.src).early = [(n, x)] ∧ x.hdr = h ∧ x.body = .bytes bs ∧ t.parts = s.parts ∧
        (t.peer h.src).rxSeq = (s.peer h.src).rxSeq)) ∧
  (∀ (s : State) (n : Nat) (h : FrameHdr) (bs : Bytes), s.hears n = true → h.dest ≠ s.mesh.deviceId →
    (h.ttl ≤ 1 → ∃ t, exec (.data n h bs) s = .next t ∧ t.mesh.ttlDrops = satInc 0xFFFFFFFF s.mesh.ttlDrops ∧ t.parts = s.parts ∧
        ∀ x ∈ t.mesh.transit, x ∈ s.mesh.transit ∨ x.type = tNack) ∧
    (2 ≤ h.ttl → (s.routePort h.dest).isSome = true →
      ∃ t, exec (.data n h bs) s = .next t ∧
        ((∃ g m, Out.frame m tData g (.bytes bs) ∈ t.out ∧ g.ttl = h.ttl - 1 ∧ g.dest = h.dest ∧ g.src = h.src) ∨
          ∃ x ∈ t.mesh.transit, x.hdr.ttl = h.ttl - 1 ∧ x.hdr.dest = h.dest ∧ x.body = .bytes bs ∧ x.waits = true))) ∧
  (∀ (s : State) (n len : Nat) (h : FrameHdr) (p : PartNo), lands s n h → s.domainPart h.domain = some p → clean s →
    (s.routePort h.src).isSome = true → (s.peer h.src).unreachable = false →
    ∃ t, exec (.readReq n h len) s = .next t ∧
      (t.peer h.src).unacked.map (·.body) = (s.peer h.src).unacked.map (·.body) ++ (chunks 1024 len ((s.part p).bytes h.aux len)).map .bytes) ∧
  (∀ (s : State) (n : Nat) (h : FrameHdr) (p : PartNo) (coll packet : Bytes) (data : HostData) (r : Nat) (dl : Option Nat) (k : Coll),
    lands s n h → s.domainPart h.domain = some p → s.shardOf p packet coll = .inr k →
    ∃ t, exec (.cmd n h (.fanout coll packet data r dl)) s = .next t ∧ ∃ c ∈ t.cmds, c.id = s.nextCid ∧ c.origin = some (h.src, h.tag) ∧
      c.packet = fit 64 packet ∧ c.phase = .queued ∧ c.readStamp = r ∧ c.part = some p) ∧
  (∀ (s : State) (n st : Nat) (h : FrameHdr) (p : PartNo) (c : Cmd) (m : MeshWait) (k : Coll), lands s n h → s.domainPart h.domain = some p →
    s.byTag p h.tag = some c → s.cmd? c.id = some c → c.mesh = some m → c.coll.bind (s.part p).collU? = some k → c.phase ≠ .done →
    c.waitsFor m (k.memberOf h.src) = true → c.appliesAtOrigin = false → c.shadow = false →
    ∃ t d, exec (.result n h (.failed st)) s = .next t ∧ t.cmd? c.id = some d ∧ d.phase = .done ∧ d.status = st) ∧
  (∀ (s : State) (n : Nat) (h : FrameHdr) (p : PartNo) (l : List Nat), lands s n h → s.domainPart h.domain = some p → h.last = false →
    (s.mesh.chains.find? (fun c => c.tag == h.tag) = none → s.chainCmd p h.tag = none → h.aux = 0 →
      ∃ t c, exec (.chain n h l) s = .next t ∧ c ∈ t.mesh.chains ∧ c.tag = h.tag ∧ c.next = 1 ∧ c.totals = l) ∧
    (∀ c, s.mesh.chains.find? (fun c => c.tag == h.tag) = some c → c.early = [] → c.links = 0 → h.aux = c.next → c.next ≠ 0 →
      ∃ t d, exec (.chain n h l) s = .next t ∧ d ∈ t.mesh.chains ∧ d.tag = h.tag ∧ d.next = c.next + 1 ∧
        d.totals = List.zipWith (fun a b => ((Flt.ofBits32 a).add32 (Flt.ofBits32 b)).bits32) c.totals l)) ∧
  (∀ (s : State) (n : Nat) (h : FrameHdr) (b : Barrier), lands s n h → s.mesh.barriers = [b] → b.tag = h.tag →
    (b.root = true → b.released = false → b.cid ≠ 0 → b.arrived.contains h.src = false →
      ∃ t c, exec (.arrive n h) s = .next t ∧ t.mesh.barriers = [c] ∧ c.arrived = b.arrived ++ [h.src] ∧
        c.released = decide (b.participants ≤ b.arrived.length + 1)) ∧
    (b.root = false → ∃ t, exec (.release n h) s = .next t ∧ t.mesh.barriers = [{ b with released := true }])) ∧
  (∀ (s : State) (tag : Nat) (b : Barrier), s.mesh.barriers.find? (fun b => b.tag == tag) = some b → b.released = false →
    (b.since * 40 + 100000000 ≤ s.phys → ∃ t, exec (.barrierTimeout tag) s = .next t ∧ ∀ x ∈ t.mesh.barriers, x.tag ≠ tag) ∧
    (s.phys < b.since * 40 + 100000000 → exec (.barrierTimeout tag) s = .next s)) ∧
  (∀ (s : State) (n handle member total free : Nat) (h : FrameHdr) (p : PartNo) (k : Coll), sound s → lands s n h → s.domainPart h.domain = some p →
    tableAt s p handle k →
    ∃ t d, exec (.loadFrame n h handle member total free) s = .next t ∧ (t.part p).collU? k.uid = some d ∧
      getKey d.tm.memberLoads member 0 = total ∧ getKey d.tm.memberFree member 0 = free ∧ d.tm.blockLoads = k.tm.blockLoads)

/-- R130: a member whose shard's parameter block differs from the one the command brings, in any byte but MEMBER_INDEX, answers 0x2008, and runs no
step; the command that gets the answer completes with 0x2008. Blocks that differ in MEMBER_INDEX alone agree. -/
def Obligations.ShardsThatDifferRefuseTheCommand : Prop :=
  (∀ (s : State) (n : Nat) (h : FrameHdr) (p : PartNo) (coll packet : Bytes) (data : HostData) (r i : Nat) (dl : Option Nat) (k : Coll),
    lands s n h → s.domainPart h.domain = some p → s.coll? p (rd packet 4 2) = some k → k.param.length = coll.length →
    i ≠ 38 → i ≠ 39 → k.param[i]? ≠ coll[i]? →
    (s.routePort h.src).isSome = true → (s.peer h.src).unreachable = false →
    ∃ t, exec (.cmd n h (.fanout coll packet data r dl)) s = .next t ∧ t.cmds = s.cmds ∧
      ∃ x ∈ (t.peer h.src).unacked, x.type = tResult ∧ x.hdr.tag = h.tag ∧ x.body = .result (.failed 0x2008)) ∧
  (∀ (s : State) (n : Nat) (h : FrameHdr) (p : PartNo) (c : Cmd) (m : MeshWait) (k : Coll), lands s n h → s.domainPart h.domain = some p →
    s.byTag p h.tag = some c → s.cmd? c.id = some c → c.mesh = some m → c.coll.bind (s.part p).collU? = some k → c.phase ≠ .done →
    c.waitsFor m (k.memberOf h.src) = true → c.appliesAtOrigin = false → c.shadow = false →
    ∃ t d, exec (.result n h (.failed 0x2008)) s = .next t ∧ t.cmd? c.id = some d ∧ d.phase = .done ∧ d.status = 0x2008) ∧
  (∀ (a : Bytes) (x y : Byte), 40 ≤ a.length → sameShard a (overlay a 38 [x, y]) = true)

/-- Acknowledgement, resending and reachability (R475 to R478, R489 to R492): an ACK frees the frames up to its SEQ; an unacknowledged frame is resent
three times and then its destination is unreachable; an unreachable destination is probed every 10 ms, and an answer starts a new epoch; TIME measures
the link. Completes: ack, resendTimeout, unreachableProbe, probe, nack, timeExchangeTick, time. Flits and routes (R465, R480, R500): a flit in
sequence is taken and any other is answered with a NAK of the last good one; ROUTE_COMMIT makes the shadow table active, an entry that breaks a rule
not VALID and logged. Completes: flitReceived, routeCommit. Conventions of the model in it: log 35, 36. -/
def Obligations.LostPeersAreProbedAndRoutesCommitted : Prop :=
  (∀ (s : State) (n : Nat) (h : FrameHdr), s.hears n = true → h.dest = s.mesh.deviceId →
    ∃ t, exec (.ack n h) s = .next t ∧ (t.peer h.src).unacked = (s.peer h.src).unacked.filter (fun x => !x.ackedBy h.aux) ∧ t.parts = s.parts ∧ t.cmds = s.cmds) ∧
  (∀ (s : State) (d : Nat) (x : Sent), (s.peer d).unreachable = false → (s.peer d).unacked = [x] → x.waits = false →
    x.at_ * 40 + s.mesh.resendUs.toNat * 1000 ≤ s.phys →
    ∃ t, exec (.resendTimeout d) s = .next t ∧ (3 ≤ x.resends → (t.peer d).unreachable = true) ∧
      (x.resends < 3 → (t.peer d).unreachable = false ∧ ∃ y, (t.peer d).unacked = [y] ∧ y.hdr = x.hdr ∧ y.resends = x.resends + 1)) ∧
  (∀ (s : State) (d : Nat), s.mesh.enable = true → (s.peer d).unreachable = true →
    ((s.peer d).probeAt * 40 + 10000000 ≤ s.phys →
      ∃ t, exec (.unreachableProbe d) s = .next t ∧ (t.peer d).probeAt = s.time.clk ∧ (t.peer d).probeSent = some s.now ∧ (t.peer d).unreachable = true) ∧
    (s.phys < (s.peer d).probeAt * 40 + 10000000 → exec (.unreachableProbe d) s = .next s)) ∧
  (∀ (s : State) (n : Nat) (h : FrameHdr), s.hears n = true → h.dest = s.mesh.deviceId →
    (∃ t, exec (.probe n h true) s = .next t ∧ (t.peer h.src).unreachable = false ∧
      ((s.peer h.src).unreachable = true → (t.peer h.src).epoch = ((s.peer h.src).epoch + 1) % 256 ∧ (t.peer h.src).txSeq = 0)) ∧
    (∀ m pos, s.routePort h.src = some (m, pos) → 1 ≤ (s.portAt m).creditLink → (s.portAt m).replayRoom 0 = true →
      ∃ t g, exec (.probe n h false) s = .next t ∧ Out.frame m tProbe g (.totals [1]) ∈ t.out ∧ g.dest = h.src ∧ g.aux = h.aux)) ∧
  (∀ (s : State) (n reason d m pos : Nat) (h : FrameHdr), s.hears n = true → h.dest = s.mesh.deviceId → reason ≠ 1 → s.refusedTo h.src h.aux = d →
    s.routePort d = some (m, pos) →
    ∃ t, exec (.nack n h reason) s = .next t ∧
      ((s.modPeer d fun p => { p with givenUp := addOnce p.givenUp m }).routePort d = none → (s.peer d).unreachable = false → (t.peer d).unreachable = true) ∧
      ((s.modPeer d fun p => { p with givenUp := addOnce p.givenUp m }).routePort d ≠ none →
        m ∈ (t.peer d).givenUp ∧ (t.peer d).unreachable = (s.peer d).unreachable)) ∧
  (∀ (s : State), s.mesh.enable = true →
    ∃ t, exec .timeExchangeTick s = .next t ∧ ∀ n, n < 8 → (s.portAt n).usable = true →
      (s.portAt n).linkWait = [] → 1 ≤ (s.portAt n).creditLink →
      Out.frame n tTime {} (.totals [s.now, (s.portAt n).timeSeen.1, (s.portAt n).timeSeen.2, s.mesh.refId, s.mesh.refLocked.toNat, s.mesh.refHops])
        ∈ t.out) ∧
  (∀ (s : State) (n rid hops est : Nat) (t1 t2 t3 t4 a : Int) (locked : Bool), sound s → (s.portAt n).usable = true →
    ∃ t, exec (.time n t1 t2 t3 t4 a rid locked hops est) s = .next t ∧ (t.portAt n).offset = ((t2 - t1) + (t3 - t4)) / 2 - a ∧
      (t.portAt n).delay = ((t4 - t1) - (t3 - t2)) / 2 ∧ (t.portAt n).refId = some rid ∧
      (s.devHost mTime = false → s.time.islandOsc = false → t.mesh.parent = n → t.time.source = .mesh ∧ t.time.parentEst = est)) ∧
  (∀ (s : State) (n fec seq ack vc cr : Nat) (crc tag nak link : Bool), sound s → (s.portAt n).usable = true →
    ∃ t, exec (.flitReceived n fec seq crc tag nak ack link vc cr) s = .next t ∧
      (t.portAt n).fecCorrected = min 0xFFFFFFFF ((s.portAt n).fecCorrected + fec) ∧
      (crc = true → tag = true → seq = (s.portAt n).rxSeq → (t.portAt n).rxSeq = ((s.portAt n).rxSeq + 1) % 4096) ∧
      ((crc && tag && seq == (s.portAt n).rxSeq) = false →
        (t.portAt n).rxSeq = (s.portAt n).rxSeq ∧ t.out = s.out ++ [.nak n (((s.portAt n).rxSeq + 4095) % 4096)])) ∧
  (∀ (s : State) (v : Word32), s.barLive = true → bits v.toNat 24 8 = 0x3C → v.getLsbD 0 = true →
    ∃ t, exec (.routeCommit v) s = .next t ∧ t.mesh.shadowRoutes = s.mesh.shadowRoutes ∧
      t.mesh.routes = s.mesh.shadowRoutes.map (fun e => if routeBad e.2 then (e.1, e.2 &&& 0x7FFFFFFF#32) else e)) ∧
  (∀ (s : State) (v : Word32), bits v.toNat 24 8 ≠ 0x3C ∨ v.getLsbD 0 = false → exec (.routeCommit v) s = .next s)

/-- TDISP (R503, R509, R515 to R517): LOCK, START and STOP move a TDI between its states, with contents destroyed and a new key at LOCK and STOP; a
message not valid in the state is refused; a secure stream that stops or fails puts its TDIs in ERROR, their commands gone and their key destroyed.
Completes: lockInterfaceRequest, startInterfaceRequest, stopInterfaceRequest, getDeviceInterfaceReport, getDeviceInterfaceState, getTdispVersion,
getTdispCapabilities, kSetStop, ideIntegrityFailure, ideKm, getMeasurements, spdmRequest. Conventions of the model in it: log 23, 24. -/
def Obligations.InterfacesLockRunAndFail : Prop :=
  (∀ (s : State) (p : PartNo) (i : Nat), sound s → s.tsmLive = true → s.tdiAt p = .unlocked →
    (s.mayLock p i = true → ∃ t, exec (.lockInterfaceRequest p i) s = .next t ∧ t.tdiAt p = .locked ∧ (t.fnAt (.vf p)).tdiStream = some i ∧
      (t.part p).colls = [] ∧ (t.part p).declared = [] ∧ (t.part p).mem = {} ∧ (t.part p).hbmKey = some t.sec.keyCount ∧ s.sec.keyCount < t.sec.keyCount ∧
      Out.tdisp p "LOCK_INTERFACE_RESPONSE" [] ∈ t.out) ∧
    (s.mayLock p i = false → ∃ t, exec (.lockInterfaceRequest p i) s = .next t ∧ t.out = s.out ++ [.tdisp p "INVALID_DEVICE_CONFIGURATION" []] ∧
      t.fns = s.fns ∧ t.parts = s.parts)) ∧
  (∀ (s : State) (p : PartNo) (i : Nat), sound s → s.tsmLive = true →
    (s.tdiAt p ≠ .unlocked → ∃ t, exec (.lockInterfaceRequest p i) s = .next t ∧ t.out = s.out ++ [.tdisp p "INVALID_INTERFACE_STATE" []] ∧ t.fns = s.fns) ∧
    (s.tdiAt p = .locked → ∃ t, exec (.startInterfaceRequest p) s = .next t ∧ t.tdiAt p = .run ∧ t.parts = s.parts) ∧
    (s.tdiAt p ≠ .locked → ∃ t, exec (.startInterfaceRequest p) s = .next t ∧ t.out = s.out ++ [.tdisp p "INVALID_INTERFACE_STATE" []] ∧ t.fns = s.fns) ∧
    (s.tdiAt p ≠ .unlocked → ∃ t, exec (.stopInterfaceRequest p) s = .next t ∧ t.tdiAt p = .unlocked ∧ (∀ q ∈ t.pairs, q.fn ≠ .vf p) ∧
      (t.part p).colls = [] ∧ (t.part p).hbmKey = some t.sec.keyCount ∧ s.sec.keyCount < t.sec.keyCount ∧ (t.fnAt (.vf p)).qmReady = false) ∧
    (s.tdiLocked p = true → ∃ t, exec (.getDeviceInterfaceReport p) s = .next t ∧ t.out = s.out ++ [.tdisp p "DEVICE_INTERFACE_REPORT" (s.tdiReport p)]) ∧
    (s.tdiLocked p = false → ∃ t, exec (.getDeviceInterfaceReport p) s = .next t ∧ t.out = s.out ++ [.tdisp p "INVALID_INTERFACE_STATE" []]) ∧
    (∃ t, exec (.getDeviceInterfaceState p) s = .next t ∧ t.out = s.out ++ [.tdisp p "DEVICE_INTERFACE_STATE" (toLe 1 (s.tdiAt p).code)] ∧ t.fns = s.fns) ∧
    (∃ t, exec (.getTdispVersion p) s = .next t ∧ t.out = s.out ++ [.tdisp p "TDISP_VERSION" [1, 0x10]] ∧ t.fns = s.fns) ∧
    ∃ t, exec (.getTdispCapabilities p) s = .next t ∧ t.out = s.out ++ [.tdisp p "TDISP_CAPABILITIES" (toLe 4 0 ++ fit 16 [0xFE])] ∧ t.fns = s.fns) ∧
  (∀ (s : State) (p : PartNo) (i : Nat) (o : Host.Outcome State Fault Refusal), sound s → (s.fnAt (.vf p)).tdiStream = some i → s.tdiLocked p = true →
    (o = exec (.kSetStop i) s ∧ s.tsmLive = true) ∨ o = exec (.ideIntegrityFailure p) s →
    ∃ t, o = .next t ∧ t.tdiAt p = .error ∧ (t.part p).hbmKey = none ∧ i ∉ t.sec.ideSecure ∧ (t.fnAt (.vf p)).evCause.getLsbD evTdiError = true ∧
      ((∀ d ∈ s.cmds, d.phase ≠ .committing) → ∀ d ∈ t.cmds, d.fn ≠ .vf p)) ∧
  (∀ (s : State) (i : Nat), s.tsmLive = true → i < 21 →
    (∃ t, exec (.ideKm i true true) s = .next t ∧ i ∈ t.sec.ideProgrammed ∧ i ∈ t.sec.ideSecure ∧ t.fns = s.fns) ∧
    (i ∉ s.sec.ideProgrammed → ∃ t, exec (.ideKm i false true) s = .next t ∧ t.sec.ideSecure = s.sec.ideSecure)) ∧
  (∀ (s : State) (i : Nat) (path : Option PartNo) (msg : Bytes), s.barLive = true →
    (∃ t, exec (.getMeasurements i path) s = .next t ∧ t.out = s.out ++ [.message "MEASUREMENTS" (s.measResponse path i)] ∧ t.sec = s.sec) ∧
    ∃ (t : State) (b : Bytes), exec (.spdmRequest msg) s = .next t ∧ t.out = s.out ++ [.message "SPDM" b] ∧ t.sec = s.sec)

/-- Thyme (R10, R159, R544 to R550): TIME_CONFIGURE, the rate, offset and snapshot registers, PPS_IN and the losses of a source; a step back leaves
the stamp clock where it is. Completes: timeConfigureStep, timeConfigurePps, thymeRate, thymeOffsetAdj, thymeSnapTrig, ppsEdge, ppsAbsent,
hostTimeTimeout, refclkAonLoss, refclkAonReturn, refclkPcieLoss. Conventions of the model in it: log 36. -/
def Obligations.ThymeFollowsItsSource : Prop :=
  (∀ (s : State) (cid : Nat) (c : Cmd), adminAt s cid 0x0F c → c.f 16 1 = 0 → zeroAt c.packet [(17, 7), (32, 32)] →
    (s.devHost mTime = true ∨ s.time.source ≠ .mesh) → (s.time.ppsState = .locked → signed 64 (c.f 24 8) % 1000000000 = 0) →
    ∃ t, exec (.timeConfigureStep cid) s = .next t ∧ ended t cid {} ∧
      t.time.thyme = ((s.time.thyme : Int) + signed 64 (c.f 24 8)).toNat % 2 ^ 64 ∧
      (signed 64 (c.f 24 8) ≤ 0 → s.time.thyme * nsUnit + s.time.thymeFrac ≤ s.time.stampClock * nsUnit + s.time.stampFrac →
        t.time.stampClock = s.time.stampClock)) ∧
  (∀ (s : State) (cid : Nat) (c : Cmd), adminAt s cid 0x0F c → c.f 16 1 = 1 → zeroAt c.packet [(17, 7), (32, 32), (25, 3)] → c.f 24 1 < 4 →
    (signed 32 (c.f 28 4)).natAbs ≤ 1000000 →
    ∃ t, exec (.timeConfigurePps cid) s = .next t ∧ ended t cid {} ∧ t.time.ppsOffset = signed 32 (c.f 28 4) ∧
      t.time.ppsFalling = (c.f 24 1).testBit 1 ∧ t.time.ppsState = (if (c.f 24 1).testBit 0 then .acquiring else .disabled) ∧
      (s.time.source ≠ .mesh → t.time.source = (if s.time.source = .pps then .holdover else s.time.source))) ∧
  (∀ (s : State) (v : Word32), s.barLive = true →
    (s.devHost mTime = true → ∃ t, exec (.thymeRate v) s = .next t ∧ t.time.rate = clampRate v.toInt ∧ t.time.source = .host ∧ t.time.thyme = s.time.thyme) ∧
    (s.devHost mTime = true → v.toInt.natAbs ≤ 100000 → ∃ t, exec (.thymeOffsetAdj v) s = .next t ∧ t.time.slewLeft = v.toInt * 2 ^ 32 ∧
      t.time.thyme = s.time.thyme ∧ t.time.source = .host) ∧
    (s.devHost mTime = true → 100000 < v.toInt.natAbs → ∃ t, exec (.thymeOffsetAdj v) s = .next t ∧
      t.time.thyme = ((s.time.thyme : Int) + v.toInt).toNat % 2 ^ 64 ∧ t.time.slewLeft = 0) ∧
    (s.devHost mTime = false → exec (.thymeRate v) s = .next s ∧ exec (.thymeOffsetAdj v) s = .next s) ∧
    ∃ t, exec .thymeSnapTrig s = .next t ∧ t.time.snap = s.time.thyme ∧ t.time.thyme = s.time.thyme) ∧
  (∀ (s : State),
    (s.time.ppsState = .locked → s.time.phase.natAbs ≤ 1000 →
      ∃ t, exec (.ppsEdge true) s = .next t ∧ t.time.ppsState = .locked ∧ t.time.ppsAccepted = satInc 0xFFFF s.time.ppsAccepted ∧
        t.time.ppsLast = s.time.thyme ∧ t.time.ppsPhase = s.time.phase) ∧
    (s.time.ppsState = .acquiring → s.time.good = true → 2 ≤ s.time.ppsGood → ∃ t, exec (.ppsEdge true) s = .next t ∧ t.time.ppsState = .locked) ∧
    (s.time.ppsState = .absent → ∃ t, exec (.ppsEdge true) s = .next t ∧ t.time.ppsState = .acquiring) ∧
    (s.time.ppsState = .disabled → exec (.ppsEdge true) s = .next s) ∧ exec (.ppsEdge false) s = .next s) ∧
  (∀ (s : State), s.time.ppsState = .locked →
    (s.time.ppsWatch + 1500000000 ≤ s.time.thyme → ∃ t, exec .ppsAbsent s = .next t ∧ t.time.ppsState = .absent ∧
      (s.time.source ≠ .mesh → t.time.source = (if s.time.source = .pps then .holdover else s.time.source))) ∧
    (s.time.thyme < s.time.ppsWatch + 1500000000 → exec .ppsAbsent s = .next s)) ∧
  (∀ (s : State), s.devHost mTime = true → s.time.source = .host → s.time.lastHostTimeWrite * 40 + 4000000000 ≤ s.phys →
    ∃ t, exec .hostTimeTimeout s = .next t ∧ t.time.source = .holdover ∧ logs s t fun e => e.kind = kTime ∧ rd e.detail 0 1 = 1) ∧
  (∀ (s : State),
    (∃ t, exec .refclkAonLoss s = .next t ∧ t.time.islandOsc = true ∧ t.time.source = .holdover ∧ t.pkg.refAonGood = false) ∧
    (∃ t, exec .refclkAonReturn s = .next t ∧ t.time.islandOsc = false ∧ t.pkg.refAonGood = true ∧ t.time.thyme = s.time.thyme) ∧
    ∃ t, exec .refclkPcieLoss s = .next t ∧ t.pkg.refPcieGood = false ∧ t.hif.linkUp = false)

/-- R491: in host-assisted time mode a TIME exchange is still measured and reported and the reference is still chosen, and Thyme is not moved by it:
neither its value, its rate nor a slew. -/
def Obligations.HostTimeModeKeepsTheExchange : Prop :=
  (∀ (s : State) (n rid hops est : Nat) (t1 t2 t3 t4 a : Int) (locked : Bool), sound s → s.devHost mTime = true → (s.portAt n).usable = true →
    ∃ t, exec (.time n t1 t2 t3 t4 a rid locked hops est) s = .next t ∧ (t.portAt n).offset = ((t2 - t1) + (t3 - t4)) / 2 - a ∧
      (t.portAt n).delay = ((t4 - t1) - (t3 - t2)) / 2 ∧ (t.portAt n).refId = some rid ∧ (t.portAt n).refLocked = locked ∧
      (∀ o, bestBy Offer.better t.offers = some o → t.mesh.refId = o.ref ∧ t.mesh.refHops = o.hops ∧ t.mesh.parent = o.port.getD 0xF) ∧
      t.time = s.time) ∧
  (∀ (s : State), s.devHost mTime = true → s.mesh.enable = true →
    ∃ t, exec .timeExchangeTick s = .next t ∧ t.time = s.time ∧ ∀ n, n < 8 → (s.portAt n).usable = true →
      (s.portAt n).linkWait = [] → 1 ≤ (s.portAt n).creditLink →
      Out.frame n tTime {} (.totals [s.now, (s.portAt n).timeSeen.1, (s.portAt n).timeSeen.2, s.mesh.refId, s.mesh.refLocked.toNat, s.mesh.refHops])
        ∈ t.out)

/-- Supplies (R551, R552, R583 to R586): the feeds, the sequence of the rail groups, what a lost or failed group leaves, and the return. Completes:
vaonSwitchToB, vaonReturnToA, vaonLoss, vaonPowerOn, pgAssert, pgLoss, sequenceFailure, railResequence. Hotspots and sensors (R534, R596, R597): a hot
quadrant runs at half clock until it has cooled; at 115 °C THERM_TRIP_N drops EN_G3 to EN_G5; a reading that crosses a threshold raises one PLDM
event. Completes: hotspotThrottle, hotspotThrottleEnd, thermalTrip, thermTripRelease, sensorUpdate. Conventions of the model in it: log 22. -/
def Obligations.SuppliesSequenceAndHotspotsTrip : Prop :=
  (∀ (s : State), s.pkg.onB = false → s.pkg.vaonAGood = true → s.pkg.vaonBGood = true →
    ∃ t, exec .vaonSwitchToB s = .next t ∧ t.pkg.onB = true ∧ t.pkg.vaonAGood = false ∧ t.pkg.switchCount = satInc 0xFFFF s.pkg.switchCount ∧
      t.powered = true ∧ logs s t fun e => e.kind = kSupply ∧ rd e.detail 0 1 = 1) ∧
  (∀ (s : State), s.pkg.onB = true →
    ∃ t, exec .vaonReturnToA s = .next t ∧ t.pkg.onB = false ∧ t.pkg.vaonAGood = true ∧ logs s t fun e => e.kind = kSupply ∧ rd e.detail 0 1 = 2) ∧
  (∀ (s : State), s.powered = true →
    ∃ t, exec .vaonLoss s = .next t ∧ t.powered = false ∧ t.sec.fuses = s.sec.fuses ∧ t.fw.stored = s.fw.stored ∧ t.cmds = [] ∧ t.pairs = [] ∧
      t.parts = State.reset.parts ∧ t.ras.log = [] ∧ t.time = State.reset.time ∧ ∀ g, t.enOf g = false) ∧
  (∀ (s : State) (b r d : Bool), sound s → s.powered = false →
    ∃ t, exec (.vaonPowerOn true b r d) s = .next t ∧ t.powered = true ∧ t.pkg.onB = false ∧ t.enOf 1 = true ∧ t.fw.bootError = s.bootErrorOf r d ∧
      (s.bootErrorOf r d = 0 → t.fw.stage = .bootRom) ∧ (s.bootErrorOf r d ≠ 0 → t.fw.stage = .recovery)) ∧
  (∀ (s : State) (g : Nat), sound s → 1 ≤ g → g ≤ 5 → s.enOf g = true → s.pgOf g = false →
    ∃ t, exec (.pgAssert g) s = .next t ∧ t.pgOf g = true ∧ (g = 1 ∨ g = 3 ∨ g = 4 → t.enOf (g + 1) = true) ∧ (g = 5 → t.pkg.seqFails = 0) ∧
      (g = 2 → s.starting = true → s.pgOf 1 = true → s.pkg.thermTrip = false → s.pkg.lostGroup = none → t.enOf 3 = true)) ∧
  (∀ (s : State) (g : Nat), sound s → 1 ≤ g → g ≤ 5 → s.enOf g = true → s.pgOf g = true →
    ∃ t, exec (.pgLoss g) s = .next t ∧ (∀ i, g ≤ i → i ≤ 5 → t.enOf i = false) ∧ t.pgOf g = false ∧
      t.pkg.lostGroup = some (if g ≤ 2 then 1 else g) ∧ (g ≤ 2 → t.hif.linkUp = false) ∧
      (s.power.ps ≠ 3 → s.hif.fatal = false → t.hif.dpRestarting = true)) ∧
  (∀ (s : State) (g : Nat), sound s → 1 ≤ g → g ≤ 5 → s.enOf g = true → s.pgOf g = false →
    ∃ t, exec (.sequenceFailure g) s = .next t ∧ (∀ i, (if g ≤ 2 then 1 else 3) ≤ i → i ≤ 5 → t.enOf i = false) ∧ t.pkg.seqFails = s.pkg.seqFails + 1 ∧
      (s.pkg.seqFails < 2 → t.pkg.lostGroup = some (if g ≤ 2 then 1 else 3) ∧ t.hif.fatal = s.hif.fatal) ∧
      (2 ≤ s.pkg.seqFails → t.hif.fatal = true ∧ t.pkg.lostGroup = none)) ∧
  (∀ (s : State) (low : Nat), sound s → s.pkg.lostGroup = some low → 1 ≤ low → low ≤ 5 → s.powered = true → s.pkg.thermTrip = false →
    (s.pkg.lostAt * 40 + (if s.pkg.seqFails = 0 then 100000000 else 1000000000) ≤ s.phys →
      ∃ t, exec .railResequence s = .next t ∧ t.pkg.lostGroup = none ∧ (low ≤ 2 ∨ (s.wantsPath = true ∧ s.hif.fatal = false) → t.enOf low = true)) ∧
    (s.phys < s.pkg.lostAt * 40 + (if s.pkg.seqFails = 0 then 100000000 else 1000000000) → exec .railResequence s = .next s)) ∧
  (∀ (s : State) (q temp : Nat), q < 4 → 105 ≤ temp → s.pkg.halfClock[q]? = some false →
    ∃ t, exec (.hotspotThrottle q temp) s = .next t ∧ t.pkg.halfClock[q]? = some true ∧ (∀ r, r ≠ q → t.pkg.halfClock[r]? = s.pkg.halfClock[r]?) ∧
      logs s t fun e => e.kind = kSupply ∧ rd e.detail 0 1 = 3 ∧ rd e.detail 1 1 = q) ∧
  (∀ (s : State) (q temp : Nat), q < 4 → temp < 105 → exec (.hotspotThrottle q temp) s = .next s) ∧
  (∀ (s : State) (q temp : Nat), q < 4 → temp < 100 → s.pkg.halfClock[q]? = some true →
    ∃ t, exec (.hotspotThrottleEnd q temp) s = .next t ∧ t.pkg.halfClock[q]? = some false ∧ t.ras = s.ras) ∧
  (∀ (s : State) (q temp : Nat), sound s → q < 4 → 115 ≤ temp → s.pkg.thermTrip = false →
    ∃ t, exec (.thermalTrip q temp) s = .next t ∧ t.pkg.thermTrip = true ∧ (∀ g, 3 ≤ g → g ≤ 5 → t.enOf g = false) ∧ t.pkg.lostGroup = some 3 ∧
      (s.power.ps ≠ 3 → s.hif.fatal = false → t.hif.dpRestarting = true)) ∧
  (∀ (s : State) (a b c d : Nat), s.pkg.thermTrip = true →
    (a < 95 → b < 95 → c < 95 → d < 95 → ∃ t, exec (.thermTripRelease [a, b, c, d]) s = .next t ∧ t.pkg.thermTrip = false ∧ t.pkg.hotspot = [a, b, c, d]) ∧
    (95 ≤ a → exec (.thermTripRelease [a, b, c, d]) s = .next s)) ∧
  (∀ (s : State) (power a b : Nat) (hot : List Nat),
    ∃ t, exec (.sensorUpdate power hot a b) s = .next t ∧ t.pkg.packagePower = power ∧ t.pkg.vaonAmV = a ∧ t.pkg.vaonBmV = b ∧ t.ras = s.ras ∧
      (1045 ≤ power → s.pkg.packagePower < 1045 → Out.sensorEvent 1 power true ∈ t.out) ∧
      (a ≤ 3000 → 3000 < s.pkg.vaonAmV → Out.sensorEvent 14 a true ∈ t.out))

/-- R147: bit i of a stored sketch is bit (i mod 8) of its byte i / 8, a sketch takes W / 8 bytes, and the sketch distance is the number of the bits
in which query and record differ. -/
def Obligations.SketchesCompareByDifferingBits : Prop :=
  (∀ (x : PartSt) (k : Coll) (n i : Nat), i < k.sketchW / 8 * 8 →
    (x.sketch k n).testBit i = (x.byte (k.sketchAt n + i / 8)).getLsbD (i % 8) ∧ k.sketchAt (n + 1) = k.sketchAt n + k.sketchW / 8) ∧
  (∀ (w q c : Nat), hamming w q c = ((List.range w).filter fun i => q.testBit i != c.testBit i).length)

/-- The queue (the model's own, log 1): a step takes the command at the front of the queue and is exec of it on the state with the queue's rest. -/
def Obligations.StepRunsTheFrontCommand : Prop :=
  ∀ (c : Instr) (s : State) (rest : List Instr), s.pending = c :: rest → step s = exec c { s with pending := rest }

/-- An empty queue (DESIGN CHOICE, log 1; R159, R544): with no test running, no stand-in draining and no debug opening pending, a step is one tick of
25 MHz: Thyme and the stamp clock advance and nothing else changes; without power nothing changes. -/
def Obligations.EmptyQueueIsOneTick : Prop :=
  (∀ (s : State), s.pending = [] → s.powered = true → s.tests = [] → s.sec.debugPending = none →
    (∀ n, (s.clusterAt n).standInPhase ≠ 2) →
    ∃ t, step s = .next t ∧ changesOnly [.time] s t ∧ t.time.clk = s.time.clk + 1 ∧ s.time.stampClock ≤ t.time.stampClock ∧
      (s.time.rate = 0 → s.time.slewLeft = 0 → t.time.thyme = (s.time.thyme + 40 + s.time.thymeFrac / 2 ^ 32) % 2 ^ 64)) ∧
  (∀ (s : State), s.pending = [] → s.powered = false → step s = .next s)

/-- The state after reset meets the invariant: tables of their sizes, memory in canonical form, an error log of at most 256 entries, the fuses'
effects, names of commands each its own. Conventions of the model in it: log 4, 5, 6. -/
def Obligations.ResetIsSound : Prop :=
  sound State.reset ∧ State.reset.pending = [] ∧ State.reset.cmds = [] ∧ State.reset.hif.dpReady = false

/-- Every step keeps the invariant (R5, R6, R46, R430, R459, R558, R526, R583): the tables keep their sizes, every partition's memory its canonical
form, the error log its bound, the fuses their effects and the commands in flight names of their own, from every state that meets it and whatever the
command. -/
def Obligations.StepKeepsSound : Prop :=
  ∀ (s t : State), sound s → step s = .next t → sound t

/-- A fuse stays blown (R70, R510): no step clears the owner key's hash, reopens a closed debug port's fuse, lowers the SVN floor or takes back a
field repair. -/
def Obligations.NoStepClearsAFuse : Prop :=
  ∀ (s t : State), step s = .next t → fusesKept s.sec.fuses t.sec.fuses

/-- The stamp clock never moves backwards (R159), whatever steps Thyme takes, but for the loss and return of VAON power. -/
def Obligations.StampClockNeverGoesBack : Prop :=
  ∀ (s t : State), s.time.thymeFrac < nsUnit →
    (∀ c rest, s.pending = c :: rest → c ≠ .vaonLoss ∧ ∀ a b r d, c ≠ .vaonPowerOn a b r d) →
    step s = .next t → s.time.stampClock ≤ t.time.stampClock ∧ t.time.thymeFrac < nsUnit

/-- Every command goes on (no fault and no refusal), and changes no component but those its frame names: registers, features, memory, queues, ports,
log and the rest are as before. Conventions of the model in it: log 7. -/
def Obligations.EveryCommandKeepsItsFrame : Prop :=
  ∀ (c : Instr) (s : State), ∃ t, exec c s = .next t ∧ changesOnly (mayChange c) s t

/-- What an I/O command of one partition does, it does to that partition: memory, scratchpad, HBM key, mode and features of every other partition are
as before. -/
def Obligations.OperationsStayInTheirPartition : Prop :=
  ∀ (s t : State) (cid : Nat) (c : Cmd) (p : PartNo) (i : Instr), s.cmd? cid = some c → c.isAdmin = false → c.part = some p →
    (i ∈ [.search cid, .searchCompound cid, .scan cid, .fetch cid, .embLookup cid, .hotsetLoad cid, .shardMigrate cid, .denseLoad cid,
      .regionWrite cid, .regionRead cid, .collectionCreate cid, .collectionDrop cid, .collectionImport cid, .collectionExport cid,
      .collectionConsolidate cid, .expansionStep cid, .rerankBatch cid, .join cid, .commitPhase cid, .commitStep cid] ∨
      ∃ b, i ∈ [.insert cid b, .delete cid b, .upsert cid b, .setAttributes cid b, .embUpdate cid b]) →
    exec i s = .next t →
    ∀ q, q ≠ p → (t.part q).mem = (s.part q).mem ∧ (t.part q).scratchMem = (s.part q).scratchMem ∧ (t.part q).hbmKey = (s.part q).hbmKey ∧
      (t.part q).modeWord = (s.part q).modeWord ∧ (t.part q).feats = (s.part q).feats
end

