-- ==== Sys2Proof/Laws/Frame.lean ====
section
/-! SUPPORT. Frames: how `changesOnly` composes, and the frame of one update of a partition. -/

namespace Sys2Proof.Laws

open Sys2Proof.Machine Sys2Proof.Safety

/-- Every item of one list is in another. -/
def incl (m l : List Item) : Bool := m.all fun i => l.contains i

theorem mem_of_incl {m l : List Item} (h : incl m l = true) {i : Item} (hi : i ∈ m) : i ∈ l := by
  have := List.all_eq_true.mp h i hi
  simpa using this

theorem incl_trans {l m k : List Item} (h : incl k m = true) (hm : incl m l = true) : incl k l = true :=
  List.all_eq_true.mpr fun i hi => by simpa using mem_of_incl hm (mem_of_incl h hi)

theorem incl_self (l : List Item) : incl l l = true := List.all_eq_true.mpr fun i hi => by simpa using hi

theorem same_refl (s : State) (i : Item) : i.same s s := by cases i <;> simp [Item.same]

theorem same_trans {s t u : State} {i : Item} (h : i.same s t) (k : i.same t u) : i.same s u := by
  cases i <;> simp only [Item.same] at * <;> simp_all

theorem only_refl {l : List Item} {s : State} : changesOnly l s s := fun i _ => same_refl s i

theorem only_trans {l m : List Item} {s t u : State} (h : changesOnly l s t) (k : changesOnly m t u)
    (hm : incl m l = true) : changesOnly l s u :=
  fun i hi => same_trans (h i hi) (k i fun hm' => hi (mem_of_incl hm hm'))

theorem only_mono {l m : List Item} {s t : State} (k : changesOnly m s t) (hm : incl m l = true) : changesOnly l s t :=
  only_trans only_refl k hm

theorem only_foldl {α : Type} {l : List Item} {s0 s : State} {f : State → α → State} {xs : List α}
    (h : changesOnly l s0 s) (hf : ∀ a x, changesOnly l s0 a → changesOnly l s0 (f a x)) :
    changesOnly l s0 (xs.foldl f s) := by
  induction xs generalizing s with
  | nil => exact h
  | cons x xs ih => exact ih (hf s x h)

/-- The same for a fold whose accumulator holds the state at a place. -/
theorem only_foldl_at {α β : Type} (g : β → State) {l : List Item} {s0 : State} {b : β} {f : β → α → β} {xs : List α}
    (h : changesOnly l s0 (g b)) (hf : ∀ a x, changesOnly l s0 (g a) → changesOnly l s0 (g (f a x))) :
    changesOnly l s0 (g (xs.foldl f b)) := by
  induction xs generalizing b with
  | nil => exact h
  | cons x xs ih => exact ih (hf b x h)

theorem only_foldl_fst {α β : Type} {l : List Item} {s0 : State} {b : State × β} {f : State × β → α → State × β} {xs : List α}
    (h : changesOnly l s0 b.1) (hf : ∀ a x, changesOnly l s0 a.1 → changesOnly l s0 (f a x).1) :
    changesOnly l s0 (xs.foldl f b).1 := only_foldl_at (fun x : State × β => x.1) h hf

theorem only_ite {l : List Item} {s0 a b : State} {c : Prop} [Decidable c] (ha : changesOnly l s0 a) (hb : changesOnly l s0 b) :
    changesOnly l s0 (if c then a else b) := by split <;> assumption

theorem only_ite_fst {β : Type} {l : List Item} {s0 : State} {a b : State × β} {c : Prop} [Decidable c] (ha : changesOnly l s0 a.1)
    (hb : changesOnly l s0 b.1) : changesOnly l s0 (if c then a else b).1 := by split <;> assumption

/-- A state taken out of a pair, or of an option with a default. -/
theorem only_pair {β : Type} {l : List Item} {s0 t : State} {b : β} {e : State × β} (h : e = (t, b))
    (he : changesOnly l s0 e.1) : changesOnly l s0 t := by subst h; exact he

theorem only_getD {l : List Item} {s0 d : State} {o : Option State} (h : ∀ t, o = some t → changesOnly l s0 t)
    (hd : changesOnly l s0 d) : changesOnly l s0 (o.getD d) := by
  cases o with
  | none => exact hd
  | some t => exact h t rfl

theorem only_cond {l : List Item} {s0 a b : State} {c : Bool} (ha : changesOnly l s0 a) (hb : changesOnly l s0 b) :
    changesOnly l s0 (bif c then a else b) := by cases c <;> assumption

/-- A component of a partition is the same; an item of the rest of the state says nothing here. -/
def samePart (x y : PartSt) : Item → Prop
  | .pConfig => y.present = x.present ∧ y.clusters = x.clusters ∧ y.scratch = x.scratch ∧ y.borrow = x.borrow ∧
     y.hbmShare = x.hbmShare ∧ y.meshShare = x.meshShare ∧ y.granules = x.granules ∧ y.qpQuota = x.qpQuota
  | .pMode => y.modeWord = x.modeWord ∧ y.modeLock = x.modeLock
  | .pFeats => y.feats = x.feats
  | .pMem => y.mem = x.mem
  | .pScratch => y.scratchMem = x.scratchMem ∧ y.scratchPoison = x.scratchPoison
  | .pUses => y.scratchUses = x.scratchUses
  | .pHolds => y.payHolds = x.payHolds
  | .pKey => y.hbmKey = x.hbmKey
  | .pColls => y.colls = x.colls
  | .pJournal => y.journal = x.journal
  | .pDeclared => y.declared = x.declared
  | .pShadows => y.shadows = x.shadows
  | .pAcct => y.acct = x.acct
  | .pWindows => y.windows = x.windows
  | .pRegs => y.regs = x.regs
  | .pSched => y.stopped = x.stopped ∧ y.headSince = x.headSince ∧ y.headCid = x.headCid
  | .pHot => y.hotAt = x.hotAt ∧ y.hotCounts = x.hotCounts ∧ y.accesses = x.accesses
  | _ => True

def partOnly (l : List Item) (x y : PartSt) : Prop := ∀ i, i ∉ l → samePart x y i

theorem samePart_trans {x y z : PartSt} {i : Item} (h : samePart x y i) (k : samePart y z i) : samePart x z i := by
  cases i <;> simp only [samePart] at * <;> simp_all

theorem part_refl {l : List Item} {x : PartSt} : partOnly l x x := fun i _ => by cases i <;> simp [samePart]

theorem part_trans {l m : List Item} {x y z : PartSt} (h : partOnly l x y) (k : partOnly m y z) (hm : incl m l = true) :
    partOnly l x z := fun i hi => samePart_trans (h i hi) (k i fun hm' => hi (mem_of_incl hm hm'))

theorem part_ite {l : List Item} {x0 a b : PartSt} {c : Prop} [Decidable c] (ha : partOnly l x0 a) (hb : partOnly l x0 b) :
    partOnly l x0 (if c then a else b) := by split <;> assumption

theorem part_foldl {α : Type} {l : List Item} {x0 x : PartSt} {f : PartSt → α → PartSt} {xs : List α}
    (h : partOnly l x0 x) (hf : ∀ a y, partOnly l x0 a → partOnly l x0 (f a y)) : partOnly l x0 (xs.foldl f x) := by
  induction xs generalizing x with
  | nil => exact h
  | cons y ys ih => exact ih (hf x y h)

theorem map_modify {α β : Type} {g : α → β} {f : α → α} {n : Nat} {l : List α} (h : ∀ x, g (f x) = g x) :
    (l.modify n f).map g = l.map g := by
  induction l generalizing n with
  | nil => cases n <;> rfl
  | cons x l ih => cases n with
    | zero => simp [List.modify, h]
    | succ n => simp [ih]

/-- A component of every partition is the same in two lists of partitions. -/
def sameParts (xs ys : List PartSt) : Item → Prop
  | .pConfig => ys.map (·.present) = xs.map (·.present) ∧ ys.map (·.clusters) = xs.map (·.clusters) ∧
     ys.map (·.scratch) = xs.map (·.scratch) ∧ ys.map (·.borrow) = xs.map (·.borrow) ∧
     ys.map (·.hbmShare) = xs.map (·.hbmShare) ∧ ys.map (·.meshShare) = xs.map (·.meshShare) ∧
     ys.map (·.granules) = xs.map (·.granules) ∧ ys.map (·.qpQuota) = xs.map (·.qpQuota)
  | .pMode => ys.map (·.modeWord) = xs.map (·.modeWord) ∧ ys.map (·.modeLock) = xs.map (·.modeLock)
  | .pFeats => ys.map (·.feats) = xs.map (·.feats)
  | .pMem => ys.map (·.mem) = xs.map (·.mem)
  | .pScratch => ys.map (·.scratchMem) = xs.map (·.scratchMem) ∧ ys.map (·.scratchPoison) = xs.map (·.scratchPoison)
  | .pUses => ys.map (·.scratchUses) = xs.map (·.scratchUses)
  | .pHolds => ys.map (·.payHolds) = xs.map (·.payHolds)
  | .pKey => ys.map (·.hbmKey) = xs.map (·.hbmKey)
  | .pColls => ys.map (·.colls) = xs.map (·.colls)
  | .pJournal => ys.map (·.journal) = xs.map (·.journal)
  | .pDeclared => ys.map (·.declared) = xs.map (·.declared)
  | .pShadows => ys.map (·.shadows) = xs.map (·.shadows)
  | .pAcct => ys.map (·.acct) = xs.map (·.acct)
  | .pWindows => ys.map (·.windows) = xs.map (·.windows)
  | .pRegs => ys.map (·.regs) = xs.map (·.regs)
  | .pSched => ys.map (·.stopped) = xs.map (·.stopped) ∧ ys.map (·.headSince) = xs.map (·.headSince) ∧
     ys.map (·.headCid) = xs.map (·.headCid)
  | .pHot => ys.map (·.hotAt) = xs.map (·.hotAt) ∧ ys.map (·.hotCounts) = xs.map (·.hotCounts) ∧
     ys.map (·.accesses) = xs.map (·.accesses)
  | _ => True

def partsOnly (l : List Item) (xs ys : List PartSt) : Prop := ∀ i, i ∉ l → sameParts xs ys i

theorem parts_refl {l : List Item} {xs : List PartSt} : partsOnly l xs xs := fun i _ => by cases i <;> simp [sameParts]

/-- Partitions changed one by one: what each keeps, the list keeps. -/
theorem parts_of {l : List Item} {xs ys : List PartSt} {f : PartSt → PartSt}
    (hm : ∀ {β : Type} (g : PartSt → β), (∀ x, g (f x) = g x) → ys.map g = xs.map g)
    (hf : ∀ x, partOnly l x (f x)) : partsOnly l xs ys := by
  intro i hi
  have hp : ∀ x, samePart x (f x) i := fun x => hf x i hi
  cases i <;> simp only [samePart, sameParts] at hp ⊢ <;> first | exact hm _ hp | skip
  all_goals first
    | exact ⟨hm _ fun x => (hp x).1, hm _ fun x => (hp x).2⟩
    | exact ⟨hm _ fun x => (hp x).1, hm _ fun x => (hp x).2.1, hm _ fun x => (hp x).2.2⟩
    | exact ⟨hm _ fun x => (hp x).1, hm _ fun x => (hp x).2.1, hm _ fun x => (hp x).2.2.1, hm _ fun x => (hp x).2.2.2.1,
     hm _ fun x => (hp x).2.2.2.2.1, hm _ fun x => (hp x).2.2.2.2.2.1, hm _ fun x => (hp x).2.2.2.2.2.2.1,
     hm _ fun x => (hp x).2.2.2.2.2.2.2⟩

theorem parts_modify {l : List Item} {xs : List PartSt} {n : Nat} {f : PartSt → PartSt} (hf : ∀ x, partOnly l x (f x)) :
    partsOnly l xs (xs.modify n f) := parts_of (fun _ hg => map_modify hg) hf

theorem parts_map {l : List Item} {xs : List PartSt} {f : PartSt → PartSt} (hf : ∀ x, partOnly l x (f x)) :
    partsOnly l xs (xs.map f) := parts_of (fun g hg => by simp [Function.comp_def, hg]) hf

theorem parts_mapIdx {l : List Item} {xs : List PartSt} {f : Nat → PartSt → PartSt} (hf : ∀ n x, partOnly l x (f n x)) :
    partsOnly l xs (xs.mapIdx f) := by
  have key : ∀ {β : Type} (g : PartSt → β), (∀ n x, g (f n x) = g x) → (xs.mapIdx f).map g = xs.map g := fun g hg => by
    apply List.ext_getElem <;> simp [hg]
  intro i hi
  have hp : ∀ n x, samePart x (f n x) i := fun n x => hf n x i hi
  have hm := @key
  cases i <;> simp only [samePart, sameParts] at hp ⊢ <;> first | exact hm _ hp | skip
  all_goals first
    | exact ⟨hm _ fun n x => (hp n x).1, hm _ fun n x => (hp n x).2⟩
    | exact ⟨hm _ fun n x => (hp n x).1, hm _ fun n x => (hp n x).2.1, hm _ fun n x => (hp n x).2.2⟩
    | exact ⟨hm _ fun n x => (hp n x).1, hm _ fun n x => (hp n x).2.1, hm _ fun n x => (hp n x).2.2.1,
     hm _ fun n x => (hp n x).2.2.2.1, hm _ fun n x => (hp n x).2.2.2.2.1, hm _ fun n x => (hp n x).2.2.2.2.2.1,
     hm _ fun n x => (hp n x).2.2.2.2.2.2.1, hm _ fun n x => (hp n x).2.2.2.2.2.2.2⟩

/-- Every item of a partition is listed. -/
theorem part_all {l : List Item} {x y : PartSt} (h : incl [.pConfig, .pMode, .pFeats, .pMem, .pScratch, .pUses, .pHolds, .pKey, .pColls, .pJournal, .pDeclared, .pShadows, .pAcct, .pWindows, .pRegs, .pSched, .pHot] l = true) : partOnly l x y := by
  intro i hi
  have hs := @mem_of_incl _ l h
  cases i <;> first | trivial | exact absurd (hs (by decide)) hi

theorem parts_all {l : List Item} {xs ys : List PartSt} (h : incl [.pConfig, .pMode, .pFeats, .pMem, .pScratch, .pUses, .pHolds, .pKey, .pColls, .pJournal, .pDeclared, .pShadows, .pAcct, .pWindows, .pRegs, .pSched, .pHot] l = true) :
    partsOnly l xs ys := by
  intro i hi
  have hs := @mem_of_incl _ l h
  cases i <;> first | trivial | exact absurd (hs (by decide)) hi

/-- Other partitions in a state that is framed. -/
theorem only_withParts {l : List Item} {s0 s : State} {ys : List PartSt} (h : changesOnly l s0 s) (hp : partsOnly l s.parts ys) :
    changesOnly l s0 { s with parts := ys } := by
  refine only_trans h (fun i hi => ?_) (incl_self l)
  have := hp i hi
  cases i <;> simp only [sameParts, Item.same] at this ⊢ <;> first | exact this | (repeat' constructor)

theorem only_modPart {l : List Item} {s0 s : State} {p : PartNo} {f : PartSt → PartSt} (h : changesOnly l s0 s)
    (hf : ∀ x, partOnly l x (f x)) : changesOnly l s0 (s.modPart p f) := only_withParts h (parts_modify hf)

theorem only_mapParts {l : List Item} {s0 s : State} {f : PartSt → PartSt} (h : changesOnly l s0 s)
    (hf : ∀ x, partOnly l x (f x)) : changesOnly l s0 { s with parts := s.parts.map f } := only_withParts h (parts_map hf)

/-- Another record after a state that is framed: what differs is listed. -/
theorem only_put {l : List Item} {s0 t u : State} (h : changesOnly l s0 t) (hu : changesOnly l t u) : changesOnly l s0 u :=
  only_trans h hu (incl_self l)

/-- A record made from a state by naming every field but the last. -/
def putAll (t : State) (a0 : TimeSt) (a1 : PkgSt) (a2 : FwSt) (a3 : SecSt) (a4 : RasSt) (a5 : HifSt) (a6 : List FnSt) (a7 : List Pair) (a8 : Nat) (a9 : List (Nat × Nat)) (a10 : Nat) (a11 : List Cmd) (a12 : Nat) (a13 : Nat) (a14 : List LockEntry) (a15 : List PartSt) (a16 : List Ctx) (a17 : List (Nat × BitVec 8)) (a18 : List Stream) (a19 : List Ristretto) (a20 : List Semaphore) (a21 : List (Fn × Option Nat × Nat)) (a22 : Word32) (a23 : HbmSt) (a24 : SlmSt) (a25 : MeshSt) (a26 : PowerSt) (a27 : List Test) (a28 : List Out) (a29 : Nat) : State :=
  State.mk a0 a1 a2 a3 a4 a5 a6 a7 a8 a9 a10 a11 a12 a13 a14 a15 a16 a17 a18 a19 a20 a21 a22 a23 a24 a25 a26 a27 a28 a29 t.pending

/-- A record update names the state it updates: the state is read off the last field. -/
theorem mk_put (t : State) {a0 a1 a2 a3 a4 a5 a6 a7 a8 a9 a10 a11 a12 a13 a14 a15 a16 a17 a18 a19 a20 a21 a22 a23 a24 a25 a26 a27 a28 a29} : State.mk a0 a1 a2 a3 a4 a5 a6 a7 a8 a9 a10 a11 a12 a13 a14 a15 a16 a17 a18 a19 a20 a21 a22 a23 a24 a25 a26 a27 a28 a29 t.pending = putAll t a0 a1 a2 a3 a4 a5 a6 a7 a8 a9 a10 a11 a12 a13 a14 a15 a16 a17 a18 a19 a20 a21 a22 a23 a24 a25 a26 a27 a28 a29 := rfl

/-- A record update of a state that is framed. -/
theorem only_mk {l : List Item} {s0 : State} {t : State} {a0 a1 a2 a3 a4 a5 a6 a7 a8 a9 a10 a11 a12 a13 a14 a15 a16 a17 a18 a19 a20 a21 a22 a23 a24 a25 a26 a27 a28 a29}
    (c0 : partsOnly l t.parts a15)
    (c1 : a0 = t.time ∨ Item.time ∈ l)
    (c2 : a1 = t.pkg ∨ Item.pkg ∈ l)
    (c3 : a2 = t.fw ∨ Item.fw ∈ l)
    (c4 : a3.fuses = t.sec.fuses ∨ Item.fuses ∈ l)
    (c5 : (a3.debugState = t.sec.debugState ∧ a3.nonce = t.sec.nonce ∧ a3.debugPending = t.sec.debugPending) ∨ Item.debug ∈ l)
    (c6 : (a3.peerFlags = t.sec.peerFlags ∧ a3.peerTags = t.sec.peerTags) ∨ Item.policy ∈ l)
    (c7 : (a3.reserveKey = t.sec.reserveKey ∧ a3.keyCount = t.sec.keyCount) ∨ Item.keys ∈ l)
    (c8 : (a3.ideProgrammed = t.sec.ideProgrammed ∧ a3.ideSecure = t.sec.ideSecure) ∨ Item.ide ∈ l)
    (c9 : (a4.log = t.ras.log ∧ a4.nextSeq = t.ras.nextSeq ∧ a4.written = t.ras.written ∧ a4.overwrittenOf = t.ras.overwrittenOf) ∨ Item.rasLog ∈ l)
    (c10 : a4.cores = t.ras.cores ∨ Item.cores ∈ l)
    (c11 : a4.clusters = t.ras.clusters ∨ Item.clusters ∈ l)
    (c12 : (a4.bypasses = t.ras.bypasses ∧ a4.escalations = t.ras.escalations ∧ a4.unavail = t.ras.unavail ∧ a4.unavailSince = t.ras.unavailSince ∧ a4.deviceOpen = t.ras.deviceOpen) ∨ Item.rasCounts ∈ l)
    (c13 : a5 = t.hif ∨ Item.hif ∈ l)
    (c14 : a6 = t.fns ∨ Item.fns ∈ l)
    (c15 : a7 = t.pairs ∨ Item.pairs ∈ l)
    (c16 : (a8 = t.rrPart ∧ a9 = t.rrLast ∧ a10 = t.turnLeft) ∨ Item.turn ∈ l)
    (c17 : a11 = t.cmds ∨ Item.cmds ∈ l)
    (c18 : (a12 = t.nextCid ∧ a13 = t.nextAdmit) ∨ Item.nextCid ∈ l)
    (c19 : a14 = t.locks ∨ Item.locks ∈ l)
    (c20 : a16 = t.ctxs ∨ Item.ctxs ∈ l)
    (c21 : a17 = t.incarnations ∨ Item.incarnations ∈ l)
    (c22 : a18 = t.streams ∨ Item.streams ∈ l)
    (c23 : a19 = t.ristretto ∨ Item.ristretto ∈ l)
    (c24 : a20 = t.semaphores ∨ Item.semaphores ∈ l)
    (c25 : a21 = t.atc ∨ Item.atc ∈ l)
    (c26 : a22 = t.devMode ∨ Item.devMode ∈ l)
    (c27 : a23.channels = t.hbm.channels ∨ Item.channels ∈ l)
    (c28 : a23.stackSt = t.hbm.stackSt ∨ Item.stacks ∈ l)
    (c29 : a23.poison = t.hbm.poison ∨ Item.poison ∈ l)
    (c30 : (a23.corrTotal = t.hbm.corrTotal ∧ a23.uncorrTotal = t.hbm.uncorrTotal) ∨ Item.hbmTotals ∈ l)
    (c31 : (a23.thermThreshold = t.hbm.thermThreshold ∧ a23.scrubPeriod = t.hbm.scrubPeriod) ∨ Item.hbmCtrl ∈ l)
    (c32 : (a23.scrubRow = t.hbm.scrubRow ∧ a23.scrubActive = t.hbm.scrubActive ∧ a23.initDone = t.hbm.initDone ∧ a23.selfRefresh = t.hbm.selfRefresh) ∨ Item.hbmRun ∈ l)
    (c33 : a24 = t.slm ∨ Item.slm ∈ l)
    (c34 : (a25.deviceId = t.mesh.deviceId ∧ a25.enable = t.mesh.enable ∧ a25.resendUs = t.mesh.resendUs) ∨ Item.meshCtrl ∈ l)
    (c35 : (a25.ttlDrops = t.mesh.ttlDrops ∧ a25.nextTag = t.mesh.nextTag) ∨ Item.meshCount ∈ l)
    (c36 : a25.ports = t.mesh.ports ∨ Item.ports ∈ l)
    (c37 : (a25.shadowRoutes = t.mesh.shadowRoutes ∧ a25.routes = t.mesh.routes) ∨ Item.routes ∈ l)
    (c38 : a25.peers = t.mesh.peers ∨ Item.peers ∈ l)
    (c39 : (a25.refId = t.mesh.refId ∧ a25.refHops = t.mesh.refHops ∧ a25.refLocked = t.mesh.refLocked ∧ a25.isRef = t.mesh.isRef ∧ a25.parent = t.mesh.parent) ∨ Item.meshRef ∈ l)
    (c40 : (a25.barriers = t.mesh.barriers ∧ a25.chains = t.mesh.chains) ∨ Item.barriers ∈ l)
    (c41 : a25.transit = t.mesh.transit ∨ Item.transit ∈ l)
    (c42 : a26 = t.power ∨ Item.power ∈ l)
    (c43 : a27 = t.tests ∨ Item.tests ∈ l)
    (c44 : a28 = t.out ∨ Item.out ∈ l)
    (c45 : a29 = t.fresh ∨ Item.fresh ∈ l)
    (h : changesOnly l s0 t) : changesOnly l s0 (putAll t a0 a1 a2 a3 a4 a5 a6 a7 a8 a9 a10 a11 a12 a13 a14 a15 a16 a17 a18 a19 a20 a21 a22 a23 a24 a25 a26 a27 a28 a29) := by
  refine only_put h fun i hi => ?_
  cases i <;> simp only [Item.same, putAll] <;> first | exact c0 _ hi | exact Or.resolve_right (by assumption) hi

/-- A record update of a partition that is framed: the partition is read off the field of its windows. -/
theorem part_mk {l : List Item} {x0 : PartSt} (t : PartSt) {a0 a1 a2 a3 a4 a5 a6 a7 a8 a9 a10 a11 a12 a13 a14 a15 a16 a17 a18 a19 a20 a21 a23 a24 a25 a26 a27 a28 a29}
    (c0 : (a0 = t.present ∧ a1 = t.clusters ∧ a2 = t.scratch ∧ a3 = t.borrow ∧ a4 = t.hbmShare ∧ a5 = t.meshShare ∧ a6 = t.granules ∧ a7 = t.qpQuota) ∨ Item.pConfig ∈ l)
    (c1 : (a8 = t.modeWord ∧ a9 = t.modeLock) ∨ Item.pMode ∈ l)
    (c2 : a10 = t.feats ∨ Item.pFeats ∈ l)
    (c3 : a11 = t.mem ∨ Item.pMem ∈ l)
    (c4 : (a12 = t.scratchMem ∧ a13 = t.scratchPoison) ∨ Item.pScratch ∈ l)
    (c5 : a14 = t.scratchUses ∨ Item.pUses ∈ l)
    (c6 : a20 = t.payHolds ∨ Item.pHolds ∈ l)
    (c7 : a15 = t.hbmKey ∨ Item.pKey ∈ l)
    (c8 : a16 = t.colls ∨ Item.pColls ∈ l)
    (c9 : a17 = t.journal ∨ Item.pJournal ∈ l)
    (c10 : a18 = t.declared ∨ Item.pDeclared ∈ l)
    (c11 : a19 = t.shadows ∨ Item.pShadows ∈ l)
    (c12 : a21 = t.acct ∨ Item.pAcct ∈ l)
    (c13 : a23 = t.regs ∨ Item.pRegs ∈ l)
    (c14 : (a24 = t.stopped ∧ a25 = t.headSince ∧ a26 = t.headCid) ∨ Item.pSched ∈ l)
    (c15 : (a27 = t.hotAt ∧ a28 = t.hotCounts ∧ a29 = t.accesses) ∨ Item.pHot ∈ l)
    (h : partOnly l x0 t) : partOnly l x0 (PartSt.mk a0 a1 a2 a3 a4 a5 a6 a7 a8 a9 a10 a11 a12 a13 a14 a15 a16 a17 a18 a19 a20 a21 t.windows a23 a24 a25 a26 a27 a28 a29) := by
  refine part_trans h (fun i hi => ?_) (incl_self l)
  cases i <;> simp only [samePart] <;> exact Or.resolve_right (by assumption) hi


end Sys2Proof.Laws
end

