-- ==== Sys2Proof/Laws/Memory.lean ====
section
/-! SUPPORT. Byte spaces: a read after a write, and that every operation keeps the canonical form. -/

namespace Sys2Proof.Machine

theorem mem_insertCell {a : Nat} {b : Byte} {l : List Host.Cell} {c : Host.Cell} (h : c ∈ insertCell a b l) :
    c = (a, b) ∨ c ∈ l := by
  induction l with
  | nil => simpa [insertCell] using h
  | cons d l ih =>
    unfold insertCell at h
    split at h
    · simpa using h
    · split at h
      · rcases List.mem_cons.mp h with h | h
        · exact .inl h
        · exact .inr (List.mem_cons_of_mem _ h)
      · rcases List.mem_cons.mp h with h | h
        · exact .inr (h ▸ List.mem_cons_self ..)
        · exact (ih h).imp id (List.mem_cons_of_mem _)

theorem mem_insertCell_addr {a : Nat} {b : Byte} {l : List Host.Cell} (hs : l.Pairwise fun c d => c.1 < d.1) {c : Host.Cell}
    (h : c ∈ insertCell a b l) : c = (a, b) ∨ (c ∈ l ∧ c.1 ≠ a) := by
  induction l with
  | nil => exact .inl (by simpa [insertCell] using h)
  | cons d l ih =>
    have hd := List.pairwise_cons.mp hs
    unfold insertCell at h
    split at h
    · rename_i hlt
      rcases List.mem_cons.mp h with h | h
      · exact .inl h
      · refine .inr ⟨h, ?_⟩
        rcases List.mem_cons.mp h with rfl | h
        · omega
        · have := hd.1 c h; omega
    · split at h
      · rename_i hge heq
        rcases List.mem_cons.mp h with h | h
        · exact .inl h
        · exact .inr ⟨List.mem_cons_of_mem _ h, by have := hd.1 c h; omega⟩
      · rename_i hge hne
        rcases List.mem_cons.mp h with rfl | h
        · exact .inr ⟨List.mem_cons_self .., fun e => hne e.symm⟩
        · exact (ih hd.2 h).imp id fun k => ⟨List.mem_cons_of_mem _ k.1, k.2⟩

theorem insertCell_sorted {a : Nat} {b : Byte} {l : List Host.Cell} (hs : l.Pairwise fun c d => c.1 < d.1) :
    (insertCell a b l).Pairwise fun c d => c.1 < d.1 := by
  induction l with
  | nil => exact List.pairwise_singleton _ _
  | cons d l ih =>
    have hd := List.pairwise_cons.mp hs
    unfold insertCell
    split
    · rename_i hlt
      refine List.pairwise_cons.mpr ⟨fun c hc => ?_, hs⟩
      rcases List.mem_cons.mp hc with rfl | hc
      · exact hlt
      · exact Nat.lt_trans hlt (hd.1 c hc)
    · split
      · rename_i heq
        exact List.pairwise_cons.mpr ⟨fun c hc => heq ▸ hd.1 c hc, hd.2⟩
      · rename_i hge hne
        refine List.pairwise_cons.mpr ⟨fun c hc => ?_, ih hd.2⟩
        rcases mem_insertCell hc with rfl | hc
        · show d.1 < a; omega
        · exact hd.1 c hc

/-- A byte written keeps the canonical form. -/
theorem Mem.put_wf {m : Mem} {a : Nat} {b : Byte} (h : m.wf) : (m.put a b).wf := by
  unfold Mem.put
  split
  · exact ⟨h.1.filter _, fun c hc => h.2 c (List.mem_filter.mp hc).1⟩
  · rename_i hne
    refine ⟨insertCell_sorted h.1, fun c hc => ?_⟩
    rcases mem_insertCell hc with rfl | hc
    · exact hne
    · exact h.2 c hc

/-- Bytes written keep the canonical form. -/
theorem Mem.write_wf {m : Mem} {a : Nat} {bs : Bytes} (h : m.wf) : (m.write a bs).wf := by
  induction bs generalizing m a with
  | nil => exact h
  | cons b bs ih => exact ih (Mem.put_wf h)

/-- An initialised range keeps the canonical form. -/
theorem Mem.init_wf {m : Mem} {lo hi : Nat} {f : Fill} (h : m.wf) : (m.init lo hi f).wf := by
  refine ⟨h.1.filter _, fun c hc => ?_⟩
  have hc := List.mem_filter.mp hc
  have hd : (m.init lo hi f).default c.1 = m.default c.1 := by
    have : ¬(lo ≤ c.1 ∧ c.1 < hi) := fun k => by simp [k.1, k.2] at hc
    unfold Mem.default Mem.init
    rw [List.find?_cons_of_neg (by simpa using this)]
  rw [hd]
  exact h.2 c hc.1

theorem lookup_eraseCell {a : Nat} {l : List Host.Cell} : (eraseCell a l).lookup a = none := by
  induction l with
  | nil => rfl
  | cons c l ih =>
    unfold eraseCell at *
    by_cases hc : c.1 = a
    · rw [List.filter_cons_of_neg (by simp [hc])]; exact ih
    · have hb : (a == c.1) = false := by simpa using fun e => hc e.symm
      rw [List.filter_cons_of_pos (by simp [hc])]
      show (match a == c.1 with | true => some c.2 | false => List.lookup a (l.filter fun c => c.1 != a)) = none
      rw [hb]; exact ih

theorem lookup_eraseCell_other {a x : Nat} (hx : x ≠ a) {l : List Host.Cell} : (eraseCell a l).lookup x = l.lookup x := by
  induction l with
  | nil => rfl
  | cons c l ih =>
    unfold eraseCell at *
    by_cases hc : c.1 = a
    · have hb : (x == c.1) = false := by simpa [hc] using hx
      rw [List.filter_cons_of_neg (by simp [hc]), ih]
      show _ = (match x == c.1 with | true => some c.2 | false => List.lookup x l)
      rw [hb]
    · rw [List.filter_cons_of_pos (by simp [hc])]
      show (match x == c.1 with | true => some c.2 | false => List.lookup x (l.filter fun c => c.1 != a)) =
        (match x == c.1 with | true => some c.2 | false => List.lookup x l)
      rw [ih]

/-- A byte written is the byte read (the canonical form is not needed for it). -/
theorem Mem.get_put_self {m : Mem} {a : Nat} {b : Byte} : (m.put a b).get a = some b := by
  unfold Mem.put
  split
  · rename_i h
    have : (eraseCell a m.cells).lookup a = none := lookup_eraseCell
    unfold Mem.get
    simp only [this]
    exact h
  · have : (insertCell a b m.cells).lookup a = some b := by
      induction m.cells with
      | nil => simp [insertCell]
      | cons c l ih =>
        unfold insertCell
        split
        · simp
        · split
          · simp
          · rename_i hge hne
            have hb : (a == c.1) = false := by simpa using hne
            rw [List.lookup_cons, hb]
            exact ih
    unfold Mem.get
    simp only [this]

/-- A byte written leaves every other address as it was. -/
theorem Mem.get_put_other {m : Mem} {a x : Nat} {b : Byte} (hx : x ≠ a) : (m.put a b).get x = m.get x := by
  have hd : (m.put a b).default x = m.default x := by unfold Mem.put; split <;> rfl
  have hl : (m.put a b).cells.lookup x = m.cells.lookup x := by
    unfold Mem.put
    split
    · exact lookup_eraseCell_other hx
    · show (insertCell a b m.cells).lookup x = _
      have hb : (x == a) = false := by simpa using hx
      induction m.cells with
      | nil => simp [insertCell, List.lookup_cons, hb]
      | cons c l ih =>
        unfold insertCell
        split
        · rw [List.lookup_cons, hb]
        · split
          · rename_i hge heq
            rw [List.lookup_cons, List.lookup_cons, hb, ← heq, hb]
          · rw [List.lookup_cons, List.lookup_cons, ih]
  unfold Mem.get
  rw [hl, hd]

/-- Bytes written leave every address outside them as it was. -/
theorem Mem.get_write_other {m : Mem} {a x : Nat} {bs : Bytes} (h : x < a ∨ a + bs.length ≤ x) : (m.write a bs).get x = m.get x := by
  induction bs generalizing m a with
  | nil => rfl
  | cons b bs ih =>
    have hl : (b :: bs).length = bs.length + 1 := rfl
    rw [hl] at h
    show ((m.put a b).write (a + 1) bs).get x = m.get x
    rw [ih (by omega), Mem.get_put_other (by omega)]

/-- Bytes written are the bytes read. -/
theorem Mem.get_write {m : Mem} {a i : Nat} {bs : Bytes} (h : i < bs.length) : (m.write a bs).get (a + i) = some (bs[i]'h) := by
  induction bs generalizing m a i with
  | nil => cases h
  | cons b bs ih =>
    show ((m.put a b).write (a + 1) bs).get (a + i) = _
    cases i with
    | zero => rw [Mem.get_write_other (by omega)]; exact Mem.get_put_self
    | succ i =>
      have h' : i < bs.length := by simpa using h
      have e : a + (i + 1) = a + 1 + i := by omega
      rw [e, ih h']
      simp

end Sys2Proof.Machine
end

