-- ==== Sys2Proof/Laws/Keeps.lean ====
section
/-! SUPPORT. The invariant `sound` and the fuses: how keeping them composes over the operations. -/

namespace Sys2Proof.Laws

open Sys2Proof.Machine Sys2Proof.Safety

theorem fusesKept_refl (f : Fuses) : fusesKept f f := ⟨fun _ h => h, fun h => h, Nat.le_refl _, fun _ h => h⟩

theorem fusesKept_trans {f g h : Fuses} (a : fusesKept f g) (b : fusesKept g h) : fusesKept f h :=
  ⟨fun k x => b.1 k (a.1 k x), fun x => b.2.1 (a.2.1 x), Nat.le_trans a.2.2.1 b.2.2.1, fun c x => b.2.2.2 c (a.2.2.2 c x)⟩

/-- What every operation keeps: no fuse is cleared, and a sound state stays sound. -/
def keeps (s t : State) : Prop := fusesKept s.sec.fuses t.sec.fuses ∧ (sound s → sound t)

theorem keeps_refl {s : State} : keeps s s := ⟨fusesKept_refl _, fun h => h⟩

theorem keeps_trans {s t u : State} (a : keeps s t) (b : keeps t u) : keeps s u :=
  ⟨fusesKept_trans a.1 b.1, fun h => b.2 (a.2 h)⟩

theorem keeps_foldl {α : Type} {s0 s : State} {f : State → α → State} {xs : List α} (h : keeps s0 s)
    (hf : ∀ a x, keeps s0 a → keeps s0 (f a x)) : keeps s0 (xs.foldl f s) := by
  induction xs generalizing s with
  | nil => exact h
  | cons x xs ih => exact ih (hf s x h)

theorem keeps_foldl_fst {α β : Type} {s0 : State} {b : State × β} {f : State × β → α → State × β} {xs : List α}
    (h : keeps s0 b.1) (hf : ∀ a x, keeps s0 a.1 → keeps s0 (f a x).1) : keeps s0 (xs.foldl f b).1 := by
  induction xs generalizing b with
  | nil => exact h
  | cons x xs ih => exact ih (hf b x h)

theorem keeps_ite {s0 a b : State} {c : Prop} [Decidable c] (ha : keeps s0 a) (hb : keeps s0 b) :
    keeps s0 (if c then a else b) := by split <;> assumption

theorem keeps_ite_fst {β : Type} {s0 : State} {a b : State × β} {c : Prop} [Decidable c] (ha : keeps s0 a.1) (hb : keeps s0 b.1) :
    keeps s0 (if c then a else b).1 := by split <;> assumption

theorem keeps_pair {β : Type} {s0 t : State} {b : β} {e : State × β} (h : e = (t, b)) (he : keeps s0 e.1) : keeps s0 t := by
  subst h; exact he

theorem keeps_getD {s0 d : State} {o : Option State} (h : ∀ t, o = some t → keeps s0 t) (hd : keeps s0 d) :
    keeps s0 (o.getD d) := by
  cases o with
  | none => exact hd
  | some t => exact h t rfl

/-- The canonical form of a partition's byte spaces. -/
def pOk (x : PartSt) : Prop := x.mem.wf ∧ x.scratchMem.wf

def pKeeps (x y : PartSt) : Prop := pOk x → pOk y

theorem pKeeps_refl {x : PartSt} : pKeeps x x := fun h => h

theorem pKeeps_ite {x0 a b : PartSt} {c : Prop} [Decidable c] (ha : pKeeps x0 a) (hb : pKeeps x0 b) :
    pKeeps x0 (if c then a else b) := by split <;> assumption

theorem pKeeps_foldl {α : Type} {x0 x : PartSt} {f : PartSt → α → PartSt} {xs : List α} (h : pKeeps x0 x)
    (hf : ∀ a y, pKeeps x0 a → pKeeps x0 (f a y)) : pKeeps x0 (xs.foldl f x) := by
  induction xs generalizing x with
  | nil => exact h
  | cons y ys ih => exact ih (hf x y h)

def memKeeps (m n : Mem) : Prop := m.wf → n.wf

theorem memKeeps_refl {m : Mem} : memKeeps m m := fun h => h
theorem memKeeps_write {m n : Mem} {a : Nat} {bs : Bytes} (h : memKeeps m n) : memKeeps m (n.write a bs) :=
  fun k => Mem.write_wf (h k)
theorem memKeeps_init {m n : Mem} {lo hi : Nat} {f : Fill} (h : memKeeps m n) : memKeeps m (n.init lo hi f) :=
  fun k => Mem.init_wf (h k)
theorem memKeeps_empty {m : Mem} {e : List Extent} : memKeeps m { cells := [], extents := e } :=
  fun _ => ⟨List.Pairwise.nil, fun c h => by cases h⟩
theorem memKeeps_scratch {m : Mem} : memKeeps m Mem.scratch := memKeeps_empty

theorem pKeeps_mk {x0 : PartSt} (t : PartSt) {a0 a1 a2 a3 a4 a5 a6 a7 a8 a9 a10 a11 a12 a13 a14 a15 a16 a17 a18 a19 a20 a21 a23 a24 a25 a26 a27 a28 a29} (c0 : memKeeps t.mem a11)
    (c1 : memKeeps t.scratchMem a12) (h : pKeeps x0 t) :
    pKeeps x0 (PartSt.mk a0 a1 a2 a3 a4 a5 a6 a7 a8 a9 a10 a11 a12 a13 a14 a15 a16 a17 a18 a19 a20 a21 t.windows a23 a24 a25 a26 a27 a28 a29) := fun k => ⟨c0 (h k).1, c1 (h k).2⟩

theorem pKeeps_new {x y : PartSt} (hm : y.mem = {}) (hs : y.scratchMem = Mem.scratch) : pKeeps x y := by
  intro _
  rw [pOk, hm, hs]
  exact ⟨⟨List.Pairwise.nil, fun c h => by cases h⟩, ⟨List.Pairwise.nil, fun c h => by cases h⟩⟩

def partsKeep (xs ys : List PartSt) : Prop := (xs.length = 16 → ys.length = 16) ∧ ((∀ x ∈ xs, pOk x) → ∀ y ∈ ys, pOk y)

theorem partsKeep_refl {xs : List PartSt} : partsKeep xs xs := ⟨fun h => h, fun h => h⟩

theorem partsKeep_mapIdx {xs : List PartSt} {f : Nat → PartSt → PartSt} (hf : ∀ n x, pKeeps x (f n x)) :
    partsKeep xs (xs.mapIdx f) := by
  refine ⟨fun h => by simp [h], fun h y hy => ?_⟩
  obtain ⟨i, hi, rfl⟩ := List.mem_iff_getElem.mp hy
  rw [List.getElem_mapIdx]
  exact hf _ _ (h _ (List.getElem_mem _))

theorem partsKeep_map {xs : List PartSt} {f : PartSt → PartSt} (hf : ∀ x, pKeeps x (f x)) : partsKeep xs (xs.map f) := by
  refine ⟨fun h => by simp [h], fun h y hy => ?_⟩
  obtain ⟨x, hx, rfl⟩ := List.mem_map.mp hy
  exact hf x (h x hx)

theorem partsKeep_modify {xs : List PartSt} {n : Nat} {f : PartSt → PartSt} (hf : ∀ x, pKeeps x (f x)) :
    partsKeep xs (xs.modify n f) := by
  refine ⟨fun h => by simp [h], fun h => ?_⟩
  induction xs generalizing n with
  | nil => cases n <;> simp
  | cons x xs ih => cases n with
    | zero =>
      intro y hy
      rcases List.mem_cons.mp (by simpa using hy) with rfl | hy
      · exact hf x (h x (List.mem_cons_self ..))
      · exact h y (List.mem_cons_of_mem _ hy)
    | succ n =>
      intro y hy
      rcases List.mem_cons.mp (by simpa using hy) with rfl | hy
      · exact h y (List.mem_cons_self ..)
      · exact ih (fun z hz => h z (List.mem_cons_of_mem _ hz)) y hy

theorem partsKeep_fresh {xs : List PartSt} : partsKeep xs (List.replicate 16 {}) :=
  ⟨fun _ => rfl, fun _ y hy => by
    rw [List.eq_of_mem_replicate hy]
    exact ⟨(memKeeps_empty (m := {}) ⟨List.Pairwise.nil, fun c h => by cases h⟩), memKeeps_scratch (m := {}) ⟨List.Pairwise.nil, fun c h => by cases h⟩⟩⟩

/-- The sizes and the bound that the error and repair record keeps. -/
def rasKeep (x y : RasSt) : Prop :=
  (x.cores.length = 144 → y.cores.length = 144) ∧ (x.clusters.length = 16 → y.clusters.length = 16) ∧
  (x.overwrittenOf.length = 16 → y.overwrittenOf.length = 16) ∧ (x.unavail.length = 16 → y.unavail.length = 16) ∧
  (x.unavailSince.length = 16 → y.unavailSince.length = 16) ∧ (x.log.length ≤ 256 → y.log.length ≤ 256)

theorem rasKeep_refl {x : RasSt} : rasKeep x x := ⟨id, id, id, id, id, id⟩

def hbmKeep (x y : HbmSt) : Prop := (x.channels.length = 256 → y.channels.length = 256) ∧ (x.stackSt.length = 8 → y.stackSt.length = 8)

theorem hbmKeep_refl {x : HbmSt} : hbmKeep x x := ⟨id, id⟩

def pkgKeep (x y : PkgSt) : Prop := (x.en.length = 5 → y.en.length = 5) ∧ (x.pg.length = 5 → y.pg.length = 5)

theorem pkgKeep_refl {x : PkgSt} : pkgKeep x x := ⟨id, id⟩

def secKeep (x y : SecSt) : Prop := fusesKept x.fuses y.fuses ∧ (secOk x → secOk y)

theorem secKeep_refl {x : SecSt} : secKeep x x := ⟨fusesKept_refl _, id⟩

theorem secKeep_of {x y : SecSt} (hf : y.fuses = x.fuses) (hd : y.debugState = x.debugState) : secKeep x y :=
  ⟨hf ▸ fusesKept_refl _, fun h => by unfold secOk; rw [hf, hd]; exact h⟩

/-- The names of the commands and the next name. -/
def namesOk (l : List Cmd) (n : Nat) : Prop := (l.map (·.id)).Nodup ∧ ∀ c ∈ l, c.id < n

def namesKeep (l : List Cmd) (n : Nat) (l' : List Cmd) (n' : Nat) : Prop := namesOk l n → namesOk l' n'

theorem namesKeep_refl {l : List Cmd} {n : Nat} : namesKeep l n l n := id

theorem namesKeep_nil {l : List Cmd} {n m : Nat} : namesKeep l n [] m := fun _ => ⟨List.nodup_nil, fun _ h => by cases h⟩

theorem namesKeep_next {l : List Cmd} {n : Nat} : namesKeep l n l (n + 1) :=
  fun h => ⟨h.1, fun c hc => Nat.lt_succ_of_lt (h.2 c hc)⟩

theorem namesKeep_map {l : List Cmd} {n : Nat} {f : Cmd → Cmd} (hf : ∀ c, (f c).id = c.id) : namesKeep l n (l.map f) n := by
  intro h
  have e : (l.map f).map (·.id) = l.map (·.id) := by
    rw [List.map_map]; exact List.map_congr_left fun c _ => hf c
  refine ⟨e ▸ h.1, fun c hc => ?_⟩
  obtain ⟨d, hd, rfl⟩ := List.mem_map.mp hc
  rw [hf]; exact h.2 d hd

theorem namesKeep_filter {l : List Cmd} {n : Nat} {f : Cmd → Bool} : namesKeep l n (l.filter f) n :=
  fun h => ⟨(h.1.sublist (List.filter_sublist.map _)), fun c hc => h.2 c (List.mem_filter.mp hc).1⟩

theorem namesKeep_add {l : List Cmd} {n : Nat} {c : Cmd} (hc : c.id = n) : namesKeep l n (l ++ [c]) (n + 1) := by
  intro h
  constructor
  · rw [List.map_append, List.nodup_append]
    refine ⟨h.1, by simp, fun a ha b hb => ?_⟩
    obtain ⟨d, hd, rfl⟩ := List.mem_map.mp ha
    have : b = n := by simpa [hc] using hb
    have := h.2 d hd
    omega
  · intro d hd
    rcases List.mem_append.mp hd with hd | hd
    · exact Nat.lt_succ_of_lt (h.2 d hd)
    · have : d = c := by simpa using hd
      subst this
      omega

theorem len_modify {α : Type} {k n : Nat} {f : α → α} {xs : List α} : xs.length = k → (xs.modify n f).length = k :=
  fun h => by rw [List.length_modify]; exact h
theorem len_map {α : Type} {k : Nat} {f : α → α} {xs : List α} : xs.length = k → (xs.map f).length = k :=
  fun h => by rw [List.length_map]; exact h
theorem len_mapIdx {α : Type} {k : Nat} {f : Nat → α → α} {xs : List α} : xs.length = k → (xs.mapIdx f).length = k :=
  fun h => by rw [List.length_mapIdx]; exact h
theorem len_set {α : Type} {k n : Nat} {a : α} {xs : List α} : xs.length = k → (xs.set n a).length = k :=
  fun h => by rw [List.length_set]; exact h

theorem keeps_mk {s0 t : State} {a0 a1 a2 a3 a4 a5 a6 a7 a8 a9 a10 a11 a12 a13 a14 a15 a16 a17 a18 a19 a20 a21 a22 a23 a24 a25 a26 a27 a28 a29}
    (cF : t.fns.length = 17 → a6.length = 17) (cP : partsKeep t.parts a15)
    (cR : rasKeep t.ras a4) (cH : hbmKeep t.hbm a23) (cM : t.mesh.ports.length = 8 → a25.ports.length = 8)
    (cK : pkgKeep t.pkg a1) (cS : secKeep t.sec a3)
    (cN : namesKeep t.cmds t.nextCid a11 a12) (h : keeps s0 t) :
    keeps s0 (putAll t a0 a1 a2 a3 a4 a5 a6 a7 a8 a9 a10 a11 a12 a13 a14 a15 a16 a17 a18 a19 a20 a21 a22 a23 a24 a25 a26 a27 a28 a29) := by
  refine keeps_trans h ⟨cS.1, fun ⟨⟨h1, h2, h3, h4, h5, h6, h7, h8, h9, h10, h11, h12⟩, hm, hl, hs, hn⟩ => ?_⟩
  exact ⟨⟨cF h1, cP.1 h2, cR.1 h3, cR.2.1 h4, cR.2.2.1 h5, cR.2.2.2.1 h6, cR.2.2.2.2.1 h7, cH.1 h8, cH.2 h9, cM h10, cK.1 h11, cK.2 h12⟩,
    cP.2 hm, cR.2.2.2.2.2 hl, cS.2 hs, cN hn⟩

theorem keeps_modPart {s0 s : State} {p : PartNo} {f : PartSt → PartSt} (h : keeps s0 s) (hf : ∀ x, pKeeps x (f x)) :
    keeps s0 (s.modPart p f) := by
  unfold State.modPart
  rw [mk_put]
  exact keeps_mk id (partsKeep_modify hf) rasKeep_refl hbmKeep_refl id pkgKeep_refl secKeep_refl namesKeep_refl h

theorem keeps_mapParts {s0 s : State} {f : PartSt → PartSt} (h : keeps s0 s) (hf : ∀ x, pKeeps x (f x)) :
    keeps s0 { s with parts := s.parts.map f } := by
  rw [mk_put]
  exact keeps_mk id (partsKeep_map hf) rasKeep_refl hbmKeep_refl id pkgKeep_refl secKeep_refl namesKeep_refl h

end Sys2Proof.Laws
end

