-- ==== Sys2Proof/Laws/Mem.lean ====
section
/-! SUPPORT. What each operation of Machine/Mem.lean may change: its frame, and that it
keeps the invariant and the fuses. -/

namespace Sys2Proof.Machine

open Sys2Proof.Safety Sys2Proof.Laws

theorem PartSt.wr_only {ls : List Item} {x0 : PartSt} {p : PartSt} {a : Nat} {bs : Bytes}
    (h0 : partOnly ls x0 p) (hm : incl [.pMem] ls = true) : partOnly ls x0 (PartSt.wr p a bs) := by
  have hs := @mem_of_incl [.pMem] ls hm
  unfold PartSt.wr
  try dsimp only
  repeat' (first
    | with_reducible assumption
    | with_reducible intro _
    | exact incl_trans rfl hm
    | with_reducible exact part_refl
    | with_reducible apply only_modPart
    | with_reducible apply part_mk
    | with_reducible apply only_mk
    | exact Or.inr (hs (by decide))
    | with_reducible exact Or.inl rfl
    | with_reducible exact parts_refl
    | (with_reducible refine Or.inl ?_; and_intros <;> with_reducible rfl))

theorem PartSt.wr_keeps {x0 : PartSt} {p : PartSt} {a : Nat} {bs : Bytes}
    (h0 : pKeeps x0 p) : pKeeps x0 (PartSt.wr p a bs) := by
  unfold PartSt.wr
  try dsimp only
  repeat' (first
    | with_reducible assumption
    | with_reducible intro _
    | with_reducible exact pKeeps_refl
    | exact pKeeps_new rfl rfl
    | with_reducible apply keeps_modPart
    | with_reducible apply pKeeps_mk
    | with_reducible exact memKeeps_refl
    | exact memKeeps_init memKeeps_refl
    | exact memKeeps_write memKeeps_refl)

theorem PartSt.sWr_only {ls : List Item} {x0 : PartSt} {p : PartSt} {a : Nat} {bs : Bytes}
    (h0 : partOnly ls x0 p) (hm : incl [.pScratch] ls = true) : partOnly ls x0 (PartSt.sWr p a bs) := by
  have hs := @mem_of_incl [.pScratch] ls hm
  unfold PartSt.sWr
  try dsimp only
  repeat' (first
    | with_reducible assumption
    | with_reducible intro _
    | exact incl_trans rfl hm
    | with_reducible exact part_refl
    | with_reducible apply only_modPart
    | with_reducible apply part_mk
    | with_reducible apply only_mk
    | exact Or.inr (hs (by decide))
    | with_reducible exact Or.inl rfl
    | with_reducible exact parts_refl
    | (with_reducible refine Or.inl ?_; and_intros <;> with_reducible rfl))

theorem PartSt.sWr_keeps {x0 : PartSt} {p : PartSt} {a : Nat} {bs : Bytes}
    (h0 : pKeeps x0 p) : pKeeps x0 (PartSt.sWr p a bs) := by
  unfold PartSt.sWr
  try dsimp only
  repeat' (first
    | with_reducible assumption
    | with_reducible intro _
    | with_reducible exact pKeeps_refl
    | exact pKeeps_new rfl rfl
    | with_reducible apply keeps_modPart
    | with_reducible apply pKeeps_mk
    | with_reducible exact memKeeps_refl
    | exact memKeeps_init memKeeps_refl
    | exact memKeeps_write memKeeps_refl)

end Sys2Proof.Machine
end

