-- ==== Sys2Proof/Laws/Ops.lean ====
section
/-! SUPPORT. What each operation of Machine/Ops.lean may change: its frame, and that it
keeps the invariant and the fuses. -/

namespace Sys2Proof.Machine

open Sys2Proof.Safety Sys2Proof.Laws

theorem State.modFn_only {ls : List Item} {s0 : State} {s : State} {fn : Fn} {f : FnSt → FnSt}
    (h0 : changesOnly ls s0 s) (hm : incl [.fns] ls = true) : changesOnly ls s0 (State.modFn s fn f) := by
  have hs := @mem_of_incl [.fns] ls hm
  unfold State.modFn
  try dsimp only
  repeat' (first
    | with_reducible assumption
    | with_reducible intro _
    | exact incl_trans rfl hm
    | with_reducible apply only_mk
    | exact Or.inr (hs (by decide))
    | with_reducible exact Or.inl rfl
    | with_reducible exact parts_refl
    | (with_reducible refine Or.inl ?_; and_intros <;> with_reducible rfl)
    | exact Or.inl rfl
    | dsimp only
    | rw [mk_put])

theorem State.modFn_keeps {s0 : State} {s : State} {fn : Fn} {f : FnSt → FnSt}
    (h0 : keeps s0 s) : keeps s0 (State.modFn s fn f) := by
  unfold State.modFn
  try dsimp only
  repeat' (first
    | with_reducible assumption
    | exact len_modify
    | exact len_map
    | exact len_mapIdx
    | with_reducible intro _
    | with_reducible apply keeps_mk
    | with_reducible exact id
    | with_reducible exact partsKeep_refl
    | with_reducible exact rasKeep_refl
    | with_reducible exact hbmKeep_refl
    | with_reducible exact pkgKeep_refl
    | with_reducible exact secKeep_refl
    | with_reducible exact namesKeep_refl
    | dsimp only
    | rw [mk_put])

theorem State.modCmd_only {ls : List Item} {s0 : State} {s : State} {cid : Nat} {f : Cmd → Cmd}
    (h0 : changesOnly ls s0 s) (hm : incl [.cmds] ls = true) : changesOnly ls s0 (State.modCmd s cid f) := by
  have hs := @mem_of_incl [.cmds] ls hm
  unfold State.modCmd
  try dsimp only
  repeat' (first
    | with_reducible assumption
    | with_reducible intro _
    | with_reducible apply only_ite
    | exact incl_trans rfl hm
    | with_reducible apply only_mk
    | exact Or.inr (hs (by decide))
    | with_reducible exact Or.inl rfl
    | with_reducible exact parts_refl
    | (with_reducible refine Or.inl ?_; and_intros <;> with_reducible rfl)
    | exact Or.inl rfl
    | dsimp only
    | rw [mk_put])

theorem State.modCmd_keeps {s0 : State} {s : State} {cid : Nat} {f : Cmd → Cmd} (h0 : keeps s0 s)
    (hf : ∀ c, c.id = cid → (f c).id = cid) : keeps s0 (State.modCmd s cid f) := by
  unfold State.modCmd
  rw [mk_put]
  refine keeps_mk id partsKeep_refl rasKeep_refl hbmKeep_refl id pkgKeep_refl secKeep_refl (namesKeep_map fun c => ?_) h0
  split
  · rename_i h
    have h : c.id = cid := by simpa using h
    rw [hf c h, h]
  · rfl

theorem State.addCmd_only {ls : List Item} {s0 : State} {s : State} {c : Cmd}
    (h0 : changesOnly ls s0 s) (hm : incl [.cmds, .nextCid] ls = true) : changesOnly ls s0 (State.addCmd s c) := by
  have hs := @mem_of_incl [.cmds, .nextCid] ls hm
  unfold State.addCmd
  try dsimp only
  repeat' (first
    | with_reducible assumption
    | with_reducible intro _
    | exact incl_trans rfl hm
    | with_reducible apply only_mk
    | exact Or.inr (hs (by decide))
    | with_reducible exact Or.inl rfl
    | with_reducible exact parts_refl
    | (with_reducible refine Or.inl ?_; and_intros <;> with_reducible rfl)
    | exact Or.inl rfl
    | dsimp only
    | rw [mk_put])

theorem State.addCmd_keeps {s0 : State} {s : State} {c : Cmd} (h0 : keeps s0 s) : keeps s0 (State.addCmd s c) := by
  unfold State.addCmd
  rw [mk_put]
  exact keeps_mk id partsKeep_refl rasKeep_refl hbmKeep_refl id pkgKeep_refl secKeep_refl (namesKeep_add rfl) h0

theorem State.modPair_only {ls : List Item} {s0 : State} {s : State} {fn : Fn} {qid : Nat} {f : Pair → Pair}
    (h0 : changesOnly ls s0 s) (hm : incl [.pairs] ls = true) : changesOnly ls s0 (State.modPair s fn qid f) := by
  have hs := @mem_of_incl [.pairs] ls hm
  unfold State.modPair
  try dsimp only
  repeat' (first
    | with_reducible assumption
    | with_reducible intro _
    | with_reducible apply only_ite
    | exact incl_trans rfl hm
    | with_reducible apply only_mk
    | exact Or.inr (hs (by decide))
    | with_reducible exact Or.inl rfl
    | with_reducible exact parts_refl
    | (with_reducible refine Or.inl ?_; and_intros <;> with_reducible rfl)
    | exact Or.inl rfl
    | dsimp only
    | rw [mk_put])

theorem State.modPair_keeps {s0 : State} {s : State} {fn : Fn} {qid : Nat} {f : Pair → Pair}
    (h0 : keeps s0 s) : keeps s0 (State.modPair s fn qid f) := by
  unfold State.modPair
  try dsimp only
  repeat' (first
    | with_reducible assumption
    | with_reducible intro _
    | with_reducible apply keeps_ite
    | with_reducible apply keeps_mk
    | with_reducible exact id
    | with_reducible exact partsKeep_refl
    | with_reducible exact rasKeep_refl
    | with_reducible exact hbmKeep_refl
    | with_reducible exact pkgKeep_refl
    | with_reducible exact secKeep_refl
    | with_reducible exact namesKeep_refl
    | dsimp only
    | rw [mk_put])

theorem PartSt.modColl_only {ls : List Item} {x0 : PartSt} {p : PartSt} {h : Nat} {f : Coll → Coll}
    (h0 : partOnly ls x0 p) (hm : incl [.pColls] ls = true) : partOnly ls x0 (PartSt.modColl p h f) := by
  have hs := @mem_of_incl [.pColls] ls hm
  unfold PartSt.modColl
  try dsimp only
  repeat' (first
    | with_reducible assumption
    | with_reducible intro _
    | with_reducible apply only_ite
    | exact incl_trans rfl hm
    | with_reducible exact part_refl
    | with_reducible apply part_ite
    | with_reducible apply only_modPart
    | with_reducible apply part_mk
    | with_reducible apply only_mk
    | exact Or.inr (hs (by decide))
    | with_reducible exact Or.inl rfl
    | with_reducible exact parts_refl
    | (with_reducible refine Or.inl ?_; and_intros <;> with_reducible rfl))

theorem PartSt.modColl_keeps {x0 : PartSt} {p : PartSt} {h : Nat} {f : Coll → Coll}
    (h0 : pKeeps x0 p) : pKeeps x0 (PartSt.modColl p h f) := by
  unfold PartSt.modColl
  try dsimp only
  repeat' (first
    | with_reducible assumption
    | with_reducible intro _
    | with_reducible apply keeps_ite
    | with_reducible exact pKeeps_refl
    | exact pKeeps_new rfl rfl
    | with_reducible apply pKeeps_ite
    | with_reducible apply keeps_modPart
    | with_reducible apply pKeeps_mk
    | with_reducible exact memKeeps_refl)

theorem State.modColl_only {ls : List Item} {s0 : State} {s : State} {p : PartNo} {h : Nat} {f : Coll → Coll}
    (h0 : changesOnly ls s0 s) (hm : incl [.pColls] ls = true) : changesOnly ls s0 (State.modColl s p h f) := by
  unfold State.modColl
  try dsimp only
  repeat' (first
    | with_reducible assumption
    | with_reducible intro _
    | with_reducible apply PartSt.modColl_only
    | exact incl_trans rfl hm
    | with_reducible exact part_refl
    | with_reducible apply only_modPart)

theorem State.modColl_keeps {s0 : State} {s : State} {p : PartNo} {h : Nat} {f : Coll → Coll}
    (h0 : keeps s0 s) : keeps s0 (State.modColl s p h f) := by
  unfold State.modColl
  try dsimp only
  repeat' (first
    | with_reducible assumption
    | with_reducible intro _
    | with_reducible apply PartSt.modColl_keeps
    | with_reducible exact pKeeps_refl
    | exact pKeeps_new rfl rfl
    | with_reducible apply keeps_modPart)

theorem PartSt.modCollU_only {ls : List Item} {x0 : PartSt} {p : PartSt} {uid : Nat} {f : Coll → Coll}
    (h0 : partOnly ls x0 p) (hm : incl [.pColls] ls = true) : partOnly ls x0 (PartSt.modCollU p uid f) := by
  have hs := @mem_of_incl [.pColls] ls hm
  unfold PartSt.modCollU
  try dsimp only
  repeat' (first
    | with_reducible assumption
    | with_reducible intro _
    | with_reducible apply only_ite
    | exact incl_trans rfl hm
    | with_reducible exact part_refl
    | with_reducible apply part_ite
    | with_reducible apply only_modPart
    | with_reducible apply part_mk
    | with_reducible apply only_mk
    | exact Or.inr (hs (by decide))
    | with_reducible exact Or.inl rfl
    | with_reducible exact parts_refl
    | (with_reducible refine Or.inl ?_; and_intros <;> with_reducible rfl))

theorem PartSt.modCollU_keeps {x0 : PartSt} {p : PartSt} {uid : Nat} {f : Coll → Coll}
    (h0 : pKeeps x0 p) : pKeeps x0 (PartSt.modCollU p uid f) := by
  unfold PartSt.modCollU
  try dsimp only
  repeat' (first
    | with_reducible assumption
    | with_reducible intro _
    | with_reducible apply keeps_ite
    | with_reducible exact pKeeps_refl
    | exact pKeeps_new rfl rfl
    | with_reducible apply pKeeps_ite
    | with_reducible apply keeps_modPart
    | with_reducible apply pKeeps_mk
    | with_reducible exact memKeeps_refl)

theorem State.modCollU_only {ls : List Item} {s0 : State} {s : State} {p : PartNo} {uid : Nat} {f : Coll → Coll}
    (h0 : changesOnly ls s0 s) (hm : incl [.pColls] ls = true) : changesOnly ls s0 (State.modCollU s p uid f) := by
  unfold State.modCollU
  try dsimp only
  repeat' (first
    | with_reducible assumption
    | with_reducible intro _
    | with_reducible apply PartSt.modCollU_only
    | exact incl_trans rfl hm
    | with_reducible exact part_refl
    | with_reducible apply only_modPart)

theorem State.modCollU_keeps {s0 : State} {s : State} {p : PartNo} {uid : Nat} {f : Coll → Coll}
    (h0 : keeps s0 s) : keeps s0 (State.modCollU s p uid f) := by
  unfold State.modCollU
  try dsimp only
  repeat' (first
    | with_reducible assumption
    | with_reducible intro _
    | with_reducible apply PartSt.modCollU_keeps
    | with_reducible exact pKeeps_refl
    | exact pKeeps_new rfl rfl
    | with_reducible apply keeps_modPart)

theorem State.modCore_only {ls : List Item} {s0 : State} {s : State} {n : Nat} {f : Core → Core}
    (h0 : changesOnly ls s0 s) (hm : incl [.cores] ls = true) : changesOnly ls s0 (State.modCore s n f) := by
  have hs := @mem_of_incl [.cores] ls hm
  unfold State.modCore
  try dsimp only
  repeat' (first
    | with_reducible assumption
    | with_reducible intro _
    | exact incl_trans rfl hm
    | with_reducible apply only_mk
    | exact Or.inr (hs (by decide))
    | with_reducible exact Or.inl rfl
    | with_reducible exact parts_refl
    | (with_reducible refine Or.inl ?_; and_intros <;> with_reducible rfl)
    | exact Or.inl rfl
    | dsimp only
    | rw [mk_put])

theorem State.modCore_keeps {s0 : State} {s : State} {n : Nat} {f : Core → Core}
    (h0 : keeps s0 s) : keeps s0 (State.modCore s n f) := by
  unfold State.modCore
  try dsimp only
  repeat' (first
    | with_reducible assumption
    | with_reducible intro _
    | with_reducible apply keeps_mk
    | with_reducible exact id
    | with_reducible exact partsKeep_refl
    | with_reducible exact rasKeep_refl
    | with_reducible exact hbmKeep_refl
    | with_reducible exact pkgKeep_refl
    | with_reducible exact secKeep_refl
    | with_reducible exact namesKeep_refl
    | (refine ⟨?_, ?_, ?_, ?_, ?_, ?_⟩ <;> first | exact id | exact len_modify | exact len_map | exact len_mapIdx | exact len_set)
    | dsimp only
    | rw [mk_put])

theorem State.coresLose_only {ls : List Item} {s0 : State} {s : State} {f : Nat → Bool}
    (h0 : changesOnly ls s0 s) (hm : incl [.cores] ls = true) : changesOnly ls s0 (State.coresLose s f) := by
  have hs := @mem_of_incl [.cores] ls hm
  unfold State.coresLose
  try dsimp only
  repeat' (first
    | with_reducible assumption
    | with_reducible intro _
    | with_reducible apply only_ite
    | exact incl_trans rfl hm
    | with_reducible apply only_mk
    | exact Or.inr (hs (by decide))
    | with_reducible exact Or.inl rfl
    | with_reducible exact parts_refl
    | (with_reducible refine Or.inl ?_; and_intros <;> with_reducible rfl)
    | exact Or.inl rfl
    | dsimp only
    | rw [mk_put])

theorem State.coresLose_keeps {s0 : State} {s : State} {f : Nat → Bool}
    (h0 : keeps s0 s) : keeps s0 (State.coresLose s f) := by
  unfold State.coresLose
  try dsimp only
  repeat' (first
    | with_reducible assumption
    | with_reducible intro _
    | with_reducible apply keeps_ite
    | with_reducible apply keeps_mk
    | with_reducible exact id
    | with_reducible exact partsKeep_refl
    | with_reducible exact rasKeep_refl
    | with_reducible exact hbmKeep_refl
    | with_reducible exact pkgKeep_refl
    | with_reducible exact secKeep_refl
    | with_reducible exact namesKeep_refl
    | (refine ⟨?_, ?_, ?_, ?_, ?_, ?_⟩ <;> first | exact id | exact len_modify | exact len_map | exact len_mapIdx | exact len_set)
    | dsimp only
    | rw [mk_put])

theorem State.modCluster_only {ls : List Item} {s0 : State} {s : State} {n : Nat} {f : Cluster → Cluster}
    (h0 : changesOnly ls s0 s) (hm : incl [.clusters] ls = true) : changesOnly ls s0 (State.modCluster s n f) := by
  have hs := @mem_of_incl [.clusters] ls hm
  unfold State.modCluster
  try dsimp only
  repeat' (first
    | with_reducible assumption
    | with_reducible intro _
    | exact incl_trans rfl hm
    | with_reducible apply only_mk
    | exact Or.inr (hs (by decide))
    | with_reducible exact Or.inl rfl
    | with_reducible exact parts_refl
    | (with_reducible refine Or.inl ?_; and_intros <;> with_reducible rfl)
    | exact Or.inl rfl
    | dsimp only
    | rw [mk_put])

theorem State.modCluster_keeps {s0 : State} {s : State} {n : Nat} {f : Cluster → Cluster}
    (h0 : keeps s0 s) : keeps s0 (State.modCluster s n f) := by
  unfold State.modCluster
  try dsimp only
  repeat' (first
    | with_reducible assumption
    | with_reducible intro _
    | with_reducible apply keeps_mk
    | with_reducible exact id
    | with_reducible exact partsKeep_refl
    | with_reducible exact rasKeep_refl
    | with_reducible exact hbmKeep_refl
    | with_reducible exact pkgKeep_refl
    | with_reducible exact secKeep_refl
    | with_reducible exact namesKeep_refl
    | (refine ⟨?_, ?_, ?_, ?_, ?_, ?_⟩ <;> first | exact id | exact len_modify | exact len_map | exact len_mapIdx | exact len_set)
    | dsimp only
    | rw [mk_put])

theorem State.modChan_only {ls : List Item} {s0 : State} {s : State} {c : Nat} {f : Channel → Channel}
    (h0 : changesOnly ls s0 s) (hm : incl [.channels] ls = true) : changesOnly ls s0 (State.modChan s c f) := by
  have hs := @mem_of_incl [.channels] ls hm
  unfold State.modChan
  try dsimp only
  repeat' (first
    | with_reducible assumption
    | with_reducible intro _
    | exact incl_trans rfl hm
    | with_reducible apply only_mk
    | exact Or.inr (hs (by decide))
    | with_reducible exact Or.inl rfl
    | with_reducible exact parts_refl
    | (with_reducible refine Or.inl ?_; and_intros <;> with_reducible rfl)
    | exact Or.inl rfl
    | dsimp only
    | rw [mk_put])

theorem State.modChan_keeps {s0 : State} {s : State} {c : Nat} {f : Channel → Channel}
    (h0 : keeps s0 s) : keeps s0 (State.modChan s c f) := by
  unfold State.modChan
  try dsimp only
  repeat' (first
    | with_reducible assumption
    | with_reducible intro _
    | with_reducible apply keeps_mk
    | with_reducible exact id
    | with_reducible exact partsKeep_refl
    | with_reducible exact rasKeep_refl
    | with_reducible exact hbmKeep_refl
    | with_reducible exact pkgKeep_refl
    | with_reducible exact secKeep_refl
    | with_reducible exact namesKeep_refl
    | (refine (⟨?_, ?_⟩ : hbmKeep _ _) <;> first | exact id | exact len_modify | exact len_map | exact len_mapIdx | exact len_set)
    | dsimp only
    | rw [mk_put])

theorem State.modPort_only {ls : List Item} {s0 : State} {s : State} {n : Nat} {f : Port → Port}
    (h0 : changesOnly ls s0 s) (hm : incl [.ports] ls = true) : changesOnly ls s0 (State.modPort s n f) := by
  have hs := @mem_of_incl [.ports] ls hm
  unfold State.modPort
  try dsimp only
  repeat' (first
    | with_reducible assumption
    | with_reducible intro _
    | exact incl_trans rfl hm
    | with_reducible apply only_mk
    | exact Or.inr (hs (by decide))
    | with_reducible exact Or.inl rfl
    | with_reducible exact parts_refl
    | (with_reducible refine Or.inl ?_; and_intros <;> with_reducible rfl)
    | exact Or.inl rfl
    | dsimp only
    | rw [mk_put])

theorem State.modPort_keeps {s0 : State} {s : State} {n : Nat} {f : Port → Port}
    (h0 : keeps s0 s) : keeps s0 (State.modPort s n f) := by
  unfold State.modPort
  try dsimp only
  repeat' (first
    | with_reducible assumption
    | exact len_modify
    | exact len_map
    | exact len_mapIdx
    | with_reducible intro _
    | with_reducible apply keeps_mk
    | with_reducible exact id
    | with_reducible exact partsKeep_refl
    | with_reducible exact rasKeep_refl
    | with_reducible exact hbmKeep_refl
    | with_reducible exact pkgKeep_refl
    | with_reducible exact secKeep_refl
    | with_reducible exact namesKeep_refl
    | dsimp only
    | rw [mk_put])

theorem State.bump_only {ls : List Item} {s0 : State} {s : State} {n : Nat}
    (h0 : changesOnly ls s0 s) (hm : incl [.fresh] ls = true) : changesOnly ls s0 (State.bump s n) := by
  have hs := @mem_of_incl [.fresh] ls hm
  unfold State.bump
  try dsimp only
  repeat' (first
    | with_reducible assumption
    | with_reducible intro _
    | exact incl_trans rfl hm
    | with_reducible apply only_mk
    | exact Or.inr (hs (by decide))
    | with_reducible exact Or.inl rfl
    | with_reducible exact parts_refl
    | (with_reducible refine Or.inl ?_; and_intros <;> with_reducible rfl)
    | exact Or.inl rfl
    | dsimp only
    | rw [mk_put])

theorem State.bump_keeps {s0 : State} {s : State} {n : Nat}
    (h0 : keeps s0 s) : keeps s0 (State.bump s n) := by
  unfold State.bump
  try dsimp only
  repeat' (first
    | with_reducible assumption
    | with_reducible intro _
    | with_reducible apply keeps_mk
    | with_reducible exact id
    | with_reducible exact partsKeep_refl
    | with_reducible exact rasKeep_refl
    | with_reducible exact hbmKeep_refl
    | with_reducible exact pkgKeep_refl
    | with_reducible exact secKeep_refl
    | with_reducible exact namesKeep_refl
    | dsimp only
    | rw [mk_put])

theorem PartSt.setFeat_only {ls : List Item} {x0 : PartSt} {p : PartSt} {fid : Nat} {v : Word32}
    (h0 : partOnly ls x0 p) (hm : incl [.pFeats] ls = true) : partOnly ls x0 (PartSt.setFeat p fid v) := by
  have hs := @mem_of_incl [.pFeats] ls hm
  unfold PartSt.setFeat
  try dsimp only
  repeat' (first
    | with_reducible assumption
    | with_reducible intro _
    | with_reducible apply only_ite
    | exact incl_trans rfl hm
    | with_reducible exact part_refl
    | with_reducible apply part_ite
    | with_reducible apply only_modPart
    | with_reducible apply part_mk
    | with_reducible apply only_mk
    | exact Or.inr (hs (by decide))
    | with_reducible exact Or.inl rfl
    | with_reducible exact parts_refl
    | (with_reducible refine Or.inl ?_; and_intros <;> with_reducible rfl))

theorem PartSt.setFeat_keeps {x0 : PartSt} {p : PartSt} {fid : Nat} {v : Word32}
    (h0 : pKeeps x0 p) : pKeeps x0 (PartSt.setFeat p fid v) := by
  unfold PartSt.setFeat
  try dsimp only
  repeat' (first
    | with_reducible assumption
    | with_reducible intro _
    | with_reducible apply keeps_ite
    | with_reducible exact pKeeps_refl
    | exact pKeeps_new rfl rfl
    | with_reducible apply pKeeps_ite
    | with_reducible apply keeps_modPart
    | with_reducible apply pKeeps_mk
    | with_reducible exact memKeeps_refl)

theorem State.emit_only {ls : List Item} {s0 : State} {s : State} {o : Out}
    (h0 : changesOnly ls s0 s) (hm : incl [.out] ls = true) : changesOnly ls s0 (State.emit s o) := by
  have hs := @mem_of_incl [.out] ls hm
  unfold State.emit
  try dsimp only
  repeat' (first
    | with_reducible assumption
    | with_reducible intro _
    | exact incl_trans rfl hm
    | with_reducible apply only_mk
    | exact Or.inr (hs (by decide))
    | with_reducible exact Or.inl rfl
    | with_reducible exact parts_refl
    | (with_reducible refine Or.inl ?_; and_intros <;> with_reducible rfl)
    | exact Or.inl rfl
    | dsimp only
    | rw [mk_put])

theorem State.emit_keeps {s0 : State} {s : State} {o : Out}
    (h0 : keeps s0 s) : keeps s0 (State.emit s o) := by
  unfold State.emit
  try dsimp only
  repeat' (first
    | with_reducible assumption
    | with_reducible intro _
    | with_reducible apply keeps_mk
    | with_reducible exact id
    | with_reducible exact partsKeep_refl
    | with_reducible exact rasKeep_refl
    | with_reducible exact hbmKeep_refl
    | with_reducible exact pkgKeep_refl
    | with_reducible exact secKeep_refl
    | with_reducible exact namesKeep_refl
    | dsimp only
    | rw [mk_put])

theorem State.emits_only {ls : List Item} {s0 : State} {s : State} {l : List Out}
    (h0 : changesOnly ls s0 s) (hm : incl [.out] ls = true) : changesOnly ls s0 (State.emits s l) := by
  have hs := @mem_of_incl [.out] ls hm
  unfold State.emits
  try dsimp only
  repeat' (first
    | with_reducible assumption
    | with_reducible intro _
    | exact incl_trans rfl hm
    | with_reducible apply only_mk
    | exact Or.inr (hs (by decide))
    | with_reducible exact Or.inl rfl
    | with_reducible exact parts_refl
    | (with_reducible refine Or.inl ?_; and_intros <;> with_reducible rfl)
    | exact Or.inl rfl
    | dsimp only
    | rw [mk_put])

theorem State.emits_keeps {s0 : State} {s : State} {l : List Out}
    (h0 : keeps s0 s) : keeps s0 (State.emits s l) := by
  unfold State.emits
  try dsimp only
  repeat' (first
    | with_reducible assumption
    | with_reducible intro _
    | with_reducible apply keeps_mk
    | with_reducible exact id
    | with_reducible exact partsKeep_refl
    | with_reducible exact rasKeep_refl
    | with_reducible exact hbmKeep_refl
    | with_reducible exact pkgKeep_refl
    | with_reducible exact secKeep_refl
    | with_reducible exact namesKeep_refl
    | dsimp only
    | rw [mk_put])

theorem State.msix_only {ls : List Item} {s0 : State} {s : State} {fn : Fn} {v : Nat}
    (h0 : changesOnly ls s0 s) (hm : incl [.fns, .out] ls = true) : changesOnly ls s0 (State.msix s fn v) := by
  unfold State.msix
  try dsimp only
  repeat' (first
    | with_reducible assumption
    | with_reducible intro _
    | with_reducible apply State.modFn_only
    | with_reducible apply State.emit_only
    | with_reducible apply only_ite
    | exact incl_trans rfl hm)

theorem State.msix_keeps {s0 : State} {s : State} {fn : Fn} {v : Nat}
    (h0 : keeps s0 s) : keeps s0 (State.msix s fn v) := by
  unfold State.msix
  try dsimp only
  repeat' (first
    | with_reducible assumption
    | with_reducible intro _
    | with_reducible apply State.modFn_keeps
    | with_reducible apply State.emit_keeps
    | with_reducible apply keeps_ite)

theorem State.raise_only {ls : List Item} {s0 : State} {s : State} {fn : Fn} {b : Nat}
    (h0 : changesOnly ls s0 s) (hm : incl [.fns, .out] ls = true) : changesOnly ls s0 (State.raise s fn b) := by
  unfold State.raise
  try dsimp only
  repeat' (first
    | with_reducible assumption
    | with_reducible intro _
    | with_reducible apply State.modFn_only
    | with_reducible apply State.msix_only
    | with_reducible apply only_ite
    | exact incl_trans rfl hm)

theorem State.raise_keeps {s0 : State} {s : State} {fn : Fn} {b : Nat}
    (h0 : keeps s0 s) : keeps s0 (State.raise s fn b) := by
  unfold State.raise
  try dsimp only
  repeat' (first
    | with_reducible assumption
    | with_reducible intro _
    | with_reducible apply State.modFn_keeps
    | with_reducible apply State.msix_keeps
    | with_reducible apply keeps_ite)

theorem State.raiseAll_only {ls : List Item} {s0 : State} {s : State} {b : Nat} {ps : List PartNo}
    (h0 : changesOnly ls s0 s) (hm : incl [.fns, .out] ls = true) : changesOnly ls s0 (State.raiseAll s b ps) := by
  unfold State.raiseAll
  try dsimp only
  repeat' (first
    | with_reducible assumption
    | with_reducible intro _
    | with_reducible apply State.raise_only
    | with_reducible apply only_foldl)

theorem State.raiseAll_keeps {s0 : State} {s : State} {b : Nat} {ps : List PartNo}
    (h0 : keeps s0 s) : keeps s0 (State.raiseAll s b ps) := by
  unfold State.raiseAll
  try dsimp only
  repeat' (first
    | with_reducible assumption
    | with_reducible intro _
    | with_reducible apply State.raise_keeps
    | with_reducible apply keeps_foldl)

theorem State.log_only {ls : List Item} {s0 : State} {s : State} {e : LogEntry}
    (h0 : changesOnly ls s0 s) (hm : incl [.rasLog, .fns, .out] ls = true) : changesOnly ls s0 (State.log s e) := by
  have hs := @mem_of_incl [.rasLog, .fns, .out] ls hm
  unfold State.log
  try dsimp only
  repeat' (first
    | with_reducible assumption
    | with_reducible intro _
    | with_reducible apply State.raiseAll_only
    | exact incl_trans rfl hm
    | with_reducible apply only_mk
    | exact Or.inr (hs (by decide))
    | with_reducible exact Or.inl rfl
    | with_reducible exact parts_refl
    | (with_reducible refine Or.inl ?_; and_intros <;> with_reducible rfl)
    | exact Or.inl rfl
    | with_reducible refine only_pair (by assumption) ?_
    | dsimp only
    | rw [mk_put])

theorem State.log_keeps {s0 : State} {s : State} {e : LogEntry} (h0 : keeps s0 s) : keeps s0 (State.log s e) := by
  unfold State.log
  dsimp only
  apply State.raiseAll_keeps
  rw [mk_put]
  refine keeps_mk id partsKeep_refl ⟨id, id, fun h => ?_, id, id, fun _ => ?_⟩ hbmKeep_refl id pkgKeep_refl secKeep_refl namesKeep_refl h0
  · rw [List.length_map, List.length_zipIdx]; exact h
  · rw [List.length_drop]; omega

theorem State.logHost_only {ls : List Item} {s0 : State} {s : State} {event : Nat} {fn : Fn} {unit : Nat} {scope : Nat} {status : Nat} {rest : List (Nat × Bytes)}
    (h0 : changesOnly ls s0 s) (hm : incl [.rasLog, .fns, .out] ls = true) : changesOnly ls s0 (State.logHost s event fn unit scope status rest) := by
  unfold State.logHost
  try dsimp only
  repeat' first | with_reducible assumption | with_reducible intro _ | with_reducible apply State.log_only

theorem State.logHost_keeps {s0 : State} {s : State} {event : Nat} {fn : Fn} {unit : Nat} {scope : Nat} {status : Nat} {rest : List (Nat × Bytes)}
    (h0 : keeps s0 s) : keeps s0 (State.logHost s event fn unit scope status rest) := by
  unfold State.logHost
  try dsimp only
  repeat' first | with_reducible assumption | with_reducible intro _ | with_reducible apply State.log_keeps

theorem State.recap_only {ls : List Item} {s0 : State} {s : State}
    (h0 : changesOnly ls s0 s) (hm : incl [.hif, .fns, .out] ls = true) : changesOnly ls s0 (State.recap s) := by
  have hs := @mem_of_incl [.hif, .fns, .out] ls hm
  unfold State.recap
  try dsimp only
  repeat' (first
    | with_reducible assumption
    | with_reducible intro _
    | with_reducible apply State.raise_only
    | with_reducible apply only_ite
    | exact incl_trans rfl hm
    | with_reducible apply only_mk
    | exact Or.inr (hs (by decide))
    | with_reducible exact Or.inl rfl
    | with_reducible exact parts_refl
    | (with_reducible refine Or.inl ?_; and_intros <;> with_reducible rfl)
    | exact Or.inl rfl
    | dsimp only
    | rw [mk_put])

theorem State.recap_keeps {s0 : State} {s : State}
    (h0 : keeps s0 s) : keeps s0 (State.recap s) := by
  unfold State.recap
  try dsimp only
  repeat' (first
    | with_reducible assumption
    | with_reducible intro _
    | with_reducible apply State.raise_keeps
    | with_reducible apply keeps_ite
    | with_reducible apply keeps_mk
    | with_reducible exact id
    | with_reducible exact partsKeep_refl
    | with_reducible exact rasKeep_refl
    | with_reducible exact hbmKeep_refl
    | with_reducible exact pkgKeep_refl
    | with_reducible exact secKeep_refl
    | with_reducible exact namesKeep_refl
    | dsimp only
    | rw [mk_put])

theorem State.capacity_only {ls : List Item} {s0 : State} {s : State} {ps : List PartNo}
    (h0 : changesOnly ls s0 s) (hm : incl [.hif, .fns, .out] ls = true) : changesOnly ls s0 (State.capacity s ps) := by
  have hs := @mem_of_incl [.hif, .fns, .out] ls hm
  unfold State.capacity
  try dsimp only
  repeat' (first
    | with_reducible assumption
    | with_reducible intro _
    | with_reducible apply State.raiseAll_only
    | with_reducible apply only_ite
    | exact incl_trans rfl hm
    | with_reducible apply only_mk
    | exact Or.inr (hs (by decide))
    | with_reducible exact Or.inl rfl
    | with_reducible exact parts_refl
    | (with_reducible refine Or.inl ?_; and_intros <;> with_reducible rfl)
    | exact Or.inl rfl
    | dsimp only
    | rw [mk_put])

theorem State.capacity_keeps {s0 : State} {s : State} {ps : List PartNo}
    (h0 : keeps s0 s) : keeps s0 (State.capacity s ps) := by
  unfold State.capacity
  try dsimp only
  repeat' (first
    | with_reducible assumption
    | with_reducible intro _
    | with_reducible apply State.raiseAll_keeps
    | with_reducible apply keeps_ite
    | with_reducible apply keeps_mk
    | with_reducible exact id
    | with_reducible exact partsKeep_refl
    | with_reducible exact rasKeep_refl
    | with_reducible exact hbmKeep_refl
    | with_reducible exact pkgKeep_refl
    | with_reducible exact secKeep_refl
    | with_reducible exact namesKeep_refl
    | dsimp only
    | rw [mk_put])

theorem State.haltTgs_only {ls : List Item} {s0 : State} {s : State}
    (h0 : changesOnly ls s0 s) (hm : incl [.channels, .fresh] ls = true) : changesOnly ls s0 (State.haltTgs s) := by
  have hs := @mem_of_incl [.channels, .fresh] ls hm
  unfold State.haltTgs
  try dsimp only
  repeat' (first
    | with_reducible assumption
    | with_reducible intro _
    | with_reducible apply State.bump_only
    | with_reducible apply only_ite
    | exact incl_trans rfl hm
    | with_reducible apply only_mk
    | exact Or.inr (hs (by decide))
    | with_reducible exact Or.inl rfl
    | with_reducible exact parts_refl
    | (with_reducible refine Or.inl ?_; and_intros <;> with_reducible rfl)
    | exact Or.inl rfl
    | (refine Or.inl ?_; and_intros <;> rfl)
    | dsimp only
    | rw [mk_put])

theorem State.haltTgs_keeps {s0 : State} {s : State}
    (h0 : keeps s0 s) : keeps s0 (State.haltTgs s) := by
  unfold State.haltTgs
  try dsimp only
  repeat' (first
    | with_reducible assumption
    | with_reducible intro _
    | with_reducible apply State.bump_keeps
    | with_reducible apply keeps_ite
    | with_reducible apply keeps_mk
    | with_reducible exact id
    | with_reducible exact partsKeep_refl
    | with_reducible exact rasKeep_refl
    | with_reducible exact hbmKeep_refl
    | with_reducible exact pkgKeep_refl
    | with_reducible exact secKeep_refl
    | with_reducible exact namesKeep_refl
    | (refine (⟨?_, ?_⟩ : hbmKeep _ _) <;> first | exact id | exact len_modify | exact len_map | exact len_mapIdx | exact len_set)
    | dsimp only
    | rw [mk_put])

theorem State.logLate_only {ls : List Item} {s0 : State} {s : State} {cid : Nat} {status : Nat} {cause : Bytes}
    (h0 : changesOnly ls s0 s) (hm : incl [.rasLog, .fns, .cmds, .out] ls = true) : changesOnly ls s0 (State.logLate s cid status cause) := by
  have hs := @mem_of_incl [.rasLog, .fns, .cmds, .out] ls hm
  unfold State.logLate
  try dsimp only
  repeat' (first
    | with_reducible assumption
    | with_reducible intro _
    | with_reducible apply State.modCmd_only
    | with_reducible apply State.log_only
    | with_reducible apply only_ite
    | exact incl_trans rfl hm
    | with_reducible apply only_mk
    | exact Or.inr (hs (by decide))
    | with_reducible exact Or.inl rfl
    | with_reducible exact parts_refl
    | (with_reducible refine Or.inl ?_; and_intros <;> with_reducible rfl)
    | exact Or.inl rfl
    | with_reducible refine only_pair (by assumption) ?_
    | dsimp only
    | rw [mk_put]
    | split)

theorem State.logLate_keeps {s0 : State} {s : State} {cid : Nat} {status : Nat} {cause : Bytes}
    (h0 : keeps s0 s) : keeps s0 (State.logLate s cid status cause) := by
  unfold State.logLate
  try dsimp only
  repeat' (first
    | with_reducible assumption
    | with_reducible intro _
    | with_reducible apply State.modCmd_keeps
    | with_reducible apply State.log_keeps
    | with_reducible apply keeps_ite
    | with_reducible apply keeps_mk
    | with_reducible exact id
    | with_reducible exact partsKeep_refl
    | with_reducible exact rasKeep_refl
    | with_reducible exact hbmKeep_refl
    | with_reducible exact pkgKeep_refl
    | with_reducible exact secKeep_refl
    | with_reducible exact namesKeep_refl
    | exact rfl
    | with_reducible refine keeps_pair (by assumption) ?_
    | dsimp only
    | rw [mk_put]
    | split)

theorem State.logDiscard_only {ls : List Item} {s0 : State} {s : State} {p : PartNo} {addr : Nat} {cid : Option Nat}
    (h0 : changesOnly ls s0 s) (hm : incl [.rasLog, .fns, .cmds, .out] ls = true) : changesOnly ls s0 (State.logDiscard s p addr cid) := by
  have hs := @mem_of_incl [.rasLog, .fns, .cmds, .out] ls hm
  unfold State.logDiscard
  try dsimp only
  repeat' (first
    | with_reducible assumption
    | with_reducible intro _
    | with_reducible apply State.log_only
    | with_reducible apply State.logLate_only
    | exact incl_trans rfl hm
    | with_reducible apply only_mk
    | exact Or.inr (hs (by decide))
    | with_reducible exact Or.inl rfl
    | with_reducible exact parts_refl
    | (with_reducible refine Or.inl ?_; and_intros <;> with_reducible rfl)
    | exact Or.inl rfl
    | with_reducible refine only_pair (by assumption) ?_
    | dsimp only
    | rw [mk_put]
    | split)

theorem State.logDiscard_keeps {s0 : State} {s : State} {p : PartNo} {addr : Nat} {cid : Option Nat}
    (h0 : keeps s0 s) : keeps s0 (State.logDiscard s p addr cid) := by
  unfold State.logDiscard
  try dsimp only
  repeat' (first
    | with_reducible assumption
    | with_reducible intro _
    | with_reducible apply State.log_keeps
    | with_reducible apply State.logLate_keeps
    | with_reducible apply keeps_mk
    | with_reducible exact id
    | with_reducible exact partsKeep_refl
    | with_reducible exact rasKeep_refl
    | with_reducible exact hbmKeep_refl
    | with_reducible exact pkgKeep_refl
    | with_reducible exact secKeep_refl
    | with_reducible exact namesKeep_refl
    | with_reducible refine keeps_pair (by assumption) ?_
    | dsimp only
    | rw [mk_put]
    | split)

theorem State.wrScratch_only {ls : List Item} {s0 : State} {s : State} {p : PartNo} {slice : Nat → Nat} {off : Nat} {bs : Bytes}
    (h0 : changesOnly ls s0 s) (hm : incl [.rasLog, .fns, .pScratch, .out] ls = true) : changesOnly ls s0 (State.wrScratch s p slice off bs) := by
  have hs := @mem_of_incl [.rasLog, .fns, .pScratch, .out] ls hm
  unfold State.wrScratch
  try dsimp only
  repeat' (first
    | with_reducible assumption
    | with_reducible intro _
    | with_reducible apply State.log_only
    | with_reducible apply PartSt.sWr_only
    | with_reducible apply only_ite
    | with_reducible apply only_foldl
    | with_reducible apply only_foldl_fst
    | exact incl_trans rfl hm
    | with_reducible exact part_refl
    | with_reducible apply part_ite
    | with_reducible apply part_foldl
    | with_reducible apply only_modPart
    | with_reducible apply part_mk
    | with_reducible apply only_mk
    | exact Or.inr (hs (by decide))
    | with_reducible exact Or.inl rfl
    | with_reducible exact parts_refl
    | (with_reducible refine Or.inl ?_; and_intros <;> with_reducible rfl))

theorem State.wrScratch_keeps {s0 : State} {s : State} {p : PartNo} {slice : Nat → Nat} {off : Nat} {bs : Bytes}
    (h0 : keeps s0 s) : keeps s0 (State.wrScratch s p slice off bs) := by
  unfold State.wrScratch
  try dsimp only
  repeat' (first
    | with_reducible assumption
    | with_reducible intro _
    | with_reducible apply State.log_keeps
    | with_reducible apply PartSt.sWr_keeps
    | with_reducible apply keeps_ite
    | with_reducible apply keeps_foldl
    | with_reducible apply keeps_foldl_fst
    | with_reducible exact pKeeps_refl
    | exact pKeeps_new rfl rfl
    | with_reducible apply pKeeps_ite
    | with_reducible apply pKeeps_foldl
    | with_reducible apply keeps_modPart
    | with_reducible apply pKeeps_mk
    | with_reducible exact memKeeps_refl)

theorem State.sensorEvent_only {ls : List Item} {s0 : State} {s : State} {sensor old new reading : Nat}
    (h0 : changesOnly ls s0 s) (hm : incl [.fw, .out] ls = true) : changesOnly ls s0 (State.sensorEvent s sensor old new reading) := by
  have hs := @mem_of_incl [.fw, .out] ls hm
  unfold State.sensorEvent
  try dsimp only
  repeat' (first
    | with_reducible assumption
    | with_reducible intro _
    | with_reducible apply State.emit_only
    | with_reducible apply only_ite
    | exact incl_trans rfl hm
    | with_reducible apply only_mk
    | exact Or.inr (hs (by decide))
    | with_reducible exact Or.inl rfl
    | with_reducible exact parts_refl
    | (with_reducible refine Or.inl ?_; and_intros <;> with_reducible rfl)
    | exact Or.inl rfl
    | dsimp only
    | rw [mk_put])

theorem State.sensorEvent_keeps {s0 : State} {s : State} {sensor old new reading : Nat}
    (h0 : keeps s0 s) : keeps s0 (State.sensorEvent s sensor old new reading) := by
  unfold State.sensorEvent
  try dsimp only
  repeat' (first
    | with_reducible assumption
    | with_reducible intro _
    | with_reducible apply State.emit_keeps
    | with_reducible apply keeps_ite
    | with_reducible apply keeps_mk
    | with_reducible exact id
    | with_reducible exact partsKeep_refl
    | with_reducible exact rasKeep_refl
    | with_reducible exact hbmKeep_refl
    | with_reducible exact pkgKeep_refl
    | with_reducible exact secKeep_refl
    | with_reducible exact namesKeep_refl
    | dsimp only
    | rw [mk_put])

theorem State.beginCommit_only {ls : List Item} {s0 : State} {s : State} {cid : Nat}
    (h0 : changesOnly ls s0 s) (hm : incl [.cmds, .ctxs] ls = true) : changesOnly ls s0 (State.beginCommit s cid) := by
  have hs := @mem_of_incl [.cmds, .ctxs] ls hm
  unfold State.beginCommit
  try dsimp only
  repeat' (first
    | with_reducible assumption
    | with_reducible intro _
    | with_reducible apply State.modCmd_only
    | with_reducible apply only_ite
    | exact incl_trans rfl hm
    | with_reducible apply only_mk
    | exact Or.inr (hs (by decide))
    | with_reducible exact Or.inl rfl
    | with_reducible exact parts_refl
    | (with_reducible refine Or.inl ?_; and_intros <;> with_reducible rfl)
    | exact Or.inl rfl
    | dsimp only
    | rw [mk_put])

theorem State.beginCommit_keeps {s0 : State} {s : State} {cid : Nat}
    (h0 : keeps s0 s) : keeps s0 (State.beginCommit s cid) := by
  unfold State.beginCommit
  try dsimp only
  repeat' (first
    | with_reducible assumption
    | with_reducible intro _
    | with_reducible apply State.modCmd_keeps
    | with_reducible apply keeps_ite
    | with_reducible apply keeps_mk
    | with_reducible exact id
    | with_reducible exact partsKeep_refl
    | with_reducible exact rasKeep_refl
    | with_reducible exact hbmKeep_refl
    | with_reducible exact pkgKeep_refl
    | with_reducible exact secKeep_refl
    | with_reducible exact namesKeep_refl
    | exact rfl
    | dsimp only
    | rw [mk_put])

theorem State.endCommit_only {ls : List Item} {s0 : State} {s : State} {cid : Nat}
    (h0 : changesOnly ls s0 s) (hm : incl [.cmds, .ctxs] ls = true) : changesOnly ls s0 (State.endCommit s cid) := by
  have hs := @mem_of_incl [.cmds, .ctxs] ls hm
  unfold State.endCommit
  try dsimp only
  repeat' (first
    | with_reducible assumption
    | with_reducible intro _
    | with_reducible apply State.modCmd_only
    | with_reducible apply only_ite
    | exact incl_trans rfl hm
    | with_reducible apply only_mk
    | exact Or.inr (hs (by decide))
    | with_reducible exact Or.inl rfl
    | with_reducible exact parts_refl
    | (with_reducible refine Or.inl ?_; and_intros <;> with_reducible rfl)
    | exact Or.inl rfl
    | dsimp only
    | rw [mk_put])

theorem State.endCommit_keeps {s0 : State} {s : State} {cid : Nat}
    (h0 : keeps s0 s) : keeps s0 (State.endCommit s cid) := by
  unfold State.endCommit
  try dsimp only
  repeat' (first
    | with_reducible assumption
    | with_reducible intro _
    | with_reducible apply State.modCmd_keeps
    | with_reducible apply keeps_ite
    | with_reducible apply keeps_mk
    | with_reducible exact id
    | with_reducible exact partsKeep_refl
    | with_reducible exact rasKeep_refl
    | with_reducible exact hbmKeep_refl
    | with_reducible exact pkgKeep_refl
    | with_reducible exact secKeep_refl
    | with_reducible exact namesKeep_refl
    | exact rfl
    | dsimp only
    | rw [mk_put])

theorem State.leave_only {ls : List Item} {s0 : State} {s : State} {cid : Nat}
    (h0 : changesOnly ls s0 s) (hm : incl [.ctxs, .streams, .ristretto, .semaphores] ls = true) : changesOnly ls s0 (State.leave s cid) := by
  have hs := @mem_of_incl [.ctxs, .streams, .ristretto, .semaphores] ls hm
  unfold State.leave
  try dsimp only
  repeat' (first
    | with_reducible assumption
    | with_reducible intro _
    | with_reducible apply only_ite
    | exact incl_trans rfl hm
    | with_reducible apply only_mk
    | exact Or.inr (hs (by decide))
    | with_reducible exact Or.inl rfl
    | with_reducible exact parts_refl
    | (with_reducible refine Or.inl ?_; and_intros <;> with_reducible rfl)
    | exact Or.inl rfl
    | dsimp only
    | rw [mk_put])

theorem State.leave_keeps {s0 : State} {s : State} {cid : Nat}
    (h0 : keeps s0 s) : keeps s0 (State.leave s cid) := by
  unfold State.leave
  try dsimp only
  repeat' (first
    | with_reducible assumption
    | with_reducible intro _
    | with_reducible apply keeps_ite
    | with_reducible apply keeps_mk
    | with_reducible exact id
    | with_reducible exact partsKeep_refl
    | with_reducible exact rasKeep_refl
    | with_reducible exact hbmKeep_refl
    | with_reducible exact pkgKeep_refl
    | with_reducible exact secKeep_refl
    | with_reducible exact namesKeep_refl
    | dsimp only
    | rw [mk_put])

theorem State.unlock_only {ls : List Item} {s0 : State} {s : State} {cid : Nat}
    (h0 : changesOnly ls s0 s) (hm : incl [.locks] ls = true) : changesOnly ls s0 (State.unlock s cid) := by
  have hs := @mem_of_incl [.locks] ls hm
  unfold State.unlock
  try dsimp only
  repeat' (first
    | with_reducible assumption
    | with_reducible intro _
    | exact incl_trans rfl hm
    | with_reducible apply only_mk
    | exact Or.inr (hs (by decide))
    | with_reducible exact Or.inl rfl
    | with_reducible exact parts_refl
    | (with_reducible refine Or.inl ?_; and_intros <;> with_reducible rfl)
    | exact Or.inl rfl
    | dsimp only
    | rw [mk_put])

theorem State.unlock_keeps {s0 : State} {s : State} {cid : Nat}
    (h0 : keeps s0 s) : keeps s0 (State.unlock s cid) := by
  unfold State.unlock
  try dsimp only
  repeat' (first
    | with_reducible assumption
    | with_reducible intro _
    | with_reducible apply keeps_mk
    | with_reducible exact id
    | with_reducible exact partsKeep_refl
    | with_reducible exact rasKeep_refl
    | with_reducible exact hbmKeep_refl
    | with_reducible exact pkgKeep_refl
    | with_reducible exact secKeep_refl
    | with_reducible exact namesKeep_refl
    | dsimp only
    | rw [mk_put])

theorem State.finish_only {ls : List Item} {s0 : State} {s : State} {cid : Nat} {r : Compl}
    (h0 : changesOnly ls s0 s) (hm : incl [.cmds, .locks, .ctxs, .streams, .ristretto, .semaphores] ls = true) : changesOnly ls s0 (State.finish s cid r) := by
  unfold State.finish
  try dsimp only
  repeat' (first
    | with_reducible assumption
    | with_reducible intro _
    | with_reducible apply State.leave_only
    | with_reducible apply State.modCmd_only
    | with_reducible apply State.unlock_only
    | with_reducible apply only_ite
    | exact incl_trans rfl hm)

theorem State.finish_keeps {s0 : State} {s : State} {cid : Nat} {r : Compl}
    (h0 : keeps s0 s) : keeps s0 (State.finish s cid r) := by
  unfold State.finish
  try dsimp only
  repeat' (first
    | with_reducible assumption
    | with_reducible intro _
    | with_reducible apply State.leave_keeps
    | with_reducible apply State.modCmd_keeps
    | with_reducible apply State.unlock_keeps)

theorem State.fail_only {ls : List Item} {s0 : State} {s : State} {cid : Nat} {status : Nat} {cause : Bytes}
    (h0 : changesOnly ls s0 s) (hm : incl [.cmds, .locks, .ctxs, .streams, .ristretto, .semaphores] ls = true) : changesOnly ls s0 (State.fail s cid status cause) := by
  unfold State.fail
  try dsimp only
  repeat' first | with_reducible assumption | with_reducible intro _ | with_reducible apply State.finish_only

theorem State.fail_keeps {s0 : State} {s : State} {cid : Nat} {status : Nat} {cause : Bytes}
    (h0 : keeps s0 s) : keeps s0 (State.fail s cid status cause) := by
  unfold State.fail
  try dsimp only
  repeat' first | with_reducible assumption | with_reducible intro _ | with_reducible apply State.finish_keeps

theorem State.reap_only {l : List Item} {s0 : State} {s : State} (h0 : changesOnly l s0 s) (hm : incl [.pColls] l = true) :
    changesOnly l s0 (State.reap s) := by
  have hs := @mem_of_incl [.pColls] l hm
  unfold State.reap
  refine only_mapParts h0 fun x => ?_
  with_reducible apply part_mk
  all_goals first
    | exact part_refl
    | exact Or.inr (hs (by decide))
    | exact Or.inl rfl
    | (refine Or.inl ?_; and_intros <;> rfl)

theorem State.reap_keeps {s0 : State} {s : State} (h0 : keeps s0 s) : keeps s0 (State.reap s) := by
  unfold State.reap
  exact keeps_mapParts h0 fun x => pKeeps_mk _ memKeeps_refl memKeeps_refl pKeeps_refl

theorem State.drop_only {ls : List Item} {s0 : State} {s : State} {cid : Nat}
    (h0 : changesOnly ls s0 s) (hm : incl [.cmds, .locks, .pColls, .ctxs, .streams, .ristretto, .semaphores] ls = true) : changesOnly ls s0 (State.drop s cid) := by
  have hs := @mem_of_incl [.cmds, .locks, .pColls, .ctxs, .streams, .ristretto, .semaphores] ls hm
  unfold State.drop
  try dsimp only
  repeat' (first
    | with_reducible assumption
    | with_reducible intro _
    | with_reducible apply State.leave_only
    | with_reducible apply State.reap_only
    | with_reducible apply State.unlock_only
    | exact incl_trans rfl hm
    | with_reducible apply only_mk
    | exact Or.inr (hs (by decide))
    | with_reducible exact Or.inl rfl
    | with_reducible exact parts_refl
    | (with_reducible refine Or.inl ?_; and_intros <;> with_reducible rfl)
    | exact Or.inl rfl
    | dsimp only
    | rw [mk_put])

theorem State.drop_keeps {s0 : State} {s : State} {cid : Nat}
    (h0 : keeps s0 s) : keeps s0 (State.drop s cid) := by
  unfold State.drop
  try dsimp only
  repeat' (first
    | with_reducible assumption
    | with_reducible intro _
    | with_reducible apply State.leave_keeps
    | with_reducible apply State.reap_keeps
    | with_reducible apply State.unlock_keeps
    | with_reducible apply keeps_mk
    | with_reducible exact id
    | with_reducible exact partsKeep_refl
    | with_reducible exact rasKeep_refl
    | with_reducible exact hbmKeep_refl
    | with_reducible exact pkgKeep_refl
    | with_reducible exact secKeep_refl
    | with_reducible exact namesKeep_refl
    | with_reducible apply namesKeep_map
    | with_reducible exact namesKeep_filter
    | with_reducible exact namesKeep_nil
    | (intro _; split <;> rfl)
    | dsimp only
    | rw [mk_put])

theorem State.onCmd_only {ls : List Item} {s0 : State} {s : State} {cid : Nat} {ok : Cmd → Bool} {f : Cmd → State} (hf : ∀ x, changesOnly ls s0 (f x))
    (h0 : changesOnly ls s0 s) (hm : incl [] ls = true) : changesOnly ls s0 (State.onCmd s cid ok f) := by
  have hs := @mem_of_incl [] ls hm
  unfold State.onCmd
  try dsimp only
  repeat' (first
    | with_reducible assumption
    | with_reducible intro _
    | with_reducible apply hf
    | with_reducible apply only_ite
    | exact incl_trans rfl hm
    | with_reducible apply only_mk
    | exact Or.inr (hs (by decide))
    | with_reducible exact Or.inl rfl
    | with_reducible exact parts_refl
    | (with_reducible refine Or.inl ?_; and_intros <;> with_reducible rfl)
    | exact Or.inl rfl
    | with_reducible refine only_pair (by assumption) ?_
    | dsimp only
    | rw [mk_put]
    | split)

theorem State.onCmd_keeps {s0 : State} {s : State} {cid : Nat} {ok : Cmd → Bool} {f : Cmd → State} (hf : ∀ x, keeps s0 (f x))
    (h0 : keeps s0 s) : keeps s0 (State.onCmd s cid ok f) := by
  unfold State.onCmd
  try dsimp only
  repeat' (first
    | with_reducible assumption
    | with_reducible intro _
    | with_reducible apply hf
    | with_reducible apply keeps_ite
    | with_reducible apply keeps_mk
    | with_reducible exact id
    | with_reducible exact partsKeep_refl
    | with_reducible exact rasKeep_refl
    | with_reducible exact hbmKeep_refl
    | with_reducible exact pkgKeep_refl
    | with_reducible exact secKeep_refl
    | with_reducible exact namesKeep_refl
    | with_reducible refine keeps_pair (by assumption) ?_
    | dsimp only
    | rw [mk_put]
    | split)

theorem State.writeOut_only {ls : List Item} {s0 : State} {s : State} {c : Cmd} {l : List Out}
    (h0 : changesOnly ls s0 s) (hm : incl [.cmds, .out] ls = true) : changesOnly ls s0 (State.writeOut s c l) := by
  unfold State.writeOut
  try dsimp only
  repeat' (first
    | with_reducible assumption
    | with_reducible intro _
    | with_reducible apply State.modCmd_only
    | with_reducible apply State.emits_only
    | exact incl_trans rfl hm)

theorem State.writeOut_keeps {s0 : State} {s : State} {c : Cmd} {l : List Out}
    (h0 : keeps s0 s) : keeps s0 (State.writeOut s c l) := by
  unfold State.writeOut
  try dsimp only
  repeat' (first
    | with_reducible assumption
    | with_reducible intro _
    | with_reducible apply State.modCmd_keeps
    | with_reducible apply State.emits_keeps)

theorem State.output_only {ls : List Item} {s0 : State} {s : State} {c : Cmd} {off : Nat} {bs : Bytes}
    (h0 : changesOnly ls s0 s) (hm : incl [.cmds, .pAcct, .out] ls = true) : changesOnly ls s0 (State.output s c off bs) := by
  have hs := @mem_of_incl [.cmds, .pAcct, .out] ls hm
  unfold State.output
  try dsimp only
  repeat' (first
    | with_reducible assumption
    | with_reducible intro _
    | with_reducible apply State.writeOut_only
    | exact incl_trans rfl hm
    | with_reducible exact part_refl
    | with_reducible apply only_modPart
    | with_reducible apply part_mk
    | with_reducible apply only_mk
    | exact Or.inr (hs (by decide))
    | with_reducible exact Or.inl rfl
    | with_reducible exact parts_refl
    | (with_reducible refine Or.inl ?_; and_intros <;> with_reducible rfl)
    | exact Or.inl rfl
    | with_reducible refine only_pair (by assumption) ?_
    | dsimp only
    | rw [mk_put]
    | split)

theorem State.output_keeps {s0 : State} {s : State} {c : Cmd} {off : Nat} {bs : Bytes}
    (h0 : keeps s0 s) : keeps s0 (State.output s c off bs) := by
  unfold State.output
  try dsimp only
  repeat' (first
    | with_reducible assumption
    | with_reducible intro _
    | with_reducible apply State.writeOut_keeps
    | with_reducible exact pKeeps_refl
    | exact pKeeps_new rfl rfl
    | with_reducible apply keeps_modPart
    | with_reducible apply pKeeps_mk
    | with_reducible exact memKeeps_refl
    | with_reducible apply keeps_mk
    | with_reducible exact id
    | with_reducible exact partsKeep_refl
    | with_reducible exact rasKeep_refl
    | with_reducible exact hbmKeep_refl
    | with_reducible exact pkgKeep_refl
    | with_reducible exact secKeep_refl
    | with_reducible exact namesKeep_refl
    | with_reducible refine keeps_pair (by assumption) ?_
    | dsimp only
    | rw [mk_put]
    | split)

end Sys2Proof.Machine
end

