-- ==== Sys2Proof/Laws/MeshOps.lean ====
section
/-! SUPPORT. What each operation of Machine/MeshOps.lean may change: its frame, and that it
keeps the invariant and the fuses. -/

namespace Sys2Proof.Machine

open Sys2Proof.Safety Sys2Proof.Laws

theorem State.modPeer_only {ls : List Item} {s0 : State} {s : State} {d : Nat} {f : Peer → Peer}
    (h0 : changesOnly ls s0 s) (hm : incl [.peers] ls = true) : changesOnly ls s0 (State.modPeer s d f) := by
  have hs := @mem_of_incl [.peers] ls hm
  unfold State.modPeer
  try dsimp only
  repeat' (first
    | with_reducible assumption
    | with_reducible intro _
    | with_reducible apply only_ite
    | exact incl_trans rfl hm
    | with_reducible apply only_mk
    | exact Or.inr (hs (by decide))
    | with_reducible exact Or.inl rfl
    | with_reducible exact parts_refl
    | (with_reducible refine Or.inl ?_; and_intros <;> with_reducible rfl)
    | exact Or.inl rfl
    | dsimp only
    | rw [mk_put])

theorem State.modPeer_keeps {s0 : State} {s : State} {d : Nat} {f : Peer → Peer}
    (h0 : keeps s0 s) : keeps s0 (State.modPeer s d f) := by
  unfold State.modPeer
  try dsimp only
  repeat' (first
    | with_reducible assumption
    | exact len_modify
    | exact len_map
    | exact len_mapIdx
    | with_reducible intro _
    | with_reducible apply keeps_ite
    | with_reducible apply keeps_mk
    | with_reducible exact id
    | with_reducible exact partsKeep_refl
    | with_reducible exact rasKeep_refl
    | with_reducible exact hbmKeep_refl
    | with_reducible exact pkgKeep_refl
    | with_reducible exact secKeep_refl
    | with_reducible exact namesKeep_refl
    | dsimp only
    | rw [mk_put])

theorem State.setPort_only {ls : List Item} {s0 : State} {s : State} {n : Nat} {st : PortState}
    (h0 : changesOnly ls s0 s) (hm : incl [.rasLog, .hif, .fns, .ports, .out] ls = true) : changesOnly ls s0 (State.setPort s n st) := by
  unfold State.setPort
  try dsimp only
  repeat' (first
    | with_reducible assumption
    | with_reducible intro _
    | with_reducible apply State.modPort_only
    | with_reducible apply State.log_only
    | with_reducible apply State.recap_only
    | with_reducible apply State.raise_only
    | with_reducible apply only_getD
    | with_reducible apply only_ite
    | exact incl_trans rfl hm)

theorem State.setPort_keeps {s0 : State} {s : State} {n : Nat} {st : PortState}
    (h0 : keeps s0 s) : keeps s0 (State.setPort s n st) := by
  unfold State.setPort
  try dsimp only
  repeat' (first
    | with_reducible assumption
    | with_reducible intro _
    | with_reducible apply State.modPort_keeps
    | with_reducible apply State.log_keeps
    | with_reducible apply State.recap_keeps
    | with_reducible apply State.raise_keeps
    | with_reducible apply keeps_getD
    | with_reducible apply keeps_ite)

theorem State.takeCredits_only {ls : List Item} {s0 s t : State} {port type vc len since : Nat} {transit : Bool}
    {part : Option PartNo} (h0 : changesOnly ls s0 s) (hm : incl [.ports] ls = true) (h : s.takeCredits port type vc len transit part since = some t) :
    changesOnly ls s0 t := by
  have key : ∀ f, changesOnly ls s0 (s.modPort port f) := fun f => State.modPort_only h0 hm
  unfold State.takeCredits at h
  dsimp only at h
  repeat' split at h
  all_goals first
    | (cases h; exact key _)
    | (obtain ⟨w, -, rfl⟩ := Option.map_eq_some_iff.mp h; exact key _)
    | cases h

theorem State.takeCredits_keeps {s0 s t : State} {port type vc len since : Nat} {transit : Bool}
    {part : Option PartNo} (h0 : keeps s0 s) (h : s.takeCredits port type vc len transit part since = some t) :
    keeps s0 t := by
  have key : ∀ f, keeps s0 (s.modPort port f) := fun f => State.modPort_keeps h0
  unfold State.takeCredits at h
  dsimp only at h
  repeat' split at h
  all_goals first
    | (cases h; exact key _)
    | (obtain ⟨w, -, rfl⟩ := Option.map_eq_some_iff.mp h; exact key _)
    | cases h

theorem State.leaveBy_only {ls : List Item} {s0 s t : State} {port pos : Nat} {e : Word32} {type : Nat} {hdr : FrameHdr}
    {body : FrameBody} {part : Option PartNo} {since : Nat} (h0 : changesOnly ls s0 s) (hm : incl [.pAcct, .ports, .out] ls = true)
    (h : s.leaveBy port pos e type hdr body part since = some t) : changesOnly ls s0 t := by
  have hs := @mem_of_incl [.pAcct, .ports, .out] ls hm
  unfold State.leaveBy at h
  dsimp only at h
  split at h
  · cases h
  obtain ⟨u, hu, rfl⟩ := Option.map_eq_some_iff.mp h
  have k := State.takeCredits_only h0 (incl_trans rfl hm) hu
  apply State.emit_only _ (incl_trans rfl hm)
  have k2 : ∀ f, changesOnly ls s0 (u.modPort port f) := fun f => State.modPort_only k (incl_trans rfl hm)
  cases part with
  | none => exact k2 _
  | some p =>
    refine only_modPart (k2 _) fun x => ?_
    with_reducible apply part_mk
    all_goals first
      | exact part_refl
      | exact Or.inr (hs (by decide))
      | exact Or.inl rfl
      | (refine Or.inl ?_; and_intros <;> rfl)

theorem State.leaveBy_keeps {s0 s t : State} {port pos : Nat} {e : Word32} {type : Nat} {hdr : FrameHdr}
    {body : FrameBody} {part : Option PartNo} {since : Nat} (h0 : keeps s0 s)
    (h : s.leaveBy port pos e type hdr body part since = some t) : keeps s0 t := by
  unfold State.leaveBy at h
  dsimp only at h
  split at h
  · cases h
  obtain ⟨u, hu, rfl⟩ := Option.map_eq_some_iff.mp h
  have k := State.takeCredits_keeps h0 hu
  apply State.emit_keeps
  cases part with
  | none => exact State.modPort_keeps k
  | some p => exact keeps_modPart (State.modPort_keeps k) fun x => pKeeps_mk _ memKeeps_refl memKeeps_refl pKeeps_refl

theorem State.sendRouted_only {ls : List Item} {s0 : State} {s : State} {type d domain tag aux len cls : Nat} {last : Bool} {body : FrameBody} {part : Option PartNo}
    (h0 : changesOnly ls s0 s) (hm : incl [.pAcct, .ports, .peers, .transit, .out] ls = true) : changesOnly ls s0 (State.sendRouted s type d domain tag aux len cls last body part) := by
  have hs := @mem_of_incl [.pAcct, .ports, .peers, .transit, .out] ls hm
  unfold State.sendRouted
  try dsimp only
  repeat' (first
    | with_reducible assumption
    | with_reducible intro _
    | with_reducible apply State.modPeer_only
    | with_reducible apply only_getD
    | with_reducible apply only_ite
    | exact incl_trans rfl hm
    | with_reducible apply only_mk
    | exact Or.inr (hs (by decide))
    | with_reducible exact Or.inl rfl
    | with_reducible exact parts_refl
    | (with_reducible refine Or.inl ?_; and_intros <;> with_reducible rfl)
    | exact Or.inl rfl
    | (with_reducible refine State.leaveBy_only ?_ ?_ (by assumption))
    | with_reducible refine only_pair (by assumption) ?_
    | dsimp only
    | rw [mk_put]
    | split)

theorem State.sendRouted_keeps {s0 : State} {s : State} {type d domain tag aux len cls : Nat} {last : Bool} {body : FrameBody} {part : Option PartNo}
    (h0 : keeps s0 s) : keeps s0 (State.sendRouted s type d domain tag aux len cls last body part) := by
  unfold State.sendRouted
  try dsimp only
  repeat' (first
    | with_reducible assumption
    | exact len_modify
    | exact len_map
    | exact len_mapIdx
    | with_reducible intro _
    | with_reducible apply State.modPeer_keeps
    | with_reducible apply keeps_getD
    | with_reducible apply keeps_ite
    | with_reducible apply keeps_mk
    | with_reducible exact id
    | with_reducible exact partsKeep_refl
    | with_reducible exact rasKeep_refl
    | with_reducible exact hbmKeep_refl
    | with_reducible exact pkgKeep_refl
    | with_reducible exact secKeep_refl
    | with_reducible exact namesKeep_refl
    | (with_reducible refine State.leaveBy_keeps ?_ (by assumption))
    | with_reducible refine keeps_pair (by assumption) ?_
    | dsimp only
    | rw [mk_put]
    | split)

theorem State.refuse_only {ls : List Item} {s0 : State} {s : State} {type : Nat} {hdr : FrameHdr} {reason : Nat}
    (h0 : changesOnly ls s0 s) (hm : incl [.pAcct, .ports, .peers, .transit, .out] ls = true) : changesOnly ls s0 (State.refuse s type hdr reason) := by
  unfold State.refuse
  try dsimp only
  repeat' (first
    | with_reducible assumption
    | with_reducible intro _
    | with_reducible apply State.sendRouted_only
    | with_reducible apply only_ite)

theorem State.refuse_keeps {s0 : State} {s : State} {type : Nat} {hdr : FrameHdr} {reason : Nat}
    (h0 : keeps s0 s) : keeps s0 (State.refuse s type hdr reason) := by
  unfold State.refuse
  try dsimp only
  repeat' (first
    | with_reducible assumption
    | with_reducible intro _
    | with_reducible apply State.sendRouted_keeps
    | with_reducible apply keeps_ite)

theorem State.sendLink_only {ls : List Item} {s0 : State} {s : State} {port type : Nat} {body : FrameBody}
    (h0 : changesOnly ls s0 s) (hm : incl [.ports, .out] ls = true) : changesOnly ls s0 (State.sendLink s port type body) := by
  unfold State.sendLink
  try dsimp only
  repeat' (first
    | with_reducible assumption
    | with_reducible intro _
    | with_reducible apply State.modPort_only
    | with_reducible apply State.emit_only
    | with_reducible apply only_ite
    | exact incl_trans rfl hm)

theorem State.sendLink_keeps {s0 : State} {s : State} {port type : Nat} {body : FrameBody}
    (h0 : keeps s0 s) : keeps s0 (State.sendLink s port type body) := by
  unfold State.sendLink
  try dsimp only
  repeat' (first
    | with_reducible assumption
    | with_reducible intro _
    | with_reducible apply State.modPort_keeps
    | with_reducible apply State.emit_keeps
    | with_reducible apply keeps_ite)

theorem State.pumpLink_only {ls : List Item} {s0 : State} {s : State} {port : Nat}
    (h0 : changesOnly ls s0 s) (hm : incl [.ports, .out] ls = true) : changesOnly ls s0 (State.pumpLink s port) := by
  unfold State.pumpLink
  try dsimp only
  repeat' (first
    | with_reducible assumption
    | with_reducible intro _
    | with_reducible apply State.modPort_only
    | with_reducible apply State.emit_only
    | with_reducible apply only_foldl
    | with_reducible apply only_foldl_fst
    | exact incl_trans rfl hm)

theorem State.pumpLink_keeps {s0 : State} {s : State} {port : Nat}
    (h0 : keeps s0 s) : keeps s0 (State.pumpLink s port) := by
  unfold State.pumpLink
  try dsimp only
  repeat' (first
    | with_reducible assumption
    | with_reducible intro _
    | with_reducible apply State.modPort_keeps
    | with_reducible apply State.emit_keeps
    | with_reducible apply keeps_foldl)

theorem State.newTag_only {ls : List Item} {s0 : State} {s : State}
    (h0 : changesOnly ls s0 s) (hm : incl [.meshCount] ls = true) : changesOnly ls s0 (State.newTag s) := by
  have hs := @mem_of_incl [.meshCount] ls hm
  unfold State.newTag
  try dsimp only
  repeat' (first
    | with_reducible assumption
    | with_reducible intro _
    | exact incl_trans rfl hm
    | with_reducible apply only_mk
    | exact Or.inr (hs (by decide))
    | with_reducible exact Or.inl rfl
    | with_reducible exact parts_refl
    | (with_reducible refine Or.inl ?_; and_intros <;> with_reducible rfl)
    | exact Or.inl rfl
    | dsimp only
    | rw [mk_put])

theorem State.newTag_keeps {s0 : State} {s : State}
    (h0 : keeps s0 s) : keeps s0 (State.newTag s) := by
  unfold State.newTag
  try dsimp only
  repeat' (first
    | with_reducible assumption
    | exact len_modify
    | exact len_map
    | exact len_mapIdx
    | with_reducible intro _
    | with_reducible apply keeps_mk
    | with_reducible exact id
    | with_reducible exact partsKeep_refl
    | with_reducible exact rasKeep_refl
    | with_reducible exact hbmKeep_refl
    | with_reducible exact pkgKeep_refl
    | with_reducible exact secKeep_refl
    | with_reducible exact namesKeep_refl
    | dsimp only
    | rw [mk_put])

end Sys2Proof.Machine
end

