-- ==== Sys2Proof/Laws/Slm.lean ====
section
/-! SUPPORT. What each operation of Machine/Slm.lean may change: its frame, and that it
keeps the invariant and the fuses. -/

namespace Sys2Proof.Machine

open Sys2Proof.Safety Sys2Proof.Laws

theorem State.touchLine_only {ls : List Item} {s0 : State} {s : State} {p : PartNo} {off : Nat}
    (h0 : changesOnly ls s0 s) (hm : incl [.slm] ls = true) : changesOnly ls s0 (State.touchLine s p off) := by
  have hs := @mem_of_incl [.slm] ls hm
  unfold State.touchLine
  try dsimp only
  repeat' (first
    | with_reducible assumption
    | with_reducible intro _
    | with_reducible apply only_getD
    | with_reducible apply only_ite
    | exact incl_trans rfl hm
    | with_reducible apply only_mk
    | exact Or.inr (hs (by decide))
    | with_reducible exact Or.inl rfl
    | with_reducible exact parts_refl
    | (with_reducible refine Or.inl ?_; and_intros <;> with_reducible rfl)
    | exact Or.inl rfl
    | with_reducible refine only_pair (by assumption) ?_
    | dsimp only
    | rw [mk_put]
    | split)

theorem State.touchLine_keeps {s0 : State} {s : State} {p : PartNo} {off : Nat}
    (h0 : keeps s0 s) : keeps s0 (State.touchLine s p off) := by
  unfold State.touchLine
  try dsimp only
  repeat' (first
    | with_reducible assumption
    | with_reducible intro _
    | with_reducible apply keeps_getD
    | with_reducible apply keeps_ite
    | with_reducible apply keeps_mk
    | with_reducible exact id
    | with_reducible exact partsKeep_refl
    | with_reducible exact rasKeep_refl
    | with_reducible exact hbmKeep_refl
    | with_reducible exact pkgKeep_refl
    | with_reducible exact secKeep_refl
    | with_reducible exact namesKeep_refl
    | with_reducible refine keeps_pair (by assumption) ?_
    | dsimp only
    | rw [mk_put]
    | split)

theorem State.touch_only {ls : List Item} {s0 : State} {s : State} {p : PartNo} {r : Reads}
    (h0 : changesOnly ls s0 s) (hm : incl [.slm] ls = true) : changesOnly ls s0 (State.touch s p r) := by
  unfold State.touch
  try dsimp only
  repeat' (first
    | with_reducible assumption
    | with_reducible intro _
    | with_reducible apply State.touchLine_only
    | with_reducible apply only_ite
    | with_reducible apply only_foldl)

theorem State.touch_keeps {s0 : State} {s : State} {p : PartNo} {r : Reads}
    (h0 : keeps s0 s) : keeps s0 (State.touch s p r) := by
  unfold State.touch
  try dsimp only
  repeat' (first
    | with_reducible assumption
    | with_reducible intro _
    | with_reducible apply State.touchLine_keeps
    | with_reducible apply keeps_ite
    | with_reducible apply keeps_foldl)

theorem State.settled_only {ls : List Item} {s0 : State} {s t : State} (ht : changesOnly ls s0 t)
    (h0 : changesOnly ls s0 s) (hm : incl [.slm] ls = true) : changesOnly ls s0 (State.settled s t) := by
  have hs := @mem_of_incl [.slm] ls hm
  unfold State.settled
  try dsimp only
  repeat' (first
    | with_reducible assumption
    | with_reducible intro _
    | with_reducible apply only_ite
    | exact incl_trans rfl hm
    | with_reducible apply only_mk
    | exact Or.inr (hs (by decide))
    | with_reducible exact Or.inl rfl
    | with_reducible exact parts_refl
    | (with_reducible refine Or.inl ?_; and_intros <;> with_reducible rfl)
    | exact Or.inl rfl
    | dsimp only
    | rw [mk_put])

theorem State.settled_keeps {s0 : State} {s t : State} (ht : keeps s0 t)
    (h0 : keeps s0 s) : keeps s0 (State.settled s t) := by
  unfold State.settled
  try dsimp only
  repeat' (first
    | with_reducible assumption
    | with_reducible intro _
    | with_reducible apply keeps_ite
    | with_reducible apply keeps_mk
    | with_reducible exact id
    | with_reducible exact partsKeep_refl
    | with_reducible exact rasKeep_refl
    | with_reducible exact hbmKeep_refl
    | with_reducible exact pkgKeep_refl
    | with_reducible exact secKeep_refl
    | with_reducible exact namesKeep_refl
    | dsimp only
    | rw [mk_put])

theorem State.stageLines_only {ls : List Item} {s0 : State} {s : State} {p : PartNo} {cid : Nat} {r : Reads}
    (h0 : changesOnly ls s0 s) (hm : incl [.slm] ls = true) : changesOnly ls s0 (State.stageLines s p cid r) := by
  have hs := @mem_of_incl [.slm] ls hm
  unfold State.stageLines
  try dsimp only
  repeat' (first
    | with_reducible assumption
    | with_reducible intro _
    | with_reducible apply State.touchLine_only
    | with_reducible apply only_getD
    | with_reducible apply only_ite
    | with_reducible apply only_foldl
    | with_reducible apply only_foldl_fst
    | exact incl_trans rfl hm
    | with_reducible apply only_mk
    | exact Or.inr (hs (by decide))
    | with_reducible exact Or.inl rfl
    | with_reducible exact parts_refl
    | (with_reducible refine Or.inl ?_; and_intros <;> with_reducible rfl)
    | exact Or.inl rfl
    | dsimp only
    | rw [mk_put])

theorem State.stageLines_keeps {s0 : State} {s : State} {p : PartNo} {cid : Nat} {r : Reads}
    (h0 : keeps s0 s) : keeps s0 (State.stageLines s p cid r) := by
  unfold State.stageLines
  try dsimp only
  repeat' (first
    | with_reducible assumption
    | with_reducible intro _
    | with_reducible apply State.touchLine_keeps
    | with_reducible apply keeps_getD
    | with_reducible apply keeps_ite
    | with_reducible apply keeps_foldl
    | with_reducible apply keeps_foldl_fst
    | with_reducible apply keeps_mk
    | with_reducible exact id
    | with_reducible exact partsKeep_refl
    | with_reducible exact rasKeep_refl
    | with_reducible exact hbmKeep_refl
    | with_reducible exact pkgKeep_refl
    | with_reducible exact secKeep_refl
    | with_reducible exact namesKeep_refl
    | dsimp only
    | rw [mk_put])

theorem State.dropLines_only {ls : List Item} {s0 : State} {s : State} {f : Nat → CacheLine → Bool}
    (h0 : changesOnly ls s0 s) (hm : incl [.slm] ls = true) : changesOnly ls s0 (State.dropLines s f) := by
  have hs := @mem_of_incl [.slm] ls hm
  unfold State.dropLines
  try dsimp only
  repeat' (first
    | with_reducible assumption
    | with_reducible intro _
    | exact incl_trans rfl hm
    | with_reducible apply only_mk
    | exact Or.inr (hs (by decide))
    | with_reducible exact Or.inl rfl
    | with_reducible exact parts_refl
    | (with_reducible refine Or.inl ?_; and_intros <;> with_reducible rfl)
    | exact Or.inl rfl
    | dsimp only
    | rw [mk_put])

theorem State.dropLines_keeps {s0 : State} {s : State} {f : Nat → CacheLine → Bool}
    (h0 : keeps s0 s) : keeps s0 (State.dropLines s f) := by
  unfold State.dropLines
  try dsimp only
  repeat' (first
    | with_reducible assumption
    | with_reducible intro _
    | with_reducible apply keeps_mk
    | with_reducible exact id
    | with_reducible exact partsKeep_refl
    | with_reducible exact rasKeep_refl
    | with_reducible exact hbmKeep_refl
    | with_reducible exact pkgKeep_refl
    | with_reducible exact secKeep_refl
    | with_reducible exact namesKeep_refl
    | dsimp only
    | rw [mk_put])

theorem State.fillsEnd_only {ls : List Item} {s0 : State} {s : State}
    (h0 : changesOnly ls s0 s) (hm : incl [.slm] ls = true) : changesOnly ls s0 (State.fillsEnd s) := by
  have hs := @mem_of_incl [.slm] ls hm
  unfold State.fillsEnd
  try dsimp only
  repeat' (first
    | with_reducible assumption
    | with_reducible intro _
    | with_reducible apply only_ite
    | exact incl_trans rfl hm
    | with_reducible apply only_mk
    | exact Or.inr (hs (by decide))
    | with_reducible exact Or.inl rfl
    | with_reducible exact parts_refl
    | (with_reducible refine Or.inl ?_; and_intros <;> with_reducible rfl)
    | exact Or.inl rfl
    | dsimp only
    | rw [mk_put])

theorem State.fillsEnd_keeps {s0 : State} {s : State}
    (h0 : keeps s0 s) : keeps s0 (State.fillsEnd s) := by
  unfold State.fillsEnd
  try dsimp only
  repeat' (first
    | with_reducible assumption
    | with_reducible intro _
    | with_reducible apply keeps_ite
    | with_reducible apply keeps_mk
    | with_reducible exact id
    | with_reducible exact partsKeep_refl
    | with_reducible exact rasKeep_refl
    | with_reducible exact hbmKeep_refl
    | with_reducible exact pkgKeep_refl
    | with_reducible exact secKeep_refl
    | with_reducible exact namesKeep_refl
    | dsimp only
    | rw [mk_put])

theorem State.reads_only {ls : List Item} {s0 : State} {s : State} {p : PartNo} {r : Reads}
    (h0 : changesOnly ls s0 s) (hm : incl [.slm] ls = true) : changesOnly ls s0 (State.reads s p r).1 := by
  unfold State.reads
  try dsimp only
  repeat' first | with_reducible assumption | with_reducible intro _ | with_reducible apply State.touch_only

theorem State.reads_keeps {s0 : State} {s : State} {p : PartNo} {r : Reads}
    (h0 : keeps s0 s) : keeps s0 (State.reads s p r).1 := by
  unfold State.reads
  try dsimp only
  repeat' first | with_reducible assumption | with_reducible intro _ | with_reducible apply State.touch_keeps

theorem State.memAnswer_only {ls : List Item} {s0 : State} {s : State} {r : BarRead}
    (h0 : changesOnly ls s0 s) (hm : incl [.out, .fresh] ls = true) : changesOnly ls s0 (State.memAnswer s r) := by
  unfold State.memAnswer
  try dsimp only
  repeat' (first
    | with_reducible assumption
    | with_reducible intro _
    | with_reducible apply State.bump_only
    | with_reducible apply State.emit_only
    | with_reducible apply only_ite
    | exact incl_trans rfl hm)

theorem State.memAnswer_keeps {s0 : State} {s : State} {r : BarRead}
    (h0 : keeps s0 s) : keeps s0 (State.memAnswer s r) := by
  unfold State.memAnswer
  try dsimp only
  repeat' (first
    | with_reducible assumption
    | with_reducible intro _
    | with_reducible apply State.bump_keeps
    | with_reducible apply State.emit_keeps
    | with_reducible apply keeps_ite)

theorem State.memRead_only {ls : List Item} {s0 : State} {s : State} {r : BarRead}
    (h0 : changesOnly ls s0 s) (hm : incl [.slm, .out, .fresh] ls = true) : changesOnly ls s0 (State.memRead s r) := by
  have hs := @mem_of_incl [.slm, .out, .fresh] ls hm
  unfold State.memRead
  try dsimp only
  repeat' (first
    | with_reducible assumption
    | with_reducible intro _
    | with_reducible apply State.touch_only
    | with_reducible apply State.memAnswer_only
    | with_reducible apply only_ite
    | exact incl_trans rfl hm
    | with_reducible apply only_mk
    | exact Or.inr (hs (by decide))
    | with_reducible exact Or.inl rfl
    | with_reducible exact parts_refl
    | (with_reducible refine Or.inl ?_; and_intros <;> with_reducible rfl)
    | exact Or.inl rfl
    | dsimp only
    | rw [mk_put])

theorem State.memRead_keeps {s0 : State} {s : State} {r : BarRead}
    (h0 : keeps s0 s) : keeps s0 (State.memRead s r) := by
  unfold State.memRead
  try dsimp only
  repeat' (first
    | with_reducible assumption
    | with_reducible intro _
    | with_reducible apply State.touch_keeps
    | with_reducible apply State.memAnswer_keeps
    | with_reducible apply keeps_ite
    | with_reducible apply keeps_mk
    | with_reducible exact id
    | with_reducible exact partsKeep_refl
    | with_reducible exact rasKeep_refl
    | with_reducible exact hbmKeep_refl
    | with_reducible exact pkgKeep_refl
    | with_reducible exact secKeep_refl
    | with_reducible exact namesKeep_refl
    | dsimp only
    | rw [mk_put])

theorem State.stackServes_only {ls : List Item} {s0 : State} {s : State}
    (h0 : changesOnly ls s0 s) (hm : incl [.slm, .out, .fresh] ls = true) : changesOnly ls s0 (State.stackServes s) := by
  have hs := @mem_of_incl [.slm, .out, .fresh] ls hm
  unfold State.stackServes
  try dsimp only
  repeat' (first
    | with_reducible assumption
    | with_reducible intro _
    | with_reducible apply State.memRead_only
    | with_reducible apply State.fillsEnd_only
    | with_reducible apply only_foldl
    | with_reducible apply only_foldl_fst
    | exact incl_trans rfl hm
    | with_reducible apply only_mk
    | exact Or.inr (hs (by decide))
    | with_reducible exact Or.inl rfl
    | with_reducible exact parts_refl
    | (with_reducible refine Or.inl ?_; and_intros <;> with_reducible rfl)
    | exact Or.inl rfl
    | dsimp only
    | rw [mk_put])

theorem State.stackServes_keeps {s0 : State} {s : State}
    (h0 : keeps s0 s) : keeps s0 (State.stackServes s) := by
  unfold State.stackServes
  try dsimp only
  repeat' (first
    | with_reducible assumption
    | with_reducible intro _
    | with_reducible apply State.memRead_keeps
    | with_reducible apply State.fillsEnd_keeps
    | with_reducible apply keeps_foldl
    | with_reducible apply keeps_foldl_fst
    | with_reducible apply keeps_mk
    | with_reducible exact id
    | with_reducible exact partsKeep_refl
    | with_reducible exact rasKeep_refl
    | with_reducible exact hbmKeep_refl
    | with_reducible exact pkgKeep_refl
    | with_reducible exact secKeep_refl
    | with_reducible exact namesKeep_refl
    | dsimp only
    | rw [mk_put])

theorem State.wroteLine_only {ls : List Item} {s0 : State} {s : State} {p : PartNo} {off : Nat} {whole : Bool}
    (h0 : changesOnly ls s0 s) (hm : incl [.slm] ls = true) : changesOnly ls s0 (State.wroteLine s p off whole) := by
  have hs := @mem_of_incl [.slm] ls hm
  unfold State.wroteLine
  try dsimp only
  repeat' (first
    | with_reducible assumption
    | with_reducible intro _
    | with_reducible apply only_ite
    | exact incl_trans rfl hm
    | with_reducible apply only_mk
    | exact Or.inr (hs (by decide))
    | with_reducible exact Or.inl rfl
    | with_reducible exact parts_refl
    | (with_reducible refine Or.inl ?_; and_intros <;> with_reducible rfl)
    | exact Or.inl rfl
    | dsimp only
    | rw [mk_put])

theorem State.wroteLine_keeps {s0 : State} {s : State} {p : PartNo} {off : Nat} {whole : Bool}
    (h0 : keeps s0 s) : keeps s0 (State.wroteLine s p off whole) := by
  unfold State.wroteLine
  try dsimp only
  repeat' (first
    | with_reducible assumption
    | with_reducible intro _
    | with_reducible apply keeps_ite
    | with_reducible apply keeps_mk
    | with_reducible exact id
    | with_reducible exact partsKeep_refl
    | with_reducible exact rasKeep_refl
    | with_reducible exact hbmKeep_refl
    | with_reducible exact pkgKeep_refl
    | with_reducible exact secKeep_refl
    | with_reducible exact namesKeep_refl
    | dsimp only
    | rw [mk_put])

theorem State.wrBurst_only {ls : List Item} {s0 : State} {s : State} {p : PartNo} {cid : Option Nat} {off : Nat} {bs : Bytes}
    (h0 : changesOnly ls s0 s) (hm : incl [.rasLog, .fns, .cmds, .pMem, .poison, .slm, .out] ls = true) : changesOnly ls s0 (State.wrBurst s p cid off bs) := by
  have hs := @mem_of_incl [.rasLog, .fns, .cmds, .pMem, .poison, .slm, .out] ls hm
  unfold State.wrBurst
  try dsimp only
  repeat' (first
    | with_reducible assumption
    | with_reducible intro _
    | with_reducible apply State.wroteLine_only
    | with_reducible apply PartSt.wr_only
    | with_reducible apply State.logDiscard_only
    | with_reducible apply only_ite
    | exact incl_trans rfl hm
    | with_reducible exact part_refl
    | with_reducible apply part_ite
    | with_reducible apply only_modPart
    | with_reducible apply part_mk
    | with_reducible apply only_mk
    | exact Or.inr (hs (by decide))
    | with_reducible exact Or.inl rfl
    | with_reducible exact parts_refl
    | (with_reducible refine Or.inl ?_; and_intros <;> with_reducible rfl)
    | exact Or.inl rfl
    | (refine Or.inl ?_; and_intros <;> rfl)
    | with_reducible refine only_pair (by assumption) ?_
    | dsimp only
    | rw [mk_put])

theorem State.wrBurst_keeps {s0 : State} {s : State} {p : PartNo} {cid : Option Nat} {off : Nat} {bs : Bytes}
    (h0 : keeps s0 s) : keeps s0 (State.wrBurst s p cid off bs) := by
  unfold State.wrBurst
  try dsimp only
  repeat' (first
    | with_reducible assumption
    | with_reducible intro _
    | with_reducible apply State.wroteLine_keeps
    | with_reducible apply PartSt.wr_keeps
    | with_reducible apply State.logDiscard_keeps
    | with_reducible apply keeps_ite
    | with_reducible exact pKeeps_refl
    | exact pKeeps_new rfl rfl
    | with_reducible apply pKeeps_ite
    | with_reducible apply keeps_modPart
    | with_reducible apply pKeeps_mk
    | with_reducible exact memKeeps_refl
    | with_reducible apply keeps_mk
    | with_reducible exact id
    | with_reducible exact partsKeep_refl
    | with_reducible exact rasKeep_refl
    | with_reducible exact hbmKeep_refl
    | with_reducible exact pkgKeep_refl
    | with_reducible exact secKeep_refl
    | with_reducible exact namesKeep_refl
    | (refine (⟨?_, ?_⟩ : hbmKeep _ _) <;> first | exact id | exact len_modify | exact len_map | exact len_mapIdx | exact len_set)
    | with_reducible refine keeps_pair (by assumption) ?_
    | dsimp only
    | rw [mk_put])

theorem State.wrMem_only {ls : List Item} {s0 : State} {s : State} {p : PartNo} {cid : Option Nat} {off : Nat} {bs : Bytes}
    (h0 : changesOnly ls s0 s) (hm : incl [.rasLog, .fns, .cmds, .pMem, .poison, .slm, .out] ls = true) : changesOnly ls s0 (State.wrMem s p cid off bs) := by
  unfold State.wrMem
  try dsimp only
  repeat' (first
    | with_reducible assumption
    | with_reducible intro _
    | with_reducible apply PartSt.wr_only
    | with_reducible apply State.wrBurst_only
    | with_reducible apply only_ite
    | with_reducible apply only_foldl
    | with_reducible apply only_foldl_fst
    | exact incl_trans rfl hm
    | with_reducible exact part_refl
    | with_reducible apply part_ite
    | with_reducible apply part_foldl
    | with_reducible apply only_modPart)

theorem State.wrMem_keeps {s0 : State} {s : State} {p : PartNo} {cid : Option Nat} {off : Nat} {bs : Bytes}
    (h0 : keeps s0 s) : keeps s0 (State.wrMem s p cid off bs) := by
  unfold State.wrMem
  try dsimp only
  repeat' (first
    | with_reducible assumption
    | with_reducible intro _
    | with_reducible apply PartSt.wr_keeps
    | with_reducible apply State.wrBurst_keeps
    | with_reducible apply keeps_ite
    | with_reducible apply keeps_foldl
    | with_reducible apply keeps_foldl_fst
    | with_reducible exact pKeeps_refl
    | exact pKeeps_new rfl rfl
    | with_reducible apply pKeeps_ite
    | with_reducible apply pKeeps_foldl
    | with_reducible apply keeps_modPart)

end Sys2Proof.Machine
end

