-- ==== Sys2Proof/Laws/Records.lean ====
section
/-! SUPPORT. What each operation of Machine/Records.lean may change: its frame, and that it
keeps the invariant and the fuses. -/

namespace Sys2Proof.Machine

open Sys2Proof.Safety Sys2Proof.Laws

theorem State.initMem_only {ls : List Item} {s0 : State} {s : State} {p : PartNo} {lo hi : Nat} {f : Fill}
    (h0 : changesOnly ls s0 s) (hm : incl [.pMem, .poison, .slm] ls = true) : changesOnly ls s0 (State.initMem s p lo hi f) := by
  have hs := @mem_of_incl [.pMem, .poison, .slm] ls hm
  unfold State.initMem
  try dsimp only
  repeat' (first
    | with_reducible assumption
    | with_reducible intro _
    | exact incl_trans rfl hm
    | with_reducible exact part_refl
    | with_reducible apply only_modPart
    | with_reducible apply part_mk
    | with_reducible apply only_mk
    | exact Or.inr (hs (by decide))
    | with_reducible exact Or.inl rfl
    | with_reducible exact parts_refl
    | (with_reducible refine Or.inl ?_; and_intros <;> with_reducible rfl)
    | exact Or.inl rfl
    | (refine Or.inl ?_; and_intros <;> rfl)
    | with_reducible refine only_pair (by assumption) ?_
    | dsimp only
    | rw [mk_put])

theorem State.initMem_keeps {s0 : State} {s : State} {p : PartNo} {lo hi : Nat} {f : Fill}
    (h0 : keeps s0 s) : keeps s0 (State.initMem s p lo hi f) := by
  unfold State.initMem
  try dsimp only
  repeat' (first
    | with_reducible assumption
    | with_reducible intro _
    | with_reducible exact pKeeps_refl
    | exact pKeeps_new rfl rfl
    | with_reducible apply keeps_modPart
    | with_reducible apply pKeeps_mk
    | with_reducible exact memKeeps_refl
    | exact memKeeps_init memKeeps_refl
    | exact memKeeps_write memKeeps_refl
    | exact memKeeps_scratch
    | exact memKeeps_empty
    | with_reducible apply keeps_mk
    | with_reducible exact id
    | with_reducible exact partsKeep_refl
    | with_reducible exact rasKeep_refl
    | with_reducible exact hbmKeep_refl
    | with_reducible exact pkgKeep_refl
    | with_reducible exact secKeep_refl
    | with_reducible exact namesKeep_refl
    | (refine (⟨?_, ?_⟩ : hbmKeep _ _) <;> first | exact id | exact len_modify | exact len_map | exact len_mapIdx | exact len_set)
    | with_reducible refine keeps_pair (by assumption) ?_
    | dsimp only
    | rw [mk_put])

theorem State.fillColl_only {ls : List Item} {s0 : State} {s : State} {p : PartNo} {k : Coll} {matrix : Bytes}
    (h0 : changesOnly ls s0 s) (hm : incl [.pMem, .poison, .slm] ls = true) : changesOnly ls s0 (State.fillColl s p k matrix) := by
  unfold State.fillColl
  try dsimp only
  repeat' (first
    | with_reducible assumption
    | with_reducible intro _
    | with_reducible apply State.initMem_only
    | with_reducible apply PartSt.wr_only
    | with_reducible apply only_ite
    | exact incl_trans rfl hm
    | with_reducible exact part_refl
    | with_reducible apply part_ite
    | with_reducible apply only_modPart)

theorem State.fillColl_keeps {s0 : State} {s : State} {p : PartNo} {k : Coll} {matrix : Bytes}
    (h0 : keeps s0 s) : keeps s0 (State.fillColl s p k matrix) := by
  unfold State.fillColl
  try dsimp only
  repeat' (first
    | with_reducible assumption
    | with_reducible intro _
    | with_reducible apply State.initMem_keeps
    | with_reducible apply PartSt.wr_keeps
    | with_reducible apply keeps_ite
    | with_reducible exact pKeeps_refl
    | exact pKeeps_new rfl rfl
    | with_reducible apply pKeeps_ite
    | with_reducible apply keeps_modPart)

theorem State.idPlace_only {ls : List Item} {s0 : State} {s : State} {p : PartNo} {cid : Option Nat} {c : Coll} {taken : List Nat}
    {n g slot : Nat} (h0 : changesOnly ls s0 s) (hm : incl [.rasLog, .fns, .cmds, .pMem, .poison, .slm, .out, .fresh] ls = true) :
    changesOnly ls s0 (State.idPlace s p cid c taken n g slot).1 := by
  induction n generalizing s g slot with
  | zero => exact h0
  | succ n ih =>
    have hb : changesOnly ls s0 s.bump := State.bump_only h0 (incl_trans rfl hm)
    have key : ∀ a bs, changesOnly ls s0 (s.bump.wrMem p cid a bs) := fun a bs => State.wrMem_only hb (incl_trans rfl hm)
    unfold State.idPlace
    dsimp only
    split
    · exact hb
    split
    · exact ih (key _ _)
    · exact key _ _

theorem State.idPlace_keeps {s0 : State} {s : State} {p : PartNo} {cid : Option Nat} {c : Coll} {taken : List Nat}
    {n g slot : Nat} (h0 : keeps s0 s) :
    keeps s0 (State.idPlace s p cid c taken n g slot).1 := by
  induction n generalizing s g slot with
  | zero => exact h0
  | succ n ih =>
    have hb : keeps s0 s.bump := State.bump_keeps h0
    have key : ∀ a bs, keeps s0 (s.bump.wrMem p cid a bs) := fun a bs => State.wrMem_keeps hb
    unfold State.idPlace
    dsimp only
    split
    · exact hb
    split
    · exact ih (key _ _)
    · exact key _ _

theorem State.idStash_only {ls : List Item} {s0 : State} {s : State} {p : PartNo} {uid room : Nat} {r : State × Option (Nat × Nat)}
    (h0 : changesOnly ls s0 s) (hr : changesOnly ls s0 r.1) (hm : incl [.pColls] ls = true) :
    changesOnly ls s0 (State.idStash s p uid room r).1 := by
  unfold State.idStash
  split
  · exact hr
  split
  · exact State.modCollU_only hr (incl_trans rfl hm)
  · exact h0

theorem State.idStash_keeps {s0 : State} {s : State} {p : PartNo} {uid room : Nat} {r : State × Option (Nat × Nat)}
    (h0 : keeps s0 s) (hr : keeps s0 r.1) :
    keeps s0 (State.idStash s p uid room r).1 := by
  unfold State.idStash
  split
  · exact hr
  split
  · exact State.modCollU_keeps hr
  · exact h0

theorem State.idClaim_only {ls : List Item} {s0 : State} {s : State} {p : PartNo} {k : Coll} {claims : List (Nat × Option Nat)} {g : Nat}
    (h0 : changesOnly ls s0 s) (hm : incl [.rasLog, .fns, .cmds, .pMem, .pColls, .poison, .slm, .out, .fresh] ls = true) : changesOnly ls s0 (State.idClaim s p k claims g).1 := by
  have hs := @mem_of_incl [.rasLog, .fns, .cmds, .pMem, .pColls, .poison, .slm, .out, .fresh] ls hm
  unfold State.idClaim
  try dsimp only
  repeat' (first
    | with_reducible assumption
    | with_reducible intro _
    | with_reducible apply State.bump_only
    | with_reducible apply State.idPlace_only
    | with_reducible apply State.wrMem_only
    | with_reducible apply State.idStash_only
    | with_reducible apply only_getD
    | with_reducible apply only_ite
    | with_reducible apply only_ite_fst
    | exact incl_trans rfl hm
    | with_reducible apply only_mk
    | exact Or.inr (hs (by decide))
    | with_reducible exact Or.inl rfl
    | with_reducible exact parts_refl
    | (with_reducible refine Or.inl ?_; and_intros <;> with_reducible rfl)
    | exact Or.inl rfl
    | with_reducible refine only_pair (by assumption) ?_
    | dsimp only
    | rw [mk_put]
    | split)

theorem State.idClaim_keeps {s0 : State} {s : State} {p : PartNo} {k : Coll} {claims : List (Nat × Option Nat)} {g : Nat}
    (h0 : keeps s0 s) : keeps s0 (State.idClaim s p k claims g).1 := by
  unfold State.idClaim
  try dsimp only
  repeat' (first
    | with_reducible assumption
    | with_reducible intro _
    | with_reducible apply State.bump_keeps
    | with_reducible apply State.idPlace_keeps
    | with_reducible apply State.wrMem_keeps
    | with_reducible apply State.idStash_keeps
    | with_reducible apply keeps_getD
    | with_reducible apply keeps_ite
    | with_reducible apply keeps_ite_fst
    | with_reducible apply keeps_mk
    | with_reducible exact id
    | with_reducible exact partsKeep_refl
    | with_reducible exact rasKeep_refl
    | with_reducible exact hbmKeep_refl
    | with_reducible exact pkgKeep_refl
    | with_reducible exact secKeep_refl
    | with_reducible exact namesKeep_refl
    | with_reducible refine keeps_pair (by assumption) ?_
    | dsimp only
    | rw [mk_put]
    | split)

theorem State.idClaimAll_only {ls : List Item} {s0 : State} {s : State} {p : PartNo} {k : Coll} {ids : List Nat}
    (h0 : changesOnly ls s0 s) (hm : incl [.rasLog, .fns, .cmds, .pMem, .pColls, .poison, .slm, .out, .fresh] ls = true) : changesOnly ls s0 (State.idClaimAll s p k ids).1 := by
  have hs := @mem_of_incl [.rasLog, .fns, .cmds, .pMem, .pColls, .poison, .slm, .out, .fresh] ls hm
  unfold State.idClaimAll
  try dsimp only
  repeat' (first
    | with_reducible assumption
    | with_reducible intro _
    | with_reducible apply State.idClaim_only
    | with_reducible apply only_foldl
    | with_reducible apply only_foldl_fst
    | exact incl_trans rfl hm
    | with_reducible apply only_mk
    | exact Or.inr (hs (by decide))
    | with_reducible exact Or.inl rfl
    | with_reducible exact parts_refl
    | (with_reducible refine Or.inl ?_; and_intros <;> with_reducible rfl)
    | exact Or.inl rfl
    | with_reducible refine only_pair (by assumption) ?_
    | dsimp only
    | rw [mk_put]
    | split)

theorem State.idClaimAll_keeps {s0 : State} {s : State} {p : PartNo} {k : Coll} {ids : List Nat}
    (h0 : keeps s0 s) : keeps s0 (State.idClaimAll s p k ids).1 := by
  unfold State.idClaimAll
  try dsimp only
  repeat' (first
    | with_reducible assumption
    | with_reducible intro _
    | with_reducible apply State.idClaim_keeps
    | with_reducible apply keeps_foldl
    | with_reducible apply keeps_foldl_fst
    | with_reducible apply keeps_mk
    | with_reducible exact id
    | with_reducible exact partsKeep_refl
    | with_reducible exact rasKeep_refl
    | with_reducible exact hbmKeep_refl
    | with_reducible exact pkgKeep_refl
    | with_reducible exact secKeep_refl
    | with_reducible exact namesKeep_refl
    | with_reducible refine keeps_pair (by assumption) ?_
    | dsimp only
    | rw [mk_put]
    | split)

theorem State.idSet_only {ls : List Item} {s0 : State} {s : State} {p : PartNo} {cid : Option Nat} {c : Coll} {g slot : Nat}
    (h0 : changesOnly ls s0 s) (hm : incl [.rasLog, .fns, .cmds, .pMem, .pColls, .poison, .slm, .out, .fresh] ls = true) : changesOnly ls s0 (State.idSet s p cid c g slot).1 := by
  have hs := @mem_of_incl [.rasLog, .fns, .cmds, .pMem, .pColls, .poison, .slm, .out, .fresh] ls hm
  unfold State.idSet
  try dsimp only
  repeat' (first
    | with_reducible assumption
    | with_reducible intro _
    | with_reducible apply State.idPlace_only
    | with_reducible apply State.wrMem_only
    | with_reducible apply State.idStash_only
    | with_reducible apply State.modCollU_only
    | with_reducible apply only_ite
    | with_reducible apply only_ite_fst
    | exact incl_trans rfl hm
    | with_reducible apply only_mk
    | exact Or.inr (hs (by decide))
    | with_reducible exact Or.inl rfl
    | with_reducible exact parts_refl
    | (with_reducible refine Or.inl ?_; and_intros <;> with_reducible rfl)
    | exact Or.inl rfl
    | with_reducible refine only_pair (by assumption) ?_
    | dsimp only
    | rw [mk_put]
    | split)

theorem State.idSet_keeps {s0 : State} {s : State} {p : PartNo} {cid : Option Nat} {c : Coll} {g slot : Nat}
    (h0 : keeps s0 s) : keeps s0 (State.idSet s p cid c g slot).1 := by
  unfold State.idSet
  try dsimp only
  repeat' (first
    | with_reducible assumption
    | with_reducible intro _
    | with_reducible apply State.idPlace_keeps
    | with_reducible apply State.wrMem_keeps
    | with_reducible apply State.idStash_keeps
    | with_reducible apply State.modCollU_keeps
    | with_reducible apply keeps_ite
    | with_reducible apply keeps_ite_fst
    | with_reducible apply keeps_mk
    | with_reducible exact id
    | with_reducible exact partsKeep_refl
    | with_reducible exact rasKeep_refl
    | with_reducible exact hbmKeep_refl
    | with_reducible exact pkgKeep_refl
    | with_reducible exact secKeep_refl
    | with_reducible exact namesKeep_refl
    | with_reducible refine keeps_pair (by assumption) ?_
    | dsimp only
    | rw [mk_put]
    | split)

theorem State.idClear_only {ls : List Item} {s0 : State} {s : State} {p : PartNo} {cid : Option Nat} {c : Coll} {g : Nat}
    (h0 : changesOnly ls s0 s) (hm : incl [.rasLog, .fns, .cmds, .pMem, .pColls, .poison, .slm, .out] ls = true) : changesOnly ls s0 (State.idClear s p cid c g) := by
  have hs := @mem_of_incl [.rasLog, .fns, .cmds, .pMem, .pColls, .poison, .slm, .out] ls hm
  unfold State.idClear
  try dsimp only
  repeat' (first
    | with_reducible assumption
    | with_reducible intro _
    | with_reducible apply State.wrMem_only
    | with_reducible apply State.modCollU_only
    | exact incl_trans rfl hm
    | with_reducible apply only_mk
    | exact Or.inr (hs (by decide))
    | with_reducible exact Or.inl rfl
    | with_reducible exact parts_refl
    | (with_reducible refine Or.inl ?_; and_intros <;> with_reducible rfl)
    | exact Or.inl rfl
    | with_reducible refine only_pair (by assumption) ?_
    | dsimp only
    | rw [mk_put]
    | split)

theorem State.idClear_keeps {s0 : State} {s : State} {p : PartNo} {cid : Option Nat} {c : Coll} {g : Nat}
    (h0 : keeps s0 s) : keeps s0 (State.idClear s p cid c g) := by
  unfold State.idClear
  try dsimp only
  repeat' (first
    | with_reducible assumption
    | with_reducible intro _
    | with_reducible apply State.wrMem_keeps
    | with_reducible apply State.modCollU_keeps
    | with_reducible apply keeps_mk
    | with_reducible exact id
    | with_reducible exact partsKeep_refl
    | with_reducible exact rasKeep_refl
    | with_reducible exact hbmKeep_refl
    | with_reducible exact pkgKeep_refl
    | with_reducible exact secKeep_refl
    | with_reducible exact namesKeep_refl
    | with_reducible refine keeps_pair (by assumption) ?_
    | dsimp only
    | rw [mk_put]
    | split)

theorem State.countAdd_only {ls : List Item} {s0 : State} {s : State} {p : PartNo} {cid : Option Nat} {c : Coll} {field value : Nat} {d : Int}
    (h0 : changesOnly ls s0 s) (hm : incl [.rasLog, .fns, .cmds, .pMem, .poison, .slm, .out] ls = true) : changesOnly ls s0 (State.countAdd s p cid c field value d) := by
  have hs := @mem_of_incl [.rasLog, .fns, .cmds, .pMem, .poison, .slm, .out] ls hm
  unfold State.countAdd
  try dsimp only
  repeat' (first
    | with_reducible assumption
    | with_reducible intro _
    | with_reducible apply State.reads_only
    | with_reducible apply State.wrMem_only
    | with_reducible apply State.logLate_only
    | exact incl_trans rfl hm
    | with_reducible apply only_mk
    | exact Or.inr (hs (by decide))
    | with_reducible exact Or.inl rfl
    | with_reducible exact parts_refl
    | (with_reducible refine Or.inl ?_; and_intros <;> with_reducible rfl)
    | exact Or.inl rfl
    | with_reducible refine only_pair (by assumption) ?_
    | dsimp only
    | rw [mk_put]
    | split)

theorem State.countAdd_keeps {s0 : State} {s : State} {p : PartNo} {cid : Option Nat} {c : Coll} {field value : Nat} {d : Int}
    (h0 : keeps s0 s) : keeps s0 (State.countAdd s p cid c field value d) := by
  unfold State.countAdd
  try dsimp only
  repeat' (first
    | with_reducible assumption
    | with_reducible intro _
    | with_reducible apply State.reads_keeps
    | with_reducible apply State.wrMem_keeps
    | with_reducible apply State.logLate_keeps
    | with_reducible apply keeps_mk
    | with_reducible exact id
    | with_reducible exact partsKeep_refl
    | with_reducible exact rasKeep_refl
    | with_reducible exact hbmKeep_refl
    | with_reducible exact pkgKeep_refl
    | with_reducible exact secKeep_refl
    | with_reducible exact namesKeep_refl
    | with_reducible refine keeps_pair (by assumption) ?_
    | dsimp only
    | rw [mk_put]
    | split)

theorem State.openLists_only {ls : List Item} {s0 : State} {s : State} {p : PartNo} {c : Coll}
    (h0 : changesOnly ls s0 s) (hm : incl [.pMem] ls = true) : changesOnly ls s0 (State.openLists s p c) := by
  have hs := @mem_of_incl [.pMem] ls hm
  unfold State.openLists
  try dsimp only
  repeat' (first
    | with_reducible assumption
    | with_reducible intro _
    | with_reducible apply only_ite
    | exact incl_trans rfl hm
    | with_reducible exact part_refl
    | with_reducible apply part_ite
    | with_reducible apply only_modPart
    | with_reducible apply part_mk
    | with_reducible apply only_mk
    | exact Or.inr (hs (by decide))
    | with_reducible exact Or.inl rfl
    | with_reducible exact parts_refl
    | (with_reducible refine Or.inl ?_; and_intros <;> with_reducible rfl))

theorem State.openLists_keeps {s0 : State} {s : State} {p : PartNo} {c : Coll}
    (h0 : keeps s0 s) : keeps s0 (State.openLists s p c) := by
  unfold State.openLists
  try dsimp only
  repeat' (first
    | with_reducible assumption
    | with_reducible intro _
    | with_reducible apply keeps_ite
    | with_reducible exact pKeeps_refl
    | exact pKeeps_new rfl rfl
    | with_reducible apply pKeeps_ite
    | with_reducible apply keeps_modPart
    | with_reducible apply pKeeps_mk
    | with_reducible exact memKeeps_refl
    | exact memKeeps_init memKeeps_refl)

theorem State.postAdd_only {ls : List Item} {s0 : State} {s : State} {p : PartNo} {cid : Option Nat} {c : Coll} {attr slot : Nat}
    (h0 : changesOnly ls s0 s) (hm : incl [.rasLog, .fns, .cmds, .pMem, .pColls, .poison, .slm, .out] ls = true) : changesOnly ls s0 (State.postAdd s p cid c attr slot) := by
  unfold State.postAdd
  try dsimp only
  repeat' (first
    | with_reducible assumption
    | with_reducible intro _
    | with_reducible apply State.openLists_only
    | with_reducible apply State.countAdd_only
    | with_reducible apply State.modCollU_only
    | with_reducible apply only_foldl
    | with_reducible apply only_foldl_fst
    | exact incl_trans rfl hm)

theorem State.postAdd_keeps {s0 : State} {s : State} {p : PartNo} {cid : Option Nat} {c : Coll} {attr slot : Nat}
    (h0 : keeps s0 s) : keeps s0 (State.postAdd s p cid c attr slot) := by
  unfold State.postAdd
  try dsimp only
  repeat' (first
    | with_reducible assumption
    | with_reducible intro _
    | with_reducible apply State.openLists_keeps
    | with_reducible apply State.countAdd_keeps
    | with_reducible apply State.modCollU_keeps
    | with_reducible apply keeps_foldl)

theorem State.postDrop_only {ls : List Item} {s0 : State} {s : State} {p : PartNo} {cid : Option Nat} {c : Coll} {attr slot stamp : Nat}
    (h0 : changesOnly ls s0 s) (hm : incl [.rasLog, .fns, .cmds, .pMem, .pColls, .poison, .slm, .out] ls = true) : changesOnly ls s0 (State.postDrop s p cid c attr slot stamp) := by
  unfold State.postDrop
  try dsimp only
  repeat' (first
    | with_reducible assumption
    | with_reducible intro _
    | with_reducible apply State.countAdd_only
    | with_reducible apply State.modCollU_only
    | with_reducible apply only_ite
    | with_reducible apply only_foldl
    | with_reducible apply only_foldl_fst
    | exact incl_trans rfl hm)

theorem State.postDrop_keeps {s0 : State} {s : State} {p : PartNo} {cid : Option Nat} {c : Coll} {attr slot stamp : Nat}
    (h0 : keeps s0 s) : keeps s0 (State.postDrop s p cid c attr slot stamp) := by
  unfold State.postDrop
  try dsimp only
  repeat' (first
    | with_reducible assumption
    | with_reducible intro _
    | with_reducible apply State.countAdd_keeps
    | with_reducible apply State.modCollU_keeps
    | with_reducible apply keeps_ite
    | with_reducible apply keeps_foldl)

theorem State.postMove_only {ls : List Item} {s0 : State} {s : State} {p : PartNo} {cid : Option Nat} {c : Coll} {old new slot stamp : Nat}
    (h0 : changesOnly ls s0 s) (hm : incl [.rasLog, .fns, .cmds, .pMem, .pColls, .poison, .slm, .out] ls = true) : changesOnly ls s0 (State.postMove s p cid c old new slot stamp) := by
  unfold State.postMove
  try dsimp only
  repeat' (first
    | with_reducible assumption
    | with_reducible intro _
    | with_reducible apply State.openLists_only
    | with_reducible apply State.countAdd_only
    | with_reducible apply State.modCollU_only
    | with_reducible apply only_ite
    | with_reducible apply only_foldl
    | with_reducible apply only_foldl_fst
    | exact incl_trans rfl hm)

theorem State.postMove_keeps {s0 : State} {s : State} {p : PartNo} {cid : Option Nat} {c : Coll} {old new slot stamp : Nat}
    (h0 : keeps s0 s) : keeps s0 (State.postMove s p cid c old new slot stamp) := by
  unfold State.postMove
  try dsimp only
  repeat' (first
    | with_reducible assumption
    | with_reducible intro _
    | with_reducible apply State.openLists_keeps
    | with_reducible apply State.countAdd_keeps
    | with_reducible apply State.modCollU_keeps
    | with_reducible apply keeps_ite
    | with_reducible apply keeps_foldl)

end Sys2Proof.Machine
end

