-- ==== Sys2Proof/Laws/Undo.lean ====
section
/-! SUPPORT. What each operation of Machine/Undo.lean may change: its frame, and that it
keeps the invariant and the fuses. -/

namespace Sys2Proof.Machine

open Sys2Proof.Safety Sys2Proof.Laws

theorem State.edgeDrop_only {ls : List Item} {s0 : State} {s : State} {p : PartNo} {k : Coll} {n x : Nat}
    (h0 : changesOnly ls s0 s) (hm : incl [.rasLog, .fns, .cmds, .pMem, .poison, .slm, .out] ls = true) : changesOnly ls s0 (State.edgeDrop s p k n x) := by
  unfold State.edgeDrop
  try dsimp only
  repeat' (first
    | with_reducible assumption
    | with_reducible intro _
    | with_reducible apply State.wrMem_only
    | with_reducible apply only_ite)

theorem State.edgeDrop_keeps {s0 : State} {s : State} {p : PartNo} {k : Coll} {n x : Nat}
    (h0 : keeps s0 s) : keeps s0 (State.edgeDrop s p k n x) := by
  unfold State.edgeDrop
  try dsimp only
  repeat' (first
    | with_reducible assumption
    | with_reducible intro _
    | with_reducible apply State.wrMem_keeps
    | with_reducible apply keeps_ite)

theorem State.undoRec_only {ls : List Item} {s0 : State} {s : State} {p : PartNo} {k : Coll} {r : MutRec}
    (h0 : changesOnly ls s0 s) (hm : incl [.rasLog, .fns, .cmds, .pMem, .pColls, .poison, .slm, .out, .fresh] ls = true) : changesOnly ls s0 (State.undoRec s p k r) := by
  have hs := @mem_of_incl [.rasLog, .fns, .cmds, .pMem, .pColls, .poison, .slm, .out, .fresh] ls hm
  unfold State.undoRec
  try dsimp only
  repeat' (first
    | with_reducible assumption
    | with_reducible intro _
    | with_reducible apply State.wrMem_only
    | with_reducible apply State.edgeDrop_only
    | with_reducible apply State.idClear_only
    | with_reducible apply State.idSet_only
    | with_reducible apply only_ite
    | with_reducible apply only_foldl
    | with_reducible apply only_foldl_fst
    | exact incl_trans rfl hm
    | with_reducible apply only_mk
    | exact Or.inr (hs (by decide))
    | with_reducible exact Or.inl rfl
    | with_reducible exact parts_refl
    | (with_reducible refine Or.inl ?_; and_intros <;> with_reducible rfl)
    | exact Or.inl rfl
    | with_reducible refine only_pair (by assumption) ?_
    | dsimp only
    | rw [mk_put]
    | split)

theorem State.undoRec_keeps {s0 : State} {s : State} {p : PartNo} {k : Coll} {r : MutRec}
    (h0 : keeps s0 s) : keeps s0 (State.undoRec s p k r) := by
  unfold State.undoRec
  try dsimp only
  repeat' (first
    | with_reducible assumption
    | with_reducible intro _
    | with_reducible apply State.wrMem_keeps
    | with_reducible apply State.edgeDrop_keeps
    | with_reducible apply State.idClear_keeps
    | with_reducible apply State.idSet_keeps
    | with_reducible apply keeps_ite
    | with_reducible apply keeps_foldl
    | with_reducible apply keeps_foldl_fst
    | with_reducible apply keeps_mk
    | with_reducible exact id
    | with_reducible exact partsKeep_refl
    | with_reducible exact rasKeep_refl
    | with_reducible exact hbmKeep_refl
    | with_reducible exact pkgKeep_refl
    | with_reducible exact secKeep_refl
    | with_reducible exact namesKeep_refl
    | with_reducible refine keeps_pair (by assumption) ?_
    | dsimp only
    | rw [mk_put]
    | split)

theorem State.tellMembers_only {ls : List Item} {s0 : State} {s : State} {p : PartNo} {k : Coll} {tag : Nat} {members : List Nat} {body : CmdBody}
    (h0 : changesOnly ls s0 s) (hm : incl [.pAcct, .ports, .peers, .transit, .out] ls = true) : changesOnly ls s0 (State.tellMembers s p k tag members body) := by
  unfold State.tellMembers
  try dsimp only
  repeat' (first
    | with_reducible assumption
    | with_reducible intro _
    | with_reducible apply State.sendRouted_only
    | with_reducible apply only_getD
    | with_reducible apply only_foldl)

theorem State.tellMembers_keeps {s0 : State} {s : State} {p : PartNo} {k : Coll} {tag : Nat} {members : List Nat} {body : CmdBody}
    (h0 : keeps s0 s) : keeps s0 (State.tellMembers s p k tag members body) := by
  unfold State.tellMembers
  try dsimp only
  repeat' (first
    | with_reducible assumption
    | with_reducible intro _
    | with_reducible apply State.sendRouted_keeps
    | with_reducible apply keeps_getD
    | with_reducible apply keeps_foldl)

theorem State.abortMesh_only {ls : List Item} {s0 : State} {s : State} {p : PartNo} {k : Coll} {c : Cmd}
    (h0 : changesOnly ls s0 s) (hm : incl [.pAcct, .ports, .peers, .transit, .out] ls = true) : changesOnly ls s0 (State.abortMesh s p k c) := by
  have hs := @mem_of_incl [.pAcct, .ports, .peers, .transit, .out] ls hm
  unfold State.abortMesh
  try dsimp only
  repeat' (first
    | with_reducible assumption
    | with_reducible intro _
    | with_reducible apply State.tellMembers_only
    | with_reducible apply only_ite
    | exact incl_trans rfl hm
    | with_reducible apply only_mk
    | exact Or.inr (hs (by decide))
    | with_reducible exact Or.inl rfl
    | with_reducible exact parts_refl
    | (with_reducible refine Or.inl ?_; and_intros <;> with_reducible rfl)
    | exact Or.inl rfl
    | with_reducible refine only_pair (by assumption) ?_
    | dsimp only
    | rw [mk_put]
    | split)

theorem State.abortMesh_keeps {s0 : State} {s : State} {p : PartNo} {k : Coll} {c : Cmd}
    (h0 : keeps s0 s) : keeps s0 (State.abortMesh s p k c) := by
  unfold State.abortMesh
  try dsimp only
  repeat' (first
    | with_reducible assumption
    | with_reducible intro _
    | with_reducible apply State.tellMembers_keeps
    | with_reducible apply keeps_ite
    | with_reducible apply keeps_mk
    | with_reducible exact id
    | with_reducible exact partsKeep_refl
    | with_reducible exact rasKeep_refl
    | with_reducible exact hbmKeep_refl
    | with_reducible exact pkgKeep_refl
    | with_reducible exact secKeep_refl
    | with_reducible exact namesKeep_refl
    | with_reducible refine keeps_pair (by assumption) ?_
    | dsimp only
    | rw [mk_put]
    | split)

theorem State.undo_only {ls : List Item} {s0 : State} {s : State} {c : Cmd}
    (h0 : changesOnly ls s0 s) (hm : incl [.rasLog, .fns, .cmds, .pMem, .pColls, .pAcct, .poison, .slm, .ports, .peers, .transit, .out, .fresh] ls = true) : changesOnly ls s0 (State.undo s c) := by
  have hs := @mem_of_incl [.rasLog, .fns, .cmds, .pMem, .pColls, .pAcct, .poison, .slm, .ports, .peers, .transit, .out, .fresh] ls hm
  unfold State.undo
  try dsimp only
  repeat' (first
    | with_reducible assumption
    | with_reducible intro _
    | with_reducible apply State.abortMesh_only
    | with_reducible apply State.undoRec_only
    | with_reducible apply only_foldl
    | with_reducible apply only_foldl_fst
    | exact incl_trans rfl hm
    | with_reducible apply only_mk
    | exact Or.inr (hs (by decide))
    | with_reducible exact Or.inl rfl
    | with_reducible exact parts_refl
    | (with_reducible refine Or.inl ?_; and_intros <;> with_reducible rfl)
    | exact Or.inl rfl
    | with_reducible refine only_pair (by assumption) ?_
    | dsimp only
    | rw [mk_put]
    | split)

theorem State.undo_keeps {s0 : State} {s : State} {c : Cmd}
    (h0 : keeps s0 s) : keeps s0 (State.undo s c) := by
  unfold State.undo
  try dsimp only
  repeat' (first
    | with_reducible assumption
    | with_reducible intro _
    | with_reducible apply State.abortMesh_keeps
    | with_reducible apply State.undoRec_keeps
    | with_reducible apply keeps_foldl
    | with_reducible apply keeps_foldl_fst
    | with_reducible apply keeps_mk
    | with_reducible exact id
    | with_reducible exact partsKeep_refl
    | with_reducible exact rasKeep_refl
    | with_reducible exact hbmKeep_refl
    | with_reducible exact pkgKeep_refl
    | with_reducible exact secKeep_refl
    | with_reducible exact namesKeep_refl
    | with_reducible refine keeps_pair (by assumption) ?_
    | dsimp only
    | rw [mk_put]
    | split)

end Sys2Proof.Machine
end

