-- ==== Sys2Proof/Laws/Kill.lean ====
section
/-! SUPPORT. What each operation of Machine/Kill.lean may change: its frame, and that it
keeps the invariant and the fuses. -/

namespace Sys2Proof.Machine

open Sys2Proof.Safety Sys2Proof.Laws

theorem State.countKills_only {ls : List Item} {s0 : State} {s : State} {cid : Nat}
    (h0 : changesOnly ls s0 s) (hm : incl [.pAcct] ls = true) : changesOnly ls s0 (State.countKills s cid) := by
  have hs := @mem_of_incl [.pAcct] ls hm
  unfold State.countKills
  try dsimp only
  repeat' (first
    | with_reducible assumption
    | with_reducible intro _
    | exact incl_trans rfl hm
    | with_reducible exact part_refl
    | with_reducible apply only_modPart
    | with_reducible apply part_mk
    | with_reducible apply only_mk
    | exact Or.inr (hs (by decide))
    | with_reducible exact Or.inl rfl
    | with_reducible exact parts_refl
    | (with_reducible refine Or.inl ?_; and_intros <;> with_reducible rfl)
    | exact Or.inl rfl
    | with_reducible refine only_pair (by assumption) ?_
    | dsimp only
    | rw [mk_put]
    | split)

theorem State.countKills_keeps {s0 : State} {s : State} {cid : Nat}
    (h0 : keeps s0 s) : keeps s0 (State.countKills s cid) := by
  unfold State.countKills
  try dsimp only
  repeat' (first
    | with_reducible assumption
    | with_reducible intro _
    | with_reducible exact pKeeps_refl
    | exact pKeeps_new rfl rfl
    | with_reducible apply keeps_modPart
    | with_reducible apply pKeeps_mk
    | with_reducible exact memKeeps_refl
    | with_reducible apply keeps_mk
    | with_reducible exact id
    | with_reducible exact partsKeep_refl
    | with_reducible exact rasKeep_refl
    | with_reducible exact hbmKeep_refl
    | with_reducible exact pkgKeep_refl
    | with_reducible exact secKeep_refl
    | with_reducible exact namesKeep_refl
    | with_reducible refine keeps_pair (by assumption) ?_
    | dsimp only
    | rw [mk_put]
    | split)

theorem State.killRerun_only {ls : List Item} {s0 : State} {s : State} {cid : Nat} {preempted : Bool}
    (h0 : changesOnly ls s0 s) (hm : incl [.cmds, .pAcct, .ctxs, .streams, .ristretto, .semaphores, .ports, .peers, .transit, .out] ls = true) : changesOnly ls s0 (State.killRerun s cid preempted) := by
  have hs := @mem_of_incl [.cmds, .pAcct, .ctxs, .streams, .ristretto, .semaphores, .ports, .peers, .transit, .out] ls hm
  unfold State.killRerun
  try dsimp only
  repeat' (first
    | with_reducible assumption
    | with_reducible intro _
    | with_reducible apply State.leave_only
    | with_reducible apply State.abortMesh_only
    | with_reducible apply State.countKills_only
    | with_reducible apply State.modCmd_only
    | with_reducible apply only_ite
    | exact incl_trans rfl hm
    | with_reducible apply only_mk
    | exact Or.inr (hs (by decide))
    | with_reducible exact Or.inl rfl
    | with_reducible exact parts_refl
    | (with_reducible refine Or.inl ?_; and_intros <;> with_reducible rfl)
    | exact Or.inl rfl
    | with_reducible refine only_pair (by assumption) ?_
    | dsimp only
    | rw [mk_put]
    | split)

theorem State.killRerun_keeps {s0 : State} {s : State} {cid : Nat} {preempted : Bool}
    (h0 : keeps s0 s) : keeps s0 (State.killRerun s cid preempted) := by
  unfold State.killRerun
  try dsimp only
  repeat' (first
    | with_reducible assumption
    | exact len_modify
    | exact len_map
    | exact len_mapIdx
    | with_reducible intro _
    | with_reducible apply State.leave_keeps
    | with_reducible apply State.abortMesh_keeps
    | with_reducible apply State.countKills_keeps
    | with_reducible apply State.modCmd_keeps
    | with_reducible apply keeps_ite
    | with_reducible apply keeps_mk
    | with_reducible exact id
    | with_reducible exact partsKeep_refl
    | with_reducible exact rasKeep_refl
    | with_reducible exact hbmKeep_refl
    | with_reducible exact pkgKeep_refl
    | with_reducible exact secKeep_refl
    | with_reducible exact namesKeep_refl
    | exact rfl
    | with_reducible refine keeps_pair (by assumption) ?_
    | dsimp only
    | rw [mk_put]
    | split)

theorem State.endCmd_only {ls : List Item} {s0 : State} {s : State} {cid : Nat}
    (h0 : changesOnly ls s0 s) (hm : incl [.rasLog, .fns, .cmds, .locks, .pMem, .pColls, .pAcct, .ctxs, .streams, .ristretto, .semaphores, .poison, .slm, .ports, .peers, .transit, .out, .fresh] ls = true) : changesOnly ls s0 (State.endCmd s cid) := by
  have hs := @mem_of_incl [.rasLog, .fns, .cmds, .locks, .pMem, .pColls, .pAcct, .ctxs, .streams, .ristretto, .semaphores, .poison, .slm, .ports, .peers, .transit, .out, .fresh] ls hm
  unfold State.endCmd
  try dsimp only
  repeat' (first
    | with_reducible assumption
    | with_reducible intro _
    | with_reducible apply State.drop_only
    | with_reducible apply State.modCmd_only
    | with_reducible apply State.undo_only
    | with_reducible apply only_ite
    | exact incl_trans rfl hm
    | with_reducible apply only_mk
    | exact Or.inr (hs (by decide))
    | with_reducible exact Or.inl rfl
    | with_reducible exact parts_refl
    | (with_reducible refine Or.inl ?_; and_intros <;> with_reducible rfl)
    | exact Or.inl rfl
    | with_reducible refine only_pair (by assumption) ?_
    | dsimp only
    | rw [mk_put]
    | split)

theorem State.endCmd_keeps {s0 : State} {s : State} {cid : Nat}
    (h0 : keeps s0 s) : keeps s0 (State.endCmd s cid) := by
  unfold State.endCmd
  try dsimp only
  repeat' (first
    | with_reducible assumption
    | with_reducible intro _
    | with_reducible apply State.drop_keeps
    | with_reducible apply State.modCmd_keeps
    | with_reducible apply State.undo_keeps
    | with_reducible apply keeps_ite
    | with_reducible apply keeps_mk
    | with_reducible exact id
    | with_reducible exact partsKeep_refl
    | with_reducible exact rasKeep_refl
    | with_reducible exact hbmKeep_refl
    | with_reducible exact pkgKeep_refl
    | with_reducible exact secKeep_refl
    | with_reducible exact namesKeep_refl
    | exact rfl
    | with_reducible refine keeps_pair (by assumption) ?_
    | dsimp only
    | rw [mk_put]
    | split)

theorem State.dropShadow_only {ls : List Item} {s0 : State} {s : State} {c : Cmd}
    (h0 : changesOnly ls s0 s) (hm : incl [.rasLog, .fns, .cmds, .locks, .pMem, .pColls, .pShadows, .pAcct, .ctxs, .streams, .ristretto, .semaphores, .poison, .slm, .ports, .peers, .transit, .out, .fresh] ls = true) : changesOnly ls s0 (State.dropShadow s c) := by
  have hs := @mem_of_incl [.rasLog, .fns, .cmds, .locks, .pMem, .pColls, .pShadows, .pAcct, .ctxs, .streams, .ristretto, .semaphores, .poison, .slm, .ports, .peers, .transit, .out, .fresh] ls hm
  unfold State.dropShadow
  try dsimp only
  repeat' (first
    | with_reducible assumption
    | with_reducible intro _
    | with_reducible apply State.drop_only
    | with_reducible apply State.undo_only
    | exact incl_trans rfl hm
    | with_reducible exact part_refl
    | with_reducible apply only_modPart
    | with_reducible apply part_mk
    | with_reducible apply only_mk
    | exact Or.inr (hs (by decide))
    | with_reducible exact Or.inl rfl
    | with_reducible exact parts_refl
    | (with_reducible refine Or.inl ?_; and_intros <;> with_reducible rfl)
    | exact Or.inl rfl
    | with_reducible refine only_pair (by assumption) ?_
    | dsimp only
    | rw [mk_put]
    | split)

theorem State.dropShadow_keeps {s0 : State} {s : State} {c : Cmd}
    (h0 : keeps s0 s) : keeps s0 (State.dropShadow s c) := by
  unfold State.dropShadow
  try dsimp only
  repeat' (first
    | with_reducible assumption
    | with_reducible intro _
    | with_reducible apply State.drop_keeps
    | with_reducible apply State.undo_keeps
    | with_reducible exact pKeeps_refl
    | exact pKeeps_new rfl rfl
    | with_reducible apply keeps_modPart
    | with_reducible apply pKeeps_mk
    | with_reducible exact memKeeps_refl
    | with_reducible apply keeps_mk
    | with_reducible exact id
    | with_reducible exact partsKeep_refl
    | with_reducible exact rasKeep_refl
    | with_reducible exact hbmKeep_refl
    | with_reducible exact pkgKeep_refl
    | with_reducible exact secKeep_refl
    | with_reducible exact namesKeep_refl
    | with_reducible refine keeps_pair (by assumption) ?_
    | dsimp only
    | rw [mk_put]
    | split)

theorem State.endWhere_only {ls : List Item} {s0 : State} {s : State} {f : Cmd → Bool}
    (h0 : changesOnly ls s0 s) (hm : incl [.rasLog, .fns, .cmds, .locks, .pMem, .pColls, .pAcct, .ctxs, .streams, .ristretto, .semaphores, .poison, .slm, .ports, .peers, .transit, .out, .fresh] ls = true) : changesOnly ls s0 (State.endWhere s f) := by
  unfold State.endWhere
  try dsimp only
  repeat' (first
    | with_reducible assumption
    | with_reducible intro _
    | with_reducible apply State.endCmd_only
    | with_reducible apply only_foldl)

theorem State.endWhere_keeps {s0 : State} {s : State} {f : Cmd → Bool}
    (h0 : keeps s0 s) : keeps s0 (State.endWhere s f) := by
  unfold State.endWhere
  try dsimp only
  repeat' (first
    | with_reducible assumption
    | with_reducible intro _
    | with_reducible apply State.endCmd_keeps
    | with_reducible apply keeps_foldl)

theorem State.settle_only {ls : List Item} {s0 : State} {s : State} {cid : Nat} {r : Compl}
    (h0 : changesOnly ls s0 s) (hm : incl [.cmds, .locks, .ctxs, .streams, .ristretto, .semaphores] ls = true) : changesOnly ls s0 (State.settle s cid r) := by
  unfold State.settle
  try dsimp only
  repeat' (first
    | with_reducible assumption
    | with_reducible intro _
    | with_reducible apply State.finish_only
    | with_reducible apply State.modCmd_only
    | exact incl_trans rfl hm)

theorem State.settle_keeps {s0 : State} {s : State} {cid : Nat} {r : Compl}
    (h0 : keeps s0 s) : keeps s0 (State.settle s cid r) := by
  unfold State.settle
  try dsimp only
  repeat' (first
    | with_reducible assumption
    | with_reducible intro _
    | with_reducible apply State.finish_keeps
    | with_reducible apply State.modCmd_keeps)

theorem State.reported_only {ls : List Item} {s0 : State} {s : State} {cid member : Nat}
    (h0 : changesOnly ls s0 s) (hm : incl [.cmds] ls = true) : changesOnly ls s0 (State.reported s cid member) := by
  unfold State.reported
  try dsimp only
  repeat' first | with_reducible assumption | with_reducible intro _ | with_reducible apply State.modCmd_only

theorem State.reported_keeps {s0 : State} {s : State} {cid member : Nat} (h0 : keeps s0 s) : keeps s0 (State.reported s cid member) := by
  unfold State.reported
  refine State.modCmd_keeps h0 fun c hc => ?_
  dsimp only
  unfold Cmd.totalled
  repeat' first | exact hc | split

theorem State.shareFailed_only {ls : List Item} {s0 : State} {s : State} {cid member waits status : Nat}
    (h0 : changesOnly ls s0 s) (hm : incl [.cmds] ls = true) : changesOnly ls s0 (State.shareFailed s cid member waits status) := by
  unfold State.shareFailed
  try dsimp only
  repeat' (first
    | with_reducible assumption
    | with_reducible intro _
    | with_reducible apply State.reported_only
    | with_reducible apply State.modCmd_only)

theorem State.shareFailed_keeps {s0 : State} {s : State} {cid member waits status : Nat}
    (h0 : keeps s0 s) : keeps s0 (State.shareFailed s cid member waits status) := by
  unfold State.shareFailed
  try dsimp only
  repeat' (first
    | with_reducible assumption
    | exact len_modify
    | exact len_map
    | exact len_mapIdx
    | with_reducible intro _
    | with_reducible apply State.reported_keeps
    | with_reducible apply State.modCmd_keeps)

theorem State.tearDown_only {ls : List Item} {s0 : State} {s : State} {cid : Nat} {status : Nat} {cause : Bytes}
    (h0 : changesOnly ls s0 s) (hm : incl [.rasLog, .fns, .cmds, .locks, .pMem, .pColls, .pAcct, .ctxs, .streams, .ristretto, .semaphores, .poison, .slm, .ports, .peers, .transit, .out, .fresh] ls = true) : changesOnly ls s0 (State.tearDown s cid status cause) := by
  have hs := @mem_of_incl [.rasLog, .fns, .cmds, .locks, .pMem, .pColls, .pAcct, .ctxs, .streams, .ristretto, .semaphores, .poison, .slm, .ports, .peers, .transit, .out, .fresh] ls hm
  unfold State.tearDown
  try dsimp only
  repeat' (first
    | with_reducible assumption
    | with_reducible intro _
    | with_reducible apply State.shareFailed_only
    | with_reducible apply State.settle_only
    | with_reducible apply State.undo_only
    | with_reducible apply State.fail_only
    | with_reducible apply only_ite
    | exact incl_trans rfl hm
    | with_reducible apply only_mk
    | exact Or.inr (hs (by decide))
    | with_reducible exact Or.inl rfl
    | with_reducible exact parts_refl
    | (with_reducible refine Or.inl ?_; and_intros <;> with_reducible rfl)
    | exact Or.inl rfl
    | with_reducible refine only_pair (by assumption) ?_
    | dsimp only
    | rw [mk_put]
    | split)

theorem State.tearDown_keeps {s0 : State} {s : State} {cid : Nat} {status : Nat} {cause : Bytes}
    (h0 : keeps s0 s) : keeps s0 (State.tearDown s cid status cause) := by
  unfold State.tearDown
  try dsimp only
  repeat' (first
    | with_reducible assumption
    | with_reducible intro _
    | with_reducible apply State.shareFailed_keeps
    | with_reducible apply State.settle_keeps
    | with_reducible apply State.undo_keeps
    | with_reducible apply State.fail_keeps
    | with_reducible apply keeps_ite
    | with_reducible apply keeps_mk
    | with_reducible exact id
    | with_reducible exact partsKeep_refl
    | with_reducible exact rasKeep_refl
    | with_reducible exact hbmKeep_refl
    | with_reducible exact pkgKeep_refl
    | with_reducible exact secKeep_refl
    | with_reducible exact namesKeep_refl
    | with_reducible refine keeps_pair (by assumption) ?_
    | dsimp only
    | rw [mk_put]
    | split)

theorem State.freeze_only {ls : List Item} {s0 : State} {s : State} {fn : Fn} {qid seq cls : Nat}
    (h0 : changesOnly ls s0 s) (hm : incl [.pairs] ls = true) : changesOnly ls s0 (State.freeze s fn qid seq cls) := by
  unfold State.freeze
  try dsimp only
  repeat' first | with_reducible assumption | with_reducible intro _ | with_reducible apply State.modPair_only

theorem State.freeze_keeps {s0 : State} {s : State} {fn : Fn} {qid seq cls : Nat}
    (h0 : keeps s0 s) : keeps s0 (State.freeze s fn qid seq cls) := by
  unfold State.freeze
  try dsimp only
  repeat' first | with_reducible assumption | with_reducible intro _ | with_reducible apply State.modPair_keeps

theorem State.failRestart_only {ls : List Item} {s0 : State} {s : State} {deleter : Option Nat} {cid : Nat}
    (h0 : changesOnly ls s0 s) (hm : incl [.cmds, .locks, .ctxs, .streams, .ristretto, .semaphores] ls = true) : changesOnly ls s0 (State.failRestart s deleter cid) := by
  unfold State.failRestart
  try dsimp only
  repeat' (first
    | with_reducible assumption
    | with_reducible intro _
    | with_reducible apply State.modCmd_only
    | with_reducible apply State.fail_only
    | exact incl_trans rfl hm)

theorem State.failRestart_keeps {s0 : State} {s : State} {deleter : Option Nat} {cid : Nat}
    (h0 : keeps s0 s) : keeps s0 (State.failRestart s deleter cid) := by
  unfold State.failRestart
  try dsimp only
  repeat' (first
    | with_reducible assumption
    | with_reducible intro _
    | with_reducible apply State.modCmd_keeps
    | with_reducible apply State.fail_keeps)

theorem State.startDelete_only {ls : List Item} {s0 : State} {s : State} {fn : Fn} {qid : Nat} {deleter : Option Nat}
    (h0 : changesOnly ls s0 s) (hm : incl [.rasLog, .fns, .pairs, .cmds, .locks, .pMem, .pColls, .pAcct, .ctxs, .streams, .ristretto, .semaphores, .poison, .slm, .ports, .peers, .transit, .out, .fresh] ls = true) : changesOnly ls s0 (State.startDelete s fn qid deleter) := by
  have hs := @mem_of_incl [.rasLog, .fns, .pairs, .cmds, .locks, .pMem, .pColls, .pAcct, .ctxs, .streams, .ristretto, .semaphores, .poison, .slm, .ports, .peers, .transit, .out, .fresh] ls hm
  unfold State.startDelete
  try dsimp only
  repeat' (first
    | with_reducible assumption
    | with_reducible intro _
    | with_reducible apply State.endWhere_only
    | with_reducible apply State.modPair_only
    | with_reducible apply State.failRestart_only
    | with_reducible apply only_foldl
    | with_reducible apply only_foldl_fst
    | exact incl_trans rfl hm
    | with_reducible apply only_mk
    | exact Or.inr (hs (by decide))
    | with_reducible exact Or.inl rfl
    | with_reducible exact parts_refl
    | (with_reducible refine Or.inl ?_; and_intros <;> with_reducible rfl)
    | exact Or.inl rfl
    | with_reducible refine only_pair (by assumption) ?_
    | dsimp only
    | rw [mk_put]
    | split)

theorem State.startDelete_keeps {s0 : State} {s : State} {fn : Fn} {qid : Nat} {deleter : Option Nat}
    (h0 : keeps s0 s) : keeps s0 (State.startDelete s fn qid deleter) := by
  unfold State.startDelete
  try dsimp only
  repeat' (first
    | with_reducible assumption
    | with_reducible intro _
    | with_reducible apply State.endWhere_keeps
    | with_reducible apply State.modPair_keeps
    | with_reducible apply State.failRestart_keeps
    | with_reducible apply keeps_foldl
    | with_reducible apply keeps_foldl_fst
    | with_reducible apply keeps_mk
    | with_reducible exact id
    | with_reducible exact partsKeep_refl
    | with_reducible exact rasKeep_refl
    | with_reducible exact hbmKeep_refl
    | with_reducible exact pkgKeep_refl
    | with_reducible exact secKeep_refl
    | with_reducible exact namesKeep_refl
    | with_reducible refine keeps_pair (by assumption) ?_
    | dsimp only
    | rw [mk_put]
    | split)

theorem State.endDelete_only {ls : List Item} {s0 : State} {s : State} {fn : Fn} {qid : Nat}
    (h0 : changesOnly ls s0 s) (hm : incl [.fns, .pairs, .cmds, .locks, .ctxs, .streams, .ristretto, .semaphores] ls = true) : changesOnly ls s0 (State.endDelete s fn qid) := by
  have hs := @mem_of_incl [.fns, .pairs, .cmds, .locks, .ctxs, .streams, .ristretto, .semaphores] ls hm
  unfold State.endDelete
  try dsimp only
  repeat' (first
    | with_reducible assumption
    | with_reducible intro _
    | with_reducible apply State.modFn_only
    | with_reducible apply State.finish_only
    | with_reducible apply State.modCmd_only
    | with_reducible apply only_ite
    | with_reducible apply only_foldl
    | with_reducible apply only_foldl_fst
    | exact incl_trans rfl hm
    | with_reducible apply only_mk
    | exact Or.inr (hs (by decide))
    | with_reducible exact Or.inl rfl
    | with_reducible exact parts_refl
    | (with_reducible refine Or.inl ?_; and_intros <;> with_reducible rfl)
    | exact Or.inl rfl
    | with_reducible refine only_pair (by assumption) ?_
    | dsimp only
    | rw [mk_put]
    | split)

theorem State.endDelete_keeps {s0 : State} {s : State} {fn : Fn} {qid : Nat}
    (h0 : keeps s0 s) : keeps s0 (State.endDelete s fn qid) := by
  unfold State.endDelete
  try dsimp only
  repeat' (first
    | with_reducible assumption
    | with_reducible intro _
    | with_reducible apply State.modFn_keeps
    | with_reducible apply State.finish_keeps
    | with_reducible apply State.modCmd_keeps
    | with_reducible apply keeps_ite
    | with_reducible apply keeps_foldl
    | with_reducible apply keeps_foldl_fst
    | with_reducible apply keeps_mk
    | with_reducible exact id
    | with_reducible exact partsKeep_refl
    | with_reducible exact rasKeep_refl
    | with_reducible exact hbmKeep_refl
    | with_reducible exact pkgKeep_refl
    | with_reducible exact secKeep_refl
    | with_reducible exact namesKeep_refl
    | exact rfl
    | with_reducible refine keeps_pair (by assumption) ?_
    | dsimp only
    | rw [mk_put]
    | split)

theorem State.deletePairs_only {ls : List Item} {s0 : State} {s : State} {f : Pair → Bool}
    (h0 : changesOnly ls s0 s) (hm : incl [.rasLog, .fns, .pairs, .cmds, .locks, .pMem, .pColls, .pAcct, .ctxs, .streams, .ristretto, .semaphores, .poison, .slm, .ports, .peers, .transit, .out, .fresh] ls = true) : changesOnly ls s0 (State.deletePairs s f) := by
  unfold State.deletePairs
  try dsimp only
  repeat' (first
    | with_reducible assumption
    | with_reducible intro _
    | with_reducible apply State.endDelete_only
    | with_reducible apply State.startDelete_only
    | with_reducible apply only_foldl
    | with_reducible apply only_foldl_fst
    | exact incl_trans rfl hm)

theorem State.deletePairs_keeps {s0 : State} {s : State} {f : Pair → Bool}
    (h0 : keeps s0 s) : keeps s0 (State.deletePairs s f) := by
  unfold State.deletePairs
  try dsimp only
  repeat' (first
    | with_reducible assumption
    | with_reducible intro _
    | with_reducible apply State.endDelete_keeps
    | with_reducible apply State.startDelete_keeps
    | with_reducible apply keeps_foldl)

end Sys2Proof.Machine
end

