-- ==== Sys2Proof/Laws/Operands.lean ====
section
/-! SUPPORT. What each operation of Machine/Operands.lean may change: its frame, and that it
keeps the invariant and the fuses. -/

namespace Sys2Proof.Machine

open Sys2Proof.Safety Sys2Proof.Laws

theorem State.admin_only {ls : List Item} {s0 : State} {s : State} {cid op : Nat} {pick : Cmd → Bool} {chk : Cmd → Option Err} {f : Cmd → State} (hf : ∀ x, changesOnly ls s0 (f x))
    (h0 : changesOnly ls s0 s) (hm : incl [.cmds, .locks, .ctxs, .streams, .ristretto, .semaphores] ls = true) : changesOnly ls s0 (State.admin s cid op pick chk f) := by
  have hs := @mem_of_incl [.cmds, .locks, .ctxs, .streams, .ristretto, .semaphores] ls hm
  unfold State.admin
  try dsimp only
  repeat' (first
    | with_reducible assumption
    | with_reducible intro _
    | with_reducible apply hf
    | with_reducible apply State.onCmd_only
    | with_reducible apply State.fail_only
    | exact incl_trans rfl hm
    | with_reducible apply only_mk
    | exact Or.inr (hs (by decide))
    | with_reducible exact Or.inl rfl
    | with_reducible exact parts_refl
    | (with_reducible refine Or.inl ?_; and_intros <;> with_reducible rfl)
    | exact Or.inl rfl
    | with_reducible refine only_pair (by assumption) ?_
    | dsimp only
    | rw [mk_put]
    | split)

theorem State.admin_keeps {s0 : State} {s : State} {cid op : Nat} {pick : Cmd → Bool} {chk : Cmd → Option Err} {f : Cmd → State} (hf : ∀ x, keeps s0 (f x))
    (h0 : keeps s0 s) : keeps s0 (State.admin s cid op pick chk f) := by
  unfold State.admin
  try dsimp only
  repeat' (first
    | with_reducible assumption
    | with_reducible intro _
    | with_reducible apply hf
    | with_reducible apply State.onCmd_keeps
    | with_reducible apply State.fail_keeps
    | with_reducible apply keeps_mk
    | with_reducible exact id
    | with_reducible exact partsKeep_refl
    | with_reducible exact rasKeep_refl
    | with_reducible exact hbmKeep_refl
    | with_reducible exact pkgKeep_refl
    | with_reducible exact secKeep_refl
    | with_reducible exact namesKeep_refl
    | with_reducible refine keeps_pair (by assumption) ?_
    | dsimp only
    | rw [mk_put]
    | split)

end Sys2Proof.Machine
end

