-- ==== Sys2Proof/Laws/Thyme.lean ====
section
/-! SUPPORT. What each operation of Machine/Thyme.lean may change: its frame, and that it
keeps the invariant and the fuses. -/

namespace Sys2Proof.Machine

open Sys2Proof.Safety Sys2Proof.Laws

theorem State.tick_only {ls : List Item} {s0 : State} {s : State}
    (h0 : changesOnly ls s0 s) (hm : incl [.time] ls = true) : changesOnly ls s0 (State.tick s) := by
  have hs := @mem_of_incl [.time] ls hm
  unfold State.tick
  try dsimp only
  repeat' (first
    | with_reducible assumption
    | with_reducible intro _
    | exact incl_trans rfl hm
    | with_reducible apply only_mk
    | exact Or.inr (hs (by decide))
    | with_reducible exact Or.inl rfl
    | with_reducible exact parts_refl
    | (with_reducible refine Or.inl ?_; and_intros <;> with_reducible rfl)
    | exact Or.inl rfl
    | dsimp only
    | rw [mk_put])

theorem State.tick_keeps {s0 : State} {s : State}
    (h0 : keeps s0 s) : keeps s0 (State.tick s) := by
  unfold State.tick
  try dsimp only
  repeat' (first
    | with_reducible assumption
    | with_reducible intro _
    | with_reducible apply keeps_mk
    | with_reducible exact id
    | with_reducible exact partsKeep_refl
    | with_reducible exact rasKeep_refl
    | with_reducible exact hbmKeep_refl
    | with_reducible exact pkgKeep_refl
    | with_reducible exact secKeep_refl
    | with_reducible exact namesKeep_refl
    | dsimp only
    | rw [mk_put])

theorem State.issued_only {ls : List Item} {s0 : State} {s : State} {st : Nat}
    (h0 : changesOnly ls s0 s) (hm : incl [.time] ls = true) : changesOnly ls s0 (State.issued s st) := by
  have hs := @mem_of_incl [.time] ls hm
  unfold State.issued
  try dsimp only
  repeat' (first
    | with_reducible assumption
    | with_reducible intro _
    | exact incl_trans rfl hm
    | with_reducible apply only_mk
    | exact Or.inr (hs (by decide))
    | with_reducible exact Or.inl rfl
    | with_reducible exact parts_refl
    | (with_reducible refine Or.inl ?_; and_intros <;> with_reducible rfl)
    | exact Or.inl rfl
    | dsimp only
    | rw [mk_put])

theorem State.issued_keeps {s0 : State} {s : State} {st : Nat}
    (h0 : keeps s0 s) : keeps s0 (State.issued s st) := by
  unfold State.issued
  try dsimp only
  repeat' (first
    | with_reducible assumption
    | with_reducible intro _
    | with_reducible apply keeps_mk
    | with_reducible exact id
    | with_reducible exact partsKeep_refl
    | with_reducible exact rasKeep_refl
    | with_reducible exact hbmKeep_refl
    | with_reducible exact pkgKeep_refl
    | with_reducible exact secKeep_refl
    | with_reducible exact namesKeep_refl
    | dsimp only
    | rw [mk_put])

theorem State.logTime_only {ls : List Item} {s0 : State} {s : State} {event : Nat}
    (h0 : changesOnly ls s0 s) (hm : incl [.rasLog, .fns, .out] ls = true) : changesOnly ls s0 (State.logTime s event) := by
  unfold State.logTime
  try dsimp only
  repeat' first | with_reducible assumption | with_reducible intro _ | with_reducible apply State.log_only

theorem State.logTime_keeps {s0 : State} {s : State} {event : Nat}
    (h0 : keeps s0 s) : keeps s0 (State.logTime s event) := by
  unfold State.logTime
  try dsimp only
  repeat' first | with_reducible assumption | with_reducible intro _ | with_reducible apply State.log_keeps

theorem State.raiseTime_only {ls : List Item} {s0 : State} {s : State}
    (h0 : changesOnly ls s0 s) (hm : incl [.fns, .out] ls = true) : changesOnly ls s0 (State.raiseTime s) := by
  unfold State.raiseTime
  try dsimp only
  repeat' first | with_reducible assumption | with_reducible intro _ | with_reducible apply State.raiseAll_only

theorem State.raiseTime_keeps {s0 : State} {s : State}
    (h0 : keeps s0 s) : keeps s0 (State.raiseTime s) := by
  unfold State.raiseTime
  try dsimp only
  repeat' first | with_reducible assumption | with_reducible intro _ | with_reducible apply State.raiseAll_keeps

theorem State.setSource_only {ls : List Item} {s0 : State} {s : State} {src : Source}
    (h0 : changesOnly ls s0 s) (hm : incl [.time, .rasLog, .fns, .out] ls = true) : changesOnly ls s0 (State.setSource s src) := by
  have hs := @mem_of_incl [.time, .rasLog, .fns, .out] ls hm
  unfold State.setSource
  try dsimp only
  repeat' (first
    | with_reducible assumption
    | with_reducible intro _
    | with_reducible apply State.logTime_only
    | with_reducible apply State.raiseTime_only
    | with_reducible apply only_ite
    | exact incl_trans rfl hm
    | with_reducible apply only_mk
    | exact Or.inr (hs (by decide))
    | with_reducible exact Or.inl rfl
    | with_reducible exact parts_refl
    | (with_reducible refine Or.inl ?_; and_intros <;> with_reducible rfl)
    | exact Or.inl rfl
    | dsimp only
    | rw [mk_put])

theorem State.setSource_keeps {s0 : State} {s : State} {src : Source}
    (h0 : keeps s0 s) : keeps s0 (State.setSource s src) := by
  unfold State.setSource
  try dsimp only
  repeat' (first
    | with_reducible assumption
    | with_reducible intro _
    | with_reducible apply State.logTime_keeps
    | with_reducible apply State.raiseTime_keeps
    | with_reducible apply keeps_ite
    | with_reducible apply keeps_mk
    | with_reducible exact id
    | with_reducible exact partsKeep_refl
    | with_reducible exact rasKeep_refl
    | with_reducible exact hbmKeep_refl
    | with_reducible exact pkgKeep_refl
    | with_reducible exact secKeep_refl
    | with_reducible exact namesKeep_refl
    | dsimp only
    | rw [mk_put])

theorem State.ppsServo_only {ls : List Item} {s0 : State} {s : State} {entering : Bool}
    (h0 : changesOnly ls s0 s) (hm : incl [.time, .rasLog, .fns, .out] ls = true) : changesOnly ls s0 (State.ppsServo s entering) := by
  have hs := @mem_of_incl [.time, .rasLog, .fns, .out] ls hm
  unfold State.ppsServo
  try dsimp only
  repeat' (first
    | with_reducible assumption
    | with_reducible intro _
    | with_reducible apply State.setSource_only
    | with_reducible apply only_ite
    | exact incl_trans rfl hm
    | with_reducible apply only_mk
    | exact Or.inr (hs (by decide))
    | with_reducible exact Or.inl rfl
    | with_reducible exact parts_refl
    | (with_reducible refine Or.inl ?_; and_intros <;> with_reducible rfl)
    | exact Or.inl rfl
    | dsimp only
    | rw [mk_put])

theorem State.ppsServo_keeps {s0 : State} {s : State} {entering : Bool}
    (h0 : keeps s0 s) : keeps s0 (State.ppsServo s entering) := by
  unfold State.ppsServo
  try dsimp only
  repeat' (first
    | with_reducible assumption
    | with_reducible intro _
    | with_reducible apply State.setSource_keeps
    | with_reducible apply keeps_ite
    | with_reducible apply keeps_mk
    | with_reducible exact id
    | with_reducible exact partsKeep_refl
    | with_reducible exact rasKeep_refl
    | with_reducible exact hbmKeep_refl
    | with_reducible exact pkgKeep_refl
    | with_reducible exact secKeep_refl
    | with_reducible exact namesKeep_refl
    | dsimp only
    | rw [mk_put])

theorem State.ppsEdge_only {ls : List Item} {s0 : State} {s : State}
    (h0 : changesOnly ls s0 s) (hm : incl [.time, .rasLog, .fns, .out] ls = true) : changesOnly ls s0 (State.ppsEdge s) := by
  have hs := @mem_of_incl [.time, .rasLog, .fns, .out] ls hm
  unfold State.ppsEdge
  try dsimp only
  repeat' (first
    | with_reducible assumption
    | with_reducible intro _
    | with_reducible apply State.setSource_only
    | with_reducible apply State.ppsServo_only
    | with_reducible apply State.logTime_only
    | with_reducible apply State.raiseTime_only
    | with_reducible apply only_ite
    | exact incl_trans rfl hm
    | with_reducible apply only_mk
    | exact Or.inr (hs (by decide))
    | with_reducible exact Or.inl rfl
    | with_reducible exact parts_refl
    | (with_reducible refine Or.inl ?_; and_intros <;> with_reducible rfl)
    | exact Or.inl rfl
    | with_reducible refine only_pair (by assumption) ?_
    | dsimp only
    | rw [mk_put]
    | split)

theorem State.ppsEdge_keeps {s0 : State} {s : State}
    (h0 : keeps s0 s) : keeps s0 (State.ppsEdge s) := by
  unfold State.ppsEdge
  try dsimp only
  repeat' (first
    | with_reducible assumption
    | with_reducible intro _
    | with_reducible apply State.setSource_keeps
    | with_reducible apply State.ppsServo_keeps
    | with_reducible apply State.logTime_keeps
    | with_reducible apply State.raiseTime_keeps
    | with_reducible apply keeps_ite
    | with_reducible apply keeps_mk
    | with_reducible exact id
    | with_reducible exact partsKeep_refl
    | with_reducible exact rasKeep_refl
    | with_reducible exact hbmKeep_refl
    | with_reducible exact pkgKeep_refl
    | with_reducible exact secKeep_refl
    | with_reducible exact namesKeep_refl
    | with_reducible refine keeps_pair (by assumption) ?_
    | dsimp only
    | rw [mk_put]
    | split)

theorem execThymeRate_only {ls : List Item} {s0 : State} {value : Word32} {s : State}
    (h0 : changesOnly ls s0 s) (hm : incl [.time, .rasLog, .fns, .out] ls = true) {d : State} : changesOnly ls s0 (after d (execThymeRate value s)) := by
  have hs := @mem_of_incl [.time, .rasLog, .fns, .out] ls hm
  unfold execThymeRate
  unfold after
  try dsimp only
  repeat' (first
    | with_reducible assumption
    | with_reducible intro _
    | with_reducible apply State.setSource_only
    | with_reducible apply only_ite
    | exact incl_trans rfl hm
    | with_reducible apply only_mk
    | exact Or.inr (hs (by decide))
    | with_reducible exact Or.inl rfl
    | with_reducible exact parts_refl
    | (with_reducible refine Or.inl ?_; and_intros <;> with_reducible rfl)
    | exact Or.inl rfl
    | dsimp only
    | rw [mk_put])

theorem execThymeRate_keeps {s0 : State} {value : Word32} {s : State} {d : State}
    (h0 : keeps s0 s) : keeps s0 (after d (execThymeRate value s)) := by
  unfold execThymeRate
  unfold after
  try dsimp only
  repeat' (first
    | with_reducible assumption
    | with_reducible intro _
    | with_reducible apply State.setSource_keeps
    | with_reducible apply keeps_ite
    | with_reducible apply keeps_mk
    | with_reducible exact id
    | with_reducible exact partsKeep_refl
    | with_reducible exact rasKeep_refl
    | with_reducible exact hbmKeep_refl
    | with_reducible exact pkgKeep_refl
    | with_reducible exact secKeep_refl
    | with_reducible exact namesKeep_refl
    | dsimp only
    | rw [mk_put])

theorem execThymeOffsetAdj_only {ls : List Item} {s0 : State} {value : Word32} {s : State}
    (h0 : changesOnly ls s0 s) (hm : incl [.time, .rasLog, .fns, .out] ls = true) {d : State} : changesOnly ls s0 (after d (execThymeOffsetAdj value s)) := by
  have hs := @mem_of_incl [.time, .rasLog, .fns, .out] ls hm
  unfold execThymeOffsetAdj
  unfold after
  try dsimp only
  repeat' (first
    | with_reducible assumption
    | with_reducible intro _
    | with_reducible apply State.setSource_only
    | with_reducible apply only_ite
    | exact incl_trans rfl hm
    | with_reducible apply only_mk
    | exact Or.inr (hs (by decide))
    | with_reducible exact Or.inl rfl
    | with_reducible exact parts_refl
    | (with_reducible refine Or.inl ?_; and_intros <;> with_reducible rfl)
    | exact Or.inl rfl
    | dsimp only
    | rw [mk_put])

theorem execThymeOffsetAdj_keeps {s0 : State} {value : Word32} {s : State} {d : State}
    (h0 : keeps s0 s) : keeps s0 (after d (execThymeOffsetAdj value s)) := by
  unfold execThymeOffsetAdj
  unfold after
  try dsimp only
  repeat' (first
    | with_reducible assumption
    | with_reducible intro _
    | with_reducible apply State.setSource_keeps
    | with_reducible apply keeps_ite
    | with_reducible apply keeps_mk
    | with_reducible exact id
    | with_reducible exact partsKeep_refl
    | with_reducible exact rasKeep_refl
    | with_reducible exact hbmKeep_refl
    | with_reducible exact pkgKeep_refl
    | with_reducible exact secKeep_refl
    | with_reducible exact namesKeep_refl
    | dsimp only
    | rw [mk_put])

theorem execThymeSnapTrig_only {ls : List Item} {s0 : State} {s : State}
    (h0 : changesOnly ls s0 s) (hm : incl [.time] ls = true) {d : State} : changesOnly ls s0 (after d (execThymeSnapTrig s)) := by
  have hs := @mem_of_incl [.time] ls hm
  unfold execThymeSnapTrig
  unfold after
  try dsimp only
  repeat' (first
    | with_reducible assumption
    | with_reducible intro _
    | with_reducible apply only_ite
    | exact incl_trans rfl hm
    | with_reducible apply only_mk
    | exact Or.inr (hs (by decide))
    | with_reducible exact Or.inl rfl
    | with_reducible exact parts_refl
    | (with_reducible refine Or.inl ?_; and_intros <;> with_reducible rfl)
    | exact Or.inl rfl
    | dsimp only
    | rw [mk_put])

theorem execThymeSnapTrig_keeps {s0 : State} {s : State} {d : State}
    (h0 : keeps s0 s) : keeps s0 (after d (execThymeSnapTrig s)) := by
  unfold execThymeSnapTrig
  unfold after
  try dsimp only
  repeat' (first
    | with_reducible assumption
    | with_reducible intro _
    | with_reducible apply keeps_ite
    | with_reducible apply keeps_mk
    | with_reducible exact id
    | with_reducible exact partsKeep_refl
    | with_reducible exact rasKeep_refl
    | with_reducible exact hbmKeep_refl
    | with_reducible exact pkgKeep_refl
    | with_reducible exact secKeep_refl
    | with_reducible exact namesKeep_refl
    | dsimp only
    | rw [mk_put])

end Sys2Proof.Machine
end

