-- ==== Sys2Proof/Laws/Admin.lean ====
section
/-! SUPPORT. What each operation of Machine/Admin.lean may change: its frame, and that it
keeps the invariant and the fuses. -/

namespace Sys2Proof.Machine

open Sys2Proof.Safety Sys2Proof.Laws

theorem State.setPartFeature_only {ls : List Item} {s0 : State} {s : State} {cid : Nat} {pick : Cmd → Bool} {chk : PartNo → Cmd → Option Err} {f : PartNo → Cmd → State} (hf : ∀ x y, changesOnly ls s0 (f x y))
    (h0 : changesOnly ls s0 s) (hm : incl [.cmds, .locks, .ctxs, .streams, .ristretto, .semaphores] ls = true) : changesOnly ls s0 (State.setPartFeature s cid pick chk f) := by
  have hs := @mem_of_incl [.cmds, .locks, .ctxs, .streams, .ristretto, .semaphores] ls hm
  unfold State.setPartFeature
  try dsimp only
  repeat' (first
    | with_reducible assumption
    | with_reducible intro _
    | with_reducible apply hf
    | with_reducible apply State.admin_only
    | exact incl_trans rfl hm
    | with_reducible apply only_mk
    | exact Or.inr (hs (by decide))
    | with_reducible exact Or.inl rfl
    | with_reducible exact parts_refl
    | (with_reducible refine Or.inl ?_; and_intros <;> with_reducible rfl)
    | exact Or.inl rfl
    | with_reducible refine only_pair (by assumption) ?_
    | dsimp only
    | rw [mk_put]
    | split)

theorem State.setPartFeature_keeps {s0 : State} {s : State} {cid : Nat} {pick : Cmd → Bool} {chk : PartNo → Cmd → Option Err} {f : PartNo → Cmd → State} (hf : ∀ x y, keeps s0 (f x y))
    (h0 : keeps s0 s) : keeps s0 (State.setPartFeature s cid pick chk f) := by
  unfold State.setPartFeature
  try dsimp only
  repeat' (first
    | with_reducible assumption
    | with_reducible intro _
    | with_reducible apply hf
    | with_reducible apply State.admin_keeps
    | with_reducible apply keeps_mk
    | with_reducible exact id
    | with_reducible exact partsKeep_refl
    | with_reducible exact rasKeep_refl
    | with_reducible exact hbmKeep_refl
    | with_reducible exact pkgKeep_refl
    | with_reducible exact secKeep_refl
    | with_reducible exact namesKeep_refl
    | with_reducible refine keeps_pair (by assumption) ?_
    | dsimp only
    | rw [mk_put]
    | split)

theorem PartSt.leaveHardware_only {ls : List Item} {x0 : PartSt} {x : PartSt} {old new : Word32}
    (h0 : partOnly ls x0 x) (hm : incl [.pColls] ls = true) : partOnly ls x0 (PartSt.leaveHardware x old new) := by
  have hs := @mem_of_incl [.pColls] ls hm
  unfold PartSt.leaveHardware
  try dsimp only
  repeat' (first
    | with_reducible assumption
    | with_reducible intro _
    | with_reducible apply only_ite
    | exact incl_trans rfl hm
    | with_reducible exact part_refl
    | with_reducible apply part_ite
    | with_reducible apply only_modPart
    | with_reducible apply part_mk
    | with_reducible apply only_mk
    | exact Or.inr (hs (by decide))
    | with_reducible exact Or.inl rfl
    | with_reducible exact parts_refl
    | (with_reducible refine Or.inl ?_; and_intros <;> with_reducible rfl))

theorem PartSt.leaveHardware_keeps {x0 : PartSt} {x : PartSt} {old new : Word32}
    (h0 : pKeeps x0 x) : pKeeps x0 (PartSt.leaveHardware x old new) := by
  unfold PartSt.leaveHardware
  try dsimp only
  repeat' (first
    | with_reducible assumption
    | with_reducible intro _
    | with_reducible apply keeps_ite
    | with_reducible exact pKeeps_refl
    | exact pKeeps_new rfl rfl
    | with_reducible apply pKeeps_ite
    | with_reducible apply keeps_modPart
    | with_reducible apply pKeeps_mk
    | with_reducible exact memKeeps_refl)

theorem State.setDevMode_only {ls : List Item} {s0 : State} {s : State} {v : Word32}
    (h0 : changesOnly ls s0 s) (hm : incl [.time, .rasLog, .fns, .devMode, .channels, .out] ls = true) : changesOnly ls s0 (State.setDevMode s v) := by
  have hs := @mem_of_incl [.time, .rasLog, .fns, .devMode, .channels, .out] ls hm
  unfold State.setDevMode
  try dsimp only
  repeat' (first
    | with_reducible assumption
    | with_reducible intro _
    | with_reducible apply State.setSource_only
    | with_reducible apply only_ite
    | exact incl_trans rfl hm
    | with_reducible apply only_mk
    | exact Or.inr (hs (by decide))
    | with_reducible exact Or.inl rfl
    | with_reducible exact parts_refl
    | (with_reducible refine Or.inl ?_; and_intros <;> with_reducible rfl)
    | exact Or.inl rfl
    | dsimp only
    | rw [mk_put])

theorem State.setDevMode_keeps {s0 : State} {s : State} {v : Word32}
    (h0 : keeps s0 s) : keeps s0 (State.setDevMode s v) := by
  unfold State.setDevMode
  try dsimp only
  repeat' (first
    | with_reducible assumption
    | with_reducible intro _
    | with_reducible apply State.setSource_keeps
    | with_reducible apply keeps_ite
    | with_reducible apply keeps_mk
    | with_reducible exact id
    | with_reducible exact partsKeep_refl
    | with_reducible exact rasKeep_refl
    | with_reducible exact hbmKeep_refl
    | with_reducible exact pkgKeep_refl
    | with_reducible exact secKeep_refl
    | with_reducible exact namesKeep_refl
    | (refine (⟨?_, ?_⟩ : hbmKeep _ _) <;> first | exact id | exact len_modify | exact len_map | exact len_mapIdx | exact len_set)
    | dsimp only
    | rw [mk_put])

theorem State.dropPasses_only {ls : List Item} {s0 : State} {s : State} {p : PartNo}
    (h0 : changesOnly ls s0 s) (hm : incl [.cmds, .locks, .pColls, .ctxs, .streams, .ristretto, .semaphores] ls = true) : changesOnly ls s0 (State.dropPasses s p) := by
  unfold State.dropPasses
  try dsimp only
  repeat' (first
    | with_reducible assumption
    | with_reducible intro _
    | with_reducible apply State.drop_only
    | with_reducible apply only_foldl)

theorem State.dropPasses_keeps {s0 : State} {s : State} {p : PartNo}
    (h0 : keeps s0 s) : keeps s0 (State.dropPasses s p) := by
  unfold State.dropPasses
  try dsimp only
  repeat' (first
    | with_reducible assumption
    | with_reducible intro _
    | with_reducible apply State.drop_keeps
    | with_reducible apply keeps_foldl)

theorem State.applyMode_only {ls : List Item} {s0 : State} {s : State} {p : PartNo} {cid : Nat} {v : Word32}
    (h0 : changesOnly ls s0 s) (hm : incl [.cmds, .locks, .pMode, .pColls, .ctxs, .streams, .ristretto, .semaphores] ls = true) : changesOnly ls s0 (State.applyMode s p cid v) := by
  have hs := @mem_of_incl [.cmds, .locks, .pMode, .pColls, .ctxs, .streams, .ristretto, .semaphores] ls hm
  unfold State.applyMode
  try dsimp only
  repeat' (first
    | with_reducible assumption
    | with_reducible intro _
    | with_reducible apply PartSt.leaveHardware_only
    | with_reducible apply State.finish_only
    | with_reducible apply State.dropPasses_only
    | exact incl_trans rfl hm
    | with_reducible exact part_refl
    | with_reducible apply only_modPart
    | with_reducible apply part_mk
    | with_reducible apply only_mk
    | exact Or.inr (hs (by decide))
    | with_reducible exact Or.inl rfl
    | with_reducible exact parts_refl
    | (with_reducible refine Or.inl ?_; and_intros <;> with_reducible rfl))

theorem State.applyMode_keeps {s0 : State} {s : State} {p : PartNo} {cid : Nat} {v : Word32}
    (h0 : keeps s0 s) : keeps s0 (State.applyMode s p cid v) := by
  unfold State.applyMode
  try dsimp only
  repeat' (first
    | with_reducible assumption
    | with_reducible intro _
    | with_reducible apply PartSt.leaveHardware_keeps
    | with_reducible apply State.finish_keeps
    | with_reducible apply State.dropPasses_keeps
    | with_reducible exact pKeeps_refl
    | exact pKeeps_new rfl rfl
    | with_reducible apply keeps_modPart
    | with_reducible apply pKeeps_mk
    | with_reducible exact memKeeps_refl)

theorem State.enGroup_only {ls : List Item} {s0 : State} {s : State} {g : Nat} {level : Bool}
    (h0 : changesOnly ls s0 s) (hm : incl [.pkg, .out] ls = true) : changesOnly ls s0 (State.enGroup s g level) := by
  have hs := @mem_of_incl [.pkg, .out] ls hm
  unfold State.enGroup
  try dsimp only
  repeat' (first
    | with_reducible assumption
    | with_reducible intro _
    | with_reducible apply State.emit_only
    | with_reducible apply only_getD
    | with_reducible apply only_ite
    | exact incl_trans rfl hm
    | with_reducible apply only_mk
    | exact Or.inr (hs (by decide))
    | with_reducible exact Or.inl rfl
    | with_reducible exact parts_refl
    | (with_reducible refine Or.inl ?_; and_intros <;> with_reducible rfl)
    | exact Or.inl rfl
    | dsimp only
    | rw [mk_put])

theorem State.enGroup_keeps {s0 : State} {s : State} {g : Nat} {level : Bool}
    (h0 : keeps s0 s) : keeps s0 (State.enGroup s g level) := by
  unfold State.enGroup
  try dsimp only
  repeat' (first
    | with_reducible assumption
    | with_reducible intro _
    | with_reducible apply State.emit_keeps
    | with_reducible apply keeps_getD
    | with_reducible apply keeps_ite
    | with_reducible apply keeps_mk
    | with_reducible exact id
    | with_reducible exact partsKeep_refl
    | with_reducible exact rasKeep_refl
    | with_reducible exact hbmKeep_refl
    | with_reducible exact pkgKeep_refl
    | with_reducible exact secKeep_refl
    | with_reducible exact namesKeep_refl
    | (refine (⟨?_, ?_⟩ : pkgKeep _ _) <;> first | exact id | exact len_modify | exact len_map | exact len_mapIdx | exact len_set)
    | dsimp only
    | rw [mk_put]
    | split)

theorem State.dropGroups_only {ls : List Item} {s0 : State} {s : State} {low : Nat}
    (h0 : changesOnly ls s0 s) (hm : incl [.pkg, .out] ls = true) : changesOnly ls s0 (State.dropGroups s low) := by
  unfold State.dropGroups
  try dsimp only
  repeat' (first
    | with_reducible assumption
    | with_reducible intro _
    | with_reducible apply State.enGroup_only
    | with_reducible apply only_foldl)

theorem State.dropGroups_keeps {s0 : State} {s : State} {low : Nat}
    (h0 : keeps s0 s) : keeps s0 (State.dropGroups s low) := by
  unfold State.dropGroups
  try dsimp only
  repeat' (first
    | with_reducible assumption
    | with_reducible intro _
    | with_reducible apply State.enGroup_keeps
    | with_reducible apply keeps_foldl)

theorem State.tryStart_only {ls : List Item} {s0 : State} {s : State}
    (h0 : changesOnly ls s0 s) (hm : incl [.pkg, .out] ls = true) : changesOnly ls s0 (State.tryStart s) := by
  unfold State.tryStart
  try dsimp only
  repeat' (first
    | with_reducible assumption
    | with_reducible intro _
    | with_reducible apply State.enGroup_only
    | with_reducible apply only_ite)

theorem State.tryStart_keeps {s0 : State} {s : State}
    (h0 : keeps s0 s) : keeps s0 (State.tryStart s) := by
  unfold State.tryStart
  try dsimp only
  repeat' (first
    | with_reducible assumption
    | with_reducible intro _
    | with_reducible apply State.enGroup_keeps
    | with_reducible apply keeps_ite)

theorem State.gateAll_only {ls : List Item} {s0 : State} {s : State} {g : Bool}
    (h0 : changesOnly ls s0 s) (hm : incl [.cores, .clusters] ls = true) : changesOnly ls s0 (State.gateAll s g) := by
  have hs := @mem_of_incl [.cores, .clusters] ls hm
  unfold State.gateAll
  try dsimp only
  repeat' (first
    | with_reducible assumption
    | with_reducible intro _
    | with_reducible apply State.coresLose_only
    | exact incl_trans rfl hm
    | with_reducible apply only_mk
    | exact Or.inr (hs (by decide))
    | with_reducible exact Or.inl rfl
    | with_reducible exact parts_refl
    | (with_reducible refine Or.inl ?_; and_intros <;> with_reducible rfl)
    | exact Or.inl rfl
    | dsimp only
    | rw [mk_put])

theorem State.gateAll_keeps {s0 : State} {s : State} {g : Bool}
    (h0 : keeps s0 s) : keeps s0 (State.gateAll s g) := by
  unfold State.gateAll
  try dsimp only
  repeat' (first
    | with_reducible assumption
    | with_reducible intro _
    | with_reducible apply State.coresLose_keeps
    | with_reducible apply keeps_mk
    | with_reducible exact id
    | with_reducible exact partsKeep_refl
    | with_reducible exact rasKeep_refl
    | with_reducible exact hbmKeep_refl
    | with_reducible exact pkgKeep_refl
    | with_reducible exact secKeep_refl
    | with_reducible exact namesKeep_refl
    | (refine ⟨?_, ?_, ?_, ?_, ?_, ?_⟩ <;> first | exact id | exact len_modify | exact len_map | exact len_mapIdx | exact len_set)
    | dsimp only
    | rw [mk_put])

theorem PartSt.lost_only {ls : List Item} {x0 : PartSt} {x : PartSt}
    (h0 : partOnly ls x0 x) (hm : incl [.pMem, .pScratch, .pUses, .pColls, .pJournal, .pShadows, .pHot] ls = true) : partOnly ls x0 (PartSt.lost x) := by
  have hs := @mem_of_incl [.pMem, .pScratch, .pUses, .pColls, .pJournal, .pShadows, .pHot] ls hm
  unfold PartSt.lost
  try dsimp only
  repeat' (first
    | with_reducible assumption
    | with_reducible intro _
    | exact incl_trans rfl hm
    | with_reducible exact part_refl
    | with_reducible apply only_modPart
    | with_reducible apply part_mk
    | with_reducible apply only_mk
    | exact Or.inr (hs (by decide))
    | with_reducible exact Or.inl rfl
    | with_reducible exact parts_refl
    | (with_reducible refine Or.inl ?_; and_intros <;> with_reducible rfl))

theorem PartSt.lost_keeps {x0 : PartSt} {x : PartSt}
    (_h0 : pKeeps x0 x) : pKeeps x0 (PartSt.lost x) := by
  unfold PartSt.lost
  try dsimp only
  repeat' (first
    | with_reducible assumption
    | with_reducible intro _
    | with_reducible exact pKeeps_refl
    | exact pKeeps_new rfl rfl)

theorem State.deferBack_only {ls : List Item} {s0 : State} {s : State} {e : Entry}
    (h0 : changesOnly ls s0 s) (hm : incl [.pkg, .power, .out] ls = true) : changesOnly ls s0 (State.deferBack s e) := by
  have hs := @mem_of_incl [.pkg, .power, .out] ls hm
  unfold State.deferBack
  try dsimp only
  repeat' (first
    | with_reducible assumption
    | with_reducible intro _
    | with_reducible apply State.dropGroups_only
    | with_reducible apply only_ite
    | exact incl_trans rfl hm
    | with_reducible apply only_mk
    | exact Or.inr (hs (by decide))
    | with_reducible exact Or.inl rfl
    | with_reducible exact parts_refl
    | (with_reducible refine Or.inl ?_; and_intros <;> with_reducible rfl)
    | exact Or.inl rfl
    | dsimp only
    | rw [mk_put])

theorem State.deferBack_keeps {s0 : State} {s : State} {e : Entry}
    (h0 : keeps s0 s) : keeps s0 (State.deferBack s e) := by
  unfold State.deferBack
  try dsimp only
  repeat' (first
    | with_reducible assumption
    | with_reducible intro _
    | with_reducible apply State.dropGroups_keeps
    | with_reducible apply keeps_ite
    | with_reducible apply keeps_mk
    | with_reducible exact id
    | with_reducible exact partsKeep_refl
    | with_reducible exact rasKeep_refl
    | with_reducible exact hbmKeep_refl
    | with_reducible exact pkgKeep_refl
    | with_reducible exact secKeep_refl
    | with_reducible exact namesKeep_refl
    | dsimp only
    | rw [mk_put])

end Sys2Proof.Machine
end

