-- ==== Sys2Proof/Laws/CfgSpace.lean ====
section
/-! SUPPORT. What each operation of Machine/CfgSpace.lean may change: its frame, and that it
keeps the invariant and the fuses. -/

namespace Sys2Proof.Machine

open Sys2Proof.Safety Sys2Proof.Laws

theorem State.translate_only {ls : List Item} {s0 : State} {s : State} {fn : Fn} {pasid : Option Nat} {page : Nat}
    (h0 : changesOnly ls s0 s) (hm : incl [.atc, .out] ls = true) : changesOnly ls s0 (State.translate s fn pasid page) := by
  have hs := @mem_of_incl [.atc, .out] ls hm
  unfold State.translate
  try dsimp only
  repeat' (first
    | with_reducible assumption
    | with_reducible intro _
    | with_reducible apply State.emit_only
    | with_reducible apply only_ite
    | exact incl_trans rfl hm
    | with_reducible apply only_mk
    | exact Or.inr (hs (by decide))
    | with_reducible exact Or.inl rfl
    | with_reducible exact parts_refl
    | (with_reducible refine Or.inl ?_; and_intros <;> with_reducible rfl)
    | exact Or.inl rfl
    | dsimp only
    | rw [mk_put])

theorem State.translate_keeps {s0 : State} {s : State} {fn : Fn} {pasid : Option Nat} {page : Nat}
    (h0 : keeps s0 s) : keeps s0 (State.translate s fn pasid page) := by
  unfold State.translate
  try dsimp only
  repeat' (first
    | with_reducible assumption
    | with_reducible intro _
    | with_reducible apply State.emit_keeps
    | with_reducible apply keeps_ite
    | with_reducible apply keeps_mk
    | with_reducible exact id
    | with_reducible exact partsKeep_refl
    | with_reducible exact rasKeep_refl
    | with_reducible exact hbmKeep_refl
    | with_reducible exact pkgKeep_refl
    | with_reducible exact secKeep_refl
    | with_reducible exact namesKeep_refl
    | dsimp only
    | rw [mk_put])

theorem State.sendPageRequest_only {ls : List Item} {s0 : State} {s : State} {fn : Fn} {pasid : Option Nat} {page : Nat}
    (h0 : changesOnly ls s0 s) (hm : incl [.fns, .out] ls = true) : changesOnly ls s0 (State.sendPageRequest s fn pasid page) := by
  unfold State.sendPageRequest
  try dsimp only
  repeat' (first
    | with_reducible assumption
    | with_reducible intro _
    | with_reducible apply State.modFn_only
    | with_reducible apply State.emit_only
    | with_reducible apply only_getD
    | exact incl_trans rfl hm)

theorem State.sendPageRequest_keeps {s0 : State} {s : State} {fn : Fn} {pasid : Option Nat} {page : Nat}
    (h0 : keeps s0 s) : keeps s0 (State.sendPageRequest s fn pasid page) := by
  unfold State.sendPageRequest
  try dsimp only
  repeat' (first
    | with_reducible assumption
    | with_reducible intro _
    | with_reducible apply State.modFn_keeps
    | with_reducible apply State.emit_keeps)

theorem State.pageAnswered_only {ls : List Item} {s0 : State} {s : State} {fn : Fn}
    (h0 : changesOnly ls s0 s) (hm : incl [.fns] ls = true) : changesOnly ls s0 (State.pageAnswered s fn) := by
  unfold State.pageAnswered
  try dsimp only
  repeat' first | with_reducible assumption | with_reducible intro _ | with_reducible apply State.modFn_only

theorem State.pageAnswered_keeps {s0 : State} {s : State} {fn : Fn}
    (h0 : keeps s0 s) : keeps s0 (State.pageAnswered s fn) := by
  unfold State.pageAnswered
  try dsimp only
  repeat' first | with_reducible assumption | with_reducible intro _ | with_reducible apply State.modFn_keeps

theorem State.queueAccess_only {ls : List Item} {s0 : State} {s : State} {q : Pair} {addr : Nat}
    (h0 : changesOnly ls s0 s) (hm : incl [.atc, .out] ls = true) : changesOnly ls s0 (State.queueAccess s q addr) := by
  unfold State.queueAccess
  try dsimp only
  repeat' (first
    | with_reducible assumption
    | with_reducible intro _
    | with_reducible apply State.translate_only
    | with_reducible apply only_ite)

theorem State.queueAccess_keeps {s0 : State} {s : State} {q : Pair} {addr : Nat}
    (h0 : keeps s0 s) : keeps s0 (State.queueAccess s q addr) := by
  unfold State.queueAccess
  try dsimp only
  repeat' (first
    | with_reducible assumption
    | with_reducible intro _
    | with_reducible apply State.translate_keeps
    | with_reducible apply keeps_ite)

theorem State.aerError_only {ls : List Item} {s0 : State} {s : State} {fn : Fn} {internal : Bool}
    (h0 : changesOnly ls s0 s) (hm : incl [.fns, .out] ls = true) : changesOnly ls s0 (State.aerError s fn internal) := by
  unfold State.aerError
  try dsimp only
  repeat' (first
    | with_reducible assumption
    | with_reducible intro _
    | with_reducible apply State.modFn_only
    | with_reducible apply State.emit_only
    | with_reducible apply only_ite
    | exact incl_trans rfl hm)

theorem State.aerError_keeps {s0 : State} {s : State} {fn : Fn} {internal : Bool}
    (h0 : keeps s0 s) : keeps s0 (State.aerError s fn internal) := by
  unfold State.aerError
  try dsimp only
  repeat' (first
    | with_reducible assumption
    | with_reducible intro _
    | with_reducible apply State.modFn_keeps
    | with_reducible apply State.emit_keeps)

end Sys2Proof.Machine
end

