-- ==== Sys2Proof/Laws/Queue.lean ====
section
/-! SUPPORT. What each operation of Machine/Queue.lean may change: its frame, and that it
keeps the invariant and the fuses. -/

namespace Sys2Proof.Machine

open Sys2Proof.Safety Sys2Proof.Laws

theorem State.ignoreDoorbell_only {ls : List Item} {s0 : State} {s : State} {fn : Fn} {qid : Nat} {v : Word32}
    (h0 : changesOnly ls s0 s) (hm : incl [.rasLog, .fns, .out] ls = true) : changesOnly ls s0 (State.ignoreDoorbell s fn qid v) := by
  unfold State.ignoreDoorbell
  try dsimp only
  repeat' first | with_reducible assumption | with_reducible intro _ | with_reducible apply State.logHost_only

theorem State.ignoreDoorbell_keeps {s0 : State} {s : State} {fn : Fn} {qid : Nat} {v : Word32}
    (h0 : keeps s0 s) : keeps s0 (State.ignoreDoorbell s fn qid v) := by
  unfold State.ignoreDoorbell
  try dsimp only
  repeat' first | with_reducible assumption | with_reducible intro _ | with_reducible apply State.logHost_keeps

theorem execSqTailDoorbell_only {ls : List Item} {s0 : State} {fn : Fn} {qid : Nat} {value : Word32} {s : State}
    (h0 : changesOnly ls s0 s) (hm : incl [.rasLog, .fns, .pairs, .out] ls = true) {d : State} : changesOnly ls s0 (after d (execSqTailDoorbell fn qid value s)) := by
  have hs := @mem_of_incl [.rasLog, .fns, .pairs, .out] ls hm
  unfold execSqTailDoorbell
  unfold after
  try dsimp only
  repeat' (first
    | with_reducible assumption
    | with_reducible intro _
    | with_reducible apply State.ignoreDoorbell_only
    | with_reducible apply State.modPair_only
    | with_reducible apply only_ite
    | exact incl_trans rfl hm
    | with_reducible apply only_mk
    | exact Or.inr (hs (by decide))
    | with_reducible exact Or.inl rfl
    | with_reducible exact parts_refl
    | (with_reducible refine Or.inl ?_; and_intros <;> with_reducible rfl)
    | exact Or.inl rfl
    | with_reducible refine only_pair (by assumption) ?_
    | dsimp only
    | rw [mk_put]
    | split)

theorem execSqTailDoorbell_keeps {s0 : State} {fn : Fn} {qid : Nat} {value : Word32} {s : State} {d : State}
    (h0 : keeps s0 s) : keeps s0 (after d (execSqTailDoorbell fn qid value s)) := by
  unfold execSqTailDoorbell
  unfold after
  try dsimp only
  repeat' (first
    | with_reducible assumption
    | with_reducible intro _
    | with_reducible apply State.ignoreDoorbell_keeps
    | with_reducible apply State.modPair_keeps
    | with_reducible apply keeps_ite
    | with_reducible apply keeps_mk
    | with_reducible exact id
    | with_reducible exact partsKeep_refl
    | with_reducible exact rasKeep_refl
    | with_reducible exact hbmKeep_refl
    | with_reducible exact pkgKeep_refl
    | with_reducible exact secKeep_refl
    | with_reducible exact namesKeep_refl
    | with_reducible refine keeps_pair (by assumption) ?_
    | dsimp only
    | rw [mk_put]
    | split)

theorem execCqHeadDoorbell_only {ls : List Item} {s0 : State} {fn : Fn} {qid : Nat} {value : Word32} {s : State}
    (h0 : changesOnly ls s0 s) (hm : incl [.rasLog, .fns, .pairs, .out] ls = true) {d : State} : changesOnly ls s0 (after d (execCqHeadDoorbell fn qid value s)) := by
  have hs := @mem_of_incl [.rasLog, .fns, .pairs, .out] ls hm
  unfold execCqHeadDoorbell
  unfold after
  try dsimp only
  repeat' (first
    | with_reducible assumption
    | with_reducible intro _
    | with_reducible apply State.ignoreDoorbell_only
    | with_reducible apply State.modPair_only
    | with_reducible apply only_ite
    | exact incl_trans rfl hm
    | with_reducible apply only_mk
    | exact Or.inr (hs (by decide))
    | with_reducible exact Or.inl rfl
    | with_reducible exact parts_refl
    | (with_reducible refine Or.inl ?_; and_intros <;> with_reducible rfl)
    | exact Or.inl rfl
    | with_reducible refine only_pair (by assumption) ?_
    | dsimp only
    | rw [mk_put]
    | split)

theorem execCqHeadDoorbell_keeps {s0 : State} {fn : Fn} {qid : Nat} {value : Word32} {s : State} {d : State}
    (h0 : keeps s0 s) : keeps s0 (after d (execCqHeadDoorbell fn qid value s)) := by
  unfold execCqHeadDoorbell
  unfold after
  try dsimp only
  repeat' (first
    | with_reducible assumption
    | with_reducible intro _
    | with_reducible apply State.ignoreDoorbell_keeps
    | with_reducible apply State.modPair_keeps
    | with_reducible apply keeps_ite
    | with_reducible apply keeps_mk
    | with_reducible exact id
    | with_reducible exact partsKeep_refl
    | with_reducible exact rasKeep_refl
    | with_reducible exact hbmKeep_refl
    | with_reducible exact pkgKeep_refl
    | with_reducible exact secKeep_refl
    | with_reducible exact namesKeep_refl
    | with_reducible refine keeps_pair (by assumption) ?_
    | dsimp only
    | rw [mk_put]
    | split)

theorem State.tookFetch_only {ls : List Item} {s0 : State} {s : State} {q : Pair}
    (h0 : changesOnly ls s0 s) (hm : incl [.turn] ls = true) : changesOnly ls s0 (State.tookFetch s q) := by
  have hs := @mem_of_incl [.turn] ls hm
  unfold State.tookFetch
  try dsimp only
  repeat' (first
    | with_reducible assumption
    | with_reducible intro _
    | with_reducible apply only_ite
    | exact incl_trans rfl hm
    | with_reducible apply only_mk
    | exact Or.inr (hs (by decide))
    | with_reducible exact Or.inl rfl
    | with_reducible exact parts_refl
    | (with_reducible refine Or.inl ?_; and_intros <;> with_reducible rfl)
    | exact Or.inl rfl
    | dsimp only
    | rw [mk_put])

theorem State.tookFetch_keeps {s0 : State} {s : State} {q : Pair}
    (h0 : keeps s0 s) : keeps s0 (State.tookFetch s q) := by
  unfold State.tookFetch
  try dsimp only
  repeat' (first
    | with_reducible assumption
    | with_reducible intro _
    | with_reducible apply keeps_ite
    | with_reducible apply keeps_mk
    | with_reducible exact id
    | with_reducible exact partsKeep_refl
    | with_reducible exact rasKeep_refl
    | with_reducible exact hbmKeep_refl
    | with_reducible exact pkgKeep_refl
    | with_reducible exact secKeep_refl
    | with_reducible exact namesKeep_refl
    | dsimp only
    | rw [mk_put])

theorem State.ungate_only {ls : List Item} {s0 : State} {s : State} {p : PartNo}
    (h0 : changesOnly ls s0 s) (hm : incl [.clusters] ls = true) : changesOnly ls s0 (State.ungate s p) := by
  have hs := @mem_of_incl [.clusters] ls hm
  unfold State.ungate
  try dsimp only
  repeat' (first
    | with_reducible assumption
    | with_reducible intro _
    | with_reducible apply only_ite
    | exact incl_trans rfl hm
    | with_reducible apply only_mk
    | exact Or.inr (hs (by decide))
    | with_reducible exact Or.inl rfl
    | with_reducible exact parts_refl
    | (with_reducible refine Or.inl ?_; and_intros <;> with_reducible rfl)
    | exact Or.inl rfl
    | dsimp only
    | rw [mk_put])

theorem State.ungate_keeps {s0 : State} {s : State} {p : PartNo}
    (h0 : keeps s0 s) : keeps s0 (State.ungate s p) := by
  unfold State.ungate
  try dsimp only
  repeat' (first
    | with_reducible assumption
    | with_reducible intro _
    | with_reducible apply keeps_ite
    | with_reducible apply keeps_mk
    | with_reducible exact id
    | with_reducible exact partsKeep_refl
    | with_reducible exact rasKeep_refl
    | with_reducible exact hbmKeep_refl
    | with_reducible exact pkgKeep_refl
    | with_reducible exact secKeep_refl
    | with_reducible exact namesKeep_refl
    | (refine ⟨?_, ?_, ?_, ?_, ?_, ?_⟩ <;> first | exact id | exact len_modify | exact len_map | exact len_mapIdx | exact len_set)
    | dsimp only
    | rw [mk_put])

theorem State.wake_only {ls : List Item} {s0 : State} {s : State} {p : Option PartNo}
    (h0 : changesOnly ls s0 s) (hm : incl [.clusters, .hbmRun, .power] ls = true) : changesOnly ls s0 (State.wake s p) := by
  have hs := @mem_of_incl [.clusters, .hbmRun, .power] ls hm
  unfold State.wake
  try dsimp only
  repeat' (first
    | with_reducible assumption
    | with_reducible intro _
    | with_reducible apply State.ungate_only
    | exact incl_trans rfl hm
    | with_reducible apply only_mk
    | exact Or.inr (hs (by decide))
    | with_reducible exact Or.inl rfl
    | with_reducible exact parts_refl
    | (with_reducible refine Or.inl ?_; and_intros <;> with_reducible rfl)
    | exact Or.inl rfl
    | with_reducible refine only_pair (by assumption) ?_
    | dsimp only
    | rw [mk_put]
    | split)

theorem State.wake_keeps {s0 : State} {s : State} {p : Option PartNo}
    (h0 : keeps s0 s) : keeps s0 (State.wake s p) := by
  unfold State.wake
  try dsimp only
  repeat' (first
    | with_reducible assumption
    | with_reducible intro _
    | with_reducible apply State.ungate_keeps
    | with_reducible apply keeps_mk
    | with_reducible exact id
    | with_reducible exact partsKeep_refl
    | with_reducible exact rasKeep_refl
    | with_reducible exact hbmKeep_refl
    | with_reducible exact pkgKeep_refl
    | with_reducible exact secKeep_refl
    | with_reducible exact namesKeep_refl
    | (refine (⟨?_, ?_⟩ : hbmKeep _ _) <;> first | exact id | exact len_modify | exact len_map | exact len_mapIdx | exact len_set)
    | with_reducible refine keeps_pair (by assumption) ?_
    | dsimp only
    | rw [mk_put]
    | split)

theorem State.acceptIo_only {ls : List Item} {s0 : State} {s : State} {q : Pair} {c : Cmd} {ids : Cmd → List Nat}
    (h0 : changesOnly ls s0 s) (hm : incl [.pairs, .cmds, .nextCid, .locks, .pAcct] ls = true) : changesOnly ls s0 (State.acceptIo s q c ids) := by
  have hs := @mem_of_incl [.pairs, .cmds, .nextCid, .locks, .pAcct] ls hm
  unfold State.acceptIo
  try dsimp only
  repeat' (first
    | with_reducible assumption
    | with_reducible intro _
    | with_reducible apply State.addCmd_only
    | with_reducible apply State.modPair_only
    | with_reducible apply only_ite
    | exact incl_trans rfl hm
    | with_reducible exact part_refl
    | with_reducible apply part_ite
    | with_reducible apply only_modPart
    | with_reducible apply part_mk
    | with_reducible apply only_mk
    | exact Or.inr (hs (by decide))
    | with_reducible exact Or.inl rfl
    | with_reducible exact parts_refl
    | (with_reducible refine Or.inl ?_; and_intros <;> with_reducible rfl)
    | exact Or.inl rfl
    | with_reducible refine only_pair (by assumption) ?_
    | dsimp only
    | rw [mk_put]
    | split)

theorem State.acceptIo_keeps {s0 : State} {s : State} {q : Pair} {c : Cmd} {ids : Cmd → List Nat}
    (h0 : keeps s0 s) : keeps s0 (State.acceptIo s q c ids) := by
  unfold State.acceptIo
  try dsimp only
  repeat' (first
    | with_reducible assumption
    | with_reducible intro _
    | with_reducible apply State.addCmd_keeps
    | with_reducible apply State.modPair_keeps
    | with_reducible apply keeps_ite
    | with_reducible exact pKeeps_refl
    | exact pKeeps_new rfl rfl
    | with_reducible apply pKeeps_ite
    | with_reducible apply keeps_modPart
    | with_reducible apply pKeeps_mk
    | with_reducible exact memKeeps_refl
    | with_reducible apply keeps_mk
    | with_reducible exact id
    | with_reducible exact partsKeep_refl
    | with_reducible exact rasKeep_refl
    | with_reducible exact hbmKeep_refl
    | with_reducible exact pkgKeep_refl
    | with_reducible exact secKeep_refl
    | with_reducible exact namesKeep_refl
    | with_reducible refine keeps_pair (by assumption) ?_
    | dsimp only
    | rw [mk_put]
    | split)

theorem State.accept_only {ls : List Item} {s0 : State} {s : State} {q : Pair} {entry : Bytes} {data : HostData} {ids : Cmd → List Nat}
    (h0 : changesOnly ls s0 s) (hm : incl [.clusters, .pairs, .cmds, .nextCid, .locks, .pAcct, .hbmRun, .power] ls = true) : changesOnly ls s0 (State.accept s q entry data ids) := by
  have hs := @mem_of_incl [.clusters, .pairs, .cmds, .nextCid, .locks, .pAcct, .hbmRun, .power] ls hm
  unfold State.accept
  try dsimp only
  repeat' (first
    | with_reducible assumption
    | with_reducible intro _
    | with_reducible apply State.acceptIo_only
    | with_reducible apply State.addCmd_only
    | with_reducible apply State.wake_only
    | with_reducible apply State.modPair_only
    | with_reducible apply only_ite
    | exact incl_trans rfl hm
    | with_reducible apply only_mk
    | exact Or.inr (hs (by decide))
    | with_reducible exact Or.inl rfl
    | with_reducible exact parts_refl
    | (with_reducible refine Or.inl ?_; and_intros <;> with_reducible rfl)
    | exact Or.inl rfl
    | with_reducible refine only_pair (by assumption) ?_
    | dsimp only
    | rw [mk_put]
    | split)

theorem State.accept_keeps {s0 : State} {s : State} {q : Pair} {entry : Bytes} {data : HostData} {ids : Cmd → List Nat}
    (h0 : keeps s0 s) : keeps s0 (State.accept s q entry data ids) := by
  unfold State.accept
  try dsimp only
  repeat' (first
    | with_reducible assumption
    | with_reducible intro _
    | with_reducible apply State.acceptIo_keeps
    | with_reducible apply State.addCmd_keeps
    | with_reducible apply State.wake_keeps
    | with_reducible apply State.modPair_keeps
    | with_reducible apply keeps_ite
    | with_reducible apply keeps_mk
    | with_reducible exact id
    | with_reducible exact partsKeep_refl
    | with_reducible exact rasKeep_refl
    | with_reducible exact hbmKeep_refl
    | with_reducible exact pkgKeep_refl
    | with_reducible exact secKeep_refl
    | with_reducible exact namesKeep_refl
    | with_reducible refine keeps_pair (by assumption) ?_
    | dsimp only
    | rw [mk_put]
    | split)

theorem State.logError_only {ls : List Item} {s0 : State} {s : State} {c : Cmd}
    (h0 : changesOnly ls s0 s) (hm : incl [.rasLog, .fns, .pairs, .cmds, .out] ls = true) : changesOnly ls s0 (State.logError s c) := by
  unfold State.logError
  try dsimp only
  repeat' (first
    | with_reducible assumption
    | with_reducible intro _
    | with_reducible apply State.freeze_only
    | with_reducible apply State.modCmd_only
    | with_reducible apply State.log_only
    | with_reducible apply only_getD
    | with_reducible apply only_ite
    | exact incl_trans rfl hm)

theorem State.logError_keeps {s0 : State} {s : State} {c : Cmd}
    (h0 : keeps s0 s) : keeps s0 (State.logError s c) := by
  unfold State.logError
  try dsimp only
  repeat' (first
    | with_reducible assumption
    | with_reducible intro _
    | with_reducible apply State.freeze_keeps
    | with_reducible apply State.modCmd_keeps
    | with_reducible apply State.log_keeps
    | with_reducible apply keeps_getD
    | with_reducible apply keeps_ite)

theorem State.signal_only {ls : List Item} {s0 : State} {s : State} {q : Pair}
    (h0 : changesOnly ls s0 s) (hm : incl [.fns, .pairs, .out] ls = true) : changesOnly ls s0 (State.signal s q) := by
  unfold State.signal
  try dsimp only
  repeat' (first
    | with_reducible assumption
    | with_reducible intro _
    | with_reducible apply State.msix_only
    | with_reducible apply State.modPair_only
    | exact incl_trans rfl hm)

theorem State.signal_keeps {s0 : State} {s : State} {q : Pair}
    (h0 : keeps s0 s) : keeps s0 (State.signal s q) := by
  unfold State.signal
  try dsimp only
  repeat' (first
    | with_reducible assumption
    | with_reducible intro _
    | with_reducible apply State.msix_keeps
    | with_reducible apply State.modPair_keeps)

theorem State.signalRule_only {ls : List Item} {s0 : State} {s : State} {q : Pair} {c : Cmd}
    (h0 : changesOnly ls s0 s) (hm : incl [.fns, .pairs, .out] ls = true) : changesOnly ls s0 (State.signalRule s q c) := by
  unfold State.signalRule
  try dsimp only
  repeat' (first
    | with_reducible assumption
    | with_reducible intro _
    | with_reducible apply State.signal_only
    | with_reducible apply State.modPair_only
    | with_reducible apply only_ite
    | exact incl_trans rfl hm)

theorem State.signalRule_keeps {s0 : State} {s : State} {q : Pair} {c : Cmd}
    (h0 : keeps s0 s) : keeps s0 (State.signalRule s q c) := by
  unfold State.signalRule
  try dsimp only
  repeat' (first
    | with_reducible assumption
    | with_reducible intro _
    | with_reducible apply State.signal_keeps
    | with_reducible apply State.modPair_keeps
    | with_reducible apply keeps_ite)

theorem State.askCompletion_only {ls : List Item} {s0 : State} {s : State} {q : Pair} {c : Cmd}
    (h0 : changesOnly ls s0 s) (hm : incl [.fns, .cmds, .out] ls = true) : changesOnly ls s0 (State.askCompletion s q c) := by
  unfold State.askCompletion
  try dsimp only
  repeat' (first
    | with_reducible assumption
    | with_reducible intro _
    | with_reducible apply State.modCmd_only
    | with_reducible apply State.sendPageRequest_only
    | with_reducible apply only_ite
    | exact incl_trans rfl hm)

theorem State.askCompletion_keeps {s0 : State} {s : State} {q : Pair} {c : Cmd}
    (h0 : keeps s0 s) : keeps s0 (State.askCompletion s q c) := by
  unfold State.askCompletion
  try dsimp only
  repeat' (first
    | with_reducible assumption
    | with_reducible intro _
    | with_reducible apply State.modCmd_keeps
    | with_reducible apply State.sendPageRequest_keeps
    | with_reducible apply keeps_ite)

theorem State.askCompletions_only {ls : List Item} {s0 : State} {s : State} {fn : Fn}
    (h0 : changesOnly ls s0 s) (hm : incl [.fns, .cmds, .out] ls = true) : changesOnly ls s0 (State.askCompletions s fn) := by
  have hs := @mem_of_incl [.fns, .cmds, .out] ls hm
  unfold State.askCompletions
  try dsimp only
  repeat' (first
    | with_reducible assumption
    | with_reducible intro _
    | with_reducible apply State.askCompletion_only
    | with_reducible apply only_foldl
    | with_reducible apply only_foldl_fst
    | exact incl_trans rfl hm
    | with_reducible apply only_mk
    | exact Or.inr (hs (by decide))
    | with_reducible exact Or.inl rfl
    | with_reducible exact parts_refl
    | (with_reducible refine Or.inl ?_; and_intros <;> with_reducible rfl)
    | exact Or.inl rfl
    | with_reducible refine only_pair (by assumption) ?_
    | dsimp only
    | rw [mk_put]
    | split)

theorem State.askCompletions_keeps {s0 : State} {s : State} {fn : Fn}
    (h0 : keeps s0 s) : keeps s0 (State.askCompletions s fn) := by
  unfold State.askCompletions
  try dsimp only
  repeat' (first
    | with_reducible assumption
    | with_reducible intro _
    | with_reducible apply State.askCompletion_keeps
    | with_reducible apply keeps_foldl
    | with_reducible apply keeps_foldl_fst
    | with_reducible apply keeps_mk
    | with_reducible exact id
    | with_reducible exact partsKeep_refl
    | with_reducible exact rasKeep_refl
    | with_reducible exact hbmKeep_refl
    | with_reducible exact pkgKeep_refl
    | with_reducible exact secKeep_refl
    | with_reducible exact namesKeep_refl
    | with_reducible refine keeps_pair (by assumption) ?_
    | dsimp only
    | rw [mk_put]
    | split)

theorem State.completionAnswered_only {ls : List Item} {s0 : State} {s : State} {c : Cmd}
    (h0 : changesOnly ls s0 s) (hm : incl [.fns, .cmds, .out] ls = true) : changesOnly ls s0 (State.completionAnswered s c) := by
  unfold State.completionAnswered
  try dsimp only
  repeat' (first
    | with_reducible assumption
    | with_reducible intro _
    | with_reducible apply State.pageAnswered_only
    | with_reducible apply State.askCompletions_only
    | with_reducible apply only_ite
    | exact incl_trans rfl hm)

theorem State.completionAnswered_keeps {s0 : State} {s : State} {c : Cmd}
    (h0 : keeps s0 s) : keeps s0 (State.completionAnswered s c) := by
  unfold State.completionAnswered
  try dsimp only
  repeat' (first
    | with_reducible assumption
    | with_reducible intro _
    | with_reducible apply State.pageAnswered_keeps
    | with_reducible apply State.askCompletions_keeps
    | with_reducible apply keeps_ite)

theorem State.post_only {ls : List Item} {s0 : State} {s : State} {q : Pair} {c : Cmd}
    (h0 : changesOnly ls s0 s) (hm : incl [.fns, .pairs, .atc, .out] ls = true) : changesOnly ls s0 (State.post s q c) := by
  unfold State.post
  try dsimp only
  repeat' (first
    | with_reducible assumption
    | with_reducible intro _
    | with_reducible apply State.signalRule_only
    | with_reducible apply State.modPair_only
    | with_reducible apply State.queueAccess_only
    | with_reducible apply State.emit_only
    | exact incl_trans rfl hm)

theorem State.post_keeps {s0 : State} {s : State} {q : Pair} {c : Cmd}
    (h0 : keeps s0 s) : keeps s0 (State.post s q c) := by
  unfold State.post
  try dsimp only
  repeat' (first
    | with_reducible assumption
    | with_reducible intro _
    | with_reducible apply State.signalRule_keeps
    | with_reducible apply State.modPair_keeps
    | with_reducible apply State.queueAccess_keeps
    | with_reducible apply State.emit_keeps)

theorem State.searchDone_only {ls : List Item} {s0 : State} {s : State} {c : Cmd}
    (h0 : changesOnly ls s0 s) (hm : incl [.pColls, .pShadows] ls = true) : changesOnly ls s0 (State.searchDone s c) := by
  have hs := @mem_of_incl [.pColls, .pShadows] ls hm
  unfold State.searchDone
  try dsimp only
  repeat' (first
    | with_reducible assumption
    | with_reducible intro _
    | with_reducible apply State.modCollU_only
    | with_reducible apply only_getD
    | with_reducible apply only_ite
    | exact incl_trans rfl hm
    | with_reducible exact part_refl
    | with_reducible apply part_ite
    | with_reducible apply only_modPart
    | with_reducible apply part_mk
    | with_reducible apply only_mk
    | exact Or.inr (hs (by decide))
    | with_reducible exact Or.inl rfl
    | with_reducible exact parts_refl
    | (with_reducible refine Or.inl ?_; and_intros <;> with_reducible rfl)
    | exact Or.inl rfl
    | with_reducible refine only_pair (by assumption) ?_
    | dsimp only
    | rw [mk_put]
    | split)

theorem State.searchDone_keeps {s0 : State} {s : State} {c : Cmd}
    (h0 : keeps s0 s) : keeps s0 (State.searchDone s c) := by
  unfold State.searchDone
  try dsimp only
  repeat' (first
    | with_reducible assumption
    | with_reducible intro _
    | with_reducible apply State.modCollU_keeps
    | with_reducible apply keeps_getD
    | with_reducible apply keeps_ite
    | with_reducible exact pKeeps_refl
    | exact pKeeps_new rfl rfl
    | with_reducible apply pKeeps_ite
    | with_reducible apply keeps_modPart
    | with_reducible apply pKeeps_mk
    | with_reducible exact memKeeps_refl
    | with_reducible apply keeps_mk
    | with_reducible exact id
    | with_reducible exact partsKeep_refl
    | with_reducible exact rasKeep_refl
    | with_reducible exact hbmKeep_refl
    | with_reducible exact pkgKeep_refl
    | with_reducible exact secKeep_refl
    | with_reducible exact namesKeep_refl
    | with_reducible refine keeps_pair (by assumption) ?_
    | dsimp only
    | rw [mk_put]
    | split)

theorem State.countDone_only {ls : List Item} {s0 : State} {s : State} {c : Cmd}
    (h0 : changesOnly ls s0 s) (hm : incl [.pAcct] ls = true) : changesOnly ls s0 (State.countDone s c) := by
  have hs := @mem_of_incl [.pAcct] ls hm
  unfold State.countDone
  try dsimp only
  repeat' (first
    | with_reducible assumption
    | with_reducible intro _
    | with_reducible apply only_ite
    | exact incl_trans rfl hm
    | with_reducible exact part_refl
    | with_reducible apply part_ite
    | with_reducible apply only_modPart
    | with_reducible apply part_mk
    | with_reducible apply only_mk
    | exact Or.inr (hs (by decide))
    | with_reducible exact Or.inl rfl
    | with_reducible exact parts_refl
    | (with_reducible refine Or.inl ?_; and_intros <;> with_reducible rfl)
    | exact Or.inl rfl
    | with_reducible refine only_pair (by assumption) ?_
    | dsimp only
    | rw [mk_put]
    | split)

theorem State.countDone_keeps {s0 : State} {s : State} {c : Cmd}
    (h0 : keeps s0 s) : keeps s0 (State.countDone s c) := by
  unfold State.countDone
  try dsimp only
  repeat' (first
    | with_reducible assumption
    | with_reducible intro _
    | with_reducible apply keeps_ite
    | with_reducible exact pKeeps_refl
    | exact pKeeps_new rfl rfl
    | with_reducible apply pKeeps_ite
    | with_reducible apply keeps_modPart
    | with_reducible apply pKeeps_mk
    | with_reducible exact memKeeps_refl
    | with_reducible apply keeps_mk
    | with_reducible exact id
    | with_reducible exact partsKeep_refl
    | with_reducible exact rasKeep_refl
    | with_reducible exact hbmKeep_refl
    | with_reducible exact pkgKeep_refl
    | with_reducible exact secKeep_refl
    | with_reducible exact namesKeep_refl
    | with_reducible refine keeps_pair (by assumption) ?_
    | dsimp only
    | rw [mk_put]
    | split)

theorem State.forget_only {ls : List Item} {s0 : State} {s : State} {cid : Nat}
    (h0 : changesOnly ls s0 s) (hm : incl [.cmds, .pColls, .power] ls = true) : changesOnly ls s0 (State.forget s cid) := by
  have hs := @mem_of_incl [.cmds, .pColls, .power] ls hm
  unfold State.forget
  try dsimp only
  repeat' (first
    | with_reducible assumption
    | with_reducible intro _
    | with_reducible apply State.reap_only
    | exact incl_trans rfl hm
    | with_reducible apply only_mk
    | exact Or.inr (hs (by decide))
    | with_reducible exact Or.inl rfl
    | with_reducible exact parts_refl
    | (with_reducible refine Or.inl ?_; and_intros <;> with_reducible rfl)
    | exact Or.inl rfl
    | dsimp only
    | rw [mk_put])

theorem State.forget_keeps {s0 : State} {s : State} {cid : Nat}
    (h0 : keeps s0 s) : keeps s0 (State.forget s cid) := by
  unfold State.forget
  try dsimp only
  repeat' (first
    | with_reducible assumption
    | with_reducible intro _
    | with_reducible apply State.reap_keeps
    | with_reducible apply keeps_mk
    | with_reducible exact id
    | with_reducible exact partsKeep_refl
    | with_reducible exact rasKeep_refl
    | with_reducible exact hbmKeep_refl
    | with_reducible exact pkgKeep_refl
    | with_reducible exact secKeep_refl
    | with_reducible exact namesKeep_refl
    | with_reducible apply namesKeep_map
    | with_reducible exact namesKeep_filter
    | with_reducible exact namesKeep_nil
    | (intro _; split <;> rfl)
    | dsimp only
    | rw [mk_put])

theorem State.armAdmin_only {ls : List Item} {s0 : State} {s : State} {fn : Fn}
    (h0 : changesOnly ls s0 s) (hm : incl [.fns, .pairs] ls = true) : changesOnly ls s0 (State.armAdmin s fn) := by
  have hs := @mem_of_incl [.fns, .pairs] ls hm
  unfold State.armAdmin
  try dsimp only
  repeat' (first
    | with_reducible assumption
    | with_reducible intro _
    | with_reducible apply State.modFn_only
    | exact incl_trans rfl hm
    | with_reducible apply only_mk
    | exact Or.inr (hs (by decide))
    | with_reducible exact Or.inl rfl
    | with_reducible exact parts_refl
    | (with_reducible refine Or.inl ?_; and_intros <;> with_reducible rfl)
    | exact Or.inl rfl
    | dsimp only
    | rw [mk_put])

theorem State.armAdmin_keeps {s0 : State} {s : State} {fn : Fn}
    (h0 : keeps s0 s) : keeps s0 (State.armAdmin s fn) := by
  unfold State.armAdmin
  try dsimp only
  repeat' (first
    | with_reducible assumption
    | with_reducible intro _
    | with_reducible apply State.modFn_keeps
    | with_reducible apply keeps_mk
    | with_reducible exact id
    | with_reducible exact partsKeep_refl
    | with_reducible exact rasKeep_refl
    | with_reducible exact hbmKeep_refl
    | with_reducible exact pkgKeep_refl
    | with_reducible exact secKeep_refl
    | with_reducible exact namesKeep_refl
    | dsimp only
    | rw [mk_put])

theorem execQmEnable_only {ls : List Item} {s0 : State} {fn : Fn} {s : State}
    (h0 : changesOnly ls s0 s) (hm : incl [.rasLog, .fns, .pairs, .out] ls = true) {d : State} : changesOnly ls s0 (after d (execQmEnable fn s)) := by
  unfold execQmEnable
  unfold after
  try dsimp only
  repeat' (first
    | with_reducible assumption
    | with_reducible intro _
    | with_reducible apply State.armAdmin_only
    | with_reducible apply State.logHost_only
    | with_reducible apply State.modFn_only
    | with_reducible apply only_ite
    | exact incl_trans rfl hm)

theorem execQmEnable_keeps {s0 : State} {fn : Fn} {s : State} {d : State}
    (h0 : keeps s0 s) : keeps s0 (after d (execQmEnable fn s)) := by
  unfold execQmEnable
  unfold after
  try dsimp only
  repeat' (first
    | with_reducible assumption
    | with_reducible intro _
    | with_reducible apply State.armAdmin_keeps
    | with_reducible apply State.logHost_keeps
    | with_reducible apply State.modFn_keeps
    | with_reducible apply keeps_ite)

theorem execQmDisable_only {ls : List Item} {s0 : State} {fn : Fn} {s : State}
    (h0 : changesOnly ls s0 s) (hm : incl [.rasLog, .fns, .pairs, .cmds, .locks, .pMem, .pColls, .pAcct, .ctxs, .streams, .ristretto, .semaphores, .poison, .slm, .ports, .peers, .transit, .out, .fresh] ls = true) {d : State} : changesOnly ls s0 (after d (execQmDisable fn s)) := by
  unfold execQmDisable
  unfold after
  try dsimp only
  repeat' (first
    | with_reducible assumption
    | with_reducible intro _
    | with_reducible apply State.modFn_only
    | with_reducible apply State.startDelete_only
    | with_reducible apply only_ite
    | with_reducible apply only_foldl
    | with_reducible apply only_foldl_fst
    | exact incl_trans rfl hm)

theorem execQmDisable_keeps {s0 : State} {fn : Fn} {s : State} {d : State}
    (h0 : keeps s0 s) : keeps s0 (after d (execQmDisable fn s)) := by
  unfold execQmDisable
  unfold after
  try dsimp only
  repeat' (first
    | with_reducible assumption
    | with_reducible intro _
    | with_reducible apply State.modFn_keeps
    | with_reducible apply State.startDelete_keeps
    | with_reducible apply keeps_ite
    | with_reducible apply keeps_foldl)

theorem State.askRestart_only {ls : List Item} {s0 : State} {s : State} {cid : Nat} {c : Cmd} {flush : Bool}
    (h0 : changesOnly ls s0 s) (hm : incl [.pairs, .cmds, .locks, .ctxs, .streams, .ristretto, .semaphores] ls = true) : changesOnly ls s0 (State.askRestart s cid c flush) := by
  have hs := @mem_of_incl [.pairs, .cmds, .locks, .ctxs, .streams, .ristretto, .semaphores] ls hm
  unfold State.askRestart
  try dsimp only
  repeat' (first
    | with_reducible assumption
    | with_reducible intro _
    | with_reducible apply State.finish_only
    | with_reducible apply State.modCmd_only
    | with_reducible apply State.modPair_only
    | with_reducible apply State.failRestart_only
    | with_reducible apply only_ite
    | exact incl_trans rfl hm
    | with_reducible apply only_mk
    | exact Or.inr (hs (by decide))
    | with_reducible exact Or.inl rfl
    | with_reducible exact parts_refl
    | (with_reducible refine Or.inl ?_; and_intros <;> with_reducible rfl)
    | exact Or.inl rfl
    | with_reducible refine only_pair (by assumption) ?_
    | dsimp only
    | rw [mk_put]
    | split)

theorem State.askRestart_keeps {s0 : State} {s : State} {cid : Nat} {c : Cmd} {flush : Bool}
    (h0 : keeps s0 s) : keeps s0 (State.askRestart s cid c flush) := by
  unfold State.askRestart
  try dsimp only
  repeat' (first
    | with_reducible assumption
    | with_reducible intro _
    | with_reducible apply State.finish_keeps
    | with_reducible apply State.modCmd_keeps
    | with_reducible apply State.modPair_keeps
    | with_reducible apply State.failRestart_keeps
    | with_reducible apply keeps_ite
    | with_reducible apply keeps_mk
    | with_reducible exact id
    | with_reducible exact partsKeep_refl
    | with_reducible exact rasKeep_refl
    | with_reducible exact hbmKeep_refl
    | with_reducible exact pkgKeep_refl
    | with_reducible exact secKeep_refl
    | with_reducible exact namesKeep_refl
    | exact rfl
    | with_reducible refine keeps_pair (by assumption) ?_
    | dsimp only
    | rw [mk_put]
    | split)

theorem State.flushEntries_only {ls : List Item} {s0 : State} {s : State} {fn : Fn} {qid n : Nat} {l : List (Option (BitVec 16))}
    (h0 : changesOnly ls s0 s) (hm : incl [.rasLog, .fns, .pairs, .pAcct, .atc, .out] ls = true) : changesOnly ls s0 (State.flushEntries s fn qid n l) := by
  induction l generalizing s with
  | nil => exact h0
  | cons x l ih =>
    unfold State.flushEntries
    dsimp only
    split
    · exact h0
    · split
      · exact h0
      · apply ih
        apply State.countDone_only _ (incl_trans rfl hm)
        apply State.post_only _ (incl_trans rfl hm)
        apply State.modPair_only _ (incl_trans rfl hm)
        split
        · exact h0
        · exact State.logHost_only h0 (incl_trans rfl hm)

theorem State.flushEntries_keeps {s0 : State} {s : State} {fn : Fn} {qid n : Nat} {l : List (Option (BitVec 16))}
    (h0 : keeps s0 s) : keeps s0 (State.flushEntries s fn qid n l) := by
  induction l generalizing s with
  | nil => exact h0
  | cons x l ih =>
    unfold State.flushEntries
    dsimp only
    split
    · exact h0
    · split
      · exact h0
      · apply ih
        apply State.countDone_keeps _
        apply State.post_keeps _
        apply State.modPair_keeps _
        split
        · exact h0
        · exact State.logHost_keeps h0

theorem State.unfreeze_only {ls : List Item} {s0 : State} {s : State} {fn : Fn} {qid : Nat}
    (h0 : changesOnly ls s0 s) (hm : incl [.pairs] ls = true) : changesOnly ls s0 (State.unfreeze s fn qid) := by
  unfold State.unfreeze
  try dsimp only
  repeat' first | with_reducible assumption | with_reducible intro _ | with_reducible apply State.modPair_only

theorem State.unfreeze_keeps {s0 : State} {s : State} {fn : Fn} {qid : Nat}
    (h0 : keeps s0 s) : keeps s0 (State.unfreeze s fn qid) := by
  unfold State.unfreeze
  try dsimp only
  repeat' first | with_reducible assumption | with_reducible intro _ | with_reducible apply State.modPair_keeps

end Sys2Proof.Machine
end

