-- ==== Sys2Proof/Laws/Scratch.lean ====
section
/-! SUPPORT. What each operation of Machine/Scratch.lean may change: its frame, and that it
keeps the invariant and the fuses. -/

namespace Sys2Proof.Machine

open Sys2Proof.Safety Sys2Proof.Laws

theorem State.useScratch_only {ls : List Item} {s0 : State} {s : State} {p : PartNo} {kind : ScratchKind} {owner item len : Nat}
    (h0 : changesOnly ls s0 s) (hm : incl [.pUses] ls = true) : changesOnly ls s0 (State.useScratch s p kind owner item len) := by
  have hs := @mem_of_incl [.pUses] ls hm
  unfold State.useScratch
  try dsimp only
  repeat' (first
    | with_reducible assumption
    | with_reducible intro _
    | exact incl_trans rfl hm
    | with_reducible exact part_refl
    | with_reducible apply only_modPart
    | with_reducible apply part_mk
    | with_reducible apply only_mk
    | exact Or.inr (hs (by decide))
    | with_reducible exact Or.inl rfl
    | with_reducible exact parts_refl
    | (with_reducible refine Or.inl ?_; and_intros <;> with_reducible rfl))

theorem State.useScratch_keeps {s0 : State} {s : State} {p : PartNo} {kind : ScratchKind} {owner item len : Nat}
    (h0 : keeps s0 s) : keeps s0 (State.useScratch s p kind owner item len) := by
  unfold State.useScratch
  try dsimp only
  repeat' (first
    | with_reducible assumption
    | with_reducible intro _
    | with_reducible exact pKeeps_refl
    | exact pKeeps_new rfl rfl
    | with_reducible apply keeps_modPart
    | with_reducible apply pKeeps_mk
    | with_reducible exact memKeeps_refl)

theorem State.writeUse_only {ls : List Item} {s0 : State} {s : State} {p : PartNo} {u : ScratchUse} {bs : Bytes}
    (h0 : changesOnly ls s0 s) (hm : incl [.rasLog, .fns, .pScratch, .out] ls = true) : changesOnly ls s0 (State.writeUse s p u bs) := by
  unfold State.writeUse
  try dsimp only
  repeat' (first
    | with_reducible assumption
    | with_reducible intro _
    | with_reducible apply State.wrScratch_only
    | with_reducible apply only_foldl)

theorem State.writeUse_keeps {s0 : State} {s : State} {p : PartNo} {u : ScratchUse} {bs : Bytes}
    (h0 : keeps s0 s) : keeps s0 (State.writeUse s p u bs) := by
  unfold State.writeUse
  try dsimp only
  repeat' (first
    | with_reducible assumption
    | with_reducible intro _
    | with_reducible apply State.wrScratch_keeps
    | with_reducible apply keeps_foldl)

theorem State.fillUse_only {ls : List Item} {s0 : State} {s : State} {p : PartNo} {kind : ScratchKind} {owner item : Nat} {bs : Bytes}
    (h0 : changesOnly ls s0 s) (hm : incl [.rasLog, .fns, .pScratch, .pUses, .out] ls = true) : changesOnly ls s0 (State.fillUse s p kind owner item bs) := by
  have hs := @mem_of_incl [.rasLog, .fns, .pScratch, .pUses, .out] ls hm
  unfold State.fillUse
  try dsimp only
  repeat' (first
    | with_reducible assumption
    | with_reducible intro _
    | with_reducible apply State.useScratch_only
    | with_reducible apply State.writeUse_only
    | exact incl_trans rfl hm
    | with_reducible apply only_mk
    | exact Or.inr (hs (by decide))
    | with_reducible exact Or.inl rfl
    | with_reducible exact parts_refl
    | (with_reducible refine Or.inl ?_; and_intros <;> with_reducible rfl)
    | exact Or.inl rfl
    | with_reducible refine only_pair (by assumption) ?_
    | dsimp only
    | rw [mk_put]
    | split)

theorem State.fillUse_keeps {s0 : State} {s : State} {p : PartNo} {kind : ScratchKind} {owner item : Nat} {bs : Bytes}
    (h0 : keeps s0 s) : keeps s0 (State.fillUse s p kind owner item bs) := by
  unfold State.fillUse
  try dsimp only
  repeat' (first
    | with_reducible assumption
    | with_reducible intro _
    | with_reducible apply State.useScratch_keeps
    | with_reducible apply State.writeUse_keeps
    | with_reducible apply keeps_mk
    | with_reducible exact id
    | with_reducible exact partsKeep_refl
    | with_reducible exact rasKeep_refl
    | with_reducible exact hbmKeep_refl
    | with_reducible exact pkgKeep_refl
    | with_reducible exact secKeep_refl
    | with_reducible exact namesKeep_refl
    | with_reducible refine keeps_pair (by assumption) ?_
    | dsimp only
    | rw [mk_put]
    | split)

theorem State.placeDirectories_only {ls : List Item} {s0 : State} {s : State} {p : PartNo}
    (h0 : changesOnly ls s0 s) (hm : incl [.pUses] ls = true) : changesOnly ls s0 (State.placeDirectories s p) := by
  unfold State.placeDirectories
  try dsimp only
  repeat' (first
    | with_reducible assumption
    | with_reducible intro _
    | with_reducible apply State.useScratch_only
    | with_reducible apply only_foldl)

theorem State.placeDirectories_keeps {s0 : State} {s : State} {p : PartNo}
    (h0 : keeps s0 s) : keeps s0 (State.placeDirectories s p) := by
  unfold State.placeDirectories
  try dsimp only
  repeat' (first
    | with_reducible assumption
    | with_reducible intro _
    | with_reducible apply State.useScratch_keeps
    | with_reducible apply keeps_foldl)

theorem State.placeSpill_only {ls : List Item} {s0 : State} {s : State} {p : PartNo} {cid bytes : Nat}
    (h0 : changesOnly ls s0 s) (hm : incl [.cmds, .pUses] ls = true) : changesOnly ls s0 (State.placeSpill s p cid bytes) := by
  unfold State.placeSpill
  try dsimp only
  repeat' (first
    | with_reducible assumption
    | with_reducible intro _
    | with_reducible apply State.useScratch_only
    | with_reducible apply State.modCmd_only
    | with_reducible apply only_ite
    | exact incl_trans rfl hm)

theorem State.placeSpill_keeps {s0 : State} {s : State} {p : PartNo} {cid bytes : Nat}
    (h0 : keeps s0 s) : keeps s0 (State.placeSpill s p cid bytes) := by
  unfold State.placeSpill
  try dsimp only
  repeat' (first
    | with_reducible assumption
    | with_reducible intro _
    | with_reducible apply State.useScratch_keeps
    | with_reducible apply State.modCmd_keeps
    | with_reducible apply keeps_ite)

theorem State.placeOverflow_only {ls : List Item} {s0 : State} {s : State} {p : PartNo} {cid bytes : Nat}
    (h0 : changesOnly ls s0 s) (hm : incl [.cmds, .pUses] ls = true) : changesOnly ls s0 (State.placeOverflow s p cid bytes) := by
  unfold State.placeOverflow
  try dsimp only
  repeat' (first
    | with_reducible assumption
    | with_reducible intro _
    | with_reducible apply State.useScratch_only
    | with_reducible apply State.modCmd_only
    | with_reducible apply only_ite
    | exact incl_trans rfl hm)

theorem State.placeOverflow_keeps {s0 : State} {s : State} {p : PartNo} {cid bytes : Nat}
    (h0 : keeps s0 s) : keeps s0 (State.placeOverflow s p cid bytes) := by
  unfold State.placeOverflow
  try dsimp only
  repeat' (first
    | with_reducible assumption
    | with_reducible intro _
    | with_reducible apply State.useScratch_keeps
    | with_reducible apply State.modCmd_keeps
    | with_reducible apply keeps_ite)

end Sys2Proof.Machine
end

