-- ==== Sys2Proof/Laws/Seal.lean ====
section
/-! SUPPORT. What each operation of Machine/Seal.lean may change: its frame, and that it
keeps the invariant and the fuses. -/

namespace Sys2Proof.Machine

open Sys2Proof.Safety Sys2Proof.Laws

theorem State.newKey_only {ls : List Item} {s0 : State} {s : State}
    (h0 : changesOnly ls s0 s) (hm : incl [.keys] ls = true) : changesOnly ls s0 (State.newKey s) := by
  have hs := @mem_of_incl [.keys] ls hm
  unfold State.newKey
  try dsimp only
  repeat' (first
    | with_reducible assumption
    | with_reducible intro _
    | exact incl_trans rfl hm
    | with_reducible apply only_mk
    | exact Or.inr (hs (by decide))
    | with_reducible exact Or.inl rfl
    | with_reducible exact parts_refl
    | (with_reducible refine Or.inl ?_; and_intros <;> with_reducible rfl)
    | exact Or.inl rfl
    | dsimp only
    | rw [mk_put])

theorem State.newKey_keeps {s0 : State} {s : State}
    (h0 : keeps s0 s) : keeps s0 (State.newKey s) := by
  unfold State.newKey
  try dsimp only
  repeat' (first
    | with_reducible assumption
    | with_reducible intro _
    | with_reducible apply keeps_mk
    | with_reducible exact id
    | with_reducible exact partsKeep_refl
    | with_reducible exact rasKeep_refl
    | with_reducible exact hbmKeep_refl
    | with_reducible exact pkgKeep_refl
    | with_reducible exact secKeep_refl
    | with_reducible exact namesKeep_refl
    | exact secKeep_of rfl rfl
    | dsimp only
    | rw [mk_put])

theorem State.rekeyPart_only {ls : List Item} {s0 : State} {s : State} {p : PartNo}
    (h0 : changesOnly ls s0 s) (hm : incl [.keys, .pMem, .pKey] ls = true) : changesOnly ls s0 (State.rekeyPart s p) := by
  have hs := @mem_of_incl [.keys, .pMem, .pKey] ls hm
  unfold State.rekeyPart
  try dsimp only
  repeat' (first
    | with_reducible assumption
    | with_reducible intro _
    | with_reducible apply State.newKey_only
    | exact incl_trans rfl hm
    | with_reducible exact part_refl
    | with_reducible apply only_modPart
    | with_reducible apply part_mk
    | with_reducible apply only_mk
    | exact Or.inr (hs (by decide))
    | with_reducible exact Or.inl rfl
    | with_reducible exact parts_refl
    | (with_reducible refine Or.inl ?_; and_intros <;> with_reducible rfl))

theorem State.rekeyPart_keeps {s0 : State} {s : State} {p : PartNo}
    (h0 : keeps s0 s) : keeps s0 (State.rekeyPart s p) := by
  unfold State.rekeyPart
  try dsimp only
  repeat' (first
    | with_reducible assumption
    | with_reducible intro _
    | with_reducible apply State.newKey_keeps
    | with_reducible exact pKeeps_refl
    | exact pKeeps_new rfl rfl
    | with_reducible apply keeps_modPart
    | with_reducible apply pKeeps_mk
    | with_reducible exact memKeeps_refl
    | exact memKeeps_init memKeeps_refl
    | exact memKeeps_write memKeeps_refl
    | exact memKeeps_scratch
    | exact memKeeps_empty)

theorem State.dropKey_only {ls : List Item} {s0 : State} {s : State} {p : PartNo}
    (h0 : changesOnly ls s0 s) (hm : incl [.pMem, .pKey] ls = true) : changesOnly ls s0 (State.dropKey s p) := by
  have hs := @mem_of_incl [.pMem, .pKey] ls hm
  unfold State.dropKey
  try dsimp only
  repeat' (first
    | with_reducible assumption
    | with_reducible intro _
    | exact incl_trans rfl hm
    | with_reducible exact part_refl
    | with_reducible apply only_modPart
    | with_reducible apply part_mk
    | with_reducible apply only_mk
    | exact Or.inr (hs (by decide))
    | with_reducible exact Or.inl rfl
    | with_reducible exact parts_refl
    | (with_reducible refine Or.inl ?_; and_intros <;> with_reducible rfl))

theorem State.dropKey_keeps {s0 : State} {s : State} {p : PartNo}
    (h0 : keeps s0 s) : keeps s0 (State.dropKey s p) := by
  unfold State.dropKey
  try dsimp only
  repeat' (first
    | with_reducible assumption
    | with_reducible intro _
    | with_reducible exact pKeeps_refl
    | exact pKeeps_new rfl rfl
    | with_reducible apply keeps_modPart
    | with_reducible apply pKeeps_mk
    | with_reducible exact memKeeps_refl
    | exact memKeeps_init memKeeps_refl
    | exact memKeeps_write memKeeps_refl
    | exact memKeeps_scratch
    | exact memKeeps_empty)

end Sys2Proof.Machine
end

