-- ==== Sys2Proof/Laws/Repair.lean ====
section
/-! SUPPORT. What each operation of Machine/Repair.lean may change: its frame, and that it
keeps the invariant and the fuses. -/

namespace Sys2Proof.Machine

open Sys2Proof.Safety Sys2Proof.Laws

theorem State.unavailBegin_only {ls : List Item} {s0 : State} {s : State} {ps : List PartNo}
    (h0 : changesOnly ls s0 s) (hm : incl [.rasCounts] ls = true) : changesOnly ls s0 (State.unavailBegin s ps) := by
  have hs := @mem_of_incl [.rasCounts] ls hm
  unfold State.unavailBegin
  try dsimp only
  repeat' (first
    | with_reducible assumption
    | with_reducible intro _
    | with_reducible apply only_ite
    | exact incl_trans rfl hm
    | with_reducible apply only_mk
    | exact Or.inr (hs (by decide))
    | with_reducible exact Or.inl rfl
    | with_reducible exact parts_refl
    | (with_reducible refine Or.inl ?_; and_intros <;> with_reducible rfl)
    | exact Or.inl rfl
    | dsimp only
    | rw [mk_put])

theorem State.unavailBegin_keeps {s0 : State} {s : State} {ps : List PartNo}
    (h0 : keeps s0 s) : keeps s0 (State.unavailBegin s ps) := by
  unfold State.unavailBegin
  try dsimp only
  repeat' (first
    | with_reducible assumption
    | with_reducible intro _
    | with_reducible apply keeps_ite
    | with_reducible apply keeps_mk
    | with_reducible exact id
    | with_reducible exact partsKeep_refl
    | with_reducible exact rasKeep_refl
    | with_reducible exact hbmKeep_refl
    | with_reducible exact pkgKeep_refl
    | with_reducible exact secKeep_refl
    | with_reducible exact namesKeep_refl
    | (refine ⟨?_, ?_, ?_, ?_, ?_, ?_⟩ <;> first | exact id | exact len_modify | exact len_map | exact len_mapIdx | exact len_set)
    | dsimp only
    | rw [mk_put])

theorem State.unavailEnd_only {ls : List Item} {s0 : State} {s : State} {ps : List PartNo}
    (h0 : changesOnly ls s0 s) (hm : incl [.rasCounts] ls = true) : changesOnly ls s0 (State.unavailEnd s ps) := by
  have hs := @mem_of_incl [.rasCounts] ls hm
  unfold State.unavailEnd
  try dsimp only
  repeat' (first
    | with_reducible assumption
    | with_reducible intro _
    | with_reducible apply only_getD
    | with_reducible apply only_ite
    | exact incl_trans rfl hm
    | with_reducible apply only_mk
    | exact Or.inr (hs (by decide))
    | with_reducible exact Or.inl rfl
    | with_reducible exact parts_refl
    | (with_reducible refine Or.inl ?_; and_intros <;> with_reducible rfl)
    | exact Or.inl rfl
    | with_reducible refine only_pair (by assumption) ?_
    | dsimp only
    | rw [mk_put])

theorem State.unavailEnd_keeps {s0 : State} {s : State} {ps : List PartNo}
    (h0 : keeps s0 s) : keeps s0 (State.unavailEnd s ps) := by
  unfold State.unavailEnd
  try dsimp only
  repeat' (first
    | with_reducible assumption
    | with_reducible intro _
    | with_reducible apply keeps_getD
    | with_reducible apply keeps_ite
    | with_reducible apply keeps_mk
    | with_reducible exact id
    | with_reducible exact partsKeep_refl
    | with_reducible exact rasKeep_refl
    | with_reducible exact hbmKeep_refl
    | with_reducible exact pkgKeep_refl
    | with_reducible exact secKeep_refl
    | with_reducible exact namesKeep_refl
    | (refine ⟨?_, ?_, ?_, ?_, ?_, ?_⟩ <;> first | exact id | exact len_modify | exact len_map | exact len_mapIdx | exact len_set)
    | with_reducible refine keeps_pair (by assumption) ?_
    | dsimp only
    | rw [mk_put])

theorem State.setFatal_only {ls : List Item} {s0 : State} {s : State}
    (h0 : changesOnly ls s0 s) (hm : incl [.rasCounts, .hif] ls = true) : changesOnly ls s0 (State.setFatal s) := by
  have hs := @mem_of_incl [.rasCounts, .hif] ls hm
  unfold State.setFatal
  try dsimp only
  repeat' (first
    | with_reducible assumption
    | with_reducible intro _
    | with_reducible apply State.unavailBegin_only
    | with_reducible apply only_ite
    | exact incl_trans rfl hm
    | with_reducible apply only_mk
    | exact Or.inr (hs (by decide))
    | with_reducible exact Or.inl rfl
    | with_reducible exact parts_refl
    | (with_reducible refine Or.inl ?_; and_intros <;> with_reducible rfl)
    | exact Or.inl rfl
    | dsimp only
    | rw [mk_put])

theorem State.setFatal_keeps {s0 : State} {s : State}
    (h0 : keeps s0 s) : keeps s0 (State.setFatal s) := by
  unfold State.setFatal
  try dsimp only
  repeat' (first
    | with_reducible assumption
    | with_reducible intro _
    | with_reducible apply State.unavailBegin_keeps
    | with_reducible apply keeps_ite
    | with_reducible apply keeps_mk
    | with_reducible exact id
    | with_reducible exact partsKeep_refl
    | with_reducible exact rasKeep_refl
    | with_reducible exact hbmKeep_refl
    | with_reducible exact pkgKeep_refl
    | with_reducible exact secKeep_refl
    | with_reducible exact namesKeep_refl
    | dsimp only
    | rw [mk_put])

theorem State.logSecurity_only {ls : List Item} {s0 : State} {s : State} {event level scope : Nat} {part : Option PartNo} {fn : Option Fn}
    (h0 : changesOnly ls s0 s) (hm : incl [.rasLog, .fns, .out] ls = true) : changesOnly ls s0 (State.logSecurity s event level scope part fn) := by
  unfold State.logSecurity
  try dsimp only
  repeat' first | with_reducible assumption | with_reducible intro _ | with_reducible apply State.log_only

theorem State.logSecurity_keeps {s0 : State} {s : State} {event level scope : Nat} {part : Option PartNo} {fn : Option Fn}
    (h0 : keeps s0 s) : keeps s0 (State.logSecurity s event level scope part fn) := by
  unfold State.logSecurity
  try dsimp only
  repeat' first | with_reducible assumption | with_reducible intro _ | with_reducible apply State.log_keeps

theorem State.tdiError_only {ls : List Item} {s0 : State} {s : State} {p : PartNo}
    (h0 : changesOnly ls s0 s) (hm : incl [.rasLog, .fns, .cmds, .locks, .pMem, .pKey, .pColls, .pAcct, .ctxs, .streams, .ristretto, .semaphores, .poison, .slm, .ports, .peers, .transit, .out, .fresh] ls = true) : changesOnly ls s0 (State.tdiError s p) := by
  unfold State.tdiError
  try dsimp only
  repeat' (first
    | with_reducible assumption
    | with_reducible intro _
    | with_reducible apply State.dropKey_only
    | with_reducible apply State.raiseAll_only
    | with_reducible apply State.modFn_only
    | with_reducible apply State.logSecurity_only
    | with_reducible apply State.endWhere_only
    | with_reducible apply only_ite
    | exact incl_trans rfl hm)

theorem State.tdiError_keeps {s0 : State} {s : State} {p : PartNo}
    (h0 : keeps s0 s) : keeps s0 (State.tdiError s p) := by
  unfold State.tdiError
  try dsimp only
  repeat' (first
    | with_reducible assumption
    | with_reducible intro _
    | with_reducible apply State.dropKey_keeps
    | with_reducible apply State.raiseAll_keeps
    | with_reducible apply State.modFn_keeps
    | with_reducible apply State.logSecurity_keeps
    | with_reducible apply State.endWhere_keeps
    | with_reducible apply keeps_ite)

theorem State.standInLeaves_only {ls : List Item} {s0 : State} {s : State} {cl : Nat}
    (h0 : changesOnly ls s0 s) (hm : incl [.cores, .clusters] ls = true) : changesOnly ls s0 (State.standInLeaves s cl) := by
  have hs := @mem_of_incl [.cores, .clusters] ls hm
  unfold State.standInLeaves
  try dsimp only
  repeat' (first
    | with_reducible assumption
    | with_reducible intro _
    | with_reducible apply State.modCluster_only
    | with_reducible apply State.modCore_only
    | exact incl_trans rfl hm
    | with_reducible apply only_mk
    | exact Or.inr (hs (by decide))
    | with_reducible exact Or.inl rfl
    | with_reducible exact parts_refl
    | (with_reducible refine Or.inl ?_; and_intros <;> with_reducible rfl)
    | exact Or.inl rfl
    | with_reducible refine only_pair (by assumption) ?_
    | dsimp only
    | rw [mk_put]
    | split)

theorem State.standInLeaves_keeps {s0 : State} {s : State} {cl : Nat}
    (h0 : keeps s0 s) : keeps s0 (State.standInLeaves s cl) := by
  unfold State.standInLeaves
  try dsimp only
  repeat' (first
    | with_reducible assumption
    | with_reducible intro _
    | with_reducible apply State.modCluster_keeps
    | with_reducible apply State.modCore_keeps
    | with_reducible apply keeps_mk
    | with_reducible exact id
    | with_reducible exact partsKeep_refl
    | with_reducible exact rasKeep_refl
    | with_reducible exact hbmKeep_refl
    | with_reducible exact pkgKeep_refl
    | with_reducible exact secKeep_refl
    | with_reducible exact namesKeep_refl
    | with_reducible refine keeps_pair (by assumption) ?_
    | dsimp only
    | rw [mk_put]
    | split)

theorem State.clusterTestEnds_only {ls : List Item} {s0 : State} {s : State} {cl : Nat}
    (h0 : changesOnly ls s0 s) (hm : incl [.cores, .clusters] ls = true) : changesOnly ls s0 (State.clusterTestEnds s cl) := by
  have hs := @mem_of_incl [.cores, .clusters] ls hm
  unfold State.clusterTestEnds
  try dsimp only
  repeat' (first
    | with_reducible assumption
    | with_reducible intro _
    | with_reducible apply State.standInLeaves_only
    | with_reducible apply State.modCluster_only
    | with_reducible apply State.modCore_only
    | with_reducible apply only_ite
    | exact incl_trans rfl hm
    | with_reducible apply only_mk
    | exact Or.inr (hs (by decide))
    | with_reducible exact Or.inl rfl
    | with_reducible exact parts_refl
    | (with_reducible refine Or.inl ?_; and_intros <;> with_reducible rfl)
    | exact Or.inl rfl
    | with_reducible refine only_pair (by assumption) ?_
    | dsimp only
    | rw [mk_put]
    | split)

theorem State.clusterTestEnds_keeps {s0 : State} {s : State} {cl : Nat}
    (h0 : keeps s0 s) : keeps s0 (State.clusterTestEnds s cl) := by
  unfold State.clusterTestEnds
  try dsimp only
  repeat' (first
    | with_reducible assumption
    | with_reducible intro _
    | with_reducible apply State.standInLeaves_keeps
    | with_reducible apply State.modCluster_keeps
    | with_reducible apply State.modCore_keeps
    | with_reducible apply keeps_ite
    | with_reducible apply keeps_mk
    | with_reducible exact id
    | with_reducible exact partsKeep_refl
    | with_reducible exact rasKeep_refl
    | with_reducible exact hbmKeep_refl
    | with_reducible exact pkgKeep_refl
    | with_reducible exact secKeep_refl
    | with_reducible exact namesKeep_refl
    | with_reducible refine keeps_pair (by assumption) ?_
    | dsimp only
    | rw [mk_put]
    | split)

theorem State.endTest_only {ls : List Item} {s0 : State} {s : State} {cid : Nat}
    (h0 : changesOnly ls s0 s) (hm : incl [.rasLog, .cores, .clusters, .hif, .fns, .ports, .tests, .out] ls = true) : changesOnly ls s0 (State.endTest s cid) := by
  have hs := @mem_of_incl [.rasLog, .cores, .clusters, .hif, .fns, .ports, .tests, .out] ls hm
  unfold State.endTest
  try dsimp only
  repeat' (first
    | with_reducible assumption
    | with_reducible intro _
    | with_reducible apply State.setPort_only
    | with_reducible apply State.clusterTestEnds_only
    | with_reducible apply only_foldl
    | with_reducible apply only_foldl_fst
    | exact incl_trans rfl hm
    | with_reducible apply only_mk
    | exact Or.inr (hs (by decide))
    | with_reducible exact Or.inl rfl
    | with_reducible exact parts_refl
    | (with_reducible refine Or.inl ?_; and_intros <;> with_reducible rfl)
    | exact Or.inl rfl
    | with_reducible refine only_pair (by assumption) ?_
    | dsimp only
    | rw [mk_put]
    | split)

theorem State.endTest_keeps {s0 : State} {s : State} {cid : Nat}
    (h0 : keeps s0 s) : keeps s0 (State.endTest s cid) := by
  unfold State.endTest
  try dsimp only
  repeat' (first
    | with_reducible assumption
    | with_reducible intro _
    | with_reducible apply State.setPort_keeps
    | with_reducible apply State.clusterTestEnds_keeps
    | with_reducible apply keeps_foldl
    | with_reducible apply keeps_foldl_fst
    | with_reducible apply keeps_mk
    | with_reducible exact id
    | with_reducible exact partsKeep_refl
    | with_reducible exact rasKeep_refl
    | with_reducible exact hbmKeep_refl
    | with_reducible exact pkgKeep_refl
    | with_reducible exact secKeep_refl
    | with_reducible exact namesKeep_refl
    | with_reducible refine keeps_pair (by assumption) ?_
    | dsimp only
    | rw [mk_put]
    | split)

theorem State.endTests_only {ls : List Item} {s0 : State} {s : State}
    (h0 : changesOnly ls s0 s) (hm : incl [.rasLog, .cores, .clusters, .hif, .fns, .ports, .tests, .out] ls = true) : changesOnly ls s0 (State.endTests s) := by
  unfold State.endTests
  try dsimp only
  repeat' (first
    | with_reducible assumption
    | with_reducible intro _
    | with_reducible apply State.endTest_only
    | with_reducible apply only_foldl)

theorem State.endTests_keeps {s0 : State} {s : State}
    (h0 : keeps s0 s) : keeps s0 (State.endTests s) := by
  unfold State.endTests
  try dsimp only
  repeat' (first
    | with_reducible assumption
    | with_reducible intro _
    | with_reducible apply State.endTest_keeps
    | with_reducible apply keeps_foldl)

theorem State.afterKill_only {ls : List Item} {s0 : State} {s : State}
    (h0 : changesOnly ls s0 s) (hm : incl [.pkg, .fw, .rasLog, .cores, .clusters, .hif, .fns, .pJournal, .pSched, .ports, .power, .tests, .out] ls = true) : changesOnly ls s0 (State.afterKill s) := by
  have hs := @mem_of_incl [.pkg, .fw, .rasLog, .cores, .clusters, .hif, .fns, .pJournal, .pSched, .ports, .power, .tests, .out] ls hm
  unfold State.afterKill
  try dsimp only
  repeat' (first
    | with_reducible assumption
    | with_reducible intro _
    | with_reducible apply State.endTest_only
    | with_reducible apply State.dropGroups_only
    | with_reducible apply only_ite
    | with_reducible apply only_foldl
    | with_reducible apply only_foldl_fst
    | exact incl_trans rfl hm
    | with_reducible exact part_refl
    | with_reducible apply part_ite
    | with_reducible apply part_foldl
    | with_reducible apply only_modPart
    | with_reducible apply part_mk
    | with_reducible apply only_mk
    | exact Or.inr (hs (by decide))
    | with_reducible exact Or.inl rfl
    | with_reducible exact parts_refl
    | with_reducible apply parts_map
    | with_reducible apply parts_mapIdx
    | with_reducible apply parts_modify
    | (with_reducible refine Or.inl ?_; and_intros <;> with_reducible rfl)
    | exact Or.inl rfl
    | with_reducible refine only_pair (by assumption) ?_
    | dsimp only
    | rw [mk_put])

theorem State.afterKill_keeps {s0 : State} {s : State}
    (h0 : keeps s0 s) : keeps s0 (State.afterKill s) := by
  unfold State.afterKill
  try dsimp only
  repeat' (first
    | with_reducible assumption
    | with_reducible intro _
    | with_reducible apply State.endTest_keeps
    | with_reducible apply State.dropGroups_keeps
    | with_reducible apply keeps_ite
    | with_reducible apply keeps_foldl
    | with_reducible apply keeps_foldl_fst
    | with_reducible exact pKeeps_refl
    | exact pKeeps_new rfl rfl
    | with_reducible apply pKeeps_ite
    | with_reducible apply pKeeps_foldl
    | with_reducible apply keeps_modPart
    | with_reducible apply pKeeps_mk
    | with_reducible exact memKeeps_refl
    | with_reducible apply keeps_mk
    | with_reducible exact id
    | with_reducible exact partsKeep_refl
    | with_reducible exact rasKeep_refl
    | with_reducible exact hbmKeep_refl
    | with_reducible exact pkgKeep_refl
    | with_reducible exact secKeep_refl
    | with_reducible exact namesKeep_refl
    | with_reducible apply partsKeep_map
    | with_reducible apply partsKeep_mapIdx
    | with_reducible apply partsKeep_modify
    | exact partsKeep_fresh
    | with_reducible refine keeps_pair (by assumption) ?_
    | dsimp only
    | rw [mk_put])

theorem State.logCluster_only {ls : List Item} {s0 : State} {s : State} {cluster event : Nat} {cause : Nat} {nested repair : Bool}
    (h0 : changesOnly ls s0 s) (hm : incl [.rasLog, .fns, .out] ls = true) : changesOnly ls s0 (State.logCluster s cluster event cause nested repair) := by
  unfold State.logCluster
  try dsimp only
  repeat' first | with_reducible assumption | with_reducible intro _ | with_reducible apply State.log_only

theorem State.logCluster_keeps {s0 : State} {s : State} {cluster event : Nat} {cause : Nat} {nested repair : Bool}
    (h0 : keeps s0 s) : keeps s0 (State.logCluster s cluster event cause nested repair) := by
  unfold State.logCluster
  try dsimp only
  repeat' first | with_reducible assumption | with_reducible intro _ | with_reducible apply State.log_keeps

theorem State.finishBypass_only {ls : List Item} {s0 : State} {s : State} {cluster : Nat}
    (h0 : changesOnly ls s0 s) (hm : incl [.rasLog, .cores, .clusters, .hif, .fns, .pConfig, .out] ls = true) : changesOnly ls s0 (State.finishBypass s cluster) := by
  have hs := @mem_of_incl [.rasLog, .cores, .clusters, .hif, .fns, .pConfig, .out] ls hm
  unfold State.finishBypass
  try dsimp only
  repeat' (first
    | with_reducible assumption
    | with_reducible intro _
    | with_reducible apply State.modCluster_only
    | with_reducible apply State.capacity_only
    | with_reducible apply State.logCluster_only
    | with_reducible apply State.coresLose_only
    | exact incl_trans rfl hm
    | with_reducible exact part_refl
    | with_reducible apply only_modPart
    | with_reducible apply part_mk
    | with_reducible apply only_mk
    | exact Or.inr (hs (by decide))
    | with_reducible exact Or.inl rfl
    | with_reducible exact parts_refl
    | with_reducible apply parts_map
    | with_reducible apply parts_mapIdx
    | with_reducible apply parts_modify
    | (with_reducible refine Or.inl ?_; and_intros <;> with_reducible rfl)
    | exact Or.inl rfl
    | dsimp only
    | rw [mk_put])

theorem State.finishBypass_keeps {s0 : State} {s : State} {cluster : Nat}
    (h0 : keeps s0 s) : keeps s0 (State.finishBypass s cluster) := by
  unfold State.finishBypass
  try dsimp only
  repeat' (first
    | with_reducible assumption
    | with_reducible intro _
    | with_reducible apply State.modCluster_keeps
    | with_reducible apply State.capacity_keeps
    | with_reducible apply State.logCluster_keeps
    | with_reducible apply State.coresLose_keeps
    | with_reducible exact pKeeps_refl
    | exact pKeeps_new rfl rfl
    | with_reducible apply keeps_modPart
    | with_reducible apply pKeeps_mk
    | with_reducible exact memKeeps_refl
    | with_reducible apply keeps_mk
    | with_reducible exact id
    | with_reducible exact partsKeep_refl
    | with_reducible exact rasKeep_refl
    | with_reducible exact hbmKeep_refl
    | with_reducible exact pkgKeep_refl
    | with_reducible exact secKeep_refl
    | with_reducible exact namesKeep_refl
    | with_reducible apply partsKeep_map
    | with_reducible apply partsKeep_mapIdx
    | with_reducible apply partsKeep_modify
    | exact partsKeep_fresh
    | dsimp only
    | rw [mk_put])

theorem State.settleBypasses_only {ls : List Item} {s0 : State} {s : State}
    (h0 : changesOnly ls s0 s) (hm : incl [.rasLog, .cores, .clusters, .hif, .fns, .pConfig, .out] ls = true) : changesOnly ls s0 (State.settleBypasses s) := by
  unfold State.settleBypasses
  try dsimp only
  repeat' (first
    | with_reducible assumption
    | with_reducible intro _
    | with_reducible apply State.finishBypass_only
    | with_reducible apply only_foldl)

theorem State.settleBypasses_keeps {s0 : State} {s : State}
    (h0 : keeps s0 s) : keeps s0 (State.settleBypasses s) := by
  unfold State.settleBypasses
  try dsimp only
  repeat' (first
    | with_reducible assumption
    | with_reducible intro _
    | with_reducible apply State.finishBypass_keeps
    | with_reducible apply keeps_foldl)

theorem State.logRestart_only {ls : List Item} {s0 : State} {s : State} {c : RestartCause} {related : Nat} {nested : Bool}
    (h0 : changesOnly ls s0 s) (hm : incl [.rasLog, .fns, .out] ls = true) : changesOnly ls s0 (State.logRestart s c related nested) := by
  unfold State.logRestart
  try dsimp only
  repeat' first | with_reducible assumption | with_reducible intro _ | with_reducible apply State.log_only

theorem State.logRestart_keeps {s0 : State} {s : State} {c : RestartCause} {related : Nat} {nested : Bool}
    (h0 : keeps s0 s) : keeps s0 (State.logRestart s c related nested) := by
  unfold State.logRestart
  try dsimp only
  repeat' first | with_reducible assumption | with_reducible intro _ | with_reducible apply State.log_keeps

theorem State.meshDropped_only {ls : List Item} {s0 : State} {s : State}
    (h0 : changesOnly ls s0 s) (hm : incl [.rasLog, .hif, .fns, .ports, .peers, .barriers, .out] ls = true) : changesOnly ls s0 (State.meshDropped s) := by
  have hs := @mem_of_incl [.rasLog, .hif, .fns, .ports, .peers, .barriers, .out] ls hm
  unfold State.meshDropped
  try dsimp only
  repeat' (first
    | with_reducible assumption
    | with_reducible intro _
    | with_reducible apply State.setPort_only
    | with_reducible apply only_foldl
    | with_reducible apply only_foldl_fst
    | exact incl_trans rfl hm
    | with_reducible apply only_mk
    | exact Or.inr (hs (by decide))
    | with_reducible exact Or.inl rfl
    | with_reducible exact parts_refl
    | (with_reducible refine Or.inl ?_; and_intros <;> with_reducible rfl)
    | exact Or.inl rfl
    | dsimp only
    | rw [mk_put])

theorem State.meshDropped_keeps {s0 : State} {s : State}
    (h0 : keeps s0 s) : keeps s0 (State.meshDropped s) := by
  unfold State.meshDropped
  try dsimp only
  repeat' (first
    | with_reducible assumption
    | exact len_modify
    | exact len_map
    | exact len_mapIdx
    | with_reducible intro _
    | with_reducible apply State.setPort_keeps
    | with_reducible apply keeps_foldl
    | with_reducible apply keeps_foldl_fst
    | with_reducible apply keeps_mk
    | with_reducible exact id
    | with_reducible exact partsKeep_refl
    | with_reducible exact rasKeep_refl
    | with_reducible exact hbmKeep_refl
    | with_reducible exact pkgKeep_refl
    | with_reducible exact secKeep_refl
    | with_reducible exact namesKeep_refl
    | dsimp only
    | rw [mk_put])

theorem State.noteRestart_only {ls : List Item} {s0 : State} {s : State} {cause : RestartCause} {related : Nat}
    (h0 : changesOnly ls s0 s) (hm : incl [.rasLog, .rasCounts, .hif, .fns, .out] ls = true) : changesOnly ls s0 (State.noteRestart s cause related) := by
  have hs := @mem_of_incl [.rasLog, .rasCounts, .hif, .fns, .out] ls hm
  unfold State.noteRestart
  try dsimp only
  repeat' (first
    | with_reducible assumption
    | with_reducible intro _
    | with_reducible apply State.logRestart_only
    | with_reducible apply State.raiseAll_only
    | with_reducible apply State.aerError_only
    | with_reducible apply State.unavailBegin_only
    | with_reducible apply only_ite
    | exact incl_trans rfl hm
    | with_reducible apply only_mk
    | exact Or.inr (hs (by decide))
    | with_reducible exact Or.inl rfl
    | with_reducible exact parts_refl
    | (with_reducible refine Or.inl ?_; and_intros <;> with_reducible rfl)
    | exact Or.inl rfl
    | dsimp only
    | rw [mk_put])

theorem State.noteRestart_keeps {s0 : State} {s : State} {cause : RestartCause} {related : Nat}
    (h0 : keeps s0 s) : keeps s0 (State.noteRestart s cause related) := by
  unfold State.noteRestart
  try dsimp only
  repeat' (first
    | with_reducible assumption
    | with_reducible intro _
    | with_reducible apply State.logRestart_keeps
    | with_reducible apply State.raiseAll_keeps
    | with_reducible apply State.aerError_keeps
    | with_reducible apply State.unavailBegin_keeps
    | with_reducible apply keeps_ite
    | with_reducible apply keeps_mk
    | with_reducible exact id
    | with_reducible exact partsKeep_refl
    | with_reducible exact rasKeep_refl
    | with_reducible exact hbmKeep_refl
    | with_reducible exact pkgKeep_refl
    | with_reducible exact secKeep_refl
    | with_reducible exact namesKeep_refl
    | (refine ⟨?_, ?_, ?_, ?_, ?_, ?_⟩ <;> first | exact id | exact len_modify | exact len_map | exact len_mapIdx | exact len_set)
    | dsimp only
    | rw [mk_put])

theorem State.stopPath_only {ls : List Item} {s0 : State} {s : State}
    (h0 : changesOnly ls s0 s) (hm : incl [.fw, .locks, .pSched, .ctxs, .streams, .ristretto, .semaphores, .channels, .hbmRun, .power, .fresh] ls = true) : changesOnly ls s0 (State.stopPath s) := by
  have hs := @mem_of_incl [.fw, .locks, .pSched, .ctxs, .streams, .ristretto, .semaphores, .channels, .hbmRun, .power, .fresh] ls hm
  unfold State.stopPath
  try dsimp only
  repeat' (first
    | with_reducible assumption
    | with_reducible intro _
    | with_reducible apply State.haltTgs_only
    | exact incl_trans rfl hm
    | with_reducible exact part_refl
    | with_reducible apply only_modPart
    | with_reducible apply part_mk
    | with_reducible apply only_mk
    | exact Or.inr (hs (by decide))
    | with_reducible exact Or.inl rfl
    | with_reducible exact parts_refl
    | with_reducible apply parts_map
    | with_reducible apply parts_mapIdx
    | with_reducible apply parts_modify
    | (with_reducible refine Or.inl ?_; and_intros <;> with_reducible rfl)
    | exact Or.inl rfl
    | with_reducible refine only_pair (by assumption) ?_
    | dsimp only
    | rw [mk_put])

theorem State.stopPath_keeps {s0 : State} {s : State}
    (h0 : keeps s0 s) : keeps s0 (State.stopPath s) := by
  unfold State.stopPath
  try dsimp only
  repeat' (first
    | with_reducible assumption
    | with_reducible intro _
    | with_reducible apply State.haltTgs_keeps
    | with_reducible exact pKeeps_refl
    | exact pKeeps_new rfl rfl
    | with_reducible apply keeps_modPart
    | with_reducible apply pKeeps_mk
    | with_reducible exact memKeeps_refl
    | with_reducible apply keeps_mk
    | with_reducible exact id
    | with_reducible exact partsKeep_refl
    | with_reducible exact rasKeep_refl
    | with_reducible exact hbmKeep_refl
    | with_reducible exact pkgKeep_refl
    | with_reducible exact secKeep_refl
    | with_reducible exact namesKeep_refl
    | with_reducible apply partsKeep_map
    | with_reducible apply partsKeep_mapIdx
    | with_reducible apply partsKeep_modify
    | exact partsKeep_fresh
    | (refine (⟨?_, ?_⟩ : hbmKeep _ _) <;> first | exact id | exact len_modify | exact len_map | exact len_mapIdx | exact len_set)
    | with_reducible refine keeps_pair (by assumption) ?_
    | dsimp only
    | rw [mk_put])

theorem State.startRestart_only {ls : List Item} {s0 : State} {s : State} {cause : RestartCause} {related : Nat}
    (h0 : changesOnly ls s0 s) (hm : incl [.pkg, .fw, .rasLog, .cores, .clusters, .rasCounts, .hif, .fns, .pairs, .cmds, .locks, .pConfig, .pMem, .pKey, .pColls, .pAcct, .pSched, .ctxs, .streams, .ristretto, .semaphores, .channels, .poison, .hbmRun, .slm, .ports, .peers, .barriers, .transit, .power, .tests, .out, .fresh] ls = true) : changesOnly ls s0 (State.startRestart s cause related) := by
  have hs := @mem_of_incl [.pkg, .fw, .rasLog, .cores, .clusters, .rasCounts, .hif, .fns, .pairs, .cmds, .locks, .pConfig, .pMem, .pKey, .pColls, .pAcct, .pSched, .ctxs, .streams, .ristretto, .semaphores, .channels, .poison, .hbmRun, .slm, .ports, .peers, .barriers, .transit, .power, .tests, .out, .fresh] ls hm
  unfold State.startRestart
  try dsimp only
  repeat' (first
    | with_reducible assumption
    | with_reducible intro _
    | with_reducible apply State.settleBypasses_only
    | with_reducible apply State.logRestart_only
    | with_reducible apply State.tryStart_only
    | with_reducible apply State.stopPath_only
    | with_reducible apply State.tdiError_only
    | with_reducible apply State.noteRestart_only
    | with_reducible apply State.endWhere_only
    | with_reducible apply State.endTests_only
    | with_reducible apply State.meshDropped_only
    | with_reducible apply only_ite
    | with_reducible apply only_foldl
    | with_reducible apply only_foldl_fst
    | exact incl_trans rfl hm
    | with_reducible apply only_mk
    | exact Or.inr (hs (by decide))
    | with_reducible exact Or.inl rfl
    | with_reducible exact parts_refl
    | (with_reducible refine Or.inl ?_; and_intros <;> with_reducible rfl)
    | exact Or.inl rfl
    | dsimp only
    | rw [mk_put])

theorem State.startRestart_keeps {s0 : State} {s : State} {cause : RestartCause} {related : Nat}
    (h0 : keeps s0 s) : keeps s0 (State.startRestart s cause related) := by
  unfold State.startRestart
  try dsimp only
  repeat' (first
    | with_reducible assumption
    | with_reducible intro _
    | with_reducible apply State.settleBypasses_keeps
    | with_reducible apply State.logRestart_keeps
    | with_reducible apply State.tryStart_keeps
    | with_reducible apply State.stopPath_keeps
    | with_reducible apply State.tdiError_keeps
    | with_reducible apply State.noteRestart_keeps
    | with_reducible apply State.endWhere_keeps
    | with_reducible apply State.endTests_keeps
    | with_reducible apply State.meshDropped_keeps
    | with_reducible apply keeps_ite
    | with_reducible apply keeps_foldl
    | with_reducible apply keeps_foldl_fst
    | with_reducible apply keeps_mk
    | with_reducible exact id
    | with_reducible exact partsKeep_refl
    | with_reducible exact rasKeep_refl
    | with_reducible exact hbmKeep_refl
    | with_reducible exact pkgKeep_refl
    | with_reducible exact secKeep_refl
    | with_reducible exact namesKeep_refl
    | dsimp only
    | rw [mk_put])

theorem State.logCore_only {ls : List Item} {s0 : State} {s : State} {core event : Nat} {engine : Nat} {spare : Nat} {related : Nat} {nested escalated repair : Bool}
    (h0 : changesOnly ls s0 s) (hm : incl [.rasLog, .fns, .out] ls = true) : changesOnly ls s0 (State.logCore s core event engine spare related nested escalated repair) := by
  unfold State.logCore
  try dsimp only
  repeat' first | with_reducible assumption | with_reducible intro _ | with_reducible apply State.log_only

theorem State.logCore_keeps {s0 : State} {s : State} {core event : Nat} {engine : Nat} {spare : Nat} {related : Nat} {nested escalated repair : Bool}
    (h0 : keeps s0 s) : keeps s0 (State.logCore s core event engine spare related nested escalated repair) := by
  unfold State.logCore
  try dsimp only
  repeat' first | with_reducible assumption | with_reducible intro _ | with_reducible apply State.log_keeps

theorem State.rerunOn_only {ls : List Item} {s0 : State} {s : State} {f : Nat → Bool}
    (h0 : changesOnly ls s0 s) (hm : incl [.cmds, .pAcct, .ctxs, .streams, .ristretto, .semaphores, .ports, .peers, .transit, .out] ls = true) : changesOnly ls s0 (State.rerunOn s f) := by
  have hs := @mem_of_incl [.cmds, .pAcct, .ctxs, .streams, .ristretto, .semaphores, .ports, .peers, .transit, .out] ls hm
  unfold State.rerunOn
  try dsimp only
  repeat' (first
    | with_reducible assumption
    | with_reducible intro _
    | with_reducible apply State.killRerun_only
    | with_reducible apply only_foldl
    | with_reducible apply only_foldl_fst
    | exact incl_trans rfl hm
    | with_reducible apply only_mk
    | exact Or.inr (hs (by decide))
    | with_reducible exact Or.inl rfl
    | with_reducible exact parts_refl
    | (with_reducible refine Or.inl ?_; and_intros <;> with_reducible rfl)
    | exact Or.inl rfl
    | dsimp only
    | rw [mk_put])

theorem State.rerunOn_keeps {s0 : State} {s : State} {f : Nat → Bool}
    (h0 : keeps s0 s) : keeps s0 (State.rerunOn s f) := by
  unfold State.rerunOn
  try dsimp only
  repeat' (first
    | with_reducible assumption
    | with_reducible intro _
    | with_reducible apply State.killRerun_keeps
    | with_reducible apply keeps_foldl
    | with_reducible apply keeps_foldl_fst
    | with_reducible apply keeps_mk
    | with_reducible exact id
    | with_reducible exact partsKeep_refl
    | with_reducible exact rasKeep_refl
    | with_reducible exact hbmKeep_refl
    | with_reducible exact pkgKeep_refl
    | with_reducible exact secKeep_refl
    | with_reducible exact namesKeep_refl
    | dsimp only
    | rw [mk_put])

theorem State.killOn_only {ls : List Item} {s0 : State} {s : State} {f : Nat → Bool}
    (h0 : changesOnly ls s0 s) (hm : incl [.cores, .cmds, .pAcct, .ctxs, .streams, .ristretto, .semaphores, .ports, .peers, .transit, .out] ls = true) : changesOnly ls s0 (State.killOn s f) := by
  have hs := @mem_of_incl [.cores, .cmds, .pAcct, .ctxs, .streams, .ristretto, .semaphores, .ports, .peers, .transit, .out] ls hm
  unfold State.killOn
  try dsimp only
  repeat' (first
    | with_reducible assumption
    | with_reducible intro _
    | with_reducible apply State.rerunOn_only
    | with_reducible apply State.countKills_only
    | with_reducible apply only_ite
    | with_reducible apply only_foldl
    | with_reducible apply only_foldl_fst
    | exact incl_trans rfl hm
    | with_reducible apply only_mk
    | exact Or.inr (hs (by decide))
    | with_reducible exact Or.inl rfl
    | with_reducible exact parts_refl
    | (with_reducible refine Or.inl ?_; and_intros <;> with_reducible rfl)
    | exact Or.inl rfl
    | dsimp only
    | rw [mk_put])

theorem State.killOn_keeps {s0 : State} {s : State} {f : Nat → Bool}
    (h0 : keeps s0 s) : keeps s0 (State.killOn s f) := by
  unfold State.killOn
  try dsimp only
  repeat' (first
    | with_reducible assumption
    | with_reducible intro _
    | with_reducible apply State.rerunOn_keeps
    | with_reducible apply State.countKills_keeps
    | with_reducible apply keeps_ite
    | with_reducible apply keeps_foldl
    | with_reducible apply keeps_foldl_fst
    | with_reducible apply keeps_mk
    | with_reducible exact id
    | with_reducible exact partsKeep_refl
    | with_reducible exact rasKeep_refl
    | with_reducible exact hbmKeep_refl
    | with_reducible exact pkgKeep_refl
    | with_reducible exact secKeep_refl
    | with_reducible exact namesKeep_refl
    | (refine ⟨?_, ?_, ?_, ?_, ?_, ?_⟩ <;> first | exact id | exact len_modify | exact len_map | exact len_mapIdx | exact len_set)
    | dsimp only
    | rw [mk_put])

theorem State.fault_only {ls : List Item} {s0 : State} {s : State} {cid st : Nat} {cause : Bytes}
    (h0 : changesOnly ls s0 s) (hm : incl [.rasLog, .fns, .cmds, .locks, .pMem, .pColls, .pShadows, .pAcct, .ctxs, .streams, .ristretto, .semaphores, .poison, .slm, .ports, .peers, .transit, .out, .fresh] ls = true) : changesOnly ls s0 (State.fault s cid st cause) := by
  have hs := @mem_of_incl [.rasLog, .fns, .cmds, .locks, .pMem, .pColls, .pShadows, .pAcct, .ctxs, .streams, .ristretto, .semaphores, .poison, .slm, .ports, .peers, .transit, .out, .fresh] ls hm
  unfold State.fault
  try dsimp only
  repeat' (first
    | with_reducible assumption
    | with_reducible intro _
    | with_reducible apply State.dropShadow_only
    | with_reducible apply State.tearDown_only
    | with_reducible apply only_ite
    | exact incl_trans rfl hm
    | with_reducible apply only_mk
    | exact Or.inr (hs (by decide))
    | with_reducible exact Or.inl rfl
    | with_reducible exact parts_refl
    | (with_reducible refine Or.inl ?_; and_intros <;> with_reducible rfl)
    | exact Or.inl rfl
    | with_reducible refine only_pair (by assumption) ?_
    | dsimp only
    | rw [mk_put]
    | split)

theorem State.fault_keeps {s0 : State} {s : State} {cid st : Nat} {cause : Bytes}
    (h0 : keeps s0 s) : keeps s0 (State.fault s cid st cause) := by
  unfold State.fault
  try dsimp only
  repeat' (first
    | with_reducible assumption
    | with_reducible intro _
    | with_reducible apply State.dropShadow_keeps
    | with_reducible apply State.tearDown_keeps
    | with_reducible apply keeps_ite
    | with_reducible apply keeps_mk
    | with_reducible exact id
    | with_reducible exact partsKeep_refl
    | with_reducible exact rasKeep_refl
    | with_reducible exact hbmKeep_refl
    | with_reducible exact pkgKeep_refl
    | with_reducible exact secKeep_refl
    | with_reducible exact namesKeep_refl
    | with_reducible refine keeps_pair (by assumption) ?_
    | dsimp only
    | rw [mk_put]
    | split)

theorem State.lastClusterLost_only {ls : List Item} {s0 : State} {s : State} {p : PartNo} {cause : Nat}
    (h0 : changesOnly ls s0 s) (hm : incl [.pkg, .fw, .rasLog, .cores, .clusters, .rasCounts, .hif, .fns, .pairs, .cmds, .locks, .pConfig, .pMem, .pKey, .pColls, .pAcct, .pSched, .ctxs, .streams, .ristretto, .semaphores, .channels, .poison, .hbmRun, .slm, .ports, .peers, .barriers, .transit, .power, .tests, .out, .fresh] ls = true) : changesOnly ls s0 (State.lastClusterLost s p cause) := by
  unfold State.lastClusterLost
  try dsimp only
  repeat' (first
    | with_reducible assumption
    | with_reducible intro _
    | with_reducible apply State.tearDown_only
    | with_reducible apply State.startRestart_only
    | with_reducible apply State.tdiError_only
    | with_reducible apply State.log_only
    | with_reducible apply State.unavailBegin_only
    | with_reducible apply only_ite
    | with_reducible apply only_foldl
    | with_reducible apply only_foldl_fst
    | exact incl_trans rfl hm)

theorem State.lastClusterLost_keeps {s0 : State} {s : State} {p : PartNo} {cause : Nat}
    (h0 : keeps s0 s) : keeps s0 (State.lastClusterLost s p cause) := by
  unfold State.lastClusterLost
  try dsimp only
  repeat' (first
    | with_reducible assumption
    | with_reducible intro _
    | with_reducible apply State.tearDown_keeps
    | with_reducible apply State.startRestart_keeps
    | with_reducible apply State.tdiError_keeps
    | with_reducible apply State.log_keeps
    | with_reducible apply State.unavailBegin_keeps
    | with_reducible apply keeps_ite
    | with_reducible apply keeps_foldl)

theorem State.leaveService_only {ls : List Item} {s0 : State} {s : State} {cluster : Nat}
    (h0 : changesOnly ls s0 s) (hm : incl [.clusters, .rasCounts] ls = true) : changesOnly ls s0 (State.leaveService s cluster) := by
  have hs := @mem_of_incl [.clusters, .rasCounts] ls hm
  unfold State.leaveService
  try dsimp only
  repeat' (first
    | with_reducible assumption
    | with_reducible intro _
    | with_reducible apply State.modCluster_only
    | exact incl_trans rfl hm
    | with_reducible apply only_mk
    | exact Or.inr (hs (by decide))
    | with_reducible exact Or.inl rfl
    | with_reducible exact parts_refl
    | (with_reducible refine Or.inl ?_; and_intros <;> with_reducible rfl)
    | exact Or.inl rfl
    | with_reducible refine only_pair (by assumption) ?_
    | dsimp only
    | rw [mk_put])

theorem State.leaveService_keeps {s0 : State} {s : State} {cluster : Nat}
    (h0 : keeps s0 s) : keeps s0 (State.leaveService s cluster) := by
  unfold State.leaveService
  try dsimp only
  repeat' (first
    | with_reducible assumption
    | with_reducible intro _
    | with_reducible apply State.modCluster_keeps
    | with_reducible apply keeps_mk
    | with_reducible exact id
    | with_reducible exact partsKeep_refl
    | with_reducible exact rasKeep_refl
    | with_reducible exact hbmKeep_refl
    | with_reducible exact pkgKeep_refl
    | with_reducible exact secKeep_refl
    | with_reducible exact namesKeep_refl
    | (refine ⟨?_, ?_, ?_, ?_, ?_, ?_⟩ <;> first | exact id | exact len_modify | exact len_map | exact len_mapIdx | exact len_set)
    | with_reducible refine keeps_pair (by assumption) ?_
    | dsimp only
    | rw [mk_put])

theorem State.coresOut_only {ls : List Item} {s0 : State} {s : State} {cluster : Nat}
    (h0 : changesOnly ls s0 s) (hm : incl [.cores] ls = true) : changesOnly ls s0 (State.coresOut s cluster) := by
  have hs := @mem_of_incl [.cores] ls hm
  unfold State.coresOut
  try dsimp only
  repeat' (first
    | with_reducible assumption
    | with_reducible intro _
    | with_reducible apply only_ite
    | exact incl_trans rfl hm
    | with_reducible apply only_mk
    | exact Or.inr (hs (by decide))
    | with_reducible exact Or.inl rfl
    | with_reducible exact parts_refl
    | (with_reducible refine Or.inl ?_; and_intros <;> with_reducible rfl)
    | exact Or.inl rfl
    | dsimp only
    | rw [mk_put])

theorem State.coresOut_keeps {s0 : State} {s : State} {cluster : Nat}
    (h0 : keeps s0 s) : keeps s0 (State.coresOut s cluster) := by
  unfold State.coresOut
  try dsimp only
  repeat' (first
    | with_reducible assumption
    | with_reducible intro _
    | with_reducible apply keeps_ite
    | with_reducible apply keeps_mk
    | with_reducible exact id
    | with_reducible exact partsKeep_refl
    | with_reducible exact rasKeep_refl
    | with_reducible exact hbmKeep_refl
    | with_reducible exact pkgKeep_refl
    | with_reducible exact secKeep_refl
    | with_reducible exact namesKeep_refl
    | (refine ⟨?_, ?_, ?_, ?_, ?_, ?_⟩ <;> first | exact id | exact len_modify | exact len_map | exact len_mapIdx | exact len_set)
    | dsimp only
    | rw [mk_put])

theorem State.loseScratch_only {ls : List Item} {s0 : State} {s : State} {p : PartNo} {cluster seq : Nat}
    (h0 : changesOnly ls s0 s) (hm : incl [.pkg, .fw, .rasLog, .cores, .clusters, .rasCounts, .hif, .fns, .pairs, .cmds, .locks, .pConfig, .pMem, .pScratch, .pUses, .pKey, .pColls, .pAcct, .pSched, .pHot, .ctxs, .streams, .ristretto, .semaphores, .channels, .poison, .hbmRun, .slm, .ports, .peers, .barriers, .transit, .power, .tests, .out, .fresh] ls = true) : changesOnly ls s0 (State.loseScratch s p cluster seq) := by
  have hs := @mem_of_incl [.pkg, .fw, .rasLog, .cores, .clusters, .rasCounts, .hif, .fns, .pairs, .cmds, .locks, .pConfig, .pMem, .pScratch, .pUses, .pKey, .pColls, .pAcct, .pSched, .pHot, .ctxs, .streams, .ristretto, .semaphores, .channels, .poison, .hbmRun, .slm, .ports, .peers, .barriers, .transit, .power, .tests, .out, .fresh] ls hm
  unfold State.loseScratch
  try dsimp only
  repeat' (first
    | with_reducible assumption
    | with_reducible intro _
    | with_reducible apply State.dropLines_only
    | with_reducible apply State.placeDirectories_only
    | with_reducible apply State.lastClusterLost_only
    | with_reducible apply State.log_only
    | with_reducible apply only_ite
    | exact incl_trans rfl hm
    | with_reducible exact part_refl
    | with_reducible apply part_ite
    | with_reducible apply only_modPart
    | with_reducible apply part_mk
    | with_reducible apply only_mk
    | exact Or.inr (hs (by decide))
    | with_reducible exact Or.inl rfl
    | with_reducible exact parts_refl
    | (with_reducible refine Or.inl ?_; and_intros <;> with_reducible rfl))

theorem State.loseScratch_keeps {s0 : State} {s : State} {p : PartNo} {cluster seq : Nat}
    (h0 : keeps s0 s) : keeps s0 (State.loseScratch s p cluster seq) := by
  unfold State.loseScratch
  try dsimp only
  repeat' (first
    | with_reducible assumption
    | with_reducible intro _
    | with_reducible apply State.dropLines_keeps
    | with_reducible apply State.placeDirectories_keeps
    | with_reducible apply State.lastClusterLost_keeps
    | with_reducible apply State.log_keeps
    | with_reducible apply keeps_ite
    | with_reducible exact pKeeps_refl
    | exact pKeeps_new rfl rfl
    | with_reducible apply pKeeps_ite
    | with_reducible apply keeps_modPart
    | with_reducible apply pKeeps_mk
    | with_reducible exact memKeeps_refl
    | exact memKeeps_init memKeeps_refl
    | exact memKeeps_write memKeeps_refl
    | exact memKeeps_scratch
    | exact memKeeps_empty)

theorem State.bypass_only {ls : List Item} {s0 : State} {s : State} {cluster event : Nat} {cause : Nat}
    (h0 : changesOnly ls s0 s) (hm : incl [.pkg, .fw, .rasLog, .cores, .clusters, .rasCounts, .hif, .fns, .pairs, .cmds, .locks, .pConfig, .pMem, .pScratch, .pUses, .pKey, .pColls, .pAcct, .pSched, .pHot, .ctxs, .streams, .ristretto, .semaphores, .channels, .poison, .hbmRun, .slm, .ports, .peers, .barriers, .transit, .power, .tests, .out, .fresh] ls = true) : changesOnly ls s0 (State.bypass s cluster event cause) := by
  have hs := @mem_of_incl [.pkg, .fw, .rasLog, .cores, .clusters, .rasCounts, .hif, .fns, .pairs, .cmds, .locks, .pConfig, .pMem, .pScratch, .pUses, .pKey, .pColls, .pAcct, .pSched, .pHot, .ctxs, .streams, .ristretto, .semaphores, .channels, .poison, .hbmRun, .slm, .ports, .peers, .barriers, .transit, .power, .tests, .out, .fresh] ls hm
  unfold State.bypass
  try dsimp only
  repeat' (first
    | with_reducible assumption
    | with_reducible intro _
    | with_reducible apply State.settleBypasses_only
    | with_reducible apply State.loseScratch_only
    | with_reducible apply State.leaveService_only
    | with_reducible apply State.coresOut_only
    | with_reducible apply State.logCluster_only
    | with_reducible apply State.killOn_only
    | with_reducible apply only_ite
    | exact incl_trans rfl hm
    | with_reducible apply only_mk
    | exact Or.inr (hs (by decide))
    | with_reducible exact Or.inl rfl
    | with_reducible exact parts_refl
    | (with_reducible refine Or.inl ?_; and_intros <;> with_reducible rfl)
    | exact Or.inl rfl
    | with_reducible refine only_pair (by assumption) ?_
    | dsimp only
    | rw [mk_put]
    | split)

theorem State.bypass_keeps {s0 : State} {s : State} {cluster event : Nat} {cause : Nat}
    (h0 : keeps s0 s) : keeps s0 (State.bypass s cluster event cause) := by
  unfold State.bypass
  try dsimp only
  repeat' (first
    | with_reducible assumption
    | with_reducible intro _
    | with_reducible apply State.settleBypasses_keeps
    | with_reducible apply State.loseScratch_keeps
    | with_reducible apply State.leaveService_keeps
    | with_reducible apply State.coresOut_keeps
    | with_reducible apply State.logCluster_keeps
    | with_reducible apply State.killOn_keeps
    | with_reducible apply keeps_ite
    | with_reducible apply keeps_mk
    | with_reducible exact id
    | with_reducible exact partsKeep_refl
    | with_reducible exact rasKeep_refl
    | with_reducible exact hbmKeep_refl
    | with_reducible exact pkgKeep_refl
    | with_reducible exact secKeep_refl
    | with_reducible exact namesKeep_refl
    | with_reducible refine keeps_pair (by assumption) ?_
    | dsimp only
    | rw [mk_put]
    | split)

theorem State.coreFail_only {ls : List Item} {s0 : State} {s : State} {n event : Nat} {cause : Nat} {engine : Nat} {into : CoreState}
    (h0 : changesOnly ls s0 s) (hm : incl [.pkg, .fw, .rasLog, .cores, .clusters, .rasCounts, .hif, .fns, .pairs, .cmds, .locks, .pConfig, .pMem, .pScratch, .pUses, .pKey, .pColls, .pAcct, .pSched, .pHot, .ctxs, .streams, .ristretto, .semaphores, .channels, .poison, .hbmRun, .slm, .ports, .peers, .barriers, .transit, .power, .tests, .out, .fresh] ls = true) : changesOnly ls s0 (State.coreFail s n event cause engine into) := by
  have hs := @mem_of_incl [.pkg, .fw, .rasLog, .cores, .clusters, .rasCounts, .hif, .fns, .pairs, .cmds, .locks, .pConfig, .pMem, .pScratch, .pUses, .pKey, .pColls, .pAcct, .pSched, .pHot, .ctxs, .streams, .ristretto, .semaphores, .channels, .poison, .hbmRun, .slm, .ports, .peers, .barriers, .transit, .power, .tests, .out, .fresh] ls hm
  unfold State.coreFail
  try dsimp only
  repeat' (first
    | with_reducible assumption
    | with_reducible intro _
    | with_reducible apply State.bypass_only
    | with_reducible apply State.modCluster_only
    | with_reducible apply State.logCore_only
    | with_reducible apply State.modCore_only
    | with_reducible apply State.capacity_only
    | with_reducible apply State.killOn_only
    | with_reducible apply only_ite
    | exact incl_trans rfl hm
    | with_reducible apply only_mk
    | exact Or.inr (hs (by decide))
    | with_reducible exact Or.inl rfl
    | with_reducible exact parts_refl
    | (with_reducible refine Or.inl ?_; and_intros <;> with_reducible rfl)
    | exact Or.inl rfl
    | with_reducible refine only_pair (by assumption) ?_
    | dsimp only
    | rw [mk_put]
    | split)

theorem State.coreFail_keeps {s0 : State} {s : State} {n event : Nat} {cause : Nat} {engine : Nat} {into : CoreState}
    (h0 : keeps s0 s) : keeps s0 (State.coreFail s n event cause engine into) := by
  unfold State.coreFail
  try dsimp only
  repeat' (first
    | with_reducible assumption
    | with_reducible intro _
    | with_reducible apply State.bypass_keeps
    | with_reducible apply State.modCluster_keeps
    | with_reducible apply State.logCore_keeps
    | with_reducible apply State.modCore_keeps
    | with_reducible apply State.capacity_keeps
    | with_reducible apply State.killOn_keeps
    | with_reducible apply keeps_ite
    | with_reducible apply keeps_mk
    | with_reducible exact id
    | with_reducible exact partsKeep_refl
    | with_reducible exact rasKeep_refl
    | with_reducible exact hbmKeep_refl
    | with_reducible exact pkgKeep_refl
    | with_reducible exact secKeep_refl
    | with_reducible exact namesKeep_refl
    | with_reducible refine keeps_pair (by assumption) ?_
    | dsimp only
    | rw [mk_put]
    | split)

theorem State.logHbm_only {ls : List Item} {s0 : State} {s : State} {c event : Nat} {addr : Nat} {lane : Nat} {part : Option PartNo} {status : Nat} {repair : Bool}
    (h0 : changesOnly ls s0 s) (hm : incl [.rasLog, .fns, .out] ls = true) : changesOnly ls s0 (State.logHbm s c event addr lane part status repair) := by
  unfold State.logHbm
  try dsimp only
  repeat' first | with_reducible assumption | with_reducible intro _ | with_reducible apply State.log_only

theorem State.logHbm_keeps {s0 : State} {s : State} {c event : Nat} {addr : Nat} {lane : Nat} {part : Option PartNo} {status : Nat} {repair : Bool}
    (h0 : keeps s0 s) : keeps s0 (State.logHbm s c event addr lane part status repair) := by
  unfold State.logHbm
  try dsimp only
  repeat' first | with_reducible assumption | with_reducible intro _ | with_reducible apply State.log_keeps

theorem State.fenceChannel_only {ls : List Item} {s0 : State} {s : State} {c : Nat}
    (h0 : changesOnly ls s0 s) (hm : incl [.rasLog, .fns, .channels, .out] ls = true) : changesOnly ls s0 (State.fenceChannel s c) := by
  unfold State.fenceChannel
  try dsimp only
  repeat' (first
    | with_reducible assumption
    | with_reducible intro _
    | with_reducible apply State.modChan_only
    | with_reducible apply State.raiseAll_only
    | with_reducible apply State.logHbm_only
    | with_reducible apply only_ite
    | with_reducible apply only_foldl
    | with_reducible apply only_foldl_fst
    | exact incl_trans rfl hm)

theorem State.fenceChannel_keeps {s0 : State} {s : State} {c : Nat}
    (h0 : keeps s0 s) : keeps s0 (State.fenceChannel s c) := by
  unfold State.fenceChannel
  try dsimp only
  repeat' (first
    | with_reducible assumption
    | with_reducible intro _
    | with_reducible apply State.modChan_keeps
    | with_reducible apply State.raiseAll_keeps
    | with_reducible apply State.logHbm_keeps
    | with_reducible apply keeps_ite
    | with_reducible apply keeps_foldl)

end Sys2Proof.Machine
end

