-- ==== Sys2Proof/Laws/Collection.lean ====
section
/-! SUPPORT. What each operation of Machine/Collection.lean may change: its frame, and that it
keeps the invariant and the fuses. -/

namespace Sys2Proof.Machine

open Sys2Proof.Safety Sys2Proof.Laws

theorem State.unpoisoned_only {ls : List Item} {s0 : State} {s : State} {cid : Nat} {p : PartNo} {r : Reads} {next : State} (hnext : changesOnly ls s0 next)
    (h0 : changesOnly ls s0 s) (hm : incl [.rasLog, .fns, .cmds, .locks, .pMem, .pColls, .pAcct, .ctxs, .streams, .ristretto, .semaphores, .poison, .slm, .ports, .peers, .transit, .out, .fresh] ls = true) : changesOnly ls s0 (State.unpoisoned s cid p r next) := by
  have hs := @mem_of_incl [.rasLog, .fns, .cmds, .locks, .pMem, .pColls, .pAcct, .ctxs, .streams, .ristretto, .semaphores, .poison, .slm, .ports, .peers, .transit, .out, .fresh] ls hm
  unfold State.unpoisoned
  try dsimp only
  repeat' (first
    | with_reducible assumption
    | with_reducible intro _
    | with_reducible apply State.touch_only
    | with_reducible apply State.tearDown_only
    | with_reducible apply only_ite
    | exact incl_trans rfl hm
    | with_reducible apply only_mk
    | exact Or.inr (hs (by decide))
    | with_reducible exact Or.inl rfl
    | with_reducible exact parts_refl
    | (with_reducible refine Or.inl ?_; and_intros <;> with_reducible rfl)
    | exact Or.inl rfl
    | with_reducible refine only_pair (by assumption) ?_
    | dsimp only
    | rw [mk_put]
    | split)

theorem State.unpoisoned_keeps {s0 : State} {s : State} {cid : Nat} {p : PartNo} {r : Reads} {next : State} (hnext : keeps s0 next)
    (h0 : keeps s0 s) : keeps s0 (State.unpoisoned s cid p r next) := by
  unfold State.unpoisoned
  try dsimp only
  repeat' (first
    | with_reducible assumption
    | with_reducible intro _
    | with_reducible apply State.touch_keeps
    | with_reducible apply State.tearDown_keeps
    | with_reducible apply keeps_ite
    | with_reducible apply keeps_mk
    | with_reducible exact id
    | with_reducible exact partsKeep_refl
    | with_reducible exact rasKeep_refl
    | with_reducible exact hbmKeep_refl
    | with_reducible exact pkgKeep_refl
    | with_reducible exact secKeep_refl
    | with_reducible exact namesKeep_refl
    | with_reducible refine keeps_pair (by assumption) ?_
    | dsimp only
    | rw [mk_put]
    | split)

theorem State.onColl_only {ls : List Item} {s0 : State} {s : State} {cid op : Nat} {chk : PartNo → Coll → Cmd → Option Err} {f : PartNo → Coll → Cmd → State} (hf : ∀ x y z, changesOnly ls s0 (f x y z))
    (h0 : changesOnly ls s0 s) (hm : incl [.rasLog, .fns, .cmds, .locks, .pMem, .pColls, .pAcct, .ctxs, .streams, .ristretto, .semaphores, .poison, .slm, .ports, .peers, .transit, .out, .fresh] ls = true) : changesOnly ls s0 (State.onColl s cid op chk f) := by
  have hs := @mem_of_incl [.rasLog, .fns, .cmds, .locks, .pMem, .pColls, .pAcct, .ctxs, .streams, .ristretto, .semaphores, .poison, .slm, .ports, .peers, .transit, .out, .fresh] ls hm
  unfold State.onColl
  try dsimp only
  repeat' (first
    | with_reducible assumption
    | with_reducible intro _
    | with_reducible apply hf
    | with_reducible apply State.settled_only
    | with_reducible apply State.tearDown_only
    | with_reducible apply State.onCmd_only
    | exact incl_trans rfl hm
    | with_reducible apply only_mk
    | exact Or.inr (hs (by decide))
    | with_reducible exact Or.inl rfl
    | with_reducible exact parts_refl
    | (with_reducible refine Or.inl ?_; and_intros <;> with_reducible rfl)
    | exact Or.inl rfl
    | with_reducible refine only_pair (by assumption) ?_
    | dsimp only
    | rw [mk_put]
    | split)

theorem State.onColl_keeps {s0 : State} {s : State} {cid op : Nat} {chk : PartNo → Coll → Cmd → Option Err} {f : PartNo → Coll → Cmd → State} (hf : ∀ x y z, keeps s0 (f x y z))
    (h0 : keeps s0 s) : keeps s0 (State.onColl s cid op chk f) := by
  unfold State.onColl
  try dsimp only
  repeat' (first
    | with_reducible assumption
    | with_reducible intro _
    | with_reducible apply hf
    | with_reducible apply State.settled_keeps
    | with_reducible apply State.tearDown_keeps
    | with_reducible apply State.onCmd_keeps
    | with_reducible apply keeps_mk
    | with_reducible exact id
    | with_reducible exact partsKeep_refl
    | with_reducible exact rasKeep_refl
    | with_reducible exact hbmKeep_refl
    | with_reducible exact pkgKeep_refl
    | with_reducible exact secKeep_refl
    | with_reducible exact namesKeep_refl
    | with_reducible refine keeps_pair (by assumption) ?_
    | dsimp only
    | rw [mk_put]
    | split)

theorem State.onPart_only {ls : List Item} {s0 : State} {s : State} {cid op : Nat} {chk : PartNo → Cmd → Option Err} {f : PartNo → Cmd → State} (hf : ∀ x y, changesOnly ls s0 (f x y))
    (h0 : changesOnly ls s0 s) (hm : incl [.rasLog, .fns, .cmds, .locks, .pMem, .pColls, .pAcct, .ctxs, .streams, .ristretto, .semaphores, .poison, .slm, .ports, .peers, .transit, .out, .fresh] ls = true) : changesOnly ls s0 (State.onPart s cid op chk f) := by
  have hs := @mem_of_incl [.rasLog, .fns, .cmds, .locks, .pMem, .pColls, .pAcct, .ctxs, .streams, .ristretto, .semaphores, .poison, .slm, .ports, .peers, .transit, .out, .fresh] ls hm
  unfold State.onPart
  try dsimp only
  repeat' (first
    | with_reducible assumption
    | with_reducible intro _
    | with_reducible apply hf
    | with_reducible apply State.settled_only
    | with_reducible apply State.tearDown_only
    | with_reducible apply State.onCmd_only
    | exact incl_trans rfl hm
    | with_reducible apply only_mk
    | exact Or.inr (hs (by decide))
    | with_reducible exact Or.inl rfl
    | with_reducible exact parts_refl
    | (with_reducible refine Or.inl ?_; and_intros <;> with_reducible rfl)
    | exact Or.inl rfl
    | with_reducible refine only_pair (by assumption) ?_
    | dsimp only
    | rw [mk_put]
    | split)

theorem State.onPart_keeps {s0 : State} {s : State} {cid op : Nat} {chk : PartNo → Cmd → Option Err} {f : PartNo → Cmd → State} (hf : ∀ x y, keeps s0 (f x y))
    (h0 : keeps s0 s) : keeps s0 (State.onPart s cid op chk f) := by
  unfold State.onPart
  try dsimp only
  repeat' (first
    | with_reducible assumption
    | with_reducible intro _
    | with_reducible apply hf
    | with_reducible apply State.settled_keeps
    | with_reducible apply State.tearDown_keeps
    | with_reducible apply State.onCmd_keeps
    | with_reducible apply keeps_mk
    | with_reducible exact id
    | with_reducible exact partsKeep_refl
    | with_reducible exact rasKeep_refl
    | with_reducible exact hbmKeep_refl
    | with_reducible exact pkgKeep_refl
    | with_reducible exact secKeep_refl
    | with_reducible exact namesKeep_refl
    | with_reducible refine keeps_pair (by assumption) ?_
    | dsimp only
    | rw [mk_put]
    | split)

end Sys2Proof.Machine
end

