-- ==== Sys2Proof/Laws/SearchOps.lean ====
section
/-! SUPPORT. What each operation of Machine/SearchOps.lean may change: its frame, and that it
keeps the invariant and the fuses. -/

namespace Sys2Proof.Machine

open Sys2Proof.Safety Sys2Proof.Laws

theorem State.walked_only {ls : List Item} {s0 : State} {s : State} {p : PartNo} {uid : Nat} {st : WS}
    (h0 : changesOnly ls s0 s) (hm : incl [.pColls] ls = true) : changesOnly ls s0 (State.walked s p uid st) := by
  unfold State.walked
  try dsimp only
  repeat' first | with_reducible assumption | with_reducible intro _ | with_reducible apply State.modCollU_only

theorem State.walked_keeps {s0 : State} {s : State} {p : PartNo} {uid : Nat} {st : WS}
    (h0 : keeps s0 s) : keeps s0 (State.walked s p uid st) := by
  unfold State.walked
  try dsimp only
  repeat' first | with_reducible assumption | with_reducible intro _ | with_reducible apply State.modCollU_keeps

theorem State.setWalk_only {ls : List Item} {s0 : State} {s : State} {cid : Nat} {w : Walk}
    (h0 : changesOnly ls s0 s) (hm : incl [.cmds] ls = true) : changesOnly ls s0 (State.setWalk s cid w) := by
  unfold State.setWalk
  try dsimp only
  repeat' first | with_reducible assumption | with_reducible intro _ | with_reducible apply State.modCmd_only

theorem State.setWalk_keeps {s0 : State} {s : State} {cid : Nat} {w : Walk}
    (h0 : keeps s0 s) : keeps s0 (State.setWalk s cid w) := by
  unfold State.setWalk
  try dsimp only
  repeat' first | with_reducible assumption | with_reducible intro _ | with_reducible apply State.modCmd_keeps

theorem State.takeSlot_only {ls : List Item} {s0 : State} {s : State} {cid core : Nat}
    (h0 : changesOnly ls s0 s) (hm : incl [.ctxs] ls = true) : changesOnly ls s0 (State.takeSlot s cid core) := by
  have hs := @mem_of_incl [.ctxs] ls hm
  unfold State.takeSlot
  try dsimp only
  repeat' (first
    | with_reducible assumption
    | with_reducible intro _
    | exact incl_trans rfl hm
    | with_reducible apply only_mk
    | exact Or.inr (hs (by decide))
    | with_reducible exact Or.inl rfl
    | with_reducible exact parts_refl
    | (with_reducible refine Or.inl ?_; and_intros <;> with_reducible rfl)
    | exact Or.inl rfl
    | dsimp only
    | rw [mk_put])

theorem State.takeSlot_keeps {s0 : State} {s : State} {cid core : Nat}
    (h0 : keeps s0 s) : keeps s0 (State.takeSlot s cid core) := by
  unfold State.takeSlot
  try dsimp only
  repeat' (first
    | with_reducible assumption
    | with_reducible intro _
    | with_reducible apply keeps_mk
    | with_reducible exact id
    | with_reducible exact partsKeep_refl
    | with_reducible exact rasKeep_refl
    | with_reducible exact hbmKeep_refl
    | with_reducible exact pkgKeep_refl
    | with_reducible exact secKeep_refl
    | with_reducible exact namesKeep_refl
    | dsimp only
    | rw [mk_put])

theorem State.takeHelpers_only {ls : List Item} {s0 : State} {s : State} {p : PartNo} {cid : Nat}
    (h0 : changesOnly ls s0 s) (hm : incl [.cmds, .ctxs] ls = true) : changesOnly ls s0 (State.takeHelpers s p cid) := by
  have hs := @mem_of_incl [.cmds, .ctxs] ls hm
  unfold State.takeHelpers
  try dsimp only
  repeat' (first
    | with_reducible assumption
    | with_reducible intro _
    | with_reducible apply State.takeSlot_only
    | with_reducible apply State.modCmd_only
    | with_reducible apply State.setWalk_only
    | with_reducible apply only_ite
    | with_reducible apply only_foldl
    | with_reducible apply only_foldl_fst
    | exact incl_trans rfl hm
    | with_reducible exact part_refl
    | with_reducible apply part_ite
    | with_reducible apply part_foldl
    | with_reducible apply only_modPart
    | with_reducible apply part_mk
    | with_reducible apply only_mk
    | exact Or.inr (hs (by decide))
    | with_reducible exact Or.inl rfl
    | with_reducible exact parts_refl
    | with_reducible apply parts_map
    | with_reducible apply parts_mapIdx
    | with_reducible apply parts_modify
    | (with_reducible refine Or.inl ?_; and_intros <;> with_reducible rfl)
    | exact Or.inl rfl
    | with_reducible refine only_pair (by assumption) ?_
    | dsimp only
    | rw [mk_put]
    | split)

theorem State.takeHelpers_keeps {s0 : State} {s : State} {p : PartNo} {cid : Nat}
    (h0 : keeps s0 s) : keeps s0 (State.takeHelpers s p cid) := by
  unfold State.takeHelpers
  try dsimp only
  repeat' (first
    | with_reducible assumption
    | with_reducible intro _
    | with_reducible apply State.takeSlot_keeps
    | with_reducible apply State.modCmd_keeps
    | with_reducible apply State.setWalk_keeps
    | with_reducible apply keeps_ite
    | with_reducible apply keeps_foldl
    | with_reducible apply keeps_foldl_fst
    | with_reducible exact pKeeps_refl
    | exact pKeeps_new rfl rfl
    | with_reducible apply pKeeps_ite
    | with_reducible apply pKeeps_foldl
    | with_reducible apply keeps_modPart
    | with_reducible apply pKeeps_mk
    | with_reducible exact memKeeps_refl
    | with_reducible apply keeps_mk
    | with_reducible exact id
    | with_reducible exact partsKeep_refl
    | with_reducible exact rasKeep_refl
    | with_reducible exact hbmKeep_refl
    | with_reducible exact pkgKeep_refl
    | with_reducible exact secKeep_refl
    | with_reducible exact namesKeep_refl
    | with_reducible apply partsKeep_map
    | with_reducible apply partsKeep_mapIdx
    | with_reducible apply partsKeep_modify
    | exact partsKeep_fresh
    | exact rfl
    | with_reducible refine keeps_pair (by assumption) ?_
    | dsimp only
    | rw [mk_put]
    | split)

theorem State.startQuery_only {ls : List Item} {s0 : State} {s : State} {p : PartNo} {k : Coll} {c : Cmd}
    (h0 : changesOnly ls s0 s) (hm : incl [.rasLog, .fns, .cmds, .locks, .pMem, .pColls, .pAcct, .ctxs, .streams, .ristretto, .semaphores, .poison, .slm, .ports, .peers, .transit, .out, .fresh] ls = true) : changesOnly ls s0 (State.startQuery s p k c) := by
  unfold State.startQuery
  try dsimp only
  repeat' (first
    | with_reducible assumption
    | with_reducible intro _
    | with_reducible apply State.bump_only
    | with_reducible apply State.unpoisoned_only
    | with_reducible apply State.tearDown_only
    | with_reducible apply State.walked_only
    | with_reducible apply State.setWalk_only
    | with_reducible apply only_ite
    | exact incl_trans rfl hm)

theorem State.startQuery_keeps {s0 : State} {s : State} {p : PartNo} {k : Coll} {c : Cmd}
    (h0 : keeps s0 s) : keeps s0 (State.startQuery s p k c) := by
  unfold State.startQuery
  try dsimp only
  repeat' (first
    | with_reducible assumption
    | with_reducible intro _
    | with_reducible apply State.bump_keeps
    | with_reducible apply State.unpoisoned_keeps
    | with_reducible apply State.tearDown_keeps
    | with_reducible apply State.walked_keeps
    | with_reducible apply State.setWalk_keeps
    | with_reducible apply keeps_ite)

theorem State.sendList_only {ls : List Item} {s0 : State} {s : State} {d domain tag query payB : Nat} {last : Bool} {l : List Cand} {notes work : Nat} {part : Option PartNo}
    (h0 : changesOnly ls s0 s) (hm : incl [.pAcct, .ports, .peers, .transit, .out] ls = true) : changesOnly ls s0 (State.sendList s d domain tag query payB last l notes work part) := by
  unfold State.sendList
  try dsimp only
  repeat' (first
    | with_reducible assumption
    | with_reducible intro _
    | with_reducible apply State.sendRouted_only
    | with_reducible apply only_ite
    | with_reducible apply only_foldl)

theorem State.sendList_keeps {s0 : State} {s : State} {d domain tag query payB : Nat} {last : Bool} {l : List Cand} {notes work : Nat} {part : Option PartNo}
    (h0 : keeps s0 s) : keeps s0 (State.sendList s d domain tag query payB last l notes work part) := by
  unfold State.sendList
  try dsimp only
  repeat' (first
    | with_reducible assumption
    | with_reducible intro _
    | with_reducible apply State.sendRouted_keeps
    | with_reducible apply keeps_ite
    | with_reducible apply keeps_foldl)

theorem State.deliver_only {ls : List Item} {s0 : State} {s : State} {k : Coll} {c : Cmd} {w : Walk} {lists : List (List Cand)} {notes work : Nat}
    (h0 : changesOnly ls s0 s) (hm : incl [.cmds, .locks, .pAcct, .ctxs, .streams, .ristretto, .semaphores, .out] ls = true) : changesOnly ls s0 (State.deliver s k c w lists notes work) := by
  unfold State.deliver
  try dsimp only
  repeat' (first
    | with_reducible assumption
    | with_reducible intro _
    | with_reducible apply State.output_only
    | with_reducible apply State.finish_only
    | with_reducible apply State.modCmd_only
    | with_reducible apply only_ite
    | with_reducible apply only_foldl
    | with_reducible apply only_foldl_fst
    | exact incl_trans rfl hm)

theorem State.deliver_keeps {s0 : State} {s : State} {k : Coll} {c : Cmd} {w : Walk} {lists : List (List Cand)} {notes work : Nat}
    (h0 : keeps s0 s) : keeps s0 (State.deliver s k c w lists notes work) := by
  unfold State.deliver
  try dsimp only
  repeat' (first
    | with_reducible assumption
    | with_reducible intro _
    | with_reducible apply State.output_keeps
    | with_reducible apply State.finish_keeps
    | with_reducible apply State.modCmd_keeps)

theorem State.meshDone_only {ls : List Item} {s0 : State} {s : State} {p : PartNo} {k : Coll} {c : Cmd} {w : Walk} {m : MeshWait}
    (h0 : changesOnly ls s0 s) (hm : incl [.rasLog, .fns, .cmds, .locks, .pMem, .pColls, .pAcct, .ctxs, .streams, .ristretto, .semaphores, .poison, .slm, .ports, .peers, .transit, .out, .fresh] ls = true) : changesOnly ls s0 (State.meshDone s p k c w m) := by
  unfold State.meshDone
  try dsimp only
  repeat' (first
    | with_reducible assumption
    | with_reducible intro _
    | with_reducible apply State.unpoisoned_only
    | with_reducible apply State.tearDown_only
    | with_reducible apply State.modCmd_only
    | with_reducible apply State.setWalk_only
    | with_reducible apply State.sendRouted_only
    | with_reducible apply State.deliver_only
    | with_reducible apply only_ite
    | with_reducible apply only_foldl
    | with_reducible apply only_foldl_fst
    | exact incl_trans rfl hm)

theorem State.meshDone_keeps {s0 : State} {s : State} {p : PartNo} {k : Coll} {c : Cmd} {w : Walk} {m : MeshWait}
    (h0 : keeps s0 s) : keeps s0 (State.meshDone s p k c w m) := by
  unfold State.meshDone
  try dsimp only
  repeat' (first
    | with_reducible assumption
    | exact len_modify
    | exact len_map
    | exact len_mapIdx
    | with_reducible intro _
    | with_reducible apply State.unpoisoned_keeps
    | with_reducible apply State.tearDown_keeps
    | with_reducible apply State.modCmd_keeps
    | with_reducible apply State.setWalk_keeps
    | with_reducible apply State.sendRouted_keeps
    | with_reducible apply State.deliver_keeps
    | with_reducible apply keeps_ite
    | with_reducible apply keeps_foldl)

theorem State.joinQuery_only {ls : List Item} {s0 : State} {s : State} {p : PartNo} {k : Coll} {c : Cmd} {w : Walk}
    (h0 : changesOnly ls s0 s) (hm : incl [.rasLog, .fns, .cmds, .locks, .pMem, .pUses, .pColls, .pAcct, .ctxs, .streams, .ristretto, .semaphores, .poison, .slm, .ports, .peers, .transit, .out, .fresh] ls = true) : changesOnly ls s0 (State.joinQuery s p k c w) := by
  have hs := @mem_of_incl [.rasLog, .fns, .cmds, .locks, .pMem, .pUses, .pColls, .pAcct, .ctxs, .streams, .ristretto, .semaphores, .poison, .slm, .ports, .peers, .transit, .out, .fresh] ls hm
  unfold State.joinQuery
  try dsimp only
  repeat' (first
    | with_reducible assumption
    | with_reducible intro _
    | with_reducible apply State.bump_only
    | with_reducible apply State.unpoisoned_only
    | with_reducible apply State.tearDown_only
    | with_reducible apply State.finish_only
    | with_reducible apply State.placeSpill_only
    | with_reducible apply State.modCmd_only
    | with_reducible apply State.meshDone_only
    | with_reducible apply State.setWalk_only
    | with_reducible apply State.deliver_only
    | with_reducible apply only_ite
    | with_reducible apply only_foldl
    | with_reducible apply only_foldl_fst
    | exact incl_trans rfl hm
    | with_reducible apply only_mk
    | exact Or.inr (hs (by decide))
    | with_reducible exact Or.inl rfl
    | with_reducible exact parts_refl
    | (with_reducible refine Or.inl ?_; and_intros <;> with_reducible rfl)
    | exact Or.inl rfl
    | with_reducible refine only_pair (by assumption) ?_
    | dsimp only
    | rw [mk_put]
    | split)

theorem State.joinQuery_keeps {s0 : State} {s : State} {p : PartNo} {k : Coll} {c : Cmd} {w : Walk}
    (h0 : keeps s0 s) : keeps s0 (State.joinQuery s p k c w) := by
  unfold State.joinQuery
  try dsimp only
  repeat' (first
    | with_reducible assumption
    | with_reducible intro _
    | with_reducible apply State.bump_keeps
    | with_reducible apply State.unpoisoned_keeps
    | with_reducible apply State.tearDown_keeps
    | with_reducible apply State.finish_keeps
    | with_reducible apply State.placeSpill_keeps
    | with_reducible apply State.modCmd_keeps
    | with_reducible apply State.meshDone_keeps
    | with_reducible apply State.setWalk_keeps
    | with_reducible apply State.deliver_keeps
    | with_reducible apply keeps_ite
    | with_reducible apply keeps_foldl
    | with_reducible apply keeps_foldl_fst
    | with_reducible apply keeps_mk
    | with_reducible exact id
    | with_reducible exact partsKeep_refl
    | with_reducible exact rasKeep_refl
    | with_reducible exact hbmKeep_refl
    | with_reducible exact pkgKeep_refl
    | with_reducible exact secKeep_refl
    | with_reducible exact namesKeep_refl
    | exact rfl
    | with_reducible refine keeps_pair (by assumption) ?_
    | dsimp only
    | rw [mk_put]
    | split)

theorem State.fanOut_only {ls : List Item} {s0 : State} {s : State} {p : PartNo} {k : Coll} {c : Cmd}
    (h0 : changesOnly ls s0 s) (hm : incl [.rasLog, .fns, .cmds, .locks, .pMem, .pColls, .pAcct, .ctxs, .streams, .ristretto, .semaphores, .poison, .slm, .meshCount, .ports, .peers, .transit, .out, .fresh] ls = true) : changesOnly ls s0 (State.fanOut s p k c) := by
  unfold State.fanOut
  try dsimp only
  repeat' (first
    | with_reducible assumption
    | with_reducible intro _
    | with_reducible apply State.tearDown_only
    | with_reducible apply State.newTag_only
    | with_reducible apply State.modCmd_only
    | with_reducible apply State.sendRouted_only
    | with_reducible apply only_ite
    | with_reducible apply only_foldl
    | with_reducible apply only_foldl_fst
    | exact incl_trans rfl hm)

theorem State.fanOut_keeps {s0 : State} {s : State} {p : PartNo} {k : Coll} {c : Cmd}
    (h0 : keeps s0 s) : keeps s0 (State.fanOut s p k c) := by
  unfold State.fanOut
  try dsimp only
  repeat' (first
    | with_reducible assumption
    | exact len_modify
    | exact len_map
    | exact len_mapIdx
    | with_reducible intro _
    | with_reducible apply State.tearDown_keeps
    | with_reducible apply State.newTag_keeps
    | with_reducible apply State.modCmd_keeps
    | with_reducible apply State.sendRouted_keeps
    | with_reducible apply keeps_ite
    | with_reducible apply keeps_foldl)

end Sys2Proof.Machine
end

