-- ==== Sys2Proof/Laws/Admission.lean ====
section
/-! SUPPORT. What each operation of Machine/Admission.lean may change: its frame, and that it
keeps the invariant and the fuses. -/

namespace Sys2Proof.Machine

open Sys2Proof.Safety Sys2Proof.Laws

theorem State.prefetch_only {ls : List Item} {s0 : State} {s : State} {cid : Nat}
    (h0 : changesOnly ls s0 s) (hm : incl [.slm] ls = true) : changesOnly ls s0 (State.prefetch s cid) := by
  have hs := @mem_of_incl [.slm] ls hm
  unfold State.prefetch
  try dsimp only
  repeat' (first
    | with_reducible assumption
    | with_reducible intro _
    | with_reducible apply State.touch_only
    | with_reducible apply only_ite
    | with_reducible apply only_foldl
    | with_reducible apply only_foldl_fst
    | exact incl_trans rfl hm
    | with_reducible apply only_mk
    | exact Or.inr (hs (by decide))
    | with_reducible exact Or.inl rfl
    | with_reducible exact parts_refl
    | (with_reducible refine Or.inl ?_; and_intros <;> with_reducible rfl)
    | exact Or.inl rfl
    | with_reducible refine only_pair (by assumption) ?_
    | dsimp only
    | rw [mk_put]
    | split)

theorem State.prefetch_keeps {s0 : State} {s : State} {cid : Nat}
    (h0 : keeps s0 s) : keeps s0 (State.prefetch s cid) := by
  unfold State.prefetch
  try dsimp only
  repeat' (first
    | with_reducible assumption
    | with_reducible intro _
    | with_reducible apply State.touch_keeps
    | with_reducible apply keeps_ite
    | with_reducible apply keeps_foldl
    | with_reducible apply keeps_foldl_fst
    | with_reducible apply keeps_mk
    | with_reducible exact id
    | with_reducible exact partsKeep_refl
    | with_reducible exact rasKeep_refl
    | with_reducible exact hbmKeep_refl
    | with_reducible exact pkgKeep_refl
    | with_reducible exact secKeep_refl
    | with_reducible exact namesKeep_refl
    | with_reducible refine keeps_pair (by assumption) ?_
    | dsimp only
    | rw [mk_put]
    | split)

theorem State.promote_only {ls : List Item} {s0 : State} {s : State} {p : PartNo}
    (h0 : changesOnly ls s0 s) (hm : incl [.cmds] ls = true) : changesOnly ls s0 (State.promote s p) := by
  have hs := @mem_of_incl [.cmds] ls hm
  unfold State.promote
  try dsimp only
  repeat' (first
    | with_reducible assumption
    | with_reducible intro _
    | with_reducible apply only_ite
    | exact incl_trans rfl hm
    | with_reducible apply only_mk
    | exact Or.inr (hs (by decide))
    | with_reducible exact Or.inl rfl
    | with_reducible exact parts_refl
    | (with_reducible refine Or.inl ?_; and_intros <;> with_reducible rfl)
    | exact Or.inl rfl
    | dsimp only
    | rw [mk_put])

theorem State.promote_keeps {s0 : State} {s : State} {p : PartNo}
    (h0 : keeps s0 s) : keeps s0 (State.promote s p) := by
  unfold State.promote
  try dsimp only
  repeat' (first
    | with_reducible assumption
    | with_reducible intro _
    | with_reducible apply keeps_ite
    | with_reducible apply keeps_mk
    | with_reducible exact id
    | with_reducible exact partsKeep_refl
    | with_reducible exact rasKeep_refl
    | with_reducible exact hbmKeep_refl
    | with_reducible exact pkgKeep_refl
    | with_reducible exact secKeep_refl
    | with_reducible exact namesKeep_refl
    | with_reducible apply namesKeep_map
    | with_reducible exact namesKeep_filter
    | with_reducible exact namesKeep_nil
    | (intro _; split <;> rfl)
    | dsimp only
    | rw [mk_put]
    | split)

theorem State.freeLeaving_only {ls : List Item} {s0 : State} {s : State} {p : PartNo}
    (h0 : changesOnly ls s0 s) (hm : incl [.clusters, .ctxs, .incarnations] ls = true) : changesOnly ls s0 (State.freeLeaving s p) := by
  have hs := @mem_of_incl [.clusters, .ctxs, .incarnations] ls hm
  unfold State.freeLeaving
  try dsimp only
  repeat' (first
    | with_reducible assumption
    | with_reducible intro _
    | with_reducible apply State.modCluster_only
    | with_reducible apply only_foldl
    | with_reducible apply only_foldl_fst
    | exact incl_trans rfl hm
    | with_reducible apply only_mk
    | exact Or.inr (hs (by decide))
    | with_reducible exact Or.inl rfl
    | with_reducible exact parts_refl
    | (with_reducible refine Or.inl ?_; and_intros <;> with_reducible rfl)
    | exact Or.inl rfl
    | dsimp only
    | rw [mk_put])

theorem State.freeLeaving_keeps {s0 : State} {s : State} {p : PartNo}
    (h0 : keeps s0 s) : keeps s0 (State.freeLeaving s p) := by
  unfold State.freeLeaving
  try dsimp only
  repeat' (first
    | with_reducible assumption
    | with_reducible intro _
    | with_reducible apply State.modCluster_keeps
    | with_reducible apply keeps_foldl
    | with_reducible apply keeps_foldl_fst
    | with_reducible apply keeps_mk
    | with_reducible exact id
    | with_reducible exact partsKeep_refl
    | with_reducible exact rasKeep_refl
    | with_reducible exact hbmKeep_refl
    | with_reducible exact pkgKeep_refl
    | with_reducible exact secKeep_refl
    | with_reducible exact namesKeep_refl
    | dsimp only
    | rw [mk_put])

theorem State.addInput_only {ls : List Item} {s0 : State} {s : State} {c : Cmd} {core slot : Nat} {e : Nat × Nat} {off : Nat}
    (h0 : changesOnly ls s0 s) (hm : incl [.streams, .ristretto] ls = true) : changesOnly ls s0 (State.addInput s c core slot e off) := by
  have hs := @mem_of_incl [.streams, .ristretto] ls hm
  unfold State.addInput
  try dsimp only
  repeat' (first
    | with_reducible assumption
    | with_reducible intro _
    | with_reducible apply only_ite
    | exact incl_trans rfl hm
    | with_reducible apply only_mk
    | exact Or.inr (hs (by decide))
    | with_reducible exact Or.inl rfl
    | with_reducible exact parts_refl
    | (with_reducible refine Or.inl ?_; and_intros <;> with_reducible rfl)
    | exact Or.inl rfl
    | with_reducible refine only_pair (by assumption) ?_
    | dsimp only
    | rw [mk_put]
    | split)

theorem State.addInput_keeps {s0 : State} {s : State} {c : Cmd} {core slot : Nat} {e : Nat × Nat} {off : Nat}
    (h0 : keeps s0 s) : keeps s0 (State.addInput s c core slot e off) := by
  unfold State.addInput
  try dsimp only
  repeat' (first
    | with_reducible assumption
    | with_reducible intro _
    | with_reducible apply keeps_ite
    | with_reducible apply keeps_mk
    | with_reducible exact id
    | with_reducible exact partsKeep_refl
    | with_reducible exact rasKeep_refl
    | with_reducible exact hbmKeep_refl
    | with_reducible exact pkgKeep_refl
    | with_reducible exact secKeep_refl
    | with_reducible exact namesKeep_refl
    | with_reducible refine keeps_pair (by assumption) ?_
    | dsimp only
    | rw [mk_put]
    | split)

theorem State.admitOn_only {ls : List Item} {s0 : State} {s : State} {p : PartNo} {c : Cmd} {home : Nat} {others : List Nat} {spill : Nat}
    (h0 : changesOnly ls s0 s) (hm : incl [.time, .cmds, .nextCid, .pColls, .ctxs, .streams, .ristretto] ls = true) : changesOnly ls s0 (State.admitOn s p c home others spill) := by
  have hs := @mem_of_incl [.time, .cmds, .nextCid, .pColls, .ctxs, .streams, .ristretto] ls hm
  unfold State.admitOn
  try dsimp only
  repeat' (first
    | with_reducible assumption
    | with_reducible intro _
    | with_reducible apply State.addInput_only
    | with_reducible apply State.issued_only
    | with_reducible apply State.takeSlot_only
    | with_reducible apply State.modCmd_only
    | with_reducible apply State.modCollU_only
    | with_reducible apply only_getD
    | with_reducible apply only_ite
    | with_reducible apply only_foldl
    | with_reducible apply only_foldl_fst
    | exact incl_trans rfl hm
    | with_reducible apply only_mk
    | exact Or.inr (hs (by decide))
    | with_reducible exact Or.inl rfl
    | with_reducible exact parts_refl
    | (with_reducible refine Or.inl ?_; and_intros <;> with_reducible rfl)
    | exact Or.inl rfl
    | with_reducible refine only_pair (by assumption) ?_
    | dsimp only
    | rw [mk_put])

theorem State.admitOn_keeps {s0 : State} {s : State} {p : PartNo} {c : Cmd} {home : Nat} {others : List Nat} {spill : Nat}
    (h0 : keeps s0 s) : keeps s0 (State.admitOn s p c home others spill) := by
  unfold State.admitOn
  try dsimp only
  repeat' (first
    | with_reducible assumption
    | with_reducible intro _
    | with_reducible apply State.addInput_keeps
    | with_reducible apply State.issued_keeps
    | with_reducible apply State.takeSlot_keeps
    | with_reducible apply State.modCmd_keeps
    | with_reducible apply State.modCollU_keeps
    | with_reducible apply keeps_getD
    | with_reducible apply keeps_ite
    | with_reducible apply keeps_foldl
    | with_reducible apply keeps_foldl_fst
    | with_reducible apply keeps_mk
    | with_reducible exact id
    | with_reducible exact partsKeep_refl
    | with_reducible exact rasKeep_refl
    | with_reducible exact hbmKeep_refl
    | with_reducible exact pkgKeep_refl
    | with_reducible exact secKeep_refl
    | with_reducible exact namesKeep_refl
    | exact rfl
    | with_reducible refine keeps_pair (by assumption) ?_
    | dsimp only
    | rw [mk_put])

theorem State.admitHead_only {ls : List Item} {s0 s t : State} {p : PartNo} (h0 : changesOnly ls s0 s)
    (hm : incl [.time, .rasLog, .fns, .cmds, .nextCid, .locks, .pMem, .pColls, .pAcct, .ctxs, .streams, .ristretto, .semaphores, .poison, .slm, .ports, .peers, .transit, .out, .fresh] ls = true) (h : s.admitHead p = some t) : changesOnly ls s0 t := by
  unfold State.admitHead at h
  dsimp only at h
  repeat' split at h
  all_goals first
    | (cases h; exact State.admitOn_only h0 (incl_trans rfl hm))
    | (cases h; exact State.tearDown_only h0 (incl_trans rfl hm))
    | cases h

theorem State.admitHead_keeps {s0 s t : State} {p : PartNo} (h0 : keeps s0 s)
    (h : s.admitHead p = some t) : keeps s0 t := by
  unfold State.admitHead at h
  dsimp only at h
  repeat' split at h
  all_goals first
    | (cases h; exact State.admitOn_keeps h0)
    | (cases h; exact State.tearDown_keeps h0)
    | cases h

theorem State.admitAll_only {ls : List Item} {s0 : State} {p : PartNo} {n : Nat} {s : State} (h0 : changesOnly ls s0 s)
    (hm : incl [.time, .rasLog, .fns, .cmds, .nextCid, .locks, .pMem, .pColls, .pAcct, .ctxs, .streams, .ristretto, .semaphores, .poison, .slm, .ports, .peers, .transit, .out, .fresh] ls = true) : changesOnly ls s0 (State.admitAll p n s) := by
  induction n generalizing s with
  | zero => exact h0
  | succ n ih =>
    unfold State.admitAll
    split
    · exact ih (State.admitHead_only h0 (incl_trans rfl hm) (by assumption))
    · exact h0

theorem State.admitAll_keeps {s0 : State} {p : PartNo} {n : Nat} {s : State} (h0 : keeps s0 s)
    : keeps s0 (State.admitAll p n s) := by
  induction n generalizing s with
  | zero => exact h0
  | succ n ih =>
    unfold State.admitAll
    split
    · exact ih (State.admitHead_keeps h0 (by assumption))
    · exact h0

theorem State.noteHead_only {ls : List Item} {s0 : State} {s : State} {p : PartNo}
    (h0 : changesOnly ls s0 s) (hm : incl [.pSched] ls = true) : changesOnly ls s0 (State.noteHead s p) := by
  have hs := @mem_of_incl [.pSched] ls hm
  unfold State.noteHead
  try dsimp only
  repeat' (first
    | with_reducible assumption
    | with_reducible intro _
    | with_reducible apply only_ite
    | exact incl_trans rfl hm
    | with_reducible exact part_refl
    | with_reducible apply part_ite
    | with_reducible apply only_modPart
    | with_reducible apply part_mk
    | with_reducible apply only_mk
    | exact Or.inr (hs (by decide))
    | with_reducible exact Or.inl rfl
    | with_reducible exact parts_refl
    | (with_reducible refine Or.inl ?_; and_intros <;> with_reducible rfl)
    | exact Or.inl rfl
    | with_reducible refine only_pair (by assumption) ?_
    | dsimp only
    | rw [mk_put]
    | split)

theorem State.noteHead_keeps {s0 : State} {s : State} {p : PartNo}
    (h0 : keeps s0 s) : keeps s0 (State.noteHead s p) := by
  unfold State.noteHead
  try dsimp only
  repeat' (first
    | with_reducible assumption
    | with_reducible intro _
    | with_reducible apply keeps_ite
    | with_reducible exact pKeeps_refl
    | exact pKeeps_new rfl rfl
    | with_reducible apply pKeeps_ite
    | with_reducible apply keeps_modPart
    | with_reducible apply pKeeps_mk
    | with_reducible exact memKeeps_refl
    | with_reducible apply keeps_mk
    | with_reducible exact id
    | with_reducible exact partsKeep_refl
    | with_reducible exact rasKeep_refl
    | with_reducible exact hbmKeep_refl
    | with_reducible exact pkgKeep_refl
    | with_reducible exact secKeep_refl
    | with_reducible exact namesKeep_refl
    | with_reducible refine keeps_pair (by assumption) ?_
    | dsimp only
    | rw [mk_put]
    | split)

end Sys2Proof.Machine
end

