-- ==== Sys2Proof/Laws/JournalOps.lean ====
section
/-! SUPPORT. What each operation of Machine/JournalOps.lean may change: its frame, and that it
keeps the invariant and the fuses. -/

namespace Sys2Proof.Machine

open Sys2Proof.Safety Sys2Proof.Laws

theorem State.jWrite_only {ls : List Item} {s0 : State} {s : State} {p : PartNo} {off : Nat} {bs : Bytes}
    (h0 : changesOnly ls s0 s) (hm : incl [.out] ls = true) : changesOnly ls s0 (State.jWrite s p off bs) := by
  unfold State.jWrite
  try dsimp only
  repeat' first | with_reducible assumption | with_reducible intro _ | with_reducible apply State.emit_only

theorem State.jWrite_keeps {s0 : State} {s : State} {p : PartNo} {off : Nat} {bs : Bytes}
    (h0 : keeps s0 s) : keeps s0 (State.jWrite s p off bs) := by
  unfold State.jWrite
  try dsimp only
  repeat' first | with_reducible assumption | with_reducible intro _ | with_reducible apply State.emit_keeps

theorem State.jRecord_only {ls : List Item} {s0 : State} {s : State} {p : PartNo} {rtype part : Nat} {last : Bool} {handle opcode stamp : Nat} {data : Bytes}
    (h0 : changesOnly ls s0 s) (hm : incl [.pJournal, .out] ls = true) : changesOnly ls s0 (State.jRecord s p rtype part last handle opcode stamp data) := by
  have hs := @mem_of_incl [.pJournal, .out] ls hm
  unfold State.jRecord
  try dsimp only
  repeat' (first
    | with_reducible assumption
    | with_reducible intro _
    | with_reducible apply State.jWrite_only
    | with_reducible apply only_ite
    | exact incl_trans rfl hm
    | with_reducible exact part_refl
    | with_reducible apply part_ite
    | with_reducible apply only_modPart
    | with_reducible apply part_mk
    | with_reducible apply only_mk
    | exact Or.inr (hs (by decide))
    | with_reducible exact Or.inl rfl
    | with_reducible exact parts_refl
    | (with_reducible refine Or.inl ?_; and_intros <;> with_reducible rfl))

theorem State.jRecord_keeps {s0 : State} {s : State} {p : PartNo} {rtype part : Nat} {last : Bool} {handle opcode stamp : Nat} {data : Bytes}
    (h0 : keeps s0 s) : keeps s0 (State.jRecord s p rtype part last handle opcode stamp data) := by
  unfold State.jRecord
  try dsimp only
  repeat' (first
    | with_reducible assumption
    | with_reducible intro _
    | with_reducible apply State.jWrite_keeps
    | with_reducible apply keeps_ite
    | with_reducible exact pKeeps_refl
    | exact pKeeps_new rfl rfl
    | with_reducible apply pKeeps_ite
    | with_reducible apply keeps_modPart
    | with_reducible apply pKeeps_mk
    | with_reducible exact memKeeps_refl)

theorem State.jFlush_only {ls : List Item} {s0 : State} {s : State} {p : PartNo}
    (h0 : changesOnly ls s0 s) (hm : incl [.pJournal, .out] ls = true) : changesOnly ls s0 (State.jFlush s p) := by
  have hs := @mem_of_incl [.pJournal, .out] ls hm
  unfold State.jFlush
  try dsimp only
  repeat' (first
    | with_reducible assumption
    | with_reducible intro _
    | with_reducible apply State.emit_only
    | with_reducible apply only_ite
    | exact incl_trans rfl hm
    | with_reducible exact part_refl
    | with_reducible apply part_ite
    | with_reducible apply only_modPart
    | with_reducible apply part_mk
    | with_reducible apply only_mk
    | exact Or.inr (hs (by decide))
    | with_reducible exact Or.inl rfl
    | with_reducible exact parts_refl
    | (with_reducible refine Or.inl ?_; and_intros <;> with_reducible rfl)
    | exact Or.inl rfl
    | with_reducible refine only_pair (by assumption) ?_
    | dsimp only
    | rw [mk_put]
    | split)

theorem State.jFlush_keeps {s0 : State} {s : State} {p : PartNo}
    (h0 : keeps s0 s) : keeps s0 (State.jFlush s p) := by
  unfold State.jFlush
  try dsimp only
  repeat' (first
    | with_reducible assumption
    | with_reducible intro _
    | with_reducible apply State.emit_keeps
    | with_reducible apply keeps_ite
    | with_reducible exact pKeeps_refl
    | exact pKeeps_new rfl rfl
    | with_reducible apply pKeeps_ite
    | with_reducible apply keeps_modPart
    | with_reducible apply pKeeps_mk
    | with_reducible exact memKeeps_refl
    | with_reducible apply keeps_mk
    | with_reducible exact id
    | with_reducible exact partsKeep_refl
    | with_reducible exact rasKeep_refl
    | with_reducible exact hbmKeep_refl
    | with_reducible exact pkgKeep_refl
    | with_reducible exact secKeep_refl
    | with_reducible exact namesKeep_refl
    | with_reducible refine keeps_pair (by assumption) ?_
    | dsimp only
    | rw [mk_put]
    | split)

theorem State.jHeader_only {ls : List Item} {s0 : State} {s : State} {p : PartNo} {blob : Bytes}
    (h0 : changesOnly ls s0 s) (hm : incl [.pJournal, .out] ls = true) : changesOnly ls s0 (State.jHeader s p blob) := by
  have hs := @mem_of_incl [.pJournal, .out] ls hm
  unfold State.jHeader
  try dsimp only
  repeat' (first
    | with_reducible assumption
    | with_reducible intro _
    | with_reducible apply State.jWrite_only
    | with_reducible apply State.emit_only
    | exact incl_trans rfl hm
    | with_reducible exact part_refl
    | with_reducible apply only_modPart
    | with_reducible apply part_mk
    | with_reducible apply only_mk
    | exact Or.inr (hs (by decide))
    | with_reducible exact Or.inl rfl
    | with_reducible exact parts_refl
    | (with_reducible refine Or.inl ?_; and_intros <;> with_reducible rfl))

theorem State.jHeader_keeps {s0 : State} {s : State} {p : PartNo} {blob : Bytes}
    (h0 : keeps s0 s) : keeps s0 (State.jHeader s p blob) := by
  unfold State.jHeader
  try dsimp only
  repeat' (first
    | with_reducible assumption
    | with_reducible intro _
    | with_reducible apply State.jWrite_keeps
    | with_reducible apply State.emit_keeps
    | with_reducible exact pKeeps_refl
    | exact pKeeps_new rfl rfl
    | with_reducible apply keeps_modPart
    | with_reducible apply pKeeps_mk
    | with_reducible exact memKeeps_refl)

theorem State.jTrim_only {ls : List Item} {s0 : State} {s : State} {p : PartNo}
    (h0 : changesOnly ls s0 s) (hm : incl [.pJournal, .out] ls = true) : changesOnly ls s0 (State.jTrim s p) := by
  have hs := @mem_of_incl [.pJournal, .out] ls hm
  unfold State.jTrim
  try dsimp only
  repeat' (first
    | with_reducible assumption
    | with_reducible intro _
    | with_reducible apply State.jHeader_only
    | with_reducible apply only_getD
    | with_reducible apply only_ite
    | with_reducible apply only_foldl
    | with_reducible apply only_foldl_fst
    | exact incl_trans rfl hm
    | with_reducible exact part_refl
    | with_reducible apply part_ite
    | with_reducible apply part_foldl
    | with_reducible apply only_modPart
    | with_reducible apply part_mk
    | with_reducible apply only_mk
    | exact Or.inr (hs (by decide))
    | with_reducible exact Or.inl rfl
    | with_reducible exact parts_refl
    | (with_reducible refine Or.inl ?_; and_intros <;> with_reducible rfl))

theorem State.jTrim_keeps {s0 : State} {s : State} {p : PartNo}
    (h0 : keeps s0 s) : keeps s0 (State.jTrim s p) := by
  unfold State.jTrim
  try dsimp only
  repeat' (first
    | with_reducible assumption
    | with_reducible intro _
    | with_reducible apply State.jHeader_keeps
    | with_reducible apply keeps_getD
    | with_reducible apply keeps_ite
    | with_reducible apply keeps_foldl
    | with_reducible apply keeps_foldl_fst
    | with_reducible exact pKeeps_refl
    | exact pKeeps_new rfl rfl
    | with_reducible apply pKeeps_ite
    | with_reducible apply pKeeps_foldl
    | with_reducible apply keeps_modPart
    | with_reducible apply pKeeps_mk
    | with_reducible exact memKeeps_refl)

theorem State.due_only {ls : List Item} {s0 : State} {s : State} {cid : Nat}
    (h0 : changesOnly ls s0 s) (hm : incl [.cmds, .locks, .pColls, .ctxs, .streams, .ristretto, .semaphores] ls = true) : changesOnly ls s0 (State.due s cid) := by
  have hs := @mem_of_incl [.cmds, .locks, .pColls, .ctxs, .streams, .ristretto, .semaphores] ls hm
  unfold State.due
  try dsimp only
  repeat' (first
    | with_reducible assumption
    | with_reducible intro _
    | with_reducible apply State.reported_only
    | with_reducible apply State.drop_only
    | with_reducible apply State.modCmd_only
    | with_reducible apply only_ite
    | exact incl_trans rfl hm
    | with_reducible apply only_mk
    | exact Or.inr (hs (by decide))
    | with_reducible exact Or.inl rfl
    | with_reducible exact parts_refl
    | (with_reducible refine Or.inl ?_; and_intros <;> with_reducible rfl)
    | exact Or.inl rfl
    | with_reducible refine only_pair (by assumption) ?_
    | dsimp only
    | rw [mk_put]
    | split)

theorem State.due_keeps {s0 : State} {s : State} {cid : Nat}
    (h0 : keeps s0 s) : keeps s0 (State.due s cid) := by
  unfold State.due
  try dsimp only
  repeat' (first
    | with_reducible assumption
    | with_reducible intro _
    | with_reducible apply State.reported_keeps
    | with_reducible apply State.drop_keeps
    | with_reducible apply State.modCmd_keeps
    | with_reducible apply keeps_ite
    | with_reducible apply keeps_mk
    | with_reducible exact id
    | with_reducible exact partsKeep_refl
    | with_reducible exact rasKeep_refl
    | with_reducible exact hbmKeep_refl
    | with_reducible exact pkgKeep_refl
    | with_reducible exact secKeep_refl
    | with_reducible exact namesKeep_refl
    | exact rfl
    | with_reducible refine keeps_pair (by assumption) ?_
    | dsimp only
    | rw [mk_put]
    | split)

theorem State.journal_only {ls : List Item} {s0 : State} {s : State} {p : PartNo} {cid rtype handle opcode stamp : Nat} {parts : List Bytes}
    (h0 : changesOnly ls s0 s) (hm : incl [.cmds, .locks, .pColls, .pJournal, .ctxs, .streams, .ristretto, .semaphores, .out] ls = true) : changesOnly ls s0 (State.journal s p cid rtype handle opcode stamp parts) := by
  have hs := @mem_of_incl [.cmds, .locks, .pColls, .pJournal, .ctxs, .streams, .ristretto, .semaphores, .out] ls hm
  unfold State.journal
  try dsimp only
  repeat' (first
    | with_reducible assumption
    | with_reducible intro _
    | with_reducible apply State.due_only
    | with_reducible apply State.jRecord_only
    | with_reducible apply State.jFlush_only
    | with_reducible apply only_ite
    | with_reducible apply only_foldl
    | with_reducible apply only_foldl_fst
    | exact incl_trans rfl hm
    | with_reducible exact part_refl
    | with_reducible apply part_ite
    | with_reducible apply part_foldl
    | with_reducible apply only_modPart
    | with_reducible apply part_mk
    | with_reducible apply only_mk
    | exact Or.inr (hs (by decide))
    | with_reducible exact Or.inl rfl
    | with_reducible exact parts_refl
    | (with_reducible refine Or.inl ?_; and_intros <;> with_reducible rfl)
    | exact Or.inl rfl
    | with_reducible refine only_pair (by assumption) ?_
    | dsimp only
    | rw [mk_put]
    | split)

theorem State.journal_keeps {s0 : State} {s : State} {p : PartNo} {cid rtype handle opcode stamp : Nat} {parts : List Bytes}
    (h0 : keeps s0 s) : keeps s0 (State.journal s p cid rtype handle opcode stamp parts) := by
  unfold State.journal
  try dsimp only
  repeat' (first
    | with_reducible assumption
    | with_reducible intro _
    | with_reducible apply State.due_keeps
    | with_reducible apply State.jRecord_keeps
    | with_reducible apply State.jFlush_keeps
    | with_reducible apply keeps_ite
    | with_reducible apply keeps_foldl
    | with_reducible apply keeps_foldl_fst
    | with_reducible exact pKeeps_refl
    | exact pKeeps_new rfl rfl
    | with_reducible apply pKeeps_ite
    | with_reducible apply pKeeps_foldl
    | with_reducible apply keeps_modPart
    | with_reducible apply pKeeps_mk
    | with_reducible exact memKeeps_refl
    | with_reducible apply keeps_mk
    | with_reducible exact id
    | with_reducible exact partsKeep_refl
    | with_reducible exact rasKeep_refl
    | with_reducible exact hbmKeep_refl
    | with_reducible exact pkgKeep_refl
    | with_reducible exact secKeep_refl
    | with_reducible exact namesKeep_refl
    | with_reducible refine keeps_pair (by assumption) ?_
    | dsimp only
    | rw [mk_put]
    | split)

theorem State.jAbandon_only {ls : List Item} {s0 : State} {s : State} {p : PartNo}
    (h0 : changesOnly ls s0 s) (hm : incl [.pJournal] ls = true) : changesOnly ls s0 (State.jAbandon s p) := by
  have hs := @mem_of_incl [.pJournal] ls hm
  unfold State.jAbandon
  try dsimp only
  repeat' (first
    | with_reducible assumption
    | with_reducible intro _
    | with_reducible apply only_getD
    | with_reducible apply only_ite
    | with_reducible apply only_foldl
    | with_reducible apply only_foldl_fst
    | exact incl_trans rfl hm
    | with_reducible exact part_refl
    | with_reducible apply part_ite
    | with_reducible apply part_foldl
    | with_reducible apply only_modPart
    | with_reducible apply part_mk
    | with_reducible apply only_mk
    | exact Or.inr (hs (by decide))
    | with_reducible exact Or.inl rfl
    | with_reducible exact parts_refl
    | (with_reducible refine Or.inl ?_; and_intros <;> with_reducible rfl))

theorem State.jAbandon_keeps {s0 : State} {s : State} {p : PartNo}
    (h0 : keeps s0 s) : keeps s0 (State.jAbandon s p) := by
  unfold State.jAbandon
  try dsimp only
  repeat' (first
    | with_reducible assumption
    | with_reducible intro _
    | with_reducible apply keeps_getD
    | with_reducible apply keeps_ite
    | with_reducible apply keeps_foldl
    | with_reducible apply keeps_foldl_fst
    | with_reducible exact pKeeps_refl
    | exact pKeeps_new rfl rfl
    | with_reducible apply pKeeps_ite
    | with_reducible apply pKeeps_foldl
    | with_reducible apply keeps_modPart
    | with_reducible apply pKeeps_mk
    | with_reducible exact memKeeps_refl)

theorem State.journalOne_only {ls : List Item} {s0 : State} {s : State} {p : PartNo} {cid rtype handle opcode stamp : Nat} {data : Bytes}
    (h0 : changesOnly ls s0 s) (hm : incl [.cmds, .locks, .pColls, .pJournal, .ctxs, .streams, .ristretto, .semaphores, .out] ls = true) : changesOnly ls s0 (State.journalOne s p cid rtype handle opcode stamp data) := by
  unfold State.journalOne
  try dsimp only
  repeat' first | with_reducible assumption | with_reducible intro _ | with_reducible apply State.journal_only

theorem State.journalOne_keeps {s0 : State} {s : State} {p : PartNo} {cid rtype handle opcode stamp : Nat} {data : Bytes}
    (h0 : keeps s0 s) : keeps s0 (State.journalOne s p cid rtype handle opcode stamp data) := by
  unfold State.journalOne
  try dsimp only
  repeat' first | with_reducible assumption | with_reducible intro _ | with_reducible apply State.journal_keeps

end Sys2Proof.Machine
end

