-- ==== Sys2Proof/Laws/CollectionCmd.lean ====
section
/-! SUPPORT. What each operation of Machine/CollectionCmd.lean may change: its frame, and that it
keeps the invariant and the fuses. -/

namespace Sys2Proof.Machine

open Sys2Proof.Safety Sys2Proof.Laws

theorem State.created_only {ls : List Item} {s0 : State} {s : State} {p : PartNo} {c : Cmd} {k : Coll} {rtype : Nat} {data : Bytes} {r : Compl}
    (h0 : changesOnly ls s0 s) (hm : incl [.time, .cmds, .locks, .pUses, .pColls, .pJournal, .ctxs, .streams, .ristretto, .semaphores, .out] ls = true) : changesOnly ls s0 (State.created s p c k rtype data r) := by
  have hs := @mem_of_incl [.time, .cmds, .locks, .pUses, .pColls, .pJournal, .ctxs, .streams, .ristretto, .semaphores, .out] ls hm
  unfold State.created
  try dsimp only
  repeat' (first
    | with_reducible assumption
    | with_reducible intro _
    | with_reducible apply State.placeDirectories_only
    | with_reducible apply State.journalOne_only
    | with_reducible apply State.issued_only
    | with_reducible apply State.settle_only
    | with_reducible apply State.finish_only
    | with_reducible apply State.modCmd_only
    | with_reducible apply State.modCollU_only
    | with_reducible apply only_ite
    | exact incl_trans rfl hm
    | with_reducible exact part_refl
    | with_reducible apply part_ite
    | with_reducible apply only_modPart
    | with_reducible apply part_mk
    | with_reducible apply only_mk
    | exact Or.inr (hs (by decide))
    | with_reducible exact Or.inl rfl
    | with_reducible exact parts_refl
    | (with_reducible refine Or.inl ?_; and_intros <;> with_reducible rfl))

theorem State.created_keeps {s0 : State} {s : State} {p : PartNo} {c : Cmd} {k : Coll} {rtype : Nat} {data : Bytes} {r : Compl}
    (h0 : keeps s0 s) : keeps s0 (State.created s p c k rtype data r) := by
  unfold State.created
  try dsimp only
  repeat' (first
    | with_reducible assumption
    | with_reducible intro _
    | with_reducible apply State.placeDirectories_keeps
    | with_reducible apply State.journalOne_keeps
    | with_reducible apply State.issued_keeps
    | with_reducible apply State.settle_keeps
    | with_reducible apply State.finish_keeps
    | with_reducible apply State.modCmd_keeps
    | with_reducible apply State.modCollU_keeps
    | with_reducible apply keeps_ite
    | with_reducible exact pKeeps_refl
    | exact pKeeps_new rfl rfl
    | with_reducible apply pKeeps_ite
    | with_reducible apply keeps_modPart
    | with_reducible apply pKeeps_mk
    | with_reducible exact memKeeps_refl)

end Sys2Proof.Machine
end

