-- ==== Sys2Proof/Laws/State.lean ====
section
/-! SUPPORT. What each primitive update of State leaves, field by field, so that no proof unfolds a record update. -/

namespace Sys2Proof.Machine

@[simp] theorem State.modFn_time (s : State) (fn : Fn) (f : FnSt → FnSt) : (s.modFn fn f).time = s.time := rfl
@[simp] theorem State.modFn_pkg (s : State) (fn : Fn) (f : FnSt → FnSt) : (s.modFn fn f).pkg = s.pkg := rfl
@[simp] theorem State.modFn_fw (s : State) (fn : Fn) (f : FnSt → FnSt) : (s.modFn fn f).fw = s.fw := rfl
@[simp] theorem State.modFn_sec (s : State) (fn : Fn) (f : FnSt → FnSt) : (s.modFn fn f).sec = s.sec := rfl
@[simp] theorem State.modFn_ras (s : State) (fn : Fn) (f : FnSt → FnSt) : (s.modFn fn f).ras = s.ras := rfl
@[simp] theorem State.modFn_hif (s : State) (fn : Fn) (f : FnSt → FnSt) : (s.modFn fn f).hif = s.hif := rfl
@[simp] theorem State.modFn_pairs (s : State) (fn : Fn) (f : FnSt → FnSt) : (s.modFn fn f).pairs = s.pairs := rfl
@[simp] theorem State.modFn_rrPart (s : State) (fn : Fn) (f : FnSt → FnSt) : (s.modFn fn f).rrPart = s.rrPart := rfl
@[simp] theorem State.modFn_rrLast (s : State) (fn : Fn) (f : FnSt → FnSt) : (s.modFn fn f).rrLast = s.rrLast := rfl
@[simp] theorem State.modFn_turnLeft (s : State) (fn : Fn) (f : FnSt → FnSt) : (s.modFn fn f).turnLeft = s.turnLeft := rfl
@[simp] theorem State.modFn_cmds (s : State) (fn : Fn) (f : FnSt → FnSt) : (s.modFn fn f).cmds = s.cmds := rfl
@[simp] theorem State.modFn_nextCid (s : State) (fn : Fn) (f : FnSt → FnSt) : (s.modFn fn f).nextCid = s.nextCid := rfl
@[simp] theorem State.modFn_nextAdmit (s : State) (fn : Fn) (f : FnSt → FnSt) : (s.modFn fn f).nextAdmit = s.nextAdmit := rfl
@[simp] theorem State.modFn_locks (s : State) (fn : Fn) (f : FnSt → FnSt) : (s.modFn fn f).locks = s.locks := rfl
@[simp] theorem State.modFn_parts (s : State) (fn : Fn) (f : FnSt → FnSt) : (s.modFn fn f).parts = s.parts := rfl
@[simp] theorem State.modFn_ctxs (s : State) (fn : Fn) (f : FnSt → FnSt) : (s.modFn fn f).ctxs = s.ctxs := rfl
@[simp] theorem State.modFn_incarnations (s : State) (fn : Fn) (f : FnSt → FnSt) : (s.modFn fn f).incarnations = s.incarnations := rfl
@[simp] theorem State.modFn_streams (s : State) (fn : Fn) (f : FnSt → FnSt) : (s.modFn fn f).streams = s.streams := rfl
@[simp] theorem State.modFn_ristretto (s : State) (fn : Fn) (f : FnSt → FnSt) : (s.modFn fn f).ristretto = s.ristretto := rfl
@[simp] theorem State.modFn_semaphores (s : State) (fn : Fn) (f : FnSt → FnSt) : (s.modFn fn f).semaphores = s.semaphores := rfl
@[simp] theorem State.modFn_atc (s : State) (fn : Fn) (f : FnSt → FnSt) : (s.modFn fn f).atc = s.atc := rfl
@[simp] theorem State.modFn_devMode (s : State) (fn : Fn) (f : FnSt → FnSt) : (s.modFn fn f).devMode = s.devMode := rfl
@[simp] theorem State.modFn_hbm (s : State) (fn : Fn) (f : FnSt → FnSt) : (s.modFn fn f).hbm = s.hbm := rfl
@[simp] theorem State.modFn_slm (s : State) (fn : Fn) (f : FnSt → FnSt) : (s.modFn fn f).slm = s.slm := rfl
@[simp] theorem State.modFn_mesh (s : State) (fn : Fn) (f : FnSt → FnSt) : (s.modFn fn f).mesh = s.mesh := rfl
@[simp] theorem State.modFn_power (s : State) (fn : Fn) (f : FnSt → FnSt) : (s.modFn fn f).power = s.power := rfl
@[simp] theorem State.modFn_tests (s : State) (fn : Fn) (f : FnSt → FnSt) : (s.modFn fn f).tests = s.tests := rfl
@[simp] theorem State.modFn_out (s : State) (fn : Fn) (f : FnSt → FnSt) : (s.modFn fn f).out = s.out := rfl
@[simp] theorem State.modFn_fresh (s : State) (fn : Fn) (f : FnSt → FnSt) : (s.modFn fn f).fresh = s.fresh := rfl
@[simp] theorem State.modFn_pending (s : State) (fn : Fn) (f : FnSt → FnSt) : (s.modFn fn f).pending = s.pending := rfl

@[simp] theorem State.modPart_time (s : State) (p : PartNo) (f : PartSt → PartSt) : (s.modPart p f).time = s.time := rfl
@[simp] theorem State.modPart_pkg (s : State) (p : PartNo) (f : PartSt → PartSt) : (s.modPart p f).pkg = s.pkg := rfl
@[simp] theorem State.modPart_fw (s : State) (p : PartNo) (f : PartSt → PartSt) : (s.modPart p f).fw = s.fw := rfl
@[simp] theorem State.modPart_sec (s : State) (p : PartNo) (f : PartSt → PartSt) : (s.modPart p f).sec = s.sec := rfl
@[simp] theorem State.modPart_ras (s : State) (p : PartNo) (f : PartSt → PartSt) : (s.modPart p f).ras = s.ras := rfl
@[simp] theorem State.modPart_hif (s : State) (p : PartNo) (f : PartSt → PartSt) : (s.modPart p f).hif = s.hif := rfl
@[simp] theorem State.modPart_fns (s : State) (p : PartNo) (f : PartSt → PartSt) : (s.modPart p f).fns = s.fns := rfl
@[simp] theorem State.modPart_pairs (s : State) (p : PartNo) (f : PartSt → PartSt) : (s.modPart p f).pairs = s.pairs := rfl
@[simp] theorem State.modPart_rrPart (s : State) (p : PartNo) (f : PartSt → PartSt) : (s.modPart p f).rrPart = s.rrPart := rfl
@[simp] theorem State.modPart_rrLast (s : State) (p : PartNo) (f : PartSt → PartSt) : (s.modPart p f).rrLast = s.rrLast := rfl
@[simp] theorem State.modPart_turnLeft (s : State) (p : PartNo) (f : PartSt → PartSt) : (s.modPart p f).turnLeft = s.turnLeft := rfl
@[simp] theorem State.modPart_cmds (s : State) (p : PartNo) (f : PartSt → PartSt) : (s.modPart p f).cmds = s.cmds := rfl
@[simp] theorem State.modPart_nextCid (s : State) (p : PartNo) (f : PartSt → PartSt) : (s.modPart p f).nextCid = s.nextCid := rfl
@[simp] theorem State.modPart_nextAdmit (s : State) (p : PartNo) (f : PartSt → PartSt) : (s.modPart p f).nextAdmit = s.nextAdmit := rfl
@[simp] theorem State.modPart_locks (s : State) (p : PartNo) (f : PartSt → PartSt) : (s.modPart p f).locks = s.locks := rfl
@[simp] theorem State.modPart_ctxs (s : State) (p : PartNo) (f : PartSt → PartSt) : (s.modPart p f).ctxs = s.ctxs := rfl
@[simp] theorem State.modPart_incarnations (s : State) (p : PartNo) (f : PartSt → PartSt) : (s.modPart p f).incarnations = s.incarnations := rfl
@[simp] theorem State.modPart_streams (s : State) (p : PartNo) (f : PartSt → PartSt) : (s.modPart p f).streams = s.streams := rfl
@[simp] theorem State.modPart_ristretto (s : State) (p : PartNo) (f : PartSt → PartSt) : (s.modPart p f).ristretto = s.ristretto := rfl
@[simp] theorem State.modPart_semaphores (s : State) (p : PartNo) (f : PartSt → PartSt) : (s.modPart p f).semaphores = s.semaphores := rfl
@[simp] theorem State.modPart_atc (s : State) (p : PartNo) (f : PartSt → PartSt) : (s.modPart p f).atc = s.atc := rfl
@[simp] theorem State.modPart_devMode (s : State) (p : PartNo) (f : PartSt → PartSt) : (s.modPart p f).devMode = s.devMode := rfl
@[simp] theorem State.modPart_hbm (s : State) (p : PartNo) (f : PartSt → PartSt) : (s.modPart p f).hbm = s.hbm := rfl
@[simp] theorem State.modPart_slm (s : State) (p : PartNo) (f : PartSt → PartSt) : (s.modPart p f).slm = s.slm := rfl
@[simp] theorem State.modPart_mesh (s : State) (p : PartNo) (f : PartSt → PartSt) : (s.modPart p f).mesh = s.mesh := rfl
@[simp] theorem State.modPart_power (s : State) (p : PartNo) (f : PartSt → PartSt) : (s.modPart p f).power = s.power := rfl
@[simp] theorem State.modPart_tests (s : State) (p : PartNo) (f : PartSt → PartSt) : (s.modPart p f).tests = s.tests := rfl
@[simp] theorem State.modPart_out (s : State) (p : PartNo) (f : PartSt → PartSt) : (s.modPart p f).out = s.out := rfl
@[simp] theorem State.modPart_fresh (s : State) (p : PartNo) (f : PartSt → PartSt) : (s.modPart p f).fresh = s.fresh := rfl
@[simp] theorem State.modPart_pending (s : State) (p : PartNo) (f : PartSt → PartSt) : (s.modPart p f).pending = s.pending := rfl

@[simp] theorem State.modCmd_time (s : State) (cid : Nat) (f : Cmd → Cmd) : (s.modCmd cid f).time = s.time := rfl
@[simp] theorem State.modCmd_pkg (s : State) (cid : Nat) (f : Cmd → Cmd) : (s.modCmd cid f).pkg = s.pkg := rfl
@[simp] theorem State.modCmd_fw (s : State) (cid : Nat) (f : Cmd → Cmd) : (s.modCmd cid f).fw = s.fw := rfl
@[simp] theorem State.modCmd_sec (s : State) (cid : Nat) (f : Cmd → Cmd) : (s.modCmd cid f).sec = s.sec := rfl
@[simp] theorem State.modCmd_ras (s : State) (cid : Nat) (f : Cmd → Cmd) : (s.modCmd cid f).ras = s.ras := rfl
@[simp] theorem State.modCmd_hif (s : State) (cid : Nat) (f : Cmd → Cmd) : (s.modCmd cid f).hif = s.hif := rfl
@[simp] theorem State.modCmd_fns (s : State) (cid : Nat) (f : Cmd → Cmd) : (s.modCmd cid f).fns = s.fns := rfl
@[simp] theorem State.modCmd_pairs (s : State) (cid : Nat) (f : Cmd → Cmd) : (s.modCmd cid f).pairs = s.pairs := rfl
@[simp] theorem State.modCmd_rrPart (s : State) (cid : Nat) (f : Cmd → Cmd) : (s.modCmd cid f).rrPart = s.rrPart := rfl
@[simp] theorem State.modCmd_rrLast (s : State) (cid : Nat) (f : Cmd → Cmd) : (s.modCmd cid f).rrLast = s.rrLast := rfl
@[simp] theorem State.modCmd_turnLeft (s : State) (cid : Nat) (f : Cmd → Cmd) : (s.modCmd cid f).turnLeft = s.turnLeft := rfl
@[simp] theorem State.modCmd_nextCid (s : State) (cid : Nat) (f : Cmd → Cmd) : (s.modCmd cid f).nextCid = s.nextCid := rfl
@[simp] theorem State.modCmd_nextAdmit (s : State) (cid : Nat) (f : Cmd → Cmd) : (s.modCmd cid f).nextAdmit = s.nextAdmit := rfl
@[simp] theorem State.modCmd_locks (s : State) (cid : Nat) (f : Cmd → Cmd) : (s.modCmd cid f).locks = s.locks := rfl
@[simp] theorem State.modCmd_parts (s : State) (cid : Nat) (f : Cmd → Cmd) : (s.modCmd cid f).parts = s.parts := rfl
@[simp] theorem State.modCmd_ctxs (s : State) (cid : Nat) (f : Cmd → Cmd) : (s.modCmd cid f).ctxs = s.ctxs := rfl
@[simp] theorem State.modCmd_incarnations (s : State) (cid : Nat) (f : Cmd → Cmd) : (s.modCmd cid f).incarnations = s.incarnations := rfl
@[simp] theorem State.modCmd_streams (s : State) (cid : Nat) (f : Cmd → Cmd) : (s.modCmd cid f).streams = s.streams := rfl
@[simp] theorem State.modCmd_ristretto (s : State) (cid : Nat) (f : Cmd → Cmd) : (s.modCmd cid f).ristretto = s.ristretto := rfl
@[simp] theorem State.modCmd_semaphores (s : State) (cid : Nat) (f : Cmd → Cmd) : (s.modCmd cid f).semaphores = s.semaphores := rfl
@[simp] theorem State.modCmd_atc (s : State) (cid : Nat) (f : Cmd → Cmd) : (s.modCmd cid f).atc = s.atc := rfl
@[simp] theorem State.modCmd_devMode (s : State) (cid : Nat) (f : Cmd → Cmd) : (s.modCmd cid f).devMode = s.devMode := rfl
@[simp] theorem State.modCmd_hbm (s : State) (cid : Nat) (f : Cmd → Cmd) : (s.modCmd cid f).hbm = s.hbm := rfl
@[simp] theorem State.modCmd_slm (s : State) (cid : Nat) (f : Cmd → Cmd) : (s.modCmd cid f).slm = s.slm := rfl
@[simp] theorem State.modCmd_mesh (s : State) (cid : Nat) (f : Cmd → Cmd) : (s.modCmd cid f).mesh = s.mesh := rfl
@[simp] theorem State.modCmd_power (s : State) (cid : Nat) (f : Cmd → Cmd) : (s.modCmd cid f).power = s.power := rfl
@[simp] theorem State.modCmd_tests (s : State) (cid : Nat) (f : Cmd → Cmd) : (s.modCmd cid f).tests = s.tests := rfl
@[simp] theorem State.modCmd_out (s : State) (cid : Nat) (f : Cmd → Cmd) : (s.modCmd cid f).out = s.out := rfl
@[simp] theorem State.modCmd_fresh (s : State) (cid : Nat) (f : Cmd → Cmd) : (s.modCmd cid f).fresh = s.fresh := rfl
@[simp] theorem State.modCmd_pending (s : State) (cid : Nat) (f : Cmd → Cmd) : (s.modCmd cid f).pending = s.pending := rfl

@[simp] theorem State.modPair_time (s : State) (fn : Fn) (qid : Nat) (f : Pair → Pair) : (s.modPair fn qid f).time = s.time := rfl
@[simp] theorem State.modPair_pkg (s : State) (fn : Fn) (qid : Nat) (f : Pair → Pair) : (s.modPair fn qid f).pkg = s.pkg := rfl
@[simp] theorem State.modPair_fw (s : State) (fn : Fn) (qid : Nat) (f : Pair → Pair) : (s.modPair fn qid f).fw = s.fw := rfl
@[simp] theorem State.modPair_sec (s : State) (fn : Fn) (qid : Nat) (f : Pair → Pair) : (s.modPair fn qid f).sec = s.sec := rfl
@[simp] theorem State.modPair_ras (s : State) (fn : Fn) (qid : Nat) (f : Pair → Pair) : (s.modPair fn qid f).ras = s.ras := rfl
@[simp] theorem State.modPair_hif (s : State) (fn : Fn) (qid : Nat) (f : Pair → Pair) : (s.modPair fn qid f).hif = s.hif := rfl
@[simp] theorem State.modPair_fns (s : State) (fn : Fn) (qid : Nat) (f : Pair → Pair) : (s.modPair fn qid f).fns = s.fns := rfl
@[simp] theorem State.modPair_rrPart (s : State) (fn : Fn) (qid : Nat) (f : Pair → Pair) : (s.modPair fn qid f).rrPart = s.rrPart := rfl
@[simp] theorem State.modPair_rrLast (s : State) (fn : Fn) (qid : Nat) (f : Pair → Pair) : (s.modPair fn qid f).rrLast = s.rrLast := rfl
@[simp] theorem State.modPair_turnLeft (s : State) (fn : Fn) (qid : Nat) (f : Pair → Pair) : (s.modPair fn qid f).turnLeft = s.turnLeft := rfl
@[simp] theorem State.modPair_cmds (s : State) (fn : Fn) (qid : Nat) (f : Pair → Pair) : (s.modPair fn qid f).cmds = s.cmds := rfl
@[simp] theorem State.modPair_nextCid (s : State) (fn : Fn) (qid : Nat) (f : Pair → Pair) : (s.modPair fn qid f).nextCid = s.nextCid := rfl
@[simp] theorem State.modPair_nextAdmit (s : State) (fn : Fn) (qid : Nat) (f : Pair → Pair) : (s.modPair fn qid f).nextAdmit = s.nextAdmit := rfl
@[simp] theorem State.modPair_locks (s : State) (fn : Fn) (qid : Nat) (f : Pair → Pair) : (s.modPair fn qid f).locks = s.locks := rfl
@[simp] theorem State.modPair_parts (s : State) (fn : Fn) (qid : Nat) (f : Pair → Pair) : (s.modPair fn qid f).parts = s.parts := rfl
@[simp] theorem State.modPair_ctxs (s : State) (fn : Fn) (qid : Nat) (f : Pair → Pair) : (s.modPair fn qid f).ctxs = s.ctxs := rfl
@[simp] theorem State.modPair_incarnations (s : State) (fn : Fn) (qid : Nat) (f : Pair → Pair) : (s.modPair fn qid f).incarnations = s.incarnations := rfl
@[simp] theorem State.modPair_streams (s : State) (fn : Fn) (qid : Nat) (f : Pair → Pair) : (s.modPair fn qid f).streams = s.streams := rfl
@[simp] theorem State.modPair_ristretto (s : State) (fn : Fn) (qid : Nat) (f : Pair → Pair) : (s.modPair fn qid f).ristretto = s.ristretto := rfl
@[simp] theorem State.modPair_semaphores (s : State) (fn : Fn) (qid : Nat) (f : Pair → Pair) : (s.modPair fn qid f).semaphores = s.semaphores := rfl
@[simp] theorem State.modPair_atc (s : State) (fn : Fn) (qid : Nat) (f : Pair → Pair) : (s.modPair fn qid f).atc = s.atc := rfl
@[simp] theorem State.modPair_devMode (s : State) (fn : Fn) (qid : Nat) (f : Pair → Pair) : (s.modPair fn qid f).devMode = s.devMode := rfl
@[simp] theorem State.modPair_hbm (s : State) (fn : Fn) (qid : Nat) (f : Pair → Pair) : (s.modPair fn qid f).hbm = s.hbm := rfl
@[simp] theorem State.modPair_slm (s : State) (fn : Fn) (qid : Nat) (f : Pair → Pair) : (s.modPair fn qid f).slm = s.slm := rfl
@[simp] theorem State.modPair_mesh (s : State) (fn : Fn) (qid : Nat) (f : Pair → Pair) : (s.modPair fn qid f).mesh = s.mesh := rfl
@[simp] theorem State.modPair_power (s : State) (fn : Fn) (qid : Nat) (f : Pair → Pair) : (s.modPair fn qid f).power = s.power := rfl
@[simp] theorem State.modPair_tests (s : State) (fn : Fn) (qid : Nat) (f : Pair → Pair) : (s.modPair fn qid f).tests = s.tests := rfl
@[simp] theorem State.modPair_out (s : State) (fn : Fn) (qid : Nat) (f : Pair → Pair) : (s.modPair fn qid f).out = s.out := rfl
@[simp] theorem State.modPair_fresh (s : State) (fn : Fn) (qid : Nat) (f : Pair → Pair) : (s.modPair fn qid f).fresh = s.fresh := rfl
@[simp] theorem State.modPair_pending (s : State) (fn : Fn) (qid : Nat) (f : Pair → Pair) : (s.modPair fn qid f).pending = s.pending := rfl

@[simp] theorem State.modCore_time (s : State) (n : Nat) (f : Core → Core) : (s.modCore n f).time = s.time := rfl
@[simp] theorem State.modCore_pkg (s : State) (n : Nat) (f : Core → Core) : (s.modCore n f).pkg = s.pkg := rfl
@[simp] theorem State.modCore_fw (s : State) (n : Nat) (f : Core → Core) : (s.modCore n f).fw = s.fw := rfl
@[simp] theorem State.modCore_sec (s : State) (n : Nat) (f : Core → Core) : (s.modCore n f).sec = s.sec := rfl
@[simp] theorem State.modCore_hif (s : State) (n : Nat) (f : Core → Core) : (s.modCore n f).hif = s.hif := rfl
@[simp] theorem State.modCore_fns (s : State) (n : Nat) (f : Core → Core) : (s.modCore n f).fns = s.fns := rfl
@[simp] theorem State.modCore_pairs (s : State) (n : Nat) (f : Core → Core) : (s.modCore n f).pairs = s.pairs := rfl
@[simp] theorem State.modCore_rrPart (s : State) (n : Nat) (f : Core → Core) : (s.modCore n f).rrPart = s.rrPart := rfl
@[simp] theorem State.modCore_rrLast (s : State) (n : Nat) (f : Core → Core) : (s.modCore n f).rrLast = s.rrLast := rfl
@[simp] theorem State.modCore_turnLeft (s : State) (n : Nat) (f : Core → Core) : (s.modCore n f).turnLeft = s.turnLeft := rfl
@[simp] theorem State.modCore_cmds (s : State) (n : Nat) (f : Core → Core) : (s.modCore n f).cmds = s.cmds := rfl
@[simp] theorem State.modCore_nextCid (s : State) (n : Nat) (f : Core → Core) : (s.modCore n f).nextCid = s.nextCid := rfl
@[simp] theorem State.modCore_nextAdmit (s : State) (n : Nat) (f : Core → Core) : (s.modCore n f).nextAdmit = s.nextAdmit := rfl
@[simp] theorem State.modCore_locks (s : State) (n : Nat) (f : Core → Core) : (s.modCore n f).locks = s.locks := rfl
@[simp] theorem State.modCore_parts (s : State) (n : Nat) (f : Core → Core) : (s.modCore n f).parts = s.parts := rfl
@[simp] theorem State.modCore_ctxs (s : State) (n : Nat) (f : Core → Core) : (s.modCore n f).ctxs = s.ctxs := rfl
@[simp] theorem State.modCore_incarnations (s : State) (n : Nat) (f : Core → Core) : (s.modCore n f).incarnations = s.incarnations := rfl
@[simp] theorem State.modCore_streams (s : State) (n : Nat) (f : Core → Core) : (s.modCore n f).streams = s.streams := rfl
@[simp] theorem State.modCore_ristretto (s : State) (n : Nat) (f : Core → Core) : (s.modCore n f).ristretto = s.ristretto := rfl
@[simp] theorem State.modCore_semaphores (s : State) (n : Nat) (f : Core → Core) : (s.modCore n f).semaphores = s.semaphores := rfl
@[simp] theorem State.modCore_atc (s : State) (n : Nat) (f : Core → Core) : (s.modCore n f).atc = s.atc := rfl
@[simp] theorem State.modCore_devMode (s : State) (n : Nat) (f : Core → Core) : (s.modCore n f).devMode = s.devMode := rfl
@[simp] theorem State.modCore_hbm (s : State) (n : Nat) (f : Core → Core) : (s.modCore n f).hbm = s.hbm := rfl
@[simp] theorem State.modCore_slm (s : State) (n : Nat) (f : Core → Core) : (s.modCore n f).slm = s.slm := rfl
@[simp] theorem State.modCore_mesh (s : State) (n : Nat) (f : Core → Core) : (s.modCore n f).mesh = s.mesh := rfl
@[simp] theorem State.modCore_power (s : State) (n : Nat) (f : Core → Core) : (s.modCore n f).power = s.power := rfl
@[simp] theorem State.modCore_tests (s : State) (n : Nat) (f : Core → Core) : (s.modCore n f).tests = s.tests := rfl
@[simp] theorem State.modCore_out (s : State) (n : Nat) (f : Core → Core) : (s.modCore n f).out = s.out := rfl
@[simp] theorem State.modCore_fresh (s : State) (n : Nat) (f : Core → Core) : (s.modCore n f).fresh = s.fresh := rfl
@[simp] theorem State.modCore_pending (s : State) (n : Nat) (f : Core → Core) : (s.modCore n f).pending = s.pending := rfl

@[simp] theorem State.modCluster_time (s : State) (n : Nat) (f : Cluster → Cluster) : (s.modCluster n f).time = s.time := rfl
@[simp] theorem State.modCluster_pkg (s : State) (n : Nat) (f : Cluster → Cluster) : (s.modCluster n f).pkg = s.pkg := rfl
@[simp] theorem State.modCluster_fw (s : State) (n : Nat) (f : Cluster → Cluster) : (s.modCluster n f).fw = s.fw := rfl
@[simp] theorem State.modCluster_sec (s : State) (n : Nat) (f : Cluster → Cluster) : (s.modCluster n f).sec = s.sec := rfl
@[simp] theorem State.modCluster_hif (s : State) (n : Nat) (f : Cluster → Cluster) : (s.modCluster n f).hif = s.hif := rfl
@[simp] theorem State.modCluster_fns (s : State) (n : Nat) (f : Cluster → Cluster) : (s.modCluster n f).fns = s.fns := rfl
@[simp] theorem State.modCluster_pairs (s : State) (n : Nat) (f : Cluster → Cluster) : (s.modCluster n f).pairs = s.pairs := rfl
@[simp] theorem State.modCluster_rrPart (s : State) (n : Nat) (f : Cluster → Cluster) : (s.modCluster n f).rrPart = s.rrPart := rfl
@[simp] theorem State.modCluster_rrLast (s : State) (n : Nat) (f : Cluster → Cluster) : (s.modCluster n f).rrLast = s.rrLast := rfl
@[simp] theorem State.modCluster_turnLeft (s : State) (n : Nat) (f : Cluster → Cluster) : (s.modCluster n f).turnLeft = s.turnLeft := rfl
@[simp] theorem State.modCluster_cmds (s : State) (n : Nat) (f : Cluster → Cluster) : (s.modCluster n f).cmds = s.cmds := rfl
@[simp] theorem State.modCluster_nextCid (s : State) (n : Nat) (f : Cluster → Cluster) : (s.modCluster n f).nextCid = s.nextCid := rfl
@[simp] theorem State.modCluster_nextAdmit (s : State) (n : Nat) (f : Cluster → Cluster) : (s.modCluster n f).nextAdmit = s.nextAdmit := rfl
@[simp] theorem State.modCluster_locks (s : State) (n : Nat) (f : Cluster → Cluster) : (s.modCluster n f).locks = s.locks := rfl
@[simp] theorem State.modCluster_parts (s : State) (n : Nat) (f : Cluster → Cluster) : (s.modCluster n f).parts = s.parts := rfl
@[simp] theorem State.modCluster_ctxs (s : State) (n : Nat) (f : Cluster → Cluster) : (s.modCluster n f).ctxs = s.ctxs := rfl
@[simp] theorem State.modCluster_incarnations (s : State) (n : Nat) (f : Cluster → Cluster) : (s.modCluster n f).incarnations = s.incarnations := rfl
@[simp] theorem State.modCluster_streams (s : State) (n : Nat) (f : Cluster → Cluster) : (s.modCluster n f).streams = s.streams := rfl
@[simp] theorem State.modCluster_ristretto (s : State) (n : Nat) (f : Cluster → Cluster) : (s.modCluster n f).ristretto = s.ristretto := rfl
@[simp] theorem State.modCluster_semaphores (s : State) (n : Nat) (f : Cluster → Cluster) : (s.modCluster n f).semaphores = s.semaphores := rfl
@[simp] theorem State.modCluster_atc (s : State) (n : Nat) (f : Cluster → Cluster) : (s.modCluster n f).atc = s.atc := rfl
@[simp] theorem State.modCluster_devMode (s : State) (n : Nat) (f : Cluster → Cluster) : (s.modCluster n f).devMode = s.devMode := rfl
@[simp] theorem State.modCluster_hbm (s : State) (n : Nat) (f : Cluster → Cluster) : (s.modCluster n f).hbm = s.hbm := rfl
@[simp] theorem State.modCluster_slm (s : State) (n : Nat) (f : Cluster → Cluster) : (s.modCluster n f).slm = s.slm := rfl
@[simp] theorem State.modCluster_mesh (s : State) (n : Nat) (f : Cluster → Cluster) : (s.modCluster n f).mesh = s.mesh := rfl
@[simp] theorem State.modCluster_power (s : State) (n : Nat) (f : Cluster → Cluster) : (s.modCluster n f).power = s.power := rfl
@[simp] theorem State.modCluster_tests (s : State) (n : Nat) (f : Cluster → Cluster) : (s.modCluster n f).tests = s.tests := rfl
@[simp] theorem State.modCluster_out (s : State) (n : Nat) (f : Cluster → Cluster) : (s.modCluster n f).out = s.out := rfl
@[simp] theorem State.modCluster_fresh (s : State) (n : Nat) (f : Cluster → Cluster) : (s.modCluster n f).fresh = s.fresh := rfl
@[simp] theorem State.modCluster_pending (s : State) (n : Nat) (f : Cluster → Cluster) : (s.modCluster n f).pending = s.pending := rfl

@[simp] theorem State.modChan_time (s : State) (c : Nat) (f : Channel → Channel) : (s.modChan c f).time = s.time := rfl
@[simp] theorem State.modChan_pkg (s : State) (c : Nat) (f : Channel → Channel) : (s.modChan c f).pkg = s.pkg := rfl
@[simp] theorem State.modChan_fw (s : State) (c : Nat) (f : Channel → Channel) : (s.modChan c f).fw = s.fw := rfl
@[simp] theorem State.modChan_sec (s : State) (c : Nat) (f : Channel → Channel) : (s.modChan c f).sec = s.sec := rfl
@[simp] theorem State.modChan_ras (s : State) (c : Nat) (f : Channel → Channel) : (s.modChan c f).ras = s.ras := rfl
@[simp] theorem State.modChan_hif (s : State) (c : Nat) (f : Channel → Channel) : (s.modChan c f).hif = s.hif := rfl
@[simp] theorem State.modChan_fns (s : State) (c : Nat) (f : Channel → Channel) : (s.modChan c f).fns = s.fns := rfl
@[simp] theorem State.modChan_pairs (s : State) (c : Nat) (f : Channel → Channel) : (s.modChan c f).pairs = s.pairs := rfl
@[simp] theorem State.modChan_rrPart (s : State) (c : Nat) (f : Channel → Channel) : (s.modChan c f).rrPart = s.rrPart := rfl
@[simp] theorem State.modChan_rrLast (s : State) (c : Nat) (f : Channel → Channel) : (s.modChan c f).rrLast = s.rrLast := rfl
@[simp] theorem State.modChan_turnLeft (s : State) (c : Nat) (f : Channel → Channel) : (s.modChan c f).turnLeft = s.turnLeft := rfl
@[simp] theorem State.modChan_cmds (s : State) (c : Nat) (f : Channel → Channel) : (s.modChan c f).cmds = s.cmds := rfl
@[simp] theorem State.modChan_nextCid (s : State) (c : Nat) (f : Channel → Channel) : (s.modChan c f).nextCid = s.nextCid := rfl
@[simp] theorem State.modChan_nextAdmit (s : State) (c : Nat) (f : Channel → Channel) : (s.modChan c f).nextAdmit = s.nextAdmit := rfl
@[simp] theorem State.modChan_locks (s : State) (c : Nat) (f : Channel → Channel) : (s.modChan c f).locks = s.locks := rfl
@[simp] theorem State.modChan_parts (s : State) (c : Nat) (f : Channel → Channel) : (s.modChan c f).parts = s.parts := rfl
@[simp] theorem State.modChan_ctxs (s : State) (c : Nat) (f : Channel → Channel) : (s.modChan c f).ctxs = s.ctxs := rfl
@[simp] theorem State.modChan_incarnations (s : State) (c : Nat) (f : Channel → Channel) : (s.modChan c f).incarnations = s.incarnations := rfl
@[simp] theorem State.modChan_streams (s : State) (c : Nat) (f : Channel → Channel) : (s.modChan c f).streams = s.streams := rfl
@[simp] theorem State.modChan_ristretto (s : State) (c : Nat) (f : Channel → Channel) : (s.modChan c f).ristretto = s.ristretto := rfl
@[simp] theorem State.modChan_semaphores (s : State) (c : Nat) (f : Channel → Channel) : (s.modChan c f).semaphores = s.semaphores := rfl
@[simp] theorem State.modChan_atc (s : State) (c : Nat) (f : Channel → Channel) : (s.modChan c f).atc = s.atc := rfl
@[simp] theorem State.modChan_devMode (s : State) (c : Nat) (f : Channel → Channel) : (s.modChan c f).devMode = s.devMode := rfl
@[simp] theorem State.modChan_slm (s : State) (c : Nat) (f : Channel → Channel) : (s.modChan c f).slm = s.slm := rfl
@[simp] theorem State.modChan_mesh (s : State) (c : Nat) (f : Channel → Channel) : (s.modChan c f).mesh = s.mesh := rfl
@[simp] theorem State.modChan_power (s : State) (c : Nat) (f : Channel → Channel) : (s.modChan c f).power = s.power := rfl
@[simp] theorem State.modChan_tests (s : State) (c : Nat) (f : Channel → Channel) : (s.modChan c f).tests = s.tests := rfl
@[simp] theorem State.modChan_out (s : State) (c : Nat) (f : Channel → Channel) : (s.modChan c f).out = s.out := rfl
@[simp] theorem State.modChan_fresh (s : State) (c : Nat) (f : Channel → Channel) : (s.modChan c f).fresh = s.fresh := rfl
@[simp] theorem State.modChan_pending (s : State) (c : Nat) (f : Channel → Channel) : (s.modChan c f).pending = s.pending := rfl

@[simp] theorem State.modPort_time (s : State) (n : Nat) (f : Port → Port) : (s.modPort n f).time = s.time := rfl
@[simp] theorem State.modPort_pkg (s : State) (n : Nat) (f : Port → Port) : (s.modPort n f).pkg = s.pkg := rfl
@[simp] theorem State.modPort_fw (s : State) (n : Nat) (f : Port → Port) : (s.modPort n f).fw = s.fw := rfl
@[simp] theorem State.modPort_sec (s : State) (n : Nat) (f : Port → Port) : (s.modPort n f).sec = s.sec := rfl
@[simp] theorem State.modPort_ras (s : State) (n : Nat) (f : Port → Port) : (s.modPort n f).ras = s.ras := rfl
@[simp] theorem State.modPort_hif (s : State) (n : Nat) (f : Port → Port) : (s.modPort n f).hif = s.hif := rfl
@[simp] theorem State.modPort_fns (s : State) (n : Nat) (f : Port → Port) : (s.modPort n f).fns = s.fns := rfl
@[simp] theorem State.modPort_pairs (s : State) (n : Nat) (f : Port → Port) : (s.modPort n f).pairs = s.pairs := rfl
@[simp] theorem State.modPort_rrPart (s : State) (n : Nat) (f : Port → Port) : (s.modPort n f).rrPart = s.rrPart := rfl
@[simp] theorem State.modPort_rrLast (s : State) (n : Nat) (f : Port → Port) : (s.modPort n f).rrLast = s.rrLast := rfl
@[simp] theorem State.modPort_turnLeft (s : State) (n : Nat) (f : Port → Port) : (s.modPort n f).turnLeft = s.turnLeft := rfl
@[simp] theorem State.modPort_cmds (s : State) (n : Nat) (f : Port → Port) : (s.modPort n f).cmds = s.cmds := rfl
@[simp] theorem State.modPort_nextCid (s : State) (n : Nat) (f : Port → Port) : (s.modPort n f).nextCid = s.nextCid := rfl
@[simp] theorem State.modPort_nextAdmit (s : State) (n : Nat) (f : Port → Port) : (s.modPort n f).nextAdmit = s.nextAdmit := rfl
@[simp] theorem State.modPort_locks (s : State) (n : Nat) (f : Port → Port) : (s.modPort n f).locks = s.locks := rfl
@[simp] theorem State.modPort_parts (s : State) (n : Nat) (f : Port → Port) : (s.modPort n f).parts = s.parts := rfl
@[simp] theorem State.modPort_ctxs (s : State) (n : Nat) (f : Port → Port) : (s.modPort n f).ctxs = s.ctxs := rfl
@[simp] theorem State.modPort_incarnations (s : State) (n : Nat) (f : Port → Port) : (s.modPort n f).incarnations = s.incarnations := rfl
@[simp] theorem State.modPort_streams (s : State) (n : Nat) (f : Port → Port) : (s.modPort n f).streams = s.streams := rfl
@[simp] theorem State.modPort_ristretto (s : State) (n : Nat) (f : Port → Port) : (s.modPort n f).ristretto = s.ristretto := rfl
@[simp] theorem State.modPort_semaphores (s : State) (n : Nat) (f : Port → Port) : (s.modPort n f).semaphores = s.semaphores := rfl
@[simp] theorem State.modPort_atc (s : State) (n : Nat) (f : Port → Port) : (s.modPort n f).atc = s.atc := rfl
@[simp] theorem State.modPort_devMode (s : State) (n : Nat) (f : Port → Port) : (s.modPort n f).devMode = s.devMode := rfl
@[simp] theorem State.modPort_hbm (s : State) (n : Nat) (f : Port → Port) : (s.modPort n f).hbm = s.hbm := rfl
@[simp] theorem State.modPort_slm (s : State) (n : Nat) (f : Port → Port) : (s.modPort n f).slm = s.slm := rfl
@[simp] theorem State.modPort_power (s : State) (n : Nat) (f : Port → Port) : (s.modPort n f).power = s.power := rfl
@[simp] theorem State.modPort_tests (s : State) (n : Nat) (f : Port → Port) : (s.modPort n f).tests = s.tests := rfl
@[simp] theorem State.modPort_out (s : State) (n : Nat) (f : Port → Port) : (s.modPort n f).out = s.out := rfl
@[simp] theorem State.modPort_fresh (s : State) (n : Nat) (f : Port → Port) : (s.modPort n f).fresh = s.fresh := rfl
@[simp] theorem State.modPort_pending (s : State) (n : Nat) (f : Port → Port) : (s.modPort n f).pending = s.pending := rfl

@[simp] theorem State.bump_time (s : State) (n : Nat) : (s.bump n).time = s.time := rfl
@[simp] theorem State.bump_pkg (s : State) (n : Nat) : (s.bump n).pkg = s.pkg := rfl
@[simp] theorem State.bump_fw (s : State) (n : Nat) : (s.bump n).fw = s.fw := rfl
@[simp] theorem State.bump_sec (s : State) (n : Nat) : (s.bump n).sec = s.sec := rfl
@[simp] theorem State.bump_ras (s : State) (n : Nat) : (s.bump n).ras = s.ras := rfl
@[simp] theorem State.bump_hif (s : State) (n : Nat) : (s.bump n).hif = s.hif := rfl
@[simp] theorem State.bump_fns (s : State) (n : Nat) : (s.bump n).fns = s.fns := rfl
@[simp] theorem State.bump_pairs (s : State) (n : Nat) : (s.bump n).pairs = s.pairs := rfl
@[simp] theorem State.bump_rrPart (s : State) (n : Nat) : (s.bump n).rrPart = s.rrPart := rfl
@[simp] theorem State.bump_rrLast (s : State) (n : Nat) : (s.bump n).rrLast = s.rrLast := rfl
@[simp] theorem State.bump_turnLeft (s : State) (n : Nat) : (s.bump n).turnLeft = s.turnLeft := rfl
@[simp] theorem State.bump_cmds (s : State) (n : Nat) : (s.bump n).cmds = s.cmds := rfl
@[simp] theorem State.bump_nextCid (s : State) (n : Nat) : (s.bump n).nextCid = s.nextCid := rfl
@[simp] theorem State.bump_nextAdmit (s : State) (n : Nat) : (s.bump n).nextAdmit = s.nextAdmit := rfl
@[simp] theorem State.bump_locks (s : State) (n : Nat) : (s.bump n).locks = s.locks := rfl
@[simp] theorem State.bump_parts (s : State) (n : Nat) : (s.bump n).parts = s.parts := rfl
@[simp] theorem State.bump_ctxs (s : State) (n : Nat) : (s.bump n).ctxs = s.ctxs := rfl
@[simp] theorem State.bump_incarnations (s : State) (n : Nat) : (s.bump n).incarnations = s.incarnations := rfl
@[simp] theorem State.bump_streams (s : State) (n : Nat) : (s.bump n).streams = s.streams := rfl
@[simp] theorem State.bump_ristretto (s : State) (n : Nat) : (s.bump n).ristretto = s.ristretto := rfl
@[simp] theorem State.bump_semaphores (s : State) (n : Nat) : (s.bump n).semaphores = s.semaphores := rfl
@[simp] theorem State.bump_atc (s : State) (n : Nat) : (s.bump n).atc = s.atc := rfl
@[simp] theorem State.bump_devMode (s : State) (n : Nat) : (s.bump n).devMode = s.devMode := rfl
@[simp] theorem State.bump_hbm (s : State) (n : Nat) : (s.bump n).hbm = s.hbm := rfl
@[simp] theorem State.bump_slm (s : State) (n : Nat) : (s.bump n).slm = s.slm := rfl
@[simp] theorem State.bump_mesh (s : State) (n : Nat) : (s.bump n).mesh = s.mesh := rfl
@[simp] theorem State.bump_power (s : State) (n : Nat) : (s.bump n).power = s.power := rfl
@[simp] theorem State.bump_tests (s : State) (n : Nat) : (s.bump n).tests = s.tests := rfl
@[simp] theorem State.bump_out (s : State) (n : Nat) : (s.bump n).out = s.out := rfl
@[simp] theorem State.bump_pending (s : State) (n : Nat) : (s.bump n).pending = s.pending := rfl

@[simp] theorem State.emit_time (s : State) (o : Out) : (s.emit o).time = s.time := rfl
@[simp] theorem State.emit_pkg (s : State) (o : Out) : (s.emit o).pkg = s.pkg := rfl
@[simp] theorem State.emit_fw (s : State) (o : Out) : (s.emit o).fw = s.fw := rfl
@[simp] theorem State.emit_sec (s : State) (o : Out) : (s.emit o).sec = s.sec := rfl
@[simp] theorem State.emit_ras (s : State) (o : Out) : (s.emit o).ras = s.ras := rfl
@[simp] theorem State.emit_hif (s : State) (o : Out) : (s.emit o).hif = s.hif := rfl
@[simp] theorem State.emit_fns (s : State) (o : Out) : (s.emit o).fns = s.fns := rfl
@[simp] theorem State.emit_pairs (s : State) (o : Out) : (s.emit o).pairs = s.pairs := rfl
@[simp] theorem State.emit_rrPart (s : State) (o : Out) : (s.emit o).rrPart = s.rrPart := rfl
@[simp] theorem State.emit_rrLast (s : State) (o : Out) : (s.emit o).rrLast = s.rrLast := rfl
@[simp] theorem State.emit_turnLeft (s : State) (o : Out) : (s.emit o).turnLeft = s.turnLeft := rfl
@[simp] theorem State.emit_cmds (s : State) (o : Out) : (s.emit o).cmds = s.cmds := rfl
@[simp] theorem State.emit_nextCid (s : State) (o : Out) : (s.emit o).nextCid = s.nextCid := rfl
@[simp] theorem State.emit_nextAdmit (s : State) (o : Out) : (s.emit o).nextAdmit = s.nextAdmit := rfl
@[simp] theorem State.emit_locks (s : State) (o : Out) : (s.emit o).locks = s.locks := rfl
@[simp] theorem State.emit_parts (s : State) (o : Out) : (s.emit o).parts = s.parts := rfl
@[simp] theorem State.emit_ctxs (s : State) (o : Out) : (s.emit o).ctxs = s.ctxs := rfl
@[simp] theorem State.emit_incarnations (s : State) (o : Out) : (s.emit o).incarnations = s.incarnations := rfl
@[simp] theorem State.emit_streams (s : State) (o : Out) : (s.emit o).streams = s.streams := rfl
@[simp] theorem State.emit_ristretto (s : State) (o : Out) : (s.emit o).ristretto = s.ristretto := rfl
@[simp] theorem State.emit_semaphores (s : State) (o : Out) : (s.emit o).semaphores = s.semaphores := rfl
@[simp] theorem State.emit_atc (s : State) (o : Out) : (s.emit o).atc = s.atc := rfl
@[simp] theorem State.emit_devMode (s : State) (o : Out) : (s.emit o).devMode = s.devMode := rfl
@[simp] theorem State.emit_hbm (s : State) (o : Out) : (s.emit o).hbm = s.hbm := rfl
@[simp] theorem State.emit_slm (s : State) (o : Out) : (s.emit o).slm = s.slm := rfl
@[simp] theorem State.emit_mesh (s : State) (o : Out) : (s.emit o).mesh = s.mesh := rfl
@[simp] theorem State.emit_power (s : State) (o : Out) : (s.emit o).power = s.power := rfl
@[simp] theorem State.emit_tests (s : State) (o : Out) : (s.emit o).tests = s.tests := rfl
@[simp] theorem State.emit_fresh (s : State) (o : Out) : (s.emit o).fresh = s.fresh := rfl
@[simp] theorem State.emit_pending (s : State) (o : Out) : (s.emit o).pending = s.pending := rfl

@[simp] theorem State.emits_time (s : State) (l : List Out) : (s.emits l).time = s.time := rfl
@[simp] theorem State.emits_pkg (s : State) (l : List Out) : (s.emits l).pkg = s.pkg := rfl
@[simp] theorem State.emits_fw (s : State) (l : List Out) : (s.emits l).fw = s.fw := rfl
@[simp] theorem State.emits_sec (s : State) (l : List Out) : (s.emits l).sec = s.sec := rfl
@[simp] theorem State.emits_ras (s : State) (l : List Out) : (s.emits l).ras = s.ras := rfl
@[simp] theorem State.emits_hif (s : State) (l : List Out) : (s.emits l).hif = s.hif := rfl
@[simp] theorem State.emits_fns (s : State) (l : List Out) : (s.emits l).fns = s.fns := rfl
@[simp] theorem State.emits_pairs (s : State) (l : List Out) : (s.emits l).pairs = s.pairs := rfl
@[simp] theorem State.emits_rrPart (s : State) (l : List Out) : (s.emits l).rrPart = s.rrPart := rfl
@[simp] theorem State.emits_rrLast (s : State) (l : List Out) : (s.emits l).rrLast = s.rrLast := rfl
@[simp] theorem State.emits_turnLeft (s : State) (l : List Out) : (s.emits l).turnLeft = s.turnLeft := rfl
@[simp] theorem State.emits_cmds (s : State) (l : List Out) : (s.emits l).cmds = s.cmds := rfl
@[simp] theorem State.emits_nextCid (s : State) (l : List Out) : (s.emits l).nextCid = s.nextCid := rfl
@[simp] theorem State.emits_nextAdmit (s : State) (l : List Out) : (s.emits l).nextAdmit = s.nextAdmit := rfl
@[simp] theorem State.emits_locks (s : State) (l : List Out) : (s.emits l).locks = s.locks := rfl
@[simp] theorem State.emits_parts (s : State) (l : List Out) : (s.emits l).parts = s.parts := rfl
@[simp] theorem State.emits_ctxs (s : State) (l : List Out) : (s.emits l).ctxs = s.ctxs := rfl
@[simp] theorem State.emits_incarnations (s : State) (l : List Out) : (s.emits l).incarnations = s.incarnations := rfl
@[simp] theorem State.emits_streams (s : State) (l : List Out) : (s.emits l).streams = s.streams := rfl
@[simp] theorem State.emits_ristretto (s : State) (l : List Out) : (s.emits l).ristretto = s.ristretto := rfl
@[simp] theorem State.emits_semaphores (s : State) (l : List Out) : (s.emits l).semaphores = s.semaphores := rfl
@[simp] theorem State.emits_atc (s : State) (l : List Out) : (s.emits l).atc = s.atc := rfl
@[simp] theorem State.emits_devMode (s : State) (l : List Out) : (s.emits l).devMode = s.devMode := rfl
@[simp] theorem State.emits_hbm (s : State) (l : List Out) : (s.emits l).hbm = s.hbm := rfl
@[simp] theorem State.emits_slm (s : State) (l : List Out) : (s.emits l).slm = s.slm := rfl
@[simp] theorem State.emits_mesh (s : State) (l : List Out) : (s.emits l).mesh = s.mesh := rfl
@[simp] theorem State.emits_power (s : State) (l : List Out) : (s.emits l).power = s.power := rfl
@[simp] theorem State.emits_tests (s : State) (l : List Out) : (s.emits l).tests = s.tests := rfl
@[simp] theorem State.emits_fresh (s : State) (l : List Out) : (s.emits l).fresh = s.fresh := rfl
@[simp] theorem State.emits_pending (s : State) (l : List Out) : (s.emits l).pending = s.pending := rfl

@[simp] theorem State.modFn_fns (s : State) (fn : Fn) (f : FnSt → FnSt) : (s.modFn fn f).fns = s.fns.modify fn.idx f := rfl
@[simp] theorem State.modPart_parts (s : State) (p : PartNo) (f : PartSt → PartSt) :
    (s.modPart p f).parts = s.parts.modify p.val f := rfl
@[simp] theorem State.modCmd_cmds (s : State) (cid : Nat) (f : Cmd → Cmd) :
    (s.modCmd cid f).cmds = s.cmds.map fun c => if c.id == cid then f c else c := rfl
@[simp] theorem State.bump_fresh (s : State) (n : Nat) : (s.bump n).fresh = s.fresh + n := rfl
@[simp] theorem State.emit_out (s : State) (o : Out) : (s.emit o).out = s.out ++ [o] := rfl
@[simp] theorem State.emits_out (s : State) (l : List Out) : (s.emits l).out = s.out ++ l := rfl

/-- An update of an existing function is read back. -/
theorem State.fnAt_modFn (s : State) (fn : Fn) (f : FnSt → FnSt) (h : fn.idx < s.fns.length) :
    (s.modFn fn f).fnAt fn = f (s.fnAt fn) := by
  simp [State.fnAt, List.getD_eq_getElem?_getD, h]

/-- The other functions stay. -/
theorem State.fnAt_modFn_other (s : State) {fn gn : Fn} (f : FnSt → FnSt) (h : fn.idx ≠ gn.idx) :
    (s.modFn fn f).fnAt gn = s.fnAt gn := by
  simp [State.fnAt, List.getD_eq_getElem?_getD, h]

/-- An update of an existing partition is read back. -/
theorem State.part_modPart (s : State) (p : PartNo) (f : PartSt → PartSt) (h : p.val < s.parts.length) :
    (s.modPart p f).part p = f (s.part p) := by
  simp [State.part, List.getD_eq_getElem?_getD, h]

/-- The other partitions stay. -/
theorem State.part_modPart_other (s : State) {p q : PartNo} (f : PartSt → PartSt) (h : p ≠ q) :
    (s.modPart p f).part q = s.part q := by
  have : p.val ≠ q.val := fun e => h (Fin.ext e)
  simp [State.part, List.getD_eq_getElem?_getD, this]

theorem find_cmd_map {l : List Cmd} {cid : Nat} {f : Cmd → Cmd} (hf : ∀ c, (f c).id = c.id) :
    (l.map fun c => if c.id == cid then f c else c).find? (fun c => c.id == cid) = (l.find? fun c => c.id == cid).map f := by
  induction l with
  | nil => rfl
  | cons c l ih =>
    rw [List.map_cons, List.find?_cons, List.find?_cons]
    by_cases h : c.id = cid
    · simp [h, hf]
    · have e : (c.id == cid) = false := by simpa using h
      simp only [e, Bool.false_eq_true, if_false]
      exact ih

theorem find_cmd_map_other {l : List Cmd} {cid d : Nat} {f : Cmd → Cmd} (hf : ∀ c, (f c).id = c.id) (h : cid ≠ d) :
    (l.map fun c => if c.id == cid then f c else c).find? (fun c => c.id == d) = l.find? fun c => c.id == d := by
  induction l with
  | nil => rfl
  | cons c l ih =>
    rw [List.map_cons, List.find?_cons, List.find?_cons, ih]
    by_cases k : c.id = cid
    · simp [k, hf]
      have : (cid == d) = false := by simpa using h
      simp [this]
    · simp [k]

/-- An update of a command that keeps its name is read back. -/
theorem State.cmd_modCmd (s : State) (cid : Nat) (f : Cmd → Cmd) (hf : ∀ c, (f c).id = c.id) :
    (s.modCmd cid f).cmd? cid = (s.cmd? cid).map f := find_cmd_map hf

/-- The other commands stay. -/
theorem State.cmd_modCmd_other (s : State) {cid d : Nat} (f : Cmd → Cmd) (hf : ∀ c, (f c).id = c.id) (h : cid ≠ d) :
    (s.modCmd cid f).cmd? d = s.cmd? d := find_cmd_map_other hf h

end Sys2Proof.Machine
end

