-- ==== Sys2Proof/Laws/Commands.lean ====
section
/-! SUPPORT. How a row that runs a command answers: its effect, its failing check, or nothing where it is not ready; and what the
end of a command leaves. -/

namespace Sys2Proof.Machine

theorem State.onCmd_ok {s : State} {cid : Nat} {ok : Cmd → Bool} {f : Cmd → State} {c : Cmd} (hc : s.cmd? cid = some c)
    (hk : ok c = true) : s.onCmd cid ok f = f c := by
  simp [State.onCmd, hc, hk]

theorem State.onCmd_no {s : State} {cid : Nat} {ok : Cmd → Bool} {f : Cmd → State} {c : Cmd} (hc : s.cmd? cid = some c)
    (hk : ok c = false) : s.onCmd cid ok f = s := by
  simp [State.onCmd, hc, hk]

theorem State.onCmd_none {s : State} {cid : Nat} {ok : Cmd → Bool} {f : Cmd → State} (hc : s.cmd? cid = none) :
    s.onCmd cid ok f = s := by
  simp [State.onCmd, hc]

/-- A ready admin command that passes its checks has its effect. -/
theorem State.admin_ok {s : State} {cid op : Nat} {pick : Cmd → Bool} {chk : Cmd → Option Err} {f : Cmd → State} {c : Cmd}
    (hc : s.cmd? cid = some c) (hr : c.adminReady op = true) (hp : pick c = true) (hd : s.depMet c = true) (hk : chk c = none) :
    s.admin cid op pick chk f = f c := by
  simp [State.admin, State.onCmd, hc, hr, hp, hd, hk]

/-- A ready admin command ends with the error of its first failing check. -/
theorem State.admin_err {s : State} {cid op : Nat} {pick : Cmd → Bool} {chk : Cmd → Option Err} {f : Cmd → State} {c : Cmd} {e : Err}
    (hc : s.cmd? cid = some c) (hr : c.adminReady op = true) (hp : pick c = true) (hd : s.depMet c = true)
    (hk : chk c = some e) :
    s.admin cid op pick chk f = s.fail cid e.st e.cause := by
  simp [State.admin, State.onCmd, hc, hr, hp, hd, hk]

@[simp] theorem State.finish_time (s : State) (cid : Nat) (r : Compl) : (s.finish cid r).time = s.time := rfl
@[simp] theorem State.finish_pkg (s : State) (cid : Nat) (r : Compl) : (s.finish cid r).pkg = s.pkg := rfl
@[simp] theorem State.finish_fw (s : State) (cid : Nat) (r : Compl) : (s.finish cid r).fw = s.fw := rfl
@[simp] theorem State.finish_sec (s : State) (cid : Nat) (r : Compl) : (s.finish cid r).sec = s.sec := rfl
@[simp] theorem State.finish_ras (s : State) (cid : Nat) (r : Compl) : (s.finish cid r).ras = s.ras := rfl
@[simp] theorem State.finish_hif (s : State) (cid : Nat) (r : Compl) : (s.finish cid r).hif = s.hif := rfl
@[simp] theorem State.finish_fns (s : State) (cid : Nat) (r : Compl) : (s.finish cid r).fns = s.fns := rfl
@[simp] theorem State.finish_pairs (s : State) (cid : Nat) (r : Compl) : (s.finish cid r).pairs = s.pairs := rfl
@[simp] theorem State.finish_rrPart (s : State) (cid : Nat) (r : Compl) : (s.finish cid r).rrPart = s.rrPart := rfl
@[simp] theorem State.finish_rrLast (s : State) (cid : Nat) (r : Compl) : (s.finish cid r).rrLast = s.rrLast := rfl
@[simp] theorem State.finish_turnLeft (s : State) (cid : Nat) (r : Compl) : (s.finish cid r).turnLeft = s.turnLeft := rfl
@[simp] theorem State.finish_nextCid (s : State) (cid : Nat) (r : Compl) : (s.finish cid r).nextCid = s.nextCid := rfl
@[simp] theorem State.finish_nextAdmit (s : State) (cid : Nat) (r : Compl) : (s.finish cid r).nextAdmit = s.nextAdmit := rfl
@[simp] theorem State.finish_parts (s : State) (cid : Nat) (r : Compl) : (s.finish cid r).parts = s.parts := rfl
@[simp] theorem State.finish_incarnations (s : State) (cid : Nat) (r : Compl) : (s.finish cid r).incarnations = s.incarnations := rfl
@[simp] theorem State.finish_atc (s : State) (cid : Nat) (r : Compl) : (s.finish cid r).atc = s.atc := rfl
@[simp] theorem State.finish_devMode (s : State) (cid : Nat) (r : Compl) : (s.finish cid r).devMode = s.devMode := rfl
@[simp] theorem State.finish_hbm (s : State) (cid : Nat) (r : Compl) : (s.finish cid r).hbm = s.hbm := rfl
@[simp] theorem State.finish_slm (s : State) (cid : Nat) (r : Compl) : (s.finish cid r).slm = s.slm := rfl
@[simp] theorem State.finish_mesh (s : State) (cid : Nat) (r : Compl) : (s.finish cid r).mesh = s.mesh := rfl
@[simp] theorem State.finish_power (s : State) (cid : Nat) (r : Compl) : (s.finish cid r).power = s.power := rfl
@[simp] theorem State.finish_tests (s : State) (cid : Nat) (r : Compl) : (s.finish cid r).tests = s.tests := rfl
@[simp] theorem State.finish_out (s : State) (cid : Nat) (r : Compl) : (s.finish cid r).out = s.out := rfl
@[simp] theorem State.finish_fresh (s : State) (cid : Nat) (r : Compl) : (s.finish cid r).fresh = s.fresh := rfl
@[simp] theorem State.finish_pending (s : State) (cid : Nat) (r : Compl) : (s.finish cid r).pending = s.pending := rfl

/-- The command that ends is done, with the result it is given (R93, R94). -/
theorem State.finish_cmd (s : State) (cid : Nat) (r : Compl) :
    (s.finish cid r).cmd? cid = (s.cmd? cid).map fun c =>
      { c with phase := .done, status := r.status, count := r.count, stamp := if 2 ≤ statusClass r.status then 0 else r.stamp,
               work := min r.work 0xFFFF, cause := r.cause, run := .idle, spill := 0 } :=
  State.cmd_modCmd _ cid _ fun _ => rfl

/-- The other commands go on. -/
theorem State.finish_cmd_other (s : State) {cid d : Nat} (r : Compl) (h : cid ≠ d) : (s.finish cid r).cmd? d = s.cmd? d :=
  State.cmd_modCmd_other _ _ (fun _ => rfl) h

/-- A command that ends holds no range lock (R107). -/
theorem State.finish_locks (s : State) (cid : Nat) (r : Compl) : ∀ l ∈ (s.finish cid r).locks, l.cid ≠ cid := by
  intro l hl
  have : l ∈ s.locks.filter fun l => l.cid != cid := hl
  simpa using (List.mem_filter.mp this).2

end Sys2Proof.Machine
end

