-- ==== Sys2Proof/Laws/Completion.lean ====
section
/-! SUPPORT. What each operation of Machine/Completion.lean may change: its frame, and that it
keeps the invariant and the fuses. -/

namespace Sys2Proof.Machine

open Sys2Proof.Safety Sys2Proof.Laws

theorem State.answer_only {ls : List Item} {s0 : State} {s : State} {c : Cmd} {d tag : Nat}
    (h0 : changesOnly ls s0 s) (hm : incl [.pHolds, .pAcct, .ports, .peers, .transit, .out] ls = true) : changesOnly ls s0 (State.answer s c d tag) := by
  have hs := @mem_of_incl [.pHolds, .pAcct, .ports, .peers, .transit, .out] ls hm
  unfold State.answer
  try dsimp only
  repeat' (first
    | with_reducible assumption
    | with_reducible intro _
    | with_reducible apply State.sendRouted_only
    | with_reducible apply State.sendList_only
    | with_reducible apply only_getD
    | with_reducible apply only_ite
    | with_reducible apply only_foldl
    | with_reducible apply only_foldl_fst
    | exact incl_trans rfl hm
    | with_reducible exact part_refl
    | with_reducible apply part_ite
    | with_reducible apply part_foldl
    | with_reducible apply only_modPart
    | with_reducible apply part_mk
    | with_reducible apply only_mk
    | exact Or.inr (hs (by decide))
    | with_reducible exact Or.inl rfl
    | with_reducible exact parts_refl
    | (with_reducible refine Or.inl ?_; and_intros <;> with_reducible rfl)
    | exact Or.inl rfl
    | with_reducible refine only_pair (by assumption) ?_
    | dsimp only
    | rw [mk_put]
    | split)

theorem State.answer_keeps {s0 : State} {s : State} {c : Cmd} {d tag : Nat}
    (h0 : keeps s0 s) : keeps s0 (State.answer s c d tag) := by
  unfold State.answer
  try dsimp only
  repeat' (first
    | with_reducible assumption
    | with_reducible intro _
    | with_reducible apply State.sendRouted_keeps
    | with_reducible apply State.sendList_keeps
    | with_reducible apply keeps_getD
    | with_reducible apply keeps_ite
    | with_reducible apply keeps_foldl
    | with_reducible apply keeps_foldl_fst
    | with_reducible exact pKeeps_refl
    | exact pKeeps_new rfl rfl
    | with_reducible apply pKeeps_ite
    | with_reducible apply pKeeps_foldl
    | with_reducible apply keeps_modPart
    | with_reducible apply pKeeps_mk
    | with_reducible exact memKeeps_refl
    | with_reducible apply keeps_mk
    | with_reducible exact id
    | with_reducible exact partsKeep_refl
    | with_reducible exact rasKeep_refl
    | with_reducible exact hbmKeep_refl
    | with_reducible exact pkgKeep_refl
    | with_reducible exact secKeep_refl
    | with_reducible exact namesKeep_refl
    | with_reducible refine keeps_pair (by assumption) ?_
    | dsimp only
    | rw [mk_put]
    | split)

theorem execCompletionPosted_only {ls : List Item} {s0 : State} {post : PostedWrite} {s : State}
    (h0 : changesOnly ls s0 s) (hm : incl [.rasLog, .fns, .pairs, .cmds, .pHolds, .pColls, .pShadows, .pAcct, .atc, .ports, .peers, .transit, .power, .out] ls = true) {d : State} : changesOnly ls s0 (after d (execCompletionPosted post s)) := by
  have hs := @mem_of_incl [.rasLog, .fns, .pairs, .cmds, .pHolds, .pColls, .pShadows, .pAcct, .atc, .ports, .peers, .transit, .power, .out] ls hm
  unfold execCompletionPosted
  unfold after
  try dsimp only
  repeat' (first
    | with_reducible assumption
    | with_reducible intro _
    | with_reducible apply State.post_only
    | with_reducible apply State.answer_only
    | with_reducible apply State.countDone_only
    | with_reducible apply State.completionAnswered_only
    | with_reducible apply State.askCompletion_only
    | with_reducible apply State.forget_only
    | with_reducible apply State.modCmd_only
    | with_reducible apply State.onCmd_only
    | with_reducible apply State.searchDone_only
    | with_reducible apply State.logError_only
    | with_reducible apply State.modPair_only
    | with_reducible apply State.emit_only
    | with_reducible apply only_getD
    | with_reducible apply only_ite
    | exact incl_trans rfl hm
    | with_reducible apply only_mk
    | exact Or.inr (hs (by decide))
    | with_reducible exact Or.inl rfl
    | with_reducible exact parts_refl
    | (with_reducible refine Or.inl ?_; and_intros <;> with_reducible rfl)
    | exact Or.inl rfl
    | with_reducible refine only_pair (by assumption) ?_
    | dsimp only
    | rw [mk_put]
    | split)

theorem execCompletionPosted_keeps {s0 : State} {post : PostedWrite} {s : State} {d : State}
    (h0 : keeps s0 s) : keeps s0 (after d (execCompletionPosted post s)) := by
  unfold execCompletionPosted
  unfold after
  try dsimp only
  repeat' (first
    | with_reducible assumption
    | with_reducible intro _
    | with_reducible apply State.post_keeps
    | with_reducible apply State.answer_keeps
    | with_reducible apply State.countDone_keeps
    | with_reducible apply State.completionAnswered_keeps
    | with_reducible apply State.askCompletion_keeps
    | with_reducible apply State.forget_keeps
    | with_reducible apply State.modCmd_keeps
    | with_reducible apply State.onCmd_keeps
    | with_reducible apply State.searchDone_keeps
    | with_reducible apply State.logError_keeps
    | with_reducible apply State.modPair_keeps
    | with_reducible apply State.emit_keeps
    | with_reducible apply keeps_getD
    | with_reducible apply keeps_ite
    | with_reducible apply keeps_mk
    | with_reducible exact id
    | with_reducible exact partsKeep_refl
    | with_reducible exact rasKeep_refl
    | with_reducible exact hbmKeep_refl
    | with_reducible exact pkgKeep_refl
    | with_reducible exact secKeep_refl
    | with_reducible exact namesKeep_refl
    | exact rfl
    | with_reducible refine keeps_pair (by assumption) ?_
    | dsimp only
    | rw [mk_put]
    | split)

end Sys2Proof.Machine
end

