-- ==== Sys2Proof/Laws/Consolidation.lean ====
section
/-! SUPPORT. What each operation of Machine/Consolidation.lean may change: its frame, and that it
keeps the invariant and the fuses. -/

namespace Sys2Proof.Machine

open Sys2Proof.Safety Sys2Proof.Laws

theorem State.logPoisonMet_only {ls : List Item} {s0 : State} {s : State} {p : PartNo} {k : Coll} {off slot : Nat}
    (h0 : changesOnly ls s0 s) (hm : incl [.rasLog, .fns, .out] ls = true) : changesOnly ls s0 (State.logPoisonMet s p k off slot) := by
  unfold State.logPoisonMet
  try dsimp only
  repeat' first | with_reducible assumption | with_reducible intro _ | with_reducible apply State.log_only

theorem State.logPoisonMet_keeps {s0 : State} {s : State} {p : PartNo} {k : Coll} {off slot : Nat}
    (h0 : keeps s0 s) : keeps s0 (State.logPoisonMet s p k off slot) := by
  unfold State.logPoisonMet
  try dsimp only
  repeat' first | with_reducible assumption | with_reducible intro _ | with_reducible apply State.log_keeps

theorem State.passTargets_only {ls : List Item} {s0 : State} {s : State} {p : PartNo} {k : Coll} {stamp : Nat} {es : List Nat}
    (h0 : changesOnly ls s0 s) (hm : incl [.rasLog, .fns, .slm, .out] ls = true) : changesOnly ls s0 (State.passTargets s p k stamp es).1 := by
  have hs := @mem_of_incl [.rasLog, .fns, .slm, .out] ls hm
  unfold State.passTargets
  try dsimp only
  repeat' (first
    | with_reducible assumption
    | with_reducible intro _
    | with_reducible apply State.reads_only
    | with_reducible apply State.logPoisonMet_only
    | with_reducible apply only_ite
    | with_reducible apply only_ite_fst
    | with_reducible apply only_foldl
    | with_reducible apply only_foldl_fst
    | exact incl_trans rfl hm
    | with_reducible apply only_mk
    | exact Or.inr (hs (by decide))
    | with_reducible exact Or.inl rfl
    | with_reducible exact parts_refl
    | (with_reducible refine Or.inl ?_; and_intros <;> with_reducible rfl)
    | exact Or.inl rfl
    | with_reducible refine only_pair (by assumption) ?_
    | dsimp only
    | rw [mk_put]
    | split)

theorem State.passTargets_keeps {s0 : State} {s : State} {p : PartNo} {k : Coll} {stamp : Nat} {es : List Nat}
    (h0 : keeps s0 s) : keeps s0 (State.passTargets s p k stamp es).1 := by
  unfold State.passTargets
  try dsimp only
  repeat' (first
    | with_reducible assumption
    | with_reducible intro _
    | with_reducible apply State.reads_keeps
    | with_reducible apply State.logPoisonMet_keeps
    | with_reducible apply keeps_ite
    | with_reducible apply keeps_ite_fst
    | with_reducible apply keeps_foldl
    | with_reducible apply keeps_foldl_fst
    | with_reducible apply keeps_mk
    | with_reducible exact id
    | with_reducible exact partsKeep_refl
    | with_reducible exact rasKeep_refl
    | with_reducible exact hbmKeep_refl
    | with_reducible exact pkgKeep_refl
    | with_reducible exact secKeep_refl
    | with_reducible exact namesKeep_refl
    | with_reducible refine keeps_pair (by assumption) ?_
    | dsimp only
    | rw [mk_put]
    | split)

theorem State.passGives_only {ls : List Item} {s0 : State} {s : State} {p : PartNo} {k : Coll} {own : Nat} {t : Target}
    (h0 : changesOnly ls s0 s) (hm : incl [.rasLog, .fns, .slm, .out] ls = true) : changesOnly ls s0 (State.passGives s p k own t).1 := by
  have hs := @mem_of_incl [.rasLog, .fns, .slm, .out] ls hm
  unfold State.passGives
  try dsimp only
  repeat' (first
    | with_reducible assumption
    | with_reducible intro _
    | with_reducible apply State.reads_only
    | with_reducible apply State.logPoisonMet_only
    | with_reducible apply only_ite
    | with_reducible apply only_ite_fst
    | with_reducible apply only_foldl
    | with_reducible apply only_foldl_fst
    | exact incl_trans rfl hm
    | with_reducible apply only_mk
    | exact Or.inr (hs (by decide))
    | with_reducible exact Or.inl rfl
    | with_reducible exact parts_refl
    | (with_reducible refine Or.inl ?_; and_intros <;> with_reducible rfl)
    | exact Or.inl rfl
    | with_reducible refine only_pair (by assumption) ?_
    | dsimp only
    | rw [mk_put]
    | split)

theorem State.passGives_keeps {s0 : State} {s : State} {p : PartNo} {k : Coll} {own : Nat} {t : Target}
    (h0 : keeps s0 s) : keeps s0 (State.passGives s p k own t).1 := by
  unfold State.passGives
  try dsimp only
  repeat' (first
    | with_reducible assumption
    | with_reducible intro _
    | with_reducible apply State.reads_keeps
    | with_reducible apply State.logPoisonMet_keeps
    | with_reducible apply keeps_ite
    | with_reducible apply keeps_ite_fst
    | with_reducible apply keeps_foldl
    | with_reducible apply keeps_foldl_fst
    | with_reducible apply keeps_mk
    | with_reducible exact id
    | with_reducible exact partsKeep_refl
    | with_reducible exact rasKeep_refl
    | with_reducible exact hbmKeep_refl
    | with_reducible exact pkgKeep_refl
    | with_reducible exact secKeep_refl
    | with_reducible exact namesKeep_refl
    | with_reducible refine keeps_pair (by assumption) ?_
    | dsimp only
    | rw [mk_put]
    | split)

theorem State.passVisit_only {ls : List Item} {s0 : State} {s : State} {p : PartNo} {k : Coll} {q : Pass} {x : Nat}
    (h0 : changesOnly ls s0 s) (hm : incl [.rasLog, .fns, .cmds, .pMem, .poison, .slm, .out, .fresh] ls = true) : changesOnly ls s0 (State.passVisit s p k q x).1 := by
  have hs := @mem_of_incl [.rasLog, .fns, .cmds, .pMem, .poison, .slm, .out, .fresh] ls hm
  unfold State.passVisit
  try dsimp only
  repeat' (first
    | with_reducible assumption
    | with_reducible intro _
    | with_reducible apply State.passGives_only
    | with_reducible apply State.bump_only
    | with_reducible apply State.reads_only
    | with_reducible apply State.wrMem_only
    | with_reducible apply State.logPoisonMet_only
    | with_reducible apply State.passTargets_only
    | with_reducible apply only_ite
    | with_reducible apply only_ite_fst
    | with_reducible apply only_foldl
    | with_reducible apply only_foldl_fst
    | exact incl_trans rfl hm
    | with_reducible apply only_mk
    | exact Or.inr (hs (by decide))
    | with_reducible exact Or.inl rfl
    | with_reducible exact parts_refl
    | (with_reducible refine Or.inl ?_; and_intros <;> with_reducible rfl)
    | exact Or.inl rfl
    | with_reducible refine only_pair (by assumption) ?_
    | dsimp only
    | rw [mk_put]
    | split)

theorem State.passVisit_keeps {s0 : State} {s : State} {p : PartNo} {k : Coll} {q : Pass} {x : Nat}
    (h0 : keeps s0 s) : keeps s0 (State.passVisit s p k q x).1 := by
  unfold State.passVisit
  try dsimp only
  repeat' (first
    | with_reducible assumption
    | with_reducible intro _
    | with_reducible apply State.passGives_keeps
    | with_reducible apply State.bump_keeps
    | with_reducible apply State.reads_keeps
    | with_reducible apply State.wrMem_keeps
    | with_reducible apply State.logPoisonMet_keeps
    | with_reducible apply State.passTargets_keeps
    | with_reducible apply keeps_ite
    | with_reducible apply keeps_ite_fst
    | with_reducible apply keeps_foldl
    | with_reducible apply keeps_foldl_fst
    | with_reducible apply keeps_mk
    | with_reducible exact id
    | with_reducible exact partsKeep_refl
    | with_reducible exact rasKeep_refl
    | with_reducible exact hbmKeep_refl
    | with_reducible exact pkgKeep_refl
    | with_reducible exact secKeep_refl
    | with_reducible exact namesKeep_refl
    | with_reducible refine keeps_pair (by assumption) ?_
    | dsimp only
    | rw [mk_put]
    | split)

theorem State.reclaimSlot_only {ls : List Item} {s0 : State} {s : State} {p : PartNo} {k : Coll} {x : Nat}
    (h0 : changesOnly ls s0 s) (hm : incl [.rasLog, .fns, .cmds, .pMem, .pColls, .poison, .slm, .out] ls = true) : changesOnly ls s0 (State.reclaimSlot s p k x) := by
  have hs := @mem_of_incl [.rasLog, .fns, .cmds, .pMem, .pColls, .poison, .slm, .out] ls hm
  unfold State.reclaimSlot
  try dsimp only
  repeat' (first
    | with_reducible assumption
    | with_reducible intro _
    | with_reducible apply State.reads_only
    | with_reducible apply State.wrMem_only
    | with_reducible apply State.logPoisonMet_only
    | with_reducible apply State.idClear_only
    | with_reducible apply State.modCollU_only
    | with_reducible apply only_ite
    | exact incl_trans rfl hm
    | with_reducible apply only_mk
    | exact Or.inr (hs (by decide))
    | with_reducible exact Or.inl rfl
    | with_reducible exact parts_refl
    | (with_reducible refine Or.inl ?_; and_intros <;> with_reducible rfl)
    | exact Or.inl rfl
    | with_reducible refine only_pair (by assumption) ?_
    | dsimp only
    | rw [mk_put]
    | split)

theorem State.reclaimSlot_keeps {s0 : State} {s : State} {p : PartNo} {k : Coll} {x : Nat}
    (h0 : keeps s0 s) : keeps s0 (State.reclaimSlot s p k x) := by
  unfold State.reclaimSlot
  try dsimp only
  repeat' (first
    | with_reducible assumption
    | with_reducible intro _
    | with_reducible apply State.reads_keeps
    | with_reducible apply State.wrMem_keeps
    | with_reducible apply State.logPoisonMet_keeps
    | with_reducible apply State.idClear_keeps
    | with_reducible apply State.modCollU_keeps
    | with_reducible apply keeps_ite
    | with_reducible apply keeps_mk
    | with_reducible exact id
    | with_reducible exact partsKeep_refl
    | with_reducible exact rasKeep_refl
    | with_reducible exact hbmKeep_refl
    | with_reducible exact pkgKeep_refl
    | with_reducible exact secKeep_refl
    | with_reducible exact namesKeep_refl
    | with_reducible refine keeps_pair (by assumption) ?_
    | dsimp only
    | rw [mk_put]
    | split)

theorem State.reclaimEligible_only {ls : List Item} {s0 : State} {s : State} {p : PartNo} {k : Coll}
    (h0 : changesOnly ls s0 s) (hm : incl [.rasLog, .fns, .cmds, .pMem, .pColls, .poison, .slm, .out] ls = true) : changesOnly ls s0 (State.reclaimEligible s p k) := by
  have hs := @mem_of_incl [.rasLog, .fns, .cmds, .pMem, .pColls, .poison, .slm, .out] ls hm
  unfold State.reclaimEligible
  try dsimp only
  repeat' (first
    | with_reducible assumption
    | with_reducible intro _
    | with_reducible apply State.reclaimSlot_only
    | with_reducible apply only_foldl
    | with_reducible apply only_foldl_fst
    | exact incl_trans rfl hm
    | with_reducible apply only_mk
    | exact Or.inr (hs (by decide))
    | with_reducible exact Or.inl rfl
    | with_reducible exact parts_refl
    | (with_reducible refine Or.inl ?_; and_intros <;> with_reducible rfl)
    | exact Or.inl rfl
    | with_reducible refine only_pair (by assumption) ?_
    | dsimp only
    | rw [mk_put]
    | split)

theorem State.reclaimEligible_keeps {s0 : State} {s : State} {p : PartNo} {k : Coll}
    (h0 : keeps s0 s) : keeps s0 (State.reclaimEligible s p k) := by
  unfold State.reclaimEligible
  try dsimp only
  repeat' (first
    | with_reducible assumption
    | with_reducible intro _
    | with_reducible apply State.reclaimSlot_keeps
    | with_reducible apply keeps_foldl
    | with_reducible apply keeps_foldl_fst
    | with_reducible apply keeps_mk
    | with_reducible exact id
    | with_reducible exact partsKeep_refl
    | with_reducible exact rasKeep_refl
    | with_reducible exact hbmKeep_refl
    | with_reducible exact pkgKeep_refl
    | with_reducible exact secKeep_refl
    | with_reducible exact namesKeep_refl
    | with_reducible refine keeps_pair (by assumption) ?_
    | dsimp only
    | rw [mk_put]
    | split)

theorem State.beginPass_only {ls : List Item} {s0 : State} {s : State} {p : PartNo} {k : Coll} {rewire : Bool} {alpha : Nat} {cid : Option Nat}
    (h0 : changesOnly ls s0 s) (hm : incl [.time, .pColls] ls = true) : changesOnly ls s0 (State.beginPass s p k rewire alpha cid) := by
  unfold State.beginPass
  try dsimp only
  repeat' (first
    | with_reducible assumption
    | with_reducible intro _
    | with_reducible apply State.issued_only
    | with_reducible apply State.modCollU_only
    | exact incl_trans rfl hm)

theorem State.beginPass_keeps {s0 : State} {s : State} {p : PartNo} {k : Coll} {rewire : Bool} {alpha : Nat} {cid : Option Nat}
    (h0 : keeps s0 s) : keeps s0 (State.beginPass s p k rewire alpha cid) := by
  unfold State.beginPass
  try dsimp only
  repeat' (first
    | with_reducible assumption
    | with_reducible intro _
    | with_reducible apply State.issued_keeps
    | with_reducible apply State.modCollU_keeps)

theorem State.passMake_only {ls : List Item} {s0 : State} {s : State} {p : PartNo} {k : Coll}
    (h0 : changesOnly ls s0 s) (hm : incl [.clusters, .cmds, .nextCid] ls = true) : changesOnly ls s0 (State.passMake s p k) := by
  unfold State.passMake
  try dsimp only
  repeat' (first
    | with_reducible assumption
    | with_reducible intro _
    | with_reducible apply State.addCmd_only
    | with_reducible apply State.ungate_only
    | with_reducible apply only_ite
    | exact incl_trans rfl hm)

theorem State.passMake_keeps {s0 : State} {s : State} {p : PartNo} {k : Coll}
    (h0 : keeps s0 s) : keeps s0 (State.passMake s p k) := by
  unfold State.passMake
  try dsimp only
  repeat' (first
    | with_reducible assumption
    | with_reducible intro _
    | with_reducible apply State.addCmd_keeps
    | with_reducible apply State.ungate_keeps
    | with_reducible apply keeps_ite)

theorem State.passDrop_only {ls : List Item} {s0 : State} {s : State} {p : PartNo} {k : Coll}
    (h0 : changesOnly ls s0 s) (hm : incl [.cmds, .locks, .pColls, .ctxs, .streams, .ristretto, .semaphores] ls = true) : changesOnly ls s0 (State.passDrop s p k) := by
  have hs := @mem_of_incl [.cmds, .locks, .pColls, .ctxs, .streams, .ristretto, .semaphores] ls hm
  unfold State.passDrop
  try dsimp only
  repeat' (first
    | with_reducible assumption
    | with_reducible intro _
    | with_reducible apply State.drop_only
    | exact incl_trans rfl hm
    | with_reducible apply only_mk
    | exact Or.inr (hs (by decide))
    | with_reducible exact Or.inl rfl
    | with_reducible exact parts_refl
    | (with_reducible refine Or.inl ?_; and_intros <;> with_reducible rfl)
    | exact Or.inl rfl
    | with_reducible refine only_pair (by assumption) ?_
    | dsimp only
    | rw [mk_put]
    | split)

theorem State.passDrop_keeps {s0 : State} {s : State} {p : PartNo} {k : Coll}
    (h0 : keeps s0 s) : keeps s0 (State.passDrop s p k) := by
  unfold State.passDrop
  try dsimp only
  repeat' (first
    | with_reducible assumption
    | with_reducible intro _
    | with_reducible apply State.drop_keeps
    | with_reducible apply keeps_mk
    | with_reducible exact id
    | with_reducible exact partsKeep_refl
    | with_reducible exact rasKeep_refl
    | with_reducible exact hbmKeep_refl
    | with_reducible exact pkgKeep_refl
    | with_reducible exact secKeep_refl
    | with_reducible exact namesKeep_refl
    | with_reducible refine keeps_pair (by assumption) ?_
    | dsimp only
    | rw [mk_put]
    | split)

theorem State.endPass_only {ls : List Item} {s0 : State} {s : State} {p : PartNo} {k : Coll} {q : Pass}
    (h0 : changesOnly ls s0 s) (hm : incl [.rasLog, .fns, .cmds, .locks, .pMem, .pColls, .ctxs, .streams, .ristretto, .semaphores, .poison, .slm, .out] ls = true) : changesOnly ls s0 (State.endPass s p k q) := by
  have hs := @mem_of_incl [.rasLog, .fns, .cmds, .locks, .pMem, .pColls, .ctxs, .streams, .ristretto, .semaphores, .poison, .slm, .out] ls hm
  unfold State.endPass
  try dsimp only
  repeat' (first
    | with_reducible assumption
    | with_reducible intro _
    | with_reducible apply State.passDrop_only
    | with_reducible apply State.reclaimEligible_only
    | with_reducible apply State.finish_only
    | with_reducible apply State.modCollU_only
    | exact incl_trans rfl hm
    | with_reducible apply only_mk
    | exact Or.inr (hs (by decide))
    | with_reducible exact Or.inl rfl
    | with_reducible exact parts_refl
    | (with_reducible refine Or.inl ?_; and_intros <;> with_reducible rfl)
    | exact Or.inl rfl
    | with_reducible refine only_pair (by assumption) ?_
    | dsimp only
    | rw [mk_put]
    | split)

theorem State.endPass_keeps {s0 : State} {s : State} {p : PartNo} {k : Coll} {q : Pass}
    (h0 : keeps s0 s) : keeps s0 (State.endPass s p k q) := by
  unfold State.endPass
  try dsimp only
  repeat' (first
    | with_reducible assumption
    | with_reducible intro _
    | with_reducible apply State.passDrop_keeps
    | with_reducible apply State.reclaimEligible_keeps
    | with_reducible apply State.finish_keeps
    | with_reducible apply State.modCollU_keeps
    | with_reducible apply keeps_mk
    | with_reducible exact id
    | with_reducible exact partsKeep_refl
    | with_reducible exact rasKeep_refl
    | with_reducible exact hbmKeep_refl
    | with_reducible exact pkgKeep_refl
    | with_reducible exact secKeep_refl
    | with_reducible exact namesKeep_refl
    | with_reducible refine keeps_pair (by assumption) ?_
    | dsimp only
    | rw [mk_put]
    | split)

theorem State.runStep_only {ls : List Item} {s0 : State} {s : State} {p : PartNo} {k : Coll} {q : Pass}
    (h0 : changesOnly ls s0 s) (hm : incl [.rasLog, .fns, .cmds, .locks, .pMem, .pColls, .ctxs, .streams, .ristretto, .semaphores, .poison, .slm, .out, .fresh] ls = true) : changesOnly ls s0 (State.runStep s p k q) := by
  have hs := @mem_of_incl [.rasLog, .fns, .cmds, .locks, .pMem, .pColls, .ctxs, .streams, .ristretto, .semaphores, .poison, .slm, .out, .fresh] ls hm
  unfold State.runStep
  try dsimp only
  repeat' (first
    | with_reducible assumption
    | with_reducible intro _
    | with_reducible apply State.endPass_only
    | with_reducible apply State.passVisit_only
    | with_reducible apply State.modCollU_only
    | with_reducible apply only_ite
    | with_reducible apply only_foldl
    | with_reducible apply only_foldl_fst
    | exact incl_trans rfl hm
    | with_reducible apply only_mk
    | exact Or.inr (hs (by decide))
    | with_reducible exact Or.inl rfl
    | with_reducible exact parts_refl
    | (with_reducible refine Or.inl ?_; and_intros <;> with_reducible rfl)
    | exact Or.inl rfl
    | with_reducible refine only_pair (by assumption) ?_
    | dsimp only
    | rw [mk_put]
    | split)

theorem State.runStep_keeps {s0 : State} {s : State} {p : PartNo} {k : Coll} {q : Pass}
    (h0 : keeps s0 s) : keeps s0 (State.runStep s p k q) := by
  unfold State.runStep
  try dsimp only
  repeat' (first
    | with_reducible assumption
    | with_reducible intro _
    | with_reducible apply State.endPass_keeps
    | with_reducible apply State.passVisit_keeps
    | with_reducible apply State.modCollU_keeps
    | with_reducible apply keeps_ite
    | with_reducible apply keeps_foldl
    | with_reducible apply keeps_foldl_fst
    | with_reducible apply keeps_mk
    | with_reducible exact id
    | with_reducible exact partsKeep_refl
    | with_reducible exact rasKeep_refl
    | with_reducible exact hbmKeep_refl
    | with_reducible exact pkgKeep_refl
    | with_reducible exact secKeep_refl
    | with_reducible exact namesKeep_refl
    | with_reducible refine keeps_pair (by assumption) ?_
    | dsimp only
    | rw [mk_put]
    | split)

end Sys2Proof.Machine
end

