-- ==== Sys2Proof/Laws/EmbOps.lean ====
section
/-! SUPPORT. What each operation of Machine/EmbOps.lean may change: its frame, and that it
keeps the invariant and the fuses. -/

namespace Sys2Proof.Machine

open Sys2Proof.Safety Sys2Proof.Laws

theorem State.accessRow_only {ls : List Item} {s0 : State} {s : State} {p : PartNo} {k : Coll} {row : Nat}
    (h0 : changesOnly ls s0 s) (hm : incl [.pHot] ls = true) : changesOnly ls s0 (State.accessRow s p k row) := by
  have hs := @mem_of_incl [.pHot] ls hm
  unfold State.accessRow
  try dsimp only
  repeat' (first
    | with_reducible assumption
    | with_reducible intro _
    | with_reducible apply only_ite
    | exact incl_trans rfl hm
    | with_reducible exact part_refl
    | with_reducible apply part_ite
    | with_reducible apply only_modPart
    | with_reducible apply part_mk
    | with_reducible apply only_mk
    | exact Or.inr (hs (by decide))
    | with_reducible exact Or.inl rfl
    | with_reducible exact parts_refl
    | (with_reducible refine Or.inl ?_; and_intros <;> with_reducible rfl))

theorem State.accessRow_keeps {s0 : State} {s : State} {p : PartNo} {k : Coll} {row : Nat}
    (h0 : keeps s0 s) : keeps s0 (State.accessRow s p k row) := by
  unfold State.accessRow
  try dsimp only
  repeat' (first
    | with_reducible assumption
    | with_reducible intro _
    | with_reducible apply keeps_ite
    | with_reducible exact pKeeps_refl
    | exact pKeeps_new rfl rfl
    | with_reducible apply pKeeps_ite
    | with_reducible apply keeps_modPart
    | with_reducible apply pKeeps_mk
    | with_reducible exact memKeeps_refl)

theorem State.accessRows_only {ls : List Item} {s0 : State} {s : State} {p : PartNo} {k : Coll} {rows : List Nat}
    (h0 : changesOnly ls s0 s) (hm : incl [.pColls, .pHot] ls = true) : changesOnly ls s0 (State.accessRows s p k rows) := by
  unfold State.accessRows
  try dsimp only
  repeat' (first
    | with_reducible assumption
    | with_reducible intro _
    | with_reducible apply State.accessRow_only
    | with_reducible apply State.modCollU_only
    | with_reducible apply only_ite
    | with_reducible apply only_foldl
    | with_reducible apply only_foldl_fst
    | exact incl_trans rfl hm)

theorem State.accessRows_keeps {s0 : State} {s : State} {p : PartNo} {k : Coll} {rows : List Nat}
    (h0 : keeps s0 s) : keeps s0 (State.accessRows s p k rows) := by
  unfold State.accessRows
  try dsimp only
  repeat' (first
    | with_reducible assumption
    | with_reducible intro _
    | with_reducible apply State.accessRow_keeps
    | with_reducible apply State.modCollU_keeps
    | with_reducible apply keeps_ite
    | with_reducible apply keeps_foldl)

theorem State.gathered_only {ls : List Item} {s0 : State} {s : State} {cid : Nat} {p : PartNo} {k : Coll} {rows : List Nat} {next : State} (hnext : changesOnly ls s0 next)
    (h0 : changesOnly ls s0 s) (hm : incl [.rasLog, .fns, .cmds, .locks, .pMem, .pColls, .pAcct, .ctxs, .streams, .ristretto, .semaphores, .poison, .slm, .ports, .peers, .transit, .out, .fresh] ls = true) : changesOnly ls s0 (State.gathered s cid p k rows next) := by
  have hs := @mem_of_incl [.rasLog, .fns, .cmds, .locks, .pMem, .pColls, .pAcct, .ctxs, .streams, .ristretto, .semaphores, .poison, .slm, .ports, .peers, .transit, .out, .fresh] ls hm
  unfold State.gathered
  try dsimp only
  repeat' (first
    | with_reducible assumption
    | with_reducible intro _
    | with_reducible apply State.touch_only
    | with_reducible apply State.tearDown_only
    | with_reducible apply only_getD
    | with_reducible apply only_ite
    | exact incl_trans rfl hm
    | with_reducible apply only_mk
    | exact Or.inr (hs (by decide))
    | with_reducible exact Or.inl rfl
    | with_reducible exact parts_refl
    | (with_reducible refine Or.inl ?_; and_intros <;> with_reducible rfl)
    | exact Or.inl rfl
    | with_reducible refine only_pair (by assumption) ?_
    | dsimp only
    | rw [mk_put]
    | split)

theorem State.gathered_keeps {s0 : State} {s : State} {cid : Nat} {p : PartNo} {k : Coll} {rows : List Nat} {next : State} (hnext : keeps s0 next)
    (h0 : keeps s0 s) : keeps s0 (State.gathered s cid p k rows next) := by
  unfold State.gathered
  try dsimp only
  repeat' (first
    | with_reducible assumption
    | with_reducible intro _
    | with_reducible apply State.touch_keeps
    | with_reducible apply State.tearDown_keeps
    | with_reducible apply keeps_getD
    | with_reducible apply keeps_ite
    | with_reducible apply keeps_mk
    | with_reducible exact id
    | with_reducible exact partsKeep_refl
    | with_reducible exact rasKeep_refl
    | with_reducible exact hbmKeep_refl
    | with_reducible exact pkgKeep_refl
    | with_reducible exact secKeep_refl
    | with_reducible exact namesKeep_refl
    | with_reducible refine keeps_pair (by assumption) ?_
    | dsimp only
    | rw [mk_put]
    | split)

theorem State.hotCopy_only {ls : List Item} {s0 : State} {s : State} {p : PartNo} {k : Coll} {row : Nat}
    (h0 : changesOnly ls s0 s) (hm : incl [.rasLog, .fns, .pScratch, .slm, .out] ls = true) : changesOnly ls s0 (State.hotCopy s p k row) := by
  have hs := @mem_of_incl [.rasLog, .fns, .pScratch, .slm, .out] ls hm
  unfold State.hotCopy
  try dsimp only
  repeat' (first
    | with_reducible assumption
    | with_reducible intro _
    | with_reducible apply State.reads_only
    | with_reducible apply State.writeUse_only
    | with_reducible apply only_ite
    | with_reducible apply only_foldl
    | with_reducible apply only_foldl_fst
    | exact incl_trans rfl hm
    | with_reducible exact part_refl
    | with_reducible apply part_ite
    | with_reducible apply part_foldl
    | with_reducible apply only_modPart
    | with_reducible apply part_mk
    | with_reducible apply only_mk
    | exact Or.inr (hs (by decide))
    | with_reducible exact Or.inl rfl
    | with_reducible exact parts_refl
    | (with_reducible refine Or.inl ?_; and_intros <;> with_reducible rfl)
    | exact Or.inl rfl
    | with_reducible refine only_pair (by assumption) ?_
    | dsimp only
    | rw [mk_put]
    | split)

theorem State.hotCopy_keeps {s0 : State} {s : State} {p : PartNo} {k : Coll} {row : Nat}
    (h0 : keeps s0 s) : keeps s0 (State.hotCopy s p k row) := by
  unfold State.hotCopy
  try dsimp only
  repeat' (first
    | with_reducible assumption
    | with_reducible intro _
    | with_reducible apply State.reads_keeps
    | with_reducible apply State.writeUse_keeps
    | with_reducible apply keeps_ite
    | with_reducible apply keeps_foldl
    | with_reducible apply keeps_foldl_fst
    | with_reducible exact pKeeps_refl
    | exact pKeeps_new rfl rfl
    | with_reducible apply pKeeps_ite
    | with_reducible apply pKeeps_foldl
    | with_reducible apply keeps_modPart
    | with_reducible apply pKeeps_mk
    | with_reducible exact memKeeps_refl
    | with_reducible apply keeps_mk
    | with_reducible exact id
    | with_reducible exact partsKeep_refl
    | with_reducible exact rasKeep_refl
    | with_reducible exact hbmKeep_refl
    | with_reducible exact pkgKeep_refl
    | with_reducible exact secKeep_refl
    | with_reducible exact namesKeep_refl
    | with_reducible refine keeps_pair (by assumption) ?_
    | dsimp only
    | rw [mk_put]
    | split)

theorem State.placeHot_only {ls : List Item} {s0 : State} {s : State} {p : PartNo} {uid : Nat}
    (h0 : changesOnly ls s0 s) (hm : incl [.rasLog, .fns, .pScratch, .pUses, .slm, .out] ls = true) : changesOnly ls s0 (State.placeHot s p uid) := by
  have hs := @mem_of_incl [.rasLog, .fns, .pScratch, .pUses, .slm, .out] ls hm
  unfold State.placeHot
  try dsimp only
  repeat' (first
    | with_reducible assumption
    | with_reducible intro _
    | with_reducible apply State.hotCopy_only
    | with_reducible apply State.useScratch_only
    | with_reducible apply only_foldl
    | with_reducible apply only_foldl_fst
    | exact incl_trans rfl hm
    | with_reducible apply only_mk
    | exact Or.inr (hs (by decide))
    | with_reducible exact Or.inl rfl
    | with_reducible exact parts_refl
    | (with_reducible refine Or.inl ?_; and_intros <;> with_reducible rfl)
    | exact Or.inl rfl
    | with_reducible refine only_pair (by assumption) ?_
    | dsimp only
    | rw [mk_put]
    | split)

theorem State.placeHot_keeps {s0 : State} {s : State} {p : PartNo} {uid : Nat}
    (h0 : keeps s0 s) : keeps s0 (State.placeHot s p uid) := by
  unfold State.placeHot
  try dsimp only
  repeat' (first
    | with_reducible assumption
    | with_reducible intro _
    | with_reducible apply State.hotCopy_keeps
    | with_reducible apply State.useScratch_keeps
    | with_reducible apply keeps_foldl
    | with_reducible apply keeps_foldl_fst
    | with_reducible apply keeps_mk
    | with_reducible exact id
    | with_reducible exact partsKeep_refl
    | with_reducible exact rasKeep_refl
    | with_reducible exact hbmKeep_refl
    | with_reducible exact pkgKeep_refl
    | with_reducible exact secKeep_refl
    | with_reducible exact namesKeep_refl
    | with_reducible refine keeps_pair (by assumption) ?_
    | dsimp only
    | rw [mk_put]
    | split)

theorem State.applyRow_only {ls : List Item} {s0 : State} {s : State} {p : PartNo} {k : Coll} {param : Bytes} {cid : Option Nat} {seed : Nat} {r : RowSum}
    (h0 : changesOnly ls s0 s) (hm : incl [.rasLog, .fns, .cmds, .pMem, .pScratch, .pColls, .pHot, .poison, .slm, .out] ls = true) : changesOnly ls s0 (State.applyRow s p k param cid seed r).1 := by
  have hs := @mem_of_incl [.rasLog, .fns, .cmds, .pMem, .pScratch, .pColls, .pHot, .poison, .slm, .out] ls hm
  unfold State.applyRow
  try dsimp only
  repeat' (first
    | with_reducible assumption
    | with_reducible intro _
    | with_reducible apply State.hotCopy_only
    | with_reducible apply State.reads_only
    | with_reducible apply State.wrMem_only
    | with_reducible apply State.log_only
    | with_reducible apply State.modCollU_only
    | with_reducible apply State.logLate_only
    | with_reducible apply State.accessRows_only
    | with_reducible apply only_ite
    | with_reducible apply only_ite_fst
    | exact incl_trans rfl hm
    | with_reducible apply only_mk
    | exact Or.inr (hs (by decide))
    | with_reducible exact Or.inl rfl
    | with_reducible exact parts_refl
    | (with_reducible refine Or.inl ?_; and_intros <;> with_reducible rfl)
    | exact Or.inl rfl
    | with_reducible refine only_pair (by assumption) ?_
    | dsimp only
    | rw [mk_put]
    | split)

theorem State.applyRow_keeps {s0 : State} {s : State} {p : PartNo} {k : Coll} {param : Bytes} {cid : Option Nat} {seed : Nat} {r : RowSum}
    (h0 : keeps s0 s) : keeps s0 (State.applyRow s p k param cid seed r).1 := by
  unfold State.applyRow
  try dsimp only
  repeat' (first
    | with_reducible assumption
    | with_reducible intro _
    | with_reducible apply State.hotCopy_keeps
    | with_reducible apply State.reads_keeps
    | with_reducible apply State.wrMem_keeps
    | with_reducible apply State.log_keeps
    | with_reducible apply State.modCollU_keeps
    | with_reducible apply State.logLate_keeps
    | with_reducible apply State.accessRows_keeps
    | with_reducible apply keeps_ite
    | with_reducible apply keeps_ite_fst
    | with_reducible apply keeps_mk
    | with_reducible exact id
    | with_reducible exact partsKeep_refl
    | with_reducible exact rasKeep_refl
    | with_reducible exact hbmKeep_refl
    | with_reducible exact pkgKeep_refl
    | with_reducible exact secKeep_refl
    | with_reducible exact namesKeep_refl
    | with_reducible refine keeps_pair (by assumption) ?_
    | dsimp only
    | rw [mk_put]
    | split)

theorem State.applyRows_only {ls : List Item} {s0 : State} {s : State} {p : PartNo} {k : Coll} {param : Bytes} {cid : Option Nat} {st : Nat} {rows : List RowSum}
    (h0 : changesOnly ls s0 s) (hm : incl [.time, .rasLog, .fns, .cmds, .pMem, .pScratch, .pColls, .pHot, .poison, .slm, .out, .fresh] ls = true) : changesOnly ls s0 (State.applyRows s p k param cid st rows).1 := by
  unfold State.applyRows
  try dsimp only
  repeat' (first
    | with_reducible assumption
    | with_reducible intro _
    | with_reducible apply State.bump_only
    | with_reducible apply State.applyRow_only
    | with_reducible apply State.issued_only
    | with_reducible apply only_ite
    | with_reducible apply only_ite_fst
    | with_reducible apply only_foldl
    | with_reducible apply only_foldl_fst
    | exact incl_trans rfl hm)

theorem State.applyRows_keeps {s0 : State} {s : State} {p : PartNo} {k : Coll} {param : Bytes} {cid : Option Nat} {st : Nat} {rows : List RowSum}
    (h0 : keeps s0 s) : keeps s0 (State.applyRows s p k param cid st rows).1 := by
  unfold State.applyRows
  try dsimp only
  repeat' (first
    | with_reducible assumption
    | with_reducible intro _
    | with_reducible apply State.bump_keeps
    | with_reducible apply State.applyRow_keeps
    | with_reducible apply State.issued_keeps
    | with_reducible apply keeps_ite
    | with_reducible apply keeps_ite_fst
    | with_reducible apply keeps_foldl
    | with_reducible apply keeps_foldl_fst)

end Sys2Proof.Machine
end

