-- ==== Sys2Proof/Laws/Tables.lean ====
section
/-! SUPPORT. What each operation of Machine/Tables.lean may change: its frame, and that it
keeps the invariant and the fuses. -/

namespace Sys2Proof.Machine

open Sys2Proof.Safety Sys2Proof.Laws

theorem State.toDevice_only {ls : List Item} {s0 : State} {s : State} {p : PartNo} {d tag : Nat} {body : CmdBody} {aux : Nat}
    (h0 : changesOnly ls s0 s) (hm : incl [.pAcct, .ports, .peers, .transit, .out] ls = true) : changesOnly ls s0 (State.toDevice s p d tag body aux) := by
  unfold State.toDevice
  try dsimp only
  repeat' first | with_reducible assumption | with_reducible intro _ | with_reducible apply State.sendRouted_only

theorem State.toDevice_keeps {s0 : State} {s : State} {p : PartNo} {d tag : Nat} {body : CmdBody} {aux : Nat}
    (h0 : keeps s0 s) : keeps s0 (State.toDevice s p d tag body aux) := by
  unfold State.toDevice
  try dsimp only
  repeat' first | with_reducible assumption | with_reducible intro _ | with_reducible apply State.sendRouted_keeps

theorem State.toMember_only {ls : List Item} {s0 : State} {s : State} {p : PartNo} {k : Coll} {m : Nat} {body : CmdBody} {tag : Nat} {aux : Nat}
    (h0 : changesOnly ls s0 s) (hm : incl [.pAcct, .ports, .peers, .transit, .out] ls = true) : changesOnly ls s0 (State.toMember s p k m body tag aux) := by
  unfold State.toMember
  try dsimp only
  repeat' first | with_reducible assumption | with_reducible intro _ | with_reducible apply State.toDevice_only

theorem State.toMember_keeps {s0 : State} {s : State} {p : PartNo} {k : Coll} {m : Nat} {body : CmdBody} {tag : Nat} {aux : Nat}
    (h0 : keeps s0 s) : keeps s0 (State.toMember s p k m body tag aux) := by
  unfold State.toMember
  try dsimp only
  repeat' first | with_reducible assumption | with_reducible intro _ | with_reducible apply State.toDevice_keeps

theorem State.toOthers_only {ls : List Item} {s0 : State} {s : State} {p : PartNo} {k : Coll} {body : CmdBody} {tag : Nat} {aux : Nat}
    (h0 : changesOnly ls s0 s) (hm : incl [.pAcct, .ports, .peers, .transit, .out] ls = true) : changesOnly ls s0 (State.toOthers s p k body tag aux) := by
  unfold State.toOthers
  try dsimp only
  repeat' (first
    | with_reducible assumption
    | with_reducible intro _
    | with_reducible apply State.toDevice_only
    | with_reducible apply only_foldl)

theorem State.toOthers_keeps {s0 : State} {s : State} {p : PartNo} {k : Coll} {body : CmdBody} {tag : Nat} {aux : Nat}
    (h0 : keeps s0 s) : keeps s0 (State.toOthers s p k body tag aux) := by
  unfold State.toOthers
  try dsimp only
  repeat' (first
    | with_reducible assumption
    | with_reducible intro _
    | with_reducible apply State.toDevice_keeps
    | with_reducible apply keeps_foldl)

theorem State.replyTo_only {ls : List Item} {s0 : State} {s : State} {p : PartNo} {d tag : Nat} {body : ResultBody}
    (h0 : changesOnly ls s0 s) (hm : incl [.pAcct, .ports, .peers, .transit, .out] ls = true) : changesOnly ls s0 (State.replyTo s p d tag body) := by
  unfold State.replyTo
  try dsimp only
  repeat' first | with_reducible assumption | with_reducible intro _ | with_reducible apply State.sendRouted_only

theorem State.replyTo_keeps {s0 : State} {s : State} {p : PartNo} {d tag : Nat} {body : ResultBody}
    (h0 : keeps s0 s) : keeps s0 (State.replyTo s p d tag body) := by
  unfold State.replyTo
  try dsimp only
  repeat' first | with_reducible assumption | with_reducible intro _ | with_reducible apply State.sendRouted_keeps

theorem State.modTm_only {ls : List Item} {s0 : State} {s : State} {p : PartNo} {uid : Nat} {f : TableMesh → TableMesh}
    (h0 : changesOnly ls s0 s) (hm : incl [.pColls] ls = true) : changesOnly ls s0 (State.modTm s p uid f) := by
  unfold State.modTm
  try dsimp only
  repeat' first | with_reducible assumption | with_reducible intro _ | with_reducible apply State.modCollU_only

theorem State.modTm_keeps {s0 : State} {s : State} {p : PartNo} {uid : Nat} {f : TableMesh → TableMesh}
    (h0 : keeps s0 s) : keeps s0 (State.modTm s p uid f) := by
  unfold State.modTm
  try dsimp only
  repeat' first | with_reducible assumption | with_reducible intro _ | with_reducible apply State.modCollU_keeps

theorem State.serveLookup_only {ls : List Item} {s0 : State} {s : State} {p : PartNo} {k : Coll} {src tag requester : Nat} {shares : List Share} {pool : Nat} {stamp : Nat}
    (h0 : changesOnly ls s0 s) (hm : incl [.time, .pColls, .pAcct, .pHot, .slm, .ports, .peers, .transit, .out] ls = true) : changesOnly ls s0 (State.serveLookup s p k src tag requester shares pool stamp) := by
  unfold State.serveLookup
  try dsimp only
  repeat' (first
    | with_reducible assumption
    | with_reducible intro _
    | with_reducible apply State.touch_only
    | with_reducible apply State.replyTo_only
    | with_reducible apply State.toDevice_only
    | with_reducible apply State.issued_only
    | with_reducible apply State.accessRows_only
    | with_reducible apply only_ite
    | with_reducible apply only_foldl
    | with_reducible apply only_foldl_fst
    | exact incl_trans rfl hm)

theorem State.serveLookup_keeps {s0 : State} {s : State} {p : PartNo} {k : Coll} {src tag requester : Nat} {shares : List Share} {pool : Nat} {stamp : Nat}
    (h0 : keeps s0 s) : keeps s0 (State.serveLookup s p k src tag requester shares pool stamp) := by
  unfold State.serveLookup
  try dsimp only
  repeat' (first
    | with_reducible assumption
    | with_reducible intro _
    | with_reducible apply State.touch_keeps
    | with_reducible apply State.replyTo_keeps
    | with_reducible apply State.toDevice_keeps
    | with_reducible apply State.issued_keeps
    | with_reducible apply State.accessRows_keeps
    | with_reducible apply keeps_ite
    | with_reducible apply keeps_foldl)

theorem State.lookupEnd_only {ls : List Item} {s0 : State} {s : State} {k : Coll} {c : Cmd} {l : List (List Flt × Nat)}
    (h0 : changesOnly ls s0 s) (hm : incl [.cmds, .locks, .pAcct, .ctxs, .streams, .ristretto, .semaphores, .out] ls = true) : changesOnly ls s0 (State.lookupEnd s k c l) := by
  unfold State.lookupEnd
  try dsimp only
  repeat' (first
    | with_reducible assumption
    | with_reducible intro _
    | with_reducible apply State.output_only
    | with_reducible apply State.finish_only
    | with_reducible apply only_foldl
    | with_reducible apply only_foldl_fst
    | exact incl_trans rfl hm)

theorem State.lookupEnd_keeps {s0 : State} {s : State} {k : Coll} {c : Cmd} {l : List (List Flt × Nat)}
    (h0 : keeps s0 s) : keeps s0 (State.lookupEnd s k c l) := by
  unfold State.lookupEnd
  try dsimp only
  repeat' (first
    | with_reducible assumption
    | with_reducible intro _
    | with_reducible apply State.output_keeps
    | with_reducible apply State.finish_keeps)

theorem State.lookupJoin_only {ls : List Item} {s0 : State} {s : State} {p : PartNo} {k : Coll} {c : Cmd} {m : MeshWait}
    (h0 : changesOnly ls s0 s) (hm : incl [.cmds, .locks, .pAcct, .ctxs, .streams, .ristretto, .semaphores, .out] ls = true) : changesOnly ls s0 (State.lookupJoin s p k c m) := by
  unfold State.lookupJoin
  try dsimp only
  repeat' first | with_reducible assumption | with_reducible intro _ | with_reducible apply State.lookupEnd_only

theorem State.lookupJoin_keeps {s0 : State} {s : State} {p : PartNo} {k : Coll} {c : Cmd} {m : MeshWait}
    (h0 : keeps s0 s) : keeps s0 (State.lookupJoin s p k c m) := by
  unfold State.lookupJoin
  try dsimp only
  repeat' first | with_reducible assumption | with_reducible intro _ | with_reducible apply State.lookupEnd_keeps

theorem State.lookupMesh_only {ls : List Item} {s0 : State} {s : State} {p : PartNo} {k : Coll} {c : Cmd}
    (h0 : changesOnly ls s0 s) (hm : incl [.rasLog, .fns, .cmds, .locks, .pMem, .pColls, .pAcct, .pHot, .ctxs, .streams, .ristretto, .semaphores, .poison, .slm, .meshCount, .ports, .peers, .transit, .out, .fresh] ls = true) : changesOnly ls s0 (State.lookupMesh s p k c) := by
  unfold State.lookupMesh
  try dsimp only
  repeat' (first
    | with_reducible assumption
    | with_reducible intro _
    | with_reducible apply State.toDevice_only
    | with_reducible apply State.tearDown_only
    | with_reducible apply State.newTag_only
    | with_reducible apply State.gathered_only
    | with_reducible apply State.modCmd_only
    | with_reducible apply State.lookupJoin_only
    | with_reducible apply State.accessRows_only
    | with_reducible apply only_ite
    | with_reducible apply only_foldl
    | with_reducible apply only_foldl_fst
    | exact incl_trans rfl hm)

theorem State.lookupMesh_keeps {s0 : State} {s : State} {p : PartNo} {k : Coll} {c : Cmd}
    (h0 : keeps s0 s) : keeps s0 (State.lookupMesh s p k c) := by
  unfold State.lookupMesh
  try dsimp only
  repeat' (first
    | with_reducible assumption
    | exact len_modify
    | exact len_map
    | exact len_mapIdx
    | with_reducible intro _
    | with_reducible apply State.toDevice_keeps
    | with_reducible apply State.tearDown_keeps
    | with_reducible apply State.newTag_keeps
    | with_reducible apply State.gathered_keeps
    | with_reducible apply State.modCmd_keeps
    | with_reducible apply State.lookupJoin_keeps
    | with_reducible apply State.accessRows_keeps
    | with_reducible apply keeps_ite
    | with_reducible apply keeps_foldl)

theorem State.takePartials_only {ls : List Item} {s0 : State} {s : State} {cid member : Nat} {l : List (Nat × List Nat)} {covered : Nat} {hints : List (Nat × Nat × Nat)}
    (h0 : changesOnly ls s0 s) (hm : incl [.cmds, .locks, .pColls, .pAcct, .ctxs, .streams, .ristretto, .semaphores, .out] ls = true) : changesOnly ls s0 (State.takePartials s cid member l covered hints) := by
  have hs := @mem_of_incl [.cmds, .locks, .pColls, .pAcct, .ctxs, .streams, .ristretto, .semaphores, .out] ls hm
  unfold State.takePartials
  try dsimp only
  repeat' (first
    | with_reducible assumption
    | with_reducible intro _
    | with_reducible apply State.modTm_only
    | with_reducible apply State.modCmd_only
    | with_reducible apply State.onCmd_only
    | with_reducible apply State.lookupJoin_only
    | with_reducible apply only_ite
    | with_reducible apply only_foldl
    | with_reducible apply only_foldl_fst
    | exact incl_trans rfl hm
    | with_reducible apply only_mk
    | exact Or.inr (hs (by decide))
    | with_reducible exact Or.inl rfl
    | with_reducible exact parts_refl
    | (with_reducible refine Or.inl ?_; and_intros <;> with_reducible rfl)
    | exact Or.inl rfl
    | with_reducible refine only_pair (by assumption) ?_
    | dsimp only
    | rw [mk_put]
    | split)

theorem State.takePartials_keeps {s0 : State} {s : State} {cid member : Nat} {l : List (Nat × List Nat)} {covered : Nat} {hints : List (Nat × Nat × Nat)}
    (h0 : keeps s0 s) : keeps s0 (State.takePartials s cid member l covered hints) := by
  unfold State.takePartials
  try dsimp only
  repeat' (first
    | with_reducible assumption
    | exact len_modify
    | exact len_map
    | exact len_mapIdx
    | with_reducible intro _
    | with_reducible apply State.modTm_keeps
    | with_reducible apply State.modCmd_keeps
    | with_reducible apply State.onCmd_keeps
    | with_reducible apply State.lookupJoin_keeps
    | with_reducible apply keeps_ite
    | with_reducible apply keeps_foldl
    | with_reducible apply keeps_foldl_fst
    | with_reducible apply keeps_mk
    | with_reducible exact id
    | with_reducible exact partsKeep_refl
    | with_reducible exact rasKeep_refl
    | with_reducible exact hbmKeep_refl
    | with_reducible exact pkgKeep_refl
    | with_reducible exact secKeep_refl
    | with_reducible exact namesKeep_refl
    | exact rfl
    | with_reducible refine keeps_pair (by assumption) ?_
    | dsimp only
    | rw [mk_put]
    | split)

theorem State.pairsTo_only {ls : List Item} {s0 : State} {s : State} {p : PartNo} {k : Coll} {o tag step inc member : Nat} {rows : List RowSum}
    (h0 : changesOnly ls s0 s) (hm : incl [.pAcct, .ports, .peers, .transit, .out] ls = true) : changesOnly ls s0 (State.pairsTo s p k o tag step inc member rows) := by
  unfold State.pairsTo
  try dsimp only
  repeat' first | with_reducible assumption | with_reducible intro _ | with_reducible apply State.toMember_only

theorem State.pairsTo_keeps {s0 : State} {s : State} {p : PartNo} {k : Coll} {o tag step inc member : Nat} {rows : List RowSum}
    (h0 : keeps s0 s) : keeps s0 (State.pairsTo s p k o tag step inc member rows) := by
  unfold State.pairsTo
  try dsimp only
  repeat' first | with_reducible assumption | with_reducible intro _ | with_reducible apply State.toMember_keeps

theorem State.shardEnd_only {ls : List Item} {s0 : State} {s : State} {cid : Nat}
    (h0 : changesOnly ls s0 s) (hm : incl [.cmds, .locks, .ctxs, .streams, .ristretto, .semaphores] ls = true) : changesOnly ls s0 (State.shardEnd s cid) := by
  have hs := @mem_of_incl [.cmds, .locks, .ctxs, .streams, .ristretto, .semaphores] ls hm
  unfold State.shardEnd
  try dsimp only
  repeat' (first
    | with_reducible assumption
    | with_reducible intro _
    | with_reducible apply State.finish_only
    | with_reducible apply State.onCmd_only
    | with_reducible apply only_ite
    | exact incl_trans rfl hm
    | with_reducible apply only_mk
    | exact Or.inr (hs (by decide))
    | with_reducible exact Or.inl rfl
    | with_reducible exact parts_refl
    | (with_reducible refine Or.inl ?_; and_intros <;> with_reducible rfl)
    | exact Or.inl rfl
    | with_reducible refine only_pair (by assumption) ?_
    | dsimp only
    | rw [mk_put]
    | split)

theorem State.shardEnd_keeps {s0 : State} {s : State} {cid : Nat}
    (h0 : keeps s0 s) : keeps s0 (State.shardEnd s cid) := by
  unfold State.shardEnd
  try dsimp only
  repeat' (first
    | with_reducible assumption
    | with_reducible intro _
    | with_reducible apply State.finish_keeps
    | with_reducible apply State.onCmd_keeps
    | with_reducible apply keeps_ite
    | with_reducible apply keeps_mk
    | with_reducible exact id
    | with_reducible exact partsKeep_refl
    | with_reducible exact rasKeep_refl
    | with_reducible exact hbmKeep_refl
    | with_reducible exact pkgKeep_refl
    | with_reducible exact secKeep_refl
    | with_reducible exact namesKeep_refl
    | with_reducible refine keeps_pair (by assumption) ?_
    | dsimp only
    | rw [mk_put]
    | split)

theorem State.takeHandedOff_only {ls : List Item} {s0 : State} {s : State} {cid block : Nat} {done : Bool}
    (h0 : changesOnly ls s0 s) (hm : incl [.cmds, .locks, .ctxs, .streams, .ristretto, .semaphores] ls = true) : changesOnly ls s0 (State.takeHandedOff s cid block done) := by
  unfold State.takeHandedOff
  try dsimp only
  repeat' (first
    | with_reducible assumption
    | with_reducible intro _
    | with_reducible apply State.shardEnd_only
    | with_reducible apply State.modCmd_only
    | with_reducible apply only_ite
    | exact incl_trans rfl hm)

theorem State.takeHandedOff_keeps {s0 : State} {s : State} {cid block : Nat} {done : Bool}
    (h0 : keeps s0 s) : keeps s0 (State.takeHandedOff s cid block done) := by
  unfold State.takeHandedOff
  try dsimp only
  repeat' (first
    | with_reducible assumption
    | exact len_modify
    | exact len_map
    | exact len_mapIdx
    | with_reducible intro _
    | with_reducible apply State.shardEnd_keeps
    | with_reducible apply State.modCmd_keeps)

theorem State.tellAsker_only {ls : List Item} {s0 : State} {s : State} {p : PartNo} {h : Handoff} {done : Bool}
    (h0 : changesOnly ls s0 s) (hm : incl [.cmds, .locks, .pAcct, .ctxs, .streams, .ristretto, .semaphores, .ports, .peers, .transit, .out] ls = true) : changesOnly ls s0 (State.tellAsker s p h done) := by
  have hs := @mem_of_incl [.cmds, .locks, .pAcct, .ctxs, .streams, .ristretto, .semaphores, .ports, .peers, .transit, .out] ls hm
  unfold State.tellAsker
  try dsimp only
  repeat' (first
    | with_reducible assumption
    | with_reducible intro _
    | with_reducible apply State.replyTo_only
    | with_reducible apply State.takeHandedOff_only
    | with_reducible apply only_ite
    | exact incl_trans rfl hm
    | with_reducible apply only_mk
    | exact Or.inr (hs (by decide))
    | with_reducible exact Or.inl rfl
    | with_reducible exact parts_refl
    | (with_reducible refine Or.inl ?_; and_intros <;> with_reducible rfl)
    | exact Or.inl rfl
    | with_reducible refine only_pair (by assumption) ?_
    | dsimp only
    | rw [mk_put]
    | split)

theorem State.tellAsker_keeps {s0 : State} {s : State} {p : PartNo} {h : Handoff} {done : Bool}
    (h0 : keeps s0 s) : keeps s0 (State.tellAsker s p h done) := by
  unfold State.tellAsker
  try dsimp only
  repeat' (first
    | with_reducible assumption
    | with_reducible intro _
    | with_reducible apply State.replyTo_keeps
    | with_reducible apply State.takeHandedOff_keeps
    | with_reducible apply keeps_ite
    | with_reducible apply keeps_mk
    | with_reducible exact id
    | with_reducible exact partsKeep_refl
    | with_reducible exact rasKeep_refl
    | with_reducible exact hbmKeep_refl
    | with_reducible exact pkgKeep_refl
    | with_reducible exact secKeep_refl
    | with_reducible exact namesKeep_refl
    | with_reducible refine keeps_pair (by assumption) ?_
    | dsimp only
    | rw [mk_put]
    | split)

theorem State.dropHandoff_only {ls : List Item} {s0 : State} {s : State} {p : PartNo} {k : Coll} {h : Handoff}
    (h0 : changesOnly ls s0 s) (hm : incl [.rasLog, .fns, .cmds, .locks, .pColls, .pAcct, .ctxs, .streams, .ristretto, .semaphores, .ports, .peers, .transit, .out] ls = true) : changesOnly ls s0 (State.dropHandoff s p k h) := by
  unfold State.dropHandoff
  try dsimp only
  repeat' (first
    | with_reducible assumption
    | with_reducible intro _
    | with_reducible apply State.modTm_only
    | with_reducible apply State.log_only
    | with_reducible apply State.tellAsker_only
    | exact incl_trans rfl hm)

theorem State.dropHandoff_keeps {s0 : State} {s : State} {p : PartNo} {k : Coll} {h : Handoff}
    (h0 : keeps s0 s) : keeps s0 (State.dropHandoff s p k h) := by
  unfold State.dropHandoff
  try dsimp only
  repeat' (first
    | with_reducible assumption
    | with_reducible intro _
    | with_reducible apply State.modTm_keeps
    | with_reducible apply State.log_keeps
    | with_reducible apply State.tellAsker_keeps)

theorem State.startHandoff_only {ls : List Item} {s0 : State} {s : State} {p : PartNo} {k : Coll} {block target : Nat} {asker : Option (Nat × Nat)}
    (h0 : changesOnly ls s0 s) (hm : incl [.rasLog, .fns, .cmds, .locks, .pColls, .pAcct, .ctxs, .streams, .ristretto, .semaphores, .ports, .peers, .transit, .out] ls = true) : changesOnly ls s0 (State.startHandoff s p k block target asker) := by
  unfold State.startHandoff
  try dsimp only
  repeat' (first
    | with_reducible assumption
    | with_reducible intro _
    | with_reducible apply State.modTm_only
    | with_reducible apply State.dropHandoff_only
    | with_reducible apply State.toMember_only
    | with_reducible apply State.tellAsker_only
    | with_reducible apply only_ite
    | exact incl_trans rfl hm)

theorem State.startHandoff_keeps {s0 : State} {s : State} {p : PartNo} {k : Coll} {block target : Nat} {asker : Option (Nat × Nat)}
    (h0 : keeps s0 s) : keeps s0 (State.startHandoff s p k block target asker) := by
  unfold State.startHandoff
  try dsimp only
  repeat' (first
    | with_reducible assumption
    | with_reducible intro _
    | with_reducible apply State.modTm_keeps
    | with_reducible apply State.dropHandoff_keeps
    | with_reducible apply State.toMember_keeps
    | with_reducible apply State.tellAsker_keeps
    | with_reducible apply keeps_ite)

theorem State.tryCommit_only {ls : List Item} {s0 : State} {s : State} {p : PartNo} {k : Coll} {h : Handoff}
    (h0 : changesOnly ls s0 s) (hm : incl [.pColls, .pAcct, .slm, .ports, .peers, .transit, .out] ls = true) : changesOnly ls s0 (State.tryCommit s p k h) := by
  unfold State.tryCommit
  try dsimp only
  repeat' (first
    | with_reducible assumption
    | with_reducible intro _
    | with_reducible apply State.touch_only
    | with_reducible apply State.modTm_only
    | with_reducible apply State.toMember_only
    | with_reducible apply only_ite
    | with_reducible apply only_foldl
    | with_reducible apply only_foldl_fst
    | exact incl_trans rfl hm)

theorem State.tryCommit_keeps {s0 : State} {s : State} {p : PartNo} {k : Coll} {h : Handoff}
    (h0 : keeps s0 s) : keeps s0 (State.tryCommit s p k h) := by
  unfold State.tryCommit
  try dsimp only
  repeat' (first
    | with_reducible assumption
    | with_reducible intro _
    | with_reducible apply State.touch_keeps
    | with_reducible apply State.modTm_keeps
    | with_reducible apply State.toMember_keeps
    | with_reducible apply keeps_ite
    | with_reducible apply keeps_foldl)

theorem State.tryCommits_only {ls : List Item} {s0 : State} {s : State} {p : PartNo} {uid : Nat}
    (h0 : changesOnly ls s0 s) (hm : incl [.pColls, .pAcct, .slm, .ports, .peers, .transit, .out] ls = true) : changesOnly ls s0 (State.tryCommits s p uid) := by
  have hs := @mem_of_incl [.pColls, .pAcct, .slm, .ports, .peers, .transit, .out] ls hm
  unfold State.tryCommits
  try dsimp only
  repeat' (first
    | with_reducible assumption
    | with_reducible intro _
    | with_reducible apply State.tryCommit_only
    | with_reducible apply only_foldl
    | with_reducible apply only_foldl_fst
    | exact incl_trans rfl hm
    | with_reducible apply only_mk
    | exact Or.inr (hs (by decide))
    | with_reducible exact Or.inl rfl
    | with_reducible exact parts_refl
    | (with_reducible refine Or.inl ?_; and_intros <;> with_reducible rfl)
    | exact Or.inl rfl
    | with_reducible refine only_pair (by assumption) ?_
    | dsimp only
    | rw [mk_put]
    | split)

theorem State.tryCommits_keeps {s0 : State} {s : State} {p : PartNo} {uid : Nat}
    (h0 : keeps s0 s) : keeps s0 (State.tryCommits s p uid) := by
  unfold State.tryCommits
  try dsimp only
  repeat' (first
    | with_reducible assumption
    | with_reducible intro _
    | with_reducible apply State.tryCommit_keeps
    | with_reducible apply keeps_foldl
    | with_reducible apply keeps_foldl_fst
    | with_reducible apply keeps_mk
    | with_reducible exact id
    | with_reducible exact partsKeep_refl
    | with_reducible exact rasKeep_refl
    | with_reducible exact hbmKeep_refl
    | with_reducible exact pkgKeep_refl
    | with_reducible exact secKeep_refl
    | with_reducible exact namesKeep_refl
    | with_reducible refine keeps_pair (by assumption) ?_
    | dsimp only
    | rw [mk_put]
    | split)

theorem State.takeAsk_only {ls : List Item} {s0 : State} {s : State} {p : PartNo} {k : Coll} {src block : Nat}
    (h0 : changesOnly ls s0 s) (hm : incl [.pColls, .pAcct, .ports, .peers, .transit, .out] ls = true) : changesOnly ls s0 (State.takeAsk s p k src block) := by
  have hs := @mem_of_incl [.pColls, .pAcct, .ports, .peers, .transit, .out] ls hm
  unfold State.takeAsk
  try dsimp only
  repeat' (first
    | with_reducible assumption
    | with_reducible intro _
    | with_reducible apply State.modTm_only
    | with_reducible apply State.toDevice_only
    | with_reducible apply only_ite
    | exact incl_trans rfl hm
    | with_reducible apply only_mk
    | exact Or.inr (hs (by decide))
    | with_reducible exact Or.inl rfl
    | with_reducible exact parts_refl
    | (with_reducible refine Or.inl ?_; and_intros <;> with_reducible rfl)
    | exact Or.inl rfl
    | with_reducible refine only_pair (by assumption) ?_
    | dsimp only
    | rw [mk_put]
    | split)

theorem State.takeAsk_keeps {s0 : State} {s : State} {p : PartNo} {k : Coll} {src block : Nat}
    (h0 : keeps s0 s) : keeps s0 (State.takeAsk s p k src block) := by
  unfold State.takeAsk
  try dsimp only
  repeat' (first
    | with_reducible assumption
    | with_reducible intro _
    | with_reducible apply State.modTm_keeps
    | with_reducible apply State.toDevice_keeps
    | with_reducible apply keeps_ite
    | with_reducible apply keeps_mk
    | with_reducible exact id
    | with_reducible exact partsKeep_refl
    | with_reducible exact rasKeep_refl
    | with_reducible exact hbmKeep_refl
    | with_reducible exact pkgKeep_refl
    | with_reducible exact secKeep_refl
    | with_reducible exact namesKeep_refl
    | with_reducible refine keeps_pair (by assumption) ?_
    | dsimp only
    | rw [mk_put]
    | split)

theorem State.takeSlotAnswer_only {ls : List Item} {s0 : State} {s : State} {p : PartNo} {k : Coll} {block : Nat} {granted : Bool}
    (h0 : changesOnly ls s0 s) (hm : incl [.rasLog, .fns, .cmds, .locks, .pColls, .pAcct, .ctxs, .streams, .ristretto, .semaphores, .slm, .ports, .peers, .transit, .out] ls = true) : changesOnly ls s0 (State.takeSlotAnswer s p k block granted) := by
  have hs := @mem_of_incl [.rasLog, .fns, .cmds, .locks, .pColls, .pAcct, .ctxs, .streams, .ristretto, .semaphores, .slm, .ports, .peers, .transit, .out] ls hm
  unfold State.takeSlotAnswer
  try dsimp only
  repeat' (first
    | with_reducible assumption
    | with_reducible intro _
    | with_reducible apply State.modTm_only
    | with_reducible apply State.reads_only
    | with_reducible apply State.dropHandoff_only
    | with_reducible apply State.toMember_only
    | with_reducible apply State.tryCommits_only
    | with_reducible apply only_ite
    | with_reducible apply only_foldl
    | with_reducible apply only_foldl_fst
    | exact incl_trans rfl hm
    | with_reducible apply only_mk
    | exact Or.inr (hs (by decide))
    | with_reducible exact Or.inl rfl
    | with_reducible exact parts_refl
    | (with_reducible refine Or.inl ?_; and_intros <;> with_reducible rfl)
    | exact Or.inl rfl
    | with_reducible refine only_pair (by assumption) ?_
    | dsimp only
    | rw [mk_put]
    | split)

theorem State.takeSlotAnswer_keeps {s0 : State} {s : State} {p : PartNo} {k : Coll} {block : Nat} {granted : Bool}
    (h0 : keeps s0 s) : keeps s0 (State.takeSlotAnswer s p k block granted) := by
  unfold State.takeSlotAnswer
  try dsimp only
  repeat' (first
    | with_reducible assumption
    | with_reducible intro _
    | with_reducible apply State.modTm_keeps
    | with_reducible apply State.reads_keeps
    | with_reducible apply State.dropHandoff_keeps
    | with_reducible apply State.toMember_keeps
    | with_reducible apply State.tryCommits_keeps
    | with_reducible apply keeps_ite
    | with_reducible apply keeps_foldl
    | with_reducible apply keeps_foldl_fst
    | with_reducible apply keeps_mk
    | with_reducible exact id
    | with_reducible exact partsKeep_refl
    | with_reducible exact rasKeep_refl
    | with_reducible exact hbmKeep_refl
    | with_reducible exact pkgKeep_refl
    | with_reducible exact secKeep_refl
    | with_reducible exact namesKeep_refl
    | with_reducible refine keeps_pair (by assumption) ?_
    | dsimp only
    | rw [mk_put]
    | split)

theorem State.takeLines_only {ls : List Item} {s0 : State} {s : State} {p : PartNo} {k : Coll} {block : Nat} {lines : List (Nat × Bytes)}
    (h0 : changesOnly ls s0 s) (hm : incl [.pColls] ls = true) : changesOnly ls s0 (State.takeLines s p k block lines) := by
  unfold State.takeLines
  try dsimp only
  repeat' first | with_reducible assumption | with_reducible intro _ | with_reducible apply State.modTm_only

theorem State.takeLines_keeps {s0 : State} {s : State} {p : PartNo} {k : Coll} {block : Nat} {lines : List (Nat × Bytes)}
    (h0 : keeps s0 s) : keeps s0 (State.takeLines s p k block lines) := by
  unfold State.takeLines
  try dsimp only
  repeat' first | with_reducible assumption | with_reducible intro _ | with_reducible apply State.modTm_keeps

theorem State.install_only {ls : List Item} {s0 : State} {s : State} {p : PartNo} {k : Coll} {src block : Nat}
    (h0 : changesOnly ls s0 s) (hm : incl [.rasLog, .fns, .cmds, .pMem, .pColls, .pAcct, .poison, .slm, .ports, .peers, .transit, .out] ls = true) : changesOnly ls s0 (State.install s p k src block) := by
  have hs := @mem_of_incl [.rasLog, .fns, .cmds, .pMem, .pColls, .pAcct, .poison, .slm, .ports, .peers, .transit, .out] ls hm
  unfold State.install
  try dsimp only
  repeat' (first
    | with_reducible assumption
    | with_reducible intro _
    | with_reducible apply State.modTm_only
    | with_reducible apply State.toDevice_only
    | with_reducible apply State.wrMem_only
    | with_reducible apply only_foldl
    | with_reducible apply only_foldl_fst
    | exact incl_trans rfl hm
    | with_reducible apply only_mk
    | exact Or.inr (hs (by decide))
    | with_reducible exact Or.inl rfl
    | with_reducible exact parts_refl
    | (with_reducible refine Or.inl ?_; and_intros <;> with_reducible rfl)
    | exact Or.inl rfl
    | with_reducible refine only_pair (by assumption) ?_
    | dsimp only
    | rw [mk_put]
    | split)

theorem State.install_keeps {s0 : State} {s : State} {p : PartNo} {k : Coll} {src block : Nat}
    (h0 : keeps s0 s) : keeps s0 (State.install s p k src block) := by
  unfold State.install
  try dsimp only
  repeat' (first
    | with_reducible assumption
    | with_reducible intro _
    | with_reducible apply State.modTm_keeps
    | with_reducible apply State.toDevice_keeps
    | with_reducible apply State.wrMem_keeps
    | with_reducible apply keeps_foldl
    | with_reducible apply keeps_foldl_fst
    | with_reducible apply keeps_mk
    | with_reducible exact id
    | with_reducible exact partsKeep_refl
    | with_reducible exact rasKeep_refl
    | with_reducible exact hbmKeep_refl
    | with_reducible exact pkgKeep_refl
    | with_reducible exact secKeep_refl
    | with_reducible exact namesKeep_refl
    | with_reducible refine keeps_pair (by assumption) ?_
    | dsimp only
    | rw [mk_put]
    | split)

theorem State.handoffDone_only {ls : List Item} {s0 : State} {s : State} {p : PartNo} {k : Coll} {block : Nat}
    (h0 : changesOnly ls s0 s) (hm : incl [.cmds, .locks, .pColls, .pAcct, .ctxs, .streams, .ristretto, .semaphores, .ports, .peers, .transit, .out] ls = true) : changesOnly ls s0 (State.handoffDone s p k block) := by
  have hs := @mem_of_incl [.cmds, .locks, .pColls, .pAcct, .ctxs, .streams, .ristretto, .semaphores, .ports, .peers, .transit, .out] ls hm
  unfold State.handoffDone
  try dsimp only
  repeat' (first
    | with_reducible assumption
    | with_reducible intro _
    | with_reducible apply State.toOthers_only
    | with_reducible apply State.tellAsker_only
    | with_reducible apply State.modCollU_only
    | with_reducible apply State.pairsTo_only
    | with_reducible apply only_ite
    | with_reducible apply only_foldl
    | with_reducible apply only_foldl_fst
    | exact incl_trans rfl hm
    | with_reducible apply only_mk
    | exact Or.inr (hs (by decide))
    | with_reducible exact Or.inl rfl
    | with_reducible exact parts_refl
    | (with_reducible refine Or.inl ?_; and_intros <;> with_reducible rfl)
    | exact Or.inl rfl
    | with_reducible refine only_pair (by assumption) ?_
    | dsimp only
    | rw [mk_put]
    | split)

theorem State.handoffDone_keeps {s0 : State} {s : State} {p : PartNo} {k : Coll} {block : Nat}
    (h0 : keeps s0 s) : keeps s0 (State.handoffDone s p k block) := by
  unfold State.handoffDone
  try dsimp only
  repeat' (first
    | with_reducible assumption
    | with_reducible intro _
    | with_reducible apply State.toOthers_keeps
    | with_reducible apply State.tellAsker_keeps
    | with_reducible apply State.modCollU_keeps
    | with_reducible apply State.pairsTo_keeps
    | with_reducible apply keeps_ite
    | with_reducible apply keeps_foldl
    | with_reducible apply keeps_foldl_fst
    | with_reducible apply keeps_mk
    | with_reducible exact id
    | with_reducible exact partsKeep_refl
    | with_reducible exact rasKeep_refl
    | with_reducible exact hbmKeep_refl
    | with_reducible exact pkgKeep_refl
    | with_reducible exact secKeep_refl
    | with_reducible exact namesKeep_refl
    | with_reducible refine keeps_pair (by assumption) ?_
    | dsimp only
    | rw [mk_put]
    | split)

theorem State.tryForwardDone_only {ls : List Item} {s0 : State} {s : State} {p : PartNo} {uid block : Nat}
    (h0 : changesOnly ls s0 s) (hm : incl [.pColls, .pAcct, .ports, .peers, .transit, .out] ls = true) : changesOnly ls s0 (State.tryForwardDone s p uid block) := by
  have hs := @mem_of_incl [.pColls, .pAcct, .ports, .peers, .transit, .out] ls hm
  unfold State.tryForwardDone
  try dsimp only
  repeat' (first
    | with_reducible assumption
    | with_reducible intro _
    | with_reducible apply State.modTm_only
    | with_reducible apply State.toMember_only
    | with_reducible apply only_ite
    | exact incl_trans rfl hm
    | with_reducible apply only_mk
    | exact Or.inr (hs (by decide))
    | with_reducible exact Or.inl rfl
    | with_reducible exact parts_refl
    | (with_reducible refine Or.inl ?_; and_intros <;> with_reducible rfl)
    | exact Or.inl rfl
    | with_reducible refine only_pair (by assumption) ?_
    | dsimp only
    | rw [mk_put]
    | split)

theorem State.tryForwardDone_keeps {s0 : State} {s : State} {p : PartNo} {uid block : Nat}
    (h0 : keeps s0 s) : keeps s0 (State.tryForwardDone s p uid block) := by
  unfold State.tryForwardDone
  try dsimp only
  repeat' (first
    | with_reducible assumption
    | with_reducible intro _
    | with_reducible apply State.modTm_keeps
    | with_reducible apply State.toMember_keeps
    | with_reducible apply keeps_ite
    | with_reducible apply keeps_mk
    | with_reducible exact id
    | with_reducible exact partsKeep_refl
    | with_reducible exact rasKeep_refl
    | with_reducible exact hbmKeep_refl
    | with_reducible exact pkgKeep_refl
    | with_reducible exact secKeep_refl
    | with_reducible exact namesKeep_refl
    | with_reducible refine keeps_pair (by assumption) ?_
    | dsimp only
    | rw [mk_put]
    | split)

theorem State.takeAck_only {ls : List Item} {s0 : State} {s : State} {p : PartNo} {k : Coll} {member block : Nat}
    (h0 : changesOnly ls s0 s) (hm : incl [.pColls, .pAcct, .ports, .peers, .transit, .out] ls = true) : changesOnly ls s0 (State.takeAck s p k member block) := by
  unfold State.takeAck
  try dsimp only
  repeat' (first
    | with_reducible assumption
    | with_reducible intro _
    | with_reducible apply State.modTm_only
    | with_reducible apply State.tryForwardDone_only
    | exact incl_trans rfl hm)

theorem State.takeAck_keeps {s0 : State} {s : State} {p : PartNo} {k : Coll} {member block : Nat}
    (h0 : keeps s0 s) : keeps s0 (State.takeAck s p k member block) := by
  unfold State.takeAck
  try dsimp only
  repeat' (first
    | with_reducible assumption
    | with_reducible intro _
    | with_reducible apply State.modTm_keeps
    | with_reducible apply State.tryForwardDone_keeps)

theorem State.takeDirectory_only {ls : List Item} {s0 : State} {s : State} {p : PartNo} {k : Coll} {sender block owner epoch : Nat}
    (h0 : changesOnly ls s0 s) (hm : incl [.pColls, .pAcct, .ports, .peers, .transit, .out] ls = true) : changesOnly ls s0 (State.takeDirectory s p k sender block owner epoch) := by
  unfold State.takeDirectory
  try dsimp only
  repeat' (first
    | with_reducible assumption
    | with_reducible intro _
    | with_reducible apply State.modTm_only
    | with_reducible apply State.toMember_only
    | with_reducible apply only_ite
    | exact incl_trans rfl hm)

theorem State.takeDirectory_keeps {s0 : State} {s : State} {p : PartNo} {k : Coll} {sender block owner epoch : Nat}
    (h0 : keeps s0 s) : keeps s0 (State.takeDirectory s p k sender block owner epoch) := by
  unfold State.takeDirectory
  try dsimp only
  repeat' (first
    | with_reducible assumption
    | with_reducible intro _
    | with_reducible apply State.modTm_keeps
    | with_reducible apply State.toMember_keeps
    | with_reducible apply keeps_ite)

theorem State.takePairs_only {ls : List Item} {s0 : State} {s : State} {p : PartNo} {k : Coll} {step inc member : Nat} {rows : List RowSum}
    (h0 : changesOnly ls s0 s) (hm : incl [.pColls, .pAcct, .ports, .peers, .transit, .out] ls = true) : changesOnly ls s0 (State.takePairs s p k step inc member rows) := by
  unfold State.takePairs
  try dsimp only
  repeat' (first
    | with_reducible assumption
    | with_reducible intro _
    | with_reducible apply State.modTm_only
    | with_reducible apply State.pairsTo_only
    | with_reducible apply only_ite
    | with_reducible apply only_foldl
    | with_reducible apply only_foldl_fst
    | exact incl_trans rfl hm)

theorem State.takePairs_keeps {s0 : State} {s : State} {p : PartNo} {k : Coll} {step inc member : Nat} {rows : List RowSum}
    (h0 : keeps s0 s) : keeps s0 (State.takePairs s p k step inc member rows) := by
  unfold State.takePairs
  try dsimp only
  repeat' (first
    | with_reducible assumption
    | with_reducible intro _
    | with_reducible apply State.modTm_keeps
    | with_reducible apply State.pairsTo_keeps
    | with_reducible apply keeps_ite
    | with_reducible apply keeps_foldl)

theorem State.stepEnd_only {ls : List Item} {s0 : State} {s : State} {c : Cmd} {m : MeshWait}
    (h0 : changesOnly ls s0 s) (hm : incl [.rasLog, .fns, .cmds, .locks, .pMem, .pColls, .pAcct, .ctxs, .streams, .ristretto, .semaphores, .poison, .slm, .ports, .peers, .transit, .out, .fresh] ls = true) : changesOnly ls s0 (State.stepEnd s c m) := by
  unfold State.stepEnd
  try dsimp only
  repeat' (first
    | with_reducible assumption
    | with_reducible intro _
    | with_reducible apply State.tearDown_only
    | with_reducible apply State.drop_only
    | with_reducible apply State.finish_only
    | with_reducible apply State.modCmd_only
    | with_reducible apply State.logLate_only
    | with_reducible apply only_ite
    | exact incl_trans rfl hm)

theorem State.stepEnd_keeps {s0 : State} {s : State} {c : Cmd} {m : MeshWait}
    (h0 : keeps s0 s) : keeps s0 (State.stepEnd s c m) := by
  unfold State.stepEnd
  try dsimp only
  repeat' (first
    | with_reducible assumption
    | with_reducible intro _
    | with_reducible apply State.tearDown_keeps
    | with_reducible apply State.drop_keeps
    | with_reducible apply State.finish_keeps
    | with_reducible apply State.modCmd_keeps
    | with_reducible apply State.logLate_keeps
    | with_reducible apply keeps_ite)

theorem State.takeStepReport_only {ls : List Item} {s0 : State} {s : State} {cid member : Nat} {applied : Bool} {stamp rows skipped : Nat}
    (h0 : changesOnly ls s0 s) (hm : incl [.rasLog, .fns, .cmds, .locks, .pMem, .pColls, .pAcct, .ctxs, .streams, .ristretto, .semaphores, .poison, .slm, .ports, .peers, .transit, .out, .fresh] ls = true) : changesOnly ls s0 (State.takeStepReport s cid member applied stamp rows skipped) := by
  have hs := @mem_of_incl [.rasLog, .fns, .cmds, .locks, .pMem, .pColls, .pAcct, .ctxs, .streams, .ristretto, .semaphores, .poison, .slm, .ports, .peers, .transit, .out, .fresh] ls hm
  unfold State.takeStepReport
  try dsimp only
  repeat' (first
    | with_reducible assumption
    | with_reducible intro _
    | with_reducible apply State.modCmd_only
    | with_reducible apply State.onCmd_only
    | with_reducible apply State.stepEnd_only
    | with_reducible apply only_ite
    | exact incl_trans rfl hm
    | with_reducible apply only_mk
    | exact Or.inr (hs (by decide))
    | with_reducible exact Or.inl rfl
    | with_reducible exact parts_refl
    | (with_reducible refine Or.inl ?_; and_intros <;> with_reducible rfl)
    | exact Or.inl rfl
    | with_reducible refine only_pair (by assumption) ?_
    | dsimp only
    | rw [mk_put]
    | split)

theorem State.takeStepReport_keeps {s0 : State} {s : State} {cid member : Nat} {applied : Bool} {stamp rows skipped : Nat}
    (h0 : keeps s0 s) : keeps s0 (State.takeStepReport s cid member applied stamp rows skipped) := by
  unfold State.takeStepReport
  try dsimp only
  repeat' (first
    | with_reducible assumption
    | exact len_modify
    | exact len_map
    | exact len_mapIdx
    | with_reducible intro _
    | with_reducible apply State.modCmd_keeps
    | with_reducible apply State.onCmd_keeps
    | with_reducible apply State.stepEnd_keeps
    | with_reducible apply keeps_ite
    | with_reducible apply keeps_mk
    | with_reducible exact id
    | with_reducible exact partsKeep_refl
    | with_reducible exact rasKeep_refl
    | with_reducible exact hbmKeep_refl
    | with_reducible exact pkgKeep_refl
    | with_reducible exact secKeep_refl
    | with_reducible exact namesKeep_refl
    | exact rfl
    | with_reducible refine keeps_pair (by assumption) ?_
    | dsimp only
    | rw [mk_put]
    | split)

theorem State.reportStep_only {ls : List Item} {s0 : State} {s : State} {p : PartNo} {k : Coll} {x : MeshStep} {applied : Bool} {stamp rows skipped : Nat}
    (h0 : changesOnly ls s0 s) (hm : incl [.rasLog, .fns, .cmds, .locks, .pMem, .pColls, .pAcct, .ctxs, .streams, .ristretto, .semaphores, .poison, .slm, .ports, .peers, .transit, .out, .fresh] ls = true) : changesOnly ls s0 (State.reportStep s p k x applied stamp rows skipped) := by
  have hs := @mem_of_incl [.rasLog, .fns, .cmds, .locks, .pMem, .pColls, .pAcct, .ctxs, .streams, .ristretto, .semaphores, .poison, .slm, .ports, .peers, .transit, .out, .fresh] ls hm
  unfold State.reportStep
  try dsimp only
  repeat' (first
    | with_reducible assumption
    | with_reducible intro _
    | with_reducible apply State.takeStepReport_only
    | with_reducible apply State.toMember_only
    | with_reducible apply only_ite
    | with_reducible apply only_foldl
    | with_reducible apply only_foldl_fst
    | exact incl_trans rfl hm
    | with_reducible apply only_mk
    | exact Or.inr (hs (by decide))
    | with_reducible exact Or.inl rfl
    | with_reducible exact parts_refl
    | (with_reducible refine Or.inl ?_; and_intros <;> with_reducible rfl)
    | exact Or.inl rfl
    | with_reducible refine only_pair (by assumption) ?_
    | dsimp only
    | rw [mk_put]
    | split)

theorem State.reportStep_keeps {s0 : State} {s : State} {p : PartNo} {k : Coll} {x : MeshStep} {applied : Bool} {stamp rows skipped : Nat}
    (h0 : keeps s0 s) : keeps s0 (State.reportStep s p k x applied stamp rows skipped) := by
  unfold State.reportStep
  try dsimp only
  repeat' (first
    | with_reducible assumption
    | with_reducible intro _
    | with_reducible apply State.takeStepReport_keeps
    | with_reducible apply State.toMember_keeps
    | with_reducible apply keeps_ite
    | with_reducible apply keeps_foldl
    | with_reducible apply keeps_foldl_fst
    | with_reducible apply keeps_mk
    | with_reducible exact id
    | with_reducible exact partsKeep_refl
    | with_reducible exact rasKeep_refl
    | with_reducible exact hbmKeep_refl
    | with_reducible exact pkgKeep_refl
    | with_reducible exact secKeep_refl
    | with_reducible exact namesKeep_refl
    | with_reducible refine keeps_pair (by assumption) ?_
    | dsimp only
    | rw [mk_put]
    | split)

theorem State.applyRuns_only {ls : List Item} {s0 : State} {p : PartNo} {k : Coll} {cid : Option Nat}
    {l : List (List RowSum)} {s : State} {x : MeshStep} (h0 : changesOnly ls s0 s) (hm : incl [.time, .rasLog, .fns, .cmds, .pMem, .pScratch, .pColls, .pHot, .poison, .slm, .out, .fresh] ls = true) :
    changesOnly ls s0 (State.applyRuns p k cid l s x).1 := by
  induction l generalizing s x with
  | nil => exact h0
  | cons y l ih =>
    unfold State.applyRuns
    split
    · exact h0
    · exact ih (State.applyRows_only h0 (incl_trans rfl hm))

theorem State.applyRuns_keeps {s0 : State} {p : PartNo} {k : Coll} {cid : Option Nat}
    {l : List (List RowSum)} {s : State} {x : MeshStep} (h0 : keeps s0 s) :
    keeps s0 (State.applyRuns p k cid l s x).1 := by
  induction l generalizing s x with
  | nil => exact h0
  | cons y l ih =>
    unfold State.applyRuns
    split
    · exact h0
    · exact ih (State.applyRows_keeps h0)

theorem State.afterStep_only {ls : List Item} {s0 : State} {s : State} {p : PartNo} {k : Coll} {x : MeshStep}
    (h0 : changesOnly ls s0 s) (hm : incl [.pColls, .pAcct, .slm, .ports, .peers, .transit, .out] ls = true) : changesOnly ls s0 (State.afterStep s p k x) := by
  unfold State.afterStep
  try dsimp only
  repeat' (first
    | with_reducible assumption
    | with_reducible intro _
    | with_reducible apply State.toMember_only
    | with_reducible apply State.tryCommits_only
    | with_reducible apply only_foldl
    | with_reducible apply only_foldl_fst
    | exact incl_trans rfl hm)

theorem State.afterStep_keeps {s0 : State} {s : State} {p : PartNo} {k : Coll} {x : MeshStep}
    (h0 : keeps s0 s) : keeps s0 (State.afterStep s p k x) := by
  unfold State.afterStep
  try dsimp only
  repeat' (first
    | with_reducible assumption
    | with_reducible intro _
    | with_reducible apply State.toMember_keeps
    | with_reducible apply State.tryCommits_keeps
    | with_reducible apply keeps_foldl)

theorem State.abandonStep_only {ls : List Item} {s0 : State} {s : State} {p : PartNo} {k : Coll} {x : MeshStep}
    (h0 : changesOnly ls s0 s) (hm : incl [.rasLog, .fns, .cmds, .locks, .pMem, .pColls, .pAcct, .ctxs, .streams, .ristretto, .semaphores, .poison, .slm, .ports, .peers, .transit, .out, .fresh] ls = true) : changesOnly ls s0 (State.abandonStep s p k x) := by
  unfold State.abandonStep
  try dsimp only
  repeat' (first
    | with_reducible assumption
    | with_reducible intro _
    | with_reducible apply State.modTm_only
    | with_reducible apply State.tryCommits_only
    | with_reducible apply State.reportStep_only
    | exact incl_trans rfl hm)

theorem State.abandonStep_keeps {s0 : State} {s : State} {p : PartNo} {k : Coll} {x : MeshStep}
    (h0 : keeps s0 s) : keeps s0 (State.abandonStep s p k x) := by
  unfold State.abandonStep
  try dsimp only
  repeat' (first
    | with_reducible assumption
    | with_reducible intro _
    | with_reducible apply State.modTm_keeps
    | with_reducible apply State.tryCommits_keeps
    | with_reducible apply State.reportStep_keeps)

theorem State.applyStep_only {ls : List Item} {s0 : State} {s : State} {p : PartNo} {k : Coll} {x : MeshStep}
    (h0 : changesOnly ls s0 s) (hm : incl [.time, .rasLog, .fns, .cmds, .locks, .pMem, .pScratch, .pColls, .pAcct, .pHot, .ctxs, .streams, .ristretto, .semaphores, .poison, .slm, .ports, .peers, .transit, .out, .fresh] ls = true) : changesOnly ls s0 (State.applyStep s p k x) := by
  have hs := @mem_of_incl [.time, .rasLog, .fns, .cmds, .locks, .pMem, .pScratch, .pColls, .pAcct, .pHot, .ctxs, .streams, .ristretto, .semaphores, .poison, .slm, .ports, .peers, .transit, .out, .fresh] ls hm
  unfold State.applyStep
  try dsimp only
  repeat' (first
    | with_reducible assumption
    | with_reducible intro _
    | with_reducible apply State.afterStep_only
    | with_reducible apply State.bump_only
    | with_reducible apply State.modTm_only
    | with_reducible apply State.stageLines_only
    | with_reducible apply State.applyRuns_only
    | with_reducible apply State.reportStep_only
    | with_reducible apply only_ite
    | exact incl_trans rfl hm
    | with_reducible apply only_mk
    | exact Or.inr (hs (by decide))
    | with_reducible exact Or.inl rfl
    | with_reducible exact parts_refl
    | (with_reducible refine Or.inl ?_; and_intros <;> with_reducible rfl)
    | exact Or.inl rfl
    | with_reducible refine only_pair (by assumption) ?_
    | dsimp only
    | rw [mk_put]
    | split)

theorem State.applyStep_keeps {s0 : State} {s : State} {p : PartNo} {k : Coll} {x : MeshStep}
    (h0 : keeps s0 s) : keeps s0 (State.applyStep s p k x) := by
  unfold State.applyStep
  try dsimp only
  repeat' (first
    | with_reducible assumption
    | with_reducible intro _
    | with_reducible apply State.afterStep_keeps
    | with_reducible apply State.bump_keeps
    | with_reducible apply State.modTm_keeps
    | with_reducible apply State.stageLines_keeps
    | with_reducible apply State.applyRuns_keeps
    | with_reducible apply State.reportStep_keeps
    | with_reducible apply keeps_ite
    | with_reducible apply keeps_mk
    | with_reducible exact id
    | with_reducible exact partsKeep_refl
    | with_reducible exact rasKeep_refl
    | with_reducible exact hbmKeep_refl
    | with_reducible exact pkgKeep_refl
    | with_reducible exact secKeep_refl
    | with_reducible exact namesKeep_refl
    | with_reducible refine keeps_pair (by assumption) ?_
    | dsimp only
    | rw [mk_put]
    | split)

theorem State.tryStep_only {ls : List Item} {s0 : State} {s : State} {p : PartNo} {uid step : Nat}
    (h0 : changesOnly ls s0 s) (hm : incl [.time, .rasLog, .fns, .cmds, .locks, .pMem, .pScratch, .pColls, .pAcct, .pHot, .ctxs, .streams, .ristretto, .semaphores, .poison, .slm, .ports, .peers, .transit, .out, .fresh] ls = true) : changesOnly ls s0 (State.tryStep s p uid step) := by
  have hs := @mem_of_incl [.time, .rasLog, .fns, .cmds, .locks, .pMem, .pScratch, .pColls, .pAcct, .pHot, .ctxs, .streams, .ristretto, .semaphores, .poison, .slm, .ports, .peers, .transit, .out, .fresh] ls hm
  unfold State.tryStep
  try dsimp only
  repeat' (first
    | with_reducible assumption
    | with_reducible intro _
    | with_reducible apply State.applyStep_only
    | with_reducible apply State.abandonStep_only
    | with_reducible apply only_ite
    | exact incl_trans rfl hm
    | with_reducible apply only_mk
    | exact Or.inr (hs (by decide))
    | with_reducible exact Or.inl rfl
    | with_reducible exact parts_refl
    | (with_reducible refine Or.inl ?_; and_intros <;> with_reducible rfl)
    | exact Or.inl rfl
    | with_reducible refine only_pair (by assumption) ?_
    | dsimp only
    | rw [mk_put]
    | split)

theorem State.tryStep_keeps {s0 : State} {s : State} {p : PartNo} {uid step : Nat}
    (h0 : keeps s0 s) : keeps s0 (State.tryStep s p uid step) := by
  unfold State.tryStep
  try dsimp only
  repeat' (first
    | with_reducible assumption
    | with_reducible intro _
    | with_reducible apply State.applyStep_keeps
    | with_reducible apply State.abandonStep_keeps
    | with_reducible apply keeps_ite
    | with_reducible apply keeps_mk
    | with_reducible exact id
    | with_reducible exact partsKeep_refl
    | with_reducible exact rasKeep_refl
    | with_reducible exact hbmKeep_refl
    | with_reducible exact pkgKeep_refl
    | with_reducible exact secKeep_refl
    | with_reducible exact namesKeep_refl
    | with_reducible refine keeps_pair (by assumption) ?_
    | dsimp only
    | rw [mk_put]
    | split)

theorem State.takeEnd_only {ls : List Item} {s0 : State} {s : State} {p : PartNo} {k : Coll} {member step participants inc : Nat} {fwd : Option Nat} {param : Bytes}
    (h0 : changesOnly ls s0 s) (hm : incl [.time, .rasLog, .fns, .cmds, .locks, .pMem, .pScratch, .pColls, .pAcct, .pHot, .ctxs, .streams, .ristretto, .semaphores, .poison, .slm, .ports, .peers, .transit, .out, .fresh] ls = true) : changesOnly ls s0 (State.takeEnd s p k member step participants inc fwd param) := by
  unfold State.takeEnd
  try dsimp only
  repeat' (first
    | with_reducible assumption
    | with_reducible intro _
    | with_reducible apply State.tryStep_only
    | with_reducible apply State.modTm_only
    | with_reducible apply only_ite
    | exact incl_trans rfl hm)

theorem State.takeEnd_keeps {s0 : State} {s : State} {p : PartNo} {k : Coll} {member step participants inc : Nat} {fwd : Option Nat} {param : Bytes}
    (h0 : keeps s0 s) : keeps s0 (State.takeEnd s p k member step participants inc fwd param) := by
  unfold State.takeEnd
  try dsimp only
  repeat' (first
    | with_reducible assumption
    | with_reducible intro _
    | with_reducible apply State.tryStep_keeps
    | with_reducible apply State.modTm_keeps)

theorem State.onTable_only {ls : List Item} {s0 : State} {s : State} {p : PartNo} {handle : Nat} {f : Coll → State} (hf : ∀ x, changesOnly ls s0 (f x))
    (h0 : changesOnly ls s0 s) (hm : incl [.slm] ls = true) : changesOnly ls s0 (State.onTable s p handle f) := by
  have hs := @mem_of_incl [.slm] ls hm
  unfold State.onTable
  try dsimp only
  repeat' (first
    | with_reducible assumption
    | with_reducible intro _
    | with_reducible apply hf
    | with_reducible apply State.settled_only
    | with_reducible apply only_ite
    | exact incl_trans rfl hm
    | with_reducible apply only_mk
    | exact Or.inr (hs (by decide))
    | with_reducible exact Or.inl rfl
    | with_reducible exact parts_refl
    | (with_reducible refine Or.inl ?_; and_intros <;> with_reducible rfl)
    | exact Or.inl rfl
    | with_reducible refine only_pair (by assumption) ?_
    | dsimp only
    | rw [mk_put]
    | split)

theorem State.onTable_keeps {s0 : State} {s : State} {p : PartNo} {handle : Nat} {f : Coll → State} (hf : ∀ x, keeps s0 (f x))
    (h0 : keeps s0 s) : keeps s0 (State.onTable s p handle f) := by
  unfold State.onTable
  try dsimp only
  repeat' (first
    | with_reducible assumption
    | with_reducible intro _
    | with_reducible apply hf
    | with_reducible apply State.settled_keeps
    | with_reducible apply keeps_ite
    | with_reducible apply keeps_mk
    | with_reducible exact id
    | with_reducible exact partsKeep_refl
    | with_reducible exact rasKeep_refl
    | with_reducible exact hbmKeep_refl
    | with_reducible exact pkgKeep_refl
    | with_reducible exact secKeep_refl
    | with_reducible exact namesKeep_refl
    | with_reducible refine keeps_pair (by assumption) ?_
    | dsimp only
    | rw [mk_put]
    | split)

theorem State.takeForwardDone_only {ls : List Item} {s0 : State} {s : State} {p : PartNo} {k : Coll} {block : Nat}
    (h0 : changesOnly ls s0 s) (hm : incl [.time, .rasLog, .fns, .cmds, .locks, .pMem, .pScratch, .pColls, .pAcct, .pHot, .ctxs, .streams, .ristretto, .semaphores, .poison, .slm, .ports, .peers, .transit, .out, .fresh] ls = true) : changesOnly ls s0 (State.takeForwardDone s p k block) := by
  unfold State.takeForwardDone
  try dsimp only
  repeat' (first
    | with_reducible assumption
    | with_reducible intro _
    | with_reducible apply State.tryStep_only
    | with_reducible apply State.modTm_only
    | with_reducible apply only_foldl
    | with_reducible apply only_foldl_fst
    | exact incl_trans rfl hm)

theorem State.takeForwardDone_keeps {s0 : State} {s : State} {p : PartNo} {k : Coll} {block : Nat}
    (h0 : keeps s0 s) : keeps s0 (State.takeForwardDone s p k block) := by
  unfold State.takeForwardDone
  try dsimp only
  repeat' (first
    | with_reducible assumption
    | with_reducible intro _
    | with_reducible apply State.tryStep_keeps
    | with_reducible apply State.modTm_keeps
    | with_reducible apply keeps_foldl)

theorem State.shardGo_only {ls : List Item} {s0 : State} {s : State} {p : PartNo} {k : Coll} {c : Cmd} {m : MeshWait} {free : Nat}
    (h0 : changesOnly ls s0 s) (hm : incl [.rasLog, .fns, .cmds, .locks, .pMem, .pColls, .pAcct, .ctxs, .streams, .ristretto, .semaphores, .poison, .slm, .ports, .peers, .transit, .out, .fresh] ls = true) : changesOnly ls s0 (State.shardGo s p k c m free) := by
  unfold State.shardGo
  try dsimp only
  repeat' (first
    | with_reducible assumption
    | with_reducible intro _
    | with_reducible apply State.toDevice_only
    | with_reducible apply State.tearDown_only
    | with_reducible apply State.modCmd_only
    | with_reducible apply State.startHandoff_only
    | with_reducible apply only_ite
    | with_reducible apply only_foldl
    | with_reducible apply only_foldl_fst
    | exact incl_trans rfl hm)

theorem State.shardGo_keeps {s0 : State} {s : State} {p : PartNo} {k : Coll} {c : Cmd} {m : MeshWait} {free : Nat}
    (h0 : keeps s0 s) : keeps s0 (State.shardGo s p k c m free) := by
  unfold State.shardGo
  try dsimp only
  repeat' (first
    | with_reducible assumption
    | exact len_modify
    | exact len_map
    | exact len_mapIdx
    | with_reducible intro _
    | with_reducible apply State.toDevice_keeps
    | with_reducible apply State.tearDown_keeps
    | with_reducible apply State.modCmd_keeps
    | with_reducible apply State.startHandoff_keeps
    | with_reducible apply keeps_ite
    | with_reducible apply keeps_foldl)

theorem State.takeRoom_only {ls : List Item} {s0 : State} {s : State} {cid free : Nat}
    (h0 : changesOnly ls s0 s) (hm : incl [.rasLog, .fns, .cmds, .locks, .pMem, .pColls, .pAcct, .ctxs, .streams, .ristretto, .semaphores, .poison, .slm, .ports, .peers, .transit, .out, .fresh] ls = true) : changesOnly ls s0 (State.takeRoom s cid free) := by
  have hs := @mem_of_incl [.rasLog, .fns, .cmds, .locks, .pMem, .pColls, .pAcct, .ctxs, .streams, .ristretto, .semaphores, .poison, .slm, .ports, .peers, .transit, .out, .fresh] ls hm
  unfold State.takeRoom
  try dsimp only
  repeat' (first
    | with_reducible assumption
    | with_reducible intro _
    | with_reducible apply State.shardEnd_only
    | with_reducible apply State.onCmd_only
    | with_reducible apply State.shardGo_only
    | with_reducible apply only_ite
    | exact incl_trans rfl hm
    | with_reducible apply only_mk
    | exact Or.inr (hs (by decide))
    | with_reducible exact Or.inl rfl
    | with_reducible exact parts_refl
    | (with_reducible refine Or.inl ?_; and_intros <;> with_reducible rfl)
    | exact Or.inl rfl
    | with_reducible refine only_pair (by assumption) ?_
    | dsimp only
    | rw [mk_put]
    | split)

theorem State.takeRoom_keeps {s0 : State} {s : State} {cid free : Nat}
    (h0 : keeps s0 s) : keeps s0 (State.takeRoom s cid free) := by
  unfold State.takeRoom
  try dsimp only
  repeat' (first
    | with_reducible assumption
    | with_reducible intro _
    | with_reducible apply State.shardEnd_keeps
    | with_reducible apply State.onCmd_keeps
    | with_reducible apply State.shardGo_keeps
    | with_reducible apply keeps_ite
    | with_reducible apply keeps_mk
    | with_reducible exact id
    | with_reducible exact partsKeep_refl
    | with_reducible exact rasKeep_refl
    | with_reducible exact hbmKeep_refl
    | with_reducible exact pkgKeep_refl
    | with_reducible exact secKeep_refl
    | with_reducible exact namesKeep_refl
    | with_reducible refine keeps_pair (by assumption) ?_
    | dsimp only
    | rw [mk_put]
    | split)

end Sys2Proof.Machine
end

