-- ==== Sys2Proof/Laws/Embedding.lean ====
section
/-! SUPPORT. What each operation of Machine/Embedding.lean may change: its frame, and that it
keeps the invariant and the fuses. -/

namespace Sys2Proof.Machine

open Sys2Proof.Safety Sys2Proof.Laws

theorem State.lookupLocal_only {ls : List Item} {s0 : State} {s : State} {p : PartNo} {k : Coll} {c : Cmd}
    (h0 : changesOnly ls s0 s) (hm : incl [.rasLog, .fns, .cmds, .locks, .pMem, .pColls, .pAcct, .pHot, .ctxs, .streams, .ristretto, .semaphores, .poison, .slm, .ports, .peers, .transit, .out, .fresh] ls = true) : changesOnly ls s0 (State.lookupLocal s p k c) := by
  unfold State.lookupLocal
  try dsimp only
  repeat' (first
    | with_reducible assumption
    | with_reducible intro _
    | with_reducible apply State.lookupEnd_only
    | with_reducible apply State.gathered_only
    | with_reducible apply State.accessRows_only
    | exact incl_trans rfl hm)

theorem State.lookupLocal_keeps {s0 : State} {s : State} {p : PartNo} {k : Coll} {c : Cmd}
    (h0 : keeps s0 s) : keeps s0 (State.lookupLocal s p k c) := by
  unfold State.lookupLocal
  try dsimp only
  repeat' (first
    | with_reducible assumption
    | with_reducible intro _
    | with_reducible apply State.lookupEnd_keeps
    | with_reducible apply State.gathered_keeps
    | with_reducible apply State.accessRows_keeps)

theorem State.updateSum_only {ls : List Item} {s0 : State} {s : State} {p : PartNo} {k : Coll} {c : Cmd}
    (h0 : changesOnly ls s0 s) (hm : incl [.cmds, .pUses, .slm, .fresh] ls = true) : changesOnly ls s0 (State.updateSum s p k c) := by
  unfold State.updateSum
  try dsimp only
  repeat' (first
    | with_reducible assumption
    | with_reducible intro _
    | with_reducible apply State.bump_only
    | with_reducible apply State.stageLines_only
    | with_reducible apply State.placeOverflow_only
    | with_reducible apply State.modCmd_only
    | with_reducible apply only_ite
    | exact incl_trans rfl hm)

theorem State.updateSum_keeps {s0 : State} {s : State} {p : PartNo} {k : Coll} {c : Cmd}
    (h0 : keeps s0 s) : keeps s0 (State.updateSum s p k c) := by
  unfold State.updateSum
  try dsimp only
  repeat' (first
    | with_reducible assumption
    | with_reducible intro _
    | with_reducible apply State.bump_keeps
    | with_reducible apply State.stageLines_keeps
    | with_reducible apply State.placeOverflow_keeps
    | with_reducible apply State.modCmd_keeps)

theorem State.updateStep_only {ls : List Item} {s0 : State} {s : State} {p : PartNo} {k : Coll} {c : Cmd} {u : UpdSt}
    (h0 : changesOnly ls s0 s) (hm : incl [.time, .rasLog, .fns, .cmds, .locks, .pMem, .pScratch, .pColls, .pHot, .ctxs, .streams, .ristretto, .semaphores, .poison, .slm, .out, .fresh] ls = true) : changesOnly ls s0 (State.updateStep s p k c u) := by
  unfold State.updateStep
  try dsimp only
  repeat' (first
    | with_reducible assumption
    | with_reducible intro _
    | with_reducible apply State.drop_only
    | with_reducible apply State.finish_only
    | with_reducible apply State.modCmd_only
    | with_reducible apply State.beginCommit_only
    | with_reducible apply State.applyRows_only
    | with_reducible apply State.endCommit_only
    | with_reducible apply only_ite
    | exact incl_trans rfl hm)

theorem State.updateStep_keeps {s0 : State} {s : State} {p : PartNo} {k : Coll} {c : Cmd} {u : UpdSt}
    (h0 : keeps s0 s) : keeps s0 (State.updateStep s p k c u) := by
  unfold State.updateStep
  try dsimp only
  repeat' (first
    | with_reducible assumption
    | with_reducible intro _
    | with_reducible apply State.drop_keeps
    | with_reducible apply State.finish_keeps
    | with_reducible apply State.modCmd_keeps
    | with_reducible apply State.beginCommit_keeps
    | with_reducible apply State.applyRows_keeps
    | with_reducible apply State.endCommit_keeps
    | with_reducible apply keeps_ite)

theorem State.withUpd_only {ls : List Item} {s0 : State} {s : State} {cid : Nat} {f : Cmd → UpdSt → State} (hf : ∀ x y, changesOnly ls s0 (f x y))
    (h0 : changesOnly ls s0 s) (hm : incl [] ls = true) : changesOnly ls s0 (State.withUpd s cid f) := by
  have hs := @mem_of_incl [] ls hm
  unfold State.withUpd
  try dsimp only
  repeat' (first
    | with_reducible assumption
    | with_reducible intro _
    | with_reducible apply hf
    | with_reducible apply only_ite
    | exact incl_trans rfl hm
    | with_reducible apply only_mk
    | exact Or.inr (hs (by decide))
    | with_reducible exact Or.inl rfl
    | with_reducible exact parts_refl
    | (with_reducible refine Or.inl ?_; and_intros <;> with_reducible rfl)
    | exact Or.inl rfl
    | with_reducible refine only_pair (by assumption) ?_
    | dsimp only
    | rw [mk_put]
    | split)

theorem State.withUpd_keeps {s0 : State} {s : State} {cid : Nat} {f : Cmd → UpdSt → State} (hf : ∀ x y, keeps s0 (f x y))
    (h0 : keeps s0 s) : keeps s0 (State.withUpd s cid f) := by
  unfold State.withUpd
  try dsimp only
  repeat' (first
    | with_reducible assumption
    | with_reducible intro _
    | with_reducible apply hf
    | with_reducible apply keeps_ite
    | with_reducible apply keeps_mk
    | with_reducible exact id
    | with_reducible exact partsKeep_refl
    | with_reducible exact rasKeep_refl
    | with_reducible exact hbmKeep_refl
    | with_reducible exact pkgKeep_refl
    | with_reducible exact secKeep_refl
    | with_reducible exact namesKeep_refl
    | with_reducible refine keeps_pair (by assumption) ?_
    | dsimp only
    | rw [mk_put]
    | split)

theorem State.updateAll_only {ls : List Item} {s0 : State} {p : PartNo} {k : Coll} {cid n : Nat} {s : State}
    (h0 : changesOnly ls s0 s) (hm : incl [.time, .rasLog, .fns, .cmds, .locks, .pMem, .pScratch, .pColls, .pHot, .ctxs, .streams, .ristretto, .semaphores, .poison, .slm, .out, .fresh] ls = true) :
    changesOnly ls s0 (State.updateAll p k cid n s) := by
  induction n generalizing s with
  | zero => exact h0
  | succ n ih =>
    unfold State.updateAll
    exact ih (State.withUpd_only (fun _ _ => State.updateStep_only h0 (incl_trans rfl hm)) h0 (incl_trans rfl hm))

theorem State.updateAll_keeps {s0 : State} {p : PartNo} {k : Coll} {cid n : Nat} {s : State}
    (h0 : keeps s0 s) :
    keeps s0 (State.updateAll p k cid n s) := by
  induction n generalizing s with
  | zero => exact h0
  | succ n ih =>
    unfold State.updateAll
    exact ih (State.withUpd_keeps (fun _ _ => State.updateStep_keeps h0) h0)

theorem State.sendPairs_only {ls : List Item} {s0 : State} {s : State} {p : PartNo} {k : Coll} {c : Cmd}
    (h0 : changesOnly ls s0 s) (hm : incl [.rasLog, .fns, .cmds, .locks, .pMem, .pUses, .pColls, .pAcct, .ctxs, .streams, .ristretto, .semaphores, .poison, .slm, .meshCount, .ports, .peers, .transit, .out, .fresh] ls = true) : changesOnly ls s0 (State.sendPairs s p k c) := by
  unfold State.sendPairs
  try dsimp only
  repeat' (first
    | with_reducible assumption
    | with_reducible intro _
    | with_reducible apply State.bump_only
    | with_reducible apply State.tearDown_only
    | with_reducible apply State.newTag_only
    | with_reducible apply State.placeOverflow_only
    | with_reducible apply State.modCmd_only
    | with_reducible apply State.takePairs_only
    | with_reducible apply State.pairsTo_only
    | with_reducible apply only_ite
    | with_reducible apply only_foldl
    | with_reducible apply only_foldl_fst
    | exact incl_trans rfl hm)

theorem State.sendPairs_keeps {s0 : State} {s : State} {p : PartNo} {k : Coll} {c : Cmd}
    (h0 : keeps s0 s) : keeps s0 (State.sendPairs s p k c) := by
  unfold State.sendPairs
  try dsimp only
  repeat' (first
    | with_reducible assumption
    | exact len_modify
    | exact len_map
    | exact len_mapIdx
    | with_reducible intro _
    | with_reducible apply State.bump_keeps
    | with_reducible apply State.tearDown_keeps
    | with_reducible apply State.newTag_keeps
    | with_reducible apply State.placeOverflow_keeps
    | with_reducible apply State.modCmd_keeps
    | with_reducible apply State.takePairs_keeps
    | with_reducible apply State.pairsTo_keeps
    | with_reducible apply keeps_ite
    | with_reducible apply keeps_foldl)

theorem State.sendEnds_only {ls : List Item} {s0 : State} {s : State} {p : PartNo} {k : Coll} {c : Cmd}
    (h0 : changesOnly ls s0 s) (hm : incl [.time, .rasLog, .fns, .cmds, .locks, .pMem, .pScratch, .pColls, .pAcct, .pHot, .ctxs, .streams, .ristretto, .semaphores, .poison, .slm, .ports, .peers, .transit, .out, .fresh] ls = true) : changesOnly ls s0 (State.sendEnds s p k c) := by
  have hs := @mem_of_incl [.time, .rasLog, .fns, .cmds, .locks, .pMem, .pScratch, .pColls, .pAcct, .pHot, .ctxs, .streams, .ristretto, .semaphores, .poison, .slm, .ports, .peers, .transit, .out, .fresh] ls hm
  unfold State.sendEnds
  try dsimp only
  repeat' (first
    | with_reducible assumption
    | with_reducible intro _
    | with_reducible apply State.tryStep_only
    | with_reducible apply State.modCmd_only
    | with_reducible apply State.toOthers_only
    | with_reducible apply State.takeEnd_only
    | with_reducible apply only_ite
    | exact incl_trans rfl hm
    | with_reducible apply only_mk
    | exact Or.inr (hs (by decide))
    | with_reducible exact Or.inl rfl
    | with_reducible exact parts_refl
    | (with_reducible refine Or.inl ?_; and_intros <;> with_reducible rfl)
    | exact Or.inl rfl
    | with_reducible refine only_pair (by assumption) ?_
    | dsimp only
    | rw [mk_put]
    | split)

theorem State.sendEnds_keeps {s0 : State} {s : State} {p : PartNo} {k : Coll} {c : Cmd}
    (h0 : keeps s0 s) : keeps s0 (State.sendEnds s p k c) := by
  unfold State.sendEnds
  try dsimp only
  repeat' (first
    | with_reducible assumption
    | exact len_modify
    | exact len_map
    | exact len_mapIdx
    | with_reducible intro _
    | with_reducible apply State.tryStep_keeps
    | with_reducible apply State.modCmd_keeps
    | with_reducible apply State.toOthers_keeps
    | with_reducible apply State.takeEnd_keeps
    | with_reducible apply keeps_ite
    | with_reducible apply keeps_mk
    | with_reducible exact id
    | with_reducible exact partsKeep_refl
    | with_reducible exact rasKeep_refl
    | with_reducible exact hbmKeep_refl
    | with_reducible exact pkgKeep_refl
    | with_reducible exact secKeep_refl
    | with_reducible exact namesKeep_refl
    | exact rfl
    | with_reducible refine keeps_pair (by assumption) ?_
    | dsimp only
    | rw [mk_put]
    | split)

theorem State.updateTurn_only {ls : List Item} {s0 : State} {s : State} {p : PartNo} {k : Coll} {cid : Nat} {whole : Bool}
    (h0 : changesOnly ls s0 s) (hm : incl [.time, .rasLog, .fns, .cmds, .locks, .pMem, .pScratch, .pColls, .pAcct, .pHot, .ctxs, .streams, .ristretto, .semaphores, .poison, .slm, .ports, .peers, .transit, .out, .fresh] ls = true) : changesOnly ls s0 (State.updateTurn s p k cid whole) := by
  unfold State.updateTurn
  try dsimp only
  repeat' (first
    | with_reducible assumption
    | with_reducible intro _
    | with_reducible apply State.withUpd_only
    | with_reducible apply State.updateAll_only
    | with_reducible apply State.sendEnds_only
    | with_reducible apply State.updateStep_only
    | with_reducible apply only_ite
    | exact incl_trans rfl hm)

theorem State.updateTurn_keeps {s0 : State} {s : State} {p : PartNo} {k : Coll} {cid : Nat} {whole : Bool}
    (h0 : keeps s0 s) : keeps s0 (State.updateTurn s p k cid whole) := by
  unfold State.updateTurn
  try dsimp only
  repeat' (first
    | with_reducible assumption
    | with_reducible intro _
    | with_reducible apply State.withUpd_keeps
    | with_reducible apply State.updateAll_keeps
    | with_reducible apply State.sendEnds_keeps
    | with_reducible apply State.updateStep_keeps
    | with_reducible apply keeps_ite)

theorem State.hotRows_only {ls : List Item} {s0 : State} {s : State} {p : PartNo} {k : Coll} {c : Cmd}
    (h0 : changesOnly ls s0 s) (hm : incl [.rasLog, .fns, .cmds, .locks, .pScratch, .pUses, .pColls, .ctxs, .streams, .ristretto, .semaphores, .slm, .out] ls = true) : changesOnly ls s0 (State.hotRows s p k c) := by
  have hs := @mem_of_incl [.rasLog, .fns, .cmds, .locks, .pScratch, .pUses, .pColls, .ctxs, .streams, .ristretto, .semaphores, .slm, .out] ls hm
  unfold State.hotRows
  try dsimp only
  repeat' (first
    | with_reducible assumption
    | with_reducible intro _
    | with_reducible apply State.finish_only
    | with_reducible apply State.modCollU_only
    | with_reducible apply State.placeHot_only
    | with_reducible apply State.fail_only
    | with_reducible apply only_ite
    | with_reducible apply only_foldl
    | with_reducible apply only_foldl_fst
    | exact incl_trans rfl hm
    | with_reducible apply only_mk
    | exact Or.inr (hs (by decide))
    | with_reducible exact Or.inl rfl
    | with_reducible exact parts_refl
    | (with_reducible refine Or.inl ?_; and_intros <;> with_reducible rfl)
    | exact Or.inl rfl
    | with_reducible refine only_pair (by assumption) ?_
    | dsimp only
    | rw [mk_put]
    | split)

theorem State.hotRows_keeps {s0 : State} {s : State} {p : PartNo} {k : Coll} {c : Cmd}
    (h0 : keeps s0 s) : keeps s0 (State.hotRows s p k c) := by
  unfold State.hotRows
  try dsimp only
  repeat' (first
    | with_reducible assumption
    | with_reducible intro _
    | with_reducible apply State.finish_keeps
    | with_reducible apply State.modCollU_keeps
    | with_reducible apply State.placeHot_keeps
    | with_reducible apply State.fail_keeps
    | with_reducible apply keeps_ite
    | with_reducible apply keeps_foldl
    | with_reducible apply keeps_foldl_fst
    | with_reducible apply keeps_mk
    | with_reducible exact id
    | with_reducible exact partsKeep_refl
    | with_reducible exact rasKeep_refl
    | with_reducible exact hbmKeep_refl
    | with_reducible exact pkgKeep_refl
    | with_reducible exact secKeep_refl
    | with_reducible exact namesKeep_refl
    | with_reducible refine keeps_pair (by assumption) ?_
    | dsimp only
    | rw [mk_put]
    | split)

theorem State.hotEntrySet_only {ls : List Item} {s0 : State} {s : State} {p : PartNo} {k : Coll} {c : Cmd}
    (h0 : changesOnly ls s0 s) (hm : incl [.cmds, .locks, .pColls, .ctxs, .streams, .ristretto, .semaphores, .slm] ls = true) : changesOnly ls s0 (State.hotEntrySet s p k c) := by
  have hs := @mem_of_incl [.cmds, .locks, .pColls, .ctxs, .streams, .ristretto, .semaphores, .slm] ls hm
  unfold State.hotEntrySet
  try dsimp only
  repeat' (first
    | with_reducible assumption
    | with_reducible intro _
    | with_reducible apply State.touch_only
    | with_reducible apply State.finish_only
    | with_reducible apply State.modCollU_only
    | with_reducible apply State.fail_only
    | with_reducible apply only_ite
    | exact incl_trans rfl hm
    | with_reducible apply only_mk
    | exact Or.inr (hs (by decide))
    | with_reducible exact Or.inl rfl
    | with_reducible exact parts_refl
    | (with_reducible refine Or.inl ?_; and_intros <;> with_reducible rfl)
    | exact Or.inl rfl
    | with_reducible refine only_pair (by assumption) ?_
    | dsimp only
    | rw [mk_put]
    | split)

theorem State.hotEntrySet_keeps {s0 : State} {s : State} {p : PartNo} {k : Coll} {c : Cmd}
    (h0 : keeps s0 s) : keeps s0 (State.hotEntrySet s p k c) := by
  unfold State.hotEntrySet
  try dsimp only
  repeat' (first
    | with_reducible assumption
    | with_reducible intro _
    | with_reducible apply State.touch_keeps
    | with_reducible apply State.finish_keeps
    | with_reducible apply State.modCollU_keeps
    | with_reducible apply State.fail_keeps
    | with_reducible apply keeps_ite
    | with_reducible apply keeps_mk
    | with_reducible exact id
    | with_reducible exact partsKeep_refl
    | with_reducible exact rasKeep_refl
    | with_reducible exact hbmKeep_refl
    | with_reducible exact pkgKeep_refl
    | with_reducible exact secKeep_refl
    | with_reducible exact namesKeep_refl
    | with_reducible refine keeps_pair (by assumption) ?_
    | dsimp only
    | rw [mk_put]
    | split)

end Sys2Proof.Machine
end

