-- ==== Sys2Proof/Laws/Engines.lean ====
section
/-! SUPPORT. What each operation of Machine/Engines.lean may change: its frame, and that it
keeps the invariant and the fuses. -/

namespace Sys2Proof.Machine

open Sys2Proof.Safety Sys2Proof.Laws

theorem State.loadCarafe_only {ls : List Item} {s0 : State} {s : State} {core a : Nat} {bs : Bytes}
    (h0 : changesOnly ls s0 s) (hm : incl [.cores] ls = true) : changesOnly ls s0 (State.loadCarafe s core a bs) := by
  unfold State.loadCarafe
  try dsimp only
  repeat' first | with_reducible assumption | with_reducible intro _ | with_reducible apply State.modCore_only

theorem State.loadCarafe_keeps {s0 : State} {s : State} {core a : Nat} {bs : Bytes}
    (h0 : keeps s0 s) : keeps s0 (State.loadCarafe s core a bs) := by
  unfold State.loadCarafe
  try dsimp only
  repeat' first | with_reducible assumption | with_reducible intro _ | with_reducible apply State.modCore_keeps

theorem State.walkerFetch_only {ls : List Item} {s0 : State} {s : State} {core slot : Nat} {bs : Bytes}
    (h0 : changesOnly ls s0 s) (hm : incl [.cores] ls = true) : changesOnly ls s0 (State.walkerFetch s core slot bs) := by
  unfold State.walkerFetch
  try dsimp only
  repeat' first | with_reducible assumption | with_reducible intro _ | with_reducible apply State.modCore_only

theorem State.walkerFetch_keeps {s0 : State} {s : State} {core slot : Nat} {bs : Bytes}
    (h0 : keeps s0 s) : keeps s0 (State.walkerFetch s core slot bs) := by
  unfold State.walkerFetch
  try dsimp only
  repeat' first | with_reducible assumption | with_reducible intro _ | with_reducible apply State.modCore_keeps

theorem State.ranWalk_only {ls : List Item} {s0 : State} {s : State} {p : PartNo} {c : Cmd} {w : Walk} {r : Reads}
    (h0 : changesOnly ls s0 s) (hm : incl [.cores] ls = true) : changesOnly ls s0 (State.ranWalk s p c w r) := by
  have hs := @mem_of_incl [.cores] ls hm
  unfold State.ranWalk
  try dsimp only
  repeat' (first
    | with_reducible assumption
    | with_reducible intro _
    | with_reducible apply State.loadCarafe_only
    | with_reducible apply State.walkerFetch_only
    | with_reducible apply State.modCore_only
    | exact incl_trans rfl hm
    | with_reducible apply only_mk
    | exact Or.inr (hs (by decide))
    | with_reducible exact Or.inl rfl
    | with_reducible exact parts_refl
    | (with_reducible refine Or.inl ?_; and_intros <;> with_reducible rfl)
    | exact Or.inl rfl
    | with_reducible refine only_pair (by assumption) ?_
    | dsimp only
    | rw [mk_put]
    | split)

theorem State.ranWalk_keeps {s0 : State} {s : State} {p : PartNo} {c : Cmd} {w : Walk} {r : Reads}
    (h0 : keeps s0 s) : keeps s0 (State.ranWalk s p c w r) := by
  unfold State.ranWalk
  try dsimp only
  repeat' (first
    | with_reducible assumption
    | with_reducible intro _
    | with_reducible apply State.loadCarafe_keeps
    | with_reducible apply State.walkerFetch_keeps
    | with_reducible apply State.modCore_keeps
    | with_reducible apply keeps_mk
    | with_reducible exact id
    | with_reducible exact partsKeep_refl
    | with_reducible exact rasKeep_refl
    | with_reducible exact hbmKeep_refl
    | with_reducible exact pkgKeep_refl
    | with_reducible exact secKeep_refl
    | with_reducible exact namesKeep_refl
    | with_reducible refine keeps_pair (by assumption) ?_
    | dsimp only
    | rw [mk_put]
    | split)

theorem State.ranBatch_only {ls : List Item} {s0 : State} {s : State} {p : PartNo} {k : Coll} {w : Walk} {seed n core : Nat} {slots : List Nat}
    (h0 : changesOnly ls s0 s) (hm : incl [.cores] ls = true) : changesOnly ls s0 (State.ranBatch s p k w seed n core slots) := by
  unfold State.ranBatch
  try dsimp only
  repeat' (first
    | with_reducible assumption
    | with_reducible intro _
    | with_reducible apply State.loadCarafe_only
    | with_reducible apply State.modCore_only
    | with_reducible apply only_ite
    | with_reducible apply only_foldl)

theorem State.ranBatch_keeps {s0 : State} {s : State} {p : PartNo} {k : Coll} {w : Walk} {seed n core : Nat} {slots : List Nat}
    (h0 : keeps s0 s) : keeps s0 (State.ranBatch s p k w seed n core slots) := by
  unfold State.ranBatch
  try dsimp only
  repeat' (first
    | with_reducible assumption
    | with_reducible intro _
    | with_reducible apply State.loadCarafe_keeps
    | with_reducible apply State.modCore_keeps
    | with_reducible apply keeps_ite
    | with_reducible apply keeps_foldl)

theorem State.ranBatches_only {ls : List Item} {s0 : State} {s : State} {p : PartNo} {k : Coll} {seed : Nat} {cid : Nat} {ok : Meta → Bool} {before after : Walk}
    (h0 : changesOnly ls s0 s) (hm : incl [.cores] ls = true) : changesOnly ls s0 (State.ranBatches s p k seed cid ok before after) := by
  have hs := @mem_of_incl [.cores] ls hm
  unfold State.ranBatches
  try dsimp only
  repeat' (first
    | with_reducible assumption
    | with_reducible intro _
    | with_reducible apply State.loadCarafe_only
    | with_reducible apply State.modCore_only
    | with_reducible apply State.ranBatch_only
    | with_reducible apply only_foldl
    | with_reducible apply only_foldl_fst
    | exact incl_trans rfl hm
    | with_reducible apply only_mk
    | exact Or.inr (hs (by decide))
    | with_reducible exact Or.inl rfl
    | with_reducible exact parts_refl
    | (with_reducible refine Or.inl ?_; and_intros <;> with_reducible rfl)
    | exact Or.inl rfl
    | with_reducible refine only_pair (by assumption) ?_
    | dsimp only
    | rw [mk_put]
    | split)

theorem State.ranBatches_keeps {s0 : State} {s : State} {p : PartNo} {k : Coll} {seed : Nat} {cid : Nat} {ok : Meta → Bool} {before after : Walk}
    (h0 : keeps s0 s) : keeps s0 (State.ranBatches s p k seed cid ok before after) := by
  unfold State.ranBatches
  try dsimp only
  repeat' (first
    | with_reducible assumption
    | with_reducible intro _
    | with_reducible apply State.loadCarafe_keeps
    | with_reducible apply State.modCore_keeps
    | with_reducible apply State.ranBatch_keeps
    | with_reducible apply keeps_foldl
    | with_reducible apply keeps_foldl_fst
    | with_reducible apply keeps_mk
    | with_reducible exact id
    | with_reducible exact partsKeep_refl
    | with_reducible exact rasKeep_refl
    | with_reducible exact hbmKeep_refl
    | with_reducible exact pkgKeep_refl
    | with_reducible exact secKeep_refl
    | with_reducible exact namesKeep_refl
    | with_reducible refine keeps_pair (by assumption) ?_
    | dsimp only
    | rw [mk_put]
    | split)

end Sys2Proof.Machine
end

