-- ==== Sys2Proof/Laws/Hbm.lean ====
section
/-! SUPPORT. What each operation of Machine/Hbm.lean may change: its frame, and that it
keeps the invariant and the fuses. -/

namespace Sys2Proof.Machine

open Sys2Proof.Safety Sys2Proof.Laws

theorem State.badBurst_only {ls : List Item} {s0 : State} {s : State} {c line burst : Nat}
    (h0 : changesOnly ls s0 s) (hm : incl [.rasLog, .fns, .channels, .poison, .hbmTotals, .out] ls = true) : changesOnly ls s0 (State.badBurst s c line burst) := by
  have hs := @mem_of_incl [.rasLog, .fns, .channels, .poison, .hbmTotals, .out] ls hm
  unfold State.badBurst
  try dsimp only
  repeat' (first
    | with_reducible assumption
    | with_reducible intro _
    | with_reducible apply State.modChan_only
    | with_reducible apply State.logHbm_only
    | with_reducible apply State.fenceChannel_only
    | with_reducible apply only_ite
    | exact incl_trans rfl hm
    | with_reducible apply only_mk
    | exact Or.inr (hs (by decide))
    | with_reducible exact Or.inl rfl
    | with_reducible exact parts_refl
    | (with_reducible refine Or.inl ?_; and_intros <;> with_reducible rfl)
    | exact Or.inl rfl
    | dsimp only
    | rw [mk_put])

theorem State.badBurst_keeps {s0 : State} {s : State} {c line burst : Nat}
    (h0 : keeps s0 s) : keeps s0 (State.badBurst s c line burst) := by
  unfold State.badBurst
  try dsimp only
  repeat' (first
    | with_reducible assumption
    | with_reducible intro _
    | with_reducible apply State.modChan_keeps
    | with_reducible apply State.logHbm_keeps
    | with_reducible apply State.fenceChannel_keeps
    | with_reducible apply keeps_ite
    | with_reducible apply keeps_mk
    | with_reducible exact id
    | with_reducible exact partsKeep_refl
    | with_reducible exact rasKeep_refl
    | with_reducible exact hbmKeep_refl
    | with_reducible exact pkgKeep_refl
    | with_reducible exact secKeep_refl
    | with_reducible exact namesKeep_refl
    | (refine (⟨?_, ?_⟩ : hbmKeep _ _) <;> first | exact id | exact len_modify | exact len_map | exact len_mapIdx | exact len_set)
    | dsimp only
    | rw [mk_put])

theorem State.refill_only {ls : List Item} {s0 : State} {s : State} {slice line : Nat}
    (h0 : changesOnly ls s0 s) (hm : incl [.slm] ls = true) : changesOnly ls s0 (State.refill s slice line) := by
  have hs := @mem_of_incl [.slm] ls hm
  unfold State.refill
  try dsimp only
  repeat' (first
    | with_reducible assumption
    | with_reducible intro _
    | with_reducible apply only_ite
    | exact incl_trans rfl hm
    | with_reducible apply only_mk
    | exact Or.inr (hs (by decide))
    | with_reducible exact Or.inl rfl
    | with_reducible exact parts_refl
    | (with_reducible refine Or.inl ?_; and_intros <;> with_reducible rfl)
    | exact Or.inl rfl
    | dsimp only
    | rw [mk_put])

theorem State.refill_keeps {s0 : State} {s : State} {slice line : Nat}
    (h0 : keeps s0 s) : keeps s0 (State.refill s slice line) := by
  unfold State.refill
  try dsimp only
  repeat' (first
    | with_reducible assumption
    | with_reducible intro _
    | with_reducible apply keeps_ite
    | with_reducible apply keeps_mk
    | with_reducible exact id
    | with_reducible exact partsKeep_refl
    | with_reducible exact rasKeep_refl
    | with_reducible exact hbmKeep_refl
    | with_reducible exact pkgKeep_refl
    | with_reducible exact secKeep_refl
    | with_reducible exact namesKeep_refl
    | dsimp only
    | rw [mk_put])

theorem State.correctBurst_only {ls : List Item} {s0 : State} {s : State} {c : Nat} {lanes : List Nat}
    (h0 : changesOnly ls s0 s) (hm : incl [.rasLog, .fns, .channels, .hbmTotals, .out] ls = true) : changesOnly ls s0 (State.correctBurst s c lanes) := by
  have hs := @mem_of_incl [.rasLog, .fns, .channels, .hbmTotals, .out] ls hm
  unfold State.correctBurst
  try dsimp only
  repeat' (first
    | with_reducible assumption
    | with_reducible intro _
    | with_reducible apply State.modChan_only
    | with_reducible apply State.logHbm_only
    | with_reducible apply only_foldl
    | with_reducible apply only_foldl_fst
    | exact incl_trans rfl hm
    | with_reducible apply only_mk
    | exact Or.inr (hs (by decide))
    | with_reducible exact Or.inl rfl
    | with_reducible exact parts_refl
    | (with_reducible refine Or.inl ?_; and_intros <;> with_reducible rfl)
    | exact Or.inl rfl
    | dsimp only
    | rw [mk_put])

theorem State.correctBurst_keeps {s0 : State} {s : State} {c : Nat} {lanes : List Nat}
    (h0 : keeps s0 s) : keeps s0 (State.correctBurst s c lanes) := by
  unfold State.correctBurst
  try dsimp only
  repeat' (first
    | with_reducible assumption
    | with_reducible intro _
    | with_reducible apply State.modChan_keeps
    | with_reducible apply State.logHbm_keeps
    | with_reducible apply keeps_foldl
    | with_reducible apply keeps_foldl_fst
    | with_reducible apply keeps_mk
    | with_reducible exact id
    | with_reducible exact partsKeep_refl
    | with_reducible exact rasKeep_refl
    | with_reducible exact hbmKeep_refl
    | with_reducible exact pkgKeep_refl
    | with_reducible exact secKeep_refl
    | with_reducible exact namesKeep_refl
    | (refine (⟨?_, ?_⟩ : hbmKeep _ _) <;> first | exact id | exact len_modify | exact len_map | exact len_mapIdx | exact len_set)
    | dsimp only
    | rw [mk_put])

theorem State.modStack_only {ls : List Item} {s0 : State} {s : State} {n : Nat} {f : Stack → Stack}
    (h0 : changesOnly ls s0 s) (hm : incl [.stacks] ls = true) : changesOnly ls s0 (State.modStack s n f) := by
  have hs := @mem_of_incl [.stacks] ls hm
  unfold State.modStack
  try dsimp only
  repeat' (first
    | with_reducible assumption
    | with_reducible intro _
    | exact incl_trans rfl hm
    | with_reducible apply only_mk
    | exact Or.inr (hs (by decide))
    | with_reducible exact Or.inl rfl
    | with_reducible exact parts_refl
    | (with_reducible refine Or.inl ?_; and_intros <;> with_reducible rfl)
    | exact Or.inl rfl
    | dsimp only
    | rw [mk_put])

theorem State.modStack_keeps {s0 : State} {s : State} {n : Nat} {f : Stack → Stack}
    (h0 : keeps s0 s) : keeps s0 (State.modStack s n f) := by
  unfold State.modStack
  try dsimp only
  repeat' (first
    | with_reducible assumption
    | with_reducible intro _
    | with_reducible apply keeps_mk
    | with_reducible exact id
    | with_reducible exact partsKeep_refl
    | with_reducible exact rasKeep_refl
    | with_reducible exact hbmKeep_refl
    | with_reducible exact pkgKeep_refl
    | with_reducible exact secKeep_refl
    | with_reducible exact namesKeep_refl
    | (refine (⟨?_, ?_⟩ : hbmKeep _ _) <;> first | exact id | exact len_modify | exact len_map | exact len_mapIdx | exact len_set)
    | dsimp only
    | rw [mk_put])

theorem State.readStack_only {ls : List Item} {s0 : State} {s : State} {n temp : Nat}
    (h0 : changesOnly ls s0 s) (hm : incl [.fw, .rasLog, .fns, .stacks, .out] ls = true) : changesOnly ls s0 (State.readStack s n temp) := by
  unfold State.readStack
  try dsimp only
  repeat' (first
    | with_reducible assumption
    | with_reducible intro _
    | with_reducible apply State.logHbm_only
    | with_reducible apply State.sensorEvent_only
    | with_reducible apply State.raise_only
    | with_reducible apply State.modStack_only
    | with_reducible apply only_getD
    | with_reducible apply only_ite
    | exact incl_trans rfl hm)

theorem State.readStack_keeps {s0 : State} {s : State} {n temp : Nat}
    (h0 : keeps s0 s) : keeps s0 (State.readStack s n temp) := by
  unfold State.readStack
  try dsimp only
  repeat' (first
    | with_reducible assumption
    | with_reducible intro _
    | with_reducible apply State.logHbm_keeps
    | with_reducible apply State.sensorEvent_keeps
    | with_reducible apply State.raise_keeps
    | with_reducible apply State.modStack_keeps
    | with_reducible apply keeps_getD
    | with_reducible apply keeps_ite)

theorem State.mapoutCtrl_only {ls : List Item} {s0 : State} {s : State} {value : Word32}
    (h0 : changesOnly ls s0 s) (hm : incl [.pkg, .fw, .rasLog, .cores, .clusters, .rasCounts, .hif, .fns, .pairs, .cmds, .locks, .pConfig, .pMem, .pKey, .pColls, .pAcct, .pSched, .ctxs, .streams, .ristretto, .semaphores, .channels, .poison, .hbmRun, .slm, .ports, .peers, .barriers, .transit, .power, .tests, .out, .fresh] ls = true) : changesOnly ls s0 (State.mapoutCtrl s value) := by
  unfold State.mapoutCtrl
  try dsimp only
  repeat' (first
    | with_reducible assumption
    | with_reducible intro _
    | with_reducible apply State.modChan_only
    | with_reducible apply State.logHost_only
    | with_reducible apply State.startRestart_only
    | with_reducible apply only_ite
    | exact incl_trans rfl hm)

theorem State.mapoutCtrl_keeps {s0 : State} {s : State} {value : Word32}
    (h0 : keeps s0 s) : keeps s0 (State.mapoutCtrl s value) := by
  unfold State.mapoutCtrl
  try dsimp only
  repeat' (first
    | with_reducible assumption
    | with_reducible intro _
    | with_reducible apply State.modChan_keeps
    | with_reducible apply State.logHost_keeps
    | with_reducible apply State.startRestart_keeps
    | with_reducible apply keeps_ite)

theorem State.modTg_only {ls : List Item} {s0 : State} {s : State} {c : Nat} {f : TrafficGen → TrafficGen}
    (h0 : changesOnly ls s0 s) (hm : incl [.channels] ls = true) : changesOnly ls s0 (State.modTg s c f) := by
  unfold State.modTg
  try dsimp only
  repeat' first | with_reducible assumption | with_reducible intro _ | with_reducible apply State.modChan_only

theorem State.modTg_keeps {s0 : State} {s : State} {c : Nat} {f : TrafficGen → TrafficGen}
    (h0 : keeps s0 s) : keeps s0 (State.modTg s c f) := by
  unfold State.modTg
  try dsimp only
  repeat' first | with_reducible assumption | with_reducible intro _ | with_reducible apply State.modChan_keeps

theorem execTgStart_only {ls : List Item} {s0 : State} {channel : Nat} {value : Word32} {s : State}
    (h0 : changesOnly ls s0 s) (hm : incl [.channels] ls = true) {d : State} : changesOnly ls s0 (after d (execTgStart channel value s)) := by
  unfold execTgStart
  unfold after
  try dsimp only
  repeat' (first
    | with_reducible assumption
    | with_reducible intro _
    | with_reducible apply State.modTg_only
    | with_reducible apply only_ite)

theorem execTgStart_keeps {s0 : State} {channel : Nat} {value : Word32} {s : State} {d : State}
    (h0 : keeps s0 s) : keeps s0 (after d (execTgStart channel value s)) := by
  unfold execTgStart
  unfold after
  try dsimp only
  repeat' (first
    | with_reducible assumption
    | with_reducible intro _
    | with_reducible apply State.modTg_keeps
    | with_reducible apply keeps_ite)

theorem execTgStop_only {ls : List Item} {s0 : State} {channel : Nat} {value : Word32} {s : State}
    (h0 : changesOnly ls s0 s) (hm : incl [.channels, .fresh] ls = true) {d : State} : changesOnly ls s0 (after d (execTgStop channel value s)) := by
  unfold execTgStop
  unfold after
  try dsimp only
  repeat' (first
    | with_reducible assumption
    | with_reducible intro _
    | with_reducible apply State.bump_only
    | with_reducible apply State.modTg_only
    | with_reducible apply only_ite
    | exact incl_trans rfl hm)

theorem execTgStop_keeps {s0 : State} {channel : Nat} {value : Word32} {s : State} {d : State}
    (h0 : keeps s0 s) : keeps s0 (after d (execTgStop channel value s)) := by
  unfold execTgStop
  unfold after
  try dsimp only
  repeat' (first
    | with_reducible assumption
    | with_reducible intro _
    | with_reducible apply State.bump_keeps
    | with_reducible apply State.modTg_keeps
    | with_reducible apply keeps_ite)

theorem State.mapOut_only {ls : List Item} {s0 : State} {s : State} {c : Nat}
    (h0 : changesOnly ls s0 s) (hm : incl [.fuses, .rasLog, .fns, .channels, .out] ls = true) : changesOnly ls s0 (State.mapOut s c) := by
  have hs := @mem_of_incl [.fuses, .rasLog, .fns, .channels, .out] ls hm
  unfold State.mapOut
  try dsimp only
  repeat' (first
    | with_reducible assumption
    | with_reducible intro _
    | with_reducible apply State.modChan_only
    | with_reducible apply State.logHbm_only
    | with_reducible apply only_ite
    | exact incl_trans rfl hm
    | with_reducible apply only_mk
    | exact Or.inr (hs (by decide))
    | with_reducible exact Or.inl rfl
    | with_reducible exact parts_refl
    | (with_reducible refine Or.inl ?_; and_intros <;> with_reducible rfl)
    | exact Or.inl rfl
    | dsimp only
    | rw [mk_put])

theorem State.mapOut_keeps {s0 : State} {s : State} {c : Nat} (h0 : keeps s0 s) : keeps s0 (State.mapOut s c) := by
  unfold State.mapOut
  dsimp only
  split
  · rename_i h
    apply State.logHbm_keeps
    rw [mk_put]
    refine keeps_mk id partsKeep_refl rasKeep_refl hbmKeep_refl id pkgKeep_refl ?_ namesKeep_refl (State.modChan_keeps h0)
    refine ⟨⟨fun _ k => k, fun k => k, Nat.le_refl _, fun c hc => List.mem_append_left _ hc⟩, fun k => ⟨?_, k.2⟩⟩
    have h' : (s.modChan c fun x => { x with state := .mappedOut }).sec.fuses.repair.length < 32 := h
    simp only [List.length_append, List.length_cons, List.length_nil]
    omega
  · exact State.logHbm_keeps (State.modChan_keeps h0)

theorem State.trimGranules_only {ls : List Item} {s0 : State} {s : State} {p : PartNo}
    (h0 : changesOnly ls s0 s) (hm : incl [.rasLog, .hif, .fns, .pConfig, .out] ls = true) : changesOnly ls s0 (State.trimGranules s p) := by
  have hs := @mem_of_incl [.rasLog, .hif, .fns, .pConfig, .out] ls hm
  unfold State.trimGranules
  try dsimp only
  repeat' (first
    | with_reducible assumption
    | with_reducible intro _
    | with_reducible apply State.capacity_only
    | with_reducible apply State.logHbm_only
    | with_reducible apply only_ite
    | exact incl_trans rfl hm
    | with_reducible exact part_refl
    | with_reducible apply part_ite
    | with_reducible apply only_modPart
    | with_reducible apply part_mk
    | with_reducible apply only_mk
    | exact Or.inr (hs (by decide))
    | with_reducible exact Or.inl rfl
    | with_reducible exact parts_refl
    | (with_reducible refine Or.inl ?_; and_intros <;> with_reducible rfl))

theorem State.trimGranules_keeps {s0 : State} {s : State} {p : PartNo}
    (h0 : keeps s0 s) : keeps s0 (State.trimGranules s p) := by
  unfold State.trimGranules
  try dsimp only
  repeat' (first
    | with_reducible assumption
    | with_reducible intro _
    | with_reducible apply State.capacity_keeps
    | with_reducible apply State.logHbm_keeps
    | with_reducible apply keeps_ite
    | with_reducible exact pKeeps_refl
    | exact pKeeps_new rfl rfl
    | with_reducible apply pKeeps_ite
    | with_reducible apply keeps_modPart
    | with_reducible apply pKeeps_mk
    | with_reducible exact memKeeps_refl)

theorem State.hbmStarted_only {ls : List Item} {s0 : State} {s : State}
    (h0 : changesOnly ls s0 s) (hm : incl [.poison, .hbmTotals, .hbmRun] ls = true) : changesOnly ls s0 (State.hbmStarted s) := by
  have hs := @mem_of_incl [.poison, .hbmTotals, .hbmRun] ls hm
  unfold State.hbmStarted
  try dsimp only
  repeat' (first
    | with_reducible assumption
    | with_reducible intro _
    | exact incl_trans rfl hm
    | with_reducible apply only_mk
    | exact Or.inr (hs (by decide))
    | with_reducible exact Or.inl rfl
    | with_reducible exact parts_refl
    | (with_reducible refine Or.inl ?_; and_intros <;> with_reducible rfl)
    | exact Or.inl rfl
    | dsimp only
    | rw [mk_put])

theorem State.hbmStarted_keeps {s0 : State} {s : State}
    (h0 : keeps s0 s) : keeps s0 (State.hbmStarted s) := by
  unfold State.hbmStarted
  try dsimp only
  repeat' (first
    | with_reducible assumption
    | with_reducible intro _
    | with_reducible apply keeps_mk
    | with_reducible exact id
    | with_reducible exact partsKeep_refl
    | with_reducible exact rasKeep_refl
    | with_reducible exact hbmKeep_refl
    | with_reducible exact pkgKeep_refl
    | with_reducible exact secKeep_refl
    | with_reducible exact namesKeep_refl
    | (refine (⟨?_, ?_⟩ : hbmKeep _ _) <;> first | exact id | exact len_modify | exact len_map | exact len_mapIdx | exact len_set)
    | dsimp only
    | rw [mk_put])

theorem State.hbmInit_only {ls : List Item} {s0 : State} {s : State} {deadLanes : List (Nat × Nat)} {badChannels : List Nat}
    (h0 : changesOnly ls s0 s) (hm : incl [.fuses, .rasLog, .hif, .fns, .pConfig, .channels, .poison, .hbmTotals, .hbmRun, .out] ls = true) : changesOnly ls s0 (State.hbmInit s deadLanes badChannels) := by
  unfold State.hbmInit
  try dsimp only
  repeat' (first
    | with_reducible assumption
    | with_reducible intro _
    | with_reducible apply State.mapOut_only
    | with_reducible apply State.modChan_only
    | with_reducible apply State.trimGranules_only
    | with_reducible apply State.hbmStarted_only
    | with_reducible apply State.capacity_only
    | with_reducible apply State.logHbm_only
    | with_reducible apply State.fenceChannel_only
    | with_reducible apply only_getD
    | with_reducible apply only_ite
    | with_reducible apply only_foldl
    | with_reducible apply only_foldl_fst
    | exact incl_trans rfl hm)

theorem State.hbmInit_keeps {s0 : State} {s : State} {deadLanes : List (Nat × Nat)} {badChannels : List Nat}
    (h0 : keeps s0 s) : keeps s0 (State.hbmInit s deadLanes badChannels) := by
  unfold State.hbmInit
  try dsimp only
  repeat' (first
    | with_reducible assumption
    | with_reducible intro _
    | with_reducible apply State.mapOut_keeps
    | with_reducible apply State.modChan_keeps
    | with_reducible apply State.trimGranules_keeps
    | with_reducible apply State.hbmStarted_keeps
    | with_reducible apply State.capacity_keeps
    | with_reducible apply State.logHbm_keeps
    | with_reducible apply State.fenceChannel_keeps
    | with_reducible apply keeps_getD
    | with_reducible apply keeps_ite
    | with_reducible apply keeps_foldl)

end Sys2Proof.Machine
end

