-- ==== Sys2Proof/Laws/MutationOps.lean ====
section
/-! SUPPORT. What each operation of Machine/MutationOps.lean may change: its frame, and that it
keeps the invariant and the fuses. -/

namespace Sys2Proof.Machine

open Sys2Proof.Safety Sys2Proof.Laws

theorem State.reserveMut_only {ls : List Item} {s0 : State} {s : State} {p : PartNo} {k : Coll} {c : Cmd}
    (h0 : changesOnly ls s0 s) (hm : incl [.rasLog, .fns, .cmds, .pMem, .pColls, .poison, .slm, .out, .fresh] ls = true) : changesOnly ls s0 (State.reserveMut s p k c).1 := by
  have hs := @mem_of_incl [.rasLog, .fns, .cmds, .pMem, .pColls, .poison, .slm, .out, .fresh] ls hm
  unfold State.reserveMut
  try dsimp only
  repeat' (first
    | with_reducible assumption
    | with_reducible intro _
    | with_reducible apply State.idClaimAll_only
    | with_reducible apply only_ite
    | with_reducible apply only_ite_fst
    | exact incl_trans rfl hm
    | with_reducible apply only_mk
    | exact Or.inr (hs (by decide))
    | with_reducible exact Or.inl rfl
    | with_reducible exact parts_refl
    | (with_reducible refine Or.inl ?_; and_intros <;> with_reducible rfl)
    | exact Or.inl rfl
    | with_reducible refine only_pair (by assumption) ?_
    | dsimp only
    | rw [mk_put]
    | split)

theorem State.reserveMut_keeps {s0 : State} {s : State} {p : PartNo} {k : Coll} {c : Cmd}
    (h0 : keeps s0 s) : keeps s0 (State.reserveMut s p k c).1 := by
  unfold State.reserveMut
  try dsimp only
  repeat' (first
    | with_reducible assumption
    | with_reducible intro _
    | with_reducible apply State.idClaimAll_keeps
    | with_reducible apply keeps_ite
    | with_reducible apply keeps_ite_fst
    | with_reducible apply keeps_mk
    | with_reducible exact id
    | with_reducible exact partsKeep_refl
    | with_reducible exact rasKeep_refl
    | with_reducible exact hbmKeep_refl
    | with_reducible exact pkgKeep_refl
    | with_reducible exact secKeep_refl
    | with_reducible exact namesKeep_refl
    | with_reducible refine keeps_pair (by assumption) ?_
    | dsimp only
    | rw [mk_put]
    | split)

theorem State.writeVersion_only {ls : List Item} {s0 : State} {s : State} {p : PartNo} {k : Coll} {c : Cmd} {seed : Nat} {r : Bytes} {o : MutRec}
    (h0 : changesOnly ls s0 s) (hm : incl [.rasLog, .fns, .cmds, .pMem, .pColls, .poison, .slm, .out, .fresh] ls = true) : changesOnly ls s0 (State.writeVersion s p k c seed r o).1 := by
  have hs := @mem_of_incl [.rasLog, .fns, .cmds, .pMem, .pColls, .poison, .slm, .out, .fresh] ls hm
  unfold State.writeVersion
  try dsimp only
  repeat' (first
    | with_reducible assumption
    | with_reducible intro _
    | with_reducible apply State.wrMem_only
    | with_reducible apply State.idSet_only
    | with_reducible apply only_getD
    | with_reducible apply only_ite
    | with_reducible apply only_ite_fst
    | exact incl_trans rfl hm
    | with_reducible apply only_mk
    | exact Or.inr (hs (by decide))
    | with_reducible exact Or.inl rfl
    | with_reducible exact parts_refl
    | (with_reducible refine Or.inl ?_; and_intros <;> with_reducible rfl)
    | exact Or.inl rfl
    | with_reducible refine only_pair (by assumption) ?_
    | dsimp only
    | rw [mk_put]
    | split)

theorem State.writeVersion_keeps {s0 : State} {s : State} {p : PartNo} {k : Coll} {c : Cmd} {seed : Nat} {r : Bytes} {o : MutRec}
    (h0 : keeps s0 s) : keeps s0 (State.writeVersion s p k c seed r o).1 := by
  unfold State.writeVersion
  try dsimp only
  repeat' (first
    | with_reducible assumption
    | with_reducible intro _
    | with_reducible apply State.wrMem_keeps
    | with_reducible apply State.idSet_keeps
    | with_reducible apply keeps_getD
    | with_reducible apply keeps_ite
    | with_reducible apply keeps_ite_fst
    | with_reducible apply keeps_mk
    | with_reducible exact id
    | with_reducible exact partsKeep_refl
    | with_reducible exact rasKeep_refl
    | with_reducible exact hbmKeep_refl
    | with_reducible exact pkgKeep_refl
    | with_reducible exact secKeep_refl
    | with_reducible exact namesKeep_refl
    | with_reducible refine keeps_pair (by assumption) ?_
    | dsimp only
    | rw [mk_put]
    | split)

theorem State.writeVersions_only {ls : List Item} {s0 : State} {s : State} {p : PartNo} {k : Coll} {c : Cmd} {m : MutSt}
    (h0 : changesOnly ls s0 s) (hm : incl [.rasLog, .fns, .cmds, .pMem, .pColls, .poison, .slm, .out, .fresh] ls = true) : changesOnly ls s0 (State.writeVersions s p k c m).1 := by
  unfold State.writeVersions
  try dsimp only
  repeat' (first
    | with_reducible assumption
    | with_reducible intro _
    | with_reducible apply State.bump_only
    | with_reducible apply State.writeVersion_only
    | with_reducible apply only_ite
    | with_reducible apply only_ite_fst
    | with_reducible apply only_foldl
    | with_reducible apply only_foldl_fst
    | exact incl_trans rfl hm)

theorem State.writeVersions_keeps {s0 : State} {s : State} {p : PartNo} {k : Coll} {c : Cmd} {m : MutSt}
    (h0 : keeps s0 s) : keeps s0 (State.writeVersions s p k c m).1 := by
  unfold State.writeVersions
  try dsimp only
  repeat' (first
    | with_reducible assumption
    | with_reducible intro _
    | with_reducible apply State.bump_keeps
    | with_reducible apply State.writeVersion_keeps
    | with_reducible apply keeps_ite
    | with_reducible apply keeps_ite_fst
    | with_reducible apply keeps_foldl
    | with_reducible apply keeps_foldl_fst)

theorem State.chooseEdges_only {ls : List Item} {s0 : State} {s : State} {p : PartNo} {k : Coll} {c : Cmd} {slot : Nat} {r : Bytes}
    (h0 : changesOnly ls s0 s) (hm : incl [.rasLog, .fns, .cmds, .pMem, .pColls, .poison, .slm, .out, .fresh] ls = true) : changesOnly ls s0 (State.chooseEdges s p k c slot r).1 := by
  unfold State.chooseEdges
  try dsimp only
  repeat' (first
    | with_reducible assumption
    | with_reducible intro _
    | with_reducible apply State.bump_only
    | with_reducible apply State.wrMem_only
    | with_reducible apply State.walked_only
    | with_reducible apply only_ite
    | with_reducible apply only_ite_fst
    | exact incl_trans rfl hm)

theorem State.chooseEdges_keeps {s0 : State} {s : State} {p : PartNo} {k : Coll} {c : Cmd} {slot : Nat} {r : Bytes}
    (h0 : keeps s0 s) : keeps s0 (State.chooseEdges s p k c slot r).1 := by
  unfold State.chooseEdges
  try dsimp only
  repeat' (first
    | with_reducible assumption
    | with_reducible intro _
    | with_reducible apply State.bump_keeps
    | with_reducible apply State.wrMem_keeps
    | with_reducible apply State.walked_keeps
    | with_reducible apply keeps_ite
    | with_reducible apply keeps_ite_fst)

theorem State.backlink_only {ls : List Item} {s0 : State} {s : State} {p : PartNo} {k : Coll} {cid n t : Nat}
    (h0 : changesOnly ls s0 s) (hm : incl [.rasLog, .fns, .cmds, .pMem, .poison, .slm, .out] ls = true) : changesOnly ls s0 (State.backlink s p k cid n t) := by
  have hs := @mem_of_incl [.rasLog, .fns, .cmds, .pMem, .poison, .slm, .out] ls hm
  unfold State.backlink
  try dsimp only
  repeat' (first
    | with_reducible assumption
    | with_reducible intro _
    | with_reducible apply State.wrMem_only
    | exact incl_trans rfl hm
    | with_reducible apply only_mk
    | exact Or.inr (hs (by decide))
    | with_reducible exact Or.inl rfl
    | with_reducible exact parts_refl
    | (with_reducible refine Or.inl ?_; and_intros <;> with_reducible rfl)
    | exact Or.inl rfl
    | with_reducible refine only_pair (by assumption) ?_
    | dsimp only
    | rw [mk_put]
    | split)

theorem State.backlink_keeps {s0 : State} {s : State} {p : PartNo} {k : Coll} {cid n t : Nat}
    (h0 : keeps s0 s) : keeps s0 (State.backlink s p k cid n t) := by
  unfold State.backlink
  try dsimp only
  repeat' (first
    | with_reducible assumption
    | with_reducible intro _
    | with_reducible apply State.wrMem_keeps
    | with_reducible apply keeps_mk
    | with_reducible exact id
    | with_reducible exact partsKeep_refl
    | with_reducible exact rasKeep_refl
    | with_reducible exact hbmKeep_refl
    | with_reducible exact pkgKeep_refl
    | with_reducible exact secKeep_refl
    | with_reducible exact namesKeep_refl
    | with_reducible refine keeps_pair (by assumption) ?_
    | dsimp only
    | rw [mk_put]
    | split)

theorem State.commitRec_only {ls : List Item} {s0 : State} {s : State} {p : PartNo} {k : Coll} {c : Cmd} {st : Nat} {r : MutRec}
    (h0 : changesOnly ls s0 s) (hm : incl [.rasLog, .fns, .cmds, .pMem, .pColls, .poison, .slm, .out] ls = true) : changesOnly ls s0 (State.commitRec s p k c st r) := by
  have hs := @mem_of_incl [.rasLog, .fns, .cmds, .pMem, .pColls, .poison, .slm, .out] ls hm
  unfold State.commitRec
  try dsimp only
  repeat' (first
    | with_reducible assumption
    | with_reducible intro _
    | with_reducible apply State.postAdd_only
    | with_reducible apply State.wrMem_only
    | with_reducible apply State.postMove_only
    | with_reducible apply State.modCollU_only
    | with_reducible apply State.postDrop_only
    | with_reducible apply only_ite
    | exact incl_trans rfl hm
    | with_reducible apply only_mk
    | exact Or.inr (hs (by decide))
    | with_reducible exact Or.inl rfl
    | with_reducible exact parts_refl
    | (with_reducible refine Or.inl ?_; and_intros <;> with_reducible rfl)
    | exact Or.inl rfl
    | with_reducible refine only_pair (by assumption) ?_
    | dsimp only
    | rw [mk_put]
    | split)

theorem State.commitRec_keeps {s0 : State} {s : State} {p : PartNo} {k : Coll} {c : Cmd} {st : Nat} {r : MutRec}
    (h0 : keeps s0 s) : keeps s0 (State.commitRec s p k c st r) := by
  unfold State.commitRec
  try dsimp only
  repeat' (first
    | with_reducible assumption
    | with_reducible intro _
    | with_reducible apply State.postAdd_keeps
    | with_reducible apply State.wrMem_keeps
    | with_reducible apply State.postMove_keeps
    | with_reducible apply State.modCollU_keeps
    | with_reducible apply State.postDrop_keeps
    | with_reducible apply keeps_ite
    | with_reducible apply keeps_mk
    | with_reducible exact id
    | with_reducible exact partsKeep_refl
    | with_reducible exact rasKeep_refl
    | with_reducible exact hbmKeep_refl
    | with_reducible exact pkgKeep_refl
    | with_reducible exact secKeep_refl
    | with_reducible exact namesKeep_refl
    | with_reducible refine keeps_pair (by assumption) ?_
    | dsimp only
    | rw [mk_put]
    | split)

theorem State.checkEdges_only {ls : List Item} {s0 : State} {s : State} {p : PartNo} {k : Coll} {c : Cmd} {n : Nat}
    (h0 : changesOnly ls s0 s) (hm : incl [.rasLog, .fns, .cmds, .pMem, .poison, .slm, .out] ls = true) : changesOnly ls s0 (State.checkEdges s p k c n) := by
  unfold State.checkEdges
  try dsimp only
  repeat' (first
    | with_reducible assumption
    | with_reducible intro _
    | with_reducible apply State.touch_only
    | with_reducible apply State.wrMem_only
    | with_reducible apply State.logLate_only
    | with_reducible apply only_getD
    | with_reducible apply only_ite
    | with_reducible apply only_foldl
    | with_reducible apply only_foldl_fst
    | exact incl_trans rfl hm)

theorem State.checkEdges_keeps {s0 : State} {s : State} {p : PartNo} {k : Coll} {c : Cmd} {n : Nat}
    (h0 : keeps s0 s) : keeps s0 (State.checkEdges s p k c n) := by
  unfold State.checkEdges
  try dsimp only
  repeat' (first
    | with_reducible assumption
    | with_reducible intro _
    | with_reducible apply State.touch_keeps
    | with_reducible apply State.wrMem_keeps
    | with_reducible apply State.logLate_keeps
    | with_reducible apply keeps_getD
    | with_reducible apply keeps_ite
    | with_reducible apply keeps_foldl)

theorem State.applySet_only {ls : List Item} {s0 : State} {s : State} {p : PartNo} {k : Coll} {c : Cmd} {e : Bytes}
    (h0 : changesOnly ls s0 s) (hm : incl [.rasLog, .fns, .cmds, .pMem, .poison, .slm, .out] ls = true) : changesOnly ls s0 (State.applySet s p k c e).1 := by
  have hs := @mem_of_incl [.rasLog, .fns, .cmds, .pMem, .poison, .slm, .out] ls hm
  unfold State.applySet
  try dsimp only
  repeat' (first
    | with_reducible assumption
    | with_reducible intro _
    | with_reducible apply State.reads_only
    | with_reducible apply State.wrMem_only
    | with_reducible apply State.logLate_only
    | with_reducible apply only_ite
    | with_reducible apply only_ite_fst
    | exact incl_trans rfl hm
    | with_reducible apply only_mk
    | exact Or.inr (hs (by decide))
    | with_reducible exact Or.inl rfl
    | with_reducible exact parts_refl
    | (with_reducible refine Or.inl ?_; and_intros <;> with_reducible rfl)
    | exact Or.inl rfl
    | with_reducible refine only_pair (by assumption) ?_
    | dsimp only
    | rw [mk_put]
    | split)

theorem State.applySet_keeps {s0 : State} {s : State} {p : PartNo} {k : Coll} {c : Cmd} {e : Bytes}
    (h0 : keeps s0 s) : keeps s0 (State.applySet s p k c e).1 := by
  unfold State.applySet
  try dsimp only
  repeat' (first
    | with_reducible assumption
    | with_reducible intro _
    | with_reducible apply State.reads_keeps
    | with_reducible apply State.wrMem_keeps
    | with_reducible apply State.logLate_keeps
    | with_reducible apply keeps_ite
    | with_reducible apply keeps_ite_fst
    | with_reducible apply keeps_mk
    | with_reducible exact id
    | with_reducible exact partsKeep_refl
    | with_reducible exact rasKeep_refl
    | with_reducible exact hbmKeep_refl
    | with_reducible exact pkgKeep_refl
    | with_reducible exact secKeep_refl
    | with_reducible exact namesKeep_refl
    | with_reducible refine keeps_pair (by assumption) ?_
    | dsimp only
    | rw [mk_put]
    | split)

theorem State.commitWrites_only {ls : List Item} {s0 : State} {s : State} {p : PartNo} {k : Coll} {c : Cmd} {m : MutSt} {st : Nat}
    (h0 : changesOnly ls s0 s) (hm : incl [.time, .rasLog, .fns, .cmds, .pMem, .pColls, .poison, .slm, .out] ls = true) : changesOnly ls s0 (State.commitWrites s p k c m st).1 := by
  unfold State.commitWrites
  try dsimp only
  repeat' (first
    | with_reducible assumption
    | with_reducible intro _
    | with_reducible apply State.commitRec_only
    | with_reducible apply State.issued_only
    | with_reducible apply State.checkEdges_only
    | with_reducible apply State.applySet_only
    | with_reducible apply only_ite
    | with_reducible apply only_ite_fst
    | with_reducible apply only_foldl
    | with_reducible apply only_foldl_fst
    | exact incl_trans rfl hm)

theorem State.commitWrites_keeps {s0 : State} {s : State} {p : PartNo} {k : Coll} {c : Cmd} {m : MutSt} {st : Nat}
    (h0 : keeps s0 s) : keeps s0 (State.commitWrites s p k c m st).1 := by
  unfold State.commitWrites
  try dsimp only
  repeat' (first
    | with_reducible assumption
    | with_reducible intro _
    | with_reducible apply State.commitRec_keeps
    | with_reducible apply State.issued_keeps
    | with_reducible apply State.checkEdges_keeps
    | with_reducible apply State.applySet_keeps
    | with_reducible apply keeps_ite
    | with_reducible apply keeps_ite_fst
    | with_reducible apply keeps_foldl
    | with_reducible apply keeps_foldl_fst)

theorem State.writeOutcomes_only {ls : List Item} {s0 : State} {s : State} {k : Coll} {c : Cmd} {member : Nat} {os : List Nat}
    (h0 : changesOnly ls s0 s) (hm : incl [.cmds, .pAcct, .out] ls = true) : changesOnly ls s0 (State.writeOutcomes s k c member os) := by
  unfold State.writeOutcomes
  try dsimp only
  repeat' (first
    | with_reducible assumption
    | with_reducible intro _
    | with_reducible apply State.output_only
    | with_reducible apply only_ite
    | with_reducible apply only_foldl)

theorem State.writeOutcomes_keeps {s0 : State} {s : State} {k : Coll} {c : Cmd} {member : Nat} {os : List Nat}
    (h0 : keeps s0 s) : keeps s0 (State.writeOutcomes s k c member os) := by
  unfold State.writeOutcomes
  try dsimp only
  repeat' (first
    | with_reducible assumption
    | with_reducible intro _
    | with_reducible apply State.output_keeps
    | with_reducible apply keeps_ite
    | with_reducible apply keeps_foldl)

theorem State.withMut_only {ls : List Item} {s0 : State} {s : State} {cid : Nat} {f : MutSt → State} (hf : ∀ x, changesOnly ls s0 (f x))
    (h0 : changesOnly ls s0 s) (hm : incl [] ls = true) : changesOnly ls s0 (State.withMut s cid f) := by
  have hs := @mem_of_incl [] ls hm
  unfold State.withMut
  try dsimp only
  repeat' (first
    | with_reducible assumption
    | with_reducible intro _
    | with_reducible apply hf
    | with_reducible apply only_ite
    | exact incl_trans rfl hm
    | with_reducible apply only_mk
    | exact Or.inr (hs (by decide))
    | with_reducible exact Or.inl rfl
    | with_reducible exact parts_refl
    | (with_reducible refine Or.inl ?_; and_intros <;> with_reducible rfl)
    | exact Or.inl rfl
    | with_reducible refine only_pair (by assumption) ?_
    | dsimp only
    | rw [mk_put]
    | split)

theorem State.withMut_keeps {s0 : State} {s : State} {cid : Nat} {f : MutSt → State} (hf : ∀ x, keeps s0 (f x))
    (h0 : keeps s0 s) : keeps s0 (State.withMut s cid f) := by
  unfold State.withMut
  try dsimp only
  repeat' (first
    | with_reducible assumption
    | with_reducible intro _
    | with_reducible apply hf
    | with_reducible apply keeps_ite
    | with_reducible apply keeps_mk
    | with_reducible exact id
    | with_reducible exact partsKeep_refl
    | with_reducible exact rasKeep_refl
    | with_reducible exact hbmKeep_refl
    | with_reducible exact pkgKeep_refl
    | with_reducible exact secKeep_refl
    | with_reducible exact namesKeep_refl
    | with_reducible refine keeps_pair (by assumption) ?_
    | dsimp only
    | rw [mk_put]
    | split)

theorem State.setMut_only {ls : List Item} {s0 : State} {s : State} {cid : Nat} {m : MutSt}
    (h0 : changesOnly ls s0 s) (hm : incl [.cmds] ls = true) : changesOnly ls s0 (State.setMut s cid m) := by
  unfold State.setMut
  try dsimp only
  repeat' first | with_reducible assumption | with_reducible intro _ | with_reducible apply State.modCmd_only

theorem State.setMut_keeps {s0 : State} {s : State} {cid : Nat} {m : MutSt}
    (h0 : keeps s0 s) : keeps s0 (State.setMut s cid m) := by
  unfold State.setMut
  try dsimp only
  repeat' first | with_reducible assumption | with_reducible intro _ | with_reducible apply State.modCmd_keeps

theorem State.mutReserve_only {ls : List Item} {s0 : State} {s : State} {p : PartNo} {k : Coll} {c : Cmd}
    (h0 : changesOnly ls s0 s) (hm : incl [.rasLog, .fns, .cmds, .locks, .pMem, .pColls, .pAcct, .ctxs, .streams, .ristretto, .semaphores, .poison, .slm, .ports, .peers, .transit, .out, .fresh] ls = true) : changesOnly ls s0 (State.mutReserve s p k c) := by
  have hs := @mem_of_incl [.rasLog, .fns, .cmds, .locks, .pMem, .pColls, .pAcct, .ctxs, .streams, .ristretto, .semaphores, .poison, .slm, .ports, .peers, .transit, .out, .fresh] ls hm
  unfold State.mutReserve
  try dsimp only
  repeat' (first
    | with_reducible assumption
    | with_reducible intro _
    | with_reducible apply State.tearDown_only
    | with_reducible apply State.reserveMut_only
    | with_reducible apply State.setMut_only
    | exact incl_trans rfl hm
    | with_reducible apply only_mk
    | exact Or.inr (hs (by decide))
    | with_reducible exact Or.inl rfl
    | with_reducible exact parts_refl
    | (with_reducible refine Or.inl ?_; and_intros <;> with_reducible rfl)
    | exact Or.inl rfl
    | with_reducible refine only_pair (by assumption) ?_
    | dsimp only
    | rw [mk_put]
    | split)

theorem State.mutReserve_keeps {s0 : State} {s : State} {p : PartNo} {k : Coll} {c : Cmd}
    (h0 : keeps s0 s) : keeps s0 (State.mutReserve s p k c) := by
  unfold State.mutReserve
  try dsimp only
  repeat' (first
    | with_reducible assumption
    | with_reducible intro _
    | with_reducible apply State.tearDown_keeps
    | with_reducible apply State.reserveMut_keeps
    | with_reducible apply State.setMut_keeps
    | with_reducible apply keeps_mk
    | with_reducible exact id
    | with_reducible exact partsKeep_refl
    | with_reducible exact rasKeep_refl
    | with_reducible exact hbmKeep_refl
    | with_reducible exact pkgKeep_refl
    | with_reducible exact secKeep_refl
    | with_reducible exact namesKeep_refl
    | with_reducible refine keeps_pair (by assumption) ?_
    | dsimp only
    | rw [mk_put]
    | split)

theorem State.mutWrite_only {ls : List Item} {s0 : State} {s : State} {p : PartNo} {k : Coll} {c : Cmd} {m : MutSt}
    (h0 : changesOnly ls s0 s) (hm : incl [.rasLog, .fns, .cmds, .locks, .pMem, .pColls, .pAcct, .ctxs, .streams, .ristretto, .semaphores, .poison, .slm, .ports, .peers, .transit, .out, .fresh] ls = true) : changesOnly ls s0 (State.mutWrite s p k c m) := by
  unfold State.mutWrite
  try dsimp only
  repeat' (first
    | with_reducible assumption
    | with_reducible intro _
    | with_reducible apply State.unpoisoned_only
    | with_reducible apply State.tearDown_only
    | with_reducible apply State.writeVersions_only
    | with_reducible apply State.setMut_only
    | with_reducible apply only_ite
    | exact incl_trans rfl hm)

theorem State.mutWrite_keeps {s0 : State} {s : State} {p : PartNo} {k : Coll} {c : Cmd} {m : MutSt}
    (h0 : keeps s0 s) : keeps s0 (State.mutWrite s p k c m) := by
  unfold State.mutWrite
  try dsimp only
  repeat' (first
    | with_reducible assumption
    | with_reducible intro _
    | with_reducible apply State.unpoisoned_keeps
    | with_reducible apply State.tearDown_keeps
    | with_reducible apply State.writeVersions_keeps
    | with_reducible apply State.setMut_keeps
    | with_reducible apply keeps_ite)

theorem State.mutChoose_only {ls : List Item} {s0 : State} {s : State} {p : PartNo} {k : Coll} {c : Cmd} {a : List (Nat × List Nat)} {slot : Nat} {r : Bytes}
    (h0 : changesOnly ls s0 s) (hm : incl [.rasLog, .fns, .cmds, .locks, .pMem, .pColls, .pAcct, .ctxs, .streams, .ristretto, .semaphores, .poison, .slm, .ports, .peers, .transit, .out, .fresh] ls = true) : changesOnly ls s0 (State.mutChoose s p k c a slot r).1 := by
  unfold State.mutChoose
  try dsimp only
  repeat' (first
    | with_reducible assumption
    | with_reducible intro _
    | with_reducible apply State.withMut_only
    | with_reducible apply State.unpoisoned_only
    | with_reducible apply State.chooseEdges_only
    | with_reducible apply State.setMut_only
    | with_reducible apply only_ite
    | with_reducible apply only_ite_fst
    | exact incl_trans rfl hm)

theorem State.mutChoose_keeps {s0 : State} {s : State} {p : PartNo} {k : Coll} {c : Cmd} {a : List (Nat × List Nat)} {slot : Nat} {r : Bytes}
    (h0 : keeps s0 s) : keeps s0 (State.mutChoose s p k c a slot r).1 := by
  unfold State.mutChoose
  try dsimp only
  repeat' (first
    | with_reducible assumption
    | with_reducible intro _
    | with_reducible apply State.withMut_keeps
    | with_reducible apply State.unpoisoned_keeps
    | with_reducible apply State.chooseEdges_keeps
    | with_reducible apply State.setMut_keeps
    | with_reducible apply keeps_ite
    | with_reducible apply keeps_ite_fst)

theorem State.mutLink_only {ls : List Item} {s0 : State} {s : State} {p : PartNo} {k : Coll} {c : Cmd} {slot n : Nat}
    (h0 : changesOnly ls s0 s) (hm : incl [.rasLog, .fns, .cmds, .locks, .pMem, .pColls, .pAcct, .ctxs, .streams, .ristretto, .semaphores, .poison, .slm, .ports, .peers, .transit, .out, .fresh] ls = true) : changesOnly ls s0 (State.mutLink s p k c slot n) := by
  unfold State.mutLink
  try dsimp only
  repeat' (first
    | with_reducible assumption
    | with_reducible intro _
    | with_reducible apply State.withMut_only
    | with_reducible apply State.unpoisoned_only
    | with_reducible apply State.setMut_only
    | with_reducible apply State.backlink_only
    | with_reducible apply only_ite
    | exact incl_trans rfl hm)

theorem State.mutLink_keeps {s0 : State} {s : State} {p : PartNo} {k : Coll} {c : Cmd} {slot n : Nat}
    (h0 : keeps s0 s) : keeps s0 (State.mutLink s p k c slot n) := by
  unfold State.mutLink
  try dsimp only
  repeat' (first
    | with_reducible assumption
    | with_reducible intro _
    | with_reducible apply State.withMut_keeps
    | with_reducible apply State.unpoisoned_keeps
    | with_reducible apply State.setMut_keeps
    | with_reducible apply State.backlink_keeps
    | with_reducible apply keeps_ite)

theorem State.mutConnect_only {ls : List Item} {s0 : State} {s : State} {p : PartNo} {k : Coll} {c : Cmd} {m : MutSt} {r : Nat}
    (h0 : changesOnly ls s0 s) (hm : incl [.time, .rasLog, .fns, .cmds, .locks, .pMem, .pColls, .pAcct, .ctxs, .streams, .ristretto, .semaphores, .poison, .slm, .ports, .peers, .transit, .out, .fresh] ls = true) : changesOnly ls s0 (State.mutConnect s p k c m r) := by
  unfold State.mutConnect
  try dsimp only
  repeat' (first
    | with_reducible assumption
    | with_reducible intro _
    | with_reducible apply State.withMut_only
    | with_reducible apply State.mutChoose_only
    | with_reducible apply State.issued_only
    | with_reducible apply State.modCmd_only
    | with_reducible apply State.mutLink_only
    | with_reducible apply State.setMut_only
    | with_reducible apply only_ite
    | with_reducible apply only_foldl
    | with_reducible apply only_foldl_fst
    | exact incl_trans rfl hm)

theorem State.mutConnect_keeps {s0 : State} {s : State} {p : PartNo} {k : Coll} {c : Cmd} {m : MutSt} {r : Nat}
    (h0 : keeps s0 s) : keeps s0 (State.mutConnect s p k c m r) := by
  unfold State.mutConnect
  try dsimp only
  repeat' (first
    | with_reducible assumption
    | with_reducible intro _
    | with_reducible apply State.withMut_keeps
    | with_reducible apply State.mutChoose_keeps
    | with_reducible apply State.issued_keeps
    | with_reducible apply State.modCmd_keeps
    | with_reducible apply State.mutLink_keeps
    | with_reducible apply State.setMut_keeps
    | with_reducible apply keeps_ite
    | with_reducible apply keeps_foldl
    | with_reducible apply keeps_foldl_fst)

theorem State.mutCommit_only {ls : List Item} {s0 : State} {s : State} {p : PartNo} {k : Coll} {whole c : Cmd} {m : MutSt} {st : Nat}
    (h0 : changesOnly ls s0 s) (hm : incl [.time, .rasLog, .fns, .cmds, .locks, .pMem, .pColls, .pJournal, .pAcct, .ctxs, .streams, .ristretto, .semaphores, .poison, .slm, .out] ls = true) : changesOnly ls s0 (State.mutCommit s p k whole c m st) := by
  unfold State.mutCommit
  try dsimp only
  repeat' (first
    | with_reducible assumption
    | with_reducible intro _
    | with_reducible apply State.writeOutcomes_only
    | with_reducible apply State.drop_only
    | with_reducible apply State.journal_only
    | with_reducible apply State.commitWrites_only
    | with_reducible apply State.settle_only
    | with_reducible apply State.modCmd_only
    | with_reducible apply State.unlock_only
    | with_reducible apply only_ite
    | exact incl_trans rfl hm)

theorem State.mutCommit_keeps {s0 : State} {s : State} {p : PartNo} {k : Coll} {whole c : Cmd} {m : MutSt} {st : Nat}
    (h0 : keeps s0 s) : keeps s0 (State.mutCommit s p k whole c m st) := by
  unfold State.mutCommit
  try dsimp only
  repeat' (first
    | with_reducible assumption
    | exact len_modify
    | exact len_map
    | exact len_mapIdx
    | with_reducible intro _
    | with_reducible apply State.writeOutcomes_keeps
    | with_reducible apply State.drop_keeps
    | with_reducible apply State.journal_keeps
    | with_reducible apply State.commitWrites_keeps
    | with_reducible apply State.settle_keeps
    | with_reducible apply State.modCmd_keeps
    | with_reducible apply State.unlock_keeps
    | with_reducible apply keeps_ite)

theorem State.mutCommitTurn_only {ls : List Item} {s0 : State} {s : State} {p : PartNo} {k : Coll} {whole c : Cmd}
    (h0 : changesOnly ls s0 s) (hm : incl [.time, .rasLog, .fns, .cmds, .locks, .pMem, .pColls, .pJournal, .pAcct, .ctxs, .streams, .ristretto, .semaphores, .poison, .slm, .out] ls = true) : changesOnly ls s0 (State.mutCommitTurn s p k whole c) := by
  unfold State.mutCommitTurn
  try dsimp only
  repeat' (first
    | with_reducible assumption
    | with_reducible intro _
    | with_reducible apply State.withMut_only
    | with_reducible apply State.mutCommit_only
    | with_reducible apply State.beginCommit_only
    | with_reducible apply only_ite
    | exact incl_trans rfl hm)

theorem State.mutCommitTurn_keeps {s0 : State} {s : State} {p : PartNo} {k : Coll} {whole c : Cmd}
    (h0 : keeps s0 s) : keeps s0 (State.mutCommitTurn s p k whole c) := by
  unfold State.mutCommitTurn
  try dsimp only
  repeat' (first
    | with_reducible assumption
    | with_reducible intro _
    | with_reducible apply State.withMut_keeps
    | with_reducible apply State.mutCommit_keeps
    | with_reducible apply State.beginCommit_keeps
    | with_reducible apply keeps_ite)

theorem State.mutGo_only {ls : List Item} {s0 : State} {s : State} {p : PartNo} {k : Coll} {whole c : Cmd} {commit : Bool}
    (h0 : changesOnly ls s0 s) (hm : incl [.time, .rasLog, .fns, .cmds, .locks, .pMem, .pColls, .pJournal, .pAcct, .ctxs, .streams, .ristretto, .semaphores, .poison, .slm, .ports, .peers, .transit, .out, .fresh] ls = true) : changesOnly ls s0 (State.mutGo s p k whole c commit) := by
  unfold State.mutGo
  try dsimp only
  repeat' (first
    | with_reducible assumption
    | with_reducible intro _
    | with_reducible apply State.mutCommitTurn_only
    | with_reducible apply State.withMut_only
    | with_reducible apply State.mutReserve_only
    | with_reducible apply State.mutWrite_only
    | with_reducible apply State.mutConnect_only
    | with_reducible apply only_ite
    | exact incl_trans rfl hm)

theorem State.mutGo_keeps {s0 : State} {s : State} {p : PartNo} {k : Coll} {whole c : Cmd} {commit : Bool}
    (h0 : keeps s0 s) : keeps s0 (State.mutGo s p k whole c commit) := by
  unfold State.mutGo
  try dsimp only
  repeat' (first
    | with_reducible assumption
    | with_reducible intro _
    | with_reducible apply State.mutCommitTurn_keeps
    | with_reducible apply State.withMut_keeps
    | with_reducible apply State.mutReserve_keeps
    | with_reducible apply State.mutWrite_keeps
    | with_reducible apply State.mutConnect_keeps
    | with_reducible apply keeps_ite)

end Sys2Proof.Machine
end

