-- ==== Sys2Proof/Laws/Journal.lean ====
section
/-! SUPPORT. What each operation of Machine/Journal.lean may change: its frame, and that it
keeps the invariant and the fuses. -/

namespace Sys2Proof.Machine

open Sys2Proof.Safety Sys2Proof.Laws

theorem State.exportFlushed_only {ls : List Item} {s0 : State} {s : State} {p : PartNo} {cid : Nat}
    (h0 : changesOnly ls s0 s) (hm : incl [.cmds, .locks, .pColls, .pJournal, .ctxs, .streams, .ristretto, .semaphores, .out] ls = true) : changesOnly ls s0 (State.exportFlushed s p cid) := by
  have hs := @mem_of_incl [.cmds, .locks, .pColls, .pJournal, .ctxs, .streams, .ristretto, .semaphores, .out] ls hm
  unfold State.exportFlushed
  try dsimp only
  repeat' (first
    | with_reducible assumption
    | with_reducible intro _
    | with_reducible apply State.due_only
    | with_reducible apply State.jTrim_only
    | with_reducible apply State.modCollU_only
    | with_reducible apply only_getD
    | with_reducible apply only_ite
    | exact incl_trans rfl hm
    | with_reducible apply only_mk
    | exact Or.inr (hs (by decide))
    | with_reducible exact Or.inl rfl
    | with_reducible exact parts_refl
    | (with_reducible refine Or.inl ?_; and_intros <;> with_reducible rfl)
    | exact Or.inl rfl
    | with_reducible refine only_pair (by assumption) ?_
    | dsimp only
    | rw [mk_put]
    | split)

theorem State.exportFlushed_keeps {s0 : State} {s : State} {p : PartNo} {cid : Nat}
    (h0 : keeps s0 s) : keeps s0 (State.exportFlushed s p cid) := by
  unfold State.exportFlushed
  try dsimp only
  repeat' (first
    | with_reducible assumption
    | with_reducible intro _
    | with_reducible apply State.due_keeps
    | with_reducible apply State.jTrim_keeps
    | with_reducible apply State.modCollU_keeps
    | with_reducible apply keeps_getD
    | with_reducible apply keeps_ite
    | with_reducible apply keeps_mk
    | with_reducible exact id
    | with_reducible exact partsKeep_refl
    | with_reducible exact rasKeep_refl
    | with_reducible exact hbmKeep_refl
    | with_reducible exact pkgKeep_refl
    | with_reducible exact secKeep_refl
    | with_reducible exact namesKeep_refl
    | with_reducible refine keeps_pair (by assumption) ?_
    | dsimp only
    | rw [mk_put]
    | split)

theorem State.journalOff_only {ls : List Item} {s0 : State} {s : State} {p : PartNo}
    (h0 : changesOnly ls s0 s) (hm : incl [.cmds, .locks, .pColls, .pJournal, .ctxs, .streams, .ristretto, .semaphores] ls = true) : changesOnly ls s0 (State.journalOff s p) := by
  have hs := @mem_of_incl [.cmds, .locks, .pColls, .pJournal, .ctxs, .streams, .ristretto, .semaphores] ls hm
  unfold State.journalOff
  try dsimp only
  repeat' (first
    | with_reducible assumption
    | with_reducible intro _
    | with_reducible apply State.due_only
    | with_reducible apply only_foldl
    | with_reducible apply only_foldl_fst
    | exact incl_trans rfl hm
    | with_reducible exact part_refl
    | with_reducible apply part_foldl
    | with_reducible apply only_modPart
    | with_reducible apply part_mk
    | with_reducible apply only_mk
    | exact Or.inr (hs (by decide))
    | with_reducible exact Or.inl rfl
    | with_reducible exact parts_refl
    | (with_reducible refine Or.inl ?_; and_intros <;> with_reducible rfl))

theorem State.journalOff_keeps {s0 : State} {s : State} {p : PartNo}
    (h0 : keeps s0 s) : keeps s0 (State.journalOff s p) := by
  unfold State.journalOff
  try dsimp only
  repeat' (first
    | with_reducible assumption
    | with_reducible intro _
    | with_reducible apply State.due_keeps
    | with_reducible apply keeps_foldl
    | with_reducible apply keeps_foldl_fst
    | with_reducible exact pKeeps_refl
    | exact pKeeps_new rfl rfl
    | with_reducible apply pKeeps_foldl
    | with_reducible apply keeps_modPart
    | with_reducible apply pKeeps_mk
    | with_reducible exact memKeeps_refl)

theorem State.journalDisabled_only {ls : List Item} {s0 : State} {s : State} {p : PartNo} {cid v : Nat}
    (h0 : changesOnly ls s0 s) (hm : incl [.cmds, .locks, .pColls, .pJournal, .ctxs, .streams, .ristretto, .semaphores] ls = true) : changesOnly ls s0 (State.journalDisabled s p cid v) := by
  have hs := @mem_of_incl [.cmds, .locks, .pColls, .pJournal, .ctxs, .streams, .ristretto, .semaphores] ls hm
  unfold State.journalDisabled
  try dsimp only
  repeat' (first
    | with_reducible assumption
    | with_reducible intro _
    | with_reducible apply State.journalOff_only
    | with_reducible apply State.finish_only
    | exact incl_trans rfl hm
    | with_reducible exact part_refl
    | with_reducible apply only_modPart
    | with_reducible apply part_mk
    | with_reducible apply only_mk
    | exact Or.inr (hs (by decide))
    | with_reducible exact Or.inl rfl
    | with_reducible exact parts_refl
    | (with_reducible refine Or.inl ?_; and_intros <;> with_reducible rfl))

theorem State.journalDisabled_keeps {s0 : State} {s : State} {p : PartNo} {cid v : Nat}
    (h0 : keeps s0 s) : keeps s0 (State.journalDisabled s p cid v) := by
  unfold State.journalDisabled
  try dsimp only
  repeat' (first
    | with_reducible assumption
    | with_reducible intro _
    | with_reducible apply State.journalOff_keeps
    | with_reducible apply State.finish_keeps
    | with_reducible exact pKeeps_refl
    | exact pKeeps_new rfl rfl
    | with_reducible apply keeps_modPart
    | with_reducible apply pKeeps_mk
    | with_reducible exact memKeeps_refl)

theorem State.replayed_only {ls : List Item} {s0 : State} {s : State} {p : PartNo} {k : Coll} {c : Cmd} {st : Nat}
    (h0 : changesOnly ls s0 s) (hm : incl [.time, .rasLog, .fns, .cmds, .nextCid, .locks, .pMem, .pColls, .pAcct, .ctxs, .streams, .ristretto, .semaphores, .poison, .slm, .ports, .peers, .transit, .out, .fresh] ls = true) : changesOnly ls s0 (State.replayed s p k c st) := by
  unfold State.replayed
  try dsimp only
  repeat' (first
    | with_reducible assumption
    | with_reducible intro _
    | with_reducible apply State.withMut_only
    | with_reducible apply State.mutReserve_only
    | with_reducible apply State.addCmd_only
    | with_reducible apply State.mutWrite_only
    | with_reducible apply State.mutConnect_only
    | exact incl_trans rfl hm)

theorem State.replayed_keeps {s0 : State} {s : State} {p : PartNo} {k : Coll} {c : Cmd} {st : Nat}
    (h0 : keeps s0 s) : keeps s0 (State.replayed s p k c st) := by
  unfold State.replayed
  try dsimp only
  repeat' (first
    | with_reducible assumption
    | with_reducible intro _
    | with_reducible apply State.withMut_keeps
    | with_reducible apply State.mutReserve_keeps
    | with_reducible apply State.addCmd_keeps
    | with_reducible apply State.mutWrite_keeps
    | with_reducible apply State.mutConnect_keeps)

theorem State.replayReclaim_only {ls : List Item} {s0 : State} {s : State} {p : PartNo} {k : Coll}
    (h0 : changesOnly ls s0 s) (hm : incl [.time, .rasLog, .fns, .cmds, .locks, .pMem, .pColls, .ctxs, .streams, .ristretto, .semaphores, .poison, .slm, .out, .fresh] ls = true) : changesOnly ls s0 (State.replayReclaim s p k) := by
  have hs := @mem_of_incl [.time, .rasLog, .fns, .cmds, .locks, .pMem, .pColls, .ctxs, .streams, .ristretto, .semaphores, .poison, .slm, .out, .fresh] ls hm
  unfold State.replayReclaim
  try dsimp only
  repeat' (first
    | with_reducible assumption
    | with_reducible intro _
    | with_reducible apply State.runStep_only
    | with_reducible apply State.beginPass_only
    | with_reducible apply only_foldl
    | with_reducible apply only_foldl_fst
    | exact incl_trans rfl hm
    | with_reducible apply only_mk
    | exact Or.inr (hs (by decide))
    | with_reducible exact Or.inl rfl
    | with_reducible exact parts_refl
    | (with_reducible refine Or.inl ?_; and_intros <;> with_reducible rfl)
    | exact Or.inl rfl
    | with_reducible refine only_pair (by assumption) ?_
    | dsimp only
    | rw [mk_put]
    | split)

theorem State.replayReclaim_keeps {s0 : State} {s : State} {p : PartNo} {k : Coll}
    (h0 : keeps s0 s) : keeps s0 (State.replayReclaim s p k) := by
  unfold State.replayReclaim
  try dsimp only
  repeat' (first
    | with_reducible assumption
    | with_reducible intro _
    | with_reducible apply State.runStep_keeps
    | with_reducible apply State.beginPass_keeps
    | with_reducible apply keeps_foldl
    | with_reducible apply keeps_foldl_fst
    | with_reducible apply keeps_mk
    | with_reducible exact id
    | with_reducible exact partsKeep_refl
    | with_reducible exact rasKeep_refl
    | with_reducible exact hbmKeep_refl
    | with_reducible exact pkgKeep_refl
    | with_reducible exact secKeep_refl
    | with_reducible exact namesKeep_refl
    | with_reducible refine keeps_pair (by assumption) ?_
    | dsimp only
    | rw [mk_put]
    | split)

theorem State.rerunMutation_only {ls : List Item} {s0 : State} {s : State} {p : PartNo} {k : Coll} {op st : Nat} {data : Bytes}
    (h0 : changesOnly ls s0 s) (hm : incl [.time, .rasLog, .fns, .cmds, .nextCid, .locks, .pMem, .pColls, .pAcct, .ctxs, .streams, .ristretto, .semaphores, .poison, .slm, .ports, .peers, .transit, .out, .fresh] ls = true) : changesOnly ls s0 (State.rerunMutation s p k op st data).1 := by
  have hs := @mem_of_incl [.time, .rasLog, .fns, .cmds, .nextCid, .locks, .pMem, .pColls, .pAcct, .ctxs, .streams, .ristretto, .semaphores, .poison, .slm, .ports, .peers, .transit, .out, .fresh] ls hm
  unfold State.rerunMutation
  try dsimp only
  repeat' (first
    | with_reducible assumption
    | with_reducible intro _
    | with_reducible apply State.drop_only
    | with_reducible apply State.commitWrites_only
    | with_reducible apply State.replayed_only
    | with_reducible apply only_ite
    | with_reducible apply only_ite_fst
    | exact incl_trans rfl hm
    | with_reducible apply only_mk
    | exact Or.inr (hs (by decide))
    | with_reducible exact Or.inl rfl
    | with_reducible exact parts_refl
    | (with_reducible refine Or.inl ?_; and_intros <;> with_reducible rfl)
    | exact Or.inl rfl
    | with_reducible refine only_pair (by assumption) ?_
    | dsimp only
    | rw [mk_put]
    | split)

theorem State.rerunMutation_keeps {s0 : State} {s : State} {p : PartNo} {k : Coll} {op st : Nat} {data : Bytes}
    (h0 : keeps s0 s) : keeps s0 (State.rerunMutation s p k op st data).1 := by
  unfold State.rerunMutation
  try dsimp only
  repeat' (first
    | with_reducible assumption
    | with_reducible intro _
    | with_reducible apply State.drop_keeps
    | with_reducible apply State.commitWrites_keeps
    | with_reducible apply State.replayed_keeps
    | with_reducible apply keeps_ite
    | with_reducible apply keeps_ite_fst
    | with_reducible apply keeps_mk
    | with_reducible exact id
    | with_reducible exact partsKeep_refl
    | with_reducible exact rasKeep_refl
    | with_reducible exact hbmKeep_refl
    | with_reducible exact pkgKeep_refl
    | with_reducible exact secKeep_refl
    | with_reducible exact namesKeep_refl
    | with_reducible refine keeps_pair (by assumption) ?_
    | dsimp only
    | rw [mk_put]
    | split)

theorem State.rerunCreate_only {ls : List Item} {s0 : State} {s : State} {p : PartNo} {handle seq : Nat} {data : Bytes}
    (h0 : changesOnly ls s0 s) (hm : incl [.nextCid, .pMem, .pColls, .poison, .slm] ls = true) : changesOnly ls s0 (State.rerunCreate s p handle seq data).1 := by
  have hs := @mem_of_incl [.nextCid, .pMem, .pColls, .poison, .slm] ls hm
  unfold State.rerunCreate
  try dsimp only
  repeat' (first
    | with_reducible assumption
    | with_reducible intro _
    | with_reducible apply State.fillColl_only
    | exact incl_trans rfl hm
    | with_reducible exact part_refl
    | with_reducible apply only_modPart
    | with_reducible apply part_mk
    | with_reducible apply only_mk
    | exact Or.inr (hs (by decide))
    | with_reducible exact Or.inl rfl
    | with_reducible exact parts_refl
    | (with_reducible refine Or.inl ?_; and_intros <;> with_reducible rfl)
    | exact Or.inl rfl
    | with_reducible refine only_pair (by assumption) ?_
    | dsimp only
    | rw [mk_put]
    | split)

theorem State.rerunCreate_keeps {s0 : State} {s : State} {p : PartNo} {handle seq : Nat} {data : Bytes}
    (h0 : keeps s0 s) : keeps s0 (State.rerunCreate s p handle seq data).1 := by
  unfold State.rerunCreate
  try dsimp only
  repeat' (first
    | with_reducible assumption
    | with_reducible intro _
    | with_reducible apply State.fillColl_keeps
    | with_reducible exact pKeeps_refl
    | exact pKeeps_new rfl rfl
    | with_reducible apply keeps_modPart
    | with_reducible apply pKeeps_mk
    | with_reducible exact memKeeps_refl
    | exact memKeeps_init memKeeps_refl
    | exact memKeeps_write memKeeps_refl
    | exact memKeeps_scratch
    | exact memKeeps_empty
    | with_reducible apply keeps_mk
    | with_reducible exact id
    | with_reducible exact partsKeep_refl
    | with_reducible exact rasKeep_refl
    | with_reducible exact hbmKeep_refl
    | with_reducible exact pkgKeep_refl
    | with_reducible exact secKeep_refl
    | with_reducible exact namesKeep_refl
    | with_reducible exact namesKeep_next
    | with_reducible refine keeps_pair (by assumption) ?_
    | dsimp only
    | rw [mk_put]
    | split)

theorem Replay.apply_only {ls : List Item} {s0 : State} {a : Replay} {p : PartNo} {r : JRecord} {data : Bytes}
    (h0 : changesOnly ls s0 a.s) (hm : incl [.time, .rasLog, .fns, .cmds, .nextCid, .locks, .pMem, .pColls, .pAcct, .ctxs, .streams, .ristretto, .semaphores, .poison, .slm, .ports, .peers, .transit, .out, .fresh] ls = true) : changesOnly ls s0 (Replay.apply a p r data).s := by
  have k1 : ∀ {k op st d}, changesOnly ls s0 (a.s.rerunMutation p k op st d).1 := State.rerunMutation_only h0 (incl_trans rfl hm)
  have k2 : ∀ {h q d}, changesOnly ls s0 (a.s.rerunCreate p h q d).1 := State.rerunCreate_only h0 (incl_trans rfl hm)
  have k3 : ∀ u f, changesOnly ls s0 (a.s.modCollU p u f).reap := fun u f =>
    State.reap_only (State.modCollU_only h0 (incl_trans rfl hm)) (incl_trans rfl hm)
  have k4 : ∀ {k k2 op st d}, changesOnly ls s0 ((a.s.replayReclaim p k).rerunMutation p k2 op st d).1 :=
    State.rerunMutation_only (State.replayReclaim_only h0 (incl_trans rfl hm)) (incl_trans rfl hm)
  unfold Replay.apply
  dsimp only
  repeat' (first
    | with_reducible exact h0
    | with_reducible exact k1
    | with_reducible exact k2
    | with_reducible exact k3 _ _
    | with_reducible exact k4
    | split)

theorem Replay.apply_keeps {s0 : State} {a : Replay} {p : PartNo} {r : JRecord} {data : Bytes}
    (h0 : keeps s0 a.s) : keeps s0 (Replay.apply a p r data).s := by
  have k1 : ∀ {k op st d}, keeps s0 (a.s.rerunMutation p k op st d).1 := State.rerunMutation_keeps h0
  have k2 : ∀ {h q d}, keeps s0 (a.s.rerunCreate p h q d).1 := State.rerunCreate_keeps h0
  have k3 : ∀ u f, keeps s0 (a.s.modCollU p u f).reap := fun u f =>
    State.reap_keeps (State.modCollU_keeps h0)
  have k4 : ∀ {k k2 op st d}, keeps s0 ((a.s.replayReclaim p k).rerunMutation p k2 op st d).1 :=
    State.rerunMutation_keeps (State.replayReclaim_keeps h0)
  unfold Replay.apply
  dsimp only
  repeat' (first
    | with_reducible exact h0
    | with_reducible exact k1
    | with_reducible exact k2
    | with_reducible exact k3 _ _
    | with_reducible exact k4
    | split)

/-- What a replay's turns each keep, the whole loop keeps (R317). -/
theorem Replay.go_inv {P : Replay → Prop} {p : PartNo} {region : Bytes} {jid key : Nat} (hwrap : ∀ a, P a → P { a with off := ringBase })
    (hpad : ∀ a l, P a → P { a with off := ringBase, seq := a.seq + 1, recs := l }) (hbad : ∀ a, P a → P { a with bad := true })
    (happly : ∀ a r data off l, P a → P { Replay.apply a p r data with off := off, seq := a.seq + 1, recs := l }) :
    ∀ n a, P a → P (Replay.go p region jid key n a)
  | 0, _, h => h
  | n + 1, a, h => by
    have ha : P (if (a.s.part p).jSize ≤ a.off then { a with off := ringBase } else a) := by
      split
      · exact hwrap a h
      · exact h
    unfold Replay.go
    dsimp only
    generalize (if (a.s.part p).jSize ≤ a.off then { a with off := ringBase } else a) = b at ha ⊢
    split
    · exact ha
    split
    · exact Replay.go_inv hwrap hpad hbad happly n _ (hpad b _ ha)
    split
    · exact hbad b ha
    · exact Replay.go_inv hwrap hpad hbad happly n _ (happly b _ _ _ _ ha)

theorem Replay.go_only {ls : List Item} {s0 : State} {p : PartNo} {region : Bytes} {jid key n : Nat} {a : Replay}
    (h0 : changesOnly ls s0 a.s) (hm : incl [.time, .rasLog, .fns, .cmds, .nextCid, .locks, .pMem, .pColls, .pAcct, .ctxs, .streams, .ristretto, .semaphores, .poison, .slm, .ports, .peers, .transit, .out, .fresh] ls = true) :
    changesOnly ls s0 (Replay.go p region jid key n a).s :=
  Replay.go_inv (P := fun a => changesOnly ls s0 a.s) (fun _ h => h) (fun _ _ h => h) (fun _ h => h)
    (fun _ _ _ _ _ h => Replay.apply_only h (incl_trans rfl hm)) n a h0

theorem Replay.go_keeps {s0 : State} {p : PartNo} {region : Bytes} {jid key n : Nat} {a : Replay}
    (h0 : keeps s0 a.s) : keeps s0 (Replay.go p region jid key n a).s :=
  Replay.go_inv (P := fun a => keeps s0 a.s) (fun _ h => h) (fun _ _ h => h) (fun _ h => h)
    (fun _ _ _ _ _ h => Replay.apply_keeps h) n a h0

theorem State.stampFloor_only {ls : List Item} {s0 : State} {s : State} {top : Nat}
    (h0 : changesOnly ls s0 s) (hm : incl [.time] ls = true) : changesOnly ls s0 (State.stampFloor s top) := by
  have hs := @mem_of_incl [.time] ls hm
  unfold State.stampFloor
  try dsimp only
  repeat' (first
    | with_reducible assumption
    | with_reducible intro _
    | with_reducible apply only_ite
    | exact incl_trans rfl hm
    | with_reducible apply only_mk
    | exact Or.inr (hs (by decide))
    | with_reducible exact Or.inl rfl
    | with_reducible exact parts_refl
    | (with_reducible refine Or.inl ?_; and_intros <;> with_reducible rfl)
    | exact Or.inl rfl
    | dsimp only
    | rw [mk_put])

theorem State.stampFloor_keeps {s0 : State} {s : State} {top : Nat}
    (h0 : keeps s0 s) : keeps s0 (State.stampFloor s top) := by
  unfold State.stampFloor
  try dsimp only
  repeat' (first
    | with_reducible assumption
    | with_reducible intro _
    | with_reducible apply keeps_ite
    | with_reducible apply keeps_mk
    | with_reducible exact id
    | with_reducible exact partsKeep_refl
    | with_reducible exact rasKeep_refl
    | with_reducible exact hbmKeep_refl
    | with_reducible exact pkgKeep_refl
    | with_reducible exact secKeep_refl
    | with_reducible exact namesKeep_refl
    | dsimp only
    | rw [mk_put])

theorem State.replayRegion_only {ls : List Item} {s0 : State} {s : State} {p : PartNo} {cid : Nat} {ctrl : Word32} {region h : Bytes} {key : Nat}
    (h0 : changesOnly ls s0 s) (hm : incl [.time, .rasLog, .fns, .cmds, .nextCid, .locks, .pMem, .pColls, .pJournal, .pAcct, .ctxs, .streams, .ristretto, .semaphores, .poison, .slm, .ports, .peers, .transit, .out, .fresh] ls = true) : changesOnly ls s0 (State.replayRegion s p cid ctrl region h key) := by
  have hs := @mem_of_incl [.time, .rasLog, .fns, .cmds, .nextCid, .locks, .pMem, .pColls, .pJournal, .pAcct, .ctxs, .streams, .ristretto, .semaphores, .poison, .slm, .ports, .peers, .transit, .out, .fresh] ls hm
  unfold State.replayRegion
  try dsimp only
  repeat' (first
    | with_reducible assumption
    | with_reducible intro _
    | with_reducible apply State.finish_only
    | with_reducible apply Replay.go_only
    | with_reducible apply State.stampFloor_only
    | with_reducible apply State.fail_only
    | with_reducible apply only_ite
    | exact incl_trans rfl hm
    | with_reducible exact part_refl
    | with_reducible apply part_ite
    | with_reducible apply only_modPart
    | with_reducible apply part_mk
    | with_reducible apply only_mk
    | exact Or.inr (hs (by decide))
    | with_reducible exact Or.inl rfl
    | with_reducible exact parts_refl
    | (with_reducible refine Or.inl ?_; and_intros <;> with_reducible rfl))

theorem State.replayRegion_keeps {s0 : State} {s : State} {p : PartNo} {cid : Nat} {ctrl : Word32} {region h : Bytes} {key : Nat}
    (h0 : keeps s0 s) : keeps s0 (State.replayRegion s p cid ctrl region h key) := by
  unfold State.replayRegion
  try dsimp only
  repeat' (first
    | with_reducible assumption
    | with_reducible intro _
    | with_reducible apply State.finish_keeps
    | with_reducible apply Replay.go_keeps
    | with_reducible apply State.stampFloor_keeps
    | with_reducible apply State.fail_keeps
    | with_reducible apply keeps_ite
    | with_reducible exact pKeeps_refl
    | exact pKeeps_new rfl rfl
    | with_reducible apply pKeeps_ite
    | with_reducible apply keeps_modPart
    | with_reducible apply pKeeps_mk
    | with_reducible exact memKeeps_refl)

end Sys2Proof.Machine
end

