-- ==== Sys2Proof/Laws/Partition.lean ====
section
/-! SUPPORT. What each operation of Machine/Partition.lean may change: its frame, and that it
keeps the invariant and the fuses. -/

namespace Sys2Proof.Machine

open Sys2Proof.Safety Sys2Proof.Laws

theorem State.destroyContents_only {ls : List Item} {s0 : State} {s : State} {p : PartNo}
    (h0 : changesOnly ls s0 s) (hm : incl [.rasLog, .fns, .cmds, .locks, .pFeats, .pMem, .pScratch, .pUses, .pColls, .pJournal, .pShadows, .pAcct, .pHot, .ctxs, .streams, .ristretto, .semaphores, .poison, .slm, .ports, .peers, .transit, .out, .fresh] ls = true) : changesOnly ls s0 (State.destroyContents s p) := by
  have hs := @mem_of_incl [.rasLog, .fns, .cmds, .locks, .pFeats, .pMem, .pScratch, .pUses, .pColls, .pJournal, .pShadows, .pAcct, .pHot, .ctxs, .streams, .ristretto, .semaphores, .poison, .slm, .ports, .peers, .transit, .out, .fresh] ls hm
  unfold State.destroyContents
  try dsimp only
  repeat' (first
    | with_reducible assumption
    | with_reducible intro _
    | with_reducible apply State.dropLines_only
    | with_reducible apply State.journalOff_only
    | with_reducible apply State.endWhere_only
    | with_reducible apply PartSt.lost_only
    | exact incl_trans rfl hm
    | with_reducible exact part_refl
    | with_reducible apply only_modPart
    | with_reducible apply part_mk
    | with_reducible apply only_mk
    | exact Or.inr (hs (by decide))
    | with_reducible exact Or.inl rfl
    | with_reducible exact parts_refl
    | (with_reducible refine Or.inl ?_; and_intros <;> with_reducible rfl)
    | exact Or.inl rfl
    | dsimp only
    | rw [mk_put])

theorem State.destroyContents_keeps {s0 : State} {s : State} {p : PartNo}
    (h0 : keeps s0 s) : keeps s0 (State.destroyContents s p) := by
  unfold State.destroyContents
  try dsimp only
  repeat' (first
    | with_reducible assumption
    | with_reducible intro _
    | with_reducible apply State.dropLines_keeps
    | with_reducible apply State.journalOff_keeps
    | with_reducible apply State.endWhere_keeps
    | with_reducible apply PartSt.lost_keeps
    | with_reducible exact pKeeps_refl
    | exact pKeeps_new rfl rfl
    | with_reducible apply keeps_modPart
    | with_reducible apply pKeeps_mk
    | with_reducible exact memKeeps_refl
    | with_reducible apply keeps_mk
    | with_reducible exact id
    | with_reducible exact partsKeep_refl
    | with_reducible exact rasKeep_refl
    | with_reducible exact hbmKeep_refl
    | with_reducible exact pkgKeep_refl
    | with_reducible exact secKeep_refl
    | with_reducible exact namesKeep_refl
    | dsimp only
    | rw [mk_put])

theorem State.stopPart_only {ls : List Item} {s0 : State} {s : State} {p : PartNo}
    (h0 : changesOnly ls s0 s) (hm : incl [.rasLog, .fns, .pairs, .cmds, .locks, .pMem, .pColls, .pAcct, .pSched, .ctxs, .streams, .ristretto, .semaphores, .poison, .slm, .ports, .peers, .transit, .out, .fresh] ls = true) : changesOnly ls s0 (State.stopPart s p) := by
  have hs := @mem_of_incl [.rasLog, .fns, .pairs, .cmds, .locks, .pMem, .pColls, .pAcct, .pSched, .ctxs, .streams, .ristretto, .semaphores, .poison, .slm, .ports, .peers, .transit, .out, .fresh] ls hm
  unfold State.stopPart
  try dsimp only
  repeat' (first
    | with_reducible assumption
    | with_reducible intro _
    | with_reducible apply State.deletePairs_only
    | with_reducible apply State.endWhere_only
    | with_reducible apply only_ite
    | exact incl_trans rfl hm
    | with_reducible exact part_refl
    | with_reducible apply part_ite
    | with_reducible apply only_modPart
    | with_reducible apply part_mk
    | with_reducible apply only_mk
    | exact Or.inr (hs (by decide))
    | with_reducible exact Or.inl rfl
    | with_reducible exact parts_refl
    | (with_reducible refine Or.inl ?_; and_intros <;> with_reducible rfl)
    | exact Or.inl rfl
    | dsimp only
    | rw [mk_put])

theorem State.stopPart_keeps {s0 : State} {s : State} {p : PartNo}
    (h0 : keeps s0 s) : keeps s0 (State.stopPart s p) := by
  unfold State.stopPart
  try dsimp only
  repeat' (first
    | with_reducible assumption
    | with_reducible intro _
    | with_reducible apply State.deletePairs_keeps
    | with_reducible apply State.endWhere_keeps
    | with_reducible apply keeps_ite
    | with_reducible exact pKeeps_refl
    | exact pKeeps_new rfl rfl
    | with_reducible apply pKeeps_ite
    | with_reducible apply keeps_modPart
    | with_reducible apply pKeeps_mk
    | with_reducible exact memKeeps_refl
    | with_reducible apply keeps_mk
    | with_reducible exact id
    | with_reducible exact partsKeep_refl
    | with_reducible exact rasKeep_refl
    | with_reducible exact hbmKeep_refl
    | with_reducible exact pkgKeep_refl
    | with_reducible exact secKeep_refl
    | with_reducible exact namesKeep_refl
    | with_reducible apply namesKeep_map
    | with_reducible exact namesKeep_filter
    | with_reducible exact namesKeep_nil
    | (intro _; split <;> rfl)
    | dsimp only
    | rw [mk_put]
    | split)

theorem State.releaseHeld_only {ls : List Item} {s0 : State} {s : State}
    (h0 : changesOnly ls s0 s) (hm : incl [.cmds] ls = true) : changesOnly ls s0 (State.releaseHeld s) := by
  have hs := @mem_of_incl [.cmds] ls hm
  unfold State.releaseHeld
  try dsimp only
  repeat' (first
    | with_reducible assumption
    | with_reducible intro _
    | with_reducible apply only_ite
    | exact incl_trans rfl hm
    | with_reducible apply only_mk
    | exact Or.inr (hs (by decide))
    | with_reducible exact Or.inl rfl
    | with_reducible exact parts_refl
    | (with_reducible refine Or.inl ?_; and_intros <;> with_reducible rfl)
    | exact Or.inl rfl
    | dsimp only
    | rw [mk_put])

theorem State.releaseHeld_keeps {s0 : State} {s : State}
    (h0 : keeps s0 s) : keeps s0 (State.releaseHeld s) := by
  unfold State.releaseHeld
  try dsimp only
  repeat' (first
    | with_reducible assumption
    | with_reducible intro _
    | with_reducible apply keeps_ite
    | with_reducible apply keeps_mk
    | with_reducible exact id
    | with_reducible exact partsKeep_refl
    | with_reducible exact rasKeep_refl
    | with_reducible exact hbmKeep_refl
    | with_reducible exact pkgKeep_refl
    | with_reducible exact secKeep_refl
    | with_reducible exact namesKeep_refl
    | with_reducible apply namesKeep_map
    | with_reducible exact namesKeep_filter
    | with_reducible exact namesKeep_nil
    | (intro _; split <;> rfl)
    | dsimp only
    | rw [mk_put]
    | split)

theorem State.gateMask_only {ls : List Item} {s0 : State} {s : State} {m : BitVec 16} {g : Bool}
    (h0 : changesOnly ls s0 s) (hm : incl [.cores, .clusters] ls = true) : changesOnly ls s0 (State.gateMask s m g) := by
  have hs := @mem_of_incl [.cores, .clusters] ls hm
  unfold State.gateMask
  try dsimp only
  repeat' (first
    | with_reducible assumption
    | with_reducible intro _
    | with_reducible apply State.coresLose_only
    | with_reducible apply only_ite
    | exact incl_trans rfl hm
    | with_reducible apply only_mk
    | exact Or.inr (hs (by decide))
    | with_reducible exact Or.inl rfl
    | with_reducible exact parts_refl
    | (with_reducible refine Or.inl ?_; and_intros <;> with_reducible rfl)
    | exact Or.inl rfl
    | dsimp only
    | rw [mk_put])

theorem State.gateMask_keeps {s0 : State} {s : State} {m : BitVec 16} {g : Bool}
    (h0 : keeps s0 s) : keeps s0 (State.gateMask s m g) := by
  unfold State.gateMask
  try dsimp only
  repeat' (first
    | with_reducible assumption
    | with_reducible intro _
    | with_reducible apply State.coresLose_keeps
    | with_reducible apply keeps_ite
    | with_reducible apply keeps_mk
    | with_reducible exact id
    | with_reducible exact partsKeep_refl
    | with_reducible exact rasKeep_refl
    | with_reducible exact hbmKeep_refl
    | with_reducible exact pkgKeep_refl
    | with_reducible exact secKeep_refl
    | with_reducible exact namesKeep_refl
    | (refine ⟨?_, ?_, ?_, ?_, ?_, ?_⟩ <;> first | exact id | exact len_modify | exact len_map | exact len_mapIdx | exact len_set)
    | dsimp only
    | rw [mk_put])

theorem State.releasePart_only {ls : List Item} {s0 : State} {s : State} {p : PartNo}
    (h0 : changesOnly ls s0 s) (hm : incl [.rasLog, .cores, .clusters, .rasCounts, .fns, .cmds, .locks, .pConfig, .pMode, .pFeats, .pMem, .pScratch, .pUses, .pHolds, .pKey, .pColls, .pJournal, .pDeclared, .pShadows, .pAcct, .pWindows, .pRegs, .pSched, .pHot, .ctxs, .streams, .ristretto, .semaphores, .poison, .slm, .ports, .peers, .transit, .out, .fresh] ls = true) : changesOnly ls s0 (State.releasePart s p) := by
  unfold State.releasePart
  try dsimp only
  repeat' (first
    | with_reducible assumption
    | with_reducible intro _
    | with_reducible apply State.gateMask_only
    | with_reducible apply State.destroyContents_only
    | with_reducible apply State.unavailEnd_only
    | with_reducible apply only_ite
    | exact incl_trans rfl hm
    | with_reducible exact part_refl
    | with_reducible apply part_ite
    | with_reducible apply only_modPart
    | exact part_all (incl_trans rfl hm))

theorem State.releasePart_keeps {s0 : State} {s : State} {p : PartNo}
    (h0 : keeps s0 s) : keeps s0 (State.releasePart s p) := by
  unfold State.releasePart
  try dsimp only
  repeat' (first
    | with_reducible assumption
    | with_reducible intro _
    | with_reducible apply State.gateMask_keeps
    | with_reducible apply State.destroyContents_keeps
    | with_reducible apply State.unavailEnd_keeps
    | with_reducible apply keeps_ite
    | with_reducible exact pKeeps_refl
    | exact pKeeps_new rfl rfl
    | with_reducible apply pKeeps_ite
    | with_reducible apply keeps_modPart)

theorem State.assignPart_only {ls : List Item} {s0 : State} {s : State} {c : Cmd}
    (h0 : changesOnly ls s0 s) (hm : incl [.keys, .cores, .clusters, .pConfig, .pMode, .pFeats, .pMem, .pScratch, .pUses, .pHolds, .pKey, .pColls, .pJournal, .pDeclared, .pShadows, .pAcct, .pWindows, .pRegs, .pSched, .pHot] ls = true) : changesOnly ls s0 (State.assignPart s c) := by
  unfold State.assignPart
  try dsimp only
  repeat' (first
    | with_reducible assumption
    | with_reducible intro _
    | with_reducible apply State.gateMask_only
    | with_reducible apply State.newKey_only
    | exact incl_trans rfl hm
    | with_reducible exact part_refl
    | with_reducible apply only_modPart
    | exact part_all (incl_trans rfl hm))

theorem State.assignPart_keeps {s0 : State} {s : State} {c : Cmd}
    (h0 : keeps s0 s) : keeps s0 (State.assignPart s c) := by
  unfold State.assignPart
  try dsimp only
  repeat' (first
    | with_reducible assumption
    | with_reducible intro _
    | with_reducible apply State.gateMask_keeps
    | with_reducible apply State.newKey_keeps
    | with_reducible exact pKeeps_refl
    | exact pKeeps_new rfl rfl
    | with_reducible apply keeps_modPart)

theorem State.configure_only {ls : List Item} {s0 : State} {s : State} {cid : Nat} {pick : Cmd → Bool} {chk : Cmd → Option Err} {f : State → Cmd → State} (hf : ∀ x y, changesOnly ls s0 x → changesOnly ls s0 (f x y))
    (h0 : changesOnly ls s0 s) (hm : incl [.rasLog, .fns, .pairs, .cmds, .locks, .pMem, .pColls, .pAcct, .pSched, .ctxs, .streams, .ristretto, .semaphores, .poison, .slm, .ports, .peers, .transit, .out, .fresh] ls = true) : changesOnly ls s0 (State.configure s cid pick chk f) := by
  have hs := @mem_of_incl [.rasLog, .fns, .pairs, .cmds, .locks, .pMem, .pColls, .pAcct, .pSched, .ctxs, .streams, .ristretto, .semaphores, .poison, .slm, .ports, .peers, .transit, .out, .fresh] ls hm
  unfold State.configure
  try dsimp only
  repeat' (first
    | with_reducible assumption
    | with_reducible intro _
    | with_reducible apply hf
    | with_reducible apply State.modCmd_only
    | with_reducible apply State.releaseHeld_only
    | with_reducible apply State.stopPart_only
    | with_reducible apply State.admin_only
    | with_reducible apply only_ite
    | exact incl_trans rfl hm
    | with_reducible apply only_mk
    | exact Or.inr (hs (by decide))
    | with_reducible exact Or.inl rfl
    | with_reducible exact parts_refl
    | (with_reducible refine Or.inl ?_; and_intros <;> with_reducible rfl)
    | exact Or.inl rfl
    | with_reducible refine only_pair (by assumption) ?_
    | dsimp only
    | rw [mk_put]
    | split)

theorem State.configure_keeps {s0 : State} {s : State} {cid : Nat} {pick : Cmd → Bool} {chk : Cmd → Option Err} {f : State → Cmd → State} (hf : ∀ x y, keeps s0 x → keeps s0 (f x y))
    (h0 : keeps s0 s) : keeps s0 (State.configure s cid pick chk f) := by
  unfold State.configure
  try dsimp only
  repeat' (first
    | with_reducible assumption
    | with_reducible intro _
    | with_reducible apply hf
    | with_reducible apply State.modCmd_keeps
    | with_reducible apply State.releaseHeld_keeps
    | with_reducible apply State.stopPart_keeps
    | with_reducible apply State.admin_keeps
    | with_reducible apply keeps_ite
    | with_reducible apply keeps_mk
    | with_reducible exact id
    | with_reducible exact partsKeep_refl
    | with_reducible exact rasKeep_refl
    | with_reducible exact hbmKeep_refl
    | with_reducible exact pkgKeep_refl
    | with_reducible exact secKeep_refl
    | with_reducible exact namesKeep_refl
    | exact rfl
    | with_reducible refine keeps_pair (by assumption) ?_
    | dsimp only
    | rw [mk_put]
    | split)

theorem State.refuseWrite_only {ls : List Item} {s0 : State} {s : State} {v : Word32}
    (h0 : changesOnly ls s0 s) (hm : incl [.rasLog, .fns, .out] ls = true) : changesOnly ls s0 (State.refuseWrite s v) := by
  unfold State.refuseWrite
  try dsimp only
  repeat' first | with_reducible assumption | with_reducible intro _ | with_reducible apply State.logHost_only

theorem State.refuseWrite_keeps {s0 : State} {s : State} {v : Word32}
    (h0 : keeps s0 s) : keeps s0 (State.refuseWrite s v) := by
  unfold State.refuseWrite
  try dsimp only
  repeat' first | with_reducible assumption | with_reducible intro _ | with_reducible apply State.logHost_keeps

theorem execPartRegRate_only {ls : List Item} {s0 : State} {part : PartNo} {group : Nat} {value : Word32} {s : State}
    (h0 : changesOnly ls s0 s) (hm : incl [.rasLog, .fns, .pRegs, .out] ls = true) {d : State} : changesOnly ls s0 (after d (execPartRegRate part group value s)) := by
  have hs := @mem_of_incl [.rasLog, .fns, .pRegs, .out] ls hm
  unfold execPartRegRate
  unfold after
  try dsimp only
  repeat' (first
    | with_reducible assumption
    | with_reducible intro _
    | with_reducible apply State.refuseWrite_only
    | with_reducible apply only_getD
    | with_reducible apply only_ite
    | exact incl_trans rfl hm
    | with_reducible exact part_refl
    | with_reducible apply part_ite
    | with_reducible apply only_modPart
    | with_reducible apply part_mk
    | with_reducible apply only_mk
    | exact Or.inr (hs (by decide))
    | with_reducible exact Or.inl rfl
    | with_reducible exact parts_refl
    | (with_reducible refine Or.inl ?_; and_intros <;> with_reducible rfl))

theorem execPartRegRate_keeps {s0 : State} {part : PartNo} {group : Nat} {value : Word32} {s : State} {d : State}
    (h0 : keeps s0 s) : keeps s0 (after d (execPartRegRate part group value s)) := by
  unfold execPartRegRate
  unfold after
  try dsimp only
  repeat' (first
    | with_reducible assumption
    | with_reducible intro _
    | with_reducible apply State.refuseWrite_keeps
    | with_reducible apply keeps_getD
    | with_reducible apply keeps_ite
    | with_reducible exact pKeeps_refl
    | exact pKeeps_new rfl rfl
    | with_reducible apply pKeeps_ite
    | with_reducible apply keeps_modPart
    | with_reducible apply pKeeps_mk
    | with_reducible exact memKeeps_refl)

theorem execPartAcctClear_only {ls : List Item} {s0 : State} {value : Word32} {s : State}
    (h0 : changesOnly ls s0 s) (hm : incl [.pAcct] ls = true) {d : State} : changesOnly ls s0 (after d (execPartAcctClear value s)) := by
  have hs := @mem_of_incl [.pAcct] ls hm
  unfold execPartAcctClear
  unfold after
  try dsimp only
  repeat' (first
    | with_reducible assumption
    | with_reducible intro _
    | with_reducible apply only_ite
    | with_reducible apply only_foldl
    | with_reducible apply only_foldl_fst
    | exact incl_trans rfl hm
    | with_reducible exact part_refl
    | with_reducible apply part_ite
    | with_reducible apply part_foldl
    | with_reducible apply only_modPart
    | with_reducible apply part_mk
    | with_reducible apply only_mk
    | exact Or.inr (hs (by decide))
    | with_reducible exact Or.inl rfl
    | with_reducible exact parts_refl
    | (with_reducible refine Or.inl ?_; and_intros <;> with_reducible rfl))

theorem execPartAcctClear_keeps {s0 : State} {value : Word32} {s : State} {d : State}
    (h0 : keeps s0 s) : keeps s0 (after d (execPartAcctClear value s)) := by
  unfold execPartAcctClear
  unfold after
  try dsimp only
  repeat' (first
    | with_reducible assumption
    | with_reducible intro _
    | with_reducible apply keeps_ite
    | with_reducible apply keeps_foldl
    | with_reducible apply keeps_foldl_fst
    | with_reducible exact pKeeps_refl
    | exact pKeeps_new rfl rfl
    | with_reducible apply pKeeps_ite
    | with_reducible apply pKeeps_foldl
    | with_reducible apply keeps_modPart
    | with_reducible apply pKeeps_mk
    | with_reducible exact memKeeps_refl)

end Sys2Proof.Machine
end

