-- ==== Sys2Proof/Laws/Supply.lean ====
section
/-! SUPPORT. What each operation of Machine/Supply.lean may change: its frame, and that it
keeps the invariant and the fuses. -/

namespace Sys2Proof.Machine

open Sys2Proof.Safety Sys2Proof.Laws

theorem State.loseRails_only {ls : List Item} {s0 : State} {s : State} {low : Nat}
    (h0 : changesOnly ls s0 s) (hm : incl [.pkg, .fw, .rasLog, .cores, .clusters, .rasCounts, .hif, .fns, .pairs, .cmds, .locks, .pConfig, .pMem, .pKey, .pColls, .pAcct, .pSched, .ctxs, .streams, .ristretto, .semaphores, .channels, .poison, .hbmRun, .slm, .ports, .peers, .barriers, .transit, .power, .tests, .out, .fresh] ls = true) : changesOnly ls s0 (State.loseRails s low) := by
  have hs := @mem_of_incl [.pkg, .fw, .rasLog, .cores, .clusters, .rasCounts, .hif, .fns, .pairs, .cmds, .locks, .pConfig, .pMem, .pKey, .pColls, .pAcct, .pSched, .ctxs, .streams, .ristretto, .semaphores, .channels, .poison, .hbmRun, .slm, .ports, .peers, .barriers, .transit, .power, .tests, .out, .fresh] ls hm
  unfold State.loseRails
  try dsimp only
  repeat' (first
    | with_reducible assumption
    | with_reducible intro _
    | with_reducible apply State.startRestart_only
    | with_reducible apply State.dropGroups_only
    | with_reducible apply only_ite
    | exact incl_trans rfl hm
    | with_reducible apply only_mk
    | exact Or.inr (hs (by decide))
    | with_reducible exact Or.inl rfl
    | with_reducible exact parts_refl
    | (with_reducible refine Or.inl ?_; and_intros <;> with_reducible rfl)
    | exact Or.inl rfl
    | dsimp only
    | rw [mk_put])

theorem State.loseRails_keeps {s0 : State} {s : State} {low : Nat}
    (h0 : keeps s0 s) : keeps s0 (State.loseRails s low) := by
  unfold State.loseRails
  try dsimp only
  repeat' (first
    | with_reducible assumption
    | with_reducible intro _
    | with_reducible apply State.startRestart_keeps
    | with_reducible apply State.dropGroups_keeps
    | with_reducible apply keeps_ite
    | with_reducible apply keeps_mk
    | with_reducible exact id
    | with_reducible exact partsKeep_refl
    | with_reducible exact rasKeep_refl
    | with_reducible exact hbmKeep_refl
    | with_reducible exact pkgKeep_refl
    | with_reducible exact secKeep_refl
    | with_reducible exact namesKeep_refl
    | (refine (⟨?_, ?_⟩ : hbmKeep _ _) <;> first | exact id | exact len_modify | exact len_map | exact len_mapIdx | exact len_set)
    | (refine (⟨?_, ?_⟩ : pkgKeep _ _) <;> first | exact id | exact len_modify | exact len_map | exact len_mapIdx | exact len_set)
    | dsimp only
    | rw [mk_put])

theorem State.logSupply_only {ls : List Item} {s0 : State} {s : State} {event quadrant scope : Nat}
    (h0 : changesOnly ls s0 s) (hm : incl [.rasLog, .fns, .out] ls = true) : changesOnly ls s0 (State.logSupply s event quadrant scope) := by
  unfold State.logSupply
  try dsimp only
  repeat' first | with_reducible assumption | with_reducible intro _ | with_reducible apply State.log_only

theorem State.logSupply_keeps {s0 : State} {s : State} {event quadrant scope : Nat}
    (h0 : keeps s0 s) : keeps s0 (State.logSupply s event quadrant scope) := by
  unfold State.logSupply
  try dsimp only
  repeat' first | with_reducible assumption | with_reducible intro _ | with_reducible apply State.log_keeps

theorem State.setHotspot_only {ls : List Item} {s0 : State} {s : State} {q temp : Nat}
    (h0 : changesOnly ls s0 s) (hm : incl [.pkg] ls = true) : changesOnly ls s0 (State.setHotspot s q temp) := by
  have hs := @mem_of_incl [.pkg] ls hm
  unfold State.setHotspot
  try dsimp only
  repeat' (first
    | with_reducible assumption
    | with_reducible intro _
    | exact incl_trans rfl hm
    | with_reducible apply only_mk
    | exact Or.inr (hs (by decide))
    | with_reducible exact Or.inl rfl
    | with_reducible exact parts_refl
    | (with_reducible refine Or.inl ?_; and_intros <;> with_reducible rfl)
    | exact Or.inl rfl
    | dsimp only
    | rw [mk_put])

theorem State.setHotspot_keeps {s0 : State} {s : State} {q temp : Nat}
    (h0 : keeps s0 s) : keeps s0 (State.setHotspot s q temp) := by
  unfold State.setHotspot
  try dsimp only
  repeat' (first
    | with_reducible assumption
    | with_reducible intro _
    | with_reducible apply keeps_mk
    | with_reducible exact id
    | with_reducible exact partsKeep_refl
    | with_reducible exact rasKeep_refl
    | with_reducible exact hbmKeep_refl
    | with_reducible exact pkgKeep_refl
    | with_reducible exact secKeep_refl
    | with_reducible exact namesKeep_refl
    | (refine (⟨?_, ?_⟩ : pkgKeep _ _) <;> first | exact id | exact len_modify | exact len_map | exact len_mapIdx | exact len_set)
    | dsimp only
    | rw [mk_put])

end Sys2Proof.Machine
end

