-- ==== Sys2Proof/Laws/Reset.lean ====
section
/-! SUPPORT. What each operation of Machine/Reset.lean may change: its frame, and that it
keeps the invariant and the fuses. -/

namespace Sys2Proof.Machine

open Sys2Proof.Safety Sys2Proof.Laws

theorem State.clearQueues_only {ls : List Item} {s0 : State} {s : State} {f : Fn → Bool}
    (h0 : changesOnly ls s0 s) (hm : incl [.pkg, .fw, .rasLog, .cores, .clusters, .hif, .fns, .pairs, .cmds, .locks, .pMem, .pColls, .pJournal, .pAcct, .pSched, .ctxs, .streams, .ristretto, .semaphores, .atc, .poison, .slm, .ports, .peers, .transit, .power, .tests, .out, .fresh] ls = true) : changesOnly ls s0 (State.clearQueues s f) := by
  have hs := @mem_of_incl [.pkg, .fw, .rasLog, .cores, .clusters, .hif, .fns, .pairs, .cmds, .locks, .pMem, .pColls, .pJournal, .pAcct, .pSched, .ctxs, .streams, .ristretto, .semaphores, .atc, .poison, .slm, .ports, .peers, .transit, .power, .tests, .out, .fresh] ls hm
  unfold State.clearQueues
  try dsimp only
  repeat' (first
    | with_reducible assumption
    | with_reducible intro _
    | with_reducible apply State.jAbandon_only
    | with_reducible apply State.endWhere_only
    | with_reducible apply State.afterKill_only
    | with_reducible apply only_ite
    | with_reducible apply only_foldl
    | with_reducible apply only_foldl_fst
    | exact incl_trans rfl hm
    | with_reducible apply only_mk
    | exact Or.inr (hs (by decide))
    | with_reducible exact Or.inl rfl
    | with_reducible exact parts_refl
    | (with_reducible refine Or.inl ?_; and_intros <;> with_reducible rfl)
    | exact Or.inl rfl
    | dsimp only
    | rw [mk_put])

theorem State.clearQueues_keeps {s0 : State} {s : State} {f : Fn → Bool}
    (h0 : keeps s0 s) : keeps s0 (State.clearQueues s f) := by
  unfold State.clearQueues
  try dsimp only
  repeat' (first
    | with_reducible assumption
    | with_reducible intro _
    | with_reducible apply State.jAbandon_keeps
    | with_reducible apply State.endWhere_keeps
    | with_reducible apply State.afterKill_keeps
    | with_reducible apply keeps_ite
    | with_reducible apply keeps_foldl
    | with_reducible apply keeps_foldl_fst
    | with_reducible apply keeps_mk
    | with_reducible exact id
    | with_reducible exact partsKeep_refl
    | with_reducible exact rasKeep_refl
    | with_reducible exact hbmKeep_refl
    | with_reducible exact pkgKeep_refl
    | with_reducible exact secKeep_refl
    | with_reducible exact namesKeep_refl
    | with_reducible apply namesKeep_map
    | with_reducible exact namesKeep_filter
    | with_reducible exact namesKeep_nil
    | (intro _; split <;> rfl)
    | dsimp only
    | rw [mk_put]
    | split)

theorem State.vfReset_only {ls : List Item} {s0 : State} {s : State} {p : PartNo}
    (h0 : changesOnly ls s0 s) (hm : incl [.pkg, .fw, .keys, .rasLog, .cores, .clusters, .hif, .fns, .pairs, .cmds, .locks, .pMode, .pFeats, .pMem, .pScratch, .pUses, .pKey, .pColls, .pJournal, .pShadows, .pAcct, .pSched, .pHot, .ctxs, .streams, .ristretto, .semaphores, .atc, .poison, .slm, .ports, .peers, .transit, .power, .tests, .out, .fresh] ls = true) : changesOnly ls s0 (State.vfReset s p) := by
  have hs := @mem_of_incl [.pkg, .fw, .keys, .rasLog, .cores, .clusters, .hif, .fns, .pairs, .cmds, .locks, .pMode, .pFeats, .pMem, .pScratch, .pUses, .pKey, .pColls, .pJournal, .pShadows, .pAcct, .pSched, .pHot, .ctxs, .streams, .ristretto, .semaphores, .atc, .poison, .slm, .ports, .peers, .transit, .power, .tests, .out, .fresh] ls hm
  unfold State.vfReset
  try dsimp only
  repeat' (first
    | with_reducible assumption
    | with_reducible intro _
    | with_reducible apply State.rekeyPart_only
    | with_reducible apply State.modFn_only
    | with_reducible apply State.destroyContents_only
    | with_reducible apply State.clearQueues_only
    | with_reducible apply only_ite
    | exact incl_trans rfl hm
    | with_reducible exact part_refl
    | with_reducible apply part_ite
    | with_reducible apply only_modPart
    | with_reducible apply part_mk
    | with_reducible apply only_mk
    | exact Or.inr (hs (by decide))
    | with_reducible exact Or.inl rfl
    | with_reducible exact parts_refl
    | (with_reducible refine Or.inl ?_; and_intros <;> with_reducible rfl))

theorem State.vfReset_keeps {s0 : State} {s : State} {p : PartNo}
    (h0 : keeps s0 s) : keeps s0 (State.vfReset s p) := by
  unfold State.vfReset
  try dsimp only
  repeat' (first
    | with_reducible assumption
    | with_reducible intro _
    | with_reducible apply State.rekeyPart_keeps
    | with_reducible apply State.modFn_keeps
    | with_reducible apply State.destroyContents_keeps
    | with_reducible apply State.clearQueues_keeps
    | with_reducible apply keeps_ite
    | with_reducible exact pKeeps_refl
    | exact pKeeps_new rfl rfl
    | with_reducible apply pKeeps_ite
    | with_reducible apply keeps_modPart
    | with_reducible apply pKeeps_mk
    | with_reducible exact memKeeps_refl)

theorem State.pfReset_only {ls : List Item} {s0 : State} {s : State}
    (h0 : changesOnly ls s0 s) (hm : incl [.pkg, .fw, .keys, .ide, .rasLog, .cores, .clusters, .hif, .fns, .pairs, .cmds, .locks, .pMode, .pFeats, .pMem, .pScratch, .pUses, .pKey, .pColls, .pJournal, .pShadows, .pAcct, .pSched, .pHot, .ctxs, .streams, .ristretto, .semaphores, .atc, .poison, .slm, .ports, .peers, .transit, .power, .tests, .out, .fresh] ls = true) : changesOnly ls s0 (State.pfReset s) := by
  have hs := @mem_of_incl [.pkg, .fw, .keys, .ide, .rasLog, .cores, .clusters, .hif, .fns, .pairs, .cmds, .locks, .pMode, .pFeats, .pMem, .pScratch, .pUses, .pKey, .pColls, .pJournal, .pShadows, .pAcct, .pSched, .pHot, .ctxs, .streams, .ristretto, .semaphores, .atc, .poison, .slm, .ports, .peers, .transit, .power, .tests, .out, .fresh] ls hm
  unfold State.pfReset
  try dsimp only
  repeat' (first
    | with_reducible assumption
    | with_reducible intro _
    | with_reducible apply State.vfReset_only
    | with_reducible apply State.modFn_only
    | with_reducible apply State.clearQueues_only
    | with_reducible apply only_foldl
    | with_reducible apply only_foldl_fst
    | exact incl_trans rfl hm
    | with_reducible apply only_mk
    | exact Or.inr (hs (by decide))
    | with_reducible exact Or.inl rfl
    | with_reducible exact parts_refl
    | (with_reducible refine Or.inl ?_; and_intros <;> with_reducible rfl)
    | exact Or.inl rfl
    | dsimp only
    | rw [mk_put])

theorem State.pfReset_keeps {s0 : State} {s : State}
    (h0 : keeps s0 s) : keeps s0 (State.pfReset s) := by
  unfold State.pfReset
  try dsimp only
  repeat' (first
    | with_reducible assumption
    | with_reducible intro _
    | with_reducible apply State.vfReset_keeps
    | with_reducible apply State.modFn_keeps
    | with_reducible apply State.clearQueues_keeps
    | with_reducible apply keeps_foldl
    | with_reducible apply keeps_foldl_fst
    | with_reducible apply keeps_mk
    | with_reducible exact id
    | with_reducible exact partsKeep_refl
    | with_reducible exact rasKeep_refl
    | with_reducible exact hbmKeep_refl
    | with_reducible exact pkgKeep_refl
    | with_reducible exact secKeep_refl
    | with_reducible exact namesKeep_refl
    | exact secKeep_of rfl rfl
    | dsimp only
    | rw [mk_put])

theorem State.cause_only {ls : List Item} {s0 : State} {s : State} {bit : Nat}
    (h0 : changesOnly ls s0 s) (hm : incl [.hif] ls = true) : changesOnly ls s0 (State.cause s bit) := by
  have hs := @mem_of_incl [.hif] ls hm
  unfold State.cause
  try dsimp only
  repeat' (first
    | with_reducible assumption
    | with_reducible intro _
    | with_reducible apply only_ite
    | exact incl_trans rfl hm
    | with_reducible apply only_mk
    | exact Or.inr (hs (by decide))
    | with_reducible exact Or.inl rfl
    | with_reducible exact parts_refl
    | (with_reducible refine Or.inl ?_; and_intros <;> with_reducible rfl)
    | exact Or.inl rfl
    | dsimp only
    | rw [mk_put])

theorem State.cause_keeps {s0 : State} {s : State} {bit : Nat}
    (h0 : keeps s0 s) : keeps s0 (State.cause s bit) := by
  unfold State.cause
  try dsimp only
  repeat' (first
    | with_reducible assumption
    | with_reducible intro _
    | with_reducible apply keeps_ite
    | with_reducible apply keeps_mk
    | with_reducible exact id
    | with_reducible exact partsKeep_refl
    | with_reducible exact rasKeep_refl
    | with_reducible exact hbmKeep_refl
    | with_reducible exact pkgKeep_refl
    | with_reducible exact secKeep_refl
    | with_reducible exact namesKeep_refl
    | dsimp only
    | rw [mk_put])

theorem State.hotReset_only {ls : List Item} {s0 : State} {s : State} {bit : Nat}
    (h0 : changesOnly ls s0 s) (hm : incl [.pkg, .fw, .keys, .ide, .rasLog, .cores, .clusters, .hif, .fns, .pairs, .cmds, .locks, .pMode, .pFeats, .pMem, .pScratch, .pUses, .pKey, .pColls, .pJournal, .pShadows, .pAcct, .pSched, .pHot, .ctxs, .streams, .ristretto, .semaphores, .atc, .poison, .slm, .ports, .peers, .transit, .power, .tests, .out, .fresh] ls = true) : changesOnly ls s0 (State.hotReset s bit) := by
  have hs := @mem_of_incl [.pkg, .fw, .keys, .ide, .rasLog, .cores, .clusters, .hif, .fns, .pairs, .cmds, .locks, .pMode, .pFeats, .pMem, .pScratch, .pUses, .pKey, .pColls, .pJournal, .pShadows, .pAcct, .pSched, .pHot, .ctxs, .streams, .ristretto, .semaphores, .atc, .poison, .slm, .ports, .peers, .transit, .power, .tests, .out, .fresh] ls hm
  unfold State.hotReset
  try dsimp only
  repeat' (first
    | with_reducible assumption
    | with_reducible intro _
    | with_reducible apply State.cause_only
    | with_reducible apply State.pfReset_only
    | with_reducible apply only_ite
    | exact incl_trans rfl hm
    | with_reducible apply only_mk
    | exact Or.inr (hs (by decide))
    | with_reducible exact Or.inl rfl
    | with_reducible exact parts_refl
    | (with_reducible refine Or.inl ?_; and_intros <;> with_reducible rfl)
    | exact Or.inl rfl
    | dsimp only
    | rw [mk_put])

theorem State.hotReset_keeps {s0 : State} {s : State} {bit : Nat}
    (h0 : keeps s0 s) : keeps s0 (State.hotReset s bit) := by
  unfold State.hotReset
  try dsimp only
  repeat' (first
    | with_reducible assumption
    | with_reducible intro _
    | with_reducible apply State.cause_keeps
    | with_reducible apply State.pfReset_keeps
    | with_reducible apply keeps_ite
    | with_reducible apply keeps_mk
    | with_reducible exact id
    | with_reducible exact partsKeep_refl
    | with_reducible exact rasKeep_refl
    | with_reducible exact hbmKeep_refl
    | with_reducible exact pkgKeep_refl
    | with_reducible exact secKeep_refl
    | with_reducible exact namesKeep_refl
    | dsimp only
    | rw [mk_put])

theorem State.stampCommitting_only {ls : List Item} {s0 : State} {s : State}
    (h0 : changesOnly ls s0 s) (hm : incl [.time] ls = true) : changesOnly ls s0 (State.stampCommitting s) := by
  unfold State.stampCommitting
  try dsimp only
  repeat' (first
    | with_reducible assumption
    | with_reducible intro _
    | with_reducible apply State.issued_only
    | with_reducible apply only_foldl)

theorem State.stampCommitting_keeps {s0 : State} {s : State}
    (h0 : keeps s0 s) : keeps s0 (State.stampCommitting s) := by
  unfold State.stampCommitting
  try dsimp only
  repeat' (first
    | with_reducible assumption
    | with_reducible intro _
    | with_reducible apply State.issued_keeps
    | with_reducible apply keeps_foldl)

theorem State.perstOn_only {ls : List Item} {s0 : State} {s : State}
    (h0 : changesOnly ls s0 s) (hm : incl [.time, .pkg, .fw, .debug, .policy, .ide, .rasLog, .cores, .clusters, .rasCounts, .hif, .fns, .pairs, .cmds, .locks, .pConfig, .pMode, .pFeats, .pMem, .pScratch, .pUses, .pHolds, .pKey, .pColls, .pJournal, .pDeclared, .pShadows, .pAcct, .pWindows, .pRegs, .pSched, .pHot, .ctxs, .streams, .ristretto, .semaphores, .atc, .devMode, .channels, .hbmRun, .meshCtrl, .meshCount, .ports, .routes, .peers, .meshRef, .barriers, .transit, .power, .tests, .out, .fresh] ls = true) : changesOnly ls s0 (State.perstOn s) := by
  have hs := @mem_of_incl [.time, .pkg, .fw, .debug, .policy, .ide, .rasLog, .cores, .clusters, .rasCounts, .hif, .fns, .pairs, .cmds, .locks, .pConfig, .pMode, .pFeats, .pMem, .pScratch, .pUses, .pHolds, .pKey, .pColls, .pJournal, .pDeclared, .pShadows, .pAcct, .pWindows, .pRegs, .pSched, .pHot, .ctxs, .streams, .ristretto, .semaphores, .atc, .devMode, .channels, .hbmRun, .meshCtrl, .meshCount, .ports, .routes, .peers, .meshRef, .barriers, .transit, .power, .tests, .out, .fresh] ls hm
  unfold State.perstOn
  try dsimp only
  repeat' (first
    | with_reducible assumption
    | with_reducible intro _
    | with_reducible apply State.setDevMode_only
    | with_reducible apply State.unavailEnd_only
    | with_reducible apply State.cause_only
    | with_reducible apply State.endTests_only
    | with_reducible apply State.afterKill_only
    | with_reducible apply State.stampCommitting_only
    | with_reducible apply State.haltTgs_only
    | with_reducible apply only_getD
    | with_reducible apply only_ite
    | exact incl_trans rfl hm
    | with_reducible exact part_refl
    | with_reducible apply part_ite
    | with_reducible apply only_modPart
    | with_reducible apply part_mk
    | exact part_all (incl_trans rfl hm)
    | exact parts_all (incl_trans rfl hm)
    | with_reducible apply only_mk
    | exact Or.inr (hs (by decide))
    | with_reducible exact Or.inl rfl
    | with_reducible exact parts_refl
    | with_reducible apply parts_map
    | with_reducible apply parts_mapIdx
    | with_reducible apply parts_modify
    | (with_reducible refine Or.inl ?_; and_intros <;> with_reducible rfl)
    | exact Or.inl rfl
    | dsimp only
    | rw [mk_put])

theorem State.perstOn_keeps {s0 : State} {s : State} (h0 : keeps s0 s) : keeps s0 (State.perstOn s) := by
  unfold State.perstOn
  dsimp only
  rw [mk_put]
  refine keeps_mk len_map partsKeep_fresh ⟨id, id, id, id, id, id⟩ ⟨id, id⟩ (fun _ => rfl) ⟨id, id⟩
    ⟨fusesKept_refl _, fun k => ⟨k.1, fun k2 => ?_⟩⟩ namesKeep_refl ?_
  · dsimp only at k2 ⊢
    rw [if_pos k2]
  · apply State.afterKill_keeps
    apply State.endTests_keeps
    rw [mk_put]
    exact keeps_mk id partsKeep_refl rasKeep_refl hbmKeep_refl id pkgKeep_refl secKeep_refl namesKeep_nil
      (State.haltTgs_keeps (State.stampCommitting_keeps (State.setDevMode_keeps (State.unavailEnd_keeps (State.cause_keeps h0)))))

theorem State.perstOff_only {ls : List Item} {s0 : State} {s : State}
    (h0 : changesOnly ls s0 s) (hm : incl [.pkg, .hif, .out] ls = true) : changesOnly ls s0 (State.perstOff s) := by
  have hs := @mem_of_incl [.pkg, .hif, .out] ls hm
  unfold State.perstOff
  try dsimp only
  repeat' (first
    | with_reducible assumption
    | with_reducible intro _
    | with_reducible apply State.tryStart_only
    | with_reducible apply State.enGroup_only
    | with_reducible apply only_ite
    | exact incl_trans rfl hm
    | with_reducible apply only_mk
    | exact Or.inr (hs (by decide))
    | with_reducible exact Or.inl rfl
    | with_reducible exact parts_refl
    | (with_reducible refine Or.inl ?_; and_intros <;> with_reducible rfl)
    | exact Or.inl rfl
    | dsimp only
    | rw [mk_put])

theorem State.perstOff_keeps {s0 : State} {s : State}
    (h0 : keeps s0 s) : keeps s0 (State.perstOff s) := by
  unfold State.perstOff
  try dsimp only
  repeat' (first
    | with_reducible assumption
    | with_reducible intro _
    | with_reducible apply State.tryStart_keeps
    | with_reducible apply State.enGroup_keeps
    | with_reducible apply keeps_ite
    | with_reducible apply keeps_mk
    | with_reducible exact id
    | with_reducible exact partsKeep_refl
    | with_reducible exact rasKeep_refl
    | with_reducible exact hbmKeep_refl
    | with_reducible exact pkgKeep_refl
    | with_reducible exact secKeep_refl
    | with_reducible exact namesKeep_refl
    | (refine (⟨?_, ?_⟩ : pkgKeep _ _) <;> first | exact id | exact len_modify | exact len_map | exact len_mapIdx | exact len_set)
    | dsimp only
    | rw [mk_put])

theorem State.actOnPerst_only {ls : List Item} {s0 : State} {s : State}
    (h0 : changesOnly ls s0 s) (hm : incl [.time, .pkg, .fw, .debug, .policy, .ide, .rasLog, .cores, .clusters, .rasCounts, .hif, .fns, .pairs, .cmds, .locks, .pConfig, .pMode, .pFeats, .pMem, .pScratch, .pUses, .pHolds, .pKey, .pColls, .pJournal, .pDeclared, .pShadows, .pAcct, .pWindows, .pRegs, .pSched, .pHot, .ctxs, .streams, .ristretto, .semaphores, .atc, .devMode, .channels, .hbmRun, .meshCtrl, .meshCount, .ports, .routes, .peers, .meshRef, .barriers, .transit, .power, .tests, .out, .fresh] ls = true) : changesOnly ls s0 (State.actOnPerst s) := by
  unfold State.actOnPerst
  try dsimp only
  repeat' (first
    | with_reducible assumption
    | with_reducible intro _
    | with_reducible apply State.perstOn_only
    | with_reducible apply State.perstOff_only
    | with_reducible apply only_ite
    | exact incl_trans rfl hm)

theorem State.actOnPerst_keeps {s0 : State} {s : State}
    (h0 : keeps s0 s) : keeps s0 (State.actOnPerst s) := by
  unfold State.actOnPerst
  try dsimp only
  repeat' (first
    | with_reducible assumption
    | with_reducible intro _
    | with_reducible apply State.perstOn_keeps
    | with_reducible apply State.perstOff_keeps
    | with_reducible apply keeps_ite)

theorem State.logFirmware_only {ls : List Item} {s0 : State} {s : State} {event : Nat} {version : Nat} {scope : Nat}
    (h0 : changesOnly ls s0 s) (hm : incl [.rasLog, .fns, .out] ls = true) : changesOnly ls s0 (State.logFirmware s event version scope) := by
  unfold State.logFirmware
  try dsimp only
  repeat' first | with_reducible assumption | with_reducible intro _ | with_reducible apply State.log_only

theorem State.logFirmware_keeps {s0 : State} {s : State} {event : Nat} {version : Nat} {scope : Nat}
    (h0 : keeps s0 s) : keeps s0 (State.logFirmware s event version scope) := by
  unfold State.logFirmware
  try dsimp only
  repeat' first | with_reducible assumption | with_reducible intro _ | with_reducible apply State.log_keeps

theorem State.enterBoot_only {ls : List Item} {s0 : State} {s : State} {err : Nat}
    (h0 : changesOnly ls s0 s) (hm : incl [.time, .pkg, .fw, .debug, .policy, .ide, .rasLog, .cores, .clusters, .rasCounts, .hif, .fns, .pairs, .cmds, .locks, .pConfig, .pMode, .pFeats, .pMem, .pScratch, .pUses, .pHolds, .pKey, .pColls, .pJournal, .pDeclared, .pShadows, .pAcct, .pWindows, .pRegs, .pSched, .pHot, .ctxs, .streams, .ristretto, .semaphores, .atc, .devMode, .channels, .hbmRun, .meshCtrl, .meshCount, .ports, .routes, .peers, .meshRef, .barriers, .transit, .power, .tests, .out, .fresh] ls = true) : changesOnly ls s0 (State.enterBoot s err) := by
  have hs := @mem_of_incl [.time, .pkg, .fw, .debug, .policy, .ide, .rasLog, .cores, .clusters, .rasCounts, .hif, .fns, .pairs, .cmds, .locks, .pConfig, .pMode, .pFeats, .pMem, .pScratch, .pUses, .pHolds, .pKey, .pColls, .pJournal, .pDeclared, .pShadows, .pAcct, .pWindows, .pRegs, .pSched, .pHot, .ctxs, .streams, .ristretto, .semaphores, .atc, .devMode, .channels, .hbmRun, .meshCtrl, .meshCount, .ports, .routes, .peers, .meshRef, .barriers, .transit, .power, .tests, .out, .fresh] ls hm
  unfold State.enterBoot
  try dsimp only
  repeat' (first
    | with_reducible assumption
    | with_reducible intro _
    | with_reducible apply State.logFirmware_only
    | with_reducible apply State.actOnPerst_only
    | with_reducible apply only_ite
    | exact incl_trans rfl hm
    | with_reducible apply only_mk
    | exact Or.inr (hs (by decide))
    | with_reducible exact Or.inl rfl
    | with_reducible exact parts_refl
    | (with_reducible refine Or.inl ?_; and_intros <;> with_reducible rfl)
    | exact Or.inl rfl
    | dsimp only
    | rw [mk_put])

theorem State.enterBoot_keeps {s0 : State} {s : State} {err : Nat}
    (h0 : keeps s0 s) : keeps s0 (State.enterBoot s err) := by
  unfold State.enterBoot
  try dsimp only
  repeat' (first
    | with_reducible assumption
    | with_reducible intro _
    | with_reducible apply State.logFirmware_keeps
    | with_reducible apply State.actOnPerst_keeps
    | with_reducible apply keeps_ite
    | with_reducible apply keeps_mk
    | with_reducible exact id
    | with_reducible exact partsKeep_refl
    | with_reducible exact rasKeep_refl
    | with_reducible exact hbmKeep_refl
    | with_reducible exact pkgKeep_refl
    | with_reducible exact secKeep_refl
    | with_reducible exact namesKeep_refl
    | dsimp only
    | rw [mk_put])

theorem State.vaonLost_only {ls : List Item} {s0 : State} {s : State}
    (h0 : changesOnly ls s0 s) (hm : incl [.time, .pkg, .fw, .debug, .policy, .keys, .ide, .rasLog, .cores, .clusters, .rasCounts, .hif, .fns, .pairs, .turn, .cmds, .locks, .pConfig, .pMode, .pFeats, .pMem, .pScratch, .pUses, .pHolds, .pKey, .pColls, .pJournal, .pDeclared, .pShadows, .pAcct, .pWindows, .pRegs, .pSched, .pHot, .ctxs, .incarnations, .streams, .ristretto, .semaphores, .atc, .devMode, .channels, .stacks, .poison, .hbmTotals, .hbmCtrl, .hbmRun, .slm, .meshCtrl, .meshCount, .ports, .routes, .peers, .meshRef, .barriers, .transit, .power, .tests, .out] ls = true) : changesOnly ls s0 (State.vaonLost s) := by
  have hs := @mem_of_incl [.time, .pkg, .fw, .debug, .policy, .keys, .ide, .rasLog, .cores, .clusters, .rasCounts, .hif, .fns, .pairs, .turn, .cmds, .locks, .pConfig, .pMode, .pFeats, .pMem, .pScratch, .pUses, .pHolds, .pKey, .pColls, .pJournal, .pDeclared, .pShadows, .pAcct, .pWindows, .pRegs, .pSched, .pHot, .ctxs, .incarnations, .streams, .ristretto, .semaphores, .atc, .devMode, .channels, .stacks, .poison, .hbmTotals, .hbmCtrl, .hbmRun, .slm, .meshCtrl, .meshCount, .ports, .routes, .peers, .meshRef, .barriers, .transit, .power, .tests, .out] ls hm
  unfold State.vaonLost
  try dsimp only
  repeat' (first
    | with_reducible assumption
    | with_reducible intro _
    | with_reducible apply State.dropGroups_only
    | with_reducible apply only_ite
    | exact incl_trans rfl hm
    | exact parts_all (incl_trans rfl hm)
    | with_reducible apply only_mk
    | exact Or.inr (hs (by decide))
    | with_reducible exact Or.inl rfl
    | with_reducible exact parts_refl
    | (with_reducible refine Or.inl ?_; and_intros <;> with_reducible rfl)
    | exact Or.inl rfl
    | dsimp only
    | rw [mk_put])

theorem State.vaonLost_keeps {s0 : State} {s : State} (h0 : keeps s0 s) : keeps s0 (State.vaonLost s) := by
  refine keeps_trans h0 ⟨fusesKept_refl _, fun h => ?_⟩
  refine ⟨⟨rfl, rfl, ?_, rfl, rfl, rfl, rfl, ?_, rfl, rfl, rfl, rfl⟩, fun p hp => ?_, Nat.zero_le _, ⟨h.2.2.2.1.1, fun k => ?_⟩, List.nodup_nil, fun c hc => by cases hc⟩
  · have e : s.vaonLost.ras.cores = resetCores := rfl
    rw [e, resetCores, List.length_map, List.length_range]
  · unfold State.vaonLost
    dsimp only
    rw [List.length_mapIdx, List.length_replicate]
  · rw [show s.vaonLost.parts = List.replicate 16 {} from rfl] at hp
    rw [List.eq_of_mem_replicate hp]
    exact (pKeeps_new (x := { mem := {}, scratchMem := Mem.scratch }) rfl rfl) ⟨⟨List.Pairwise.nil, fun c h => by cases h⟩, ⟨List.Pairwise.nil, fun c h => by cases h⟩⟩
  · exact if_pos k

theorem execDpRestart_only {ls : List Item} {s0 : State} {value : Word32} {s : State}
    (h0 : changesOnly ls s0 s) (hm : incl [.pkg, .fw, .rasLog, .cores, .clusters, .rasCounts, .hif, .fns, .pairs, .cmds, .locks, .pConfig, .pMem, .pKey, .pColls, .pAcct, .pSched, .ctxs, .streams, .ristretto, .semaphores, .channels, .poison, .hbmRun, .slm, .ports, .peers, .barriers, .transit, .power, .tests, .out, .fresh] ls = true) {d : State} : changesOnly ls s0 (after d (execDpRestart value s)) := by
  unfold execDpRestart
  unfold after
  try dsimp only
  repeat' (first
    | with_reducible assumption
    | with_reducible intro _
    | with_reducible apply State.startRestart_only
    | with_reducible apply only_ite)

theorem execDpRestart_keeps {s0 : State} {value : Word32} {s : State} {d : State}
    (h0 : keeps s0 s) : keeps s0 (after d (execDpRestart value s)) := by
  unfold execDpRestart
  unfold after
  try dsimp only
  repeat' (first
    | with_reducible assumption
    | with_reducible intro _
    | with_reducible apply State.startRestart_keeps
    | with_reducible apply keeps_ite)

theorem State.reinstateAtStart_only {ls : List Item} {s0 : State} {s : State} {bad : List Nat} {n : Nat}
    (h0 : changesOnly ls s0 s) (hm : incl [.rasLog, .cores, .clusters, .fns, .out] ls = true) : changesOnly ls s0 (State.reinstateAtStart s bad n) := by
  have hs := @mem_of_incl [.rasLog, .cores, .clusters, .fns, .out] ls hm
  unfold State.reinstateAtStart
  try dsimp only
  repeat' (first
    | with_reducible assumption
    | with_reducible intro _
    | with_reducible apply State.modCluster_only
    | with_reducible apply State.logCluster_only
    | with_reducible apply only_getD
    | with_reducible apply only_ite
    | exact incl_trans rfl hm
    | with_reducible apply only_mk
    | exact Or.inr (hs (by decide))
    | with_reducible exact Or.inl rfl
    | with_reducible exact parts_refl
    | (with_reducible refine Or.inl ?_; and_intros <;> with_reducible rfl)
    | exact Or.inl rfl
    | dsimp only
    | rw [mk_put])

theorem State.reinstateAtStart_keeps {s0 : State} {s : State} {bad : List Nat} {n : Nat}
    (h0 : keeps s0 s) : keeps s0 (State.reinstateAtStart s bad n) := by
  unfold State.reinstateAtStart
  try dsimp only
  repeat' (first
    | with_reducible assumption
    | with_reducible intro _
    | with_reducible apply State.modCluster_keeps
    | with_reducible apply State.logCluster_keeps
    | with_reducible apply keeps_getD
    | with_reducible apply keeps_ite
    | with_reducible apply keeps_mk
    | with_reducible exact id
    | with_reducible exact partsKeep_refl
    | with_reducible exact rasKeep_refl
    | with_reducible exact hbmKeep_refl
    | with_reducible exact pkgKeep_refl
    | with_reducible exact secKeep_refl
    | with_reducible exact namesKeep_refl
    | (refine ⟨?_, ?_, ?_, ?_, ?_, ?_⟩ <;> first | exact id | exact len_modify | exact len_map | exact len_mapIdx | exact len_set)
    | dsimp only
    | rw [mk_put])

theorem State.wakeDone_only {ls : List Item} {s0 : State} {s : State} {w : Option (Nat × Nat)}
    (h0 : changesOnly ls s0 s) (hm : incl [.cmds, .locks, .ctxs, .streams, .ristretto, .semaphores, .power] ls = true) : changesOnly ls s0 (State.wakeDone s w) := by
  have hs := @mem_of_incl [.cmds, .locks, .ctxs, .streams, .ristretto, .semaphores, .power] ls hm
  unfold State.wakeDone
  try dsimp only
  repeat' (first
    | with_reducible assumption
    | with_reducible intro _
    | with_reducible apply State.finish_only
    | with_reducible apply only_ite
    | exact incl_trans rfl hm
    | with_reducible apply only_mk
    | exact Or.inr (hs (by decide))
    | with_reducible exact Or.inl rfl
    | with_reducible exact parts_refl
    | (with_reducible refine Or.inl ?_; and_intros <;> with_reducible rfl)
    | exact Or.inl rfl
    | with_reducible refine only_pair (by assumption) ?_
    | dsimp only
    | rw [mk_put]
    | split)

theorem State.wakeDone_keeps {s0 : State} {s : State} {w : Option (Nat × Nat)}
    (h0 : keeps s0 s) : keeps s0 (State.wakeDone s w) := by
  unfold State.wakeDone
  try dsimp only
  repeat' (first
    | with_reducible assumption
    | with_reducible intro _
    | with_reducible apply State.finish_keeps
    | with_reducible apply keeps_ite
    | with_reducible apply keeps_mk
    | with_reducible exact id
    | with_reducible exact partsKeep_refl
    | with_reducible exact rasKeep_refl
    | with_reducible exact hbmKeep_refl
    | with_reducible exact pkgKeep_refl
    | with_reducible exact secKeep_refl
    | with_reducible exact namesKeep_refl
    | with_reducible refine keeps_pair (by assumption) ?_
    | dsimp only
    | rw [mk_put]
    | split)

theorem State.rearm_only {ls : List Item} {s0 : State} {s : State}
    (h0 : changesOnly ls s0 s) (hm : incl [.fns, .pairs] ls = true) : changesOnly ls s0 (State.rearm s) := by
  have hs := @mem_of_incl [.fns, .pairs] ls hm
  unfold State.rearm
  try dsimp only
  repeat' (first
    | with_reducible assumption
    | with_reducible intro _
    | with_reducible apply State.armAdmin_only
    | with_reducible apply only_ite
    | with_reducible apply only_foldl
    | with_reducible apply only_foldl_fst
    | exact incl_trans rfl hm
    | with_reducible apply only_mk
    | exact Or.inr (hs (by decide))
    | with_reducible exact Or.inl rfl
    | with_reducible exact parts_refl
    | (with_reducible refine Or.inl ?_; and_intros <;> with_reducible rfl)
    | exact Or.inl rfl
    | dsimp only
    | rw [mk_put])

theorem State.rearm_keeps {s0 : State} {s : State}
    (h0 : keeps s0 s) : keeps s0 (State.rearm s) := by
  unfold State.rearm
  try dsimp only
  repeat' (first
    | with_reducible assumption
    | with_reducible intro _
    | with_reducible apply State.armAdmin_keeps
    | with_reducible apply keeps_ite
    | with_reducible apply keeps_foldl
    | with_reducible apply keeps_foldl_fst
    | with_reducible apply keeps_mk
    | with_reducible exact id
    | with_reducible exact partsKeep_refl
    | with_reducible exact rasKeep_refl
    | with_reducible exact hbmKeep_refl
    | with_reducible exact pkgKeep_refl
    | with_reducible exact secKeep_refl
    | with_reducible exact namesKeep_refl
    | dsimp only
    | rw [mk_put])

theorem State.openDebug_only {ls : List Item} {s0 : State} {s : State}
    (h0 : changesOnly ls s0 s) (hm : incl [.debug, .rasLog, .fns, .out] ls = true) : changesOnly ls s0 (State.openDebug s) := by
  have hs := @mem_of_incl [.debug, .rasLog, .fns, .out] ls hm
  unfold State.openDebug
  try dsimp only
  repeat' (first
    | with_reducible assumption
    | with_reducible intro _
    | with_reducible apply State.logSecurity_only
    | with_reducible apply only_ite
    | exact incl_trans rfl hm
    | with_reducible apply only_mk
    | exact Or.inr (hs (by decide))
    | with_reducible exact Or.inl rfl
    | with_reducible exact parts_refl
    | (with_reducible refine Or.inl ?_; and_intros <;> with_reducible rfl)
    | exact Or.inl rfl
    | with_reducible refine only_pair (by assumption) ?_
    | dsimp only
    | rw [mk_put]
    | split)

theorem State.openDebug_keeps {s0 : State} {s : State} (h0 : keeps s0 s) : keeps s0 (State.openDebug s) := by
  unfold State.openDebug
  dsimp only
  split
  · exact h0
  split
  · rw [mk_put]
    exact keeps_mk id partsKeep_refl rasKeep_refl hbmKeep_refl id pkgKeep_refl (secKeep_of rfl rfl) namesKeep_refl h0
  · rename_i h
    apply State.logSecurity_keeps
    rw [mk_put]
    refine keeps_mk id partsKeep_refl rasKeep_refl hbmKeep_refl id pkgKeep_refl ⟨fusesKept_refl _, fun k => ⟨k.1, fun k2 => ?_⟩⟩ namesKeep_refl h0
    rw [k.2 k2] at h
    exact absurd rfl h

theorem State.failAtStart_only {ls : List Item} {s0 : State} {s : State} {n : Nat}
    (h0 : changesOnly ls s0 s) (hm : incl [.pkg, .fw, .rasLog, .cores, .clusters, .rasCounts, .hif, .fns, .pairs, .cmds, .locks, .pConfig, .pMem, .pScratch, .pUses, .pKey, .pColls, .pAcct, .pSched, .pHot, .ctxs, .streams, .ristretto, .semaphores, .channels, .poison, .hbmRun, .slm, .ports, .peers, .barriers, .transit, .power, .tests, .out, .fresh] ls = true) : changesOnly ls s0 (State.failAtStart s n) := by
  unfold State.failAtStart
  try dsimp only
  repeat' (first
    | with_reducible assumption
    | with_reducible intro _
    | with_reducible apply State.logCore_only
    | with_reducible apply State.modCore_only
    | with_reducible apply State.coreFail_only
    | with_reducible apply only_ite
    | exact incl_trans rfl hm)

theorem State.failAtStart_keeps {s0 : State} {s : State} {n : Nat}
    (h0 : keeps s0 s) : keeps s0 (State.failAtStart s n) := by
  unfold State.failAtStart
  try dsimp only
  repeat' (first
    | with_reducible assumption
    | with_reducible intro _
    | with_reducible apply State.logCore_keeps
    | with_reducible apply State.modCore_keeps
    | with_reducible apply State.coreFail_keeps
    | with_reducible apply keeps_ite)

theorem State.newReserveKey_only {ls : List Item} {s0 : State} {s : State}
    (h0 : changesOnly ls s0 s) (hm : incl [.keys] ls = true) : changesOnly ls s0 (State.newReserveKey s) := by
  have hs := @mem_of_incl [.keys] ls hm
  unfold State.newReserveKey
  try dsimp only
  repeat' (first
    | with_reducible assumption
    | with_reducible intro _
    | with_reducible apply State.newKey_only
    | exact incl_trans rfl hm
    | with_reducible apply only_mk
    | exact Or.inr (hs (by decide))
    | with_reducible exact Or.inl rfl
    | with_reducible exact parts_refl
    | (with_reducible refine Or.inl ?_; and_intros <;> with_reducible rfl)
    | exact Or.inl rfl
    | dsimp only
    | rw [mk_put])

theorem State.newReserveKey_keeps {s0 : State} {s : State}
    (h0 : keeps s0 s) : keeps s0 (State.newReserveKey s) := by
  unfold State.newReserveKey
  try dsimp only
  repeat' (first
    | with_reducible assumption
    | with_reducible intro _
    | with_reducible apply State.newKey_keeps
    | with_reducible apply keeps_mk
    | with_reducible exact id
    | with_reducible exact partsKeep_refl
    | with_reducible exact rasKeep_refl
    | with_reducible exact hbmKeep_refl
    | with_reducible exact pkgKeep_refl
    | with_reducible exact secKeep_refl
    | with_reducible exact namesKeep_refl
    | exact secKeep_of rfl rfl
    | dsimp only
    | rw [mk_put])

theorem State.pathInit_only {ls : List Item} {s0 : State} {s : State} {deadLanes : List (Nat × Nat)} {badChannels badClusters : List Nat}
    (h0 : changesOnly ls s0 s) (hm : incl [.time, .fuses, .keys, .rasLog, .cores, .clusters, .hif, .fns, .cmds, .locks, .pConfig, .pMem, .pScratch, .pUses, .pKey, .pColls, .pJournal, .pShadows, .pHot, .ctxs, .streams, .ristretto, .semaphores, .channels, .poison, .hbmTotals, .hbmRun, .slm, .out] ls = true) : changesOnly ls s0 (State.pathInit s deadLanes badChannels badClusters) := by
  have hs := @mem_of_incl [.time, .fuses, .keys, .rasLog, .cores, .clusters, .hif, .fns, .cmds, .locks, .pConfig, .pMem, .pScratch, .pUses, .pKey, .pColls, .pJournal, .pShadows, .pHot, .ctxs, .streams, .ristretto, .semaphores, .channels, .poison, .hbmTotals, .hbmRun, .slm, .out] ls hm
  unfold State.pathInit
  try dsimp only
  repeat' (first
    | with_reducible assumption
    | with_reducible intro _
    | with_reducible apply State.rekeyPart_only
    | with_reducible apply State.drop_only
    | with_reducible apply State.newReserveKey_only
    | with_reducible apply State.reinstateAtStart_only
    | with_reducible apply State.hbmInit_only
    | with_reducible apply PartSt.lost_only
    | with_reducible apply State.stampCommitting_only
    | with_reducible apply only_foldl
    | with_reducible apply only_foldl_fst
    | exact incl_trans rfl hm
    | with_reducible exact part_refl
    | with_reducible apply part_foldl
    | with_reducible apply only_modPart
    | with_reducible apply part_mk
    | with_reducible apply only_mk
    | exact Or.inr (hs (by decide))
    | with_reducible exact Or.inl rfl
    | with_reducible exact parts_refl
    | (with_reducible refine Or.inl ?_; and_intros <;> with_reducible rfl)
    | exact Or.inl rfl
    | with_reducible refine only_pair (by assumption) ?_
    | dsimp only
    | rw [mk_put])

theorem State.pathInit_keeps {s0 : State} {s : State} {deadLanes : List (Nat × Nat)} {badChannels badClusters : List Nat}
    (h0 : keeps s0 s) : keeps s0 (State.pathInit s deadLanes badChannels badClusters) := by
  unfold State.pathInit
  try dsimp only
  repeat' (first
    | with_reducible assumption
    | with_reducible intro _
    | with_reducible apply State.rekeyPart_keeps
    | with_reducible apply State.drop_keeps
    | with_reducible apply State.newReserveKey_keeps
    | with_reducible apply State.reinstateAtStart_keeps
    | with_reducible apply State.hbmInit_keeps
    | with_reducible apply PartSt.lost_keeps
    | with_reducible apply State.stampCommitting_keeps
    | with_reducible apply keeps_foldl
    | with_reducible apply keeps_foldl_fst
    | with_reducible exact pKeeps_refl
    | exact pKeeps_new rfl rfl
    | with_reducible apply pKeeps_foldl
    | with_reducible apply keeps_modPart
    | with_reducible apply pKeeps_mk
    | with_reducible exact memKeeps_refl
    | with_reducible apply keeps_mk
    | with_reducible exact id
    | with_reducible exact partsKeep_refl
    | with_reducible exact rasKeep_refl
    | with_reducible exact hbmKeep_refl
    | with_reducible exact pkgKeep_refl
    | with_reducible exact secKeep_refl
    | with_reducible exact namesKeep_refl
    | with_reducible refine keeps_pair (by assumption) ?_
    | dsimp only
    | rw [mk_put])

theorem State.pathReady_only {ls : List Item} {s0 : State} {s : State}
    (h0 : changesOnly ls s0 s) (hm : incl [.rasCounts, .hif, .peers, .power] ls = true) : changesOnly ls s0 (State.pathReady s) := by
  have hs := @mem_of_incl [.rasCounts, .hif, .peers, .power] ls hm
  unfold State.pathReady
  try dsimp only
  repeat' (first
    | with_reducible assumption
    | with_reducible intro _
    | with_reducible apply only_ite
    | exact incl_trans rfl hm
    | with_reducible apply only_mk
    | exact Or.inr (hs (by decide))
    | with_reducible exact Or.inl rfl
    | with_reducible exact parts_refl
    | (with_reducible refine Or.inl ?_; and_intros <;> with_reducible rfl)
    | exact Or.inl rfl
    | dsimp only
    | rw [mk_put])

theorem State.pathReady_keeps {s0 : State} {s : State} (h0 : keeps s0 s) : keeps s0 (State.pathReady s) := by
  unfold State.pathReady
  rw [mk_put]
  exact keeps_mk id partsKeep_refl rasKeep_refl hbmKeep_refl id pkgKeep_refl secKeep_refl namesKeep_refl h0

theorem State.pathFail_only {ls : List Item} {s0 : State} {s : State} {badClusters badCores : List Nat}
    (h0 : changesOnly ls s0 s) (hm : incl [.pkg, .fw, .rasLog, .cores, .clusters, .rasCounts, .hif, .fns, .pairs, .cmds, .locks, .pConfig, .pMem, .pScratch, .pUses, .pKey, .pColls, .pAcct, .pSched, .pHot, .ctxs, .streams, .ristretto, .semaphores, .channels, .poison, .hbmRun, .slm, .ports, .peers, .barriers, .transit, .power, .tests, .out, .fresh] ls = true) : changesOnly ls s0 (State.pathFail s badClusters badCores) := by
  unfold State.pathFail
  try dsimp only
  repeat' (first
    | with_reducible assumption
    | with_reducible intro _
    | with_reducible apply State.failAtStart_only
    | with_reducible apply State.bypass_only
    | with_reducible apply State.recap_only
    | with_reducible apply State.unavailEnd_only
    | with_reducible apply State.gateAll_only
    | with_reducible apply only_foldl
    | with_reducible apply only_foldl_fst
    | exact incl_trans rfl hm)

theorem State.pathFail_keeps {s0 : State} {s : State} {badClusters badCores : List Nat}
    (h0 : keeps s0 s) : keeps s0 (State.pathFail s badClusters badCores) := by
  unfold State.pathFail
  try dsimp only
  repeat' (first
    | with_reducible assumption
    | with_reducible intro _
    | with_reducible apply State.failAtStart_keeps
    | with_reducible apply State.bypass_keeps
    | with_reducible apply State.recap_keeps
    | with_reducible apply State.unavailEnd_keeps
    | with_reducible apply State.gateAll_keeps
    | with_reducible apply keeps_foldl)

end Sys2Proof.Machine
end

