-- ==== Sys2Proof/Laws/Firmware.lean ====
section
/-! SUPPORT. What each operation of Machine/Firmware.lean may change: its frame, and that it
keeps the invariant and the fuses. -/

namespace Sys2Proof.Machine

open Sys2Proof.Safety Sys2Proof.Laws

theorem State.flash_only {ls : List Item} {s0 : State} {s : State} {i : Image} {ok : Bool}
    (h0 : changesOnly ls s0 s) (hm : incl [.fw] ls = true) : changesOnly ls s0 (State.flash s i ok) := by
  have hs := @mem_of_incl [.fw] ls hm
  unfold State.flash
  try dsimp only
  repeat' (first
    | with_reducible assumption
    | with_reducible intro _
    | with_reducible apply only_ite
    | exact incl_trans rfl hm
    | with_reducible apply only_mk
    | exact Or.inr (hs (by decide))
    | with_reducible exact Or.inl rfl
    | with_reducible exact parts_refl
    | (with_reducible refine Or.inl ?_; and_intros <;> with_reducible rfl)
    | exact Or.inl rfl
    | dsimp only
    | rw [mk_put])

theorem State.flash_keeps {s0 : State} {s : State} {i : Image} {ok : Bool}
    (h0 : keeps s0 s) : keeps s0 (State.flash s i ok) := by
  unfold State.flash
  try dsimp only
  repeat' (first
    | with_reducible assumption
    | with_reducible intro _
    | with_reducible apply keeps_ite
    | with_reducible apply keeps_mk
    | with_reducible exact id
    | with_reducible exact partsKeep_refl
    | with_reducible exact rasKeep_refl
    | with_reducible exact hbmKeep_refl
    | with_reducible exact pkgKeep_refl
    | with_reducible exact secKeep_refl
    | with_reducible exact namesKeep_refl
    | dsimp only
    | rw [mk_put])

theorem State.loaded_only {ls : List Item} {s0 : State} {s : State} {i : Image}
    (h0 : changesOnly ls s0 s) (hm : incl [.fw, .rasLog, .fns, .out] ls = true) : changesOnly ls s0 (State.loaded s i) := by
  unfold State.loaded
  try dsimp only
  repeat' (first
    | with_reducible assumption
    | with_reducible intro _
    | with_reducible apply State.flash_only
    | with_reducible apply State.logFirmware_only
    | exact incl_trans rfl hm)

theorem State.loaded_keeps {s0 : State} {s : State} {i : Image}
    (h0 : keeps s0 s) : keeps s0 (State.loaded s i) := by
  unfold State.loaded
  try dsimp only
  repeat' (first
    | with_reducible assumption
    | with_reducible intro _
    | with_reducible apply State.flash_keeps
    | with_reducible apply State.logFirmware_keeps)

theorem State.endLoad_only {ls : List Item} {s0 : State} {s : State} {c : Cmd} {flashOk : Bool}
    (h0 : changesOnly ls s0 s) (hm : incl [.fw, .rasLog, .fns, .cmds, .locks, .ctxs, .streams, .ristretto, .semaphores, .out] ls = true) : changesOnly ls s0 (State.endLoad s c flashOk) := by
  have hs := @mem_of_incl [.fw, .rasLog, .fns, .cmds, .locks, .ctxs, .streams, .ristretto, .semaphores, .out] ls hm
  unfold State.endLoad
  try dsimp only
  repeat' (first
    | with_reducible assumption
    | with_reducible intro _
    | with_reducible apply State.flash_only
    | with_reducible apply State.finish_only
    | with_reducible apply State.loaded_only
    | with_reducible apply State.fail_only
    | with_reducible apply only_ite
    | exact incl_trans rfl hm
    | with_reducible apply only_mk
    | exact Or.inr (hs (by decide))
    | with_reducible exact Or.inl rfl
    | with_reducible exact parts_refl
    | (with_reducible refine Or.inl ?_; and_intros <;> with_reducible rfl)
    | exact Or.inl rfl
    | with_reducible refine only_pair (by assumption) ?_
    | dsimp only
    | rw [mk_put]
    | split)

theorem State.endLoad_keeps {s0 : State} {s : State} {c : Cmd} {flashOk : Bool}
    (h0 : keeps s0 s) : keeps s0 (State.endLoad s c flashOk) := by
  unfold State.endLoad
  try dsimp only
  repeat' (first
    | with_reducible assumption
    | with_reducible intro _
    | with_reducible apply State.flash_keeps
    | with_reducible apply State.finish_keeps
    | with_reducible apply State.loaded_keeps
    | with_reducible apply State.fail_keeps
    | with_reducible apply keeps_ite
    | with_reducible apply keeps_mk
    | with_reducible exact id
    | with_reducible exact partsKeep_refl
    | with_reducible exact rasKeep_refl
    | with_reducible exact hbmKeep_refl
    | with_reducible exact pkgKeep_refl
    | with_reducible exact secKeep_refl
    | with_reducible exact namesKeep_refl
    | with_reducible refine keeps_pair (by assumption) ?_
    | dsimp only
    | rw [mk_put]
    | split)

theorem State.endLive_only {ls : List Item} {s0 : State} {s : State} {cid : Nat}
    (h0 : changesOnly ls s0 s) (hm : incl [.fw, .rasLog, .fns, .cmds, .locks, .ctxs, .streams, .ristretto, .semaphores, .out] ls = true) : changesOnly ls s0 (State.endLive s cid) := by
  have hs := @mem_of_incl [.fw, .rasLog, .fns, .cmds, .locks, .ctxs, .streams, .ristretto, .semaphores, .out] ls hm
  unfold State.endLive
  try dsimp only
  repeat' (first
    | with_reducible assumption
    | with_reducible intro _
    | with_reducible apply State.finish_only
    | with_reducible apply State.raise_only
    | with_reducible apply State.logFirmware_only
    | with_reducible apply only_getD
    | exact incl_trans rfl hm
    | with_reducible apply only_mk
    | exact Or.inr (hs (by decide))
    | with_reducible exact Or.inl rfl
    | with_reducible exact parts_refl
    | (with_reducible refine Or.inl ?_; and_intros <;> with_reducible rfl)
    | exact Or.inl rfl
    | dsimp only
    | rw [mk_put])

theorem State.endLive_keeps {s0 : State} {s : State} {cid : Nat}
    (h0 : keeps s0 s) : keeps s0 (State.endLive s cid) := by
  unfold State.endLive
  try dsimp only
  repeat' (first
    | with_reducible assumption
    | with_reducible intro _
    | with_reducible apply State.finish_keeps
    | with_reducible apply State.raise_keeps
    | with_reducible apply State.logFirmware_keeps
    | with_reducible apply keeps_getD
    | with_reducible apply keeps_mk
    | with_reducible exact id
    | with_reducible exact partsKeep_refl
    | with_reducible exact rasKeep_refl
    | with_reducible exact hbmKeep_refl
    | with_reducible exact pkgKeep_refl
    | with_reducible exact secKeep_refl
    | with_reducible exact namesKeep_refl
    | dsimp only
    | rw [mk_put])

theorem State.restartFirmware_only {ls : List Item} {s0 : State} {s : State}
    (h0 : changesOnly ls s0 s) (hm : incl [.time, .pkg, .fw, .debug, .policy, .ide, .rasLog, .cores, .clusters, .rasCounts, .hif, .fns, .pairs, .cmds, .locks, .pConfig, .pMode, .pFeats, .pMem, .pScratch, .pUses, .pHolds, .pKey, .pColls, .pJournal, .pDeclared, .pShadows, .pAcct, .pWindows, .pRegs, .pSched, .pHot, .ctxs, .streams, .ristretto, .semaphores, .atc, .devMode, .channels, .poison, .hbmRun, .slm, .meshCtrl, .meshCount, .ports, .routes, .peers, .meshRef, .barriers, .transit, .power, .tests, .out, .fresh] ls = true) : changesOnly ls s0 (State.restartFirmware s) := by
  have hs := @mem_of_incl [.time, .pkg, .fw, .debug, .policy, .ide, .rasLog, .cores, .clusters, .rasCounts, .hif, .fns, .pairs, .cmds, .locks, .pConfig, .pMode, .pFeats, .pMem, .pScratch, .pUses, .pHolds, .pKey, .pColls, .pJournal, .pDeclared, .pShadows, .pAcct, .pWindows, .pRegs, .pSched, .pHot, .ctxs, .streams, .ristretto, .semaphores, .atc, .devMode, .channels, .poison, .hbmRun, .slm, .meshCtrl, .meshCount, .ports, .routes, .peers, .meshRef, .barriers, .transit, .power, .tests, .out, .fresh] ls hm
  unfold State.restartFirmware
  try dsimp only
  repeat' (first
    | with_reducible assumption
    | with_reducible intro _
    | with_reducible apply State.enterBoot_only
    | with_reducible apply State.startRestart_only
    | with_reducible apply only_ite
    | exact incl_trans rfl hm
    | with_reducible apply only_mk
    | exact Or.inr (hs (by decide))
    | with_reducible exact Or.inl rfl
    | with_reducible exact parts_refl
    | (with_reducible refine Or.inl ?_; and_intros <;> with_reducible rfl)
    | exact Or.inl rfl
    | dsimp only
    | rw [mk_put])

theorem State.restartFirmware_keeps {s0 : State} {s : State}
    (h0 : keeps s0 s) : keeps s0 (State.restartFirmware s) := by
  unfold State.restartFirmware
  try dsimp only
  repeat' (first
    | with_reducible assumption
    | with_reducible intro _
    | with_reducible apply State.enterBoot_keeps
    | with_reducible apply State.startRestart_keeps
    | with_reducible apply keeps_ite
    | with_reducible apply keeps_mk
    | with_reducible exact id
    | with_reducible exact partsKeep_refl
    | with_reducible exact rasKeep_refl
    | with_reducible exact hbmKeep_refl
    | with_reducible exact pkgKeep_refl
    | with_reducible exact secKeep_refl
    | with_reducible exact namesKeep_refl
    | dsimp only
    | rw [mk_put])

theorem State.postNow_only {ls : List Item} {s0 s t : State} {cid : Nat} (h0 : changesOnly ls s0 s)
    (hm : incl [.rasLog, .fns, .pairs, .cmds, .pHolds, .pColls, .pShadows, .pAcct, .atc, .ports, .peers, .transit, .power, .out] ls = true) (h : s.postNow cid = some t) : changesOnly ls s0 t := by
  have k := execCompletionPosted_only (post := ⟨cid, false⟩) h0 (incl_trans rfl hm) (d := s)
  unfold State.postNow at h
  split at h
  · rename_i u hu
    rw [hu] at k
    split at h <;> cases h
    exact k
  · cases h

theorem State.postNow_keeps {s0 s t : State} {cid : Nat} (h0 : keeps s0 s)
    (h : s.postNow cid = some t) : keeps s0 t := by
  have k := execCompletionPosted_keeps (post := ⟨cid, false⟩) h0 (d := s)
  unfold State.postNow at h
  split at h
  · rename_i u hu
    rw [hu] at k
    split at h <;> cases h
    exact k
  · cases h

theorem State.pldmSay_only {ls : List Item} {s0 : State} {s : State} {name : String}
    (h0 : changesOnly ls s0 s) (hm : incl [.out] ls = true) : changesOnly ls s0 (State.pldmSay s name) := by
  unfold State.pldmSay
  try dsimp only
  repeat' first | with_reducible assumption | with_reducible intro _ | with_reducible apply State.emit_only

theorem State.pldmSay_keeps {s0 : State} {s : State} {name : String}
    (h0 : keeps s0 s) : keeps s0 (State.pldmSay s name) := by
  unfold State.pldmSay
  try dsimp only
  repeat' first | with_reducible assumption | with_reducible intro _ | with_reducible apply State.emit_keeps

theorem State.bootStored_only {ls : List Item} {s0 : State} {s : State}
    (h0 : changesOnly ls s0 s) (hm : incl [.time, .pkg, .fw, .debug, .policy, .ide, .rasLog, .cores, .clusters, .rasCounts, .hif, .fns, .pairs, .cmds, .locks, .pConfig, .pMode, .pFeats, .pMem, .pScratch, .pUses, .pHolds, .pKey, .pColls, .pJournal, .pDeclared, .pShadows, .pAcct, .pWindows, .pRegs, .pSched, .pHot, .ctxs, .streams, .ristretto, .semaphores, .atc, .devMode, .channels, .hbmRun, .meshCtrl, .meshCount, .ports, .routes, .peers, .meshRef, .barriers, .transit, .power, .tests, .out, .fresh] ls = true) : changesOnly ls s0 (State.bootStored s) := by
  unfold State.bootStored
  try dsimp only
  repeat' first | with_reducible assumption | with_reducible intro _ | with_reducible apply State.enterBoot_only

theorem State.bootStored_keeps {s0 : State} {s : State}
    (h0 : keeps s0 s) : keeps s0 (State.bootStored s) := by
  unfold State.bootStored
  try dsimp only
  repeat' first | with_reducible assumption | with_reducible intro _ | with_reducible apply State.enterBoot_keeps

end Sys2Proof.Machine
end

