-- ==== Sys2Proof/Laws/Links.lean ====
section
/-! SUPPORT. What each operation of Machine/Links.lean may change: its frame, and that it
keeps the invariant and the fuses. -/

namespace Sys2Proof.Machine

open Sys2Proof.Safety Sys2Proof.Laws

theorem State.meetsLost_only {ls : List Item} {s0 : State} {s : State} {k : Coll} {c : Cmd} {m : MeshWait} {member : Nat}
    (h0 : changesOnly ls s0 s) (hm : incl [.rasLog, .fns, .cmds, .locks, .pMem, .pColls, .pShadows, .pAcct, .ctxs, .streams, .ristretto, .semaphores, .poison, .slm, .ports, .peers, .transit, .out, .fresh] ls = true) : changesOnly ls s0 (State.meetsLost s k c m member) := by
  unfold State.meetsLost
  try dsimp only
  repeat' (first
    | with_reducible assumption
    | with_reducible intro _
    | with_reducible apply State.dropShadow_only
    | with_reducible apply State.tearDown_only
    | with_reducible apply State.endCmd_only
    | with_reducible apply State.takeHandedOff_only
    | with_reducible apply State.logLate_only
    | with_reducible apply only_ite
    | with_reducible apply only_foldl
    | with_reducible apply only_foldl_fst
    | exact incl_trans rfl hm)

theorem State.meetsLost_keeps {s0 : State} {s : State} {k : Coll} {c : Cmd} {m : MeshWait} {member : Nat}
    (h0 : keeps s0 s) : keeps s0 (State.meetsLost s k c m member) := by
  unfold State.meetsLost
  try dsimp only
  repeat' (first
    | with_reducible assumption
    | with_reducible intro _
    | with_reducible apply State.dropShadow_keeps
    | with_reducible apply State.tearDown_keeps
    | with_reducible apply State.endCmd_keeps
    | with_reducible apply State.takeHandedOff_keeps
    | with_reducible apply State.logLate_keeps
    | with_reducible apply keeps_ite
    | with_reducible apply keeps_foldl)

theorem State.cmdLoses_only {ls : List Item} {s0 : State} {s : State} {cid d : Nat}
    (h0 : changesOnly ls s0 s) (hm : incl [.rasLog, .fns, .cmds, .locks, .pMem, .pColls, .pShadows, .pAcct, .ctxs, .streams, .ristretto, .semaphores, .poison, .slm, .ports, .peers, .transit, .out, .fresh] ls = true) : changesOnly ls s0 (State.cmdLoses s cid d) := by
  have hs := @mem_of_incl [.rasLog, .fns, .cmds, .locks, .pMem, .pColls, .pShadows, .pAcct, .ctxs, .streams, .ristretto, .semaphores, .poison, .slm, .ports, .peers, .transit, .out, .fresh] ls hm
  unfold State.cmdLoses
  try dsimp only
  repeat' (first
    | with_reducible assumption
    | with_reducible intro _
    | with_reducible apply State.endCmd_only
    | with_reducible apply State.meetsLost_only
    | with_reducible apply only_ite
    | exact incl_trans rfl hm
    | with_reducible apply only_mk
    | exact Or.inr (hs (by decide))
    | with_reducible exact Or.inl rfl
    | with_reducible exact parts_refl
    | (with_reducible refine Or.inl ?_; and_intros <;> with_reducible rfl)
    | exact Or.inl rfl
    | with_reducible refine only_pair (by assumption) ?_
    | dsimp only
    | rw [mk_put]
    | split)

theorem State.cmdLoses_keeps {s0 : State} {s : State} {cid d : Nat}
    (h0 : keeps s0 s) : keeps s0 (State.cmdLoses s cid d) := by
  unfold State.cmdLoses
  try dsimp only
  repeat' (first
    | with_reducible assumption
    | with_reducible intro _
    | with_reducible apply State.endCmd_keeps
    | with_reducible apply State.meetsLost_keeps
    | with_reducible apply keeps_ite
    | with_reducible apply keeps_mk
    | with_reducible exact id
    | with_reducible exact partsKeep_refl
    | with_reducible exact rasKeep_refl
    | with_reducible exact hbmKeep_refl
    | with_reducible exact pkgKeep_refl
    | with_reducible exact secKeep_refl
    | with_reducible exact namesKeep_refl
    | with_reducible refine keeps_pair (by assumption) ?_
    | dsimp only
    | rw [mk_put]
    | split)

theorem State.handoffsLose_only {ls : List Item} {s0 : State} {s : State} {p : PartNo} {k : Coll} {d : Nat}
    (h0 : changesOnly ls s0 s) (hm : incl [.rasLog, .fns, .cmds, .locks, .pColls, .pAcct, .ctxs, .streams, .ristretto, .semaphores, .ports, .peers, .transit, .out] ls = true) : changesOnly ls s0 (State.handoffsLose s p k d) := by
  unfold State.handoffsLose
  try dsimp only
  repeat' (first
    | with_reducible assumption
    | with_reducible intro _
    | with_reducible apply State.modTm_only
    | with_reducible apply State.tryForwardDone_only
    | with_reducible apply State.dropHandoff_only
    | with_reducible apply only_ite
    | with_reducible apply only_foldl
    | with_reducible apply only_foldl_fst
    | exact incl_trans rfl hm)

theorem State.handoffsLose_keeps {s0 : State} {s : State} {p : PartNo} {k : Coll} {d : Nat}
    (h0 : keeps s0 s) : keeps s0 (State.handoffsLose s p k d) := by
  unfold State.handoffsLose
  try dsimp only
  repeat' (first
    | with_reducible assumption
    | with_reducible intro _
    | with_reducible apply State.modTm_keeps
    | with_reducible apply State.tryForwardDone_keeps
    | with_reducible apply State.dropHandoff_keeps
    | with_reducible apply keeps_ite
    | with_reducible apply keeps_foldl)

theorem State.peerLost_only {ls : List Item} {s0 : State} {s : State} {d : Nat}
    (h0 : changesOnly ls s0 s) (hm : incl [.rasLog, .fns, .cmds, .locks, .pMem, .pColls, .pShadows, .pAcct, .ctxs, .streams, .ristretto, .semaphores, .poison, .slm, .ports, .peers, .transit, .out, .fresh] ls = true) : changesOnly ls s0 (State.peerLost s d) := by
  unfold State.peerLost
  try dsimp only
  repeat' (first
    | with_reducible assumption
    | with_reducible intro _
    | with_reducible apply State.cmdLoses_only
    | with_reducible apply State.modPeer_only
    | with_reducible apply State.handoffsLose_only
    | with_reducible apply only_ite
    | with_reducible apply only_foldl
    | with_reducible apply only_foldl_fst
    | exact incl_trans rfl hm)

theorem State.peerLost_keeps {s0 : State} {s : State} {d : Nat}
    (h0 : keeps s0 s) : keeps s0 (State.peerLost s d) := by
  unfold State.peerLost
  try dsimp only
  repeat' (first
    | with_reducible assumption
    | with_reducible intro _
    | with_reducible apply State.cmdLoses_keeps
    | with_reducible apply State.modPeer_keeps
    | with_reducible apply State.handoffsLose_keeps
    | with_reducible apply keeps_ite
    | with_reducible apply keeps_foldl)

theorem State.trySend_only {ls : List Item} {s0 : State} {s : State} {x : Sent}
    (h0 : changesOnly ls s0 s) (hm : incl [.pAcct, .ports, .out] ls = true) : changesOnly ls s0 (State.trySend s x).1 := by
  have hs := @mem_of_incl [.pAcct, .ports, .out] ls hm
  unfold State.trySend
  try dsimp only
  repeat' (first
    | with_reducible assumption
    | with_reducible intro _
    | exact incl_trans rfl hm
    | with_reducible apply only_mk
    | exact Or.inr (hs (by decide))
    | with_reducible exact Or.inl rfl
    | with_reducible exact parts_refl
    | (with_reducible refine Or.inl ?_; and_intros <;> with_reducible rfl)
    | exact Or.inl rfl
    | (with_reducible refine State.leaveBy_only ?_ ?_ (by assumption))
    | with_reducible refine only_pair (by assumption) ?_
    | dsimp only
    | rw [mk_put]
    | split)

theorem State.trySend_keeps {s0 : State} {s : State} {x : Sent}
    (h0 : keeps s0 s) : keeps s0 (State.trySend s x).1 := by
  unfold State.trySend
  try dsimp only
  repeat' (first
    | with_reducible assumption
    | with_reducible intro _
    | with_reducible apply keeps_mk
    | with_reducible exact id
    | with_reducible exact partsKeep_refl
    | with_reducible exact rasKeep_refl
    | with_reducible exact hbmKeep_refl
    | with_reducible exact pkgKeep_refl
    | with_reducible exact secKeep_refl
    | with_reducible exact namesKeep_refl
    | (with_reducible refine State.leaveBy_keeps ?_ (by assumption))
    | with_reducible refine keeps_pair (by assumption) ?_
    | dsimp only
    | rw [mk_put]
    | split)

theorem State.resendTo_only {ls : List Item} {s0 : State} {s : State} {d : Nat} {pick : Sent → Bool} {n : Nat}
    (h0 : changesOnly ls s0 s) (hm : incl [.pAcct, .ports, .peers, .out] ls = true) : changesOnly ls s0 (State.resendTo s d pick n) := by
  have hs := @mem_of_incl [.pAcct, .ports, .peers, .out] ls hm
  unfold State.resendTo
  try dsimp only
  repeat' (first
    | with_reducible assumption
    | with_reducible intro _
    | with_reducible apply State.modPeer_only
    | with_reducible apply State.trySend_only
    | with_reducible apply only_ite
    | with_reducible apply only_foldl
    | with_reducible apply only_foldl_fst
    | exact incl_trans rfl hm
    | with_reducible apply only_mk
    | exact Or.inr (hs (by decide))
    | with_reducible exact Or.inl rfl
    | with_reducible exact parts_refl
    | (with_reducible refine Or.inl ?_; and_intros <;> with_reducible rfl)
    | exact Or.inl rfl
    | with_reducible refine only_pair (by assumption) ?_
    | dsimp only
    | rw [mk_put]
    | split)

theorem State.resendTo_keeps {s0 : State} {s : State} {d : Nat} {pick : Sent → Bool} {n : Nat}
    (h0 : keeps s0 s) : keeps s0 (State.resendTo s d pick n) := by
  unfold State.resendTo
  try dsimp only
  repeat' (first
    | with_reducible assumption
    | with_reducible intro _
    | with_reducible apply State.modPeer_keeps
    | with_reducible apply State.trySend_keeps
    | with_reducible apply keeps_ite
    | with_reducible apply keeps_foldl
    | with_reducible apply keeps_foldl_fst
    | with_reducible apply keeps_mk
    | with_reducible exact id
    | with_reducible exact partsKeep_refl
    | with_reducible exact rasKeep_refl
    | with_reducible exact hbmKeep_refl
    | with_reducible exact pkgKeep_refl
    | with_reducible exact secKeep_refl
    | with_reducible exact namesKeep_refl
    | with_reducible refine keeps_pair (by assumption) ?_
    | dsimp only
    | rw [mk_put]
    | split)

theorem State.transitLost_only {ls : List Item} {s0 : State} {s : State}
    (h0 : changesOnly ls s0 s) (hm : incl [.pAcct, .ports, .peers, .transit, .out] ls = true) : changesOnly ls s0 (State.transitLost s) := by
  have hs := @mem_of_incl [.pAcct, .ports, .peers, .transit, .out] ls hm
  unfold State.transitLost
  try dsimp only
  repeat' (first
    | with_reducible assumption
    | with_reducible intro _
    | with_reducible apply State.refuse_only
    | with_reducible apply only_foldl
    | with_reducible apply only_foldl_fst
    | exact incl_trans rfl hm
    | with_reducible apply only_mk
    | exact Or.inr (hs (by decide))
    | with_reducible exact Or.inl rfl
    | with_reducible exact parts_refl
    | (with_reducible refine Or.inl ?_; and_intros <;> with_reducible rfl)
    | exact Or.inl rfl
    | dsimp only
    | rw [mk_put])

theorem State.transitLost_keeps {s0 : State} {s : State}
    (h0 : keeps s0 s) : keeps s0 (State.transitLost s) := by
  unfold State.transitLost
  try dsimp only
  repeat' (first
    | with_reducible assumption
    | exact len_modify
    | exact len_map
    | exact len_mapIdx
    | with_reducible intro _
    | with_reducible apply State.refuse_keeps
    | with_reducible apply keeps_foldl
    | with_reducible apply keeps_foldl_fst
    | with_reducible apply keeps_mk
    | with_reducible exact id
    | with_reducible exact partsKeep_refl
    | with_reducible exact rasKeep_refl
    | with_reducible exact hbmKeep_refl
    | with_reducible exact pkgKeep_refl
    | with_reducible exact secKeep_refl
    | with_reducible exact namesKeep_refl
    | dsimp only
    | rw [mk_put])

theorem State.rerouted_only {ls : List Item} {s0 : State} {s before : State}
    (h0 : changesOnly ls s0 s) (hm : incl [.rasLog, .fns, .cmds, .locks, .pMem, .pColls, .pShadows, .pAcct, .ctxs, .streams, .ristretto, .semaphores, .poison, .slm, .ports, .peers, .transit, .out, .fresh] ls = true) : changesOnly ls s0 (State.rerouted s before) := by
  unfold State.rerouted
  try dsimp only
  repeat' (first
    | with_reducible assumption
    | with_reducible intro _
    | with_reducible apply State.peerLost_only
    | with_reducible apply State.transitLost_only
    | with_reducible apply State.resendTo_only
    | with_reducible apply only_ite
    | with_reducible apply only_foldl
    | with_reducible apply only_foldl_fst
    | exact incl_trans rfl hm)

theorem State.rerouted_keeps {s0 : State} {s before : State}
    (h0 : keeps s0 s) : keeps s0 (State.rerouted s before) := by
  unfold State.rerouted
  try dsimp only
  repeat' (first
    | with_reducible assumption
    | with_reducible intro _
    | with_reducible apply State.peerLost_keeps
    | with_reducible apply State.transitLost_keeps
    | with_reducible apply State.resendTo_keeps
    | with_reducible apply keeps_ite
    | with_reducible apply keeps_foldl)

theorem State.pump_only {ls : List Item} {s0 : State} {s : State}
    (h0 : changesOnly ls s0 s) (hm : incl [.pAcct, .ports, .peers, .transit, .out] ls = true) : changesOnly ls s0 (State.pump s) := by
  have hs := @mem_of_incl [.pAcct, .ports, .peers, .transit, .out] ls hm
  unfold State.pump
  try dsimp only
  repeat' (first
    | with_reducible assumption
    | with_reducible intro _
    | with_reducible apply State.modPeer_only
    | with_reducible apply State.pumpLink_only
    | with_reducible apply State.trySend_only
    | with_reducible apply only_ite
    | with_reducible apply only_foldl
    | with_reducible apply only_foldl_fst
    | exact incl_trans rfl hm
    | with_reducible apply only_mk
    | exact Or.inr (hs (by decide))
    | with_reducible exact Or.inl rfl
    | with_reducible exact parts_refl
    | (with_reducible refine Or.inl ?_; and_intros <;> with_reducible rfl)
    | exact Or.inl rfl
    | with_reducible refine only_pair (by assumption) ?_
    | dsimp only
    | rw [mk_put])

theorem State.pump_keeps {s0 : State} {s : State}
    (h0 : keeps s0 s) : keeps s0 (State.pump s) := by
  unfold State.pump
  try dsimp only
  repeat' (first
    | with_reducible assumption
    | exact len_modify
    | exact len_map
    | exact len_mapIdx
    | with_reducible intro _
    | with_reducible apply State.modPeer_keeps
    | with_reducible apply State.pumpLink_keeps
    | with_reducible apply State.trySend_keeps
    | with_reducible apply keeps_ite
    | with_reducible apply keeps_foldl
    | with_reducible apply keeps_foldl_fst
    | with_reducible apply keeps_mk
    | with_reducible exact id
    | with_reducible exact partsKeep_refl
    | with_reducible exact rasKeep_refl
    | with_reducible exact hbmKeep_refl
    | with_reducible exact pkgKeep_refl
    | with_reducible exact secKeep_refl
    | with_reducible exact namesKeep_refl
    | with_reducible refine keeps_pair (by assumption) ?_
    | dsimp only
    | rw [mk_put])

theorem State.chooseRef_only {ls : List Item} {s0 : State} {s : State}
    (h0 : changesOnly ls s0 s) (hm : incl [.time, .rasLog, .fns, .meshRef, .out] ls = true) : changesOnly ls s0 (State.chooseRef s) := by
  have hs := @mem_of_incl [.time, .rasLog, .fns, .meshRef, .out] ls hm
  unfold State.chooseRef
  try dsimp only
  repeat' (first
    | with_reducible assumption
    | with_reducible intro _
    | with_reducible apply State.setSource_only
    | with_reducible apply State.logTime_only
    | with_reducible apply State.raiseTime_only
    | with_reducible apply only_getD
    | with_reducible apply only_ite
    | exact incl_trans rfl hm
    | with_reducible apply only_mk
    | exact Or.inr (hs (by decide))
    | with_reducible exact Or.inl rfl
    | with_reducible exact parts_refl
    | (with_reducible refine Or.inl ?_; and_intros <;> with_reducible rfl)
    | exact Or.inl rfl
    | with_reducible refine only_pair (by assumption) ?_
    | dsimp only
    | rw [mk_put]
    | split)

theorem State.chooseRef_keeps {s0 : State} {s : State}
    (h0 : keeps s0 s) : keeps s0 (State.chooseRef s) := by
  unfold State.chooseRef
  try dsimp only
  repeat' (first
    | with_reducible assumption
    | exact len_modify
    | exact len_map
    | exact len_mapIdx
    | with_reducible intro _
    | with_reducible apply State.setSource_keeps
    | with_reducible apply State.logTime_keeps
    | with_reducible apply State.raiseTime_keeps
    | with_reducible apply keeps_getD
    | with_reducible apply keeps_ite
    | with_reducible apply keeps_mk
    | with_reducible exact id
    | with_reducible exact partsKeep_refl
    | with_reducible exact rasKeep_refl
    | with_reducible exact hbmKeep_refl
    | with_reducible exact pkgKeep_refl
    | with_reducible exact secKeep_refl
    | with_reducible exact namesKeep_refl
    | with_reducible refine keeps_pair (by assumption) ?_
    | dsimp only
    | rw [mk_put]
    | split)

theorem State.movePort_only {ls : List Item} {s0 : State} {s : State} {n : Nat} {st : PortState}
    (h0 : changesOnly ls s0 s) (hm : incl [.time, .rasLog, .hif, .fns, .cmds, .locks, .pMem, .pColls, .pShadows, .pAcct, .ctxs, .streams, .ristretto, .semaphores, .poison, .slm, .ports, .peers, .meshRef, .transit, .out, .fresh] ls = true) : changesOnly ls s0 (State.movePort s n st) := by
  unfold State.movePort
  try dsimp only
  repeat' (first
    | with_reducible assumption
    | with_reducible intro _
    | with_reducible apply State.chooseRef_only
    | with_reducible apply State.setPort_only
    | with_reducible apply State.pump_only
    | with_reducible apply State.rerouted_only
    | exact incl_trans rfl hm)

theorem State.movePort_keeps {s0 : State} {s : State} {n : Nat} {st : PortState}
    (h0 : keeps s0 s) : keeps s0 (State.movePort s n st) := by
  unfold State.movePort
  try dsimp only
  repeat' (first
    | with_reducible assumption
    | with_reducible intro _
    | with_reducible apply State.chooseRef_keeps
    | with_reducible apply State.setPort_keeps
    | with_reducible apply State.pump_keeps
    | with_reducible apply State.rerouted_keeps)

theorem State.relocked_only {ls : List Item} {s0 : State} {s : State} {was : PpsState}
    (h0 : changesOnly ls s0 s) (hm : incl [.time, .rasLog, .fns, .meshRef, .out] ls = true) : changesOnly ls s0 (State.relocked s was) := by
  unfold State.relocked
  try dsimp only
  repeat' (first
    | with_reducible assumption
    | with_reducible intro _
    | with_reducible apply State.chooseRef_only
    | with_reducible apply only_ite)

theorem State.relocked_keeps {s0 : State} {s : State} {was : PpsState}
    (h0 : keeps s0 s) : keeps s0 (State.relocked s was) := by
  unfold State.relocked
  try dsimp only
  repeat' (first
    | with_reducible assumption
    | with_reducible intro _
    | with_reducible apply State.chooseRef_keeps
    | with_reducible apply keeps_ite)

theorem State.train_only {ls : List Item} {s0 : State} {s : State} {n : Nat}
    (h0 : changesOnly ls s0 s) (hm : incl [.time, .rasLog, .hif, .fns, .cmds, .locks, .pMem, .pColls, .pShadows, .pAcct, .ctxs, .streams, .ristretto, .semaphores, .poison, .slm, .ports, .peers, .meshRef, .transit, .out, .fresh] ls = true) : changesOnly ls s0 (State.train s n) := by
  unfold State.train
  try dsimp only
  repeat' first | with_reducible assumption | with_reducible intro _ | with_reducible apply State.movePort_only

theorem State.train_keeps {s0 : State} {s : State} {n : Nat}
    (h0 : keeps s0 s) : keeps s0 (State.train s n) := by
  unfold State.train
  try dsimp only
  repeat' first | with_reducible assumption | with_reducible intro _ | with_reducible apply State.movePort_keeps

theorem execMeshEnable_only {ls : List Item} {s0 : State} {s : State}
    (h0 : changesOnly ls s0 s) (hm : incl [.time, .rasLog, .hif, .fns, .cmds, .locks, .pMem, .pColls, .pShadows, .pAcct, .ctxs, .streams, .ristretto, .semaphores, .poison, .slm, .meshCtrl, .ports, .peers, .meshRef, .transit, .out, .fresh] ls = true) {d : State} : changesOnly ls s0 (after d (execMeshEnable s)) := by
  have hs := @mem_of_incl [.time, .rasLog, .hif, .fns, .cmds, .locks, .pMem, .pColls, .pShadows, .pAcct, .ctxs, .streams, .ristretto, .semaphores, .poison, .slm, .meshCtrl, .ports, .peers, .meshRef, .transit, .out, .fresh] ls hm
  unfold execMeshEnable
  unfold after
  try dsimp only
  repeat' (first
    | with_reducible assumption
    | with_reducible intro _
    | with_reducible apply State.chooseRef_only
    | with_reducible apply State.train_only
    | with_reducible apply only_ite
    | with_reducible apply only_foldl
    | with_reducible apply only_foldl_fst
    | exact incl_trans rfl hm
    | with_reducible apply only_mk
    | exact Or.inr (hs (by decide))
    | with_reducible exact Or.inl rfl
    | with_reducible exact parts_refl
    | (with_reducible refine Or.inl ?_; and_intros <;> with_reducible rfl)
    | exact Or.inl rfl
    | dsimp only
    | rw [mk_put])

theorem execMeshEnable_keeps {s0 : State} {s : State} {d : State}
    (h0 : keeps s0 s) : keeps s0 (after d (execMeshEnable s)) := by
  unfold execMeshEnable
  unfold after
  try dsimp only
  repeat' (first
    | with_reducible assumption
    | exact len_modify
    | exact len_map
    | exact len_mapIdx
    | with_reducible intro _
    | with_reducible apply State.chooseRef_keeps
    | with_reducible apply State.train_keeps
    | with_reducible apply keeps_ite
    | with_reducible apply keeps_foldl
    | with_reducible apply keeps_foldl_fst
    | with_reducible apply keeps_mk
    | with_reducible exact id
    | with_reducible exact partsKeep_refl
    | with_reducible exact rasKeep_refl
    | with_reducible exact hbmKeep_refl
    | with_reducible exact pkgKeep_refl
    | with_reducible exact secKeep_refl
    | with_reducible exact namesKeep_refl
    | dsimp only
    | rw [mk_put])

theorem execMeshDisable_only {ls : List Item} {s0 : State} {s : State}
    (h0 : changesOnly ls s0 s) (hm : incl [.time, .rasLog, .hif, .fns, .cmds, .locks, .pMem, .pColls, .pShadows, .pAcct, .ctxs, .streams, .ristretto, .semaphores, .poison, .slm, .meshCtrl, .ports, .peers, .meshRef, .transit, .out, .fresh] ls = true) {d : State} : changesOnly ls s0 (after d (execMeshDisable s)) := by
  have hs := @mem_of_incl [.time, .rasLog, .hif, .fns, .cmds, .locks, .pMem, .pColls, .pShadows, .pAcct, .ctxs, .streams, .ristretto, .semaphores, .poison, .slm, .meshCtrl, .ports, .peers, .meshRef, .transit, .out, .fresh] ls hm
  unfold execMeshDisable
  unfold after
  try dsimp only
  repeat' (first
    | with_reducible assumption
    | with_reducible intro _
    | with_reducible apply State.chooseRef_only
    | with_reducible apply State.setPort_only
    | with_reducible apply State.peerLost_only
    | with_reducible apply only_ite
    | with_reducible apply only_foldl
    | with_reducible apply only_foldl_fst
    | exact incl_trans rfl hm
    | with_reducible apply only_mk
    | exact Or.inr (hs (by decide))
    | with_reducible exact Or.inl rfl
    | with_reducible exact parts_refl
    | (with_reducible refine Or.inl ?_; and_intros <;> with_reducible rfl)
    | exact Or.inl rfl
    | dsimp only
    | rw [mk_put])

theorem execMeshDisable_keeps {s0 : State} {s : State} {d : State}
    (h0 : keeps s0 s) : keeps s0 (after d (execMeshDisable s)) := by
  unfold execMeshDisable
  unfold after
  try dsimp only
  repeat' (first
    | with_reducible assumption
    | exact len_modify
    | exact len_map
    | exact len_mapIdx
    | with_reducible intro _
    | with_reducible apply State.chooseRef_keeps
    | with_reducible apply State.setPort_keeps
    | with_reducible apply State.peerLost_keeps
    | with_reducible apply keeps_ite
    | with_reducible apply keeps_foldl
    | with_reducible apply keeps_foldl_fst
    | with_reducible apply keeps_mk
    | with_reducible exact id
    | with_reducible exact partsKeep_refl
    | with_reducible exact rasKeep_refl
    | with_reducible exact hbmKeep_refl
    | with_reducible exact pkgKeep_refl
    | with_reducible exact secKeep_refl
    | with_reducible exact namesKeep_refl
    | dsimp only
    | rw [mk_put])

theorem State.portCtrl_only {ls : List Item} {s0 : State} {s : State} {n : Nat} {value : Word32}
    (h0 : changesOnly ls s0 s) (hm : incl [.time, .rasLog, .hif, .fns, .cmds, .locks, .pMem, .pColls, .pShadows, .pAcct, .ctxs, .streams, .ristretto, .semaphores, .poison, .slm, .ports, .peers, .meshRef, .transit, .out, .fresh] ls = true) : changesOnly ls s0 (State.portCtrl s n value) := by
  unfold State.portCtrl
  try dsimp only
  repeat' (first
    | with_reducible assumption
    | with_reducible intro _
    | with_reducible apply State.modPort_only
    | with_reducible apply State.train_only
    | with_reducible apply State.movePort_only
    | with_reducible apply only_ite
    | exact incl_trans rfl hm)

theorem State.portCtrl_keeps {s0 : State} {s : State} {n : Nat} {value : Word32}
    (h0 : keeps s0 s) : keeps s0 (State.portCtrl s n value) := by
  unfold State.portCtrl
  try dsimp only
  repeat' (first
    | with_reducible assumption
    | with_reducible intro _
    | with_reducible apply State.modPort_keeps
    | with_reducible apply State.train_keeps
    | with_reducible apply State.movePort_keeps
    | with_reducible apply keeps_ite)

theorem execRouteCommit_only {ls : List Item} {s0 : State} {value : Word32} {s : State}
    (h0 : changesOnly ls s0 s) (hm : incl [.rasLog, .fns, .cmds, .locks, .pMem, .pColls, .pShadows, .pAcct, .ctxs, .streams, .ristretto, .semaphores, .poison, .slm, .ports, .routes, .peers, .transit, .out, .fresh] ls = true) {d : State} : changesOnly ls s0 (after d (execRouteCommit value s)) := by
  have hs := @mem_of_incl [.rasLog, .fns, .cmds, .locks, .pMem, .pColls, .pShadows, .pAcct, .ctxs, .streams, .ristretto, .semaphores, .poison, .slm, .ports, .routes, .peers, .transit, .out, .fresh] ls hm
  unfold execRouteCommit
  unfold after
  try dsimp only
  repeat' (first
    | with_reducible assumption
    | with_reducible intro _
    | with_reducible apply State.pump_only
    | with_reducible apply State.logHost_only
    | with_reducible apply State.rerouted_only
    | with_reducible apply only_ite
    | with_reducible apply only_foldl
    | with_reducible apply only_foldl_fst
    | exact incl_trans rfl hm
    | with_reducible apply only_mk
    | exact Or.inr (hs (by decide))
    | with_reducible exact Or.inl rfl
    | with_reducible exact parts_refl
    | (with_reducible refine Or.inl ?_; and_intros <;> with_reducible rfl)
    | exact Or.inl rfl
    | with_reducible refine only_pair (by assumption) ?_
    | dsimp only
    | rw [mk_put])

theorem execRouteCommit_keeps {s0 : State} {value : Word32} {s : State} {d : State}
    (h0 : keeps s0 s) : keeps s0 (after d (execRouteCommit value s)) := by
  unfold execRouteCommit
  unfold after
  try dsimp only
  repeat' (first
    | with_reducible assumption
    | exact len_modify
    | exact len_map
    | exact len_mapIdx
    | with_reducible intro _
    | with_reducible apply State.pump_keeps
    | with_reducible apply State.logHost_keeps
    | with_reducible apply State.rerouted_keeps
    | with_reducible apply keeps_ite
    | with_reducible apply keeps_foldl
    | with_reducible apply keeps_foldl_fst
    | with_reducible apply keeps_mk
    | with_reducible exact id
    | with_reducible exact partsKeep_refl
    | with_reducible exact rasKeep_refl
    | with_reducible exact hbmKeep_refl
    | with_reducible exact pkgKeep_refl
    | with_reducible exact secKeep_refl
    | with_reducible exact namesKeep_refl
    | with_reducible refine keeps_pair (by assumption) ?_
    | dsimp only
    | rw [mk_put])

theorem State.keyFailed_only {ls : List Item} {s0 : State} {s : State} {port : Nat}
    (h0 : changesOnly ls s0 s) (hm : incl [.time, .rasLog, .hif, .fns, .cmds, .locks, .pMem, .pColls, .pShadows, .pAcct, .ctxs, .streams, .ristretto, .semaphores, .poison, .slm, .ports, .peers, .meshRef, .transit, .out, .fresh] ls = true) : changesOnly ls s0 (State.keyFailed s port) := by
  unfold State.keyFailed
  try dsimp only
  repeat' (first
    | with_reducible assumption
    | with_reducible intro _
    | with_reducible apply State.modPort_only
    | with_reducible apply State.movePort_only
    | exact incl_trans rfl hm)

theorem State.keyFailed_keeps {s0 : State} {s : State} {port : Nat}
    (h0 : keeps s0 s) : keeps s0 (State.keyFailed s port) := by
  unfold State.keyFailed
  try dsimp only
  repeat' (first
    | with_reducible assumption
    | with_reducible intro _
    | with_reducible apply State.modPort_keeps
    | with_reducible apply State.movePort_keeps)

theorem State.goodFlit_only {ls : List Item} {s0 : State} {s : State} {port : Nat} {nak : Bool} {ack : Nat} {creditLink : Bool} {creditVc credits : Nat}
    (h0 : changesOnly ls s0 s) (hm : incl [.pAcct, .ports, .peers, .transit, .out] ls = true) : changesOnly ls s0 (State.goodFlit s port nak ack creditLink creditVc credits) := by
  unfold State.goodFlit
  try dsimp only
  repeat' (first
    | with_reducible assumption
    | with_reducible intro _
    | with_reducible apply State.modPort_only
    | with_reducible apply State.pump_only
    | with_reducible apply State.emit_only
    | with_reducible apply only_ite
    | exact incl_trans rfl hm)

theorem State.goodFlit_keeps {s0 : State} {s : State} {port : Nat} {nak : Bool} {ack : Nat} {creditLink : Bool} {creditVc credits : Nat}
    (h0 : keeps s0 s) : keeps s0 (State.goodFlit s port nak ack creditLink creditVc credits) := by
  unfold State.goodFlit
  try dsimp only
  repeat' (first
    | with_reducible assumption
    | with_reducible intro _
    | with_reducible apply State.modPort_keeps
    | with_reducible apply State.pump_keeps
    | with_reducible apply State.emit_keeps
    | with_reducible apply keeps_ite)

theorem State.degrade_only {ls : List Item} {s0 : State} {s : State} {port : Nat} {upper : Bool}
    (h0 : changesOnly ls s0 s) (hm : incl [.time, .rasLog, .hif, .fns, .cmds, .locks, .pMem, .pColls, .pShadows, .pAcct, .ctxs, .streams, .ristretto, .semaphores, .poison, .slm, .ports, .peers, .meshRef, .transit, .out, .fresh] ls = true) : changesOnly ls s0 (State.degrade s port upper) := by
  unfold State.degrade
  try dsimp only
  repeat' (first
    | with_reducible assumption
    | with_reducible intro _
    | with_reducible apply State.modPort_only
    | with_reducible apply State.sendLink_only
    | with_reducible apply State.movePort_only
    | exact incl_trans rfl hm)

theorem State.degrade_keeps {s0 : State} {s : State} {port : Nat} {upper : Bool}
    (h0 : keeps s0 s) : keeps s0 (State.degrade s port upper) := by
  unfold State.degrade
  try dsimp only
  repeat' (first
    | with_reducible assumption
    | with_reducible intro _
    | with_reducible apply State.modPort_keeps
    | with_reducible apply State.sendLink_keeps
    | with_reducible apply State.movePort_keeps)

theorem State.lanesFail_only {ls : List Item} {s0 : State} {s : State} {port : Nat} {lanes : BitVec 4}
    (h0 : changesOnly ls s0 s) (hm : incl [.time, .rasLog, .hif, .fns, .cmds, .locks, .pMem, .pColls, .pShadows, .pAcct, .ctxs, .streams, .ristretto, .semaphores, .poison, .slm, .ports, .peers, .meshRef, .transit, .out, .fresh] ls = true) : changesOnly ls s0 (State.lanesFail s port lanes) := by
  unfold State.lanesFail
  try dsimp only
  repeat' (first
    | with_reducible assumption
    | with_reducible intro _
    | with_reducible apply State.degrade_only
    | with_reducible apply State.movePort_only
    | with_reducible apply only_ite)

theorem State.lanesFail_keeps {s0 : State} {s : State} {port : Nat} {lanes : BitVec 4}
    (h0 : keeps s0 s) : keeps s0 (State.lanesFail s port lanes) := by
  unfold State.lanesFail
  try dsimp only
  repeat' (first
    | with_reducible assumption
    | with_reducible intro _
    | with_reducible apply State.degrade_keeps
    | with_reducible apply State.movePort_keeps
    | with_reducible apply keeps_ite)

theorem State.probe_only {ls : List Item} {s0 : State} {s : State} {d : Nat}
    (h0 : changesOnly ls s0 s) (hm : incl [.pAcct, .ports, .peers, .transit, .out] ls = true) : changesOnly ls s0 (State.probe s d) := by
  unfold State.probe
  try dsimp only
  repeat' (first
    | with_reducible assumption
    | with_reducible intro _
    | with_reducible apply State.modPeer_only
    | with_reducible apply State.sendRouted_only
    | exact incl_trans rfl hm)

theorem State.probe_keeps {s0 : State} {s : State} {d : Nat}
    (h0 : keeps s0 s) : keeps s0 (State.probe s d) := by
  unfold State.probe
  try dsimp only
  repeat' (first
    | with_reducible assumption
    | with_reducible intro _
    | with_reducible apply State.modPeer_keeps
    | with_reducible apply State.sendRouted_keeps)

theorem State.sendLoad_only {ls : List Item} {s0 : State} {s : State} {p : PartNo} {k : Coll}
    (h0 : changesOnly ls s0 s) (hm : incl [.pAcct, .ports, .peers, .transit, .out] ls = true) : changesOnly ls s0 (State.sendLoad s p k) := by
  have hs := @mem_of_incl [.pAcct, .ports, .peers, .transit, .out] ls hm
  unfold State.sendLoad
  try dsimp only
  repeat' (first
    | with_reducible assumption
    | with_reducible intro _
    | with_reducible apply State.sendRouted_only
    | with_reducible apply only_foldl
    | with_reducible apply only_foldl_fst
    | exact incl_trans rfl hm
    | with_reducible apply only_mk
    | exact Or.inr (hs (by decide))
    | with_reducible exact Or.inl rfl
    | with_reducible exact parts_refl
    | (with_reducible refine Or.inl ?_; and_intros <;> with_reducible rfl)
    | exact Or.inl rfl
    | with_reducible refine only_pair (by assumption) ?_
    | dsimp only
    | rw [mk_put]
    | split)

theorem State.sendLoad_keeps {s0 : State} {s : State} {p : PartNo} {k : Coll}
    (h0 : keeps s0 s) : keeps s0 (State.sendLoad s p k) := by
  unfold State.sendLoad
  try dsimp only
  repeat' (first
    | with_reducible assumption
    | with_reducible intro _
    | with_reducible apply State.sendRouted_keeps
    | with_reducible apply keeps_foldl
    | with_reducible apply keeps_foldl_fst
    | with_reducible apply keeps_mk
    | with_reducible exact id
    | with_reducible exact partsKeep_refl
    | with_reducible exact rasKeep_refl
    | with_reducible exact hbmKeep_refl
    | with_reducible exact pkgKeep_refl
    | with_reducible exact secKeep_refl
    | with_reducible exact namesKeep_refl
    | with_reducible refine keeps_pair (by assumption) ?_
    | dsimp only
    | rw [mk_put]
    | split)

theorem State.meshServo_only {ls : List Item} {s0 : State} {s : State} {theta : Int} {est : Nat} {fresh : Bool}
    (h0 : changesOnly ls s0 s) (hm : incl [.time, .rasLog, .fns, .out] ls = true) : changesOnly ls s0 (State.meshServo s theta est fresh) := by
  have hs := @mem_of_incl [.time, .rasLog, .fns, .out] ls hm
  unfold State.meshServo
  try dsimp only
  repeat' (first
    | with_reducible assumption
    | with_reducible intro _
    | with_reducible apply State.setSource_only
    | with_reducible apply only_ite
    | exact incl_trans rfl hm
    | with_reducible apply only_mk
    | exact Or.inr (hs (by decide))
    | with_reducible exact Or.inl rfl
    | with_reducible exact parts_refl
    | (with_reducible refine Or.inl ?_; and_intros <;> with_reducible rfl)
    | exact Or.inl rfl
    | dsimp only
    | rw [mk_put])

theorem State.meshServo_keeps {s0 : State} {s : State} {theta : Int} {est : Nat} {fresh : Bool}
    (h0 : keeps s0 s) : keeps s0 (State.meshServo s theta est fresh) := by
  unfold State.meshServo
  try dsimp only
  repeat' (first
    | with_reducible assumption
    | with_reducible intro _
    | with_reducible apply State.setSource_keeps
    | with_reducible apply keeps_ite
    | with_reducible apply keeps_mk
    | with_reducible exact id
    | with_reducible exact partsKeep_refl
    | with_reducible exact rasKeep_refl
    | with_reducible exact hbmKeep_refl
    | with_reducible exact pkgKeep_refl
    | with_reducible exact secKeep_refl
    | with_reducible exact namesKeep_refl
    | dsimp only
    | rw [mk_put])

end Sys2Proof.Machine
end

