-- ==== Sys2Proof/Laws/Mutation.lean ====
section
/-! SUPPORT. What each operation of Machine/Mutation.lean may change: its frame, and that it
keeps the invariant and the fuses. -/

namespace Sys2Proof.Machine

open Sys2Proof.Safety Sys2Proof.Laws

theorem State.meshPrepare_only {ls : List Item} {s0 : State} {s : State} {p : PartNo} {k : Coll} {c : Cmd}
    (h0 : changesOnly ls s0 s) (hm : incl [.rasLog, .fns, .cmds, .locks, .pMem, .pColls, .pAcct, .ctxs, .streams, .ristretto, .semaphores, .poison, .slm, .meshCount, .ports, .peers, .transit, .out, .fresh] ls = true) : changesOnly ls s0 (State.meshPrepare s p k c) := by
  unfold State.meshPrepare
  try dsimp only
  repeat' (first
    | with_reducible assumption
    | with_reducible intro _
    | with_reducible apply State.tearDown_only
    | with_reducible apply State.newTag_only
    | with_reducible apply State.modCmd_only
    | with_reducible apply State.reserveMut_only
    | with_reducible apply State.sendRouted_only
    | with_reducible apply only_ite
    | with_reducible apply only_foldl
    | with_reducible apply only_foldl_fst
    | exact incl_trans rfl hm)

theorem State.meshPrepare_keeps {s0 : State} {s : State} {p : PartNo} {k : Coll} {c : Cmd}
    (h0 : keeps s0 s) : keeps s0 (State.meshPrepare s p k c) := by
  unfold State.meshPrepare
  try dsimp only
  repeat' (first
    | with_reducible assumption
    | exact len_modify
    | exact len_map
    | exact len_mapIdx
    | with_reducible intro _
    | with_reducible apply State.tearDown_keeps
    | with_reducible apply State.newTag_keeps
    | with_reducible apply State.modCmd_keeps
    | with_reducible apply State.reserveMut_keeps
    | with_reducible apply State.sendRouted_keeps
    | with_reducible apply keeps_ite
    | with_reducible apply keeps_foldl)

theorem State.meshDecide_only {ls : List Item} {s0 : State} {s : State} {p : PartNo} {k : Coll} {c : Cmd} {m : MeshWait}
    (h0 : changesOnly ls s0 s) (hm : incl [.rasLog, .fns, .cmds, .locks, .pMem, .pColls, .pAcct, .ctxs, .streams, .ristretto, .semaphores, .poison, .slm, .ports, .peers, .transit, .out, .fresh] ls = true) : changesOnly ls s0 (State.meshDecide s p k c m) := by
  have hs := @mem_of_incl [.rasLog, .fns, .cmds, .locks, .pMem, .pColls, .pAcct, .ctxs, .streams, .ristretto, .semaphores, .poison, .slm, .ports, .peers, .transit, .out, .fresh] ls hm
  unfold State.meshDecide
  try dsimp only
  repeat' (first
    | with_reducible assumption
    | with_reducible intro _
    | with_reducible apply State.tearDown_only
    | with_reducible apply State.settle_only
    | with_reducible apply State.tellMembers_only
    | with_reducible apply State.modCmd_only
    | with_reducible apply only_ite
    | exact incl_trans rfl hm
    | with_reducible apply only_mk
    | exact Or.inr (hs (by decide))
    | with_reducible exact Or.inl rfl
    | with_reducible exact parts_refl
    | (with_reducible refine Or.inl ?_; and_intros <;> with_reducible rfl)
    | exact Or.inl rfl
    | with_reducible refine only_pair (by assumption) ?_
    | dsimp only
    | rw [mk_put]
    | split)

theorem State.meshDecide_keeps {s0 : State} {s : State} {p : PartNo} {k : Coll} {c : Cmd} {m : MeshWait}
    (h0 : keeps s0 s) : keeps s0 (State.meshDecide s p k c m) := by
  unfold State.meshDecide
  try dsimp only
  repeat' (first
    | with_reducible assumption
    | exact len_modify
    | exact len_map
    | exact len_mapIdx
    | with_reducible intro _
    | with_reducible apply State.tearDown_keeps
    | with_reducible apply State.settle_keeps
    | with_reducible apply State.tellMembers_keeps
    | with_reducible apply State.modCmd_keeps
    | with_reducible apply keeps_ite
    | with_reducible apply keeps_mk
    | with_reducible exact id
    | with_reducible exact partsKeep_refl
    | with_reducible exact rasKeep_refl
    | with_reducible exact hbmKeep_refl
    | with_reducible exact pkgKeep_refl
    | with_reducible exact secKeep_refl
    | with_reducible exact namesKeep_refl
    | exact rfl
    | with_reducible refine keeps_pair (by assumption) ?_
    | dsimp only
    | rw [mk_put]
    | split)

theorem State.memberMut_only {ls : List Item} {s0 : State} {s : State} {p : PartNo} {k : Coll} {c : Cmd} {commit : Bool}
    (h0 : changesOnly ls s0 s) (hm : incl [.time, .rasLog, .fns, .cmds, .locks, .pMem, .pColls, .pJournal, .pAcct, .ctxs, .streams, .ristretto, .semaphores, .poison, .slm, .ports, .peers, .transit, .out, .fresh] ls = true) : changesOnly ls s0 (State.memberMut s p k c commit) := by
  have hs := @mem_of_incl [.time, .rasLog, .fns, .cmds, .locks, .pMem, .pColls, .pJournal, .pAcct, .ctxs, .streams, .ristretto, .semaphores, .poison, .slm, .ports, .peers, .transit, .out, .fresh] ls hm
  unfold State.memberMut
  try dsimp only
  repeat' (first
    | with_reducible assumption
    | with_reducible intro _
    | with_reducible apply State.mutReserve_only
    | with_reducible apply State.modCmd_only
    | with_reducible apply State.sendRouted_only
    | with_reducible apply State.mutGo_only
    | with_reducible apply only_ite
    | exact incl_trans rfl hm
    | with_reducible apply only_mk
    | exact Or.inr (hs (by decide))
    | with_reducible exact Or.inl rfl
    | with_reducible exact parts_refl
    | (with_reducible refine Or.inl ?_; and_intros <;> with_reducible rfl)
    | exact Or.inl rfl
    | with_reducible refine only_pair (by assumption) ?_
    | dsimp only
    | rw [mk_put]
    | split)

theorem State.memberMut_keeps {s0 : State} {s : State} {p : PartNo} {k : Coll} {c : Cmd} {commit : Bool}
    (h0 : keeps s0 s) : keeps s0 (State.memberMut s p k c commit) := by
  unfold State.memberMut
  try dsimp only
  repeat' (first
    | with_reducible assumption
    | exact len_modify
    | exact len_map
    | exact len_mapIdx
    | with_reducible intro _
    | with_reducible apply State.mutReserve_keeps
    | with_reducible apply State.modCmd_keeps
    | with_reducible apply State.sendRouted_keeps
    | with_reducible apply State.mutGo_keeps
    | with_reducible apply keeps_ite
    | with_reducible apply keeps_mk
    | with_reducible exact id
    | with_reducible exact partsKeep_refl
    | with_reducible exact rasKeep_refl
    | with_reducible exact hbmKeep_refl
    | with_reducible exact pkgKeep_refl
    | with_reducible exact secKeep_refl
    | with_reducible exact namesKeep_refl
    | exact rfl
    | with_reducible refine keeps_pair (by assumption) ?_
    | dsimp only
    | rw [mk_put]
    | split)

theorem State.originMut_only {ls : List Item} {s0 : State} {s : State} {p : PartNo} {k : Coll} {c : Cmd} {commit : Bool}
    (h0 : changesOnly ls s0 s) (hm : incl [.time, .rasLog, .fns, .cmds, .locks, .pMem, .pColls, .pJournal, .pAcct, .ctxs, .streams, .ristretto, .semaphores, .poison, .slm, .meshCount, .ports, .peers, .transit, .out, .fresh] ls = true) : changesOnly ls s0 (State.originMut s p k c commit) := by
  have hs := @mem_of_incl [.time, .rasLog, .fns, .cmds, .locks, .pMem, .pColls, .pJournal, .pAcct, .ctxs, .streams, .ristretto, .semaphores, .poison, .slm, .meshCount, .ports, .peers, .transit, .out, .fresh] ls hm
  unfold State.originMut
  try dsimp only
  repeat' (first
    | with_reducible assumption
    | with_reducible intro _
    | with_reducible apply State.meshDecide_only
    | with_reducible apply State.meshPrepare_only
    | with_reducible apply State.mutGo_only
    | with_reducible apply only_ite
    | exact incl_trans rfl hm
    | with_reducible apply only_mk
    | exact Or.inr (hs (by decide))
    | with_reducible exact Or.inl rfl
    | with_reducible exact parts_refl
    | (with_reducible refine Or.inl ?_; and_intros <;> with_reducible rfl)
    | exact Or.inl rfl
    | with_reducible refine only_pair (by assumption) ?_
    | dsimp only
    | rw [mk_put]
    | split)

theorem State.originMut_keeps {s0 : State} {s : State} {p : PartNo} {k : Coll} {c : Cmd} {commit : Bool}
    (h0 : keeps s0 s) : keeps s0 (State.originMut s p k c commit) := by
  unfold State.originMut
  try dsimp only
  repeat' (first
    | with_reducible assumption
    | with_reducible intro _
    | with_reducible apply State.meshDecide_keeps
    | with_reducible apply State.meshPrepare_keeps
    | with_reducible apply State.mutGo_keeps
    | with_reducible apply keeps_ite
    | with_reducible apply keeps_mk
    | with_reducible exact id
    | with_reducible exact partsKeep_refl
    | with_reducible exact rasKeep_refl
    | with_reducible exact hbmKeep_refl
    | with_reducible exact pkgKeep_refl
    | with_reducible exact secKeep_refl
    | with_reducible exact namesKeep_refl
    | with_reducible refine keeps_pair (by assumption) ?_
    | dsimp only
    | rw [mk_put]
    | split)

theorem State.mutRow_only {ls : List Item} {s0 : State} {s : State} {cid op : Nat} {commit : Bool}
    (h0 : changesOnly ls s0 s) (hm : incl [.time, .rasLog, .fns, .cmds, .locks, .pMem, .pColls, .pJournal, .pAcct, .ctxs, .streams, .ristretto, .semaphores, .poison, .slm, .meshCount, .ports, .peers, .transit, .out, .fresh] ls = true) : changesOnly ls s0 (State.mutRow s cid op commit) := by
  unfold State.mutRow
  try dsimp only
  repeat' (first
    | with_reducible assumption
    | with_reducible intro _
    | with_reducible apply State.onColl_only
    | with_reducible apply State.memberMut_only
    | with_reducible apply State.originMut_only
    | with_reducible apply State.mutGo_only
    | with_reducible apply only_ite
    | exact incl_trans rfl hm)

theorem State.mutRow_keeps {s0 : State} {s : State} {cid op : Nat} {commit : Bool}
    (h0 : keeps s0 s) : keeps s0 (State.mutRow s cid op commit) := by
  unfold State.mutRow
  try dsimp only
  repeat' (first
    | with_reducible assumption
    | with_reducible intro _
    | with_reducible apply State.onColl_keeps
    | with_reducible apply State.memberMut_keeps
    | with_reducible apply State.originMut_keeps
    | with_reducible apply State.mutGo_keeps
    | with_reducible apply keeps_ite)

theorem State.takeReport_only {ls : List Item} {s0 : State} {s : State} {cid member stamp : Nat} {outcomes : List Nat} {work : Nat}
    (h0 : changesOnly ls s0 s) (hm : incl [.cmds, .pAcct, .out] ls = true) : changesOnly ls s0 (State.takeReport s cid member stamp outcomes work) := by
  have hs := @mem_of_incl [.cmds, .pAcct, .out] ls hm
  unfold State.takeReport
  try dsimp only
  repeat' (first
    | with_reducible assumption
    | with_reducible intro _
    | with_reducible apply State.reported_only
    | with_reducible apply State.writeOutcomes_only
    | with_reducible apply State.modCmd_only
    | with_reducible apply only_ite
    | exact incl_trans rfl hm
    | with_reducible apply only_mk
    | exact Or.inr (hs (by decide))
    | with_reducible exact Or.inl rfl
    | with_reducible exact parts_refl
    | (with_reducible refine Or.inl ?_; and_intros <;> with_reducible rfl)
    | exact Or.inl rfl
    | with_reducible refine only_pair (by assumption) ?_
    | dsimp only
    | rw [mk_put]
    | split)

theorem State.takeReport_keeps {s0 : State} {s : State} {cid member stamp : Nat} {outcomes : List Nat} {work : Nat}
    (h0 : keeps s0 s) : keeps s0 (State.takeReport s cid member stamp outcomes work) := by
  unfold State.takeReport
  try dsimp only
  repeat' (first
    | with_reducible assumption
    | exact len_modify
    | exact len_map
    | exact len_mapIdx
    | with_reducible intro _
    | with_reducible apply State.reported_keeps
    | with_reducible apply State.writeOutcomes_keeps
    | with_reducible apply State.modCmd_keeps
    | with_reducible apply keeps_ite
    | with_reducible apply keeps_mk
    | with_reducible exact id
    | with_reducible exact partsKeep_refl
    | with_reducible exact rasKeep_refl
    | with_reducible exact hbmKeep_refl
    | with_reducible exact pkgKeep_refl
    | with_reducible exact secKeep_refl
    | with_reducible exact namesKeep_refl
    | exact rfl
    | with_reducible refine keeps_pair (by assumption) ?_
    | dsimp only
    | rw [mk_put]
    | split)

end Sys2Proof.Machine
end

