-- ==== Sys2Proof/Laws/Search.lean ====
section
/-! SUPPORT. What each operation of Machine/Search.lean may change: its frame, and that it
keeps the invariant and the fuses. -/

namespace Sys2Proof.Machine

open Sys2Proof.Safety Sys2Proof.Laws

theorem State.beginQuery_only {ls : List Item} {s0 : State} {s : State} {p : PartNo} {k : Coll} {c : Cmd}
    (h0 : changesOnly ls s0 s) (hm : incl [.rasLog, .fns, .cmds, .locks, .pMem, .pColls, .pAcct, .ctxs, .streams, .ristretto, .semaphores, .poison, .slm, .meshCount, .ports, .peers, .transit, .out, .fresh] ls = true) : changesOnly ls s0 (State.beginQuery s p k c) := by
  have hs := @mem_of_incl [.rasLog, .fns, .cmds, .locks, .pMem, .pColls, .pAcct, .ctxs, .streams, .ristretto, .semaphores, .poison, .slm, .meshCount, .ports, .peers, .transit, .out, .fresh] ls hm
  unfold State.beginQuery
  try dsimp only
  repeat' (first
    | with_reducible assumption
    | with_reducible intro _
    | with_reducible apply State.fanOut_only
    | with_reducible apply State.startQuery_only
    | with_reducible apply only_ite
    | exact incl_trans rfl hm
    | with_reducible apply only_mk
    | exact Or.inr (hs (by decide))
    | with_reducible exact Or.inl rfl
    | with_reducible exact parts_refl
    | (with_reducible refine Or.inl ?_; and_intros <;> with_reducible rfl)
    | exact Or.inl rfl
    | with_reducible refine only_pair (by assumption) ?_
    | dsimp only
    | rw [mk_put]
    | split)

theorem State.beginQuery_keeps {s0 : State} {s : State} {p : PartNo} {k : Coll} {c : Cmd}
    (h0 : keeps s0 s) : keeps s0 (State.beginQuery s p k c) := by
  unfold State.beginQuery
  try dsimp only
  repeat' (first
    | with_reducible assumption
    | with_reducible intro _
    | with_reducible apply State.fanOut_keeps
    | with_reducible apply State.startQuery_keeps
    | with_reducible apply keeps_ite
    | with_reducible apply keeps_mk
    | with_reducible exact id
    | with_reducible exact partsKeep_refl
    | with_reducible exact rasKeep_refl
    | with_reducible exact hbmKeep_refl
    | with_reducible exact pkgKeep_refl
    | with_reducible exact secKeep_refl
    | with_reducible exact namesKeep_refl
    | with_reducible refine keeps_pair (by assumption) ?_
    | dsimp only
    | rw [mk_put]
    | split)

theorem State.walkTo_only {ls : List Item} {s0 : State} {s : State} {p : PartNo} {c : Cmd} {w : Walk}
    (h0 : changesOnly ls s0 s) (hm : incl [.cmds, .pUses, .ctxs] ls = true) : changesOnly ls s0 (State.walkTo s p c w) := by
  unfold State.walkTo
  try dsimp only
  repeat' (first
    | with_reducible assumption
    | with_reducible intro _
    | with_reducible apply State.placeSpill_only
    | with_reducible apply State.takeHelpers_only
    | with_reducible apply State.setWalk_only
    | with_reducible apply only_ite
    | exact incl_trans rfl hm)

theorem State.walkTo_keeps {s0 : State} {s : State} {p : PartNo} {c : Cmd} {w : Walk}
    (h0 : keeps s0 s) : keeps s0 (State.walkTo s p c w) := by
  unfold State.walkTo
  try dsimp only
  repeat' (first
    | with_reducible assumption
    | with_reducible intro _
    | with_reducible apply State.placeSpill_keeps
    | with_reducible apply State.takeHelpers_keeps
    | with_reducible apply State.setWalk_keeps
    | with_reducible apply keeps_ite)

theorem State.walkTurn_only {ls : List Item} {s0 : State} {s : State} {p : PartNo} {k : Coll} {c : Cmd} {w : Walk}
    (h0 : changesOnly ls s0 s) (hm : incl [.rasLog, .cores, .fns, .cmds, .locks, .pMem, .pUses, .pColls, .pAcct, .ctxs, .streams, .ristretto, .semaphores, .poison, .slm, .ports, .peers, .transit, .out, .fresh] ls = true) : changesOnly ls s0 (State.walkTurn s p k c w) := by
  unfold State.walkTurn
  try dsimp only
  repeat' (first
    | with_reducible assumption
    | with_reducible intro _
    | with_reducible apply State.unpoisoned_only
    | with_reducible apply State.walked_only
    | with_reducible apply State.ranWalk_only
    | with_reducible apply State.walkTo_only
    | exact incl_trans rfl hm)

theorem State.walkTurn_keeps {s0 : State} {s : State} {p : PartNo} {k : Coll} {c : Cmd} {w : Walk}
    (h0 : keeps s0 s) : keeps s0 (State.walkTurn s p k c w) := by
  unfold State.walkTurn
  try dsimp only
  repeat' (first
    | with_reducible assumption
    | with_reducible intro _
    | with_reducible apply State.unpoisoned_keeps
    | with_reducible apply State.walked_keeps
    | with_reducible apply State.ranWalk_keeps
    | with_reducible apply State.walkTo_keeps)

theorem State.walkAll_only {ls : List Item} {s0 : State} {s : State} {p : PartNo} {k : Coll} {c : Cmd} {w : Walk}
    (h0 : changesOnly ls s0 s) (hm : incl [.rasLog, .cores, .fns, .cmds, .locks, .pMem, .pUses, .pColls, .pAcct, .ctxs, .streams, .ristretto, .semaphores, .poison, .slm, .ports, .peers, .transit, .out, .fresh] ls = true) : changesOnly ls s0 (State.walkAll s p k c w) := by
  unfold State.walkAll
  try dsimp only
  repeat' (first
    | with_reducible assumption
    | with_reducible intro _
    | with_reducible apply State.unpoisoned_only
    | with_reducible apply State.walked_only
    | with_reducible apply State.ranWalk_only
    | with_reducible apply State.walkTo_only
    | exact incl_trans rfl hm)

theorem State.walkAll_keeps {s0 : State} {s : State} {p : PartNo} {k : Coll} {c : Cmd} {w : Walk}
    (h0 : keeps s0 s) : keeps s0 (State.walkAll s p k c w) := by
  unfold State.walkAll
  try dsimp only
  repeat' (first
    | with_reducible assumption
    | with_reducible intro _
    | with_reducible apply State.unpoisoned_keeps
    | with_reducible apply State.walked_keeps
    | with_reducible apply State.ranWalk_keeps
    | with_reducible apply State.walkTo_keeps)

theorem State.rankTurn_only {ls : List Item} {s0 : State} {s : State} {p : PartNo} {k : Coll} {c : Cmd} {w : Walk}
    (h0 : changesOnly ls s0 s) (hm : incl [.rasLog, .cores, .fns, .cmds, .locks, .pMem, .pColls, .pAcct, .ctxs, .streams, .ristretto, .semaphores, .poison, .slm, .ports, .peers, .transit, .out, .fresh] ls = true) : changesOnly ls s0 (State.rankTurn s p k c w) := by
  unfold State.rankTurn
  try dsimp only
  repeat' (first
    | with_reducible assumption
    | with_reducible intro _
    | with_reducible apply State.bump_only
    | with_reducible apply State.unpoisoned_only
    | with_reducible apply State.setWalk_only
    | with_reducible apply State.ranBatches_only
    | with_reducible apply only_ite
    | exact incl_trans rfl hm)

theorem State.rankTurn_keeps {s0 : State} {s : State} {p : PartNo} {k : Coll} {c : Cmd} {w : Walk}
    (h0 : keeps s0 s) : keeps s0 (State.rankTurn s p k c w) := by
  unfold State.rankTurn
  try dsimp only
  repeat' (first
    | with_reducible assumption
    | with_reducible intro _
    | with_reducible apply State.bump_keeps
    | with_reducible apply State.unpoisoned_keeps
    | with_reducible apply State.setWalk_keeps
    | with_reducible apply State.ranBatches_keeps
    | with_reducible apply keeps_ite)

theorem State.rankAll_only {ls : List Item} {s0 : State} {s : State} {p : PartNo} {k : Coll} {c : Cmd} {w : Walk}
    (h0 : changesOnly ls s0 s) (hm : incl [.rasLog, .cores, .fns, .cmds, .locks, .pMem, .pColls, .pAcct, .ctxs, .streams, .ristretto, .semaphores, .poison, .slm, .ports, .peers, .transit, .out, .fresh] ls = true) : changesOnly ls s0 (State.rankAll s p k c w) := by
  unfold State.rankAll
  try dsimp only
  repeat' (first
    | with_reducible assumption
    | with_reducible intro _
    | with_reducible apply State.bump_only
    | with_reducible apply State.unpoisoned_only
    | with_reducible apply State.setWalk_only
    | with_reducible apply State.ranBatches_only
    | with_reducible apply only_ite
    | exact incl_trans rfl hm)

theorem State.rankAll_keeps {s0 : State} {s : State} {p : PartNo} {k : Coll} {c : Cmd} {w : Walk}
    (h0 : keeps s0 s) : keeps s0 (State.rankAll s p k c w) := by
  unfold State.rankAll
  try dsimp only
  repeat' (first
    | with_reducible assumption
    | with_reducible intro _
    | with_reducible apply State.bump_keeps
    | with_reducible apply State.unpoisoned_keeps
    | with_reducible apply State.setWalk_keeps
    | with_reducible apply State.ranBatches_keeps
    | with_reducible apply keeps_ite)

theorem State.withWalk_only {ls : List Item} {s0 : State} {s : State} {cid : Nat} {f : Cmd → Walk → State} (hf : ∀ x y, changesOnly ls s0 (f x y))
    (h0 : changesOnly ls s0 s) (hm : incl [] ls = true) : changesOnly ls s0 (State.withWalk s cid f) := by
  have hs := @mem_of_incl [] ls hm
  unfold State.withWalk
  try dsimp only
  repeat' (first
    | with_reducible assumption
    | with_reducible intro _
    | with_reducible apply hf
    | with_reducible apply only_ite
    | exact incl_trans rfl hm
    | with_reducible apply only_mk
    | exact Or.inr (hs (by decide))
    | with_reducible exact Or.inl rfl
    | with_reducible exact parts_refl
    | (with_reducible refine Or.inl ?_; and_intros <;> with_reducible rfl)
    | exact Or.inl rfl
    | with_reducible refine only_pair (by assumption) ?_
    | dsimp only
    | rw [mk_put]
    | split)

theorem State.withWalk_keeps {s0 : State} {s : State} {cid : Nat} {f : Cmd → Walk → State} (hf : ∀ x y, keeps s0 (f x y))
    (h0 : keeps s0 s) : keeps s0 (State.withWalk s cid f) := by
  unfold State.withWalk
  try dsimp only
  repeat' (first
    | with_reducible assumption
    | with_reducible intro _
    | with_reducible apply hf
    | with_reducible apply keeps_ite
    | with_reducible apply keeps_mk
    | with_reducible exact id
    | with_reducible exact partsKeep_refl
    | with_reducible exact rasKeep_refl
    | with_reducible exact hbmKeep_refl
    | with_reducible exact pkgKeep_refl
    | with_reducible exact secKeep_refl
    | with_reducible exact namesKeep_refl
    | with_reducible refine keeps_pair (by assumption) ?_
    | dsimp only
    | rw [mk_put]
    | split)

theorem State.joinTurn_only {ls : List Item} {s0 : State} {s : State} {p : PartNo} {k : Coll} {cid : Nat}
    (h0 : changesOnly ls s0 s) (hm : incl [.rasLog, .fns, .cmds, .locks, .pMem, .pUses, .pColls, .pAcct, .ctxs, .streams, .ristretto, .semaphores, .poison, .slm, .ports, .peers, .transit, .out, .fresh] ls = true) : changesOnly ls s0 (State.joinTurn s p k cid) := by
  have hs := @mem_of_incl [.rasLog, .fns, .cmds, .locks, .pMem, .pUses, .pColls, .pAcct, .ctxs, .streams, .ristretto, .semaphores, .poison, .slm, .ports, .peers, .transit, .out, .fresh] ls hm
  unfold State.joinTurn
  try dsimp only
  repeat' (first
    | with_reducible assumption
    | with_reducible intro _
    | with_reducible apply State.withWalk_only
    | with_reducible apply State.meshDone_only
    | with_reducible apply State.joinQuery_only
    | with_reducible apply only_ite
    | exact incl_trans rfl hm
    | with_reducible apply only_mk
    | exact Or.inr (hs (by decide))
    | with_reducible exact Or.inl rfl
    | with_reducible exact parts_refl
    | (with_reducible refine Or.inl ?_; and_intros <;> with_reducible rfl)
    | exact Or.inl rfl
    | with_reducible refine only_pair (by assumption) ?_
    | dsimp only
    | rw [mk_put]
    | split)

theorem State.joinTurn_keeps {s0 : State} {s : State} {p : PartNo} {k : Coll} {cid : Nat}
    (h0 : keeps s0 s) : keeps s0 (State.joinTurn s p k cid) := by
  unfold State.joinTurn
  try dsimp only
  repeat' (first
    | with_reducible assumption
    | with_reducible intro _
    | with_reducible apply State.withWalk_keeps
    | with_reducible apply State.meshDone_keeps
    | with_reducible apply State.joinQuery_keeps
    | with_reducible apply keeps_ite
    | with_reducible apply keeps_mk
    | with_reducible exact id
    | with_reducible exact partsKeep_refl
    | with_reducible exact rasKeep_refl
    | with_reducible exact hbmKeep_refl
    | with_reducible exact pkgKeep_refl
    | with_reducible exact secKeep_refl
    | with_reducible exact namesKeep_refl
    | with_reducible refine keeps_pair (by assumption) ?_
    | dsimp only
    | rw [mk_put]
    | split)

theorem State.runQuery_only {ls : List Item} {s0 : State} {s : State} {p : PartNo} {k : Coll} {cid : Nat}
    (h0 : changesOnly ls s0 s) (hm : incl [.rasLog, .cores, .fns, .cmds, .locks, .pMem, .pUses, .pColls, .pAcct, .ctxs, .streams, .ristretto, .semaphores, .poison, .slm, .ports, .peers, .transit, .out, .fresh] ls = true) : changesOnly ls s0 (State.runQuery s p k cid) := by
  unfold State.runQuery
  try dsimp only
  repeat' (first
    | with_reducible assumption
    | with_reducible intro _
    | with_reducible apply State.joinTurn_only
    | with_reducible apply State.withWalk_only
    | with_reducible apply State.rankAll_only
    | with_reducible apply State.walkAll_only
    | with_reducible apply only_ite
    | exact incl_trans rfl hm)

theorem State.runQuery_keeps {s0 : State} {s : State} {p : PartNo} {k : Coll} {cid : Nat}
    (h0 : keeps s0 s) : keeps s0 (State.runQuery s p k cid) := by
  unfold State.runQuery
  try dsimp only
  repeat' (first
    | with_reducible assumption
    | with_reducible intro _
    | with_reducible apply State.joinTurn_keeps
    | with_reducible apply State.withWalk_keeps
    | with_reducible apply State.rankAll_keeps
    | with_reducible apply State.walkAll_keeps
    | with_reducible apply keeps_ite)

theorem State.queryRow_only {ls : List Item} {s0 : State} {s : State} {cid op : Nat}
    (h0 : changesOnly ls s0 s) (hm : incl [.rasLog, .cores, .fns, .cmds, .locks, .pMem, .pUses, .pColls, .pAcct, .ctxs, .streams, .ristretto, .semaphores, .poison, .slm, .meshCount, .ports, .peers, .transit, .out, .fresh] ls = true) : changesOnly ls s0 (State.queryRow s cid op) := by
  unfold State.queryRow
  try dsimp only
  repeat' (first
    | with_reducible assumption
    | with_reducible intro _
    | with_reducible apply State.beginQuery_only
    | with_reducible apply State.onColl_only
    | with_reducible apply State.runQuery_only
    | with_reducible apply only_ite
    | exact incl_trans rfl hm)

theorem State.queryRow_keeps {s0 : State} {s : State} {cid op : Nat}
    (h0 : keeps s0 s) : keeps s0 (State.queryRow s cid op) := by
  unfold State.queryRow
  try dsimp only
  repeat' (first
    | with_reducible assumption
    | with_reducible intro _
    | with_reducible apply State.beginQuery_keeps
    | with_reducible apply State.onColl_keeps
    | with_reducible apply State.runQuery_keeps)

theorem State.queryStep_only {ls : List Item} {s0 : State} {s : State} {cid : Nat} {f : PartNo → Coll → Cmd → State} (hf : ∀ x y z, changesOnly ls s0 (f x y z))
    (h0 : changesOnly ls s0 s) (hm : incl [.rasLog, .fns, .cmds, .locks, .pMem, .pColls, .pAcct, .ctxs, .streams, .ristretto, .semaphores, .poison, .slm, .ports, .peers, .transit, .out, .fresh] ls = true) : changesOnly ls s0 (State.queryStep s cid f) := by
  have hs := @mem_of_incl [.rasLog, .fns, .cmds, .locks, .pMem, .pColls, .pAcct, .ctxs, .streams, .ristretto, .semaphores, .poison, .slm, .ports, .peers, .transit, .out, .fresh] ls hm
  unfold State.queryStep
  try dsimp only
  repeat' (first
    | with_reducible assumption
    | with_reducible intro _
    | with_reducible apply hf
    | with_reducible apply State.onColl_only
    | with_reducible apply only_ite
    | exact incl_trans rfl hm
    | with_reducible apply only_mk
    | exact Or.inr (hs (by decide))
    | with_reducible exact Or.inl rfl
    | with_reducible exact parts_refl
    | (with_reducible refine Or.inl ?_; and_intros <;> with_reducible rfl)
    | exact Or.inl rfl
    | with_reducible refine only_pair (by assumption) ?_
    | dsimp only
    | rw [mk_put]
    | split)

theorem State.queryStep_keeps {s0 : State} {s : State} {cid : Nat} {f : PartNo → Coll → Cmd → State} (hf : ∀ x y z, keeps s0 (f x y z))
    (h0 : keeps s0 s) : keeps s0 (State.queryStep s cid f) := by
  unfold State.queryStep
  try dsimp only
  repeat' (first
    | with_reducible assumption
    | with_reducible intro _
    | with_reducible apply hf
    | with_reducible apply State.onColl_keeps
    | with_reducible apply keeps_ite
    | with_reducible apply keeps_mk
    | with_reducible exact id
    | with_reducible exact partsKeep_refl
    | with_reducible exact rasKeep_refl
    | with_reducible exact hbmKeep_refl
    | with_reducible exact pkgKeep_refl
    | with_reducible exact secKeep_refl
    | with_reducible exact namesKeep_refl
    | with_reducible refine keeps_pair (by assumption) ?_
    | dsimp only
    | rw [mk_put]
    | split)

theorem State.fetchDone_only {ls : List Item} {s0 : State} {s : State} {k : Coll} {c : Cmd} {got : List (Nat × Bytes)}
    (h0 : changesOnly ls s0 s) (hm : incl [.cmds, .locks, .pAcct, .ctxs, .streams, .ristretto, .semaphores, .out] ls = true) : changesOnly ls s0 (State.fetchDone s k c got) := by
  unfold State.fetchDone
  try dsimp only
  repeat' (first
    | with_reducible assumption
    | with_reducible intro _
    | with_reducible apply State.output_only
    | with_reducible apply State.finish_only
    | with_reducible apply only_ite
    | exact incl_trans rfl hm)

theorem State.fetchDone_keeps {s0 : State} {s : State} {k : Coll} {c : Cmd} {got : List (Nat × Bytes)}
    (h0 : keeps s0 s) : keeps s0 (State.fetchDone s k c got) := by
  unfold State.fetchDone
  try dsimp only
  repeat' (first
    | with_reducible assumption
    | with_reducible intro _
    | with_reducible apply State.output_keeps
    | with_reducible apply State.finish_keeps)

theorem State.shadowEnd_only {ls : List Item} {s0 : State} {s : State} {p : PartNo} {k : Coll} {c : Cmd}
    (h0 : changesOnly ls s0 s) (hm : incl [.cmds, .locks, .pColls, .pShadows, .ctxs, .streams, .ristretto, .semaphores] ls = true) : changesOnly ls s0 (State.shadowEnd s p k c) := by
  have hs := @mem_of_incl [.cmds, .locks, .pColls, .pShadows, .ctxs, .streams, .ristretto, .semaphores] ls hm
  unfold State.shadowEnd
  try dsimp only
  repeat' (first
    | with_reducible assumption
    | with_reducible intro _
    | with_reducible apply State.drop_only
    | with_reducible apply State.modCollU_only
    | with_reducible apply only_ite
    | exact incl_trans rfl hm
    | with_reducible exact part_refl
    | with_reducible apply part_ite
    | with_reducible apply only_modPart
    | with_reducible apply part_mk
    | with_reducible apply only_mk
    | exact Or.inr (hs (by decide))
    | with_reducible exact Or.inl rfl
    | with_reducible exact parts_refl
    | (with_reducible refine Or.inl ?_; and_intros <;> with_reducible rfl)
    | exact Or.inl rfl
    | with_reducible refine only_pair (by assumption) ?_
    | dsimp only
    | rw [mk_put]
    | split)

theorem State.shadowEnd_keeps {s0 : State} {s : State} {p : PartNo} {k : Coll} {c : Cmd}
    (h0 : keeps s0 s) : keeps s0 (State.shadowEnd s p k c) := by
  unfold State.shadowEnd
  try dsimp only
  repeat' (first
    | with_reducible assumption
    | with_reducible intro _
    | with_reducible apply State.drop_keeps
    | with_reducible apply State.modCollU_keeps
    | with_reducible apply keeps_ite
    | with_reducible exact pKeeps_refl
    | exact pKeeps_new rfl rfl
    | with_reducible apply pKeeps_ite
    | with_reducible apply keeps_modPart
    | with_reducible apply pKeeps_mk
    | with_reducible exact memKeeps_refl
    | with_reducible apply keeps_mk
    | with_reducible exact id
    | with_reducible exact partsKeep_refl
    | with_reducible exact rasKeep_refl
    | with_reducible exact hbmKeep_refl
    | with_reducible exact pkgKeep_refl
    | with_reducible exact secKeep_refl
    | with_reducible exact namesKeep_refl
    | with_reducible refine keeps_pair (by assumption) ?_
    | dsimp only
    | rw [mk_put]
    | split)

theorem State.shadowMake_only {ls : List Item} {s0 : State} {s : State} {p : PartNo} {k : Coll} {q : Shadow} {phase : Phase}
    (h0 : changesOnly ls s0 s) (hm : incl [.cmds, .nextCid] ls = true) : changesOnly ls s0 (State.shadowMake s p k q phase) := by
  unfold State.shadowMake
  try dsimp only
  repeat' (first
    | with_reducible assumption
    | with_reducible intro _
    | with_reducible apply State.addCmd_only
    | with_reducible apply only_ite)

theorem State.shadowMake_keeps {s0 : State} {s : State} {p : PartNo} {k : Coll} {q : Shadow} {phase : Phase}
    (h0 : keeps s0 s) : keeps s0 (State.shadowMake s p k q phase) := by
  unfold State.shadowMake
  try dsimp only
  repeat' (first
    | with_reducible assumption
    | with_reducible intro _
    | with_reducible apply State.addCmd_keeps
    | with_reducible apply keeps_ite)

theorem State.shadowOne_only {ls : List Item} {s0 : State} {s : State} {p : PartNo} {k : Coll} {q : Shadow}
    (h0 : changesOnly ls s0 s) (hm : incl [.rasLog, .cores, .fns, .cmds, .locks, .pMem, .pUses, .pColls, .pShadows, .pAcct, .ctxs, .streams, .ristretto, .semaphores, .poison, .slm, .meshCount, .ports, .peers, .transit, .out, .fresh] ls = true) : changesOnly ls s0 (State.shadowOne s p k q) := by
  have hs := @mem_of_incl [.rasLog, .cores, .fns, .cmds, .locks, .pMem, .pUses, .pColls, .pShadows, .pAcct, .ctxs, .streams, .ristretto, .semaphores, .poison, .slm, .meshCount, .ports, .peers, .transit, .out, .fresh] ls hm
  unfold State.shadowOne
  try dsimp only
  repeat' (first
    | with_reducible assumption
    | with_reducible intro _
    | with_reducible apply State.shadowEnd_only
    | with_reducible apply State.queryRow_only
    | with_reducible apply only_ite
    | exact incl_trans rfl hm
    | with_reducible apply only_mk
    | exact Or.inr (hs (by decide))
    | with_reducible exact Or.inl rfl
    | with_reducible exact parts_refl
    | (with_reducible refine Or.inl ?_; and_intros <;> with_reducible rfl)
    | exact Or.inl rfl
    | with_reducible refine only_pair (by assumption) ?_
    | dsimp only
    | rw [mk_put]
    | split)

theorem State.shadowOne_keeps {s0 : State} {s : State} {p : PartNo} {k : Coll} {q : Shadow}
    (h0 : keeps s0 s) : keeps s0 (State.shadowOne s p k q) := by
  unfold State.shadowOne
  try dsimp only
  repeat' (first
    | with_reducible assumption
    | with_reducible intro _
    | with_reducible apply State.shadowEnd_keeps
    | with_reducible apply State.queryRow_keeps
    | with_reducible apply keeps_ite
    | with_reducible apply keeps_mk
    | with_reducible exact id
    | with_reducible exact partsKeep_refl
    | with_reducible exact rasKeep_refl
    | with_reducible exact hbmKeep_refl
    | with_reducible exact pkgKeep_refl
    | with_reducible exact secKeep_refl
    | with_reducible exact namesKeep_refl
    | with_reducible refine keeps_pair (by assumption) ?_
    | dsimp only
    | rw [mk_put]
    | split)

end Sys2Proof.Machine
end

