-- ==== Sys2Proof/Laws/Frames.lean ====
section
/-! SUPPORT. What each operation of Machine/Frames.lean may change: its frame, and that it
keeps the invariant and the fuses. -/

namespace Sys2Proof.Machine

open Sys2Proof.Safety Sys2Proof.Laws

theorem State.memberStep_only {ls : List Item} {s0 : State} {s : State} {p : PartNo} {src tag : Nat} {packet : Bytes} {data : HostData} {readStamp : Nat} {deadline : Option Nat}
    (h0 : changesOnly ls s0 s) (hm : incl [.time, .clusters, .cmds, .nextCid, .hbmRun, .power] ls = true) : changesOnly ls s0 (State.memberStep s p src tag packet data readStamp deadline) := by
  unfold State.memberStep
  try dsimp only
  repeat' (first
    | with_reducible assumption
    | with_reducible intro _
    | with_reducible apply State.addCmd_only
    | with_reducible apply State.wake_only
    | with_reducible apply State.issued_only
    | with_reducible apply only_ite
    | exact incl_trans rfl hm)

theorem State.memberStep_keeps {s0 : State} {s : State} {p : PartNo} {src tag : Nat} {packet : Bytes} {data : HostData} {readStamp : Nat} {deadline : Option Nat}
    (h0 : keeps s0 s) : keeps s0 (State.memberStep s p src tag packet data readStamp deadline) := by
  unfold State.memberStep
  try dsimp only
  repeat' (first
    | with_reducible assumption
    | with_reducible intro _
    | with_reducible apply State.addCmd_keeps
    | with_reducible apply State.wake_keeps
    | with_reducible apply State.issued_keeps
    | with_reducible apply keeps_ite)

theorem State.applyStepOf_only {ls : List Item} {s0 : State} {s : State} {p : PartNo} {src tag : Nat}
    (h0 : changesOnly ls s0 s) (hm : incl [.cmds, .locks] ls = true) : changesOnly ls s0 (State.applyStepOf s p src tag) := by
  have hs := @mem_of_incl [.cmds, .locks] ls hm
  unfold State.applyStepOf
  try dsimp only
  repeat' (first
    | with_reducible assumption
    | with_reducible intro _
    | with_reducible apply State.modCmd_only
    | exact incl_trans rfl hm
    | with_reducible apply only_mk
    | exact Or.inr (hs (by decide))
    | with_reducible exact Or.inl rfl
    | with_reducible exact parts_refl
    | (with_reducible refine Or.inl ?_; and_intros <;> with_reducible rfl)
    | exact Or.inl rfl
    | with_reducible refine only_pair (by assumption) ?_
    | dsimp only
    | rw [mk_put]
    | split)

theorem State.applyStepOf_keeps {s0 : State} {s : State} {p : PartNo} {src tag : Nat}
    (h0 : keeps s0 s) : keeps s0 (State.applyStepOf s p src tag) := by
  unfold State.applyStepOf
  try dsimp only
  repeat' (first
    | with_reducible assumption
    | exact len_modify
    | exact len_map
    | exact len_mapIdx
    | with_reducible intro _
    | with_reducible apply State.modCmd_keeps
    | with_reducible apply keeps_mk
    | with_reducible exact id
    | with_reducible exact partsKeep_refl
    | with_reducible exact rasKeep_refl
    | with_reducible exact hbmKeep_refl
    | with_reducible exact pkgKeep_refl
    | with_reducible exact secKeep_refl
    | with_reducible exact namesKeep_refl
    | exact rfl
    | with_reducible refine keeps_pair (by assumption) ?_
    | dsimp only
    | rw [mk_put]
    | split)

theorem State.withTable_only {ls : List Item} {s0 : State} {s : State} {p : PartNo} {src tag : Nat} {param : Bytes} {f : Coll → State} (hf : ∀ x, changesOnly ls s0 (f x))
    (h0 : changesOnly ls s0 s) (hm : incl [.pAcct, .ports, .peers, .transit, .out] ls = true) : changesOnly ls s0 (State.withTable s p src tag param f) := by
  have hs := @mem_of_incl [.pAcct, .ports, .peers, .transit, .out] ls hm
  unfold State.withTable
  try dsimp only
  repeat' (first
    | with_reducible assumption
    | with_reducible intro _
    | with_reducible apply hf
    | with_reducible apply State.replyTo_only
    | with_reducible apply only_ite
    | exact incl_trans rfl hm
    | with_reducible apply only_mk
    | exact Or.inr (hs (by decide))
    | with_reducible exact Or.inl rfl
    | with_reducible exact parts_refl
    | (with_reducible refine Or.inl ?_; and_intros <;> with_reducible rfl)
    | exact Or.inl rfl
    | with_reducible refine only_pair (by assumption) ?_
    | dsimp only
    | rw [mk_put]
    | split)

theorem State.withTable_keeps {s0 : State} {s : State} {p : PartNo} {src tag : Nat} {param : Bytes} {f : Coll → State} (hf : ∀ x, keeps s0 (f x))
    (h0 : keeps s0 s) : keeps s0 (State.withTable s p src tag param f) := by
  unfold State.withTable
  try dsimp only
  repeat' (first
    | with_reducible assumption
    | with_reducible intro _
    | with_reducible apply hf
    | with_reducible apply State.replyTo_keeps
    | with_reducible apply keeps_ite
    | with_reducible apply keeps_mk
    | with_reducible exact id
    | with_reducible exact partsKeep_refl
    | with_reducible exact rasKeep_refl
    | with_reducible exact hbmKeep_refl
    | with_reducible exact pkgKeep_refl
    | with_reducible exact secKeep_refl
    | with_reducible exact namesKeep_refl
    | with_reducible refine keeps_pair (by assumption) ?_
    | dsimp only
    | rw [mk_put]
    | split)

theorem State.sendPayloads_only {ls : List Item} {s0 : State} {s : State} {p : PartNo} {src tag handle : Nat} {slots : List (Nat × Nat)}
    (h0 : changesOnly ls s0 s) (hm : incl [.pHolds, .pAcct, .slm, .ports, .peers, .transit, .out] ls = true) : changesOnly ls s0 (State.sendPayloads s p src tag handle slots) := by
  have hs := @mem_of_incl [.pHolds, .pAcct, .slm, .ports, .peers, .transit, .out] ls hm
  unfold State.sendPayloads
  try dsimp only
  repeat' (first
    | with_reducible assumption
    | with_reducible intro _
    | with_reducible apply State.reads_only
    | with_reducible apply State.replyTo_only
    | with_reducible apply only_ite
    | exact incl_trans rfl hm
    | with_reducible exact part_refl
    | with_reducible apply part_ite
    | with_reducible apply only_modPart
    | with_reducible apply part_mk
    | with_reducible apply only_mk
    | exact Or.inr (hs (by decide))
    | with_reducible exact Or.inl rfl
    | with_reducible exact parts_refl
    | (with_reducible refine Or.inl ?_; and_intros <;> with_reducible rfl)
    | exact Or.inl rfl
    | with_reducible refine only_pair (by assumption) ?_
    | dsimp only
    | rw [mk_put]
    | split)

theorem State.sendPayloads_keeps {s0 : State} {s : State} {p : PartNo} {src tag handle : Nat} {slots : List (Nat × Nat)}
    (h0 : keeps s0 s) : keeps s0 (State.sendPayloads s p src tag handle slots) := by
  unfold State.sendPayloads
  try dsimp only
  repeat' (first
    | with_reducible assumption
    | with_reducible intro _
    | with_reducible apply State.reads_keeps
    | with_reducible apply State.replyTo_keeps
    | with_reducible apply keeps_ite
    | with_reducible exact pKeeps_refl
    | exact pKeeps_new rfl rfl
    | with_reducible apply pKeeps_ite
    | with_reducible apply keeps_modPart
    | with_reducible apply pKeeps_mk
    | with_reducible exact memKeeps_refl
    | with_reducible apply keeps_mk
    | with_reducible exact id
    | with_reducible exact partsKeep_refl
    | with_reducible exact rasKeep_refl
    | with_reducible exact hbmKeep_refl
    | with_reducible exact pkgKeep_refl
    | with_reducible exact secKeep_refl
    | with_reducible exact namesKeep_refl
    | with_reducible refine keeps_pair (by assumption) ?_
    | dsimp only
    | rw [mk_put]
    | split)

theorem State.takeCmd_only {ls : List Item} {s0 : State} {s : State} {p : PartNo} {src tag aux : Nat} {body : CmdBody}
    (h0 : changesOnly ls s0 s) (hm : incl [.time, .rasLog, .clusters, .fns, .cmds, .nextCid, .locks, .pMem, .pScratch, .pHolds, .pColls, .pAcct, .pHot, .ctxs, .streams, .ristretto, .semaphores, .poison, .hbmRun, .slm, .ports, .peers, .transit, .power, .out, .fresh] ls = true) : changesOnly ls s0 (State.takeCmd s p src tag aux body) := by
  have hs := @mem_of_incl [.time, .rasLog, .clusters, .fns, .cmds, .nextCid, .locks, .pMem, .pScratch, .pHolds, .pColls, .pAcct, .pHot, .ctxs, .streams, .ristretto, .semaphores, .poison, .hbmRun, .slm, .ports, .peers, .transit, .power, .out, .fresh] ls hm
  unfold State.takeCmd
  try dsimp only
  repeat' (first
    | with_reducible assumption
    | with_reducible intro _
    | with_reducible apply State.memberStep_only
    | with_reducible apply State.handoffDone_only
    | with_reducible apply State.takeAck_only
    | with_reducible apply State.tryStep_only
    | with_reducible apply State.takeLines_only
    | with_reducible apply State.replyTo_only
    | with_reducible apply State.takeStepReport_only
    | with_reducible apply State.endCmd_only
    | with_reducible apply State.takeDirectory_only
    | with_reducible apply State.takeAsk_only
    | with_reducible apply State.serveLookup_only
    | with_reducible apply State.takePairs_only
    | with_reducible apply State.install_only
    | with_reducible apply State.takeEnd_only
    | with_reducible apply State.takeForwardDone_only
    | with_reducible apply State.sendPayloads_only
    | with_reducible apply State.withTable_only
    | with_reducible apply State.startHandoff_only
    | with_reducible apply State.applyStepOf_only
    | with_reducible apply State.takeSlotAnswer_only
    | exact incl_trans rfl hm
    | with_reducible apply only_mk
    | exact Or.inr (hs (by decide))
    | with_reducible exact Or.inl rfl
    | with_reducible exact parts_refl
    | (with_reducible refine Or.inl ?_; and_intros <;> with_reducible rfl)
    | exact Or.inl rfl
    | with_reducible refine only_pair (by assumption) ?_
    | dsimp only
    | rw [mk_put]
    | split)

theorem State.takeCmd_keeps {s0 : State} {s : State} {p : PartNo} {src tag aux : Nat} {body : CmdBody}
    (h0 : keeps s0 s) : keeps s0 (State.takeCmd s p src tag aux body) := by
  unfold State.takeCmd
  try dsimp only
  repeat' (first
    | with_reducible assumption
    | with_reducible intro _
    | with_reducible apply State.memberStep_keeps
    | with_reducible apply State.handoffDone_keeps
    | with_reducible apply State.takeAck_keeps
    | with_reducible apply State.tryStep_keeps
    | with_reducible apply State.takeLines_keeps
    | with_reducible apply State.replyTo_keeps
    | with_reducible apply State.takeStepReport_keeps
    | with_reducible apply State.endCmd_keeps
    | with_reducible apply State.takeDirectory_keeps
    | with_reducible apply State.takeAsk_keeps
    | with_reducible apply State.serveLookup_keeps
    | with_reducible apply State.takePairs_keeps
    | with_reducible apply State.install_keeps
    | with_reducible apply State.takeEnd_keeps
    | with_reducible apply State.takeForwardDone_keeps
    | with_reducible apply State.sendPayloads_keeps
    | with_reducible apply State.withTable_keeps
    | with_reducible apply State.startHandoff_keeps
    | with_reducible apply State.applyStepOf_keeps
    | with_reducible apply State.takeSlotAnswer_keeps
    | with_reducible apply keeps_mk
    | with_reducible exact id
    | with_reducible exact partsKeep_refl
    | with_reducible exact rasKeep_refl
    | with_reducible exact hbmKeep_refl
    | with_reducible exact pkgKeep_refl
    | with_reducible exact secKeep_refl
    | with_reducible exact namesKeep_refl
    | with_reducible refine keeps_pair (by assumption) ?_
    | dsimp only
    | rw [mk_put]
    | split)

theorem State.setWait_only {ls : List Item} {s0 : State} {s : State} {cid : Nat} {m : MeshWait}
    (h0 : changesOnly ls s0 s) (hm : incl [.cmds] ls = true) : changesOnly ls s0 (State.setWait s cid m) := by
  unfold State.setWait
  try dsimp only
  repeat' first | with_reducible assumption | with_reducible intro _ | with_reducible apply State.modCmd_only

theorem State.setWait_keeps {s0 : State} {s : State} {cid : Nat} {m : MeshWait}
    (h0 : keeps s0 s) : keeps s0 (State.setWait s cid m) := by
  unfold State.setWait
  try dsimp only
  repeat' (first
    | with_reducible assumption
    | exact len_modify
    | exact len_map
    | exact len_mapIdx
    | with_reducible intro _
    | with_reducible apply State.modCmd_keeps)

theorem State.memberFailed_only {ls : List Item} {s0 : State} {s : State} {c : Cmd} {st : Nat}
    (h0 : changesOnly ls s0 s) (hm : incl [.rasLog, .fns, .cmds, .locks, .pMem, .pColls, .pShadows, .pAcct, .ctxs, .streams, .ristretto, .semaphores, .poison, .slm, .ports, .peers, .transit, .out, .fresh] ls = true) : changesOnly ls s0 (State.memberFailed s c st) := by
  unfold State.memberFailed
  try dsimp only
  repeat' (first
    | with_reducible assumption
    | with_reducible intro _
    | with_reducible apply State.dropShadow_only
    | with_reducible apply State.tearDown_only
    | with_reducible apply only_ite
    | exact incl_trans rfl hm)

theorem State.memberFailed_keeps {s0 : State} {s : State} {c : Cmd} {st : Nat}
    (h0 : keeps s0 s) : keeps s0 (State.memberFailed s c st) := by
  unfold State.memberFailed
  try dsimp only
  repeat' (first
    | with_reducible assumption
    | with_reducible intro _
    | with_reducible apply State.dropShadow_keeps
    | with_reducible apply State.tearDown_keeps
    | with_reducible apply keeps_ite)

theorem State.takeResult_only {ls : List Item} {s0 : State} {s : State} {p : PartNo} {k : Coll} {c : Cmd} {m : MeshWait} {member : Nat} {last : Bool} {body : ResultBody}
    (h0 : changesOnly ls s0 s) (hm : incl [.rasLog, .fns, .cmds, .locks, .pMem, .pUses, .pColls, .pShadows, .pAcct, .ctxs, .streams, .ristretto, .semaphores, .poison, .slm, .ports, .peers, .transit, .out, .fresh] ls = true) : changesOnly ls s0 (State.takeResult s p k c m member last body) := by
  have hs := @mem_of_incl [.rasLog, .fns, .cmds, .locks, .pMem, .pUses, .pColls, .pShadows, .pAcct, .ctxs, .streams, .ristretto, .semaphores, .poison, .slm, .ports, .peers, .transit, .out, .fresh] ls hm
  unfold State.takeResult
  try dsimp only
  repeat' (first
    | with_reducible assumption
    | with_reducible intro _
    | with_reducible apply State.meshDecide_only
    | with_reducible apply State.shareFailed_only
    | with_reducible apply State.joinTurn_only
    | with_reducible apply State.memberFailed_only
    | with_reducible apply State.setWalk_only
    | with_reducible apply State.takeHandedOff_only
    | with_reducible apply State.takeRoom_only
    | with_reducible apply State.takeReport_only
    | with_reducible apply State.setWait_only
    | with_reducible apply State.takePartials_only
    | with_reducible apply State.fetchDone_only
    | with_reducible apply only_ite
    | exact incl_trans rfl hm
    | with_reducible apply only_mk
    | exact Or.inr (hs (by decide))
    | with_reducible exact Or.inl rfl
    | with_reducible exact parts_refl
    | (with_reducible refine Or.inl ?_; and_intros <;> with_reducible rfl)
    | exact Or.inl rfl
    | with_reducible refine only_pair (by assumption) ?_
    | dsimp only
    | rw [mk_put]
    | split)

theorem State.takeResult_keeps {s0 : State} {s : State} {p : PartNo} {k : Coll} {c : Cmd} {m : MeshWait} {member : Nat} {last : Bool} {body : ResultBody}
    (h0 : keeps s0 s) : keeps s0 (State.takeResult s p k c m member last body) := by
  unfold State.takeResult
  try dsimp only
  repeat' (first
    | with_reducible assumption
    | with_reducible intro _
    | with_reducible apply State.meshDecide_keeps
    | with_reducible apply State.shareFailed_keeps
    | with_reducible apply State.joinTurn_keeps
    | with_reducible apply State.memberFailed_keeps
    | with_reducible apply State.setWalk_keeps
    | with_reducible apply State.takeHandedOff_keeps
    | with_reducible apply State.takeRoom_keeps
    | with_reducible apply State.takeReport_keeps
    | with_reducible apply State.setWait_keeps
    | with_reducible apply State.takePartials_keeps
    | with_reducible apply State.fetchDone_keeps
    | with_reducible apply keeps_ite
    | with_reducible apply keeps_mk
    | with_reducible exact id
    | with_reducible exact partsKeep_refl
    | with_reducible exact rasKeep_refl
    | with_reducible exact hbmKeep_refl
    | with_reducible exact pkgKeep_refl
    | with_reducible exact secKeep_refl
    | with_reducible exact namesKeep_refl
    | with_reducible refine keeps_pair (by assumption) ?_
    | dsimp only
    | rw [mk_put]
    | split)

theorem State.takeResultFrame_only {ls : List Item} {s0 : State} {s : State} {p : PartNo} {src tag : Nat} {last : Bool} {body : ResultBody}
    (h0 : changesOnly ls s0 s) (hm : incl [.rasLog, .fns, .cmds, .locks, .pMem, .pUses, .pColls, .pShadows, .pAcct, .ctxs, .streams, .ristretto, .semaphores, .poison, .slm, .ports, .peers, .transit, .out, .fresh] ls = true) : changesOnly ls s0 (State.takeResultFrame s p src tag last body) := by
  have hs := @mem_of_incl [.rasLog, .fns, .cmds, .locks, .pMem, .pUses, .pColls, .pShadows, .pAcct, .ctxs, .streams, .ristretto, .semaphores, .poison, .slm, .ports, .peers, .transit, .out, .fresh] ls hm
  unfold State.takeResultFrame
  try dsimp only
  repeat' (first
    | with_reducible assumption
    | with_reducible intro _
    | with_reducible apply State.takeResult_only
    | with_reducible apply only_ite
    | exact incl_trans rfl hm
    | with_reducible apply only_mk
    | exact Or.inr (hs (by decide))
    | with_reducible exact Or.inl rfl
    | with_reducible exact parts_refl
    | (with_reducible refine Or.inl ?_; and_intros <;> with_reducible rfl)
    | exact Or.inl rfl
    | with_reducible refine only_pair (by assumption) ?_
    | dsimp only
    | rw [mk_put]
    | split)

theorem State.takeResultFrame_keeps {s0 : State} {s : State} {p : PartNo} {src tag : Nat} {last : Bool} {body : ResultBody}
    (h0 : keeps s0 s) : keeps s0 (State.takeResultFrame s p src tag last body) := by
  unfold State.takeResultFrame
  try dsimp only
  repeat' (first
    | with_reducible assumption
    | with_reducible intro _
    | with_reducible apply State.takeResult_keeps
    | with_reducible apply keeps_ite
    | with_reducible apply keeps_mk
    | with_reducible exact id
    | with_reducible exact partsKeep_refl
    | with_reducible exact rasKeep_refl
    | with_reducible exact hbmKeep_refl
    | with_reducible exact pkgKeep_refl
    | with_reducible exact secKeep_refl
    | with_reducible exact namesKeep_refl
    | with_reducible refine keeps_pair (by assumption) ?_
    | dsimp only
    | rw [mk_put]
    | split)

theorem State.takeData_only {ls : List Item} {s0 : State} {s : State} {p : PartNo} {tag off : Nat} {payload : Bytes}
    (h0 : changesOnly ls s0 s) (hm : incl [.rasLog, .fns, .cmds, .pMem, .poison, .slm, .out] ls = true) : changesOnly ls s0 (State.takeData s p tag off payload) := by
  unfold State.takeData
  try dsimp only
  repeat' (first
    | with_reducible assumption
    | with_reducible intro _
    | with_reducible apply State.wrMem_only
    | with_reducible apply only_ite)

theorem State.takeData_keeps {s0 : State} {s : State} {p : PartNo} {tag off : Nat} {payload : Bytes}
    (h0 : keeps s0 s) : keeps s0 (State.takeData s p tag off payload) := by
  unfold State.takeData
  try dsimp only
  repeat' (first
    | with_reducible assumption
    | with_reducible intro _
    | with_reducible apply State.wrMem_keeps
    | with_reducible apply keeps_ite)

theorem State.takeReadReq_only {ls : List Item} {s0 : State} {s : State} {p : PartNo} {hdr : FrameHdr} {len : Nat}
    (h0 : changesOnly ls s0 s) (hm : incl [.pAcct, .slm, .ports, .peers, .transit, .out] ls = true) : changesOnly ls s0 (State.takeReadReq s p hdr len) := by
  unfold State.takeReadReq
  try dsimp only
  repeat' (first
    | with_reducible assumption
    | with_reducible intro _
    | with_reducible apply State.reads_only
    | with_reducible apply State.replyTo_only
    | with_reducible apply State.sendRouted_only
    | with_reducible apply only_ite
    | with_reducible apply only_foldl
    | with_reducible apply only_foldl_fst
    | exact incl_trans rfl hm)

theorem State.takeReadReq_keeps {s0 : State} {s : State} {p : PartNo} {hdr : FrameHdr} {len : Nat}
    (h0 : keeps s0 s) : keeps s0 (State.takeReadReq s p hdr len) := by
  unfold State.takeReadReq
  try dsimp only
  repeat' (first
    | with_reducible assumption
    | with_reducible intro _
    | with_reducible apply State.reads_keeps
    | with_reducible apply State.replyTo_keeps
    | with_reducible apply State.sendRouted_keeps
    | with_reducible apply keeps_ite
    | with_reducible apply keeps_foldl)

theorem State.chainEnd_only {ls : List Item} {s0 : State} {s : State} {p : PartNo} {c : ChainSt}
    (h0 : changesOnly ls s0 s) (hm : incl [.cmds, .locks, .pAcct, .ctxs, .streams, .ristretto, .semaphores, .out] ls = true) : changesOnly ls s0 (State.chainEnd s p c) := by
  have hs := @mem_of_incl [.cmds, .locks, .pAcct, .ctxs, .streams, .ristretto, .semaphores, .out] ls hm
  unfold State.chainEnd
  try dsimp only
  repeat' (first
    | with_reducible assumption
    | with_reducible intro _
    | with_reducible apply State.lookupEnd_only
    | with_reducible apply only_ite
    | exact incl_trans rfl hm
    | with_reducible apply only_mk
    | exact Or.inr (hs (by decide))
    | with_reducible exact Or.inl rfl
    | with_reducible exact parts_refl
    | (with_reducible refine Or.inl ?_; and_intros <;> with_reducible rfl)
    | exact Or.inl rfl
    | with_reducible refine only_pair (by assumption) ?_
    | dsimp only
    | rw [mk_put]
    | split)

theorem State.chainEnd_keeps {s0 : State} {s : State} {p : PartNo} {c : ChainSt}
    (h0 : keeps s0 s) : keeps s0 (State.chainEnd s p c) := by
  unfold State.chainEnd
  try dsimp only
  repeat' (first
    | with_reducible assumption
    | with_reducible intro _
    | with_reducible apply State.lookupEnd_keeps
    | with_reducible apply keeps_ite
    | with_reducible apply keeps_mk
    | with_reducible exact id
    | with_reducible exact partsKeep_refl
    | with_reducible exact rasKeep_refl
    | with_reducible exact hbmKeep_refl
    | with_reducible exact pkgKeep_refl
    | with_reducible exact secKeep_refl
    | with_reducible exact namesKeep_refl
    | with_reducible refine keeps_pair (by assumption) ?_
    | dsimp only
    | rw [mk_put]
    | split)

theorem State.takeChain_only {ls : List Item} {s0 : State} {s : State} {p : PartNo} {tag link : Nat} {last : Bool} {partials : List Nat}
    (h0 : changesOnly ls s0 s) (hm : incl [.cmds, .locks, .pAcct, .ctxs, .streams, .ristretto, .semaphores, .barriers, .out] ls = true) : changesOnly ls s0 (State.takeChain s p tag link last partials) := by
  have hs := @mem_of_incl [.cmds, .locks, .pAcct, .ctxs, .streams, .ristretto, .semaphores, .barriers, .out] ls hm
  unfold State.takeChain
  try dsimp only
  repeat' (first
    | with_reducible assumption
    | with_reducible intro _
    | with_reducible apply State.chainEnd_only
    | with_reducible apply only_getD
    | with_reducible apply only_ite
    | with_reducible apply only_foldl
    | with_reducible apply only_foldl_fst
    | exact incl_trans rfl hm
    | with_reducible apply only_mk
    | exact Or.inr (hs (by decide))
    | with_reducible exact Or.inl rfl
    | with_reducible exact parts_refl
    | (with_reducible refine Or.inl ?_; and_intros <;> with_reducible rfl)
    | exact Or.inl rfl
    | with_reducible refine only_pair (by assumption) ?_
    | dsimp only
    | rw [mk_put])

theorem State.takeChain_keeps {s0 : State} {s : State} {p : PartNo} {tag link : Nat} {last : Bool} {partials : List Nat}
    (h0 : keeps s0 s) : keeps s0 (State.takeChain s p tag link last partials) := by
  unfold State.takeChain
  try dsimp only
  repeat' (first
    | with_reducible assumption
    | exact len_modify
    | exact len_map
    | exact len_mapIdx
    | with_reducible intro _
    | with_reducible apply State.chainEnd_keeps
    | with_reducible apply keeps_getD
    | with_reducible apply keeps_ite
    | with_reducible apply keeps_foldl
    | with_reducible apply keeps_foldl_fst
    | with_reducible apply keeps_mk
    | with_reducible exact id
    | with_reducible exact partsKeep_refl
    | with_reducible exact rasKeep_refl
    | with_reducible exact hbmKeep_refl
    | with_reducible exact pkgKeep_refl
    | with_reducible exact secKeep_refl
    | with_reducible exact namesKeep_refl
    | with_reducible refine keeps_pair (by assumption) ?_
    | dsimp only
    | rw [mk_put])

theorem State.barrierFrame_only {ls : List Item} {s0 : State} {s : State} {d tag count : Nat} {release : Bool}
    (h0 : changesOnly ls s0 s) (hm : incl [.pAcct, .ports, .peers, .transit, .out] ls = true) : changesOnly ls s0 (State.barrierFrame s d tag count release) := by
  unfold State.barrierFrame
  try dsimp only
  repeat' first | with_reducible assumption | with_reducible intro _ | with_reducible apply State.sendRouted_only

theorem State.barrierFrame_keeps {s0 : State} {s : State} {d tag count : Nat} {release : Bool}
    (h0 : keeps s0 s) : keeps s0 (State.barrierFrame s d tag count release) := by
  unfold State.barrierFrame
  try dsimp only
  repeat' first | with_reducible assumption | with_reducible intro _ | with_reducible apply State.sendRouted_keeps

theorem State.tryRelease_only {ls : List Item} {s0 : State} {s : State} {tag : Nat}
    (h0 : changesOnly ls s0 s) (hm : incl [.pAcct, .ports, .peers, .barriers, .transit, .out] ls = true) : changesOnly ls s0 (State.tryRelease s tag) := by
  have hs := @mem_of_incl [.pAcct, .ports, .peers, .barriers, .transit, .out] ls hm
  unfold State.tryRelease
  try dsimp only
  repeat' (first
    | with_reducible assumption
    | with_reducible intro _
    | with_reducible apply State.barrierFrame_only
    | with_reducible apply only_ite
    | with_reducible apply only_foldl
    | with_reducible apply only_foldl_fst
    | exact incl_trans rfl hm
    | with_reducible apply only_mk
    | exact Or.inr (hs (by decide))
    | with_reducible exact Or.inl rfl
    | with_reducible exact parts_refl
    | (with_reducible refine Or.inl ?_; and_intros <;> with_reducible rfl)
    | exact Or.inl rfl
    | with_reducible refine only_pair (by assumption) ?_
    | dsimp only
    | rw [mk_put]
    | split)

theorem State.tryRelease_keeps {s0 : State} {s : State} {tag : Nat}
    (h0 : keeps s0 s) : keeps s0 (State.tryRelease s tag) := by
  unfold State.tryRelease
  try dsimp only
  repeat' (first
    | with_reducible assumption
    | exact len_modify
    | exact len_map
    | exact len_mapIdx
    | with_reducible intro _
    | with_reducible apply State.barrierFrame_keeps
    | with_reducible apply keeps_ite
    | with_reducible apply keeps_foldl
    | with_reducible apply keeps_foldl_fst
    | with_reducible apply keeps_mk
    | with_reducible exact id
    | with_reducible exact partsKeep_refl
    | with_reducible exact rasKeep_refl
    | with_reducible exact hbmKeep_refl
    | with_reducible exact pkgKeep_refl
    | with_reducible exact secKeep_refl
    | with_reducible exact namesKeep_refl
    | with_reducible refine keeps_pair (by assumption) ?_
    | dsimp only
    | rw [mk_put]
    | split)

theorem State.takeArrive_only {ls : List Item} {s0 : State} {s : State} {src tag count : Nat}
    (h0 : changesOnly ls s0 s) (hm : incl [.pAcct, .ports, .peers, .barriers, .transit, .out] ls = true) : changesOnly ls s0 (State.takeArrive s src tag count) := by
  have hs := @mem_of_incl [.pAcct, .ports, .peers, .barriers, .transit, .out] ls hm
  unfold State.takeArrive
  try dsimp only
  repeat' (first
    | with_reducible assumption
    | with_reducible intro _
    | with_reducible apply State.tryRelease_only
    | with_reducible apply only_ite
    | exact incl_trans rfl hm
    | with_reducible apply only_mk
    | exact Or.inr (hs (by decide))
    | with_reducible exact Or.inl rfl
    | with_reducible exact parts_refl
    | (with_reducible refine Or.inl ?_; and_intros <;> with_reducible rfl)
    | exact Or.inl rfl
    | with_reducible refine only_pair (by assumption) ?_
    | dsimp only
    | rw [mk_put])

theorem State.takeArrive_keeps {s0 : State} {s : State} {src tag count : Nat}
    (h0 : keeps s0 s) : keeps s0 (State.takeArrive s src tag count) := by
  unfold State.takeArrive
  try dsimp only
  repeat' (first
    | with_reducible assumption
    | exact len_modify
    | exact len_map
    | exact len_mapIdx
    | with_reducible intro _
    | with_reducible apply State.tryRelease_keeps
    | with_reducible apply keeps_ite
    | with_reducible apply keeps_mk
    | with_reducible exact id
    | with_reducible exact partsKeep_refl
    | with_reducible exact rasKeep_refl
    | with_reducible exact hbmKeep_refl
    | with_reducible exact pkgKeep_refl
    | with_reducible exact secKeep_refl
    | with_reducible exact namesKeep_refl
    | with_reducible refine keeps_pair (by assumption) ?_
    | dsimp only
    | rw [mk_put])

theorem State.takeRelease_only {ls : List Item} {s0 : State} {s : State} {tag : Nat}
    (h0 : changesOnly ls s0 s) (hm : incl [.barriers] ls = true) : changesOnly ls s0 (State.takeRelease s tag) := by
  have hs := @mem_of_incl [.barriers] ls hm
  unfold State.takeRelease
  try dsimp only
  repeat' (first
    | with_reducible assumption
    | with_reducible intro _
    | with_reducible apply only_ite
    | exact incl_trans rfl hm
    | with_reducible apply only_mk
    | exact Or.inr (hs (by decide))
    | with_reducible exact Or.inl rfl
    | with_reducible exact parts_refl
    | (with_reducible refine Or.inl ?_; and_intros <;> with_reducible rfl)
    | exact Or.inl rfl
    | dsimp only
    | rw [mk_put])

theorem State.takeRelease_keeps {s0 : State} {s : State} {tag : Nat}
    (h0 : keeps s0 s) : keeps s0 (State.takeRelease s tag) := by
  unfold State.takeRelease
  try dsimp only
  repeat' (first
    | with_reducible assumption
    | exact len_modify
    | exact len_map
    | exact len_mapIdx
    | with_reducible intro _
    | with_reducible apply keeps_ite
    | with_reducible apply keeps_mk
    | with_reducible exact id
    | with_reducible exact partsKeep_refl
    | with_reducible exact rasKeep_refl
    | with_reducible exact hbmKeep_refl
    | with_reducible exact pkgKeep_refl
    | with_reducible exact secKeep_refl
    | with_reducible exact namesKeep_refl
    | dsimp only
    | rw [mk_put])

theorem State.takeLoad_only {ls : List Item} {s0 : State} {s : State} {p : PartNo} {handle member total free : Nat}
    (h0 : changesOnly ls s0 s) (hm : incl [.pColls] ls = true) : changesOnly ls s0 (State.takeLoad s p handle member total free) := by
  have hs := @mem_of_incl [.pColls] ls hm
  unfold State.takeLoad
  try dsimp only
  repeat' (first
    | with_reducible assumption
    | with_reducible intro _
    | with_reducible apply State.modTm_only
    | exact incl_trans rfl hm
    | with_reducible apply only_mk
    | exact Or.inr (hs (by decide))
    | with_reducible exact Or.inl rfl
    | with_reducible exact parts_refl
    | (with_reducible refine Or.inl ?_; and_intros <;> with_reducible rfl)
    | exact Or.inl rfl
    | with_reducible refine only_pair (by assumption) ?_
    | dsimp only
    | rw [mk_put]
    | split)

theorem State.takeLoad_keeps {s0 : State} {s : State} {p : PartNo} {handle member total free : Nat}
    (h0 : keeps s0 s) : keeps s0 (State.takeLoad s p handle member total free) := by
  unfold State.takeLoad
  try dsimp only
  repeat' (first
    | with_reducible assumption
    | with_reducible intro _
    | with_reducible apply State.modTm_keeps
    | with_reducible apply keeps_mk
    | with_reducible exact id
    | with_reducible exact partsKeep_refl
    | with_reducible exact rasKeep_refl
    | with_reducible exact hbmKeep_refl
    | with_reducible exact pkgKeep_refl
    | with_reducible exact secKeep_refl
    | with_reducible exact namesKeep_refl
    | with_reducible refine keeps_pair (by assumption) ?_
    | dsimp only
    | rw [mk_put]
    | split)

theorem State.deliverFrame_only {ls : List Item} {s0 : State} {s : State} {type : Nat} {hdr : FrameHdr} {body : FrameBody}
    (h0 : changesOnly ls s0 s) (hm : incl [.time, .rasLog, .clusters, .fns, .cmds, .nextCid, .locks, .pMem, .pScratch, .pUses, .pHolds, .pColls, .pShadows, .pAcct, .pHot, .ctxs, .streams, .ristretto, .semaphores, .poison, .hbmRun, .slm, .ports, .peers, .barriers, .transit, .power, .out, .fresh] ls = true) : changesOnly ls s0 (State.deliverFrame s type hdr body) := by
  have hs := @mem_of_incl [.time, .rasLog, .clusters, .fns, .cmds, .nextCid, .locks, .pMem, .pScratch, .pUses, .pHolds, .pColls, .pShadows, .pAcct, .pHot, .ctxs, .streams, .ristretto, .semaphores, .poison, .hbmRun, .slm, .ports, .peers, .barriers, .transit, .power, .out, .fresh] ls hm
  unfold State.deliverFrame
  try dsimp only
  repeat' (first
    | with_reducible assumption
    | with_reducible intro _
    | with_reducible apply State.takeReadReq_only
    | with_reducible apply State.wake_only
    | with_reducible apply State.takeRelease_only
    | with_reducible apply State.takeCmd_only
    | with_reducible apply State.takeChain_only
    | with_reducible apply State.takeArrive_only
    | with_reducible apply State.sendRouted_only
    | with_reducible apply State.takeData_only
    | with_reducible apply State.takeLoad_only
    | with_reducible apply State.takeResultFrame_only
    | with_reducible apply only_ite
    | exact incl_trans rfl hm
    | with_reducible exact part_refl
    | with_reducible apply part_ite
    | with_reducible apply only_modPart
    | with_reducible apply part_mk
    | with_reducible apply only_mk
    | exact Or.inr (hs (by decide))
    | with_reducible exact Or.inl rfl
    | with_reducible exact parts_refl
    | (with_reducible refine Or.inl ?_; and_intros <;> with_reducible rfl)
    | exact Or.inl rfl
    | with_reducible refine only_pair (by assumption) ?_
    | dsimp only
    | rw [mk_put]
    | split)

theorem State.deliverFrame_keeps {s0 : State} {s : State} {type : Nat} {hdr : FrameHdr} {body : FrameBody}
    (h0 : keeps s0 s) : keeps s0 (State.deliverFrame s type hdr body) := by
  unfold State.deliverFrame
  try dsimp only
  repeat' (first
    | with_reducible assumption
    | with_reducible intro _
    | with_reducible apply State.takeReadReq_keeps
    | with_reducible apply State.wake_keeps
    | with_reducible apply State.takeRelease_keeps
    | with_reducible apply State.takeCmd_keeps
    | with_reducible apply State.takeChain_keeps
    | with_reducible apply State.takeArrive_keeps
    | with_reducible apply State.sendRouted_keeps
    | with_reducible apply State.takeData_keeps
    | with_reducible apply State.takeLoad_keeps
    | with_reducible apply State.takeResultFrame_keeps
    | with_reducible apply keeps_ite
    | with_reducible exact pKeeps_refl
    | exact pKeeps_new rfl rfl
    | with_reducible apply pKeeps_ite
    | with_reducible apply keeps_modPart
    | with_reducible apply pKeeps_mk
    | with_reducible exact memKeeps_refl
    | with_reducible apply keeps_mk
    | with_reducible exact id
    | with_reducible exact partsKeep_refl
    | with_reducible exact rasKeep_refl
    | with_reducible exact hbmKeep_refl
    | with_reducible exact pkgKeep_refl
    | with_reducible exact secKeep_refl
    | with_reducible exact namesKeep_refl
    | with_reducible refine keeps_pair (by assumption) ?_
    | dsimp only
    | rw [mk_put]
    | split)

theorem State.deliverEarly_only {ls : List Item} {s0 : State} {src n : Nat} {s : State} (h0 : changesOnly ls s0 s)
    (hm : incl [.time, .rasLog, .clusters, .fns, .cmds, .nextCid, .locks, .pMem, .pScratch, .pUses, .pHolds, .pColls, .pShadows, .pAcct, .pHot, .ctxs, .streams, .ristretto, .semaphores, .poison, .hbmRun, .slm, .ports, .peers, .barriers, .transit, .power, .out, .fresh] ls = true) : changesOnly ls s0 (State.deliverEarly src n s) := by
  induction n generalizing s with
  | zero => exact h0
  | succ n ih =>
    unfold State.deliverEarly
    dsimp only
    split
    · exact h0
    · exact ih (State.deliverFrame_only (State.modPeer_only h0 (incl_trans rfl hm)) (incl_trans rfl hm))

theorem State.deliverEarly_keeps {s0 : State} {src n : Nat} {s : State} (h0 : keeps s0 s)
    : keeps s0 (State.deliverEarly src n s) := by
  induction n generalizing s with
  | zero => exact h0
  | succ n ih =>
    unfold State.deliverEarly
    dsimp only
    split
    · exact h0
    · exact ih (State.deliverFrame_keeps (State.modPeer_keeps h0))

theorem State.inOrder_only {ls : List Item} {s0 : State} {s : State} {port type : Nat} {hdr : FrameHdr} {body : FrameBody}
    (h0 : changesOnly ls s0 s) (hm : incl [.time, .rasLog, .clusters, .fns, .cmds, .nextCid, .locks, .pMem, .pScratch, .pUses, .pHolds, .pColls, .pShadows, .pAcct, .pHot, .ctxs, .streams, .ristretto, .semaphores, .poison, .hbmRun, .slm, .ports, .peers, .barriers, .transit, .power, .out, .fresh] ls = true) : changesOnly ls s0 (State.inOrder s port type hdr body) := by
  unfold State.inOrder
  try dsimp only
  repeat' (first
    | with_reducible assumption
    | with_reducible intro _
    | with_reducible apply State.deliverFrame_only
    | with_reducible apply State.modPeer_only
    | with_reducible apply State.sendRouted_only
    | with_reducible apply State.deliverEarly_only
    | with_reducible apply only_ite
    | exact incl_trans rfl hm)

theorem State.inOrder_keeps {s0 : State} {s : State} {port type : Nat} {hdr : FrameHdr} {body : FrameBody}
    (h0 : keeps s0 s) : keeps s0 (State.inOrder s port type hdr body) := by
  unfold State.inOrder
  try dsimp only
  repeat' (first
    | with_reducible assumption
    | with_reducible intro _
    | with_reducible apply State.deliverFrame_keeps
    | with_reducible apply State.modPeer_keeps
    | with_reducible apply State.sendRouted_keeps
    | with_reducible apply State.deliverEarly_keeps
    | with_reducible apply keeps_ite)

theorem State.inEpoch_only {ls : List Item} {s0 : State} {s : State} {port type : Nat} {hdr : FrameHdr} {body : FrameBody}
    (h0 : changesOnly ls s0 s) (hm : incl [.time, .rasLog, .clusters, .fns, .cmds, .nextCid, .locks, .pMem, .pScratch, .pUses, .pHolds, .pColls, .pShadows, .pAcct, .pHot, .ctxs, .streams, .ristretto, .semaphores, .poison, .hbmRun, .slm, .ports, .peers, .barriers, .transit, .power, .out, .fresh] ls = true) : changesOnly ls s0 (State.inEpoch s port type hdr body) := by
  unfold State.inEpoch
  try dsimp only
  repeat' (first
    | with_reducible assumption
    | with_reducible intro _
    | with_reducible apply State.modPeer_only
    | with_reducible apply State.inOrder_only
    | with_reducible apply only_ite
    | exact incl_trans rfl hm)

theorem State.inEpoch_keeps {s0 : State} {s : State} {port type : Nat} {hdr : FrameHdr} {body : FrameBody}
    (h0 : keeps s0 s) : keeps s0 (State.inEpoch s port type hdr body) := by
  unfold State.inEpoch
  try dsimp only
  repeat' (first
    | with_reducible assumption
    | with_reducible intro _
    | with_reducible apply State.modPeer_keeps
    | with_reducible apply State.inOrder_keeps
    | with_reducible apply keeps_ite)

theorem State.forward_only {ls : List Item} {s0 : State} {s : State} {type : Nat} {hdr : FrameHdr} {body : FrameBody}
    (h0 : changesOnly ls s0 s) (hm : incl [.pAcct, .meshCount, .ports, .peers, .transit, .out] ls = true) : changesOnly ls s0 (State.forward s type hdr body) := by
  have hs := @mem_of_incl [.pAcct, .meshCount, .ports, .peers, .transit, .out] ls hm
  unfold State.forward
  try dsimp only
  repeat' (first
    | with_reducible assumption
    | with_reducible intro _
    | with_reducible apply State.refuse_only
    | with_reducible apply State.trySend_only
    | with_reducible apply only_ite
    | exact incl_trans rfl hm
    | with_reducible apply only_mk
    | exact Or.inr (hs (by decide))
    | with_reducible exact Or.inl rfl
    | with_reducible exact parts_refl
    | (with_reducible refine Or.inl ?_; and_intros <;> with_reducible rfl)
    | exact Or.inl rfl
    | with_reducible refine only_pair (by assumption) ?_
    | dsimp only
    | rw [mk_put])

theorem State.forward_keeps {s0 : State} {s : State} {type : Nat} {hdr : FrameHdr} {body : FrameBody}
    (h0 : keeps s0 s) : keeps s0 (State.forward s type hdr body) := by
  unfold State.forward
  try dsimp only
  repeat' (first
    | with_reducible assumption
    | exact len_modify
    | exact len_map
    | exact len_mapIdx
    | with_reducible intro _
    | with_reducible apply State.refuse_keeps
    | with_reducible apply State.trySend_keeps
    | with_reducible apply keeps_ite
    | with_reducible apply keeps_mk
    | with_reducible exact id
    | with_reducible exact partsKeep_refl
    | with_reducible exact rasKeep_refl
    | with_reducible exact hbmKeep_refl
    | with_reducible exact pkgKeep_refl
    | with_reducible exact secKeep_refl
    | with_reducible exact namesKeep_refl
    | with_reducible refine keeps_pair (by assumption) ?_
    | dsimp only
    | rw [mk_put])

theorem State.receive_only {ls : List Item} {s0 : State} {s : State} {port type : Nat} {hdr : FrameHdr} {body : FrameBody}
    (h0 : changesOnly ls s0 s) (hm : incl [.time, .rasLog, .clusters, .fns, .cmds, .nextCid, .locks, .pMem, .pScratch, .pUses, .pHolds, .pColls, .pShadows, .pAcct, .pHot, .ctxs, .streams, .ristretto, .semaphores, .poison, .hbmRun, .slm, .meshCount, .ports, .peers, .barriers, .transit, .power, .out, .fresh] ls = true) : changesOnly ls s0 (State.receive s port type hdr body) := by
  unfold State.receive
  try dsimp only
  repeat' (first
    | with_reducible assumption
    | with_reducible intro _
    | with_reducible apply State.settled_only
    | with_reducible apply State.forward_only
    | with_reducible apply State.inEpoch_only
    | with_reducible apply only_ite
    | exact incl_trans rfl hm)

theorem State.receive_keeps {s0 : State} {s : State} {port type : Nat} {hdr : FrameHdr} {body : FrameBody}
    (h0 : keeps s0 s) : keeps s0 (State.receive s port type hdr body) := by
  unfold State.receive
  try dsimp only
  repeat' (first
    | with_reducible assumption
    | with_reducible intro _
    | with_reducible apply State.settled_keeps
    | with_reducible apply State.forward_keeps
    | with_reducible apply State.inEpoch_keeps
    | with_reducible apply keeps_ite)

end Sys2Proof.Machine
end

