-- ==== Sys2Proof/Laws/HostIf.lean ====
section
/-! SUPPORT. What each operation of Machine/HostIf.lean may change: its frame, and that it
keeps the invariant and the fuses. -/

namespace Sys2Proof.Machine

open Sys2Proof.Safety Sys2Proof.Laws

theorem State.setEventMask_only {ls : List Item} {s0 : State} {s : State} {fn : Fn} {v : Word32}
    (h0 : changesOnly ls s0 s) (hm : incl [.fns, .out] ls = true) : changesOnly ls s0 (State.setEventMask s fn v) := by
  unfold State.setEventMask
  try dsimp only
  repeat' (first
    | with_reducible assumption
    | with_reducible intro _
    | with_reducible apply State.modFn_only
    | with_reducible apply State.msix_only
    | with_reducible apply only_ite
    | exact incl_trans rfl hm)

theorem State.setEventMask_keeps {s0 : State} {s : State} {fn : Fn} {v : Word32}
    (h0 : keeps s0 s) : keeps s0 (State.setEventMask s fn v) := by
  unfold State.setEventMask
  try dsimp only
  repeat' (first
    | with_reducible assumption
    | with_reducible intro _
    | with_reducible apply State.modFn_keeps
    | with_reducible apply State.msix_keeps
    | with_reducible apply keeps_ite)

theorem State.sendPending_only {ls : List Item} {s0 : State} {s : State} {fn : Fn}
    (h0 : changesOnly ls s0 s) (hm : incl [.fns, .out] ls = true) : changesOnly ls s0 (State.sendPending s fn) := by
  unfold State.sendPending
  try dsimp only
  repeat' (first
    | with_reducible assumption
    | with_reducible intro _
    | with_reducible apply State.modFn_only
    | with_reducible apply State.emits_only
    | with_reducible apply only_ite
    | exact incl_trans rfl hm)

theorem State.sendPending_keeps {s0 : State} {s : State} {fn : Fn}
    (h0 : keeps s0 s) : keeps s0 (State.sendPending s fn) := by
  unfold State.sendPending
  try dsimp only
  repeat' (first
    | with_reducible assumption
    | with_reducible intro _
    | with_reducible apply State.modFn_keeps
    | with_reducible apply State.emits_keeps)

theorem State.frozenChanged_only {ls : List Item} {s0 : State} {s : State} {fn : Fn} (h0 : changesOnly ls s0 s)
    (hm : incl [.rasLog, .fns, .cmds, .locks, .pMem, .pKey, .pColls, .pAcct, .ctxs, .streams, .ristretto, .semaphores, .poison, .slm, .ports, .peers, .transit, .out, .fresh] ls = true) : changesOnly ls s0 (State.frozenChanged s fn) := by
  unfold State.frozenChanged
  repeat' (first
    | with_reducible assumption
    | with_reducible intro _
    | with_reducible apply State.tdiError_only
    | with_reducible apply only_foldl
    | exact incl_trans rfl hm
    | split)

theorem State.frozenChanged_keeps {s0 : State} {s : State} {fn : Fn} (h0 : keeps s0 s)
    : keeps s0 (State.frozenChanged s fn) := by
  unfold State.frozenChanged
  repeat' (first
    | with_reducible assumption
    | with_reducible intro _
    | with_reducible apply State.tdiError_keeps
    | with_reducible apply keeps_foldl
    | exact incl_trans rfl
    | split)

theorem execMsixUnmask_only {ls : List Item} {s0 : State} {fn : Fn} {vector : Option Nat} {s : State}
    (h0 : changesOnly ls s0 s) (hm : incl [.rasLog, .fns, .cmds, .locks, .pMem, .pKey, .pColls, .pAcct, .ctxs, .streams, .ristretto, .semaphores, .poison, .slm, .ports, .peers, .transit, .out, .fresh] ls = true) {d : State} : changesOnly ls s0 (after d (execMsixUnmask fn vector s)) := by
  have hs := @mem_of_incl [.rasLog, .fns, .cmds, .locks, .pMem, .pKey, .pColls, .pAcct, .ctxs, .streams, .ristretto, .semaphores, .poison, .slm, .ports, .peers, .transit, .out, .fresh] ls hm
  unfold execMsixUnmask
  unfold after
  try dsimp only
  repeat' (first
    | with_reducible assumption
    | with_reducible intro _
    | with_reducible apply State.modFn_only
    | with_reducible apply State.sendPending_only
    | with_reducible apply State.frozenChanged_only
    | with_reducible apply only_ite
    | exact incl_trans rfl hm
    | with_reducible apply only_mk
    | exact Or.inr (hs (by decide))
    | with_reducible exact Or.inl rfl
    | with_reducible exact parts_refl
    | (with_reducible refine Or.inl ?_; and_intros <;> with_reducible rfl)
    | exact Or.inl rfl
    | with_reducible refine only_pair (by assumption) ?_
    | dsimp only
    | rw [mk_put]
    | split)

theorem execMsixUnmask_keeps {s0 : State} {fn : Fn} {vector : Option Nat} {s : State} {d : State}
    (h0 : keeps s0 s) : keeps s0 (after d (execMsixUnmask fn vector s)) := by
  unfold execMsixUnmask
  unfold after
  try dsimp only
  repeat' (first
    | with_reducible assumption
    | with_reducible intro _
    | with_reducible apply State.modFn_keeps
    | with_reducible apply State.sendPending_keeps
    | with_reducible apply State.frozenChanged_keeps
    | with_reducible apply keeps_ite
    | with_reducible apply keeps_mk
    | with_reducible exact id
    | with_reducible exact partsKeep_refl
    | with_reducible exact rasKeep_refl
    | with_reducible exact hbmKeep_refl
    | with_reducible exact pkgKeep_refl
    | with_reducible exact secKeep_refl
    | with_reducible exact namesKeep_refl
    | with_reducible refine keeps_pair (by assumption) ?_
    | dsimp only
    | rw [mk_put]
    | split)

theorem State.cfgEffect_only {ls : List Item} {s0 : State} {s : State} {fn : Fn} {off : Nat} {v : Word32}
    (h0 : changesOnly ls s0 s) (hm : incl [.fns, .out] ls = true) : changesOnly ls s0 (State.cfgEffect s fn off v) := by
  unfold State.cfgEffect
  try dsimp only
  repeat' (first
    | with_reducible assumption
    | with_reducible intro _
    | with_reducible apply State.modFn_only
    | with_reducible apply State.sendPending_only
    | with_reducible apply only_ite
    | with_reducible apply only_foldl
    | with_reducible apply only_foldl_fst
    | exact incl_trans rfl hm)

theorem State.cfgEffect_keeps {s0 : State} {s : State} {fn : Fn} {off : Nat} {v : Word32}
    (h0 : keeps s0 s) : keeps s0 (State.cfgEffect s fn off v) := by
  unfold State.cfgEffect
  try dsimp only
  repeat' (first
    | with_reducible assumption
    | with_reducible intro _
    | with_reducible apply State.modFn_keeps
    | with_reducible apply State.sendPending_keeps
    | with_reducible apply keeps_ite
    | with_reducible apply keeps_foldl)

end Sys2Proof.Machine
end

