-- ==== Sys2Proof/Laws/Image.lean ====
section
/-! SUPPORT. What each operation of Machine/Image.lean may change: its frame, and that it
keeps the invariant and the fuses. -/

namespace Sys2Proof.Machine

open Sys2Proof.Safety Sys2Proof.Laws

theorem State.placeRecord_only {ls : List Item} {s0 : State} {s : State} {p : PartNo} {k : Coll} {seed : Nat} {i : Inner} {n : Nat}
    (h0 : changesOnly ls s0 s) (hm : incl [.rasLog, .fns, .cmds, .pMem, .pColls, .poison, .slm, .out, .fresh] ls = true) : changesOnly ls s0 (State.placeRecord s p k seed i n).1 := by
  unfold State.placeRecord
  try dsimp only
  repeat' (first
    | with_reducible assumption
    | with_reducible intro _
    | with_reducible apply State.postAdd_only
    | with_reducible apply State.wrMem_only
    | with_reducible apply State.idSet_only
    | with_reducible apply only_ite
    | with_reducible apply only_ite_fst
    | exact incl_trans rfl hm)

theorem State.placeRecord_keeps {s0 : State} {s : State} {p : PartNo} {k : Coll} {seed : Nat} {i : Inner} {n : Nat}
    (h0 : keeps s0 s) : keeps s0 (State.placeRecord s p k seed i n).1 := by
  unfold State.placeRecord
  try dsimp only
  repeat' (first
    | with_reducible assumption
    | with_reducible intro _
    | with_reducible apply State.postAdd_keeps
    | with_reducible apply State.wrMem_keeps
    | with_reducible apply State.idSet_keeps
    | with_reducible apply keeps_ite)

theorem State.fillImage_only {ls : List Item} {s0 : State} {s : State} {p : PartNo} {k : Coll} {i : Inner}
    (h0 : changesOnly ls s0 s) (hm : incl [.rasLog, .fns, .cmds, .pMem, .pColls, .poison, .slm, .out, .fresh] ls = true) : changesOnly ls s0 (State.fillImage s p k i).1 := by
  have hs := @mem_of_incl [.rasLog, .fns, .cmds, .pMem, .pColls, .poison, .slm, .out, .fresh] ls hm
  unfold State.fillImage
  try dsimp only
  repeat' (first
    | with_reducible assumption
    | with_reducible intro _
    | with_reducible apply State.bump_only
    | with_reducible apply State.placeRecord_only
    | with_reducible apply State.wrMem_only
    | with_reducible apply State.fillColl_only
    | with_reducible apply only_ite
    | with_reducible apply only_ite_fst
    | with_reducible apply only_foldl
    | with_reducible apply only_foldl_fst
    | exact incl_trans rfl hm
    | with_reducible exact part_refl
    | with_reducible apply part_ite
    | with_reducible apply part_foldl
    | with_reducible apply only_modPart
    | with_reducible apply part_mk
    | with_reducible apply only_mk
    | exact Or.inr (hs (by decide))
    | with_reducible exact Or.inl rfl
    | with_reducible exact parts_refl
    | (with_reducible refine Or.inl ?_; and_intros <;> with_reducible rfl))

theorem State.fillImage_keeps {s0 : State} {s : State} {p : PartNo} {k : Coll} {i : Inner}
    (h0 : keeps s0 s) : keeps s0 (State.fillImage s p k i).1 := by
  unfold State.fillImage
  try dsimp only
  repeat' (first
    | with_reducible assumption
    | with_reducible intro _
    | with_reducible apply State.bump_keeps
    | with_reducible apply State.placeRecord_keeps
    | with_reducible apply State.wrMem_keeps
    | with_reducible apply State.fillColl_keeps
    | with_reducible apply keeps_ite
    | with_reducible apply keeps_ite_fst
    | with_reducible apply keeps_foldl
    | with_reducible apply keeps_foldl_fst
    | with_reducible exact pKeeps_refl
    | exact pKeeps_new rfl rfl
    | with_reducible apply pKeeps_ite
    | with_reducible apply pKeeps_foldl
    | with_reducible apply keeps_modPart
    | with_reducible apply pKeeps_mk
    | with_reducible exact memKeeps_refl)

end Sys2Proof.Machine
end

