-- ==== Sys2Proof/Laws/Security.lean ====
section
/-! SUPPORT. What each operation of Machine/Security.lean may change: its frame, and that it
keeps the invariant and the fuses. -/

namespace Sys2Proof.Machine

open Sys2Proof.Safety Sys2Proof.Laws

theorem State.sessionStep_only {ls : List Item} {s0 : State} {s : State} {mctp : Bool} {msg : Bytes}
    (h0 : changesOnly ls s0 s) (hm : incl [.fw] ls = true) : changesOnly ls s0 (State.sessionStep s mctp msg) := by
  have hs := @mem_of_incl [.fw] ls hm
  unfold State.sessionStep
  try dsimp only
  repeat' (first
    | with_reducible assumption
    | with_reducible intro _
    | with_reducible apply only_ite
    | exact incl_trans rfl hm
    | with_reducible apply only_mk
    | exact Or.inr (hs (by decide))
    | with_reducible exact Or.inl rfl
    | with_reducible exact parts_refl
    | (with_reducible refine Or.inl ?_; and_intros <;> with_reducible rfl)
    | exact Or.inl rfl
    | with_reducible refine only_pair (by assumption) ?_
    | dsimp only
    | rw [mk_put])

theorem State.sessionStep_keeps {s0 : State} {s : State} {mctp : Bool} {msg : Bytes}
    (h0 : keeps s0 s) : keeps s0 (State.sessionStep s mctp msg) := by
  unfold State.sessionStep
  try dsimp only
  repeat' (first
    | with_reducible assumption
    | with_reducible intro _
    | with_reducible apply keeps_ite
    | with_reducible apply keeps_mk
    | with_reducible exact id
    | with_reducible exact partsKeep_refl
    | with_reducible exact rasKeep_refl
    | with_reducible exact hbmKeep_refl
    | with_reducible exact pkgKeep_refl
    | with_reducible exact secKeep_refl
    | with_reducible exact namesKeep_refl
    | with_reducible refine keeps_pair (by assumption) ?_
    | dsimp only
    | rw [mk_put])

theorem State.secReply_only {ls : List Item} {s0 : State} {s : State} {c : Cmd} {b : Bytes}
    (h0 : changesOnly ls s0 s) (hm : incl [.cmds, .locks, .ctxs, .streams, .ristretto, .semaphores, .out] ls = true) : changesOnly ls s0 (State.secReply s c b) := by
  unfold State.secReply
  try dsimp only
  repeat' (first
    | with_reducible assumption
    | with_reducible intro _
    | with_reducible apply State.finish_only
    | with_reducible apply State.writeOut_only
    | with_reducible apply State.fail_only
    | with_reducible apply only_ite
    | exact incl_trans rfl hm)

theorem State.secReply_keeps {s0 : State} {s : State} {c : Cmd} {b : Bytes}
    (h0 : keeps s0 s) : keeps s0 (State.secReply s c b) := by
  unfold State.secReply
  try dsimp only
  repeat' (first
    | with_reducible assumption
    | with_reducible intro _
    | with_reducible apply State.finish_keeps
    | with_reducible apply State.writeOut_keeps
    | with_reducible apply State.fail_keeps
    | with_reducible apply keeps_ite)

theorem State.enforcePolicy_only {ls : List Item} {s0 : State} {s : State}
    (h0 : changesOnly ls s0 s) (hm : incl [.time, .rasLog, .hif, .fns, .cmds, .locks, .pMem, .pColls, .pShadows, .pAcct, .ctxs, .streams, .ristretto, .semaphores, .poison, .slm, .ports, .peers, .meshRef, .transit, .out, .fresh] ls = true) : changesOnly ls s0 (State.enforcePolicy s) := by
  unfold State.enforcePolicy
  try dsimp only
  repeat' (first
    | with_reducible assumption
    | with_reducible intro _
    | with_reducible apply State.logSecurity_only
    | with_reducible apply State.movePort_only
    | with_reducible apply only_foldl
    | with_reducible apply only_foldl_fst
    | exact incl_trans rfl hm)

theorem State.enforcePolicy_keeps {s0 : State} {s : State}
    (h0 : keeps s0 s) : keeps s0 (State.enforcePolicy s) := by
  unfold State.enforcePolicy
  try dsimp only
  repeat' (first
    | with_reducible assumption
    | with_reducible intro _
    | with_reducible apply State.logSecurity_keeps
    | with_reducible apply State.movePort_keeps
    | with_reducible apply keeps_foldl)

theorem State.modFuses_only {ls : List Item} {s0 : State} {s : State} {f : Fuses → Fuses}
    (h0 : changesOnly ls s0 s) (hm : incl [.fuses] ls = true) : changesOnly ls s0 (State.modFuses s f) := by
  have hs := @mem_of_incl [.fuses] ls hm
  unfold State.modFuses
  try dsimp only
  repeat' (first
    | with_reducible assumption
    | with_reducible intro _
    | exact incl_trans rfl hm
    | with_reducible apply only_mk
    | exact Or.inr (hs (by decide))
    | with_reducible exact Or.inl rfl
    | with_reducible exact parts_refl
    | (with_reducible refine Or.inl ?_; and_intros <;> with_reducible rfl)
    | exact Or.inl rfl
    | dsimp only
    | rw [mk_put])

theorem State.modFuses_keeps {s0 : State} {s : State} {f : Fuses → Fuses} (h0 : keeps s0 s)
    (hf : ∀ x, fusesKept x (f x)) (hr : ∀ x, (f x).repair = x.repair) (hd : ∀ x, (f x).debugClosed = x.debugClosed) :
    keeps s0 (s.modFuses f) := by
  unfold State.modFuses
  rw [mk_put]
  refine keeps_mk id partsKeep_refl rasKeep_refl hbmKeep_refl id pkgKeep_refl ⟨hf _, fun k => ?_⟩ namesKeep_refl h0
  unfold secOk
  dsimp only
  rw [hr, hd]
  exact k

theorem State.blown_only {ls : List Item} {s0 : State} {s : State} {which : Nat}
    (h0 : changesOnly ls s0 s) (hm : incl [.rasLog, .fns, .out] ls = true) : changesOnly ls s0 (State.blown s which) := by
  unfold State.blown
  try dsimp only
  repeat' first | with_reducible assumption | with_reducible intro _ | with_reducible apply State.logSecurity_only

theorem State.blown_keeps {s0 : State} {s : State} {which : Nat}
    (h0 : keeps s0 s) : keeps s0 (State.blown s which) := by
  unfold State.blown
  try dsimp only
  repeat' first | with_reducible assumption | with_reducible intro _ | with_reducible apply State.logSecurity_keeps

theorem State.settleDebug_only {ls : List Item} {s0 : State} {s : State}
    (h0 : changesOnly ls s0 s) (hm : incl [.pkg, .fw, .debug, .rasLog, .cores, .clusters, .rasCounts, .hif, .fns, .pairs, .cmds, .locks, .pConfig, .pMem, .pKey, .pColls, .pAcct, .pSched, .ctxs, .streams, .ristretto, .semaphores, .channels, .poison, .hbmRun, .slm, .ports, .peers, .barriers, .transit, .power, .tests, .out, .fresh] ls = true) : changesOnly ls s0 (State.settleDebug s) := by
  have hs := @mem_of_incl [.pkg, .fw, .debug, .rasLog, .cores, .clusters, .rasCounts, .hif, .fns, .pairs, .cmds, .locks, .pConfig, .pMem, .pKey, .pColls, .pAcct, .pSched, .ctxs, .streams, .ristretto, .semaphores, .channels, .poison, .hbmRun, .slm, .ports, .peers, .barriers, .transit, .power, .tests, .out, .fresh] ls hm
  unfold State.settleDebug
  try dsimp only
  repeat' (first
    | with_reducible assumption
    | with_reducible intro _
    | with_reducible apply State.openDebug_only
    | with_reducible apply State.startRestart_only
    | with_reducible apply only_ite
    | exact incl_trans rfl hm
    | with_reducible apply only_mk
    | exact Or.inr (hs (by decide))
    | with_reducible exact Or.inl rfl
    | with_reducible exact parts_refl
    | (with_reducible refine Or.inl ?_; and_intros <;> with_reducible rfl)
    | exact Or.inl rfl
    | with_reducible refine only_pair (by assumption) ?_
    | dsimp only
    | rw [mk_put]
    | split)

theorem State.settleDebug_keeps {s0 : State} {s : State}
    (h0 : keeps s0 s) : keeps s0 (State.settleDebug s) := by
  unfold State.settleDebug
  try dsimp only
  repeat' (first
    | with_reducible assumption
    | with_reducible intro _
    | with_reducible apply State.openDebug_keeps
    | with_reducible apply State.startRestart_keeps
    | with_reducible apply keeps_ite
    | with_reducible apply keeps_mk
    | with_reducible exact id
    | with_reducible exact partsKeep_refl
    | with_reducible exact rasKeep_refl
    | with_reducible exact hbmKeep_refl
    | with_reducible exact pkgKeep_refl
    | with_reducible exact secKeep_refl
    | with_reducible exact namesKeep_refl
    | with_reducible refine keeps_pair (by assumption) ?_
    | dsimp only
    | rw [mk_put]
    | split)

end Sys2Proof.Machine
end

