-- ==== Sys2Proof/Laws/Mgmt.lean ====
section
/-! SUPPORT. What each operation of Machine/Mgmt.lean may change: its frame, and that it
keeps the invariant and the fuses. -/

namespace Sys2Proof.Machine

open Sys2Proof.Safety Sys2Proof.Laws

theorem State.pldmAnswer_only {ls : List Item} {s0 : State} {s : State} {type : Nat} {sensor : Option Nat}
    (h0 : changesOnly ls s0 s) (hm : incl [.fw, .fresh] ls = true) : changesOnly ls s0 (State.pldmAnswer s type sensor).1 := by
  have hs := @mem_of_incl [.fw, .fresh] ls hm
  unfold State.pldmAnswer
  try dsimp only
  repeat' (first
    | with_reducible assumption
    | with_reducible intro _
    | with_reducible apply State.bump_only
    | with_reducible apply only_ite
    | with_reducible apply only_ite_fst
    | exact incl_trans rfl hm
    | with_reducible apply only_mk
    | exact Or.inr (hs (by decide))
    | with_reducible exact Or.inl rfl
    | with_reducible exact parts_refl
    | (with_reducible refine Or.inl ?_; and_intros <;> with_reducible rfl)
    | exact Or.inl rfl
    | with_reducible refine only_pair (by assumption) ?_
    | dsimp only
    | rw [mk_put]
    | split)

theorem State.pldmAnswer_keeps {s0 : State} {s : State} {type : Nat} {sensor : Option Nat}
    (h0 : keeps s0 s) : keeps s0 (State.pldmAnswer s type sensor).1 := by
  unfold State.pldmAnswer
  try dsimp only
  repeat' (first
    | with_reducible assumption
    | with_reducible intro _
    | with_reducible apply State.bump_keeps
    | with_reducible apply keeps_ite
    | with_reducible apply keeps_ite_fst
    | with_reducible apply keeps_mk
    | with_reducible exact id
    | with_reducible exact partsKeep_refl
    | with_reducible exact rasKeep_refl
    | with_reducible exact hbmKeep_refl
    | with_reducible exact pkgKeep_refl
    | with_reducible exact secKeep_refl
    | with_reducible exact namesKeep_refl
    | with_reducible refine keeps_pair (by assumption) ?_
    | dsimp only
    | rw [mk_put]
    | split)

theorem State.mbAnswer_only {ls : List Item} {s0 : State} {s : State} {status : Nat} {b : Bytes}
    (h0 : changesOnly ls s0 s) (hm : incl [.fw] ls = true) : changesOnly ls s0 (State.mbAnswer s status b) := by
  have hs := @mem_of_incl [.fw] ls hm
  unfold State.mbAnswer
  try dsimp only
  repeat' (first
    | with_reducible assumption
    | with_reducible intro _
    | exact incl_trans rfl hm
    | with_reducible apply only_mk
    | exact Or.inr (hs (by decide))
    | with_reducible exact Or.inl rfl
    | with_reducible exact parts_refl
    | (with_reducible refine Or.inl ?_; and_intros <;> with_reducible rfl)
    | exact Or.inl rfl
    | dsimp only
    | rw [mk_put])

theorem State.mbAnswer_keeps {s0 : State} {s : State} {status : Nat} {b : Bytes}
    (h0 : keeps s0 s) : keeps s0 (State.mbAnswer s status b) := by
  unfold State.mbAnswer
  try dsimp only
  repeat' (first
    | with_reducible assumption
    | with_reducible intro _
    | with_reducible apply keeps_mk
    | with_reducible exact id
    | with_reducible exact partsKeep_refl
    | with_reducible exact rasKeep_refl
    | with_reducible exact hbmKeep_refl
    | with_reducible exact pkgKeep_refl
    | with_reducible exact secKeep_refl
    | with_reducible exact namesKeep_refl
    | dsimp only
    | rw [mk_put])

theorem execMctpMessage_only {ls : List Item} {s0 : State} {value : Word32} {s : State}
    (h0 : changesOnly ls s0 s) (hm : incl [.fw, .fresh] ls = true) {d : State} : changesOnly ls s0 (after d (execMctpMessage value s)) := by
  unfold execMctpMessage
  unfold after
  try dsimp only
  repeat' (first
    | with_reducible assumption
    | with_reducible intro _
    | with_reducible apply State.bump_only
    | with_reducible apply State.mbAnswer_only
    | with_reducible apply State.sessionStep_only
    | with_reducible apply only_ite
    | exact incl_trans rfl hm)

theorem execMctpMessage_keeps {s0 : State} {value : Word32} {s : State} {d : State}
    (h0 : keeps s0 s) : keeps s0 (after d (execMctpMessage value s)) := by
  unfold execMctpMessage
  unfold after
  try dsimp only
  repeat' (first
    | with_reducible assumption
    | with_reducible intro _
    | with_reducible apply State.bump_keeps
    | with_reducible apply State.mbAnswer_keeps
    | with_reducible apply State.sessionStep_keeps
    | with_reducible apply keeps_ite)

theorem execRecoveryWrite_only {ls : List Item} {s0 : State} {value : Word32} {s : State}
    (h0 : changesOnly ls s0 s) (hm : incl [.fw] ls = true) {d : State} : changesOnly ls s0 (after d (execRecoveryWrite value s)) := by
  have hs := @mem_of_incl [.fw] ls hm
  unfold execRecoveryWrite
  unfold after
  try dsimp only
  repeat' (first
    | with_reducible assumption
    | with_reducible intro _
    | with_reducible apply State.mbAnswer_only
    | with_reducible apply only_ite
    | exact incl_trans rfl hm
    | with_reducible apply only_mk
    | exact Or.inr (hs (by decide))
    | with_reducible exact Or.inl rfl
    | with_reducible exact parts_refl
    | (with_reducible refine Or.inl ?_; and_intros <;> with_reducible rfl)
    | exact Or.inl rfl
    | dsimp only
    | rw [mk_put])

theorem execRecoveryWrite_keeps {s0 : State} {value : Word32} {s : State} {d : State}
    (h0 : keeps s0 s) : keeps s0 (after d (execRecoveryWrite value s)) := by
  unfold execRecoveryWrite
  unfold after
  try dsimp only
  repeat' (first
    | with_reducible assumption
    | with_reducible intro _
    | with_reducible apply State.mbAnswer_keeps
    | with_reducible apply keeps_ite
    | with_reducible apply keeps_mk
    | with_reducible exact id
    | with_reducible exact partsKeep_refl
    | with_reducible exact rasKeep_refl
    | with_reducible exact hbmKeep_refl
    | with_reducible exact pkgKeep_refl
    | with_reducible exact secKeep_refl
    | with_reducible exact namesKeep_refl
    | dsimp only
    | rw [mk_put])

theorem execRecoveryFinish_only {ls : List Item} {s0 : State} {value : Word32} {flashOk : Bool} {s : State}
    (h0 : changesOnly ls s0 s) (hm : incl [.time, .pkg, .fw, .debug, .policy, .ide, .rasLog, .cores, .clusters, .rasCounts, .hif, .fns, .pairs, .cmds, .locks, .pConfig, .pMode, .pFeats, .pMem, .pScratch, .pUses, .pHolds, .pKey, .pColls, .pJournal, .pDeclared, .pShadows, .pAcct, .pWindows, .pRegs, .pSched, .pHot, .ctxs, .streams, .ristretto, .semaphores, .atc, .devMode, .channels, .hbmRun, .meshCtrl, .meshCount, .ports, .routes, .peers, .meshRef, .barriers, .transit, .power, .tests, .out, .fresh] ls = true) {d : State} : changesOnly ls s0 (after d (execRecoveryFinish value flashOk s)) := by
  have hs := @mem_of_incl [.time, .pkg, .fw, .debug, .policy, .ide, .rasLog, .cores, .clusters, .rasCounts, .hif, .fns, .pairs, .cmds, .locks, .pConfig, .pMode, .pFeats, .pMem, .pScratch, .pUses, .pHolds, .pKey, .pColls, .pJournal, .pDeclared, .pShadows, .pAcct, .pWindows, .pRegs, .pSched, .pHot, .ctxs, .streams, .ristretto, .semaphores, .atc, .devMode, .channels, .hbmRun, .meshCtrl, .meshCount, .ports, .routes, .peers, .meshRef, .barriers, .transit, .power, .tests, .out, .fresh] ls hm
  unfold execRecoveryFinish
  unfold after
  try dsimp only
  repeat' (first
    | with_reducible assumption
    | with_reducible intro _
    | with_reducible apply State.bump_only
    | with_reducible apply State.mbAnswer_only
    | with_reducible apply State.flash_only
    | with_reducible apply State.loaded_only
    | with_reducible apply State.bootStored_only
    | with_reducible apply only_ite
    | exact incl_trans rfl hm
    | with_reducible apply only_mk
    | exact Or.inr (hs (by decide))
    | with_reducible exact Or.inl rfl
    | with_reducible exact parts_refl
    | (with_reducible refine Or.inl ?_; and_intros <;> with_reducible rfl)
    | exact Or.inl rfl
    | with_reducible refine only_pair (by assumption) ?_
    | dsimp only
    | rw [mk_put]
    | split)

theorem execRecoveryFinish_keeps {s0 : State} {value : Word32} {flashOk : Bool} {s : State} {d : State}
    (h0 : keeps s0 s) : keeps s0 (after d (execRecoveryFinish value flashOk s)) := by
  unfold execRecoveryFinish
  unfold after
  try dsimp only
  repeat' (first
    | with_reducible assumption
    | with_reducible intro _
    | with_reducible apply State.bump_keeps
    | with_reducible apply State.mbAnswer_keeps
    | with_reducible apply State.flash_keeps
    | with_reducible apply State.loaded_keeps
    | with_reducible apply State.bootStored_keeps
    | with_reducible apply keeps_ite
    | with_reducible apply keeps_mk
    | with_reducible exact id
    | with_reducible exact partsKeep_refl
    | with_reducible exact rasKeep_refl
    | with_reducible exact hbmKeep_refl
    | with_reducible exact pkgKeep_refl
    | with_reducible exact secKeep_refl
    | with_reducible exact namesKeep_refl
    | with_reducible refine keeps_pair (by assumption) ?_
    | dsimp only
    | rw [mk_put]
    | split)

end Sys2Proof.Machine
end

