-- ==== Sys2Proof/Laws/Ras.lean ====
section
/-! SUPPORT. What each operation of Machine/Ras.lean may change: its frame, and that it
keeps the invariant and the fuses. -/

namespace Sys2Proof.Machine

open Sys2Proof.Safety Sys2Proof.Laws

theorem execActivate_only {ls : List Item} {s0 : State} {value : Word32} {s : State}
    (h0 : changesOnly ls s0 s) (hm : incl [.rasLog, .clusters, .fns, .out] ls = true) {d : State} : changesOnly ls s0 (after d (execActivate value s)) := by
  unfold execActivate
  unfold after
  try dsimp only
  repeat' (first
    | with_reducible assumption
    | with_reducible intro _
    | with_reducible apply State.refuseWrite_only
    | with_reducible apply State.modCluster_only
    | with_reducible apply only_getD
    | with_reducible apply only_ite
    | exact incl_trans rfl hm)

theorem execActivate_keeps {s0 : State} {value : Word32} {s : State} {d : State}
    (h0 : keeps s0 s) : keeps s0 (after d (execActivate value s)) := by
  unfold execActivate
  unfold after
  try dsimp only
  repeat' (first
    | with_reducible assumption
    | with_reducible intro _
    | with_reducible apply State.refuseWrite_keeps
    | with_reducible apply State.modCluster_keeps
    | with_reducible apply keeps_getD
    | with_reducible apply keeps_ite)

theorem execRetire_only {ls : List Item} {s0 : State} {value : Word32} {s : State}
    (h0 : changesOnly ls s0 s) (hm : incl [.pkg, .fw, .rasLog, .cores, .clusters, .rasCounts, .hif, .fns, .pairs, .cmds, .locks, .pConfig, .pMem, .pScratch, .pUses, .pKey, .pColls, .pAcct, .pSched, .pHot, .ctxs, .streams, .ristretto, .semaphores, .channels, .poison, .hbmRun, .slm, .ports, .peers, .barriers, .transit, .power, .tests, .out, .fresh] ls = true) {d : State} : changesOnly ls s0 (after d (execRetire value s)) := by
  unfold execRetire
  unfold after
  try dsimp only
  repeat' (first
    | with_reducible assumption
    | with_reducible intro _
    | with_reducible apply State.refuseWrite_only
    | with_reducible apply State.coreFail_only
    | with_reducible apply only_ite
    | exact incl_trans rfl hm)

theorem execRetire_keeps {s0 : State} {value : Word32} {s : State} {d : State}
    (h0 : keeps s0 s) : keeps s0 (after d (execRetire value s)) := by
  unfold execRetire
  unfold after
  try dsimp only
  repeat' (first
    | with_reducible assumption
    | with_reducible intro _
    | with_reducible apply State.refuseWrite_keeps
    | with_reducible apply State.coreFail_keeps
    | with_reducible apply keeps_ite)

theorem execReinstate_only {ls : List Item} {s0 : State} {value : Word32} {s : State}
    (h0 : changesOnly ls s0 s) (hm : incl [.clusters] ls = true) {d : State} : changesOnly ls s0 (after d (execReinstate value s)) := by
  unfold execReinstate
  unfold after
  try dsimp only
  repeat' (first
    | with_reducible assumption
    | with_reducible intro _
    | with_reducible apply State.modCluster_only
    | with_reducible apply only_ite)

theorem execReinstate_keeps {s0 : State} {value : Word32} {s : State} {d : State}
    (h0 : keeps s0 s) : keeps s0 (after d (execReinstate value s)) := by
  unfold execReinstate
  unfold after
  try dsimp only
  repeat' (first
    | with_reducible assumption
    | with_reducible intro _
    | with_reducible apply State.modCluster_keeps
    | with_reducible apply keeps_ite)

theorem State.lateFailure_only {ls : List Item} {s0 : State} {s : State} {c : Cmd} {addr : Nat}
    (h0 : changesOnly ls s0 s) (hm : incl [.rasLog, .fns, .cmds, .out] ls = true) : changesOnly ls s0 (State.lateFailure s c addr) := by
  unfold State.lateFailure
  try dsimp only
  repeat' (first
    | with_reducible assumption
    | with_reducible intro _
    | with_reducible apply State.modCmd_only
    | with_reducible apply State.log_only
    | with_reducible apply only_ite
    | exact incl_trans rfl hm)

theorem State.lateFailure_keeps {s0 : State} {s : State} {c : Cmd} {addr : Nat}
    (h0 : keeps s0 s) : keeps s0 (State.lateFailure s c addr) := by
  unfold State.lateFailure
  try dsimp only
  repeat' (first
    | with_reducible assumption
    | with_reducible intro _
    | with_reducible apply State.modCmd_keeps
    | with_reducible apply State.log_keeps)

end Sys2Proof.Machine
end

