-- ==== Sys2Proof/Laws/Regs.lean ====
section
/-! SUPPORT. What each operation of Machine/Regs.lean may change: its frame, and that it
keeps the invariant and the fuses. -/

namespace Sys2Proof.Machine

open Sys2Proof.Safety Sys2Proof.Laws

theorem State.writeQm_only {ls : List Item} {s0 : State} {s : State} {fn : Fn} {off : Nat} {v : Word32}
    (h0 : changesOnly ls s0 s) (hm : incl [.rasLog, .fns, .pairs, .cmds, .locks, .pMem, .pColls, .pAcct, .ctxs, .streams, .ristretto, .semaphores, .poison, .slm, .ports, .peers, .transit, .out, .fresh] ls = true) : changesOnly ls s0 (State.writeQm s fn off v) := by
  have hs := @mem_of_incl [.rasLog, .fns, .pairs, .cmds, .locks, .pMem, .pColls, .pAcct, .ctxs, .streams, .ristretto, .semaphores, .poison, .slm, .ports, .peers, .transit, .out, .fresh] ls hm
  unfold State.writeQm
  try dsimp only
  repeat' (first
    | with_reducible assumption
    | with_reducible intro _
    | with_reducible apply execQmEnable_only
    | with_reducible apply State.modFn_only
    | with_reducible apply execQmDisable_only
    | with_reducible apply only_ite
    | exact incl_trans rfl hm
    | with_reducible apply only_mk
    | exact Or.inr (hs (by decide))
    | with_reducible exact Or.inl rfl
    | with_reducible exact parts_refl
    | (with_reducible refine Or.inl ?_; and_intros <;> with_reducible rfl)
    | exact Or.inl rfl
    | with_reducible refine only_pair (by assumption) ?_
    | dsimp only
    | rw [mk_put]
    | split)

theorem State.writeQm_keeps {s0 : State} {s : State} {fn : Fn} {off : Nat} {v : Word32}
    (h0 : keeps s0 s) : keeps s0 (State.writeQm s fn off v) := by
  unfold State.writeQm
  try dsimp only
  repeat' (first
    | with_reducible assumption
    | with_reducible intro _
    | with_reducible apply execQmEnable_keeps
    | with_reducible apply State.modFn_keeps
    | with_reducible apply execQmDisable_keeps
    | with_reducible apply keeps_ite
    | with_reducible apply keeps_mk
    | with_reducible exact id
    | with_reducible exact partsKeep_refl
    | with_reducible exact rasKeep_refl
    | with_reducible exact hbmKeep_refl
    | with_reducible exact pkgKeep_refl
    | with_reducible exact secKeep_refl
    | with_reducible exact namesKeep_refl
    | with_reducible refine keeps_pair (by assumption) ?_
    | dsimp only
    | rw [mk_put]
    | split)

theorem State.writeDoorbell_only {ls : List Item} {s0 : State} {s : State} {fn : Fn} {off : Nat} {v : Word32}
    (h0 : changesOnly ls s0 s) (hm : incl [.rasLog, .fns, .pairs, .out] ls = true) : changesOnly ls s0 (State.writeDoorbell s fn off v) := by
  have hs := @mem_of_incl [.rasLog, .fns, .pairs, .out] ls hm
  unfold State.writeDoorbell
  try dsimp only
  repeat' (first
    | with_reducible assumption
    | with_reducible intro _
    | with_reducible apply execCqHeadDoorbell_only
    | with_reducible apply execSqTailDoorbell_only
    | with_reducible apply only_ite
    | exact incl_trans rfl hm
    | with_reducible apply only_mk
    | exact Or.inr (hs (by decide))
    | with_reducible exact Or.inl rfl
    | with_reducible exact parts_refl
    | (with_reducible refine Or.inl ?_; and_intros <;> with_reducible rfl)
    | exact Or.inl rfl
    | dsimp only
    | rw [mk_put]
    | split)

theorem State.writeDoorbell_keeps {s0 : State} {s : State} {fn : Fn} {off : Nat} {v : Word32}
    (h0 : keeps s0 s) : keeps s0 (State.writeDoorbell s fn off v) := by
  unfold State.writeDoorbell
  try dsimp only
  repeat' (first
    | with_reducible assumption
    | with_reducible intro _
    | with_reducible apply execCqHeadDoorbell_keeps
    | with_reducible apply execSqTailDoorbell_keeps
    | with_reducible apply keeps_ite
    | with_reducible apply keeps_mk
    | with_reducible exact id
    | with_reducible exact partsKeep_refl
    | with_reducible exact rasKeep_refl
    | with_reducible exact hbmKeep_refl
    | with_reducible exact pkgKeep_refl
    | with_reducible exact secKeep_refl
    | with_reducible exact namesKeep_refl
    | dsimp only
    | rw [mk_put]
    | split)

theorem State.writeHif_only {ls : List Item} {s0 : State} {s : State} {off : Nat} {v : Word32}
    (h0 : changesOnly ls s0 s) (hm : incl [.pkg, .fw, .rasLog, .cores, .clusters, .rasCounts, .hif, .fns, .pairs, .cmds, .locks, .pConfig, .pMem, .pKey, .pColls, .pAcct, .pSched, .ctxs, .streams, .ristretto, .semaphores, .channels, .poison, .hbmRun, .slm, .ports, .peers, .barriers, .transit, .power, .tests, .out, .fresh] ls = true) : changesOnly ls s0 (State.writeHif s off v) := by
  have hs := @mem_of_incl [.pkg, .fw, .rasLog, .cores, .clusters, .rasCounts, .hif, .fns, .pairs, .cmds, .locks, .pConfig, .pMem, .pKey, .pColls, .pAcct, .pSched, .ctxs, .streams, .ristretto, .semaphores, .channels, .poison, .hbmRun, .slm, .ports, .peers, .barriers, .transit, .power, .tests, .out, .fresh] ls hm
  unfold State.writeHif
  try dsimp only
  repeat' (first
    | with_reducible assumption
    | with_reducible intro _
    | with_reducible apply execDpRestart_only
    | with_reducible apply State.setEventMask_only
    | with_reducible apply State.modFn_only
    | with_reducible apply only_ite
    | exact incl_trans rfl hm
    | with_reducible apply only_mk
    | exact Or.inr (hs (by decide))
    | with_reducible exact Or.inl rfl
    | with_reducible exact parts_refl
    | (with_reducible refine Or.inl ?_; and_intros <;> with_reducible rfl)
    | exact Or.inl rfl
    | with_reducible refine only_pair (by assumption) ?_
    | dsimp only
    | rw [mk_put]
    | split)

theorem State.writeHif_keeps {s0 : State} {s : State} {off : Nat} {v : Word32}
    (h0 : keeps s0 s) : keeps s0 (State.writeHif s off v) := by
  unfold State.writeHif
  try dsimp only
  repeat' (first
    | with_reducible assumption
    | with_reducible intro _
    | with_reducible apply execDpRestart_keeps
    | with_reducible apply State.setEventMask_keeps
    | with_reducible apply State.modFn_keeps
    | with_reducible apply keeps_ite
    | with_reducible apply keeps_mk
    | with_reducible exact id
    | with_reducible exact partsKeep_refl
    | with_reducible exact rasKeep_refl
    | with_reducible exact hbmKeep_refl
    | with_reducible exact pkgKeep_refl
    | with_reducible exact secKeep_refl
    | with_reducible exact namesKeep_refl
    | with_reducible refine keeps_pair (by assumption) ?_
    | dsimp only
    | rw [mk_put]
    | split)

theorem State.writeVfHif_only {ls : List Item} {s0 : State} {s : State} {p : PartNo} {off : Nat} {v : Word32}
    (h0 : changesOnly ls s0 s) (hm : incl [.fns, .out] ls = true) : changesOnly ls s0 (State.writeVfHif s p off v) := by
  have hs := @mem_of_incl [.fns, .out] ls hm
  unfold State.writeVfHif
  try dsimp only
  repeat' (first
    | with_reducible assumption
    | with_reducible intro _
    | with_reducible apply State.setEventMask_only
    | with_reducible apply State.modFn_only
    | exact incl_trans rfl hm
    | with_reducible apply only_mk
    | exact Or.inr (hs (by decide))
    | with_reducible exact Or.inl rfl
    | with_reducible exact parts_refl
    | (with_reducible refine Or.inl ?_; and_intros <;> with_reducible rfl)
    | exact Or.inl rfl
    | with_reducible refine only_pair (by assumption) ?_
    | dsimp only
    | rw [mk_put]
    | split)

theorem State.writeVfHif_keeps {s0 : State} {s : State} {p : PartNo} {off : Nat} {v : Word32}
    (h0 : keeps s0 s) : keeps s0 (State.writeVfHif s p off v) := by
  unfold State.writeVfHif
  try dsimp only
  repeat' (first
    | with_reducible assumption
    | with_reducible intro _
    | with_reducible apply State.setEventMask_keeps
    | with_reducible apply State.modFn_keeps
    | with_reducible apply keeps_mk
    | with_reducible exact id
    | with_reducible exact partsKeep_refl
    | with_reducible exact rasKeep_refl
    | with_reducible exact hbmKeep_refl
    | with_reducible exact pkgKeep_refl
    | with_reducible exact secKeep_refl
    | with_reducible exact namesKeep_refl
    | with_reducible refine keeps_pair (by assumption) ?_
    | dsimp only
    | rw [mk_put]
    | split)

theorem State.writeMbCtrl_only {ls : List Item} {s0 : State} {s : State} {v : Word32}
    (h0 : changesOnly ls s0 s) (hm : incl [.time, .pkg, .fw, .debug, .policy, .ide, .rasLog, .cores, .clusters, .rasCounts, .hif, .fns, .pairs, .cmds, .locks, .pConfig, .pMode, .pFeats, .pMem, .pScratch, .pUses, .pHolds, .pKey, .pColls, .pJournal, .pDeclared, .pShadows, .pAcct, .pWindows, .pRegs, .pSched, .pHot, .ctxs, .streams, .ristretto, .semaphores, .atc, .devMode, .channels, .hbmRun, .meshCtrl, .meshCount, .ports, .routes, .peers, .meshRef, .barriers, .transit, .power, .tests, .out, .fresh] ls = true) : changesOnly ls s0 (State.writeMbCtrl s v) := by
  have hs := @mem_of_incl [.time, .pkg, .fw, .debug, .policy, .ide, .rasLog, .cores, .clusters, .rasCounts, .hif, .fns, .pairs, .cmds, .locks, .pConfig, .pMode, .pFeats, .pMem, .pScratch, .pUses, .pHolds, .pKey, .pColls, .pJournal, .pDeclared, .pShadows, .pAcct, .pWindows, .pRegs, .pSched, .pHot, .ctxs, .streams, .ristretto, .semaphores, .atc, .devMode, .channels, .hbmRun, .meshCtrl, .meshCount, .ports, .routes, .peers, .meshRef, .barriers, .transit, .power, .tests, .out, .fresh] ls hm
  unfold State.writeMbCtrl
  try dsimp only
  repeat' (first
    | with_reducible assumption
    | with_reducible intro _
    | with_reducible apply execRecoveryFinish_only
    | with_reducible apply State.bump_only
    | with_reducible apply execMctpMessage_only
    | with_reducible apply execRecoveryWrite_only
    | exact incl_trans rfl hm
    | with_reducible apply only_mk
    | exact Or.inr (hs (by decide))
    | with_reducible exact Or.inl rfl
    | with_reducible exact parts_refl
    | (with_reducible refine Or.inl ?_; and_intros <;> with_reducible rfl)
    | exact Or.inl rfl
    | with_reducible refine only_pair (by assumption) ?_
    | dsimp only
    | rw [mk_put]
    | split)

theorem State.writeMbCtrl_keeps {s0 : State} {s : State} {v : Word32}
    (h0 : keeps s0 s) : keeps s0 (State.writeMbCtrl s v) := by
  unfold State.writeMbCtrl
  try dsimp only
  repeat' (first
    | with_reducible assumption
    | with_reducible intro _
    | with_reducible apply execRecoveryFinish_keeps
    | with_reducible apply State.bump_keeps
    | with_reducible apply execMctpMessage_keeps
    | with_reducible apply execRecoveryWrite_keeps
    | with_reducible apply keeps_mk
    | with_reducible exact id
    | with_reducible exact partsKeep_refl
    | with_reducible exact rasKeep_refl
    | with_reducible exact hbmKeep_refl
    | with_reducible exact pkgKeep_refl
    | with_reducible exact secKeep_refl
    | with_reducible exact namesKeep_refl
    | with_reducible refine keeps_pair (by assumption) ?_
    | dsimp only
    | rw [mk_put]
    | split)

theorem State.writeSage_only {ls : List Item} {s0 : State} {s : State} {off : Nat} {v : Word32}
    (h0 : changesOnly ls s0 s) (hm : incl [.time, .pkg, .fw, .debug, .policy, .ide, .rasLog, .cores, .clusters, .rasCounts, .hif, .fns, .pairs, .cmds, .locks, .pConfig, .pMode, .pFeats, .pMem, .pScratch, .pUses, .pHolds, .pKey, .pColls, .pJournal, .pDeclared, .pShadows, .pAcct, .pWindows, .pRegs, .pSched, .pHot, .ctxs, .streams, .ristretto, .semaphores, .atc, .devMode, .channels, .hbmRun, .meshCtrl, .meshCount, .ports, .routes, .peers, .meshRef, .barriers, .transit, .power, .tests, .out, .fresh] ls = true) : changesOnly ls s0 (State.writeSage s off v) := by
  have hs := @mem_of_incl [.time, .pkg, .fw, .debug, .policy, .ide, .rasLog, .cores, .clusters, .rasCounts, .hif, .fns, .pairs, .cmds, .locks, .pConfig, .pMode, .pFeats, .pMem, .pScratch, .pUses, .pHolds, .pKey, .pColls, .pJournal, .pDeclared, .pShadows, .pAcct, .pWindows, .pRegs, .pSched, .pHot, .ctxs, .streams, .ristretto, .semaphores, .atc, .devMode, .channels, .hbmRun, .meshCtrl, .meshCount, .ports, .routes, .peers, .meshRef, .barriers, .transit, .power, .tests, .out, .fresh] ls hm
  unfold State.writeSage
  try dsimp only
  repeat' (first
    | with_reducible assumption
    | with_reducible intro _
    | with_reducible apply State.writeMbCtrl_only
    | with_reducible apply only_ite
    | exact incl_trans rfl hm
    | with_reducible apply only_mk
    | exact Or.inr (hs (by decide))
    | with_reducible exact Or.inl rfl
    | with_reducible exact parts_refl
    | (with_reducible refine Or.inl ?_; and_intros <;> with_reducible rfl)
    | exact Or.inl rfl
    | dsimp only
    | rw [mk_put])

theorem State.writeSage_keeps {s0 : State} {s : State} {off : Nat} {v : Word32}
    (h0 : keeps s0 s) : keeps s0 (State.writeSage s off v) := by
  unfold State.writeSage
  try dsimp only
  repeat' (first
    | with_reducible assumption
    | with_reducible intro _
    | with_reducible apply State.writeMbCtrl_keeps
    | with_reducible apply keeps_ite
    | with_reducible apply keeps_mk
    | with_reducible exact id
    | with_reducible exact partsKeep_refl
    | with_reducible exact rasKeep_refl
    | with_reducible exact hbmKeep_refl
    | with_reducible exact pkgKeep_refl
    | with_reducible exact secKeep_refl
    | with_reducible exact namesKeep_refl
    | dsimp only
    | rw [mk_put])

theorem State.writeThyme_only {ls : List Item} {s0 : State} {s : State} {off : Nat} {v : Word32}
    (h0 : changesOnly ls s0 s) (hm : incl [.time, .rasLog, .fns, .out] ls = true) : changesOnly ls s0 (State.writeThyme s off v) := by
  have hs := @mem_of_incl [.time, .rasLog, .fns, .out] ls hm
  unfold State.writeThyme
  try dsimp only
  repeat' (first
    | with_reducible assumption
    | with_reducible intro _
    | with_reducible apply execThymeRate_only
    | with_reducible apply execThymeOffsetAdj_only
    | with_reducible apply execThymeSnapTrig_only
    | exact incl_trans rfl hm
    | with_reducible apply only_mk
    | exact Or.inr (hs (by decide))
    | with_reducible exact Or.inl rfl
    | with_reducible exact parts_refl
    | (with_reducible refine Or.inl ?_; and_intros <;> with_reducible rfl)
    | exact Or.inl rfl
    | with_reducible refine only_pair (by assumption) ?_
    | dsimp only
    | rw [mk_put]
    | split)

theorem State.writeThyme_keeps {s0 : State} {s : State} {off : Nat} {v : Word32}
    (h0 : keeps s0 s) : keeps s0 (State.writeThyme s off v) := by
  unfold State.writeThyme
  try dsimp only
  repeat' (first
    | with_reducible assumption
    | with_reducible intro _
    | with_reducible apply execThymeRate_keeps
    | with_reducible apply execThymeOffsetAdj_keeps
    | with_reducible apply execThymeSnapTrig_keeps
    | with_reducible apply keeps_mk
    | with_reducible exact id
    | with_reducible exact partsKeep_refl
    | with_reducible exact rasKeep_refl
    | with_reducible exact hbmKeep_refl
    | with_reducible exact pkgKeep_refl
    | with_reducible exact secKeep_refl
    | with_reducible exact namesKeep_refl
    | with_reducible refine keeps_pair (by assumption) ?_
    | dsimp only
    | rw [mk_put]
    | split)

theorem State.writePart_only {ls : List Item} {s0 : State} {s : State} {off : Nat} {v : Word32}
    (h0 : changesOnly ls s0 s) (hm : incl [.rasLog, .fns, .pAcct, .pRegs, .out] ls = true) : changesOnly ls s0 (State.writePart s off v) := by
  unfold State.writePart
  try dsimp only
  repeat' (first
    | with_reducible assumption
    | with_reducible intro _
    | with_reducible apply execPartRegRate_only
    | with_reducible apply execPartAcctClear_only
    | with_reducible apply only_ite
    | exact incl_trans rfl hm)

theorem State.writePart_keeps {s0 : State} {s : State} {off : Nat} {v : Word32}
    (h0 : keeps s0 s) : keeps s0 (State.writePart s off v) := by
  unfold State.writePart
  try dsimp only
  repeat' (first
    | with_reducible assumption
    | with_reducible intro _
    | with_reducible apply execPartRegRate_keeps
    | with_reducible apply execPartAcctClear_keeps
    | with_reducible apply keeps_ite)

theorem State.writeMem_only {ls : List Item} {s0 : State} {s : State} {off : Nat} {v : Word32}
    (h0 : changesOnly ls s0 s) (hm : incl [.pkg, .fw, .rasLog, .cores, .clusters, .rasCounts, .hif, .fns, .pairs, .cmds, .locks, .pConfig, .pMem, .pKey, .pColls, .pAcct, .pSched, .ctxs, .streams, .ristretto, .semaphores, .channels, .poison, .hbmCtrl, .hbmRun, .slm, .ports, .peers, .barriers, .transit, .power, .tests, .out, .fresh] ls = true) : changesOnly ls s0 (State.writeMem s off v) := by
  have hs := @mem_of_incl [.pkg, .fw, .rasLog, .cores, .clusters, .rasCounts, .hif, .fns, .pairs, .cmds, .locks, .pConfig, .pMem, .pKey, .pColls, .pAcct, .pSched, .ctxs, .streams, .ristretto, .semaphores, .channels, .poison, .hbmCtrl, .hbmRun, .slm, .ports, .peers, .barriers, .transit, .power, .tests, .out, .fresh] ls hm
  unfold State.writeMem
  try dsimp only
  repeat' (first
    | with_reducible assumption
    | with_reducible intro _
    | with_reducible apply State.mapoutCtrl_only
    | with_reducible apply only_ite
    | exact incl_trans rfl hm
    | with_reducible apply only_mk
    | exact Or.inr (hs (by decide))
    | with_reducible exact Or.inl rfl
    | with_reducible exact parts_refl
    | (with_reducible refine Or.inl ?_; and_intros <;> with_reducible rfl)
    | exact Or.inl rfl
    | with_reducible refine only_pair (by assumption) ?_
    | dsimp only
    | rw [mk_put]
    | split)

theorem State.writeMem_keeps {s0 : State} {s : State} {off : Nat} {v : Word32}
    (h0 : keeps s0 s) : keeps s0 (State.writeMem s off v) := by
  unfold State.writeMem
  try dsimp only
  repeat' (first
    | with_reducible assumption
    | with_reducible intro _
    | with_reducible apply State.mapoutCtrl_keeps
    | with_reducible apply keeps_ite
    | with_reducible apply keeps_mk
    | with_reducible exact id
    | with_reducible exact partsKeep_refl
    | with_reducible exact rasKeep_refl
    | with_reducible exact hbmKeep_refl
    | with_reducible exact pkgKeep_refl
    | with_reducible exact secKeep_refl
    | with_reducible exact namesKeep_refl
    | (refine (⟨?_, ?_⟩ : hbmKeep _ _) <;> first | exact id | exact len_modify | exact len_map | exact len_mapIdx | exact len_set)
    | with_reducible refine keeps_pair (by assumption) ?_
    | dsimp only
    | rw [mk_put]
    | split)

theorem State.writeTest_only {ls : List Item} {s0 : State} {s : State} {off : Nat} {v : Word32}
    (h0 : changesOnly ls s0 s) (hm : incl [.channels, .fresh] ls = true) : changesOnly ls s0 (State.writeTest s off v) := by
  have hs := @mem_of_incl [.channels, .fresh] ls hm
  unfold State.writeTest
  try dsimp only
  repeat' (first
    | with_reducible assumption
    | with_reducible intro _
    | with_reducible apply State.modTg_only
    | with_reducible apply execTgStop_only
    | with_reducible apply execTgStart_only
    | with_reducible apply only_ite
    | exact incl_trans rfl hm
    | with_reducible apply only_mk
    | exact Or.inr (hs (by decide))
    | with_reducible exact Or.inl rfl
    | with_reducible exact parts_refl
    | (with_reducible refine Or.inl ?_; and_intros <;> with_reducible rfl)
    | exact Or.inl rfl
    | with_reducible refine only_pair (by assumption) ?_
    | dsimp only
    | rw [mk_put]
    | split)

theorem State.writeTest_keeps {s0 : State} {s : State} {off : Nat} {v : Word32}
    (h0 : keeps s0 s) : keeps s0 (State.writeTest s off v) := by
  unfold State.writeTest
  try dsimp only
  repeat' (first
    | with_reducible assumption
    | with_reducible intro _
    | with_reducible apply State.modTg_keeps
    | with_reducible apply execTgStop_keeps
    | with_reducible apply execTgStart_keeps
    | with_reducible apply keeps_ite
    | with_reducible apply keeps_mk
    | with_reducible exact id
    | with_reducible exact partsKeep_refl
    | with_reducible exact rasKeep_refl
    | with_reducible exact hbmKeep_refl
    | with_reducible exact pkgKeep_refl
    | with_reducible exact secKeep_refl
    | with_reducible exact namesKeep_refl
    | with_reducible refine keeps_pair (by assumption) ?_
    | dsimp only
    | rw [mk_put]
    | split)

theorem State.writeMeshCtrl_only {ls : List Item} {s0 : State} {s : State} {v : Word32}
    (h0 : changesOnly ls s0 s) (hm : incl [.time, .rasLog, .hif, .fns, .cmds, .locks, .pMem, .pColls, .pShadows, .pAcct, .ctxs, .streams, .ristretto, .semaphores, .poison, .slm, .meshCtrl, .ports, .peers, .meshRef, .transit, .out, .fresh] ls = true) : changesOnly ls s0 (State.writeMeshCtrl s v) := by
  have hs := @mem_of_incl [.time, .rasLog, .hif, .fns, .cmds, .locks, .pMem, .pColls, .pShadows, .pAcct, .ctxs, .streams, .ristretto, .semaphores, .poison, .slm, .meshCtrl, .ports, .peers, .meshRef, .transit, .out, .fresh] ls hm
  unfold State.writeMeshCtrl
  try dsimp only
  repeat' (first
    | with_reducible assumption
    | with_reducible intro _
    | with_reducible apply execMeshEnable_only
    | with_reducible apply execMeshDisable_only
    | with_reducible apply only_ite
    | exact incl_trans rfl hm
    | with_reducible apply only_mk
    | exact Or.inr (hs (by decide))
    | with_reducible exact Or.inl rfl
    | with_reducible exact parts_refl
    | (with_reducible refine Or.inl ?_; and_intros <;> with_reducible rfl)
    | exact Or.inl rfl
    | dsimp only
    | rw [mk_put]
    | split)

theorem State.writeMeshCtrl_keeps {s0 : State} {s : State} {v : Word32}
    (h0 : keeps s0 s) : keeps s0 (State.writeMeshCtrl s v) := by
  unfold State.writeMeshCtrl
  try dsimp only
  repeat' (first
    | with_reducible assumption
    | exact len_modify
    | exact len_map
    | exact len_mapIdx
    | with_reducible intro _
    | with_reducible apply execMeshEnable_keeps
    | with_reducible apply execMeshDisable_keeps
    | with_reducible apply keeps_ite
    | with_reducible apply keeps_mk
    | with_reducible exact id
    | with_reducible exact partsKeep_refl
    | with_reducible exact rasKeep_refl
    | with_reducible exact hbmKeep_refl
    | with_reducible exact pkgKeep_refl
    | with_reducible exact secKeep_refl
    | with_reducible exact namesKeep_refl
    | dsimp only
    | rw [mk_put]
    | split)

theorem State.writeMesh_only {ls : List Item} {s0 : State} {s : State} {off : Nat} {v : Word32}
    (h0 : changesOnly ls s0 s) (hm : incl [.time, .rasLog, .hif, .fns, .cmds, .locks, .pMem, .pColls, .pShadows, .pAcct, .ctxs, .streams, .ristretto, .semaphores, .poison, .slm, .meshCtrl, .ports, .routes, .peers, .meshRef, .transit, .out, .fresh] ls = true) : changesOnly ls s0 (State.writeMesh s off v) := by
  have hs := @mem_of_incl [.time, .rasLog, .hif, .fns, .cmds, .locks, .pMem, .pColls, .pShadows, .pAcct, .ctxs, .streams, .ristretto, .semaphores, .poison, .slm, .meshCtrl, .ports, .routes, .peers, .meshRef, .transit, .out, .fresh] ls hm
  unfold State.writeMesh
  try dsimp only
  repeat' (first
    | with_reducible assumption
    | with_reducible intro _
    | with_reducible apply State.portCtrl_only
    | with_reducible apply execRouteCommit_only
    | with_reducible apply State.writeMeshCtrl_only
    | with_reducible apply only_ite
    | exact incl_trans rfl hm
    | with_reducible apply only_mk
    | exact Or.inr (hs (by decide))
    | with_reducible exact Or.inl rfl
    | with_reducible exact parts_refl
    | (with_reducible refine Or.inl ?_; and_intros <;> with_reducible rfl)
    | exact Or.inl rfl
    | dsimp only
    | rw [mk_put])

theorem State.writeMesh_keeps {s0 : State} {s : State} {off : Nat} {v : Word32}
    (h0 : keeps s0 s) : keeps s0 (State.writeMesh s off v) := by
  unfold State.writeMesh
  try dsimp only
  repeat' (first
    | with_reducible assumption
    | exact len_modify
    | exact len_map
    | exact len_mapIdx
    | with_reducible intro _
    | with_reducible apply State.portCtrl_keeps
    | with_reducible apply execRouteCommit_keeps
    | with_reducible apply State.writeMeshCtrl_keeps
    | with_reducible apply keeps_ite
    | with_reducible apply keeps_mk
    | with_reducible exact id
    | with_reducible exact partsKeep_refl
    | with_reducible exact rasKeep_refl
    | with_reducible exact hbmKeep_refl
    | with_reducible exact pkgKeep_refl
    | with_reducible exact secKeep_refl
    | with_reducible exact namesKeep_refl
    | dsimp only
    | rw [mk_put])

theorem State.writeRas_only {ls : List Item} {s0 : State} {s : State} {off : Nat} {v : Word32}
    (h0 : changesOnly ls s0 s) (hm : incl [.pkg, .fw, .rasLog, .cores, .clusters, .rasCounts, .hif, .fns, .pairs, .cmds, .locks, .pConfig, .pMem, .pScratch, .pUses, .pKey, .pColls, .pAcct, .pSched, .pHot, .ctxs, .streams, .ristretto, .semaphores, .channels, .poison, .hbmRun, .slm, .ports, .peers, .barriers, .transit, .power, .tests, .out, .fresh] ls = true) : changesOnly ls s0 (State.writeRas s off v) := by
  have hs := @mem_of_incl [.pkg, .fw, .rasLog, .cores, .clusters, .rasCounts, .hif, .fns, .pairs, .cmds, .locks, .pConfig, .pMem, .pScratch, .pUses, .pKey, .pColls, .pAcct, .pSched, .pHot, .ctxs, .streams, .ristretto, .semaphores, .channels, .poison, .hbmRun, .slm, .ports, .peers, .barriers, .transit, .power, .tests, .out, .fresh] ls hm
  unfold State.writeRas
  try dsimp only
  repeat' (first
    | with_reducible assumption
    | with_reducible intro _
    | with_reducible apply execReinstate_only
    | with_reducible apply execRetire_only
    | with_reducible apply execActivate_only
    | with_reducible apply only_ite
    | exact incl_trans rfl hm
    | with_reducible apply only_mk
    | exact Or.inr (hs (by decide))
    | with_reducible exact Or.inl rfl
    | with_reducible exact parts_refl
    | (with_reducible refine Or.inl ?_; and_intros <;> with_reducible rfl)
    | exact Or.inl rfl
    | with_reducible refine only_pair (by assumption) ?_
    | dsimp only
    | rw [mk_put]
    | split)

theorem State.writeRas_keeps {s0 : State} {s : State} {off : Nat} {v : Word32}
    (h0 : keeps s0 s) : keeps s0 (State.writeRas s off v) := by
  unfold State.writeRas
  try dsimp only
  repeat' (first
    | with_reducible assumption
    | with_reducible intro _
    | with_reducible apply execReinstate_keeps
    | with_reducible apply execRetire_keeps
    | with_reducible apply execActivate_keeps
    | with_reducible apply keeps_ite
    | with_reducible apply keeps_mk
    | with_reducible exact id
    | with_reducible exact partsKeep_refl
    | with_reducible exact rasKeep_refl
    | with_reducible exact hbmKeep_refl
    | with_reducible exact pkgKeep_refl
    | with_reducible exact secKeep_refl
    | with_reducible exact namesKeep_refl
    | with_reducible refine keeps_pair (by assumption) ?_
    | dsimp only
    | rw [mk_put]
    | split)

theorem State.writePf_only {ls : List Item} {s0 : State} {s : State} {off : Nat} {v : Word32}
    (h0 : changesOnly ls s0 s) (hm : incl [.time, .pkg, .fw, .debug, .policy, .ide, .rasLog, .cores, .clusters, .rasCounts, .hif, .fns, .pairs, .cmds, .locks, .pConfig, .pMode, .pFeats, .pMem, .pScratch, .pUses, .pHolds, .pKey, .pColls, .pJournal, .pDeclared, .pShadows, .pAcct, .pWindows, .pRegs, .pSched, .pHot, .ctxs, .streams, .ristretto, .semaphores, .atc, .devMode, .channels, .poison, .hbmCtrl, .hbmRun, .slm, .meshCtrl, .meshCount, .ports, .routes, .peers, .meshRef, .barriers, .transit, .power, .tests, .out, .fresh] ls = true) : changesOnly ls s0 (State.writePf s off v) := by
  unfold State.writePf
  try dsimp only
  repeat' (first
    | with_reducible assumption
    | with_reducible intro _
    | with_reducible apply State.writeMesh_only
    | with_reducible apply State.writeMem_only
    | with_reducible apply State.writeQm_only
    | with_reducible apply State.writeRas_only
    | with_reducible apply State.writeHif_only
    | with_reducible apply State.writePart_only
    | with_reducible apply State.writeThyme_only
    | with_reducible apply State.writeDoorbell_only
    | with_reducible apply State.writeTest_only
    | with_reducible apply State.writeSage_only
    | with_reducible apply only_ite
    | exact incl_trans rfl hm)

theorem State.writePf_keeps {s0 : State} {s : State} {off : Nat} {v : Word32}
    (h0 : keeps s0 s) : keeps s0 (State.writePf s off v) := by
  unfold State.writePf
  try dsimp only
  repeat' (first
    | with_reducible assumption
    | with_reducible intro _
    | with_reducible apply State.writeMesh_keeps
    | with_reducible apply State.writeMem_keeps
    | with_reducible apply State.writeQm_keeps
    | with_reducible apply State.writeRas_keeps
    | with_reducible apply State.writeHif_keeps
    | with_reducible apply State.writePart_keeps
    | with_reducible apply State.writeThyme_keeps
    | with_reducible apply State.writeDoorbell_keeps
    | with_reducible apply State.writeTest_keeps
    | with_reducible apply State.writeSage_keeps
    | with_reducible apply keeps_ite)

theorem State.writeVf_only {ls : List Item} {s0 : State} {s : State} {p : PartNo} {off : Nat} {v : Word32}
    (h0 : changesOnly ls s0 s) (hm : incl [.rasLog, .fns, .pairs, .cmds, .locks, .pMem, .pColls, .pAcct, .ctxs, .streams, .ristretto, .semaphores, .poison, .slm, .ports, .peers, .transit, .out, .fresh] ls = true) : changesOnly ls s0 (State.writeVf s p off v) := by
  unfold State.writeVf
  try dsimp only
  repeat' (first
    | with_reducible assumption
    | with_reducible intro _
    | with_reducible apply State.writeQm_only
    | with_reducible apply State.writeVfHif_only
    | with_reducible apply State.writeDoorbell_only
    | with_reducible apply only_ite
    | exact incl_trans rfl hm)

theorem State.writeVf_keeps {s0 : State} {s : State} {p : PartNo} {off : Nat} {v : Word32}
    (h0 : keeps s0 s) : keeps s0 (State.writeVf s p off v) := by
  unfold State.writeVf
  try dsimp only
  repeat' (first
    | with_reducible assumption
    | with_reducible intro _
    | with_reducible apply State.writeQm_keeps
    | with_reducible apply State.writeVfHif_keeps
    | with_reducible apply State.writeDoorbell_keeps
    | with_reducible apply keeps_ite)

theorem State.write32_only {ls : List Item} {s0 : State} {s : State} {fn : Fn} {off : Nat} {v : Word32}
    (h0 : changesOnly ls s0 s) (hm : incl [.time, .pkg, .fw, .debug, .policy, .ide, .rasLog, .cores, .clusters, .rasCounts, .hif, .fns, .pairs, .cmds, .locks, .pConfig, .pMode, .pFeats, .pMem, .pScratch, .pUses, .pHolds, .pKey, .pColls, .pJournal, .pDeclared, .pShadows, .pAcct, .pWindows, .pRegs, .pSched, .pHot, .ctxs, .streams, .ristretto, .semaphores, .atc, .devMode, .channels, .poison, .hbmCtrl, .hbmRun, .slm, .meshCtrl, .meshCount, .ports, .routes, .peers, .meshRef, .barriers, .transit, .power, .tests, .out, .fresh] ls = true) : changesOnly ls s0 (State.write32 s fn off v) := by
  have hs := @mem_of_incl [.time, .pkg, .fw, .debug, .policy, .ide, .rasLog, .cores, .clusters, .rasCounts, .hif, .fns, .pairs, .cmds, .locks, .pConfig, .pMode, .pFeats, .pMem, .pScratch, .pUses, .pHolds, .pKey, .pColls, .pJournal, .pDeclared, .pShadows, .pAcct, .pWindows, .pRegs, .pSched, .pHot, .ctxs, .streams, .ristretto, .semaphores, .atc, .devMode, .channels, .poison, .hbmCtrl, .hbmRun, .slm, .meshCtrl, .meshCount, .ports, .routes, .peers, .meshRef, .barriers, .transit, .power, .tests, .out, .fresh] ls hm
  unfold State.write32
  try dsimp only
  repeat' (first
    | with_reducible assumption
    | with_reducible intro _
    | with_reducible apply State.writePf_only
    | with_reducible apply State.writeVf_only
    | exact incl_trans rfl hm
    | with_reducible apply only_mk
    | exact Or.inr (hs (by decide))
    | with_reducible exact Or.inl rfl
    | with_reducible exact parts_refl
    | (with_reducible refine Or.inl ?_; and_intros <;> with_reducible rfl)
    | exact Or.inl rfl
    | with_reducible refine only_pair (by assumption) ?_
    | dsimp only
    | rw [mk_put]
    | split)

theorem State.write32_keeps {s0 : State} {s : State} {fn : Fn} {off : Nat} {v : Word32}
    (h0 : keeps s0 s) : keeps s0 (State.write32 s fn off v) := by
  unfold State.write32
  try dsimp only
  repeat' (first
    | with_reducible assumption
    | with_reducible intro _
    | with_reducible apply State.writePf_keeps
    | with_reducible apply State.writeVf_keeps
    | with_reducible apply keeps_mk
    | with_reducible exact id
    | with_reducible exact partsKeep_refl
    | with_reducible exact rasKeep_refl
    | with_reducible exact hbmKeep_refl
    | with_reducible exact pkgKeep_refl
    | with_reducible exact secKeep_refl
    | with_reducible exact namesKeep_refl
    | with_reducible refine keeps_pair (by assumption) ?_
    | dsimp only
    | rw [mk_put]
    | split)

theorem State.writeMsix_only {ls : List Item} {s0 : State} {s : State} {fn : Fn} {off : Nat} {v : Word32}
    (h0 : changesOnly ls s0 s) (hm : incl [.rasLog, .fns, .cmds, .locks, .pMem, .pKey, .pColls, .pAcct, .ctxs, .streams, .ristretto, .semaphores, .poison, .slm, .ports, .peers, .transit, .out, .fresh] ls = true) : changesOnly ls s0 (State.writeMsix s fn off v) := by
  have hs := @mem_of_incl [.rasLog, .fns, .cmds, .locks, .pMem, .pKey, .pColls, .pAcct, .ctxs, .streams, .ristretto, .semaphores, .poison, .slm, .ports, .peers, .transit, .out, .fresh] ls hm
  unfold State.writeMsix
  try dsimp only
  repeat' (first
    | with_reducible assumption
    | with_reducible intro _
    | with_reducible apply execMsixUnmask_only
    | with_reducible apply State.modFn_only
    | with_reducible apply only_ite
    | exact incl_trans rfl hm
    | with_reducible apply only_mk
    | exact Or.inr (hs (by decide))
    | with_reducible exact Or.inl rfl
    | with_reducible exact parts_refl
    | (with_reducible refine Or.inl ?_; and_intros <;> with_reducible rfl)
    | exact Or.inl rfl
    | with_reducible refine only_pair (by assumption) ?_
    | dsimp only
    | rw [mk_put]
    | split)

theorem State.writeMsix_keeps {s0 : State} {s : State} {fn : Fn} {off : Nat} {v : Word32}
    (h0 : keeps s0 s) : keeps s0 (State.writeMsix s fn off v) := by
  unfold State.writeMsix
  try dsimp only
  repeat' (first
    | with_reducible assumption
    | with_reducible intro _
    | with_reducible apply execMsixUnmask_keeps
    | with_reducible apply State.modFn_keeps
    | with_reducible apply keeps_ite
    | with_reducible apply keeps_mk
    | with_reducible exact id
    | with_reducible exact partsKeep_refl
    | with_reducible exact rasKeep_refl
    | with_reducible exact hbmKeep_refl
    | with_reducible exact pkgKeep_refl
    | with_reducible exact secKeep_refl
    | with_reducible exact namesKeep_refl
    | with_reducible refine keeps_pair (by assumption) ?_
    | dsimp only
    | rw [mk_put]
    | split)

theorem write48_only {ls : List Item} {s0 : State} {w : Nat → Word32 → State → State} {offset size : Nat} {value : Word64} {s : State} (hw : ∀ x y z, changesOnly ls s0 z → changesOnly ls s0 (w x y z))
    (h0 : changesOnly ls s0 s) (hm : incl [] ls = true) : changesOnly ls s0 (write48 w offset size value s) := by
  unfold write48
  try dsimp only
  repeat' (first
    | with_reducible assumption
    | with_reducible intro _
    | with_reducible apply hw
    | with_reducible apply only_ite)

theorem write48_keeps {s0 : State} {w : Nat → Word32 → State → State} {offset size : Nat} {value : Word64} {s : State} (hw : ∀ x y z, keeps s0 z → keeps s0 (w x y z))
    (h0 : keeps s0 s) : keeps s0 (write48 w offset size value s) := by
  unfold write48
  try dsimp only
  repeat' (first
    | with_reducible assumption
    | with_reducible intro _
    | with_reducible apply hw
    | with_reducible apply keeps_ite)

end Sys2Proof.Machine
end

