-- ==== Sys2Proof/Laws/SelfTest.lean ====
section
/-! SUPPORT. What each operation of Machine/SelfTest.lean may change: its frame, and that it
keeps the invariant and the fuses. -/

namespace Sys2Proof.Machine

open Sys2Proof.Safety Sys2Proof.Laws

theorem State.startStandIn_only {ls : List Item} {s0 : State} {s : State} {cl : Nat}
    (h0 : changesOnly ls s0 s) (hm : incl [.cores, .clusters] ls = true) : changesOnly ls s0 (State.startStandIn s cl) := by
  have hs := @mem_of_incl [.cores, .clusters] ls hm
  unfold State.startStandIn
  try dsimp only
  repeat' (first
    | with_reducible assumption
    | with_reducible intro _
    | with_reducible apply State.modCluster_only
    | with_reducible apply State.modCore_only
    | with_reducible apply only_ite
    | exact incl_trans rfl hm
    | with_reducible apply only_mk
    | exact Or.inr (hs (by decide))
    | with_reducible exact Or.inl rfl
    | with_reducible exact parts_refl
    | (with_reducible refine Or.inl ?_; and_intros <;> with_reducible rfl)
    | exact Or.inl rfl
    | with_reducible refine only_pair (by assumption) ?_
    | dsimp only
    | rw [mk_put]
    | split)

theorem State.startStandIn_keeps {s0 : State} {s : State} {cl : Nat}
    (h0 : keeps s0 s) : keeps s0 (State.startStandIn s cl) := by
  unfold State.startStandIn
  try dsimp only
  repeat' (first
    | with_reducible assumption
    | with_reducible intro _
    | with_reducible apply State.modCluster_keeps
    | with_reducible apply State.modCore_keeps
    | with_reducible apply keeps_ite
    | with_reducible apply keeps_mk
    | with_reducible exact id
    | with_reducible exact partsKeep_refl
    | with_reducible exact rasKeep_refl
    | with_reducible exact hbmKeep_refl
    | with_reducible exact pkgKeep_refl
    | with_reducible exact secKeep_refl
    | with_reducible exact namesKeep_refl
    | with_reducible refine keeps_pair (by assumption) ?_
    | dsimp only
    | rw [mk_put]
    | split)

theorem State.settleStandIn_only {ls : List Item} {s0 : State} {s : State} {cl : Nat}
    (h0 : changesOnly ls s0 s) (hm : incl [.cores, .clusters] ls = true) : changesOnly ls s0 (State.settleStandIn s cl) := by
  have hs := @mem_of_incl [.cores, .clusters] ls hm
  unfold State.settleStandIn
  try dsimp only
  repeat' (first
    | with_reducible assumption
    | with_reducible intro _
    | with_reducible apply State.standInLeaves_only
    | with_reducible apply State.modCluster_only
    | with_reducible apply State.startStandIn_only
    | with_reducible apply State.modCore_only
    | with_reducible apply only_ite
    | exact incl_trans rfl hm
    | with_reducible apply only_mk
    | exact Or.inr (hs (by decide))
    | with_reducible exact Or.inl rfl
    | with_reducible exact parts_refl
    | (with_reducible refine Or.inl ?_; and_intros <;> with_reducible rfl)
    | exact Or.inl rfl
    | with_reducible refine only_pair (by assumption) ?_
    | dsimp only
    | rw [mk_put]
    | split)

theorem State.settleStandIn_keeps {s0 : State} {s : State} {cl : Nat}
    (h0 : keeps s0 s) : keeps s0 (State.settleStandIn s cl) := by
  unfold State.settleStandIn
  try dsimp only
  repeat' (first
    | with_reducible assumption
    | with_reducible intro _
    | with_reducible apply State.standInLeaves_keeps
    | with_reducible apply State.modCluster_keeps
    | with_reducible apply State.startStandIn_keeps
    | with_reducible apply State.modCore_keeps
    | with_reducible apply keeps_ite
    | with_reducible apply keeps_mk
    | with_reducible exact id
    | with_reducible exact partsKeep_refl
    | with_reducible exact rasKeep_refl
    | with_reducible exact hbmKeep_refl
    | with_reducible exact pkgKeep_refl
    | with_reducible exact secKeep_refl
    | with_reducible exact namesKeep_refl
    | with_reducible refine keeps_pair (by assumption) ?_
    | dsimp only
    | rw [mk_put]
    | split)

theorem State.settleDrains_only {ls : List Item} {s0 : State} {s : State}
    (h0 : changesOnly ls s0 s) (hm : incl [.cores, .clusters] ls = true) : changesOnly ls s0 (State.settleDrains s) := by
  unfold State.settleDrains
  try dsimp only
  repeat' (first
    | with_reducible assumption
    | with_reducible intro _
    | with_reducible apply State.settleStandIn_only
    | with_reducible apply only_foldl)

theorem State.settleDrains_keeps {s0 : State} {s : State}
    (h0 : keeps s0 s) : keeps s0 (State.settleDrains s) := by
  unfold State.settleDrains
  try dsimp only
  repeat' (first
    | with_reducible assumption
    | with_reducible intro _
    | with_reducible apply State.settleStandIn_keeps
    | with_reducible apply keeps_foldl)

theorem State.settlePorts_only {ls : List Item} {s0 : State} {s : State} {t : Test}
    (h0 : changesOnly ls s0 s) (hm : incl [.time, .rasLog, .hif, .fns, .cmds, .locks, .pMem, .pColls, .pShadows, .pAcct, .ctxs, .streams, .ristretto, .semaphores, .poison, .slm, .ports, .peers, .meshRef, .transit, .out, .fresh] ls = true) : changesOnly ls s0 (State.settlePorts s t) := by
  unfold State.settlePorts
  try dsimp only
  repeat' (first
    | with_reducible assumption
    | with_reducible intro _
    | with_reducible apply State.movePort_only
    | with_reducible apply only_ite
    | with_reducible apply only_foldl)

theorem State.settlePorts_keeps {s0 : State} {s : State} {t : Test}
    (h0 : keeps s0 s) : keeps s0 (State.settlePorts s t) := by
  unfold State.settlePorts
  try dsimp only
  repeat' (first
    | with_reducible assumption
    | with_reducible intro _
    | with_reducible apply State.movePort_keeps
    | with_reducible apply keeps_ite
    | with_reducible apply keeps_foldl)

theorem State.enterBarrier_only {ls : List Item} {s0 : State} {s : State} {cid : Nat} {ports : BitVec 8}
    (h0 : changesOnly ls s0 s) (hm : incl [.pAcct, .ports, .peers, .barriers, .transit, .out] ls = true) : changesOnly ls s0 (State.enterBarrier s cid ports) := by
  have hs := @mem_of_incl [.pAcct, .ports, .peers, .barriers, .transit, .out] ls hm
  unfold State.enterBarrier
  try dsimp only
  repeat' (first
    | with_reducible assumption
    | with_reducible intro _
    | with_reducible apply State.tryRelease_only
    | with_reducible apply State.barrierFrame_only
    | with_reducible apply only_getD
    | with_reducible apply only_ite
    | with_reducible apply only_foldl
    | with_reducible apply only_foldl_fst
    | exact incl_trans rfl hm
    | with_reducible apply only_mk
    | exact Or.inr (hs (by decide))
    | with_reducible exact Or.inl rfl
    | with_reducible exact parts_refl
    | (with_reducible refine Or.inl ?_; and_intros <;> with_reducible rfl)
    | exact Or.inl rfl
    | dsimp only
    | rw [mk_put])

theorem State.enterBarrier_keeps {s0 : State} {s : State} {cid : Nat} {ports : BitVec 8}
    (h0 : keeps s0 s) : keeps s0 (State.enterBarrier s cid ports) := by
  unfold State.enterBarrier
  try dsimp only
  repeat' (first
    | with_reducible assumption
    | exact len_modify
    | exact len_map
    | exact len_mapIdx
    | with_reducible intro _
    | with_reducible apply State.tryRelease_keeps
    | with_reducible apply State.barrierFrame_keeps
    | with_reducible apply keeps_getD
    | with_reducible apply keeps_ite
    | with_reducible apply keeps_foldl
    | with_reducible apply keeps_foldl_fst
    | with_reducible apply keeps_mk
    | with_reducible exact id
    | with_reducible exact partsKeep_refl
    | with_reducible exact rasKeep_refl
    | with_reducible exact hbmKeep_refl
    | with_reducible exact pkgKeep_refl
    | with_reducible exact secKeep_refl
    | with_reducible exact namesKeep_refl
    | dsimp only
    | rw [mk_put])

theorem State.finishTest_only {ls : List Item} {s0 : State} {s : State} {cid : Nat}
    (h0 : changesOnly ls s0 s) (hm : incl [.rasLog, .cores, .clusters, .hif, .fns, .ports, .barriers, .tests, .out] ls = true) : changesOnly ls s0 (State.finishTest s cid) := by
  have hs := @mem_of_incl [.rasLog, .cores, .clusters, .hif, .fns, .ports, .barriers, .tests, .out] ls hm
  unfold State.finishTest
  try dsimp only
  repeat' (first
    | with_reducible assumption
    | with_reducible intro _
    | with_reducible apply State.endTest_only
    | exact incl_trans rfl hm
    | with_reducible apply only_mk
    | exact Or.inr (hs (by decide))
    | with_reducible exact Or.inl rfl
    | with_reducible exact parts_refl
    | (with_reducible refine Or.inl ?_; and_intros <;> with_reducible rfl)
    | exact Or.inl rfl
    | dsimp only
    | rw [mk_put])

theorem State.finishTest_keeps {s0 : State} {s : State} {cid : Nat}
    (h0 : keeps s0 s) : keeps s0 (State.finishTest s cid) := by
  unfold State.finishTest
  try dsimp only
  repeat' (first
    | with_reducible assumption
    | exact len_modify
    | exact len_map
    | exact len_mapIdx
    | with_reducible intro _
    | with_reducible apply State.endTest_keeps
    | with_reducible apply keeps_mk
    | with_reducible exact id
    | with_reducible exact partsKeep_refl
    | with_reducible exact rasKeep_refl
    | with_reducible exact hbmKeep_refl
    | with_reducible exact pkgKeep_refl
    | with_reducible exact secKeep_refl
    | with_reducible exact namesKeep_refl
    | dsimp only
    | rw [mk_put])

theorem State.drainAgain_only {ls : List Item} {s0 : State} {s : State} {t : Test} {stop : Bool}
    (h0 : changesOnly ls s0 s) (hm : incl [.cores] ls = true) : changesOnly ls s0 (State.drainAgain s t stop) := by
  have hs := @mem_of_incl [.cores] ls hm
  unfold State.drainAgain
  try dsimp only
  repeat' (first
    | with_reducible assumption
    | with_reducible intro _
    | with_reducible apply State.modCore_only
    | with_reducible apply only_ite
    | with_reducible apply only_foldl
    | with_reducible apply only_foldl_fst
    | exact incl_trans rfl hm
    | with_reducible apply only_mk
    | exact Or.inr (hs (by decide))
    | with_reducible exact Or.inl rfl
    | with_reducible exact parts_refl
    | (with_reducible refine Or.inl ?_; and_intros <;> with_reducible rfl)
    | exact Or.inl rfl
    | with_reducible refine only_pair (by assumption) ?_
    | dsimp only
    | rw [mk_put]
    | split)

theorem State.drainAgain_keeps {s0 : State} {s : State} {t : Test} {stop : Bool}
    (h0 : keeps s0 s) : keeps s0 (State.drainAgain s t stop) := by
  unfold State.drainAgain
  try dsimp only
  repeat' (first
    | with_reducible assumption
    | with_reducible intro _
    | with_reducible apply State.modCore_keeps
    | with_reducible apply keeps_ite
    | with_reducible apply keeps_foldl
    | with_reducible apply keeps_foldl_fst
    | with_reducible apply keeps_mk
    | with_reducible exact id
    | with_reducible exact partsKeep_refl
    | with_reducible exact rasKeep_refl
    | with_reducible exact hbmKeep_refl
    | with_reducible exact pkgKeep_refl
    | with_reducible exact secKeep_refl
    | with_reducible exact namesKeep_refl
    | with_reducible refine keeps_pair (by assumption) ?_
    | dsimp only
    | rw [mk_put]
    | split)

theorem State.modTest_only {ls : List Item} {s0 : State} {s : State} {cid : Nat} {f : Test → Test}
    (h0 : changesOnly ls s0 s) (hm : incl [.tests] ls = true) : changesOnly ls s0 (State.modTest s cid f) := by
  have hs := @mem_of_incl [.tests] ls hm
  unfold State.modTest
  try dsimp only
  repeat' (first
    | with_reducible assumption
    | with_reducible intro _
    | with_reducible apply only_ite
    | exact incl_trans rfl hm
    | with_reducible apply only_mk
    | exact Or.inr (hs (by decide))
    | with_reducible exact Or.inl rfl
    | with_reducible exact parts_refl
    | (with_reducible refine Or.inl ?_; and_intros <;> with_reducible rfl)
    | exact Or.inl rfl
    | dsimp only
    | rw [mk_put])

theorem State.modTest_keeps {s0 : State} {s : State} {cid : Nat} {f : Test → Test}
    (h0 : keeps s0 s) : keeps s0 (State.modTest s cid f) := by
  unfold State.modTest
  try dsimp only
  repeat' (first
    | with_reducible assumption
    | with_reducible intro _
    | with_reducible apply keeps_ite
    | with_reducible apply keeps_mk
    | with_reducible exact id
    | with_reducible exact partsKeep_refl
    | with_reducible exact rasKeep_refl
    | with_reducible exact hbmKeep_refl
    | with_reducible exact pkgKeep_refl
    | with_reducible exact secKeep_refl
    | with_reducible exact namesKeep_refl
    | dsimp only
    | rw [mk_put])

theorem State.settleTest_only {ls : List Item} {s0 : State} {s : State} {t : Test}
    (h0 : changesOnly ls s0 s) (hm : incl [.time, .rasLog, .cores, .clusters, .hif, .fns, .cmds, .locks, .pMem, .pColls, .pShadows, .pAcct, .ctxs, .streams, .ristretto, .semaphores, .poison, .slm, .ports, .peers, .meshRef, .transit, .tests, .out, .fresh] ls = true) : changesOnly ls s0 (State.settleTest s t) := by
  unfold State.settleTest
  try dsimp only
  repeat' (first
    | with_reducible assumption
    | with_reducible intro _
    | with_reducible apply State.settlePorts_only
    | with_reducible apply State.drainAgain_only
    | with_reducible apply State.settleStandIn_only
    | with_reducible apply State.modTest_only
    | with_reducible apply State.movePort_only
    | with_reducible apply only_ite
    | with_reducible apply only_foldl
    | with_reducible apply only_foldl_fst
    | exact incl_trans rfl hm)

theorem State.settleTest_keeps {s0 : State} {s : State} {t : Test}
    (h0 : keeps s0 s) : keeps s0 (State.settleTest s t) := by
  unfold State.settleTest
  try dsimp only
  repeat' (first
    | with_reducible assumption
    | with_reducible intro _
    | with_reducible apply State.settlePorts_keeps
    | with_reducible apply State.drainAgain_keeps
    | with_reducible apply State.settleStandIn_keeps
    | with_reducible apply State.modTest_keeps
    | with_reducible apply State.movePort_keeps
    | with_reducible apply keeps_ite
    | with_reducible apply keeps_foldl)

theorem State.logTest_only {ls : List Item} {s0 : State} {s : State} {x : Nat × Nat} {result : Nat}
    (h0 : changesOnly ls s0 s) (hm : incl [.rasLog, .fns, .out] ls = true) : changesOnly ls s0 (State.logTest s x result) := by
  unfold State.logTest
  try dsimp only
  repeat' first | with_reducible assumption | with_reducible intro _ | with_reducible apply State.log_only

theorem State.logTest_keeps {s0 : State} {s : State} {x : Nat × Nat} {result : Nat}
    (h0 : keeps s0 s) : keeps s0 (State.logTest s x result) := by
  unfold State.logTest
  try dsimp only
  repeat' first | with_reducible assumption | with_reducible intro _ | with_reducible apply State.log_keeps

theorem State.itemFailed_only {ls : List Item} {s0 : State} {s : State} {x : Nat × Nat}
    (h0 : changesOnly ls s0 s) (hm : incl [.time, .pkg, .fw, .rasLog, .cores, .clusters, .rasCounts, .hif, .fns, .pairs, .cmds, .locks, .pConfig, .pMem, .pScratch, .pUses, .pKey, .pColls, .pShadows, .pAcct, .pSched, .pHot, .ctxs, .streams, .ristretto, .semaphores, .channels, .poison, .hbmRun, .slm, .ports, .peers, .meshRef, .barriers, .transit, .power, .tests, .out, .fresh] ls = true) : changesOnly ls s0 (State.itemFailed s x) := by
  have hs := @mem_of_incl [.time, .pkg, .fw, .rasLog, .cores, .clusters, .rasCounts, .hif, .fns, .pairs, .cmds, .locks, .pConfig, .pMem, .pScratch, .pUses, .pKey, .pColls, .pShadows, .pAcct, .pSched, .pHot, .ctxs, .streams, .ristretto, .semaphores, .channels, .poison, .hbmRun, .slm, .ports, .peers, .meshRef, .barriers, .transit, .power, .tests, .out, .fresh] ls hm
  unfold State.itemFailed
  try dsimp only
  repeat' (first
    | with_reducible assumption
    | with_reducible intro _
    | with_reducible apply State.bypass_only
    | with_reducible apply State.logTest_only
    | with_reducible apply State.coreFail_only
    | with_reducible apply State.movePort_only
    | exact incl_trans rfl hm
    | with_reducible apply only_mk
    | exact Or.inr (hs (by decide))
    | with_reducible exact Or.inl rfl
    | with_reducible exact parts_refl
    | (with_reducible refine Or.inl ?_; and_intros <;> with_reducible rfl)
    | exact Or.inl rfl
    | with_reducible refine only_pair (by assumption) ?_
    | dsimp only
    | rw [mk_put]
    | split)

theorem State.itemFailed_keeps {s0 : State} {s : State} {x : Nat × Nat}
    (h0 : keeps s0 s) : keeps s0 (State.itemFailed s x) := by
  unfold State.itemFailed
  try dsimp only
  repeat' (first
    | with_reducible assumption
    | with_reducible intro _
    | with_reducible apply State.bypass_keeps
    | with_reducible apply State.logTest_keeps
    | with_reducible apply State.coreFail_keeps
    | with_reducible apply State.movePort_keeps
    | with_reducible apply keeps_mk
    | with_reducible exact id
    | with_reducible exact partsKeep_refl
    | with_reducible exact rasKeep_refl
    | with_reducible exact hbmKeep_refl
    | with_reducible exact pkgKeep_refl
    | with_reducible exact secKeep_refl
    | with_reducible exact namesKeep_refl
    | with_reducible refine keeps_pair (by assumption) ?_
    | dsimp only
    | rw [mk_put]
    | split)

end Sys2Proof.Machine
end

