-- ==== Sys2Proof/Laws/Streams.lean ====
section
/-! SUPPORT. What each operation of Machine/Streams.lean may change: its frame, and that it
keeps the invariant and the fuses. -/

namespace Sys2Proof.Machine

open Sys2Proof.Safety Sys2Proof.Laws

theorem State.modStream_only {ls : List Item} {s0 : State} {s : State} {core num : Nat} {f : Stream → Stream}
    (h0 : changesOnly ls s0 s) (hm : incl [.streams] ls = true) : changesOnly ls s0 (State.modStream s core num f) := by
  have hs := @mem_of_incl [.streams] ls hm
  unfold State.modStream
  try dsimp only
  repeat' (first
    | with_reducible assumption
    | with_reducible intro _
    | with_reducible apply only_ite
    | exact incl_trans rfl hm
    | with_reducible apply only_mk
    | exact Or.inr (hs (by decide))
    | with_reducible exact Or.inl rfl
    | with_reducible exact parts_refl
    | (with_reducible refine Or.inl ?_; and_intros <;> with_reducible rfl)
    | exact Or.inl rfl
    | dsimp only
    | rw [mk_put])

theorem State.modStream_keeps {s0 : State} {s : State} {core num : Nat} {f : Stream → Stream}
    (h0 : keeps s0 s) : keeps s0 (State.modStream s core num f) := by
  unfold State.modStream
  try dsimp only
  repeat' (first
    | with_reducible assumption
    | with_reducible intro _
    | with_reducible apply keeps_ite
    | with_reducible apply keeps_mk
    | with_reducible exact id
    | with_reducible exact partsKeep_refl
    | with_reducible exact rasKeep_refl
    | with_reducible exact hbmKeep_refl
    | with_reducible exact pkgKeep_refl
    | with_reducible exact secKeep_refl
    | with_reducible exact namesKeep_refl
    | dsimp only
    | rw [mk_put])

theorem State.askPage_only {ls : List Item} {s0 : State} {s : State} {x : Stream}
    (h0 : changesOnly ls s0 s) (hm : incl [.fns, .streams, .out] ls = true) : changesOnly ls s0 (State.askPage s x) := by
  unfold State.askPage
  try dsimp only
  repeat' (first
    | with_reducible assumption
    | with_reducible intro _
    | with_reducible apply State.sendPageRequest_only
    | with_reducible apply State.modStream_only
    | with_reducible apply only_ite
    | exact incl_trans rfl hm)

theorem State.askPage_keeps {s0 : State} {s : State} {x : Stream}
    (h0 : keeps s0 s) : keeps s0 (State.askPage s x) := by
  unfold State.askPage
  try dsimp only
  repeat' (first
    | with_reducible assumption
    | with_reducible intro _
    | with_reducible apply State.sendPageRequest_keeps
    | with_reducible apply State.modStream_keeps
    | with_reducible apply keeps_ite)

theorem State.askWaiting_only {ls : List Item} {s0 : State} {s : State} {fn : Fn}
    (h0 : changesOnly ls s0 s) (hm : incl [.fns, .cmds, .streams, .out] ls = true) : changesOnly ls s0 (State.askWaiting s fn) := by
  unfold State.askWaiting
  try dsimp only
  repeat' (first
    | with_reducible assumption
    | with_reducible intro _
    | with_reducible apply State.askCompletions_only
    | with_reducible apply State.askPage_only
    | with_reducible apply only_foldl
    | with_reducible apply only_foldl_fst
    | exact incl_trans rfl hm)

theorem State.askWaiting_keeps {s0 : State} {s : State} {fn : Fn}
    (h0 : keeps s0 s) : keeps s0 (State.askWaiting s fn) := by
  unfold State.askWaiting
  try dsimp only
  repeat' (first
    | with_reducible assumption
    | with_reducible intro _
    | with_reducible apply State.askCompletions_keeps
    | with_reducible apply State.askPage_keeps
    | with_reducible apply keeps_foldl)

theorem State.setCtx_only {ls : List Item} {s0 : State} {s : State} {cid : Nat} {from_ : List CtxState} {into : CtxState}
    (h0 : changesOnly ls s0 s) (hm : incl [.ctxs] ls = true) : changesOnly ls s0 (State.setCtx s cid from_ into) := by
  have hs := @mem_of_incl [.ctxs] ls hm
  unfold State.setCtx
  try dsimp only
  repeat' (first
    | with_reducible assumption
    | with_reducible intro _
    | with_reducible apply only_ite
    | exact incl_trans rfl hm
    | with_reducible apply only_mk
    | exact Or.inr (hs (by decide))
    | with_reducible exact Or.inl rfl
    | with_reducible exact parts_refl
    | (with_reducible refine Or.inl ?_; and_intros <;> with_reducible rfl)
    | exact Or.inl rfl
    | dsimp only
    | rw [mk_put])

theorem State.setCtx_keeps {s0 : State} {s : State} {cid : Nat} {from_ : List CtxState} {into : CtxState}
    (h0 : keeps s0 s) : keeps s0 (State.setCtx s cid from_ into) := by
  unfold State.setCtx
  try dsimp only
  repeat' (first
    | with_reducible assumption
    | with_reducible intro _
    | with_reducible apply keeps_ite
    | with_reducible apply keeps_mk
    | with_reducible exact id
    | with_reducible exact partsKeep_refl
    | with_reducible exact rasKeep_refl
    | with_reducible exact hbmKeep_refl
    | with_reducible exact pkgKeep_refl
    | with_reducible exact secKeep_refl
    | with_reducible exact namesKeep_refl
    | dsimp only
    | rw [mk_put])

theorem State.haltStream_only {ls : List Item} {s0 : State} {s : State} {x : Stream}
    (h0 : changesOnly ls s0 s) (hm : incl [.fns, .ctxs, .streams, .out] ls = true) : changesOnly ls s0 (State.haltStream s x) := by
  unfold State.haltStream
  try dsimp only
  repeat' (first
    | with_reducible assumption
    | with_reducible intro _
    | with_reducible apply State.askPage_only
    | with_reducible apply State.modStream_only
    | with_reducible apply State.setCtx_only
    | exact incl_trans rfl hm)

theorem State.haltStream_keeps {s0 : State} {s : State} {x : Stream}
    (h0 : keeps s0 s) : keeps s0 (State.haltStream s x) := by
  unfold State.haltStream
  try dsimp only
  repeat' (first
    | with_reducible assumption
    | with_reducible intro _
    | with_reducible apply State.askPage_keeps
    | with_reducible apply State.modStream_keeps
    | with_reducible apply State.setCtx_keeps)

theorem State.elemsDone_only {ls : List Item} {s0 : State} {s : State} {y : Stream} {new : List Nat}
    (h0 : changesOnly ls s0 s) (hm : incl [.streams] ls = true) : changesOnly ls s0 (State.elemsDone s y new) := by
  have hs := @mem_of_incl [.streams] ls hm
  unfold State.elemsDone
  try dsimp only
  repeat' (first
    | with_reducible assumption
    | with_reducible intro _
    | with_reducible apply State.modStream_only
    | with_reducible apply only_ite
    | exact incl_trans rfl hm
    | with_reducible apply only_mk
    | exact Or.inr (hs (by decide))
    | with_reducible exact Or.inl rfl
    | with_reducible exact parts_refl
    | (with_reducible refine Or.inl ?_; and_intros <;> with_reducible rfl)
    | exact Or.inl rfl
    | dsimp only
    | rw [mk_put])

theorem State.elemsDone_keeps {s0 : State} {s : State} {y : Stream} {new : List Nat}
    (h0 : keeps s0 s) : keeps s0 (State.elemsDone s y new) := by
  unfold State.elemsDone
  try dsimp only
  repeat' (first
    | with_reducible assumption
    | with_reducible intro _
    | with_reducible apply State.modStream_keeps
    | with_reducible apply keeps_ite
    | with_reducible apply keeps_mk
    | with_reducible exact id
    | with_reducible exact partsKeep_refl
    | with_reducible exact rasKeep_refl
    | with_reducible exact hbmKeep_refl
    | with_reducible exact pkgKeep_refl
    | with_reducible exact secKeep_refl
    | with_reducible exact namesKeep_refl
    | dsimp only
    | rw [mk_put])

theorem State.issueStream_only {ls : List Item} {s0 : State} {s : State} {x : Stream}
    (h0 : changesOnly ls s0 s) (hm : incl [.streams, .atc, .out] ls = true) : changesOnly ls s0 (State.issueStream s x) := by
  unfold State.issueStream
  try dsimp only
  repeat' (first
    | with_reducible assumption
    | with_reducible intro _
    | with_reducible apply State.translate_only
    | with_reducible apply State.elemsDone_only
    | with_reducible apply only_ite
    | exact incl_trans rfl hm)

theorem State.issueStream_keeps {s0 : State} {s : State} {x : Stream}
    (h0 : keeps s0 s) : keeps s0 (State.issueStream s x) := by
  unfold State.issueStream
  try dsimp only
  repeat' (first
    | with_reducible assumption
    | with_reducible intro _
    | with_reducible apply State.translate_keeps
    | with_reducible apply State.elemsDone_keeps
    | with_reducible apply keeps_ite)

theorem State.landElem_only {ls : List Item} {s0 : State} {s : State} {x : Stream} {e : Nat}
    (h0 : changesOnly ls s0 s) (hm : incl [.cores] ls = true) : changesOnly ls s0 (State.landElem s x e) := by
  unfold State.landElem
  try dsimp only
  repeat' (first
    | with_reducible assumption
    | with_reducible intro _
    | with_reducible apply State.loadCarafe_only
    | with_reducible apply State.walkerFetch_only
    | with_reducible apply only_ite)

theorem State.landElem_keeps {s0 : State} {s : State} {x : Stream} {e : Nat}
    (h0 : keeps s0 s) : keeps s0 (State.landElem s x e) := by
  unfold State.landElem
  try dsimp only
  repeat' (first
    | with_reducible assumption
    | with_reducible intro _
    | with_reducible apply State.loadCarafe_keeps
    | with_reducible apply State.walkerFetch_keeps
    | with_reducible apply keeps_ite)

theorem State.ristrettoFault_only {ls : List Item} {s0 : State} {s : State} {r : Ristretto}
    (h0 : changesOnly ls s0 s) (hm : incl [.fns, .ctxs, .streams, .ristretto, .out] ls = true) : changesOnly ls s0 (State.ristrettoFault s r) := by
  have hs := @mem_of_incl [.fns, .ctxs, .streams, .ristretto, .out] ls hm
  unfold State.ristrettoFault
  try dsimp only
  repeat' (first
    | with_reducible assumption
    | with_reducible intro _
    | with_reducible apply State.haltStream_only
    | with_reducible apply only_getD
    | exact incl_trans rfl hm
    | with_reducible apply only_mk
    | exact Or.inr (hs (by decide))
    | with_reducible exact Or.inl rfl
    | with_reducible exact parts_refl
    | (with_reducible refine Or.inl ?_; and_intros <;> with_reducible rfl)
    | exact Or.inl rfl
    | with_reducible refine only_pair (by assumption) ?_
    | dsimp only
    | rw [mk_put]
    | split)

theorem State.ristrettoFault_keeps {s0 : State} {s : State} {r : Ristretto}
    (h0 : keeps s0 s) : keeps s0 (State.ristrettoFault s r) := by
  unfold State.ristrettoFault
  try dsimp only
  repeat' (first
    | with_reducible assumption
    | with_reducible intro _
    | with_reducible apply State.haltStream_keeps
    | with_reducible apply keeps_getD
    | with_reducible apply keeps_mk
    | with_reducible exact id
    | with_reducible exact partsKeep_refl
    | with_reducible exact rasKeep_refl
    | with_reducible exact hbmKeep_refl
    | with_reducible exact pkgKeep_refl
    | with_reducible exact secKeep_refl
    | with_reducible exact namesKeep_refl
    | with_reducible refine keeps_pair (by assumption) ?_
    | dsimp only
    | rw [mk_put]
    | split)

theorem State.logStream_only {ls : List Item} {s0 : State} {s : State} {x : Stream} {status : Nat}
    (h0 : changesOnly ls s0 s) (hm : incl [.rasLog, .fns, .out] ls = true) : changesOnly ls s0 (State.logStream s x status) := by
  have hs := @mem_of_incl [.rasLog, .fns, .out] ls hm
  unfold State.logStream
  try dsimp only
  repeat' (first
    | with_reducible assumption
    | with_reducible intro _
    | with_reducible apply State.log_only
    | exact incl_trans rfl hm
    | with_reducible apply only_mk
    | exact Or.inr (hs (by decide))
    | with_reducible exact Or.inl rfl
    | with_reducible exact parts_refl
    | (with_reducible refine Or.inl ?_; and_intros <;> with_reducible rfl)
    | exact Or.inl rfl
    | with_reducible refine only_pair (by assumption) ?_
    | dsimp only
    | rw [mk_put]
    | split)

theorem State.logStream_keeps {s0 : State} {s : State} {x : Stream} {status : Nat}
    (h0 : keeps s0 s) : keeps s0 (State.logStream s x status) := by
  unfold State.logStream
  try dsimp only
  repeat' (first
    | with_reducible assumption
    | with_reducible intro _
    | with_reducible apply State.log_keeps
    | with_reducible apply keeps_mk
    | with_reducible exact id
    | with_reducible exact partsKeep_refl
    | with_reducible exact rasKeep_refl
    | with_reducible exact hbmKeep_refl
    | with_reducible exact pkgKeep_refl
    | with_reducible exact secKeep_refl
    | with_reducible exact namesKeep_refl
    | with_reducible refine keeps_pair (by assumption) ?_
    | dsimp only
    | rw [mk_put]
    | split)

end Sys2Proof.Machine
end

