-- ==== Sys2Proof/Laws/Tdisp.lean ====
section
/-! SUPPORT. What each operation of Machine/Tdisp.lean may change: its frame, and that it
keeps the invariant and the fuses. -/

namespace Sys2Proof.Machine

open Sys2Proof.Safety Sys2Proof.Laws

theorem State.tdispSay_only {ls : List Item} {s0 : State} {s : State} {p : PartNo} {name : String} {content : Bytes}
    (h0 : changesOnly ls s0 s) (hm : incl [.out] ls = true) : changesOnly ls s0 (State.tdispSay s p name content) := by
  unfold State.tdispSay
  try dsimp only
  repeat' first | with_reducible assumption | with_reducible intro _ | with_reducible apply State.emit_only

theorem State.tdispSay_keeps {s0 : State} {s : State} {p : PartNo} {name : String} {content : Bytes}
    (h0 : keeps s0 s) : keeps s0 (State.tdispSay s p name content) := by
  unfold State.tdispSay
  try dsimp only
  repeat' first | with_reducible assumption | with_reducible intro _ | with_reducible apply State.emit_keeps

theorem State.tdispWrong_only {ls : List Item} {s0 : State} {s : State} {p : PartNo}
    (h0 : changesOnly ls s0 s) (hm : incl [.out] ls = true) : changesOnly ls s0 (State.tdispWrong s p) := by
  unfold State.tdispWrong
  try dsimp only
  repeat' first | with_reducible assumption | with_reducible intro _ | with_reducible apply State.tdispSay_only

theorem State.tdispWrong_keeps {s0 : State} {s : State} {p : PartNo}
    (h0 : keeps s0 s) : keeps s0 (State.tdispWrong s p) := by
  unfold State.tdispWrong
  try dsimp only
  repeat' first | with_reducible assumption | with_reducible intro _ | with_reducible apply State.tdispSay_keeps

theorem State.clearForLock_only {ls : List Item} {s0 : State} {s : State} {p : PartNo}
    (h0 : changesOnly ls s0 s) (hm : incl [.rasLog, .fns, .cmds, .locks, .pMem, .pColls, .pAcct, .ctxs, .streams, .ristretto, .semaphores, .poison, .slm, .ports, .peers, .transit, .out, .fresh] ls = true) : changesOnly ls s0 (State.clearForLock s p) := by
  unfold State.clearForLock
  try dsimp only
  repeat' (first
    | with_reducible assumption
    | with_reducible intro _
    | with_reducible apply State.tearDown_only
    | with_reducible apply State.endWhere_only
    | with_reducible apply only_foldl)

theorem State.clearForLock_keeps {s0 : State} {s : State} {p : PartNo}
    (h0 : keeps s0 s) : keeps s0 (State.clearForLock s p) := by
  unfold State.clearForLock
  try dsimp only
  repeat' (first
    | with_reducible assumption
    | with_reducible intro _
    | with_reducible apply State.tearDown_keeps
    | with_reducible apply State.endWhere_keeps
    | with_reducible apply keeps_foldl)

theorem State.streamLost_only {ls : List Item} {s0 : State} {s : State} {stream : Nat}
    (h0 : changesOnly ls s0 s) (hm : incl [.rasLog, .fns, .cmds, .locks, .pMem, .pKey, .pColls, .pAcct, .ctxs, .streams, .ristretto, .semaphores, .poison, .slm, .ports, .peers, .transit, .out, .fresh] ls = true) : changesOnly ls s0 (State.streamLost s stream) := by
  unfold State.streamLost
  try dsimp only
  repeat' (first
    | with_reducible assumption
    | with_reducible intro _
    | with_reducible apply State.tdiError_only
    | with_reducible apply only_foldl)

theorem State.streamLost_keeps {s0 : State} {s : State} {stream : Nat}
    (h0 : keeps s0 s) : keeps s0 (State.streamLost s stream) := by
  unfold State.streamLost
  try dsimp only
  repeat' (first
    | with_reducible assumption
    | with_reducible intro _
    | with_reducible apply State.tdiError_keeps
    | with_reducible apply keeps_foldl)

end Sys2Proof.Machine
end

