-- ==== Sys2Proof/Laws/Tick.lean ====
section
/-! SUPPORT. What each operation of Machine/Tick.lean may change: its frame, and that it
keeps the invariant and the fuses. -/

namespace Sys2Proof.Machine

open Sys2Proof.Safety Sys2Proof.Laws

theorem State.tickAll_only {ls : List Item} {s0 : State} {s : State}
    (h0 : changesOnly ls s0 s) (hm : incl [.time, .pkg, .fw, .debug, .rasLog, .cores, .clusters, .rasCounts, .hif, .fns, .pairs, .cmds, .locks, .pConfig, .pMem, .pKey, .pColls, .pShadows, .pAcct, .pSched, .ctxs, .streams, .ristretto, .semaphores, .channels, .poison, .hbmRun, .slm, .ports, .peers, .meshRef, .barriers, .transit, .power, .tests, .out, .fresh] ls = true) : changesOnly ls s0 (State.tickAll s) := by
  unfold State.tickAll
  try dsimp only
  repeat' (first
    | with_reducible assumption
    | with_reducible intro _
    | with_reducible apply State.settleDrains_only
    | with_reducible apply State.settleTest_only
    | with_reducible apply State.tick_only
    | with_reducible apply State.settleDebug_only
    | with_reducible apply only_ite
    | with_reducible apply only_foldl
    | with_reducible apply only_foldl_fst
    | exact incl_trans rfl hm)

theorem State.tickAll_keeps {s0 : State} {s : State}
    (h0 : keeps s0 s) : keeps s0 (State.tickAll s) := by
  unfold State.tickAll
  try dsimp only
  repeat' (first
    | with_reducible assumption
    | with_reducible intro _
    | with_reducible apply State.settleDrains_keeps
    | with_reducible apply State.settleTest_keeps
    | with_reducible apply State.tick_keeps
    | with_reducible apply State.settleDebug_keeps
    | with_reducible apply keeps_ite
    | with_reducible apply keeps_foldl)

end Sys2Proof.Machine
end

