-- ==== Sys2Proof/Machine/View.lean ====
section
/-! DEFINITION. What a read of a register returns (R61 to R67, R81, R82, R416, R417, R453 to R457, R498 to R501, R535, R547, R575). A
read changes nothing, and the table has no row for it: these are views of the state. -/

namespace Sys2Proof.Machine

/-- A 32-bit value from its fields: position and value. -/
def fields (l : List (Nat × Nat)) : Nat := l.foldl (fun n f => n + f.2 * 2 ^ f.1) 0

/-- The low or the high word of a 64-bit register, by the read's offset. -/
def half (off v : Nat) : Nat := if off % 8 = 4 then v / 2 ^ 32 else v % 2 ^ 32

/-! ### HIF (R61 to R67) -/

def State.hifStatus (s : State) : Nat :=
  fields [(5, s.hif.fatal.toNat), (4, s.hif.reduced.toNat),
    (3, (s.sec.debugState == .openObserve || s.sec.debugState == .openFull).toNat), (2, s.hif.dpRestarting.toNat),
    (1, s.hif.dpReady.toNat), (0, s.hif.sageReady.toNat)]

def State.linkStatus (s : State) : Nat := fields [(12, s.hif.linkWidth), (8, s.hif.linkSpeed), (4, s.hif.linkFlit.toNat)]

def State.readHif (s : State) (off : Nat) : Nat :=
  match off with
  | 0x00 => 0x4816A100
  | 0x04 => s.fw.active.version.toNat
  | 0x08 => half 0 Config.serial.toNat
  | 0x0C => half 4 Config.serial.toNat
  | 0x10 => s.hifStatus
  | 0x18 => s.hif.resetCause.toNat
  | 0x1C => (s.fnAt .pf).evCause.toNat
  | 0x20 => (s.fnAt .pf).evMask.toNat
  | 0x24 => maskOf ((List.range 16).filter fun n => (s.clusterAt n).state == .active)
  | 0x28 => s.hbmGib
  | 0x2C => (s.fnAt .pf).bar2Ctrl.toNat
  | 0x30 => (s.fnAt .pf).bar2Base.toNat
  | 0x34 => s.linkStatus
  | 0x38 => s.hif.dpRestartCount
  | 0x40 => s.hif.scratch0.toNat
  | 0x44 => s.hif.scratch1.toNat
  | _ => 0

def State.readVfHif (s : State) (p : PartNo) (off : Nat) : Nat :=
  let f := s.fnAt (.vf p)
  match off with
  | 0x00 => fields [(4, f.tdi.code), (2, s.hif.dpRestarting.toNat), (1, s.hif.dpReady.toNat)]
  | 0x04 => f.evCause.toNat
  | 0x08 => f.evMask.toNat
  | 0x0C => f.bar2Ctrl.toNat
  | 0x10 => f.bar2Base.toNat
  | _ => 0

/-! ### QM (R81, R82) -/

/-- QM_QP_STATUS: 0 for a pair that does not exist. -/
def State.pairStatus (s : State) (fn : Fn) (qid : Nat) : Nat :=
  match s.pair? fn qid with
  | none => 0
  | some q => fields [(48, q.freezeCount), (32, s.inflight fn qid), (19, q.restart.isSome.toNat), (18, q.deleting.toNat),
      (17, q.frozen.toNat), (16, 1), (0, q.head)]

def State.lockWaiters (s : State) : Nat :=
  (s.cmds.filter fun c => c.phase == .waiting && s.locks.any (fun l => l.cid == c.id) && !s.lockGranted c.id).length

def State.readQm (s : State) (fn : Fn) (off : Nat) : Nat :=
  let f := s.fnAt fn
  match off with
  | 0x00 => fields [(16, s.maxPairs fn), (0, 0xFFFF)]
  | 0x04 => f.qmEnable.toNat
  | 0x08 => fields [(16, (s.pairs.filter fun q => q.fn == fn).length), (0, f.qmReady.toNat)]
  | 0x10 => f.asqLo.toNat
  | 0x14 => f.asqHi.toNat
  | 0x18 => f.acqLo.toNat
  | 0x1C => f.acqHi.toNat
  | 0x20 => f.aqSize.toNat
  | 0x28 => (s.cmds.filter fun c => c.fn == fn && !c.isAdmin && c.origin.isNone && !c.shadow).length
  | 0x30 => if fn == .pf then fields [(16, s.lockWaiters), (0, min 4096 s.locks.length)] else 0
  | _ => if 0x8000 ≤ off && off < 0x10000 then half off (s.pairStatus fn ((off - 0x8000) / 8)) else 0

/-! ### SAGE and THYME (R535, R547) -/

def Stage.code : Stage → Nat
  | .bootRom => 0 | .recovery => 1 | .running => 2

def State.readSage (s : State) (off : Nat) : Nat :=
  match off with
  | 0x00 => fields [(24, s.fw.bootError), (8, s.fw.stage.code), (1, s.fw.mbRespReady.toNat), (0, s.fw.mbBusy.toNat)]
  | 0x08 => s.fw.mbReq.toNat
  | 0x0C => s.fw.mbResp.toNat
  | 0x10 => s.fw.mbArg.toNat
  | 0x20 => fields [(16, min 0xFFFF s.pkg.switchCount), (2, s.pkg.onB.toNat), (1, s.pkg.vaonBGood.toNat), (0, s.pkg.vaonAGood.toNat)]
  | 0x24 => fields [(21, s.power.awake.toNat), (20, s.power.entry.isSome.toNat), (16, s.power.ps),
      (0, maskOf ((List.range 16).filter fun n => (s.clusterAt n).gated))]
  | _ =>
    if 0x10000 ≤ off && off < 0x20000 then (getKey s.fw.mbReqBuf ((off - 0x10000) / 4) 0).toNat
    else if 0x20000 ≤ off && off < 0x30000 then rd s.fw.mbRespBuf (off - 0x20000) 4
    else 0

def State.readThyme (s : State) (off : Nat) : Nat :=
  let t := s.time
  match off with
  | 0x00 | 0x04 => half off s.now
  | 0x08 => fields [(13, t.ppsEnable.toNat), (12, t.ppsFalling.toNat), (9, t.islandOsc.toNat), (8, (t.thyme < t.stampClock : Bool).toNat),
      (4, t.ppsState.code), (0, t.source.code)]
  | 0x0C => t.errorEst
  | 0x10 => unsign 32 t.rate
  | 0x18 => t.hostErr.toNat
  | 0x1C => unsign 32 t.ppsOffset
  | 0x28 | 0x2C => half off t.snap
  | 0x30 | 0x34 => half off t.ppsLast
  | 0x38 => unsign 32 t.ppsPhase
  | 0x3C => fields [(16, t.ppsRejected), (0, t.ppsAccepted)]
  | _ => 0

/-! ### PART (R412, R415 to R417) -/

/-- The registers of one partition. -/
def State.readPartOf (s : State) (p : PartNo) (off : Nat) : Nat :=
  let x := s.part p
  match off with
  | 0x00 => if x.present then fields [(16, x.clusters.toNat), (8, x.scratch), (4, x.borrow.toNat), (0, 1)] else 0
  | 0x04 => x.granules.length
  | 0x08 => fields [(16, x.meshShare), (0, x.hbmShare)]
  | 0x0C => x.qpQuota
  | 0x10 => fields [(16, (s.ctxs.filter fun c => (s.partCores p).contains c.core).length), (0, 128 * (s.partCores p).length)]
  | 0x14 => min 0xFFFF (s.cmds.filter fun c => c.part == some p && c.phase == .queued).length
  | _ =>
    if 0x100 ≤ off && off < 0x180 then fields [(16, (x.regs.getD ((off - 0x100) / 4) {}).depth), (0, s.rateOf p ((off - 0x100) / 4) % 4096)]
    else if 0x200 ≤ off && off < 0x258 then rd (x.acct.bytes s.fresh) (off - 0x200) 4
    else if 0x300 ≤ off && off < 0x340 then rd ((x.windows.head?.map Window.bytes).getD []) (off - 0x300) 4
    else 0

def State.readPart (s : State) (off : Nat) : Nat :=
  let l := s.present.map s.part
  match off with
  | 0x00 => fields [(24, 16), (16, 32), (0, s.assignable)]
  | 0x04 => maskOf (s.present.map (·.val))
  | 0x08 => maskOf ((List.range 16).filter fun n => (s.clusterAt n).state == .active && (s.owner n).isNone)
  | 0x0C => s.assignable - (l.flatMap (·.granules)).length
  | 0x10 => fields [(16, 64 - sumBy PartSt.meshShare l), (0, 1024 - sumBy PartSt.hbmShare l)]
  | 0x14 => 3840 - sumBy PartSt.qpQuota l
  | _ =>
    if 0x10000 ≤ off && off < 0x20000 then s.readPartOf (Fin.ofNat 16 ((off - 0x10000) / 0x1000)) (off % 0x1000) else 0

/-! ### MEM and TEST (R453 to R457) -/

def Channel.stateWord (c : Channel) : Nat :=
  fields [(16, min 15 c.marked.length), (12, min 15 c.dead.length), (8, c.spares), (0, c.state.code)]

def State.sliceWord (s : State) (n : Nat) : Nat :=
  let c := s.clusterAt n
  let st := if c.state != .active then 2 else if c.underTest then 1 else 0
  fields [(16, min 0xFFFF c.sliceCorrected), (12, st), (8, match s.owner n with | some p => (s.part p).scratch | none => 0),
    (0, match s.owner n with | some p => p.val | none => 0x1F)]

def State.readMem (s : State) (off : Nat) : Nat :=
  let h := s.hbm
  let count : (Channel → Bool) → Nat := fun f => (h.channels.filter f).length
  match off with
  | 0x00 => fields [(24, 8), (16, 32), (0, s.channelList.length)]
  | 0x04 => fields [(24, min 255 (count Channel.fenced)), (16, s.sec.fuses.repair.length),
      (8, min 255 (count fun c => c.state == .mappedOut)), (1, h.scrubActive.toNat), (0, h.initDone.toNat)]
  | 0x0C => h.thermThreshold.toNat
  | 0x10 => h.scrubPeriod.toNat
  | 0x14 => h.scrubRow
  | 0x40 | 0x44 => half off h.corrTotal
  | 0x48 | 0x4C => half off h.uncorrTotal
  | _ =>
    if 0x20 ≤ off && off < 0x40 then
      fields [(8, (h.stackSt.getD ((off - 0x20) / 4) {}).level), (0, min 255 (h.stackSt.getD ((off - 0x20) / 4) {}).temp)]
    else if 0x100 ≤ off && off < 0x500 then (s.chan ((off - 0x100) / 4)).stateWord
    else if 0x500 ≤ off && off < 0x900 then
      fields [(16, min 0xFFFF (s.chan ((off - 0x500) / 4)).uncorrected), (0, min 0xFFFF (s.chan ((off - 0x500) / 4)).corrected)]
    else if 0x900 ≤ off && off < 0x940 then s.sliceWord ((off - 0x900) / 4)
    else 0

/-- A traffic generator's registers: START and STOP read 0. -/
def State.readTest (s : State) (off : Nat) : Nat :=
  let t := (s.chan (off / 0x1000)).tg
  if 256 ≤ off / 0x1000 then 0
  else
    match off % 0x1000 with
    | 0x00 => t.ctrl.toNat
    | 0x04 => fields [(16, t.passesDone % 65536), (0, t.state)]
    | 0x08 => t.lineFirst.toNat
    | 0x0C => t.lineCount.toNat
    | 0x10 => t.seed.toNat
    | 0x14 => t.passes.toNat
    | 0x18 => t.errors
    | 0x1C => match t.firstErr with | some l => fields [(31, 1), (0, l)] | none => 0
    | 0x20 => maskOf (t.lanes.filter (· < 32))
    | 0x24 => maskOf ((t.lanes.filter fun l => 32 ≤ l && l < 64).map (· - 32))
    | 0x28 => maskOf ((t.lanes.filter fun l => 64 ≤ l && l < 74).map (· - 64))
    | 0x2C => t.corrected
    | _ => 0

/-! ### MESH (R498 to R501) -/

/-- The ports in a state, as a mask. -/
def State.portMask (s : State) (st : PortState) : Nat := maskOf ((List.range 8).filter fun n => (s.portAt n).state == st)

def State.readPort (s : State) (n off : Nat) : Nat :=
  let p := s.portAt n
  match off with
  | 0x00 => fields [(1, p.twoLanes.toNat), (0, p.enable.toNat)]
  | 0x04 => fields [(16, min 0xFFFF p.keyFails), (8, p.epoch % 256), (4, p.laneMask), (0, p.state.code)]
  | 0x08 => match p.peerId with | some d => fields [(31, 1), (16, d), (0, p.peerPort)] | none => 0
  | 0x0C => unsign 16 p.delay
  | 0x10 => unsign 32 p.offset
  | 0x18 | 0x1C => half off p.replays
  | 0x20 => min 0xFFFFFFFF p.fecCorrected
  | 0x24 => min 0xFFFFFFFF p.fecUncorrected
  | _ => 0

/-- The active entry of a destination with CURRENT, the position now in use. -/
def State.activeRoute (s : State) (d : Nat) : Nat :=
  (s.routeOf d).toNat + (match s.routePort d with | some x => x.2 | none => 0)

def State.readMesh (s : State) (off : Nat) : Nat :=
  let m := s.mesh
  match off with
  | 0x00 => 0x080403FF
  | 0x04 => fields [(16, m.deviceId), (0, m.enable.toNat)]
  | 0x08 => fields [(24, s.portMask .down), (16, s.portMask .degraded), (8, s.portMask .up), (1, m.isRef.toNat), (0, m.enable.toNat)]
  | 0x0C => fields [(16, m.refId), (12, m.refHops), (8, m.refLocked.toNat), (0, m.parent)]
  | 0x10 => m.resendUs.toNat
  | 0x18 => ((List.range 1024).filter fun d => d != m.deviceId && routeValid (s.routeOf d) && s.unreachable d).length
  | 0x1C => m.ttlDrops
  | _ =>
    if 0x100 ≤ off && off < 0x300 then s.readPort ((off - 0x100) / 0x40) (off % 0x40)
    else if 0x10000 ≤ off && off < 0x11000 then (getKey m.shadowRoutes ((off - 0x10000) / 4) 0).toNat
    else if 0x20000 ≤ off && off < 0x21000 then s.activeRoute ((off - 0x20000) / 4)
    else 0

/-! ### RAS (R558, R575, R577) -/

/-- The entry of a ring slot: the n-th entry written, from 0, lies in slot n mod 256 (R558). -/
def State.ringSlot (s : State) (i : Nat) : Option LogEntry :=
  let first := s.ras.written - s.ras.log.length
  (s.ras.log.zipIdx.find? fun e => (first + e.2) % 256 == i).map (·.1)

def State.coreWord (s : State) (n : Nat) : Nat :=
  let c := s.coreAt n
  fields [(16, c.kills), (8, min 255 (c.faultsAt.filter fun t => s.time.clk < t + 25000000).length), (0, c.state.code)]

def State.clusterWord (s : State) (n : Nat) : Nat :=
  let l := (List.range 9).map fun i => s.coreAt (9 * n + i)
  fields [(8, (l.any fun c => c.state == .spare).toNat), (4, (s.activeSet n).length),
    (0, (s.clusterAt n).state.code)]

/-- Unavailable time of a partition, with the interval that runs (R577). -/
def State.unavailNow (s : State) (p : Nat) : Nat :=
  s.ras.unavail.getD p 0 + (match s.ras.unavailSince.getD p none with | some t => s.phys - t | none => 0)

def State.readRas (s : State) (off : Nat) : Nat :=
  let r := s.ras
  match off with
  | 0x00 => r.nextSeq
  | 0x04 => (r.log.head?.map (·.seq)).getD 0
  | 0x08 => s.overwritten none
  | 0x0C => fields [(16, min 0xFFFF r.bypasses), (0, min 0xFFFF r.escalations)]
  | 0x18 => if r.log.isEmpty then 0 else (r.written - r.log.length) % 256
  | _ =>
    if 0x100 ≤ off && off < 0x340 then s.coreWord ((off - 0x100) / 4)
    else if 0x400 ≤ off && off < 0x440 then s.clusterWord ((off - 0x400) / 4)
    else if 0x500 ≤ off && off < 0x580 then half off (s.unavailNow ((off - 0x500) / 8))
    else if 0x10000 ≤ off && off < 0x14000 then rd ((s.ringSlot ((off - 0x10000) / 64)).map LogEntry.bytes |>.getD []) (off % 64) 4
    else 0

/-! ### The blocks (R55, R56) -/

def State.readPf (s : State) (off : Nat) : Nat :=
  if off < 0x100000 then s.readHif off
  else if off < 0x400000 then s.readQm .pf (off - 0x100000)
  else if off < 0x1000000 then 0
  else if off < 0x1400000 then s.readSage (off - 0x1000000)
  else if off < 0x1800000 then s.readThyme (off - 0x1400000)
  else if off < 0x2000000 then s.readPart (off - 0x1800000)
  else if off < 0x2800000 then s.readMem (off - 0x2000000)
  else if off < 0x3000000 then s.readMesh (off - 0x2800000)
  else if off < 0x3800000 then s.readRas (off - 0x3000000)
  else s.readTest (off - 0x3800000)

def State.readVf (s : State) (p : PartNo) (off : Nat) : Nat :=
  if off < 0x10000 then s.readQm (.vf p) off
  else if 0x20000 ≤ off && off < 0x20100 then s.readVfHif p (off - 0x20000)
  else 0

/-- The 32-bit register at an offset of a function's BAR0; an offset with no register reads 0 (R55). -/
def State.read32 (s : State) (fn : Fn) (off : Nat) : Nat :=
  match fn with
  | .pf => s.readPf off
  | .vf p => s.readVf p off

/-- Whether a read of BAR0 reaches it: a VF's while its TDI is CONFIG_LOCKED or RUN only with the T bit, and never in ERROR (R53,
R516); blocks beyond HIF and SAGE decode only while Sage runs (R539). -/
def State.bar0Reads (s : State) (fn : Fn) (off : Nat) (tbit : Bool) : Bool :=
  match fn with
  | .pf => s.barLive || off < 0x100000 || (0x1000000 ≤ off && off < 0x1400000)
  | .vf p => s.barOpen fn && (!s.tdiLocked p || tbit)

/-- What a read of BAR0 returns: none for Unsupported Request (R53, R57). An 8-byte read joins two registers. -/
def State.bar0Read (s : State) (fn : Fn) (off size : Nat) (tbit : Bool) : Option Nat :=
  if bar0Size fn ≤ off || !s.bar0Reads fn off tbit then none
  else if size = 4 && off % 4 = 0 then some (s.read32 fn off)
  else if size = 8 && off % 8 = 0 then some (s.read32 fn off + 2 ^ 32 * s.read32 fn (off + 4))
  else none

/-- What a read of BAR0 leaves: one of another size or alignment is logged (R57). The opcode table has no row for a read (log 46). -/
def State.afterBar0Read (s : State) (fn : Fn) (off size : Nat) : State :=
  if alignedAccess off size then s else s.logHost 2 fn 0 scCommand

/-- A dword of the MSI-X table, or of the pending-bit array behind it, in BAR4 (R54, R68). -/
def State.readMsix (s : State) (fn : Fn) (off : Nat) : Nat :=
  let f := s.fnAt fn
  let pba := match fn with | .pf => 0x8000 | .vf _ => 0x800
  if off < 16 * vectorsOf fn then
    let e := getKey f.msixTable (off / 16) (0, 0)
    match off % 16 / 4 with
    | 0 => e.1.toNat % 2 ^ 32
    | 1 => e.1.toNat / 2 ^ 32
    | 2 => e.2.toNat
    | _ => (!f.msixOpen.contains (off / 16)).toNat
  else if pba ≤ off && off < pba + vectorsOf fn / 8 then
    maskOf ((List.range 32).filter fun i => f.msixPending.contains ((off - pba) / 4 * 32 + i))
  else 0

/-- SPI_RST_N is held low until PG_G1 is asserted (R592). -/
def State.spiRstN (s : State) : Bool := s.pgOf 1

end Sys2Proof.Machine
end

