-- ==== Sys2Proof/Tests/Slice0.lean ====
section
/-! SUPPORT. Tests: small states, and for each statement a state and operands that meet its hypotheses. -/

open Sys2Proof Sys2Proof.Machine Sys2Proof.Safety

namespace Sys2Proof.Tests

set_option maxRecDepth 100000

/-- A 64-byte packet with some fields, as (offset, bytes). -/
def pk (l : List (Nat × Bytes)) : Bytes := l.foldl (fun b f => overlay b f.1 f.2) (zeros 64)

/-- An admin command of the PF, ready, with an opcode and fields. -/
def adm (op : Nat) (l : List (Nat × Bytes) := []) : Cmd := { id := 7, fn := .pf, qid := 0, packet := pk ((0, toLe 1 op) :: l), phase := .ready }

/-- An I/O command of VF 0, running, on the collection named 3. -/
def io (op : Nat) (l : List (Nat × Bytes) := []) (d : HostData := {}) : Cmd :=
  { id := 7, fn := .vf 0, qid := 1, part := some 0, packet := pk ((0, toLe 1 op) :: l), data := d, phase := .running, readStamp := 41, coll := some 3 }

/-- One element of a scatter list. -/
def sg (n : Nat) : Bytes := if n = 0 then [] else toLe 8 4096 ++ toLe 4 n ++ zeros 4

/-- An I/O command with a parameter block, an input buffer, and the lengths of its two lists. -/
def ioc (op : Nat) (param input : Bytes) (nin nout : Nat) : Cmd :=
  io op [(16, toLe 8 (if param.length = 0 then 0 else 0x1000)), (40, toLe 4 param.length), (24, toLe 8 (if nin = 0 then 0 else 0x2000)),
    (44, toLe 2 (min nin 1)), (32, toLe 8 (if nout = 0 then 0 else 0x3000)), (46, toLe 2 (min nout 1))]
    { param := param, inList := sg nin, input := input, outList := sg nout }

/-- A parameter block of `n` bytes with some fields. -/
def pb (n : Nat) (l : List (Nat × Bytes)) : Bytes := l.foldl (fun b f => overlay b f.1 f.2) (zeros n)

/-- The state an outcome goes on to. -/
def after : Host.Outcome State Fault Refusal → State
  | .next t => t
  | _ => State.reset

/-- Partition 0: cluster 0, two granules, a key. -/
def part0 : PartSt := { present := true, clusters := 1, scratch := 1, hbmShare := 1, granules := [0, 1], qpQuota := 4, hbmKey := some 1 }

/-- The data path is ready, Sage runs, every supply is good, and partition 0 exists. -/
def up : State := { State.reset with
  time := { clk := 1000000000, thyme := 40000000000, stampClock := 40000000000 }
  pkg := { vaonAGood := true, vaonBGood := true, en := [true, true, true, true, true], pg := [true, true, true, true, true], perst := false }
  fw := { stage := .running, pciePhyPassed := true }
  sec := { keyCount := 1 }
  hif := { dpReady := true, linkUp := true }
  hbm := { initDone := true }
  parts := part0 :: List.replicate 15 {} }

/-- The state with one command in flight. -/
def one (s : State) (c : Cmd) : State := { s with cmds := [c], nextCid := 8 }

/-- The state with partition 0 changed. -/
def p0 (s : State) (f : PartSt → PartSt) : State := s.modPart 0 f

/-- The state with a function changed. -/
def fnOf (s : State) (fn : Fn) (f : FnSt → FnSt) : State := s.modFn fn f

/-- A flat searchable collection: BF16, inner product, DIM 4, 16 records. -/
def flatBlock : Bytes := fit 64 (overlay (zeros 64) 0 [0, 6, 0, 0, 0, 0, 4, 0, 0, 0, 0, 0, 0, 0, 0, 0, 16])
def flat : Coll := Coll.laid 2 3 flatBlock [] 0

/-- A local table: FP32, DIM 4, 64 rows, SGD. -/
def tableBlock : Bytes := fit 64 (overlay (zeros 64) 0 [1, 11, 0, 0, 0, 0, 4, 0, 0, 0, 1, 0, 0, 0, 0, 0, 64])
def table : Coll := Coll.laid 2 3 tableBlock [] 0

/-- A graph collection with host sketches, of degree 16. -/
def graph : Coll := Coll.laid 2 3 (fit 64 [0, 6, 0, 1, 16, 0, 4, 0, 0, 0, 0, 0, 0, 0, 0, 0, 16]) [] 0

/-- Member 0 of a flat collection and of a table that devices 0 and 9 share. -/
def flat2 : Coll := Coll.laid 2 3 (overlay flatBlock 36 [2]) [0, 9] 0
def table2 : Coll := Coll.laid 2 3 (overlay tableBlock 36 [2]) [0, 9] 0

/-- A state with a collection of partition 0 and one command. -/
def withColl (k : Coll) (c : Cmd) : State := p0 (one up c) fun x => { x with colls := [k], mem := { extents := [{ lo := 0, hi := 16777216 }] } }

/-- Device 0 with port 0 up, device 9 behind it, domain 5 in partition 0; a command waits there for member 1. -/
def net (c : Cmd) (k : Coll := flat2) (p : Port := {}) : State :=
  { p0 (one up c) (fun x => { x.setFeat 0x80 5 with colls := [k], mem := { extents := [{ lo := 0, hi := 16777216 }] } }) with
    mesh := { enable := true, ports := { p with enable := true, state := .up, peerId := some 9 } :: List.replicate 7 {}, routes := [(9, 0x80000000)] } }

/-- A routed frame from device 9. -/
def hdr9 : FrameHdr := { src := 9, dest := 0, domain := 5, ttl := 8, tag := 4 }

/-- A SCAN that waits for member 1, under tag 4. -/
def asks : Cmd := { io 0x32 with mesh := some { tag := 4, members := [1], waiting := [1] } }

/-! ### Worked examples of the manual -/

/-- One byte of partition 1: granule 408, channel 22, in-channel line 0x66_0000, home slice 15. -/
theorem test_byte_of_partition_1 :
    ({ granules := (List.range 80).map (· + 400) } : PartSt).hbmAddr 0x200004A00 = 0x6600004A00 ∧
    (channelOf 0x6600004A00 State.reset.channelList).1 = 22 ∧ (channelOf 0x6600004A00 State.reset.channelList).2 = 0x660000 ∧
    homeSlice [12, 13, 14, 15] 0x6600004A00 = 15 := by decide

/-- Two lists with a duplicate and a tie: 901, 120, 455, 812, 30 with K = 5. -/
theorem test_join_drops_duplicate_and_keeps_lowest_of_a_tie :
    (joinK 5 [⟨0x3E000000, 1, 901, 0, 0, []⟩, ⟨0x3E0624DD, 2, 120, 0, 0, []⟩, ⟨0x3E0624DD, 7210, 455, 0, 0, []⟩,
        ⟨0x3E0F5C29, 4, 63, 0, 0, []⟩, ⟨0x3E0F5C29, 5, 77, 0, 0, []⟩]
      [⟨0x3E0624DD, 7210, 455, 0, 0, []⟩, ⟨0x3E0AC083, 6, 812, 0, 0, []⟩, ⟨0x3E0F5C29, 3, 30, 0, 0, []⟩]).map (·.gid) =
      [901, 120, 455, 812, 30] := by decide

/-- Partition 5 through VF 6, VF_BAR2_BASE 20: byte 20 GiB + 0x1000; with base 22 the upper half lies beyond its 24 GiB. -/
theorem test_bar2_window_of_partition_5 :
    let s := (fnOf up (.vf 5) fun x => { x with bar2Ctrl := 0x80, bar2Base := 20 }).modPart 5
      fun x => { x with present := true, granules := List.range 24 }
    s.bar2Place (.vf 5) 0x1000 4 false = some { part := 5, scratch := false, off := 0x500001000 } ∧
    (fnOf s (.vf 5) fun x => { x with bar2Base := 22 }).bar2Place (.vf 5) 0x80000000 4 false = none := by decide

/-! ### WellFormed refuses: one ill-formed command for each check -/

theorem test_wf_queues :
    ([.deleteQueuePairDone .pf 4096, .restartWait .pf 4096 [], .automaticRestart .pf 4096, .sqTailDoorbell .pf 4096 0,
      .cqHeadDoorbell .pf 4096 0, .aggTime .pf 4096, .sqEntryFetch (zeros 63) {}, .sqEntryFetch (pk [(0, [0x30]), (40, [1])]) {},
      .sqEntryFetch (pk [(0, [0x30]), (44, [1])]) {}, .sqEntryFetch (pk [(0, [0x30]), (46, [1])]) {}] : List Instr).all
      (fun i => !i.wf) = true := by decide

theorem test_wf_cores :
    ([.selfTestComplete 7 [(0, 0)] [], .selfTestComplete 7 [] [(9, 0)], .clusterGate 16, .contextSwitch 144 0, .contextSwitch 0 3,
      .transferIssue 144 false, .transferLanded 144 0 [], .transferLanded 0 64 [], .pageRequestResponse 144 0 0,
      .pageRequestResponse 0 64 0, .pageRequestResponse 0 0 2, .carafeSwap 144, .persistentStreamTimeout 144 0,
      .persistentStreamTimeout 0 64, .atsInvalidation .pf 0 0, .csqHeartbeatLost 144, .spareActivated 16 true, .csvHeartbeatLost 16,
      .bypassTimeout 16, .engineFault 144 0 [], .engineFault 0 8 [], .illegalWorkEntry 144, .carafeEccError 144 none [],
      .carafeEccError 0 (some 128) [], .uncorrectableFlit 16 none, .csvError 16, .standInDrainTimeout 16] : List Instr).all
      (fun i => !i.wf) = true := by decide

theorem test_wf_collections :
    ([.shadowScan 0 65536, .memberCommitReport 7 1024 0 [] 0, .consolidationTrigger 0 65536, .consolidationStep 0 65536,
      .endMsg 0 65536 0 0 0 0 none [], .endMsg 0 0 1024 0 0 0 none [], .stepReport 7 1024 true 0 0 0, .stepTimeout 0 65536 0,
      .migrationTest 0 65536, .handoffCommit 0 65536 0, .directoryChange 0 65536 0 0 0 0, .directoryChange 0 0 0 1024 0 0,
      .forwardDone 0 65536 0, .loadWindow 0 65536] : List Instr).all (fun i => !i.wf) = true := by decide

theorem test_wf_memory :
    ([.regulatorAdjust 0 [] (List.replicate 32 0), .regulatorAdjust 0 (List.replicate 32 true) [], .partRegRate 0 32 0,
      .uncorrectableBurst 256 0 0, .uncorrectableBurst 0 8388608 0, .uncorrectableBurst 0 0 4, .slmEccError 16 true 0,
      .patrolScrub [(256, [])] [], .patrolScrub [(0, [0, 0, 0, 0, 0])] [], .patrolScrub [(0, [74])] [], .patrolScrub [] [(256, 0)], .patrolScrub [] [(0, 4)], .stackTemperatureRead [1], .stackTemperatureRead (List.replicate 8 256),
      .throttleLevelFall 8, .tgStart 256 0, .tgStop 256 0, .tgDone 256 0 0 [] 0, .tgDone 0 0 0 [74] 0, .dpDone [(256, 0)] [] [] [],
      .dpDone [(0, 74)] [] [] [], .dpDone [] [256] [] [], .dpDone [] [] [16] [], .dpDone [] [] [] [144],
      .addressParityError 256 false] : List Instr).all (fun i => !i.wf) = true := by decide

theorem test_wf_host :
    ([.registerWrite .pf (.bar0 0) 0 0 false, .bar2Read .pf 0 0 false, .msixUnmask .pf (some 2048), .vfEnable 65536 true, .linkUp 5 1 false,
      .linkUp 0 0 false, .linkUp 0 7 false, .lockInterfaceRequest 0 20, .kSetStop 21, .ideKm 21 true true, .getMeasurements 256 none,
      .pgAssert 0, .pgAssert 6, .pgLoss 0, .pgLoss 6, .sequenceFailure 0, .sequenceFailure 6, .hotspotThrottle 4 0,
      .hotspotThrottleEnd 4 0, .thermalTrip 4 0, .thermTripRelease [], .sensorUpdate 0 [] 0 0] : List Instr).all
      (fun i => !i.wf) = true := by decide

theorem test_wf_mesh :
    ([.portEnable 8 0, .retrain 8 0, .key 8 0 0 (zeros 16) 0 true true, .key 0 1024 0 (zeros 16) 0 true true,
      .key 0 0 8 (zeros 16) 0 true true, .key 0 0 0 [] 0 true true, .key 0 0 0 (zeros 16) 4 true true,
      .flitReceived 8 0 0 true true false 0 false 0 0, .flitReceived 0 0 4096 true true false 0 false 0 0,
      .flitReceived 0 0 0 true true false 0 false 2 0, .data 8 {} [], .data 0 {} [1], .data 0 { len := 1025 } (zeros 1025),
      .readReq 8 {} 0, .cmd 8 {} .apply, .result 8 {} (.failed 0), .chain 8 {} [], .arrive 8 {}, .release 8 {},
      .loadFrame 8 {} 0 0 0 0, .loadFrame 0 {} 65536 0 0 0, .loadFrame 0 {} 0 1024 0 0, .probe 8 {} true, .ack 8 {}, .nack 8 {} 1,
      .nack 0 {} 0, .nack 0 {} 4, .time 8 0 0 0 0 0 0 false 0 0, .time 0 0 0 0 0 0 1024 false 0 0, .portFrame 8 true,
      .resendTimeout 1024, .unreachableProbe 1024, .rekey 8, .rekeyTimeout 8, .lossOfLock 8 0, .fecErrorThreshold 8 0,
      .replayThreshold 8 true, .flitTimeout 8, .portRetry 8, .routeReturn 8, .portTrainingComplete 8 true] : List Instr).all
      (fun i => !i.wf) = true := by decide

/-! ### Each hypothesis list is met: one theorem for a statement, one conjunct for a clause -/

def headB : Bytes := ascii [0x53, 0x50, 0x5A, 0x4A] ++ toLe 4 1 ++ zeros 1976

/-- A region that begins with a valid header. -/
def region : Bytes := headB ++ (digest32 headB ++ zeros 32)

theorem region_header : currentHeader region = some region := by
  have hb : headB.length = 1984 := by rw [headB, zeros, List.length_append, List.length_replicate]; rfl
  have hd : (digest32 headB).length = 32 := by rw [digest32, fit, zeros, List.length_append, List.length_take, List.length_replicate]; omega
  have hz : (zeros 32).length = 32 := rfl
  have hl : region.length = 2048 := by simp only [region, List.length_append, hb, hd, hz]
  have e : slice region 0 2048 = region := List.take_of_length_le (by rw [List.drop_zero, hl] <;> decide)
  have e1 : slice region 0 4 = ascii [0x53, 0x50, 0x5A, 0x4A] := rfl
  have e2 : rd region 4 4 = 1 := by decide
  have e3 : region.take 1984 = headB := List.take_left' hb
  have e4 : slice region 1984 32 = digest32 headB := by
    rw [slice, region, List.drop_left' hb]; exact List.take_left' hd
  have e5 : slice region 0x800 2048 = [] := by rw [slice, List.drop_eq_nil_of_le (by rw [hl] <;> decide)]; rfl
  have h0 : headerAt region 0 = some region := by
    unfold headerAt; simp only [e, e1, e2, e3, e4, beq_self_eq_true, Bool.and_self, if_true]
  have h1 : headerAt region 0x800 = none := by
    unfold headerAt; simp only [e5]; rfl
  simp only [currentHeader, h0, h1]

/-- A mutation that adds more records than there are slots to take is told so when it reserves. -/
theorem full_reserve {s : State} {p : PartNo} {k : Coll} {c : Cmd} (hop : c.op = 0x40)
    (h : ((s.part p).freeSlots k (s.reservedSlots p k.uid c.id) c.mCount).length < c.mCount) :
    (s.reserveMut p k c).2 = .inl { st := stCapacity } := by
  simp only [State.reserveMut, hop, beq_self_eq_true, Bool.true_or, if_true, h]
  split <;> rfl

/-- No cluster of `up` has a stand-in. -/
theorem up_standIn (n : Nat) : (up.clusterAt n).standInPhase ≠ 2 := by
  by_cases h : n < 16
  · revert h; revert n; decide
  · have : up.clusterAt n = default := (List.getD_eq_getElem?_getD ..).trans (by rw [List.getElem?_eq_none (Nat.not_lt.mp h)]; rfl)
    rw [this]; decide

theorem witness_ReadCommandsAnswer :
    (∃ (s : State) (cid : Nat) (c : Cmd), adminAt s cid 0x01 c ∧ zeroAt c.packet [(17, 7), (32, 32)] ∧ c.f 16 1 ≤ 2 ∧ c.f 24 8 % 4096 = 0)
      ∧
    (∃ (s : State) (cid : Nat) (c : Cmd) (v : Nat), adminAt s cid 0x06 c ∧ zeroAt c.packet [(19, 1), (24, 40), (20, 4)] ∧
      s.getFeatureValue c = some v) ∧
    (∃ (s : State) (cid : Nat) (c : Cmd), adminAt s cid 0x04 c ∧ s.getLogErr c = none) :=
  ⟨⟨(one up (adm 0x01 [(16, toLe 1 1), (24, toLe 8 4096)])), 7, (adm 0x01 [(16, toLe 1 1), (24, toLe 8 4096)]),
    by unfold adminAt sound shaped memOk secOk named; decide⟩,
   ⟨(one up (adm 0x06 [(16, toLe 2 0x60)])), 7, (adm 0x06 [(16, toLe 2 0x60)]), ((featReset 0x60).getD 0).toNat,
    by unfold adminAt sound shaped memOk secOk named; decide⟩,
   ⟨(one up (adm 0x04 [(16, toLe 1 0x01)])), 7, (adm 0x04 [(16, toLe 1 0x01)]), by unfold adminAt sound shaped memOk secOk named; decide⟩⟩

theorem witness_QueuePairsAreCreatedDeletedAndRestarted :
    (∃ (s : State) (cid : Nat) (c : Cmd), adminAt s cid 0x02 c ∧ s.createPairErr c = none) ∧
    (∃ (s : State) (cid : Nat) (c : Cmd) (q : Pair), adminAt s cid 0x03 c ∧ zeroAt c.packet [(18, 46)] ∧ c.f 16 2 ≠ 0 ∧ s.pair? c.fn (c.f
      16 2) = some q ∧ ((∀ r, q.restart = some r → r.cid ≠ cid)) ∧ cid ∉ q.restartMore) ∧
    (∃ (s : State) (fn : Fn) (qid : Nat) (q : Pair), s.pair? fn qid = some q ∧ q.deleting = true ∧ (∀ d ∈ s.cmds, ¬(d.fn = fn ∧ d.qid =
      qid))) ∧
    (∃ (s : State) (cid : Nat) (c : Cmd) (q : Pair) (i : Instr), adminAt s cid 0x09 c ∧ s.restartErr c = none ∧ s.pair? c.fn (c.f 16 2) =
      some q ∧ ((i = .restartQueueResume cid ∧ c.f 18 1 = 0) ∨ (i = .restartQueueFlush cid ∧ c.f 18 1 = 1))) ∧
    (∃ (s : State) (fn : Fn) (qid : Nat) (q : Pair) (r : RestartReq) (c : Cmd), s.pair? fn qid = some q ∧ q.restart = some r ∧ s.inflight
      fn qid = 0 ∧ s.cmd? r.cid = some c ∧ (r.flush = false ∨ q.head = r.upTo.getD q.tail)) ∧
    (∃ (s : State) (fn : Fn) (qid : Nat) (q : Pair) (p : PartNo), s.pair? fn qid = some q ∧ q.part = some p ∧ q.frozen = true ∧ q.restart
      = none ∧ q.deleting = false ∧ s.inflight fn qid = 0 ∧ (s.modeOf p).getLsbD mQRestart = false ∧ (∀ k ∈ q.freezeClasses, ((s.part
      p).feat 0x16).testBit k = true)) :=
  ⟨⟨{ one up (adm 0x02 [(16, toLe 8 0x10000), (24, toLe 8 0x20000), (32, toLe 2 5), (34, toLe 2 15), (36, toLe 2 15), (44, toLe 1 1)]) with pairs := [] },
    7, adm 0x02 [(16, toLe 8 0x10000), (24, toLe 8 0x20000), (32, toLe 2 5), (34, toLe 2 15), (36, toLe 2 15), (44, toLe 1 1)],
    by unfold adminAt sound shaped memOk secOk named; decide⟩,
   ⟨{ one up (adm 0x03 [(16, toLe 2 5)]) with pairs := [{ fn := .pf, qid := 5, sqSize := 8, cqSize := 8 }] }, 7, adm 0x03 [(16, toLe 2
    5)], { fn := .pf, qid := 5, sqSize := 8, cqSize := 8 }, by unfold adminAt sound shaped memOk secOk named; decide⟩,
   ⟨{ one up (adm 3) with pairs := [{ fn := .pf, qid := 5, sqSize := 8, cqSize := 8, deleting := true, deleters := [7] }] }, .pf, 5,
    { fn := .pf, qid := 5, sqSize := 8, cqSize := 8, deleting := true, deleters := [7] }, by decide⟩,
   ⟨{ one up (adm 0x09 [(16, toLe 2 5), (18, toLe 1 0)]) with pairs := [{ fn := .pf, qid := 5, sqSize := 8, cqSize := 8, frozen := true }] },
    7, adm 0x09 [(16, toLe 2 5), (18, toLe 1 0)], { fn := .pf, qid := 5, sqSize := 8, cqSize := 8, frozen := true }, .restartQueueResume
    7, by unfold adminAt sound shaped memOk secOk named; decide⟩,
   ⟨{ one up (adm 9) with pairs := [{ fn := .vf 0, qid := 5, part := some 0, sqSize := 8, cqSize := 8, frozen := true, restart := some { cid := 7, flush := false } }] },
    .vf 0, 5,
    { fn := .vf 0, qid := 5, part := some 0, sqSize := 8, cqSize := 8, frozen := true, restart := some { cid := 7, flush := false } },
    { cid := 7, flush := false }, adm 9, by decide⟩,
   ⟨p0 ({ up with pairs := [{ fn := .vf 0, qid := 5, part := some 0, sqSize := 8, cqSize := 8, frozen := true }] }) fun x => x.setFeat
    0x16 0xFF, .vf 0, 5, { fn := .vf 0, qid := 5, part := some 0, sqSize := 8, cqSize := 8, frozen := true }, 0, by decide⟩⟩

theorem witness_FeaturesAreSet :
    (∃ (s : State) (cid : Nat) (c : Cmd) (p : PartNo), adminAt s cid 0x05 c ∧ zeroAt c.packet [(19, 1), (24, 40)] ∧ c.fid ∉ ownRowFids ∧
      c.fid ≠ 0xA0 ∧ (featReset c.fid).isSome ∧ s.featPart c = some p ∧ featOk c.fid (c.f 20 4) = true ∧ ((c.fid ∈ journalFids → (s.part
      p).journal.state = .off)) ∧ ((c.fn = .pf → s.tdiLocked p = false))) ∧
    (∃ (s : State) (cid : Nat) (c : Cmd), adminAt s cid 0x05 c ∧ zeroAt c.packet [(19, 1), (24, 40)] ∧ c.fid = 0xA0 ∧ c.fn = .pf ∧ c.f 18
      1 = 0xFF ∧ 10 ≤ c.f 20 4 ∧ c.f 20 4 ≤ 1000000) ∧
    (∃ (s : State) (cid : Nat) (c : Cmd) (p : PartNo), adminAt s cid 0x05 c ∧ zeroAt c.packet [(19, 1), (24, 40)] ∧ c.fid = 0x70 ∧
      s.featPart c = some p ∧ c.f 20 4 * 2 ^ 20 ≤ s.scratchFloor p ∧ c.f 20 4 ≤ s.scratchBytes p / 2 ^ 20 ∧ ((c.fn = .pf → s.tdiLocked p =
      false))) ∧
    (∃ (s : State) (cid : Nat) (c : Cmd) (p : PartNo), adminAt s cid 0x05 c ∧ zeroAt c.packet [(19, 1), (24, 40)] ∧ c.fid = 0x80 ∧ c.fn =
      .pf ∧ s.featPart c = some p ∧ ((∀ q, q ≠ p → c.f 20 4 ≠ 0 → (s.part q).feat 0x80 ≠ c.f 20 4)) ∧ (∀ k ∈ (s.part p).colls, k.members =
      []) ∧ s.tdiLocked p = false) ∧
    (∃ (s : State) (cid : Nat) (c : Cmd) (p : PartNo), adminAt s cid 0x05 c ∧ zeroAt c.packet [(19, 1), (24, 40)] ∧ c.fid = 0x23 ∧
      s.featPart c = some p ∧ c.f 20 4 &&& 0xFFFE0000 = 0 ∧ (((c.f 20 4).testBit 16 = false → (s.coll? p (c.f 20 2)).isSome)) ∧ ((c.fn =
      .pf → s.tdiLocked p = false))) :=
  ⟨⟨(one up (adm 0x05 [(16, toLe 2 0x60), (20, toLe 4 500)])), 7, (adm 0x05 [(16, toLe 2 0x60), (20, toLe 4 500)]), 0,
    by unfold adminAt sound shaped memOk secOk named; decide⟩,
   ⟨(one up (adm 0x05 [(16, toLe 2 0xA0), (18, toLe 1 255), (20, toLe 4 500)])), 7, (adm 0x05 [(16, toLe 2 0xA0), (18, toLe 1 255), (20,
    toLe 4 500)]), by unfold adminAt sound shaped memOk secOk named; decide⟩,
   ⟨(one up (adm 0x05 [(16, toLe 2 0x70), (20, toLe 4 0)])), 7, (adm 0x05 [(16, toLe 2 0x70), (20, toLe 4 0)]), 0,
    by unfold adminAt sound shaped memOk secOk named; decide⟩,
   ⟨(one up (adm 0x05 [(16, toLe 2 0x80), (20, toLe 4 9)])), 7, (adm 0x05 [(16, toLe 2 0x80), (20, toLe 4 9)]), 0,
    by unfold adminAt sound shaped memOk secOk named; decide⟩,
   ⟨(one up (adm 0x05 [(16, toLe 2 0x23), (20, toLe 4 0x10000)])), 7, (adm 0x05 [(16, toLe 2 0x23), (20, toLe 4 0x10000)]), 0,
    by unfold adminAt sound shaped memOk secOk named; decide⟩⟩

theorem witness_ModesAreSelectedAndLocked :
    (∃ (s : State) (cid : Nat) (c : Cmd) (p : PartNo), adminAt s cid 0x05 c ∧ c.fid = 0x10 ∧ s.modeSelectErr c = none ∧ s.featPart c =
      some p ∧ s.modeWaits c = false) ∧
    (∃ (s : State) (cid : Nat) (c : Cmd), adminAt s cid 0x05 c ∧ c.fid = 0x10 ∧ c.fn = .pf ∧ c.f 18 1 = 0xFF ∧ s.modeSelectErr c = none ∧
      s.modeWaits c = false) ∧
    (∃ (s : State) (cid : Nat) (c : Cmd) (p : PartNo), adminAt s cid 0x05 c ∧ c.fid = 0x11 ∧ zeroAt c.packet [(19, 1), (24, 40)] ∧ c.fn =
      .pf ∧ c.f 20 4 &&& (~~~modePart).toNat = 0 ∧ s.featPart c = some p ∧ s.tdiLocked p = false ∧ s.modeWaits c = false) :=
  ⟨⟨(one up (adm 0x05 [(16, toLe 2 0x10), (20, toLe 4 1)])), 7, (adm 0x05 [(16, toLe 2 0x10), (20, toLe 4 1)]), 0,
    by unfold adminAt sound shaped memOk secOk named; decide⟩,
   ⟨(one up (adm 0x05 [(16, toLe 2 0x10), (18, toLe 1 255), (20, toLe 4 modeDevice.toNat)])), 7, (adm 0x05 [(16, toLe 2 0x10), (18, toLe 1
    255), (20, toLe 4 modeDevice.toNat)]), by unfold adminAt sound shaped memOk secOk named; decide⟩,
   ⟨(one up (adm 0x05 [(16, toLe 2 0x11), (20, toLe 4 1)])), 7, (adm 0x05 [(16, toLe 2 0x11), (20, toLe 4 1)]), 0,
    by unfold adminAt sound shaped memOk secOk named; decide⟩⟩

theorem witness_LockedModeBitsRefuseModeSelect :
    ∃ (s : State) (cid : Nat) (c : Cmd) (p : PartNo), adminAt s cid 0x05 c ∧ c.fid = 0x10 ∧ zeroAt c.packet [(19, 1), (24, 40)] ∧ c.f 20 4
      < 0x800 ∧ targetOf c.fn (c.f 18 1) = some (some p) ∧ (s.part p).present = true ∧ s.modeWaits c = false ∧ (((BitVec.ofNat 32 (c.f 20
      4) ^^^ (s.part p).modeWord) &&& modePart &&& (s.part p).modeLock ≠ 0) ∨ (c.fn ≠ .pf ∧ BitVec.ofNat 32 (c.f 20 4) &&& modeDevice ≠
      s.devMode &&& modeDevice)) :=
  ⟨(one (p0 up fun x => { x with modeLock := 1 }) (adm 0x05 [(16, toLe 2 0x10), (20, toLe 4 1)])), 7, (adm 0x05 [(16, toLe 2 0x10), (20,
    toLe 4 1)]), 0, by unfold adminAt sound shaped memOk secOk named; decide⟩

theorem witness_JournalsFormatReplayFlushAndClose :
    (∃ (s : State) (cid : Nat) (c : Cmd) (p : PartNo), adminAt s cid 0x05 c ∧ zeroAt c.packet [(19, 1), (24, 40)] ∧ c.fid = 0x43 ∧
      c.jEnable = true ∧ c.jFormat = true ∧ s.featPart c = some p ∧ s.journalEnableErr p c = none ∧ ((c.fn = .pf → s.tdiLocked p =
      false))) ∧
    (∃ (s : State) (cid : Nat) (c : Cmd) (p : PartNo) (region : Bytes), adminAt s cid 0x05 c ∧ zeroAt c.packet [(19, 1), (24, 40)] ∧ c.fid
      = 0x43 ∧ c.jEnable = true ∧ c.jReplay = true ∧ c.jFormat = false ∧ s.featPart c = some p ∧ s.journalEnableErr p c = none ∧ ((c.fn =
      .pf → s.tdiLocked p = false)) ∧ currentHeader region = none) ∧
    (∃ (s : State) (cid : Nat) (c : Cmd) (p : PartNo) (region : Bytes) (h : Bytes) (blob : Bytes), currentHeader region = some h ∧ blob =
      slice h 256 1728 ∧ adminAt s cid 0x05 c ∧ zeroAt c.packet [(19, 1), (24, 40)] ∧ c.fid = 0x43 ∧ c.jEnable = true ∧ c.jReplay = true ∧
      c.jFormat = false ∧ s.featPart c = some p ∧ s.journalEnableErr p c = none ∧ ((c.fn = .pf → s.tdiLocked p = false))) ∧
    (∃ (s : State) (cid : Nat) (c : Cmd) (p : PartNo), sound s ∧ s.cmd? cid = some c ∧ c.isAdmin = true ∧ c.op = 0x05 ∧ c.fid = 0x43 ∧
      c.jEnable = true ∧ c.phase = .flushing ∧ s.featPart c = some p ∧ (s.part p).journal.state = .replaying ∧ (s.part
      p).journal.replayCid = cid ∧ clean s) ∧
    (∃ (s : State) (cid : Nat) (c : Cmd) (p : PartNo), adminAt s cid 0x05 c ∧ zeroAt c.packet [(19, 1), (24, 40)] ∧ c.fid = 0x43 ∧
      c.jEnable = false ∧ s.featPart c = some p ∧ c.f 20 4 &&& 0xFFFFFFF0 = 0 ∧ ((c.fn = .pf → s.tdiLocked p = false))) ∧
    (∃ (s : State) (p : PartNo) (q : Nat) (cid : Nat) (n : Nat) (rest : List Nat) (c : Cmd), sound s ∧ (s.part p).journal.reads = q ::
      rest ∧ q < 2 ^ 64 ∧ (s.part p).journal.state = .active ∧ (s.part p).journal.waiting = [(cid, n)] ∧ s.cmd? cid = some c ∧ c.phase =
      .flushing ∧ c.orphan = false ∧ c.mesh = none) ∧
    (∃ (s : State) (p : PartNo) (cid : Nat) (rest : List Nat) (c : Cmd), sound s ∧ (s.part p).journal.reads = (2 ^ 64 + cid) :: rest ∧
      s.cmd? cid = some c ∧ c.phase = .flushing ∧ c.orphan = false ∧ c.mesh = none) ∧
    (∃ (s : State) (p : PartNo) (q : Nat) (rest : List Nat), sound s ∧ (s.part p).journal.reads = q :: rest ∧ q < 2 ^ 64 ∧ ((∀ w ∈ (s.part
      p).journal.waiting, ∀ c, s.cmd? w.1 = some c → c.isAdmin = false))) :=
  ⟨⟨(one (p0 up fun x => x.setFeat 0x42 64) (adm 0x05 [(16, toLe 2 0x43), (18, toLe 1 0), (20, toLe 4 11)])), 7, (adm 0x05 [(16, toLe 2
    0x43), (18, toLe 1 0), (20, toLe 4 11)]), 0, by unfold adminAt sound shaped memOk secOk named; decide⟩,
   ⟨(one (p0 up fun x => x.setFeat 0x42 64) (adm 0x05 [(16, toLe 2 0x43), (18, toLe 1 0), (20, toLe 4 7)])), 7, (adm 0x05 [(16, toLe 2
    0x43), (18, toLe 1 0), (20, toLe 4 7)]), 0, [], by unfold adminAt sound shaped memOk secOk named; decide⟩,
   ⟨(one (p0 up fun x => x.setFeat 0x42 64) (adm 0x05 [(16, toLe 2 0x43), (18, toLe 1 0), (20, toLe 4 7)])), 7, (adm 0x05 [(16, toLe 2
    0x43), (18, toLe 1 0), (20, toLe 4 7)]), 0, region, region, slice region 256 1728, region_header, rfl,
    by unfold adminAt sound shaped memOk secOk named; decide⟩,
   ⟨p0 (one up ({ adm 0x05 [(16, toLe 2 0x43), (18, toLe 1 0), (20, toLe 4 0b0111)] with phase := .flushing }))
    fun x => ({ x.setFeat 0x42 64 with journal := { state := .replaying, replayCid := 7 } }), 7,
    { adm 0x05 [(16, toLe 2 0x43), (18, toLe 1 0), (20, toLe 4 0b0111)] with phase := .flushing }, 0,
    by unfold sound shaped memOk secOk named; decide⟩,
   ⟨(one (p0 up fun x => x.setFeat 0x42 64) (adm 0x05 [(16, toLe 2 0x43), (18, toLe 1 0), (20, toLe 4 0)])), 7, (adm 0x05 [(16, toLe 2
    0x43), (18, toLe 1 0), (20, toLe 4 0)]), 0, by unfold adminAt sound shaped memOk secOk named; decide⟩,
   ⟨{ (p0 up fun x => { x with journal := { state := .active, reads := [5], waiting := [(7, 9)] } }) with cmds := [{ io 0x83 with phase := .flushing }], nextCid := 8 },
    0, 5, 7, 9, [], { io 0x83 with phase := .flushing }, by unfold sound shaped memOk secOk named; decide⟩,
   ⟨{ (p0 up fun x => { x with journal := { state := .active, reads := [2 ^ 64 + 7] } }) with cmds := [{ io 0x83 with phase := .flushing }], nextCid := 8 },
    0, 7, [], { io 0x83 with phase := .flushing }, by unfold sound shaped memOk secOk named; decide⟩,
   ⟨{ (p0 up fun x => { x with journal := { state := .active, reads := [5], waiting := [(7, 9)] } }) with cmds := [{ io 0x83 with phase := .flushing }], nextCid := 8 },
    0, 5, [], by unfold sound shaped memOk secOk named; decide⟩⟩

theorem witness_SelfTestsRunAndEnd :
    (∃ (s : State) (cid : Nat) (c : Cmd), adminAt s cid 0x07 c ∧ c.f 16 1 ≠ 1 ∧ s.testErr c = none) ∧
    (∃ (s : State) (cid : Nat) (c : Cmd), adminAt s cid 0x07 c ∧ c.f 16 1 = 1 ∧ s.stopErr c = none ∧ (∀ x ∈ s.tests, x.cid ≠ cid)) ∧
    (∃ (s : State) (cid : Nat) (c : Cmd) (x : Test) (failed : List (Nat × Nat)), s.cmd? cid = some c ∧ s.tests.find? (fun y => y.cid ==
      cid) = some x ∧ x.paused = false ∧ s.netBusy x = false ∧ x.extended = false ∧ x.barrierFailed = false ∧ (∀ i ∈ failed, x.hasItem i =
      false)) ∧
    (∃ (s : State) (cid : Nat) (x : Test), s.tests.find? (fun y => y.cid == cid) = some x ∧ x.paused = true ∧ s.testBusy x = false ∧
      x.idleSince + 2500 ≤ s.time.clk) ∧
    (∃ (s : State) (cid : Nat) (c : Cmd) (x : Test), s.cmd? cid = some c ∧ s.tests.find? (fun y => y.cid == cid) = some x ∧ x.startedAt *
      40 + (if x.extended then 6000000000000 else 20000000000) ≤ s.phys) :=
  ⟨⟨(one up (adm 0x07 [(20, toLe 2 1)])), 7, (adm 0x07 [(20, toLe 2 1)]), by unfold adminAt sound shaped memOk secOk named; decide⟩,
   ⟨{ up with nextCid := 8, cmds := [adm 0x07 [(16, toLe 1 1)], { adm 7 with id := 6, phase := .flushing }], tests := [{ cid := 6, fn := .pf, extended := false, clusters := 1, ports := 0, device := false, startedAt := 0 }] },
    7, adm 0x07 [(16, toLe 1 1)], by unfold adminAt sound shaped memOk secOk named; decide⟩,
   ⟨{ one up ({ adm 7 with phase := .flushing }) with tests := [{ cid := 7, fn := .pf, extended := false, clusters := 1, ports := 0, device := false, startedAt := 0 }] },
    7, { adm 7 with phase := .flushing },
    { cid := 7, fn := .pf, extended := false, clusters := 1, ports := 0, device := false, startedAt := 0 }, [], by decide⟩,
   ⟨{ one up ({ adm 7 with phase := .flushing }) with tests := [{ cid := 7, fn := .pf, extended := false, clusters := 1, ports := 0, device := false, startedAt := 0, paused := true }] },
    7, { cid := 7, fn := .pf, extended := false, clusters := 1, ports := 0, device := false, startedAt := 0, paused := true }, by decide⟩,
   ⟨{ one up ({ adm 7 with phase := .flushing }) with tests := [{ cid := 7, fn := .pf, extended := false, clusters := 1, ports := 0, device := false, startedAt := 0 }] },
    7, { adm 7 with phase := .flushing },
    { cid := 7, fn := .pf, extended := false, clusters := 1, ports := 0, device := false, startedAt := 0 }, by decide⟩⟩

theorem witness_PowerStatesAreEntered :
    (∃ (s : State) (cid : Nat) (c : Cmd), adminAt s cid 0x08 c ∧ s.powerErr c = none ∧ s.power.ps ≠ 3 ∧ c.f 16 1 < 2) ∧
    (∃ (s : State) (cid : Nat) (c : Cmd), adminAt s cid 0x08 c ∧ s.powerErr c = none ∧ (c.f 16 1 = 3 ∨ (s.power.ps ≠ 3 ∧ c.f 16 1 = 2))) ∧
    (∃ (s : State) (cid : Nat) (c : Cmd), adminAt s cid 0x08 c ∧ s.powerErr c = none ∧ s.power.ps = 3 ∧ c.f 16 1 < 3) ∧
    (∃ (s : State) (c : Cmd) (e : Entry), s.power.entry = some e ∧ s.entryBusy e.cid = false ∧ s.power.wake = none ∧ s.cmd? e.cid = some
      c) ∧
    (∃ (s : State) (c : Cmd) (e : Entry), s.power.entry = some e ∧ e.quiet = false ∧ e.startedAt * 40 + e.limitMs * 1000000 ≤ s.phys ∧
      s.cmd? e.cid = some c) ∧
    (∃ (s : State), s.power.ps = 2 ∧ s.power.awake = true ∧ s.cmds = [] ∧ s.power.reentryIdle ≠ 0xFFFFFFFF ∧ s.power.idleSince * 40 +
      s.power.reentryIdle * 1000 ≤ s.phys) ∧
    (∃ (s : State) (n : Nat), sound s ∧ n < 16 ∧ s.power.ps = 1 ∧ (∀ x ∈ s.ctxs, x.core / 9 ≠ n) ∧ (s.clusterAt n).idleSince * 40 +
      s.power.idleGateUs.toNat * 1000 ≤ s.phys) :=
  ⟨⟨(one up (adm 0x08 [(16, toLe 1 0)])), 7, (adm 0x08 [(16, toLe 1 0)]), by unfold adminAt sound shaped memOk secOk named; decide⟩,
   ⟨(one up (adm 0x08 [(16, toLe 1 3)])), 7, (adm 0x08 [(16, toLe 1 3)]), by unfold adminAt sound shaped memOk secOk named; decide⟩,
   ⟨{ one up (adm 0x08 [(16, toLe 1 1)]) with power := { ps := 3 } }, 7, adm 0x08 [(16, toLe 1 1)],
    by unfold adminAt sound shaped memOk secOk named; decide⟩,
   ⟨{ one up ({ adm 8 with phase := .flushing }) with power := { entry := some { cid := 7, target := 2, limitMs := 10, reentry := 5, startedAt := 0, previous := 1 } } },
    { adm 8 with phase := .flushing }, { cid := 7, target := 2, limitMs := 10, reentry := 5, startedAt := 0, previous := 1 }, by decide⟩,
   ⟨{ one up ({ adm 8 with phase := .flushing }) with power := { entry := some { cid := 7, target := 2, limitMs := 10, reentry := 5, startedAt := 0, previous := 1 } } },
    { adm 8 with phase := .flushing }, { cid := 7, target := 2, limitMs := 10, reentry := 5, startedAt := 0, previous := 1 }, by decide⟩,
   ⟨{ up with power := { ps := 2, awake := true } }, by decide⟩,
   ⟨up, 15, by unfold sound shaped memOk secOk named; decide⟩⟩

theorem witness_PartitionsAreConfigured :
    (∃ (s : State) (cid : Nat) (c : Cmd), adminAt s cid 0x0A c ∧ c.f 17 1 = 0 ∧ s.partSetErr c = none ∧ (s.part c.pcPart).present = false)
      ∧
    (∃ (s : State) (cid : Nat) (c : Cmd), adminAt s cid 0x0A c ∧ c.fn = .pf ∧ c.f 17 1 = 0 ∧ s.partSetErr c = none ∧ (s.part
      c.pcPart).present = true ∧ s.partQuiet c.pcPart = true ∧ ((∀ q ∈ s.pairs, q.part = some c.pcPart → q.qid = 0))) ∧
    (∃ (s : State) (cid : Nat) (c : Cmd), adminAt s cid 0x0A c ∧ c.fn = .pf ∧ c.f 17 1 = 1 ∧ s.partClearErr c = none ∧ s.partQuiet
      c.pcPart = true ∧ (∀ q ∈ s.pairs, q.part ≠ some c.pcPart) ∧ s.pair? (.vf c.pcPart) 0 = none) ∧
    (∃ (s : State) (cid : Nat) (c : Cmd), adminAt s cid 0x0A c ∧ c.f 17 1 = 2 ∧ s.partAdjustErr c = none) :=
  ⟨⟨(one up (adm 0x0A [(16, toLe 1 1), (17, toLe 1 0), (18, toLe 2 2), (20, toLe 1 1), (22, toLe 2 5), (24, toLe 2 3), (26, toLe 2 4),
    (28, toLe 1 2)])), 7, (adm 0x0A [(16, toLe 1 1), (17, toLe 1 0), (18, toLe 2 2), (20, toLe 1 1), (22, toLe 2 5), (24, toLe 2 3), (26,
    toLe 2 4), (28, toLe 1 2)]), by unfold adminAt sound shaped memOk secOk named; decide⟩,
   ⟨(one up (adm 0x0A [(16, toLe 1 0), (17, toLe 1 0), (18, toLe 2 3), (20, toLe 1 1), (22, toLe 2 5), (24, toLe 2 3), (26, toLe 2 4),
    (28, toLe 1 2)])), 7, (adm 0x0A [(16, toLe 1 0), (17, toLe 1 0), (18, toLe 2 3), (20, toLe 1 1), (22, toLe 2 5), (24, toLe 2 3), (26,
    toLe 2 4), (28, toLe 1 2)]), by unfold adminAt sound shaped memOk secOk named; decide⟩,
   ⟨(one up (adm 0x0A [(16, toLe 1 0), (17, toLe 1 1)])), 7, (adm 0x0A [(16, toLe 1 0), (17, toLe 1 1)]),
    by unfold adminAt sound shaped memOk secOk named; decide⟩,
   ⟨(one up (adm 0x0A [(16, toLe 1 0), (17, toLe 1 2), (20, toLe 1 1), (22, toLe 2 5), (24, toLe 2 3), (26, toLe 2 4), (28, toLe 1 2)])),
    7, (adm 0x0A [(16, toLe 1 0), (17, toLe 1 2), (20, toLe 1 1), (22, toLe 2 5), (24, toLe 2 3), (26, toLe 2 4), (28, toLe 1 2)]),
    by unfold adminAt sound shaped memOk secOk named; decide⟩⟩

theorem witness_FirmwareIsLoadedAndActivated :
    (∃ (s : State) (cid : Nat) (c : Cmd), adminAt s cid 0x0B c ∧ loadErr c = none ∧ s.fw.transfer = .none ∧ ((∀ d ∈ s.cmds, d.id < cid →
      d.isAdmin = true → d.op = 0x0B → d.phase ≠ .ready))) ∧
    (∃ (s : State) (cid : Nat) (c : Cmd), s.cmd? cid = some c ∧ c.isAdmin = true ∧ c.op = 0x0B ∧ c.phase = .flushing ∧ s.fw.transfer =
      .load cid) ∧
    (∃ (s : State) (cid : Nat) (c : Cmd), adminAt s cid 0x0C c ∧ c.f 16 1 = 0 ∧ s.fw.transfer = .none ∧ s.fw.live = none ∧ s.liveErr c =
      none) ∧
    (∃ (s : State) (a : Nat) (b : Nat), s.fw.live = some (a, b) ∧ s.fw.liveKilled = false ∧ b + 25000 ≤ s.time.clk ∧ (∀ x ∈ s.ctxs,
      (s.cmd? x.cid).isSome)) ∧
    (∃ (s : State) (cid : Nat) (c : Cmd) (i : Image), s.cmd? cid = some c ∧ c.isAdmin = true ∧ c.op = 0x0C ∧ c.f 16 1 = 0 ∧ c.phase =
      .flushing ∧ sound s ∧ s.fw.liveKilled = true ∧ (∀ x ∈ s.ctxs, x.state = .leaving) ∧ s.fw.stored = some i) ∧
    (∃ (s : State) (u : State) (cid : Nat) (c : Cmd), (s.finish cid {}).postNow cid = some u ∧ adminAt s cid 0x0C c ∧ c.f 16 1 = 1 ∧
      s.fw.transfer = .none ∧ zeroAt c.packet [(17, 47)] ∧ s.activateErr = none ∧ s.pkg.perstSeen = false) :=
  ⟨⟨(one up ({ adm 0x0B [(16, toLe 8 4096), (24, toLe 2 1), (28, toLe 4 4096)] with data := { inList := sg 4096 } })), 7,
    ({ adm 0x0B [(16, toLe 8 4096), (24, toLe 2 1), (28, toLe 4 4096)] with data := { inList := sg 4096 } }),
    by unfold adminAt sound shaped memOk secOk named; decide⟩,
   ⟨{ one up ({ adm 0x0B [(16, toLe 8 4096), (28, toLe 4 4096)] with phase := .flushing }) with fw := { transfer := .load 7 } }, 7,
    ({ adm 0x0B [(16, toLe 8 4096), (28, toLe 4 4096)] with phase := .flushing }), by decide⟩,
   ⟨(one
    ({ up with fw := { up.fw with active := { version := 1, svn := 0, digests := [[0], [0], [0], [0], [0]] }, stored := some { version := 1, svn := 0, digests := [[0], [0], [0], [0], [0]] }, pciePhy := [0] } })
    (adm 0x0C [])), 7, (adm 0x0C []), by unfold adminAt sound shaped memOk secOk named; decide⟩,
   ⟨{ one up (io 0x80) with fw := { live := some (6, 0) }, ctxs := [⟨0, 0, 7, .running⟩] }, 6, 0, by decide⟩,
   ⟨{ one up ({ adm 0x0C [] with phase := .flushing }) with fw := { active := { version := 1, svn := 0, digests := [[0], [0], [0], [0], [0]] }, stored := some { version := 1, svn := 0, digests := [[0], [0], [0], [0], [0]] }, pciePhy := [0], live := some (7, 0), liveKilled := true } },
    7, ({ adm 0x0C [] with phase := .flushing }), { version := 1, svn := 0, digests := [[0], [0], [0], [0], [0]] },
    by unfold sound shaped memOk secOk named; decide⟩,
   ⟨{ one up (adm 0x0C [(16, toLe 1 1)]) with fw := { active := { version := 1, svn := 0, digests := [[0], [0], [0], [0], [0]] }, stored := some { version := 1, svn := 0, digests := [[0], [0], [0], [0], [0]] }, pciePhy := [0] }, pairs := [{ fn := .pf, qid := 0, sqSize := 8, cqSize := 8 }] },
    ((State.finish
    ({ one up (adm 0x0C [(16, toLe 1 1)]) with fw := { active := { version := 1, svn := 0, digests := [[0], [0], [0], [0], [0]] }, stored := some { version := 1, svn := 0, digests := [[0], [0], [0], [0], [0]] }, pciePhy := [0] }, pairs := [{ fn := .pf, qid := 0, sqSize := 8, cqSize := 8 }] })
    7 {}).postNow 7).getD up, 7, adm 0x0C [(16, toLe 1 1)], rfl, by unfold adminAt sound shaped memOk secOk named; decide⟩⟩

theorem witness_PldmUpdatesAndAnswers :
    (∃ (s : State), s.mgmtLive = true) ∧
    (∃ (s : State), s.fw.stage = .running ∧ s.fw.transfer = .pldm) ∧
    (∃ (s : State), s.barLive = true ∧ s.fw.transfer = .pldm) ∧
    (∃ (s : State), s.mgmtLive = true) ∧
    (∃ (s : State), s.fw.stage = .running) :=
  ⟨⟨up, by decide⟩,
   ⟨{ up with fw := { stage := .running, transfer := .pldm } }, by decide⟩,
   ⟨{ up with fw := { stage := .running, transfer := .pldm } }, by decide⟩,
   ⟨up, by decide⟩,
   ⟨up, by decide⟩⟩

theorem witness_SageBootsAndItsMailboxAnswers :
    (∃ (s : State), s.fw.stage = .bootRom ∧ s.fw.bootError = 0 ∧ s.fw.pciePhyPassed = false ∧ s.powered = true ∧ s.pgOf 1 = true) ∧
    (∃ (s : State) (i : Image), s.fw.stage = .bootRom ∧ s.fw.bootError = 0 ∧ s.fw.pciePhyPassed = true ∧ s.powered = true ∧ s.fw.stored =
      some i) ∧
    (∃ (s : State) (v : Word32), s.mbGo v = true ∧ s.mbType ≠ 1 ∧ s.mbType ≠ 2 ∧ s.mbType ≠ 3) ∧
    (∃ (s : State) (v : Word32), s.mbGo v = true ∧ s.mbType = 1 ∧ s.mbLengthOk = true ∧ s.mctpAccepts (rd s.mbBytes 0 1) = true) ∧
    (∃ (s : State) (v : Word32), s.mbGo v = true ∧ s.mbType = 2) ∧
    (∃ (s : State) (v : Word32), s.mbGo v = true ∧ s.mbType = 3 ∧ s.fw.stage = .recovery ∧ 4096 ≤ s.fw.mbArg.toNat ∧ s.fw.mbArg.toNat ≤ 2
      ^ 25) :=
  ⟨⟨{ up with fw := { stage := .bootRom, pciePhyPassed := false, stored := some { version := 1, svn := 0, digests := [[0], [0], [0], [0], [0]] } } },
    by decide⟩,
   ⟨{ up with fw := { stage := .bootRom, pciePhyPassed := true, stored := some { version := 1, svn := 0, digests := [[0], [0], [0], [0], [0]] } } },
    { version := 1, svn := 0, digests := [[0], [0], [0], [0], [0]] }, by decide⟩,
   ⟨{ up with fw := { stage := .running, mbReq := 0x04000001, mbReqBuf := [(0, 5)] } }, 0xC5000001, by decide⟩,
   ⟨{ up with fw := { stage := .running, mbReq := 0x01000001, mbReqBuf := [(0, 5)] } }, 0xC5000001, by decide⟩,
   ⟨{ up with fw := { stage := .running, mbReq := 0x02000004, mbReqBuf := [(0, 5)] } }, 0xC5000001, by decide⟩,
   ⟨{ up with fw := { stage := .recovery, mbReq := 0x03000000, mbReqBuf := [(0, 5)], mbArg := 4096 } }, 0xC5000001, by decide⟩⟩

theorem witness_SecurityBuffersAreServed :
    (∃ (s : State) (cid : Nat) (c : Cmd), adminAt s cid 0x0D c ∧ c.secp = 1 ∧ zeroAt c.packet [(17, 1)] ∧ c.secErr false 65536 [0] = none)
      ∧
    (∃ (s : State) (cid : Nat) (c : Cmd) (b : Bytes), adminAt s cid 0x0E c ∧ c.secp = 1 ∧ zeroAt c.packet [(17, 1)] ∧ c.secErr false 65536
      [0] = none ∧ (s.fnAt c.fn).spdmResp = some b) ∧
    (∃ (s : State) (cid : Nat) (c : Cmd), adminAt s cid 0x0E c ∧ c.isSeal 0x01 = true ∧ c.secErr false 65536 [0] = none) ∧
    (∃ (s : State) (cid : Nat) (c : Cmd) (p : PartNo) (l : List (Bytes × Bytes)), adminAt s cid 0x0D c ∧ c.isSeal 0x02 = true ∧
      s.secPartErr c 1048576 = none ∧ 16 ≤ c.secLen ∧ rd c.secBuf 0 4 ≤ 63 ∧ zeroAt c.secBuf [(4, 12)] ∧ s.secPart c = some p ∧ c.declared
      = some l) ∧
    (∃ (s : State) (cid : Nat) (c : Cmd) (p : PartNo), adminAt s cid 0x0E c ∧ c.isSeal 0x03 = true ∧ s.secPartErr c 65536 = none ∧
      s.secPart c = some p) ∧
    (∃ (s : State) (cid : Nat) (c : Cmd), adminAt s cid 0x0D c ∧ c.isSeal 0x04 = true ∧ c.secPfErr [0] = none ∧ rd c.secBuf 0 4 < 8 ∧ rd
      c.secBuf 4 4 ≤ 1024 ∧ zeroAt c.secBuf [(8, 8)] ∧ 16 + 16 * rd c.secBuf 4 4 ≤ c.secLen) :=
  ⟨⟨(one up (adm 0x0D [(16, toLe 1 1), (20, toLe 4 16)])), 7, (adm 0x0D [(16, toLe 1 1), (20, toLe 4 16)]),
    by unfold adminAt sound shaped memOk secOk named; decide⟩,
   ⟨fnOf (one up (adm 0x0E [(16, toLe 1 1), (20, toLe 4 16)])) .pf fun x => { x with spdmResp := some [1, 2] }, 7, adm 0x0E [(16, toLe 1
    1), (20, toLe 4 16)], [1, 2], by unfold adminAt sound shaped memOk secOk named; decide⟩,
   ⟨(one up (adm 0x0E [(16, toLe 1 0xE0), (17, toLe 1 1), (20, toLe 4 4096)])), 7, (adm 0x0E [(16, toLe 1 0xE0), (17, toLe 1 1), (20, toLe
    4 4096)]), by unfold adminAt sound shaped memOk secOk named; decide⟩,
   ⟨(one up (adm 0x0D [(16, toLe 1 0xE0), (17, toLe 1 2), (20, toLe 4 16)])), 7, (adm 0x0D [(16, toLe 1 0xE0), (17, toLe 1 2), (20, toLe 4
    16)]), 0, [], by unfold adminAt sound shaped memOk secOk named; decide⟩,
   ⟨(one up (adm 0x0E [(16, toLe 1 0xE0), (17, toLe 1 3), (20, toLe 4 64)])), 7, (adm 0x0E [(16, toLe 1 0xE0), (17, toLe 1 3), (20, toLe 4
    64)]), 0, by unfold adminAt sound shaped memOk secOk named; decide⟩,
   ⟨(one up
    ({ adm 0x0D [(16, toLe 1 0xE0), (17, toLe 1 4), (20, toLe 4 32)] with data := { input := toLe 4 1 ++ toLe 4 1 ++ zeros 24 } })), 7,
    ({ adm 0x0D [(16, toLe 1 0xE0), (17, toLe 1 4), (20, toLe 4 32)] with data := { input := toLe 4 1 ++ toLe 4 1 ++ zeros 24 } }),
    by unfold adminAt sound shaped memOk secOk named; decide⟩⟩

theorem witness_FusesBlowAndTheDebugPortOpens :
    (∃ (s : State) (cid : Nat) (c : Cmd), adminAt s cid 0x0D c ∧ c.isSeal 0x05 = true ∧ c.secPfErr [fuseConfirm] = none ∧ c.secLen = 512)
      ∧
    (∃ (s : State) (cid : Nat) (c : Cmd), adminAt s cid 0x0D c ∧ c.isSeal 0x06 = true ∧ c.secPfErr [fuseConfirm] = none) ∧
    (∃ (s : State) (cid : Nat) (c : Cmd), adminAt s cid 0x0D c ∧ c.isSeal 0x07 = true ∧ c.secPfErr [0, fuseConfirm] = none ∧
      s.sec.fuses.svnFloor ≤ 63) ∧
    (∃ (s : State), s.powered = true ∧ s.sec.debugState ≠ .closed) ∧
    (∃ (s : State), s.powered = true ∧ s.sec.debugState ≠ .closed ∧ s.hif.dpRestarting = false ∧ s.hif.fatal = false ∧ s.importing =
      false) ∧
    (∃ (s : State), s.sec.debugState ≠ .closed) ∧
    (∃ (s : State), s.sec.debugState = .closed) :=
  ⟨⟨(one up (adm 0x0D [(16, toLe 1 0xE0), (17, toLe 1 5), (32, toLe 4 fuseConfirm), (20, toLe 4 512)])), 7, (adm 0x0D [(16, toLe 1 0xE0),
    (17, toLe 1 5), (32, toLe 4 fuseConfirm), (20, toLe 4 512)]), by unfold adminAt sound shaped memOk secOk named; decide⟩,
   ⟨(one up (adm 0x0D [(16, toLe 1 0xE0), (17, toLe 1 6), (32, toLe 4 fuseConfirm), (20, toLe 4 16)])), 7, (adm 0x0D [(16, toLe 1 0xE0),
    (17, toLe 1 6), (32, toLe 4 fuseConfirm), (20, toLe 4 16)]), by unfold adminAt sound shaped memOk secOk named; decide⟩,
   ⟨(one up (adm 0x0D [(16, toLe 1 0xE0), (17, toLe 1 7), (32, toLe 4 fuseConfirm), (20, toLe 4 16)])), 7, (adm 0x0D [(16, toLe 1 0xE0),
    (17, toLe 1 7), (32, toLe 4 fuseConfirm), (20, toLe 4 16)]), by unfold adminAt sound shaped memOk secOk named; decide⟩,
   ⟨up, by decide⟩,
   ⟨up, by decide⟩,
   ⟨up, by decide⟩,
   ⟨{ up with sec := { debugState := .closed } }, by decide⟩⟩

theorem witness_CollectionsAreCreatedAndDropped :
    (∃ (s : State) (cid : Nat) (c : Cmd) (p : PartNo), ioAt s cid 0x20 c ∧ s.haltedOn cid = false ∧ c.part = some p ∧ alone c ∧
      s.createErr p c = none ∧ (s.part p).journal.state = .off ∧ (∀ k ∈ (s.part p).colls, k.uid ≠ cid)) ∧
    (∃ (s : State) (cid : Nat) (c : Cmd) (p : PartNo) (k : Coll), collAt s cid 0x21 c p k ∧ alone c ∧ bodyErr c [] false false false =
      none ∧ (s.part p).journal.state = .off ∧ ((∀ q, k.pass = some q → q.cid ≠ some cid))) ∧
    (∃ (s : State) (cid : Nat) (c : Cmd) (p : PartNo) (k : Coll), collAt s cid 0x21 c p k ∧ alone c ∧ k.isTable = false ∧ c.unjournaled =
      false ∧ bodyErr c [] false false false = none ∧ (s.part p).journal.state = .active ∧ s.ringErr p cid false 0 = none ∧ s.commitWaits
      = false ∧ ((∀ q, k.pass = some q → q.cid ≠ some cid))) :=
  ⟨⟨(one up (ioc 0x20 flatBlock [] 0 64)), 7, (ioc 0x20 flatBlock [] 0 64), 0, by unfold ioAt sound shaped memOk secOk named; decide⟩,
   ⟨withColl flat (ioc 0x21 [] [] 0 0), 7, (ioc 0x21 [] [] 0 0), 0, flat, by unfold collAt ioAt sound shaped memOk secOk named; decide⟩,
   ⟨p0 (withColl flat (ioc 0x21 [] [] 0 0)) fun x => { x.setFeat 0x42 64 with journal := { state := .active } }, 7, ioc 0x21 [] [] 0 0, 0,
    flat, by unfold collAt ioAt sound shaped memOk secOk named; decide⟩⟩

theorem witness_CollectionsAreImportedExportedAndConsolidated :
    (∃ (s : State) (cid : Nat) (c : Cmd) (p : PartNo), ioAt s cid 0x22 c ∧ s.haltedOn cid = false ∧ c.part = some p ∧ alone c ∧
      s.importErr p c = none ∧ (s.part p).journal.state = .off ∧ (∀ d ∈ (s.part p).colls, d.uid ≠ cid)) ∧
    (∃ (s : State) (cid : Nat) (c : Cmd) (p : PartNo) (k : Coll), collAt s cid 0x23 c p k ∧ exportErr k c = none ∧ c.sizeOnly = true) ∧
    (∃ (s : State) (cid : Nat) (c : Cmd) (p : PartNo) (k : Coll), collAt s cid 0x23 c p k ∧ exportErr k c = none ∧ c.sizeOnly = false ∧
      clean s) ∧
    (∃ (s : State) (cid : Nat) (c : Cmd) (p : PartNo) (k : Coll), collAt s cid 0x24 c p k ∧ c.shadow = false ∧ consolidateErr k c = none ∧
      clean s) :=
  ⟨⟨(one up (ioc 0x22 (zeros 64) [] 64 0)), 7, (ioc 0x22 (zeros 64) [] 64 0), 0, by unfold ioAt sound shaped memOk secOk named; decide⟩,
   ⟨withColl flat (ioc 0x23 (pb 64 [(0, [2])]) [] 0 65536), 7, (ioc 0x23 (pb 64 [(0, [2])]) [] 0 65536), 0, flat,
    by unfold collAt ioAt sound shaped memOk secOk named; decide⟩,
   ⟨withColl flat (ioc 0x23 (zeros 64) [] 0 65536), 7, (ioc 0x23 (zeros 64) [] 0 65536), 0, flat,
    by unfold collAt ioAt sound shaped memOk secOk named; decide⟩,
   ⟨withColl flat (ioc 0x24 (zeros 64) [] 0 0), 7, (ioc 0x24 (zeros 64) [] 0 0), 0, flat,
    by unfold collAt ioAt sound shaped memOk secOk named; decide⟩⟩

theorem witness_QueriesCompleteByTheirSteps :
    (∃ (s : State) (cid : Nat) (op : Nat) (c : Cmd) (p : PartNo) (k : Coll) (i : Instr), collAt s cid op c p k ∧ alone c ∧ c.run = .idle ∧
      c.overMesh k = false ∧ c.queryErr k = none ∧ served s ∧ ((op = 0x30 ∧ i = .search cid) ∨ (op = 0x31 ∧ i = .searchCompound cid) ∨ (op
      = 0x32 ∧ i = .scan cid))) ∧
    (∃ (s : State) (cid : Nat) (op : Nat) (c : Cmd) (p : PartNo) (k : Coll) (w : Walk), collAt s cid op c p k ∧ c.run = .walk w ∧ (op =
      0x30 ∨ op = 0x31 ∨ op = 0x32) ∧ w.ended = false ∧ 0 < w.width ∧ clean s) ∧
    (∃ (s : State) (cid : Nat) (op : Nat) (c : Cmd) (p : PartNo) (k : Coll) (w : Walk), collAt s cid op c p k ∧ c.run = .walk w ∧ (op =
      0x30 ∨ op = 0x31 ∨ op = 0x32) ∧ w.ended = true ∧ w.toRank ≠ [] ∧ clean s) ∧
    (∃ (s : State) (cid : Nat) (op : Nat) (c : Cmd) (p : PartNo) (k : Coll) (w : Walk), collAt s cid op c p k ∧ alone c ∧ c.run = .walk w
      ∧ (op = 0x30 ∨ op = 0x31 ∨ op = 0x32) ∧ w.ended = true ∧ w.toRank = [] ∧ w.joined = false ∧ clean s ∧ (s.part p).scratchPoison = [])
      ∧
    (∃ (s : State) (cid : Nat) (op : Nat) (c : Cmd) (p : PartNo) (k : Coll) (w : Walk) (m : MeshWait), collAt s cid op c p k ∧ (op = 0x30
      ∨ op = 0x31 ∨ op = 0x32) ∧ c.run = .walk w ∧ c.mesh = some m ∧ w.ended = false ∧ m.asking = false ∧ m.waiting ≠ [] ∧ s.past
      c.deadline = true) :=
  ⟨⟨withColl flat (ioc 0x32 (pb 80 [(0, [1]), (2, [1]), (12, [16])]) [0, 63, 0, 63, 0, 63, 0, 63] 16 64), 7, 0x32, (ioc 0x32 (pb 80 [(0,
    [1]), (2, [1]), (12, [16])]) [0, 63, 0, 63, 0, 63, 0, 63] 16 64), 0, flat, .scan 7,
    by unfold collAt ioAt sound shaped memOk secOk named; decide⟩,
   ⟨withColl flat
    ({ ioc 0x32 (pb 80 [(0, [1]), (2, [1]), (12, [16])]) [0, 63, 0, 63, 0, 63, 0, 63] 16 64 with run := .walk { qs := [([0, 63, 0, 63, 0, 63, 0, 63], 0, 0)], qtype := 6, ended := false, toRank := [] } }),
    7, 0x32,
    ({ ioc 0x32 (pb 80 [(0, [1]), (2, [1]), (12, [16])]) [0, 63, 0, 63, 0, 63, 0, 63] 16 64 with run := .walk { qs := [([0, 63, 0, 63, 0, 63, 0, 63], 0, 0)], qtype := 6, ended := false, toRank := [] } }),
    0, flat, { qs := [([0, 63, 0, 63, 0, 63, 0, 63], 0, 0)], qtype := 6, ended := false, toRank := [] },
    by unfold collAt ioAt sound shaped memOk secOk named; decide⟩,
   ⟨withColl flat
    ({ ioc 0x32 (pb 80 [(0, [1]), (2, [1]), (12, [16])]) [0, 63, 0, 63, 0, 63, 0, 63] 16 64 with run := .walk { qs := [([0, 63, 0, 63, 0, 63, 0, 63], 0, 0)], qtype := 6, ended := true, toRank := [0, 1] } }),
    7, 0x32,
    ({ ioc 0x32 (pb 80 [(0, [1]), (2, [1]), (12, [16])]) [0, 63, 0, 63, 0, 63, 0, 63] 16 64 with run := .walk { qs := [([0, 63, 0, 63, 0, 63, 0, 63], 0, 0)], qtype := 6, ended := true, toRank := [0, 1] } }),
    0, flat, { qs := [([0, 63, 0, 63, 0, 63, 0, 63], 0, 0)], qtype := 6, ended := true, toRank := [0, 1] },
    by unfold collAt ioAt sound shaped memOk secOk named; decide⟩,
   ⟨withColl flat
    ({ ioc 0x32 (pb 80 [(0, [1]), (2, [1]), (12, [16])]) [0, 63, 0, 63, 0, 63, 0, 63] 16 64 with run := .walk { qs := [([0, 63, 0, 63, 0, 63, 0, 63], 0, 0)], qtype := 6, ended := true, toRank := [] } }),
    7, 0x32,
    ({ ioc 0x32 (pb 80 [(0, [1]), (2, [1]), (12, [16])]) [0, 63, 0, 63, 0, 63, 0, 63] 16 64 with run := .walk { qs := [([0, 63, 0, 63, 0, 63, 0, 63], 0, 0)], qtype := 6, ended := true, toRank := [] } }),
    0, flat, { qs := [([0, 63, 0, 63, 0, 63, 0, 63], 0, 0)], qtype := 6, ended := true, toRank := [] },
    by unfold collAt ioAt sound shaped memOk secOk named; decide⟩,
   ⟨withColl flat
    ({ ioc 0x32 (pb 80 [(0, [1]), (2, [1]), (12, [16])]) [0, 63, 0, 63, 0, 63, 0, 63] 16 64 with run := .walk { qs := [([0, 63, 0, 63, 0, 63, 0, 63], 0, 0)], qtype := 6, ended := false, toRank := [] }, mesh := some { waiting := [1] }, deadline := some 5 }),
    7, 0x32,
    ({ ioc 0x32 (pb 80 [(0, [1]), (2, [1]), (12, [16])]) [0, 63, 0, 63, 0, 63, 0, 63] 16 64 with run := .walk { qs := [([0, 63, 0, 63, 0, 63, 0, 63], 0, 0)], qtype := 6, ended := false, toRank := [] }, mesh := some { waiting := [1] }, deadline := some 5 }),
    0, flat, { qs := [([0, 63, 0, 63, 0, 63, 0, 63], 0, 0)], qtype := 6, ended := false, toRank := [] }, { waiting := [1] },
    by unfold collAt ioAt sound shaped memOk secOk named; decide⟩⟩

theorem witness_QueriesStoreNothing :
    ∃ (s : State) (t : State) (cid : Nat) (op : Nat) (c : Cmd) (p : PartNo) (k : Coll) (i : Instr), exec i s = .next t ∧ collAt s cid op c
      p k ∧ alone c ∧ c.run = .idle ∧ c.overMesh k = false ∧ ((op = 0x30 ∧ i = .search cid) ∨ (op = 0x31 ∧ i = .searchCompound cid) ∨ (op
      = 0x32 ∧ i = .scan cid) ∨ (op = 0x33 ∧ i = .fetch cid)) :=
  ⟨withColl flat (ioc 0x32 (pb 80 [(0, [1]), (2, [1]), (12, [16])]) [0, 63, 0, 63, 0, 63, 0, 63] 16 64), after (exec (.scan 7) (withColl
    flat (ioc 0x32 (pb 80 [(0, [1]), (2, [1]), (12, [16])]) [0, 63, 0, 63, 0, 63, 0, 63] 16 64))), 7, 0x32, (ioc 0x32 (pb 80 [(0, [1]),
    (2, [1]), (12, [16])]) [0, 63, 0, 63, 0, 63, 0, 63] 16 64), 0, flat, .scan 7, rfl,
    by unfold collAt ioAt sound shaped memOk secOk named; decide⟩

theorem witness_FetchesAndShadowScansRun :
    (∃ (s : State) (cid : Nat) (c : Cmd) (p : PartNo) (k : Coll), collAt s cid 0x33 c p k ∧ alone c ∧ c.overMesh k = false ∧ fetchCheck k
      c = none ∧ clean s) ∧
    (∃ (s : State) (p : PartNo) (h : Nat) (k : Coll) (q : Shadow), sound s ∧ s.slm.stalled = false ∧ s.coll? p h = some k ∧ ((s.part
      p).shadows.filter fun x => x.handle == h) = [q] ∧ s.shadowOf p k q = none ∧ s.tasksRun p = true) ∧
    (∃ (s : State) (p : PartNo) (h : Nat) (k : Coll) (q : Shadow) (c : Cmd), sound s ∧ s.coll? p h = some k ∧ (s.part p).collU? k.uid =
      some k ∧ k.isMesh = false ∧ ((s.part p).shadows.filter fun x => x.handle == h) = [q] ∧ s.shadowOf p k q = some c ∧ c.ioRunning 0x32
      = true ∧ c.run = .idle ∧ alone c ∧ s.haltedOn c.id = false ∧ s.tasksRun p = true ∧ clean s) :=
  ⟨⟨withColl flat (ioc 0x33 (pb 64 [(0, [1])]) (zeros 8) 8 64), 7, (ioc 0x33 (pb 64 [(0, [1])]) (zeros 8) 8 64), 0, flat,
    by unfold collAt ioAt sound shaped memOk secOk named; decide⟩,
   ⟨p0 up
    fun x => { x with colls := [flat], shadows := [{ handle := 2, stamp := 0, query := zeros 8, qtype := 6, filter := zeros 16, k := 1, result := [0] }] },
    0, 2, flat, { handle := 2, stamp := 0, query := zeros 8, qtype := 6, filter := zeros 16, k := 1, result := [0] },
    by unfold sound shaped memOk secOk named; decide⟩,
   ⟨p0 (one up (shadowCmd 7 0 flat ({ handle := 2, stamp := 0, query := zeros 8, qtype := 6, filter := zeros 16, k := 1, result := [0] } :
    Shadow) 0 0 .running))
    fun x => { x with colls := [flat], mem := { extents := [{ lo := 0, hi := 16777216 }] }, shadows := [({ handle := 2, stamp := 0, query := zeros 8, qtype := 6, filter := zeros 16, k := 1, result := [0] } : Shadow)] },
    0, 2, flat, ({ handle := 2, stamp := 0, query := zeros 8, qtype := 6, filter := zeros 16, k := 1, result := [0] } : Shadow), shadowCmd
    7 0 flat ({ handle := 2, stamp := 0, query := zeros 8, qtype := 6, filter := zeros 16, k := 1, result := [0] } : Shadow) 0 0 .running,
    by unfold sound shaped memOk secOk named; decide⟩⟩

theorem witness_MutationsWriteAndCommitInOrder :
    (∃ (s : State) (cid : Nat) (op : Nat) (c : Cmd) (p : PartNo) (k : Coll) (f : Bool → Instr) (e : _), ((op = 0x40 ∧ f = .insert cid) ∨
      (op = 0x41 ∧ f = .delete cid) ∨ (op = 0x42 ∧ f = .upsert cid) ∨ (op = 0x43 ∧ f = .setAttributes cid)) ∧ (s.reserveMut p k c).2 =
      .inl e ∧ collAt s cid op c p k ∧ alone c ∧ c.run = .idle ∧ k.isMesh = false ∧ s.mutErr p k c = none ∧ (s.part p).journal.state =
      .off ∧ clean s) ∧
    (∃ (s : State) (cid : Nat) (op : Nat) (c : Cmd) (p : PartNo) (k : Coll) (f : Bool → Instr) (r : _), ((op = 0x40 ∧ f = .insert cid) ∨
      (op = 0x41 ∧ f = .delete cid) ∨ (op = 0x42 ∧ f = .upsert cid) ∨ (op = 0x43 ∧ f = .setAttributes cid)) ∧ (s.reserveMut p k c).2 =
      .inr r ∧ collAt s cid op c p k ∧ alone c ∧ c.run = .idle ∧ k.isMesh = false ∧ s.mutErr p k c = none ∧ (s.part p).journal.state =
      .off ∧ clean s) ∧
    (∃ (s : State) (cid : Nat) (op : Nat) (c : Cmd) (p : PartNo) (k : Coll) (f : Bool → Instr) (r : _), ((op = 0x40 ∧ f = .insert cid) ∨
      (op = 0x41 ∧ f = .delete cid) ∨ (op = 0x42 ∧ f = .upsert cid) ∨ (op = 0x43 ∧ f = .setAttributes cid)) ∧ (s.reserveMut p k c).2 =
      .inr r ∧ collAt s cid op c p k ∧ alone c ∧ c.run = .idle ∧ k.isMesh = false ∧ s.mutErr p k c = none ∧ (s.part p).journal.state =
      .off ∧ clean s ∧ s.commitWaits = false) ∧
    (∃ (s : State) (cid : Nat) (op : Nat) (c : Cmd) (p : PartNo) (k : Coll) (f : Bool → Instr) (r : _), ((op = 0x40 ∧ f = .insert cid) ∨
      (op = 0x41 ∧ f = .delete cid) ∨ (op = 0x42 ∧ f = .upsert cid) ∨ (op = 0x43 ∧ f = .setAttributes cid)) ∧ (s.reserveMut p k c).2 =
      .inr r ∧ collAt s cid op c p k ∧ alone c ∧ c.run = .idle ∧ k.isMesh = false ∧ s.mutErr p k c = none ∧ (s.part p).journal.state =
      .off ∧ clean s ∧ s.commitWaits = true) ∧
    (∃ (s : State) (cid : Nat) (c : Cmd) (p : PartNo) (k : Coll) (m : MutSt), sound s ∧ s.cmd? cid = some c ∧ c.op ∈ recordLockOps ∧
      (c.phase = .running ∨ c.phase = .committing) ∧ alone c ∧ c.part = some p ∧ c.coll.bind (s.part p).collU? = some k ∧ k.isMesh = false
      ∧ c.run = .mutation m ∧ m.written = true ∧ (s.part p).journal.state = .off ∧ clean s) ∧
    (∃ (s : State) (cid : Nat) (member : Nat) (c : Cmd) (p : PartNo) (k : Coll) (m : MeshWait), sound s ∧ s.cmd? cid = some c ∧ c.op ∈
      recordLockOps ∧ c.origin = none ∧ c.part = some p ∧ c.mesh = some m ∧ c.coll.bind (s.part p).collU? = some k ∧ m.applying = true ∧
      member ∈ m.waiting ∧ (∀ o ∈ m.outcomes, o.1 ≠ member)) :=
  ⟨⟨(withColl flat (ioc 0x40 (pb 64 [(0, [17]), (4, [2])]) ((List.range 17).flatMap fun i => toLe 8 (i + 1) ++ zeros 16) 408 0)), 7, 0x40,
    (ioc 0x40 (pb 64 [(0, [17]), (4, [2])]) ((List.range 17).flatMap fun i => toLe 8 (i + 1) ++ zeros 16) 408 0), 0, flat, (fun b =>
    .insert 7 b), { st := stCapacity }, Or.inl ⟨rfl, rfl⟩, full_reserve rfl (by decide),
    by unfold collAt ioAt sound shaped memOk secOk named; decide⟩,
   ⟨(withColl flat (ioc 0x41 (pb 64 [(0, [1])]) (toLe 8 5) 8 0)), 7, 0x41, (ioc 0x41 (pb 64 [(0, [1])]) (toLe 8 5) 8 0), 0, flat, (fun b
    => .delete 7 b), {}, Or.inr (Or.inl ⟨rfl, rfl⟩), rfl, by unfold collAt ioAt sound shaped memOk secOk named; decide⟩,
   ⟨(withColl flat (ioc 0x41 (pb 64 [(0, [1])]) (toLe 8 5) 8 0)), 7, 0x41, (ioc 0x41 (pb 64 [(0, [1])]) (toLe 8 5) 8 0), 0, flat, (fun b
    => .delete 7 b), {}, Or.inr (Or.inl ⟨rfl, rfl⟩), rfl, by unfold collAt ioAt sound shaped memOk secOk named; decide⟩,
   ⟨{ withColl flat (ioc 0x41 (pb 64 [(0, [1])]) (toLe 8 5) 8 0) with time := { up.time with largestStamp := 90000000000 } }, 7, 0x41,
    (ioc 0x41 (pb 64 [(0, [1])]) (toLe 8 5) 8 0), 0, flat, (fun b => .delete 7 b), {}, Or.inr (Or.inl ⟨rfl, rfl⟩), rfl,
    by unfold collAt ioAt sound shaped memOk secOk named; decide⟩,
   ⟨withColl flat ({ ioc 0x41 (pb 64 [(0, [1])]) (zeros 8) 8 0 with run := .mutation { written := true } }), 7,
    ({ ioc 0x41 (pb 64 [(0, [1])]) (zeros 8) 8 0 with run := .mutation { written := true } }), 0, flat, { written := true },
    by unfold sound shaped memOk secOk named; decide⟩,
   ⟨withColl flat2
    ({ ioc 0x41 (pb 64 [(0, [1])]) (zeros 8) 8 0 with phase := .flushing, mesh := some { waiting := [1], members := [1], applying := true } }),
    7, 1,
    ({ ioc 0x41 (pb 64 [(0, [1])]) (zeros 8) 8 0 with phase := .flushing, mesh := some { waiting := [1], members := [1], applying := true } }),
    0, flat2, { waiting := [1], members := [1], applying := true }, by unfold sound shaped memOk secOk named; decide⟩⟩

theorem witness_LookupsPoolAndChangeNothing :
    ∃ (s : State) (cid : Nat) (c : Cmd) (p : PartNo) (k : Coll), collAt s cid 0x50 c p k ∧ alone c ∧ k.isMesh = false ∧ s.lookupErr p k c
      = none ∧ (s.part p).scratchPoison = [] ∧ clean s :=
  ⟨withColl table (ioc 0x50 (pb 64 [(0, [1]), (4, [1]), (8, [1])]) (zeros 16) 16 16), 7, (ioc 0x50 (pb 64 [(0, [1]), (4, [1]), (8, [1])])
    (zeros 16) 16 16), 0, table, by unfold collAt ioAt sound shaped memOk secOk named; decide⟩

theorem witness_UpdatesCommitInSteps :
    (∃ (s : State) (cid : Nat) (c : Cmd) (p : PartNo) (k : Coll), collAt s cid 0x51 c p k ∧ alone c ∧ c.run = .idle ∧ k.isMesh = false ∧
      s.updateErr p k c = none ∧ s.inputPoison p k c = none ∧ clean s) ∧
    (∃ (s : State) (cid : Nat) (c : Cmd) (p : PartNo) (k : Coll), collAt s cid 0x51 c p k ∧ alone c ∧ c.run = .idle ∧ k.isMesh = false ∧
      s.updateErr p k c = none ∧ s.inputPoison p k c = none ∧ clean s) ∧
    (∃ (s : State) (cid : Nat) (c : Cmd) (p : PartNo) (k : Coll) (u : UpdSt), sound s ∧ s.cmd? cid = some c ∧ c.isAdmin = false ∧ c.op =
      0x51 ∧ (c.phase = .committing ∨ (c.phase = .running ∧ s.haltedOn cid = false)) ∧ c.part = some p ∧ c.coll.bind (s.part p).collU? =
      some k ∧ c.orphan = false ∧ k.isMesh = false ∧ c.run = .update u ∧ clean s) :=
  ⟨⟨withColl table (ioc 0x51 (pb 64 [(0, [1]), (4, [1]), (8, [1])]) (zeros 32) 32 0), 7, (ioc 0x51 (pb 64 [(0, [1]), (4, [1]), (8, [1])])
    (zeros 32) 32 0), 0, table, by unfold collAt ioAt sound shaped memOk secOk named; decide⟩,
   ⟨withColl table (ioc 0x51 (pb 64 [(0, [1]), (4, [1]), (8, [1])]) (zeros 32) 32 0), 7, (ioc 0x51 (pb 64 [(0, [1]), (4, [1]), (8, [1])])
    (zeros 32) 32 0), 0, table, by unfold collAt ioAt sound shaped memOk secOk named; decide⟩,
   ⟨withColl table ({ ioc 0x51 (pb 64 [(0, [1]), (4, [1]), (8, [1])]) (zeros 32) 32 0 with run := .update {} }), 7,
    ({ ioc 0x51 (pb 64 [(0, [1]), (4, [1]), (8, [1])]) (zeros 32) 32 0 with run := .update {} }), 0, table, {},
    by unfold sound shaped memOk secOk named; decide⟩⟩

theorem witness_HotSetsShardsAndStagesLoad :
    (∃ (s : State) (cid : Nat) (c : Cmd) (p : PartNo) (k : Coll), collAt s cid 0x53 c p k ∧ hotErr k c = none ∧ clean s) ∧
    (∃ (s : State) (cid : Nat) (c : Cmd) (p : PartNo) (k : Coll), collAt s cid 0x54 c p k ∧ alone c ∧ shardErr k c = none ∧ c.target =
      k.memberIndex ∧ c.toMove k = [] ∧ c.dirRoom k = true) ∧
    (∃ (s : State) (cid : Nat) (c : Cmd) (p : PartNo) (k : Coll), collAt s cid 0x54 c p k ∧ alone c ∧ shardErr k c = none ∧ ((∀ m ∈
      c.target :: (c.toMove k).map k.owner, m ≠ k.memberIndex → s.unreachable (k.deviceOf m) = false)) ∧ c.target ≠ k.memberIndex) ∧
    (∃ (s : State) (cid : Nat) (c : Cmd) (p : PartNo) (k : Coll), collAt s cid 0x60 c p k ∧ s.denseErr p k c = none ∧ s.denseWaits c =
      false) :=
  ⟨⟨withColl table (ioc 0x53 (pb 64 [(4, [1])]) (zeros 16) 16 0), 7, (ioc 0x53 (pb 64 [(4, [1])]) (zeros 16) 16 0), 0, table,
    by unfold collAt ioAt sound shaped memOk secOk named; decide⟩,
   ⟨withColl ({ table2 with tm := { dir := [(0, 0, 1)] } }) (ioc 0x54 (pb 64 [(8, [1]), (12, [0])]) [] 0 0), 7, (ioc 0x54 (pb 64 [(8,
    [1]), (12, [0])]) [] 0 0), 0, { table2 with tm := { dir := [(0, 0, 1)] } },
    by unfold collAt ioAt sound shaped memOk secOk named; decide⟩,
   ⟨{ withColl table2 (ioc 0x54 (pb 64 [(8, [1]), (12, [1])]) [] 0 0) with mesh := { enable := true, ports := { enable := true, state := .up, peerId := some 9 } :: List.replicate 7 {}, routes := [(9, 0x80000000)] } },
    7, (ioc 0x54 (pb 64 [(8, [1]), (12, [1])]) [] 0 0), 0, table2, by unfold collAt ioAt sound shaped memOk secOk named; decide⟩,
   ⟨withColl graph (ioc 0x60 (pb 64 [(0, [5]), (6, [1])]) [] 0 0), 7, (ioc 0x60 (pb 64 [(0, [5]), (6, [1])]) [] 0 0), 0, graph,
    by unfold collAt ioAt sound shaped memOk secOk named; decide⟩⟩

theorem witness_RegionsAreWrittenAndRead :
    (∃ (s : State) (cid : Nat) (c : Cmd) (p : PartNo), ioAt s cid 0x70 c ∧ s.haltedOn cid = false ∧ c.part = some p ∧ s.regionErr true p c
      = none ∧ clean s ∧ (s.part p).scratchPoison = []) ∧
    (∃ (s : State) (cid : Nat) (c : Cmd) (p : PartNo), ioAt s cid 0x71 c ∧ s.haltedOn cid = false ∧ c.part = some p ∧ s.regionErr false p
      c = none ∧ clean s ∧ (s.part p).scratchPoison = []) :=
  ⟨⟨(one up (ioc 0x70 (pb 64 [(0, [0]), (8, toLe 8 64), (16, [4])]) [1, 2, 3, 4] 4 0)), 7, (ioc 0x70 (pb 64 [(0, [0]), (8, toLe 8 64),
    (16, [4])]) [1, 2, 3, 4] 4 0), 0, by unfold ioAt sound shaped memOk secOk named; decide⟩,
   ⟨(one up (ioc 0x71 (pb 64 [(0, [0]), (8, toLe 8 64), (16, [4])]) [] 0 4)), 7, (ioc 0x71 (pb 64 [(0, [0]), (8, toLe 8 64), (16, [4])])
    [] 0 4), 0, by unfold ioAt sound shaped memOk secOk named; decide⟩⟩

theorem witness_QueuesAreEnabledAndRung :
    (∃ (s : State) (fn : Fn), sound s ∧ s.barOpen fn = true ∧ (s.fnAt fn).qmEnable = false ∧ (s.fnAt fn).qmReady = false ∧ s.maxPairs fn ≠
      0 ∧ bits (s.fnAt fn).aqSize.toNat 0 12 ≠ 0 ∧ bits (s.fnAt fn).aqSize.toNat 16 12 ≠ 0) ∧
    (∃ (s : State) (fn : Fn), s.barOpen fn = true ∧ (s.fnAt fn).qmEnable = false ∧ (bits (s.fnAt fn).aqSize.toNat 0 12 = 0 ∨ bits (s.fnAt
      fn).aqSize.toNat 16 12 = 0)) ∧
    (∃ (s : State) (fn : Fn), sound s ∧ s.barOpen fn = true ∧ (s.fnAt fn).qmEnable = true) ∧
    (∃ (s : State) (cid : Nat) (c : Cmd), s.cmd? cid = some c ∧ c.phase = .held ∧ s.hif.dpReady = false ∧ c.heldSince + 3000000000 <
      s.now) ∧
    (∃ (s : State) (fn : Fn) (qid : Nat) (v : Word32) (q : Pair), s.barOpen fn = true ∧ s.pair? fn qid = some q ∧ q.deleting = false ∧
      v.toNat % 65536 < q.sqSize) ∧
    (∃ (s : State) (fn : Fn) (qid : Nat) (v : Word32) (q : Pair), s.barOpen fn = true ∧ s.pair? fn qid = some q ∧ q.deleting = false ∧
      v.toNat % 65536 < q.cqSize ∧ (v.toNat % 65536 + q.cqSize - q.cqHead) % q.cqSize ≤ (q.cqTail + q.cqSize - q.cqHead) % q.cqSize) ∧
    (∃ (s : State) (fn : Fn) (qid : Nat) (v : Word32) (q : Pair), s.barOpen fn = true ∧ s.pair? fn qid = some q ∧ (q.deleting = true ∨
      q.sqSize ≤ v.toNat % 65536)) ∧
    (∃ (s : State) (fn : Fn) (qid : Nat) (v : Word32) (q : Pair), s.barOpen fn = true ∧ s.pair? fn qid = some q ∧ (q.deleting = true ∨
      q.cqSize ≤ v.toNat % 65536 ∨ (q.cqTail + q.cqSize - q.cqHead) % q.cqSize < (v.toNat % 65536 + q.cqSize - q.cqHead) % q.cqSize)) ∧
    (∃ (s : State) (fn : Fn) (qid : Nat) (v : Word32) (i : Instr), s.barOpen fn = true ∧ s.pair? fn qid = none ∧ (i = .sqTailDoorbell fn
      qid v ∨ i = .cqHeadDoorbell fn qid v)) :=
  ⟨⟨(fnOf up (.vf 0) fun x => { x with aqSize := 0x000F000F }), .vf 0, by unfold sound shaped memOk secOk named; decide⟩,
   ⟨up, .vf 0, by decide⟩,
   ⟨fnOf ({ up with pairs := [{ fn := .vf 0, qid := 1, part := some 0, sqSize := 8, cqSize := 8 }] }) (.vf 0)
    fun x => { x with qmEnable := true, qmReady := true }, .vf 0, by unfold sound shaped memOk secOk named; decide⟩,
   ⟨{ up with hif := {}, cmds := [{ adm 7 with phase := .held }] }, 7, { adm 7 with phase := .held }, by decide⟩,
   ⟨{ up with pairs := [{ fn := .vf 0, qid := 1, part := some 0, sqSize := 8, cqSize := 8 }] }, .vf 0, 1, 7,
    { fn := .vf 0, qid := 1, part := some 0, sqSize := 8, cqSize := 8 }, by decide⟩,
   ⟨{ up with pairs := [{ fn := .vf 0, qid := 1, part := some 0, sqSize := 8, cqSize := 8, cqTail := 3 }] }, .vf 0, 1, 2,
    { fn := .vf 0, qid := 1, part := some 0, sqSize := 8, cqSize := 8, cqTail := 3 }, by decide⟩,
   ⟨{ up with pairs := [{ fn := .vf 0, qid := 1, part := some 0, sqSize := 8, cqSize := 8 }] }, .vf 0, 1, 8,
    { fn := .vf 0, qid := 1, part := some 0, sqSize := 8, cqSize := 8 }, by decide⟩,
   ⟨{ up with pairs := [{ fn := .vf 0, qid := 1, part := some 0, sqSize := 8, cqSize := 8 }] }, .vf 0, 1, 9,
    { fn := .vf 0, qid := 1, part := some 0, sqSize := 8, cqSize := 8 }, by decide⟩,
   ⟨up, .vf 0, 1, 0, .sqTailDoorbell (.vf 0) 1 0, by decide⟩⟩

theorem witness_EntriesAreFetchedInTurn :
    (∃ (s : State) (q : Pair), s.nextFetch = some q) ∧
    (∃ (s : State) (q : Pair), s.nextFetch = some q) ∧
    (∃ (s : State), s.nextFetch = none) :=
  ⟨⟨{ up with pairs := [{ fn := .vf 0, qid := 1, part := some 0, sqSize := 8, cqSize := 8, tail := 1 }] },
    { fn := .vf 0, qid := 1, part := some 0, sqSize := 8, cqSize := 8, tail := 1 }, by decide⟩,
   ⟨{ up with pairs := [{ fn := .vf 0, qid := 1, part := some 0, sqSize := 8, cqSize := 8, tail := 1 }] },
    { fn := .vf 0, qid := 1, part := some 0, sqSize := 8, cqSize := 8, tail := 1 }, by decide⟩,
   ⟨up, by decide⟩⟩

theorem witness_CompletionsAreWritten :
    (∃ (s : State) (cid : Nat) (fault : Bool) (c : Cmd) (q : Pair), s.cmd? cid = some c ∧ c.phase = .done ∧ c.shadow = false ∧ c.origin =
      none ∧ s.pair? c.fn c.qid = some q ∧ s.mayPost q c = true ∧ s.readFirst c = none ∧ ((fault = false ∨ q.pasid = none)) ∧ c.pageWait ≠
      some false) ∧
    (∃ (s : State) (cid : Nat) (c : Cmd) (q : Pair) (a : Nat), s.cmd? cid = some c ∧ c.phase = .done ∧ c.shadow = false ∧ c.origin = none
      ∧ s.pair? c.fn c.qid = some q ∧ s.mayPost q c = true ∧ s.readFirst c = some a) ∧
    (∃ (s : State) (cid : Nat) (c : Cmd) (q : Pair) (n : Nat), s.cmd? cid = some c ∧ c.phase = .done ∧ c.shadow = false ∧ c.origin = none
      ∧ s.pair? c.fn c.qid = some q ∧ s.mayPost q c = true ∧ s.readFirst c = none ∧ q.pasid = some n ∧ c.pageWait = none ∧ s.mayAsk q.fn =
      true) ∧
    (∃ (s : State) (cid : Nat) (c : Cmd) (q : Pair), s.cmd? cid = some c ∧ c.phase = .done ∧ c.shadow = false ∧ c.origin = none ∧ s.pair?
      c.fn c.qid = some q ∧ s.mayPost q c = true ∧ c.pageWait = some true) ∧
    (∃ (s : State) (cid : Nat) (c : Cmd) (q : Pair), s.cmd? cid = some c ∧ c.phase = .done ∧ c.origin = none ∧ s.pair? c.fn c.qid = some q
      ∧ s.mayPost q c = false) ∧
    (∃ (s : State) (fn : Fn) (qid : Nat) (q : Pair), s.pair? fn qid = some q ∧ 0 < q.unsignalled ∧ q.unsignalledSince + 1000 * q.aggTime ≤
      s.now) :=
  ⟨⟨{ one up ({ io 0x32 with phase := .done }) with pairs := [{ fn := .vf 0, qid := 1, part := some 0, sqSize := 8, cqSize := 8 }] }, 7,
    false, ({ io 0x32 with phase := .done }), { fn := .vf 0, qid := 1, part := some 0, sqSize := 8, cqSize := 8 }, by decide⟩,
   ⟨{ one up ({ io 0x32 with phase := .done, outAt := some 4096 }) with pairs := [{ fn := .vf 0, qid := 1, part := some 0, sqSize := 8, cqSize := 8 }] },
    7, { io 0x32 with phase := .done, outAt := some 4096 }, { fn := .vf 0, qid := 1, part := some 0, sqSize := 8, cqSize := 8 }, 4096,
    by decide⟩,
   ⟨fnOf
    ({ one up ({ io 0x32 with phase := .done }) with pairs := [{ fn := .vf 0, qid := 1, part := some 0, sqSize := 8, cqSize := 8, pasid := some 5 }] })
    (.vf 0) fun x => { x with cfg := [(0x16C, 4)] }, 7, ({ io 0x32 with phase := .done }),
    { fn := .vf 0, qid := 1, part := some 0, sqSize := 8, cqSize := 8, pasid := some 5 }, 5, by decide⟩,
   ⟨{ one up ({ io 0x32 with phase := .done, pageWait := some true }) with pairs := [{ fn := .vf 0, qid := 1, part := some 0, sqSize := 8, cqSize := 8, pasid := some 5 }] },
    7, ({ io 0x32 with phase := .done, pageWait := some true }),
    { fn := .vf 0, qid := 1, part := some 0, sqSize := 8, cqSize := 8, pasid := some 5 }, by decide⟩,
   ⟨{ one up ({ io 0x32 with phase := .done }) with pairs := [{ fn := .vf 0, qid := 1, part := some 0, sqSize := 8, cqSize := 8, cqTail := 7 }] },
    7, ({ io 0x32 with phase := .done }), { fn := .vf 0, qid := 1, part := some 0, sqSize := 8, cqSize := 8, cqTail := 7 }, by decide⟩,
   ⟨{ up with pairs := [{ fn := .vf 0, qid := 1, part := some 0, sqSize := 8, cqSize := 8, unsignalled := 1 }] }, .vf 0, 1,
    { fn := .vf 0, qid := 1, part := some 0, sqSize := 8, cqSize := 8, unsignalled := 1 }, by decide⟩⟩

theorem witness_CommandsAreAdmittedOrEndInTime :
    (∃ (s : State) (u : State) (p : PartNo) (c : Cmd), (s.freeLeaving p).promote p = u ∧ sound s ∧ (∀ k ∈ s.ras.clusters, k.bypassAt =
      none) ∧ (s.part p).present = true ∧ s.hif.dpReady = true ∧ (s.part p).stopped = false ∧ s.fw.live = none ∧ (s.clustersOf p).isEmpty
      = false ∧ u.headOf p = some c ∧ u.outputShort p (u.fixed p c) = none ∧ (u.admitHead p).isSome) ∧
    (∃ (s : State) (p : PartNo) (c : Cmd), sound s ∧ (∀ k ∈ s.ras.clusters, k.bypassAt = none) ∧ (s.part p).present = true ∧ (s.clustersOf
      p).isEmpty = true ∧ s.cmd? c.id = some c ∧ c.part = some p ∧ c.phase = .queued ∧ c.op ≠ 0x7F) ∧
    (∃ (s : State) (cid : Nat) (c : Cmd), sound s ∧ s.cmd? cid = some c ∧ c.phase = .queued ∧ c.rerun = false ∧ c.origin = none ∧
      s.fetchLimit c = true ∧ ((∀ p, c.part = some p → s.outputShort p c = none))) ∧
    (∃ (s : State) (cid : Nat) (c : Cmd), sound s ∧ s.cmd? cid = some c ∧ c.phase = .waiting ∧ s.lockGranted cid = false ∧ s.meshMutation
      c = false ∧ s.fetchLimit c = true) ∧
    (∃ (s : State) (p : PartNo) (h : Cmd) (v : Cmd), sound s ∧ s.headOf p = some h ∧ (s.part p).feat 0x60 ≠ 65535 ∧ (s.part p).headCid =
      h.id + 1 ∧ (s.part p).headSince + 1000 * (s.part p).feat 0x60 ≤ s.now ∧ s.pickCores p h.op = none ∧ (s.cmds.filter fun c => c.part
      == some p && s.preemptible c h.cls) = [v] ∧ v.mesh = none ∧ v.origin = none) ∧
    (∃ (s : State) (cid : Nat) (c : Cmd) (i : Instr), sound s ∧ s.cmd? cid = some c ∧ c.isAdmin = false ∧ c.op = 0x7F ∧ c.phase = .waiting
      ∧ fenceErr c = none ∧ (i = .fence cid ∨ i = .fenceRelease cid)) :=
  ⟨⟨one up ({ io 0x32 with phase := .queued }), ((one up ({ io 0x32 with phase := .queued })).freeLeaving 0).promote 0, 0,
    ({ io 0x32 with phase := .queued }), rfl, by unfold sound shaped memOk secOk named; decide⟩,
   ⟨p0 (one up ({ io 0x32 with phase := .queued })) fun x => { x with clusters := 0 }, 0, ({ io 0x32 with phase := .queued }),
    by unfold sound shaped memOk secOk named; decide⟩,
   ⟨one up ({ { io 0x32 with phase := .queued } with packet := pk [(0, [0x32]), (8, [1])] }), 7,
    { { io 0x32 with phase := .queued } with packet := pk [(0, [0x32]), (8, [1])] }, by unfold sound shaped memOk secOk named; decide⟩,
   ⟨{ one up ({ { io 0x40 with phase := .waiting } with packet := pk [(0, [0x40]), (8, [1])] }) with locks := [⟨6, 0, 2, 0, 9⟩, ⟨7, 0, 2, 5, 5⟩] },
    7, { { io 0x40 with phase := .waiting } with packet := pk [(0, [0x40]), (8, [1])] },
    by unfold sound shaped memOk secOk named; decide⟩,
   ⟨p0 { up with nextCid := 9, cmds := [io 0x32, { io 0x32 [(6, [2])] with id := 8, phase := .queued }], ctxs := [⟨0, 0, 7, .running⟩] }
    fun x => x.setFeat 0x60 100 |> fun x => { x with headCid := 9, clusters := 0 }, 0,
    ({ io 0x32 [(6, [2])] with id := 8, phase := .queued }), (io 0x32), by unfold sound shaped memOk secOk named; decide⟩,
   ⟨(one up ({ io 0x7F with phase := .waiting })), 7, ({ io 0x7F with phase := .waiting }), .fence 7,
    by unfold sound shaped memOk secOk named; decide⟩⟩

theorem witness_StreamsTransferAndCoresSwap :
    (∃ (s : State) (core : Nat) (x : Stream), ((∀ e, x.issued ≤ e → e < x.issued + s.nextElems x → s.isHole x e = false)) ∧
      s.pickRistretto core = none ∧ s.pickStream core = some x ∧ ((∀ y ∈ s.streams, y.core = x.core → y.num = x.num → y = x)) ∧
      s.requestsOut core + x.requests (s.nextElems x) ≤ 1024 ∧ x.pos < x.count ∧ x.pos ∉ x.landed) ∧
    (∃ (s : State) (core : Nat) (x : Stream), s.pickRistretto core = none ∧ s.pickStream core = some x ∧ ((∀ y ∈ s.streams, y.core =
      x.core → y.num = x.num → y = x)) ∧ 1024 < s.requestsOut core + x.requests (s.nextElems x)) ∧
    (∃ (s : State) (core : Nat) (x : Stream), s.pickRistretto core = none ∧ s.pickStream core = some x ∧ ((∀ y ∈ s.streams, y.core =
      x.core → y.num = x.num → y = x)) ∧ x.space = 0) ∧
    (∃ (s : State) (core : Nat) (r : Ristretto), s.pickRistretto core = some r ∧ s.ristretto.count r = 1) ∧
    (∃ (s : State) (core : Nat) (r : Ristretto), s.pickRistretto core = some r ∧ s.ristretto.count r = 1 ∧ r.space = 0 ∧ (∃ n, n < 64 ∧ ∀
      y ∈ s.streams, ¬(y.core = r.core ∧ y.num = n))) ∧
    (∃ (s : State) (core : Nat) (num : Nat) (elems : List Nat) (x : Stream), s.streams.find? (fun y => y.core == core && y.num == num) =
      some x ∧ x.dead = false ∧ (∃ e ∈ elems, x.pos ≤ e ∧ e < x.issued ∧ e ∉ x.landed)) ∧
    (∃ (s : State) (core : Nat) (num : Nat) (x : Stream), s.streams = [x] ∧ x.core = core ∧ x.num = num ∧ x.halted = true ∧ x.asked =
      true) ∧
    (∃ (s : State) (core : Nat), core < s.ras.cores.length ∧ ((∀ x ∈ s.streams, x.core = core → x.dead = false → if x.write then x.issued
      = x.count else x.outBytes = 0))) ∧
    (∃ (s : State) (core : Nat) (x : Stream), x ∈ s.streams ∧ x.core = core ∧ x.dead = false ∧ x.write = false ∧ x.outBytes ≠ 0) ∧
    (∃ (s : State) (core : Nat) (y : Ctx), bestBy s.ctxBefore (s.ctxs.filter fun x => x.core == core && x.state == .ready) = some y ∧ ((∀
      x ∈ s.ctxs, x.core = core → x.state ≠ .running))) ∧
    (∃ (s : State) (core : Nat) (x : Ctx), s.ctxs.find? (fun x => x.core == core && x.state == .running) = some x ∧ ((∀ y ∈ s.ctxs, y.core
      = x.core → y.slot = x.slot → y = x))) :=
  ⟨⟨{ one up (io 0x32) with streams := [{ core := 0, num := 0, cid := 7, count := 8, bufBytes := 64, base := 4096 }] }, 0,
    { core := 0, num := 0, cid := 7, count := 8, bufBytes := 64, base := 4096 }, fun _ _ _ => rfl, by decide⟩,
   ⟨{ one up (io 0x32) with streams := [{ core := 0, num := 0, cid := 7, count := 8, bufBytes := 64, base := 4096 }, { core := 0, num := 1, cid := 7, count := 8, bufBytes := 64, base := 4096, issued := 8, kind := 2, elem := 64, outBytes := 65536 }] },
    0, { core := 0, num := 0, cid := 7, count := 8, bufBytes := 64, base := 4096 }, by decide⟩,
   ⟨{ one up (io 0x32) with streams := [{ core := 0, num := 0, space := 0, cid := 7, count := 8, bufBytes := 64, base := 4096 }] }, 0,
    { core := 0, num := 0, space := 0, cid := 7, count := 8, bufBytes := 64, base := 4096 }, by decide⟩,
   ⟨{ one up (io 0x32) with ristretto := [{ core := 0, cid := 7, space := 1, addr := 64, len := 16 }] }, 0,
    { core := 0, cid := 7, space := 1, addr := 64, len := 16 }, by decide⟩,
   ⟨{ one up (io 0x32) with ristretto := [{ core := 0, cid := 7, space := 0, addr := 4096, len := 16 }] }, 0,
    { core := 0, cid := 7, space := 0, addr := 4096, len := 16 }, by decide⟩,
   ⟨{ one up (io 0x32) with streams := [{ core := 0, num := 0, cid := 7, count := 8, bufBytes := 64, issued := 4, outstanding := 1, outBytes := 16 }] },
    0, 0, [0, 2], { core := 0, num := 0, cid := 7, count := 8, bufBytes := 64, issued := 4, outstanding := 1, outBytes := 16 },
    by decide⟩,
   ⟨{ one up (io 0x32) with streams := [{ core := 0, num := 0, cid := 7, count := 8, halted := true, asked := true, issued := 2 }] }, 0,
    0, { core := 0, num := 0, cid := 7, count := 8, halted := true, asked := true, issued := 2 }, by decide⟩,
   ⟨up, 0, by decide⟩,
   ⟨{ one up (io 0x32) with streams := [{ core := 0, num := 0, cid := 7, count := 8, bufBytes := 64, issued := 4, outstanding := 1, outBytes := 16 }] },
    0, { core := 0, num := 0, cid := 7, count := 8, bufBytes := 64, issued := 4, outstanding := 1, outBytes := 16 }, by decide⟩,
   ⟨{ one up (io 0x32) with ctxs := [⟨0, 3, 7, .ready⟩] }, 0, ⟨0, 3, 7, .ready⟩, by decide⟩,
   ⟨{ one up (io 0x32) with ctxs := [⟨0, 3, 7, .running⟩] }, 0, ⟨0, 3, 7, .running⟩, by decide⟩⟩

theorem witness_BackgroundPassesRun :
    (∃ (s : State) (p : PartNo) (h : Nat) (k : Coll), sound s ∧ s.coll? p h = some k ∧ (s.part p).collU? k.uid = some k ∧ k.isTable =
      false ∧ s.tasksRun p = true ∧ (s.modeOf p).getLsbD mConsol = false ∧ s.passOf k = none ∧ s.passCmd p k = none ∧ (s.part p).feat 0x30
      * ((s.part p).liveSlots k).length < ((s.part p).tombstones k).length * 1000000) ∧
    (∃ (s : State) (p : PartNo) (h : Nat) (k : Coll), s.coll? p h = some k ∧ (s.modeOf p).getLsbD mConsol = true) ∧
    (∃ (s : State) (p : PartNo) (h : Nat) (k : Coll) (q : Pass) (c : Cmd), sound s ∧ clean s ∧ s.coll? p h = some k ∧ (s.part p).collU?
      k.uid = some k ∧ k.pass = some q ∧ s.tasksRun p = true ∧ c.ioRunning 0x24 = true ∧ ((q.cid = none ∧ s.passCmd p k = some c) ∨ (q.cid
      = some c.id ∧ s.cmd? c.id = some c))) ∧
    (∃ (s : State) (p : PartNo), s.slm.stalled = false ∧ (∀ k ∈ (s.part p).colls, ∀ x ∈ k.eligible, s.keptByReads p k ((s.part p).meta k
      x).del = true)) ∧
    (∃ (s : State) (p : PartNo) (k : Coll) (x : Nat), sound s ∧ clean s ∧ (s.part p).colls = [k] ∧ k.eligible = [x] ∧ s.keptByReads p k
      ((s.part p).meta k x).del = false) ∧
    (∃ (s : State) (p : PartNo), sound s ∧ clean s ∧ s.tasksRun p = true ∧ (s.modeOf p).getLsbD mHotset = false ∧ (s.part p).hotAt +
      (s.part p).feat 0x50 * 1000000 ≤ s.now) ∧
    (∃ (s : State) (p : PartNo), s.slm.stalled = false ∧ ((s.modeOf p).getLsbD mHotset = true ∨ s.now < (s.part p).hotAt + (s.part p).feat
      0x50 * 1000000)) :=
  ⟨⟨p0 up
    fun x => { x with colls := [flat], mem := { cells := [(2097152, 5), (2097160, 7), (2097168, 9), (2097192, 2)], extents := [{ lo := 0, hi := 16777216 }] } },
    0, 2, flat, by unfold sound shaped memOk secOk named; decide⟩,
   ⟨p0 up fun x => { x with colls := [flat], mem := { extents := [{ lo := 0, hi := 16777216 }] }, modeWord := 2 }, 0, 2, flat, by decide⟩,
   ⟨p0 (one up ({ io 0x24 [(4, [2])] with shadow := true }))
    fun x => { x with colls := [{ flat with pass := some { stamp := 5 } }], mem := { extents := [{ lo := 0, hi := 16777216 }] } }, 0, 2,
    { flat with pass := some { stamp := 5 } }, { stamp := 5 }, { io 0x24 [(4, [2])] with shadow := true },
    by unfold sound shaped memOk secOk named; decide⟩,
   ⟨up, 0, by decide⟩,
   ⟨p0 up fun x => { x with colls := [{ flat with eligible := [3] }], mem := { extents := [{ lo := 0, hi := 16777216 }] } }, 0,
    { flat with eligible := [3] }, 3, by unfold sound shaped memOk secOk named; decide⟩,
   ⟨p0 up fun x => { x with colls := [table], mem := { extents := [{ lo := 0, hi := 16777216 }] } }, 0,
    by unfold sound shaped memOk secOk named; decide⟩,
   ⟨p0 up fun x => { x with modeWord := 16 }, 0, by decide⟩⟩

theorem witness_MeshTablesStepAndHandOff :
    (∃ (s : State) (p : PartNo) (h : Nat) (step : Nat) (k : Coll), tableAt s p h k ∧ clean s ∧ s.commitWaits = false ∧ k.tm.handoffs = []
      ∧ ((∀ x ∈ k.tm.steps, x.step = step → x.begun = false ∧ x.ends = [] ∧ (x.sums.flatMap (·.2.2)).length ≤ s.stepRows p k))) ∧
    (∃ (s : State) (p : PartNo) (h : Nat) (step : Nat) (n : Nat) (k : Coll), tableAt s p h k ∧ 2 ≤ n ∧ (∀ x ∈ k.tm.steps, x.step ≠ step))
      ∧
    (∃ (s : State) (cid : Nat) (member : Nat) (c : Cmd) (m : MeshWait), sound s ∧ s.cmd? cid = some c ∧ c.isAdmin = false ∧ c.op = 0x51 ∧
      c.origin = none ∧ c.phase ≠ .done ∧ c.mesh = some m ∧ m.endSent = true ∧ m.waiting = [member] ∧ m.abandoned = []) ∧
    (∃ (s : State) (p : PartNo) (h : Nat) (step : Nat) (k : Coll) (x : MeshStep), ((∀ c ∈ s.cmds, c.op = 0x51 → ∀ m, c.run ≠ .mutation m))
      ∧ tableAt s p h k ∧ served s ∧ k.tm.steps.find? (fun y => y.step == step) = some x ∧ x.begun = false ∧ k.stepComplete x = false ∧
      x.firstAt + 1000 * (s.part p).feat 0x53 ≤ s.now) ∧
    (∃ (s : State) (p : PartNo) (h : Nat) (step : Nat) (k : Coll) (x : MeshStep), tableAt s p h k ∧ k.tm.steps.find? (fun y => y.step ==
      step) = some x ∧ x.begun = false ∧ k.stepComplete x = false ∧ s.now < x.firstAt + 1000 * (s.part p).feat 0x53) ∧
    (∃ (s : State) (p : PartNo) (h : Nat) (b : Nat) (m : Nat) (f : Nat) (k : Coll) (w : Nat × Nat) (l : List Nat), tableAt s p h k ∧
      (s.modeOf p).getLsbD mMigrate = false ∧ k.tm.handoffs = [] ∧ k.tm.windows = [w] ∧ 0 < (s.part p).feat 0x55 ∧ k.tm.recentMoves = [] ∧
      k.tm.blockLoads = [(b, l)] ∧ k.tm.memberFree = [(m, f)] ∧ f ≠ 0 ∧ m ≠ k.memberIndex ∧ k.owner b = k.memberIndex ∧ k.tm.dir.length <
      262144 ∧ s.unreachable (k.deviceOf m) = false ∧ w.2 * (100 + (s.part p).feat 0x54) < w.1 * k.members.length * 100 ∧ k.tm.load16 b *
      k.members.length ≤ 16 * (w.1 * k.members.length - w.2) ∧ (16 * getKey k.tm.memberLoads m 0 + k.tm.load16 b) * k.members.length ≤ 16
      * w.2) ∧
    (∃ (s : State) (p : PartNo) (h : Nat) (k : Coll), tableAt s p h k ∧ (s.modeOf p).getLsbD mMigrate = true) ∧
    (∃ (s : State) (p : PartNo) (h : Nat) (b : Nat) (k : Coll) (g : Handoff), tableAt s p h k ∧ k.outHandoff b = some g ∧ g.sent = true ∧
      g.state = .moving) ∧
    (∃ (s : State) (p : PartNo) (h : Nat) (k : Coll), tableAt s p h k) ∧
    (∃ (s : State) (p : PartNo) (h : Nat) (b : Nat) (k : Coll) (g : Handoff), tableAt s p h k ∧ k.inHandoff b = some g ∧ g.state =
      .forwarding ∧ k.tm.steps = []) ∧
    (∃ (s : State) (p : PartNo) (h : Nat) (k : Coll), tableAt s p h k ∧ k.tm.windowEnd ≤ s.now) :=
  ⟨⟨p0 up fun x => { x with colls := [table2], mem := { extents := [{ lo := 0, hi := 16777216 }] } }, 0, 2, 5, table2,
    by unfold tableAt sound shaped memOk secOk named; decide⟩,
   ⟨p0 up fun x => { x with colls := [table2], mem := { extents := [{ lo := 0, hi := 16777216 }] } }, 0, 2, 5, 2, table2,
    by unfold tableAt sound shaped memOk secOk named; decide⟩,
   ⟨one up
    ({ id := 7, fn := .vf 0, qid := 1, packet := pk [(0, [0x51])], phase := .running, mesh := some { waiting := [1], endSent := true } }),
    7, 1,
    { id := 7, fn := .vf 0, qid := 1, packet := pk [(0, [0x51])], phase := .running, mesh := some { waiting := [1], endSent := true } },
    { waiting := [1], endSent := true }, by unfold sound shaped memOk secOk named; decide⟩,
   ⟨p0 up
    fun x => { x with colls := [{ table2 with tm := { steps := [{ step := 5, firstAt := 0 }] } }], mem := { extents := [{ lo := 0, hi := 16777216 }] } },
    0, 2, 5, { table2 with tm := { steps := [{ step := 5, firstAt := 0 }] } }, { step := 5, firstAt := 0 }, fun _ h => absurd (h : _ ∈ ([]
    : List Cmd)) List.not_mem_nil, by unfold tableAt sound shaped memOk secOk named; decide⟩,
   ⟨p0 up
    fun x => { x with colls := [{ table2 with tm := { steps := [{ step := 5, firstAt := 40000000000 }] } }], mem := { extents := [{ lo := 0, hi := 16777216 }] } },
    0, 2, 5, { table2 with tm := { steps := [{ step := 5, firstAt := 40000000000 }] } }, { step := 5, firstAt := 40000000000 },
    by unfold tableAt sound shaped memOk secOk named; decide⟩,
   ⟨{ (p0 up fun x => { x with colls := [{ table2 with tm := { dir := [(0, 0, 1)], windows := [(100, 100)], blockLoads := [(0, [1])], memberFree := [(1, 5)] } }], mem := { extents := [{ lo := 0, hi := 16777216 }] } }) with mesh := { enable := true, ports := { enable := true, state := .up, peerId := some 9 } :: List.replicate 7 {}, routes := [(9, 0x80000000)] } },
    0, 2, 0, 1, 5,
    { table2 with tm := { dir := [(0, 0, 1)], windows := [(100, 100)], blockLoads := [(0, [1])], memberFree := [(1, 5)] } }, (100, 100),
    [1], by unfold tableAt sound shaped memOk secOk named; decide⟩,
   ⟨p0 up fun x => { x with colls := [table2], mem := { extents := [{ lo := 0, hi := 16777216 }] }, modeWord := 32 }, 0, 2, table2,
    by unfold tableAt sound shaped memOk secOk named; decide⟩,
   ⟨p0 up
    fun x => { x with colls := [{ table2 with tm := { handoffs := [{ block := 0, peer := 1, out := true, sent := true }] } }], mem := { extents := [{ lo := 0, hi := 16777216 }] } },
    0, 2, 0, { table2 with tm := { handoffs := [{ block := 0, peer := 1, out := true, sent := true }] } },
    { block := 0, peer := 1, out := true, sent := true }, by unfold tableAt sound shaped memOk secOk named; decide⟩,
   ⟨p0 up fun x => { x with colls := [table2], mem := { extents := [{ lo := 0, hi := 16777216 }] } }, 0, 2, table2,
    by unfold tableAt sound shaped memOk secOk named; decide⟩,
   ⟨p0 up
    fun x => { x with colls := [{ table2 with tm := { handoffs := [{ block := 0, peer := 1, out := false, state := .forwarding }] } }], mem := { extents := [{ lo := 0, hi := 16777216 }] } },
    0, 2, 0, { table2 with tm := { handoffs := [{ block := 0, peer := 1, out := false, state := .forwarding }] } },
    { block := 0, peer := 1, out := false, state := .forwarding }, by unfold tableAt sound shaped memOk secOk named; decide⟩,
   ⟨p0 up fun x => { x with colls := [table2], mem := { extents := [{ lo := 0, hi := 16777216 }] } }, 0, 2, table2,
    by unfold tableAt sound shaped memOk secOk named; decide⟩⟩

theorem witness_PartitionsAreRegulatedAndCounted :
    (∃ (s : State) (p : PartNo) (g : Nat) (v : Word32) (r : RegGroup), sound s ∧ s.barLive = true ∧ (s.part p).present = true ∧ s.devHost
      mBwTherm = true ∧ g < 32 ∧ (s.part p).regs[g]? = some r ∧ bits v.toNat 16 12 ≠ 0 ∧ bits v.toNat 0 12 + sumBy (fun x : PartSt =>
      (x.regs.getD g {}).rate) (s.othersOf p) ≤ 4096) ∧
    (∃ (s : State) (p : PartNo) (g : Nat) (v : Word32), s.barLive = true ∧ (s.part p).present = true ∧ s.devHost mBwTherm = true ∧ g < 32
      ∧ 4096 < bits v.toNat 0 12 + sumBy (fun x : PartSt => (x.regs.getD g {}).rate) (s.othersOf p)) ∧
    (∃ (s : State), s.devHost mBwTherm = false) ∧
    (∃ (s : State) (p : PartNo), sound s ∧ (s.part p).present = true ∧ s.devHost mBwTherm = false) ∧
    (∃ (s : State), sound s ∧ s.barLive = true) ∧
    (∃ (s : State) (p : PartNo), sound s ∧ (s.part p).present = true ∧ (s.part p).windows = [] ∧ 10000000 ≤ s.now) :=
  ⟨⟨{ up with devMode := 0x80 }, 0, 3, 0x00050064, {}, by unfold sound shaped memOk secOk named; decide⟩,
   ⟨(p0 ({ up with devMode := 0x80 }) fun x => { x with regs := x.regs.set 3 { rate := 0 } }).modPart 1
    fun x => { x with present := true, regs := List.replicate 32 { rate := 4000 } }, 0, 3, 0x00010FFF, by decide⟩,
   ⟨up, by decide⟩,
   ⟨up, 0, by unfold sound shaped memOk secOk named; decide⟩,
   ⟨up, by unfold sound shaped memOk secOk named; decide⟩,
   ⟨up, 0, by unfold sound shaped memOk secOk named; decide⟩⟩

theorem witness_MemoryErrorsPoisonAndFence :
    (∃ (s : State) (c : Nat) (line : Nat), sound s ∧ s.hbm.initDone = true ∧ line < 2 ^ 23 ∧ c < 256 ∧ (s.chan c).state = .active) ∧
    (∃ (s : State) (n : Nat) (p : PartNo), sound s ∧ n < 16 ∧ (s.clusterAt n).state = .active ∧ s.owner n = some p ∧ (s.clusterAt
      n).sliceUncorrAt.length < 63) ∧
    (∃ (s : State) (c : Nat), s.hbm.scrubActive = true ∧ s.hbm.selfRefresh = false ∧ s.scrubs c = true ∧ sound s) ∧
    (∃ (s : State) (c : Nat), sound s ∧ c < 256 ∧ (s.chan c).state = .active ∧ (∃ a ∈ (s.chan c).parityAt, s.time.clk < a + 2500000)) :=
  ⟨⟨up, 255, 8388607, by unfold sound shaped memOk secOk named; decide⟩,
   ⟨up, 0, 0, by unfold sound shaped memOk secOk named; decide⟩,
   ⟨{ up with hbm := { initDone := true, scrubActive := true } }, 0, by unfold sound shaped memOk secOk named; decide⟩,
   ⟨{ up with hbm := { initDone := true, channels := List.replicate 256 { parityAt := [999999000] } } }, 255,
    by unfold sound shaped memOk secOk named; decide⟩⟩

theorem witness_StacksMapOutsAndGeneratorsRun :
    (∃ (s : State) (temps : List Nat) (n : Nat) (x : Nat), sound s ∧ n < 8 ∧ temps[n]? = some x) ∧
    (∃ (s : State) (n : Nat) (a : Nat), sound s ∧ n < 8 ∧ 0 < (s.hbm.stackSt.getD n {}).level ∧ (s.hbm.stackSt.getD n {}).belowSince =
      some a ∧ a + 250000 ≤ s.time.clk) ∧
    (∃ (s : State) (v : Word32), sound s ∧ s.barLive = true ∧ bits v.toNat 24 8 = 0xA5 ∧ v.getLsbD 9 = true ∧ v.getLsbD 16 = false ∧
      v.getLsbD 8 = false ∧ (s.chan (bits v.toNat 0 8)).state = .fenced) ∧
    (∃ (s : State) (v : Word32), sound s ∧ s.barLive = true ∧ bits v.toNat 24 8 = 0xA5 ∧ v.getLsbD 9 = true ∧ v.getLsbD 16 = false ∧
      v.getLsbD 8 = false ∧ (s.chan (bits v.toNat 0 8)).state ≠ .fenced) ∧
    (∃ (s : State) (v : Word32), sound s ∧ s.barLive = true ∧ bits v.toNat 24 8 = 0xA5 ∧ v.getLsbD 9 = true ∧ v.getLsbD 16 = false ∧
      v.getLsbD 8 = true ∧ s.devHost mMapout = true ∧ (s.chan (bits v.toNat 0 8)).state = .mapoutPending) ∧
    (∃ (s : State) (v : Word32), sound s ∧ s.barLive = true ∧ bits v.toNat 24 8 = 0xA5 ∧ v.getLsbD 9 = true ∧ v.getLsbD 16 = false ∧
      v.getLsbD 8 = true ∧ s.devHost mMapout = false) ∧
    (∃ (s : State) (v : Word32), s.barLive = true ∧ bits v.toNat 24 8 = 0xA5 ∧ v.getLsbD 9 = false ∧ v.getLsbD 16 = true ∧
      s.hif.dpRestarting = false ∧ s.hif.fatal = false) ∧
    (∃ (v : Word32), bits v.toNat 24 8 ≠ 0xA5) ∧
    (∃ (s : State) (c : Nat) (v : Word32), sound s ∧ s.barLive = true ∧ c < 256 ∧ v.getLsbD 0 = true) ∧
    (∃ (s : State) (c : Nat) (v : Word32), sound s ∧ s.barLive = true ∧ c < 256 ∧ v.getLsbD 0 = false ∧ v.getLsbD 1 = true ∧ (s.chan
      c).tg.state = 1) ∧
    (∃ (s : State) (c : Nat), sound s ∧ c < 256 ∧ (s.chan c).tg.state = 1) :=
  ⟨⟨up, [99], 0, 99, by unfold sound shaped memOk secOk named; decide⟩,
   ⟨{ up with hbm := { initDone := true, stackSt := List.replicate 8 { level := 1, belowSince := some 0 } } }, 7, 0,
    by unfold sound shaped memOk secOk named; decide⟩,
   ⟨{ up with hbm := { initDone := true, channels := List.replicate 256 { state := .fenced } } }, 0xA5000205,
    by unfold sound shaped memOk secOk named; decide⟩,
   ⟨up, 0xA5000205, by unfold sound shaped memOk secOk named; decide⟩,
   ⟨{ { up with hbm := { initDone := true, channels := List.replicate 256 { state := .mapoutPending } } } with devMode := 0x400 },
    0xA5000305, by unfold sound shaped memOk secOk named; decide⟩,
   ⟨up, 0xA5000305, by unfold sound shaped memOk secOk named; decide⟩,
   ⟨up, 0xA5010000, by decide⟩,
   ⟨0x00010000, by decide⟩,
   ⟨up, 255, 1, by unfold sound shaped memOk secOk named; decide⟩,
   ⟨{ up with hbm := { initDone := true, channels := List.replicate 256 { tg := { state := 1 } } } }, 255, 2,
    by unfold sound shaped memOk secOk named; decide⟩,
   ⟨{ up with hbm := { initDone := true, channels := List.replicate 256 { tg := { state := 1 } } } }, 255,
    by unfold sound shaped memOk secOk named; decide⟩⟩

theorem witness_DataPathRestarts :
    (∃ (s : State) (v : Word32), sound s ∧ bits v.toNat 8 8 = 0x5A ∧ v.getLsbD 0 = true ∧ s.hif.dpRestarting = false ∧ s.barLive = true ∧
      s.hif.fatal = false ∧ (∀ c ∈ s.cmds, c.phase ≠ .committing)) ∧
    (∃ (s : State) (v : Word32), (bits v.toNat 8 8 ≠ 0x5A ∨ v.getLsbD 0 = false ∨ s.hif.dpRestarting = true)) ∧
    (∃ (s : State), sound s ∧ s.starting = true ∧ s.pkg.pg.all id = true ∧ s.cmds = [] ∧ s.ctxs = []) :=
  ⟨⟨up, 0x5A01, by unfold sound shaped memOk secOk named; decide⟩,
   ⟨up, 0, by decide⟩,
   ⟨{ up with hif := { restartCause := some .request, dpRestarting := true } }, by unfold sound shaped memOk secOk named; decide⟩⟩

theorem witness_RegistersConfigurationAndEvents :
    (∃ (s : State) (t : Bool), s.bar0Accepts .pf t = true) ∧
    (∃ (s : State) (t : Bool), s.bar0Accepts .pf t = true) ∧
    (∃ (s : State) (fn : Fn) (off : Nat) (size : Nat) (t : Bool), s.bar0Accepts fn t = true ∧ off < bar0Size fn ∧ size ≠ 4 ∧ size ≠ 8) ∧
    (∃ (fn : Fn) (off : Nat), bar0Size fn ≤ off) ∧
    (∃ (s : State) (fn : Fn) (i : Nat), sound s ∧ i < vectorsOf fn) ∧
    (∃ (s : State), sound s ∧ (s.fnAt .pf).vfEnable = false ∧ s.barLive = true) ∧
    (∃ (s : State) (n : Nat), sound s ∧ (s.fnAt .pf).vfEnable = false ∧ n ≠ 16) ∧
    (∃ (s : State) (off : Nat), sound s ∧ s.pkg.perst = false ∧ s.fw.stage ≠ .bootRom ∧ off % 4 = 0 ∧ off < 4096) ∧
    (∃ (s : State) (off : Nat), s.pkg.perst = false ∧ s.fw.stage = .bootRom ∧ off % 4 = 0 ∧ off < 4096) ∧
    (∃ (s : State), sound s) ∧
    (∃ (s : State) (p : PartNo), sound s ∧ s.barOpen (.vf p) = true) ∧
    (∃ (s : State) (fn : Fn) (v : Nat), sound s ∧ v < vectorsOf fn ∧ (s.fnAt fn).msixFnMask = false ∧ (s.fnAt fn).msixPending = [v]) ∧
    (∃ (s : State), sound s ∧ (s.fnAt .pf).msixFnMask = true) :=
  ⟨⟨up, false, by decide⟩,
   ⟨up, false, by decide⟩,
   ⟨up, .pf, 0, 1, false, by decide⟩,
   ⟨.pf, 0x10000000, by decide⟩,
   ⟨up, .pf, 2047, by unfold sound shaped memOk secOk named; decide⟩,
   ⟨up, by unfold sound shaped memOk secOk named; decide⟩,
   ⟨up, 3, by unfold sound shaped memOk secOk named; decide⟩,
   ⟨up, 0x3FC, by unfold sound shaped memOk secOk named; decide⟩,
   ⟨{ up with fw := { stage := .bootRom } }, 0x3FC, by decide⟩,
   ⟨up, by unfold sound shaped memOk secOk named; decide⟩,
   ⟨up, 0, by unfold sound shaped memOk secOk named; decide⟩,
   ⟨fnOf up .pf fun x => { x with msixPending := [3] }, .pf, 3, by unfold sound shaped memOk secOk named; decide⟩,
   ⟨fnOf up .pf fun x => { x with msixFnMask := true, msixPending := [2], msixOpen := [2] },
    by unfold sound shaped memOk secOk named; decide⟩⟩

theorem witness_WindowsReachPartitionMemory :
    (∃ (s : State) (fn : Fn) (addr : Nat) (n : Nat) (b : Bool) (w : Place), s.bar2Place fn addr n b = some w ∧ w.scratch = false ∧ clean
      s) ∧
    (∃ (s : State) (fn : Fn) (addr : Nat) (n : Nat) (b : Bool) (w : Place), s.bar2Place fn addr n b = some w ∧ w.scratch = true ∧ (s.part
      w.part).sPoison w.off n = none) ∧
    (∃ (s : State) (fn : Fn) (addr : Nat) (n : Nat) (b : Bool) (w : Place), s.bar2Place fn addr n b = some w ∧ w.scratch = true ∧ (s.part
      w.part).sPoison w.off n ≠ none) ∧
    (∃ (s : State) (fn : Fn) (addr : Nat) (bs : Bytes) (b : Bool), s.bar2Place fn addr bs.length b = none) ∧
    (∃ (s : State) (fn : Fn) (addr : Nat) (bs : Bytes) (b : Bool) (w : Place), sound s ∧ s.bar2Place fn addr bs.length b = some w ∧
      w.scratch = false ∧ clean s) ∧
    (∃ (s : State) (fn : Fn) (addr : Nat) (bs : Bytes) (b : Bool) (w : Place), sound s ∧ s.bar2Place fn addr bs.length b = some w ∧
      w.scratch = true ∧ (s.part w.part).sPoison w.off bs.length = none) ∧
    (∃ (s : State) (p : PartNo), s.tdiLocked p = true) :=
  ⟨⟨fnOf (p0 up fun x => { x with mem := { extents := [{ lo := 0, hi := 4096 }] } }) (.vf 0) fun x => { x with bar2Ctrl := 0x80 }, .vf 0,
    0, 4, false, { part := 0, scratch := false, off := 0 }, by decide⟩,
   ⟨fnOf (up) (.vf 0) fun x => { x with bar2Ctrl := 0x180 }, .vf 0, 0, 4, false, { part := 0, scratch := true, off := 0 }, by decide⟩,
   ⟨fnOf (p0 up fun x => { x with scratchPoison := [0] }) (.vf 0) fun x => { x with bar2Ctrl := 0x180 }, .vf 0, 0, 4, false,
    { part := 0, scratch := true, off := 0 }, by decide⟩,
   ⟨up, .pf, 0xFFFFFFFFFF, [1], false, by decide⟩,
   ⟨fnOf (up) (.vf 0) fun x => { x with bar2Ctrl := 0x80 }, .vf 0, 0, [1, 2, 3, 4], false, { part := 0, scratch := false, off := 0 },
    by unfold sound shaped memOk secOk named; decide⟩,
   ⟨fnOf (up) (.vf 0) fun x => { x with bar2Ctrl := 0x180 }, .vf 0, 0, [1, 2, 3, 4], false, { part := 0, scratch := true, off := 0 },
    by unfold sound shaped memOk secOk named; decide⟩,
   ⟨fnOf up (.vf 0) fun x => { x with tdi := .run }, 0, by decide⟩⟩

theorem witness_PerstResetsAllButTheFuses :
    (∃ (s : State), s.powered = true ∧ ((s.fw.stage = .bootRom → s.fw.pciePhyPassed = true))) ∧
    (∃ (s : State), s.powered = true ∧ s.fw.stage = .bootRom ∧ s.fw.pciePhyPassed = false) ∧
    (∃ (s : State), s.powered = true ∧ s.fw.stage = .bootRom ∧ s.fw.pciePhyPassed = false ∧ s.pkg.perst = true) ∧
    (∃ (s : State), s.pkg.perst = true ∧ s.powered = true ∧ ((s.fw.stage = .bootRom → s.fw.pciePhyPassed = true))) :=
  ⟨⟨up, by decide⟩,
   ⟨{ up with fw := { stage := .bootRom, pciePhyPassed := false }, pkg := { up.pkg with perst := false } }, by decide⟩,
   ⟨{ up with fw := { stage := .bootRom, pciePhyPassed := false }, pkg := { up.pkg with perst := true } }, by decide⟩,
   ⟨{ up with fw := { stage := .running, pciePhyPassed := true }, pkg := { up.pkg with perst := true } }, by decide⟩⟩

theorem witness_ResetsClearTheirFunctions :
    (∃ (s : State), sound s ∧ s.hif.linkUp = true) ∧
    (∃ (s : State), sound s ∧ s.hif.linkUp = true) ∧
    (∃ (s : State), sound s) ∧
    (∃ (s : State), sound s ∧ s.cmds = [] ∧ s.tests = []) ∧
    (∃ (s : State), sound s ∧ (s.fnAt .pf).d3hot = false ∧ (∀ c ∈ s.cmds, c.phase ≠ .committing)) ∧
    (∃ (s : State), sound s ∧ (s.fnAt .pf).d3hot = true) ∧
    (∃ (s : State) (w : Nat) (v : Nat) (f : Bool), s.hif.linkTraining = true ∧ s.pkg.perst = false ∧ s.pgOf 2 = true ∧ ((s.fw.stage =
      .recovery → v ≤ 4)) ∧ linkLegal w v f = false) ∧
    (∃ (s : State) (w : Nat) (v : Nat) (f : Bool), s.hif.linkTraining = true ∧ s.pkg.perst = false ∧ s.pgOf 2 = true ∧ ((s.fw.stage =
      .recovery → v ≤ 4)) ∧ linkLegal w v f = true) :=
  ⟨⟨up, by unfold sound shaped memOk secOk named; decide⟩,
   ⟨up, by unfold sound shaped memOk secOk named; decide⟩,
   ⟨up, by unfold sound shaped memOk secOk named; decide⟩,
   ⟨up, by unfold sound shaped memOk secOk named; decide⟩,
   ⟨up, by unfold sound shaped memOk secOk named; decide⟩,
   ⟨fnOf up .pf fun x => { x with d3hot := true }, by unfold sound shaped memOk secOk named; decide⟩,
   ⟨{ up with hif := { linkTraining := true } }, 7, 5, true, by decide⟩,
   ⟨{ up with hif := { linkTraining := true } }, 4, 5, true, by decide⟩⟩

theorem witness_FailedCoresAreSpared :
    (∃ (s : State) (n : Nat) (event : Nat) (o : Host.Outcome State Fault Refusal), ((event = 1 ∧ o = exec (.csqHeartbeatLost n) s) ∨
      (event = 2 ∧ o = exec (.illegalWorkEntry n) s)) ∧ sound s ∧ n < 144 ∧ (s.coreAt n).state = .active ∧ (∀ x ∈ s.ctxs, (s.cmd?
      x.cid).isSome) ∧ (s.clusterAt (n / 9)).sparing = none ∧ (s.clusterAt (n / 9)).standIn = none ∧ s.devHost mSpare = false ∧ (s.spareOf
      (n / 9)).isSome = true) ∧
    (∃ (s : State) (n : Nat), sound s ∧ n < 144 ∧ (s.coreAt n).state ≠ .active ∧ (s.coreAt n).state ≠ .standIn ∧ (s.coreAt n).state ≠
      .underTest) ∧
    (∃ (s : State) (cl : Nat) (seq : Nat) (core : Nat) (sp : Nat), sound s ∧ cl < 16 ∧ (s.clusterAt cl).sparing = some (seq, core) ∧
      s.spareOf cl = some sp) ∧
    (∃ (s : State) (cl : Nat) (seq : Nat) (core : Nat) (sp : Nat), sound s ∧ cl < 16 ∧ (s.clusterAt cl).sparing = some (seq, core) ∧
      s.spareOf cl = some sp ∧ (s.coresOf cl).isEmpty = false) ∧
    (∃ (s : State) (v : Word32), sound s ∧ s.barLive = true ∧ spareKey v = true ∧ bits v.toNat 8 2 = 1 ∧ s.mayActivate (bits v.toNat 0 8)
      = true) ∧
    (∃ (s : State) (v : Word32), sound s ∧ s.barLive = true ∧ spareKey v = true ∧ bits v.toNat 8 2 = 1 ∧ s.mayActivate (bits v.toNat 0 8)
      = false) ∧
    (∃ (s : State) (v : Word32), sound s ∧ s.barLive = true ∧ spareKey v = true ∧ bits v.toNat 8 2 = 2 ∧ s.mayRetire (bits v.toNat 0 8) =
      true) ∧
    (∃ (s : State) (v : Word32), sound s ∧ s.barLive = true ∧ spareKey v = true ∧ bits v.toNat 8 2 = 2 ∧ s.mayRetire (bits v.toNat 0 8) =
      false) ∧
    (∃ (s : State) (n : Nat) (cid : Nat) (c : Cmd), sound s ∧ n < 144 ∧ (s.coreAt n).state = .active ∧ (s.coreAt n).faultsAt = [] ∧ s.cmd?
      cid = some c ∧ c.isAdmin = false ∧ c.phase = .running ∧ c.shadow = false ∧ c.mesh = none ∧ (∃ x ∈ s.ctxs, x.core = n ∧ x.cid = cid ∧
      x.state ≠ .committing)) ∧
    (∃ (s : State) (n : Nat), sound s ∧ n < 144 ∧ (s.coreAt n).state = .active ∧ 2 ≤ ((s.coreAt n).faultsAt.filter fun t => s.time.clk < t
      + 25000).length) :=
  ⟨⟨up, 142, 1, exec (.csqHeartbeatLost 142) up, Or.inl ⟨rfl, rfl⟩, by unfold sound shaped memOk secOk named; decide⟩,
   ⟨up, 143, by unfold sound shaped memOk secOk named; decide⟩,
   ⟨{ up with ras := { cores := resetCores.set 3 { state := .failed }, clusters := { sparing := some (1, 3) } :: List.replicate 15 {} } },
    0, 1, 3, 8, by unfold sound shaped memOk secOk named; decide⟩,
   ⟨{ up with ras := { cores := resetCores.set 3 { state := .failed }, clusters := { sparing := some (1, 3) } :: List.replicate 15 {} } },
    0, 1, 3, 8, by unfold sound shaped memOk secOk named; decide⟩,
   ⟨{ { up with ras := { cores := resetCores.set 3 { state := .failed }, clusters := {  } :: List.replicate 15 {} } } with devMode := 0x200 },
    0x69000100, by unfold sound shaped memOk secOk named; decide⟩,
   ⟨up, 0x69000100, by unfold sound shaped memOk secOk named; decide⟩,
   ⟨up, 0x69000203, by unfold sound shaped memOk secOk named; decide⟩,
   ⟨up, 0x69000208, by unfold sound shaped memOk secOk named; decide⟩,
   ⟨{ one up (io 0x32) with ctxs := [⟨3, 0, 7, .running⟩] }, 3, 7, io 0x32, by unfold sound shaped memOk secOk named; decide⟩,
   ⟨{ up with ras := { cores := resetCores.set 3 { state := .active, faultsAt := [999999990, 999999991] } } }, 3,
    by unfold sound shaped memOk secOk named; decide⟩⟩

theorem witness_FailedClustersAndSageEscalate :
    (∃ (s : State) (cl : Nat) (o : Host.Outcome State Fault Refusal), ((o = exec (.csvHeartbeatLost cl) s ∨ (o = exec (.csvError cl) s ∧
      (s.clusterAt cl).sparing.isSome) ∨ (o = exec (.uncorrectableFlit cl none) s ∧ 15 ≤ ((s.clusterAt cl).flitErrorsAt.filter fun t =>
      s.time.clk < t + 25000000).length))) ∧ sound s ∧ cl < 16 ∧ (s.clusterAt cl).state = .active ∧ (s.clusterAt cl).bypassAt = none) ∧
    (∃ (s : State) (cl : Nat) (cid : Nat) (c : Cmd), sound s ∧ cl < 16 ∧ (s.clusterAt cl).state = .active ∧ (s.clusterAt cl).flitErrorsAt
      = [] ∧ s.cmd? cid = some c ∧ c.isAdmin = false ∧ c.phase = .running ∧ c.shadow = false ∧ c.mesh = none) ∧
    (∃ (s : State) (v : Word32), sound s ∧ s.barLive = true ∧ bits v.toNat 24 8 = 0x96 ∧ v.getLsbD 8 = true ∧ (s.clusterAt (bits v.toNat 0
      4)).state = .bypassed ∧ (s.clusterAt (bits v.toNat 0 4)).bypassAt = none) ∧
    (∃ (s : State) (cl : Nat) (b : Nat), (s.clusterAt cl).bypassAt = some b ∧ s.hif.fatal = false ∧ s.hif.dpRestarting = false ∧ b +
      250000 ≤ s.time.clk) ∧
    (∃ (s : State) (cl : Nat) (b : Nat), (s.clusterAt cl).bypassAt = some b ∧ s.hif.fatal = false ∧ s.hif.dpRestarting = false ∧
      s.time.clk < b + 250000) ∧
    (∃ (s : State), s.fw.stage = .running ∧ s.hif.dpRestarting = false ∧ s.hif.fatal = false ∧ s.pkg.perst = false ∧ s.pkg.perstSeen =
      false ∧ s.pkg.perstPending = false) ∧
    (∃ (s : State), s.fw.stage = .running ∧ s.hif.dpRestarting = false ∧ s.hif.fatal = false) ∧
    (∃ (s : State), s.fw.stage = .running ∧ s.hif.dpRestarting = true ∧ s.hif.fatal = false) :=
  ⟨⟨up, 15, exec (.csvHeartbeatLost 15) up, Or.inl rfl, by unfold sound shaped memOk secOk named; decide⟩,
   ⟨one up (io 0x32), 0, 7, io 0x32, by unfold sound shaped memOk secOk named; decide⟩,
   ⟨{ up with ras := { cores := resetCores, clusters := { state := .bypassed } :: List.replicate 15 {} } }, 0x96000100,
    by unfold sound shaped memOk secOk named; decide⟩,
   ⟨{ up with ras := { cores := resetCores, clusters := { bypassAt := some 0 } :: List.replicate 15 {} } }, 0, 0, by decide⟩,
   ⟨{ up with ras := { cores := resetCores, clusters := { bypassAt := some 999999999 } :: List.replicate 15 {} } }, 0, 999999999,
    by decide⟩,
   ⟨up, by decide⟩,
   ⟨up, by decide⟩,
   ⟨{ up with hif := { dpRestarting := true } }, by decide⟩⟩

theorem witness_FaultsTakeTheCommandsTheyHit :
    (∃ (s : State) (core : Nat) (slot : Nat) (cid : Nat) (c : Cmd) (x : Ctx), (s.ctxs.filter fun x => x.core == core) = [x] ∧ x.slot =
      slot ∧ x.cid = cid ∧ s.cmd? cid = some c ∧ c.isAdmin = false ∧ c.phase = .running ∧ c.shadow = false ∧ c.mesh = none) ∧
    (∃ (s : State) (core : Nat) (slot : Nat) (cid : Nat) (c : Cmd) (x : Ctx), (s.ctxs.filter fun x => x.core == core) = [x] ∧ x.slot =
      slot ∧ x.cid = cid ∧ s.cmd? cid = some c ∧ c.isAdmin = false ∧ c.phase = .running ∧ c.shadow = false ∧ c.mesh = none) ∧
    (∃ (s : State) (core : Nat) (slot : Nat) (cid : Nat) (c : Cmd) (x : Ctx), (s.ctxs.filter fun x => x.core == core) = [x] ∧ x.slot =
      slot ∧ x.cid = cid ∧ s.cmd? cid = some c ∧ c.isAdmin = false ∧ c.phase = .running ∧ c.shadow = false ∧ c.mesh = none) ∧
    (∃ (s : State) (cid : Nat) (c : Cmd), s.cmd? cid = some c ∧ c.origin = none ∧ c.shadow = false ∧ statusClass c.status < 2 ∧ c.isAdmin
      = false ∧ c.phase = .running ∧ c.mesh = none) ∧
    (∃ (s : State) (cid : Nat) (c : Cmd), s.cmd? cid = some c ∧ c.origin = none ∧ c.shadow = false ∧ statusClass c.status < 2 ∧ c.isAdmin
      = true ∧ c.phase = .ready) ∧
    (∃ (s : State) (cid : Nat) (c : Cmd), s.cmd? cid = some c ∧ c.origin = none ∧ c.shadow = false ∧ statusClass c.status < 2 ∧ c.phase =
      .done ∧ c.lateCommit = true) ∧
    (∃ (s : State) (cid : Nat) (c : Cmd), s.cmd? cid = some c ∧ c.origin = none ∧ c.shadow = false ∧ statusClass c.status < 2 ∧ c.phase =
      .committing ∧ c.isAdmin = false) ∧
    (∃ (s : State) (cl : Nat) (core : Nat) (since : Nat), (s.clusterAt cl).standIn = some (core, since) ∧ (s.clusterAt cl).standInPhase =
      0 ∧ s.time.clk < since + 25000) ∧
    (∃ (s : State) (cl : Nat) (core : Nat) (since : Nat), (s.clusterAt cl).standIn = some (core, since) ∧ (s.clusterAt cl).standInPhase =
      0 ∧ since + 25000 ≤ s.time.clk ∧ (∀ x ∈ s.ctxs, (s.cmd? x.cid).isSome)) :=
  ⟨⟨{ one up (io 0x32) with ctxs := [⟨3, 0, 7, .running⟩] }, 3, 0, 7, io 0x32, ⟨3, 0, 7, .running⟩, by decide⟩,
   ⟨{ one up (io 0x32) with ctxs := [⟨3, 0, 7, .running⟩] }, 3, 0, 7, io 0x32, ⟨3, 0, 7, .running⟩, by decide⟩,
   ⟨{ one up (io 0x32) with ctxs := [⟨3, 0, 7, .running⟩] }, 3, 0, 7, io 0x32, ⟨3, 0, 7, .running⟩, by decide⟩,
   ⟨one up (io 0x32), 7, io 0x32, by decide⟩,
   ⟨one up (adm 1), 7, adm 1, by decide⟩,
   ⟨one up ({ io 0x32 with phase := .done }), 7, { io 0x32 with phase := .done }, by decide⟩,
   ⟨one up ({ io 0x40 with phase := .committing }), 7, { io 0x40 with phase := .committing }, by decide⟩,
   ⟨{ up with ras := { cores := resetCores, clusters := { standIn := some (3, 999999999) } :: List.replicate 15 {} } }, 0, 3, 999999999,
    by decide⟩,
   ⟨{ up with ras := { cores := resetCores, clusters := { standIn := some (3, 0) } :: List.replicate 15 {} } }, 0, 3, 0, by decide⟩⟩

theorem witness_PortsComeUpAndGoDown :
    (∃ (s : State), sound s ∧ s.barLive = true ∧ s.mesh.enable = false) ∧
    (∃ (s : State), sound s ∧ s.barLive = true ∧ s.mesh.enable = true) ∧
    (∃ (s : State) (n : Nat) (v : Word32), sound s ∧ s.barLive = true ∧ n < 8 ∧ v.getLsbD 8 = false ∧ v.getLsbD 0 = true ∧ s.mayTrain =
      true ∧ (s.portAt n).enable = false) ∧
    (∃ (s : State) (n : Nat) (v : Word32), sound s ∧ s.barLive = true ∧ n < 8 ∧ v.getLsbD 8 = false ∧ v.getLsbD 0 = false) ∧
    (∃ (s : State) (n : Nat) (v : Word32), sound s ∧ s.barLive = true ∧ n < 8 ∧ v.getLsbD 8 = true ∧ v.getLsbD 0 = true ∧ s.mayTrain =
      true ∧ (s.portAt n).enable = true ∧ (s.portAt n).state ≠ .test) ∧
    (∃ (s : State) (n : Nat) (v : Word32), sound s ∧ s.barLive = true ∧ n < 8 ∧ v.getLsbD 8 = true ∧ v.getLsbD 0 = true ∧ (s.portAt
      n).enable = true ∧ (s.portAt n).state = .test) ∧
    (∃ (s : State) (n : Nat), sound s ∧ (s.portAt n).state = .training ∧ s.mesh.enable = true) ∧
    (∃ (s : State) (n : Nat), sound s ∧ (s.portAt n).state = .keying) ∧
    (∃ (s : State) (n : Nat), sound s ∧ (s.portAt n).usable = true ∧ (s.portAt n).rekeyAt = none ∧ 2 ^ 48 ≤ (s.portAt n).frames) ∧
    (∃ (s : State) (n : Nat) (b : Nat), sound s ∧ (s.portAt n).rekeyAt = some b ∧ b * 40 + 50000000 ≤ s.phys) ∧
    (∃ (s : State) (n : Nat) (lanes : BitVec 4), sound s ∧ (s.portAt n).state = .up ∧ lanes &&& 3 ≠ 0 ∧ lanes &&& 12 = 0) ∧
    (∃ (s : State) (n : Nat) (lanes : BitVec 4), sound s ∧ (s.portAt n).state = .up ∧ lanes &&& 3 ≠ 0 ∧ lanes &&& 12 ≠ 0) ∧
    (∃ (s : State) (n : Nat), sound s ∧ (s.portAt n).state = .up) ∧
    (∃ (s : State) (n : Nat), sound s ∧ (s.portAt n).state = .up) ∧
    (∃ (s : State) (n : Nat), sound s ∧ (s.portAt n).usable = true ∧ (s.portAt n).lastRx + 2500 ≤ s.time.clk) ∧
    (∃ (s : State) (n : Nat), sound s ∧ (s.portAt n).state = .down ∧ (s.portAt n).enable = true ∧ s.mayTrain = true ∧ (s.portAt n).since *
      40 + 1000000000 ≤ s.phys) ∧
    (∃ (s : State) (n : Nat), sound s ∧ (s.portAt n).state = .down ∧ (s.portAt n).enable = true ∧ s.mayTrain = true ∧ s.phys < (s.portAt
      n).since * 40 + 1000000000) ∧
    (∃ (s : State) (n : Nat), sound s ∧ (s.portAt n).usable = true ∧ (s.portAt n).away = true ∧ (s.portAt n).since * 40 + 1000000000 ≤
      s.phys) ∧
    (∃ (s : State), sound s) :=
  ⟨⟨{ up with mesh := { ports := List.replicate 8 { enable := true,  } } }, by unfold sound shaped memOk secOk named; decide⟩,
   ⟨{ up with mesh := { enable := true, ports := List.replicate 8 { enable := true, state := .up } } },
    by unfold sound shaped memOk secOk named; decide⟩,
   ⟨{ up with mesh := { enable := true, ports := List.replicate 8 { state := .disabled } } }, 7, 1,
    by unfold sound shaped memOk secOk named; decide⟩,
   ⟨{ up with mesh := { enable := true, ports := List.replicate 8 { enable := true, state := .up } } }, 7, 0,
    by unfold sound shaped memOk secOk named; decide⟩,
   ⟨{ up with mesh := { enable := true, ports := List.replicate 8 { enable := true, state := .up } } }, 0, 0x101,
    by unfold sound shaped memOk secOk named; decide⟩,
   ⟨{ up with mesh := { enable := true, ports := List.replicate 8 { enable := true, state := .test } } }, 0, 0x101,
    by unfold sound shaped memOk secOk named; decide⟩,
   ⟨{ up with mesh := { enable := true, ports := List.replicate 8 { enable := true, state := .training } } }, 7,
    by unfold sound shaped memOk secOk named; decide⟩,
   ⟨{ up with mesh := { enable := true, ports := List.replicate 8 { enable := true, state := .keying } } }, 7,
    by unfold sound shaped memOk secOk named; decide⟩,
   ⟨{ up with mesh := { enable := true, ports := List.replicate 8 { enable := true, state := .up, frames := 2 ^ 48 } } }, 0,
    by unfold sound shaped memOk secOk named; decide⟩,
   ⟨{ up with mesh := { enable := true, ports := List.replicate 8 { enable := true, state := .up, rekeyAt := some 0 } } }, 0, 0,
    by unfold sound shaped memOk secOk named; decide⟩,
   ⟨{ up with mesh := { enable := true, ports := List.replicate 8 { enable := true, state := .up } } }, 0, 3,
    by unfold sound shaped memOk secOk named; decide⟩,
   ⟨{ up with mesh := { enable := true, ports := List.replicate 8 { enable := true, state := .up } } }, 0, 15,
    by unfold sound shaped memOk secOk named; decide⟩,
   ⟨{ up with mesh := { enable := true, ports := List.replicate 8 { enable := true, state := .up } } }, 0,
    by unfold sound shaped memOk secOk named; decide⟩,
   ⟨{ up with mesh := { enable := true, ports := List.replicate 8 { enable := true, state := .up } } }, 0,
    by unfold sound shaped memOk secOk named; decide⟩,
   ⟨{ up with mesh := { enable := true, ports := List.replicate 8 { enable := true, state := .up } } }, 0,
    by unfold sound shaped memOk secOk named; decide⟩,
   ⟨{ up with mesh := { enable := true, ports := List.replicate 8 { enable := true, state := .down } } }, 0,
    by unfold sound shaped memOk secOk named; decide⟩,
   ⟨{ up with mesh := { enable := true, ports := List.replicate 8 { enable := true, state := .down, since := 999999999 } } }, 0,
    by unfold sound shaped memOk secOk named; decide⟩,
   ⟨{ up with mesh := { enable := true, ports := List.replicate 8 { enable := true, state := .up, away := true } } }, 0,
    by unfold sound shaped memOk secOk named; decide⟩,
   ⟨{ up with mesh := { enable := true, ports := List.replicate 8 { enable := true, state := .up } } },
    by unfold sound shaped memOk secOk named; decide⟩⟩

theorem witness_FailedSessionsPutThePortDown :
    (∃ (s : State) (n : Nat) (id : Nat) (chain : Bool) (sig : Bool), sound s ∧ (s.portAt n).state = .keying ∧ id ≠ s.mesh.deviceId ∧
      (chain && sig) = false) ∧
    (∃ (s : State) (n : Nat) (b : Nat), sound s ∧ (s.portAt n).rekeyAt = some b ∧ (s.portAt n).state ≠ .down ∧ b * 40 + 50000000 ≤ s.phys)
      :=
  ⟨⟨{ up with mesh := { enable := true, ports := List.replicate 8 { enable := true, state := .keying } } }, 7, 9, false, true,
    by unfold sound shaped memOk secOk named; decide⟩,
   ⟨{ up with mesh := { enable := true, ports := List.replicate 8 { enable := true, state := .up, rekeyAt := some 0 } } }, 7, 0,
    by unfold sound shaped memOk secOk named; decide⟩⟩

theorem witness_FramesAreDeliveredInOrder :
    (∃ (s : State) (n : Nat) (h : FrameHdr) (p : PartNo), sound s ∧ lands s n h ∧ s.domainPart h.domain = some p ∧ s.byTag p h.tag = none
      ∧ clean s) ∧
    (∃ (s : State) (n : Nat) (h : FrameHdr), s.slm.stalled = false ∧ s.hears n = true ∧ h.dest = s.mesh.deviceId ∧ (h.epoch + 256 -
      (s.peer h.src).rxEpoch) % 256 = 0 ∧ 4096 ≤ (h.seq + 65536 - (s.peer h.src).rxSeq) % 65536) ∧
    (∃ (s : State) (n : Nat) (h : FrameHdr), s.slm.stalled = false ∧ s.hears n = true ∧ h.dest = s.mesh.deviceId ∧ (h.epoch + 256 -
      (s.peer h.src).rxEpoch) % 256 = 0 ∧ 0 < (h.seq + 65536 - (s.peer h.src).rxSeq) % 65536 ∧ (h.seq + 65536 - (s.peer h.src).rxSeq) %
      65536 < 4096 ∧ (s.peer h.src).early = []) ∧
    (∃ (s : State) (n : Nat) (h : FrameHdr), s.hears n = true ∧ h.dest ≠ s.mesh.deviceId ∧ h.ttl ≤ 1) ∧
    (∃ (s : State) (n : Nat) (h : FrameHdr), s.hears n = true ∧ h.dest ≠ s.mesh.deviceId ∧ 2 ≤ h.ttl ∧ (s.routePort h.dest).isSome = true)
      ∧
    (∃ (s : State) (n : Nat) (h : FrameHdr) (p : PartNo), lands s n h ∧ s.domainPart h.domain = some p ∧ clean s ∧ (s.routePort
      h.src).isSome = true ∧ (s.peer h.src).unreachable = false) ∧
    (∃ (s : State) (n : Nat) (h : FrameHdr) (p : PartNo) (coll : Bytes) (packet : Bytes) (k : Coll), lands s n h ∧ s.domainPart h.domain =
      some p ∧ s.shardOf p packet coll = .inr k) ∧
    (∃ (s : State) (n : Nat) (h : FrameHdr) (p : PartNo) (c : Cmd) (m : MeshWait) (k : Coll), lands s n h ∧ s.domainPart h.domain = some p
      ∧ s.byTag p h.tag = some c ∧ s.cmd? c.id = some c ∧ c.mesh = some m ∧ c.coll.bind (s.part p).collU? = some k ∧ c.phase ≠ .done ∧
      c.waitsFor m (k.memberOf h.src) = true ∧ c.appliesAtOrigin = false ∧ c.shadow = false) ∧
    (∃ (s : State) (n : Nat) (h : FrameHdr) (p : PartNo), lands s n h ∧ s.domainPart h.domain = some p ∧ h.last = false ∧
      s.mesh.chains.find? (fun c => c.tag == h.tag) = none ∧ s.chainCmd p h.tag = none ∧ h.aux = 0) ∧
    (∃ (s : State) (n : Nat) (h : FrameHdr) (p : PartNo) (c : _), lands s n h ∧ s.domainPart h.domain = some p ∧ h.last = false ∧
      s.mesh.chains.find? (fun c => c.tag == h.tag) = some c ∧ c.early = [] ∧ c.links = 0 ∧ h.aux = c.next ∧ c.next ≠ 0) ∧
    (∃ (s : State) (n : Nat) (h : FrameHdr) (b : Barrier), lands s n h ∧ s.mesh.barriers = [b] ∧ b.tag = h.tag ∧ b.root = true ∧
      b.released = false ∧ b.cid ≠ 0 ∧ b.arrived.contains h.src = false) ∧
    (∃ (s : State) (n : Nat) (h : FrameHdr) (b : Barrier), lands s n h ∧ s.mesh.barriers = [b] ∧ b.tag = h.tag ∧ b.root = false) ∧
    (∃ (s : State) (tag : Nat) (b : Barrier), s.mesh.barriers.find? (fun b => b.tag == tag) = some b ∧ b.released = false ∧ b.since * 40 +
      100000000 ≤ s.phys) ∧
    (∃ (s : State) (tag : Nat) (b : Barrier), s.mesh.barriers.find? (fun b => b.tag == tag) = some b ∧ b.released = false ∧ s.phys <
      b.since * 40 + 100000000) ∧
    (∃ (s : State) (n : Nat) (handle : Nat) (h : FrameHdr) (p : PartNo) (k : Coll), sound s ∧ lands s n h ∧ s.domainPart h.domain = some p
      ∧ tableAt s p handle k) :=
  ⟨⟨net (adm 1), 0, hdr9, 0, by unfold sound shaped memOk secOk named; decide⟩,
   ⟨net asks, 0, { hdr9 with seq := 4096 }, by decide⟩,
   ⟨net asks, 0, { hdr9 with seq := 4095 }, by decide⟩,
   ⟨net asks, 0, { hdr9 with dest := 12, ttl := 1 }, by decide⟩,
   ⟨{ net asks with mesh := { (net asks).mesh with routes := [(9, 0x80000000), (12, 0x80000000)] } }, 0,
    { hdr9 with dest := 12, ttl := 2 }, by decide⟩,
   ⟨net asks, 0, hdr9, 0, by decide⟩,
   ⟨net asks, 0, hdr9, 0, overlay flatBlock 36 [2], pk [(4, [2])], flat2, by decide⟩,
   ⟨net asks, 0, hdr9, 0, asks, { tag := 4, members := [1], waiting := [1] }, flat2, by decide⟩,
   ⟨net asks, 0, { hdr9 with last := false }, 0, by decide⟩,
   ⟨{ net asks with mesh := { (net asks).mesh with chains := [({ tag := 4, next := 1, totals := [7] } : ChainSt)] } }, 0,
    { hdr9 with aux := 1, last := false }, 0, ({ tag := 4, next := 1, totals := [7] } : ChainSt), by decide⟩,
   ⟨{ net asks with mesh := { (net asks).mesh with barriers := [{ tag := 4, root := true, participants := 3, cid := 8, since := 0 }] } },
    0, hdr9, { tag := 4, root := true, participants := 3, cid := 8, since := 0 }, by decide⟩,
   ⟨{ net asks with mesh := { (net asks).mesh with barriers := [{ tag := 4, root := false, participants := 3, since := 0 }] } }, 0, hdr9,
    { tag := 4, root := false, participants := 3, since := 0 }, by decide⟩,
   ⟨{ net asks with mesh := { (net asks).mesh with barriers := [{ tag := 4, root := false, participants := 3, since := 0 }] } }, 4,
    { tag := 4, root := false, participants := 3, since := 0 }, by decide⟩,
   ⟨{ net asks with mesh := { (net asks).mesh with barriers := [{ tag := 4, root := false, participants := 3, since := 999999999 }] } },
    4, { tag := 4, root := false, participants := 3, since := 999999999 }, by decide⟩,
   ⟨net asks table2, 0, 2, hdr9, 0, table2, by unfold sound shaped memOk secOk named; decide,
    by unfold tableAt sound shaped memOk secOk named; decide⟩⟩

theorem witness_ShardsThatDifferRefuseTheCommand :
    (∃ (s : State) (n : Nat) (h : FrameHdr) (p : PartNo) (coll : Bytes) (packet : Bytes) (i : Nat) (k : Coll), lands s n h ∧ s.domainPart
      h.domain = some p ∧ s.coll? p (rd packet 4 2) = some k ∧ k.param.length = coll.length ∧ i ≠ 38 ∧ i ≠ 39 ∧ k.param[i]? ≠ coll[i]? ∧
      (s.routePort h.src).isSome = true ∧ (s.peer h.src).unreachable = false) ∧
    (∃ (s : State) (n : Nat) (h : FrameHdr) (p : PartNo) (c : Cmd) (m : MeshWait) (k : Coll), lands s n h ∧ s.domainPart h.domain = some p
      ∧ s.byTag p h.tag = some c ∧ s.cmd? c.id = some c ∧ c.mesh = some m ∧ c.coll.bind (s.part p).collU? = some k ∧ c.phase ≠ .done ∧
      c.waitsFor m (k.memberOf h.src) = true ∧ c.appliesAtOrigin = false ∧ c.shadow = false) ∧
    (∃ (a : Bytes), 40 ≤ a.length) :=
  ⟨⟨net asks, 0, hdr9, 0, overlay flatBlock 36 [3], pk [(4, [2])], 36, flat2, by decide⟩,
   ⟨net asks, 0, hdr9, 0, asks, { tag := 4, members := [1], waiting := [1] }, flat2, by decide⟩,
   ⟨zeros 40, by decide⟩⟩

theorem witness_LostPeersAreProbedAndRoutesCommitted :
    (∃ (s : State) (n : Nat) (h : FrameHdr), s.hears n = true ∧ h.dest = s.mesh.deviceId) ∧
    (∃ (s : State) (d : Nat) (x : Sent), (s.peer d).unreachable = false ∧ (s.peer d).unacked = [x] ∧ x.waits = false ∧ x.at_ * 40 +
      s.mesh.resendUs.toNat * 1000 ≤ s.phys) ∧
    (∃ (s : State) (d : Nat), s.mesh.enable = true ∧ (s.peer d).unreachable = true ∧ (s.peer d).probeAt * 40 + 10000000 ≤ s.phys) ∧
    (∃ (s : State) (d : Nat), s.mesh.enable = true ∧ (s.peer d).unreachable = true ∧ s.phys < (s.peer d).probeAt * 40 + 10000000) ∧
    (∃ (s : State) (n : Nat) (h : FrameHdr), s.hears n = true ∧ h.dest = s.mesh.deviceId) ∧
    (∃ (s : State) (n : Nat) (h : FrameHdr) (m : _) (pos : _), s.hears n = true ∧ h.dest = s.mesh.deviceId ∧ s.routePort h.src = some (m,
      pos) ∧ 1 ≤ (s.portAt m).creditLink ∧ (s.portAt m).replayRoom 0 = true) ∧
    (∃ (s : State) (n : Nat) (reason : Nat) (d : Nat) (m : Nat) (pos : Nat) (h : FrameHdr), s.hears n = true ∧ h.dest = s.mesh.deviceId ∧
      reason ≠ 1 ∧ s.refusedTo h.src h.aux = d ∧ s.routePort d = some (m, pos)) ∧
    (∃ (s : State), s.mesh.enable = true) ∧
    (∃ (s : State) (n : Nat), sound s ∧ (s.portAt n).usable = true) ∧
    (∃ (s : State) (n : Nat), sound s ∧ (s.portAt n).usable = true) ∧
    (∃ (s : State) (v : Word32), s.barLive = true ∧ bits v.toNat 24 8 = 0x3C ∧ v.getLsbD 0 = true) ∧
    (∃ (v : Word32), (bits v.toNat 24 8 ≠ 0x3C ∨ v.getLsbD 0 = false)) :=
  ⟨⟨{ net asks with mesh := { (net asks).mesh with peers := [{ dev := 9, unacked := [{ type := 1, hdr := hdr9, body := .empty, at_ := 0, resends := 1 }] }] } },
    0, hdr9, by decide⟩,
   ⟨{ net asks with mesh := { (net asks).mesh with peers := [{ dev := 9, unacked := [{ type := 1, hdr := hdr9, body := .empty, at_ := 0, resends := 1 }] }] } },
    9, { type := 1, hdr := hdr9, body := .empty, at_ := 0, resends := 1 }, by decide⟩,
   ⟨{ net asks with mesh := { (net asks).mesh with peers := [{ dev := 9, unreachable := true }] } }, 9, by decide⟩,
   ⟨{ net asks with mesh := { (net asks).mesh with peers := [{ dev := 9, unreachable := true, probeAt := 999999999 }] } }, 9, by decide⟩,
   ⟨{ net asks with mesh := { (net asks).mesh with peers := [{ dev := 9, unreachable := true }] } }, 0, hdr9, by decide⟩,
   ⟨net asks, 0, hdr9, 0, 0, by decide⟩,
   ⟨net asks, 0, 2, 9, 0, 0, hdr9, by decide⟩,
   ⟨net asks, by decide⟩,
   ⟨net asks, 0, by unfold sound shaped memOk secOk named; decide⟩,
   ⟨net asks, 0, by unfold sound shaped memOk secOk named; decide⟩,
   ⟨up, 0x3C000001, by decide⟩,
   ⟨1, by decide⟩⟩

theorem witness_InterfacesLockRunAndFail :
    (∃ (s : State) (p : PartNo) (i : Nat), sound s ∧ s.tsmLive = true ∧ s.tdiAt p = .unlocked ∧ s.mayLock p i = true) ∧
    (∃ (s : State) (p : PartNo) (i : Nat), sound s ∧ s.tsmLive = true ∧ s.tdiAt p = .unlocked ∧ s.mayLock p i = false) ∧
    (∃ (s : State) (p : PartNo), sound s ∧ s.tsmLive = true ∧ s.tdiAt p ≠ .unlocked) ∧
    (∃ (s : State) (p : PartNo), sound s ∧ s.tsmLive = true ∧ s.tdiAt p = .locked) ∧
    (∃ (s : State) (p : PartNo), sound s ∧ s.tsmLive = true ∧ s.tdiAt p ≠ .locked) ∧
    (∃ (s : State) (p : PartNo), sound s ∧ s.tsmLive = true ∧ s.tdiAt p ≠ .unlocked) ∧
    (∃ (s : State) (p : PartNo), sound s ∧ s.tsmLive = true ∧ s.tdiLocked p = true) ∧
    (∃ (s : State) (p : PartNo), sound s ∧ s.tsmLive = true ∧ s.tdiLocked p = false) ∧
    (∃ (s : State), sound s ∧ s.tsmLive = true) ∧
    (∃ (s : State), sound s ∧ s.tsmLive = true) ∧
    (∃ (s : State), sound s ∧ s.tsmLive = true) ∧
    (∃ (s : State) (p : PartNo) (i : Nat) (o : Host.Outcome State Fault Refusal), ((o = exec (.kSetStop i) s ∧ s.tsmLive = true) ∨ o =
      exec (.ideIntegrityFailure p) s) ∧ sound s ∧ (s.fnAt (.vf p)).tdiStream = some i ∧ s.tdiLocked p = true) ∧
    (∃ (s : State) (i : Nat), s.tsmLive = true ∧ i < 21) ∧
    (∃ (s : State) (i : Nat), s.tsmLive = true ∧ i < 21 ∧ i ∉ s.sec.ideProgrammed) ∧
    (∃ (s : State), s.barLive = true) ∧
    (∃ (s : State), s.barLive = true) :=
  ⟨⟨{ ({ (fnOf up (.vf 0) fun x => { x with memSpace := true }) with sec := { keyCount := 1, ideProgrammed := [2], ideSecure := [2] } }) with fw := { up.fw with sessions := [(false, true)] } },
    0, 2, by unfold sound shaped memOk secOk named; decide⟩,
   ⟨{ ({ (fnOf up (.vf 0) fun x => { x with memSpace := true }) with sec := { keyCount := 1, ideProgrammed := [2], ideSecure := [2] } }) with fw := { up.fw with sessions := [(false, true)] } },
    0, 3, by unfold sound shaped memOk secOk named; decide⟩,
   ⟨{ (fnOf ({ up with sec := { keyCount := 1, ideProgrammed := [2], ideSecure := [2] } }) (.vf 0) fun x => { x with tdi := .run, tdiStream := some 2 }) with fw := { up.fw with sessions := [(false, true)] } },
    0, by unfold sound shaped memOk secOk named; decide⟩,
   ⟨{ (fnOf ({ up with sec := { keyCount := 1, ideProgrammed := [2], ideSecure := [2] } }) (.vf 0) fun x => { x with tdi := .locked, tdiStream := some 2 }) with fw := { up.fw with sessions := [(false, true)] } },
    0, by unfold sound shaped memOk secOk named; decide⟩,
   ⟨{ (fnOf ({ up with sec := { keyCount := 1, ideProgrammed := [2], ideSecure := [2] } }) (.vf 0) fun x => { x with tdi := .run, tdiStream := some 2 }) with fw := { up.fw with sessions := [(false, true)] } },
    0, by unfold sound shaped memOk secOk named; decide⟩,
   ⟨{ (fnOf ({ up with sec := { keyCount := 1, ideProgrammed := [2], ideSecure := [2] } }) (.vf 0) fun x => { x with tdi := .run, tdiStream := some 2 }) with fw := { up.fw with sessions := [(false, true)] } },
    0, by unfold sound shaped memOk secOk named; decide⟩,
   ⟨{ (fnOf ({ up with sec := { keyCount := 1, ideProgrammed := [2], ideSecure := [2] } }) (.vf 0) fun x => { x with tdi := .run, tdiStream := some 2 }) with fw := { up.fw with sessions := [(false, true)] } },
    0, by unfold sound shaped memOk secOk named; decide⟩,
   ⟨{ up with fw := { up.fw with sessions := [(false, true)] } }, 0, by unfold sound shaped memOk secOk named; decide⟩,
   ⟨{ up with fw := { up.fw with sessions := [(false, true)] } }, by unfold sound shaped memOk secOk named; decide⟩,
   ⟨{ up with fw := { up.fw with sessions := [(false, true)] } }, by unfold sound shaped memOk secOk named; decide⟩,
   ⟨{ up with fw := { up.fw with sessions := [(false, true)] } }, by unfold sound shaped memOk secOk named; decide⟩,
   ⟨{ (fnOf ({ up with sec := { keyCount := 1, ideProgrammed := [2], ideSecure := [2] } }) (.vf 0) fun x => { x with tdi := .run, tdiStream := some 2 }) with fw := { up.fw with sessions := [(false, true)] } },
    0, 2, exec (.kSetStop 2)
    ({ (fnOf ({ up with sec := { keyCount := 1, ideProgrammed := [2], ideSecure := [2] } }) (.vf 0) fun x => { x with tdi := .run, tdiStream := some 2 }) with fw := { up.fw with sessions := [(false, true)] } }),
    Or.inl ⟨rfl, by decide⟩, by unfold sound shaped memOk secOk named; decide⟩,
   ⟨{ up with fw := { up.fw with sessions := [(false, true)] } }, 20, by decide⟩,
   ⟨{ up with fw := { up.fw with sessions := [(false, true)] } }, 20, by decide⟩,
   ⟨up, by decide⟩,
   ⟨up, by decide⟩⟩

theorem witness_ThymeFollowsItsSource :
    (∃ (s : State) (cid : Nat) (c : Cmd), adminAt s cid 0x0F c ∧ c.f 16 1 = 0 ∧ zeroAt c.packet [(17, 7), (32, 32)] ∧ ((s.devHost mTime =
      true ∨ s.time.source ≠ .mesh)) ∧ ((s.time.ppsState = .locked → signed 64 (c.f 24 8) % 1000000000 = 0))) ∧
    (∃ (s : State) (cid : Nat) (c : Cmd), adminAt s cid 0x0F c ∧ c.f 16 1 = 1 ∧ zeroAt c.packet [(17, 7), (32, 32), (25, 3)] ∧ c.f 24 1 <
      4 ∧ (signed 32 (c.f 28 4)).natAbs ≤ 1000000) ∧
    (∃ (s : State), s.barLive = true ∧ s.devHost mTime = true) ∧
    (∃ (s : State) (v : Word32), s.barLive = true ∧ s.devHost mTime = true ∧ v.toInt.natAbs ≤ 100000) ∧
    (∃ (s : State) (v : Word32), s.barLive = true ∧ s.devHost mTime = true ∧ 100000 < v.toInt.natAbs) ∧
    (∃ (s : State), s.barLive = true ∧ s.devHost mTime = false) ∧
    (∃ (s : State), s.barLive = true) ∧
    (∃ (s : State), s.time.ppsState = .locked ∧ s.time.phase.natAbs ≤ 1000) ∧
    (∃ (s : State), s.time.ppsState = .acquiring ∧ s.time.good = true ∧ 2 ≤ s.time.ppsGood) ∧
    (∃ (s : State), s.time.ppsState = .absent) ∧
    (∃ (s : State), s.time.ppsState = .disabled) ∧
    (∃ (s : State), s.time.ppsState = .locked ∧ s.time.ppsWatch + 1500000000 ≤ s.time.thyme) ∧
    (∃ (s : State), s.time.ppsState = .locked ∧ s.time.thyme < s.time.ppsWatch + 1500000000) ∧
    (∃ (s : State), s.devHost mTime = true ∧ s.time.source = .host ∧ s.time.lastHostTimeWrite * 40 + 4000000000 ≤ s.phys) :=
  ⟨⟨(one up (adm 0x0F [(24, toLe 8 5)])), 7, (adm 0x0F [(24, toLe 8 5)]), by unfold adminAt sound shaped memOk secOk named; decide⟩,
   ⟨(one up (adm 0x0F [(16, toLe 1 1), (24, toLe 1 3), (28, toLe 4 5)])), 7, (adm 0x0F [(16, toLe 1 1), (24, toLe 1 3), (28, toLe 4 5)]),
    by unfold adminAt sound shaped memOk secOk named; decide⟩,
   ⟨{ up with devMode := 0x40 }, by decide⟩,
   ⟨{ up with devMode := 0x40 }, 5, by decide⟩,
   ⟨{ up with devMode := 0x40 }, 200000, by decide⟩,
   ⟨up, by decide⟩,
   ⟨up, by decide⟩,
   ⟨{ up with time := { ppsState := .locked, thyme := 5000000900 } }, by decide⟩,
   ⟨{ up with time := { ppsState := .acquiring, ppsGood := 2, thyme := 5000000000, ppsPrevEdge := some 4000000000 } }, by decide⟩,
   ⟨{ up with time := { ppsState := .absent } }, by decide⟩,
   ⟨up, by decide⟩,
   ⟨{ up with time := { ppsState := .locked, thyme := 1500000000, source := .pps } }, by decide⟩,
   ⟨{ up with time := { ppsState := .locked } }, by decide⟩,
   ⟨{ up with devMode := 0x40, time := { up.time with source := .host } }, by decide⟩⟩

theorem witness_HostTimeModeKeepsTheExchange :
    (∃ (s : State) (n : Nat), sound s ∧ s.devHost mTime = true ∧ (s.portAt n).usable = true) ∧
    (∃ (s : State), s.devHost mTime = true ∧ s.mesh.enable = true) :=
  ⟨⟨{ net asks with devMode := 0x40 }, 0, by unfold sound shaped memOk secOk named; decide⟩,
   ⟨{ net asks with devMode := 0x40 }, by decide⟩⟩

theorem witness_SuppliesSequenceAndHotspotsTrip :
    (∃ (s : State), s.pkg.onB = false ∧ s.pkg.vaonAGood = true ∧ s.pkg.vaonBGood = true) ∧
    (∃ (s : State), s.pkg.onB = true) ∧
    (∃ (s : State), s.powered = true) ∧
    (∃ (s : State), sound s ∧ s.powered = false) ∧
    (∃ (s : State) (g : Nat), sound s ∧ 1 ≤ g ∧ g ≤ 5 ∧ s.enOf g = true ∧ s.pgOf g = false) ∧
    (∃ (s : State) (g : Nat), sound s ∧ 1 ≤ g ∧ g ≤ 5 ∧ s.enOf g = true ∧ s.pgOf g = true) ∧
    (∃ (s : State) (g : Nat), sound s ∧ 1 ≤ g ∧ g ≤ 5 ∧ s.enOf g = true ∧ s.pgOf g = false) ∧
    (∃ (s : State) (low : Nat), sound s ∧ s.pkg.lostGroup = some low ∧ 1 ≤ low ∧ low ≤ 5 ∧ s.powered = true ∧ s.pkg.thermTrip = false ∧
      s.pkg.lostAt * 40 + (if s.pkg.seqFails = 0 then 100000000 else 1000000000) ≤ s.phys) ∧
    (∃ (s : State) (low : Nat), sound s ∧ s.pkg.lostGroup = some low ∧ 1 ≤ low ∧ low ≤ 5 ∧ s.powered = true ∧ s.pkg.thermTrip = false ∧
      s.phys < s.pkg.lostAt * 40 + (if s.pkg.seqFails = 0 then 100000000 else 1000000000)) ∧
    (∃ (s : State) (q : Nat) (temp : Nat), q < 4 ∧ 105 ≤ temp ∧ s.pkg.halfClock[q]? = some false) ∧
    (∃ (q : Nat) (temp : Nat), q < 4 ∧ temp < 105) ∧
    (∃ (s : State) (q : Nat) (temp : Nat), q < 4 ∧ temp < 100 ∧ s.pkg.halfClock[q]? = some true) ∧
    (∃ (s : State) (q : Nat) (temp : Nat), sound s ∧ q < 4 ∧ 115 ≤ temp ∧ s.pkg.thermTrip = false) ∧
    (∃ (s : State) (a : Nat) (b : Nat) (c : Nat) (d : Nat), s.pkg.thermTrip = true ∧ a < 95 ∧ b < 95 ∧ c < 95 ∧ d < 95) ∧
    (∃ (s : State) (a : Nat), s.pkg.thermTrip = true ∧ 95 ≤ a) :=
  ⟨⟨up, by decide⟩,
   ⟨{ up with pkg := { up.pkg with onB := true } }, by decide⟩,
   ⟨up, by decide⟩,
   ⟨State.reset, by unfold sound shaped memOk secOk named; decide⟩,
   ⟨{ up with pkg := { up.pkg with pg := [true, true, true, true, false] } }, 5, by unfold sound shaped memOk secOk named; decide⟩,
   ⟨up, 1, by unfold sound shaped memOk secOk named; decide⟩,
   ⟨{ up with pkg := { up.pkg with pg := [false, false, false, false, false] } }, 3, by unfold sound shaped memOk secOk named; decide⟩,
   ⟨{ up with pkg := { up.pkg with lostGroup := some 3 } }, 3, by unfold sound shaped memOk secOk named; decide⟩,
   ⟨{ up with pkg := { up.pkg with lostGroup := some 3, lostAt := 999999999 } }, 3, by unfold sound shaped memOk secOk named; decide⟩,
   ⟨up, 3, 105, by decide⟩,
   ⟨3, 104, by decide⟩,
   ⟨{ up with pkg := { up.pkg with halfClock := [true, true, true, true] } }, 3, 99, by decide⟩,
   ⟨up, 0, 115, by unfold sound shaped memOk secOk named; decide⟩,
   ⟨{ up with pkg := { up.pkg with thermTrip := true } }, 94, 0, 0, 94, by decide⟩,
   ⟨{ up with pkg := { up.pkg with thermTrip := true } }, 95, by decide⟩⟩

theorem witness_SketchesCompareByDifferingBits :
    ∃ (k : Coll) (i : Nat), i < k.sketchW / 8 * 8 :=
  ⟨graph, 5, by decide⟩

theorem witness_StepRunsTheFrontCommand :
    ∃ (c : Instr) (s : State) (rest : List Instr), s.pending = c :: rest :=
  ⟨.thymeSnapTrig, { up with pending := [.thymeSnapTrig, .perstAssert] }, [.perstAssert], by decide⟩

theorem witness_EmptyQueueIsOneTick :
    (∃ (s : State), (∀ n, (s.clusterAt n).standInPhase ≠ 2) ∧ s.pending = [] ∧ s.powered = true ∧ s.tests = [] ∧ s.sec.debugPending =
      none) ∧
    (∃ (s : State), s.pending = [] ∧ s.powered = false) :=
  ⟨⟨up, up_standIn, by decide⟩,
   ⟨State.reset, by decide⟩⟩

theorem witness_StepKeepsSound :
    ∃ (s : State) (t : State), step s = .next t ∧ sound s :=
  ⟨{ up with pending := [.thymeSnapTrig] }, after (step ({ up with pending := [.thymeSnapTrig] })), rfl,
    by unfold sound shaped memOk secOk named; decide⟩

theorem witness_NoStepClearsAFuse :
    ∃ (s : State) (t : State), step s = .next t :=
  ⟨{ up with pending := [.thymeSnapTrig] }, after (step ({ up with pending := [.thymeSnapTrig] })), rfl⟩

theorem witness_StampClockNeverGoesBack :
    ∃ (s : State) (t : State), ((∀ c rest, s.pending = c :: rest → c ≠ .vaonLoss ∧ ∀ a b r d, c ≠ .vaonPowerOn a b r d)) ∧ step s = .next
      t ∧ s.time.thymeFrac < nsUnit :=
  ⟨{ up with pending := [.thymeSnapTrig] }, after (step ({ up with pending := [.thymeSnapTrig] })),
    by intro c rest h; cases h; exact ⟨nofun, nofun⟩, rfl, by decide⟩

theorem witness_OperationsStayInTheirPartition :
    ∃ (s : State) (t : State) (cid : Nat) (c : Cmd) (p : PartNo) (i : Instr) (q : PartNo), exec i s = .next t ∧ s.cmd? cid = some c ∧
      c.isAdmin = false ∧ c.part = some p ∧ ((i ∈ [.search cid, .searchCompound cid, .scan cid, .fetch cid, .embLookup cid, .hotsetLoad
      cid, .shardMigrate cid, .denseLoad cid, .regionWrite cid, .regionRead cid, .collectionCreate cid, .collectionDrop cid,
      .collectionImport cid, .collectionExport cid, .collectionConsolidate cid, .expansionStep cid, .rerankBatch cid, .join cid,
      .commitPhase cid, .commitStep cid] ∨ ∃ b, i ∈ [.insert cid b, .delete cid b, .upsert cid b, .setAttributes cid b, .embUpdate cid
      b])) ∧ q ≠ p :=
  ⟨one up (ioc 0x71 (pb 64 [(0, [0]), (8, toLe 8 64), (16, [4])]) [] 0 4), after (exec (.regionRead 7) (one up (ioc 0x71 (pb 64 [(0, [0]),
    (8, toLe 8 64), (16, [4])]) [] 0 4))), 7, (ioc 0x71 (pb 64 [(0, [0]), (8, toLe 8 64), (16, [4])]) [] 0 4), 0, .regionRead 7, 1, rfl,
    by decide⟩

end Sys2Proof.Tests
end

section
/-! The invariant of the block over one step (O56): `keeps` of every command, row by row, from the laws of the operations that the row
composes. -/

namespace Sys2Proof.Laws

open Sys2Proof.Machine Sys2Proof.Safety

/-- A change outside all that the invariant and the fuses read. -/
theorem keeps_of_view {s0 t u : State} (h : keeps s0 t)
    (e : (u.fns, u.parts, u.ras, u.hbm.channels, u.hbm.stackSt, u.mesh.ports, u.pkg.en, u.pkg.pg, u.sec.fuses, u.sec.debugState,
        u.cmds, u.nextCid) =
      (t.fns, t.parts, t.ras, t.hbm.channels, t.hbm.stackSt, t.mesh.ports, t.pkg.en, t.pkg.pg, t.sec.fuses, t.sec.debugState,
        t.cmds, t.nextCid)) : keeps s0 u := by
  simp only [Prod.mk.injEq] at e
  obtain ⟨hfns, hparts, hras, hchan, hstack, hports, hen, hpg, hfuses, hdebug, hcmds, hcid⟩ := e
  refine keeps_trans h ⟨hfuses ▸ fusesKept_refl _, fun k => ?_⟩
  unfold sound shaped memOk secOk named at *
  rw [hfns, hparts, hras, hchan, hstack, hports, hen, hpg, hfuses, hdebug, hcmds, hcid]
  exact k

/-- Another security block that keeps the fuses and their effects. -/
theorem keeps_withSec {s0 t : State} {x : SecSt} (h : keeps s0 t) (hx : secKeep t.sec x) : keeps s0 { t with sec := x } :=
  keeps_trans h ⟨hx.1, fun ⟨hshape, hmem, hlog, hsec, hnames⟩ => ⟨hshape, hmem, hlog, hx.2 hsec, hnames⟩⟩

/-- Another package block whose tables of the rail groups keep their sizes. -/
theorem keeps_withPkg {s0 t : State} {x : PkgSt} (h : keeps s0 t) (hx : pkgKeep t.pkg x) : keeps s0 { t with pkg := x } := by
  rw [mk_put]
  exact keeps_mk id partsKeep_refl rasKeep_refl hbmKeep_refl id hx secKeep_refl namesKeep_refl h

/-- A command goes on, to a state that keeps the fuses and the invariant. -/
def keepsNext (s0 : State) (o : Res) : Prop := ∃ t, o = .next t ∧ keeps s0 t

theorem keepsNext_of {s0 t : State} (h : keeps s0 t) : keepsNext s0 (.next t) := ⟨t, rfl, h⟩

/-- The same of a command whose law speaks of the state it leaves. -/
theorem keepsNext_of_after {s0 d : State} {o : Res} (hgo : goesOn o) (hk : keeps s0 (after d o)) : keepsNext s0 o := by
  obtain ⟨t, rfl⟩ := hgo
  exact keepsNext_of hk

/-- A choice between a state and one made from it. -/
theorem keeps_ite_self {s0 t u : State} {c : Prop} [Decidable c] (ht : keeps s0 t) (hu : keeps s0 t → keeps s0 u) :
    keeps s0 (if c then u else t) := keeps_ite (hu ht) ht

theorem keeps_ite_else {s0 t u : State} {c : Prop} [Decidable c] (ht : keeps s0 t) (hu : keeps s0 t → keeps s0 u) :
    keeps s0 (if c then t else u) := keeps_ite ht (hu ht)

end Sys2Proof.Laws

namespace Sys2Proof.Machine

open Sys2Proof.Safety Sys2Proof.Laws State

@[simp] theorem failIf_eq_none {b : Bool} {e : Err} : failIf b e = none ↔ b = false := by cases b <;> simp [failIf]

@[simp] theorem firstErr_eq_none {l : List (Option Err)} : firstErr l = none ↔ ∀ o ∈ l, o = none := by
  simp [firstErr, List.findSome?_eq_none_iff]

/-- An admin command's work runs only where its check finds nothing. -/
theorem State.admin_keeps_checked {s0 s : State} {cid op : Nat} {pick : Cmd → Bool} {chk : Cmd → Option Err} {f : Cmd → State}
    (hf : ∀ c, chk c = none → keeps s0 (f c)) (h : keeps s0 s) : keeps s0 (s.admin cid op pick chk f) := by
  refine onCmd_keeps (fun c => ?_) h
  split
  · exact fail_keeps h
  · exact hf c ‹_›

section Rows

variable {s0 s : State} {fn : Fn} {part : PartNo} {cid qid cluster core stream port dest : Nat} {value : Word32}

variable (h : keeps s0 s)
include h

/-! ### Queue pairs and their entries -/

theorem execIdentify_keepsNext : keepsNext s0 (execIdentify cid s) :=
  keepsNext_of <| admin_keeps (fun _ => finish_keeps (writeOut_keeps h)) h

theorem execCreateQueuePair_keepsNext : keepsNext s0 (execCreateQueuePair cid s) :=
  keepsNext_of <| admin_keeps (fun _ => finish_keeps (keeps_of_view h rfl)) h

theorem execDeleteQueuePair_keepsNext : keepsNext s0 (execDeleteQueuePair cid s) :=
  keepsNext_of <| admin_keeps (fun _ => by
    extract_lets t
    have ht : keeps s0 t := modCmd_keeps h fun _ => id
    split
    · exact keeps_ite (modPair_keeps ht) (startDelete_keeps ht)
    · exact ht) h

theorem execDeleteQueuePairDone_keepsNext : keepsNext s0 (execDeleteQueuePairDone fn qid s) := by
  refine keepsNext_of ?_
  split
  · exact keeps_ite (endDelete_keeps h) h
  · exact h

theorem execRestartQueueResume_keepsNext : keepsNext s0 (execRestartQueueResume cid s) :=
  keepsNext_of <| admin_keeps (fun _ => askRestart_keeps h) h

theorem execRestartQueueFlush_keepsNext : keepsNext s0 (execRestartQueueFlush cid s) :=
  keepsNext_of <| admin_keeps (fun _ => askRestart_keeps h) h

theorem execRestartWait_keepsNext {ctags : List (Option (BitVec 16))} : keepsNext s0 (execRestartWait fn qid ctags s) := by
  refine keepsNext_of ?_
  split
  · exact h
  split
  · exact h
  extract_lets upTo u t
  have ht : keeps s0 t := keeps_ite_self (keeps_ite_self h modPair_keeps) flushEntries_keeps
  refine keeps_ite h ?_
  split
  · exact keeps_ite ht (keeps_foldl (finish_keeps (unfreeze_keeps ht)) fun _ _ ha => finish_keeps ha)
  · exact ht

theorem execAutomaticRestart_keepsNext : keepsNext s0 (execAutomaticRestart fn qid s) := by
  refine keepsNext_of ?_
  split
  · exact h
  split
  · exact h
  · exact keeps_ite (log_keeps (unfreeze_keeps h)) h

theorem execSqEntryFetch_keepsNext {entry : Bytes} {data : HostData} : keepsNext s0 (execSqEntryFetch entry data s) := by
  refine keepsNext_of ?_
  split
  · exact h
  · exact prefetch_keeps (accept_keeps (modPair_keeps (queueAccess_keeps (tookFetch_keeps h))))

theorem execSqEntryFetchFailed_keepsNext : keepsNext s0 (execSqEntryFetchFailed s) := by
  refine keepsNext_of ?_
  split
  · exact h
  · extract_lets u seq t
    have ht : keeps s0 t := logHost_keeps (tookFetch_keeps h)
    exact keeps_ite (modPair_keeps ht) (freeze_keeps ht)

theorem execAggTime_keepsNext : keepsNext s0 (execAggTime fn qid s) := by
  refine keepsNext_of ?_
  split
  · exact keeps_ite (signal_keeps h) h
  · exact h

theorem execCompletionWriteFailed_keepsNext : keepsNext s0 (execCompletionWriteFailed cid s) := by
  refine keepsNext_of ?_
  refine onCmd_keeps (fun c => ?_) h
  split
  · exact h
  · exact keeps_ite h (forget_keeps (keeps_ite_self
      (countDone_keeps (modPair_keeps (logHost_keeps (logError_keeps (completionAnswered_keeps h))))) modPair_keeps))

/-! ### Features and modes -/

theorem execSetFeature_keepsNext : keepsNext s0 (execSetFeature cid s) := by
  refine keepsNext_of ?_
  refine admin_keeps (fun c => keeps_ite (finish_keeps (keeps_of_view h rfl)) ?_) h
  split
  · exact finish_keeps (keeps_modPart h fun _ => PartSt.setFeat_keeps pKeeps_refl)
  · exact h

theorem execGetFeature_keepsNext : keepsNext s0 (execGetFeature cid s) :=
  keepsNext_of <| admin_keeps (fun _ => finish_keeps h) h

theorem execModeSelect_keepsNext : keepsNext s0 (execModeSelect cid s) := by
  refine keepsNext_of ?_
  split
  · refine keeps_ite ?_ (admin_keeps (fun c => ?_) h)
    · split
      · exact keeps_ite (applyMode_keeps h) h
      · exact finish_keeps h
    · split
      · exact keeps_ite (modCmd_keeps h fun _ => id) (applyMode_keeps h)
      · exact finish_keeps (setDevMode_keeps h)
  · exact h

theorem execModeLock_keepsNext : keepsNext s0 (execModeLock cid s) := by
  refine keepsNext_of ?_
  refine admin_keeps (fun c => ?_) h
  split
  · exact finish_keeps (keeps_modPart h fun _ => id)
  · exact h

theorem execSearchReportClear_keepsNext : keepsNext s0 (execSearchReportClear cid s) :=
  keepsNext_of <| setPartFeature_keeps (fun _ _ => finish_keeps (keeps_modPart h fun _ => id)) h

theorem execScratchHostMib_keepsNext : keepsNext s0 (execScratchHostMib cid s) :=
  keepsNext_of <| setPartFeature_keeps (fun _ _ => finish_keeps (keeps_modPart h fun _ => PartSt.setFeat_keeps pKeeps_refl)) h

theorem execMeshDomain_keepsNext : keepsNext s0 (execMeshDomain cid s) := by
  refine keepsNext_of ?_
  refine admin_keeps (fun c => ?_) h
  split
  · exact finish_keeps (keeps_modPart h fun _ => PartSt.setFeat_keeps pKeeps_refl)
  · exact h

theorem execGetLog_keepsNext : keepsNext s0 (execGetLog cid s) :=
  keepsNext_of <| admin_keeps (fun _ => keeps_ite (bump_keeps (finish_keeps (emits_keeps h))) (finish_keeps (emits_keeps h))) h

/-! ### The journal -/

theorem execJournalFormat_keepsNext : keepsNext s0 (execJournalFormat cid s) :=
  keepsNext_of <| setPartFeature_keeps (fun _ _ => keeps_modPart (jHeader_keeps (settle_keeps (jWrite_keeps
    (keeps_modPart (newKey_keeps (bump_keeps h)) fun _ => id)))) fun _ => id) h

theorem execJournalReplay_keepsNext {region : Bytes} : keepsNext s0 (execJournalReplay cid region s) := by
  refine keepsNext_of ?_
  split
  · refine keeps_ite ?_ (setPartFeature_keeps (fun p _ => ?_) h)
    · split
      · exact h
      refine keeps_ite h ?_
      split
      · exact fail_keeps (keeps_modPart h fun _ => id)
      · exact settled_keeps (replayRegion_keeps h) h
    · split
      · exact fail_keeps h
      · exact modCmd_keeps (keeps_modPart h fun _ => id) fun _ => id
  · exact h

theorem execJournalDisable_keepsNext : keepsNext s0 (execJournalDisable cid s) := by
  refine keepsNext_of ?_
  split
  · refine keeps_ite ?_ (setPartFeature_keeps (fun p _ => keeps_ite (modCmd_keeps h fun _ => id) (journalDisabled_keeps h)) h)
    split
    · exact keeps_ite h (journalDisabled_keeps h)
    · exact finish_keeps h
  · exact h

theorem execFlushingReadReturn_keepsNext : keepsNext s0 (execFlushingReadReturn part s) := by
  refine keepsNext_of ?_
  dsimp only
  split
  · exact h
  · exact keeps_ite (exportFlushed_keeps (keeps_modPart h fun _ => id)) (jTrim_keeps (keeps_ite_self
      (keeps_foldl (keeps_modPart (keeps_modPart h fun _ => id) fun _ => id) fun _ _ => due_keeps) jFlush_keeps))

theorem execFlushingReadFailed_keepsNext : keepsNext s0 (execFlushingReadFailed part s) := by
  refine keepsNext_of ?_
  dsimp only
  split
  · exact h
  · exact keeps_ite (tearDown_keeps (keeps_modPart h fun _ => id))
      (log_keeps (keeps_foldl (keeps_modPart h fun _ => id) fun _ _ ha => fail_keeps ha))

/-! ### Self-tests -/

theorem execSelfTestStart_keepsNext : keepsNext s0 (execSelfTestStart cid s) := by
  refine keepsNext_of ?_
  refine admin_keeps (fun c => ?_) h
  extract_lets m test u v
  have hv : keeps s0 v := keeps_foldl (modCmd_keeps (keeps_of_view h rfl) fun _ => id) fun _ _ => modCluster_keeps
  exact keeps_ite_self (keeps_ite_self hv fun hv => keeps_foldl hv fun _ _ ha => startStandIn_keeps (modCluster_keeps ha)) enterBarrier_keeps

theorem execSelfTestStop_keepsNext : keepsNext s0 (execSelfTestStop cid s) :=
  keepsNext_of <| admin_keeps (fun _ => finish_keeps (keeps_foldl h fun _ _ ha => fail_keeps (finishTest_keeps ha))) h

theorem execSelfTestComplete_keepsNext {failed notRun : List (Nat × Nat)} :
    keepsNext s0 (execSelfTestComplete cid failed notRun s) := by
  refine keepsNext_of ?_
  split
  · exact h
  · extract_lets cannot ports bad skip seq u v w
    have hw : keeps s0 w := finishTest_keeps (keeps_foldl (keeps_foldl h fun _ _ => itemFailed_keeps) fun _ _ => logTest_keeps)
    exact keeps_ite h (keeps_ite (finish_keeps hw) (modCmd_keeps (finish_keeps hw) fun _ => id))

theorem execTestStepResume_keepsNext : keepsNext s0 (execTestStepResume cid s) := by
  refine keepsNext_of ?_
  split
  · exact h
  · exact keeps_ite (drainAgain_keeps (modTest_keeps h)) h

theorem execTestNotCompleted_keepsNext : keepsNext s0 (execTestNotCompleted cid s) := by
  refine keepsNext_of ?_
  split
  · exact h
  · exact keeps_ite h (fail_keeps (finishTest_keeps h))

/-! ### Power states -/

theorem execSetPowerState_keepsNext : keepsNext s0 (execSetPowerState cid s) := by
  refine keepsNext_of ?_
  refine admin_keeps (fun c => ?_) h
  extract_lets target waiting entry
  have hw : keeps s0 waiting := modCmd_keeps h fun _ => id
  exact keeps_ite (tryStart_keeps (keeps_of_view hw rfl))
    (keeps_ite (finish_keeps (gateAll_keeps (keeps_of_view h rfl))) (keeps_of_view hw rfl))

theorem execPowerStateEntry_keepsNext : keepsNext s0 (execPowerStateEntry s) := by
  refine keepsNext_of ?_
  split
  · exact h
  · extract_lets u _ t _ v w
    have ht : keeps s0 t := keeps_of_view (gateAll_keeps h) rfl
    have hw : keeps s0 w := keeps_foldl (dropGroups_keeps (deletePairs_keeps ht)) fun _ _ => setPort_keeps
    clear_value w t
    refine keeps_ite h (keeps_ite (finish_keeps (keeps_of_view ht rfl)) (finish_keeps ?_))
    exact keeps_of_view (keeps_mapParts hw fun _ => PartSt.lost_keeps pKeeps_refl) rfl

theorem execPowerEntryDeferred_keepsNext : keepsNext s0 (execPowerEntryDeferred s) := by
  refine keepsNext_of ?_
  split
  · exact h
  · exact keeps_ite (fail_keeps (deferBack_keeps h)) h

theorem execPs2Reentry_keepsNext : keepsNext s0 (execPs2Reentry s) := keepsNext_of <| keeps_ite (gateAll_keeps (keeps_of_view h rfl)) h

theorem execClusterGate_keepsNext : keepsNext s0 (execClusterGate cluster s) :=
  keepsNext_of <| keeps_ite (coresLose_keeps (modCluster_keeps h)) h

/-! ### Partitions and regulators -/

theorem execPartitionConfigureSet_keepsNext : keepsNext s0 (execPartitionConfigureSet cid s) := by
  refine keepsNext_of ?_
  refine configure_keeps (fun _ _ ha => ?_) h
  exact finish_keeps (assignPart_keeps (keeps_ite_self ha releasePart_keeps))

theorem execPartitionConfigureClear_keepsNext : keepsNext s0 (execPartitionConfigureClear cid s) := by
  refine keepsNext_of ?_
  refine configure_keeps (fun _ _ ha => ?_) h
  exact keeps_ite_self (finish_keeps (modFn_keeps (releasePart_keeps ha))) startDelete_keeps

theorem execPartitionConfigureAdjust_keepsNext : keepsNext s0 (execPartitionConfigureAdjust cid s) :=
  keepsNext_of <| admin_keeps (fun _ => finish_keeps (keeps_modPart h fun _ => id)) h

theorem execRegulatorAdjust_keepsNext {waited : List Bool} {used : List Nat} :
    keepsNext s0 (execRegulatorAdjust part waited used s) :=
  keepsNext_of <| keeps_ite h (keeps_modPart (bump_keeps h) fun _ => id)

theorem execSlowdownWindow_keepsNext {useful hbm slm mesh pcie reg : Nat} :
    keepsNext s0 (execSlowdownWindow part useful hbm slm mesh pcie reg s) :=
  keepsNext_of <| keeps_ite h (keeps_modPart h fun _ => id)

/-! ### Firmware and management -/

theorem execFirmwareLoad_keepsNext {flashOk : Bool} : keepsNext s0 (execFirmwareLoad cid flashOk s) := by
  refine keepsNext_of ?_
  split
  · exact h
  · exact keeps_ite (keeps_ite (endLoad_keeps h) h)
      (admin_keeps (fun _ => keeps_ite h (modCmd_keeps (keeps_of_view h rfl) fun _ => id)) h)

theorem execFirmwareActivateLive_keepsNext : keepsNext s0 (execFirmwareActivateLive cid s) := by
  refine keepsNext_of ?_
  split
  · exact h
  · refine keeps_ite (keeps_ite (endLive_keeps h) h) (onCmd_keeps (fun c => keeps_ite h ?_) h)
    split
    · exact fail_keeps h
    · exact modCmd_keeps (keeps_of_view h rfl) fun _ => id

theorem execActivationKill_keepsNext : keepsNext s0 (execActivationKill s) := by
  refine keepsNext_of ?_
  split
  · exact h
  · exact keeps_ite h (keeps_of_view (keeps_foldl h fun _ _ => killRerun_keeps) rfl)

theorem execFirmwareActivateRestart_keepsNext : keepsNext s0 (execFirmwareActivateRestart cid s) := by
  refine keepsNext_of ?_
  refine onCmd_keeps (fun c => keeps_ite h ?_) h
  split
  · exact fail_keeps h
  split
  · exact restartFirmware_keeps (postNow_keeps (finish_keeps h) ‹_›)
  · exact h

theorem execRequestUpdate_keepsNext : keepsNext s0 (execRequestUpdate s) :=
  keepsNext_of <| keeps_ite h (keeps_ite (pldmSay_keeps h) (pldmSay_keeps (keeps_of_view h rfl)))

theorem execApplyComplete_keepsNext {image : Bytes} {flashOk : Bool} : keepsNext s0 (execApplyComplete image flashOk s) := by
  refine keepsNext_of ?_
  extract_lets _ idle
  have hi : keeps s0 idle := keeps_of_view h rfl
  refine keeps_ite h ?_
  split
  · exact pldmSay_keeps hi
  · exact keeps_ite (pldmSay_keeps (flash_keeps hi)) (keeps_ite (bootStored_keeps (loaded_keeps hi)) (pldmSay_keeps (loaded_keeps h)))

theorem execActivateFirmware_keepsNext {selfContained : Bool} : keepsNext s0 (execActivateFirmware selfContained s) := by
  refine keepsNext_of ?_
  extract_lets _ t
  have ht : keeps s0 t := keeps_of_view h rfl
  refine keeps_ite h (keeps_ite (pldmSay_keeps ht) ?_)
  split
  · exact pldmSay_keeps ht
  · exact restartFirmware_keeps (pldmSay_keeps ht)

theorem execPldmRequest_keepsNext {type : Nat} {sensor : Option Nat} : keepsNext s0 (execPldmRequest type sensor s) :=
  keepsNext_of <| keeps_ite h (emit_keeps (pldmAnswer_keeps h))

theorem execSetEndpointId_keepsNext {eid : BitVec 8} : keepsNext s0 (execSetEndpointId eid s) :=
  keepsNext_of <| keeps_ite (keeps_of_view h rfl) h

theorem execPciePhyDigestPassed_keepsNext : keepsNext s0 (execPciePhyDigestPassed s) :=
  keepsNext_of <| keeps_ite h (actOnPerst_keeps (keeps_of_view h rfl))

theorem execStageRunning_keepsNext : keepsNext s0 (execStageRunning s) :=
  keepsNext_of <| keeps_ite h (tryStart_keeps (keeps_of_view h rfl))

/-! ### Security, fuses and the debug port -/

theorem execSecuritySend_keepsNext : keepsNext s0 (execSecuritySend cid s) :=
  keepsNext_of <| admin_keeps (fun _ => finish_keeps (bump_keeps (modFn_keeps h))) h

theorem execSecurityReceive_keepsNext : keepsNext s0 (execSecurityReceive cid s) :=
  keepsNext_of <| admin_keeps (fun _ => secReply_keeps (keeps_ite_else h modFn_keeps)) h

theorem execBindingCert_keepsNext : keepsNext s0 (execBindingCert cid s) :=
  keepsNext_of <| admin_keeps (fun _ => secReply_keeps h) h

theorem execDeclareSet_keepsNext : keepsNext s0 (execDeclareSet cid s) := by
  refine keepsNext_of ?_
  refine admin_keeps (fun c => ?_) h
  split
  · exact finish_keeps (keeps_modPart h fun _ => id)
  · exact h

theorem execDeviceSet_keepsNext : keepsNext s0 (execDeviceSet cid s) := by
  refine keepsNext_of ?_
  refine admin_keeps (fun c => ?_) h
  split
  · exact secReply_keeps h
  · exact h

theorem execPeerPolicy_keepsNext : keepsNext s0 (execPeerPolicy cid s) :=
  keepsNext_of <| admin_keeps (fun _ => finish_keeps (enforcePolicy_keeps (keeps_of_view h rfl))) h

theorem execFuseOwnerKey_keepsNext : keepsNext s0 (execFuseOwnerKey cid s) := by
  refine keepsNext_of ?_
  refine State.admin_keeps_checked (fun c hc => ?_) h
  have hunset : s.sec.fuses.ownerKey = none := by
    simpa using (firstErr_eq_none.mp hc) (failIf s.sec.fuses.ownerKey.isSome { st := stNotPermitted }) (by simp)
  have hfuse : fusesKept s.sec.fuses { s.sec.fuses with ownerKey := some (Config.sha512 c.secBuf) } :=
    ⟨fun k hk => absurd hk (by simp [hunset]), id, Nat.le_refl _, fun _ => id⟩
  exact finish_keeps (blown_keeps (keeps_withSec h ⟨hfuse, id⟩))

theorem execFuseDebugClose_keepsNext : keepsNext s0 (execFuseDebugClose cid s) := by
  refine keepsNext_of ?_
  refine admin_keeps (fun c => keeps_ite (finish_keeps h) (finish_keeps (blown_keeps ?_))) h
  exact keeps_withSec (t := s) h ⟨⟨fun _ => id, fun _ => rfl, Nat.le_refl _, fun _ => id⟩, fun hs => ⟨hs.1, fun _ => rfl⟩⟩

theorem execCommitSvn_keepsNext : keepsNext s0 (execCommitSvn cid s) := by
  refine keepsNext_of ?_
  refine admin_keeps (fun c => ?_) h
  extract_lets
  split
  · exact finish_keeps h
  · exact finish_keeps (blown_keeps (keeps_withSec h ⟨⟨fun _ => id, id, Nat.le_of_lt (Nat.lt_of_not_le ‹_›), fun _ => id⟩, id⟩))

theorem execDebugChallenge_keepsNext : keepsNext s0 (execDebugChallenge s) :=
  keepsNext_of <| keeps_ite h (bump_keeps (emit_keeps (keeps_of_view h rfl)))

theorem execDebugToken_keepsNext {serial : Word64} {nonce : Bytes} {level : Nat} {sig ownerSig : Bytes} :
    keepsNext s0 (execDebugToken serial nonce level sig ownerSig s) :=
  keepsNext_of <| keeps_ite h (settleDebug_keeps (keeps_of_view h rfl))

theorem execDebugLock_keepsNext : keepsNext s0 (execDebugLock s) := by
  refine keepsNext_of ?_
  split
  · exact h
  · rename_i hopen
    refine keeps_withSec h ⟨fusesKept_refl _, fun hs => ⟨hs.1, fun hclosed => ?_⟩⟩
    rw [hs.2 hclosed] at hopen
    exact absurd rfl hopen

theorem execLockInterfaceRequest_keepsNext : keepsNext s0 (execLockInterfaceRequest part stream s) :=
  keepsNext_of <| keeps_ite h (keeps_ite (tdispWrong_keeps h) (keeps_ite (tdispSay_keeps h) (tdispSay_keeps (modFn_keeps
    (keeps_modPart (rekeyPart_keeps (destroyContents_keeps (clearForLock_keeps h))) fun _ => id)))))

theorem execStartInterfaceRequest_keepsNext : keepsNext s0 (execStartInterfaceRequest part s) :=
  keepsNext_of <| keeps_ite h (keeps_ite (tdispWrong_keeps h) (tdispSay_keeps (modFn_keeps h)))

theorem execStopInterfaceRequest_keepsNext : keepsNext s0 (execStopInterfaceRequest part s) :=
  keepsNext_of <| keeps_ite h (keeps_ite (tdispWrong_keeps h) (tdispSay_keeps (modFn_keeps (rekeyPart_keeps (destroyContents_keeps
    (clearForLock_keeps (deletePairs_keeps h)))))))

theorem execGetDeviceInterfaceReport_keepsNext : keepsNext s0 (execGetDeviceInterfaceReport part s) :=
  keepsNext_of <| keeps_ite h (keeps_ite (tdispWrong_keeps h) (tdispSay_keeps h))

theorem execGetDeviceInterfaceState_keepsNext : keepsNext s0 (execGetDeviceInterfaceState part s) :=
  keepsNext_of <| keeps_ite (tdispSay_keeps h) h

theorem execGetTdispVersion_keepsNext : keepsNext s0 (execGetTdispVersion part s) := keepsNext_of <| keeps_ite (tdispSay_keeps h) h

theorem execGetTdispCapabilities_keepsNext : keepsNext s0 (execGetTdispCapabilities part s) := keepsNext_of <| keeps_ite (tdispSay_keeps h) h

theorem execKSetStop_keepsNext : keepsNext s0 (execKSetStop stream s) :=
  keepsNext_of <| keeps_ite (streamLost_keeps (keeps_of_view h rfl)) h

theorem execIdeKm_keepsNext {program go : Bool} : keepsNext s0 (execIdeKm stream program go s) :=
  keepsNext_of <| keeps_ite h (keeps_of_view h rfl)

theorem execIdeIntegrityFailure_keepsNext : keepsNext s0 (execIdeIntegrityFailure part s) := by
  refine keepsNext_of ?_
  split
  · exact h
  · exact streamLost_keeps (keeps_of_view h rfl)

theorem execGetMeasurements_keepsNext {index : Nat} {path : Option PartNo} : keepsNext s0 (execGetMeasurements index path s) :=
  keepsNext_of <| keeps_ite (bump_keeps (emit_keeps h)) h

theorem execSpdmRequest_keepsNext {msg : Bytes} : keepsNext s0 (execSpdmRequest msg s) :=
  keepsNext_of <| keeps_ite (bump_keeps (emit_keeps (sessionStep_keeps h))) h

/-! ### Thyme -/

theorem execTimeConfigureStep_keepsNext : keepsNext s0 (execTimeConfigureStep cid s) :=
  keepsNext_of <| admin_keeps (fun _ => finish_keeps (keeps_of_view h rfl)) h

theorem execTimeConfigurePps_keepsNext : keepsNext s0 (execTimeConfigurePps cid s) :=
  keepsNext_of <| admin_keeps (fun _ => finish_keeps (relocked_keeps (keeps_ite_self (keeps_of_view h rfl) setSource_keeps))) h

theorem execPpsEdge_keepsNext {held : Bool} : keepsNext s0 (execPpsEdge held s) :=
  keepsNext_of <| keeps_ite (relocked_keeps (ppsEdge_keeps h)) h

theorem execPpsAbsent_keepsNext : keepsNext s0 (execPpsAbsent s) :=
  keepsNext_of <| keeps_ite (relocked_keeps (keeps_ite_self (keeps_of_view h rfl) setSource_keeps)) h

theorem execHostTimeTimeout_keepsNext : keepsNext s0 (execHostTimeTimeout s) := keepsNext_of <| keeps_ite (setSource_keeps h) h

theorem execRefclkAonLoss_keepsNext : keepsNext s0 (execRefclkAonLoss s) := keepsNext_of <| setSource_keeps (keeps_of_view h rfl)

theorem execRefclkAonReturn_keepsNext : keepsNext s0 (execRefclkAonReturn s) := keepsNext_of <| keeps_of_view h rfl

theorem execRefclkPcieLoss_keepsNext : keepsNext s0 (execRefclkPcieLoss s) :=
  keepsNext_of <| keeps_ite_self (keeps_of_view h rfl) hotReset_keeps

/-! ### Collections and their images -/

theorem execCollectionCreate_keepsNext : keepsNext s0 (execCollectionCreate cid s) := by
  refine keepsNext_of ?_
  refine onPart_keeps (fun p c => ?_) h
  dsimp only
  split
  · exact h
  · exact keeps_ite h (created_keeps (output_keeps (fillColl_keeps h)))

theorem execCollectionDrop_keepsNext : keepsNext s0 (execCollectionDrop cid s) := by
  refine keepsNext_of ?_
  refine onColl_keeps (fun p k c => keeps_ite h ?_) h
  extract_lets st u v w x
  have hu : keeps s0 u := keeps_modPart h fun _ => id
  have hv : keeps s0 v := by
    unfold v
    split
    · exact finish_keeps hu
    · exact keeps_foldl hu fun _ _ => drop_keeps
  have hw : keeps s0 w := modCollU_keeps hv
  exact keeps_ite (finish_keeps hw) (journalOne_keeps (settle_keeps (keeps_ite_self hw issued_keeps)))

theorem execCollectionImport_keepsNext : keepsNext s0 (execCollectionImport cid s) := by
  refine keepsNext_of ?_
  refine onPart_keeps (fun p c => ?_) h
  split
  · exact tearDown_keeps h
  dsimp only
  split
  · exact tearDown_keeps h
  split
  · exact tearDown_keeps h
  · refine keeps_ite (tearDown_keeps h) (keeps_ite (tearDown_keeps h) (keeps_ite h (keeps_ite (tearDown_keeps h) ?_)))
    exact modCollU_keeps (created_keeps (issued_keeps (keeps_modPart (fillImage_keeps h) fun _ => id)))

theorem execCollectionExport_keepsNext : keepsNext s0 (execCollectionExport cid s) := by
  refine keepsNext_of ?_
  refine onColl_keeps (fun p k c => keeps_ite (finish_keeps h) (unpoisoned_keeps ?_ h)) h
  extract_lets content seq inner u blob img v r w
  have hv : keeps s0 v := output_keeps (newKey_keeps (bump_keeps h))
  exact keeps_ite (keeps_modPart (emit_keeps (modCmd_keeps (settle_keeps hv) fun _ => id)) fun _ => id) (finish_keeps hv)

theorem execConsolidationTrigger_keepsNext {handle : Nat} : keepsNext s0 (execConsolidationTrigger part handle s) := by
  refine keepsNext_of ?_
  split
  · exact h
  · exact keeps_ite h (keeps_ite (passMake_keeps (beginPass_keeps h)) h)

theorem execConsolidationStep_keepsNext {handle : Nat} : keepsNext s0 (execConsolidationStep part handle s) := by
  refine keepsNext_of ?_
  refine settled_keeps ?_ h
  split
  · exact h
  split
  · exact h
  split
  · exact keeps_ite (passMake_keeps h) h
  · exact keeps_ite (drop_keeps h) (keeps_ite (runStep_keeps h) h)

theorem execCollectionConsolidate_keepsNext : keepsNext s0 (execCollectionConsolidate cid s) := by
  refine keepsNext_of ?_
  refine onColl_keeps (fun p k c => keeps_ite h (keeps_ite (finish_keeps h) ?_)) h
  split
  · exact keeps_ite (runStep_keeps h) h
  extract_lets alpha u
  have hu : keeps s0 u := beginPass_keeps h
  split
  · split
    · exact runStep_keeps hu
    · exact hu
  · exact hu

theorem execReclaimCheck_keepsNext : keepsNext s0 (execReclaimCheck part s) :=
  keepsNext_of <| settled_keeps (keeps_foldl h fun _ _ => reclaimEligible_keeps) h

theorem execDenseLoad_keepsNext : keepsNext s0 (execDenseLoad cid s) :=
  keepsNext_of <| onCmd_keeps (fun _ => onColl_keeps (fun _ _ _ => keeps_ite (finish_keeps (fillUse_keeps (modCollU_keeps h)))
    (finish_keeps (modCollU_keeps h))) h) h

/-! ### Queries and mutations -/

theorem execSearch_keepsNext : keepsNext s0 (execSearch cid s) := keepsNext_of <| queryRow_keeps h

theorem execSearchCompound_keepsNext : keepsNext s0 (execSearchCompound cid s) := keepsNext_of <| queryRow_keeps h

theorem execScan_keepsNext : keepsNext s0 (execScan cid s) := keepsNext_of <| queryRow_keeps h

theorem execExpansionStep_keepsNext : keepsNext s0 (execExpansionStep cid s) := by
  refine keepsNext_of ?_
  refine queryStep_keeps (fun p k c => ?_) h
  split
  · exact keeps_ite h (walkTurn_keeps h)
  · exact beginQuery_keeps h

theorem execRerankBatch_keepsNext : keepsNext s0 (execRerankBatch cid s) := by
  refine keepsNext_of ?_
  refine queryStep_keeps (fun p k c => ?_) h
  split
  · exact keeps_ite h (rankTurn_keeps h)
  · exact h

theorem execJoin_keepsNext : keepsNext s0 (execJoin cid s) := keepsNext_of <| queryStep_keeps (fun _ _ _ => joinTurn_keeps h) h

theorem execMemberNotReturnedByD_keepsNext : keepsNext s0 (execMemberNotReturnedByD cid s) := by
  refine keepsNext_of ?_
  refine queryStep_keeps (fun p k c => ?_) h
  split
  · exact keeps_ite h (joinTurn_keeps (modCmd_keeps h fun _ => id))
  · exact h

theorem execFetch_keepsNext : keepsNext s0 (execFetch cid s) := by
  refine keepsNext_of ?_
  refine onColl_keeps (fun p k c => ?_) h
  split
  · exact keeps_ite (fetchDone_keeps h) h
  · refine keeps_ite (tearDown_keeps h) (unpoisoned_keeps (keeps_ite ?_ (keeps_ite (fetchDone_keeps h) ?_)) h)
    · exact finish_keeps (modCmd_keeps h fun _ => id)
    · exact modCmd_keeps (keeps_foldl (newTag_keeps h) fun _ _ ha => sendRouted_keeps ha) fun _ => id

theorem execShadowScan_keepsNext {handle : Nat} : keepsNext s0 (execShadowScan part handle s) := by
  refine keepsNext_of ?_
  refine settled_keeps ?_ h
  split
  · exact h
  extract_lets qs
  split
  · exact h
  split
  · exact keeps_ite (shadowMake_keeps (ungate_keeps h)) h
  · exact keeps_ite h (keeps_foldl (keeps_ite_self h fun h => keeps_foldl h fun _ _ => shadowMake_keeps) fun _ _ => shadowOne_keeps)

theorem execInsert_keepsNext {commit : Bool} : keepsNext s0 (execInsert cid commit s) := keepsNext_of <| mutRow_keeps h

theorem execDelete_keepsNext {commit : Bool} : keepsNext s0 (execDelete cid commit s) := keepsNext_of <| mutRow_keeps h

theorem execUpsert_keepsNext {commit : Bool} : keepsNext s0 (execUpsert cid commit s) := keepsNext_of <| mutRow_keeps h

theorem execSetAttributes_keepsNext {commit : Bool} : keepsNext s0 (execSetAttributes cid commit s) := keepsNext_of <| mutRow_keeps h

theorem execCommitPhase_keepsNext : keepsNext s0 (execCommitPhase cid s) := by
  refine keepsNext_of ?_
  refine settled_keeps (onCmd_keeps (fun c => ?_) h) h
  split
  · exact h
  split
  · exact keeps_ite (drop_keeps h) h
  extract_lets own
  split
  · exact keeps_ite (mutCommitTurn_keeps h) h
  · exact mutCommitTurn_keeps h

theorem execMemberCommitReport_keepsNext {member stamp work : Nat} {outcomes : List Nat} :
    keepsNext s0 (execMemberCommitReport cid member stamp outcomes work s) :=
  keepsNext_of <| onCmd_keeps (fun _ => takeReport_keeps h) h

/-! ### Embedding tables -/

theorem execEmbLookup_keepsNext : keepsNext s0 (execEmbLookup cid s) := by
  refine keepsNext_of ?_
  refine onColl_keeps (fun p k c => ?_) h
  split
  · exact tearDown_keeps h
  · exact keeps_ite (lookupJoin_keeps h) h
  · exact keeps_ite (lookupMesh_keeps h) (lookupLocal_keeps h)

theorem execEmbUpdate_keepsNext {commit : Bool} : keepsNext s0 (execEmbUpdate cid commit s) := by
  refine keepsNext_of ?_
  refine onColl_keeps (fun p k c => ?_) h
  split
  · exact tearDown_keeps h
  extract_lets t
  have ht : keeps s0 t := keeps_ite h (keeps_ite (sendPairs_keeps h) (updateSum_keeps h))
  refine keeps_ite ?_ ht
  split
  · exact updateTurn_keeps ht
  · exact ht

theorem execCommitStep_keepsNext : keepsNext s0 (execCommitStep cid s) := by
  refine keepsNext_of ?_
  split
  · refine keeps_ite ?_ (onColl_keeps (fun _ _ _ => updateTurn_keeps h) h)
    split
    · exact settled_keeps (updateTurn_keeps h) h
    · exact h
  · exact h

theorem execHotsetLoad_keepsNext : keepsNext s0 (execHotsetLoad cid s) :=
  keepsNext_of <| onColl_keeps (fun _ _ _ => keeps_ite (hotRows_keeps h) (hotEntrySet_keeps h)) h

theorem execHotsetRefresh_keepsNext : keepsNext s0 (execHotsetRefresh part s) := by
  refine keepsNext_of ?_
  refine settled_keeps (keeps_ite h ?_) h
  exact keeps_foldl (keeps_modPart (keeps_foldl (ungate_keeps h) fun _ _ => touch_keeps) fun _ => id) fun _ _ => placeHot_keeps

theorem execShardMigrate_keepsNext : keepsNext s0 (execShardMigrate cid s) := by
  refine keepsNext_of ?_
  refine onColl_keeps (fun p k c => keeps_ite (shardEnd_keeps h) (keeps_ite (tearDown_keeps h) ?_)) h
  extract_lets m u
  have hu : keeps s0 u := modCmd_keeps (keeps_ite_self h newTag_keeps) fun _ => id
  exact keeps_ite (shardEnd_keeps (shardGo_keeps hu)) (toDevice_keeps hu)

theorem execEndMsg_keepsNext {handle member step participants incarnation : Nat} {forwardedBlock : Option Nat} {param : Bytes} :
    keepsNext s0 (execEndMsg part handle member step participants incarnation forwardedBlock param s) :=
  keepsNext_of <| onTable_keeps (fun _ => takeEnd_keeps h) h

theorem execStepReport_keepsNext {member stamp rows skipped : Nat} {applied : Bool} :
    keepsNext s0 (execStepReport cid member applied stamp rows skipped s) := keepsNext_of <| takeStepReport_keeps h

theorem execStepTimeout_keepsNext {handle step : Nat} : keepsNext s0 (execStepTimeout part handle step s) := by
  refine keepsNext_of ?_
  refine onTable_keeps (fun k => ?_) h
  split
  · exact h
  · exact keeps_ite (tryStep_keeps h) (keeps_ite (abandonStep_keeps h) h)

theorem execLoadWindow_keepsNext {handle : Nat} : keepsNext s0 (execLoadWindow part handle s) :=
  keepsNext_of <| onTable_keeps (fun _ => keeps_ite h (modTm_keeps h)) h

theorem execMigrationTest_keepsNext {handle : Nat} : keepsNext s0 (execMigrationTest part handle s) := by
  refine keepsNext_of ?_
  refine onTable_keeps (fun k => keeps_ite h ?_) h
  dsimp only
  split
  · exact keeps_ite (startHandoff_keeps h) h
  · exact h

theorem execHandoffCommit_keepsNext {handle block : Nat} : keepsNext s0 (execHandoffCommit part handle block s) :=
  keepsNext_of <| onTable_keeps (fun _ => handoffDone_keeps h) h

theorem execDirectoryChange_keepsNext {handle block owner epoch sender : Nat} :
    keepsNext s0 (execDirectoryChange part handle block owner epoch sender s) :=
  keepsNext_of <| onTable_keeps (fun _ => takeDirectory_keeps h) h

theorem execForwardDone_keepsNext {handle block : Nat} : keepsNext s0 (execForwardDone part handle block s) := by
  refine keepsNext_of ?_
  refine onTable_keeps (fun k => ?_) h
  split
  · exact keeps_ite (takeForwardDone_keeps h) h
  · exact h

/-! ### Regions of partition memory and scratchpad -/

theorem execRegionWrite_keepsNext : keepsNext s0 (execRegionWrite cid s) := by
  refine keepsNext_of ?_
  refine onPart_keeps (fun p c => ?_) h
  extract_lets bs bad u t
  have hu : keeps s0 u := keeps_ite_else h bump_keeps
  exact finish_keeps (writeStagedBad_keeps (keeps_ite (wrMem_keeps hu) (wrScratch_keeps hu)))

theorem execRegionRead_keepsNext : keepsNext s0 (execRegionRead cid s) := by
  refine keepsNext_of ?_
  refine onPart_keeps (fun p c => keeps_ite (unpoisoned_keeps (finish_keeps (output_keeps h)) h) ?_) h
  split
  · exact tearDown_keeps h
  · exact finish_keeps (output_keeps h)

/-! ### Admission, contexts and streams -/

theorem execFence_keepsNext : keepsNext s0 (execFence cid s) := by
  refine keepsNext_of ?_
  refine onCmd_keeps (fun c => ?_) h
  split
  · exact fail_keeps h
  · exact keeps_ite (finish_keeps h) h

theorem execFenceRelease_keepsNext : keepsNext s0 (execFenceRelease cid s) :=
  keepsNext_of <| onCmd_keeps (fun _ => keeps_ite (finish_keeps h) h) h

theorem execHeldTooLong_keepsNext : keepsNext s0 (execHeldTooLong cid s) := keepsNext_of <| onCmd_keeps (fun _ => fail_keeps h) h

theorem execSchedulingStep_keepsNext : keepsNext s0 (execSchedulingStep part s) := by
  refine keepsNext_of ?_
  extract_lets u v w
  have hu : keeps s0 u := settleBypasses_keeps (freeLeaving_keeps h)
  exact keeps_ite hu (keeps_ite (keeps_foldl hu fun _ _ => tearDown_keeps)
    (keeps_ite hu (noteHead_keeps (admitAll_keeps (promote_keeps hu)))))

theorem execNoContextByDeadline_keepsNext : keepsNext s0 (execNoContextByDeadline cid s) := by
  refine keepsNext_of ?_
  refine onCmd_keeps (fun c => ?_) h
  split
  · exact tearDown_keeps h
  · exact tearDown_keeps h

theorem execLockNotByDeadline_keepsNext : keepsNext s0 (execLockNotByDeadline cid s) :=
  keepsNext_of <| onCmd_keeps (fun _ => tearDown_keeps h) h

theorem execPreemption_keepsNext : keepsNext s0 (execPreemption part s) := by
  refine keepsNext_of ?_
  split
  · exact h
  refine keeps_ite h ?_
  extract_lets ok
  split
  · exact h
  · exact keeps_modPart (killRerun_keeps h) fun _ => id

theorem execContextSwitch_keepsNext {cause : Nat} : keepsNext s0 (execContextSwitch core cause s) := by
  refine keepsNext_of ?_
  refine keeps_ite h ?_
  extract_lets put
  split
  · exact keeps_of_view h rfl
  · exact keeps_of_view h rfl

theorem execTransferIssue_keepsNext {fault : Bool} : keepsNext s0 (execTransferIssue core fault s) := by
  refine keepsNext_of ?_
  split
  · exact keeps_ite (ristrettoFault_keeps h)
      (modCore_keeps (bump_keeps (landElem_keeps (keeps_of_view (keeps_ite_self h translate_keeps) rfl))))
  split
  · exact h
  · exact keeps_ite (haltStream_keeps (modCore_keeps h)) (issueStream_keeps (modCore_keeps h))

theorem execTransferLanded_keepsNext {elems : List Nat} : keepsNext s0 (execTransferLanded core stream elems s) := by
  refine keepsNext_of ?_
  split
  · exact h
  · exact keeps_ite h (setCtx_keeps (elemsDone_keeps (bump_keeps (keeps_foldl h fun _ _ => landElem_keeps))))

theorem execPageRequestResponse_keepsNext {code : Nat} : keepsNext s0 (execPageRequestResponse core stream code s) := by
  refine keepsNext_of ?_
  split
  · exact h
  · extract_lets u
    have ha : keeps s0 u := pageAnswered_keeps h
    refine askWaiting_keeps (keeps_ite (keeps_of_view ha rfl) (keeps_ite ?_ ?_))
    · exact setCtx_keeps (translate_keeps (modStream_keeps ha))
    · exact tearDown_keeps (keeps_of_view (logStream_keeps ha) rfl)

theorem execCarafeSwap_keepsNext : keepsNext s0 (execCarafeSwap core s) := keepsNext_of <| keeps_ite (modCore_keeps h) h

theorem execPersistentStreamTimeout_keepsNext : keepsNext s0 (execPersistentStreamTimeout core stream s) := keepsNext_of <| keeps_of_view h rfl

theorem execAtsInvalidation_keepsNext {page pages : Nat} : keepsNext s0 (execAtsInvalidation fn page pages s) :=
  keepsNext_of <| emit_keeps (keeps_of_view h rfl)

/-! ### HBM, SLM and the traffic generators -/

theorem execUncorrectableBurst_keepsNext {channel line burst : Nat} : keepsNext s0 (execUncorrectableBurst channel line burst s) :=
  keepsNext_of <| keeps_ite h (badBurst_keeps h)

theorem execSlmEccError_keepsNext {slice line : Nat} {scratch : Bool} : keepsNext s0 (execSlmEccError slice scratch line s) := by
  refine keepsNext_of ?_
  extract_lets own seq marked u recent v cause w
  clear_value own
  have hmarked : keeps s0 marked := by
    unfold marked
    split
    · exact keeps_modPart h fun _ => id
    · exact h
  have hu : keeps s0 u := keeps_ite (log_keeps hmarked) (refill_keeps h)
  have hv : keeps s0 v := modCluster_keeps hu
  exact keeps_ite h (keeps_ite hv (bypass_keeps (modCluster_keeps (keeps_ite_else hv log_keeps))))

theorem execPatrolScrub_keepsNext {corrected : List (Nat × List Nat)} {uncorrectable : List (Nat × Nat)} :
    keepsNext s0 (execPatrolScrub corrected uncorrectable s) := by
  refine keepsNext_of ?_
  extract_lets row u v
  have hv : keeps s0 v := keeps_foldl (keeps_foldl h fun _ _ => correctBurst_keeps) fun _ _ => badBurst_keeps
  exact keeps_ite h (keeps_of_view hv rfl)

theorem execAddressParityError_keepsNext {channel : Nat} {cleared : Bool} :
    keepsNext s0 (execAddressParityError channel cleared s) :=
  keepsNext_of <| keeps_ite h (keeps_ite_self (modChan_keeps h) fenceChannel_keeps)

theorem execStackTemperatureRead_keepsNext {temps : List Nat} : keepsNext s0 (execStackTemperatureRead temps s) :=
  keepsNext_of <| keeps_foldl h fun _ _ => readStack_keeps

theorem execThrottleLevelFall_keepsNext {stack : Nat} : keepsNext s0 (execThrottleLevelFall stack s) := by
  refine keepsNext_of ?_
  extract_lets x
  split
  · exact h
  · exact keeps_ite (keeps_ite_self (modStack_keeps h) fun ht => stackServes_keeps (logHbm_keeps ht)) h

theorem execMapoutMark_keepsNext : keepsNext s0 (execMapoutMark value s) := keepsNext_of <| keeps_ite (mapoutCtrl_keeps h) h

theorem execMapoutWithdraw_keepsNext : keepsNext s0 (execMapoutWithdraw value s) := keepsNext_of <| keeps_ite (mapoutCtrl_keeps h) h

theorem execMapoutRestart_keepsNext : keepsNext s0 (execMapoutRestart value s) := keepsNext_of <| keeps_ite (mapoutCtrl_keeps h) h

theorem execTgDone_keepsNext {channel errors firstErr corrected : Nat} {lanes : List Nat} :
    keepsNext s0 (execTgDone channel errors firstErr lanes corrected s) :=
  keepsNext_of <| keeps_ite h (modTg_keeps h)

/-! ### The host interface and its resets -/

theorem execDpDone_keepsNext {deadLanes : List (Nat × Nat)} {badChannels badClusters badCores : List Nat} :
    keepsNext s0 (execDpDone deadLanes badChannels badClusters badCores s) := by
  refine keepsNext_of ?_
  extract_lets restart activated wake u v w
  have hu : keeps s0 u := pathFail_keeps (pathReady_keeps (pathInit_keeps h))
  have hv : keeps s0 v := openDebug_keeps (keeps_ite_self hu fun hu => raiseAll_keeps (rearm_keeps hu))
  exact keeps_ite h (releaseHeld_keeps (wakeDone_keeps (keeps_ite_self hv fun hv => logFirmware_keeps (raise_keeps hv))))

theorem execHifEventMask_keepsNext : keepsNext s0 (execHifEventMask value s) := keepsNext_of <| setEventMask_keeps h

theorem execVfEventMask_keepsNext : keepsNext s0 (execVfEventMask part value s) := keepsNext_of <| keeps_ite (setEventMask_keeps h) h

theorem execRegisterWrite_keepsNext {place : BarPlace} {size : Nat} {value : Word64} {tbit : Bool} :
    keepsNext s0 (execRegisterWrite fn place size value tbit s) := by
  refine keepsNext_of ?_
  split
  · exact keeps_ite (write48_keeps (fun _ _ _ => writeMsix_keeps) h) h
  · exact keeps_ite h (keeps_ite (write48_keeps (fun _ _ _ => write32_keeps) h) (logHost_keeps h))

theorem execBar2Read_keepsNext {addr len : Nat} {tbit : Bool} : keepsNext s0 (execBar2Read fn addr len tbit s) := by
  refine keepsNext_of ?_
  split
  · exact emit_keeps h
  · exact keeps_ite (memRead_keeps h) (keeps_ite (bump_keeps (emit_keeps h)) (emit_keeps h))

theorem execBar2Write_keepsNext {addr : Nat} {bytes : Bytes} {tbit : Bool} : keepsNext s0 (execBar2Write fn addr bytes tbit s) := by
  refine keepsNext_of ?_
  split
  · exact h
  · exact keeps_ite (wrScratch_keeps h) (wrMem_keeps h)

theorem execVfEnable_keepsNext {numVfs : Nat} {enable : Bool} : keepsNext s0 (execVfEnable numVfs enable s) :=
  keepsNext_of <| keeps_ite (modFn_keeps h) (keeps_ite h (keeps_ite (log_keeps (modFn_keeps h)) (keeps_ite_self (modFn_keeps h) modFn_keeps)))

theorem execConfigurationWrite_keepsNext {offset : Nat} : keepsNext s0 (execConfigurationWrite fn offset value s) :=
  keepsNext_of <| keeps_ite h (keeps_ite (emit_keeps h)
    (keeps_ite_else (cfgEffect_keeps (modFn_keeps h)) fun ht => keeps_foldl ht fun _ _ => tdiError_keeps))

theorem execPerstAssert_keepsNext : keepsNext s0 (execPerstAssert s) :=
  keepsNext_of <| keeps_ite (keeps_of_view h rfl) (keeps_ite (keeps_of_view h rfl) (perstOn_keeps h))

theorem execPerstDeassert_keepsNext : keepsNext s0 (execPerstDeassert s) :=
  keepsNext_of <| keeps_ite h (keeps_ite (keeps_of_view h rfl) (keeps_ite (keeps_of_view h rfl) (perstOff_keeps h)))

theorem execHotReset_keepsNext : keepsNext s0 (execHotReset s) := keepsNext_of <| keeps_ite (hotReset_keeps h) h

theorem execLinkDown_keepsNext : keepsNext s0 (execLinkDown s) := keepsNext_of <| keeps_ite (hotReset_keeps h) h

theorem execLinkUp_keepsNext {width speed : Nat} {flit : Bool} : keepsNext s0 (execLinkUp width speed flit s) :=
  keepsNext_of <| keeps_ite h (keeps_of_view h rfl)

theorem execPfFlr_keepsNext : keepsNext s0 (execPfFlr s) := keepsNext_of <| pfReset_keeps (cause_keeps h)

theorem execVfFlr_keepsNext : keepsNext s0 (execVfFlr part s) := keepsNext_of <| vfReset_keeps h

theorem execD3hotEntry_keepsNext : keepsNext s0 (execD3hotEntry s) :=
  keepsNext_of <| keeps_ite h (modFn_keeps (afterKill_keeps (endWhere_keeps h)))

theorem execD0Transition_keepsNext : keepsNext s0 (execD0Transition s) := keepsNext_of <| keeps_ite (pfReset_keeps (cause_keeps h)) h

/-! ### Failures of cores, clusters and Sage -/

theorem execCsqHeartbeatLost_keepsNext : keepsNext s0 (execCsqHeartbeatLost core s) := keepsNext_of <| coreFail_keeps h

theorem execIllegalWorkEntry_keepsNext : keepsNext s0 (execIllegalWorkEntry core s) := keepsNext_of <| coreFail_keeps h

theorem execSpareActivated_keepsNext {passed : Bool} : keepsNext s0 (execSpareActivated cluster passed s) := by
  refine keepsNext_of ?_
  split
  · extract_lets own u v
    have hu : keeps s0 u := modCluster_keeps h
    have hv : keeps s0 v := logCore_keeps (modCore_keeps hu)
    exact keeps_ite (capacity_keeps (logCore_keeps (modCore_keeps hu))) (keeps_ite (bypass_keeps hv) (capacity_keeps hv))
  · exact h

theorem execCsvHeartbeatLost_keepsNext : keepsNext s0 (execCsvHeartbeatLost cluster s) := keepsNext_of <| keeps_ite (bypass_keeps h) h

theorem execCsvError_keepsNext : keepsNext s0 (execCsvError cluster s) := by
  refine keepsNext_of ?_
  split
  · exact bypass_keeps h
  · exact h

theorem execBypassTimeout_keepsNext : keepsNext s0 (execBypassTimeout cluster s) := by
  refine keepsNext_of ?_
  split
  · exact keeps_ite (startRestart_keeps h) h
  · exact h

theorem execSageEccError_keepsNext : keepsNext s0 (execSageEccError s) := keepsNext_of <| keeps_ite (startRestart_keeps h) h

theorem execWatchdog_keepsNext : keepsNext s0 (execWatchdog s) := by
  refine keepsNext_of ?_
  extract_lets l u v
  have hu : keeps s0 u := keeps_ite (cause_keeps h) (startRestart_keeps (cause_keeps h))
  exact keeps_ite h (enterBoot_keeps (keeps_of_view hu rfl))

theorem execEngineFault_keepsNext {engine : Nat} {cids : List Nat} : keepsNext s0 (execEngineFault core engine cids s) :=
  keepsNext_of <| keeps_ite h (keeps_ite_self (modCore_keeps (keeps_foldl (logCore_keeps h) fun _ _ => fault_keeps)) coreFail_keeps)

theorem execCarafeEccError_keepsNext {slot : Option Nat} {cids : List Nat} : keepsNext s0 (execCarafeEccError core slot cids s) :=
  keepsNext_of <| keeps_foldl h fun _ _ => fault_keeps

theorem execUncorrectableFlit_keepsNext {cid : Option Nat} : keepsNext s0 (execUncorrectableFlit cluster cid s) := by
  refine keepsNext_of ?_
  extract_lets u l v
  have hu : keeps s0 u := by
    unfold u
    split
    · exact fault_keeps h
    · exact h
  exact keeps_ite h (keeps_ite_self (modCluster_keeps hu) bypass_keeps)

theorem execHostAccessFailure_keepsNext {addr : Nat} : keepsNext s0 (execHostAccessFailure cid addr s) := by
  refine keepsNext_of ?_
  split
  · exact h
  extract_lets t
  have ht : keeps s0 t := aerError_keeps h
  refine keeps_ite h ?_
  split
  · exact keeps_ite (fail_keeps ht) h
  · exact keeps_ite h (fault_keeps ht)
  · exact keeps_ite h (lateFailure_keeps ht)
  · exact keeps_ite h (lateFailure_keeps ht)
  · exact keeps_ite (modCmd_keeps ht fun _ => id) (keeps_ite h (lateFailure_keeps ht))
  · exact h

theorem execStandInDrainTimeout_keepsNext : keepsNext s0 (execStandInDrainTimeout cluster s) := by
  refine keepsNext_of ?_
  extract_lets c
  split
  · exact h
  · exact keeps_ite h (keeps_ite (rerunOn_keeps h) (keeps_ite (rerunOn_keeps h) h))

/-! ### Mesh links -/

theorem execPortEnable_keepsNext : keepsNext s0 (execPortEnable port value s) := keepsNext_of <| keeps_ite h (portCtrl_keeps h)

theorem execRetrain_keepsNext : keepsNext s0 (execRetrain port value s) := keepsNext_of <| keeps_ite h (portCtrl_keeps h)

theorem execPortTrainingComplete_keepsNext {fourLanes : Bool} : keepsNext s0 (execPortTrainingComplete port fourLanes s) :=
  keepsNext_of <| keeps_ite h (emit_keeps (setPort_keeps (modPort_keeps (keeps_of_view h rfl))))

theorem execKey_keepsNext {peerId peerPort debugState : Nat} {tag : Bytes} {chainOk sigOk : Bool} :
    keepsNext s0 (execKey port peerId peerPort tag debugState chainOk sigOk s) :=
  keepsNext_of <| keeps_ite
    (keeps_ite (movePort_keeps h) (keeps_ite (keyFailed_keeps h)
      (keeps_ite (keyFailed_keeps (logSecurity_keeps h)) (movePort_keeps (modPort_keeps h)))))
    (keeps_ite (keeps_ite (keyFailed_keeps h) (modPort_keeps h)) h)

theorem execRekey_keepsNext : keepsNext s0 (execRekey port s) := keepsNext_of <| keeps_ite (emit_keeps (modPort_keeps h)) h

theorem execRekeyTimeout_keepsNext : keepsNext s0 (execRekeyTimeout port s) := by
  refine keepsNext_of ?_
  split
  · exact keeps_ite (keyFailed_keeps h) h
  · exact h

theorem execFlitReceived_keepsNext {fec seq ack creditVc credits : Nat} {crcOk tagOk nak creditLink : Bool} :
    keepsNext s0 (execFlitReceived port fec seq crcOk tagOk nak ack creditLink creditVc credits s) :=
  keepsNext_of <| keeps_ite h (keeps_ite (goodFlit_keeps (modPort_keeps h)) (emit_keeps (modPort_keeps (modPort_keeps h))))

theorem execLossOfLock_keepsNext {lanes : BitVec 4} : keepsNext s0 (execLossOfLock port lanes s) := keepsNext_of <| lanesFail_keeps h

theorem execFecErrorThreshold_keepsNext {lanes : BitVec 4} : keepsNext s0 (execFecErrorThreshold port lanes s) :=
  keepsNext_of <| keeps_ite h (lanesFail_keeps (modPort_keeps h))

theorem execReplayThreshold_keepsNext {keepUpper : Bool} : keepsNext s0 (execReplayThreshold port keepUpper s) := by
  refine keepsNext_of ?_
  split
  · exact degrade_keeps h
  · exact movePort_keeps h
  · exact h

theorem execFlitTimeout_keepsNext : keepsNext s0 (execFlitTimeout port s) := keepsNext_of <| keeps_ite (movePort_keeps h) h

theorem execPortFrame_keepsNext {upperPair : Bool} : keepsNext s0 (execPortFrame port upperPair s) :=
  keepsNext_of <| keeps_ite h (movePort_keeps (modPort_keeps h))

theorem execPortRetry_keepsNext : keepsNext s0 (execPortRetry port s) := keepsNext_of <| keeps_ite (setPort_keeps h) h

theorem execRouteReturn_keepsNext : keepsNext s0 (execRouteReturn port s) := keepsNext_of <| keeps_ite (rerouted_keeps (modPort_keeps h)) h

theorem execRefclkClLoss_keepsNext : keepsNext s0 (execRefclkClLoss s) :=
  keepsNext_of <| keeps_foldl (keeps_of_view h rfl) fun _ _ => movePort_keeps

theorem execResendTimeout_keepsNext : keepsNext s0 (execResendTimeout dest s) :=
  keepsNext_of <| keeps_ite h (keeps_ite (peerLost_keeps h) (resendTo_keeps h))

theorem execUnreachableProbe_keepsNext : keepsNext s0 (execUnreachableProbe dest s) := keepsNext_of <| keeps_ite (probe_keeps h) h

theorem execTimeExchangeTick_keepsNext : keepsNext s0 (execTimeExchangeTick s) := by
  refine keepsNext_of ?_
  refine keeps_ite h (keeps_foldl (keeps_foldl (keeps_foldl h fun _ _ => sendLink_keeps) fun _ _ => probe_keeps) fun _ p ha => ?_)
  exact keeps_foldl ha fun _ _ => sendLoad_keeps

theorem execTime_keepsNext {t1 t2 t3 t4 a : Int} {refId hops est : Nat} {locked : Bool} :
    keepsNext s0 (execTime port t1 t2 t3 t4 a refId locked hops est s) :=
  keepsNext_of <| keeps_ite h (keeps_ite_else (chooseRef_keeps (modPort_keeps h)) meshServo_keeps)

/-! ### Mesh frames -/

section Frames

variable {hdr : FrameHdr}

theorem execData_keepsNext {payload : Bytes} : keepsNext s0 (execData port hdr payload s) := keepsNext_of <| receive_keeps h

theorem execReadReq_keepsNext {length : Nat} : keepsNext s0 (execReadReq port hdr length s) := keepsNext_of <| receive_keeps h

theorem execCmd_keepsNext {body : CmdBody} : keepsNext s0 (execCmd port hdr body s) := keepsNext_of <| receive_keeps h

theorem execResult_keepsNext {body : ResultBody} : keepsNext s0 (execResult port hdr body s) := keepsNext_of <| receive_keeps h

theorem execChain_keepsNext {partials : List Nat} : keepsNext s0 (execChain port hdr partials s) := keepsNext_of <| receive_keeps h

theorem execArrive_keepsNext : keepsNext s0 (execArrive port hdr s) := keepsNext_of <| receive_keeps h

theorem execRelease_keepsNext : keepsNext s0 (execRelease port hdr s) := keepsNext_of <| receive_keeps h

theorem execBarrierTimeout_keepsNext {tag : Nat} : keepsNext s0 (execBarrierTimeout tag s) := by
  refine keepsNext_of ?_
  split
  · exact h
  · exact keeps_ite h (keeps_of_view h rfl)

theorem execLoadFrame_keepsNext {handle member total freeSlots : Nat} :
    keepsNext s0 (execLoadFrame port hdr handle member total freeSlots s) := keepsNext_of <| receive_keeps h

theorem execProbe_keepsNext {answer : Bool} : keepsNext s0 (execProbe port hdr answer s) :=
  keepsNext_of <| keeps_ite h (keeps_ite (forward_keeps h) (keeps_ite (sendRouted_keeps h) (modPeer_keeps h)))

theorem execAck_keepsNext : keepsNext s0 (execAck port hdr s) := keepsNext_of <| keeps_ite h (keeps_ite (forward_keeps h) (modPeer_keeps h))

theorem execNack_keepsNext {reason : Nat} : keepsNext s0 (execNack port hdr reason s) := by
  refine keepsNext_of ?_
  refine keeps_ite h (keeps_ite (forward_keeps h) (keeps_ite ?_ ?_))
  · split
    · exact h
    · exact keeps_foldl (modPeer_keeps h) fun _ _ => cmdLoses_keeps
  · extract_lets dev
    split
    · exact peerLost_keeps h
    · exact keeps_ite (peerLost_keeps (modPeer_keeps h)) (resendTo_keeps (modPeer_keeps h))

end Frames

/-! ### Supplies, clocks and temperature -/

theorem execPgAssert_keepsNext {group : Nat} : keepsNext s0 (execPgAssert group s) := by
  refine keepsNext_of ?_
  extract_lets _ t
  have ht : keeps s0 t := keeps_withPkg h ⟨id, len_set⟩
  refine keeps_ite h ?_
  split
  · exact enGroup_keeps ht
  · exact tryStart_keeps ht
  · exact enGroup_keeps ht
  · exact enGroup_keeps ht
  · exact keeps_of_view ht rfl

theorem execPgLoss_keepsNext {group : Nat} : keepsNext s0 (execPgLoss group s) :=
  keepsNext_of <| keeps_ite h (loseRails_keeps (keeps_ite_self h hotReset_keeps))

theorem execSequenceFailure_keepsNext {group : Nat} : keepsNext s0 (execSequenceFailure group s) := by
  refine keepsNext_of ?_
  extract_lets low u n _ v
  have hv : keeps s0 v := keeps_of_view (dropGroups_keeps h) rfl
  exact keeps_ite h (keeps_ite hv (setFatal_keeps (keeps_of_view hv rfl)))

theorem execRailResequence_keepsNext : keepsNext s0 (execRailResequence s) := by
  refine keepsNext_of ?_
  split
  · exact h
  · extract_lets wait _ t
    have ht : keeps s0 t := keeps_of_view h rfl
    exact keeps_ite h (keeps_ite (enGroup_keeps ht) (keeps_ite_self ht enGroup_keeps))

theorem execHotspotThrottle_keepsNext {quadrant temp : Nat} : keepsNext s0 (execHotspotThrottle quadrant temp s) :=
  keepsNext_of <| keeps_ite h (logSupply_keeps (keeps_of_view (setHotspot_keeps (q := quadrant) (temp := temp) h) rfl))

theorem execHotspotThrottleEnd_keepsNext {quadrant temp : Nat} : keepsNext s0 (execHotspotThrottleEnd quadrant temp s) :=
  keepsNext_of <| keeps_ite h (keeps_of_view (setHotspot_keeps (q := quadrant) (temp := temp) h) rfl)

theorem execThermalTrip_keepsNext {quadrant temp : Nat} : keepsNext s0 (execThermalTrip quadrant temp s) :=
  keepsNext_of <| keeps_ite h (loseRails_keeps (keeps_of_view (setHotspot_keeps (q := quadrant) (temp := temp) h) rfl))

theorem execThermTripRelease_keepsNext {temps : List Nat} : keepsNext s0 (execThermTripRelease temps s) :=
  keepsNext_of <| keeps_ite h (keeps_of_view h rfl)

theorem execSensorUpdate_keepsNext {power vaonA vaonB : Nat} {hotspots : List Nat} :
    keepsNext s0 (execSensorUpdate power hotspots vaonA vaonB s) :=
  keepsNext_of <| sensorEvent_keeps (sensorEvent_keeps (keeps_foldl (sensorEvent_keeps (keeps_of_view h rfl)) fun _ _ => sensorEvent_keeps))

theorem execVaonSwitchToB_keepsNext : keepsNext s0 (execVaonSwitchToB s) :=
  keepsNext_of <| keeps_ite h (logSupply_keeps (keeps_of_view h rfl))

theorem execVaonReturnToA_keepsNext : keepsNext s0 (execVaonReturnToA s) :=
  keepsNext_of <| keeps_ite h (logSupply_keeps (keeps_of_view h rfl))

theorem execVaonLoss_keepsNext : keepsNext s0 (execVaonLoss s) := keepsNext_of <| keeps_ite (vaonLost_keeps h) h

theorem execVaonPowerOn_keepsNext {feedA feedB readable digestsOk : Bool} :
    keepsNext s0 (execVaonPowerOn feedA feedB readable digestsOk s) :=
  keepsNext_of <| keeps_ite h (enterBoot_keeps (enGroup_keeps (keeps_of_view h rfl)))

/-! ### Every command -/

theorem exec_keepsNext : ∀ i : Instr, keepsNext s0 (exec i s)
  | .identify .. => execIdentify_keepsNext h
  | .createQueuePair .. => execCreateQueuePair_keepsNext h
  | .deleteQueuePair .. => execDeleteQueuePair_keepsNext h
  | .deleteQueuePairDone .. => execDeleteQueuePairDone_keepsNext h
  | .getLog .. => execGetLog_keepsNext h
  | .setFeature .. => execSetFeature_keepsNext h
  | .getFeature .. => execGetFeature_keepsNext h
  | .modeSelect .. => execModeSelect_keepsNext h
  | .modeLock .. => execModeLock_keepsNext h
  | .journalFormat .. => execJournalFormat_keepsNext h
  | .journalReplay .. => execJournalReplay_keepsNext h
  | .journalDisable .. => execJournalDisable_keepsNext h
  | .searchReportClear .. => execSearchReportClear_keepsNext h
  | .scratchHostMib .. => execScratchHostMib_keepsNext h
  | .meshDomain .. => execMeshDomain_keepsNext h
  | .selfTestStart .. => execSelfTestStart_keepsNext h
  | .selfTestStop .. => execSelfTestStop_keepsNext h
  | .selfTestComplete .. => execSelfTestComplete_keepsNext h
  | .testStepResume .. => execTestStepResume_keepsNext h
  | .testNotCompleted .. => execTestNotCompleted_keepsNext h
  | .setPowerState .. => execSetPowerState_keepsNext h
  | .powerStateEntry => execPowerStateEntry_keepsNext h
  | .powerEntryDeferred => execPowerEntryDeferred_keepsNext h
  | .ps2Reentry => execPs2Reentry_keepsNext h
  | .clusterGate .. => execClusterGate_keepsNext h
  | .restartQueueResume .. => execRestartQueueResume_keepsNext h
  | .restartQueueFlush .. => execRestartQueueFlush_keepsNext h
  | .restartWait .. => execRestartWait_keepsNext h
  | .automaticRestart .. => execAutomaticRestart_keepsNext h
  | .partitionConfigureSet .. => execPartitionConfigureSet_keepsNext h
  | .partitionConfigureClear .. => execPartitionConfigureClear_keepsNext h
  | .partitionConfigureAdjust .. => execPartitionConfigureAdjust_keepsNext h
  | .firmwareLoad .. => execFirmwareLoad_keepsNext h
  | .firmwareActivateLive .. => execFirmwareActivateLive_keepsNext h
  | .firmwareActivateRestart .. => execFirmwareActivateRestart_keepsNext h
  | .securitySend .. => execSecuritySend_keepsNext h
  | .securityReceive .. => execSecurityReceive_keepsNext h
  | .bindingCert .. => execBindingCert_keepsNext h
  | .declareSet .. => execDeclareSet_keepsNext h
  | .deviceSet .. => execDeviceSet_keepsNext h
  | .peerPolicy .. => execPeerPolicy_keepsNext h
  | .fuseOwnerKey .. => execFuseOwnerKey_keepsNext h
  | .fuseDebugClose .. => execFuseDebugClose_keepsNext h
  | .commitSvn .. => execCommitSvn_keepsNext h
  | .timeConfigureStep .. => execTimeConfigureStep_keepsNext h
  | .timeConfigurePps .. => execTimeConfigurePps_keepsNext h
  | .collectionCreate .. => execCollectionCreate_keepsNext h
  | .collectionDrop .. => execCollectionDrop_keepsNext h
  | .collectionImport .. => execCollectionImport_keepsNext h
  | .collectionExport .. => execCollectionExport_keepsNext h
  | .collectionConsolidate .. => execCollectionConsolidate_keepsNext h
  | .search .. => execSearch_keepsNext h
  | .searchCompound .. => execSearchCompound_keepsNext h
  | .scan .. => execScan_keepsNext h
  | .fetch .. => execFetch_keepsNext h
  | .insert .. => execInsert_keepsNext h
  | .delete .. => execDelete_keepsNext h
  | .upsert .. => execUpsert_keepsNext h
  | .setAttributes .. => execSetAttributes_keepsNext h
  | .embLookup .. => execEmbLookup_keepsNext h
  | .embUpdate .. => execEmbUpdate_keepsNext h
  | .hotsetLoad .. => execHotsetLoad_keepsNext h
  | .shardMigrate .. => execShardMigrate_keepsNext h
  | .denseLoad .. => execDenseLoad_keepsNext h
  | .regionWrite .. => execRegionWrite_keepsNext h
  | .regionRead .. => execRegionRead_keepsNext h
  | .fence .. => execFence_keepsNext h
  | .fenceRelease .. => execFenceRelease_keepsNext h
  | .sqTailDoorbell .. => keepsNext_of_after (d := s) ⟨_, rfl⟩ (execSqTailDoorbell_keeps h)
  | .cqHeadDoorbell .. => keepsNext_of_after (d := s) ⟨_, rfl⟩ (execCqHeadDoorbell_keeps h)
  | .sqEntryFetch .. => execSqEntryFetch_keepsNext h
  | .sqEntryFetchFailed => execSqEntryFetchFailed_keepsNext h
  | .completionPosted .. => keepsNext_of_after (d := s) ⟨_, rfl⟩ (execCompletionPosted_keeps h)
  | .completionWriteFailed .. => execCompletionWriteFailed_keepsNext h
  | .aggTime .. => execAggTime_keepsNext h
  | .heldTooLong .. => execHeldTooLong_keepsNext h
  | .qmEnable .. => keepsNext_of_after (d := s) ⟨_, rfl⟩ (execQmEnable_keeps h)
  | .qmDisable .. => keepsNext_of_after (d := s) ⟨_, rfl⟩ (execQmDisable_keeps h)
  | .schedulingStep .. => execSchedulingStep_keepsNext h
  | .noContextByDeadline .. => execNoContextByDeadline_keepsNext h
  | .lockNotByDeadline .. => execLockNotByDeadline_keepsNext h
  | .preemption .. => execPreemption_keepsNext h
  | .contextSwitch .. => execContextSwitch_keepsNext h
  | .transferIssue .. => execTransferIssue_keepsNext h
  | .transferLanded .. => execTransferLanded_keepsNext h
  | .pageRequestResponse .. => execPageRequestResponse_keepsNext h
  | .carafeSwap .. => execCarafeSwap_keepsNext h
  | .persistentStreamTimeout .. => execPersistentStreamTimeout_keepsNext h
  | .atsInvalidation .. => execAtsInvalidation_keepsNext h
  | .expansionStep .. => execExpansionStep_keepsNext h
  | .rerankBatch .. => execRerankBatch_keepsNext h
  | .join .. => execJoin_keepsNext h
  | .shadowScan .. => execShadowScan_keepsNext h
  | .commitPhase .. => execCommitPhase_keepsNext h
  | .flushingReadReturn .. => execFlushingReadReturn_keepsNext h
  | .flushingReadFailed .. => execFlushingReadFailed_keepsNext h
  | .commitStep .. => execCommitStep_keepsNext h
  | .memberCommitReport .. => execMemberCommitReport_keepsNext h
  | .consolidationTrigger .. => execConsolidationTrigger_keepsNext h
  | .consolidationStep .. => execConsolidationStep_keepsNext h
  | .reclaimCheck .. => execReclaimCheck_keepsNext h
  | .hotsetRefresh .. => execHotsetRefresh_keepsNext h
  | .endMsg .. => execEndMsg_keepsNext h
  | .stepReport .. => execStepReport_keepsNext h
  | .stepTimeout .. => execStepTimeout_keepsNext h
  | .migrationTest .. => execMigrationTest_keepsNext h
  | .handoffCommit .. => execHandoffCommit_keepsNext h
  | .directoryChange .. => execDirectoryChange_keepsNext h
  | .forwardDone .. => execForwardDone_keepsNext h
  | .loadWindow .. => execLoadWindow_keepsNext h
  | .regulatorAdjust .. => execRegulatorAdjust_keepsNext h
  | .partRegRate .. => keepsNext_of_after (d := s) ⟨_, rfl⟩ (execPartRegRate_keeps h)
  | .partAcctClear .. => keepsNext_of_after (d := s) ⟨_, rfl⟩ (execPartAcctClear_keeps h)
  | .slowdownWindow .. => execSlowdownWindow_keepsNext h
  | .uncorrectableBurst .. => execUncorrectableBurst_keepsNext h
  | .slmEccError .. => execSlmEccError_keepsNext h
  | .patrolScrub .. => execPatrolScrub_keepsNext h
  | .stackTemperatureRead .. => execStackTemperatureRead_keepsNext h
  | .throttleLevelFall .. => execThrottleLevelFall_keepsNext h
  | .mapoutMark .. => execMapoutMark_keepsNext h
  | .mapoutWithdraw .. => execMapoutWithdraw_keepsNext h
  | .mapoutRestart .. => execMapoutRestart_keepsNext h
  | .tgStart .. => keepsNext_of_after (d := s) ⟨_, rfl⟩ (execTgStart_keeps h)
  | .tgStop .. => keepsNext_of_after (d := s) ⟨_, rfl⟩ (execTgStop_keeps h)
  | .tgDone .. => execTgDone_keepsNext h
  | .dpRestart .. => keepsNext_of_after (d := s) ⟨_, rfl⟩ (execDpRestart_keeps h)
  | .dpDone .. => execDpDone_keepsNext h
  | .hifEventMask .. => execHifEventMask_keepsNext h
  | .vfEventMask .. => execVfEventMask_keepsNext h
  | .registerWrite .. => execRegisterWrite_keepsNext h
  | .bar2Read .. => execBar2Read_keepsNext h
  | .bar2Write .. => execBar2Write_keepsNext h
  | .msixUnmask .. => keepsNext_of_after (d := s) ⟨_, rfl⟩ (execMsixUnmask_keeps h)
  | .vfEnable .. => execVfEnable_keepsNext h
  | .configurationWrite .. => execConfigurationWrite_keepsNext h
  | .perstAssert => execPerstAssert_keepsNext h
  | .perstDeassert => execPerstDeassert_keepsNext h
  | .hotReset => execHotReset_keepsNext h
  | .linkDown => execLinkDown_keepsNext h
  | .pfFlr => execPfFlr_keepsNext h
  | .vfFlr .. => execVfFlr_keepsNext h
  | .d3hotEntry => execD3hotEntry_keepsNext h
  | .d0Transition => execD0Transition_keepsNext h
  | .csqHeartbeatLost .. => execCsqHeartbeatLost_keepsNext h
  | .spareActivated .. => execSpareActivated_keepsNext h
  | .activate .. => keepsNext_of_after (d := s) ⟨_, rfl⟩ (execActivate_keeps h)
  | .retire .. => keepsNext_of_after (d := s) ⟨_, rfl⟩ (execRetire_keeps h)
  | .reinstate .. => keepsNext_of_after (d := s) ⟨_, rfl⟩ (execReinstate_keeps h)
  | .csvHeartbeatLost .. => execCsvHeartbeatLost_keepsNext h
  | .bypassTimeout .. => execBypassTimeout_keepsNext h
  | .watchdog => execWatchdog_keepsNext h
  | .engineFault .. => execEngineFault_keepsNext h
  | .illegalWorkEntry .. => execIllegalWorkEntry_keepsNext h
  | .carafeEccError .. => execCarafeEccError_keepsNext h
  | .uncorrectableFlit .. => execUncorrectableFlit_keepsNext h
  | .meshEnable => keepsNext_of_after (d := s) ⟨_, rfl⟩ (execMeshEnable_keeps h)
  | .meshDisable => keepsNext_of_after (d := s) ⟨_, rfl⟩ (execMeshDisable_keeps h)
  | .portEnable .. => execPortEnable_keepsNext h
  | .retrain .. => execRetrain_keepsNext h
  | .routeCommit .. => keepsNext_of_after (d := s) ⟨_, rfl⟩ (execRouteCommit_keeps h)
  | .key .. => execKey_keepsNext h
  | .flitReceived .. => execFlitReceived_keepsNext h
  | .data .. => execData_keepsNext h
  | .readReq .. => execReadReq_keepsNext h
  | .cmd .. => execCmd_keepsNext h
  | .result .. => execResult_keepsNext h
  | .chain .. => execChain_keepsNext h
  | .arrive .. => execArrive_keepsNext h
  | .release .. => execRelease_keepsNext h
  | .barrierTimeout .. => execBarrierTimeout_keepsNext h
  | .loadFrame .. => execLoadFrame_keepsNext h
  | .probe .. => execProbe_keepsNext h
  | .ack .. => execAck_keepsNext h
  | .nack .. => execNack_keepsNext h
  | .time .. => execTime_keepsNext h
  | .portFrame .. => execPortFrame_keepsNext h
  | .timeExchangeTick => execTimeExchangeTick_keepsNext h
  | .resendTimeout .. => execResendTimeout_keepsNext h
  | .unreachableProbe .. => execUnreachableProbe_keepsNext h
  | .rekey .. => execRekey_keepsNext h
  | .rekeyTimeout .. => execRekeyTimeout_keepsNext h
  | .lossOfLock .. => execLossOfLock_keepsNext h
  | .fecErrorThreshold .. => execFecErrorThreshold_keepsNext h
  | .replayThreshold .. => execReplayThreshold_keepsNext h
  | .flitTimeout .. => execFlitTimeout_keepsNext h
  | .portRetry .. => execPortRetry_keepsNext h
  | .routeReturn .. => execRouteReturn_keepsNext h
  | .debugChallenge => execDebugChallenge_keepsNext h
  | .debugToken .. => execDebugToken_keepsNext h
  | .debugLock => execDebugLock_keepsNext h
  | .lockInterfaceRequest .. => execLockInterfaceRequest_keepsNext h
  | .startInterfaceRequest .. => execStartInterfaceRequest_keepsNext h
  | .stopInterfaceRequest .. => execStopInterfaceRequest_keepsNext h
  | .getDeviceInterfaceReport .. => execGetDeviceInterfaceReport_keepsNext h
  | .getDeviceInterfaceState .. => execGetDeviceInterfaceState_keepsNext h
  | .getTdispVersion .. => execGetTdispVersion_keepsNext h
  | .getTdispCapabilities .. => execGetTdispCapabilities_keepsNext h
  | .kSetStop .. => execKSetStop_keepsNext h
  | .ideKm .. => execIdeKm_keepsNext h
  | .getMeasurements .. => execGetMeasurements_keepsNext h
  | .spdmRequest .. => execSpdmRequest_keepsNext h
  | .mctpMessage .. => keepsNext_of_after (d := s) ⟨_, rfl⟩ (execMctpMessage_keeps h)
  | .recoveryWrite .. => keepsNext_of_after (d := s) ⟨_, rfl⟩ (execRecoveryWrite_keeps h)
  | .recoveryFinish .. => keepsNext_of_after (d := s) ⟨_, rfl⟩ (execRecoveryFinish_keeps h)
  | .setEndpointId .. => execSetEndpointId_keepsNext h
  | .pldmRequest .. => execPldmRequest_keepsNext h
  | .requestUpdate => execRequestUpdate_keepsNext h
  | .activateFirmware .. => execActivateFirmware_keepsNext h
  | .applyComplete .. => execApplyComplete_keepsNext h
  | .thymeRate .. => keepsNext_of_after (d := s) ⟨_, rfl⟩ (execThymeRate_keeps h)
  | .thymeOffsetAdj .. => keepsNext_of_after (d := s) ⟨_, rfl⟩ (execThymeOffsetAdj_keeps h)
  | .thymeSnapTrig => keepsNext_of_after (d := s) ⟨_, rfl⟩ (execThymeSnapTrig_keeps h)
  | .ppsEdge .. => execPpsEdge_keepsNext h
  | .ppsAbsent => execPpsAbsent_keepsNext h
  | .hostTimeTimeout => execHostTimeTimeout_keepsNext h
  | .refclkAonLoss => execRefclkAonLoss_keepsNext h
  | .refclkAonReturn => execRefclkAonReturn_keepsNext h
  | .refclkPcieLoss => execRefclkPcieLoss_keepsNext h
  | .refclkClLoss => execRefclkClLoss_keepsNext h
  | .vaonSwitchToB => execVaonSwitchToB_keepsNext h
  | .vaonReturnToA => execVaonReturnToA_keepsNext h
  | .vaonLoss => execVaonLoss_keepsNext h
  | .vaonPowerOn .. => execVaonPowerOn_keepsNext h
  | .pgAssert .. => execPgAssert_keepsNext h
  | .pgLoss .. => execPgLoss_keepsNext h
  | .sequenceFailure .. => execSequenceFailure_keepsNext h
  | .railResequence => execRailResequence_keepsNext h
  | .hotspotThrottle .. => execHotspotThrottle_keepsNext h
  | .hotspotThrottleEnd .. => execHotspotThrottleEnd_keepsNext h
  | .thermalTrip .. => execThermalTrip_keepsNext h
  | .thermTripRelease .. => execThermTripRelease_keepsNext h
  | .memberNotReturnedByD .. => execMemberNotReturnedByD_keepsNext h
  | .linkUp .. => execLinkUp_keepsNext h
  | .portTrainingComplete .. => execPortTrainingComplete_keepsNext h
  | .hostAccessFailure .. => execHostAccessFailure_keepsNext h
  | .ideIntegrityFailure .. => execIdeIntegrityFailure_keepsNext h
  | .addressParityError .. => execAddressParityError_keepsNext h
  | .sageEccError => execSageEccError_keepsNext h
  | .csvError .. => execCsvError_keepsNext h
  | .sensorUpdate .. => execSensorUpdate_keepsNext h
  | .standInDrainTimeout .. => execStandInDrainTimeout_keepsNext h
  | .activationKill => execActivationKill_keepsNext h
  | .pciePhyDigestPassed => execPciePhyDigestPassed_keepsNext h
  | .stageRunning => execStageRunning_keepsNext h

end Rows

/-- One step of the block, whether a command or a tick. -/
theorem step_keepsNext (s : State) : keepsNext s (step s) := by
  unfold step
  split
  · exact keepsNext_of (tickAll_keeps keeps_refl)
  · exact exec_keepsNext (keeps_of_view keeps_refl rfl) _

end Sys2Proof.Machine

namespace Sys2Proof.Proofs

open Sys2Proof.Machine Sys2Proof.Safety Sys2Proof.Laws

/-- Settles O56: every command and the tick keep the invariant, by the laws of the operations they compose. -/
theorem stepKeepsSound : Obligations.StepKeepsSound := by
  intro s t hs hstep
  obtain ⟨u, hu, _, hsound⟩ := step_keepsNext s
  obtain rfl : u = t := by simpa [hstep] using hu.symm
  exact hsound hs

end Sys2Proof.Proofs
end

section
/-! The state after reset (O55). -/

namespace Sys2Proof.Proofs

open Sys2Proof.Machine Sys2Proof.Safety Sys2Proof.Laws

theorem resetCores_length : resetCores.length = 144 := (List.length_map _).trans List.length_range

theorem reset_shaped : shaped State.reset :=
  ⟨rfl, List.length_replicate, resetCores_length, List.length_replicate, List.length_replicate, List.length_replicate,
    List.length_replicate, List.length_replicate, List.length_replicate, List.length_replicate, rfl, rfl⟩

/-- Nothing is written at reset: every byte space is the fresh one. -/
theorem reset_memOk : memOk State.reset := (partsKeep_fresh (xs := [])).2 fun _ hx => absurd hx List.not_mem_nil

/-- No fuse is blown at shipment (log 6). -/
theorem reset_secOk : secOk State.reset.sec := ⟨Nat.zero_le _, fun hclosed => absurd hclosed Bool.false_ne_true⟩

theorem reset_named : named State.reset := ⟨List.nodup_nil, fun _ hc => absurd hc List.not_mem_nil⟩

/-- Settles O55, part by part. -/
theorem resetIsSound : Obligations.ResetIsSound :=
  ⟨⟨reset_shaped, reset_memOk, Nat.zero_le _, reset_secOk, reset_named⟩, rfl, rfl, rfl⟩

end Sys2Proof.Proofs
end

section
/-! Thyme and its source (O49): what a change of source, the choice of the reference, an edge and a hot reset leave of Thyme and of the
package, then the clauses of the statement row by row. -/

namespace Sys2Proof.Machine

open Sys2Proof.Safety Sys2Proof.Laws

/-! ### What stays -/

theorem foldl_eq_of_step {α β : Type} {g : State → β} {f : State → α → State} (hf : ∀ a x, g (f a x) = g a) (l : List α) (s : State) :
    g (l.foldl f s) = g s := by
  induction l generalizing s with
  | nil => rfl
  | cons x l ih => rw [List.foldl_cons, ih, hf]

theorem State.log_time (s : State) (e : LogEntry) : (s.log e).time = s.time := State.log_only only_refl (incl_self _) .time (by decide)

theorem State.logTime_time (s : State) (n : Nat) : (s.logTime n).time = s.time := State.log_time s _

theorem State.raiseTime_time (s : State) : s.raiseTime.time = s.time := State.raiseAll_only only_refl (incl_self _) .time (by decide)

/-- An event raised leaves the error log as it is. -/
theorem State.raiseAll_log (s : State) (b : Nat) (ps : List PartNo) : (s.raiseAll b ps).ras.log = s.ras.log :=
  (State.raiseAll_only only_refl (incl_self _) .rasLog (by decide)).1

/-- The newest entry stays among the 256 that the log holds (R558). -/
theorem State.logs_log (s : State) (e : LogEntry) : { e with seq := s.ras.nextSeq, stamp := s.now } ∈ (s.log e).ras.log := by
  unfold State.log
  rw [State.raiseAll_log]
  dsimp only
  rw [List.drop_append_of_le_length (by simp)]
  simp

/-! ### The source (R545) -/

/-- Of Thyme's registers nothing but the source, and from when HOLDOVER counts, is changed. -/
def TimeSt.onlySource (a b : TimeSt) : Prop := ∃ src base since, b = { a with source := src, holdBase := base, holdSince := since }

theorem TimeSt.onlySource_refl (a : TimeSt) : a.onlySource a := ⟨_, _, _, rfl⟩

theorem TimeSt.onlySource_trans {a b c : TimeSt} (h : a.onlySource b) (k : b.onlySource c) : a.onlySource c := by
  obtain ⟨_, _, _, rfl⟩ := h
  obtain ⟨_, _, _, rfl⟩ := k
  exact ⟨_, _, _, rfl⟩

theorem TimeSt.onlySource.thyme {a b : TimeSt} (h : a.onlySource b) : b.thyme = a.thyme := by
  obtain ⟨_, _, _, rfl⟩ := h
  rfl

theorem TimeSt.onlySource.rate {a b : TimeSt} (h : a.onlySource b) : b.rate = a.rate := by
  obtain ⟨_, _, _, rfl⟩ := h
  rfl

theorem TimeSt.onlySource.slewLeft {a b : TimeSt} (h : a.onlySource b) : b.slewLeft = a.slewLeft := by
  obtain ⟨_, _, _, rfl⟩ := h
  rfl

/-- A change of source, and nothing where it is the source already (R545). -/
theorem State.setSource_time (s : State) (src : Source) : (s.setSource src).time =
    if s.time.source = src then s.time
    else { s.time with
      source := src
      holdBase := if src = .holdover then s.time.errorEst else s.time.holdBase
      holdSince := if src = .holdover then s.time.clk else s.time.holdSince } := by
  unfold State.setSource
  split
  · rfl
  dsimp only
  split
  · rw [State.raiseTime_time, State.logTime_time]
  split
  · rw [State.raiseTime_time, State.logTime_time]
  · rfl

theorem State.setSource_onlySource (s : State) (src : Source) : s.time.onlySource (s.setSource src).time := by
  rw [State.setSource_time]
  split
  · exact TimeSt.onlySource_refl _
  · exact ⟨_, _, _, rfl⟩

/-- The same of a Thyme just written, whatever has been written. -/
theorem State.setSource_withTime (s : State) (x : TimeSt) (src : Source) : x.onlySource (State.setSource { s with time := x } src).time :=
  State.setSource_onlySource _ src

@[simp] theorem State.setSource_source (s : State) (src : Source) : (s.setSource src).time.source = src := by
  rw [State.setSource_time]
  split
  · assumption
  · rfl

/-- Leaving HOST for HOLDOVER, or any entry into HOLDOVER, is logged as TIME event 1 (R545, R560). -/
theorem State.setSource_holdover_logs {s : State} (h : s.time.source ≠ .holdover) :
    logs s (s.setSource .holdover) fun e => e.kind = kTime ∧ rd e.detail 0 1 = 1 := by
  unfold State.setSource
  rw [if_neg h]
  extract_lets was _ t
  rw [if_pos rfl]
  have hin := State.logs_log t { seq := 0, kind := kTime, scope := scSage, detail := detail [(24, toLe 1 1), (25, toLe 1 t.time.source.code)] }
  rw [← State.raiseAll_log _ evTime (t.logTime 1).present] at hin
  have hevent : rd (detail [(24, toLe 1 1), (25, toLe 1 Source.holdover.code)]) 0 1 = 1 := by decide
  exact ⟨_, hin, rfl, rfl, rfl, hevent⟩

theorem State.chooseRef_onlySource (s : State) : s.time.onlySource s.chooseRef.time := by
  unfold State.chooseRef
  split
  · exact TimeSt.onlySource_refl _
  extract_lets was _ t u
  have hu : u.time = s.time := by
    unfold u
    split
    · rfl
    · rw [State.raiseTime_time, State.logTime_time]
  clear_value u
  split
  · rw [hu]; exact TimeSt.onlySource_refl _
  split
  · exact hu ▸ State.setSource_onlySource u _
  · exact hu ▸ State.setSource_onlySource u _

/-- Only a lost parent changes the source when the reference is chosen (R490). -/
theorem State.chooseRef_time {s : State} (h : s.time.source ≠ .mesh) : s.chooseRef.time = s.time := by
  unfold State.chooseRef
  split
  · rfl
  extract_lets was _ t u
  have hu : u.time = s.time := by
    unfold u
    split
    · rfl
    · rw [State.raiseTime_time, State.logTime_time]
  rw [if_pos (by simp [hu, h])]
  exact hu

theorem State.relocked_onlySource (s : State) (was : PpsState) : s.time.onlySource (s.relocked was).time := by
  unfold State.relocked
  split
  · exact TimeSt.onlySource_refl _
  · exact State.chooseRef_onlySource s

theorem State.relocked_time {s : State} (was : PpsState) (h : s.time.source ≠ .mesh) : (s.relocked was).time = s.time := by
  unfold State.relocked
  split
  · rfl
  · exact State.chooseRef_time h

theorem State.relocked_eq {s : State} {was : PpsState} (h : (s.time.ppsState == .locked) = (was == .locked)) : s.relocked was = s :=
  if_pos (by simp [h])

/-- PPS_IN lost as the source (R545), then the reference chosen where the lock changed: what PPS_ABSENT and TIME_CONFIGURE_PPS end with. -/
def State.withoutPps (s : State) (was : PpsState) : State := (if s.time.source = .pps then s.setSource .holdover else s).relocked was

theorem State.withoutPps_onlySource (s : State) (was : PpsState) : s.time.onlySource (s.withoutPps was).time := by
  refine TimeSt.onlySource_trans ?_ (State.relocked_onlySource _ was)
  split
  · exact State.setSource_onlySource s _
  · exact TimeSt.onlySource_refl _

/-- PPS as the source gives way to HOLDOVER; any other source but the mesh stays. -/
theorem State.withoutPps_source {s : State} (was : PpsState) (h : s.time.source ≠ .mesh) :
    (s.withoutPps was).time.source = if s.time.source = .pps then .holdover else s.time.source := by
  unfold State.withoutPps
  split
  · rw [State.relocked_time was (by simp), State.setSource_source]
  · rw [State.relocked_time was h]

theorem State.withoutPps_cmds (s : State) (was : PpsState) : (s.withoutPps was).cmds = s.cmds :=
  State.relocked_only (ls := [.time, .rasLog, .fns, .meshRef, .out])
    (only_ite (State.setSource_only only_refl (by decide)) only_refl) (incl_self _) .cmds (by decide)

/-! ### Steps of Thyme (R159, R548) -/

theorem TimeSt.step_thyme (t : TimeSt) (d : Int) : (t.step d).thyme = ((t.thyme : Int) + d).toNat % 2 ^ 64 := by
  unfold TimeSt.step
  extract_lets th
  change _ = th
  clear_value th
  split <;> rfl

/-- A step back never brings Thyme ahead of a stamp clock that it was not ahead of. -/
theorem TimeSt.step_stampClock {t : TimeSt} {d : Int} (hd : d ≤ 0)
    (hle : t.thyme * nsUnit + t.thymeFrac ≤ t.stampClock * nsUnit + t.stampFrac) : (t.step d).stampClock = t.stampClock := by
  unfold TimeSt.step
  extract_lets th
  have hth : th ≤ t.thyme := Nat.le_trans (Nat.mod_le _ _) (by omega)
  clear_value th
  rw [if_neg (Nat.not_lt.mpr (Nat.le_trans (Nat.add_le_add_right (Nat.mul_le_mul_right nsUnit hth) _) hle))]

/-! ### The servo (R550) and the registers of PPS_IN -/

/-- The state of the lock and the account of the edges are the same. -/
def TimeSt.samePps (a b : TimeSt) : Prop :=
  b.ppsState = a.ppsState ∧ b.ppsAccepted = a.ppsAccepted ∧ b.ppsLast = a.ppsLast ∧ b.ppsPhase = a.ppsPhase

theorem TimeSt.samePps_trans {a b c : TimeSt} (h : a.samePps b) (k : b.samePps c) : a.samePps c := by
  obtain ⟨h1, h2, h3, h4⟩ := h
  obtain ⟨k1, k2, k3, k4⟩ := k
  exact ⟨k1.trans h1, k2.trans h2, k3.trans h3, k4.trans h4⟩

theorem TimeSt.onlySource.samePps {a b : TimeSt} (h : a.onlySource b) : a.samePps b := by
  obtain ⟨_, _, _, rfl⟩ := h
  exact ⟨rfl, rfl, rfl, rfl⟩

theorem TimeSt.step_samePps (t : TimeSt) (d : Int) : t.samePps (t.step d) := by
  unfold TimeSt.step
  extract_lets th
  split
  · exact ⟨rfl, rfl, rfl, rfl⟩
  · exact ⟨rfl, rfl, rfl, rfl⟩

theorem TimeSt.samePps_slew {t u : TimeSt} (h : t.samePps u) (v : Int) : t.samePps { u with slewLeft := v } := h

theorem TimeSt.correct_samePps (t : TimeSt) (e : Int) : t.samePps (t.correct e) := by
  unfold TimeSt.correct
  split
  · exact TimeSt.samePps_slew (TimeSt.step_samePps t (-e)) 0
  · exact TimeSt.samePps_slew ⟨rfl, rfl, rfl, rfl⟩ _

theorem State.ppsServo_samePps (s : State) (entering : Bool) : s.time.samePps (s.ppsServo entering).time := by
  unfold State.ppsServo
  split
  · have hsrc := (State.setSource_onlySource s .pps).samePps
    dsimp only
    split
    · exact TimeSt.samePps_trans hsrc (TimeSt.correct_samePps { (s.setSource .pps).time with servoSum := 0 } _)
    · exact hsrc
  · exact ⟨rfl, rfl, rfl, rfl⟩

/-! ### A hot reset and the reference clock of PCIe -/

theorem State.enGroup_refPcieGood (s : State) (g : Nat) (level : Bool) : (s.enGroup g level).pkg.refPcieGood = s.pkg.refPcieGood := by
  unfold State.enGroup
  split <;> rfl

theorem State.dropGroups_refPcieGood (s : State) (low : Nat) : (s.dropGroups low).pkg.refPcieGood = s.pkg.refPcieGood :=
  foldl_eq_of_step (g := fun a => a.pkg.refPcieGood) (fun a _ => State.enGroup_refPcieGood a _ _) _ _

theorem State.endTest_pkg (s : State) (cid : Nat) : (s.endTest cid).pkg = s.pkg :=
  State.endTest_only only_refl (incl_self _) .pkg (by decide)

theorem State.jAbandon_pkg (s : State) (p : PartNo) : (s.jAbandon p).pkg = s.pkg :=
  State.jAbandon_only only_refl (incl_self _) .pkg (by decide)

theorem State.endWhere_pkg (s : State) (f : Cmd → Bool) : (s.endWhere f).pkg = s.pkg :=
  State.endWhere_only only_refl (incl_self _) .pkg (by decide)

theorem State.destroyContents_pkg (s : State) (p : PartNo) : (s.destroyContents p).pkg = s.pkg :=
  State.destroyContents_only only_refl (incl_self _) .pkg (by decide)

theorem State.rekeyPart_pkg (s : State) (p : PartNo) : (s.rekeyPart p).pkg = s.pkg :=
  State.rekeyPart_only only_refl (incl_self _) .pkg (by decide)

theorem State.afterKill_refPcieGood (s : State) : s.afterKill.pkg.refPcieGood = s.pkg.refPcieGood := by
  unfold State.afterKill
  extract_lets gone u live lost v stops _ _
  have hu : u.pkg = s.pkg := foldl_eq_of_step State.endTest_pkg _ _
  show v.pkg.refPcieGood = _
  unfold v
  split
  · rw [State.dropGroups_refPcieGood, hu]
  · rw [hu]

theorem State.clearQueues_refPcieGood (s : State) (f : Fn → Bool) : (s.clearQueues f).pkg.refPcieGood = s.pkg.refPcieGood := by
  unfold State.clearQueues
  rw [State.afterKill_refPcieGood]
  dsimp only
  rw [foldl_eq_of_step (g := State.pkg) State.jAbandon_pkg, State.endWhere_pkg]

theorem State.vfReset_refPcieGood (s : State) (p : PartNo) : (s.vfReset p).pkg.refPcieGood = s.pkg.refPcieGood := by
  unfold State.vfReset
  dsimp only
  split
  · rw [State.rekeyPart_pkg, State.destroyContents_pkg, State.modPart_pkg, State.modFn_pkg, State.clearQueues_refPcieGood]
  · rw [State.modPart_pkg, State.modFn_pkg, State.clearQueues_refPcieGood]

theorem State.pfReset_refPcieGood (s : State) : s.pfReset.pkg.refPcieGood = s.pkg.refPcieGood := by
  unfold State.pfReset
  dsimp only
  rw [foldl_eq_of_step (g := fun a => a.pkg.refPcieGood) State.vfReset_refPcieGood]
  dsimp only
  rw [State.modFn_pkg, State.clearQueues_refPcieGood]

theorem State.hotReset_refPcieGood (s : State) (bit : Nat) : (s.hotReset bit).pkg.refPcieGood = s.pkg.refPcieGood := by
  unfold State.hotReset
  dsimp only
  rw [State.pfReset_refPcieGood]
  rfl

/-! ### Checks and the end of a command -/

theorem reservedErr_eq_none {bs : Bytes} {base : Nat} {l : List (Nat × Nat)} : reservedErr bs base l = none ↔ zeroAt bs l := by
  simp [reservedErr, zeroAt]

theorem zeroAt_of_subset {bs : Bytes} {l l' : List (Nat × Nat)} (h : zeroAt bs l) (hsub : l' ⊆ l) : zeroAt bs l' := fun r hr => h r (hsub hr)

theorem State.finish_withTime (s : State) (x : TimeSt) (cid : Nat) (r : Compl) : (State.finish { s with time := x } cid r).time = x := rfl

theorem State.cmd_withTime (s : State) (x : TimeSt) (cid : Nat) : State.cmd? { s with time := x } cid = s.cmd? cid := rfl

theorem State.ended_finish {s : State} {cid : Nat} {c : Cmd} (r : Compl) (hc : s.cmd? cid = some c) : ended (s.finish cid r) cid r := by
  refine ⟨⟨_, by rw [State.finish_cmd, hc]; rfl, rfl, rfl, rfl, rfl, rfl, rfl⟩, State.finish_locks s cid r, fun x hx hcid => ?_⟩
  obtain ⟨y, -, rfl⟩ := List.mem_map.mp (show x ∈ s.ctxs.map fun c => if c.cid == cid then { c with state := .leaving } else c from hx)
  split at hcid
  · simp [*]
  · simp_all

/-! ### TIME_CONFIGURE (R548) -/

/-- ACTION 0 steps Thyme and ends the command. -/
theorem exec_timeConfigureStep {s : State} {cid : Nat} {c : Cmd} (hc : adminAt s cid 0x0F c) (haction : c.f 16 1 = 0)
    (hzero : zeroAt c.packet [(17, 7), (32, 32)]) (hsource : s.devHost mTime = true ∨ s.time.source ≠ .mesh)
    (hlocked : s.time.ppsState = .locked → signed 64 (c.f 24 8) % 1000000000 = 0) :
    exec (.timeConfigureStep cid) s =
      .next (State.finish { s with time := s.time.step (signed 64 (c.f 24 8)) } cid {}) := by
  obtain ⟨-, hcmd, hready, hdep⟩ := hc
  refine congrArg Host.Outcome.next (State.admin_ok hcmd hready (by simp [haction]) hdep ?_)
  have hbody : timeConfigureErr c = none := reservedErr_eq_none.mpr hzero
  have hmesh : failIf (!s.devHost mTime && s.time.source == .mesh) (errAt stInvalidField 24) = none := by
    rw [failIf_eq_none]
    rcases hsource with h | h <;> simp [h]
  have hwhole : failIf (s.time.ppsState == .locked && signed 64 (c.f 24 8) % 1000000000 != 0) (errAt stInvalidField 24) = none := by
    rw [failIf_eq_none]
    by_cases h : s.time.ppsState = .locked
    · simp [hlocked h]
    · simp [h]
  simp [hbody, hmesh, hwhole]

/-- PPS_IN configured anew, before its loss as a source. -/
def State.ppsConfigured (s : State) (c : Cmd) : State :=
  { s with time := { s.time with
    ppsEnable := (c.f 24 1).testBit 0, ppsFalling := (c.f 24 1).testBit 1, ppsOffset := signed 32 (c.f 28 4)
    ppsState := if (c.f 24 1).testBit 0 then .acquiring else .disabled
    ppsGood := 0, ppsPrevEdge := none, ppsRejRun := 0, ppsWatch := s.time.thyme } }

theorem and_reserved_of_lt_four {n : Nat} (h : n < 4) : n &&& 0xFC = 0 := by
  have hall : ∀ k < 4, k &&& 0xFC = 0 := by decide
  exact hall n h

/-- ACTION 1 configures PPS_IN, takes it from Thyme and ends the command. -/
theorem exec_timeConfigurePps {s : State} {cid : Nat} {c : Cmd} (hc : adminAt s cid 0x0F c) (haction : c.f 16 1 = 1)
    (hzero : zeroAt c.packet [(17, 7), (32, 32), (25, 3)]) (hflags : c.f 24 1 < 4) (hoffset : (signed 32 (c.f 28 4)).natAbs ≤ 1000000) :
    exec (.timeConfigurePps cid) s = .next (((s.ppsConfigured c).withoutPps s.time.ppsState).finish cid {}) := by
  obtain ⟨-, hcmd, hready, hdep⟩ := hc
  refine congrArg Host.Outcome.next (State.admin_ok hcmd hready (by simp [haction]) hdep ?_)
  have hbody : timeConfigureErr c = none := reservedErr_eq_none.mpr (zeroAt_of_subset hzero (List.subset_append_left [(17, 7), (32, 32)] [(25, 3)]))
  have haction' : failIf (c.f 16 1 > 1) (errAt stInvalidField 16) = none :=
    failIf_eq_none.mpr (decide_eq_false (by omega))
  have hbits : reservedBits c.packet 0 24 0xFC = none := by
    have h : rd c.packet 24 1 &&& 0xFC = 0 := and_reserved_of_lt_four hflags
    simp [reservedBits, h]
  have hpad : reservedErr c.packet 0 [(25, 3)] = none :=
    reservedErr_eq_none.mpr (zeroAt_of_subset hzero (List.subset_append_right [(17, 7), (32, 32)] [(25, 3)]))
  have hrange : failIf ((signed 32 (c.f 28 4)).natAbs > 1000000) (errAt stInvalidField 28) = none :=
    failIf_eq_none.mpr (decide_eq_false (by omega))
  simp [hbody, haction', hbits, hpad, hrange]

/-! ### The edges of PPS_IN (R549) -/

/-- An edge within 1000 ns of its instant is counted and keeps the lock. -/
theorem ppsEdge_locked {s : State} (hlock : s.time.ppsState = .locked) (hphase : s.time.phase.natAbs ≤ 1000) :
    ∃ t, exec (.ppsEdge true) s = .next t ∧ s.time.accept.samePps t.time := by
  have hservo := State.ppsServo_samePps { s with time := s.time.accept } false
  have hedge : s.ppsEdge = State.ppsServo { s with time := s.time.accept } false := by
    unfold State.ppsEdge
    simp only [hlock, hphase, if_true]
  have hkept : s.ppsEdge.relocked s.time.ppsState = s.ppsEdge := by
    apply State.relocked_eq
    rw [hedge, hservo.1]
    rfl
  refine ⟨s.ppsEdge, congrArg Host.Outcome.next hkept, ?_⟩
  rw [hedge]
  exact hservo

/-- The third edge in a row at its second locks. -/
theorem ppsEdge_acquiring {s : State} (hstate : s.time.ppsState = .acquiring) (hgood : s.time.good = true) (hrun : 2 ≤ s.time.ppsGood) :
    ∃ t, exec (.ppsEdge true) s = .next t ∧ t.time.ppsState = .locked := by
  have hlock : s.ppsEdge.time.ppsState = .locked := by
    unfold State.ppsEdge
    have hthree : 3 ≤ s.time.ppsGood + 1 := by omega
    simp only [hstate, hgood, hthree, if_true]
    exact (State.ppsServo_samePps _ true).1
  refine ⟨s.ppsEdge.relocked s.time.ppsState, rfl, ?_⟩
  obtain ⟨hkept, -⟩ := (State.relocked_onlySource s.ppsEdge s.time.ppsState).samePps
  rw [hkept, hlock]

/-- The first edge after a gap acquires anew. -/
theorem ppsEdge_absent {s : State} (hstate : s.time.ppsState = .absent) :
    ∃ t, exec (.ppsEdge true) s = .next t ∧ t.time.ppsState = .acquiring := by
  have hnew : s.ppsEdge.time.ppsState = .acquiring := by
    unfold State.ppsEdge
    simp only [hstate]
  have hsame : (s.ppsEdge.time.ppsState == .locked) = (s.time.ppsState == .locked) := calc
    (s.ppsEdge.time.ppsState == .locked) = (PpsState.acquiring == .locked) := by rw [hnew]
    _ = (PpsState.absent == .locked) := by decide
    _ = (s.time.ppsState == .locked) := by rw [hstate]
  exact ⟨s.ppsEdge, congrArg Host.Outcome.next (State.relocked_eq hsame), hnew⟩

theorem ppsEdge_disabled {s : State} (hstate : s.time.ppsState = .disabled) : exec (.ppsEdge true) s = .next s := by
  have hstill : s.ppsEdge = s := by
    unfold State.ppsEdge
    simp only [hstate]
  have hkept : s.ppsEdge.relocked s.time.ppsState = s := by rw [hstill, State.relocked_eq rfl]
  exact congrArg Host.Outcome.next hkept

/-- No accepted edge for 1.5 s: PPS_IN is absent and lost as the source. -/
theorem exec_ppsAbsent {s : State} (hlock : s.time.ppsState = .locked) (hlate : s.time.ppsWatch + 1500000000 ≤ s.time.thyme) :
    exec .ppsAbsent s = .next (State.withoutPps { s with time := { s.time with ppsState := .absent, ppsGood := 0 } } .locked) := by
  refine congrArg Host.Outcome.next ((if_pos ⟨by simp [hlock], by simp [hlock], hlate⟩).trans ?_)
  rw [hlock]
  rfl

theorem exec_ppsAbsent_early {s : State} (h : s.time.thyme < s.time.ppsWatch + 1500000000) : exec .ppsAbsent s = .next s :=
  congrArg Host.Outcome.next (if_neg fun ⟨_, _, hlate⟩ => by omega)

/-! ### The registers (R547) and the losses (R545, R552) -/

theorem exec_thymeRate {s : State} (v : Word32) (hlive : s.barLive = true) (hmode : s.devHost mTime = true) :
    exec (.thymeRate v) s =
      .next (State.setSource { s with time := { s.time with rate := clampRate v.toInt, lastHostTimeWrite := s.time.clk } } .host) :=
  congrArg Host.Outcome.next (if_pos (by simp [hlive, hmode]))

/-- Thyme with another slew left, as the host has just written it. -/
def TimeSt.hostSlew (t : TimeSt) (v : Int) (now : Nat) : TimeSt := { t with slewLeft := v, lastHostTimeWrite := now }

theorem TimeSt.hostSlew_slewLeft (t : TimeSt) (v : Int) (now : Nat) : (t.hostSlew v now).slewLeft = v := rfl

theorem TimeSt.hostSlew_thyme (t : TimeSt) (v : Int) (now : Nat) : (t.hostSlew v now).thyme = t.thyme := rfl

theorem TimeSt.hostSlew_ite (c : Prop) [Decidable c] (t u : TimeSt) (v : Int) (now : Nat) :
    { (if c then { t with slewLeft := v } else { u with slewLeft := 0 }) with lastHostTimeWrite := now } =
      if c then t.hostSlew v now else u.hostSlew 0 now := by
  split
  · rfl
  · rfl

/-- An offset as Thyme takes it: a slew up to 100 µs, a step above (R550). -/
def TimeSt.offset (t : TimeSt) (v : Int) : TimeSt :=
  if v.natAbs ≤ 100000 then t.hostSlew (v * 2 ^ 32) t.clk else (t.step v).hostSlew 0 t.clk

theorem TimeSt.offset_slew {t : TimeSt} {v : Int} (h : v.natAbs ≤ 100000) : t.offset v = t.hostSlew (v * 2 ^ 32) t.clk := if_pos h

theorem TimeSt.offset_step {t : TimeSt} {v : Int} (h : 100000 < v.natAbs) : t.offset v = (t.step v).hostSlew 0 t.clk :=
  if_neg (Nat.not_le.mpr h)

theorem exec_thymeOffsetAdj {s : State} (v : Word32) (hlive : s.barLive = true) (hmode : s.devHost mTime = true) :
    exec (.thymeOffsetAdj v) s = .next (State.setSource { s with time := s.time.offset v.toInt } .host) := by
  refine congrArg Host.Outcome.next ((if_pos (by simp [hlive, hmode])).trans ?_)
  exact congrArg (fun x => State.setSource { s with time := x } .host) (TimeSt.hostSlew_ite _ _ _ _ _)

/-- In hardware mode the host's rate and offset are ignored. -/
theorem exec_thyme_hardware {s : State} (v : Word32) (hmode : s.devHost mTime = false) :
    exec (.thymeRate v) s = .next s ∧ exec (.thymeOffsetAdj v) s = .next s :=
  ⟨congrArg Host.Outcome.next (if_neg (by simp [hmode])), congrArg Host.Outcome.next (if_neg (by simp [hmode]))⟩

theorem exec_thymeSnapTrig {s : State} (hlive : s.barLive = true) :
    exec .thymeSnapTrig s = .next { s with time := { s.time with snap := s.time.thyme } } :=
  congrArg Host.Outcome.next (if_pos hlive)

theorem exec_hostTimeTimeout {s : State} (hmode : s.devHost mTime = true) (hsource : s.time.source = .host)
    (hlate : s.time.lastHostTimeWrite * 40 + 4000000000 ≤ s.phys) : exec .hostTimeTimeout s = .next (s.setSource .holdover) :=
  congrArg Host.Outcome.next (if_pos ⟨hmode, hsource, hlate⟩)

end Sys2Proof.Machine

namespace Sys2Proof.Proofs

open Sys2Proof.Machine Sys2Proof.Safety Sys2Proof.Laws

theorem timeConfigureStep_steps {s : State} {cid : Nat} {c : Cmd} (hc : adminAt s cid 0x0F c) (haction : c.f 16 1 = 0)
    (hzero : zeroAt c.packet [(17, 7), (32, 32)]) (hsource : s.devHost mTime = true ∨ s.time.source ≠ .mesh)
    (hlocked : s.time.ppsState = .locked → signed 64 (c.f 24 8) % 1000000000 = 0) :
    ∃ t, exec (.timeConfigureStep cid) s = .next t ∧ ended t cid {} ∧
      t.time.thyme = ((s.time.thyme : Int) + signed 64 (c.f 24 8)).toNat % 2 ^ 64 ∧
      (signed 64 (c.f 24 8) ≤ 0 → s.time.thyme * nsUnit + s.time.thymeFrac ≤ s.time.stampClock * nsUnit + s.time.stampFrac →
        t.time.stampClock = s.time.stampClock) := by
  have hrun := exec_timeConfigureStep hc haction hzero hsource hlocked
  obtain ⟨-, hfound, -⟩ := hc
  have hcmd := (State.cmd_withTime s (s.time.step (signed 64 (c.f 24 8))) cid).trans hfound
  refine ⟨_, hrun, State.ended_finish {} hcmd, ?_, fun hback hbehind => ?_⟩
  · rw [State.finish_withTime, TimeSt.step_thyme]
  · rw [State.finish_withTime, TimeSt.step_stampClock hback hbehind]

theorem timeConfigurePps_configures {s : State} {cid : Nat} {c : Cmd} (hc : adminAt s cid 0x0F c) (haction : c.f 16 1 = 1)
    (hzero : zeroAt c.packet [(17, 7), (32, 32), (25, 3)]) (hflags : c.f 24 1 < 4) (hoffset : (signed 32 (c.f 28 4)).natAbs ≤ 1000000) :
    ∃ t, exec (.timeConfigurePps cid) s = .next t ∧ ended t cid {} ∧ t.time.ppsOffset = signed 32 (c.f 28 4) ∧
      t.time.ppsFalling = (c.f 24 1).testBit 1 ∧ t.time.ppsState = (if (c.f 24 1).testBit 0 then .acquiring else .disabled) ∧
      (s.time.source ≠ .mesh → t.time.source = (if s.time.source = .pps then .holdover else s.time.source)) := by
  have hcmd : ((s.ppsConfigured c).withoutPps s.time.ppsState).cmd? cid = some c := by
    obtain ⟨-, hfound, -⟩ := hc
    unfold State.cmd?
    rw [State.withoutPps_cmds]
    exact hfound
  refine ⟨_, exec_timeConfigurePps hc haction hzero hflags hoffset, State.ended_finish {} hcmd, ?_⟩
  rw [State.finish_time]
  obtain ⟨_, _, _, hkept⟩ := State.withoutPps_onlySource (s.ppsConfigured c) s.time.ppsState
  refine ⟨?_, ?_, ?_, fun hmesh => State.withoutPps_source (s := s.ppsConfigured c) _ hmesh⟩
  · rw [hkept]; rfl
  · rw [hkept]; rfl
  · rw [hkept]; rfl

/-- The host's registers of Thyme: honoured in host-assisted time mode, ignored in hardware mode, with the snapshot always its own. -/
theorem thymeRegisters {s : State} (v : Word32) (hlive : s.barLive = true) :
    (s.devHost mTime = true → ∃ t, exec (.thymeRate v) s = .next t ∧ t.time.rate = clampRate v.toInt ∧
      t.time.source = .host ∧ t.time.thyme = s.time.thyme) ∧
    (s.devHost mTime = true → v.toInt.natAbs ≤ 100000 → ∃ t, exec (.thymeOffsetAdj v) s = .next t ∧ t.time.slewLeft = v.toInt * 2 ^ 32 ∧
      t.time.thyme = s.time.thyme ∧ t.time.source = .host) ∧
    (s.devHost mTime = true → 100000 < v.toInt.natAbs → ∃ t, exec (.thymeOffsetAdj v) s = .next t ∧
      t.time.thyme = ((s.time.thyme : Int) + v.toInt).toNat % 2 ^ 64 ∧ t.time.slewLeft = 0) ∧
    (s.devHost mTime = false → exec (.thymeRate v) s = .next s ∧ exec (.thymeOffsetAdj v) s = .next s) ∧
    ∃ t, exec .thymeSnapTrig s = .next t ∧ t.time.snap = s.time.thyme ∧ t.time.thyme = s.time.thyme := by
  refine ⟨fun hmode => ?_, fun hmode hsmall => ?_, fun hmode hlarge => ?_, exec_thyme_hardware v, _, exec_thymeSnapTrig hlive, rfl, rfl⟩
  · have hkept := State.setSource_withTime s { s.time with rate := clampRate v.toInt, lastHostTimeWrite := s.time.clk } .host
    exact ⟨_, exec_thymeRate v hlive hmode, hkept.rate, State.setSource_source _ _, hkept.thyme⟩
  · have hkept := State.setSource_withTime s (s.time.offset v.toInt) .host
    have hoffset := TimeSt.offset_slew (t := s.time) hsmall
    refine ⟨_, exec_thymeOffsetAdj v hlive hmode, ?_, ?_, State.setSource_source _ _⟩
    · rw [hkept.slewLeft, hoffset, TimeSt.hostSlew_slewLeft]
    · rw [hkept.thyme, hoffset, TimeSt.hostSlew_thyme]
  · have hkept := State.setSource_withTime s (s.time.offset v.toInt) .host
    have hoffset := TimeSt.offset_step (t := s.time) hlarge
    refine ⟨_, exec_thymeOffsetAdj v hlive hmode, ?_, ?_⟩
    · rw [hkept.thyme, hoffset, TimeSt.hostSlew_thyme, TimeSt.step_thyme]
    · rw [hkept.slewLeft, hoffset, TimeSt.hostSlew_slewLeft]

theorem ppsAbsent_absent {s : State} (hlock : s.time.ppsState = .locked) (hlate : s.time.ppsWatch + 1500000000 ≤ s.time.thyme) :
    ∃ t, exec .ppsAbsent s = .next t ∧ t.time.ppsState = .absent ∧
      (s.time.source ≠ .mesh → t.time.source = (if s.time.source = .pps then .holdover else s.time.source)) := by
  refine ⟨_, exec_ppsAbsent hlock hlate, ?_, fun hmesh =>
    State.withoutPps_source (s := { s with time := { s.time with ppsState := .absent, ppsGood := 0 } }) _ hmesh⟩
  obtain ⟨hkept, -⟩ :=
    (State.withoutPps_onlySource { s with time := { s.time with ppsState := .absent, ppsGood := 0 } } .locked).samePps
  exact hkept

/-- The island runs from its own oscillator, in HOLDOVER. -/
theorem refclkAonLoss_holdover (s : State) :
    ∃ t, exec .refclkAonLoss s = .next t ∧ t.time.islandOsc = true ∧ t.time.source = .holdover ∧ t.pkg.refAonGood = false := by
  have hkept := State.setSource_onlySource { s with
    time := { s.time with islandOsc := true, holdBase := s.time.errorEst, holdSince := s.time.clk }
    pkg := { s.pkg with refAonGood := false } } .holdover
  obtain ⟨_, _, _, hkept⟩ := hkept
  refine ⟨_, rfl, ?_, State.setSource_source _ _, ?_⟩
  · rw [hkept]
  · exact congrArg PkgSt.refAonGood (State.setSource_only only_refl (incl_self _) .pkg (by decide))

/-- Without the reference clock of PCIe the link goes down. -/
theorem refclkPcieLoss_linkDown (s : State) :
    ∃ t, exec .refclkPcieLoss s = .next t ∧ t.pkg.refPcieGood = false ∧ t.hif.linkUp = false := by
  by_cases hup : s.hif.linkUp = true
  · exact ⟨_, congrArg Host.Outcome.next (if_pos hup), State.hotReset_refPcieGood _ 3, rfl⟩
  · exact ⟨_, congrArg Host.Outcome.next (if_neg hup), rfl, by simpa using hup⟩

/-- Settles O49, clause by clause: each row is one equation of `exec`, a change of source leaves Thyme's other registers as they are, and a
step back leaves the stamp clock. -/
theorem thymeFollowsItsSource : Obligations.ThymeFollowsItsSource := by
  unfold Obligations.ThymeFollowsItsSource
  refine ⟨?step, ?pps, fun s v => thymeRegisters v, fun s => ⟨?locked, ppsEdge_acquiring, ppsEdge_absent, ppsEdge_disabled, rfl⟩,
    fun s hlock => ⟨ppsAbsent_absent hlock, exec_ppsAbsent_early⟩, ?timeout,
    fun s => ⟨refclkAonLoss_holdover s, ⟨_, rfl, rfl, rfl, rfl⟩, refclkPcieLoss_linkDown s⟩⟩
  case step => exact fun s cid c => timeConfigureStep_steps
  case pps => exact fun s cid c => timeConfigurePps_configures
  case locked =>
    intro hlock hphase
    obtain ⟨t, hrun, hstate, haccepted, hlast, hmeasured⟩ := ppsEdge_locked hlock hphase
    exact ⟨t, hrun, hstate.trans hlock, haccepted, hlast, hmeasured⟩
  case timeout =>
    intro s hmode hsource hlate
    exact ⟨_, exec_hostTimeTimeout hmode hsource hlate, State.setSource_source s _, State.setSource_holdover_logs (by simp [hsource])⟩

end Sys2Proof.Proofs
end
